-- ==== Sys2Proof/Word.lean ====
section
/-! DEFINITION. The words of the machine: bytes, the 32-bit lane registers, the 64-bit uniform registers and the
256-bit buffer records (R5, R36, R98, R100). -/

namespace Sys2Proof

/-- A byte of memory or scratchpad (R5). -/
abbrev Byte := BitVec 8

/-- A vector register of one lane (R100). -/
abbrev W32 := BitVec 32

/-- A uniform register, a pair of vector registers or a thread id (R45, R98, R100). -/
abbrev W64 := BitVec 64

/-- A buffer-record register (R36). -/
abbrev W256 := BitVec 256

end Sys2Proof
end

