-- ==== Sys2Proof/Config.lean ====
section
/-! DEFINITION. What the spec leaves open: constants without a body, so that nothing can be proved of a value that the
manual does not give. -/

namespace Sys2Proof.Config

/-- The start value of a core's clock counter: "Each counter starts from an arbitrary value" (R434). The arguments are
the core and the count of resets of its die. Log entry 5. -/
opaque clockStart : Nat → Nat → W64

/-- The bits of a full delta (R87, R379): the manual gives its fill, 255, and not its bits. The argument is the count of
clocks. Log entry 6. -/
opaque fullDelta : Nat → BitVec 256

/-- The package power read over the sideband at a count of clocks (R459). Log entry 7. -/
opaque power : Nat → BitVec 32

/-- The levels of the balls that SAMPLE captures (R460), for the n-th capture. Log entry 8. -/
opaque sampled : Nat → List Bool

/-- Which line a full L1 or L2, or which entry a full translation buffer, gives up when no rule names one (R190, R199,
R307): the manual gives no rule. The argument is a fresh number. Log entry 9. -/
opaque victim : Nat → Nat

/-- Whether the security sublayer accepts a peer, a parameter index and a key (R64): the manual gives no rule. Log
entry 73. -/
opaque sublayerTakes (peer spi : Nat) (key : List Byte) : Bool

end Sys2Proof.Config
end

