-- ==== Sys2Proof/Machine/Bits.lean ====
section
/-! DEFINITION. Bit fields of natural numbers, signed readings, little-endian bytes (R5), and the sorted tables in which
the state holds sparse data.
Readings logged: DESIGN CHOICE 1. -/

namespace Sys2Proof.Machine

/-- Bits [lo+n-1 : lo] of a word. -/
def fld (w lo n : Nat) : Nat := w / 2 ^ lo % 2 ^ n

/-- Bit i of a word. -/
def bit (w i : Nat) : Bool := w / 2 ^ i % 2 == 1

/-- zext(x, n) of R108. -/
def zext (x n : Nat) : Nat := x % 2 ^ n

/-- sext(x, n) of R108. -/
def sext (x n : Nat) : Int := if 2 * (x % 2 ^ n) < 2 ^ n then (x % 2 ^ n : Nat) else (x % 2 ^ n : Nat) - (2 ^ n : Nat)

/-- The low n bits of an integer (R11). -/
def low (n : Nat) (z : Int) : Nat := (z % (2 ^ n : Nat)).toNat

/-- A one-bit field. -/
def b2n (b : Bool) : Nat := if b then 1 else 0

/-- A field of `n` bits replaced. -/
def setFld (w lo n x : Nat) : Nat := w - fld w lo n * 2 ^ lo + x % 2 ^ n * 2 ^ lo

/-- Whether bits [63:57] all copy bit 56 (R126). -/
def canonical (va : Nat) : Bool := fld va 56 8 == 0 || fld va 56 8 == 255

/-- A base of 57 bits as an address of 64 bits (R191). -/
def sextVa (x : Nat) : Nat := low 64 (sext x 57)

/-- Little-endian bytes of a number (R5). -/
def toBytes : Nat → Nat → List Byte
  | 0, _ => []
  | n + 1, x => BitVec.ofNat 8 x :: toBytes n (x / 256)

/-- The number that little-endian bytes hold (R5). -/
def ofBytes : List Byte → Nat
  | [] => 0
  | b :: bs => b.toNat + 256 * ofBytes bs

/-- The numbers 0 to n - 1. -/
def upto (n : Nat) : List Nat := List.range n

/-- The set bits of a mask below n, ascending. -/
def bitsOf (w n : Nat) : List Nat := (upto n).filter (bit w)

/-- The mask of a list of distinct bit numbers. -/
def maskOf (l : List Nat) : Nat := l.foldl (fun w i => if bit w i then w else w + 2 ^ i) 0

/-- A number rounded down to a multiple. -/
def floorTo (n x : Nat) : Nat := x / n * n

/-- A quotient rounded up. -/
def ceilDiv (a b : Nat) : Nat := (a + b - 1) / b

/-- A sparse table: keys strictly rising. -/
abbrev Tbl (β : Type) := List (Nat × β)

namespace Tbl
variable {β : Type}

/-- The entry of a key. -/
def find? : Tbl β → Nat → Option β
  | [], _ => none
  | (k, v) :: t, x => if k = x then some v else find? t x

/-- The entry of a key, or a default. -/
def get (d : β) (t : Tbl β) (x : Nat) : β := (find? t x).getD d

/-- A table with an entry set. -/
def set : Tbl β → Nat → β → Tbl β
  | [], x, y => [(x, y)]
  | (k, v) :: t, x, y => if k = x then (x, y) :: t else if x < k then (x, y) :: (k, v) :: t else (k, v) :: set t x y

/-- A table without an entry. -/
def erase (t : Tbl β) (x : Nat) : Tbl β := t.filter (fun e => e.1 ≠ x)

/-- A write that keeps the canonical form: an entry equal to the default is not listed. -/
def put [DecidableEq β] (d : β) (t : Tbl β) (x : Nat) (y : β) : Tbl β := if y = d then erase t x else set t x y

/-- The keys rise strictly from a bound. -/
def sortedFrom : Nat → Tbl β → Bool
  | _, [] => true
  | n, (k, _) :: t => n ≤ k && sortedFrom (k + 1) t

/-- The canonical form: keys strictly rising and no entry equal to the default. -/
def wf [DecidableEq β] (d : β) (t : Tbl β) : Bool := sortedFrom 0 t && t.all (fun e => e.2 ≠ d)

end Tbl

/-- The bytes at consecutive addresses of a table of bytes whose unlisted addresses read 0. -/
def readBytes (t : Tbl Byte) (a : Nat) : Nat → List Byte
  | 0 => []
  | n + 1 => Tbl.get 0 t a :: readBytes t (a + 1) n

/-- Bytes stored at consecutive addresses. -/
def writeBytes (t : Tbl Byte) (a : Nat) : List Byte → Tbl Byte
  | [] => t
  | b :: bs => writeBytes (Tbl.put 0 t a b) (a + 1) bs

/-- Bytes of a list replaced from a position; bytes beyond the end are dropped. -/
def patch (l : List Byte) (off : Nat) (bs : List Byte) : List Byte := l.take off ++ (bs ++ l.drop (off + bs.length)).take (l.length - off)

/-- The element of a list updated in place. -/
def modifyAt {α : Type} (l : List α) (i : Nat) (f : α → α) : List α :=
  match l, i with
  | [], _ => []
  | a :: t, 0 => f a :: t
  | a :: t, i + 1 => a :: modifyAt t i f

/-- The first element that satisfies a test, updated. -/
def modifyFirst {α : Type} (p : α → Bool) (f : α → α) : List α → List α
  | [] => []
  | a :: t => if p a then f a :: t else a :: modifyFirst p f t

/-- The first element that satisfies a test, removed. -/
def removeFirst {α : Type} (p : α → Bool) : List α → List α
  | [] => []
  | a :: t => if p a then t else a :: removeFirst p t

/-- A list without duplicates, keeping first places. -/
def nub {α : Type} [DecidableEq α] : List α → List α
  | [] => []
  | a :: t => a :: (nub t).filter (fun b => b ≠ a)

/-- The least element by a key; the first among equals. -/
def leastBy {α : Type} (f : α → Nat) : List α → Option α
  | [] => none
  | a :: t => match leastBy f t with
    | none => some a
    | some b => if f b < f a then some b else some a

/-- A list in rising order of a key, equal elements in their order. -/
def insertBy {α : Type} (f : α → Nat) (a : α) : List α → List α
  | [] => [a]
  | b :: t => if f a ≤ f b then a :: b :: t else b :: insertBy f a t
def sortBy {α : Type} (f : α → Nat) : List α → List α
  | [] => []
  | a :: t => insertBy f a (sortBy f t)

/-- A signature (R40, R110): 256 bits and a fill count. -/
structure Sig where
  bits : Nat := 0
  fill : Nat := 0
deriving DecidableEq, Repr

namespace Sig

/-- rotate44 of R110. -/
def rotate44 (n k : Nat) : Nat := (n / 2 ^ k + n * 2 ^ (44 - k)) % 2 ^ 44

/-- fold7 of R110. -/
def fold7 (x : Nat) : Nat :=
  fld x 0 7 ^^^ fld x 7 7 ^^^ fld x 14 7 ^^^ fld x 21 7 ^^^ fld x 28 7 ^^^ fld x 35 7 ^^^ fld x 42 2

/-- line of R110. -/
def line (pa : Nat) : Nat := fld pa 8 44

/-- bit0 of R110. -/
def bit0 (pa : Nat) : Nat := fold7 (line pa)

/-- bit1 of R110. -/
def bit1 (pa : Nat) : Nat := 128 + fold7 (rotate44 (line pa) 3)

/-- hits of R110. -/
def hits (s : Sig) (pa : Nat) : Bool := 96 ≤ s.fill || (bit s.bits (bit0 pa) && bit s.bits (bit1 pa))

/-- insert of R110. -/
def insert (s : Sig) (pa : Nat) : Sig :=
  { bits := s.bits ||| 2 ^ bit0 pa ||| 2 ^ bit1 pa
    fill := if bit s.bits (bit0 pa) && bit s.bits (bit1 pa) then s.fill else min (s.fill + 1) 255 }

/-- The union that apply() of R276 and the save of R278 make. -/
def union (a b : Sig) : Sig := { bits := a.bits ||| b.bits, fill := min (a.fill + b.fill) 255 }

/-- The meeting test of R365. -/
def meets (a b : Sig) : Bool :=
  (96 ≤ a.fill && 0 < b.fill) || (96 ≤ b.fill && 0 < a.fill) ||
  (fld (a.bits &&& b.bits) 0 128 != 0 && fld (a.bits &&& b.bits) 128 128 != 0)

/-- A signature that hits every line (R87): its bits are open. -/
def full (bits : Nat) : Sig := { bits := bits, fill := 255 }

end Sig

end Sys2Proof.Machine
end

