-- ==== Sys2Proof/Syntax.lean ====
section
/-! DEFINITION. The steps of the Strelpin X256 as terms: one constructor of `Instr` for each row of the table of
operations. The first 161 constructors are the forms of the instruction words (R93 to R103, R462); the others are the
steps of the part's other agents, each with the data that tells it apart (which request, which heat, which message). -/

namespace Sys2Proof

/-- The special sources of R99. -/
inductive Special where
  | lane | heatix | teamid | partid | coreid | dieid | taskix | lapin | depth | quadpos | legix | heatn | kserial
  | ctxid | threadid | clock | heldn | budget | actmask
  | lvix (i : Nat)
deriving DecidableEq, Repr

/-- A source operand (R98): a vector register, a uniform register, an inline integer (held as its code less 384), a
special source, or the code 511, which raises ILLEGAL when it is read. -/
inductive Src where
  | v (n : Nat)
  | k (n : Nat)
  | inl (n : Nat)
  | sp (x : Special)
  | none
deriving DecidableEq, Repr

/-- A destination operand (R100, R101). -/
inductive Dst where
  | v (n : Nat)
  | k (n : Nat)
deriving DecidableEq, Repr

/-- A predicate read as a source (R128). -/
inductive PSrc where
  | p (n : Nat)
  | tt
  | ff
deriving DecidableEq, Repr

/-- The type codes of R96. -/
inductive Ty where
  | s32 | n32 | s64 | n64 | f32 | bf16 | e4m3 | e5m2 | e8m0 | c4
deriving DecidableEq, Repr

/-- The rounding codes of R96. -/
inductive Rnd where
  | rn | rz | ru | rd | rs
deriving DecidableEq, Repr

/-- The common fields of an instruction word (R93): guard 0 to 11 names a predicate, 12 means always. -/
structure Com where
  guard : Nat
  neg : Bool
  stop : Bool
  flagB : Bool
deriving DecidableEq, Repr

/-- The comparisons of PSET (R138). -/
inductive Cmp where
  | eq | ne | lt | le | gt | ge | un | ord
deriving DecidableEq, Repr

/-- The logical operations of PLOG (R140). -/
inductive LogOp where
  | and | or | xor | andn | orn | not | and3 | or3 | sel | mov
deriving DecidableEq, Repr

/-- The variants of VOTE with the destination each takes (R142). -/
inductive VoteOp where
  | ballot (d : Dst)
  | any (d : Nat)
  | all (d : Nat)
  | uni (d : Nat)
deriving DecidableEq, Repr

/-- The modes of SHFL (R143). -/
inductive ShflMode where
  | idx | up | down | xor
deriving DecidableEq, Repr

/-- The operations of HRED and HSCAN (R144, R145). -/
inductive RedOp where
  | add | min | max | and | or | xor
deriving DecidableEq, Repr

/-- The variants of IMUL (R168). -/
inductive MulMode where
  | low | hi | wide
deriving DecidableEq, Repr

/-- The variants of FSIGN (R178). -/
inductive SignOp where
  | abs | neg | copy | xor
deriving DecidableEq, Repr

/-- The operations of PKMNX (R183). -/
inductive MnxOp where
  | min | max | minnan | maxnan
deriving DecidableEq, Repr

/-- The scale or codebook of PACK and UNPK (R186). -/
inductive Scale where
  | none
  | byte (r : Dst) (sel : Nat)
  | book (k : Nat)
deriving DecidableEq, Repr

/-- An element index of the M forms (R205): a source, read as 64 bits when `w64` is set. -/
structure Index where
  x : Src
  w64 : Bool
deriving DecidableEq, Repr

/-- The packed index of the G forms (R97, R207). -/
structure GIndex where
  x : Src
  iw : Nat
  sg : Bool
  scl : Nat
  sel : Nat
deriving DecidableEq, Repr

/-- The read-modify-write operations of R212. -/
inductive AtomOp where
  | add | min | max | and | or | xor | exch | inc | cas
deriving DecidableEq, Repr

/-- The kinds of R212. -/
inductive AtomKind where
  | unsigned | signed | float
deriving DecidableEq, Repr

/-- The orders of R97. -/
inductive Order where
  | relaxed | acquire | release | both
deriving DecidableEq, Repr

/-- The scopes of R263. -/
inductive Scope where
  | heat | core | die | package | system
deriving DecidableEq, Repr

/-- The kinds of FENCE (R280). -/
inductive FenceKind where
  | full | acq | rel
deriving DecidableEq, Repr

/-- The comparisons of WAITA (R226). -/
inductive WaitCmp where
  | eq | ne | lt | ge
deriving DecidableEq, Repr

/-- The stages of a baton ring (R228). -/
inductive Stage where
  | fill | operate | drain
deriving DecidableEq, Repr

/-- The modes of a matrix plane (R245). -/
inductive MFmt where
  | bf16 | e4m3 | e4m3e5m2 | e5m2e4m3 | e5m2 | c4
deriving DecidableEq, Repr

/-- The kinds of a watchpoint (R432, R439). -/
inductive WatchKind where
  | w | r | rw
deriving DecidableEq, Repr

/-- A heat by its context and the parts of its thread id (R45). -/
structure HeatKey where
  ctx : Nat
  serial : Nat
  team : Nat
  heat : Nat
deriving DecidableEq, Repr

/-- A relay of a kernel, or the team of a task heat, by its number (R74, R360): the unit that holds one scratchpad. -/
structure UnitKey where
  ctx : Nat
  serial : Nat
  relay : Nat
deriving DecidableEq, Repr

/-- How a message or an access travelled (R64): without security, under the management association, or under an
association of a context. -/
inductive Travel where
  | plain
  | management
  | association (i : Nat)
deriving DecidableEq, Repr

/-- A Tsunex message as it arrives (R60): its port, its sender's fabric address, how it travelled, and the fields of
its header, kind apart, with the bytes of its body. -/
structure Msg where
  port : Nat
  sender : Nat
  travel : Travel
  magic : Nat
  version : Nat
  endpoint : Nat
  rsv5 : Nat
  queue : Nat
  tag : Nat
  length : Nat
  rsv18 : Nat
  body : List Byte
  /-- the half of a split port on which it arrives: 0 for nA or an undivided port, 1 for nB (R16, R17) -/
  half : Nat := 0
deriving DecidableEq, Repr

/-- A remote-window access as it arrives at a port (R315, R317). -/
structure Uet where
  port : Nat
  sender : Nat
  job : Nat
  travel : Travel
  header : Nat
  va : Nat
  /-- the half of a split port on which it arrives (R16, R17) -/
  half : Nat := 0
deriving DecidableEq, Repr

/-- What comes back for a line of a remote window (R200). -/
inductive Reply where
  | data (bytes : List Byte)
  | ack
  | refused
deriving DecidableEq, Repr

/-- A unit that can be fenced (R445). -/
inductive FenceUnit where
  | core (die phys : Nat)
  | array (die phys a : Nat)
  | l2way (die slice way : Nat)
  | module (die partner module : Nat)
  | portHalf (port half : Nat)
  | row (die stack chunk : Nat)
deriving DecidableEq, Repr

/-- Where an uncorrectable error is found (R446, R261). -/
inductive ErrorAt where
  | lane (key : HeatKey) (lanes : Nat) (regs : List Nat)
  | memory (sector : Nat)
  | l2 (die sector : Nat)
  | card (die entry : Nat)
  | counter (va ctx : Nat)
  | directory (die line : Nat)
  /-- rows of accumulators; 256 is the stationary plane and 257 the shadow plane (R261) -/
  | array (core a : Nat) (rows : List Nat)
deriving DecidableEq, Repr

/-- A lane of a link (R445). -/
inductive LinkLane where
  | ucie (die partner module lane : Nat)
  | ethernet (port lane : Nat)
deriving DecidableEq, Repr

/-- The steps of the part. -/
inductive Instr where
  -- control (R130 to R137)
  | nop (c : Com)
  | bra (c : Com) (off : Int)
  | brx (c : Com) (a : Src)
  | call (c : Com) (link : Nat) (off : Int)
  | callx (c : Com) (link : Nat)
  | ret (c : Com) (a : Src)
  | exit (c : Com)
  | yield (c : Com)
  | waitf (c : Com) (mask : Nat)
  | trap (c : Com) (code : Nat) (a : Option Src)
  -- predicates and collectives (R138 to R146)
  | pset (c : Com) (t : Ty) (cmp : Cmp) (d : Nat) (a b : Src)
  | psetfFrom (c : Com) (a b : Src)
  | psetfTo (c : Com) (d : Dst)
  | plog (c : Com) (op : LogOp) (d : Nat) (x : PSrc) (y z : Option PSrc)
  | vote (c : Com) (op : VoteOp) (a : PSrc)
  | shfl (c : Com) (t : Ty) (mode : ShflMode) (d : Dst) (a b : Src) (width : Nat)
  | hred (c : Com) (t : Ty) (r : Rnd) (op : RedOp) (d : Dst) (a : Src)
  | hscan (c : Com) (t : Ty) (r : Rnd) (op : RedOp) (excl : Bool) (d : Dst) (a : Src) (head : Option PSrc)
  | matchv (c : Com) (t : Ty) (d : Dst) (a : Src)
  -- integers (R168 to R175)
  | iadd (c : Com) (t : Ty) (sat : Bool) (d : Dst) (a b : Src)
  | isub (c : Com) (t : Ty) (sat : Bool) (d : Dst) (a b : Src)
  | imul (c : Com) (t : Ty) (m : MulMode) (d : Dst) (a b : Src)
  | imad (c : Com) (t : Ty) (wide : Bool) (d : Dst) (a b z : Src)
  | idiv (c : Com) (t : Ty) (rem : Bool) (d : Dst) (a b : Src)
  | imin (c : Com) (t : Ty) (d : Dst) (a b : Src)
  | imax (c : Com) (t : Ty) (d : Dst) (a b : Src)
  | iabs (c : Com) (t : Ty) (sat : Bool) (d : Dst) (a : Src)
  | and (c : Com) (t : Ty) (d : Dst) (a b : Src)
  | or (c : Com) (t : Ty) (d : Dst) (a b : Src)
  | xor (c : Com) (t : Ty) (d : Dst) (a b : Src)
  | shl (c : Com) (t : Ty) (rot : Bool) (d : Dst) (a b : Src)
  | shr (c : Com) (t : Ty) (rot : Bool) (d : Dst) (a b : Src)
  | bfx (c : Com) (t : Ty) (d : Dst) (a ctl : Src)
  | bfi (c : Com) (t : Ty) (d : Dst) (a b ctl : Src)
  | popc (c : Com) (t : Ty) (d : Dst) (a : Src)
  | clz (c : Com) (t : Ty) (d : Dst) (a : Src)
  | brev (c : Com) (t : Ty) (d : Dst) (a : Src)
  | sel (c : Com) (t : Ty) (d : Dst) (a b : Src) (p : PSrc)
  | mov (c : Com) (t : Ty) (d : Dst) (a : Src)
  | movi (c : Com) (t : Ty) (hi : Bool) (d : Dst) (imm : Nat)
  | addi (c : Com) (t : Ty) (sat : Bool) (d : Dst) (a : Src) (imm : Int)
  | lea (c : Com) (sg : Bool) (sh : Nat) (d : Dst) (a b : Src)
  | bysel (c : Com) (ext : Bool) (d : Dst) (a b s : Src)
  -- floating point (R176 to R183)
  | fadd (c : Com) (r : Rnd) (sat : Bool) (d : Dst) (a b : Src) (rb : Option Src)
  | fsub (c : Com) (r : Rnd) (sat : Bool) (d : Dst) (a b : Src) (rb : Option Src)
  | fmul (c : Com) (r : Rnd) (sat : Bool) (d : Dst) (a b : Src) (rb : Option Src)
  | ffma (c : Com) (r : Rnd) (sat : Bool) (d : Dst) (a b z : Src)
  | fmin (c : Com) (nan : Bool) (d : Dst) (a b : Src)
  | fmax (c : Com) (nan : Bool) (d : Dst) (a b : Src)
  | fsign (c : Com) (op : SignOp) (d : Dst) (a : Src) (b : Option Src)
  | frcp (c : Com) (d : Dst) (a : Src)
  | frsq (c : Com) (d : Dst) (a : Src)
  | fsqrt (c : Com) (r : Rnd) (sat : Bool) (d : Dst) (a : Src) (rb : Option Src)
  | fdiv (c : Com) (r : Rnd) (sat : Bool) (d : Dst) (a b : Src) (rb : Option Src)
  | fexp2 (c : Com) (d : Dst) (a : Src)
  | flog2 (c : Com) (d : Dst) (a : Src)
  | ftanh (c : Com) (d : Dst) (a : Src)
  | fclass (c : Com) (t : Ty) (d : Dst) (a : Src)
  | frnd (c : Com) (r : Rnd) (exact : Bool) (d : Dst) (a : Src) (rb : Option Src)
  | pkadd (c : Com) (r : Rnd) (sat cross : Bool) (d : Dst) (a b : Src) (rb : Option Src)
  | pkmul (c : Com) (r : Rnd) (sat cross : Bool) (d : Dst) (a b : Src) (rb : Option Src)
  | pkfma (c : Com) (r : Rnd) (sat cross : Bool) (d : Dst) (a b z : Src)
  | pkmnx (c : Com) (op : MnxOp) (cross : Bool) (d : Dst) (a b : Src)
  -- conversions (R184 to R187)
  | cvti (c : Com) (t s : Ty) (r : Rnd) (d : Dst) (a : Src) (rb : Option Src)
  | cvtf (c : Com) (t s : Ty) (r : Rnd) (sat : Bool) (d : Dst) (a : Src) (rb : Option Src)
  | pack2 (c : Com) (t : Ty) (r : Rnd) (sat : Bool) (sc : Scale) (d : Dst) (a : Nat) (rb : Option Src)
  | pack4 (c : Com) (t : Ty) (r : Rnd) (sat : Bool) (sc : Scale) (d : Dst) (a : Nat) (rb : Option Src)
  | pack8 (c : Com) (t : Ty) (r : Rnd) (sat : Bool) (sc : Scale) (d : Dst) (a : Nat) (rb : Option Src)
  | unpk2 (c : Com) (t : Ty) (r : Rnd) (sc : Scale) (d : Nat) (a : Src) (rb : Option Src)
  | unpk4 (c : Com) (t : Ty) (r : Rnd) (sc : Scale) (d : Nat) (a : Src) (rb : Option Src)
  | unpk8 (c : Com) (t : Ty) (r : Rnd) (sc : Scale) (d : Nat) (a : Src) (rb : Option Src)
  | scalex (c : Com) (r : Rnd) (inv sat : Bool) (sb : Nat) (d : Dst) (a b : Src) (rb : Option Src)
  -- records (R203, R204)
  | bldMem (c : Com) (d : Nat) (a : Src) (n : Nat)
  | bldQ (c : Com) (d : Nat) (n : Nat) (a : Src)
  | bldK (c : Com) (d : Nat) (k : Nat)
  | bldZero (c : Com) (d : Nat)
  | bsubOff (c : Com) (d b : Nat) (a : Src)
  | bsubWin (c : Com) (d b : Nat) (a : Src) (n : Nat)
  | bsubColour (c : Com) (d b : Nat) (col : Nat)
  | bsubFlags (c : Com) (d b : Nat) (fl : Nat)
  -- access (R205 to R211)
  | ld (c : Com) (sg : Bool) (sz : Nat) (d : Nat) (x : Index) (b : Nat)
  | st (c : Com) (sg : Bool) (sz : Nat) (d : Nat) (x : Index) (b : Nat)
  | ldg (c : Com) (sg : Bool) (sz : Nat) (d : Nat) (x : GIndex) (b : Nat)
  | stg (c : Com) (sg : Bool) (sz : Nat) (d : Nat) (x : GIndex) (b : Nat)
  | lds (c : Com) (sg : Bool) (sz : Nat) (d : Nat) (x : Src) (e : Option Src)
  | sts (c : Com) (sg : Bool) (sz : Nat) (d : Nat) (x : Src) (e : Option Src)
  | ldsr (c : Com) (sg : Bool) (sz : Nat) (d : Nat) (x e : Src)
  | stsr (c : Com) (sg : Bool) (sz : Nat) (d : Nat) (x e : Src)
  | pref (c : Com) (l2 : Bool) (sz : Nat) (x : Index) (b : Nat)
  | cmaintInv (c : Com) (sz : Nat) (x : Index) (b : Nat)
  | cmaintWb (c : Com) (sz : Nat) (x : Index) (b : Nat)
  | cmaintInvall (c : Com)
  | ldk (c : Com) (sz : Nat) (d : Nat) (x : Index) (b : Nat)
  -- atomics, waiting and ordering (R212 to R215, R226, R280)
  | atom (c : Com) (op : AtomOp) (kind : AtomKind) (sz : Nat) (o : Order) (sc : Scope) (d : Option Dst) (x : Index) (e : Src) (b : Nat)
  | acas (c : Com) (sz : Nat) (o : Order) (sc : Scope) (d : Dst) (x : Index) (e : Src) (b : Nat)
  | atoms (c : Com) (op : AtomOp) (kind : AtomKind) (sz : Nat) (o : Order) (sc : Scope) (d : Option Dst) (x e : Src)
  | waita (c : Com) (d : Option Nat) (a b : Src) (cmp : WaitCmp) (sg w64 scr : Bool) (acq : Option Scope)
  | fence (c : Com) (kind : FenceKind) (eng : Bool) (sc : Scope)
  | ldacq (c : Com) (sz : Nat) (sc : Scope) (d : Dst) (x : Index) (b : Nat)
  | strel (c : Com) (sz : Nat) (sc : Scope) (d : Src) (x : Index) (b : Nat)
  | syadd (c : Com) (o : Order) (sc : Scope) (d : Option Dst) (x : Index) (e : Src) (b : Nat)
  | bar (c : Com) (n : Nat) (b : Option Src)
  | bara (c : Com) (n : Nat) (b : Option Src)
  -- copies and rings (R219, R225, R229)
  | cpyin (c : Com) (sz : Nat) (o : Src) (x : Index) (ring : Option Src) (b : Nat)
  | cpyout (c : Com) (sz : Nat) (o : Src) (x : Index) (ring : Option Src) (b : Nat)
  | cpyw (c : Com) (sz : Nat) (sc : Scope) (a : Src) (x : Index) (b : Nat)
  | rfill (c : Com) (a : Src)
  | rawait (c : Com) (stage : Stage) (d : Option Nat) (a : Src)
  | rrelease (c : Com) (a : Src)
  | rpush (c : Com) (a : Src)
  | rinit (c : Com) (a : Src) (k : Nat)
  | split (c : Com) (fin : Bool) (a : Src)
  -- matrix (R249)
  | mmarkSelf (c : Com) (m : Nat)
  | mmarkMask (c : Com) (m g : Nat) (a : Src)
  | mmarkClear (c : Com) (m : Nat)
  | mldw (c : Com) (m : Nat) (arr : Bool) (f : MFmt) (dist : Bool) (a : Src)
  | mswap (c : Com) (m : Nat) (arr : Bool)
  | mstr (c : Com) (m : Nat) (arr : Bool) (f : MFmt) (ovw : Bool) (row : Nat) (a : Src) (cnt : Nat)
  | mdist (c : Com) (m : Nat) (arr : Bool) (f : MFmt) (ovw : Bool) (row : Nat) (a : Src) (cnt : Nat)
  | mtopk (c : Com) (m : Nat) (arr : Bool) (max : Bool) (row : Nat) (d : Nat) (cnt : Nat)
  | mrd (c : Com) (m : Nat) (arr : Bool) (clr : Bool) (row : Nat) (d : Nat)
  | mrdScr (c : Com) (m : Nat) (arr : Bool) (bf clr : Bool) (row : Nat) (a : Src) (cnt : Nat)
  | mclr (c : Com) (m : Nat) (arr : Bool) (all : Bool) (row cnt : Nat)
  -- monitors (R345)
  | claim (c : Com) (a n : Nat)
  | mwait (c : Com) (d : Option Nat) (a : Src) (t : Nat)
  | mnote (c : Com) (a : Src)
  | mnoteall (c : Com) (a : Src)
  | heldTest (c : Com) (d : Nat) (a : Src)
  | heldList (c : Com) (d : Dst) (a : Src)
  | mrepair (c : Com) (a : Src)
  -- tasks (R381)
  | tspawn (c : Com) (a : Src)
  | tdone (c : Com)
  | publap (c : Com) (fin : Bool) (a : Src)
  | tstop (c : Com) (a : Src)
  | tlapState (c : Com) (d : Nat) (a : Src)
  | tlapBuf (c : Com) (d : Nat) (a : Src)
  | tabortRequeue (c : Com)
  | tabortFail (c : Com)
  | tsettle (c : Com) (a : Src)
  -- system (R403)
  | resume (c : Com) (skip : Bool) (h : Src) (m : Option Src)
  | killLanes (c : Com) (h : Src) (m : Option Src)
  | killHeat (c : Com) (h : Src)
  | killKernel (c : Com) (h : Src)
  | eret (c : Com) (h : Src)
  | tframeNext (c : Com) (d : Nat) (a : Src) (t : Nat)
  | tframeRd (c : Com) (d : Nat) (h lane : Src) (item : Nat)
  | tframeWr (c : Com) (h lane : Src) (item : Nat) (a : Src)
  | mfs (c : Com) (d : Nat) (field : Nat)
  | mts (c : Com) (field : Nat) (a : Src)
  | tlbinvRange (c : Com) (a n : Src)
  | tlbinvCtx (c : Com)
  | splinter (c : Com) (d : Nat) (a t : Src)
  -- debug and test (R439, R454, R456)
  | brkpt (c : Com)
  | brkptWset (c : Com) (n : Nat) (kind : WatchKind) (a len : Src)
  | brkptWclr (c : Com) (n : Nat)
  | haltallStop (c : Com)
  | haltallGo (c : Com)
  | undo (c : Com) (d : Option Nat) (h : Src)
  | stamp (c : Com) (sc : Scope) (d : Dst)
  | bist (c : Com) (d : Nat) (a b : Src) (alg : Nat)
  | defmap (c : Com) (d : Dst) (a : Src)
  -- steps of the memory system, the scheduler and the engines
  | releaseDeposit (origin ctx : Nat)
  | halt (ctx : Nat)
  | pacedIssue (key : HeatKey)
  | promote (key : HeatKey)
  | memoryResponse (id : Nat) (victim : Option Nat) (reply : Reply)
  | remoteTimeout (id : Nat)
  | copyComplete (id : Nat)
  | cpywPerform (key : HeatKey)
  | waitaPoll (key : HeatKey) (lane : Nat)
  | waitaTimeout (key : HeatKey) (lane : Nat)
  | handOff (u : UnitKey) (ring : Nat)
  | matrixOpComplete (core : Nat) (arr : Bool)
  | monitorGrant (ctx colour : Nat)
  | mwaitTimeout (key : HeatKey) (lane : Nat)
  | heatRetire (key : HeatKey)
  | completionRelease (ctx serial : Nat)
  | launch (m : Msg)
  | launchStart (die : Nat)
  | relayStart (u : UnitKey)
  | unitSave (u : UnitKey)
  | suspendWindowExpiry (u : UnitKey)
  | suspendDeadline (u : UnitKey)
  | unitRestore (die : Nat)
  | faultPost (die : Nat)
  | faultPostRetry (die : Nat)
  | tframeTimeout (key : HeatKey) (lane : Nat)
  | pageDone (m : Msg)
  | qctlSet (m : Msg)
  | qctlPause (m : Msg)
  | qctlUnpause (m : Msg)
  | qctlFlush (m : Msg)
  | ctxOpen (m : Msg)
  | ctxClose (m : Msg)
  | ctxCloseDone (ctx : Nat)
  | saInstall (m : Msg)
  | saRemove (m : Msg)
  | uetWrite (u : Uet) (data : List Byte)
  | uetRead (u : Uet) (n : Nat)
  | uetReleaseWrite (u : Uet) (value : W64)
  | uudPacket (port : Nat)
  -- coherence (R302 to R309)
  | readShared (src home : Nat)
  | readOwn (src home : Nat)
  | upgrade (src home : Nat)
  | fwdShared (home die : Nat)
  | fwdOwn (home die : Nat)
  | inval (home die : Nat)
  | backInval (home die : Nat)
  | invalAck (die home : Nat)
  | dataClean (src die : Nat) (victim : Option Nat)
  | dataDirty (src die : Nat) (victim : Option Nat)
  | writeBack (die home : Nat)
  | cleanEvict (die home : Nat)
  | backInvalAck (die home : Nat)
  | earlyClean (die sector : Nat)
  -- losing a die, the journal, tasks and translation
  | requestBoundMiss (die target : Nat)
  | suspicion (die target : Nat)
  | probeTimeout (die target : Nat)
  | journalSave (ctx chunk : Nat)
  | deal (die : Nat)
  | commit (die : Nat)
  | dieTokenGrant (die : Nat)
  | lapPublish (die : Nat)
  | groupSettle (ctx object : Nat)
  | tlbinvComplete (key : HeatKey)
  -- containment, bring-up, the sideband and the test access port
  | uncorrectableError (e : ErrorAt)
  | patrolScrub (sector : Nat) (corrected : Bool)
  | bistDone (die : Nat) (pass : Bool) (failing duration first : Nat)
  | powerGood (failing : List FenceUnit) (partners : Nat)
  | portTrainingDone (port : Nat)
  | dieReset (die : Nat)
  | dieRejoin (die : Nat) (ok : Bool) (failing : List FenceUnit)
  | portRetrain (mask : Nat)
  | mgmtAssocInstall (bytes : List Byte)
  | mapDataRead
  | portErrorClear (port : Nat)
  | powerCapWrite (watts : Nat)
  | marginRun (ctl : Nat)
  | marginDone (pass errors : Nat)
  | sidebandWrite (off : Nat) (bytes : List Byte)
  | bypass (code : Nat) (tdi : List Bool)
  | extest (drive : List Bool)
  | samplePreload (pins load : List Bool)
  | idcode
  | clamp
  | highz
  | defread (n : Nat)
  | kindNotAllowed (kind : Nat) (m : Msg)
  | probeAnswer (die target : Nat)
  | linkLaneFailure (l : LinkLane)
  | dynamicAddress (a : Nat)
  | powerExceedsCap (watts : Nat)
  | resetBall (asserted : Bool)
deriving DecidableEq, Repr

end Sys2Proof
end

