-- ==== Sys2Proof/WellFormed.lean ====
section
/-! DEFINITION. Which terms of `Instr` stand for a legal instruction word: every check here is a reserved value or an
operand code that R94 to R101 or the instruction's own entry turns away. A term that fails is never the decoding of a
word. The steps that are no instruction words have no word and are well formed by themselves. -/

namespace Sys2Proof

/-- Whether the type is one of the 64-bit types (R100). -/
def Ty.wide : Ty → Bool
  | .s64 | .n64 => true
  | _ => false

/-- Whether the type is signed (R168). -/
def Ty.signed : Ty → Bool
  | .s32 | .s64 => true
  | _ => false

/-- Types 0 to 3. -/
def Ty.isInt : Ty → Bool
  | .s32 | .n32 | .s64 | .n64 => true
  | _ => false

/-- Types 0 to 4. -/
def Ty.isBasic : Ty → Bool
  | .s32 | .n32 | .s64 | .n64 | .f32 => true
  | _ => false

/-- The types as which an inline integer can be read; reading it as another raises ILLEGAL (R98). -/
def Ty.inlineOk : Ty → Bool
  | .s32 | .n32 | .s64 | .n64 | .f32 | .bf16 => true
  | _ => false

/-- The code of a scope (R97), which is also its rank from narrowest to widest (R263). -/
def Scope.code : Scope → Nat
  | .heat => 0 | .core => 1 | .die => 2 | .package => 3 | .system => 4

namespace Wf

/-- The guard of R93: 13 to 15 are reserved, and so is 12 with negate; flag select only on a long-latency word. -/
def com (long : Bool) (c : Com) : Bool :=
  c.guard ≤ 12 && !(c.guard == 12 && c.neg) && (long || !c.flagB)

/-- A source read as 32 bits, or as 64 bits when `w` is set: a pair starts at an even register (R99, R100). -/
def src (w : Bool) : Src → Bool
  | .v n => if w then n % 2 == 0 && n < 320 else n < 320
  | .k n => n < 64
  | .inl n => n < 64
  | .sp (.lvix i) => i < 8
  | .sp _ => true
  | .none => false

/-- A source that the entry reads: the code 511 has a meaning there, which is a trap (R98). -/
def read (w : Bool) : Src → Bool
  | .none => true
  | s => src w s

/-- A source that must be an even pair or a uniform register: an address, a handle or a target (R135, R381, R403). -/
def addr : Src → Bool
  | .v n => n % 2 == 0 && n < 320
  | .k n => n < 64
  | _ => false

/-- A destination of 32 bits, or of 64 bits when `w` is set (R100). -/
def dst (w : Bool) : Dst → Bool
  | .v n => if w then n % 2 == 0 && n < 320 else n < 320
  | .k n => n < 64

/-- A predicate destination (R128). -/
def pd (n : Nat) : Bool := n < 12

/-- A predicate source (R128). -/
def ps : PSrc → Bool
  | .p n => n < 12
  | _ => true

/-- An optional part: absent, or passing its check. -/
def opt {α : Type} (f : α → Bool) : Option α → Bool
  | none => true
  | some x => f x

/-- A record register (R97, R203). -/
def recReg (n : Nat) : Bool := n < 32

/-- The data register of an access of size code `sz` (R205). -/
def data (sz n : Nat) : Bool :=
  if sz ≤ 2 then n < 320 else if sz = 3 then n % 2 == 0 && n < 320 else n % 4 == 0 && n < 320

/-- The sign-extension bit goes with size codes 0 and 1 alone (R96). -/
def sign (sg : Bool) (sz : Nat) : Bool := sz ≤ 4 && (!sg || sz ≤ 1)

/-- An index (R205). -/
def index (x : Index) : Bool := read x.w64 x.x

/-- A packed index (R97, R207). -/
def gindex (x : GIndex) : Bool :=
  x.iw < 4 && x.scl < 8 && (x.sel < (if x.iw = 0 then 4 else if x.iw = 1 then 2 else 1)) &&
    (if x.iw = 3 then addr x.x else read false x.x)

/-- The random bits of R155 are named exactly when the mode is .rs. -/
def random (r : Rnd) : Option Src → Bool
  | none => r ≠ .rs
  | some s => r = .rs && read false s

/-- A signed field of `n` bits. -/
def int (n : Nat) (z : Int) : Bool := -(2 ^ (n - 1) : Int) ≤ z && z < (2 ^ (n - 1) : Int)

/-- The scale of PACK and UNPK (R186): a codebook for .c4, otherwise nothing or a scale byte. -/
def scale (t : Ty) : Scale → Bool
  | .none => t ≠ .c4
  | .byte r s => t ≠ .c4 && dst false r && s < 4
  | .book k => t = .c4 && k % 4 == 0 && k < 64

/-- The formats a packed form takes (R186): width 2, 4 or 8. -/
def packTy (n : Nat) (t : Ty) : Bool :=
  match n, t with
  | 2, .bf16 | 2, .e4m3 | 2, .e5m2 | 4, .e4m3 | 4, .e5m2 | 4, .c4 | 8, .c4 => true
  | _, _ => false

/-- PACK (R186). -/
def pack (n : Nat) (t : Ty) (r : Rnd) (sat : Bool) (sc : Scale) (d : Dst) (a : Nat) (rb : Option Src) : Bool :=
  packTy n t && scale t sc && dst false d && a + n ≤ 320 && random r rb && (t ≠ .c4 || (r = .rn && !sat))

/-- UNPK (R186). -/
def unpk (n : Nat) (t : Ty) (r : Rnd) (sc : Scale) (d : Nat) (a : Src) (rb : Option Src) : Bool :=
  packTy n t && scale t sc && read false a && d + n ≤ 320 && random r rb && (t ≠ .c4 || r = .rn)

/-- The operations and kinds of R212. -/
def atomKind (op : AtomOp) (kind : AtomKind) (sz : Nat) : Bool :=
  (sz == 2 || sz == 3) && (kind ≠ .float || sz == 2) &&
  match op, kind with
  | .add, _ | .min, _ | .max, _ | .exch, _ => true
  | .and, .float | .or, .float | .xor, .float => false
  | .and, _ | .or, _ | .xor, _ => true
  | .inc, .unsigned | .cas, .unsigned => true
  | _, _ => false

/-- R214: at scope 2 to 4 an ordered atomic is a sync operation, of 64 bits and not of kind .f32. -/
def syncShape (o : Order) (sc : Scope) (kind : AtomKind) (sz : Nat) : Bool :=
  o = .relaxed || sc.code ≤ 1 || (sz == 3 && kind ≠ .float)

/-- The size of a sync access of R280: 2 or 3 at scope 0 and 1, 3 above. -/
def syncSz (sz : Nat) (sc : Scope) : Bool := (sz == 3) || (sz == 2 && sc.code ≤ 1)

/-- A type that is read as 32 or 64 bits by an access of size code 2 or 3. -/
def szT (sz : Nat) : Bool := sz == 3

/-- The types of HRED and HSCAN (R144). -/
def red (t : Ty) (r : Rnd) (op : RedOp) : Bool :=
  (match op with
    | .add | .min | .max => t.isBasic
    | _ => t.isInt) &&
  (r = .rn || (t = .f32 && op = .add && r ≠ .rs))

/-- Which operands each operation of PLOG reads (R140). -/
def logReads (op : LogOp) (y z : Option PSrc) : Bool :=
  match op with
  | .not | .mov => y.isNone && z.isNone
  | .and3 | .or3 | .sel => y.isSome && z.isSome
  | _ => y.isSome && z.isNone

/-- The width of a TFRAME item is 64 bits for the uniform registers and the program counter (R408). -/
def itemWide (item : Nat) : Bool := (320 ≤ item && item < 384) || item == 384

end Wf

open Wf in
/-- The well-formed terms. -/
def Instr.wf : Instr → Bool
  | .nop c | .exit c | .yield c => com false c
  | .bra c off => com false c && int 24 off
  | .brx c a | .ret c a => com false c && addr a
  | .call c l off => com false c && l % 2 == 0 && l < 320 && int 24 off
  | .callx c l => com false c && l % 2 == 0 && l < 320
  | .waitf c m => com false c && m < 4096
  | .trap c code a => com false c && code < 65536 && opt (src false) a
  | .pset c t cmp d a b => com false c && t.isBasic && (t = .f32 || (cmp ≠ .un && cmp ≠ .ord)) && pd d && read t.wide a && read t.wide b
  | .psetfFrom c a b => com false c && read false a && read false b
  | .psetfTo c d => com false c && dst false d
  | .plog c op d x y z => com false c && pd d && ps x && opt ps y && opt ps z && logReads op y z
  | .vote c op a => com false c && ps a && (match op with | .ballot d => dst false d | .any d | .all d | .uni d => pd d)
  | .shfl c t _ d a b w => com false c && t.isBasic && dst t.wide d && read t.wide a && read false b &&
      (w == 1 || w == 2 || w == 4 || w == 8 || w == 16 || w == 32)
  | .hred c t r op d a => com false c && red t r op && dst t.wide d && read t.wide a
  | .hscan c t r op _ d a h => com false c && red t r op && dst t.wide d && read t.wide a && opt ps h
  | .matchv c t d a => com false c && t.isBasic && dst false d && read t.wide a
  | .iadd c t _ d a b | .isub c t _ d a b => com false c && t.isInt && dst t.wide d && read t.wide a && read t.wide b
  | .imul c t m d a b => com false c && t.isInt && (m ≠ .wide || !t.wide) && dst (t.wide || m = .wide) d && read t.wide a && read t.wide b
  | .imad c t w d a b z => com false c && t.isInt && (!w || !t.wide) && dst (t.wide || w) d && read t.wide a && read t.wide b && read (t.wide || w) z
  | .idiv c t _ d a b => com false c && t.isInt && dst t.wide d && read t.wide a && read t.wide b
  | .imin c t d a b | .imax c t d a b | .and c t d a b | .or c t d a b | .xor c t d a b =>
      com false c && t.isInt && dst t.wide d && read t.wide a && read t.wide b
  | .iabs c t _ d a => com false c && t.signed && dst t.wide d && read t.wide a
  | .shl c t _ d a b | .shr c t _ d a b => com false c && t.isInt && dst t.wide d && read t.wide a && read false b
  | .bfx c t d a b => com false c && t.isInt && dst t.wide d && read t.wide a && read false b
  | .bfi c t d a b z => com false c && t.isInt && dst t.wide d && read t.wide a && read t.wide b && read false z
  | .popc c t d a | .clz c t d a | .brev c t d a => com false c && t.isInt && dst t.wide d && read t.wide a
  | .sel c t d a b p => com false c && t.isBasic && dst t.wide d && read t.wide a && read t.wide b && ps p
  | .mov c t d a => com false c && t.isBasic && dst t.wide d && read t.wide a
  | .movi c t hi d imm => com false c && t.isBasic && (!hi || t.wide) && dst t.wide d && imm < 2 ^ 32
  | .addi c t _ d a imm => com false c && t.isInt && dst t.wide d && read t.wide a && int 24 imm
  | .lea c _ sh d a b => com false c && sh < 8 && dst true d && read true a && read false b
  | .bysel c _ d a b s => com false c && dst false d && read false a && read false b && read false s
  | .fadd c r _ d a b rb | .fsub c r _ d a b rb | .fmul c r _ d a b rb | .fdiv c r _ d a b rb =>
      com false c && dst false d && read false a && read false b && random r rb
  | .ffma c r _ d a b z => com false c && r ≠ .rs && dst false d && read false a && read false b && read false z
  | .fmin c _ d a b | .fmax c _ d a b => com false c && dst false d && read false a && read false b
  | .fsign c op d a b => com false c && dst false d && read false a && opt (read false) b && (b.isSome == (op == .copy || op == .xor))
  | .frcp c d a | .frsq c d a | .fexp2 c d a | .flog2 c d a | .ftanh c d a => com false c && dst false d && read false a
  | .fsqrt c r _ d a rb | .frnd c r _ d a rb => com false c && dst false d && read false a && random r rb
  | .fclass c t d a => com false c && (t = .f32 || t = .bf16) && dst false d && read false a
  | .pkadd c r _ _ d a b rb | .pkmul c r _ _ d a b rb => com false c && dst false d && read false a && read false b && random r rb
  | .pkfma c r _ _ d a b z => com false c && r ≠ .rs && dst false d && read false a && read false b && read false z
  | .pkmnx c _ _ d a b => com false c && dst false d && read false a && read false b
  | .cvti c t s r d a rb => com false c && t.isInt && s ≠ .e8m0 && s ≠ .c4 && (!s.isInt || r = .rn) && dst t.wide d && read s.wide a && random r rb
  | .cvtf c t s r _ d a rb => com false c && !t.isInt && t ≠ .c4 && s ≠ .c4 && (s ≠ .e8m0 || t = .f32) &&
      (t ≠ .e8m0 || (s = .f32 && (r = .rz || r = .ru || r = .rd))) && dst false d && read s.wide a && random r rb
  | .pack2 c t r sat sc d a rb => com false c && pack 2 t r sat sc d a rb
  | .pack4 c t r sat sc d a rb => com false c && pack 4 t r sat sc d a rb
  | .pack8 c t r sat sc d a rb => com false c && pack 8 t r sat sc d a rb
  | .unpk2 c t r sc d a rb => com false c && unpk 2 t r sc d a rb
  | .unpk4 c t r sc d a rb => com false c && unpk 4 t r sc d a rb
  | .unpk8 c t r sc d a rb => com false c && unpk 8 t r sc d a rb
  | .scalex c r _ _ sb d a b rb => com false c && sb < 4 && dst false d && read false a && read false b && random r rb
  | .bldMem c d a n => com false c && recReg d && addr a && n < 2 ^ 18
  | .bldQ c d n a => com false c && recReg d && n < 4 && read true a
  | .bldK c d k => com false c && recReg d && k % 4 == 0 && k < 64
  | .bldZero c d => com false c && recReg d
  | .bsubOff c d b a => com false c && recReg d && recReg b && read true a
  | .bsubWin c d b a n => com false c && recReg d && recReg b && read true a && n < 2 ^ 19
  | .bsubColour c d b col => com false c && recReg d && recReg b && col < 4096
  | .bsubFlags c d b fl => com false c && recReg d && recReg b && fl < 32
  | .ld c sg sz d x b => com true c && sign sg sz && data sz d && index x && recReg b
  | .st c sg sz d x b => com false c && sign sg sz && data sz d && index x && recReg b
  | .ldg c sg sz d x b => com true c && sign sg sz && data sz d && gindex x && recReg b
  | .stg c sg sz d x b => com false c && sign sg sz && data sz d && gindex x && recReg b
  | .lds c sg sz d x e => com true c && sign sg sz && data sz d && read false x && opt (src false) e
  | .sts c sg sz d x e => com false c && sign sg sz && data sz d && read false x && opt (src false) e
  | .ldsr c sg sz d x e => com true c && sign sg sz && data sz d && read false x && read false e
  | .stsr c sg sz d x e => com false c && sign sg sz && data sz d && read false x && read false e
  | .pref c _ sz x b | .cmaintInv c sz x b | .cmaintWb c sz x b => com false c && sz ≤ 4 && index x && recReg b
  | .cmaintInvall c => com false c
  | .ldk c sz d x b => com true c && (sz == 2 || sz == 3) && d < 64 && index x && recReg b
  | .atom c op kind sz o sc d x e b => com true c && op ≠ .cas && atomKind op kind sz && syncShape o sc kind sz &&
      opt (dst (szT sz)) d && index x && read (szT sz) e && recReg b
  | .acas c sz o sc d x e b => com true c && (sz == 2 || sz == 3) && syncShape o sc .unsigned sz &&
      dst (szT sz) d && index x && read (szT sz) e && recReg b
  | .atoms c op kind sz _ sc d x e => com true c && atomKind op kind sz && sc.code ≤ 1 &&
      opt (dst (szT sz)) d && (op ≠ .cas || d.isSome) && read false x && read (szT sz) e
  | .waita c d a b _ _ w scr acq => com false c && opt pd d && (if scr then read false a else addr a) && read w b &&
      (match acq with | none => true | some sc => !scr || sc.code ≤ 1)
  | .fence c _ _ _ => com false c
  | .ldacq c sz sc d x b => com true c && syncSz sz sc && dst (szT sz) d && index x && recReg b
  | .strel c sz sc d x b => com false c && syncSz sz sc && read (szT sz) d && index x && recReg b
  | .syadd c o sc d x e b => com false c && o ≠ .relaxed && 2 ≤ sc.code && opt (dst true) d && index x && read true e && recReg b
  | .bar c n b | .bara c n b => com false c && n < 16 && opt (src false) b
  | .cpyin c sz o x ring b | .cpyout c sz o x ring b =>
      com false c && (sz == 2 || sz == 3 || sz == 4) && read false o && index x && opt (src false) ring && recReg b
  | .cpyw c sz sc a x b => com false c && 1 ≤ sc.code && (sz == 3 || (sz == 2 && sc.code == 1)) && read (szT sz) a && index x && recReg b
  | .rfill c a | .rrelease c a | .rpush c a | .split c _ a => com false c && read false a
  | .rawait c _ d a => com false c && opt pd d && read false a
  | .rinit c a k => com false c && read false a && k % 8 == 0 && k < 64
  | .mmarkSelf c m | .mmarkClear c m => com false c && m < 8
  | .mmarkMask c m g a => com false c && m < 8 && g < 12 && read false a
  | .mldw c m _ f dist a => com false c && m < 8 && (!dist || f = .c4) && read false a
  | .mswap c m _ => com false c && m < 8
  | .mstr c m _ _ _ row a cnt | .mdist c m _ _ _ row a cnt => com false c && m < 8 && cnt < 128 && row + cnt < 256 && read false a
  | .mtopk c m _ _ row d cnt => com true c && m < 8 && cnt < 32 && row < 256 && d < 319
  | .mrd c m _ _ row d => com true c && m < 8 && row < 256 && d < 319
  | .mrdScr c m _ _ _ row a cnt => com true c && m < 8 && cnt < 128 && row + cnt < 256 && read false a
  | .mclr c m _ all row cnt => com false c && m < 8 && cnt < 128 && row + cnt < 256 && (!all || (row == 0 && cnt == 0))
  | .claim c a n => com false c && n < 8 && a + n < 320
  | .mwait c d a t => com false c && opt pd d && read false a && t ≤ 20
  | .mnote c a | .mnoteall c a | .mrepair c a => com false c && read false a
  | .heldTest c d a => com false c && pd d && read false a
  | .heldList c d a => com false c && dst false d && read false a
  | .tspawn c a | .tstop c a | .tsettle c a => com false c && addr a
  | .tdone c | .tabortRequeue c | .tabortFail c => com false c
  | .publap c _ a => com false c && read false a
  | .tlapState c d a => com false c && d < 320 && addr a
  | .tlapBuf c d a => com false c && d % 2 == 0 && d < 320 && addr a
  | .resume c _ h m | .killLanes c h m => com false c && addr h && opt (src false) m
  | .killHeat c h | .killKernel c h | .eret c h => com false c && addr h
  | .tframeNext c d a t => com false c && pd d && addr a && t ≤ 20
  | .tframeRd c d h l item => com false c && addr h && read false l && item ≤ 388 && d < 320 && (!itemWide item || d % 2 == 0)
  | .tframeWr c h l item a => com false c && addr h && read false l && item ≤ 388 && (if itemWide item then addr a else read false a)
  | .mfs c d f => com false c && d < 320 && f ≤ 2
  | .mts c f a => com false c && f ≤ 2 && read false a
  | .tlbinvRange c a n => com false c && addr a && read true n
  | .tlbinvCtx c => com false c
  | .splinter c d a t => com false c && pd d && addr a && addr t
  | .brkpt c => com false c
  | .brkptWset c n _ a len => com false c && n < 4 && addr a && read true len
  | .brkptWclr c n => com false c && n < 4
  | .haltallStop c | .haltallGo c => com false c
  | .undo c d h => com false c && opt pd d && addr h
  | .stamp c _ d => com false c && dst true d
  | .bist c d a b alg => com false c && pd d && addr a && read false b && alg < 4
  | .defmap c d a => com false c && dst true d && read false a
  | _ => true

end Sys2Proof
end

