-- ==== Sys2Proof/Machine/State.lean ====
section
/-! DEFINITION. The state of the part as plain data, its reset value, and the reasons a step can stop. Every field names
the rule of spec/ that gives it. A field marked "model's own" is none of the part's state. -/

namespace Sys2Proof.Machine

/-- No step of this model stops with a fault: an access to an absent address takes the trap that the spec gives (R198),
and the constructor below is raised by nothing. -/
inductive Fault where
  /-- raised by no step; safe -/
  | none
deriving DecidableEq, Repr

/-- Why a step has no meaning. -/
inductive Refusal where
  /-- an instruction that has no meaning yet, by its mnemonic in the opcode table; safe -/
  | notModelled (mnemonic : String)
deriving DecidableEq, Repr

/-- The trap causes of R394, in ascending code order. -/
inductive Cause where
  | illegal | role | priv | hazard | align | bounds | monitorOrder | monitorFull | monitorState | monitorAbandoned
  | perm | page | remoteGone | uncorrectable | callDepth | brk | trap
deriving DecidableEq, Repr

/-- The code of a cause (R394). -/
def Cause.code : Cause → Nat
  | .illegal => 1 | .role => 2 | .priv => 3 | .hazard => 4 | .align => 5 | .bounds => 6 | .monitorOrder => 7
  | .monitorFull => 8 | .monitorState => 9 | .monitorAbandoned => 10 | .perm => 11 | .page => 12 | .remoteGone => 13
  | .uncorrectable => 14 | .callDepth => 15 | .brk => 16 | .trap => 17

/-- A cause that a lane raises, with what its record needs (R397, R134). -/
structure Trap where
  cause : Cause
  addr : Option Nat := none
  write : Bool := false
  fetch : Bool := false
  code : Nat := 0
  val : Nat := 0
  /-- a task instruction's translation that failed, which takes its task out of its lanes (R382) -/
  xlat : Bool := false
deriving DecidableEq, Repr

/-- What an element access does when its line is at hand (R206, R209, R213, R220, R280). -/
inductive AccOp where
  /-- a load into v registers -/
  | load (sg : Bool) (sz d : Nat)
  /-- a load into any destination (LDK, LDACQ); with `acq` it reads at an L2 and acquires the object -/
  | loadDst (sz : Nat) (d : Option Dst) (acq : Bool)
  /-- a store of these bytes -/
  | store (bytes : List Byte)
  /-- a read-modify-write: operand, compare value, where the old value goes -/
  | rmw (op : AtomOp) (kind : AtomKind) (sz : Nat) (sc : Scope) (o : Order) (y cmp : Nat) (d : Option Dst)
  /-- a release of a sync object with this value (STREL at scope 2 to 4) -/
  | strel (v : Nat) (sc : Scope)
  /-- SYADD: addend and destination -/
  | syadd (y : Nat) (sc : Scope) (o : Order) (d : Option Dst)
  /-- CPYW's add, performed after its copies (R225) -/
  | cpyw (y sz : Nat) (sc : Scope)
  /-- a copy into scratchpad -/
  | copyIn (sz off : Nat)
  /-- a copy out of scratchpad -/
  | copyOut (sz off : Nat)
deriving DecidableEq, Repr

/-- One lane's element access: its virtual address, the physical one once translated, and the instruction's operation
number. -/
structure Acc where
  lane : Nat
  va : Nat
  pa : Nat := 0
  op : AccOp
  opId : Nat := 0
  nopre : Bool := false
  /-- the record's STREAM flag and colour (R36) -/
  strm : Bool := false
  colour : Nat := 0
  skip : Bool := false
deriving DecidableEq, Repr

/-- What a blocked lane waits for (R111). -/
inductive Wait where
  /-- WAITA: place (virtual address or offset), comparison, comparand, predicate, deadline, acquired object (R227) -/
  | waita (scr : Bool) (addr : Nat) (cmp : WaitCmp) (sg w64 : Bool) (y : Nat) (d : Option Nat) (deadline : Nat) (acq : Option Scope)
  /-- RAWAIT on a ring (R232) -/
  | rawait (ring : Nat) (stage : Stage) (d : Option Nat)
  /-- MWAIT: colour, bound depth, predicate, deadline, notified; `asleep` until it becomes an acquirer (R348) -/
  | mwait (colour depth : Nat) (d : Option Nat) (deadline : Nat) (span : Nat) (asleep notified released : Bool)
  /-- BAR (R284) -/
  | bar (n : Nat)
  /-- CLAIM: the colours still to acquire (R347) -/
  | claim (colours : List Nat)
  /-- a monitor queue joined by an acquiring access (R335) -/
  | colour (c : Nat) (acc : Acc)
  /-- a granted access that found no free request slot (R193) -/
  | slot (acc : Acc)
  /-- TFRAME.next: predicate, destination address, deadline (R408) -/
  | tframe (d : Nat) (va deadline : Nat)
  /-- TSETTLE (R389) -/
  | tsettle (va : Nat)
  /-- TSPAWN awaiting a card entry (R383) -/
  | tspawn
  /-- PUBLAP: relative lap and .final (R385) -/
  | publap (j : Nat) (fin : Bool)
  /-- TDONE (R367) -/
  | tdone
  /-- the releases of a RET or EXIT: the colours left, and where the lane then goes (R337) -/
  | release (colours : List Nat) (target : Option Nat)
  /-- a matrix operation that waits for other signers (R242) -/
  | sign (m : Nat)
  /-- an irrevocable task that waits for die tokens (R371) -/
  | token
deriving DecidableEq, Repr

/-- The lane states of R111. -/
inductive LaneSt where
  | running
  | blocked (w : Wait)
  | yielded
  | held
  | parked
  | exited
deriving DecidableEq, Repr

/-- An entry of a held set (R335, R344). -/
structure HeldC where
  colour : Nat
  depth : Nat
  pending : Bool := false
deriving DecidableEq, Repr

/-- A lane (R111 and the rules beside its fields). -/
structure Lane where
  /-- program counter (R112) -/
  pc : Nat := 0
  /-- the block the lane stands in: header address and header word; none when it stands at a header (R88, R89) -/
  blk : Option (Nat × Nat) := none
  st : LaneSt := .running
  /-- vector registers; unlisted ones hold 0 (R100) -/
  v : Tbl W32 := []
  /-- p11 to p0 (R19) -/
  p : BitVec 12 := 0
  /-- call depth (R125) -/
  depth : Nat := 0
  /-- held-colour set, ascending (R335) -/
  held : List HeldC := []
  /-- pending marks: register and flag (R123) -/
  pend : List (Nat × Nat) := []
  /-- the clock of the last issue; none when it has never issued (R115) -/
  age : Option Nat := none
  /-- the task the lane runs (R364) -/
  task : Option Nat := none
  taskIx : Nat := 0xFFFFFFFF
  lapIn : Nat := 0
  /-- the trap a parked lane raised, and the posting that holds it (R396, R397) -/
  trap : Option Trap := none
  park : Nat := 0
  /-- a program counter written by TFRAME.wr since the lane parked (R405) -/
  pcWritten : Bool := false
  /-- the release to acquire before the next issue: origin and sequence (R405) -/
  acq : Option (Nat × Nat) := none
  /-- the next issue has BREAK suppressed (R431) -/
  noBreak : Bool := false
  /-- registers that hold uncorrectable data (R446, R447) -/
  badRegs : List Nat := []
deriving DecidableEq, Repr

/-- What an undo entry holds of one lane (R433). -/
structure UndoLane where
  lane : Nat
  pc : Nat
  blk : Option (Nat × Nat)
  depth : Nat
  pend : List (Nat × Nat)
  v : List (Nat × W32)
  p : BitVec 12
deriving DecidableEq, Repr

/-- An entry of the undo log (R433). -/
structure Undo where
  lanes : List UndoLane
  k : List (Nat × W64)
  kpend : List (Nat × Nat)
  fcnt : Tbl Nat
  nflags : Nat
  reversible : Bool
deriving DecidableEq, Repr

/-- A CPYW that waits for its copies (R225). -/
structure PendCpyw where
  before : Nat
  accs : List Acc
  ctx : Nat
  /-- the colour of its record (R272) -/
  colour : Nat := 0
deriving DecidableEq, Repr

/-- Why a heat is not ready (R281, R408, R410, R443, R440, R441). -/
inductive Busy where
  /-- a translation invalidation in progress: range and the count of requests before it -/
  | tlbinv (lo hi mark : Nat)
  /-- HALTALL.stop waits for the halt to be complete -/
  | halt
  /-- an atomic whose result the heat waits for (R283): the operation -/
  | result (op : Nat)
deriving DecidableEq, Repr

/-- A heat (R82, R83, R98, R100 and the rules beside its fields). -/
structure Heat where
  key : HeatKey
  core : Nat
  part : Nat
  /-- the relay or task team it belongs to -/
  unit : Nat
  leg : Nat
  /-- 0 copy, 1 matrix, 2 vector (R30, R82) -/
  role : Nat
  budget : Nat
  cls : Nat
  /-- heats in the team (R99) -/
  heatn : Nat
  /-- level indices LVIX1 to LVIX7 (R99); LVIX0 is the lane -/
  lvix : List Nat := []
  lanes : List Lane
  /-- uniform registers; unlisted ones hold 0 (R98) -/
  k : Tbl W64 := []
  kpend : List (Nat × Nat) := []
  /-- buffer records; unlisted ones hold 0 (R36) -/
  b : Tbl W256 := []
  /-- flag counts; unlisted ones are 0 (R121) -/
  fcnt : Tbl Nat := []
  /-- numerical flag word (R159) -/
  nflags : Nat := 0
  /-- starved issues (R115) -/
  starved : Nat := 0
  /-- the next issue is a paced one (R115) -/
  paced : Bool := false
  /-- run-on targets: the header of the block in which lanes parked, and the target (R118) -/
  runon : List (Nat × Nat) := []
  /-- member of the active set (R83), when it last issued since promotion (R85), and when it became resident -/
  active : Bool := false
  lastIssue : Option Nat := none
  since : Nat := 0
  /-- when a pending heat became ready (R84) -/
  readyAt : Option Nat := none
  cpyw : List PendCpyw := []
  /-- a fence or stamp in progress: the count of requests at its first clock (R281) -/
  fence : Option Nat := none
  busy : Option Busy := none
  /-- a service heat (R401) -/
  service : Bool := false
  debug : Bool := false
  journal : Bool := false
  usesTasks : Bool := false
  colours : Bool := false
  /-- a task heat (R359) -/
  isTask : Bool := false
  /-- saved with its unit (R417) -/
  saved : Bool := false
  retired : Bool := false
  /-- undo log, newest first (R433) -/
  undo : List Undo := []
deriving DecidableEq, Repr

/-- A named barrier (R284). -/
structure Bar where
  phase : Bool := false
  expect : Nat := 0
  arrived : Nat := 0
deriving DecidableEq, Repr

/-- A mark register (R241). -/
structure Mark where
  heats : Nat := 0
  group : Nat := 0
deriving DecidableEq, Repr

/-- A signing lane: the operand as it stood at its issue, and the operation that its issue began (R242, R243). -/
structure SignLane where
  lane : Nat
  operand : Nat
  op : Nat
deriving DecidableEq, Repr

/-- A heat's signature of a partly signed operation (R242). -/
structure Signer where
  heat : Nat
  lanes : List SignLane
  /-- the number of its signature among what its heat issues (R233, R259) -/
  born : Nat := 0
deriving DecidableEq, Repr

/-- A matrix operation's fields (R249). -/
structure MFields where
  op : Nat
  arr : Bool
  fmt : Option MFmt
  row : Nat
  cnt : Nat
  d : Nat
  v0 : Bool := false
  v1 : Bool := false
  v2 : Bool := false
deriving DecidableEq, Repr

/-- A partly signed operation (R242). -/
structure Partial where
  word : Nat
  fields : MFields
  signers : List Signer
deriving DecidableEq, Repr

/-- A fully signed operation in an array's queue (R244). -/
structure MOp where
  id : Nat
  ctx : Nat
  serial : Nat
  team : Nat
  unit : Nat
  fields : MFields
  off : Nat
  signers : List Signer
  operandHeat : Nat
deriving DecidableEq, Repr

/-- A plane of weights (R238): raw codes by 64k + c, mode, table kind, and the two codebooks. -/
structure Plane where
  w : Tbl Nat := []
  mode : Option MFmt := none
  dist : Bool := false
  booksA : List Nat := []
  booksW : List Nat := []
deriving DecidableEq, Repr

/-- A matrix array (R238, R244). Accumulators by 64 row + column; unlisted ones hold +0. -/
structure MArray where
  stat : Plane := {}
  shadow : Plane := {}
  acc : Tbl W32 := []
  q : List MOp := []
  /-- the planes and the accumulator rows that hold an uncorrectable error (R261) -/
  badStat : Bool := false
  badShadow : Bool := false
  badRows : List Nat := []
deriving DecidableEq, Repr

/-- A team of a unit: its number, leg, heats, barriers, marks and partly signed operations. -/
structure Team where
  team : Nat
  leg : Nat
  heats : Nat
  bars : Tbl Bar := []
  marks : Tbl Mark := []
  partials : Tbl Partial := []
deriving DecidableEq, Repr

/-- The hidden state of one ring slot (R233, R234): stamps and the cores of its stages. -/
structure SlotHid where
  start : Nat := 0
  fill : Nat := 0
  wait : Nat := 0
  cstart : Nat := 0
  cend : Nat := 0
  cores : List Nat := [0, 0, 0]
  /-- the core on which the round began -/
  began : Option Nat := none
  moved : Bool := false
deriving DecidableEq, Repr

/-- A pending hand-off (R233). -/
structure HandOff where
  ring : Nat
  slot : Nat
  stage : Stage
  phase : Bool
  heat : Nat
  team : Nat
  before : Nat
  /-- the team has been killed: the slot's fault bit is set with the hand-off -/
  killed : Bool := false
deriving DecidableEq, Repr

/-- How far the suspension of a unit has come (R415, R416). -/
inductive Susp where
  | no
  | window (start : Nat)
  | drain (start : Nat)
deriving DecidableEq, Repr

/-- A unit: the teams of a relay, or a task team, on one core, with their scratchpad region (R74, R77, R359). -/
structure RUnit where
  id : Nat
  key : UnitKey
  core : Nat
  cls : Nat
  isTask : Bool := false
  /-- scratchpad bytes and the region; unlisted bytes hold 0 (R77) -/
  size : Nat := 0
  scr : Tbl Byte := []
  teams : List Team := []
  /-- slots of rings by 16 × offset + slot -/
  hid : Tbl SlotHid := []
  handoffs : List HandOff := []
  /-- the QUAD unit and the position in it (R75, R202) -/
  quad : Option (Nat × Nat) := none
  started : Bool := false
  retired : Bool := false
  placed : Nat := 0
  susp : Susp := .no
  saved : Bool := false
  savedSig : Sig := {}
  savedAt : Nat := 0
  /-- both arrays of a saved matrix team (R240) -/
  savedArr : Option (MArray × MArray) := none
  /-- parked by the fencing of its core (R447) -/
  evicted : Bool := false
  /-- the class of the launch that pre-empts it (R414) -/
  preempt : Nat := 0
deriving DecidableEq, Repr

/-- A level entry and a leg entry of a launch record (R28, R30). -/
structure Level where
  count : Nat
  domain : Nat
  scope : Nat
deriving DecidableEq, Repr

structure Leg where
  entry : Nat
  budget : Nat
  heats : Nat
  role : Nat
deriving DecidableEq, Repr

/-- A launch record as read (R27). -/
structure LaunchRec where
  image : Nat := 0
  completion : Nat := 0
  colourBase : Nat := 0
  scratch : Nat := 0
  cls : Nat := 0
  qclass : Bool := false
  journalled : Bool := false
  debug : Bool := false
  usesTasks : Bool := false
  levels : List Level := []
  legs : List Leg := []
  args : Nat := 0
deriving DecidableEq, Repr

/-- How a kernel stands (R67, R87). -/
inductive KernelSt where
  | queued
  | running
  | ended (status : Nat)
  | rolledBack
deriving DecidableEq, Repr

/-- What the start of a launch in a serial queue must acquire (R70). -/
inductive PrevAcq where
  | none
  | object (pa : Nat)
  | flush
deriving DecidableEq, Repr

/-- A kernel (R67, R87). -/
structure Kernel where
  ctx : Nat
  serial : Nat
  queue : Nat
  lrec : LaunchRec
  cls : Nat
  port : Nat
  endpoint : Nat
  sender : Nat
  tag : Nat
  travel : Travel
  st : KernelSt := .queued
  /-- relays placed, and relays retired -/
  placed : Nat := 0
  done : Nat := 0
  nflags : Nat := 0
  prev : PrevAcq := .none
  /-- the kernel is being killed: it ends with status 1 (R406) -/
  killed : Bool := false
  /-- a forced reset killed it: it ends with status 2 (R421) -/
  reset : Bool := false
  /-- the number of its last unit's retirement, and the count of requests before its end (R70, R87) -/
  lastRetire : Nat := 0
  endMark : Nat := 0
  /-- die that received the LAUNCH, and the half of its port (R17, R87) -/
  recDie : Nat := 0
  half : Nat := 0
deriving DecidableEq, Repr

/-- A launch queue's class, mode and pause (R68), the serial of the launch it last started (R69), and the die that owns it
while its own die's loss still moves it (R67, R453). -/
structure LQueue where
  cls : Nat := 3
  concurrent : Bool := false
  paused : Bool := false
  last : Option Nat := none
  moved : Option Nat := none
deriving DecidableEq, Repr

/-- A PAGE_DONE whose range an agent can still reach through the old mapping: its range, and the count of requests before
it (R66, R410). -/
structure PageMap where
  ctx : Nat
  port : Nat
  va : Nat
  len : Nat
  mark : Nat
deriving DecidableEq, Repr

/-- A security association (R64). -/
structure Assoc where
  peer : Nat
  spi : Nat
  keyLen : Nat
  key : List Byte
deriving DecidableEq, Repr

/-- A watchpoint (R432). -/
structure Watch where
  addr : Nat
  len : Nat
  kind : WatchKind
deriving DecidableEq, Repr

/-- A member of a colour's queue (R343): its heat and lane, and whether it sleeps. -/
structure Waiter where
  key : HeatKey
  lane : Nat
  sleeper : Bool := false
deriving DecidableEq, Repr

/-- A context (R63 and the rules beside its fields). -/
structure Ctx where
  opened : Bool := false
  closing : Bool := false
  root : Nat := 0
  trail : Nat := 0
  fwd : Nat := 0
  hostPaging : Bool := false
  secure : Bool := false
  opener : Nat := 0
  openTag : Nat := 0
  closeTag : Nat := 0
  closer : Nat := 0
  closePort : Nat := 0
  closeHalf : Nat := 0
  queues : Tbl LQueue := []
  nextSerial : Nat := 1
  colourBase : Nat := 0
  assocs : Tbl Assoc := []
  watch : Tbl Watch := []
  /-- a halt has begun, and has been delivered to the cores (R429) -/
  haltBegun : Bool := false
  halted : Bool := false
  /-- queues of the colours (R343) -/
  mon : Tbl (List Waiter) := []
  /-- applied tables by 272 core + origin (R276); release sequences and banks by origin (R273) -/
  applied : Tbl Nat := []
  seqs : Tbl Nat := []
  banks : Tbl Sig := []
  /-- FBSTAT overflow bits and FBOVF counts by die (R409) -/
  ovf : Tbl Bool := []
  ovfCount : Tbl Nat := []
  /-- chunks whose pre-images are being saved: serial and chunk (R437) -/
  saves : List (Nat × Nat) := []
  /-- chunks saved: serial, chunk, slot (R437) -/
  saved : List (Nat × Nat × Nat) := []
  /-- cached remote endpoint entries by handle (R319) -/
  endpoints : Tbl (List Byte) := []
deriving DecidableEq, Repr

/-- An instruction in flight: the lanes whose results are outstanding, the flag to lower, the copy's ring slot and the
lanes parked on it (R121, R224, R231). -/
structure Op where
  id : Nat
  key : HeatKey
  pc : Nat
  flag : Option Nat := none
  left : List Nat
  parked : List Nat := []
  blk : Option (Nat × Nat) := none
  isCopy : Bool := false
  ring : Option (Nat × Nat) := none
  colour : Nat := 0
  /-- the lanes that issued a copy (R223, R224) -/
  lanes : List Nat := []
  /-- a copy that its issue could bind to no slot: its lanes bind it when they replay it (R231) -/
  unbound : Bool := false
  /-- the elements a copy has written: place and lane (R220) -/
  wrote : Tbl Nat := []
  /-- the clock of its issue, and the causes that its lanes have met since (R395) -/
  born : Nat := 0
  late : List (Nat × Trap) := []
deriving DecidableEq, Repr

/-- An outstanding line request (R193). -/
structure Req where
  id : Nat
  key : HeatKey
  ctx : Nat
  core : Nat
  line : Nat
  accs : List Acc
  write : Bool := false
  copy : Bool := false
  stream : Bool := false
  /-- the endpoint handle of a REMOTE access, and the place in the peer's memory (R200) -/
  remote : Option (Nat × Nat) := none
  /-- how a REMOTE access has left: its port and half, and the header data word (R16, R17, R317) -/
  way : Option (Nat × Nat) := none
  header : Nat := 0
  /-- the bytes of a REMOTE write, by peer address (R200, R223) -/
  payload : List (Nat × List Byte) := []
  born : Nat := 0
deriving DecidableEq, Repr

/-- What a release writes into its object (R42). -/
inductive RelVal where
  | set (v : Nat)
  | incr
  /-- the operation of each lane, in ascending order: addend or operand, destination -/
  | rmw (key : HeatKey) (accs : List Acc)
deriving DecidableEq, Repr

/-- A release in progress (R274): its captured signature and the count of requests its writes precede. -/
structure PendRel where
  id : Nat := 0
  origin : Nat
  ctx : Nat
  scope : Scope
  obj : Option Nat
  val : RelVal
  flags : Nat := 0
  /-- a colour release: heat, lane, colour (R337) -/
  colour : Option (HeatKey × Nat × Nat) := none
  /-- a release of a CPYW: the heat and the operation (R225) -/
  cpyw : Option (HeatKey × Nat) := none
  cap : Option (Sig × Nat) := none
deriving DecidableEq, Repr

/-- An L2 sector state (R300): M, O, E, S at a remote die; valid clean or dirty at the home. -/
inductive L2St where
  | m | o | e | s | clean | dirty
deriving DecidableEq, Repr

structure L2Line where
  st : L2St
  data : List Byte
  wrote : Nat := 0
deriving DecidableEq, Repr

/-- The home directory's record of a die (R301). -/
inductive DirSt where
  | e | m | o | s
deriving DecidableEq, Repr

/-- The entry of a sector: the states of the dies that hold it, by die (R301). -/
structure DirEntry where
  holders : Tbl DirSt := []
deriving DecidableEq, Repr

/-- The message kinds of R303. -/
inductive MsgKind where
  | readShared | readOwn | upgrade | fwdShared | fwdOwn | inval | backInval | invalAck | dataClean | dataDirty
  | writeBack | cleanEvict | backInvalAck
deriving DecidableEq, Repr

/-- The channel of a message (R302, R303): request 0, snoop 1, response 2. -/
def MsgKind.channel : MsgKind → Nat
  | .readShared | .readOwn | .upgrade => 0
  | .fwdShared | .fwdOwn | .inval | .backInval => 1
  | _ => 2

/-- A coherence message (R302, R303). It names a line and, as its mask, one sector of it; a BackInval means the whole
line, and a BackInvalAck carries the line's dirty sectors as parts. -/
structure CMsg where
  kind : MsgKind
  src : Nat
  dst : Nat
  sector : Nat
  requester : Nat := 0
  grant : Option L2St := none
  data : Option (List Byte) := none
  dirty : Bool := false
  retain : Bool := false
  /-- the dirty sectors of a BackInvalAck: number in the line, bytes -/
  parts : List (Nat × List Byte) := []
  sent : Nat := 0
deriving DecidableEq, Repr

/-- The line that a message names: PA[51:8] (R302). -/
def CMsg.line (m : CMsg) : Nat := m.sector / 4

/-- The sector mask of a message (R302, R303). -/
def CMsg.mask (m : CMsg) : Nat :=
  match m.kind with
  | .backInval => 15
  | .backInvalAck => maskOf (m.parts.map (·.1))
  | _ => 2 ^ (m.sector % 4)

/-- A transaction at a home (R305): what it answers once every acknowledgement has come. -/
structure Txn where
  sector : Nat
  kind : MsgKind
  requester : Nat
  acks : Nat
  /-- the requester has been answered by the holder -/
  forwarded : Bool := false
  dirty : Bool := false
  /-- the clock of its snoops (R311) -/
  sent : Nat := 0
deriving DecidableEq, Repr

/-- A line being back-invalidated (R309): the acknowledgements left, and the clock of the messages (R311). -/
structure BackInv where
  line : Nat
  left : List Nat
  sent : Nat := 0
deriving DecidableEq, Repr

/-- An entry of a die's remote write queue (R264). -/
structure Rwq where
  id : Nat
  die : Nat
  pa : Nat
  bytes : List Byte
  /-- written by a copy engine (R222) -/
  copy : Bool := false
deriving DecidableEq, Repr

/-- An entry of a die's translation buffer, of which the buffers of the die's cores hold a part (R199). -/
structure TlbE where
  die : Nat
  /-- the cores whose own buffers hold the entry too -/
  cores : List Nat := []
  ctx : Nat
  va : Nat
  size : Nat
  pa : Nat
  w : Bool
  x : Bool
  /-- where the leaf entry lies, and whether its D is set -/
  pte : Nat
  dirty : Bool
deriving DecidableEq, Repr

/-- The work of a dealer record (R461): the task being dealt, or the producer with the edge whose decrement failed: the
entry's address and quadword, the lap, and the release it records. -/
structure Dealer where
  card : Nat
  task : Nat
  edge : Option (Nat × Nat × Nat × Option (Nat × Nat)) := none
deriving DecidableEq, Repr

/-- A fault record, posted or waiting to be posted (R397, R399, R400, R461). -/
structure FRec where
  id : Nat
  die : Nat
  ctx : Nat
  key : Option HeatKey
  addr : Nat
  pc : Nat
  lanes : Nat
  causeByte : Nat
  code : Nat
  laneCodes : List (Nat × Nat)
  task : Option Nat := none
  taskRef : Nat := 0xFFFFFFFF
  core : Nat
  flags : Nat
  serial : Option Nat := none
  seq : Nat := 0
  claimed : Option HeatKey := none
  born : Nat := 0
  retry : Bool := false
  /-- a dealer record's work (R461) -/
  dealer : Option Dealer := none
deriving DecidableEq, Repr

/-- How a task of a card stands (R357, R377). -/
inductive TaskSt where
  | waiting
  | ready (die entry : Nat)
  | queued
  /-- in a chunk, behind the task that its heat runs (R363) -/
  | dealt
  | running (run : Nat)
  | paged (rec : Nat)
  | done
  | retired
deriving DecidableEq, Repr

structure Task where
  st : TaskSt := .waiting
  die : Nat := 0
  entry : Nat := 0
  lapIn : Nat := 0
  pairs : List (Nat × Nat) := []
  wipe : Bool := false
  conflicts : Nat := 0
  irrevocable : Bool := false
  base : Option Nat := none
  /-- the head of its argument record as read at its dealing (R26, R51) -/
  args : List Byte := []
  /-- the addresses of the successor entries that fired it (R376) -/
  edges : List Nat := []
  /-- its place in the order of readiness (R357) -/
  rank : Nat := 0
deriving DecidableEq, Repr

/-- A card in the task-queue SRAM (R47, R356). -/
structure Card where
  id : Nat
  ctx : Nat
  serial : Nat
  entry : Nat
  args : Nat
  recSize : Nat
  count : Nat
  width : Nat
  teamHeats : Nat
  dies : List Nat
  cls : Nat
  budget : Nat
  completion : Nat
  scratch : Nat
  entries : List (Nat × Nat)
  pair : Option (Nat × Nat)
  tasks : Tbl Task := []
  /-- ready tasks in order, over the dies (R362) -/
  ready : List Nat := []
  failed : Bool := false
  /-- its group has settled; a later lap may still re-fire its tasks (R377, R379) -/
  settled : Bool := false
deriving DecidableEq, Repr

/-- A task in its lanes (R364, R365). -/
structure Run where
  id : Nat
  card : Nat
  task : Nat
  ctx : Nat
  arec : Nat
  tile : Nat
  core : Nat
  /-- the team of its heats (R360), and the lane of a lane task -/
  serial : Nat
  team : Nat
  lane : Option Nat
  rs : Sig := {}
  ws : Sig := {}
  buf : Tbl Byte := []
  /-- the chunks that its stores hit through records without NOPRE (R39) -/
  chunks : List Nat := []
  irrevocable : Bool := false
  tokens : List Nat := []
  flags : Nat := 0
  base : Nat := 0
  published : Bool := false
  lastFinal : Bool := false
  /-- publications made by the run that a consumer's edge reads (R374) -/
  eachFinal : Bool := true
  /-- the successor entries as TDONE read them: address and quadword (R26, R51) -/
  succ : List (Nat × Nat) := []
  rest : List Nat := []
  committing : Bool := false
deriving DecidableEq, Repr

/-- A group of cards (R356, R379): flags since its previous settling, and whether one is owed. -/
structure Group where
  ctx : Nat
  obj : Nat
  flags : Nat := 0
deriving DecidableEq, Repr

/-- A message that the part has sent (R60, R61). -/
structure OutMsg where
  port : Nat
  half : Nat := 0
  peer : Nat
  endpoint : Nat
  kind : Nat
  tag : Nat
  body : List Byte
deriving DecidableEq, Repr

/-- An answer to a remote-window access (R315, R316): data of a Read, or none. -/
structure UetOut where
  port : Nat
  half : Nat := 0
  peer : Nat
  ok : Bool
  data : List Byte
deriving DecidableEq, Repr

/-- A port (R16, R17): in service, the shape in force, and the halves it may use. -/
structure Port where
  trained : Bool := false
  split : Bool := false
  stopped : Bool := false
  training : Bool := false
deriving DecidableEq, Repr

/-- The sideband registers (R457, R459). -/
structure Sideband where
  state : Nat := 0
  replace : Bool := false
  dieReset : Nat := 0
  shape : Nat := 0
  retrain : Nat := 0
  mgmt0 : Nat := 0
  mgmt1 : Nat := 0
  margsel : Nat := 0
  margctl : Nat := 0
  margres : Nat := 0
  corrected : Nat := 0
  uncorrected : Nat := 0
  portErr : Tbl Nat := []
  mapIndex : Nat := 0
  cap : Nat := 3200
  assocBuf : Tbl Byte := []
  assoc : Option Assoc := none
  dynamic : Option Nat := none
  offset : Nat := 0
  replaceCount : Nat := 0
  throttled : Bool := false
deriving DecidableEq, Repr

/-- The test access port (R460). -/
structure Tap where
  ir : Nat := 0x02
  reset : Bool := false
  chain : List Bool := []
  update : List Bool := []
  shifted : List Bool := []
  captures : Nat := 0
deriving DecidableEq, Repr

/-- A self-test in progress on a die (R454). -/
structure Bist where
  die : Nat
  ctx : Nat
  va : Nat
  sel : Nat
  alg : Nat
deriving DecidableEq, Repr

/-- A suspicion of a die (R320): who raised it, who agrees, and the probes under way. -/
structure Suspicion where
  target : Nat
  by_ : Nat
  agree : List Nat := []
  /-- probes sent and not answered: the prober and the clock (R320) -/
  probes : Tbl Nat := []
deriving DecidableEq, Repr

/-- A commit in an arbiter's queue (R367): the run, and whether it waits for an irrevocable task (R372). -/
structure CommitQ where
  die : Nat
  run : Nat
  publish : Option (Nat × Bool) := none
  waits : Bool := false
deriving DecidableEq, Repr

/-- Who moves next (model's own; log entry 3): an event, an issue of a heat, or clocks that pass. -/
inductive Move where
  | event (i : Instr)
  | issue (key : HeatKey)
  | pass (n : Nat)
deriving DecidableEq, Repr

/-- The issue in progress (model's own; log entry 3): the heat, the selected group, the word's address and the block. -/
structure Iss where
  key : HeatKey
  lanes : List Nat
  pc : Nat
  hdrAddr : Nat
  hdr : Nat
  entering : Bool
  word : Nat
  /-- the lanes held at safe points, which were no candidates (R115, R415) -/
  aside : List Nat := []
deriving DecidableEq, Repr

/-- The fused section of the defect map at reset, its check word apart (R458): no unit fused as fenced, physical quads 0
to 15 carrying logical quads 0 to 15, quad 16 the spare, and 256 spare rows left in each stack (log entry 2). -/
def fusedMap : Tbl Byte :=
  [(0, 0x4D), (1, 0x44), (2, 0x01)] ++ (upto 4).flatMap (fun d =>
    (upto 15).map (fun p => (64 + 256 * d + p + 1, BitVec.ofNat 8 (p + 1))) ++ [(64 + 256 * d + 16, 0x10)] ++
    (upto 4).map (fun s => (64 + 256 * d + 160 + 4 * s + 3, 0x01)))

/-- The part. -/
structure State where
  /-- physical memory (R15): unlisted bytes read 0 (log entry 1) -/
  mem : List Host.Cell := []
  /-- sectors of the L1s by 2^34 core + sector (R188) -/
  l1 : Tbl (List Byte) := []
  /-- lines of the L1s allocated for eviction first, by 2^34 core + line (R190) -/
  l1Stream : List Nat := []
  /-- sectors of the L2s by 2^34 die + sector (R299, R300) -/
  l2 : Tbl L2Line := []
  /-- directory entries by sector, and lines in order of allocation (R301, R309) -/
  dir : Tbl DirEntry := []
  dirOrder : List Nat := []
  backInv : List BackInv := []
  msgs : List CMsg := []
  txns : List Txn := []
  /-- requests that wait at a home for a busy sector, in order (R305) -/
  queued : List CMsg := []
  /-- requests of the L2s not yet answered: die and sector (R304) -/
  asked : List (Nat × Nat × Nat) := []
  rwq : List Rwq := []
  tlb : List TlbE := []
  poison : List Nat := []
  retiredChunks : List Nat := []
  reqs : List Req := []
  ops : List Op := []
  rels : List PendRel := []
  heats : List Heat := []
  units : List RUnit := []
  arrays : Tbl MArray := []
  ctxs : Tbl Ctx := []
  kernels : List Kernel := []
  /-- the pair of context and queue that each class of a die last started, by 4 die + class (R69) -/
  lastStart : Tbl Nat := []
  postings : List FRec := []
  records : List FRec := []
  postCount : Tbl Nat := []
  cards : List Card := []
  runs : List Run := []
  groups : List Group := []
  arb : List CommitQ := []
  /-- die tokens: holder (R371), and requests in order -/
  token : Tbl Nat := []
  tokenQ : List Nat := []
  /-- the card each class of a die last dealt from, by 4 die + class (R362) -/
  lastDeal : Tbl Nat := []
  fencedDies : List Nat := []
  suspicions : List Suspicion := []
  bist : List Bist := []
  resetting : List Nat := []
  /-- the fused section and the field section of the defect map, and the nonvolatile copy of the latter (R458, R445) -/
  fused : Tbl Byte := fusedMap
  field : Tbl Byte := []
  nvField : Tbl Byte := []
  /-- spare lanes used in each module of a bundle, by 256 die + 16 partner + module (R445) -/
  lanesUsed : Tbl Nat := []
  sb : Sideband := {}
  tap : Tap := {}
  ports : Tbl Port := []
  out : List OutMsg := []
  uet : List UetOut := []
  /-- PAGE_DONEs not yet complete, in order (R66) -/
  maps : List PageMap := []
  /-- bytes returned by the last private read of the sideband (R459) -/
  sbOut : List Byte := []
  /-- resets of each die, which number the free start values of its clocks (R434) -/
  resets : Tbl Nat := []
  /-- clocks passed (model's own) -/
  now : Nat := 0
  /-- numbers requests, write-queue entries, operations, postings and cards (model's own) -/
  nid : Nat := 1
  agenda : List Move := []
  iss : Option Iss := none
deriving DecidableEq, Repr

/-- The machine before power-good: no context open, nothing resident, every buffer empty, the sideband in state reset
(R449, R459). -/
def State.reset : State := {}

end Sys2Proof.Machine
end

