-- ==== Sys2Proof/Machine/Ops.lean ====
section
/-! DEFINITION. The named operations over the parts of the state: contexts, heats, lanes, units and kernels; the raising
of a trap (R396, R397) and the return from one (R405).
Readings logged: DEDUCED 31; DESIGN CHOICE 5. -/

namespace Sys2Proof.Machine

/-! Contexts, heats, lanes, units. -/

def State.ctx (s : State) (c : Nat) : Ctx := Tbl.get {} s.ctxs c
def State.updCtx (s : State) (c : Nat) (f : Ctx → Ctx) : State := { s with ctxs := Tbl.set s.ctxs c (f (s.ctx c)) }

def State.heat? (s : State) (k : HeatKey) : Option Heat := s.heats.find? (fun h => h.key = k)
def State.updHeat (s : State) (k : HeatKey) (f : Heat → Heat) : State :=
  { s with heats := modifyFirst (fun h => h.key = k) f s.heats }

def Heat.lane (h : Heat) (l : Nat) : Lane := (h.lanes[l]?).getD {}
def Heat.updLane (h : Heat) (l : Nat) (f : Lane → Lane) : Heat := { h with lanes := modifyAt h.lanes l f }
def State.updLane (s : State) (k : HeatKey) (l : Nat) (f : Lane → Lane) : State := s.updHeat k (fun h => h.updLane l f)
def State.lane? (s : State) (k : HeatKey) (l : Nat) : Option Lane := (s.heat? k).bind (fun h => h.lanes[l]?)

def State.unit? (s : State) (i : Nat) : Option RUnit := s.units.find? (fun u => u.id = i)
def State.unitOf (s : State) (k : UnitKey) : Option RUnit := s.units.find? (fun u => u.key = k)
def State.updUnit (s : State) (i : Nat) (f : RUnit → RUnit) : State :=
  { s with units := modifyFirst (fun u => u.id = i) f s.units }
def RUnit.team? (u : RUnit) (t : Nat) : Option Team := u.teams.find? (fun x => x.team = t)
def RUnit.updTeam (u : RUnit) (t : Nat) (f : Team → Team) : RUnit :=
  { u with teams := modifyFirst (fun x => x.team = t) f u.teams }
def State.updTeam (s : State) (i t : Nat) (f : Team → Team) : State := s.updUnit i (fun u => u.updTeam t f)

def State.kernel? (s : State) (c n : Nat) : Option Kernel := s.kernels.find? (fun k => k.ctx = c ∧ k.serial = n)
def State.updKernel (s : State) (c n : Nat) (f : Kernel → Kernel) : State :=
  { s with kernels := modifyFirst (fun k => k.ctx = c ∧ k.serial = n) f s.kernels }

def State.card? (s : State) (i : Nat) : Option Card := s.cards.find? (fun c => c.id = i)
def State.updCard (s : State) (i : Nat) (f : Card → Card) : State :=
  { s with cards := modifyFirst (fun c => c.id = i) f s.cards }
def State.run? (s : State) (i : Nat) : Option Run := s.runs.find? (fun r => r.id = i)
def State.updRun (s : State) (i : Nat) (f : Run → Run) : State :=
  { s with runs := modifyFirst (fun r => r.id = i) f s.runs }
def Card.task (c : Card) (i : Nat) : Task := Tbl.get {} c.tasks i
def State.updTask (s : State) (c i : Nat) (f : Task → Task) : State :=
  s.updCard c (fun x => { x with tasks := Tbl.set x.tasks i (f (x.task i)) })

def State.array (s : State) (core : Nat) (a : Bool) : MArray := Tbl.get {} s.arrays (2 * core + b2n a)
def State.updArray (s : State) (core : Nat) (a : Bool) (f : MArray → MArray) : State :=
  { s with arrays := Tbl.set s.arrays (2 * core + b2n a) (f (s.array core a)) }

/-- A fresh number. -/
def State.fresh (s : State) : Nat × State := (s.nid, { s with nid := s.nid + 1 })

/-- The die of a core (R14). -/
def dieOf (core : Nat) : Nat := core / 64

/-- The home die of a physical address (R15). -/
def homeOf (pa : Nat) : Nat := fld pa 38 2

/-- The dies in service. -/
def State.aliveDies (s : State) : List Nat := (upto 4).filter (fun d => !s.fencedDies.contains d)

/-- A core's clock counter (R434): a free start value and the clocks that have passed. -/
def State.clock (s : State) (core : Nat) : W64 :=
  Config.clockStart core (Tbl.get 0 s.resets (dieOf core)) + BitVec.ofNat 64 s.now

/-- The thread id of a lane (R45). -/
def threadId (k : HeatKey) (lane : Nat) : Nat :=
  lane % 32 + k.heat % 512 * 2 ^ 5 + k.team % 2 ^ 24 * 2 ^ 14 + k.serial % 2 ^ 16 * 2 ^ 38

/-- The thread id that no thread has: free, or none (R44). -/
def noThread : Nat := 2 ^ 64 - 1

/-- The heat and lane that a thread id names in a context (R45). -/
def threadOf (ctx tid : Nat) : HeatKey × Nat :=
  ({ ctx := ctx, serial := fld tid 38 16, team := fld tid 14 24, heat := fld tid 5 9 }, fld tid 0 5)

/-- The lanes of a heat with a property, ascending. -/
def Heat.lanesWhere (h : Heat) (p : Lane → Bool) : List Nat :=
  (upto h.lanes.length).filter (fun l => p (h.lane l))

def Lane.exited (x : Lane) : Bool := x.st = .exited
def Lane.parkedB (x : Lane) : Bool := x.st = .parked
def Lane.blockedB (x : Lane) : Bool := match x.st with | .blocked _ => true | _ => false

/-- Whether every lane has exited. -/
def Heat.allExited (h : Heat) : Bool := h.lanes.all Lane.exited

/-- The run of the task a lane runs (R364). -/
def State.runOf (s : State) (x : Lane) : Option Run := x.task.bind s.run?

/-! The defect map's fences (R445, R458). -/

/-- A byte of the merged map's section of a die: a set bit of either section counts. -/
def State.mapByte (s : State) (die off : Nat) : Nat :=
  (Tbl.get 0 s.fused (64 + 256 * die + off)).toNat ||| (Tbl.get 0 s.field (2048 + 256 * die + off)).toNat

/-- Whether a physical quad is fenced, by either section (R445, R458). -/
def State.quadFenced (s : State) (die p : Nat) : Bool := bit (s.mapByte die p) 5

/-- The fused byte of a physical quad: its logical number, and whether it is the spare (R458). -/
def State.quadByte (s : State) (die p : Nat) : Nat := (Tbl.get 0 s.fused (64 + 256 * die + p)).toNat

/-- The physical quad that carries a logical quad: the quad fused to it, or the spare where that one is fenced and the
field section gives the spare its number (R14, R445). -/
def State.physQuad (s : State) (die q : Nat) : Option Nat :=
  let all := upto 17
  match all.find? (fun p => !(bit (s.quadByte die p) 4) && fld (s.quadByte die p) 0 4 == q) with
  | none => none
  | some p =>
    if s.quadFenced die p then
      all.find? (fun r => bit (s.quadByte die r) 4 && !(s.quadFenced die r) &&
        fld (Tbl.get 0 s.field (2048 + 256 * die + r)).toNat 0 4 == q)
    else some p

/-- Whether a logical core is enabled (R14, R445). -/
def State.coreEnabled (s : State) (core : Nat) : Bool :=
  !s.fencedDies.contains (dieOf core) && (s.physQuad (dieOf core) (core % 64 / 4)).isSome

/-- Whether an array of a logical core is fenced (R239). -/
def State.arrayFenced (s : State) (core a : Nat) : Bool :=
  match s.physQuad (dieOf core) (core % 64 / 4) with
  | none => true
  | some p => let i := 2 * (4 * p + core % 4) + a
    bit (s.mapByte (dieOf core) (32 + i / 8)) (i % 8)

/-! Raising a trap and returning from one. -/

/-- The posting of one record (R397) for lanes of a heat that trapped at one word. -/
def mkRec (s : State) (h : Heat) (pc : Nat) (ts : List (Nat × Trap)) (run : Option Run) : FRec :=
  let addr := (ts.find? (fun t => t.2.addr.isSome)).bind (fun t => t.2.addr.map (fun a => (a, t.2.write, t.2.fetch)))
  let cause := (leastBy id (ts.map (fun t => t.2.cause.code))).getD 0
  let a := addr.getD (0, false, false)
  let ref := match run with
    | none => 0xFFFFFFFF
    | some r => match s.card? r.card with
      | none => 0xFFFFFFFF
      | some c => (c.task r.task).entry % 2 ^ 16 + (c.task r.task).die * 2 ^ 16
  { id := s.nid, die := dieOf h.core, ctx := h.key.ctx, key := some h.key, addr := a.1, pc := pc
    lanes := maskOf (ts.map (·.1))
    causeByte := cause + 32 * b2n a.2.1 + 64 * b2n a.2.2
    code := ((ts.find? (fun t => t.2.cause = .trap)).map (·.2.code)).getD 0
    laneCodes := ts.map (fun t => (t.1, t.2.cause.code))
    task := run.map (·.id), taskRef := ref, core := h.core
    flags := 4 * b2n run.isSome + 8 * b2n ((run.map (·.irrevocable)).getD false)
    serial := some h.key.serial, born := s.now }

/-- The lanes of a posting parked (R396), and the run-on target of their block kept (R118). -/
def Heat.parkAll (h : Heat) (ts : List (Nat × Trap)) (id : Nat) : Heat :=
  let h := ts.foldl (fun h t => h.updLane t.1 (fun x => { x with st := .parked, trap := some t.2, park := id, pcWritten := false })) h
  match (ts.head?).bind (fun t => (h.lane t.1).blk) with
  | none => h
  | some (a, w) =>
    let j := sext (fld w 7 16) 16
    if j = 0 then h else { h with runon := nub (h.runon ++ [(a, low 64 ((a : Int) + 8 * j))]) }

/-- One posting and its parked lanes (R396). -/
def parkGroup (s : State) (key : HeatKey) (pc : Nat) (ts : List (Nat × Trap)) (run : Option Run) : State :=
  match s.heat? key with
  | none => s
  | some h =>
    let r := mkRec s h pc ts run
    { s with nid := s.nid + 1, postings := s.postings ++ [r] }.updHeat key (fun h => h.parkAll ts r.id)

/-- Taking an exception: the lanes park at the word with one posting, or one for each task whose lanes raise a cause
(R395, R396). The program counters stay where they are. -/
def raise (s : State) (key : HeatKey) (pc : Nat) (ts : List (Nat × Trap)) : State :=
  match s.heat? key with
  | none => s
  | some h =>
    let taskOf (t : Nat × Trap) : Nat := match (h.lane t.1).task with | none => 0 | some r => r + 1
    (nub (ts.map taskOf)).foldl (fun s k =>
      let g := ts.filter (fun t => taskOf t == k)
      parkGroup s key pc g (if k = 0 then none else s.run? (k - 1))) s

/-- The address after a word of a block, which after the last word is the next block's header, and the block the lane
then stands in (R88). -/
def nextPc (hdrAddr hdr pc : Nat) : Nat × Option (Nat × Nat) :=
  let n := pc + 8
  if n < hdrAddr + 8 * (fld hdr 52 8 + 1) then (n, some (hdrAddr, hdr)) else (n, none)

/-- A lane moved to the next word. -/
def Lane.advance (x : Lane) : Lane :=
  match x.blk with
  | none => { x with pc := x.pc + 8 }
  | some (a, w) => { x with pc := (nextPc a w x.pc).1, blk := (nextPc a w x.pc).2 }

/-- A lane sent to a transfer target, which is a header (R88). -/
def Lane.goto (x : Lane) (t : Nat) : Lane := { x with pc := t, blk := none }

/-- Returning from an exception: a parked lane becomes running at its word, or at the next one after TRAP or with skip,
unless TFRAME.wr gave it a program counter; its marks stay until its next issue (R405, R431). -/
def Lane.resumed (x : Lane) (skip : Bool) (acq : Option (Nat × Nat)) : Lane :=
  let wasTrap := (x.trap.map (·.cause)) = some .trap
  let y := if x.pcWritten then x.goto x.pc else if skip || wasTrap then x.advance else x
  { y with st := .running, acq := acq, trap := none, pcWritten := false
           noBreak := (x.trap.map (·.cause)) = some .brk }

/-- Whether every flag on which the lane holds marks is clear (R405). -/
def Heat.marksClear (h : Heat) (x : Lane) : Bool := x.pend.all (fun m => Tbl.get 0 h.fcnt m.2 == 0)

/-- A held-safe record of the run-on targets whose parked lanes are all gone is dropped (R118). -/
def Heat.dropRunon (h : Heat) : Heat :=
  { h with runon := h.runon.filter (fun r => h.lanes.any (fun x => x.parkedB && (x.blk.map (·.1)) = some r.1)) }

end Sys2Proof.Machine
end

