-- ==== Sys2Proof/Machine/Bars.lean ====
section
/-! DEFINITION. Named barriers: arrivals and the completion of a phase (R284). -/

namespace Sys2Proof.Machine

/-- Whether a heat belongs to a team of a unit. -/
def Heat.inTeam (h : Heat) (unit team : Nat) : Bool := h.unit == unit && h.key.team == team

/-- The heats of a team that have not exited, as positions in the team. -/
def State.liveHeats (s : State) (unit team : Nat) : List Nat :=
  (s.heats.filter (fun h => h.inTeam unit team && !h.retired && !h.allExited)).map (·.key.heat)

/-- How many heats of a team count at a barrier: those that have arrived, and the exited ones that have not. -/
def State.barCount (s : State) (unit : Nat) (t : Team) (b : Bar) : Nat :=
  let live := s.liveHeats unit t.team
  ((upto t.heats).filter (fun i => bit b.arrived i || !live.contains i)).length

/-- A lane that waits at a barrier of the team goes on to the next word. -/
def Lane.pass (n : Nat) (x : Lane) : Lane :=
  match x.st with
  | .blocked (.bar m) => if m = n then { x.advance with st := .running } else x
  | _ => x

/-- A phase completes when enough heats count: the phase bit flips, mask and count clear, the lanes run (R284). -/
def State.settleBar (s : State) (unit team n : Nat) : State :=
  match (s.unit? unit).bind (fun u => u.team? team) with
  | none => s
  | some t =>
    let b := Tbl.get {} t.bars n
    if b.arrived != 0 && b.expect ≤ s.barCount unit t b then
      let s := s.updTeam unit team (fun t => { t with bars := Tbl.set t.bars n { phase := !b.phase } })
      { s with heats := s.heats.map (fun h =>
          if h.inTeam unit team then { h with lanes := h.lanes.map (Lane.pass n) } else h) }
    else s

/-- Every barrier of a heat's team judged again, after lanes have exited (R127). -/
def State.settleBars (s : State) (key : HeatKey) : State :=
  match s.heat? key with
  | none => s
  | some h => if h.allExited then (upto 16).foldl (fun s n => s.settleBar h.unit h.key.team n) s else s

/-- A heat arrives at a barrier (R284). -/
def State.arrive (s : State) (h : Heat) (n count : Nat) : State :=
  (s.updTeam h.unit h.key.team (fun t =>
    let b := Tbl.get {} t.bars n
    { t with bars := Tbl.set t.bars n { b with expect := if b.arrived = 0 then count else b.expect, arrived := b.arrived ||| 2 ^ h.key.heat } })).settleBar h.unit h.key.team n

end Sys2Proof.Machine
end

