-- ==== Sys2Proof/Decode.lean ====
section
/-! DEFINITION. The decoder of instruction words, total on every word and refusing by name (R89, R90, R93 to R103), and
after it the encoder, written from the same tables of the spec.
Readings logged: DEDUCED 15, 17, 23. -/

namespace Sys2Proof

open Machine (fld bit low sext b2n)

/-- Why a word is no instruction (R94, R103). -/
inductive Reject where
  /-- the tag of a header word stands at an instruction position (R103) -/
  | headerWord
  /-- the opcode is unassigned or in the reserved row 0xE (R102, R103) -/
  | unassigned
  /-- bit [48] is set (R94) -/
  | reservedBit
  /-- a field holds a reserved value, or a function code that the entry does not assign (R94) -/
  | reservedField
  /-- an operand breaks R98 to R101, or the guard or the flag select is reserved (R94) -/
  | illegalOperand
deriving DecidableEq, Repr

namespace Dec

/-- The type codes of R96. -/
def ty : Nat → Option Ty
  | 0 => some .s32 | 1 => some .n32 | 2 => some .s64 | 3 => some .n64 | 4 => some .f32
  | 5 => some .bf16 | 6 => some .e4m3 | 7 => some .e5m2 | 8 => some .e8m0 | 9 => some .c4 | _ => none

/-- The rounding codes of R96. -/
def rnd : Nat → Option Rnd
  | 0 => some .rn | 1 => some .rz | 2 => some .ru | 3 => some .rd | 4 => some .rs | _ => none

/-- The special sources of R99. -/
def special (c : Nat) : Option Special :=
  match c with
  | 448 => some .lane | 449 => some .heatix | 450 => some .teamid | 451 => some .partid | 452 => some .coreid
  | 453 => some .dieid | 454 => some .taskix | 455 => some .lapin | 456 => some .depth | 457 => some .quadpos
  | 458 => some .legix | 459 => some .heatn | 460 => some .kserial | 461 => some .ctxid | 462 => some .threadid
  | 463 => some .clock | 464 => some .heldn | 465 => some .budget | 466 => some .actmask
  | _ => if 468 ≤ c ∧ c < 476 then some (.lvix (c - 468)) else none

/-- A source operand (R98). -/
def src (c : Nat) : Option Src :=
  if c < 320 then some (.v c) else if c < 384 then some (.k (c - 320)) else if c < 448 then some (.inl (c - 384))
  else if c = 511 then some .none else (special c).map .sp

/-- A destination operand (R100). -/
def dst (c : Nat) : Option Dst := if c < 320 then some (.v c) else if c < 384 then some (.k (c - 320)) else none

/-- An optional source: 511 means none (R98). -/
def srcOpt (c : Nat) : Option (Option Src) := if c = 511 then some none else (src c).map some

/-- The random bits of R155: read when the mode is .rs, and otherwise an unused field, which must hold 511 (R98). -/
def rand (r : Rnd) (c : Nat) : Option (Option Src) :=
  if r = .rs then (src c).map some else if c = 511 then some none else none

/-- An optional destination (R212). -/
def dstOpt (c : Nat) : Option (Option Dst) := if c = 511 then some none else (dst c).map some

/-- A predicate source field (R128). -/
def ps (c : Nat) : Option PSrc := if c < 12 then some (.p c) else if c = 12 then some .tt else if c = 13 then some .ff else none

/-- An optional predicate source field. -/
def psOpt (c : Nat) : Option (Option PSrc) := if c = 511 then some none else (ps c).map some

/-- An optional predicate destination field. -/
def pdOpt (c : Nat) : Option (Option Nat) := if c = 511 then some none else if c < 12 then some (some c) else none

/-- A v register. -/
def vreg (c : Nat) : Option Nat := if c < 320 then some c else none

/-- A k register. -/
def kreg (c : Nat) : Option Nat := if 320 ≤ c ∧ c < 384 then some (c - 320) else none

/-- A reserved value refuses the word. -/
def need (b : Bool) : Option Unit := if b then some () else none

/-- The common fields of R93. -/
def com (w : Nat) : Com := { guard := fld w 52 4, neg := bit w 51, stop := bit w 50, flagB := bit w 49 }

def cmp : Nat → Option Cmp
  | 0 => some .eq | 1 => some .ne | 2 => some .lt | 3 => some .le | 4 => some .gt | 5 => some .ge | 6 => some .un
  | 7 => some .ord | _ => none

def logOp : Nat → Option LogOp
  | 0 => some .and | 1 => some .or | 2 => some .xor | 3 => some .andn | 4 => some .orn | 5 => some .not | 6 => some .and3
  | 7 => some .or3 | 8 => some .sel | 9 => some .mov | _ => none

def redOp : Nat → Option RedOp
  | 0 => some .add | 1 => some .min | 2 => some .max | 3 => some .and | 4 => some .or | 5 => some .xor | _ => none

def shflMode : Nat → Option ShflMode
  | 0 => some .idx | 1 => some .up | 2 => some .down | 3 => some .xor | _ => none

/-- The segment width of SHFL (R143). -/
def shflWidth : Nat → Option Nat
  | 511 => some 32 | 417 => some 1 | 418 => some 2 | 420 => some 4 | 424 => some 8 | 432 => some 16 | _ => none

def mulMode : Nat → Option MulMode
  | 0 => some .low | 1 => some .hi | 2 => some .wide | _ => none

/-- A one-bit variant. -/
def flag1 : Nat → Option Bool
  | 0 => some false | 1 => some true | _ => none

def signOp : Nat → Option SignOp
  | 0 => some .abs | 1 => some .neg | 2 => some .copy | 3 => some .xor | _ => none

def mnxOp : Nat → Option MnxOp
  | 0 => some .min | 1 => some .max | 2 => some .minnan | 3 => some .maxnan | _ => none

def atomOp : Nat → Option AtomOp
  | 0 => some .add | 1 => some .min | 2 => some .max | 3 => some .and | 4 => some .or | 5 => some .xor | 6 => some .exch
  | 7 => some .inc | 8 => some .cas | _ => none

def atomKind : Nat → Option AtomKind
  | 0 => some .unsigned | 1 => some .signed | 2 => some .float | _ => none

def order : Nat → Option Order
  | 0 => some .relaxed | 1 => some .acquire | 2 => some .release | 3 => some .both | _ => none

def scope : Nat → Option Scope
  | 0 => some .heat | 1 => some .core | 2 => some .die | 3 => some .package | 4 => some .system | _ => none

def fenceKind : Nat → Option FenceKind
  | 0 => some .full | 1 => some .acq | 2 => some .rel | _ => none

def waitCmp : Nat → Option WaitCmp
  | 0 => some .eq | 1 => some .ne | 2 => some .lt | 3 => some .ge | _ => none

def stage : Nat → Option Stage
  | 0 => some .fill | 1 => some .operate | 2 => some .drain | _ => none

def mfmt : Nat → Option MFmt
  | 0 => some .bf16 | 1 => some .e4m3 | 2 => some .e4m3e5m2 | 3 => some .e5m2e4m3 | 4 => some .e5m2 | 5 => some .c4 | _ => none

def watchKind : Nat → Option WatchKind
  | 1 => some .w | 2 => some .r | 3 => some .rw | _ => none

/-! The fields of the formats (R95, R96). -/

def fD (w : Nat) : Nat := fld w 39 9
def fA (w : Nat) : Nat := fld w 30 9
def fB (w : Nat) : Nat := fld w 21 9
def fC (w : Nat) : Nat := fld w 12 9
def vTy (w : Nat) : Nat := fld w 8 4
def vRnd (w : Nat) : Nat := fld w 5 3
def vVar (w : Nat) : Nat := fld w 0 5
def imm (w : Nat) : Nat := fld w 0 21
def mB (w : Nat) : Nat := fld w 16 5
def mSz (w : Nat) : Nat := fld w 13 3
def mOrd (w : Nat) : Nat := fld w 11 2
def mSc (w : Nat) : Nat := fld w 8 3
def mFn (w : Nat) : Nat := fld w 0 8
def bFn (w : Nat) : Nat := fld w 0 15
def xM (w : Nat) : Nat := fld w 45 3
def xArr (w : Nat) : Bool := bit w 44
def xFmt (w : Nat) : Nat := fld w 40 4
def xRow (w : Nat) : Nat := fld w 32 8
def xA (w : Nat) : Nat := fld w 23 9
def xCnt (w : Nat) : Nat := fld w 16 7
def xFn (w : Nat) : Nat := fld w 0 16

/-- The record, order and scope fields of a scratchpad form are 0 (R205). -/
def scrRest (w : Nat) : Bool := mB w == 0 && mOrd w == 0 && mSc w == 0

/-- The address field of format B. -/
def bA (w : Nat) : Nat := fld w 15 9
def bOff (w : Nat) : Int := sext (fld w 24 24) 24

/-- Row 0x0 (R130, R135). -/
def control (op w : Nat) : Option Instr := do
  let c := com w
  match op with
  | 0x00 => need (fD w == 511 && fA w == 511 && fB w == 511 && imm w == 0); return .nop c
  | 0x01 => need (bA w == 511 && bFn w == 0); return .bra c (bOff w)
  | 0x02 => need (fld w 24 24 == 0 && bFn w == 0); return .brx c (← src (bA w))
  | 0x03 => need (bFn w == 0); return .call c (← vreg (bA w)) (bOff w)
  | 0x04 => need (fld w 24 24 == 0 && bFn w == 0); return .callx c (← vreg (bA w))
  | 0x05 => need (fld w 24 24 == 0 && bFn w == 0); return .ret c (← src (bA w))
  | 0x06 => need (fld w 24 24 == 0 && bA w == 511 && bFn w == 0); return .exit c
  | 0x07 => need (fD w == 511 && fA w == 511 && fB w == 511 && imm w == 0); return .yield c
  | 0x08 => need (fD w == 511 && fA w == 511 && fB w == 511 && imm w < 4096); return .waitf c (imm w)
  | 0x09 => need (fD w == 511 && fB w == 511 && imm w < 65536); return .trap c (imm w) (← srcOpt (fA w))
  | _ => none

/-- Row 0x1 (R138 to R146). -/
def predicate (op w : Nat) : Option Instr := do
  let c := com w
  match op with
  | 0x10 => need (fC w == 511 && vRnd w == 0 && fD w < 12)
            return .pset c (← ty (vTy w)) (← cmp (vVar w)) (fD w) (← src (fA w)) (← src (fB w))
  | 0x11 => need (vTy w == 0 && vRnd w == 0 && fC w == 511)
            if vVar w == 0 then need (fD w == 511); return .psetfFrom c (← src (fA w)) (← src (fB w))
            else need (vVar w == 1 && fA w == 511 && fB w == 511); return .psetfTo c (← dst (fD w))
  | 0x12 => need (vTy w == 0 && vRnd w == 0 && fD w < 12)
            return .plog c (← logOp (vVar w)) (fD w) (← ps (fA w)) (← psOpt (fB w)) (← psOpt (fC w))
  | 0x13 => need (vTy w == 0 && vRnd w == 0 && fB w == 511 && fC w == 511)
            let a ← ps (fA w)
            match vVar w with
            | 0 => return .vote c (.ballot (← dst (fD w))) a
            | 1 => need (fD w < 12); return .vote c (.any (fD w)) a
            | 2 => need (fD w < 12); return .vote c (.all (fD w)) a
            | 3 => need (fD w < 12); return .vote c (.uni (fD w)) a
            | _ => none
  | 0x14 => need (vRnd w == 0)
            return .shfl c (← ty (vTy w)) (← shflMode (vVar w)) (← dst (fD w)) (← src (fA w)) (← src (fB w)) (← shflWidth (fC w))
  | 0x15 => need (fB w == 511 && fC w == 511)
            return .hred c (← ty (vTy w)) (← rnd (vRnd w)) (← redOp (vVar w)) (← dst (fD w)) (← src (fA w))
  | 0x16 => need (fC w == 511 && vVar w < 16)
            return .hscan c (← ty (vTy w)) (← rnd (vRnd w)) (← redOp (vVar w % 8)) (8 ≤ vVar w) (← dst (fD w)) (← src (fA w))
              (← psOpt (fB w))
  | 0x17 => need (vRnd w == 0 && vVar w == 0 && fB w == 511 && fC w == 511)
            return .matchv c (← ty (vTy w)) (← dst (fD w)) (← src (fA w))
  | _ => none

/-- Rows 0x2 and 0x3 (R168 to R175). -/
def integer (op w : Nat) : Option Instr := do
  let c := com w
  let c511 := fC w == 511
  let bc511 := fB w == 511 && fC w == 511
  if op == 0x34 then
    need (fld w 32 3 < 2); return .movi c (← ty (fld w 35 4)) (fld w 32 3 == 1) (← dst (fD w)) (fld w 0 32)
  if op == 0x35 then
    need (fld w 24 2 < 2)
    return .addi c (← ty (fld w 26 4)) (fld w 24 2 == 1) (← dst (fD w)) (← src (fA w)) (sext (fld w 0 24) 24)
  need (vRnd w == 0)
  let t ← ty (vTy w)
  let d ← dst (fD w)
  let a ← src (fA w)
  match op with
  | 0x20 => need c511; return .iadd c t (← flag1 (vVar w)) d a (← src (fB w))
  | 0x21 => need c511; return .isub c t (← flag1 (vVar w)) d a (← src (fB w))
  | 0x22 => need c511; return .imul c t (← mulMode (vVar w)) d a (← src (fB w))
  | 0x23 => return .imad c t (← flag1 (vVar w)) d a (← src (fB w)) (← src (fC w))
  | 0x24 => need c511; return .idiv c t (← flag1 (vVar w)) d a (← src (fB w))
  | 0x25 => need (c511 && vVar w == 0); return .imin c t d a (← src (fB w))
  | 0x26 => need (c511 && vVar w == 0); return .imax c t d a (← src (fB w))
  | 0x27 => need bc511; return .iabs c t (← flag1 (vVar w)) d a
  | 0x28 => need (c511 && vVar w == 0); return .and c t d a (← src (fB w))
  | 0x29 => need (c511 && vVar w == 0); return .or c t d a (← src (fB w))
  | 0x2A => need (c511 && vVar w == 0); return .xor c t d a (← src (fB w))
  | 0x2B => need c511; return .shl c t (← flag1 (vVar w)) d a (← src (fB w))
  | 0x2C => need c511; return .shr c t (← flag1 (vVar w)) d a (← src (fB w))
  | 0x2D => need (c511 && vVar w == 0); return .bfx c t d a (← src (fB w))
  | 0x2E => need (vVar w == 0); return .bfi c t d a (← src (fB w)) (← src (fC w))
  | 0x2F => need (bc511 && vVar w == 0); return .popc c t d a
  | 0x30 => need (bc511 && vVar w == 0); return .clz c t d a
  | 0x31 => need (bc511 && vVar w == 0); return .brev c t d a
  | 0x32 => need (vVar w == 0); return .sel c t d a (← src (fB w)) (← ps (fC w))
  | 0x33 => need (bc511 && vVar w == 0); return .mov c t d a
  | 0x36 => need (c511 && vVar w < 8 && (t == .s64 || t == .n64)); return .lea c (t == .s64) (vVar w) d a (← src (fB w))
  | 0x37 => need (t == .n32); return .bysel c (← flag1 (vVar w)) d a (← src (fB w)) (← src (fC w))
  | _ => none

/-- The second source of FSIGN (R178): read by .copy and .xor, and otherwise unused. -/
def signB (op : SignOp) (c : Nat) : Option (Option Src) :=
  if op = .copy || op = .xor then (src c).map some else if c = 511 then some none else none

/-- Rows 0x4 and 0x5 (R176 to R183). -/
def float (op w : Nat) : Option Instr := do
  let c := com w
  let d ← dst (fD w)
  let a ← src (fA w)
  let r ← rnd (vRnd w)
  let v := vVar w
  let f32 := vTy w == 4
  let bf := vTy w == 5
  let r0 := vRnd w == 0
  let bc511 := fB w == 511 && fC w == 511
  match op with
  | 0x40 => need f32; return .fadd c r (← flag1 v) d a (← src (fB w)) (← rand r (fC w))
  | 0x41 => need f32; return .fsub c r (← flag1 v) d a (← src (fB w)) (← rand r (fC w))
  | 0x42 => need f32; return .fmul c r (← flag1 v) d a (← src (fB w)) (← rand r (fC w))
  | 0x43 => need f32; return .ffma c r (← flag1 v) d a (← src (fB w)) (← src (fC w))
  | 0x44 => need (f32 && r0 && fC w == 511); return .fmin c (← flag1 v) d a (← src (fB w))
  | 0x45 => need (f32 && r0 && fC w == 511); return .fmax c (← flag1 v) d a (← src (fB w))
  | 0x46 => need (f32 && r0 && fC w == 511); return .fsign c (← signOp v) d a (← signB (← signOp v) (fB w))
  | 0x47 => need (f32 && r0 && v == 0 && bc511); return .frcp c d a
  | 0x48 => need (f32 && r0 && v == 0 && bc511); return .frsq c d a
  | 0x49 => need (f32 && fB w == 511); return .fsqrt c r (← flag1 v) d a (← rand r (fC w))
  | 0x4A => need f32; return .fdiv c r (← flag1 v) d a (← src (fB w)) (← rand r (fC w))
  | 0x4B => need (f32 && r0 && v == 0 && bc511); return .fexp2 c d a
  | 0x4C => need (f32 && r0 && v == 0 && bc511); return .flog2 c d a
  | 0x4D => need (f32 && r0 && v == 0 && bc511); return .ftanh c d a
  | 0x4E => need (r0 && v == 0 && bc511); return .fclass c (← ty (vTy w)) d a
  | 0x4F => need (f32 && fB w == 511); return .frnd c r (← flag1 v) d a (← rand r (fC w))
  | 0x50 => need (bf && v < 4); return .pkadd c r (bit v 0) (bit v 1) d a (← src (fB w)) (← rand r (fC w))
  | 0x51 => need (bf && v < 4); return .pkmul c r (bit v 0) (bit v 1) d a (← src (fB w)) (← rand r (fC w))
  | 0x52 => need (bf && v < 4); return .pkfma c r (bit v 0) (bit v 1) d a (← src (fB w)) (← src (fC w))
  | 0x53 => need (bf && r0 && v < 8 && fC w == 511); return .pkmnx c (← mnxOp (v % 4)) (bit v 2) d a (← src (fB w))
  | _ => none

/-- The scale of PACK and UNPK (R186). -/
def scale (t : Ty) (w : Nat) : Option Scale := do
  if t == .c4 then
    need (fld w 0 3 == 0); return .book (← kreg (fB w))
  else if bit w 2 then return .byte (← dst (fB w)) (fld w 0 2)
  else need (fB w == 511); return .none

/-- Row 0x6 (R184 to R187). -/
def convert (op w : Nat) : Option Instr := do
  let c := com w
  let t ← ty (vTy w)
  let r ← rnd (vRnd w)
  let v := vVar w
  let rb ← rand r (fC w)
  match op with
  | 0x60 => need (v < 16 && fB w == 511); return .cvti c t (← ty v) r (← dst (fD w)) (← src (fA w)) rb
  | 0x61 => need (fB w == 511); return .cvtf c t (← ty (v % 16)) r (16 ≤ v) (← dst (fD w)) (← src (fA w)) rb
  | 0x62 => need (v < 16); return .pack2 c t r (bit v 3) (← scale t w) (← dst (fD w)) (← vreg (fA w)) rb
  | 0x63 => need (v < 16); return .pack4 c t r (bit v 3) (← scale t w) (← dst (fD w)) (← vreg (fA w)) rb
  | 0x64 => need (v < 16); return .pack8 c t r (bit v 3) (← scale t w) (← dst (fD w)) (← vreg (fA w)) rb
  | 0x65 => need (v < 8); return .unpk2 c t r (← scale t w) (← vreg (fD w)) (← src (fA w)) rb
  | 0x66 => need (v < 8); return .unpk4 c t r (← scale t w) (← vreg (fD w)) (← src (fA w)) rb
  | 0x67 => need (v < 8); return .unpk8 c t r (← scale t w) (← vreg (fD w)) (← src (fA w)) rb
  | 0x68 => need (t == .f32 && v < 16); return .scalex c r (bit v 2) (bit v 3) (v % 4) (← dst (fD w)) (← src (fA w)) (← src (fB w)) rb
  | _ => none

/-- The index of an M form: idx64 in bit `i` of the function field. -/
def index (w i : Nat) : Option Index := do return { x := ← src (fA w), w64 := bit (mFn w) i }

/-- The packed index of a G form (R97, R207). -/
def gindex (w : Nat) : Option GIndex := do
  return { x := ← src (fA w), iw := fld w 20 2, sg := bit w 19, scl := fld w 16 3, sel := fld w 13 3 }

/-- Rows 0x7 and 0x8 as far as chapter 8 gives them (R203 to R212). -/
def access (op w : Nat) : Option Instr := do
  let c := com w
  let os0 := mOrd w == 0 && mSc w == 0
  let e511 := fB w == 511
  match op with
  | 0x70 =>
    match fld w 18 3 with
    | 0 => need e511; return .bldMem c (fD w) (← src (fA w)) (fld w 0 18)
    | 1 => need (e511 && fld w 2 16 == 0); return .bldQ c (fD w) (fld w 0 2) (← src (fA w))
    | 2 => need (e511 && fld w 0 18 == 0); return .bldK c (fD w) (← kreg (fA w))
    | 3 => need (e511 && fA w == 511 && fld w 0 18 == 0); return .bldZero c (fD w)
    | _ => none
  | 0x71 =>
    match fld w 19 2 with
    | 0 => need (fld w 0 19 == 0); return .bsubOff c (fD w) (fB w) (← src (fA w))
    | 1 => return .bsubWin c (fD w) (fB w) (← src (fA w)) (fld w 0 19)
    | 2 => need (fA w == 511 && fld w 12 7 == 0); return .bsubColour c (fD w) (fB w) (fld w 0 12)
    | _ => need (fA w == 511 && fld w 5 14 == 0); return .bsubFlags c (fD w) (fB w) (fld w 0 5)
  | 0x72 => need (os0 && e511 && fld w 1 6 == 0); return .ld c (bit w 7) (mSz w) (← vreg (fD w)) (← index w 0) (mB w)
  | 0x73 => need (os0 && e511 && fld w 1 6 == 0); return .st c (bit w 7) (mSz w) (← vreg (fD w)) (← index w 0) (mB w)
  | 0x74 => need (fld w 0 12 == 0); return .ldg c (bit w 12) (fld w 22 3) (← vreg (fD w)) (← gindex w) (fld w 25 5)
  | 0x75 => need (fld w 0 12 == 0); return .stg c (bit w 12) (fld w 22 3) (← vreg (fD w)) (← gindex w) (fld w 25 5)
  | 0x76 => need (scrRest w && fld w 0 7 == 0); return .lds c (bit w 7) (mSz w) (← vreg (fD w)) (← src (fA w)) (← srcOpt (fB w))
  | 0x77 => need (scrRest w && fld w 0 7 == 0); return .sts c (bit w 7) (mSz w) (← vreg (fD w)) (← src (fA w)) (← srcOpt (fB w))
  | 0x78 => need (scrRest w && fld w 0 7 == 0); return .ldsr c (bit w 7) (mSz w) (← vreg (fD w)) (← src (fA w)) (← src (fB w))
  | 0x79 => need (scrRest w && fld w 0 7 == 0); return .stsr c (bit w 7) (mSz w) (← vreg (fD w)) (← src (fA w)) (← src (fB w))
  | 0x7A => need (os0 && e511 && fD w == 511 && fld w 2 6 == 0); return .pref c (bit w 1) (mSz w) (← index w 0) (mB w)
  | 0x7B => need (os0 && e511 && fD w == 511 && fld w 3 5 == 0)
            match fld w 1 2 with
            | 0 => return .cmaintInv c (mSz w) (← index w 0) (mB w)
            | 1 => return .cmaintWb c (mSz w) (← index w 0) (mB w)
            | 2 => need (fA w == 511 && mB w == 0 && mSz w == 0 && fld w 0 1 == 0); return .cmaintInvall c
            | _ => none
  | 0x7C => need (os0 && e511 && fld w 1 7 == 0); return .ldk c (mSz w) (← kreg (fD w)) (← index w 0) (mB w)
  | 0x80 => need (fld w 7 1 == 0)
            return .atom c (← atomOp (fld w 0 4)) (← atomKind (fld w 4 2)) (mSz w) (← order (mOrd w)) (← scope (mSc w))
              (← dstOpt (fD w)) (← index w 6) (← src (fB w)) (mB w)
  | 0x81 => need (fld w 7 1 == 0 && fld w 0 6 == 0)
            return .acas c (mSz w) (← order (mOrd w)) (← scope (mSc w)) (← dst (fD w)) (← index w 6) (← src (fB w)) (mB w)
  | 0x82 => need (fld w 6 2 == 0 && mB w == 0)
            return .atoms c (← atomOp (fld w 0 4)) (← atomKind (fld w 4 2)) (mSz w) (← order (mOrd w)) (← scope (mSc w))
              (← dstOpt (fD w)) (← src (fA w)) (← src (fB w))
  | _ => none

/-- The rest of row 0x8 (R226, R280). -/
def sync (op w : Nat) : Option Instr := do
  let c := com w
  let i1 := fld w 1 7 == 0
  match op with
  | 0x83 => need (fD w == 511 && fA w == 511 && fB w == 511 && fld w 6 15 == 0)
            return .fence c (← fenceKind (fld w 3 2)) (bit w 5) (← scope (fld w 0 3))
  | 0x84 => need (i1 && fB w == 511 && mOrd w == 1); return .ldacq c (mSz w) (← scope (mSc w)) (← dst (fD w)) (← index w 0) (mB w)
  | 0x85 => need (i1 && fB w == 511 && mOrd w == 2); return .strel c (mSz w) (← scope (mSc w)) (← src (fD w)) (← index w 0) (mB w)
  | 0x86 => need (i1 && mSz w == 3)
            return .syadd c (← order (mOrd w)) (← scope (mSc w)) (← dstOpt (fD w)) (← index w 0) (← src (fB w)) (mB w)
  | 0x87 => need (fld w 10 11 == 0 && (bit w 6 || fld w 7 3 == 0))
            let acq ← if bit w 6 then (scope (fld w 7 3)).map some else some none
            return .waita c (← pdOpt (fD w)) (← src (fA w)) (← src (fB w)) (← waitCmp (fld w 0 3)) (bit w 3) (bit w 4) (bit w 5) acq
  | 0x88 => need (fD w == 511 && fA w == 511 && imm w < 16); return .bar c (imm w) (← srcOpt (fB w))
  | 0x89 => need (fD w == 511 && fA w == 511 && imm w < 16); return .bara c (imm w) (← srcOpt (fB w))
  | _ => none

/-- Row 0x9 (R219, R225, R229). -/
def copy (op w : Nat) : Option Instr := do
  let c := com w
  let db := fD w == 511 && fB w == 511
  match op with
  | 0x90 => need (mOrd w == 0 && mSc w == 0 && fld w 1 7 == 0)
            return .cpyin c (mSz w) (← src (fD w)) (← index w 0) (← srcOpt (fB w)) (mB w)
  | 0x91 => need (mOrd w == 0 && mSc w == 0 && fld w 1 7 == 0)
            return .cpyout c (mSz w) (← src (fD w)) (← index w 0) (← srcOpt (fB w)) (mB w)
  | 0x92 => need (db && imm w == 0); return .rfill c (← src (fA w))
  | 0x93 => need (fB w == 511 && fld w 2 19 == 0); return .rawait c (← stage (fld w 0 2)) (← pdOpt (fD w)) (← src (fA w))
  | 0x94 => need (db && imm w == 0); return .rrelease c (← src (fA w))
  | 0x95 => need (db && imm w == 0); return .rpush c (← src (fA w))
  | 0x96 => need (fD w == 511 && imm w == 0); return .rinit c (← src (fA w)) (← kreg (fB w))
  | 0x97 => need (db && imm w < 2); return .split c (bit w 0) (← src (fA w))
  | 0x98 => need (fB w == 511 && mOrd w == 2 && fld w 1 7 == 0)
            return .cpyw c (mSz w) (← scope (mSc w)) (← src (fD w)) (← index w 0) (mB w)
  | _ => none

/-- Row 0xA (R249). -/
def matrix (op w : Nat) : Option Instr := do
  let c := com w
  let m := xM w
  let r := xArr w
  let plain := xFmt w == 0 && xRow w == 0 && xCnt w == 0
  match op with
  | 0xA0 => need (!r && xFmt w == 0 && xCnt w == 0)
            match xFn w with
            | 0 => need (xRow w == 0 && xA w == 511); return .mmarkSelf c m
            | 1 => return .mmarkMask c m (xRow w) (← src (xA w))
            | 2 => need (xRow w == 0 && xA w == 511); return .mmarkClear c m
            | _ => none
  | 0xA1 => need (xRow w == 0 && xCnt w == 0); return .mldw c m r (← mfmt (xFmt w)) (← flag1 (xFn w)) (← src (xA w))
  | 0xA2 => need (plain && xA w == 511 && xFn w == 0); return .mswap c m r
  | 0xA3 => return .mstr c m r (← mfmt (xFmt w)) (← flag1 (xFn w)) (xRow w) (← src (xA w)) (xCnt w)
  | 0xA4 => return .mdist c m r (← mfmt (xFmt w)) (← flag1 (xFn w)) (xRow w) (← src (xA w)) (xCnt w)
  | 0xA5 => need (xFmt w == 0); return .mtopk c m r (← flag1 (xFn w)) (xRow w) (← vreg (xA w)) (xCnt w)
  | 0xA6 => need (xFmt w == 0 && xFn w < 8)
            if bit w 0 then return .mrdScr c m r (bit w 1) (bit w 2) (xRow w) (← src (xA w)) (xCnt w)
            else need (!(bit w 1) && xCnt w == 0); return .mrd c m r (bit w 2) (xRow w) (← vreg (xA w))
  | 0xA7 => need (xFmt w == 0 && xA w == 511); return .mclr c m r (← flag1 (xFn w)) (xRow w) (xCnt w)
  | _ => none

/-- Row 0xB (R345, R381). -/
def monitor (op w : Nat) : Option Instr := do
  let c := com w
  let d := fD w == 511
  let b := fB w == 511
  match op with
  | 0xB0 => need (d && b && fld w 3 18 == 0); return .claim c (← vreg (fA w)) (fld w 0 3)
  | 0xB1 => need (b && fld w 5 16 == 0); return .mwait c (← pdOpt (fD w)) (← src (fA w)) (fld w 0 5)
  | 0xB2 => need (d && b && imm w == 0); return .mnote c (← src (fA w))
  | 0xB3 => need (d && b && imm w == 0); return .mnoteall c (← src (fA w))
  | 0xB4 => need (b && imm w < 2)
            if bit w 0 then return .heldList c (← dst (fD w)) (← src (fA w))
            else need (fD w < 12); return .heldTest c (fD w) (← src (fA w))
  | 0xB5 => need (d && b && imm w == 0); return .mrepair c (← src (fA w))
  | 0xB8 => need (d && b && imm w == 0); return .tspawn c (← src (fA w))
  | 0xB9 => need (d && fA w == 511 && b && imm w == 0); return .tdone c
  | 0xBA => need (d && b && imm w < 2); return .publap c (bit w 0) (← src (fA w))
  | 0xBB => need (d && b && imm w == 0); return .tstop c (← src (fA w))
  | 0xBC => need (b && imm w < 2)
            if bit w 0 then return .tlapBuf c (← vreg (fD w)) (← src (fA w)) else return .tlapState c (← vreg (fD w)) (← src (fA w))
  | 0xBD => need (d && fA w == 511 && b && imm w < 2)
            if bit w 0 then return .tabortFail c else return .tabortRequeue c
  | 0xBE => need (d && b && imm w == 0); return .tsettle c (← src (fA w))
  | _ => none

/-- Rows 0xC and 0xD (R403, R439, R454, R456). -/
def system (op w : Nat) : Option Instr := do
  let c := com w
  let d := fD w == 511
  let a := fA w == 511
  let b := fB w == 511
  match op with
  | 0xC0 => need (d && imm w < 2); return .resume c (bit w 0) (← src (fA w)) (← srcOpt (fB w))
  | 0xC1 => match imm w with
            | 0 => need d; return .killLanes c (← src (fA w)) (← srcOpt (fB w))
            | 1 => need (d && b); return .killHeat c (← src (fA w))
            | 2 => need (d && b); return .killKernel c (← src (fA w))
            | _ => none
  | 0xC2 => need (d && b && imm w == 0); return .eret c (← src (fA w))
  | 0xC3 => match fld w 0 2 with
            | 0 => need (b && fld w 7 14 == 0 && fD w < 12); return .tframeNext c (fD w) (← src (fA w)) (fld w 2 5)
            | 1 => need (fld w 2 5 == 0 && fld w 16 5 == 0)
                   return .tframeRd c (← vreg (fD w)) (← src (fA w)) (← src (fB w)) (fld w 7 9)
            | 2 => need (fld w 2 5 == 0 && fld w 16 5 == 0)
                   return .tframeWr c (← src (fA w)) (← src (fB w)) (fld w 7 9) (← src (fD w))
            | _ => none
  | 0xC4 => need (a && b); return .mfs c (← vreg (fD w)) (imm w)
  | 0xC5 => need (d && b); return .mts c (imm w) (← src (fA w))
  | 0xC6 => match imm w with
            | 0 => need d; return .tlbinvRange c (← src (fA w)) (← src (fB w))
            | 1 => need (d && a && b); return .tlbinvCtx c
            | _ => none
  | 0xC7 => need (imm w == 0 && fD w < 12); return .splinter c (fD w) (← src (fA w)) (← src (fB w))
  | 0xD0 => need d
            match fld w 0 2 with
            | 0 => need (a && b && imm w == 0); return .brkpt c
            | 1 => need (fld w 6 15 == 0); return .brkptWset c (fld w 2 2) (← watchKind (fld w 4 2)) (← src (fA w)) (← src (fB w))
            | 2 => need (a && b && fld w 4 17 == 0); return .brkptWclr c (fld w 2 2)
            | _ => none
  | 0xD1 => need (d && a && b && imm w < 2); if bit w 0 then return .haltallGo c else return .haltallStop c
  | 0xD2 => need (b && imm w == 0); return .undo c (← pdOpt (fD w)) (← src (fA w))
  | 0xD3 => need (a && b && imm w < 8); return .stamp c (← scope (imm w)) (← dst (fD w))
  | 0xD4 => need (imm w < 16 && fD w < 12); return .bist c (fD w) (← src (fA w)) (← src (fB w)) (imm w)
  | 0xD5 => need (b && imm w == 0); return .defmap c (← dst (fD w)) (← src (fA w))
  | _ => none

/-- The assigned opcodes of R102. -/
def assigned (op : Nat) : Bool :=
  op ≤ 0x09 || (0x10 ≤ op && op ≤ 0x17) || (0x20 ≤ op && op ≤ 0x37) || (0x40 ≤ op && op ≤ 0x53) ||
  (0x60 ≤ op && op ≤ 0x68) || (0x70 ≤ op && op ≤ 0x7C) || (0x80 ≤ op && op ≤ 0x89) || (0x90 ≤ op && op ≤ 0x98) ||
  (0xA0 ≤ op && op ≤ 0xA7) || (0xB0 ≤ op && op ≤ 0xB5) || (0xB8 ≤ op && op ≤ 0xBE) || (0xC0 ≤ op && op ≤ 0xC7) ||
  (0xD0 ≤ op && op ≤ 0xD5)

/-- The term that the fields of a word name, by its row of the opcode map. -/
def parse (w : Nat) : Option Instr :=
  let op := fld w 56 8
  if op < 0x10 then control op w
  else if op < 0x20 then predicate op w
  else if op < 0x40 then integer op w
  else if op < 0x60 then float op w
  else if op < 0x70 then convert op w
  else if op < 0x83 then access op w
  else if op < 0x90 then sync op w
  else if op < 0xA0 then copy op w
  else if op < 0xB0 then matrix op w
  else if op < 0xC0 then monitor op w
  else system op w

end Dec

/-- The instruction that a 64-bit word holds, or why it holds none (R93, R94). -/
def decode (w : Nat) : Except Reject Instr :=
  if fld w 60 4 = 15 then .error .headerWord
  else if Dec.assigned (fld w 56 8) = false then .error .unassigned
  else if bit w 48 then .error .reservedBit
  else match Dec.parse w with
    | none => .error .reservedField
    | some i => if i.wf then .ok i else .error .illegalOperand

/-- The instruction at the front of a byte sequence with the bytes after it: words are eight bytes, little-endian
(R5, R88). -/
def decodeBytes (bs : List Byte) : Except Reject (Instr × List Byte) :=
  if bs.length < 8 then .error .reservedField
  else match decode (Machine.ofBytes (bs.take 8)) with
    | .ok i => .ok (i, bs.drop 8)
    | .error r => .error r

/-- The instruction that the decoder reads from the word of a table row: the rows are 64-bit words, laid out as eight
little-endian bytes. -/
def decodeTableWord (nbits w : Nat) : Option Instr :=
  match decodeBytes (Machine.toBytes 8 (w % 2 ^ nbits)) with
  | .ok (i, _) => some i
  | .error _ => none

/-! The encoder. -/

namespace Enc

def ty : Ty → Nat
  | .s32 => 0 | .n32 => 1 | .s64 => 2 | .n64 => 3 | .f32 => 4 | .bf16 => 5 | .e4m3 => 6 | .e5m2 => 7 | .e8m0 => 8 | .c4 => 9

def rnd : Rnd → Nat
  | .rn => 0 | .rz => 1 | .ru => 2 | .rd => 3 | .rs => 4

def special : Special → Nat
  | .lane => 448 | .heatix => 449 | .teamid => 450 | .partid => 451 | .coreid => 452 | .dieid => 453 | .taskix => 454
  | .lapin => 455 | .depth => 456 | .quadpos => 457 | .legix => 458 | .heatn => 459 | .kserial => 460 | .ctxid => 461
  | .threadid => 462 | .clock => 463 | .heldn => 464 | .budget => 465 | .actmask => 466 | .lvix i => 468 + i

def src : Src → Nat
  | .v n => n | .k n => 320 + n | .inl n => 384 + n | .sp x => special x | .none => 511

def dst : Dst → Nat
  | .v n => n | .k n => 320 + n

def srcOpt : Option Src → Nat
  | none => 511 | some s => src s

def dstOpt : Option Dst → Nat
  | none => 511 | some d => dst d

def ps : PSrc → Nat
  | .p n => n | .tt => 12 | .ff => 13

def psOpt : Option PSrc → Nat
  | none => 511 | some p => ps p

def pdOpt : Option Nat → Nat
  | none => 511 | some n => n

def cmp : Cmp → Nat
  | .eq => 0 | .ne => 1 | .lt => 2 | .le => 3 | .gt => 4 | .ge => 5 | .un => 6 | .ord => 7

def logOp : LogOp → Nat
  | .and => 0 | .or => 1 | .xor => 2 | .andn => 3 | .orn => 4 | .not => 5 | .and3 => 6 | .or3 => 7 | .sel => 8 | .mov => 9

def redOp : RedOp → Nat
  | .add => 0 | .min => 1 | .max => 2 | .and => 3 | .or => 4 | .xor => 5

def shflMode : ShflMode → Nat
  | .idx => 0 | .up => 1 | .down => 2 | .xor => 3

def shflWidth (n : Nat) : Nat := if n = 32 then 511 else 416 + n

def mulMode : MulMode → Nat
  | .low => 0 | .hi => 1 | .wide => 2

def signOp : SignOp → Nat
  | .abs => 0 | .neg => 1 | .copy => 2 | .xor => 3

def mnxOp : MnxOp → Nat
  | .min => 0 | .max => 1 | .minnan => 2 | .maxnan => 3

def atomOp : AtomOp → Nat
  | .add => 0 | .min => 1 | .max => 2 | .and => 3 | .or => 4 | .xor => 5 | .exch => 6 | .inc => 7 | .cas => 8

def atomKind : AtomKind → Nat
  | .unsigned => 0 | .signed => 1 | .float => 2

def order : Order → Nat
  | .relaxed => 0 | .acquire => 1 | .release => 2 | .both => 3

def fenceKind : FenceKind → Nat
  | .full => 0 | .acq => 1 | .rel => 2

def waitCmp : WaitCmp → Nat
  | .eq => 0 | .ne => 1 | .lt => 2 | .ge => 3

def stage : Stage → Nat
  | .fill => 0 | .operate => 1 | .drain => 2

def mfmt : MFmt → Nat
  | .bf16 => 0 | .e4m3 => 1 | .e4m3e5m2 => 2 | .e5m2e4m3 => 3 | .e5m2 => 4 | .c4 => 5

def watchKind : WatchKind → Nat
  | .w => 1 | .r => 2 | .rw => 3

/-- The common fields (R93). -/
def com (op : Nat) (c : Com) : Nat :=
  op * 2 ^ 56 + c.guard * 2 ^ 52 + b2n c.neg * 2 ^ 51 + b2n c.stop * 2 ^ 50 + b2n c.flagB * 2 ^ 49

/-- Format V (R95, R96). -/
def fmtV (op : Nat) (c : Com) (d a b cc t r v : Nat) : Nat :=
  com op c + d * 2 ^ 39 + a * 2 ^ 30 + b * 2 ^ 21 + cc * 2 ^ 12 + t * 2 ^ 8 + r * 2 ^ 5 + v

/-- Format S (R95). -/
def fmtS (op : Nat) (c : Com) (d a b imm : Nat) : Nat := com op c + d * 2 ^ 39 + a * 2 ^ 30 + b * 2 ^ 21 + imm

/-- Format M (R95, R96). -/
def fmtM (op : Nat) (c : Com) (t x e b sz ord sc fn : Nat) : Nat :=
  com op c + t * 2 ^ 39 + x * 2 ^ 30 + e * 2 ^ 21 + b * 2 ^ 16 + sz * 2 ^ 13 + ord * 2 ^ 11 + sc * 2 ^ 8 + fn

/-- Format G (R95, R97). -/
def fmtG (op : Nat) (c : Com) (t : Nat) (x : GIndex) (b sz : Nat) (sg : Bool) : Nat :=
  com op c + t * 2 ^ 39 + src x.x * 2 ^ 30 + b * 2 ^ 25 + sz * 2 ^ 22 + x.iw * 2 ^ 20 + b2n x.sg * 2 ^ 19 +
    x.scl * 2 ^ 16 + x.sel * 2 ^ 13 + b2n sg * 2 ^ 12

/-- Format B (R95). -/
def fmtB (op : Nat) (c : Com) (off : Int) (a : Nat) : Nat := com op c + low 24 off * 2 ^ 24 + a * 2 ^ 15

/-- Format X (R95). -/
def fmtX (op : Nat) (c : Com) (m : Nat) (arr : Bool) (fmt row a cnt fn : Nat) : Nat :=
  com op c + m * 2 ^ 45 + b2n arr * 2 ^ 44 + fmt * 2 ^ 40 + row * 2 ^ 32 + a * 2 ^ 23 + cnt * 2 ^ 16 + fn

/-- The scale field and variant bits of PACK and UNPK (R186). -/
def scaleB : Scale → Nat
  | .none => 511 | .byte r _ => dst r | .book k => 320 + k

def scaleV : Scale → Nat
  | .none => 0 | .byte _ s => 4 + s | .book _ => 0

/-- A scratchpad access (R205). -/
def fmtScr (op : Nat) (c : Com) (sg : Bool) (sz t x e : Nat) : Nat := fmtM op c t x e 0 sz 0 0 (b2n sg * 128)

end Enc

open Enc in
/-- The word of a well-formed instruction word; the steps that have no word encode as 0. -/
def encode : Instr → Nat
  | .nop c => fmtS 0x00 c 511 511 511 0
  | .bra c off => fmtB 0x01 c off 511
  | .brx c a => fmtB 0x02 c 0 (src a)
  | .call c l off => fmtB 0x03 c off l
  | .callx c l => fmtB 0x04 c 0 l
  | .ret c a => fmtB 0x05 c 0 (src a)
  | .exit c => fmtB 0x06 c 0 511
  | .yield c => fmtS 0x07 c 511 511 511 0
  | .waitf c m => fmtS 0x08 c 511 511 511 m
  | .trap c code a => fmtS 0x09 c 511 (srcOpt a) 511 code
  | .pset c t cm d a b => fmtV 0x10 c d (src a) (src b) 511 (ty t) 0 (cmp cm)
  | .psetfFrom c a b => fmtV 0x11 c 511 (src a) (src b) 511 0 0 0
  | .psetfTo c d => fmtV 0x11 c (dst d) 511 511 511 0 0 1
  | .plog c op d x y z => fmtV 0x12 c d (ps x) (psOpt y) (psOpt z) 0 0 (logOp op)
  | .vote c op a => (match op with
      | .ballot d => fmtV 0x13 c (dst d) (ps a) 511 511 0 0 0
      | .any d => fmtV 0x13 c d (ps a) 511 511 0 0 1
      | .all d => fmtV 0x13 c d (ps a) 511 511 0 0 2
      | .uni d => fmtV 0x13 c d (ps a) 511 511 0 0 3)
  | .shfl c t m d a b n => fmtV 0x14 c (dst d) (src a) (src b) (shflWidth n) (ty t) 0 (shflMode m)
  | .hred c t r op d a => fmtV 0x15 c (dst d) (src a) 511 511 (ty t) (rnd r) (redOp op)
  | .hscan c t r op x d a h => fmtV 0x16 c (dst d) (src a) (psOpt h) 511 (ty t) (rnd r) (redOp op + 8 * b2n x)
  | .matchv c t d a => fmtV 0x17 c (dst d) (src a) 511 511 (ty t) 0 0
  | .iadd c t s d a b => fmtV 0x20 c (dst d) (src a) (src b) 511 (ty t) 0 (b2n s)
  | .isub c t s d a b => fmtV 0x21 c (dst d) (src a) (src b) 511 (ty t) 0 (b2n s)
  | .imul c t m d a b => fmtV 0x22 c (dst d) (src a) (src b) 511 (ty t) 0 (mulMode m)
  | .imad c t w d a b z => fmtV 0x23 c (dst d) (src a) (src b) (src z) (ty t) 0 (b2n w)
  | .idiv c t r d a b => fmtV 0x24 c (dst d) (src a) (src b) 511 (ty t) 0 (b2n r)
  | .imin c t d a b => fmtV 0x25 c (dst d) (src a) (src b) 511 (ty t) 0 0
  | .imax c t d a b => fmtV 0x26 c (dst d) (src a) (src b) 511 (ty t) 0 0
  | .iabs c t s d a => fmtV 0x27 c (dst d) (src a) 511 511 (ty t) 0 (b2n s)
  | .and c t d a b => fmtV 0x28 c (dst d) (src a) (src b) 511 (ty t) 0 0
  | .or c t d a b => fmtV 0x29 c (dst d) (src a) (src b) 511 (ty t) 0 0
  | .xor c t d a b => fmtV 0x2A c (dst d) (src a) (src b) 511 (ty t) 0 0
  | .shl c t r d a b => fmtV 0x2B c (dst d) (src a) (src b) 511 (ty t) 0 (b2n r)
  | .shr c t r d a b => fmtV 0x2C c (dst d) (src a) (src b) 511 (ty t) 0 (b2n r)
  | .bfx c t d a b => fmtV 0x2D c (dst d) (src a) (src b) 511 (ty t) 0 0
  | .bfi c t d a b z => fmtV 0x2E c (dst d) (src a) (src b) (src z) (ty t) 0 0
  | .popc c t d a => fmtV 0x2F c (dst d) (src a) 511 511 (ty t) 0 0
  | .clz c t d a => fmtV 0x30 c (dst d) (src a) 511 511 (ty t) 0 0
  | .brev c t d a => fmtV 0x31 c (dst d) (src a) 511 511 (ty t) 0 0
  | .sel c t d a b p => fmtV 0x32 c (dst d) (src a) (src b) (ps p) (ty t) 0 0
  | .mov c t d a => fmtV 0x33 c (dst d) (src a) 511 511 (ty t) 0 0
  | .movi c t hi d imm => com 0x34 c + dst d * 2 ^ 39 + ty t * 2 ^ 35 + b2n hi * 2 ^ 32 + imm
  | .addi c t s d a imm => com 0x35 c + dst d * 2 ^ 39 + src a * 2 ^ 30 + ty t * 2 ^ 26 + b2n s * 2 ^ 24 + low 24 imm
  | .lea c sg sh d a b => fmtV 0x36 c (dst d) (src a) (src b) 511 (if sg then 2 else 3) 0 sh
  | .bysel c x d a b s => fmtV 0x37 c (dst d) (src a) (src b) (src s) 1 0 (b2n x)
  | .fadd c r s d a b rb => fmtV 0x40 c (dst d) (src a) (src b) (srcOpt rb) 4 (rnd r) (b2n s)
  | .fsub c r s d a b rb => fmtV 0x41 c (dst d) (src a) (src b) (srcOpt rb) 4 (rnd r) (b2n s)
  | .fmul c r s d a b rb => fmtV 0x42 c (dst d) (src a) (src b) (srcOpt rb) 4 (rnd r) (b2n s)
  | .ffma c r s d a b z => fmtV 0x43 c (dst d) (src a) (src b) (src z) 4 (rnd r) (b2n s)
  | .fmin c n d a b => fmtV 0x44 c (dst d) (src a) (src b) 511 4 0 (b2n n)
  | .fmax c n d a b => fmtV 0x45 c (dst d) (src a) (src b) 511 4 0 (b2n n)
  | .fsign c op d a b => fmtV 0x46 c (dst d) (src a) (srcOpt b) 511 4 0 (signOp op)
  | .frcp c d a => fmtV 0x47 c (dst d) (src a) 511 511 4 0 0
  | .frsq c d a => fmtV 0x48 c (dst d) (src a) 511 511 4 0 0
  | .fsqrt c r s d a rb => fmtV 0x49 c (dst d) (src a) 511 (srcOpt rb) 4 (rnd r) (b2n s)
  | .fdiv c r s d a b rb => fmtV 0x4A c (dst d) (src a) (src b) (srcOpt rb) 4 (rnd r) (b2n s)
  | .fexp2 c d a => fmtV 0x4B c (dst d) (src a) 511 511 4 0 0
  | .flog2 c d a => fmtV 0x4C c (dst d) (src a) 511 511 4 0 0
  | .ftanh c d a => fmtV 0x4D c (dst d) (src a) 511 511 4 0 0
  | .fclass c t d a => fmtV 0x4E c (dst d) (src a) 511 511 (ty t) 0 0
  | .frnd c r x d a rb => fmtV 0x4F c (dst d) (src a) 511 (srcOpt rb) 4 (rnd r) (b2n x)
  | .pkadd c r s x d a b rb => fmtV 0x50 c (dst d) (src a) (src b) (srcOpt rb) 5 (rnd r) (b2n s + 2 * b2n x)
  | .pkmul c r s x d a b rb => fmtV 0x51 c (dst d) (src a) (src b) (srcOpt rb) 5 (rnd r) (b2n s + 2 * b2n x)
  | .pkfma c r s x d a b z => fmtV 0x52 c (dst d) (src a) (src b) (src z) 5 (rnd r) (b2n s + 2 * b2n x)
  | .pkmnx c op x d a b => fmtV 0x53 c (dst d) (src a) (src b) 511 5 0 (mnxOp op + 4 * b2n x)
  | .cvti c t s r d a rb => fmtV 0x60 c (dst d) (src a) 511 (srcOpt rb) (ty t) (rnd r) (ty s)
  | .cvtf c t s r sat d a rb => fmtV 0x61 c (dst d) (src a) 511 (srcOpt rb) (ty t) (rnd r) (ty s + 16 * b2n sat)
  | .pack2 c t r sat sc d a rb => fmtV 0x62 c (dst d) a (scaleB sc) (srcOpt rb) (ty t) (rnd r) (scaleV sc + 8 * b2n sat)
  | .pack4 c t r sat sc d a rb => fmtV 0x63 c (dst d) a (scaleB sc) (srcOpt rb) (ty t) (rnd r) (scaleV sc + 8 * b2n sat)
  | .pack8 c t r sat sc d a rb => fmtV 0x64 c (dst d) a (scaleB sc) (srcOpt rb) (ty t) (rnd r) (scaleV sc + 8 * b2n sat)
  | .unpk2 c t r sc d a rb => fmtV 0x65 c d (src a) (scaleB sc) (srcOpt rb) (ty t) (rnd r) (scaleV sc)
  | .unpk4 c t r sc d a rb => fmtV 0x66 c d (src a) (scaleB sc) (srcOpt rb) (ty t) (rnd r) (scaleV sc)
  | .unpk8 c t r sc d a rb => fmtV 0x67 c d (src a) (scaleB sc) (srcOpt rb) (ty t) (rnd r) (scaleV sc)
  | .scalex c r inv sat sb d a b rb => fmtV 0x68 c (dst d) (src a) (src b) (srcOpt rb) 4 (rnd r) (sb + 4 * b2n inv + 8 * b2n sat)
  | .bldMem c d a n => fmtS 0x70 c d (src a) 511 n
  | .bldQ c d n a => fmtS 0x70 c d (src a) 511 (1 * 2 ^ 18 + n)
  | .bldK c d k => fmtS 0x70 c d (320 + k) 511 (2 * 2 ^ 18)
  | .bldZero c d => fmtS 0x70 c d 511 511 (3 * 2 ^ 18)
  | .bsubOff c d b a => fmtS 0x71 c d (src a) b 0
  | .bsubWin c d b a n => fmtS 0x71 c d (src a) b (1 * 2 ^ 19 + n)
  | .bsubColour c d b col => fmtS 0x71 c d 511 b (2 * 2 ^ 19 + col)
  | .bsubFlags c d b fl => fmtS 0x71 c d 511 b (3 * 2 ^ 19 + fl)
  | .ld c sg sz d x b => fmtM 0x72 c d (src x.x) 511 b sz 0 0 (b2n x.w64 + 128 * b2n sg)
  | .st c sg sz d x b => fmtM 0x73 c d (src x.x) 511 b sz 0 0 (b2n x.w64 + 128 * b2n sg)
  | .ldg c sg sz d x b => fmtG 0x74 c d x b sz sg
  | .stg c sg sz d x b => fmtG 0x75 c d x b sz sg
  | .lds c sg sz d x e => fmtScr 0x76 c sg sz d (src x) (srcOpt e)
  | .sts c sg sz d x e => fmtScr 0x77 c sg sz d (src x) (srcOpt e)
  | .ldsr c sg sz d x e => fmtScr 0x78 c sg sz d (src x) (src e)
  | .stsr c sg sz d x e => fmtScr 0x79 c sg sz d (src x) (src e)
  | .pref c l2 sz x b => fmtM 0x7A c 511 (src x.x) 511 b sz 0 0 (b2n x.w64 + 2 * b2n l2)
  | .cmaintInv c sz x b => fmtM 0x7B c 511 (src x.x) 511 b sz 0 0 (b2n x.w64)
  | .cmaintWb c sz x b => fmtM 0x7B c 511 (src x.x) 511 b sz 0 0 (b2n x.w64 + 2)
  | .cmaintInvall c => fmtM 0x7B c 511 511 511 0 0 0 0 4
  | .ldk c sz d x b => fmtM 0x7C c (320 + d) (src x.x) 511 b sz 0 0 (b2n x.w64)
  | .atom c op k sz o sc d x e b =>
      fmtM 0x80 c (dstOpt d) (src x.x) (src e) b sz (order o) sc.code (atomOp op + 16 * atomKind k + 64 * b2n x.w64)
  | .acas c sz o sc d x e b => fmtM 0x81 c (dst d) (src x.x) (src e) b sz (order o) sc.code (64 * b2n x.w64)
  | .atoms c op k sz o sc d x e => fmtM 0x82 c (dstOpt d) (src x) (src e) 0 sz (order o) sc.code (atomOp op + 16 * atomKind k)
  | .fence c k eng sc => fmtS 0x83 c 511 511 511 (sc.code + 8 * fenceKind k + 32 * b2n eng)
  | .ldacq c sz sc d x b => fmtM 0x84 c (dst d) (src x.x) 511 b sz 1 sc.code (b2n x.w64)
  | .strel c sz sc d x b => fmtM 0x85 c (src d) (src x.x) 511 b sz 2 sc.code (b2n x.w64)
  | .syadd c o sc d x e b => fmtM 0x86 c (dstOpt d) (src x.x) (src e) b 3 (order o) sc.code (b2n x.w64)
  | .waita c d a b cm sg w scr acq => fmtS 0x87 c (pdOpt d) (src a) (src b)
      (waitCmp cm + 8 * b2n sg + 16 * b2n w + 32 * b2n scr + (match acq with | none => 0 | some sc => 64 + 128 * sc.code))
  | .bar c n b => fmtS 0x88 c 511 511 (srcOpt b) n
  | .bara c n b => fmtS 0x89 c 511 511 (srcOpt b) n
  | .cpyin c sz o x ring b => fmtM 0x90 c (src o) (src x.x) (srcOpt ring) b sz 0 0 (b2n x.w64)
  | .cpyout c sz o x ring b => fmtM 0x91 c (src o) (src x.x) (srcOpt ring) b sz 0 0 (b2n x.w64)
  | .rfill c a => fmtS 0x92 c 511 (src a) 511 0
  | .rawait c st d a => fmtS 0x93 c (pdOpt d) (src a) 511 (stage st)
  | .rrelease c a => fmtS 0x94 c 511 (src a) 511 0
  | .rpush c a => fmtS 0x95 c 511 (src a) 511 0
  | .rinit c a k => fmtS 0x96 c 511 (src a) (320 + k) 0
  | .split c fin a => fmtS 0x97 c 511 (src a) 511 (b2n fin)
  | .cpyw c sz sc a x b => fmtM 0x98 c (src a) (src x.x) 511 b sz 2 sc.code (b2n x.w64)
  | .mmarkSelf c m => fmtX 0xA0 c m false 0 0 511 0 0
  | .mmarkMask c m g a => fmtX 0xA0 c m false 0 g (src a) 0 1
  | .mmarkClear c m => fmtX 0xA0 c m false 0 0 511 0 2
  | .mldw c m r f dist a => fmtX 0xA1 c m r (mfmt f) 0 (src a) 0 (b2n dist)
  | .mswap c m r => fmtX 0xA2 c m r 0 0 511 0 0
  | .mstr c m r f ovw row a cnt => fmtX 0xA3 c m r (mfmt f) row (src a) cnt (b2n ovw)
  | .mdist c m r f ovw row a cnt => fmtX 0xA4 c m r (mfmt f) row (src a) cnt (b2n ovw)
  | .mtopk c m r mx row d cnt => fmtX 0xA5 c m r 0 row d cnt (b2n mx)
  | .mrd c m r clr row d => fmtX 0xA6 c m r 0 row d 0 (4 * b2n clr)
  | .mrdScr c m r bf clr row a cnt => fmtX 0xA6 c m r 0 row (src a) cnt (1 + 2 * b2n bf + 4 * b2n clr)
  | .mclr c m r all row cnt => fmtX 0xA7 c m r 0 row 511 cnt (b2n all)
  | .claim c a n => fmtS 0xB0 c 511 a 511 n
  | .mwait c d a t => fmtS 0xB1 c (pdOpt d) (src a) 511 t
  | .mnote c a => fmtS 0xB2 c 511 (src a) 511 0
  | .mnoteall c a => fmtS 0xB3 c 511 (src a) 511 0
  | .heldTest c d a => fmtS 0xB4 c d (src a) 511 0
  | .heldList c d a => fmtS 0xB4 c (dst d) (src a) 511 1
  | .mrepair c a => fmtS 0xB5 c 511 (src a) 511 0
  | .tspawn c a => fmtS 0xB8 c 511 (src a) 511 0
  | .tdone c => fmtS 0xB9 c 511 511 511 0
  | .publap c fin a => fmtS 0xBA c 511 (src a) 511 (b2n fin)
  | .tstop c a => fmtS 0xBB c 511 (src a) 511 0
  | .tlapState c d a => fmtS 0xBC c d (src a) 511 0
  | .tlapBuf c d a => fmtS 0xBC c d (src a) 511 1
  | .tabortRequeue c => fmtS 0xBD c 511 511 511 0
  | .tabortFail c => fmtS 0xBD c 511 511 511 1
  | .tsettle c a => fmtS 0xBE c 511 (src a) 511 0
  | .resume c skip h m => fmtS 0xC0 c 511 (src h) (srcOpt m) (b2n skip)
  | .killLanes c h m => fmtS 0xC1 c 511 (src h) (srcOpt m) 0
  | .killHeat c h => fmtS 0xC1 c 511 (src h) 511 1
  | .killKernel c h => fmtS 0xC1 c 511 (src h) 511 2
  | .eret c h => fmtS 0xC2 c 511 (src h) 511 0
  | .tframeNext c d a t => fmtS 0xC3 c d (src a) 511 (4 * t)
  | .tframeRd c d h l item => fmtS 0xC3 c d (src h) (src l) (1 + 128 * item)
  | .tframeWr c h l item a => fmtS 0xC3 c (src a) (src h) (src l) (2 + 128 * item)
  | .mfs c d f => fmtS 0xC4 c d 511 511 f
  | .mts c f a => fmtS 0xC5 c 511 (src a) 511 f
  | .tlbinvRange c a n => fmtS 0xC6 c 511 (src a) (src n) 0
  | .tlbinvCtx c => fmtS 0xC6 c 511 511 511 1
  | .splinter c d a t => fmtS 0xC7 c d (src a) (src t) 0
  | .brkpt c => fmtS 0xD0 c 511 511 511 0
  | .brkptWset c n k a len => fmtS 0xD0 c 511 (src a) (src len) (1 + 4 * n + 16 * watchKind k)
  | .brkptWclr c n => fmtS 0xD0 c 511 511 511 (2 + 4 * n)
  | .haltallStop c => fmtS 0xD1 c 511 511 511 0
  | .haltallGo c => fmtS 0xD1 c 511 511 511 1
  | .undo c d h => fmtS 0xD2 c (pdOpt d) (src h) 511 0
  | .stamp c sc d => fmtS 0xD3 c (dst d) 511 511 sc.code
  | .bist c d a b alg => fmtS 0xD4 c d (src a) (src b) alg
  | .defmap c d a => fmtS 0xD5 c (dst d) (src a) 511 0
  | _ => 0

/-- The forms that are instruction words: the steps of the other agents have none. -/
def Instr.isWord : Instr → Bool
  | i => encode i ≠ 0

end Sys2Proof
end

