-- ==== Sys2Proof/Machine/Mem.lean ====
section
/-! DEFINITION. Memory as its agents see it: the L2s and the remote write queues, coherent reads and writes of the part's
own agents, translation (R196 to R199), signatures, releases and acquires (R273 to R276).
Readings logged: DEDUCED 60; DESIGN CHOICE 1, 6, 9, 10, 77. -/

namespace Sys2Proof.Machine

/-- The canonical form of memory: addresses strictly rising, and no entry equal to 0, which an unlisted address reads as
(log entry 1). -/
def Memory.wf (m : List Host.Cell) : Bool := Tbl.wf 0 m

/-! Sectors. -/

/-- A key of a table by core or die and sector. -/
def skey (n sec : Nat) : Nat := n * 2 ^ 34 + sec

def State.l2? (s : State) (die sec : Nat) : Option L2Line := Tbl.find? s.l2 (skey die sec)
def State.setL2 (s : State) (die sec : Nat) (x : L2Line) : State := { s with l2 := Tbl.set s.l2 (skey die sec) x }
def State.dropL2 (s : State) (die sec : Nat) : State := { s with l2 := Tbl.erase s.l2 (skey die sec) }

def State.l1? (s : State) (core sec : Nat) : Option (List Byte) := Tbl.find? s.l1 (skey core sec)

/-- The lines of a core's L1. -/
def State.l1Lines (s : State) (core : Nat) : List Nat :=
  nub ((s.l1.filter (fun e => e.1 / 2 ^ 34 == core)).map (fun e => e.1 % 2 ^ 34 / 4))

/-- Sectors of a core's L1 invalidated (R190). -/
def State.l1Drop (s : State) (core : Nat) (p : Nat → Bool) : State :=
  { s with l1 := s.l1.filter (fun e => !(e.1 / 2 ^ 34 == core && p (e.1 % 2 ^ 34))) }

/-- The element of a list that a free choice takes (log entry 9). -/
def State.anyOf {α : Type} (s : State) (l : List α) : Option α := l[Config.victim s.nid % l.length]?

/-- Room for a line in a core's L1 of 256 KiB: a line allocated for eviction first goes before any other (R19, R190). -/
def State.roomL1 (s : State) (core line : Nat) : State :=
  let ls := s.l1Lines core
  if ls.contains line || ls.length < 1024 then s
  else match (ls.find? (fun l => s.l1Stream.contains (skey core l))).or (s.anyOf ls) with
    | some v => s.l1Drop core (fun c => c / 4 == v)
    | none => s

/-- The states in which a die may write a sector without a message: M and E at a remote die (R300), valid at the home
when no other die holds it. -/
def L2St.owned : L2St → Bool
  | .m | .e => true
  | _ => false

/-- The directory entry of a sector (R301). -/
def State.holders (s : State) (sec : Nat) : Tbl DirSt := (Tbl.get {} s.dir sec).holders

def MsgKind.isData : MsgKind → Bool
  | .dataClean | .dataDirty => true
  | _ => false

/-- Whether a transaction on a sector is in progress: at its home, or with an answer under way. -/
def State.inTxn (s : State) (sec : Nat) : Bool :=
  s.txns.any (fun t => t.sector == sec) || s.msgs.any (fun m => m.kind.isData && m.sector == sec)

/-- Whether a die may write a sector at once (R304, R306). -/
def State.owns (s : State) (die sec : Nat) : Bool :=
  if homeOf (64 * sec) = die then (s.holders sec).isEmpty && !(s.inTxn sec)
  else match s.l2? die sec with | some x => x.st.owned | none => false

/-- Whether a die can read a sector without a message (R304). -/
def State.readable (s : State) (die sec : Nat) : Bool :=
  (s.l2? die sec).isSome ||
  (homeOf (64 * sec) == die && (s.holders sec).all (fun e => e.2 = .s) && !(s.inTxn sec))

/-- The bytes of memory of a sector. -/
def State.memSector (s : State) (sec : Nat) : List Byte := readBytes s.mem (64 * sec) 64

/-- The newest bytes of a sector in the package: at a holder of M or O, else under way in a message, else in the home
L2, else in memory (R300, R304). -/
def State.cohSector (s : State) (sec : Nat) : List Byte :=
  let home := homeOf (64 * sec)
  match (upto 4).findSome? (fun d => if d = home then none else
      (s.l2? d sec).bind (fun x => if x.st = .m ∨ x.st = .o then some x.data else none)) with
  | some b => b
  | none => match (s.msgs.reverse.findSome? (fun m => if m.sector = sec then m.data else none)) with
    | some b => b
    | none => match s.l2? home sec with
      | some x => x.data
      | none => s.memSector sec

/-- Bytes read coherently at consecutive physical addresses; an aligned access lies in one sector, longer ones in
several. -/
def State.cohRead (s : State) (pa n : Nat) : List Byte :=
  let off := pa % 64
  let secs := (upto ((off + n + 63) / 64)).flatMap (fun i => s.cohSector (pa / 64 + i))
  (secs.drop off).take n

def State.cohNat (s : State) (pa n : Nat) : Nat := ofBytes (s.cohRead pa n)

/-- Bytes of one sector written indivisibly into memory and every copy (R26, R304). -/
def State.cohPatch (s : State) (sec off : Nat) (bs : List Byte) : State :=
  let base := s.cohSector sec
  let s := { s with
    mem := writeBytes s.mem (64 * sec) (patch base off bs)
    l2 := s.l2.map (fun e => if e.1 % 2 ^ 34 = sec then (e.1, { e.2 with data := patch e.2.data off bs, wrote := s.now }) else e)
    msgs := s.msgs.map (fun m => if m.sector = sec then { m with data := m.data.map (fun d => patch d off bs) } else m) }
  if off = 0 ∧ 64 ≤ bs.length then { s with poison := s.poison.filter (· ≠ sec) } else s

/-- Bytes cut at the sector borders: sector, offset, bytes. -/
def cutSectors (pa : Nat) (bs : List Byte) : List (Nat × Nat × List Byte) :=
  let off := pa % 64
  (upto ((off + bs.length + 63) / 64)).map (fun i =>
    if i = 0 then (pa / 64, off, bs.take (64 - off)) else (pa / 64 + i, 0, (bs.drop (64 * i - off)).take 64))

/-- A coherent write of the part's own agents (R26, R304). -/
def State.cohWrite (s : State) (pa : Nat) (bs : List Byte) : State :=
  (cutSectors pa bs).foldl (fun s c => s.cohPatch c.1 c.2.1 c.2.2) s

def State.cohPut (s : State) (pa n x : Nat) : State := s.cohWrite pa (toBytes n x)

/-- Whether a range meets a poisoned sector (R323). -/
def State.poisoned (s : State) (pa n : Nat) : Bool := s.poison.any (fun c => pa / 64 ≤ c && c ≤ (pa + n - 1) / 64)

/-! A die's view: its L2 and its remote write queue (R264). -/

/-- The writes of a die's queue laid over a sector, in order. -/
def State.overlay (s : State) (die sec : Nat) (d : List Byte) : List Byte :=
  s.rwq.foldl (fun d e => if e.die = die ∧ e.pa / 64 = sec then patch d (e.pa % 64) e.bytes else d) d

/-- A sector as a die's L2 serves it. -/
def State.dieSector (s : State) (die sec : Nat) : List Byte :=
  s.overlay die sec (match s.l2? die sec with | some x => x.data | none => s.memSector sec)

/-- Whether the die can serve a sector's bytes: it is readable, or its queue holds all of them. -/
def State.dieRead (s : State) (die pa n : Nat) : List Byte :=
  ((s.dieSector die (pa / 64)).drop (pa % 64)).take n

def State.post (s : State) (m : CMsg) : State := { s with msgs := s.msgs ++ [{ m with sent := s.now }] }

/-- A line leaves a die's L2 (R307), unless a request of the die for one of its sectors is under way. -/
def State.evictLine (s : State) (die line : Nat) : State :=
  if s.asked.any (fun a => a.1 = die ∧ a.2.1 / 4 = line) then s
  else (upto 4).foldl (fun s i =>
    let sec := 4 * line + i
    let home := homeOf (64 * sec)
    match s.l2? die sec with
    | none => s
    | some x =>
      let s := s.dropL2 die sec
      if die = home then (if x.st = .dirty then { s with mem := writeBytes s.mem (64 * sec) x.data } else s)
      else if x.st = .m ∨ x.st = .o then s.post { kind := .writeBack, src := die, dst := home, sector := sec, data := some x.data, dirty := true }
      else s.post { kind := .cleanEvict, src := die, dst := home, sector := sec }) s

/-- The lines of a die's L2. -/
def State.l2Lines (s : State) (die : Nat) : List Nat :=
  nub ((s.l2.filter (fun e => e.1 / 2 ^ 34 == die)).map (fun e => e.1 % 2 ^ 34 / 4))

/-- Room for a line in a die's L2 of 192 MiB (R12, R19, R307). -/
def State.roomL2 (s : State) (die line : Nat) : State :=
  let ls := s.l2Lines die
  if ls.contains line || ls.length < 786432 then s
  else match s.anyOf (ls.filter (fun l => !(s.asked.any (fun a => a.1 == die && a.2.1 / 4 == l)))) with
    | some v => s.evictLine die v
    | none => s

/-- A sector installed in a die's L2. -/
def State.fillL2 (s : State) (die sec : Nat) (x : L2Line) : State := (s.roomL2 die (sec / 4)).setL2 die sec x

/-- A write into a die's L2 under ownership: a remote holder of E becomes M without a message (R300, R306). -/
def State.l2Write (s : State) (die pa : Nat) (bs : List Byte) : State :=
  let sec := pa / 64
  let home := homeOf pa
  let data := patch (match s.l2? die sec with | some x => x.data | none => s.memSector sec) (pa % 64) bs
  let s := s.fillL2 die sec { st := if die = home then .dirty else .m, data := data, wrote := s.now }
  -- a write that covers the whole sector clears its poison (R323)
  if bs.length = 64 then { s with poison := s.poison.filter (· ≠ sec) } else s

/-- A request of a die for a sector, unless one is under way (R304). -/
def State.ask (s : State) (die sec : Nat) (own : Bool) : State :=
  if s.asked.any (fun a => a.1 = die ∧ a.2.1 = sec) then s
  else
    let kind : MsgKind := if own then (match s.l2? die sec with
        | some x => if x.st = .s ∨ x.st = .o then .upgrade else .readOwn
        | none => .readOwn) else .readShared
    { s with asked := s.asked ++ [(die, sec, s.now)]
             msgs := s.msgs ++ [({ kind := kind, src := die, dst := homeOf (64 * sec), sector := sec, requester := die, sent := s.now } : CMsg)] }

/-- A store, or a copy-out write, at die scope: into the L2 when the die owns the sector and no older write of the die
waits for it, else into the queue with a request for ownership (R264, R306). -/
def State.dieWrite (s : State) (die pa : Nat) (bs : List Byte) (copy : Bool := false) : State :=
  let sec := pa / 64
  if s.owns die sec && !(s.rwq.any (fun e => e.die == die && e.pa / 64 == sec)) then s.l2Write die pa bs
  else
    let s := { s with rwq := s.rwq ++ [({ id := s.nid, die := die, pa := pa, bytes := bs, copy := copy } : Rwq)], nid := s.nid + 1 }
    s.ask die sec true

/-- The writes that wait for a sector leave the queue in order once the die owns it (R306). -/
def State.drain (s : State) (die sec : Nat) : State :=
  if s.owns die sec then
    let mine := s.rwq.filter (fun e => e.die = die ∧ e.pa / 64 = sec)
    let s := { s with rwq := s.rwq.filter (fun e => !(e.die = die ∧ e.pa / 64 = sec)) }
    mine.foldl (fun s e => s.l2Write die e.pa e.bytes) s
  else s

/-- Whether the writes before a mark have left a die's queue. -/
def State.drained (s : State) (die mark : Nat) : Bool := !(s.rwq.any (fun e => e.die == die && e.id < mark))

/-! The directory (R301, R330). -/

def State.lineHeld (s : State) (line : Nat) : Bool := (upto 4).any (fun i => !(s.holders (4 * line + i)).isEmpty)

/-- The record of a sector written; a line's entry is allocated with its first remote holder, and freed with its last
(R330). -/
def State.putHolders (s : State) (sec : Nat) (t : Tbl DirSt) : State :=
  let line := sec / 4
  let s := { s with dir := if t.isEmpty then Tbl.erase s.dir sec else Tbl.set s.dir sec ({ holders := t } : DirEntry) }
  if s.lineHeld line then (if s.dirOrder.contains line then s else { s with dirOrder := s.dirOrder ++ [line] })
  else { s with dirOrder := s.dirOrder.filter (fun (x : Nat) => x ≠ line) }

def State.dropHolder (s : State) (sec die : Nat) : State := s.putHolders sec (Tbl.erase (s.holders sec) die)

/-- The set of a line: its home die and PA[24:8] (R330). -/
def dirSet (line : Nat) : Nat × Nat := (line / 2 ^ 30, line % 2 ^ 17)

/-- The lines that have an entry, and those to which a transaction in progress will give one. -/
def State.dirLines (s : State) : List Nat :=
  nub (s.dirOrder ++ (s.txns.filter (fun t => t.requester ≠ homeOf (64 * t.sector))).map (fun t => t.sector / 4))

/-- Whether a line has an entry, or a way of its set is free (R309, R330). -/
def State.wayFree (s : State) (line : Nat) : Bool :=
  s.dirLines.contains line || (s.dirLines.filter (fun x => dirSet x = dirSet line)).length < 16

/-! Writes of a die's own agents through R304 and R306 (R299). -/

/-- Whether nothing about a sector is under way, so that a die's request for it would be served at once (R305, R309). -/
def State.quietFor (s : State) (die sec : Nat) : Bool :=
  !(s.txns.any (fun t => t.sector == sec)) && !(s.msgs.any (fun m => m.sector == sec)) && !(s.asked.any (fun a => a.2.1 == sec)) &&
  !(s.backInv.any (fun b => b.line == sec / 4)) && (homeOf (64 * sec) == die || s.wayFree (sec / 4))

/-- Ownership of a sector obtained for a die, with the outcome of the rows of R304: every other copy goes, the newest
bytes come, and the writes of the die that wait for the sector follow (R306). -/
def State.gainOwn (s : State) (die sec : Nat) : State :=
  if s.owns die sec then s.drain die sec
  else
    let data := s.cohSector sec
    let home := homeOf (64 * sec)
    let s := (upto 4).foldl (fun s d => if d = die then s else s.dropL2 d sec) s
    let s := s.putHolders sec (if die = home then [] else [(die, .m)])
    (s.fillL2 die sec { st := if die = home then .dirty else .m, data := data, wrote := s.now }).drain die sec

/-- A write of an agent of a die into its L2 under ownership, sector by sector. A sector about which messages are under
way is written where it stands, as if between two of them (log entry 60). -/
def State.ownWrite (s : State) (die pa : Nat) (bs : List Byte) : State :=
  (cutSectors pa bs).foldl (fun s c =>
    if s.quietFor die c.1 then (s.gainOwn die c.1).l2Write die (64 * c.1 + c.2.1) c.2.2 else s.cohPatch c.1 c.2.1 c.2.2) s

/-- Bytes of one sector as an agent of a die reads them: the newest in the package, under the die's own queued writes
(R198, R264, R299). -/
def State.viewNat (s : State) (die pa n : Nat) : Nat := ofBytes (((s.overlay die (pa / 64) (s.cohSector (pa / 64))).drop (pa % 64)).take n)

/-- Bytes at consecutive addresses as an agent of a die reads them (R264, R299). -/
def State.viewRead (s : State) (die pa n : Nat) : List Byte :=
  let off := pa % 64
  (((upto ((off + n + 63) / 64)).flatMap (fun i => s.overlay die (pa / 64 + i) (s.cohSector (pa / 64 + i)))).drop off).take n

/-- The die on which an agent walks where the manual names none: the lowest in service (log entry 77). -/
def State.agentDie (s : State) : Nat := s.aliveDies.headD 0

/-! Translation. -/

inductive Use where
  | read | write | fetch
deriving DecidableEq, Repr

/-- A leaf as a walk finds it: where its entry lies, the entry, the page's address and size. -/
structure Leaf where
  pte : Nat
  entry : Nat
  pa : Nat
  size : Nat
deriving DecidableEq, Repr

/-- The levels of R196: shift, index bits, page size of a leaf, and the table alignment below. -/
def levels : List (Nat × Nat × Option Nat × Nat) :=
  [(48, 9, none, 4096), (39, 9, none, 4096), (30, 9, some (2 ^ 30), 4096), (21, 9, some (2 ^ 21), 256), (16, 5, some (2 ^ 16), 256)]

/-- The walk of R198 over the levels that are left: each entry is read through the L2 of the walking die. -/
def State.walkFrom (s : State) (die va : Nat) : List (Nat × Nat × Option Nat × Nat) → Nat → Except Cause Leaf
  | [], _ => .error .perm
  | (shift, bits, leaf, align) :: rest, table =>
    let pte := table + 8 * fld va shift bits
    if s.fencedDies.contains (homeOf pte) then .error .page
    else if s.poisoned pte 8 then .error .uncorrectable
    else
      let e := s.viewNat die pte 8
      let addr := fld e 8 44 * 256
      if !(bit e 0) then .error .page
      else if fld e 6 2 != 0 || fld e 52 4 != 0 || 2 ^ 40 ≤ addr then .error .perm
      else if bit e 1 then
        match leaf with
        | none => .error .perm
        | some size => if addr % size = 0 then .ok { pte := pte, entry := e, pa := addr, size := size }
                       else .error .perm
      else if rest.isEmpty || addr % align != 0 then .error .perm
      else State.walkFrom s die va rest addr

/-- The walk of a context's table (R196, R198). -/
def State.walk (s : State) (ctx die va : Nat) : Except Cause Leaf := s.walkFrom die va levels (s.ctx ctx).root

/-- Whether a leaf allows a use (R198). -/
def leafAllows (e : Nat) : Use → Bool
  | .read => true
  | .write => bit e 2
  | .fetch => bit e 3

/-- A bit set in an entry by the part's indivisible OR, when it is clear (R198). -/
def State.orPte (s : State) (pte i : Nat) : State :=
  let e := s.cohNat pte 8
  if bit e i then s else s.cohPut pte 8 (e + 2 ^ i)

/-- A translation enters a core's own buffer of 256 entries, which another then leaves where all are in use (R19,
R199). -/
def State.enterCore (s : State) (core : Option Nat) (e : TlbE) : State :=
  match core with
  | none => s
  | some c =>
    if e.cores.contains c then s
    else
      let mine := s.tlb.filter (fun x => x.cores.contains c)
      let s := if mine.length < 256 then s else match s.anyOf mine with
        | some v => { s with tlb := modifyFirst (fun x => x = v) (fun x => { x with cores := x.cores.filter (· ≠ c) }) s.tlb }
        | none => s
      { s with tlb := modifyFirst (fun x => x = e) (fun x => { x with cores := x.cores ++ [c] }) s.tlb }

/-- A translation enters a die's buffer of 32,768 entries (R19, R199). -/
def State.enterDie (s : State) (e : TlbE) : State :=
  let mine := s.tlb.filter (fun x => x.die = e.die)
  let s := if mine.length < 32768 then s else match s.anyOf mine with
    | some v => { s with tlb := removeFirst (fun x => x = v) s.tlb }
    | none => s
  { s with tlb := s.tlb ++ [e] }

/-- Translation of an address for an agent on a die, by its buffers or by a walk that fills them and sets A in the leaf it
loads, and D at a write (R197 to R199). A port agent or a dealer has no core buffer. -/
def State.translate (s : State) (ctx die : Nat) (core : Option Nat) (va : Nat) (use : Use) : Except Cause Nat × State :=
  let pn := va % 2 ^ 57
  let hit := s.tlb.find? (fun e => e.die = die ∧ e.ctx = ctx ∧ e.va ≤ pn ∧ pn < e.va + e.size)
  match hit with
  | some e =>
    if s.fencedDies.contains (homeOf (e.pa + (pn - e.va))) then (.error .page, s)
    else if use = .write ∧ e.w = false ∨ use = .fetch ∧ e.x = false then (.error .perm, s)
    else
      let s := s.enterCore core e
      let s := if use = .write ∧ e.dirty = false then
          { s.orPte e.pte 5 with tlb := s.tlb.map (fun (x : TlbE) => if x.die = e.die ∧ x.ctx = e.ctx ∧ x.va = e.va then { x with dirty := true } else x) } else s
      (.ok (e.pa + (pn - e.va)), s)
  | none =>
    match s.walk ctx die pn with
    | .error c => (.error c, s)
    | .ok f =>
      let pa := f.pa + pn % f.size
      if s.fencedDies.contains (homeOf pa) then (.error .page, s)
      else if leafAllows f.entry use = false then (.error .perm, s)
      else
        let s := s.orPte f.pte 4
        let s := if use = .write then s.orPte f.pte 5 else s
        let e : TlbE := { die := die, ctx := ctx, va := floorTo f.size pn, size := f.size, pa := f.pa
                          w := bit f.entry 2, x := bit f.entry 3, pte := f.pte, dirty := use = .write || bit f.entry 5 }
        (.ok pa, (s.enterDie e).enterCore core e)

/-- A translation for an agent on a die that leaves no trace: no A bit and no buffer entry (R210). -/
def State.peek (s : State) (ctx die va : Nat) (use : Use) : Except Cause Nat :=
  match s.walk ctx die (va % 2 ^ 57) with
  | .error c => .error c
  | .ok f =>
    let pa := f.pa + va % 2 ^ 57 % f.size
    if s.fencedDies.contains (homeOf pa) then .error .page
    else if leafAllows f.entry use then .ok pa else .error .perm

/-- The translations of a context that meet a range are discarded, and the cached endpoint entries in it (R410, R319). -/
def State.tlbDrop (s : State) (ctx lo hi : Nat) : State :=
  let lo := floorTo 65536 (lo % 2 ^ 57)
  let hi := ceilDiv (hi % 2 ^ 64) 65536 * 65536
  let s := { s with tlb := s.tlb.filter (fun e => !(e.ctx = ctx ∧ e.va < hi ∧ lo < e.va + e.size)) }
  s.updCtx ctx (fun c => { c with endpoints := c.endpoints.filter (fun e =>
    let a := (c.trail + 139264 + 64 * e.1) % 2 ^ 57
    !(a < hi ∧ lo < a + 64)) })

/-- Bytes read at virtual addresses by an agent of a die, page by page (R34, R51). -/
def State.vread (s : State) (ctx die : Nat) (va n : Nat) : Except Cause (List Byte) × State :=
  match s.translate ctx die none va .read with
  | (.error c, s) => (.error c, s)
  | (.ok pa, s) =>
    let room := 65536 - va % 65536
    if n ≤ room then
      if s.poisoned pa n then (.error .uncorrectable, s) else (.ok (s.viewRead die pa n), s)
    else match s.translate ctx die none (va + room) .read with
      | (.error c, s) => (.error c, s)
      | (.ok pb, s) =>
        if s.poisoned pa room || s.poisoned pb (n - room) then (.error .uncorrectable, s)
        else (.ok (s.viewRead die pa room ++ s.viewRead die pb (n - room)), s)

/-! Signatures, releases and acquires. -/

def okey (core o : Nat) : Nat := 272 * core + o

/-- A line inserted into an origin's current bank (R273). -/
def State.bankIn (s : State) (ctx origin pa : Nat) : State :=
  s.updCtx ctx (fun c => { c with banks := Tbl.set c.banks origin ((Tbl.get {} c.banks origin).insert pa) })

/-- A signature merged into an origin's current bank (R276). -/
def State.bankOr (s : State) (ctx origin : Nat) (g : Sig) : State :=
  s.updCtx ctx (fun c => { c with banks := Tbl.set c.banks origin ((Tbl.get {} c.banks origin).union g) })

/-- invalidate_all() of R276. A running task's buffered stores are no L1 sectors of this model. -/
def State.invalidateAll (s : State) (ctx core : Nat) : State :=
  let s := s.l1Drop core (fun _ => true)
  s.updCtx ctx (fun c => { c with banks := Tbl.set c.banks core { (Tbl.get {} c.banks core) with fill := 255 } })

/-- apply() of R276. -/
def State.applySig (s : State) (ctx core : Nat) (g : Sig) : State :=
  if 96 ≤ g.fill then s.invalidateAll ctx core
  else (s.l1Drop core (fun sec => g.hits (64 * sec))).bankOr ctx core g

/-- A sync object as a snapshot (R26, R40). -/
structure SyncObj where
  value : Nat
  seq : Nat
  origin : Nat
  flags : Nat
  delta : Sig
deriving DecidableEq, Repr

def parseSync (b : List Byte) : SyncObj :=
  { value := ofBytes (b.take 8), seq := ofBytes ((b.drop 8).take 8), origin := fld (ofBytes ((b.drop 16).take 2)) 0 11
    flags := ofBytes ((b.drop 18).take 2)
    delta := { bits := ofBytes ((b.drop 32).take 32), fill := ofBytes ((b.drop 20).take 1) } }

def State.syncAt (s : State) (pa : Nat) : SyncObj := parseSync (s.cohRead pa 64)

/-- The address of a trail slot (R275). -/
def trailSlot (c : Ctx) (o q : Nat) : Nat := c.trail + 512 * o + 64 * (q % 8)

/-- A trail slot's signature, when the slot holds the sequence and can be read (R276). -/
def State.trailSig (s : State) (ctx core o q : Nat) : Option Sig :=
  match s.peek ctx (dieOf core) (trailSlot (s.ctx ctx) o q) .read with
  | .error _ => none
  | .ok pa =>
    if s.poisoned pa 64 then none
    else
      let b := s.cohRead pa 64
      if ofBytes (b.take 8) = q ∧ core < 256 then some { bits := ofBytes ((b.drop 32).take 32), fill := ofBytes ((b.drop 8).take 1) } else none

/-- The slots of an acquisition, applied in order until one is missing (R276). -/
def State.applySlots (s : State) (ctx core o : Nat) (last : Nat × Sig) : List Nat → State
  | [] => s
  | q :: qs =>
    match (if q = last.1 then some last.2 else s.trailSig ctx core o q) with
    | none => s.invalidateAll ctx core
    | some g => State.applySlots (s.applySig ctx core g) ctx core o last qs

/-- acquire() of R276 for a release with its delta. -/
def State.acquireSeq (s : State) (ctx core o q : Nat) (delta : Option Sig) : State :=
  if q = 0 then s
  else if 272 ≤ o then s.invalidateAll ctx core
  else
    let a := Tbl.get 0 (s.ctx ctx).applied (okey core o)
    if q ≤ a then s
    else
      let s := if q - a > 8 then s.invalidateAll ctx core
        else match delta with
          | some g => s.applySlots ctx core o (q, g) ((upto (q - a)).map (fun i => a + 1 + i))
          | none => s.applySlots ctx core o (0, {}) ((upto (q - a)).map (fun i => a + 1 + i))
      s.updCtx ctx (fun c => { c with applied := Tbl.put 0 c.applied (okey core o) q })

/-- acquire() of R276 for an object as read. -/
def State.acquireSync (s : State) (ctx core : Nat) (x : SyncObj) : State := s.acquireSeq ctx core x.origin x.seq (some x.delta)

/-- acquire() of R276 on an object. -/
def State.acquireObj (s : State) (ctx core pa : Nat) : State := s.acquireSync ctx core (s.syncAt pa)

/-- The object's bytes after a release (R42): value, sequence, origin, fill, scope and delta afresh, flags ORed. -/
def relBytes (old : List Byte) (value seq origin flags : Nat) (sc : Scope) (d : Sig) : List Byte :=
  toBytes 8 value ++ toBytes 8 seq ++ toBytes 2 origin ++ toBytes 2 ((parseSync old).flags ||| flags) ++
  toBytes 1 d.fill ++ toBytes 1 sc.code ++ (old.drop 22).take 10 ++ toBytes 32 d.bits

/-- The die of an origin: a core, a port agent or a commit arbiter (R41). -/
def originDie (o : Nat) : Nat := if o < 256 then dieOf o else if o < 268 then (o - 256) / 3 else (o - 268) % 4

/-- The last steps of release() of R274, each write made at the L2 of the origin's die under ownership (R306): the
sequence, the trail slot, and the object where there is one. A core's own L1
keeps no older copy of the object (R268). -/
def State.deposit (s : State) (ctx origin : Nat) (sc : Scope) (d : Sig) (obj : Option (Nat × Nat)) (flags : Nat) : State :=
  let q := (Tbl.get 0 (s.ctx ctx).seqs origin + 1) % 2 ^ 64
  let s := s.updCtx ctx (fun c => { c with seqs := Tbl.set c.seqs origin q })
  let die := originDie origin
  let s := match s.peek ctx die (trailSlot (s.ctx ctx) origin q) .write with
    | .error _ => s
    | .ok pa => s.ownWrite die pa (toBytes 8 q ++ toBytes 1 d.fill ++ toBytes 1 sc.code ++ toBytes 22 0 ++ toBytes 32 d.bits)
  match obj with
  | none => s
  | some (pa, v) => (s.l1Drop origin (fun sec => sec == pa / 64)).ownWrite die pa (relBytes (s.cohRead pa 64) v q origin flags sc d)

/-- release() of R274 performed in one step by an agent whose writes are performed. -/
def State.releaseNow (s : State) (ctx origin : Nat) (sc : Scope) (obj : Option (Nat × Nat)) (flags : Nat) : State :=
  let d := Tbl.get {} (s.ctx ctx).banks origin
  let d := match obj with | some (pa, _) => d.insert pa | none => d
  let s := s.updCtx ctx (fun c => { c with banks := Tbl.set c.banks origin {} })
  s.deposit ctx origin sc d obj flags

/-- The full delta of a release at a moment (R87, R379). -/
def State.fullSig (s : State) (pa : Nat) : Sig := (Sig.full (Config.fullDelta s.now).toNat).insert pa

/-- The last release of an origin, which a resumed lane or a task start acquires. -/
def State.lastSeq (s : State) (ctx origin : Nat) : Nat := Tbl.get 0 (s.ctx ctx).seqs origin

/-- The head release of an origin, with its signature captured when it comes to the head (R274). -/
def State.capture (s : State) (ctx origin : Nat) : State :=
  match s.rels.find? (fun r => r.ctx = ctx ∧ r.origin = origin) with
  | none => s
  | some r =>
    if r.cap.isSome then s
    else
      let d := Tbl.get {} (s.ctx ctx).banks origin
      let d := match r.obj with | some pa => d.insert pa | none => d
      let s := { s with rels := modifyFirst (fun r => r.ctx = ctx ∧ r.origin = origin) (fun r => { r with cap := some (d, s.nid) }) s.rels }
      s.updCtx ctx (fun c => { c with banks := Tbl.set c.banks origin {} })

/-- A release enters its origin's queue (R274). -/
def State.enqueueRel (s : State) (r : PendRel) : State :=
  ({ s with rels := s.rels ++ [{ r with id := s.nid }], nid := s.nid + 1 } : State).capture r.ctx r.origin

/-- Whether what a core did before a mark is performed at a scope, as a release waits for it: no request of a thread and
no write of a copy outstanding, and for package and system scope no older entry in its die's queue (R264, R266, R274). -/
def State.performed (s : State) (core mark : Nat) (sc : Scope) : Bool :=
  !(s.reqs.any (fun r => r.core == core && (r.write || !r.copy) && r.id < mark)) && (sc.code < 3 || s.drained (dieOf core) mark)

/-- Whether a core's releases of a context have deposited (R278). -/
def State.noRels (s : State) (ctx core : Nat) : Bool := !(s.rels.any (fun r => r.ctx == ctx && r.origin == core))

end Sys2Proof.Machine
end

