-- ==== Sys2Proof/Machine/Operands.lean ====
section
/-! DEFINITION. Operand forms: the reading of sources (R98, R99), the writing of destinations (R100, R101), predicates
(R108, R128), and the registers that each word names (R91, R124, R165).
Readings logged: DEDUCED 15, 16, 18, 72. -/

namespace Sys2Proof.Machine

/-- The FP32 pattern of a small integer (R98). -/
def smallF32 (z : Int) : Nat :=
  let a := z.natAbs
  if a = 0 then 0
  else (if z < 0 then 2 ^ 31 else 0) + (127 + a.log2) * 2 ^ 23 + (a * 2 ^ (23 - a.log2) - 2 ^ 23)

/-- The value of an inline code read as a type of the given width in bits (R98): held as code - 384. -/
def inlineAs (t : Ty) (n : Nat) : Nat :=
  let z : Int := (n : Int) - 32
  match t with
  | .s64 | .n64 => low 64 z
  | .f32 => smallF32 z
  | .bf16 => smallF32 z / 2 ^ 16
  | _ => low 32 z

/-- The special sources of R99 for a lane of a heat; `act` is the mask of active(). -/
def special (s : State) (h : Heat) (act l : Nat) : Special → Nat
  | .lane => l
  | .heatix => h.key.heat
  | .teamid => h.key.team
  | .partid => h.part
  | .coreid => h.core
  | .dieid => dieOf h.core
  | .taskix => (h.lane l).taskIx
  | .lapin => (h.lane l).lapIn
  | .depth => (h.lane l).depth
  | .quadpos => h.core % 4
  | .legix => h.leg
  | .heatn => h.heatn
  | .kserial => h.key.serial
  | .ctxid => h.key.ctx
  | .threadid => threadId h.key l
  | .clock => (s.clock h.core).toNat
  | .heldn => (h.lane l).held.length
  | .budget => h.budget
  | .actmask => act
  | .lvix 0 => l
  | .lvix (i + 1) => (h.lvix[i]?).getD 0

/-- A v register of a lane. -/
def Lane.v32 (x : Lane) (n : Nat) : Nat := (Tbl.get 0 x.v n).toNat

/-- A pair of v registers (R100). -/
def Lane.v64 (x : Lane) (n : Nat) : Nat := x.v32 n + x.v32 (n + 1) * 2 ^ 32

/-- A k register of a heat. -/
def Heat.k64 (h : Heat) (n : Nat) : Nat := (Tbl.get 0 h.k n).toNat

/-- A record register of a heat. -/
def Heat.b256 (h : Heat) (n : Nat) : Nat := (Tbl.get 0 h.b n).toNat

/-- A source read as a type (R98 to R100): 64 bits for a 64-bit type, else 32. -/
def srcT (s : State) (h : Heat) (act l : Nat) (t : Ty) : Src → Nat
  | .v n => if t.wide then (h.lane l).v64 n else (h.lane l).v32 n
  | .k n => if t.wide then h.k64 n else h.k64 n % 2 ^ 32
  | .inl n => inlineAs t n
  | .sp x => if t.wide then special s h act l x else special s h act l x % 2 ^ 32
  | .none => 0

/-- A source read as .n32. -/
def src32 (s : State) (h : Heat) (act l : Nat) (x : Src) : Nat := srcT s h act l .n32 x

/-- A source read as .n64. -/
def src64 (s : State) (h : Heat) (act l : Nat) (x : Src) : Nat := srcT s h act l .n64 x

/-- A value as an integer of its type (R168). -/
def asInt (t : Ty) (x : Nat) : Int :=
  match t with
  | .s32 => sext x 32 | .s64 => sext x 64 | .n64 => (x % 2 ^ 64 : Nat) | _ => (x % 2 ^ 32 : Nat)

/-- An integer's index: .n32, or 64 bits of an M form (R205). Unsigned inline values wrap as .n32 and .n64 do (R98). -/
def indexOf (s : State) (h : Heat) (act l : Nat) (x : Index) : Nat := if x.w64 then src64 s h act l x.x else src32 s h act l x.x

/-- The index of a G form (R207), an integer. -/
def gindexOf (s : State) (h : Heat) (act l : Nat) (x : GIndex) : Int :=
  let w := 8 * 2 ^ x.iw
  let raw := if x.iw = 3 then src64 s h act l x.x else src32 s h act l x.x
  let f := fld raw (x.sel * w) w
  (if x.sg then sext f w else (f : Int)) * 2 ^ x.scl

/-- A predicate source of a lane (R128). -/
def Lane.ps (x : Lane) : PSrc → Bool
  | .p n => x.p.getLsbD n
  | .tt => true
  | .ff => false

/-- A predicate written. -/
def Lane.setP (x : Lane) (n : Nat) (b : Bool) : Lane :=
  { x with p := if b then x.p ||| (1#12 <<< n) else x.p &&& ~~~(1#12 <<< n) }

/-- A v register written. -/
def Lane.setV (x : Lane) (n y : Nat) : Lane := { x with v := Tbl.put 0 x.v n (BitVec.ofNat 32 y) }

/-- A pair written (R100). -/
def Lane.setV64 (x : Lane) (n y : Nat) : Lane := (x.setV n y).setV (n + 1) (y / 2 ^ 32)

/-- A k register written; a 32-bit value clears the high half (R101). -/
def Heat.setK (h : Heat) (n y : Nat) : Heat := { h with k := Tbl.put 0 h.k n (BitVec.ofNat 64 y) }

def Heat.setB (h : Heat) (n y : Nat) : Heat := { h with b := Tbl.put 0 h.b n (BitVec.ofNat 256 y) }

/-- A destination of 32 or 64 bits written for a lane. -/
def Heat.setDst (h : Heat) (w : Bool) (l : Nat) (d : Dst) (y : Nat) : Heat :=
  match d with
  | .v n => h.updLane l (fun x => if w then x.setV64 n y else x.setV n y)
  | .k n => h.setK n (if w then y % 2 ^ 64 else y % 2 ^ 32)

/-- The results of the active lanes written to one destination: each lane its v register, or the lowest lane's value to
the k register (R101). `rs` holds the lanes in ascending order. -/
def Heat.setAll (h : Heat) (w : Bool) (d : Dst) (rs : List (Nat × Nat)) : Heat :=
  match d with
  | .v _ => rs.foldl (fun h r => h.setDst w r.1 d r.2) h
  | .k _ => match rs with
    | [] => h
    | r :: _ => h.setDst w r.1 d r.2

/-- A guard (R93, R108). -/
def Lane.guard (x : Lane) (c : Com) : Bool := c.guard == 12 || (x.p.getLsbD c.guard != c.neg)

/-! The registers that a word names. -/

/-- An operand: a source or destination of so many registers, or a predicate destination. -/
inductive Opnd where
  | src (x : Src) (n : Nat)
  | dst (x : Dst) (n : Nat)
  | pred (n : Nat)
deriving DecidableEq, Repr

namespace Opnd

/-- A source of 32 bits, or of 64 with `w`. -/
def s (w : Bool) (x : Src) : List Opnd := [.src x (if w then 2 else 1)]
def so (x : Option Src) : List Opnd := match x with | none => [] | some x => [.src x 1]
def d (w : Bool) (x : Dst) : List Opnd := [.dst x (if w then 2 else 1)]
def dOpt (w : Bool) (x : Option Dst) : List Opnd := match x with | none => [] | some x => d w x
def pOpt (x : Option Nat) : List Opnd := match x with | none => [] | some n => [.pred n]
def sv (n k : Nat) : List Opnd := [.src (.v n) k]
def dv (n k : Nat) : List Opnd := [.dst (.v n) k]
def ix (x : Index) : List Opnd := s x.w64 x.x
def gx (x : GIndex) : List Opnd := s (x.iw == 3) x.x
/-- The registers of an element (R205). -/
def regs (sz : Nat) : Nat := if sz ≤ 2 then 1 else if sz = 3 then 2 else 4
def sc : Scale → List Opnd
  | .none => []
  | .byte r _ => (match r with | .v n => sv n 1 | .k n => [.src (.k n) 1])
  | .book k => [.src (.k k) 4]
def s3 (a b c : Src) : List Opnd := s false a ++ s false b ++ s false c

/-- The v registers of an operand. -/
def vs : Opnd → List Nat
  | .src (.v n) k | .dst (.v n) k => (upto k).map (fun i => n + i)
  | _ => []

/-- The k registers of an operand: a run of k registers only where the entry names one. -/
def ks : Opnd → List Nat
  | .src (.k n) k => if k ≤ 2 then [n] else (upto k).map (fun i => n + i)
  | .dst (.k n) _ => [n]
  | _ => []

end Opnd

open Opnd in
/-- The operands of a word, in the order of its entry. -/
def Instr.operands : Instr → List Opnd
  | .nop _ | .bra .. | .exit _ | .yield _ | .waitf .. => []
  | .brx _ a | .ret _ a => s true a
  | .call _ l _ => dv l 2
  | .callx _ l => sv l 2 ++ dv l 2
  | .trap _ _ a => so a
  | .pset _ t _ d a b => pOpt (some d) ++ s t.wide a ++ s t.wide b
  | .psetfFrom _ a b => (upto 12).map .pred ++ s false a ++ s false b
  | .psetfTo _ x => d false x
  | .plog _ _ d _ _ _ => pOpt (some d)
  | .vote _ op _ => (match op with | .ballot x => d false x | .any n | .all n | .uni n => [.pred n])
  | .shfl _ t _ x a b _ => d t.wide x ++ s t.wide a ++ s false b
  | .hred _ t _ _ x a | .hscan _ t _ _ _ x a _ => d t.wide x ++ s t.wide a
  | .matchv _ t x a => d false x ++ s t.wide a
  | .iadd _ t _ x a b | .isub _ t _ x a b | .idiv _ t _ x a b | .imin _ t x a b | .imax _ t x a b | .and _ t x a b
  | .or _ t x a b | .xor _ t x a b => d t.wide x ++ s t.wide a ++ s t.wide b
  | .imul _ t m x a b => d (t.wide || m = .wide) x ++ s t.wide a ++ s t.wide b
  | .imad _ t w x a b z => d (t.wide || w) x ++ s t.wide a ++ s t.wide b ++ s (t.wide || w) z
  | .iabs _ t _ x a | .popc _ t x a | .clz _ t x a | .brev _ t x a | .mov _ t x a => d t.wide x ++ s t.wide a
  | .shl _ t _ x a b | .shr _ t _ x a b | .bfx _ t x a b => d t.wide x ++ s t.wide a ++ s false b
  | .bfi _ t x a b z => d t.wide x ++ s t.wide a ++ s t.wide b ++ s false z
  | .sel _ t x a b _ => d t.wide x ++ s t.wide a ++ s t.wide b
  | .movi _ t _ x _ => d t.wide x
  | .addi _ t _ x a _ => d t.wide x ++ s t.wide a
  | .lea _ _ _ x a b => d true x ++ s true a ++ s false b
  | .bysel _ _ x a b z | .ffma _ _ _ x a b z | .pkfma _ _ _ _ x a b z => d false x ++ s3 a b z
  | .fadd _ _ _ x a b rb | .fsub _ _ _ x a b rb | .fmul _ _ _ x a b rb | .fdiv _ _ _ x a b rb
  | .pkadd _ _ _ _ x a b rb | .pkmul _ _ _ _ x a b rb => d false x ++ s false a ++ s false b ++ so rb
  | .fmin _ _ x a b | .fmax _ _ x a b | .pkmnx _ _ _ x a b => d false x ++ s false a ++ s false b
  | .fsign _ _ x a b => d false x ++ s false a ++ so b
  | .frcp _ x a | .frsq _ x a | .fexp2 _ x a | .flog2 _ x a | .ftanh _ x a | .fclass _ _ x a => d false x ++ s false a
  | .fsqrt _ _ _ x a rb | .frnd _ _ _ x a rb => d false x ++ s false a ++ so rb
  | .cvti _ t y _ x a rb => d t.wide x ++ s y.wide a ++ so rb
  | .cvtf _ _ y _ _ x a rb => d false x ++ s y.wide a ++ so rb
  | .pack2 _ _ _ _ z x a rb => d false x ++ sv a 2 ++ sc z ++ so rb
  | .pack4 _ _ _ _ z x a rb => d false x ++ sv a 4 ++ sc z ++ so rb
  | .pack8 _ _ _ _ z x a rb => d false x ++ sv a 8 ++ sc z ++ so rb
  | .unpk2 _ _ _ z x a rb => dv x 2 ++ s false a ++ sc z ++ so rb
  | .unpk4 _ _ _ z x a rb => dv x 4 ++ s false a ++ sc z ++ so rb
  | .unpk8 _ _ _ z x a rb => dv x 8 ++ s false a ++ sc z ++ so rb
  | .scalex _ _ _ _ _ x a b rb => d false x ++ s false a ++ s false b ++ so rb
  | .bldMem _ _ a _ | .bldQ _ _ _ a | .bsubOff _ _ _ a | .bsubWin _ _ _ a _ => s true a
  | .bldK _ _ k => [.src (.k k) 4]
  | .bldZero .. | .bsubColour .. | .bsubFlags .. | .cmaintInvall _ | .fence .. => []
  | .ld _ _ sz x i _ => dv x (regs sz) ++ ix i
  | .st _ _ sz x i _ => sv x (regs sz) ++ ix i
  | .ldg _ _ sz x i _ => dv x (regs sz) ++ gx i
  | .stg _ _ sz x i _ => sv x (regs sz) ++ gx i
  | .lds _ _ sz x a e => dv x (regs sz) ++ s false a ++ so e
  | .sts _ _ sz x a e => sv x (regs sz) ++ s false a ++ so e
  | .ldsr _ _ sz x a e => dv x (regs sz) ++ s false a ++ s false e
  | .stsr _ _ sz x a e => sv x (regs sz) ++ s false a ++ s false e
  | .pref _ _ _ i _ | .cmaintInv _ _ i _ | .cmaintWb _ _ i _ => ix i
  | .ldk _ _ x i _ => [.dst (.k x) 1] ++ ix i
  | .atom _ _ _ sz _ _ x i e _ => dOpt (sz == 3) x ++ ix i ++ s (sz == 3) e
  | .acas _ sz _ _ x i e _ => d (sz == 3) x ++ ix i ++ s (sz == 3) e
  | .atoms _ _ _ sz _ _ x a e => dOpt (sz == 3) x ++ s false a ++ s (sz == 3) e
  | .waita _ x a b _ _ w scr _ => pOpt x ++ s (!scr) a ++ s w b
  | .ldacq _ sz _ x i _ => d (sz == 3) x ++ ix i
  | .strel _ sz _ x i _ => s (sz == 3) x ++ ix i
  | .syadd _ _ _ x i e _ => dOpt true x ++ ix i ++ s true e
  | .bar _ _ b | .bara _ _ b => so b
  | .cpyin _ _ o i r _ | .cpyout _ _ o i r _ => s false o ++ ix i ++ so r
  | .cpyw _ sz _ a i _ => s (sz == 3) a ++ ix i
  | .rfill _ a | .rrelease _ a | .rpush _ a | .split _ _ a => s false a
  | .rawait _ _ x a => pOpt x ++ s false a
  | .rinit _ a k => s false a ++ [.src (.k k) 8]
  | .mmarkSelf .. | .mmarkClear .. | .mswap .. | .mclr .. => []
  | .mmarkMask _ _ _ a | .mldw _ _ _ _ _ a | .mstr _ _ _ _ _ _ a _ | .mdist _ _ _ _ _ _ a _ | .mrdScr _ _ _ _ _ _ a _ => s false a
  | .mtopk _ _ _ _ _ x _ | .mrd _ _ _ _ _ x => dv x 2
  | .claim _ a n => sv a (n + 1)
  | .mwait _ x a _ => pOpt x ++ s false a
  | .mnote _ a | .mnoteall _ a | .mrepair _ a => s false a
  | .heldTest _ x a => pOpt (some x) ++ s false a
  | .heldList _ x a => d false x ++ s false a
  | .tspawn _ a | .tstop _ a | .tsettle _ a => s true a
  | .tdone _ | .tabortRequeue _ | .tabortFail _ => []
  | .publap _ _ a => s false a
  | .tlapState _ x a => dv x 1 ++ s true a
  | .tlapBuf _ x a => dv x 2 ++ s true a
  | .resume _ _ h m | .killLanes _ h m => s true h ++ so m
  | .killHeat _ h | .killKernel _ h | .eret _ h => s true h
  | .tframeNext _ x a _ => pOpt (some x) ++ s true a
  | .tframeRd _ x h l item => dv x (if Wf.itemWide item then 2 else 1) ++ s true h ++ s false l
  | .tframeWr _ h l item a => s (Wf.itemWide item) a ++ s true h ++ s false l
  | .mfs _ x _ => dv x 1
  | .mts _ _ a => s false a
  | .tlbinvRange _ a n => s true a ++ s true n
  | .tlbinvCtx _ => []
  | .splinter _ x a t => pOpt (some x) ++ s true a ++ s true t
  | .brkpt _ | .brkptWclr .. | .haltallStop _ | .haltallGo _ => []
  | .brkptWset _ _ _ a len => s true a ++ s true len
  | .undo _ x h => pOpt x ++ s true h
  | .stamp _ _ x => d true x
  | .bist _ x a b _ => pOpt (some x) ++ s true a ++ s false b
  | .defmap _ x a => d true x ++ s false a
  | _ => []

/-- The v registers a word names (R91, R124). -/
def Instr.namedV (i : Instr) : List Nat := (Instr.operands i).flatMap Opnd.vs

/-- The k registers a word names (R124). -/
def Instr.namedK (i : Instr) : List Nat := (Instr.operands i).flatMap Opnd.ks

/-- The destinations a word names: v, k and predicates (R433). ACAS and ATOMS.cas read theirs as well. -/
def Instr.destV (i : Instr) : List Nat :=
  (Instr.operands i).flatMap (fun o => match o with | .dst _ _ => o.vs | _ => [])
def Instr.destK (i : Instr) : List Nat :=
  (Instr.operands i).flatMap (fun o => match o with | .dst _ _ => o.ks | _ => [])

/-- Whether a word reads a source that raises ILLEGAL when it is read: the code 511, or an inline integer read as a type
that takes none (R98). -/
def Instr.unreadable (i : Instr) : Bool :=
  (Instr.operands i).any (fun o => match o with | .src .none _ => true | _ => false) ||
  (match i with
    | .cvti _ _ t _ _ (.inl _) _ | .cvtf _ _ t _ _ _ (.inl _) _ => !t.inlineOk
    | _ => false)

/-- The opcode of an instruction word. -/
def Instr.opcode (i : Instr) : Nat := fld (encode i) 56 8

/-- The long-latency instructions (R93). -/
def Instr.long (i : Instr) : Bool :=
  let op := Instr.opcode i
  op == 0x72 || op == 0x74 || op == 0x76 || op == 0x78 || op == 0x7C || op == 0x80 || op == 0x81 || op == 0x82 ||
  op == 0x84 || op == 0xA5 || op == 0xA6

/-- Whether a leg's role may issue an opcode (R82): 0 copy, 1 matrix, 2 vector. -/
def roleAllows (role op : Nat) : Bool :=
  if op < 0x40 then true
  else if op < 0x70 then role == 2
  else if op < 0x72 then true
  else if op < 0x80 then role == 2
  else if op < 0x90 then true
  else if op < 0x92 || op == 0x98 then role == 0
  else if op < 0xA0 then true
  else if op < 0xB0 then role == 1
  else if op < 0xB8 then true
  else if op < 0xC0 then role == 2
  else true

/-- The words that only a service heat may issue (R402, R454). -/
def Instr.privileged : Instr → Bool
  | .resume .. | .killLanes .. | .killHeat .. | .killKernel .. | .eret .. | .tframeNext .. | .tframeRd .. | .tframeWr ..
  | .tlbinvRange .. | .tlbinvCtx _ | .splinter .. | .bist .. => true
  | .mfs _ _ f | .mts _ f _ => f != 0
  | _ => false

end Sys2Proof.Machine
end

