-- ==== Sys2Proof/Machine/Flags.lean ====
section
/-! DEFINITION. Completion flags and pending marks (R121 to R124) and the numerical flag word (R159, R160). -/

namespace Sys2Proof.Machine

/-! The bits of the numerical flag word (R159). -/
def fIV : Nat := 1
def fDZ : Nat := 2
def fOF : Nat := 4
def fUF : Nat := 8
def fIX : Nat := 16
def fSAT : Nat := 32
def fNANIN : Nat := 64
def fFLUSH : Nat := 128

/-- A lane's flags merged: into the word of the task it runs, or of the heat (R160). -/
def State.mergeFlags (s : State) (key : HeatKey) (l fl : Nat) : State :=
  if fl = 0 then s
  else match (s.lane? key l).bind (·.task) with
    | some r => s.updRun r (fun r => { r with flags := r.flags ||| fl })
    | none => s.updHeat key (fun h => { h with nflags := h.nflags ||| fl })

/-- Whether a flag is clear (R121). -/
def Heat.flagClear (h : Heat) (f : Nat) : Bool := Tbl.get 0 h.fcnt f == 0

/-- Whether every flag of a mask is clear (R89, R133). -/
def Heat.flagsClear (h : Heat) (mask : Nat) : Bool := (bitsOf mask 12).all h.flagClear

/-- A flag's count raised (R121). -/
def Heat.flagUp (h : Heat) (f : Nat) : Heat := { h with fcnt := Tbl.put 0 h.fcnt f (Tbl.get 0 h.fcnt f + 1) }

/-- A flag's count lowered (R121). -/
def Heat.flagDown (h : Heat) (f : Nat) : Heat := { h with fcnt := Tbl.put 0 h.fcnt f (Tbl.get 0 h.fcnt f - 1) }

/-- A lane's marks on the flags of a mask cleared (R123). -/
def Lane.unmark (x : Lane) (mask : Nat) : Lane := { x with pend := x.pend.filter (fun m => !(bit mask m.2)) }

/-- The marks of lanes, and of the k registers, on the flags of a mask cleared (R123). -/
def Heat.unmark (h : Heat) (ls : List Nat) (mask : Nat) : Heat :=
  let h := ls.foldl (fun h l => h.updLane l (fun x => x.unmark mask)) h
  if ls.isEmpty then h else { h with kpend := h.kpend.filter (fun m => !(bit mask m.2)) }

/-- A lane's marks set on its destinations (R123). -/
def Lane.mark (x : Lane) (f : Nat) (regs : List Nat) : Lane := { x with pend := x.pend ++ regs.map (fun r => (r, f)) }

/-- Whether an instruction that names these registers raises HAZARD in a lane (R124). -/
def Heat.hazard (h : Heat) (l : Nat) (vs ks : List Nat) : Bool :=
  ks.any (fun n => h.kpend.any (fun m => m.1 == n)) || ((h.lane l).pend.any (fun m => vs.contains m.1))

/-- The flag that a long-latency word selects in its block's header; 15 means none (R89, R93). -/
def flagOf (hdr : Nat) (c : Com) : Nat := if c.flagB then fld hdr 32 4 else fld hdr 36 4

end Sys2Proof.Machine
end

