-- ==== Sys2Proof/Machine/Colours.lean ====
section
/-! DEFINITION. The colour table and its monitors (R44, R46, R333 to R344): entries, acquisition, queues and hand-over.
Readings logged: DEDUCED 53. -/

namespace Sys2Proof.Machine

/-- The virtual address of a colour's entry (R44). -/
def entryVa (c : Ctx) (colour : Nat) : Nat := (c.colourBase + 128 * colour) % 2 ^ 64

/-- The physical address of an entry as the part's own agents reach it after an acquisition. -/
def State.entryPa (s : State) (ctx colour : Nat) : Option Nat :=
  match s.peek ctx s.agentDie (entryVa (s.ctx ctx) colour) .write with
  | .ok pa => some pa
  | .error _ => none

def State.monQ (s : State) (ctx colour : Nat) : List Waiter := Tbl.get [] (s.ctx ctx).mon colour

/-- The queue written back to the entry: head, tail and count (R44, R45). -/
def State.setMonQ (s : State) (ctx colour : Nat) (q : List Waiter) : State :=
  let s := s.updCtx ctx (fun c => { c with mon := Tbl.put [] c.mon colour q })
  match s.entryPa ctx colour with
  | none => s
  | some pa =>
    let tid (w : Option Waiter) := match w with | none => noThread | some w => threadId w.key w.lane
    s.cohWrite (pa + 72) (toBytes 8 (tid q.head?) ++ toBytes 8 (tid q.getLast?) ++ toBytes 4 q.length)

/-- The entry's owner (R44): all ones when it is free. -/
def State.ownerOf (s : State) (pa : Nat) : Nat := s.cohNat (pa + 64) 8
def State.setOwner (s : State) (ctx colour tid : Nat) : State :=
  match s.entryPa ctx colour with
  | none => s
  | some pa => s.cohPut (pa + 64) 8 tid
def State.abandoned (s : State) (pa : Nat) : Bool := bit (s.cohNat (pa + 92) 4) 0
def State.setAbandoned (s : State) (pa : Nat) (b : Bool) : State :=
  s.cohPut (pa + 92) 4 (setFld (s.cohNat (pa + 92) 4) 0 1 (b2n b))

/-- Whether the entry breaks R44 or R46: reserved bits or bytes that are not zero, or a count that disagrees with an empty
queue (R25). -/
def State.entryBad (s : State) (pa : Nat) : Bool :=
  fld (s.cohNat (pa + 92) 4) 2 30 != 0 || s.cohNat (pa + 96) 32 != 0 || ((s.cohNat (pa + 72) 8 == noThread) != (s.cohNat (pa + 88) 4 == 0))

/-- The entry of a colour as a lane's acquisition finds it (R334); a table out of its alignment is invalid (R24, R46). -/
def State.findEntry (s : State) (h : Heat) (colour : Nat) : Except Trap Nat × State :=
  let va := entryVa (s.ctx h.key.ctx) colour
  if (s.ctx h.key.ctx).colourBase = 0 ∨ (s.ctx h.key.ctx).colourBase % 4096 ≠ 0 ∨ h.colours = false then (.error { cause := .perm }, s)
  else match s.translate h.key.ctx (dieOf h.core) (some h.core) va .write with
    | (.error c, s) => (.error { cause := c, addr := some va, write := true }, s)
    | (.ok pa, s) =>
      if s.poisoned pa 128 then (.error { cause := .uncorrectable, addr := some va, write := true }, s)
      else if s.entryBad pa then (.error { cause := .perm, addr := some va, write := true }, s)
      else (.ok pa, s)

/-- A held set with a colour added, in ascending order. -/
def addHeld (l : List HeldC) (c : HeldC) : List HeldC :=
  l.filter (fun x => x.colour < c.colour) ++ [c] ++ l.filter (fun x => c.colour < x.colour)

def Lane.holds (x : Lane) (c : Nat) : Bool := x.held.any (fun e => e.colour == c)

/-- What an attempt to acquire a colour gives (R335). -/
inductive Acquired where
  | held
  | granted
  | queued
  | trapped (t : Trap)
deriving DecidableEq, Repr

/-- The end of an acquisition: the acquire at package scope, the held set, and the mark (R335). -/
def State.finishAcquire (s : State) (h : Heat) (l colour depth pa : Nat) : Acquired × State :=
  let s := s.acquireObj h.key.ctx h.core pa
  let s := s.updLane h.key l (fun x => { x with held := addHeld x.held { colour := colour, depth := depth } })
  if s.abandoned pa then (.trapped { cause := .monitorAbandoned }, s) else (.granted, s)

/-- acquire_colour() of R335; the caller blocks a queued lane. -/
def State.acquireColour (s : State) (key : HeatKey) (l colour : Nat) : Acquired × State :=
  match s.heat? key with
  | none => (.held, s)
  | some h =>
    let x := h.lane l
    if x.holds colour then (.held, s)
    else if x.held.any (fun e => colour < e.colour) then (.trapped { cause := .monitorOrder }, s)
    else if 8 ≤ x.held.length then (.trapped { cause := .monitorFull }, s)
    else match s.findEntry h colour with
      | (.error t, s) => (.trapped t, s)
      | (.ok pa, s) =>
        if s.ownerOf pa = noThread then
          (s.setOwner key.ctx colour (threadId key l)).finishAcquire h l colour x.depth pa
        else (.queued, s.setMonQ key.ctx colour (s.monQ key.ctx colour ++ [{ key := key, lane := l }]))

/-- A free colour given to the first acquirer of its queue, sleepers passed over, or left free (R337, R339). The lane
goes on with the grant when MONITOR_GRANT comes. -/
def State.handOver (s : State) (ctx colour : Nat) : State :=
  let q := s.monQ ctx colour
  match q.find? (fun w => !w.sleeper) with
  | none => s.setOwner ctx colour noThread
  | some w => (s.setMonQ ctx colour (removeFirst (fun x => x = w) q)).setOwner ctx colour (threadId w.key w.lane)

def Lane.dropHeld (x : Lane) (c : Nat) : Lane := { x with held := x.held.filter (fun e => e.colour != c) }

/-- The colours a blocked lane may have been granted and not yet taken. -/
def Lane.wanted (x : Lane) : List Nat :=
  match x.st with
  | .blocked (.colour c _) => [c]
  | .blocked (.claim cs) => cs
  | .blocked (.mwait c _ _ _ _ _ _ _) => [c]
  | _ => []

/-- A lane's places in every queue removed, and a grant it has not taken passed on (R341, R344). -/
def State.leaveQueues (s : State) (key : HeatKey) (l : Nat) : State :=
  let wanted := ((s.lane? key l).map Lane.wanted).getD []
  let s := (s.ctx key.ctx).mon.foldl (fun s e =>
    if e.2.any (fun w => w.key = key ∧ w.lane = l) then s.setMonQ key.ctx e.1 (e.2.filter (fun w => !(w.key = key ∧ w.lane = l))) else s) s
  wanted.foldl (fun s c =>
    if (s.entryPa key.ctx c).map s.ownerOf = some (threadId key l) ∧ ((s.lane? key l).map (fun x => x.holds c)).getD false = false
    then s.handOver key.ctx c else s) s

/-- A lane's colours handed on without a write to the sync object and without ABANDONED, and its places in every queue
removed (R344). -/
def State.handOnAll (s : State) (key : HeatKey) (l : Nat) : State :=
  let s := s.leaveQueues key l
  let held := ((s.lane? key l).map (·.held)).getD []
  held.reverse.foldl (fun s e => (s.updLane key l (fun x => x.dropHeld e.colour)).handOver key.ctx e.colour) s

/-- Whether a copy that a lane issued through a colour is incomplete, on any of its lanes, or a completion word of its heat
is not performed, which a release must follow (R223, R266, R272, R337). -/
def State.copyBusy (s : State) (key : HeatKey) (l colour : Nat) : Bool :=
  s.ops.any (fun o => o.isCopy && o.key = key && o.colour == colour && o.lanes.contains l && !(o.left.isEmpty && o.parked.isEmpty)) ||
  ((s.heat? key).map (fun h => !h.cpyw.isEmpty)).getD false

/-- A colour's release enters the queue of its core's releases, the object being at hand (R337); the hand-over follows
the deposit. -/
def State.queueRelease (s : State) (h : Heat) (l colour pa : Nat) : State :=
  s.enqueueRel { origin := h.core, ctx := h.key.ctx, scope := .package, obj := some pa, val := .incr, colour := some (h.key, l, colour) }

/-- Whether the release of a colour has begun for a lane. -/
def State.releasing (s : State) (key : HeatKey) (l colour : Nat) : Bool := s.rels.any (fun r => r.colour = some (key, l, colour))

/-- Where a lane goes when its RET or EXIT has released everything (R136). -/
def Lane.leave (x : Lane) (target : Option Nat) : Lane :=
  match target with
  | none => { x with st := .exited, depth := 0 }
  | some t => { x.goto t with st := .running, depth := x.depth - 1 }

/-- The releases of a RET or EXIT, in the order given; each waits for its copies and for its deposit (R337). An entry
that no longer translates has no object to write: the colour is handed on at once. -/
def State.releaseColours (key : HeatKey) (l : Nat) (target : Option Nat) : List Nat → State → State
  | [], s => (s.updLane key l (fun x => x.leave target)).settleBars key
  | c :: cs, s =>
    if s.copyBusy key l c then s.updLane key l (fun x => { x with st := .blocked (.release (c :: cs) target) })
    else match s.heat? key, s.entryPa key.ctx c with
      | some h, some pa =>
        (s.queueRelease h l c pa).updLane key l (fun x => { x with st := .blocked (.release (c :: cs) target) })
      | _, _ => State.releaseColours key l target cs ((s.updLane key l (fun x => x.dropHeld c)).handOver key.ctx c)

/-- A sleeper joins a colour's queue (R348). -/
def State.fallAsleep (s : State) (key : HeatKey) (l c : Nat) : State :=
  let s := s.updLane key l (fun x => match x.st with
    | .blocked (.mwait c depth d _ span _ n _) =>
      { x with st := .blocked (.mwait c depth d (s.now + span) span true n true) }
    | _ => x)
  s.setMonQ key.ctx c (s.monQ key.ctx c ++ [{ key := key, lane := l, sleeper := true }])

/-- What follows when a colour's release is performed: the colour leaves the held set and is handed over; the lane goes
on with its next release, sleeps, or leaves (R337, R348). -/
def State.afterRelease (s : State) (key : HeatKey) (l c : Nat) : State :=
  let st := (s.lane? key l).map Lane.st
  let s := s.updLane key l (fun x => x.dropHeld c)
  match st with
  | some (.blocked (.release cs target)) =>
    State.releaseColours key l target (cs.filter (· ≠ c)) (s.handOver key.ctx c)
  | some (.blocked (.mwait ..)) => (s.handOver key.ctx c).fallAsleep key l c
  | _ => s.handOver key.ctx c

/-- MWAIT's release begins once the lane's copies through the colour are complete (R337, R348). -/
def State.beginMwait (s : State) (key : HeatKey) (l c : Nat) : State :=
  if s.copyBusy key l c then s
  else match s.heat? key, s.entryPa key.ctx c with
    | some h, some pa => s.queueRelease h l c pa
    | _, _ => s.afterRelease key l c

/-- A release that waited for copies begins (R224, R337). -/
def State.retryRelease (s : State) (key : HeatKey) (l : Nat) : State :=
  match (s.lane? key l).map Lane.st with
  | some (.blocked (.release (c :: cs) target)) =>
    if s.releasing key l c then s else State.releaseColours key l target (c :: cs) s
  | some (.blocked (.mwait c _ _ _ _ _ _ released)) =>
    if released || s.releasing key l c then s else s.beginMwait key l c
  | _ => s

end Sys2Proof.Machine
end

