-- ==== Sys2Proof/Machine/Tasks.lean ====
section
/-! DEFINITION. The life of cards and tasks as other families use it: starting a task (R364), aborting it (R369), failing
a card (R380), and the lanes of a run (R360, R363).
Readings logged: DEDUCED 31, 44, 66; DESIGN CHOICE 77. -/

namespace Sys2Proof.Machine

/-- A lane of an operation has written or trapped; after the last one the flag's count falls (R121). -/
def State.opDone (s : State) (id l : Nat) : State :=
  match s.ops.find? (fun o => o.id = id) with
  | none => s
  | some o =>
    let left := o.left.filter (· ≠ l)
    if o.isCopy || !left.isEmpty then
      { s with ops := modifyFirst (fun o => o.id = id) (fun o => { o with left := left }) s.ops }
    else
      ({ s with ops := s.ops.filter (fun o => o.id ≠ id) }).updHeat o.key (fun h =>
        let h := if h.busy = some (Busy.result id) then { h with busy := none } else h
        match o.flag with | none => h | some f => h.flagDown f)

/-- The outstanding results of a lane dropped: its requests bring nothing back, and its operations are done for it
(R369). -/
def State.dropAccesses (s : State) (key : HeatKey) (l : Nat) : State :=
  let s := { s with reqs := s.reqs.map (fun (r : Req) => if r.key = key then { r with accs := r.accs.filter (fun (a : Acc) => a.lane ≠ l) } else r) }
  let ids := (s.ops.filter (fun (o : Op) => o.key = key && (o.left.contains l || o.parked.contains l))).map Op.id
  ids.foldl (fun s i =>
    ({ s with ops := modifyFirst (fun (o : Op) => o.id = i) (fun (o : Op) => { o with parked := o.parked.filter (· ≠ l) }) s.ops }).opDone i l) s

/-- The heats of a run's team. -/
def Run.ofHeat (r : Run) (h : Heat) : Bool := h.key.ctx == r.ctx && h.key.serial == r.serial && h.key.team == r.team

/-- The lanes that run a task and have not exited. -/
def State.lanesOf (s : State) (r : Run) : List (HeatKey × Nat) :=
  (s.heats.filter r.ofHeat).flatMap (fun h =>
    (h.lanesWhere (fun x => x.task = some r.id && !x.exited)).map (fun l => (h.key, l)))

/-- Every lane that a run's task may use, by the card's width (R363). -/
def State.seatsOf (s : State) (r : Run) : List (HeatKey × Nat) :=
  (s.heats.filter r.ofHeat).flatMap (fun h => match r.lane with
    | some l => [(h.key, l)]
    | none => (upto h.lanes.length).map (fun l => (h.key, l)))

/-- The first element that a reading refuses, or what it gives for all. -/
def readAll {α β ε : Type} (f : α → Except ε β) : List α → Except ε (List β)
  | [] => .ok []
  | a :: t => match f a with
    | .error e => .error e
    | .ok b => match readAll f t with
      | .error e => .error e
      | .ok bs => .ok (b :: bs)

/-- The head of a task's argument record: as its dealing read it, else as it stands (R26, R49, R51). -/
def State.argHead (s : State) (c : Card) (die i : Nat) : Except Trap (List Byte) :=
  if (c.task i).args.isEmpty then
    match (s.vread c.ctx die (c.args + c.recSize * i) 16).1 with
    | .error x => .error { cause := x, addr := some (c.args + c.recSize * i), xlat := true }
    | .ok b => .ok b
  else .ok (c.task i).args

/-- The successor entries of a task, address and quadword of each: PERM when one is malformed, or what the translation gives
where one cannot be read (R49, R50, R51, R382). -/
def State.readSuccessors (s : State) (c : Card) (die i : Nat) : Except Trap (List (Nat × Nat)) :=
  match s.argHead c die i with
  | .error t => .error t
  | .ok b =>
    let n := ofBytes ((b.drop 2).take 2)
    let off := ofBytes ((b.drop 4).take 4)
    if off % 8 ≠ 0 then .error { cause := .perm }
    else readAll (fun j =>
      let va := c.args + c.recSize * i + off + 8 * j
      match (s.vread c.ctx die va 8).1 with
      | .error x => .error { cause := x, addr := some va, xlat := true }
      | .ok e => let e := ofBytes e
        if fld e 56 2 = 3 ∨ fld e 0 4 ≠ 0 then .error { cause := .perm } else .ok (va, e)) (upto n)

/-- The successor entries, or none when the list is malformed or cannot be read. -/
def State.successors (s : State) (c : Card) (die i : Nat) : Option (List (Nat × Nat)) :=
  match s.readSuccessors c die i with
  | .ok l => some l
  | .error _ => none

/-- The task of a card that an argument record's address names (R49). -/
def Card.indexOf (c : Card) (ctx arec : Nat) : Option Nat :=
  if c.ctx = ctx ∧ c.args ≤ arec ∧ arec < c.args + c.recSize * c.count ∧ (arec - c.args) % c.recSize = 0
  then some ((arec - c.args) / c.recSize) else none

/-- A card's task by the address of its argument record (R49); a card of a settled group comes after the live ones. -/
def State.taskAt (s : State) (ctx arec : Nat) : Option (Card × Nat) :=
  (s.cards.filter (fun c => !c.settled) ++ s.cards.filter (fun c => c.settled)).findSome? (fun c => (c.indexOf ctx arec).map (fun i => (c, i)))

/-- The ready tasks of a card that a die holds (R357). -/
def Card.readyOn (c : Card) (die : Nat) : List Nat :=
  c.ready.filter (fun i => match (c.task i).st with | .ready d _ => d == die | _ => false)

/-- The free entries of a die's task-queue SRAM: the least number that no card or task of the die holds (R357). -/
def State.freeEntry (s : State) (die : Nat) : Option Nat :=
  let cards := s.cards.flatMap (fun c => (c.entries.filter (fun e => e.1 = die)).map (·.2))
  let tasks := s.cards.flatMap (fun c => (c.tasks.filter (fun t => t.2.die = die ∧ t.2.st ≠ .waiting ∧ t.2.st ≠ .queued ∧ t.2.st ≠ .retired)).map (·.2.entry))
  let used := cards ++ tasks
  if 65536 ≤ used.length then none else ((upto (used.length + 1)).filter (fun e => !used.contains e)).head?

/-- A ready task is held on the domain die with the fewest ready tasks of its card, or where that die has no free entry on
the next die of the domain that has one; else it waits for one (R357). -/
def State.seat (s : State) (card task : Nat) : State :=
  match s.card? card with
  | none => s
  | some c =>
    let dies := c.dies.filter (fun d => !s.fencedDies.contains d)
    let first := (leastBy (fun d => (c.readyOn d).length) dies).getD 0
    match (dies.filter (fun d => first ≤ d) ++ dies.filter (fun d => d < first)).find? (fun d => (s.freeEntry d).isSome) with
    | none => s.updTask card task (fun t => { t with st := .queued })
    | some d =>
      let e := (s.freeEntry d).getD 0
      s.updTask card task (fun t => { t with st := .ready d e, die := d, entry := e })

/-- A task becomes ready, at the tail of its card's list (R357, R362). -/
def State.makeReady (s : State) (card task : Nat) : State :=
  let s := s.updCard card (fun c => { c with ready := c.ready.filter (· ≠ task) ++ [task] })
  ({ s.updTask card task (fun t => { t with rank := s.nid }) with nid := s.nid + 1 } : State).seat card task

/-- Entries have become free: waiting tasks take them in the order of readiness, and lanes that wait to spawn try again
(R357, R383). -/
def State.entriesFreed (s : State) : State :=
  let q := s.cards.flatMap (fun c => (c.ready.filter (fun i => (c.task i).st = .queued)).map (fun i => (c.id, i, (c.task i).rank)))
  let s := (sortBy (fun x => x.2.2) q).foldl (fun s x => s.seat x.1 x.2.1) s
  { s with heats := s.heats.map (fun h => { h with lanes := h.lanes.map (fun x => if x.st = .blocked .tspawn then { x with st := .running } else x) }) }

/-- A task with an entry joins the tail of its card's ready list (R362, R369). -/
def State.requeue (s : State) (card task : Nat) : State :=
  match s.card? card with
  | none => s
  | some c =>
    let t := c.task task
    if s.fencedDies.contains t.die then s.makeReady card task
    else (s.updCard card (fun c => { c with ready := c.ready.filter (· ≠ task) ++ [task] })).updTask card task
      (fun t => { t with st := .ready t.die t.entry })

/-- The successor entry and die that a record of R397 names a task by (R53 producer layout). -/
def taskRef (t : Task) : Nat := t.entry % 2 ^ 16 + t.die % 4 * 2 ^ 16

/-- The tile address of a task; 0 where it has none or its record cannot be read (R49). -/
def State.tileOf (s : State) (c : Card) (die i : Nat) : Nat :=
  match s.argHead c die i with
  | .ok b => ofBytes ((b.drop 8).take 8)
  | .error _ => 0

/-- The lap state of a tile (R53); 0 where it cannot be read. -/
def State.lapState (s : State) (ctx tile : Nat) : Nat :=
  if tile = 0 then 0 else match s.peek ctx s.agentDie ((tile + 16) % 2 ^ 64) .read with
    | .ok pa => s.cohNat pa 1
    | .error _ => 0

/-- The edges of live cards' tasks with a tile that lead to an argument record: the entry's address and quadword, and the
producer's tile (R50). -/
def State.edgesTo (s : State) (ctx die arec : Nat) : List (Nat × Nat × Nat) :=
  (s.cards.filter (fun c => c.ctx = ctx ∧ c.settled = false)).flatMap (fun c => (upto c.count).flatMap (fun i =>
    let tile := s.tileOf c die i
    if tile = 0 then [] else ((s.successors c die i).getD []).filterMap (fun e =>
      if fld e.2 0 56 = arec % 2 ^ 56 then some (e.1, e.2, tile) else none)))

/-- The successor entries that lead to a consumer: those of live producers, and those that fired it, whose producers' group
may have settled (R376). -/
def State.edgesOf (s : State) (ctx die arec : Nat) : List (Nat × Nat) :=
  let live := (s.edgesTo ctx die arec).map (fun e => (e.1, e.2.1))
  let fired := ((s.taskAt ctx arec).map (fun x => (x.1.task x.2).edges)).getD []
  live ++ (fired.filter (fun va => !(live.any (fun e => e.1 == va)))).filterMap (fun va => match s.peek ctx die va .read with
    | .ok pa => some (va, s.cohNat pa 8)
    | .error _ => none)

/-- Whether every EACH predecessor of a task is final (R374). -/
def State.finalPreds (s : State) (ctx die arec : Nat) : Bool :=
  (s.edgesTo ctx die arec).all (fun e => fld e.2.1 56 2 != 0 || bit (s.lapState ctx e.2.2) 4)

/-- Bits [63:62] of a successor entry written, and the lap seen where one is given (R50, R376). -/
def State.setEdge (s : State) (ctx va : Nat) (lap : Option Nat) (running done : Option Bool) : State :=
  match s.peek ctx s.agentDie va .write with
  | .error _ => s
  | .ok pa =>
    let e := s.cohNat pa 8
    let e := match lap with | some a => setFld e 58 4 a | none => e
    let e := match running with | some b => setFld e 62 1 (b2n b) | none => e
    let e := match done with | some b => setFld e 63 1 (b2n b) | none => e
    s.cohPut pa 8 e

/-- The edges that fired a task show it running (R50). -/
def State.markRunning (s : State) (ctx die arec : Nat) : State :=
  (s.edgesOf ctx die arec).foldl (fun s e => s.setEdge ctx e.1 none (some true) none) s

/-- The state a task's lane starts with (R364). -/
def startLane (c : Card) (r : Run) (t : Task) (x : Lane) : Lane :=
  { pc := c.entry, task := some r.id, taskIx := r.task, lapIn := t.lapIn, age := x.age
    v := Tbl.put 0 (Tbl.put 0 [] 0 (BitVec.ofNat 32 r.arec)) 1 (BitVec.ofNat 32 (r.arec / 2 ^ 32)) }

/-- A task starts, or starts again, in its lanes (R364): its card's and entry's releases are acquired, or the L1 is
invalidated. `first` is a chunk's first start, which alone resets k, b and flags for lane tasks. -/
def State.startRun (s : State) (run : Nat) (first : Bool) : State :=
  match s.run? run with
  | none => s
  | some r => match s.card? r.card with
    | none => s
    | some c =>
      let t := c.task r.task
      let pairs := c.pair.toList ++ t.pairs
      let s := if t.wipe then s.invalidateAll r.ctx r.core
        else pairs.foldl (fun s p => s.acquireSeq r.ctx r.core p.1 p.2 none) s
      let s := s.updRun run (fun r => { r with rs := {}, ws := {}, buf := [], chunks := [], succ := [], flags := 0, published := false, lastFinal := false, committing := false, eachFinal := s.finalPreds r.ctx (dieOf r.core) r.arec })
      let s := { s with heats := s.heats.map (fun h =>
        if r.ofHeat h then
          let h := match r.lane with
            | some l => h.updLane l (startLane c r t)
            | none => { h with lanes := h.lanes.map (startLane c r t) }
          if r.lane.isNone || first then
            { h.dropRunon with k := Tbl.put 0 [] 0 (BitVec.ofNat 64 r.arec), b := [], fcnt := [], kpend := [] }
          else h.dropRunon
        else h) }
      -- the scratchpad of a team task is zeroed at every start
      if c.width = 2 then
        match s.heats.find? r.ofHeat with
        | some h => s.updUnit h.unit (fun u => { u with scr := [] })
        | none => s
      else s

/-- The tokens of a run given back, and requests for them dropped (R371). -/
def State.freeTokens (s : State) (run : Nat) : State :=
  { s with token := s.token.filter (fun e => e.2 ≠ run), tokenQ := s.tokenQ.filter (· ≠ run) }

/-- Postings and records of a task are withdrawn, but for the one that keeps it out of its lanes (R369). -/
def State.withdraw (s : State) (run : Nat) (keep : Option Nat) : State :=
  let stays (p : FRec) : Bool := p.task ≠ some run || some p.id == keep
  { s with postings := s.postings.filter stays, records := s.records.filter stays }

/-- The part of an abort that every cause shares (R369): buffered stores discarded, signatures cleared, colours handed
on, records withdrawn, outstanding results dropped. -/
def State.abortCommon (s : State) (run : Nat) (keep : Option Nat) : State :=
  match s.run? run with
  | none => s
  | some r =>
    let ls := s.lanesOf r
    let s := ls.foldl (fun s kl => (s.handOnAll kl.1 kl.2).dropAccesses kl.1 kl.2) s
    let s := s.withdraw run keep
    { s.updRun run (fun r => { r with rs := {}, ws := {}, buf := [], chunks := [], succ := [], flags := 0, committing := false }) with
      arb := s.arb.filter (fun q => q.run ≠ run) }

/-- The lanes of a run exit (R369). -/
def State.exitLanes (s : State) (r : Run) : State :=
  let seats := s.seatsOf r
  let s := seats.foldl (fun s kl => s.updLane kl.1 kl.2 (fun x => { x with st := .exited, task := none, depth := 0, held := [] })) s
  (nub (seats.map (·.1))).foldl (fun s k => (s.updHeat k Heat.dropRunon).settleBars k) s

/-- The next task of a heat-wide chunk starts in the heat, or the heat's lanes stay exited (R363, R367). -/
def State.nextOfChunk (s : State) (run : Nat) : State :=
  match s.run? run with
  | none => s
  | some r =>
    let s := s.exitLanes r
    match r.rest with
    | [] => { s with runs := s.runs.filter (fun x => x.id ≠ run) }
    | i :: rest =>
      match s.card? r.card with
      | none => { s with runs := s.runs.filter (fun x => x.id ≠ run) }
      | some c =>
        let id := s.nid
        let arec := c.args + c.recSize * i
        let tile := s.tileOf c (dieOf r.core) i
        let t := c.task i
        let r2 : Run := { id := id, card := r.card, task := i, ctx := r.ctx, arec := arec, tile := tile, core := r.core
                          serial := r.serial, team := r.team, lane := r.lane, irrevocable := t.irrevocable, rest := rest
                          base := t.base.getD (fld (s.lapState r.ctx tile) 0 4) }
        let s := { s with nid := id + 1, runs := s.runs.filter (fun (x : Run) => x.id ≠ run) ++ [r2] }
        (s.updTask r.card i (fun t => { t with st := .running id, conflicts := 0 })).startRun id true

/-- Where an abort sends the task (R369). -/
inductive AbortTo where
  | rerun (conflict : Bool)
  | requeue (lap : Option Nat)
  | irrevocable
  | page (rec : Nat)
deriving DecidableEq, Repr

/-- The lanes of a run that is to be irrevocable are blocked until it holds its tokens (R371). -/
def State.awaitTokens (s : State) (run : Nat) : State :=
  match s.run? run with
  | none => s
  | some r =>
    let s := { s with tokenQ := s.tokenQ ++ [run] }
    (s.lanesOf r).foldl (fun s kl => s.updLane kl.1 kl.2 (fun x => { x with st := .blocked .token })) s

/-- A rerun in place (R369, R370). -/
def State.rerun (s : State) (run : Nat) (irrevocable : Bool) : State :=
  let s := (s.updRun run (fun r => { r with irrevocable := irrevocable || r.irrevocable })).startRun run false
  if ((s.run? run).map (·.irrevocable)).getD false then s.awaitTokens run else s

/-- TASK_ABORT (R369). -/
def State.abort (s : State) (run : Nat) (kind : AbortTo) : State :=
  match s.run? run with
  | none => s
  | some r =>
    match kind with
    | .rerun conflict =>
      let s := s.abortCommon run none
      let n := (((s.card? r.card).map (fun c => (c.task r.task).conflicts)).getD 0) + b2n conflict
      (s.updTask r.card r.task (fun t => { t with conflicts := n })).rerun run (4 ≤ n)
    | .irrevocable => (s.abortCommon run none).rerun run true
    | .requeue lap =>
      let s := s.abortCommon run none
      let s := s.updTask r.card r.task (fun t => { t with lapIn := lap.getD t.lapIn, base := none })
      (s.requeue r.card r.task).nextOfChunk run
    | .page rec =>
      let s := s.abortCommon run (some rec)
      (s.updTask r.card r.task (fun t => { t with st := .paged rec, base := some r.base })).nextOfChunk run

/-- A fault record of a card or a dealer (R380, R461). -/
def cardRec (s : State) (die : Nat) (c : Card) (cause flags : Nat) (addr : Nat) (t : Option Task) (dealer : Option Dealer) : FRec :=
  { id := s.nid, die := die, ctx := c.ctx, key := none, addr := addr, pc := c.entry, lanes := 0, causeByte := cause, code := 0
    laneCodes := [], taskRef := (match t with | none => 0xFFFFFFFF | some t => taskRef t), core := 0, flags := flags
    serial := some c.serial, born := s.now, dealer := dealer }

/-- A predecessor counter lowered at its home (R51, R52). -/
inductive DecResult where
  | ok
  | zero
  | already
  | failed (t : Cause)
deriving DecidableEq, Repr

def State.decrement (s : State) (ctx die arec : Nat) : DecResult × State :=
  match s.translate ctx die none arec .write with
  | (.error c, s) => (.failed c, s)
  | (.ok pa, s) =>
    if s.poisoned pa 2 then (.failed .uncorrectable, s)
    else
      let n := s.cohNat pa 2
      if n = 0 then (.already, s) else (if n = 1 then .zero else .ok, s.cohPut pa 2 (n - 1))

/-- The pair a firing records in a task's entry; a fifth makes its start invalidate the L1 (R358). -/
def addPair (t : Task) (p : Nat × Nat) : Task :=
  if 4 ≤ t.pairs.length then { t with wipe := true } else { t with pairs := t.pairs ++ [p] }

/-- The die that homes a counter, where the failure of its card is found (R380). -/
def State.counterDie (s : State) (ctx die arec : Nat) : Nat :=
  match s.peek ctx die arec .read with
  | .ok pa => homeOf pa
  | .error _ => die

/-- An edge fires: its entry's lap field written and its counter lowered; the consumer becomes ready at 0 (R50, R358,
R376). The result names the card to fail, with the die that homes its counter (R52, R380), or the cause of a dealer record
(R461). -/
def State.fireEdge (s : State) (ctx die va e lap : Nat) (pair : Option (Nat × Nat)) : (Option (Nat × Nat) × Option (Cause × Nat)) × State :=
  let arec := fld e 0 56
  match s.decrement ctx die arec with
  | (.failed .uncorrectable, s) => (((s.taskAt ctx arec).map (fun (x : Card × Nat) => (x.1.id, s.counterDie ctx die arec)), none), s)
  | (.failed c, s) => ((none, some (if c = .page then .page else .perm, arec)), s)
  | (res, s) =>
    let s := match s.peek ctx die va .write with
      | .ok pa => s.cohPut pa 8 (setFld (s.cohNat pa 8) 58 4 lap)
      | .error _ => s
    match s.taskAt ctx arec with
    | none => ((none, none), s)
    | some (c, i) =>
      if res = .already then ((some (c.id, s.counterDie ctx die arec), none), s)
      else
        let s := s.updTask c.id i (fun t => { (match pair with | some p => addPair t p | none => t) with lapIn := lap, edges := nub (t.edges ++ [va]) })
        ((none, none), if res = .zero then s.makeReady c.id i else s)

/-- A dealer record posted (R461). -/
def State.postDealer (s : State) (die : Nat) (d : Dealer) (x : Cause) (addr : Nat) : State :=
  match s.card? d.card with
  | none => s
  | some c => { s with postings := s.postings ++ [cardRec s die c (x.code + 32 * b2n d.edge.isSome) 128 addr (some (c.task d.task)) (some d)]
                       nid := s.nid + 1 }

/-- CARD_FAIL (R380): its live tasks discarded, its tokens freed, a record posted, its tiles marked final, its unfired
edges fired with LAPIN 15; the edges of a task without a tile fired at its commit. Failures that the firing itself meets are
answered with the cards to fail next, and where. -/
def State.failOne (s : State) (card die : Nat) : List (Nat × Nat) × State :=
  match s.card? card with
  | none => ([], s)
  | some c =>
    if c.failed then ([], s)
    else
      let runs := s.runs.filter (fun r => r.card = card)
      let s := runs.foldl (fun s r => ((s.abortCommon r.id none).exitLanes r).freeTokens r.id) s
      let s := { s with runs := s.runs.filter (fun r => r.card ≠ card)
                        postings := s.postings ++ [cardRec s die c 14 16 0 none none], nid := s.nid + 1 }
      let live := (upto c.count).filter (fun i => (c.task i).st ≠ .retired)
      let step (acc : List (Nat × Nat) × State) (i : Nat) : List (Nat × Nat) × State :=
        let s := acc.2
        let tile := s.tileOf c die i
        let s := if tile = 0 then s else match s.peek c.ctx die ((tile + 16) % 2 ^ 64) .write with
          | .ok pa => s.cohPut pa 1 (s.cohNat pa 1 ||| 16)
          | .error _ => s
        let es := if tile = 0 ∧ (c.task i).st = .done then [] else ((s.successors c die i).getD []).filter (fun e => fld e.2 58 4 == 0)
        es.foldl (fun acc e =>
          let (r, s) := acc.2.fireEdge c.ctx die e.1 e.2 15 none
          (acc.1 ++ r.1.toList, match r.2 with
            | some (x, addr) => s.postDealer die { card := card, task := i, edge := some (e.1, e.2, 15, none) } x addr
            | none => s)) (acc.1, s)
      let (more, s) := live.foldl step ([], s)
      (more, s.updCard card (fun c => { c with failed := true, ready := [], tasks := live.foldl (fun t i => Tbl.set t i { (Tbl.get {} t i) with st := .retired }) c.tasks }))

/-- A card fails, and the cards whose counters its firing finds broken, each once (R52, R380). Every turn fails a card that
had not failed, so that there are no more turns than cards. -/
def State.failCards : Nat → List (Nat × Nat) → State → State
  | 0, _, s => s
  | n + 1, l, s => match l.filter (fun x => ((s.card? x.1).map (fun c => !c.failed)).getD false) with
    | [] => s
    | (c, die) :: cs => let (more, s) := s.failOne c die; State.failCards n (cs ++ more) s

/-- A card fails; the entries that its tasks held are free (R357, R380, R383). -/
def State.failCard (s : State) (card die : Nat) : State := (State.failCards (s.cards.length + 1) [(card, die)] s).entriesFreed

end Sys2Proof.Machine
end

