-- ==== Sys2Proof/Machine/Issue.lean ====
section
/-! DEFINITION. The issue of a heat: the selected group (R112 to R115), entry into a block (R88 to R90, R117 to R119),
safe points (R415, R429), and the frame that every instruction word shares (R94, R82, R402, R124, R395, R433).
Readings logged: DEDUCED 15, 25, 26, 31, 39, 72; DESIGN CHOICE 11, 84. -/

namespace Sys2Proof.Machine

/-- A lane that selection may choose (R111); a resumed lane waits for its marks (R405). -/
def Heat.candidate (h : Heat) (x : Lane) : Bool := x.st = .running && (x.acq.isNone || h.marksClear x)

/-- The selected group among the candidates that are not set aside: the lowest program counter, or the one that the
pacer names (R112, R115). -/
def Heat.group (h : Heat) (aside : List Nat) : List Nat :=
  let cand := (h.lanesWhere h.candidate).filter (fun l => !aside.contains l)
  let age (l : Nat) : Nat := match (h.lane l).age with | none => 0 | some t => t + 1
  let pick := if h.paced || 1024 ≤ h.starved then leastBy (fun l => age l * 2 ^ 64 + (h.lane l).pc) cand
    else leastBy (fun l => (h.lane l).pc) cand
  match pick with
  | none => []
  | some p => cand.filter (fun l => (h.lane l).pc = (h.lane p).pc)

/-- A word fetched through the die's L2, never through the L1 (R462): the newest word there is, where software has written
a resident image (log entry 84). -/
def State.fetchWord (s : State) (h : Heat) (pc : Nat) : Except Trap Nat × State :=
  match s.translate h.key.ctx (dieOf h.core) (some h.core) pc .fetch with
  | (.error c, s) => (.error { cause := c, addr := some pc, fetch := true }, s)
  | (.ok pa, s) =>
    if s.poisoned pa 8 then (.error { cause := .uncorrectable, addr := some pc, fetch := true }, s)
    else (.ok (ofBytes (((s.overlay (dieOf h.core) (pa / 64) (s.cohSector (pa / 64))).drop (pa % 64)).take 8)), s)

/-- Whether a header breaks a rule of R90 for a heat. -/
def badHeader (w budget : Nat) : Bool :=
  let a := fld w 36 4
  let b := fld w 32 4
  fld w 60 4 != 15 || fld w 52 8 == 0 || (12 ≤ a && a ≤ 14) || (12 ≤ b && b ≤ 14) || (a == b && a != 15) ||
  320 < fld w 23 9 || budget < fld w 23 9

/-- A halt begins, unless one is in force (R429, R441). -/
def State.beginHalt (s : State) (ctx : Nat) : State := s.updCtx ctx (fun c => { c with haltBegun := true })

/-- Lanes that raise causes: parked by the shared operation; a PAGE, or a task instruction's translation that fails, takes a
task that is not irrevocable out of its lanes (R369, R382, R396); a BREAK of a debug-capable kernel begins a halt (R429). -/
def raiseAll (s : State) (key : HeatKey) (pc : Nat) (ts : List (Nat × Trap)) : State :=
  let s := raise s key pc ts
  let s := if ts.any (fun t => t.2.cause = .brk) && ((s.heat? key).map (·.debug)).getD false then s.beginHalt key.ctx else s
  let paged := nub ((ts.filter (fun t => t.2.cause = .page || t.2.xlat)).filterMap (fun t =>
    (s.lane? key t.1).bind (fun x => x.task.map (fun r => (r, x.park)))))
  paged.foldl (fun s rp => match s.run? rp.1 with
    | some r => if r.irrevocable then s else s.abort rp.1 (.page rp.2)
    | none => s) s

/-- Whether a halt of its context covers a heat (R429). -/
def State.halting (s : State) (h : Heat) : Bool := h.debug && !h.service && (s.ctx h.key.ctx).halted

/-- Whether a heat's lanes are held at safe points, by suspension or because its core is fenced (R415, R447). An
irrevocable task runs on (R414). -/
def State.holding (s : State) (h : Heat) : Bool :=
  match s.unit? h.unit with
  | some u => (u.evicted || (match u.susp with | .window _ => true | _ => false)) && !(s.runs.any (fun r => r.irrevocable && r.ofHeat h))
  | none => false

/-- Every non-exited lane is held, and not all at one header: all raise ILLEGAL (R119). -/
def checkJoin (s : State) (key : HeatKey) : State :=
  match s.heat? key with
  | none => s
  | some h =>
    let live := h.lanesWhere (fun x => !x.exited)
    let pcs := nub (live.map (fun l => (h.lane l).pc))
    if live.all (fun l => (h.lane l).st = .held) ∧ 1 < pcs.length then
      pcs.foldl (fun s pc => raise s key pc ((live.filter (fun l => (h.lane l).pc = pc)).map (fun l => (l, { cause := .illegal })))) s
    else s

/-- A group whose word is at hand: a halt parks it with BREAK at a safe point, and its owed acquires are made before it
issues (R405, R429, R431). -/
def ready (s : State) (h : Heat) (ls : List Nat) (x : Iss) : State :=
  let breaks := ls.filter (fun l => !(h.lane l).noBreak)
  if bit x.word 50 && s.halting h && !breaks.isEmpty then
    raise s h.key (if x.entering then x.hdrAddr else x.pc) (breaks.map (fun l => (l, { cause := .brk })))
  else
    let s := ls.foldl (fun s l => match (h.lane l).acq with
      | none => s
      | some (o, q) => (s.acquireSeq h.key.ctx h.core o q none).updLane h.key l (fun y => { y with acq := none, pend := [] })) s
    { s with iss := some { x with lanes := ls } }

/-- Whether every lane of a heat that has not exited has reached the header at an address (R117): it is held there, or a
candidate there. -/
def Heat.allAt (h : Heat) (pc : Nat) : Bool :=
  h.lanes.all (fun x => x.exited || (x.pc == pc && x.blk.isNone && (h.candidate x || x.st = .held)))

/-- Held lanes become candidates when every lane that has not exited has reached the same header (R117). -/
def Heat.wake (h : Heat) : Heat :=
  let pc := ((h.lanes.find? (fun x => !x.exited)).map (·.pc)).getD 0
  if h.allAt pc then { h with lanes := h.lanes.map (fun x => if x.st = .held then { x with st := .running } else x) }
  else h

/-- The word at an address as its context maps it for an agent of a die, without a trace. -/
def State.peekWord (s : State) (ctx die pc : Nat) : Option Nat :=
  match s.peek ctx die pc .fetch with
  | .ok pa => some (s.viewNat die pa 8)
  | .error _ => none

/-- The candidates that stand at the header of a join-wait block are held there until every lane has reached it (R111,
R117, R118). -/
def State.gather (s : State) (h : Heat) : Heat :=
  let at_ (pc : Nat) (x : Lane) : Bool := x.pc == pc && x.blk.isNone && h.candidate x
  let pcs := (nub ((h.lanes.filter (fun x => x.blk.isNone && h.candidate x)).map (·.pc))).filter (fun pc => !(h.allAt pc))
  let joins := pcs.filter (fun pc => match s.peekWord h.key.ctx (dieOf h.core) pc with
    | some w => !(badHeader w h.budget) && bit w 0
    | none => false)
  { h with lanes := h.lanes.map (fun x => if joins.any (fun pc => at_ pc x) then { x with st := .held } else x) }

/-- Whether an address is the run-on target of a block in which lanes are parked (R118). -/
def Heat.runonAt (h : Heat) (pc : Nat) : Bool := h.dropRunon.runon.any (fun r => r.2 == pc)

/-- The selection of a heat's group and its word (R112). The lanes in `aside` are held at safe points. -/
def prepare : Nat → HeatKey → List Nat → State → State
  | 0, _, _, s => s
  | n + 1, key, aside, s =>
    let s := checkJoin (s.updHeat key (fun h => (s.gather h).wake)) key
    match s.heat? key with
    | none => s
    | some h =>
      match h.group aside with
      | [] =>
        -- yielded lanes alone: cleared (R114)
        if h.lanes.any (fun x => x.st = .yielded) then
          prepare n key aside (s.updHeat key (fun h => { h with lanes := h.lanes.map (fun x => if x.st = .yielded then { x with st := .running } else x) }))
        else s
      | l :: ls =>
        let x := h.lane l
        let all := l :: ls
        let atHeader := all.filter (fun l => (h.lane l).blk.isNone)
        if !atHeader.isEmpty then
          match s.fetchWord h x.pc with
          | (.error t, s) => raiseAll s key x.pc (atHeader.map (fun l => (l, t)))
          | (.ok w, s) =>
            if badHeader w h.budget then raise s key x.pc (atHeader.map (fun l => (l, { cause := .illegal })))
            else if !(bit w 0) && h.runonAt x.pc then
              raise s key x.pc (atHeader.map (fun l => (l, { cause := .illegal })))
            else if bit w 0 && !(h.allAt x.pc) then
              -- the header became one since the lanes were gathered
              prepare n key aside (s.updHeat key (fun h => atHeader.foldl (fun h l => h.updLane l (fun y => { y with st := .held })) h))
            else if !(h.flagsClear (fld w 40 12)) then s
            else
                let group := atHeader
                match s.fetchWord h (x.pc + 8) with
                | (.error t, s) =>
                  let s := s.updHeat key (fun h => group.foldl (fun h l => h.updLane l (fun y => { y with pc := x.pc + 8, blk := some (x.pc, w) })) h)
                  raiseAll s key (x.pc + 8) (group.map (fun l => (l, t)))
                | (.ok i, s) =>
                  if bit i 50 && s.holding h then prepare n key (aside ++ group) s
                  else ready s h group { key := key, lanes := group, pc := x.pc + 8, hdrAddr := x.pc, hdr := w, entering := true, word := i, aside := aside }
        else
          let group := all.filter (fun l => (h.lane l).blk = x.blk)
          -- a run-on target that is a word inside a block is no header (R90)
          if h.runonAt x.pc then raise s key x.pc (all.map (fun l => (l, { cause := .illegal })))
          else match s.fetchWord h x.pc with
          | (.error t, s) => raiseAll s key x.pc (group.map (fun l => (l, t)))
          | (.ok i, s) =>
            if bit i 50 && s.holding h then prepare n key (aside ++ group) s
            else
              let b := x.blk.getD (0, 0)
              ready s h group { key := key, lanes := group, pc := x.pc, hdrAddr := b.1, hdr := b.2, entering := false, word := i, aside := aside }

/-- Whether a lane stands at a safe point: the next word it would issue has its stop bit set (R415). -/
def State.atSafe (s : State) (ctx die : Nat) (x : Lane) : Bool :=
  match s.peekWord ctx die (if x.blk.isNone then (x.pc + 8) % 2 ^ 64 else x.pc) with
  | some w => bit w 50
  | none => false

/-- Whether a lane is at rest (R415). -/
def State.atRest (s : State) (ctx die : Nat) (x : Lane) : Bool :=
  match x.st with
  | .exited | .parked | .blocked _ | .held => true
  | .running => s.atSafe ctx die x
  | .yielded => false

/-- Whether a halt of a context is complete: every covered lane is at rest (R430). -/
def State.haltDone (s : State) (ctx : Nat) : Bool :=
  (s.ctx ctx).halted && (s.heats.filter (fun h => h.key.ctx = ctx ∧ h.debug ∧ h.service = false ∧ h.saved = false)).all
    (fun h => (s.gather h).lanes.all (s.atRest ctx (dieOf h.core)))

/-- Whether a heat may issue at all: resident, started, with nothing that it waits for (R80, R281, R410, R441). -/
def State.heatReady (s : State) (h : Heat) : Bool :=
  (match h.busy with
    | none => true
    | some .halt => s.haltDone h.key.ctx || !((s.ctx h.key.ctx).haltBegun)
    | some _ => false) &&
  !h.saved && !h.retired && (match s.unit? h.unit with | some u => u.started && !u.saved | none => false)

/-! The frame of an instruction word. -/

/-- What the body of an instruction sees: the heat after entry into the block, active(), and the state to return to when
the group stalls. -/
structure Env where
  i : Instr
  com : Com
  key : HeatKey
  h : Heat
  act : List Nat
  mask : Nat
  issuing : List Nat
  pc : Nat
  hdrAddr : Nat
  hdr : Nat
  flag : Nat
  base : State
  aside : List Nat := []
deriving Repr

def Env.ctx (e : Env) : Nat := e.key.ctx
def Env.core (e : Env) : Nat := e.h.core
def Env.die (e : Env) : Nat := dieOf e.h.core

/-- What the body has done so far: lanes that raise causes, lanes whose program counter and state it has settled, a
stall, and whether the undo log cannot reverse it (R433). -/
structure Work where
  s : State
  traps : List (Nat × Trap) := []
  stay : List Nat := []
  stall : Bool := false
  irrev : Bool := false
deriving Repr

def Work.trap (w : Work) (l : Nat) (t : Trap) : Work := { w with traps := w.traps ++ [(l, t)] }
def Work.trapAll (w : Work) (ls : List Nat) (t : Trap) : Work := { w with traps := w.traps ++ ls.map (fun l => (l, t)) }
def Work.hold (w : Work) (l : Nat) : Work := { w with stay := w.stay ++ [l] }

/-- The group does not issue in this clock (R113): the state is what it was, but for what `f` records. -/
def Work.stallWith (e : Env) (f : State → State) : Work := { s := f e.base, stall := true }

/-- The lane blocks at the word (R111). -/
def Work.block (w : Work) (e : Env) (l : Nat) (x : Wait) : Work :=
  { w with s := w.s.updLane e.key l (fun y => { y with st := .blocked x }), stay := w.stay ++ [l] }

/-- Entry into the block: the lanes leave the header, and their marks on the waited flags are cleared (R112, R123). -/
def enterBlock (s : State) (x : Iss) : State :=
  if x.entering then s.updHeat x.key (fun h =>
    (x.lanes.foldl (fun h l => h.updLane l (fun y => { y with pc := x.pc, blk := some (x.hdrAddr, x.hdr) })) h).unmark x.lanes (fld x.hdr 40 12))
  else s

/-- Whether the undo log can reverse an instruction by its row alone (R433). -/
def reversible (i : Instr) : Bool :=
  let op := Instr.opcode i
  match i with
  | .waita _ _ _ _ _ _ _ _ acq => acq.isNone
  | .heldTest .. | .heldList .. => true
  | .stsr .. | .sts .. | .st .. | .stg .. => false
  | _ => op < 0x80 || op == 0x83

/-- The undo entry of an issue (R433). -/
def undoEntry (h : Heat) (ls : List Nat) (i : Instr) (rev : Bool) : Undo :=
  { lanes := ls.map (fun l => let x := h.lane l
      { lane := l, pc := x.pc, blk := x.blk, depth := x.depth, pend := x.pend
        v := (nub (Instr.destV i)).map (fun n => (n, Tbl.get 0 x.v n)), p := x.p })
    k := (nub (Instr.destK i)).map (fun n => (n, Tbl.get 0 h.k n)), kpend := h.kpend, fcnt := h.fcnt, nflags := h.nflags
    reversible := rev }

/-- The counts of an issue: ages, yields, the starved count and the undo log (R114, R115, R433). -/
def account (h0 : Heat) (issuing aside : List Nat) (now : Nat) (i : Instr) (rev : Bool) (h : Heat) : Heat :=
  let missed := (h0.lanesWhere h0.candidate).filter (fun l => !(issuing.contains l) && !(aside.contains l))
  { h with
    lanes := (upto h.lanes.length).zip h.lanes |>.map (fun e =>
      if issuing.contains e.1 then { e.2 with age := some now, noBreak := false }
      else if e.2.st = .yielded then { e.2 with st := .running } else e.2)
    starved := if missed.isEmpty || h0.paced || 1024 ≤ h0.starved then 0 else h.starved + 1
    paced := false
    fence := none
    lastIssue := some now
    undo := if h.debug then (undoEntry h0 issuing i rev :: h.undo).take 4096 else h.undo }

/-- The end of an issue: traps are raised once, the other lanes move to the next word, and a clock passes. -/
def finish (e : Env) (h0 : Heat) (w : Work) : State :=
  if w.stall then { w.s with iss := none, now := w.s.now + 1 }
  else
    let ts := e.issuing.filterMap (fun l => (w.traps.find? (fun t => t.1 = l)))
    let s := w.s.updHeat e.key (fun h =>
      let h := (e.issuing.filter (fun l => !(w.stay.contains l) && !(w.traps.any (fun t => t.1 == l)))).foldl
        (fun h l => h.updLane l Lane.advance) h
      account h0 e.issuing e.aside w.s.now e.i (reversible e.i && !w.irrev) h)
    let s := if ts.isEmpty then s else raiseAll s e.key e.pc ts
    let s := s.settleBars e.key
    { s with iss := none, now := s.now + 1 }

/-- Whether a word breaks a decode rule in its block: a term that no word encodes, a register at or above the high-water,
or a long-latency word whose flag is none (R91, R94). -/
def decodeTrap (i : Instr) (hdr : Nat) : Bool :=
  !i.wf || (Instr.namedV i).any (fun n => fld hdr 23 9 ≤ n) || (Instr.long i && flagOf hdr (Dec.com (encode i)) == 15)

/-- The frame of every instruction word: ILLEGAL and ROLE in every issuing lane, ILLEGAL in the active lanes of a word that
reads what cannot be read, a stall at a full flag, PRIV in every active lane, HAZARD lane by lane, and then the body (R94,
R82, R98, R122, R402, R124, R395). -/
def issue (i : Instr) (s : State) (body : Env → Work → Work) : Host.Outcome State Fault Refusal :=
  match s.iss with
  | none => .next s
  | some x =>
    match s.heat? x.key with
    | none => .next { s with iss := none }
    | some h0 =>
      let base := { s with iss := none }
      let s1 := enterBlock base x
      let h := (s1.heat? x.key).getD h0
      let c := Dec.com (encode i)
      let act0 := x.lanes.filter (fun l => (h.lane l).guard c)
      let hazard := act0.filter (fun l => h.hazard l (Instr.namedV i) (Instr.namedK i))
      let flag := flagOf x.hdr c
      let e : Env := { i := i, com := c, key := x.key, h := h, act := act0.filter (fun l => !hazard.contains l)
                       mask := maskOf act0, issuing := x.lanes, pc := x.pc, hdrAddr := x.hdrAddr, hdr := x.hdr, flag := flag, base := base, aside := x.aside }
      let w : Work := { s := s1 }
      .next (finish e h0 (
        if decodeTrap i x.hdr then w.trapAll x.lanes { cause := .illegal }
        else if roleAllows h.role (Instr.opcode i) = false then
          (if Instr.unreadable i then w.trapAll act0 { cause := .illegal } else w).trapAll x.lanes { cause := .role }
        else if Instr.unreadable i && !act0.isEmpty then w.trapAll act0 { cause := .illegal }
        else if Instr.long i && Tbl.get 0 h.fcnt flag == 63 then Work.stallWith e id
        else if Instr.privileged i && !h.service then w.trapAll act0 { cause := .priv }
        else body e (w.trapAll hazard { cause := .hazard })))

/-- The issue of a word that is no instruction: every issuing lane raises ILLEGAL (R94, R103). -/
def issueIllegal (s : State) : State :=
  match s.iss with
  | none => s
  | some x => match s.heat? x.key with
    | none => { s with iss := none }
    | some h0 =>
      let base := { s with iss := none }
      let s1 := enterBlock base x
      let i : Instr := .nop { guard := 12, neg := false, stop := false, flagB := false }
      let e : Env := { i := i, com := Dec.com (encode i), key := x.key, h := (s1.heat? x.key).getD h0, act := [], mask := 0
                       issuing := x.lanes, pc := x.pc, hdrAddr := x.hdrAddr, hdr := x.hdr, flag := 15, base := base, aside := x.aside }
      finish e h0 ({ s := s1 : Work }.trapAll x.lanes { cause := .illegal })

/-- A body that computes a result for each active lane from the state at issue and writes it (R165). The function gives
the destination's value and the lane's flags. -/
def Env.compute (e : Env) (wide : Bool) (d : Dst) (f : Nat → Nat × Nat) (w : Work) : Work :=
  let rs := e.act.map (fun l => (l, f l))
  let s := w.s.updHeat e.key (fun h => h.setAll wide d (rs.map (fun r => (r.1, r.2.1))))
  { w with s := rs.foldl (fun s r => s.mergeFlags e.key r.1 r.2.2) s }

/-- A source of the issuing heat read for a lane. -/
def Env.srcT (e : Env) (t : Ty) (x : Src) (l : Nat) : Nat := Sys2Proof.Machine.srcT e.base e.h e.mask l t x
def Env.src32 (e : Env) (x : Src) (l : Nat) : Nat := Sys2Proof.Machine.src32 e.base e.h e.mask l x
def Env.src64 (e : Env) (x : Src) (l : Nat) : Nat := Sys2Proof.Machine.src64 e.base e.h e.mask l x
def Env.rb (e : Env) (x : Option Src) (l : Nat) : Nat := match x with | none => 0 | some x => e.src32 x l

end Sys2Proof.Machine
end

