-- ==== Sys2Proof/Machine/Control.lean ====
section
/-! DEFINITION. Control instructions (R125, R126, R130 to R137).
Readings logged: DEDUCED 29. -/

namespace Sys2Proof.Machine

abbrev Result := Host.Outcome State Fault Refusal

/-- The lanes in active(), ascending, each acting in turn. -/
def Env.each (e : Env) (f : Work → Nat → Work) (w : Work) : Work := e.act.foldl f w

/-- A lane sent to a transfer target (R137). -/
def Work.goto (w : Work) (e : Env) (l t : Nat) (f : Lane → Lane) : Work :=
  { w with s := w.s.updLane e.key l (fun x => (f x).goto t) }.hold l

/-- The check of R126 on a target address. -/
def targetTrap (t : Nat) : Option Trap :=
  if t % 8 ≠ 0 then some { cause := .align, addr := some t } else if !(canonical t) then some { cause := .perm, addr := some t } else none

/-- The target of a branch, in words from the branch word (R136). -/
def Env.branchTarget (e : Env) (off : Int) : Nat := low 64 ((e.pc : Int) + 8 * off)

/-- The return point of a call: the header that follows the calling block (R125). -/
def Env.returnPoint (e : Env) : Nat := low 64 ((e.hdrAddr : Int) + 8 * (fld e.hdr 52 8 + 1))

/-- NOP (R131). -/
def execNop (c : Com) (s : State) : Result := issue (.nop c) s (fun _ w => w)

/-- YIELD (R114, R132). -/
def execYield (c : Com) (s : State) : Result := issue (.yield c) s (fun e w =>
  -- the lanes yielded before are cleared by this issue, these lanes are yielded by it
  e.each (fun w l => { w with s := w.s.updLane e.key l (fun x => { x.advance with st := .yielded }) }.hold l) w)

/-- WAITF (R133). -/
def execWaitf (c : Com) (mask : Nat) (s : State) : Result := issue (.waitf c mask) s (fun e w =>
  if e.h.flagsClear mask then { w with s := w.s.updHeat e.key (fun h => h.unmark e.act mask) }
  else Work.stallWith e id)

/-- TRAP (R134). -/
def execTrap (c : Com) (code : Nat) (a : Option Src) (s : State) : Result := issue (.trap c code a) s (fun e w =>
  e.each (fun w l => w.trap l { cause := .trap, code := code, val := e.rb a l }) w)

/-- BRA (R136). -/
def execBra (c : Com) (off : Int) (s : State) : Result := issue (.bra c off) s (fun e w =>
  e.each (fun w l => w.goto e l (e.branchTarget off) id) w)

/-- BRX (R136). -/
def execBrx (c : Com) (a : Src) (s : State) : Result := issue (.brx c a) s (fun e w =>
  e.each (fun w l =>
    let t := e.src64 a l
    match targetTrap t with
    | some x => w.trap l x
    | none => w.goto e l t id) w)

/-- A call's effect on a lane: the link pair, the depth and the transfer (R125, R136). -/
def Work.call (w : Work) (e : Env) (l link t : Nat) : Work :=
  if (e.h.lane l).depth = 255 then w.trap l { cause := .callDepth }
  else w.goto e l t (fun x => { x.setV64 link e.returnPoint with depth := x.depth + 1 })

/-- CALL (R136). -/
def execCall (c : Com) (link : Nat) (off : Int) (s : State) : Result := issue (.call c link off) s (fun e w =>
  e.each (fun w l => w.call e l link (e.branchTarget off)) w)

/-- CALLX (R136). -/
def execCallx (c : Com) (link : Nat) (s : State) : Result := issue (.callx c link) s (fun e w =>
  e.each (fun w l =>
    let t := e.src64 (.v link) l
    match targetTrap t with
    | some x => w.trap l x
    | none => w.call e l link t) w)

/-- The colours of a held set that a predicate picks and whose release is not pending, innermost first (R337). -/
def Lane.toRelease (x : Lane) (p : HeldC → Bool) : List Nat :=
  ((x.held.filter (fun c => p c && !c.pending)).map (·.colour)).reverse

/-- RET (R136, R337); in a task the colours of the frame are marked release pending (R344). -/
def execRet (c : Com) (a : Src) (s : State) : Result := issue (.ret c a) s (fun e w =>
  e.each (fun w l =>
    let t := e.src64 a l
    let x := e.h.lane l
    match targetTrap t with
    | some t => w.trap l t
    | none =>
      if x.depth = 0 then w.trap l { cause := .callDepth }
      else if x.task.isSome then
        w.goto e l t (fun x => { x with depth := x.depth - 1, held := x.held.map (fun c => if c.depth = x.depth then { c with pending := true } else c) })
      else
        let cs := x.toRelease (fun c => c.depth == x.depth)
        ({ w with s := w.s.releaseColours e.key l (some t) cs, irrev := w.irrev || !cs.isEmpty } : Work).hold l) w)

/-- EXIT (R136, R137). -/
def execExit (c : Com) (s : State) : Result := issue (.exit c) s (fun e w =>
  e.each (fun w l =>
    match (w.s.lane? e.key l).bind (·.task) with
    | some r => match w.s.run? r with
      | some r =>
        if r.irrevocable then w.trap l { cause := .perm }
        else ({ w with s := w.s.failCard r.card e.die, irrev := true } : Work).hold l
      | none => w.hold l
    | none =>
      if ((w.s.lane? e.key l).map Lane.exited).getD true then w.hold l
      else
        let cs := (e.h.lane l).toRelease (fun _ => true)
        ({ w with s := w.s.releaseColours e.key l none cs, irrev := w.irrev || !cs.isEmpty } : Work).hold l) w)

end Sys2Proof.Machine
end

