-- ==== Sys2Proof/Machine/FP.lean ====
section
/-! DEFINITION. Number formats, exact values and rounding (R109, R147 to R156), and the elementary functions of R181.
Readings logged: DEDUCED 19, 20. -/

namespace Sys2Proof.Machine

/-- A binary format (R147): precision with the hidden bit, exponent of the least normal, the greatest finite magnitude as
a code, the code of infinity where there is one, the canonical NaN, and the width. -/
structure Fmt where
  p : Nat
  emin : Int
  g : Nat
  inf : Option Nat
  nan : Nat
  width : Nat
deriving DecidableEq, Repr

def fmtF32 : Fmt := { p := 24, emin := -126, g := 0x7F7FFFFF, inf := some 0x7F800000, nan := 0x7FC00000, width := 32 }
def fmtBf16 : Fmt := { p := 8, emin := -126, g := 0x7F7F, inf := some 0x7F80, nan := 0x7FC0, width := 16 }
def fmtE4m3 : Fmt := { p := 4, emin := -6, g := 0x7E, inf := none, nan := 0x7F, width := 8 }
def fmtE5m2 : Fmt := { p := 3, emin := -14, g := 0x7B, inf := some 0x7C, nan := 0x7E, width := 8 }

/-- An exact value: a NaN, an infinity, or a sign and magnitude m × 2^e, a little more when `sticky`. A sticky value
carries more than sixteen bits beyond any grid on which it is rounded. -/
inductive FV where
  | nan (signalling : Bool)
  | inf (neg : Bool)
  | fin (neg : Bool) (m : Nat) (e : Int) (sticky : Bool)
deriving DecidableEq, Repr

/-- The magnitude of a finite code: significand and exponent (R147). -/
def Fmt.mag (f : Fmt) (c : Nat) : Nat × Int :=
  let h := 2 ^ (f.p - 1)
  if c < h then (c, f.emin - (f.p - 1 : Nat)) else (h + c % h, f.emin - (f.p - 1 : Nat) + (c / h - 1 : Nat))

/-- The value of a code (R147, R149). -/
def Fmt.decode (f : Fmt) (w : Nat) : FV :=
  let c := w % 2 ^ (f.width - 1)
  let neg := bit w (f.width - 1)
  if c ≤ f.g then .fin neg (f.mag c).1 (f.mag c).2 false
  else if f.inf = some c then .inf neg
  else .nan (16 ≤ f.width && !(bit c (f.p - 2)))

/-- The sign bit of a format. -/
def Fmt.sign (f : Fmt) (neg : Bool) : Nat := b2n neg * 2 ^ (f.width - 1)

/-- The flags that the NaN operands of an instruction raise (R154). -/
def nanFlags (xs : List FV) : Nat := xs.foldl (fun w x => match x with
  | .nan sig => w ||| fNANIN ||| b2n sig * fIV
  | _ => w) 0

def FV.isNan : FV → Bool
  | .nan _ => true
  | _ => false

/-- overflow() of R152: the code and the flags. -/
def Fmt.overflow (f : Fmt) (neg : Bool) (mode : Rnd) (sat : Bool) : Nat × Nat :=
  match f.inf with
  | none => (f.sign neg + f.g, fOF ||| fIX ||| fSAT)
  | some i =>
    if sat then (f.sign neg + f.g, fOF ||| fIX ||| fSAT)
    else
      let toG := match mode with | .rn | .rs => false | .rz => true | .ru => neg | .rd => !neg
      (f.sign neg + (if toG then f.g else i), fOF ||| fIX)

/-- The choice between a and b of R109: whether to step away from zero. The fraction is r / 2^k and a little more when
`sticky`. -/
def stepUp (mode : Rnd) (rb : Nat) (neg odd : Bool) (r k : Nat) (sticky : Bool) : Bool :=
  if r = 0 && !sticky then false
  else match mode with
    | .rn => 2 ^ k < 2 * r || (2 * r == 2 ^ k && (sticky || odd))
    | .rz => false
    | .ru => !neg
    | .rd => neg
    | .rs => rb % 2 ^ 16 < r * 65536 / 2 ^ k

/-- A magnitude on a grid of spacing 2^q: the part below and above the grid point, as quotient, remainder and shift. -/
def onGrid (m : Nat) (e q : Int) : Nat × Nat × Nat :=
  if q ≤ e then (m * 2 ^ (e - q).toNat, 0, 0)
  else let k := (q - e).toNat
    (m / 2 ^ k, m % 2 ^ k, k)

/-- round() of R109 with R152 and R156 for a finite exact value: the code and the flags. -/
def Fmt.round (f : Fmt) (mode : Rnd) (rb : Nat) (sat neg : Bool) (m : Nat) (e : Int) (sticky : Bool) : Nat × Nat :=
  if m = 0 then (f.sign neg, 0)
  else
    let top : Int := (m.log2 : Nat) + e
    let sub : Int := f.emin - (f.p - 1 : Nat)
    let q : Int := max (top - (f.p - 1 : Nat)) sub
    let (a, r, k) := onGrid m e q
    let inexact := r != 0 || sticky
    let y := if stepUp mode rb neg (a % 2 == 1) r k sticky then a + 1 else a
    -- the code of y on the extended grid
    let code := y + (q - sub).toNat * 2 ^ (f.p - 1)
    if f.g < code then f.overflow neg mode sat
    else (f.sign neg + code, b2n inexact * fIX ||| b2n (inexact && top < f.emin) * fUF)

/-- A value written in a format: NaN canonical, infinity kept, or clamped where the format has none (R149, R185). -/
def Fmt.encode (f : Fmt) (mode : Rnd) (rb : Nat) (sat : Bool) (x : FV) : Nat × Nat :=
  match x with
  | .nan _ => (f.nan, 0)
  | .inf neg => match f.inf with
    | some i => (f.sign neg + i, 0)
    | none => (f.sign neg + f.g, fSAT)
  | .fin neg m e st => f.round mode rb sat neg m e st

/-! Exact arithmetic. -/

/-- A finite value as an integer at an exponent. -/
def atExp (neg : Bool) (m : Nat) (e e0 : Int) : Int := (if neg then -1 else 1) * (m * 2 ^ (e - e0).toNat : Nat)

/-- The exact sum of two finite values (R153). -/
def addFin (mode : Rnd) (n1 : Bool) (m1 : Nat) (e1 : Int) (n2 : Bool) (m2 : Nat) (e2 : Int) : FV :=
  let e0 := min e1 e2
  let z := atExp n1 m1 e1 e0 + atExp n2 m2 e2 e0
  if z = 0 then .fin (if m1 = 0 ∧ m2 = 0 ∧ n1 = n2 then n1 else mode = .rd) 0 e0 false
  else .fin (z < 0) z.natAbs e0 false

/-- x + y with the invalid cases of R154: the value and IV. -/
def addV (mode : Rnd) (x y : FV) : FV × Nat :=
  match x, y with
  | .nan s, _ => (.nan s, 0)
  | _, .nan s => (.nan s, 0)
  | .inf a, .inf b => if a = b then (.inf a, 0) else (.nan false, fIV)
  | .inf a, _ => (.inf a, 0)
  | _, .inf b => (.inf b, 0)
  | .fin a m e _, .fin b n k _ => (addFin mode a m e b n k, 0)

def FV.neg : FV → FV
  | .inf n => .inf (!n)
  | .fin n m e s => .fin (!n) m e s
  | x => x

/-- x × y (R154). -/
def mulV (x y : FV) : FV × Nat :=
  match x, y with
  | .nan s, _ => (.nan s, 0)
  | _, .nan s => (.nan s, 0)
  | .inf a, .inf b => (.inf (a != b), 0)
  | .inf a, .fin b m _ _ => if m = 0 then (.nan false, fIV) else (.inf (a != b), 0)
  | .fin a m _ _, .inf b => if m = 0 then (.nan false, fIV) else (.inf (a != b), 0)
  | .fin a m e _, .fin b n k _ => (.fin (a != b) (m * n) (e + k) false, 0)

/-- The integer square root, bit by bit from bit k - 1. -/
def isqrt (n : Nat) : Nat → Nat → Nat
  | 0, r => r
  | k + 1, r => isqrt n k (if (r + 2 ^ k) * (r + 2 ^ k) ≤ n then r + 2 ^ k else r)

/-- m1 / m2 × 2^e with 70 bits of quotient, m2 not 0. -/
def divFin (neg : Bool) (m1 m2 : Nat) (e : Int) : FV :=
  let k := 70 + m2.log2
  .fin neg (m1 * 2 ^ k / m2) (e - (k : Nat)) (m1 * 2 ^ k % m2 != 0)

/-- x / y (R154, R176): the value, with IV or DZ. -/
def divV (x y : FV) : FV × Nat :=
  match x, y with
  | .nan s, _ => (.nan s, 0)
  | _, .nan s => (.nan s, 0)
  | .inf _, .inf _ => (.nan false, fIV)
  | .inf a, .fin b _ _ _ => (.inf (a != b), 0)
  | .fin a _ _ _, .inf b => (.fin (a != b) 0 0 false, 0)
  | .fin a m e _, .fin b n k _ =>
    if n = 0 then (if m = 0 then (.nan false, fIV) else (.inf (a != b), fDZ))
    else if m = 0 then (.fin (a != b) 0 0 false, 0)
    else (divFin (a != b) m n (e - k), 0)

/-- √x (R154, R176). -/
def sqrtV (x : FV) : FV × Nat :=
  match x with
  | .nan s => (.nan s, 0)
  | .inf n => if n then (.nan false, fIV) else (.inf false, 0)
  | .fin n m e _ =>
    if m = 0 then (.fin n 0 0 false, 0)
    else if n then (.nan false, fIV)
    else
      let k : Nat := 100 + (if e % 2 = 0 then 0 else 1)
      let w := m * 2 ^ k
      let r := isqrt w 72 0
      (.fin false r ((e - (k : Nat)) / 2) (r * r != w), 0)

/-- 1 / √x (R181). -/
def rsqrtV (x : FV) : FV × Nat :=
  match x with
  | .nan s => (.nan s, 0)
  | .inf n => if n then (.nan false, fIV) else (.fin false 0 0 false, 0)
  | .fin n m e _ =>
    if m = 0 then (.inf n, fDZ)
    else if n then (.nan false, fIV)
    else
      let m' := if e % 2 = 0 then m else 2 * m
      let e' := if e % 2 = 0 then e else e - 1
      let r := isqrt (2 ^ 200 / m') 101 0
      (.fin false r (-(e' / 2) - 100) (r * r * m' != 2 ^ 200), 0)

/-! The elementary functions in fixed point, 192 bits after the point. -/

def fxW : Nat := 192

/-- ln 2 as the sum of 1 / (k 2^k). -/
def ln2Sum : Nat → Nat
  | 0 => 0
  | k + 1 => 2 ^ fxW / ((k + 1) * 2 ^ (k + 1)) + ln2Sum k

def ln2Fx : Nat := ln2Sum 200

/-- The sum of n terms of the exponential series: t is the current term, x the argument. -/
def expTerms (x : Nat) : Nat → Nat → Nat → Nat
  | 0, _, _ => 0
  | n + 1, k, t => t + expTerms x n (k + 1) (t * x / 2 ^ fxW / (k + 1))

/-- e^x for 0 ≤ x < 1. -/
def expFx (x : Nat) : Nat := expTerms x 60 0 (2 ^ fxW)

/-- Squaring n times. -/
def squareFx : Nat → Nat → Nat
  | 0, x => x
  | n + 1, x => squareFx n (x * x / 2 ^ fxW)

/-- The sum of n terms z^(2k+1) / (2k+1). -/
def atanhTerms (zz : Nat) : Nat → Nat → Nat → Nat
  | 0, _, _ => 0
  | n + 1, k, t => t / (2 * k + 1) + atanhTerms zz n (k + 1) (t * zz / 2 ^ fxW)

/-- ln of m / 2^b for 1 ≤ m / 2^b < 2. -/
def lnFx (m b : Nat) : Nat :=
  let z := (m - 2 ^ b) * 2 ^ fxW / (m + 2 ^ b)
  2 * atanhTerms (z * z / 2 ^ fxW) 64 0 z

/-- m × 2^e in fixed point, for values whose bits all lie in it. -/
def toFx (m : Nat) (e : Int) : Nat := (onGrid m e (-(fxW : Nat))).1

/-- 2^x for finite x below 128 and above -150 (R181). -/
def exp2V (neg : Bool) (m : Nat) (e : Int) : FV :=
  if (m.log2 : Int) + e < -30 then
    (if neg then .fin false (2 ^ 60 - 1) (-60) true else .fin false (2 ^ 60) (-60) true)
  else
    let x : Int := (if neg then -1 else 1) * (toFx m e : Nat)
    let n := x / (2 ^ fxW : Nat)
    let f := (x % (2 ^ fxW : Nat)).toNat
    if f = 0 then .fin false 1 n false
    else .fin false (expFx (f * ln2Fx / 2 ^ fxW) / 2 ^ 40) (n - (fxW - 40 : Nat)) true

/-- log2 of a positive finite value that is no power of two (R181). -/
def log2V (m : Nat) (e : Int) : FV :=
  let b := m.log2
  if m = 2 ^ b then
    let k := (b : Int) + e
    .fin (k < 0) k.natAbs 0 false
  else
    let x : Int := ((b : Int) + e) * (2 ^ fxW : Nat) + (lnFx m b * 2 ^ fxW / ln2Fx : Nat)
    .fin (x < 0) (x.natAbs / 2 ^ 40) (-(fxW - 40 : Nat)) true

/-- tanh of a finite nonzero value (R181). -/
def tanhV (neg : Bool) (m : Nat) (e : Int) : FV :=
  let top := (m.log2 : Int) + e
  if top < -30 then .fin neg (m * 2 ^ 60 - 1) (e - 60) true
  else if 4 ≤ top then .fin neg (2 ^ 60 - 1) (-60) true
  else
    -- y = e^(-2x) = 1 / (e^(x/32))^64
    let g := squareFx 6 (expFx (toFx m e / 32))
    let y := 2 ^ (2 * fxW) / g
    .fin neg ((2 ^ fxW - y) * 2 ^ fxW / (2 ^ fxW + y) / 2 ^ 40) (-(fxW - 40 : Nat)) true

/-! Integers. -/

/-- A finite value rounded to an integer by a mode: the magnitude, and whether it differs (R180, R184). -/
def roundInt (mode : Rnd) (rb : Nat) (neg : Bool) (m : Nat) (e : Int) : Nat × Bool :=
  let (a, r, k) := onGrid m e 0
  (if stepUp mode rb neg (a % 2 == 1) r k false then a + 1 else a, r != 0)

/-- rbits() of R155. -/
def rbits (r j : Nat) : Nat := (r / 2 ^ (4 * j) + r * 2 ^ (32 - 4 * j)) % 2 ^ 32

/-- The flags of an operation over NaN operands, and its rounded value (R154). -/
def Fmt.result (f : Fmt) (mode : Rnd) (rb : Nat) (sat : Bool) (xs : List FV) (v : FV × Nat) : Nat × Nat :=
  let y := f.encode mode rb sat v.1
  (y.1, y.2 ||| v.2 ||| nanFlags xs)

/-- x + y in a format (R176). -/
def Fmt.add (f : Fmt) (mode : Rnd) (rb : Nat) (sat : Bool) (x y : Nat) : Nat × Nat :=
  let a := f.decode x
  let b := f.decode y
  f.result mode rb sat [a, b] (addV mode a b)

/-- x - y. -/
def Fmt.sub (f : Fmt) (mode : Rnd) (rb : Nat) (sat : Bool) (x y : Nat) : Nat × Nat :=
  let a := f.decode x
  let b := f.decode y
  f.result mode rb sat [a, b] (addV mode a b.neg)

/-- x × y. -/
def Fmt.mul (f : Fmt) (mode : Rnd) (rb : Nat) (sat : Bool) (x y : Nat) : Nat × Nat :=
  let a := f.decode x
  let b := f.decode y
  f.result mode rb sat [a, b] (mulV a b)

/-- x × y + z, with one rounding (R176). -/
def Fmt.fma (f : Fmt) (mode : Rnd) (rb : Nat) (sat : Bool) (x y z : Nat) : Nat × Nat :=
  let a := f.decode x
  let b := f.decode y
  let c := f.decode z
  let p := mulV a b
  let v := addV mode p.1 c
  f.result mode rb sat [a, b, c] (v.1, v.2 ||| p.2)

/-- x / y. -/
def Fmt.div (f : Fmt) (mode : Rnd) (rb : Nat) (sat : Bool) (x y : Nat) : Nat × Nat :=
  let a := f.decode x
  let b := f.decode y
  f.result mode rb sat [a, b] (divV a b)

/-- The order of codes in which -0 lies below +0 (R177). -/
def Fmt.order (f : Fmt) (w : Nat) : Int :=
  let c := w % 2 ^ (f.width - 1)
  if bit w (f.width - 1) then -1 - (c : Int) else (c : Int)

/-- FMIN and FMAX in a format (R177). -/
def Fmt.minMax (f : Fmt) (max nan : Bool) (x y : Nat) : Nat × Nat :=
  let a := f.decode x
  let b := f.decode y
  let fl := nanFlags [a, b]
  let v := match a.isNan, b.isNan with
    | true, true => f.nan
    | true, false => if nan then f.nan else y % 2 ^ f.width
    | false, true => if nan then f.nan else x % 2 ^ f.width
    | false, false => if (if max then f.order y ≤ f.order x else f.order x ≤ f.order y) then x % 2 ^ f.width else y % 2 ^ f.width
  (v, fl)

/-- FCLASS (R179). -/
def Fmt.classOf (f : Fmt) (w : Nat) : Nat :=
  let c := w % 2 ^ (f.width - 1)
  let neg := bit w (f.width - 1)
  match f.decode w with
  | .nan sig => if sig then 2 ^ 8 else 2 ^ 9
  | .inf n => if n then 1 else 2 ^ 7
  | .fin _ _ _ _ =>
    if c = 0 then (if neg then 2 ^ 3 else 2 ^ 4)
    else if c < 2 ^ (f.p - 1) then (if neg then 2 ^ 2 else 2 ^ 5)
    else if neg then 2 ^ 1 else 2 ^ 6

/-- The formats of R147 by type code; .e8m0 apart. -/
def fmtOf : Ty → Fmt
  | .bf16 => fmtBf16
  | .e4m3 => fmtE4m3
  | .e5m2 => fmtE5m2
  | _ => fmtF32

/-- A decoded value scaled by a power of two. -/
def FV.scale (x : FV) (k : Int) : FV :=
  match x with
  | .fin n m e s => .fin n m (e + k) s
  | x => x

/-- An E8M0 code as a value (R147). -/
def e8m0V (c : Nat) : FV := if c % 256 = 255 then .nan false else .fin false 1 ((c % 256 : Nat) - 127) false

/-- A comparison of two values, neither a NaN: -1, 0 or 1 as the exact difference has its sign. -/
def cmpV (x y : FV) : Int :=
  match x, y with
  | .inf a, .inf b => if a = b then 0 else if a then -1 else 1
  | .inf a, _ => if a then -1 else 1
  | _, .inf b => if b then 1 else -1
  | .fin a m e _, .fin b n k _ => (atExp a m e (min e k) - atExp b n k (min e k)).sign
  | _, _ => 0

end Sys2Proof.Machine
end

