-- ==== Sys2Proof/Machine/Lines.lean ====
section
/-! DEFINITION. Element accesses as every memory instruction shares them: buffer records (R36 to R38), check() (R191,
R192), translation by line (R193, R194), watchpoints (R432), the journal (R437), loads, stores and read-modify-writes
(R189, R190, R206, R213, R264, R365).
Readings logged: DEDUCED 16, 30, 32, 33, 34, 36, 75, 78; DESIGN CHOICE 10. -/

namespace Sys2Proof.Machine

/-! Buffer records (R36). -/

def recBase (r : Nat) : Nat := fld r 0 57
def recExtent (r : Nat) : Nat := fld r 64 40
def recStride (r : Nat) : Nat := fld r 104 24
def recSize (r : Nat) : Nat := fld r 128 4
def recSwz (r : Nat) : Nat := fld r 132 4
def recColour (r : Nat) : Nat := fld r 136 12
def recFormat (r : Nat) : Nat := fld r 148 6
def recRo (r : Nat) : Bool := bit r 154
def recWo (r : Nat) : Bool := bit r 155
def recNopre (r : Nat) : Bool := bit r 156
def recStream (r : Nat) : Bool := bit r 157
def recRemote (r : Nat) : Bool := bit r 158
def recValid (r : Nat) : Bool := bit r 159
def recSparam (r : Nat) : Nat := fld r 160 8
def recSoftb (r : Nat) : Bool := bit r 168
def recEndpoint (r : Nat) : Nat := fld r 192 32

/-- The size code that a format goes with (R37). -/
def formatOk (f sz : Nat) : Bool :=
  match f with
  | 0 => sz ≤ 4
  | 1 | 2 | 11 | 12 | 13 | 14 => sz == 0
  | 3 | 4 | 10 => sz == 1
  | 5 | 6 | 9 => sz == 2
  | 7 | 8 => sz == 3
  | _ => false

/-- Whether a swizzle is malformed (R38, R192). -/
def swizzleBad (z p : Nat) : Bool :=
  if z = 0 then p != 0 else 3 < z || fld p 4 3 == 0 || fld p 0 4 < 3 + z + fld p 4 3 || bit p 7

/-- A malformed record (R38). -/
def recBad (r : Nat) : Bool :=
  !(recValid r) || fld r 57 7 != 0 || fld r 169 23 != 0 || fld r 224 32 != 0 || !(formatOk (recFormat r) (recSize r)) ||
  swizzleBad (recSwz r) (recSparam r) || (recRo r && recWo r) || (recRemote r != (recEndpoint r != 0)) ||
  (recRemote r && recColour r != 0)

/-- st() of R191. -/
def recSt (r : Nat) : Nat := if recStride r = 0 then 2 ^ recSize r else recStride r

/-- swz() of R191. -/
def recSwizzle (r o : Nat) : Nat :=
  if recSwz r = 0 then o
  else o ^^^ (fld o (fld (recSparam r) 0 4) (fld (recSparam r) 4 3) * 2 ^ (3 + recSwz r))

/-- addr() of R191. -/
def recAddr (r i : Nat) : Nat := (sextVa (recBase r) + recSwizzle r (i * recSt r)) % 2 ^ 64

inductive AKind where
  | load | store | rmw
deriving DecidableEq, Repr

/-- What check() gives a lane (R191). -/
inductive Chk where
  | va (a : Nat)
  | skip
  | bad (t : Trap)
deriving DecidableEq, Repr

/-- check() of R191. -/
def check (r sz : Nat) (i : Int) (k : AKind) : Chk :=
  let wr : Bool := k ≠ .load
  if recBad r || sz ≠ recSize r then .bad { cause := .perm, write := wr }
  else if i < 0 ∨ (recExtent r : Int) ≤ i then (if recSoftb r then .skip else .bad { cause := .bounds })
  else
    let a := recAddr r i.toNat
    if !(canonical a) then .bad { cause := .perm, addr := some a, write := wr }
    else if a % 2 ^ sz ≠ 0 then .bad { cause := .align, addr := some a, write := wr }
    else if (wr && recRo r) || (k ≠ .store && recWo r) then .bad { cause := .perm, addr := some a, write := wr }
    else .va a

/-! Elements. -/

/-- The bytes an access moves. -/
def AccOp.len : AccOp → Nat
  | .load _ sz _ | .loadDst sz _ _ | .rmw _ _ sz _ _ _ _ _ | .copyIn sz _ | .copyOut sz _ => 2 ^ sz
  | .store bs => bs.length
  | .strel .. | .syadd .. => 8
  | .cpyw _ sz _ => 2 ^ sz

/-- How an access is judged (R191, R220). -/
def AccOp.kind : AccOp → AKind
  | .load .. | .loadDst .. | .copyIn .. => .load
  | .store _ | .copyOut .. | .strel .. => .store
  | .rmw .. | .syadd .. | .cpyw .. => .rmw

def AccOp.writes (o : AccOp) : Bool := o.kind ≠ .load

/-- Whether an access needs the bytes of its place before it can end. -/
def Acc.reads (a : Acc) : Bool :=
  match a.op with
  | .store _ | .copyOut .. | .strel .. | .cpyw .. => false
  | _ => true

/-- A loaded element written to its registers (R206). -/
def Heat.setElem (h : Heat) (l : Nat) (sg : Bool) (sz d x : Nat) : Heat :=
  h.updLane l (fun y =>
    if sz ≤ 1 then y.setV d (if sg then low 32 (sext x (8 * 2 ^ sz)) else x)
    else (upto (2 ^ (sz - 2))).foldl (fun y i => y.setV (d + i) (fld x (32 * i) 32)) y)

/-- The low bytes of a lane's data registers (R206). -/
def Lane.elemBytes (x : Lane) (sz t : Nat) : List Byte :=
  (((upto (Opnd.regs sz)).flatMap (fun i => toBytes 4 (x.v32 (t + i)))).take (2 ^ sz))

/-- The operation of a read-modify-write: the new value and the flags (R212, R213). -/
def rmwOf (op : AtomOp) (kind : AtomKind) (sz old y cmp : Nat) : Nat × Nat :=
  let w := 8 * 2 ^ sz
  match op with
  | .add => if kind = .float then fmtF32.add .rn 0 false old y else ((old + y) % 2 ^ w, 0)
  | .min => match kind with
    | .float => fmtF32.minMax false false old y
    | .signed => (if sext old w ≤ sext y w then old else y, 0)
    | .unsigned => (min old y, 0)
  | .max => match kind with
    | .float => fmtF32.minMax true false old y
    | .signed => (if sext y w ≤ sext old w then old else y, 0)
    | .unsigned => (max old y, 0)
  | .and => (old &&& y, 0)
  | .or => (old ||| y, 0)
  | .xor => (old ^^^ y, 0)
  | .exch => (y, 0)
  | .inc => (if y ≤ old then 0 else (old + 1) % 2 ^ w, 0)
  | .cas => (if old = cmp then y else old, 0)

/-! Operations in flight (R121). -/

/-- A posting that has not been tried takes more lanes of its issue (R395). -/
def joinRec (s : State) (key : HeatKey) (pc : Nat) (ts : List (Nat × Trap)) (run : Option Run) (p : FRec) : State :=
  match s.heat? key with
  | none => s
  | some h =>
    let old := (h.lanesWhere (fun x => x.parkedB && x.park == p.id)).filterMap (fun l => (h.lane l).trap.map (fun t => (l, t)))
    let r := mkRec s h pc ((old ++ ts).mergeSort (fun a b => a.1 ≤ b.1)) run
    { s with postings := s.postings.map (fun (q : FRec) => if q.id = p.id then { r with id := p.id, born := p.born } else q) }.updHeat key
      (fun h => h.parkAll ts p.id)

/-- Lanes that meet causes after their issue park at its word: on the issue's own posting while that has not been tried, and
else on one of theirs, one for each task (R395, R396, log entry 75). -/
def State.parkLate (s : State) (o : Op) (ts : List (Nat × Trap)) : State :=
  match s.heat? o.key with
  | none => s
  | some h =>
    let taskOf (t : Nat × Trap) : Option Nat := (h.lane t.1).task
    (nub (ts.map taskOf)).foldl (fun s k =>
      let g := ts.filter (fun t => taskOf t == k)
      let run := k.bind s.run?
      match s.postings.find? (fun p => p.key == some o.key && p.pc == o.pc && p.born == o.born && !p.retry && p.task == run.map (·.id)) with
      | some p => joinRec s o.key o.pc g run p
      | none => parkGroup s o.key o.pc g run) s

/-- Whether a lane can still raise a cause. -/
def State.canTrap (s : State) (key : HeatKey) (l : Nat) : Bool :=
  match s.lane? key l with
  | some x => !(x.exited || x.parkedB)
  | none => false

/-- The lanes of an operation that have met causes since its issue return to its word and park, together, once no other lane
of it is outstanding but those that wait in a monitor queue (R194, R200, R395, R396). For a lane that has exited or is
parked by then the operation ends (R224, log entry 75). -/
def State.flushLate (s : State) (id : Nat) : State :=
  match s.ops.find? (fun o => o.id = id) with
  | none => s
  | some o =>
    let queued (l : Nat) : Bool := match (s.lane? o.key l).map Lane.st with
      | some (.blocked (.colour _ a)) => a.opId == id
      | _ => false
    if o.late.isEmpty || !(o.left.all (fun l => queued l || o.late.any (fun t => t.1 == l))) then s
    else
      let ts := o.late.filter (fun t => s.canTrap o.key t.1)
      let s := { s with ops := modifyFirst (fun o => o.id = id) (fun o =>
        { o with late := [], parked := if o.isCopy then o.parked ++ ts.map (·.1) else o.parked }) s.ops }
      let s := ts.foldl (fun s t => (s.leaveQueues o.key t.1).updLane o.key t.1 (fun x => { x with pc := o.pc, blk := o.blk })) s
      let s := if ts.isEmpty then s else s.parkLate o (ts.mergeSort (fun a b => a.1 ≤ b.1))
      o.late.foldl (fun s t => s.opDone id t.1) s

/-- Causes that lanes of an operation meet after they have moved on. -/
def State.lateTraps (s : State) (id : Nat) (ts : List (Nat × Trap)) : State :=
  let note (o : Op) : Op := { o with late := o.late ++ ts.filter (fun t => o.left.contains t.1) }
  ({ s with ops := modifyFirst (fun o => o.id = id) note s.ops } : State).flushLate id

/-- The operations whose late causes can be raised by now. -/
def State.flushAll (s : State) : State := ((s.ops.filter (fun o => !o.late.isEmpty)).map (·.id)).foldl State.flushLate s

/-! Reads. -/

/-- A task's buffered bytes laid over bytes read at a physical address (R365). -/
def overTask (r : Option Run) (pa : Nat) (bs : List Byte) : List Byte :=
  match r with
  | none => bs
  | some r => ((upto bs.length).zip bs).map (fun e => (Tbl.find? r.buf (pa + e.1)).getD e.2)

/-- Whether a task's buffer holds every byte of an access. -/
def inTask (r : Option Run) (pa n : Nat) : Bool :=
  match r with
  | none => false
  | some r => (upto n).all (fun i => (Tbl.find? r.buf (pa + i)).isSome)

/-- The run of a heat's lane (R364). -/
def State.laneRun (s : State) (key : HeatKey) (l : Nat) : Option Run := ((s.lane? key l).bind (·.task)).bind s.run?

/-- A line that a lane of a task reads enters its read signature (R365). -/
def State.readSig (s : State) (key : HeatKey) (l pa : Nat) : State :=
  match s.laneRun key l with
  | none => s
  | some r => s.updRun r.id (fun r => { r with rs := r.rs.insert pa })

/-- A line that a lane of a task writes enters its write signature (R365, R371). -/
def State.writeSig (s : State) (key : HeatKey) (l pa : Nat) : State :=
  match s.laneRun key l with
  | none => s
  | some r => s.updRun r.id (fun r => { r with ws := r.ws.insert pa })

/-- What an access can read without a request: the task's own bytes over a valid L1 sector (R190, R365). -/
def State.nearRead (s : State) (key : HeatKey) (core : Nat) (a : Acc) : Option (List Byte) :=
  let n := a.op.len
  let r := s.laneRun key a.lane
  if inTask r a.pa n then some (overTask r a.pa (List.replicate n 0))
  else (s.l1? core (a.pa / 64)).map (fun d => overTask r a.pa ((d.drop (a.pa % 64)).take n))

/-- A load's bytes written to its registers, and its lane done (R206). -/
def State.finishLoad (s : State) (key : HeatKey) (a : Acc) (bs : List Byte) : State :=
  let x := ofBytes bs
  let s := match a.op with
    | .load sg sz d => s.updHeat key (fun h => h.setElem a.lane sg sz d x)
    | .loadDst sz (some d) _ => s.updHeat key (fun h => h.setDst (sz == 3) a.lane d x)
    | .rmw _ _ sz _ _ _ _ (some d) => s.updHeat key (fun h => h.setDst (sz == 3) a.lane d x)
    | .syadd _ _ _ (some d) => s.updHeat key (fun h => h.setDst true a.lane d x)
    | _ => s
  s.opDone a.opId a.lane

/-! Writes. -/

/-- An L1 sector updated where it is valid (R190). -/
def State.l1Patch (s : State) (core pa : Nat) (bs : List Byte) : State :=
  match s.l1? core (pa / 64) with
  | none => s
  | some d => { s with l1 := Tbl.set s.l1 (skey core (pa / 64)) (patch d (pa % 64) bs) }

/-- Bytes written through the L1 to the die (R190, R264). -/
def State.writeThrough (s : State) (core pa : Nat) (bs : List Byte) : State := (s.l1Patch core pa bs).dieWrite (dieOf core) pa bs

/-- A store written through, its line in the core's bank (R190, R264, R273). -/
def State.storeThrough (s : State) (ctx core pa : Nat) (bs : List Byte) : State := (s.writeThrough core pa bs).bankIn ctx core pa

/-- A store of a task into its buffer (R365); the chunk's pre-image is owed at the drain, unless the record has NOPRE set
(R36, R39). -/
def State.storeTask (s : State) (r : Run) (pa : Nat) (bs : List Byte) (nopre : Bool) : State :=
  s.updRun r.id (fun r => { r with
    buf := ((upto bs.length).zip bs).foldl (fun t e => Tbl.set t (pa + e.1) e.2) r.buf, ws := r.ws.insert pa
    chunks := if nopre then r.chunks else nub (r.chunks ++ [pa / 65536]) })

/-- One lane's store (R206, R365, R371). -/
def State.doStore (s : State) (key : HeatKey) (core : Nat) (a : Acc) (bs : List Byte) : State :=
  match s.laneRun key a.lane with
  | some r => if r.irrevocable then (s.storeThrough key.ctx core a.pa bs).writeSig key a.lane a.pa else s.storeTask r a.pa bs a.nopre
  | none => s.storeThrough key.ctx core a.pa bs

/-- The sectors that accesses of one instruction cover whole lose their poison (R323). -/
def State.clearPoison (s : State) (accs : List Acc) : State :=
  if s.poison.isEmpty then s
  else
    let cover (sec : Nat) : Bool := (upto 64).all (fun i => accs.any (fun a => a.pa ≤ 64 * sec + i && 64 * sec + i < a.pa + a.op.len))
    { s with poison := s.poison.filter (fun c => !(cover c)) }

/-- A read-modify-write at scope 0 or 1 on bytes that the L1 serves, written through (R213); the old value is the
result. Its line entered the core's bank at issue (R273). -/
def State.rmwNear (s : State) (key : HeatKey) (core : Nat) (a : Acc) (bs : List Byte) : State :=
  match a.op with
  | .rmw op kind sz _ _ y cmp _ =>
    let r := rmwOf op kind sz (ofBytes bs) y cmp
    let s := (s.writeThrough core a.pa (toBytes (2 ^ sz) r.1)).mergeFlags key a.lane r.2
    ((s.readSig key a.lane a.pa).writeSig key a.lane a.pa).finishLoad key a bs
  | _ => s

/-- Whether the lanes of a heat owe something that a release of it, or a fence, must follow: a read or an atomic that is
not answered, a release of its core that is not deposited, a CPYW that is not performed (R266, R274, R281). -/
def State.owed (s : State) (h : Heat) (mark : Nat) : Bool :=
  s.reqs.any (fun r => r.key = h.key && !r.copy && r.id < mark && r.accs.any Acc.reads) ||
  s.rels.any (fun r => r.ctx == h.key.ctx && r.origin == h.core && r.id < mark) ||
  h.cpyw.any (fun p => p.before < mark)

/-! Translation by line (R193, R194). -/

/-- The accesses of one instruction with the outcome of each line's translation. -/
def State.translateAccs (ctx core : Nat) (use : Use) : List Acc → Tbl (Except Cause Nat) → State → List (Acc × Except Cause Nat) × State
  | [], _, s => ([], s)
  | a :: as, cache, s =>
    let line := a.va / 256
    let (r, cache, s) := match Tbl.find? cache line with
      | some r => (r, cache, s)
      | none =>
        let (r, s) := s.translate ctx (dieOf core) (some core) (line * 256) use
        (r, Tbl.set cache line r, s)
    let out := match r with
      | .ok pa => ({ a with pa := pa + a.va % 256 }, .ok (pa + a.va % 256))
      | .error c => (a, .error c)
    let (rest, s) := State.translateAccs ctx core use as cache s
    (out :: rest, s)

/-- Whether a watchpoint of the context matches an access (R432). -/
def Ctx.watched (c : Ctx) (va n : Nat) (k : AKind) : Bool :=
  c.watch.any (fun w => va < w.2.addr + w.2.len && w.2.addr < va + n &&
    (match w.2.kind, k with
      | .rw, _ => true
      | .r, .store => false
      | .w, .load => false
      | _, _ => true))

/-- The chunks of a journalled heat's writes whose pre-images are not saved (R437). -/
def State.unsavedChunks (s : State) (h : Heat) (pas : List Nat) : List Nat :=
  if h.journal then
    (nub (pas.map (· / 65536))).filter (fun c =>
      !((s.ctx h.key.ctx).saved.any (fun e => e.1 == h.key.serial && e.2.1 == c)))
  else []

/-- The saves of chunks begin, unless they are under way (R437). -/
def State.beginSaves (s : State) (ctx serial : Nat) (chunks : List Nat) : State :=
  s.updCtx ctx (fun c => { c with saves := chunks.foldl (fun l k => if l.contains (serial, k) then l else l ++ [(serial, k)]) c.saves })

/-- The sectors that copies out own until they have written (R222): their requests, and their writes in the queues of the
dies. -/
def State.copyOwned (s : State) (sec : Nat) : Bool :=
  s.rwq.any (fun e => e.copy && e.pa / 64 == sec) ||
  s.reqs.any (fun r => r.remote.isNone && r.accs.any (fun a => (match a.op with | .copyOut .. => true | _ => false) && a.pa / 64 == sec))

/-- Whether a heat has an outstanding access to a sector, which a later access of it must follow (R189). -/
def State.ownPending (s : State) (key : HeatKey) (sec : Nat) : Bool :=
  s.reqs.any (fun r => r.key = key && !r.copy && r.remote.isNone &&
    r.accs.any (fun a => a.pa / 64 == sec && (match a.op with | .store _ => false | _ => true))) ||
  s.rels.any (fun r => r.obj.map (· / 64) == some sec && ((s.heat? key).map (·.core)) == some r.origin)

/-- The sectors that a task buffers (R365). -/
def Run.sectors (r : Run) : List Nat := nub (r.buf.map (fun e => e.1 / 64))

/-- The tasks whose buffers the stores would overfill (R365, R366). -/
def State.overfull (s : State) (key : HeatKey) (accs : List Acc) : List Nat :=
  let runs := nub (accs.filterMap (fun a => (s.laneRun key a.lane).map (·.id)))
  runs.filter (fun i => match s.run? i with
    | none => false
    | some r => !r.irrevocable &&
      256 < (nub (r.sectors ++ (accs.filter (fun a => (s.laneRun key a.lane).map (·.id) = some i)).map (fun a => a.pa / 64))).length)

/-- What an attempt at accesses gives: causes, tasks to run irrevocably, the state; or the reason to wait. -/
structure AccOut where
  s : State
  traps : List (Nat × Trap) := []
  irrevocable : List Nat := []
  wait : Option (List Nat) := none

/-- Whether an access is performed by a release of its object (R214, R274, R282, R283). -/
def AccOp.releases : AccOp → Bool
  | .rmw _ _ _ sc o _ _ _ | .syadd _ sc o _ => 2 ≤ sc.code && (o = .release || o = .both)
  | .strel .. => true
  | _ => false

/-- Whether an access is performed at the die's L2 under ownership (R213, R283). -/
def AccOp.owning : AccOp → Bool
  | .rmw _ _ _ sc _ _ _ _ => 2 ≤ sc.code
  | .syadd .. => true
  | _ => false

/-- Whether an access is an atomic's: its line enters the bank at issue (R273). -/
def AccOp.atomic : AccOp → Bool
  | .rmw .. | .syadd .. => true
  | _ => false

/-- The scope of an ordered access. -/
def AccOp.scope : AccOp → Scope
  | .rmw _ _ _ sc _ _ _ _ | .syadd _ sc _ _ | .strel _ sc => sc
  | _ => .heat

/-- The releases that accesses of one instruction make enter their origin's queue: one for each object of STREL, with
the highest lane's value, and of SYADD; one for each lane of an atomic (R214, R282, R283). -/
def State.sendReleases (s : State) (h : Heat) (accs : List Acc) : State :=
  let single := accs.filter (fun a => match a.op with | .rmw .. => true | _ => false)
  let grouped := accs.filter (fun a => match a.op with | .rmw .. => false | _ => true)
  let s := single.foldl (fun s a => s.enqueueRel
    { origin := h.core, ctx := h.key.ctx, scope := a.op.scope, obj := some a.pa, val := .rmw h.key [a] }) s
  (nub (grouped.map (fun a => a.pa))).foldl (fun s pa =>
    let mine := grouped.filter (fun a => a.pa = pa)
    match mine.getLast? with
    | none => s
    | some b =>
      let v : RelVal := match b.op with | .strel v _ => .set v | _ => .rmw h.key mine
      let s := s.enqueueRel { origin := h.core, ctx := h.key.ctx, scope := b.op.scope, obj := some pa, val := v }
      (match b.op with
        | .strel .. => mine.foldl (fun s a => s.opDone a.opId a.lane) s
        | _ => s)) s

def AccOp.isCpyw : AccOp → Bool
  | .cpyw .. => true
  | _ => false

/-- The adds of a CPYW wait for the copies that the heat issued before it (R225). -/
def State.pendCpyw (s : State) (h : Heat) (accs : List Acc) : State :=
  match accs.head? with
  | none => s
  | some a =>
    -- a lane that was granted its colour later joins the others of its instruction
    let join (l : List PendCpyw) : List PendCpyw :=
      if l.any (fun p => p.before == a.opId) then modifyFirst (fun p => p.before == a.opId) (fun p => { p with accs := p.accs ++ accs }) l
      else l ++ [{ before := a.opId, accs := accs, ctx := h.key.ctx, colour := a.colour }]
    let s := s.updHeat h.key (fun x => { x with cpyw := join x.cpyw })
    accs.foldl (fun s a => s.opDone a.opId a.lane) s

/-- The requests of the accesses that no level at hand serves: one for each line (R193). -/
def State.sendReqs (s : State) (h : Heat) (strm : Bool) (accs : List Acc) : State :=
  let s := s.sendReleases h (accs.filter (fun a => a.op.releases))
  let s := s.pendCpyw h (accs.filter (fun a => a.op.isCpyw))
  let accs := accs.filter (fun a => !a.op.releases && !a.op.isCpyw)
  let lines := nub (accs.map (fun a => a.va / 256))
  let s := lines.foldl (fun s ln =>
    let mine := accs.filter (fun a => a.va / 256 = ln)
    { s with nid := s.nid + 1, reqs := s.reqs ++ [({ id := s.nid, key := h.key, ctx := h.key.ctx, core := h.core, line := ln, accs := mine
                                                     write := mine.any (fun a => a.op.writes), stream := strm, born := s.now } : Req)] }) s
  -- the lines of atomics enter the current bank at issue (R273)
  let s := (accs.filter (fun a => a.op.atomic)).foldl (fun s a => s.bankIn h.key.ctx h.core a.pa) s
  (nub (accs.map (fun a => a.pa / 64))).foldl (fun s sec =>
    let own := accs.any (fun a => a.pa / 64 == sec && a.op.owning)
    let die := dieOf h.core
    if (if own then s.owns die sec else s.readable die sec) then s else s.ask die sec own) s

/-- One access performed at issue where the L1 serves it; otherwise it is left for a request. -/
def State.nearAccess (h : Heat) (acc : List Acc × State) (a : Acc) : List Acc × State :=
  let s := acc.2
  match a.op with
  | .store bs =>
    let buffered := match s.laneRun h.key a.lane with | some r => !r.irrevocable | none => false
    let s := s.doStore h.key h.core a bs
    if buffered then (acc.1, s.opDone a.opId a.lane) else (acc.1 ++ [a], s)
  | .loadDst _ _ true => (acc.1 ++ [a], s.readSig h.key a.lane a.pa)
  | .strel .. | .syadd .. => (acc.1 ++ [a], (s.readSig h.key a.lane a.pa).writeSig h.key a.lane a.pa)
  | .load .. | .loadDst _ _ false =>
    let s := s.readSig h.key a.lane a.pa
    (match s.nearRead h.key h.core a with
      | some bs => (acc.1, s.finishLoad h.key a bs)
      | none => (acc.1 ++ [a], s))
  | .rmw _ _ _ sc _ _ _ _ =>
    if 2 ≤ sc.code then (acc.1 ++ [a], (s.readSig h.key a.lane a.pa).writeSig h.key a.lane a.pa)
    else (match s.nearRead h.key h.core a with
      | some bs => (acc.1, (s.bankIn h.key.ctx h.core a.pa).rmwNear h.key h.core a bs)
      | none => (acc.1 ++ [a], s))
  | _ => (acc.1 ++ [a], s)

/-- Checked accesses of one instruction through a local record: translation, watchpoints, the waits, and then each
access in lane order, with a request for every line that needs one (R193 to R195). -/
def State.access (s0 : State) (h : Heat) (noBreak : Nat → Bool) (nopre strm : Bool) (accs : List Acc) : AccOut :=
  let use : Use := if accs.any (fun a => a.op.writes) then .write else .read
  let (res, s) := State.translateAccs h.key.ctx h.core use accs [] s0
  let traps := res.filterMap (fun r => match r.2 with
    | .error c => some (r.1.lane, ({ cause := c, addr := some r.1.va, write := use = .write } : Trap))
    | .ok _ => none)
  let good := res.filterMap (fun r => match r.2 with | .ok _ => some r.1 | .error _ => none)
  let hit := good.filter (fun a => h.debug && !(noBreak a.lane) && (s.ctx h.key.ctx).watched a.va a.op.len a.op.kind)
  let traps := traps ++ hit.map (fun a => (a.lane, ({ cause := .brk } : Trap)))
  let go := good.filter (fun a => !(hit.any (fun b => b.lane == a.lane)))
  let secs := go.map (fun a => a.pa / 64)
  let wr := go.filter (fun a => a.op.writes && !(match s.laneRun h.key a.lane with | some r => !r.irrevocable | none => false))
  let chunks := if nopre then [] else s.unsavedChunks h (wr.map (·.pa))
  if secs.any (s.ownPending h.key) || (!wr.isEmpty && secs.any s.copyOwned) then { s := s0, wait := some [] }
  else if !chunks.isEmpty then { s := s0, wait := some chunks }
  else
    let evicting := if use = .write then s.overfull h.key go else []
    let go := go.filter (fun a => !(evicting.any (fun i => (s.laneRun h.key a.lane).map (·.id) == some i)))
    let (rest, s) := go.foldl (State.nearAccess h) ([], s)
    let s := s.clearPoison (go.filter (fun a => (match a.op with | .store _ => true | _ => false) &&
      (match s.laneRun h.key a.lane with | some r => r.irrevocable | none => true)))
    { s := s.sendReqs h strm rest, traps := traps, irrevocable := evicting }

end Sys2Proof.Machine
end

