-- ==== Sys2Proof/Machine/Record.lean ====
section
/-! DEFINITION. Record instructions (R203, R204).
Readings logged: DEDUCED 34. -/

namespace Sys2Proof.Machine

/-- The lowest lane in active(). -/
def Env.lowest (e : Env) : Nat := e.act.headD 0

/-- A record register written when active() is not empty (R203). -/
def Env.setRec (e : Env) (d x : Nat) (w : Work) : Work :=
  if e.act.isEmpty then w else { w with s := w.s.updHeat e.key (fun h => h.setB d x) }

/-- An L1 sector filled from the die; a line that the L1 did not hold is allocated for eviction first where its record has
STREAM set (R190). -/
def State.fillL1 (s : State) (core sec : Nat) (strm : Bool := false) : State :=
  let key := skey core (sec / 4)
  let fresh := !((s.l1Lines core).contains (sec / 4))
  let s := s.roomL1 core (sec / 4)
  { s with l1 := Tbl.set s.l1 (skey core sec) (s.dieSector (dieOf core) sec)
           l1Stream := if fresh then s.l1Stream.filter (· ≠ key) ++ (if strm then [key] else []) else s.l1Stream }

/-- Bytes of one sector read for a lane's load, through the L1: none where the die must ask for the sector first. -/
def State.loadNow (s : State) (key : HeatKey) (core l pa n : Nat) : Option (List Byte × State) :=
  let r := s.laneRun key l
  let sec := pa / 64
  match s.l1? core sec with
  | some d => some (overTask r pa ((d.drop (pa % 64)).take n), s)
  | none =>
    if s.readable (dieOf core) sec then
      let s := s.fillL1 core sec
      some (overTask r pa (((s.dieSector (dieOf core) sec).drop (pa % 64)).take n), s)
    else none

/-- BLD.mem (R203): the heat waits until the record has arrived. -/
def execBldMem (c : Com) (d : Nat) (a : Src) (n : Nat) (s : State) : Result := issue (.bldMem c d a n) s (fun e w =>
  if e.act.isEmpty then w
  else
    let va := (e.src64 a e.lowest + 32 * n) % 2 ^ 64
    if va % 32 ≠ 0 then w.trapAll e.act { cause := .align, addr := some va }
    else if !(canonical va) then w.trapAll e.act { cause := .perm, addr := some va }
    else match w.s.translate e.ctx e.die (some e.core) va .read with
      | (.error x, s) => ({ w with s := s } : Work).trapAll e.act { cause := x, addr := some va }
      | (.ok pa, s) =>
        if s.poisoned pa 32 && (s.l1? e.core (pa / 64)).isNone then
          ({ w with s := s } : Work).trapAll e.act { cause := .uncorrectable, addr := some va }
        else if e.h.debug && !((e.h.lane e.lowest).noBreak) && (s.ctx e.ctx).watched va 32 .load then
          ({ w with s := s } : Work).trapAll e.act { cause := .brk }
        else if s.ownPending e.key (pa / 64) || ((s.l1? e.core (pa / 64)).isNone && s.copyOwned (pa / 64)) then Work.stallWith e id
        else match s.loadNow e.key e.core e.lowest pa 32 with
          | none => Work.stallWith e (fun s => s.ask e.die (pa / 64) false)
          | some (bs, s) =>
            let s := e.act.foldl (fun s l => s.readSig e.key l pa) s
            e.setRec d (ofBytes bs) { w with s := s })

/-- BLD.q (R203). -/
def execBldQ (c : Com) (d n : Nat) (a : Src) (s : State) : Result := issue (.bldQ c d n a) s (fun e w =>
  e.setRec d (setFld (e.h.b256 d) (64 * n) 64 (e.src64 a e.lowest)) w)

/-- BLD.k (R203). -/
def execBldK (c : Com) (d k : Nat) (s : State) : Result := issue (.bldK c d k) s (fun e w =>
  e.setRec d (e.h.k64 k + e.h.k64 (k + 1) * 2 ^ 64 + e.h.k64 (k + 2) * 2 ^ 128 + e.h.k64 (k + 3) * 2 ^ 192) w)

/-- BLD.zero (R203). -/
def execBldZero (c : Com) (d : Nat) (s : State) : Result := issue (.bldZero c d) s (fun e w => e.setRec d 0 w)

/-- A record moved by an element offset (R204). -/
def recOffset (r a : Nat) : Nat :=
  setFld (setFld r 0 57 (recBase r + a * recSt r)) 64 40 (recExtent r - a)

/-- BSUB.off (R204). -/
def execBsubOff (c : Com) (d b : Nat) (a : Src) (s : State) : Result := issue (.bsubOff c d b a) s (fun e w =>
  e.setRec d (recOffset (e.h.b256 b) (e.src64 a e.lowest)) w)

/-- BSUB.win (R204). -/
def execBsubWin (c : Com) (d b : Nat) (a : Src) (n : Nat) (s : State) : Result := issue (.bsubWin c d b a n) s (fun e w =>
  let r := recOffset (e.h.b256 b) (e.src64 a e.lowest)
  e.setRec d (setFld r 64 40 (min (recExtent r) n)) w)

/-- BSUB.colour (R204). -/
def execBsubColour (c : Com) (d b col : Nat) (s : State) : Result := issue (.bsubColour c d b col) s (fun e w =>
  e.setRec d (setFld (e.h.b256 b) 136 12 col) w)

/-- BSUB.flags (R204): the list ORed into RO, WO, NOPRE, STREAM and SOFTB. -/
def execBsubFlags (c : Com) (d b fl : Nat) (s : State) : Result := issue (.bsubFlags c d b fl) s (fun e w =>
  e.setRec d (e.h.b256 b ||| fld fl 0 4 * 2 ^ 154 ||| fld fl 4 1 * 2 ^ 168) w)

end Sys2Proof.Machine
end

