-- ==== Sys2Proof/Machine/Access.lean ====
section
/-! DEFINITION. Loads, stores and hints through records and in scratchpad (R193, R200 to R202, R205 to R211).
Readings logged: DEDUCED 27, 28, 33, 37, 41, 42; DESIGN CHOICE 76. -/

namespace Sys2Proof.Machine

/-! Remote windows (R200, R318, R319). -/

/-- Whether an endpoint entry follows R318. -/
def endpointOk (b : List Byte) : Bool :=
  let f := ofBytes (b.take 1)
  let ports := ofBytes ((b.drop 2).take 2)
  bit f 0 && f < 8 && ofBytes ((b.drop 1).take 1) < 16 && ports != 0 && ports < 4096 && ofBytes (b.drop 28) == 0

/-- Whether an entry may carry outgoing traffic: an association where the context requires security (R64, R318). -/
def endpointOut (c : Ctx) (b : List Byte) : Bool :=
  let sa := ofBytes ((b.drop 4).take 4)
  endpointOk b && (if sa = 0 then !c.secure else (Tbl.find? c.assocs sa).isSome)

/-- The entry of a handle, read at its first use and cached on every die (R319). -/
def State.endpoint (s : State) (ctx die h : Nat) : Option (List Byte) × State :=
  if h = 0 ∨ 1024 ≤ h then (none, s)
  else match Tbl.find? (s.ctx ctx).endpoints h with
    | some b => (some b, s)
    | none =>
      match s.peek ctx die (((s.ctx ctx).trail + 139264 + 64 * h) % 2 ^ 64) .read with
      | .error _ => (none, s)
      | .ok pa =>
        if s.poisoned pa 64 then (none, s)
        else
          let b := s.viewRead die pa 64
          (some b, s.updCtx ctx (fun c => { c with endpoints := Tbl.set c.endpoints h b }))

/-! Ports (R16, R17). -/

def State.port (s : State) (p : Nat) : Port := Tbl.get {} s.ports p
def State.updPort (s : State) (p : Nat) (f : Port → Port) : State := { s with ports := Tbl.set s.ports p (f (s.port p)) }

/-- Whether a port carries traffic. -/
def State.portUp (s : State) (p : Nat) : Bool :=
  p < 12 && (s.port p).trained && !(s.port p).training && !(s.port p).stopped && !s.fencedDies.contains (p / 3)

/-- Whether a half of a port holds a fenced lane (R445). -/
def State.halfFenced (s : State) (port half : Nat) : Bool :=
  (upto 4).any (fun j => bit (s.mapByte (port / 3) (152 + port % 3)) (4 * half + j))

/-- The ports that a port in service is: itself, numbered as half 0, or the halves nA and nB, as 0 and 1; a port that has
lost a half runs as the other (R16, R17, R445). -/
def State.halves (s : State) (p : Nat) : List Nat :=
  if !(s.portUp p) then []
  else if s.halfFenced p 0 then (if s.halfFenced p 1 then [] else [1])
  else if s.halfFenced p 1 || !(s.port p).split then [0] else [0, 1]

/-- Whether a half of a port carries traffic. -/
def State.carries (s : State) (p half : Nat) : Bool := (s.halves p).contains half

/-- The halves in service of some ports, in order. -/
def State.ways (s : State) (ports : List Nat) : List (Nat × Nat) := ports.flatMap (fun p => (s.halves p).map (fun x => (p, x)))

/-- The ports of a die (R16). -/
def portsOf (die : Nat) : List Nat := (upto 3).map (3 * die + ·)

/-- The half of a port on which a reply leaves: the one given, the port's other half, another port of its die, or one of
the lowest-numbered survivor that has one; of several the lowest (R17, R87, R324, log entry 76). -/
def State.wayOut (s : State) (p half : Nat) : Nat × Nat :=
  if s.carries p half then (p, half)
  else (s.ways (p :: portsOf (p / 3) ++ s.aliveDies.flatMap portsOf)).headD (p, half)

/-- A port, and a half of it, that an endpoint entry allows and that carries traffic: the lowest (R17, R318, log entry
76). -/
def State.portFor (s : State) (entry : List Byte) : Option (Nat × Nat) :=
  (s.ways (bitsOf (ofBytes ((entry.drop 2).take 2)) 12)).head?

/-- The header data word of an outgoing access: the peer's context; for a release its kind and scope (R317). -/
def remoteHeader (entry : List Byte) (rel : Bool) : Nat :=
  ofBytes ((entry.drop 1).take 1) % 16 + (if rel then 2 ^ 4 + 4 * 2 ^ 22 else 0)

/-- What one access writes into a peer's memory: where and which bytes; a copy's are read from scratchpad (R200, R223,
R317). -/
def State.payloadOf (s : State) (unit : Nat) (a : Acc) : Option (Nat × List Byte) :=
  match a.op with
  | .store bs => some (a.va, bs)
  | .strel v _ => some (a.va, toBytes 8 v)
  | .copyOut sz off => some (a.va, readBytes (((s.unit? unit).map (·.scr)).getD []) off (2 ^ sz))
  | _ => none

/-- One UET Read or Write of a heat's lanes, or of its copy: it leaves on a port at once where one carries traffic, and
else waits for one (R17, R200). A release's object takes the value of its highest lane (R282, R317). -/
def State.sendRemote (s : State) (h : Heat) (handle : Nat) (entry : List Byte) (copy : Bool) (accs : List Acc) : State :=
  let rel := accs.any (fun a => match a.op with | .strel .. => true | _ => false)
  let va := ((accs.head?).map (·.va)).getD 0
  let out := accs.filterMap (s.payloadOf h.unit)
  { s with nid := s.nid + 1, reqs := s.reqs ++ [({
      id := s.nid, key := h.key, ctx := h.key.ctx, core := h.core, line := va / 256, accs := accs, write := accs.any (fun a => a.op.writes), copy := copy
      remote := some (handle, if rel then va else 256 * (va / 256)), way := s.portFor entry, header := remoteHeader entry rel
      payload := if rel then (out.getLast?).toList else out, born := s.now } : Req)] }

/-- Accesses through a REMOTE record: one request per line, and one per object of a release, or PERM where the handle names
no endpoint (R200, R317). -/
def State.remoteAccess (s : State) (h : Heat) (rcd : Nat) (accs : List Acc) : AccOut :=
  if accs.isEmpty then { s := s }
  else
    let (en, s) := s.endpoint h.key.ctx (dieOf h.core) (recEndpoint rcd)
    if (match en with | some b => endpointOut (s.ctx h.key.ctx) b | none => false) then
      let piece (a : Acc) : Nat := match a.op with | .strel .. => floorTo 64 a.va | _ => floorTo 256 a.va
      { s := (nub (accs.map piece)).foldl (fun s p => s.sendRemote h (recEndpoint rcd) (en.getD []) false (accs.filter (fun a => piece a = p))) s }
    else { s := s, traps := accs.map (fun a => (a.lane, { cause := .perm, addr := some a.va, write := a.op.writes })) }

/-- A lane whose index is out of range under SOFTB: a load reads zero, a store is dropped (R38, R206). -/
def State.skipLanes (s : State) (key : HeatKey) (accs : List Acc) : State :=
  accs.foldl (fun s a => s.finishLoad key a (List.replicate a.op.len 0)) s

/-- The free request slots of a core (R193): a request takes one, and the requests of one instruction for one line, whose
lanes were granted a colour one after the other, share theirs. -/
def State.freeSlots (s : State) (core : Nat) : Nat :=
  4096 - (nub ((s.reqs.filter (fun r => r.core = core)).map (fun r => ((r.accs.head?).map (·.opId), r.line, r.copy)))).length

/-- Whether a slot of an access's line is taken by another lane of its instruction (R193). -/
def State.slotShared (s : State) (a : Acc) : Bool := s.reqs.any (fun r => !r.copy && r.line == a.va / 256 && r.accs.any (fun b => b.opId == a.opId))

/-- Accesses of lanes that hold what they need, whichever way they go. -/
def State.perform (s : State) (h : Heat) (noBreak : Nat → Bool) (rcd : Nat) (accs : List Acc) : AccOut :=
  let s := s.skipLanes h.key (accs.filter (·.skip))
  let go := accs.filter (fun a => !a.skip)
  if recRemote rcd then s.remoteAccess h rcd go
  else s.access h noBreak (recNopre rcd) (recStream rcd) go

/-- What the outcome of accesses adds to an issue's work: causes, and tasks that go on irrevocably (R366). -/
def Work.irrevocably (w : Work) (e : Env) (runs : List Nat) : Work :=
  runs.foldl (fun w r =>
    let mine := e.issuing.filter (fun l => (e.h.lane l).task = some r)
    { w with s := w.s.abort r .irrevocable, stay := w.stay ++ mine, irrev := true }) w

/-- Causes that lanes raise at the issue of an operation, which is then done for them (R121). -/
def Work.fail (w : Work) (id : Nat) (ts : List (Nat × Trap)) : Work :=
  { w with traps := w.traps ++ ts, s := ts.foldl (fun s t => s.opDone id t.1) w.s }

/-- The marks of a long-latency word on its destinations (R123). -/
def Env.mark (e : Env) (s : State) : State :=
  s.updHeat e.key (fun h =>
    let h := e.act.foldl (fun h l => h.updLane l (fun x => x.mark e.flag (nub (Instr.destV e.i)))) h
    if e.act.isEmpty then h else { h with kpend := h.kpend ++ (Instr.destK e.i).map (fun k => (k, e.flag)) })

/-- An operation begins: its number, its flag's count, its marks (R121, R123). -/
def Env.begin (e : Env) (w : Work) : Nat × Work :=
  if e.act.isEmpty then (0, w)
  else
    let lng := Instr.long e.i
    let id := w.s.nid
    let o : Op := { id := id, key := e.key, pc := e.pc, flag := if lng then some e.flag else none, left := e.act, blk := some (e.hdrAddr, e.hdr), born := w.s.now }
    let s := { w.s with nid := id + 1, ops := w.s.ops ++ [o] }
    (id, { w with s := if lng then e.mark (s.updHeat e.key (fun h => h.flagUp e.flag)) else s })

/-- The shared part of every access through a record (R191, R193, R194, R333, R336). -/
def Env.accessBy (e : Env) (rcd : Nat) (chk : Nat → Chk) (op : Nat → AccOp) (w : Work) : Work :=
  let chks := e.act.map (fun l => (l, chk l))
  let lines := nub (chks.filterMap (fun c => match c.2 with | .va a => some (a / 256) | _ => none))
  let colour := if recBad rcd then 0 else recColour rcd
  if colour = 0 && w.s.freeSlots e.core < lines.length then Work.stallWith e id
  else
    let (id, w) := e.begin w
    let bad := chks.filterMap (fun c => match c.2 with | .bad t => some (c.1, t) | _ => none)
    let w := w.fail id bad
    let accs : List Acc := chks.filterMap (fun c => match c.2 with
      | .va a => some { lane := c.1, va := a, op := op c.1, opId := id, nopre := recNopre rcd, strm := recStream rcd, colour := colour }
      | .skip => some { lane := c.1, va := 0, op := op c.1, opId := id, skip := true }
      | .bad _ => none)
    let noBreak (l : Nat) : Bool := (e.h.lane l).noBreak
    if colour = 0 then
      let r := w.s.perform e.h noBreak rcd accs
      match r.wait with
      | some chunks => Work.stallWith e (fun s => s.beginSaves e.ctx e.key.serial chunks)
      | none => (({ w with s := r.s } : Work).fail id r.traps).irrevocably e r.irrevocable
    else
      -- the lanes take the colour in ascending order (R336)
      let (w, go) := accs.foldl (fun (acc : Work × List Acc) a =>
        let (got, s) := acc.1.s.acquireColour e.key a.lane colour
        let w := { acc.1 with s := s, irrev := acc.1.irrev || got ≠ .held }
        match got with
        | .held | .granted => (w, acc.2 ++ [a])
        | .queued => (w.block e a.lane (.colour colour a), acc.2)
        | .trapped t => (w.fail id [(a.lane, t)], acc.2)) (w, [])
      -- lanes that share a line share its slot; those whose line finds none stay blocked (R193)
      let fit := (nub ((go.filter (fun a => !a.skip)).map (fun a => a.va / 256))).take (w.s.freeSlots e.core)
      let (now, later) := go.partition (fun a => a.skip || fit.contains (a.va / 256))
      let w := later.foldl (fun w a => w.block e a.lane (.slot a)) w
      let r := w.s.perform e.h noBreak rcd now
      if r.wait.isSome then
        let w := now.foldl (fun w a => w.block e a.lane (.slot a)) w
        { w with s := w.s.beginSaves e.ctx e.key.serial (r.wait.getD []) }
      else (({ w with s := r.s } : Work).fail id r.traps).irrevocably e r.irrevocable

/-- An access whose lanes are judged by check() (R191). -/
def Env.memory (e : Env) (rcd sz : Nat) (idx : Nat → Int) (op : Nat → AccOp) (k : AKind) (w : Work) : Work :=
  e.accessBy rcd (fun l => check rcd sz (idx l) k) op w

/-- The tasks of active lanes that are not irrevocable. -/
def Env.revocable (e : Env) (s : State) : List Nat :=
  nub (e.act.filterMap (fun l => match s.laneRun e.key l with
    | some r => if r.irrevocable then none else some r.id
    | none => none))

/-- The lanes whose tasks must run irrevocably first are taken out of active() (R366). -/
def Env.irrevocable (e : Env) (w : Work) (body : Env → Work → Work) : Work :=
  let runs := e.revocable w.s
  if runs.isEmpty then body e w
  else body { e with act := e.act.filter (fun l => !(runs.any (fun r => (e.h.lane l).task == some r))) } (w.irrevocably e runs)

/-- A record register of the issuing heat. -/
def Env.record (e : Env) (b : Nat) : Nat := e.h.b256 b

/-- An index of an M form (R205). -/
def Env.index (e : Env) (x : Index) (l : Nat) : Int := (indexOf e.base e.h e.mask l x : Nat)

/-- LD (R206). -/
def execLd (c : Com) (sg : Bool) (sz d : Nat) (x : Index) (b : Nat) (s : State) : Result :=
  issue (.ld c sg sz d x b) s (fun e w => e.memory (e.record b) sz (e.index x) (fun _ => .load sg sz d) .load w)

/-- A store's body: through a REMOTE record a task runs irrevocably first (R206, R366). -/
def Env.store (e : Env) (rcd sz d : Nat) (idx : Nat → Int) (w : Work) : Work :=
  let go (e : Env) (w : Work) : Work := e.memory rcd sz idx (fun l => .store ((e.h.lane l).elemBytes sz d)) .store w
  if recRemote rcd && !(recBad rcd) then e.irrevocable w go else go e w

/-- ST (R206). -/
def execSt (c : Com) (sg : Bool) (sz d : Nat) (x : Index) (b : Nat) (s : State) : Result :=
  issue (.st c sg sz d x b) s (fun e w => e.store (e.record b) sz d (e.index x) w)

/-- LDG (R207). -/
def execLdg (c : Com) (sg : Bool) (sz d : Nat) (x : GIndex) (b : Nat) (s : State) : Result :=
  issue (.ldg c sg sz d x b) s (fun e w =>
    e.memory (e.record b) sz (fun l => gindexOf e.base e.h e.mask l x) (fun _ => .load sg sz d) .load w)

/-- STG (R207). -/
def execStg (c : Com) (sg : Bool) (sz d : Nat) (x : GIndex) (b : Nat) (s : State) : Result :=
  issue (.stg c sg sz d x b) s (fun e w => e.store (e.record b) sz d (fun l => gindexOf e.base e.h e.mask l x) w)

/-- LDK (R209): the index of the lowest active lane serves every lane. -/
def execLdk (c : Com) (sz d : Nat) (x : Index) (b : Nat) (s : State) : Result :=
  issue (.ldk c sz d x b) s (fun e w =>
    let rcd := e.record b
    if recRemote rcd || recColour rcd != 0 then w.trapAll e.act { cause := .perm }
    else e.memory rcd sz (fun _ => e.index x e.lowest) (fun l => .loadDst sz (if l = e.lowest then some (.k d) else none) false) .load w)

/-! Scratchpad (R201, R202, R208). -/

/-- The unit of the issuing heat, which holds its region. -/
def State.heatUnit (s : State) (h : Heat) : Option RUnit := s.unit? h.unit

/-- Whether an engine owns a sector of a region: a copy in, or an array's read into scratchpad, that has not written it
(R222, R256). -/
def State.scrOwned (s : State) (unit sec : Nat) : Bool :=
  s.reqs.any (fun r => r.copy && ((s.heat? r.key).map (·.unit)) == some unit &&
    r.accs.any (fun a => match a.op with | .copyIn _ off => off / 64 == sec | _ => false)) ||
  s.arrays.any (fun a => a.2.q.any (fun o => o.unit == unit && o.fields.op == 0xA6 && o.fields.v0 &&
    o.off / 64 ≤ sec && 64 * sec < o.off + (o.fields.cnt + 1) * (if o.fields.v1 then 128 else 256)))

/-- What a scratchpad offset gives (R201). -/
def scrCheck (size off sz : Nat) : Option Trap :=
  if off % 2 ^ sz ≠ 0 then some { cause := .align } else if size < off + 2 ^ sz then some { cause := .bounds } else none

/-- Scratchpad accesses of lanes: for each lane the unit, the offset, or a cause. Loads write their registers at once;
their flag falls with them. -/
def Env.scratch (e : Env) (sz : Nat) (place : Nat → Except Trap (Nat × Nat)) (op : State → Nat → Nat → Nat → State) (w : Work) : Work :=
  let ps : List (Nat × Except Trap (Nat × Nat)) := e.act.map (fun l => (l, match place l with
    | .error t => .error t
    | .ok (u, off) => match scrCheck (((w.s.unit? u).map RUnit.size).getD 0) off sz with
      | some t => .error t
      | none => .ok (u, off)))
  if ps.any (fun p => match p.2 with | .ok (u, off) => w.s.scrOwned u (off / 64) | .error _ => false) then Work.stallWith e id
  else
    let w := if Instr.long e.i then { w with s := e.mark w.s } else w
    ps.foldl (fun w p => match p.2 with
      | .error t => w.trap p.1 t
      | .ok (u, off) => { w with s := op w.s p.1 u off }) w

/-- The bytes of a region. -/
def State.scrRead (s : State) (u off n : Nat) : List Byte := match s.unit? u with
  | none => []
  | some x => readBytes x.scr off n

def State.scrWrite (s : State) (u off : Nat) (bs : List Byte) : State := s.updUnit u (fun x => { x with scr := writeBytes x.scr off bs })

/-- The offset of LDS and STS (R208). -/
def Env.scrOff (e : Env) (x : Src) (a : Option Src) (l : Nat) : Nat := (e.src32 x l + e.rb a l) % 2 ^ 32

def Env.own (e : Env) (off : Nat → Nat) (l : Nat) : Except Trap (Nat × Nat) := .ok (e.h.unit, off l)

/-- LDS (R208). -/
def execLds (c : Com) (sg : Bool) (sz d : Nat) (x : Src) (a : Option Src) (s : State) : Result :=
  issue (.lds c sg sz d x a) s (fun e w =>
    e.scratch sz (e.own (e.scrOff x a)) (fun s l u off => s.updHeat e.key (fun h => h.setElem l sg sz d (ofBytes (s.scrRead u off (2 ^ sz))))) w)

/-- STS (R208). -/
def execSts (c : Com) (sg : Bool) (sz d : Nat) (x : Src) (a : Option Src) (s : State) : Result :=
  issue (.sts c sg sz d x a) s (fun e w =>
    e.scratch sz (e.own (e.scrOff x a)) (fun s l u off => s.scrWrite u off ((e.h.lane l).elemBytes sz d)) w)

/-- Where a quad position leads (R202): a cause, a wait, or the member's region. A position of 4 or more is BOUNDS in a
kernel without a QUAD entry too, BOUNDS being the lower code (R395). -/
inductive QuadPlace where
  | trap (t : Trap)
  | wait
  | unit (u : Nat)
deriving DecidableEq, Repr

def State.quadPlace (s : State) (h : Heat) (q : Nat) : QuadPlace :=
  if 4 ≤ q then .trap { cause := .bounds } else
  match s.unit? h.unit with
  | none => .trap { cause := .perm }
  | some u => match u.quad with
    | none => .trap { cause := .perm }
    | some (n, pos) =>
      if q = pos then .unit u.id
      else match s.units.find? (fun v => v.key.ctx == u.key.ctx && v.key.serial == u.key.serial && v.quad == some (n, q)) with
        | none => .trap { cause := .bounds }
        | some v => if v.retired then .trap { cause := .remoteGone } else if v.started then .unit v.id else .wait

/-- Accesses to quad members' regions (R202). A misaligned offset is ALIGN wherever the position leads (R201, R395). -/
def Env.quad (e : Env) (sz : Nat) (x pos : Src) (op : State → Nat → Nat → Nat → State) (w : Work) : Work :=
  if e.act.any (fun l => w.s.quadPlace e.h (e.src32 pos l) = .wait) then Work.stallWith e id
  else e.scratch sz (fun l => match w.s.quadPlace e.h (e.src32 pos l) with
    | .trap t => .error (if e.src32 x l % 2 ^ sz ≠ 0 then { cause := .align } else t)
    | .wait => .error { cause := .perm }
    | .unit u => .ok (u, e.src32 x l)) op w

/-- LDSR (R208). -/
def execLdsr (c : Com) (sg : Bool) (sz d : Nat) (x pos : Src) (s : State) : Result :=
  issue (.ldsr c sg sz d x pos) s (fun e w =>
    e.quad sz x pos (fun s l u off => s.updHeat e.key (fun h => h.setElem l sg sz d (ofBytes (s.scrRead u off (2 ^ sz))))) w)

/-- STSR (R208). -/
def execStsr (c : Com) (sg : Bool) (sz d : Nat) (x pos : Src) (s : State) : Result :=
  issue (.stsr c sg sz d x pos) s (fun e w =>
    e.quad sz x pos (fun s l u off => s.scrWrite u off ((e.h.lane l).elemBytes sz d)) w)

/-! Hints and maintenance (R210, R211). -/

/-- A line brought near: its sectors into the L1 where the die can serve them, else asked for (R210); a sector that an
engine owns is left alone (R222). -/
def State.prefetch (s : State) (core : Nat) (l2 strm : Bool) (line : Nat) : State :=
  (upto 4).foldl (fun s i =>
    let sec := 4 * line + i
    if s.poisoned (64 * sec) 64 || s.copyOwned sec then s
    else if s.readable (dieOf core) sec then
      (if l2 || (s.l1? core sec).isSome then s else s.fillL1 core sec strm)
    else s.ask (dieOf core) sec false) s

/-- PREF (R210). -/
def execPref (c : Com) (l2 : Bool) (sz : Nat) (x : Index) (b : Nat) (s : State) : Result :=
  issue (.pref c l2 sz x b) s (fun e w =>
    let rcd := e.record b
    if recBad rcd || sz ≠ recSize rcd || recRemote rcd then w
    else
      let lines := nub (e.act.filterMap (fun l => match check rcd sz (e.index x l) .load with
        | .va a => (match w.s.peek e.ctx e.die a .read with | .ok pa => some (pa / 256) | .error _ => none)
        | _ => none))
      { w with s := lines.foldl (fun s n => s.prefetch e.core l2 (recStream rcd) n) w.s })

/-- The lines that CMAINT's lanes address, and their causes (R211). -/
def Env.maintain (e : Env) (sz : Nat) (x : Index) (b : Nat) (f : State → Nat → State) (w : Work) : Work :=
  let rcd := e.record b
  if recRemote rcd && !(recBad rcd) then w
  else
    let chks := e.act.map (fun l => (l, check rcd sz (e.index x l) .load))
    let w := chks.foldl (fun w c => match c.2 with | .bad t => w.trap c.1 t | _ => w) w
    let accs : List Acc := chks.filterMap (fun c => match c.2 with
      | .va a => some { lane := c.1, va := a, op := .load false sz 0 }
      | _ => none)
    let (res, s) := State.translateAccs e.ctx e.core .read accs [] w.s
    let lines := nub (res.filterMap (fun r => match r.2 with | .ok pa => some (pa / 256) | .error _ => none))
    { w with s := lines.foldl f s }

/-- CMAINT.inv (R211). -/
def execCmaintInv (c : Com) (sz : Nat) (x : Index) (b : Nat) (s : State) : Result :=
  issue (.cmaintInv c sz x b) s (fun e w =>
    e.maintain sz x b (fun s line => s.l1Drop e.core (fun sec => sec / 4 == line)) w)

/-- A dirty sector written back to its home memory from whichever L2 holds it dirty; it stays cached, and clean (R211). -/
def State.cleanSector (s : State) (sec : Nat) : State :=
  let home := homeOf (64 * sec)
  let dirty := (upto 4).filter (fun d => match s.l2? d sec with
    | some x => x.st = .m ∨ x.st = .o ∨ x.st = .dirty
    | none => false)
  let s := if dirty.isEmpty then s else { s with mem := writeBytes s.mem (64 * sec) (s.cohSector sec) }
  dirty.foldl (fun s d => match s.l2? d sec with
    | none => s
    | some x =>
      let (st, dr) : L2St × DirSt := match x.st with | .m => (.e, .e) | .o => (.s, .s) | _ => (.clean, .s)
      let s := s.setL2 d sec { x with st := st }
      if d = home then s else
        let s := match s.l2? home sec with
          | some y => s.setL2 home sec { y with st := .clean, data := x.data }
          | none => s
        { s with dir := Tbl.set s.dir sec ({ holders := Tbl.set (s.holders sec) d dr } : DirEntry) }) s

/-- CMAINT.wb (R211). -/
def execCmaintWb (c : Com) (sz : Nat) (x : Index) (b : Nat) (s : State) : Result :=
  issue (.cmaintWb c sz x b) s (fun e w =>
    e.maintain sz x b (fun s line => (upto 4).foldl (fun s i => s.cleanSector (4 * line + i)) s) w)

/-- CMAINT.invall (R211). -/
def execCmaintInvall (c : Com) (s : State) : Result :=
  issue (.cmaintInvall c) s (fun e w => if e.act.isEmpty then w else { w with s := w.s.l1Drop e.core (fun _ => true) })

end Sys2Proof.Machine
end

