-- ==== Sys2Proof/Machine/Atomic.lean ====
section
/-! DEFINITION. Atomics (R212 to R215).
Readings logged: DEDUCED 16, 28, 32, 35, 78. -/

namespace Sys2Proof.Machine

/-- The type of an atomic's operands (R212). -/
def atomTy (kind : AtomKind) (sz : Nat) : Ty :=
  match kind with
  | .float => .f32
  | .unsigned => if sz = 3 then .n64 else .n32
  | .signed => if sz = 3 then .s64 else .s32

/-- The address rule of sync operations (R43, R214): the value word of a sync object. -/
def syncChk (sync wr : Bool) (x : Chk) : Chk :=
  match x with
  | .va a => if sync && a % 64 ≠ 0 then .bad { cause := .align, addr := some a, write := wr } else x
  | x => x

/-- A destination that several lanes name: a k register takes the lowest active lane's value (R101). -/
def Env.laneDst (e : Env) (d : Option Dst) (l : Nat) : Option Dst :=
  match d with
  | some (.k n) => if l = e.lowest then some (.k n) else none
  | d => d

/-- A destination read as a source. -/
def Dst.src : Dst → Src
  | .v n => .v n
  | .k n => .k n

/-- The heat waits until an operation it began has its results (R266, R282, R283), unless a lane of it waits in a monitor
queue, which another lane of the heat may have to leave. -/
def Work.awaitOp (w : Work) (e : Env) (id : Nat) : Work :=
  let queued (x : Lane) : Bool := match x.st with | .blocked (.colour _ a) => a.opId == id | _ => false
  if !w.stall && w.s.ops.any (fun o => o.id = id) && !(((w.s.heat? e.key).map (fun h => h.lanes.any queued)).getD false) then
    { w with s := w.s.updHeat e.key (fun h => { h with busy := some (.result id) }) }
  else w

/-- The count of what the heat's accesses precede, kept over the clocks in which a word waits for them (R281). -/
def Env.waitMark (e : Env) (s : State) : Nat := e.h.fence.getD s.nid

/-- The word does not issue in this clock, and keeps its mark (R113, R281). -/
def Work.waitOn (e : Env) (mark : Nat) : Work := Work.stallWith e (fun s => s.updHeat e.key (fun h => { h with fence := some mark }))

/-- A release at heat or core scope issues once what the heat did before it is performed (R266, R274, log entry 78). -/
def Env.afterOwed (e : Env) (w : Work) (f : Work → Work) : Work :=
  if e.act.isEmpty || !(w.s.owed e.h (e.waitMark w.s)) then f w else Work.waitOn e (e.waitMark w.s)

/-- A release at a wider scope enters its queue behind the completion words of the heat (R225, R266). -/
def Env.afterCpyw (e : Env) (w : Work) (f : Work → Work) : Work :=
  if e.act.isEmpty || e.h.cpyw.isEmpty then f w else Work.stallWith e id

/-- Whether an order releases (R214). -/
def ordReleases : Order → Bool
  | .release | .both => true
  | _ => false

/-- Whether an order acquires before what follows (R214). -/
def ordHolds : Order → Bool
  | .acquire | .both => true
  | _ => false

/-- A release at a scope, behind what it must follow. -/
def Env.releaseAt (e : Env) (sc : Scope) (rel : Bool) (w : Work) (f : Work → Work) : Work :=
  if !rel then f w else if 2 ≤ sc.code then e.afterCpyw w f else e.afterOwed w f

/-- ATOM and ACAS (R200, R213, R214, R366); what the heat issues after an acquiring one is held until it is answered
(R266). -/
def Env.atomic (e : Env) (rcd sz : Nat) (idx : Nat → Int) (op : AtomOp) (kind : AtomKind) (o : Order) (sc : Scope)
    (y : Nat → Nat) (cmp : Nat → Nat) (d : Option Dst) (w : Work) : Work :=
  if recRemote rcd then w.trapAll e.act { cause := .perm, write := true }
  else e.irrevocable w (fun e w => e.releaseAt sc (ordReleases o) w (fun w =>
    let r := e.accessBy rcd (fun l => syncChk (o ≠ .relaxed && 2 ≤ sc.code) true (check rcd sz (idx l) .rmw))
      (fun l => .rmw op kind sz sc o (y l) (cmp l) (e.laneDst d l)) w
    if ordHolds o then r.awaitOp e w.s.nid else r))

/-- ATOM (R213). -/
def execAtom (c : Com) (op : AtomOp) (kind : AtomKind) (sz : Nat) (o : Order) (sc : Scope) (d : Option Dst) (x : Index) (y : Src) (b : Nat)
    (s : State) : Result :=
  issue (.atom c op kind sz o sc d x y b) s (fun e w =>
    e.atomic (e.record b) sz (e.index x) op kind o sc (e.srcT (atomTy kind sz) y) (fun _ => 0) d w)

/-- ACAS (R213). -/
def execAcas (c : Com) (sz : Nat) (o : Order) (sc : Scope) (d : Dst) (x : Index) (y : Src) (b : Nat) (s : State) : Result :=
  issue (.acas c sz o sc d x y b) s (fun e w =>
    e.atomic (e.record b) sz (e.index x) .cas .unsigned o sc (e.srcT (atomTy .unsigned sz) y)
      (e.srcT (atomTy .unsigned sz) (Dst.src d)) (some d) w)

/-- ATOMS (R215). -/
def execAtoms (c : Com) (op : AtomOp) (kind : AtomKind) (sz : Nat) (o : Order) (sc : Scope) (d : Option Dst) (x y : Src) (s : State) : Result :=
  issue (.atoms c op kind sz o sc d x y) s (fun e w =>
    let t := atomTy kind sz
    e.releaseAt sc (ordReleases o) w (e.scratch sz (e.own (e.src32 x)) (fun s l u off =>
      let old := ofBytes (s.scrRead u off (2 ^ sz))
      let cmp := match d with | some d => e.srcT t (Dst.src d) l | none => 0
      let r := rmwOf op kind sz old (e.srcT t y l) cmp
      let s := (s.scrWrite u off (toBytes (2 ^ sz) r.1)).mergeFlags e.key l r.2
      match e.laneDst d l with
      | some d => s.updHeat e.key (fun h => h.setDst (sz == 3) l d old)
      | none => s)))

end Sys2Proof.Machine
end

