-- ==== Sys2Proof/Machine/Sync.lean ====
section
/-! DEFINITION. Ordering and waiting (R226, R227, R280 to R284).
Readings logged: DEDUCED 34, 35, 39. -/

namespace Sys2Proof.Machine

/-- Whether R282 turns every lane away: a colour, or a REMOTE record where none is allowed. -/
def syncRefused (rcd : Nat) (remoteOk : Bool) : Bool := !(recBad rcd) && (recColour rcd != 0 || (recRemote rcd && !remoteOk))

/-- LDACQ (R282): what the heat issues after it is held until its acquires are complete. -/
def execLdacq (c : Com) (sz : Nat) (sc : Scope) (d : Dst) (x : Index) (b : Nat) (s : State) : Result :=
  issue (.ldacq c sz sc d x b) s (fun e w =>
    let rcd := e.record b
    let sync : Bool := 2 ≤ sc.code
    if syncRefused rcd false then w.trapAll e.act { cause := .perm }
    else
      let r := e.accessBy rcd (fun l => syncChk sync false (check rcd sz (e.index x l) .load))
        (fun l => .loadDst sz (e.laneDst (some d) l) sync) { w with irrev := true }
      r.awaitOp e w.s.nid)

/-- STREL (R282, R366). -/
def execStrel (c : Com) (sz : Nat) (sc : Scope) (d : Src) (x : Index) (b : Nat) (s : State) : Result :=
  issue (.strel c sz sc d x b) s (fun e w =>
    let rcd := e.record b
    let sync : Bool := 2 ≤ sc.code
    if syncRefused rcd (sc = .system) then w.trapAll e.act { cause := .perm, write := true }
    else e.irrevocable w (fun e w => e.releaseAt sc true w (fun w =>
      let v (l : Nat) : Nat := if sz = 3 then e.src64 d l else e.src32 d l
      e.accessBy rcd (fun l => syncChk sync true (check rcd sz (e.index x l) .store))
        (fun l => if sync then .strel (v l) sc else .store (toBytes (2 ^ sz) (v l))) w)))

/-- SYADD (R283, R366). -/
def execSyadd (c : Com) (o : Order) (sc : Scope) (d : Option Dst) (x : Index) (y : Src) (b : Nat) (s : State) : Result :=
  issue (.syadd c o sc d x y b) s (fun e w =>
    let rcd := e.record b
    if syncRefused rcd false then w.trapAll e.act { cause := .perm, write := true }
    else e.irrevocable w (fun e w => e.releaseAt sc (ordReleases o) w (fun w =>
      let r := e.accessBy rcd (fun l => syncChk true true (check rcd 3 (e.index x l) .rmw))
        (fun l => .syadd (e.src64 y l) sc o (e.laneDst d l)) w
      if d.isSome || ordHolds o then r.awaitOp e w.s.nid else r)))

/-! FENCE (R281). -/

/-- Whether an access of a heat is one that never uses the L1 (R264). -/
def Acc.far (a : Acc) : Bool :=
  match a.op with
  | .rmw _ _ _ sc _ _ _ _ => 2 ≤ sc.code
  | .loadDst _ _ acq => acq
  | .syadd .. | .strel .. | .copyIn .. | .copyOut .. => true
  | _ => false

/-- Whether an engine operation of a heat before a mark is incomplete: a copy, or a matrix operation that it has signed
(R233, R259, R281). -/
def State.engineBusy (s : State) (h : Heat) (mark : Nat) : Bool :=
  let mine (g : Signer) : Bool := g.heat == h.key.heat && g.born < mark
  s.ops.any (fun o => o.isCopy && o.key = h.key && o.id < mark) ||
  s.arrays.any (fun a => a.2.q.any (fun o => o.ctx == h.key.ctx && o.serial == h.key.serial && o.team == h.key.team && o.signers.any mine)) ||
  (match (s.unit? h.unit).bind (fun u => u.team? h.key.team) with
    | some t => t.partials.any (fun p => p.2.signers.any mine)
    | none => false)

/-- Whether the parts of a fence that apply are all done (R266, R281). -/
def State.fenceDone (s : State) (h : Heat) (kind : FenceKind) (eng : Bool) (sc : Scope) (mark : Nat) : Bool :=
  let own := s.reqs.filter (fun r => r.key = h.key && r.id < mark)
  let mine := own.filter (fun r => !r.copy)
  let rels := s.rels.filter (fun r => r.ctx == h.key.ctx && r.origin == h.core && r.id < mark)
  let reads : Bool := mine.any (fun r => r.accs.any Acc.reads) || rels.any (fun r => match r.val with | .rmw k _ => k = h.key | _ => false)
  (kind = .acq || (mine.isEmpty && rels.isEmpty && !(h.cpyw.any (fun p => p.before < mark)))) &&
  !reads && (!eng || !(s.engineBusy h mark)) &&
  (sc.code < 3 || (upto 4).all (fun d => s.drained d mark)) &&
  (sc ≠ .system || !(own.any (fun r => r.remote.isSome && r.write))) &&
  (sc ≠ .heat || (rels.isEmpty && !(mine.any (fun r => r.remote.isSome || r.accs.any Acc.far))))

/-- FENCE (R281). -/
def execFence (c : Com) (kind : FenceKind) (eng : Bool) (sc : Scope) (s : State) : Result :=
  issue (.fence c kind eng sc) s (fun e w =>
    if e.act.isEmpty then w
    else
      let mark := e.waitMark w.s
      if w.s.fenceDone e.h kind eng sc mark then
        { w with s := if (kind = .acq ∨ kind = .full) ∧ 2 ≤ sc.code then w.s.invalidateAll e.ctx e.core else w.s }
      else Work.waitOn e mark)

/-! Barriers (R284). An arrival is a release at core scope (R266). -/

/-- The barrier of the issuing heat's team, and the team's heat count. -/
def Env.barrier (e : Env) (s : State) (n : Nat) : Bar × Nat :=
  match (s.unit? e.h.unit).bind (fun u => u.team? e.key.team) with
  | none => ({}, 0)
  | some t => (Tbl.get {} t.bars n, t.heats)

/-- Whether a count is out of place at an arrival (R284). -/
def badCount (b : Bar) (heats count : Nat) : Bool := count == 0 || heats < count || (b.arrived != 0 && count != b.expect)

/-- BAR (R284). -/
def execBar (c : Com) (n : Nat) (b : Option Src) (s : State) : Result :=
  issue (.bar c n b) s (fun e w =>
    if e.act.isEmpty then w
    else
      let (x, heats) := e.barrier w.s n
      let count := match b with | none => heats | some b => e.src32 b e.lowest
      let w := { w with irrev := true }
      if bit x.arrived e.key.heat then e.each (fun w l => w.block e l (.bar n)) w
      else if badCount x heats count then w.trapAll e.act { cause := .perm }
      else
        e.afterOwed w (fun w =>
          let w := e.each (fun w l => w.block e l (.bar n)) w
          { w with s := w.s.arrive e.h n count }))

/-- BARA (R284). -/
def execBara (c : Com) (n : Nat) (b : Option Src) (s : State) : Result :=
  issue (.bara c n b) s (fun e w =>
    if e.act.isEmpty then w
    else
      let (x, heats) := e.barrier w.s n
      let count := match b with | none => heats | some b => e.src32 b e.lowest
      if bit x.arrived e.key.heat then Work.stallWith e id
      else if badCount x heats count then w.trapAll e.act { cause := .perm }
      else e.afterOwed w (fun w => { w with s := w.s.arrive e.h n count, irrev := true }))

/-! WAITA (R226, R227). -/

/-- WAITA: each lane is judged and then blocked (R227). -/
def execWaita (c : Com) (d : Option Nat) (a b : Src) (cmp : WaitCmp) (sg w64 scr : Bool) (acq : Option Scope) (s : State) : Result :=
  issue (.waita c d a b cmp sg w64 scr acq) s (fun e w =>
    let sz := if w64 then 3 else 2
    let y (l : Nat) : Nat := if w64 then e.src64 b l else e.src32 b l
    let wait (w : Work) (l addr : Nat) : Work := w.block e l (.waita scr addr cmp sg w64 (y l) d (w.s.now + 2 ^ 20) acq)
    e.each (fun w l =>
      if scr then
        let off := e.src32 a l
        match scrCheck (((w.s.unit? e.h.unit).map RUnit.size).getD 0) off sz with
        | some t => w.trap l t
        | none => wait w l off
      else
        let va := e.src64 a l
        let sync : Bool := match acq with | some sc => 2 ≤ sc.code | none => false
        if va % 2 ^ sz ≠ 0 || (sync && (va % 64 ≠ 0 || !w64)) then w.trap l { cause := .align, addr := some va }
        else if !(canonical va) then w.trap l { cause := .perm, addr := some va }
        else match w.s.translate e.ctx e.die (some e.core) va .read with
          | (.error x, s) => ({ w with s := s } : Work).trap l { cause := x, addr := some va }
          | (.ok _, s) => wait { w with s := s } l va) w)

end Sys2Proof.Machine
end

