-- ==== Sys2Proof/Machine/Ring.lean ====
section
/-! DEFINITION. Baton rings: the ring object (R55, R56), readiness (R228), the ring instructions (R229 to R235) and the
parts of them that the copy engine shares.
Readings logged: DESIGN CHOICE 82. -/

namespace Sys2Proof.Machine

/-! The ring object (R55) as the 64 bytes it stands in. -/

/-- An unsigned field of n bytes. -/
def rg (o : List Byte) (off n : Nat) : Nat := ofBytes ((o.drop off).take n)

def ringBase (o : List Byte) : Nat := rg o 0 4
def ringBytes (o : List Byte) : Nat := rg o 4 4
def ringSlots (o : List Byte) : Nat := rg o 8 1
def ringStages (o : List Byte) : Nat := rg o 9 1
def ringFlags (o : List Byte) : Nat := rg o 10 1
def ringPtr (o : List Byte) (st : Nat) : Nat := rg o (16 + 2 * st) 2
def ringState (o : List Byte) (i : Nat) : Nat := rg o (24 + i) 1
def ringSplitBase (o : List Byte) : Nat := rg o 40 8
def ringSplitSeq (o : List Byte) : Nat := rg o 48 8
def ringSplitCap (o : List Byte) : Nat := rg o 56 4

/-- The code of a stage (R55). -/
def stageCode : Stage → Nat
  | .fill => 0 | .operate => 1 | .drain => 2

/-- Whether the template part of an object follows R55: bytes 0 to 10, 40 to 47 and 56 to 59. -/
def ringTemplateOk (o : List Byte) : Bool :=
  ringBase o % 256 == 0 && ringBytes o % 256 == 0 && 256 ≤ ringBytes o && ringBytes o ≤ 65536 && 2 ≤ ringSlots o && ringSlots o ≤ 16 &&
  (ringStages o == 2 || ringStages o == 3) && ringFlags o < 2 && ringSplitBase o % 64 == 0 &&
  1 ≤ ringSplitCap o && ringSplitCap o ≤ 65536 && ringSplitCap o == 2 ^ (ringSplitCap o).log2

/-- Whether an object's slots lie in the region, and recording has a base (R56). -/
def ringFits (o : List Byte) (size : Nat) : Bool :=
  ringBase o + ringSlots o * ringBytes o ≤ size && (ringFlags o == 0 || ringSplitBase o != 0)

/-- Whether an object follows R55 and R56; of the slot states, those below the slot count are judged (log entry 82). -/
def ringOk (o : List Byte) (size : Nat) : Bool :=
  ringTemplateOk o && rg o 11 5 == 0 && rg o 22 2 == 0 && rg o 60 4 == 0 &&
  (upto 3).all (fun st => ringPtr o st < 32 && ringPtr o st % 16 < ringSlots o) && (ringStages o == 3 || ringPtr o 1 == 0) &&
  (upto (ringSlots o)).all (fun i => ringState o i < 16 && ringState o i % 4 < 3) &&
  ringFits o size

/-- The slot and the phase of a stage's pointer. -/
def ringAt (o : List Byte) (st : Nat) : Nat × Bool := (ringPtr o st % 16, bit (ringPtr o st) 4)

/-- Whether a slot is owned by a stage. -/
def ringOwned (o : List Byte) (st i : Nat) : Bool := ringState o i % 4 == st

/-- Whether the slot that a stage's pointer names stands ready for the stage (R228). -/
def ringReady (o : List Byte) (st : Nat) : Bool :=
  let (i, ph) := ringAt o st
  let p := bit (ringState o i) 2
  ringOwned o st i && (if st = 0 then p != ph else p == ph)

/-- The judgement of a ring object's offset (R229). -/
def ringOffset (size a : Nat) : Option Trap :=
  if a % 64 ≠ 0 then some { cause := .align } else if size < a + 64 then some { cause := .bounds } else none

/-- The ring object and the region's size at the issuing heat's unit. -/
def Env.ring (e : Env) (s : State) (a : Nat) : List Byte × Nat :=
  (s.scrRead e.h.unit a 64, ((s.unit? e.h.unit).map RUnit.size).getD 0)

def hidKey (ring slot : Nat) : Nat := 16 * ring + slot

/-- The hidden state of a slot changed (R233, R234). -/
def State.updHid (s : State) (unit ring slot : Nat) (f : SlotHid → SlotHid) : State :=
  s.updUnit unit (fun u => { u with hid := Tbl.set u.hid (hidKey ring slot) (f (Tbl.get {} u.hid (hidKey ring slot))) })

/-- A stage runs on a core: the round begins there, or has moved (R57, R234). -/
def SlotHid.touch (h : SlotHid) (core : Nat) : SlotHid :=
  { h with began := some (h.began.getD core), moved := h.moved || (h.began.getD core) != core }

/-- An RAWAIT on a slot ends (R232, R234). -/
def SlotHid.waited (h : SlotHid) (st : Stage) (core clock : Nat) : SlotHid :=
  let h := h.touch core
  if st = .operate then { h with wait := clock } else h

/-- Whether a bound copy of a slot is incomplete (R231). -/
def State.slotBusy (s : State) (unit ring slot : Nat) : Bool :=
  s.ops.any (fun o => o.ring = some (ring, slot) && ((s.heat? o.key).map (·.unit)) == some unit)

/-- The slot's fault bit set (R231). -/
def State.ringFault (s : State) (unit ring slot : Nat) : State :=
  s.scrWrite unit (ring + 24 + slot) (toBytes 1 (rg (s.scrRead unit (ring + 24 + slot) 1) 0 1 ||| 8))

/-- A ring instruction: its offset judged, then its object (R56, R229); a scratchpad sector that an engine owns makes it
wait (R222). -/
def Env.ringOp (e : Env) (a : Src) (f : Work → Nat → List Byte → Work) (w : Work) : Work :=
  if e.act.isEmpty then w
  else
    let off := e.src32 a e.lowest
    let (o, size) := e.ring w.s off
    match ringOffset size off with
    | some t => w.trapAll e.act t
    | none =>
      if w.s.scrOwned e.h.unit (off / 64) then Work.stallWith e id
      else if !(ringOk o size) then w.trapAll e.act { cause := .perm }
      else f w off o

/-- A stage hands on its slot; the hand-off is then pending (R233). -/
def Env.handOn (e : Env) (st : Stage) (a : Src) (w : Work) : Work :=
  e.ringOp a (fun w off o =>
    let (i, ph) := ringAt o (stageCode st)
    if (st = .operate ∧ ringStages o = 2) ∨ !(ringReady o (stageCode st)) then w.trapAll e.act { cause := .perm }
    else
      let j := if i + 1 = ringSlots o then 0 else i + 1
      let ph' := if j = 0 then !ph else ph
      let s := w.s.scrWrite e.h.unit (off + 16 + 2 * (stageCode st)) (toBytes 2 (j + 16 * b2n ph'))
      let ho : HandOff := { ring := off, slot := i, stage := st, phase := ph, heat := e.key.heat, team := e.key.team, before := s.nid }
      { w with s := { s.updUnit e.h.unit (fun u => { u with handoffs := u.handoffs ++ [ho] }) with nid := s.nid + 1 } }) w

/-- RFILL (R233). -/
def execRfill (c : Com) (a : Src) (s : State) : Result := issue (.rfill c a) s (fun e w => e.handOn .fill a w)

/-- RPUSH (R233). -/
def execRpush (c : Com) (a : Src) (s : State) : Result := issue (.rpush c a) s (fun e w => e.handOn .operate a w)

/-- RRELEASE (R233). -/
def execRrelease (c : Com) (a : Src) (s : State) : Result := issue (.rrelease c a) s (fun e w => e.handOn .drain a w)

/-- A lane's wait on a ring ends: the slot's fault bit goes to the predicate (R232). -/
def Lane.ringDone (x : Lane) (d : Option Nat) (fault : Bool) : Lane := match d with
  | none => x
  | some n => x.setP n fault

/-- RAWAIT (R232). -/
def execRawait (c : Com) (st : Stage) (d : Option Nat) (a : Src) (s : State) : Result :=
  issue (.rawait c st d a) s (fun e w => e.ringOp a (fun w off o =>
    let (i, _) := ringAt o (stageCode st)
    if (st = .operate ∧ ringStages o = 2) ∨ (ringOwned o (stageCode st) i ∧ !(ringReady o (stageCode st))) then w.trapAll e.act { cause := .perm }
    else if ringReady o (stageCode st) then
      let w := e.each (fun w l => { w with s := w.s.updLane e.key l (fun x => x.ringDone d (bit (ringState o i) 3)) }) w
      { w with s := w.s.updHid e.h.unit off i (fun h => h.waited st e.core (w.s.clock e.core).toNat) }
    else e.each (fun w l => w.block e l (.rawait off st d)) w) w)

/-- The bytes of a template in eight k registers (R230). -/
def Heat.template (h : Heat) (k : Nat) : List Byte := (upto 8).flatMap (fun i => toBytes 8 (h.k64 (k + i)))

/-- RINIT (R230). -/
def execRinit (c : Com) (a : Src) (k : Nat) (s : State) : Result :=
  issue (.rinit c a k) s (fun e w =>
    if e.act.isEmpty then w
    else
      let off := e.src32 a e.lowest
      let (_, size) := e.ring w.s off
      let t := e.h.template k
      match ringOffset size off with
      | some x => w.trapAll e.act x
      | none =>
        if !(ringTemplateOk t && rg t 11 29 == 0 && rg t 48 8 == 0 && rg t 60 4 == 0) || !(ringFits t size) then w.trapAll e.act { cause := .perm }
        else if w.s.scrOwned e.h.unit (off / 64) || (upto 16).any (w.s.slotBusy e.h.unit off) ||
            ((w.s.unit? e.h.unit).map (fun u => u.handoffs.any (fun x => x.ring == off))).getD false then Work.stallWith e id
        else
          let states := (upto 16).flatMap (fun i => toBytes 1 (if i < ringSlots t then 4 else 0))
          let bytes := t.take 24 ++ states ++ t.drop 40
          { w with s := (w.s.scrWrite e.h.unit off bytes).updUnit e.h.unit (fun u => { u with hid := u.hid.filter (fun x => x.1 / 16 ≠ off) }) })

/-- SPLIT (R235). -/
def execSplit (c : Com) (fin : Bool) (a : Src) (s : State) : Result :=
  issue (.split c fin a) s (fun e w => e.ringOp a (fun w off o =>
    let st := if ringStages o = 2 then 2 else 1
    let (i, _) := ringAt o st
    if !(ringReady o st) then w.trapAll e.act { cause := .perm }
    else
      let t := (w.s.clock e.core).toNat
      { w with s := w.s.updHid e.h.unit off i (fun h => let h := h.touch e.core; if fin then { h with cend := t } else { h with cstart := t }) }) w)

/-- What the slot that a stage's pointer names gives a lane that waits on it: it stands ready, or its phase disagrees, which
is PERM (R232). -/
def ringWait (o : List Byte) (st : Stage) : Option (Except Trap Nat) :=
  let n := stageCode st
  if ringReady o n then some (.ok (ringAt o n).1) else if ringOwned o n (ringAt o n).1 then some (.error { cause := .perm }) else none

/-- The lanes of a unit that wait on a ring for a stage: heat, lane, predicate. -/
def State.ringWaiters (s : State) (unit ring : Nat) (st : Stage) : List (HeatKey × Nat × Option Nat) :=
  (s.heats.filter (fun h => h.unit = unit && !h.saved)).flatMap (fun h => (upto h.lanes.length).filterMap (fun l => match (h.lane l).st with
    | .blocked (.rawait r t d) => if r = ring ∧ t = st then some (h.key, l, d) else none
    | _ => none))

/-- The lanes of a unit that wait on a ring for a stage go on, or raise PERM (R232, R234). -/
def State.wakeStage (s : State) (unit ring : Nat) (st : Stage) : State :=
  match s.unit? unit with
  | none => s
  | some u =>
    let o := readBytes u.scr ring 64
    let ws := s.ringWaiters unit ring st
    if ws.isEmpty then s
    else match ringWait o st with
      | none => s
      | some (.ok i) =>
        let s := ws.foldl (fun s w => s.updLane w.1 w.2.1 (fun x => { x.advance.ringDone w.2.2 (bit (ringState o i) 3) with st := .running })) s
        s.updHid unit ring i (fun h => h.waited st u.core (s.clock u.core).toNat)
      | some (.error t) =>
        let pcOf (w : HeatKey × Nat × Option Nat) : Nat := ((s.lane? w.1 w.2.1).map (·.pc)).getD 0
        (nub (ws.map (fun w => (w.1, pcOf w)))).foldl (fun s g =>
          raiseAll s g.1 g.2 ((ws.filter (fun w => w.1 = g.1 ∧ pcOf w = g.2)).map (fun w => (w.2.1, t)))) s

/-- Lanes of a unit that wait on a ring look at it again (R232). -/
def State.wakeRing (s : State) (unit ring : Nat) : State :=
  ((s.wakeStage unit ring .fill).wakeStage unit ring .operate).wakeStage unit ring .drain

end Sys2Proof.Machine
end

