-- ==== Sys2Proof/Machine/Copy.lean ====
section
/-! DEFINITION. Asynchronous copies and completion words (R219 to R225).
Readings logged: DEDUCED 27, 37. -/

namespace Sys2Proof.Machine

/-- The cause with the lowest code (R395). -/
def leastTrap (ts : List Trap) : Option Trap := leastBy (fun t => t.cause.code) ts

/-- The copy that a parked lane replays (R224): its lane stands at the copy's word again. -/
def State.replays (s : State) (key : HeatKey) (pc l : Nat) : Option Op :=
  s.ops.find? (fun o => o.isCopy && o.key = key && o.pc == pc && o.parked.contains l)

/-- A lane's own causes in a copy: the record's check, the scratchpad offset, and the colour that it must hold (R220,
R223). -/
def Env.copyTraps (e : Env) (s : State) (rcd sz off : Nat) (c : Chk) (l : Nat) : List Trap :=
  let size := ((s.unit? e.h.unit).map RUnit.size).getD 0
  (match c with | .bad t => [t] | _ => []) ++ (scrCheck size off sz).toList ++
  (if !(recBad rcd) && recColour rcd != 0 && !((e.h.lane l).holds (recColour rcd)) then [{ cause := .monitorState }] else [])

/-- The ring slot to which a new copy is bound, or the cause that every lane raises (R231). -/
def Env.bind (e : Env) (s : State) (out : Bool) (ring : Option Src) : Except Trap (Option (Nat × Nat)) :=
  match ring with
  | none => .ok none
  | some a =>
    let off := e.src32 a e.lowest
    let (o, size) := e.ring s off
    let st := if out then 2 else 0
    match ringOffset size off with
    | some t => .error t
    | none => if !(ringOk o size) || !(ringReady o st) then .error { cause := .perm } else .ok (some (off, (ringAt o st).1))

/-- A new copy enters the list of operations; its trapped lanes are parked on it (R224). -/
def State.addCopy (s : State) (e : Env) (colour : Nat) (slot : Option (Nat × Nat)) (unbound : Bool) (left parked : List Nat) : State :=
  let o : Op := { id := s.nid, key := e.key, pc := e.pc, left := left, parked := parked, blk := some (e.hdrAddr, e.hdr), isCopy := true
                  ring := slot, colour := colour, lanes := left ++ parked, unbound := unbound, born := s.now }
  { s with nid := s.nid + 1, ops := s.ops ++ [o] }

/-- The effects of a bound copy's issue on its slot: the start stamp, and the core of its stage (R234). -/
def State.stampStart (s : State) (e : Env) (out : Bool) (slot : Option (Nat × Nat)) : State :=
  match slot with
  | some (ring, i) => s.updHid e.h.unit ring i (fun h =>
      let h := h.touch e.core
      if !out && h.start = 0 then { h with start := (s.clock e.core).toNat } else h)
  | none => s

/-- One element of a copy written at a place, unless a higher lane of the copy has written it (R220). -/
def State.copyElem (s : State) (a : Acc) (place : Nat) (write : State → State) : State :=
  match s.ops.find? (fun o => o.id = a.opId) with
  | none => write s
  | some o =>
    if a.lane + 1 < Tbl.get 0 o.wrote place then s
    else
      let s := write s
      { s with ops := modifyFirst (fun o => o.id = a.opId) (fun o => { o with wrote := Tbl.set o.wrote place (a.lane + 1) }) s.ops }

/-- A copy's requests, one for each line (R221). -/
def State.sendCopies (s : State) (h : Heat) (out : Bool) (accs : List Acc) : State :=
  (nub (accs.map (fun a => a.va / 256))).foldl (fun s ln =>
    { s with nid := s.nid + 1, reqs := s.reqs ++ [({ id := s.nid, key := h.key, ctx := h.key.ctx, core := h.core, line := ln
                                                     accs := accs.filter (fun a => a.va / 256 = ln), write := out, copy := true, born := s.now } : Req)] }) s

/-- A copy's requests through a REMOTE record, one for each line (R223). -/
def State.sendRemoteCopies (s : State) (h : Heat) (handle : Nat) (entry : List Byte) (accs : List Acc) : State :=
  (nub (accs.map (fun a => a.va / 256))).foldl (fun s ln => s.sendRemote h handle entry true (accs.filter (fun a => a.va / 256 = ln))) s

/-- The lanes of a replay leave the parked lanes of their copies, which are bound where they were not (R224, R231). -/
def State.replay (s : State) (old : Nat → Option Op) (pass replaying : List Nat) (slot : Option (Nat × Nat)) (bound : Bool) : State :=
  { s with ops := s.ops.map (fun (p : Op) =>
      let mine (l : Nat) : Bool := p.isCopy && (old l).map Op.id == some p.id
      let back := pass.filter mine
      let p := if p.unbound && bound && replaying.any mine then { p with unbound := false, ring := slot } else p
      { p with parked := p.parked.filter (fun l => !back.contains l), left := p.left ++ back }) }

/-- CPYIN and CPYOUT (R219 to R224, R231). -/
def Env.copy (e : Env) (out : Bool) (sz : Nat) (o : Src) (x : Index) (ring : Option Src) (b : Nat) (w : Work) : Work :=
  let rcd := e.record b
  let kind : AKind := if out then .store else .load
  let off (l : Nat) : Nat := e.src32 o l
  let chk (l : Nat) : Chk := check rcd sz (e.index x l) kind
  let old (l : Nat) : Option Op := w.s.replays e.key e.pc l
  let fresh := e.act.filter (fun l => (old l).isNone)
  -- the lanes that have no slot yet: of a new copy, or of one whose issue found none
  let binds (l : Nat) : Bool := match old l with | some p => p.unbound | none => true
  let bound : Except Trap (Option (Nat × Nat)) := if e.act.any binds then e.bind w.s out ring else .ok none
  let causes (l : Nat) : List Trap := e.copyTraps w.s rcd sz (off l) (chk l) l ++
    (match bound with | .error t => if binds l then [t] else [] | .ok _ => [])
  let good := e.act.filter (fun l => (causes l).isEmpty)
  let newId := w.s.nid
  let opOf (l : Nat) : Nat := match old l with | some o => o.id | none => newId
  let acc (l : Nat) (va : Nat) : Acc := { lane := l, va := va, op := if out then .copyOut sz (off l) else .copyIn sz (off l), opId := opOf l, nopre := recNopre rcd }
  let accs := good.filterMap (fun l => match chk l with | .va a => some (acc l a) | _ => none)
  let skips := good.filterMap (fun l => match chk l with | .skip => some (acc l 0) | _ => none)
  let lines := nub (accs.map (fun a => a.va / 256))
  let (res, s) := if recRemote rcd then (accs.map (fun a => (a, Except.ok 0)), w.s)
    else State.translateAccs e.ctx e.core (if out then .write else .read) accs [] w.s
  let (en, s) := if recRemote rcd && !accs.isEmpty then s.endpoint e.ctx e.die (recEndpoint rcd) else (some [], s)
  let noEnd : Bool := recRemote rcd && !(match en with | some b => endpointOut (s.ctx e.ctx) b | none => false)
  let trapOf (r : Acc × Except Cause Nat) : Option Trap :=
    match r.2 with
    | .error c => some { cause := c, addr := some r.1.va, write := out }
    | .ok _ =>
      if noEnd then some { cause := .perm, addr := some r.1.va, write := out }
      else if !(recRemote rcd) && e.h.debug && !((e.h.lane r.1.lane).noBreak) && (s.ctx e.ctx).watched r.1.va (2 ^ sz) kind then some { cause := .brk }
      else none
  let traps := e.act.filterMap (fun l => (leastTrap (causes l)).map (fun t => (l, t))) ++
    res.filterMap (fun r => (trapOf r).map (fun t => (r.1.lane, t)))
  let go := (res.filter (fun r => (trapOf r).isNone)).map (·.1)
  let pas := if recRemote rcd then [] else go.map (fun a => a.pa)
  let chunks := if out && !(recNopre rcd) then s.unsavedChunks e.h pas else []
  if w.s.freeSlots e.core < lines.length || pas.any (fun p => s.ownPending e.key (p / 64)) ||
      skips.any (fun a => !out && w.s.scrOwned e.h.unit (off a.lane / 64)) then Work.stallWith e id
  else if !chunks.isEmpty then Work.stallWith e (fun s => s.beginSaves e.ctx e.key.serial chunks)
  else
    let trapped := traps.map (·.1)
    let unbound : Bool := match bound with | .error _ => true | .ok _ => false
    let slot := match bound with | .ok r => r | .error _ => none
    -- the operation of the lanes that issue the copy anew
    let s := if fresh.isEmpty then s
      else s.addCopy e (if recBad rcd then 0 else recColour rcd) slot unbound (fresh.filter (fun l => !trapped.contains l)) (fresh.filter trapped.contains)
    let s := if e.act.any binds then s.stampStart e out slot else s
    let s := s.replay old (e.act.filter (fun l => !trapped.contains l)) e.act slot (!unbound)
    let faults := nub (e.act.filterMap (fun l => if trapped.contains l then (if binds l then slot else (old l).bind Op.ring) else none))
    let s := faults.foldl (fun s f => s.ringFault e.h.unit f.1 f.2) s
    let s := skips.foldl (fun s a =>
      (if out then s else s.copyElem a (off a.lane) (fun s => s.scrWrite e.h.unit (off a.lane) (List.replicate (2 ^ sz) 0))).opDone a.opId a.lane) s
    if recRemote rcd then { w with s := s.sendRemoteCopies e.h (recEndpoint rcd) (en.getD []) go, traps := w.traps ++ traps }
    else
      let s := if out then go.foldl (fun s a => (s.l1Drop e.core (fun c => c / 4 == a.pa / 256)).bankIn e.ctx e.core a.pa) s else s
      let s := s.sendCopies e.h out go
      let s := (nub (go.map (fun a => a.pa / 64))).foldl (fun s c =>
        if (if out then s.owns e.die c else s.readable e.die c) then s else s.ask e.die c out) s
      { w with s := s, traps := w.traps ++ traps }

/-- CPYIN (R220). -/
def execCpyin (c : Com) (sz : Nat) (o : Src) (x : Index) (ring : Option Src) (b : Nat) (s : State) : Result :=
  issue (.cpyin c sz o x ring b) s (fun e w => e.copy false sz o x ring b w)

/-- CPYOUT (R220). -/
def execCpyout (c : Com) (sz : Nat) (o : Src) (x : Index) (ring : Option Src) (b : Nat) (s : State) : Result :=
  issue (.cpyout c sz o x ring b) s (fun e w => e.copy true sz o x ring b w)

/-- The completion words of a heat that are not performed: those that wait for their copies, those whose releases are
owed, and those whose lanes wait for a colour (R225). -/
def State.cpywPending (s : State) (h : Heat) : Nat :=
  (nub (h.cpyw.map (·.before) ++ s.rels.filterMap (fun r => r.cpyw.bind (fun c => if c.1 = h.key then some c.2 else none)) ++
    h.lanes.filterMap (fun x => match x.st with
      | .blocked (.colour _ a) | .blocked (.slot a) => if a.op.isCpyw then some a.opId else none
      | _ => none))).length

/-- CPYW (R225): judged and translated at issue, performed after the copies before it. -/
def execCpyw (c : Com) (sz : Nat) (sc : Scope) (a : Src) (x : Index) (b : Nat) (s : State) : Result :=
  issue (.cpyw c sz sc a x b) s (fun e w =>
    let rcd := e.record b
    if recRemote rcd then w.trapAll e.act { cause := .perm, write := true }
    else if 16 ≤ w.s.cpywPending e.h then Work.stallWith e id
    else e.accessBy rcd (fun l => syncChk (2 ≤ sc.code) true (check rcd sz (e.index x l) .rmw))
      (fun l => .cpyw (if sz = 3 then e.src64 a l else e.src32 a l) sz sc) w)

end Sys2Proof.Machine
end

