-- ==== Sys2Proof/Machine/Matrix.lean ====
section
/-! DEFINITION. The matrix arrays: marks and signing (R241 to R244), checks (R250), the instructions of row 0xA (R249 to
R257), and the performing of queued operations (R161 to R164, R246 to R258).
Readings logged: DEDUCED 24, 42, 43. -/

namespace Sys2Proof.Machine

/-! Modes (R245). -/

def mfAct : MFmt → Fmt
  | .bf16 | .c4 => fmtBf16
  | .e4m3 | .e4m3e5m2 => fmtE4m3
  | .e5m2e4m3 | .e5m2 => fmtE5m2

def mfWt : MFmt → Fmt
  | .bf16 | .c4 => fmtBf16
  | .e4m3 | .e5m2e4m3 => fmtE4m3
  | .e4m3e5m2 | .e5m2 => fmtE5m2

/-- The product group (R161). -/
def mfGroup : MFmt → Nat
  | .bf16 => 16 | .c4 => 64 | _ => 32

/-- Bytes of a vector (R245) and of a plane (R246). -/
def mfVec : MFmt → Nat
  | .bf16 => 128 | .c4 => 32 | _ => 64

def mfPlane : MFmt → Nat
  | .bf16 => 8192 | .c4 => 2112 | _ => 4096

/-! Exact arithmetic of a pass (R161 to R164). -/

/-- A BF16 input flushed where it is subnormal (R163). -/
def flushBf16 (w : Nat) : Nat × Nat :=
  if fld w 7 8 = 0 ∧ fld w 0 7 ≠ 0 then (w - fld w 0 7, fFLUSH) else (w, 0)

/-- A group of products summed exactly and rounded once (R161). -/
def groupSum (ps : List (FV × Nat)) : Nat × Nat :=
  let fl := ps.foldl (fun w p => w ||| p.2) 0
  let vs := ps.map (·.1)
  if vs.any FV.isNan then (fmtF32.nan, fl)
  else if vs.contains (.inf true) && vs.contains (.inf false) then (fmtF32.nan, fl ||| fIV)
  else if vs.contains (.inf true) then (fmtF32.encode .rn 0 false (.inf true) |>.1, fl)
  else if vs.contains (.inf false) then (fmtF32.encode .rn 0 false (.inf false) |>.1, fl)
  else
    let x := match vs with
      | [] => FV.fin false 0 0 false
      | v :: vs => vs.foldl (fun a b => (addV .rn a b).1) v
    let r := fmtF32.encode .rn 0 false x
    (r.1, fl ||| r.2)

/-- d := round_f32(a - w); s := round_f32(d × d) (R164). -/
def sqDist (a w : FV) : Nat × Nat :=
  let d := fmtF32.result .rn 0 false [a, w] (addV .rn a w.neg)
  let q := fmtF32.mul .rn 0 false d.1 d.1
  (q.1, d.2 ||| q.2)

/-- One level of the balanced tree: adjacent pairs added, each rounded (R164). -/
def pairUp : List Nat → List Nat × Nat
  | x :: y :: t =>
    let r := fmtF32.add .rn 0 false x y
    let q := pairUp t
    (r.1 :: q.1, r.2 ||| q.2)
  | l => (l, 0)

/-- The tree sum of 2^n values (R164). -/
def treeSum : Nat → List Nat → Nat × Nat
  | 0, l => (l.headD 0, 0)
  | n + 1, l =>
    let p := pairUp l
    let r := treeSum n p.1
    (r.1, p.2 ||| r.2)

/-- The code4 table entry of an activation code and a weight code (R162, R164, R248). -/
def Plane.entry (p : Plane) (i j : Nat) : Nat × Nat :=
  let a := fmtBf16.decode (p.booksA.getD i 0)
  let w := fmtBf16.decode (p.booksW.getD j 0)
  if p.dist then
    let q := sqDist a w
    let r := fmtBf16.encode .rn 0 false (fmtF32.decode q.1)
    (r.1, q.2 ||| r.2)
  else fmtBf16.result .rn 0 false [a, w] (mulV a w)

/-- The weight at a K position and a column (R238). -/
def Plane.at (p : Plane) (k c : Nat) : Nat := Tbl.get 0 p.w (64 * k + c)

/-- One group of a column: activation codes with weight codes, in ascending K (R161, R164, R254). -/
def Plane.group (p : Plane) (f : MFmt) (dist : Bool) (xs : List (Nat × Nat)) : Nat × Nat :=
  let n := (mfGroup f).log2
  match f with
  | .c4 =>
    if dist then treeSum n (xs.map (fun x => (p.entry x.1 x.2).1 * 2 ^ 16))
    else groupSum (xs.map (fun x => (fmtBf16.decode (p.entry x.1 x.2).1, 0)))
  | _ =>
    let vs := xs.map (fun x => ((mfAct f).decode x.1, (mfWt f).decode x.2))
    if dist then
      let qs := vs.map (fun v => sqDist v.1 v.2)
      let r := treeSum n (qs.map (·.1))
      (r.1, qs.foldl (fun w q => w ||| q.2) r.2)
    else
      let nan := vs.foldl (fun w v => w ||| nanFlags [v.1, v.2]) 0
      let r := groupSum (vs.map (fun v => mulV v.1 v.2))
      (r.1, r.2 ||| nan)

/-- The first `n` pieces of k elements of a list. -/
def pieces {α : Type} (k : Nat) : Nat → List α → List (List α)
  | 0, _ => []
  | n + 1, l => l.take k :: pieces k n (l.drop k)

/-- One column's accumulator after a vector (R254). -/
def Plane.column (p : Plane) (f : MFmt) (dist : Bool) (x : List Nat) (c acc : Nat) : Nat × Nat :=
  let xs := x.zip ((upto 64).map (fun k => p.at k c))
  (pieces (mfGroup f) (64 / (mfGroup f)) xs).foldl (fun (a : Nat × Nat) g =>
    let s := p.group f dist g
    let r := fmtF32.add .rn 0 false a.1 s.1
    (r.1, a.2 ||| s.2 ||| r.2)) (acc, 0)

/-! Layouts in scratchpad (R246). -/

/-- The numbers of `e` bytes each that a list of bytes holds. -/
def numbers (e n : Nat) (b : List Byte) : List Nat := (upto n).map (fun i => ofBytes ((b.drop (e * i)).take e))

/-- The four-bit codes of a list of bytes, the low one first. -/
def nibbles (b : List Byte) : List Nat := b.flatMap (fun x => [x.toNat % 16, x.toNat / 16])

/-- A vector's codes as they enter the array, and the flags of flushes (R163, R246). -/
def mfVector (f : MFmt) (b : List Byte) : List Nat × Nat :=
  match f with
  | .c4 => (nibbles b, 0)
  | .bf16 =>
    let r := (numbers 2 64 b).map flushBf16
    (r.map (·.1), r.foldl (fun w x => w ||| x.2) 0)
  | _ => (numbers 1 64 b, 0)

/-- A dense list as a table without zeros. -/
def tblOf (l : List Nat) : Tbl Nat := ((upto l.length).zip l).filter (fun e => e.2 ≠ 0)

/-- The plane that MLDW reads, with the flags it raises (R248, R252). -/
def mfLoad (f : MFmt) (dist : Bool) (b : List Byte) : Plane × Nat :=
  match f with
  | .c4 =>
    let bk := (numbers 2 32 b).map flushBf16
    let p : Plane := { w := tblOf (nibbles (b.drop 64)), mode := some .c4, dist := dist
                       booksA := (bk.map (·.1)).take 16, booksW := (bk.map (·.1)).drop 16 }
    let fl := (upto 16).foldl (fun w i => (upto 16).foldl (fun w j => w ||| (p.entry i j).2) w) 0
    (p, bk.foldl (fun w x => w ||| x.2) fl)
  | .bf16 =>
    let r := (numbers 2 4096 b).map flushBf16
    ({ w := tblOf (r.map (·.1)), mode := some .bf16 }, r.foldl (fun w x => w ||| x.2) 0)
  | f => ({ w := tblOf (numbers 1 4096 b), mode := some f }, 0)

/-! Accumulators. -/

def MArray.row (a : MArray) (r : Nat) : List Nat := (upto 64).map (fun c => (Tbl.get 0 a.acc (64 * r + c)).toNat)
def MArray.setRow (a : MArray) (r : Nat) (xs : List Nat) : MArray :=
  { a with acc := ((upto 64).zip xs).foldl (fun t e => Tbl.put 0 t (64 * r + e.1) (BitVec.ofNat 32 e.2)) a.acc }
def MArray.clear (a : MArray) (row n : Nat) : MArray :=
  { a with acc := a.acc.filter (fun e => !(row ≤ e.1 / 64 && e.1 / 64 < row + n)) }

/-! Performing an operation (R251 to R258). -/

/-- MSTR and MDIST over vectors from bytes (R254). -/
def MArray.stream (a : MArray) (f : MFields) (m : MFmt) (b : List Byte) : MArray × Nat :=
  (upto (f.cnt + 1)).foldl (fun (acc : MArray × Nat) v =>
    let x := mfVector m ((b.drop (v * (mfVec m))).take (mfVec m))
    let old := acc.1.row (f.row + v)
    let cs := (upto 64).map (fun c => acc.1.stat.column m (f.op == 0xA4) x.1 c (if f.v0 then 0 else old.getD c 0))
    (acc.1.setRow (f.row + v) (cs.map (·.1)), cs.foldl (fun w r => w ||| r.2) (acc.2 ||| x.2))) (a, 0)

/-- MTOPK's ranking of a row: columns with values, NaNs last, ties to the lower column (R255). -/
def topk (max : Bool) (row : List Nat) : List (Nat × Nat) :=
  let isNan (x : Nat) : Bool := (fmtF32.decode x).isNan
  let before (x y : Nat × Nat) : Bool :=
    match isNan x.2, isNan y.2 with
    | false, true => true
    | true, false => false
    | true, true => x.1 ≤ y.1
    | false, false =>
      let (a, b) := if max then (fmtF32.order y.2, fmtF32.order x.2) else (fmtF32.order x.2, fmtF32.order y.2)
      a < b || (a == b && x.1 ≤ y.1)
  ((upto row.length).zip row).mergeSort before

/-- The key of a signer's heat. -/
def MOp.heatKey (o : MOp) (h : Nat) : HeatKey := { ctx := o.ctx, serial := o.serial, team := o.team, heat := h }

/-- Whether a signing lane still waits for its operation. -/
def State.signs (s : State) (x : SignLane) : Bool := s.ops.any (fun o => o.id == x.op && o.left.contains x.lane)

/-- A result of 32 bits in each of two registers for every signing lane of every signer, which are then done (R243). -/
def State.results (s : State) (o : MOp) (f : Nat → Nat × Nat) : State :=
  o.signers.foldl (fun s g => g.lanes.foldl (fun s x =>
    if s.signs x then
      ((s.updLane (o.heatKey g.heat) x.lane (fun y => (y.setV o.fields.d (f x.lane).1).setV (o.fields.d + 1) (f x.lane).2)).opDone x.op x.lane)
    else s) s) s

/-- Every signing lane of an operation done (R244). -/
def State.signed (s : State) (o : MOp) : State :=
  o.signers.foldl (fun s g => g.lanes.foldl (fun s x => if s.signs x then s.opDone x.op x.lane else s) s) s

/-- A queued operation performed: registers and scratchpad first written, then the array, and the flags to the operand
heat (R160, R243, R251 to R257). -/
def State.perform1 (s : State) (core : Nat) (arr : Bool) (o : MOp) : State :=
  let a := s.array core arr
  let f := o.fields
  let put (s : State) (a : MArray) (fl : Nat) : State :=
    (s.updArray core arr (fun x => { a with q := x.q })).updHeat (o.heatKey o.operandHeat) (fun h => { h with nflags := h.nflags ||| fl })
  let mode := a.stat.mode.getD .bf16
  match f.op with
  | 0xA1 =>
    let m := f.fmt.getD .bf16
    let r := mfLoad m f.v0 (s.scrRead o.unit o.off (mfPlane m))
    (put s { a with shadow := r.1 } r.2).signed o
  | 0xA2 => (put s { a with stat := a.shadow, shadow := a.stat } 0).signed o
  | 0xA3 | 0xA4 =>
    let r := a.stream f mode (s.scrRead o.unit o.off ((f.cnt + 1) * (mfVec mode)))
    (put s r.1 r.2).signed o
  | 0xA5 =>
    let sel := (topk f.v0 (a.row f.row)).take (f.cnt + 1)
    let val (x : Nat) : Nat := if (fmtF32.decode x).isNan then fmtF32.nan else x
    let takes (x : SignLane) : Bool := s.signs x && ((sel[x.lane]?).map (fun e => (fmtF32.decode e.2).isNan)).getD false
    let fl := if o.signers.any (fun g => g.lanes.any takes) then fNANIN else 0
    (put s a fl).results o (fun l => match sel[l]? with
      | some e => (e.1, val e.2)
      | none => (0xFFFFFFFF, if f.v0 then 0xFF800000 else 0x7F800000))
  | 0xA6 =>
    let n := if f.v0 then f.cnt + 1 else 1
    let cleared := if f.v2 then a.clear f.row n else a
    if f.v0 then
      let rows := (upto n).flatMap (fun i => a.row (f.row + i))
      if f.v1 then
        let rs := rows.map (fun x => let v := fmtF32.decode x; fmtBf16.result .rn 0 false [v] (v, 0))
        let s := s.scrWrite o.unit o.off (rs.flatMap (fun r => toBytes 2 r.1))
        (put s cleared (rs.foldl (fun w r => w ||| r.2) 0)).signed o
      else (put (s.scrWrite o.unit o.off (rows.flatMap (toBytes 4))) cleared 0).signed o
    else
      let row := a.row f.row
      (put s cleared 0).results o (fun l => (row.getD l 0, row.getD (32 + l) 0))
  | _ => (put s (if f.v0 then { a with acc := [] } else a.clear f.row (f.cnt + 1)) 0).signed o

/-- The accumulator rows that an operation reads or writes (R254 to R257). -/
def MFields.rows (f : MFields) (r : Nat) : Bool :=
  match f.op with
  | 0xA1 | 0xA2 => false
  | 0xA5 => r == f.row
  | 0xA6 => f.row ≤ r && r ≤ f.row + (if f.v0 then f.cnt else 0)
  | 0xA7 => f.v0 || (f.row ≤ r && r ≤ f.row + f.cnt)
  | _ => f.row ≤ r && r ≤ f.row + f.cnt

/-- Whether an operation finds an uncorrectable error in what it reads (R261). -/
def MArray.finds (a : MArray) (f : MFields) : Bool :=
  match f.op with
  | 0xA3 | 0xA4 => a.badStat || (!f.v0 && a.badRows.any f.rows)
  | 0xA5 | 0xA6 => a.badRows.any f.rows
  | _ => false

/-- The errors that stand in an array after an operation: what it has written afresh holds none, and MSWAP exchanges the
planes (R253, R261). -/
def MArray.renew (a : MArray) (f : MFields) : MArray :=
  match f.op with
  | 0xA1 => { a with badShadow := false }
  | 0xA2 => { a with badStat := a.badShadow, badShadow := a.badStat }
  | 0xA5 => a
  | 0xA6 => if f.v2 then { a with badRows := a.badRows.filter (fun r => !(f.rows r)) } else a
  | _ => { a with badRows := a.badRows.filter (fun r => !(f.rows r)) }

/-- MATRIX_OP_COMPLETE (R247, R258, R261): the head of an array's queue is performed; where it finds an uncorrectable error
its lanes trap instead. -/
def State.matrixStep (s : State) (core : Nat) (arr : Bool) : State :=
  match (s.array core arr).q with
  | [] => s
  | o :: rest =>
    let finds := (s.array core arr).finds o.fields
    let s := s.updArray core arr (fun x => { x with q := rest })
    if finds then o.signers.foldl (fun s g => (nub (g.lanes.map (·.op))).foldl (fun s i =>
        s.lateTraps i ((g.lanes.filter (fun x => x.op = i)).map (fun x => (x.lane, { cause := .uncorrectable })))) s) s
    else (s.perform1 core arr o).updArray core arr (fun x => x.renew o.fields)

/-- MATRIX_OP_COMPLETE. -/
def execMatrixOpComplete (core : Nat) (arr : Bool) (s : State) : Result := .next (s.matrixStep core arr)

/-! Signing (R242 to R244). -/

/-- The modes of the planes as every queued operation leaves them: stationary, then shadow (R250). -/
def MArray.view (a : MArray) : (Option MFmt × Bool) × (Option MFmt × Bool) :=
  a.q.foldl (fun v o => match o.fields.op with
    | 0xA1 => (v.1, (o.fields.fmt, o.fields.v0))
    | 0xA2 => (v.2, v.1)
    | _ => v) ((a.stat.mode, a.stat.dist), (a.shadow.mode, a.shadow.dist))

/-- The alignment and the bytes of an operation's offset (R246, R250). -/
def MFields.span (f : MFields) : Option (Nat × Nat) :=
  match f.op, f.fmt with
  | 0xA1, some m => some (256, (mfPlane m))
  | 0xA3, some m | 0xA4, some m => some ((mfVec m), (f.cnt + 1) * (mfVec m))
  | 0xA6, _ => if f.v0 then (if f.v1 then some (128, 128 * (f.cnt + 1)) else some (256, 256 * (f.cnt + 1))) else none
  | _, _ => none

/-- The causes of R250. -/
def matrixTraps (a : MArray) (size : Nat) (f : MFields) (off : Nat) : List Trap :=
  (match f.span with
    | none => []
    | some (al, n) => (if off % al ≠ 0 then [{ cause := .align }] else []) ++ (if size < off + n then [{ cause := .bounds }] else [])) ++
  (if f.op = 0xA3 ∨ f.op = 0xA4 then
    let st := a.view.1
    if st.1 ≠ f.fmt ∨ st.1 = none ∨ (f.fmt = some .c4 ∧ st.2 ≠ (f.op == 0xA4)) then [{ cause := .perm }] else []
   else [])

/-- The heats that a mark names (R241). -/
def Mark.names (m : Mark) : List Nat := (bitsOf m.heats 32).map (fun b => 32 * m.group + b)

/-- A signature with the lanes of another issue (R242). -/
def joinSigner (heat born : Nat) (ls : List SignLane) (gs : List Signer) : List Signer :=
  if gs.any (fun g => g.heat == heat) then gs.map (fun g => if g.heat = heat then { g with lanes := g.lanes ++ ls } else g)
  else gs ++ [{ heat := heat, lanes := ls, born := born }]

/-- The signing lanes that still wait, by heat in ascending order. -/
def State.waiting (s : State) (p : Partial) : List (Nat × List SignLane) :=
  ((p.signers.map (fun g => (g.heat, (g.lanes.filter s.signs).mergeSort (fun x y => x.lane ≤ y.lane)))).filter
    (fun g => !g.2.isEmpty)).mergeSort (fun x y => x.1 ≤ y.1)

/-- A lane that waits for a mark's operation goes on (R242). -/
def Lane.sealed (m : Nat) (x : Lane) : Lane :=
  match x.st with
  | .blocked (.sign n) => if n = m then { x.advance with st := .running } else x
  | _ => x

/-- What a fully signed operation becomes: its blocked lanes trap or go on, and it enters the queue (R242, R243, R250).
The result names the cause for the lanes of the issue that completed it. -/
def State.fullySigned (s : State) (u : RUnit) (t : Team) (ctx serial m : Nat) (p : Partial) (mine : Nat → Nat → Bool) : Option Trap × State :=
  let f := p.fields
  let key (h : Nat) : HeatKey := { ctx := ctx, serial := serial, team := t.team, heat := h }
  let s := s.updTeam u.id t.team (fun t => { t with partials := Tbl.erase t.partials m })
  let w := s.waiting p
  let others := w.flatMap (fun g => (g.2.filter (fun x => !(mine g.1 x.lane))).map (fun x => (g.1, x)))
  match w with
  | [] => (none, s)
  | (heat, ls) :: _ =>
    let off := (ls.head?.map (·.operand)).getD 0
    match leastBy (fun (t : Trap) => t.cause.code) (matrixTraps (s.array u.core f.arr) u.size f off) with
    | some x =>
      let s := w.foldl (fun s g => g.2.foldl (fun s y => s.opDone y.op y.lane) s) s
      let pcOf (o : Nat × SignLane) : Nat := ((s.lane? (key o.1) o.2.lane).map (·.pc)).getD 0
      let groups := nub (others.map (fun o => (o.1, pcOf o)))
      (some x, groups.foldl (fun s g => raiseAll s (key g.1) g.2
        ((others.filter (fun o => o.1 = g.1 ∧ pcOf o = g.2)).map (fun o => (o.2.lane, x)))) s)
    | none =>
      let o : MOp := { id := s.nid, ctx := ctx, serial := serial, team := t.team, unit := u.id, fields := f, off := off
                       signers := p.signers.map (fun g => { g with lanes := g.lanes.filter s.signs }), operandHeat := heat }
      let s := others.foldl (fun s o => s.updLane (key o.1) o.2.lane (Lane.sealed m)) s
      (none, { s with nid := s.nid + 1 }.updArray u.core f.arr (fun a => { a with q := a.q ++ [o] }))

/-- Whether every heat of a mark has signed or exited (R242). -/
def State.allSigned (s : State) (unit team : Nat) (mk : Mark) (signers : List Nat) : Bool :=
  let live := s.liveHeats unit team
  mk.names.all (fun h => signers.contains h || !live.contains h)

/-- Operations that only exited heats had not signed become fully signed (R242). -/
def State.settleMarks (s : State) (unit team : Nat) (ctx serial : Nat) : State :=
  (upto 8).foldl (fun s m =>
    match s.unit? unit with
    | none => s
    | some u => match u.team? team with
      | none => s
      | some t => match Tbl.find? t.partials m with
        | none => s
        | some p =>
          if s.allSigned unit team (Tbl.get {} t.marks m) (p.signers.map (·.heat)) && (s.array u.core p.fields.arr).q.length < 16 then
            (s.fullySigned u t ctx serial m p (fun _ _ => false)).2
          else s) s

/-- A signed instruction (R242). -/
def Env.sign (e : Env) (m : Nat) (f : MFields) (a : Option Src) (w : Work) : Work :=
  match w.s.unit? e.h.unit with
  | none => w
  | some u => match u.team? e.key.team with
    | none => w
    | some t =>
      let mk := Tbl.get {} t.marks m
      let wd := encode e.i
      let word := fld wd 0 48 + fld wd 56 8 * 2 ^ 56
      let old := Tbl.find? t.partials m
      if !(mk.names.contains e.key.heat) || (match old with | some p => p.word != word | none => false) then w.trapAll e.act { cause := .perm }
      else
        let p := old.getD { word := word, fields := f, signers := [] }
        let full := w.s.allSigned u.id t.team mk (e.key.heat :: p.signers.map (·.heat))
        if full && 16 ≤ (w.s.array u.core f.arr).q.length then Work.stallWith e id
        else
          let born := w.s.nid
          let (id, w) := e.begin w
          let ls : List SignLane := e.act.map (fun l => { lane := l, operand := e.rb a l, op := id })
          let p := { p with signers := joinSigner e.key.heat born ls p.signers }
          if full then
            let (x, s) := w.s.fullySigned u t e.ctx e.key.serial m p (fun h l => h == e.key.heat && e.act.contains l)
            let w := { w with s := s }
            match x with
            | some x => w.trapAll e.act x
            | none => w
          else
            let w := { w with s := w.s.updTeam u.id t.team (fun t => { t with partials := Tbl.set t.partials m p }) }
            e.each (fun w l => w.block e l (.sign m)) w

/-! Marks (R251). -/

/-- MMARK's write, with the checks of R251. -/
def Env.setMark (e : Env) (m : Nat) (x : Mark) (w : Work) : Work :=
  if e.act.isEmpty then w
  else match (w.s.unit? e.h.unit).bind (fun u => u.team? e.key.team) with
    | none => w
    | some t =>
      if x.names.any (fun h => t.heats ≤ h) || (Tbl.find? t.partials m).isSome then w.trapAll e.act { cause := .perm }
      else { w with s := w.s.updTeam e.h.unit e.key.team (fun t => { t with marks := Tbl.put {} t.marks m x }) }

/-- MMARK.self (R251). -/
def execMmarkSelf (c : Com) (m : Nat) (s : State) : Result := issue (.mmarkSelf c m) s (fun e w =>
  e.setMark m { heats := 2 ^ (e.key.heat % 32), group := e.key.heat / 32 } w)

/-- MMARK.mask (R251). -/
def execMmarkMask (c : Com) (m g : Nat) (a : Src) (s : State) : Result := issue (.mmarkMask c m g a) s (fun e w =>
  e.setMark m { heats := e.src32 a e.lowest, group := g } w)

/-- MMARK.clear (R251). -/
def execMmarkClear (c : Com) (m : Nat) (s : State) : Result := issue (.mmarkClear c m) s (fun e w => e.setMark m {} w)

/-! The signed instructions. -/

/-- MLDW (R252). -/
def execMldw (c : Com) (m : Nat) (arr : Bool) (f : MFmt) (dist : Bool) (a : Src) (s : State) : Result :=
  issue (.mldw c m arr f dist a) s (fun e w =>
    e.sign m { op := 0xA1, arr := arr, fmt := some f, row := 0, cnt := 0, d := 0, v0 := dist } (some a) w)

/-- MSWAP (R253). -/
def execMswap (c : Com) (m : Nat) (arr : Bool) (s : State) : Result :=
  issue (.mswap c m arr) s (fun e w => e.sign m { op := 0xA2, arr := arr, fmt := none, row := 0, cnt := 0, d := 0 } none w)

/-- MSTR (R254). -/
def execMstr (c : Com) (m : Nat) (arr : Bool) (f : MFmt) (ovw : Bool) (row : Nat) (a : Src) (cnt : Nat) (s : State) : Result :=
  issue (.mstr c m arr f ovw row a cnt) s (fun e w =>
    e.sign m { op := 0xA3, arr := arr, fmt := some f, row := row, cnt := cnt, d := 0, v0 := ovw } (some a) w)

/-- MDIST (R254). -/
def execMdist (c : Com) (m : Nat) (arr : Bool) (f : MFmt) (ovw : Bool) (row : Nat) (a : Src) (cnt : Nat) (s : State) : Result :=
  issue (.mdist c m arr f ovw row a cnt) s (fun e w =>
    e.sign m { op := 0xA4, arr := arr, fmt := some f, row := row, cnt := cnt, d := 0, v0 := ovw } (some a) w)

/-- MTOPK (R255). -/
def execMtopk (c : Com) (m : Nat) (arr max : Bool) (row d cnt : Nat) (s : State) : Result :=
  issue (.mtopk c m arr max row d cnt) s (fun e w =>
    e.sign m { op := 0xA5, arr := arr, fmt := none, row := row, cnt := cnt, d := d, v0 := max } none w)

/-- MRD (R256). -/
def execMrd (c : Com) (m : Nat) (arr clr : Bool) (row d : Nat) (s : State) : Result :=
  issue (.mrd c m arr clr row d) s (fun e w =>
    e.sign m { op := 0xA6, arr := arr, fmt := none, row := row, cnt := 0, d := d, v2 := clr } none w)

/-- MRD.scr (R256). -/
def execMrdScr (c : Com) (m : Nat) (arr bf clr : Bool) (row : Nat) (a : Src) (cnt : Nat) (s : State) : Result :=
  issue (.mrdScr c m arr bf clr row a cnt) s (fun e w =>
    e.sign m { op := 0xA6, arr := arr, fmt := none, row := row, cnt := cnt, d := 0, v0 := true, v1 := bf, v2 := clr } (some a) w)

/-- MCLR (R257). -/
def execMclr (c : Com) (m : Nat) (arr all : Bool) (row cnt : Nat) (s : State) : Result :=
  issue (.mclr c m arr all row cnt) s (fun e w =>
    e.sign m { op := 0xA7, arr := arr, fmt := none, row := row, cnt := cnt, d := 0, v0 := all } none w)

end Sys2Proof.Machine
end

