-- ==== Sys2Proof/Machine/Monitor.lean ====
section
/-! DEFINITION. The monitor instructions and the events of monitors: CLAIM, MWAIT, notification, HELD, MREPAIR, grants
and timeouts (R339 to R351).
Readings logged: DEDUCED 29, 61. -/

namespace Sys2Proof.Machine

/-- A blocked lane goes on at the next word (R111). -/
def Lane.goOn (x : Lane) : Lane := { x.advance with st := .running }

/-- A lane that is blocked at its word raises a cause there. -/
def State.trapBlocked (s : State) (key : HeatKey) (l : Nat) (t : Trap) : State :=
  raiseAll s key (((s.lane? key l).map (·.pc)).getD 0) [(l, t)]

/-- An access that a lane could not make when it issued: made now, or still waiting for a slot, a save or its own older
access (R193, R335, R437). -/
def State.retryAccess (s : State) (key : HeatKey) (l : Nat) (a : Acc) : State :=
  match s.heat? key with
  | none => s
  | some h =>
    if !a.skip && s.freeSlots h.core = 0 && !(s.slotShared a) then s.updLane key l (fun x => { x with st := .blocked (.slot a) })
    else
      let r : AccOut := if a.skip then { s := s.skipLanes key [a] } else s.access h (fun _ => false) a.nopre a.strm [a]
      match r.wait with
      | some chunks => (s.beginSaves key.ctx key.serial chunks).updLane key l (fun x => { x with st := .blocked (.slot a) })
      | none => match r.traps, r.irrevocable with
        | t :: _, _ => (r.s.opDone a.opId l).trapBlocked key l t.2
        | [], run :: _ => (r.s.opDone a.opId l).abort run .irrevocable
        | [], [] => r.s.updLane key l Lane.goOn

/-- Every lane that waits for a request slot tries again, in the order of heats and lanes. -/
def State.retrySlots (s : State) : State :=
  let ws := s.heats.flatMap (fun h => (upto h.lanes.length).filterMap (fun l => match (h.lane l).st with
    | .blocked (.slot a) => if h.saved then none else some (h.key, l, a)
    | _ => none))
  ws.foldl (fun s w => s.retryAccess w.1 w.2.1 w.2.2) s

/-! CLAIM (R347). -/

/-- The colours of a claim acquired in order, until one has to be waited for or traps (R347). -/
def State.claim (key : HeatKey) (l : Nat) : List Nat → State → Option Acquired × State
  | [], s => (none, s)
  | c :: cs, s => match s.acquireColour key l c with
    | (.queued, s) => (some .queued, s.updLane key l (fun x => { x with st := .blocked (.claim (c :: cs)) }))
    | (.trapped t, s) => (some (.trapped t), s)
    | (_, s) => State.claim key l cs s

/-- Whether a list rises strictly. -/
def rising : List Nat → Bool
  | a :: b :: t => a < b && rising (b :: t)
  | _ => true

/-- The checks of R347 before any acquisition: a cause, or the colours to acquire. -/
def claimCheck (x : Lane) (raw : List Nat) : Except Trap (List Nat) :=
  let u := raw.filter (· ≠ 0)
  let n := u.filter (fun c => !(x.holds c))
  if raw.any (fun c => 4096 ≤ c) then .error { cause := .perm }
  else if !(rising u) then .error { cause := .monitorOrder }
  else if n.any (fun c => x.held.any (fun e => c < e.colour)) then .error { cause := .monitorOrder }
  else if 8 < x.held.length + n.length then .error { cause := .monitorFull }
  else .ok n

/-- CLAIM (R347). -/
def execClaim (c : Com) (a n : Nat) (s : State) : Result := issue (.claim c a n) s (fun e w =>
  e.each (fun w l =>
    let x := e.h.lane l
    match claimCheck x ((upto (n + 1)).map (fun i => x.v32 (a + i))) with
    | .error t => w.trap l t
    | .ok cs => match w.s.claim e.key l cs with
      | (some (.trapped t), s) => ({ w with s := s, irrev := true } : Work).trap l t
      | (some _, s) => ({ w with s := s, irrev := true } : Work).hold l
      | (none, s) => { w with s := s, irrev := w.irrev || !cs.isEmpty }) w)

/-! Colour operands (R346). -/

/-- A colour operand of MWAIT, MNOTE, MNOTEALL and MREPAIR, which the lane must hold (R346, R348, R349, R351). -/
def colourTrap (x : Lane) (c : Nat) : Option Trap :=
  if 4096 ≤ c then some { cause := .perm } else if !(x.holds c) then some { cause := .monitorState } else none

/-- MWAIT (R348). -/
def execMwait (c : Com) (d : Option Nat) (a : Src) (t : Nat) (s : State) : Result := issue (.mwait c d a t) s (fun e w =>
  e.each (fun w l =>
    let x := e.h.lane l
    let col := e.src32 a l
    match colourTrap x col with
    | some y => w.trap l y
    | none =>
      if x.task.isSome then w.trap l { cause := .monitorState }
      else if x.held.any (fun y => col < y.colour) then w.trap l { cause := .monitorOrder }
      else
        let d0 := ((x.held.find? (fun y => y.colour = col)).map (·.depth)).getD 0
        let w := w.block e l (.mwait col d0 d 0 (2 ^ t) false false false)
        { w with s := w.s.beginMwait e.key l col, irrev := true }) w)

/-- A sleeper becomes an acquirer at the tail of its queue, and takes the colour at once where it is free (R343). -/
def State.wakeSleeper (s : State) (ctx c : Nat) (v : Waiter) (notified : Bool) : State :=
  let s := s.setMonQ ctx c (removeFirst (fun x => x = v) (s.monQ ctx c) ++ [{ v with sleeper := false }])
  let s := s.updLane v.key v.lane (fun x => match x.st with
    | .blocked (.mwait c depth d dl span _ _ r) => { x with st := .blocked (.mwait c depth d dl span false notified r) }
    | _ => x)
  if (s.entryPa ctx c).map s.ownerOf = some noThread then s.handOver ctx c else s

/-- MNOTE's and MNOTEALL's notification by a lane (R349). -/
def Env.note (e : Env) (a : Src) (all : Bool) (w : Work) : Work :=
  e.each (fun w l =>
    let col := e.src32 a l
    match colourTrap (e.h.lane l) col with
    | some y => w.trap l y
    | none =>
      let vs := (w.s.monQ e.ctx col).filter (·.sleeper)
      { w with s := (if all then vs else vs.take 1).foldl (fun s v => s.wakeSleeper e.ctx col v true) w.s }) w

/-- MNOTE (R349). -/
def execMnote (c : Com) (a : Src) (s : State) : Result := issue (.mnote c a) s (fun e w => e.note a false w)

/-- MNOTEALL (R349). -/
def execMnoteall (c : Com) (a : Src) (s : State) : Result := issue (.mnoteall c a) s (fun e w => e.note a true w)

/-- HELD.test (R350). -/
def execHeldTest (c : Com) (d : Nat) (a : Src) (s : State) : Result := issue (.heldTest c d a) s (fun e w =>
  e.each (fun w l => { w with s := w.s.updLane e.key l (fun x => x.setP d ((e.h.lane l).holds (e.src32 a l))) }) w)

/-- A word of HELD.list (R350). -/
def heldWord (x : Lane) (i : Nat) : Nat := match x.held[i]? with
  | none => 0
  | some h => h.colour + h.depth * 2 ^ 12 + b2n h.pending * 2 ^ 20

/-- HELD.list (R350). -/
def execHeldList (c : Com) (d : Dst) (a : Src) (s : State) : Result := issue (.heldList c d a) s (fun e w =>
  e.compute false d (fun l => (heldWord (e.h.lane l) (e.src32 a l), 0)) w)

/-- MREPAIR (R351). -/
def execMrepair (c : Com) (a : Src) (s : State) : Result := issue (.mrepair c a) s (fun e w =>
  e.each (fun w l =>
    let col := e.src32 a l
    match colourTrap (e.h.lane l) col with
    | some y => w.trap l y
    | none => match w.s.entryPa e.ctx col with
      | none => w
      | some pa => { w with s := w.s.setAbandoned pa false }) w)

/-! Events. -/

/-- The lane that owns a colour and has not taken its grant. -/
def State.grantee (s : State) (ctx c : Nat) : Option (HeatKey × Nat × Nat) :=
  match s.entryPa ctx c with
  | none => none
  | some pa =>
    let (key, l) := threadOf ctx (s.ownerOf pa)
    match s.heat? key with
    | none => none
    | some h =>
      let x := h.lane l
      if l < h.lanes.length ∧ s.ownerOf pa = threadId key l ∧ h.saved = false ∧ x.wanted.contains c ∧ !(x.holds c) then some (key, l, pa) else none

/-- MONITOR_GRANT (R335, R337, R339, R347, R348): the granted lane acquires the object, binds the colour, and goes on. -/
def State.grant (s : State) (ctx c : Nat) : State :=
  match s.grantee ctx c with
  | none => s
  | some (key, l, pa) =>
    match s.heat? key, s.lane? key l with
    | some h, some x =>
      match x.st with
      | .blocked (.colour _ a) => (match s.finishAcquire h l c x.depth pa with
        | (.trapped t, s) => (s.opDone a.opId l).trapBlocked key l t
        | (_, s) => s.retryAccess key l a)
      | .blocked (.claim cs) => (match s.finishAcquire h l c x.depth pa with
        | (.trapped t, s) => s.trapBlocked key l t
        | (_, s) => match s.claim key l (cs.filter (· ≠ c)) with
          | (some (.trapped t), s) => s.trapBlocked key l t
          | (some _, s) => s
          | (none, s) => s.updLane key l Lane.goOn)
      | .blocked (.mwait _ depth d _ _ _ n _) =>
        let (r, s) := s.finishAcquire h l c depth pa
        let s := s.updLane key l (fun x => match d with | some d => x.setP d n | none => x)
        (match r with
          | .trapped t => s.trapBlocked key l t
          | _ => s.updLane key l Lane.goOn)
      | _ => s
    | _, _ => s

/-- MONITOR_GRANT. -/
def execMonitorGrant (ctx colour : Nat) (s : State) : Result := .next (s.grant ctx colour)

/-- MWAIT_TIMEOUT (R343, R348): the sleeper becomes an acquirer that was not notified. A notification in the clock of the
deadline comes first. -/
def State.mwaitExpire (s : State) (key : HeatKey) (l : Nat) : State :=
  match s.heat? key with
  | none => s
  | some h => match (h.lane l).st with
    | .blocked (.mwait c _ _ dl _ true _ _) =>
      if dl < s.now ∧ h.saved = false then match (s.monQ key.ctx c).find? (fun v => v.key = key ∧ v.lane = l) with
        | some v => s.wakeSleeper key.ctx c v false
        | none => s
      else s
    | _ => s

/-- MWAIT_TIMEOUT. -/
def execMwaitTimeout (key : HeatKey) (lane : Nat) (s : State) : Result := .next (s.mwaitExpire key lane)

/-- A lane's colours marked abandoned and released, and its places in every queue removed (R341). -/
def State.abandonAll (s : State) (h : Heat) (l : Nat) : State :=
  let s := s.leaveQueues h.key l
  ((h.lane l).held.map (·.colour)).reverse.foldl (fun s c =>
    let s := s.updLane h.key l (fun x => x.dropHeld c)
    match s.entryPa h.key.ctx c with
    | none => s
    | some pa =>
      let s := s.setAbandoned pa true
      if s.releasing h.key l c then s else s.queueRelease h l c pa) s

/-- The colours of a killed lane: abandoned and released without waiting for copies, and its places in every queue
removed (R341); a task that is not irrevocable hands them on as an abort does. -/
def State.killColours (s : State) (key : HeatKey) (l : Nat) : State :=
  match s.heat? key with
  | none => s
  | some h =>
    let x := h.lane l
    match s.runOf x with
    | some r => if r.irrevocable then s.abandonAll h l else s.handOnAll key l
    | none => s.abandonAll h l

end Sys2Proof.Machine
end

