-- ==== Sys2Proof/Machine/TaskOps.lean ====
section
/-! DEFINITION. The task instructions (R356, R381 to R389) and the work of the commit arbiters: commits (R367, R372),
publications (R374 to R377), die tokens (R371) and settling (R379).
Readings logged: DEDUCED 29, 44, 45, 46, 66, 70; DESIGN CHOICE 77. -/

namespace Sys2Proof.Machine

/-- The origin id of a die's commit arbiter (R41). -/
def arbOrigin (die : Nat) : Nat := 268 + die

/-- Lanes blocked at their words raise a cause: one issue for each heat and word. -/
def State.trapLanes (s : State) (ls : List (HeatKey × Nat)) (t : Trap) : State :=
  let pcOf (kl : HeatKey × Nat) : Nat := ((s.lane? kl.1 kl.2).map (·.pc)).getD 0
  (nub (ls.map (fun kl => (kl.1, pcOf kl)))).foldl (fun s g =>
    raiseAll s g.1 g.2 ((ls.filter (fun kl => kl.1 = g.1 ∧ pcOf kl = g.2)).map (fun kl => (kl.2, t)))) s

/-! TSPAWN (R47, R48, R356, R383). -/

/-- Whether a job card breaks R47. -/
def badCard (b : List Byte) : Bool :=
  let f (off n : Nat) : Nat := rg b off n
  f 0 8 % 8 != 0 || f 8 8 % 16 != 0 || f 16 4 % 16 != 0 || f 16 4 < 16 || 4096 < f 16 4 || 3 ≤ f 24 1 ||
  (if f 24 1 = 2 then f 25 1 == 0 || 32 < f 25 1 else f 25 1 != 0) || f 26 1 == 0 || 16 ≤ f 26 1 || 4 ≤ f 27 1 ||
  f 28 4 % 8 != 0 || f 28 4 < 8 || 320 < f 28 4 || f 32 8 % 64 != 0 || f 40 8 % 256 != 0 || 786432 < f 40 8 ||
  (f 24 1 != 2 && f 40 8 != 0) || f 48 16 != 0

/-- The card that a record describes (R47). -/
def cardOf (id ctx serial : Nat) (b : List Byte) : Card :=
  { id := id, ctx := ctx, serial := serial, entry := rg b 0 8, args := rg b 8 8, recSize := rg b 16 4, count := rg b 20 4
    width := rg b 24 1, teamHeats := max 1 (rg b 25 1), dies := bitsOf (rg b 26 1) 4, cls := rg b 27 1, budget := rg b 28 4
    completion := rg b 32 8, scratch := rg b 40 8, entries := [], pair := none }

/-- A lane's cause for an address operand of a task instruction (R382). -/
def taskAddr (va al : Nat) (wr : Bool) : Option Trap :=
  if va % al ≠ 0 then some { cause := .align, addr := some va, write := wr }
  else if !(canonical va) then some { cause := .perm, addr := some va, write := wr } else none

/-- A translation by a lane of a heat, with the cause it raises. -/
def Env.at (e : Env) (s : State) (va n : Nat) (wr : Bool) : Except Trap Nat × State :=
  match s.translate e.ctx e.die (some e.core) va (if wr then .write else .read) with
  | (.error c, s) => (.error { cause := c, addr := some va, write := wr, xlat := true }, s)
  | (.ok pa, s) => (if s.poisoned pa n then .error { cause := .uncorrectable, addr := some va, write := wr } else .ok pa, s)

/-- The first record of a card's arguments that does not translate (R356). -/
def State.badArgs (s : State) (c : Card) : Option (Nat × Cause) :=
  (upto c.count).findSome? (fun i =>
    let va := c.args + c.recSize * i
    match s.peek c.ctx s.agentDie va .read with
    | .error x => some (va, x)
    | .ok _ => none)

/-- A card enters the SRAMs, its group, and its tasks with a counter of 0 become ready (R356, R357). -/
def State.enterCard (s : State) (c : Card) (die : Nat) : State :=
  let alive := c.dies.filter (fun d => !s.fencedDies.contains d)
  let c := { c with entries := alive.map (fun d => (d, (s.freeEntry d).getD 0)) }
  let s := { s with cards := s.cards ++ [c]
                    groups := if s.groups.any (fun g => g.ctx = c.ctx ∧ g.obj = c.completion) then s.groups
                              else s.groups ++ [{ ctx := c.ctx, obj := c.completion }] }
  if alive.isEmpty then s.failCard c.id die
  else
    let counter (i : Nat) : Option Nat := match s.peek c.ctx die (c.args + c.recSize * i) .read with
      | .ok pa => if s.poisoned pa 2 then none else some (s.cohNat pa 2)
      | .error _ => none
    if (upto c.count).any (fun i => (counter i).isNone) then s.failCard c.id die
    else (upto c.count).foldl (fun (s : State) i => if counter i == some 0 then s.makeReady c.id i else s) s

/-- One lane's spawn (R383). -/
def Env.spawn (e : Env) (a : Src) (w : Work) (l : Nat) : Work :=
  let va := e.src64 a l
  match taskAddr va 64 false with
  | some t => w.trap l t
  | none => match e.at w.s va 64 false with
    | (.error t, s) => ({ w with s := s } : Work).trap l t
    | (.ok pa, s) =>
      let b := s.cohRead pa 64
      if badCard b then ({ w with s := s } : Work).trap l { cause := .perm }
      else
        let c := cardOf s.nid e.ctx e.key.serial b
        match e.at s c.completion 64 true with
        | (.error t, s) => ({ w with s := s } : Work).trap l t
        | (.ok _, s) => match s.badArgs c with
          | some (x, y) => ({ w with s := s } : Work).trap l { cause := y, addr := some x }
          | none =>
            if (c.dies.filter (fun d => !s.fencedDies.contains d)).any (fun d => (s.freeEntry d).isNone) then
              ({ w with s := s } : Work).block e l .tspawn
            else
              let s := s.releaseNow e.ctx e.core .package none 0
              { w with s := { s with nid := s.nid + 1 }.enterCard { c with pair := some (e.core, s.lastSeq e.ctx e.core) } e.die, irrev := true }

/-- TSPAWN (R356, R383): the release waits for the core's earlier writes and releases. -/
def execTspawn (c : Com) (a : Src) (s : State) : Result := issue (.tspawn c a) s (fun e w =>
  if e.act.isEmpty then w
  else if !(e.h.usesTasks || e.h.isTask) then
    e.each (fun w l => w.trap l (if e.src64 a l % 64 ≠ 0 then { cause := .align, addr := some (e.src64 a l) } else { cause := .perm })) w
  else e.irrevocable w (fun e w =>
    if e.act.isEmpty then w
    else if !(e.h.cpyw.isEmpty && w.s.noRels e.ctx e.core && w.s.performed e.core w.s.nid .package) then Work.stallWith e id
    else e.act.foldl (e.spawn a) w))

/-! TDONE (R367, R384). -/

/-- Whether every lane of a run that has not exited is blocked in the same way. -/
def State.allBlocked (s : State) (r : Run) (p : Wait → Bool) : Bool :=
  (s.lanesOf r).all (fun kl => match (s.lane? kl.1 kl.2).map Lane.st with
    | some (.blocked w) => p w
    | _ => false)

/-- A task's commit joins the arbiter once its lanes have all come (R367). -/
def State.tryCommit (s : State) (run : Nat) : State :=
  match s.run? run with
  | none => s
  | some r =>
    if s.allBlocked r (· = .tdone) && !(s.arb.any (fun q => q.run == run)) then
      { s.updRun run (fun r => { r with committing := true }) with arb := s.arb ++ [{ die := dieOf r.core, run := run }] }
    else s

/-- The successor list of a run's task as it stands (R51). -/
def State.runSuccessors (s : State) (r : Run) : Except Trap (List (Nat × Nat)) :=
  match s.card? r.card with
  | none => .ok []
  | some c => s.readSuccessors c (dieOf r.core) r.task

/-- The PERM of R384, or what the reading of the successor list raises (R51, R382). -/
def State.tdoneTrap (s : State) (r : Run) : Option Trap :=
  if r.tile ≠ 0 ∧ (r.published = false ∨ r.lastFinal = false) then some { cause := .perm }
  else match s.runSuccessors r with
    | .error t => some t
    | .ok _ => none

/-- TDONE (R384): the successor list is read (R51), and the colours of the lane are marked release pending (R344). -/
def execTdone (c : Com) (s : State) : Result := issue (.tdone c) s (fun e w =>
  let w := { w with irrev := true }
  let (w, runs) := e.act.foldl (fun (acc : Work × List Nat) l =>
    match acc.1.s.laneRun e.key l with
    | none => (acc.1.trap l { cause := .perm }, acc.2)
    | some r =>
      match acc.1.s.tdoneTrap r with
      | some t => (acc.1.trap l t, acc.2)
      | none =>
        let s := acc.1.s.updLane e.key l (fun x => { x with held := x.held.map (fun (c : HeldC) => { c with pending := true }) })
        let s := s.updRun r.id (fun r => { r with succ := match s.runSuccessors r with | .ok l => l | .error _ => [] })
        (({ acc.1 with s := s } : Work).block e l .tdone, acc.2 ++ [r.id])) (w, [])
  { w with s := (nub runs).foldl State.tryCommit w.s })

/-! PUBLAP (R54, R374, R385). -/

/-- What a PUBLAP comes to. -/
inductive PubJudge where
  | trap (t : Trap)
  | again (lastFinal : Bool)
  | publish (a : Nat)
deriving DecidableEq, Repr

/-- Whether a reserved field of a tile handle is not zero (R25, R53). -/
def badHandle (b : List Byte) : Bool := fld (rg b 16 1) 6 2 != 0 || rg b 17 3 != 0 || fld (rg b 20 4) 18 14 != 0 || rg b 32 32 != 0

/-- The judgement of R54 and R374 on a publication of relative lap j. -/
def State.judgeLap (s : State) (r : Run) (j : Nat) (fin : Bool) : PubJudge × State :=
  if j = 0 then (.trap { cause := .perm }, s)
  else if r.tile % 128 ≠ 0 then (.trap { cause := .perm, addr := some r.tile, write := true }, s)
  else match s.translate r.ctx (dieOf r.core) (some r.core) r.tile .write with
    | (.error c, s) => (.trap { cause := c, addr := some r.tile, write := true, xlat := true }, s)
    | (.ok pa, s) =>
      if s.poisoned pa 128 then (.trap { cause := .uncorrectable, addr := some r.tile, write := true }, s)
      else
        let b := s.cohRead pa 128
        let st := rg b 16 1
        let n := fld st 0 4
        let a := r.base + j
        if n = 15 ∨ badHandle b then (.trap { cause := .perm }, s)
        else if a ≤ n then (.again ((a == n && bit st 4) || fin), s)
        else if a ≠ n + 1 ∨ 14 < a ∨ bit st 4 then (.trap { cause := .perm }, s)
        else if rg b (8 * (a % 2)) 8 = 0 then (.trap { cause := .perm }, s)
        else (.publish a, s)

/-- A publication takes effect once every lane of the task has issued it (R385). -/
def State.tryPublish (s : State) (run : Nat) : State :=
  match s.run? run with
  | none => s
  | some r =>
    let ls := s.lanesOf r
    let isPub (w : Wait) : Bool := match w with | .publap .. => true | _ => false
    if s.allBlocked r isPub && !(s.arb.any (fun q => q.run == run)) then
      match ls.findSome? (fun kl => match (s.lane? kl.1 kl.2).map Lane.st with
          | some (.blocked (.publap j fin)) => some (j, fin)
          | _ => none) with
      | none => s
      | some (j, fin) => match s.judgeLap r j fin with
        | (.trap t, s) => s.trapLanes ls t
        | (.again lf, s) =>
          let s := s.updRun run (fun r => { r with buf := [], chunks := [], rs := {}, ws := {}, published := true, lastFinal := lf })
          ls.foldl (fun s kl => s.updLane kl.1 kl.2 Lane.goOn) s
        | (.publish a, s) => { s with arb := s.arb ++ [{ die := dieOf r.core, run := run, publish := some (a, fin) }] }
    else s

/-- PUBLAP (R385). -/
def execPublap (c : Com) (fin : Bool) (a : Src) (s : State) : Result := issue (.publap c fin a) s (fun e w =>
  let w := { w with irrev := true }
  let (w, runs) := e.act.foldl (fun (acc : Work × List Nat) l =>
    match acc.1.s.laneRun e.key l with
    | none => (acc.1.trap l { cause := .perm }, acc.2)
    | some r =>
      if r.tile = 0 then (acc.1.trap l { cause := .perm }, acc.2)
      else (acc.1.block e l (.publap (e.src32 a l) fin), acc.2 ++ [r.id])) (w, [])
  { w with s := (nub runs).foldl State.tryPublish w.s })

/-! TSTOP, TLAP, TABORT, TSETTLE (R378, R386 to R389). -/

/-- The judged address of an instruction that acts once for its heat (R382). -/
def Env.once (e : Env) (a : Src) (al n : Nat) (wr : Bool) (w : Work) (f : Work → Nat → Nat → Work) : Work :=
  if e.act.isEmpty then w
  else
    let va := e.src64 a e.lowest
    match taskAddr va al wr with
    | some t => w.trapAll e.act t
    | none => match e.at w.s va n wr with
      | (.error t, s) => ({ w with s := s } : Work).trapAll e.act t
      | (.ok pa, s) => f { w with s := s } va pa

/-- TSTOP (R378, R386); a handle that breaks R53 is refused as PUBLAP refuses it (R25, R54). -/
def execTstop (c : Com) (a : Src) (s : State) : Result := issue (.tstop c a) s (fun e w =>
  e.once a 128 128 true w (fun w _ pa =>
    let st := w.s.cohNat (pa + 16) 1
    if badHandle (w.s.cohRead pa 128) then w.trapAll e.act { cause := .perm }
    else if bit st 4 || bit st 5 then w else { w with s := w.s.cohPut (pa + 16) 1 (st + 32) }))

/-- TLAP's reading of the handle: the acquire and the read signature (R387); a task reads its own buffered bytes (R365),
and a handle that breaks R53 is refused as PUBLAP refuses it (R25, R54). -/
def Env.lap (e : Env) (a : Src) (w : Work) (f : List Byte → State → State) : Work :=
  e.once a 128 128 false w (fun w _ pa =>
    let b := overTask (w.s.laneRun e.key e.lowest) pa (w.s.viewRead e.die pa 128)
    if fld (rg b 16 1) 0 4 = 15 ∨ badHandle b then w.trapAll e.act { cause := .perm }
    else
      let s := e.act.foldl (fun s l => s.readSig e.key l pa) w.s
      { w with s := f b (s.acquireObj e.ctx e.core (pa + 64)) })

/-- TLAP.state (R387). -/
def execTlapState (c : Com) (d : Nat) (a : Src) (s : State) : Result := issue (.tlapState c d a) s (fun e w =>
  e.lap a w (fun b s => s.updHeat e.key (fun h => h.setAll false (.v d) (e.act.map (fun l => (l, rg b 16 1))))))

/-- TLAP.buf (R387). -/
def execTlapBuf (c : Com) (d : Nat) (a : Src) (s : State) : Result := issue (.tlapBuf c d a) s (fun e w =>
  e.lap a w (fun b s =>
    let n := fld (rg b 16 1) 0 4
    s.updHeat e.key (fun h => h.setAll true (.v d) (e.act.map (fun l => (l, if n = 0 then 0 else rg b (8 * (n % 2)) 8))))))

/-- TABORT (R388): each lane's task ends once. -/
def Env.abortTasks (e : Env) (f : State → Run → State) (w : Work) : Work :=
  e.each (fun w l =>
    match (e.h.lane l).task.bind e.base.run? with
    | none => w.trap l { cause := .perm }
    | some r =>
      if r.irrevocable then w.trap l { cause := .perm }
      else ({ w with s := if (w.s.run? r.id).isSome then f w.s r else w.s, irrev := true } : Work).hold l) w

/-- TABORT.requeue (R388). -/
def execTabortRequeue (c : Com) (s : State) : Result := issue (.tabortRequeue c) s (fun e w =>
  e.abortTasks (fun s r => s.abort r.id (.requeue none)) w)

/-- TABORT.fail (R388). -/
def execTabortFail (c : Com) (s : State) : Result := issue (.tabortFail c) s (fun e w =>
  e.abortTasks (fun s r => s.failCard r.card e.die) w)

/-- TSETTLE (R389). -/
def execTsettle (c : Com) (a : Src) (s : State) : Result := issue (.tsettle c a) s (fun e w =>
  if e.act.any (fun l => (e.h.lane l).task.isSome) && e.src64 a e.lowest % 64 == 0 then w.trapAll e.act { cause := .perm }
  else e.once a 64 64 false { w with irrev := true } (fun w va pa =>
    if w.s.groups.any (fun g => g.ctx = e.ctx ∧ g.obj = va) then e.each (fun w l => w.block e l (.tsettle va)) w
    else { w with s := w.s.acquireObj e.ctx e.core pa }))

/-! Tokens (R371). -/

/-- The dies whose tokens a run needs. -/
def State.domain (s : State) (r : Run) : List Nat :=
  match s.card? r.card with
  | none => []
  | some c => c.dies.filter (fun d => !s.fencedDies.contains d)

/-- DIE_TOKEN_GRANT (R371). -/
def State.grantToken (s : State) (die : Nat) : State :=
  if (Tbl.find? s.token die).isSome then s
  else
    let wants (i : Nat) : Bool := match s.run? i with
      | none => false
      | some r => ((s.domain r).filter (fun d => !r.tokens.contains d)).head? == some die
    match s.tokenQ.find? wants with
    | none => s
    | some i =>
      let s := { s.updRun i (fun r => { r with tokens := r.tokens ++ [die] }) with token := Tbl.set s.token die i }
      match s.run? i with
      | none => s
      | some r =>
        if (s.domain r).all r.tokens.contains then
          (s.lanesOf r).foldl (fun s kl => s.updLane kl.1 kl.2 (fun x => if x.st = .blocked .token then { x with st := .running } else x))
            { s with tokenQ := s.tokenQ.filter (· ≠ i) }
        else s

/-- DIE_TOKEN_GRANT. -/
def execDieTokenGrant (die : Nat) (s : State) : Result := .next (s.grantToken die)

/-! The arbiter's judgement, broadcast and drain (R313, R367, R372). -/

inductive Verdict where
  | go
  | abort
  | wait
deriving DecidableEq, Repr

/-- The judgement against irrevocable tasks (R372). -/
def State.judge (s : State) (r : Run) : Verdict :=
  let irr := s.runs.filter (fun i => i.irrevocable && i.id != r.id && (s.domain r).any (fun d => Tbl.find? s.token d == some i.id))
  if irr.any (fun i => r.rs.meets i.ws) then .abort
  else if irr.any (fun i => r.ws.meets i.rs || r.ws.meets i.ws) then .wait
  else .go

/-- A write signature broadcast to the domain: L1 sectors dropped, conflicting tasks aborted (R313, R314, R367). The tasks
that consume the tile being published, by their argument records, are aborted without a count (R369). -/
def State.broadcast (s : State) (r : Run) (consumers : List Nat) : State :=
  let dies := s.domain r
  let s := { s with l1 := s.l1.filter (fun e => !(dies.contains (dieOf (e.1 / 2 ^ 34)) && r.ws.hits (64 * (e.1 % 2 ^ 34)))) }
  let hit := s.runs.filter (fun x => x.id != r.id && dies.contains (dieOf x.core) && !x.irrevocable && x.rs.meets r.ws)
  hit.foldl (fun s x => s.abort x.id (.rerun (!(consumers.contains (x.arec % 2 ^ 56))))) s

/-- A task's buffered stores drained into the L2 of its die through R304 and R306, their lines in the arbiter's bank (R313,
R367). -/
def State.drainTask (s : State) (r : Run) (die : Nat) : State :=
  r.sectors.foldl (fun s sec =>
    let es := r.buf.filter (fun e => e.1 / 64 = sec)
    let s := if es.length = 64 then s.ownWrite die (64 * sec) (es.map (·.2)) else es.foldl (fun s e => s.ownWrite die e.1 [e.2]) s
    s.bankIn r.ctx (arbOrigin die) (64 * sec)) s

/-- The chunks of a journalled kernel that a drain must save first, for the stores made through records without NOPRE (R39,
R437). -/
def State.drainChunks (s : State) (r : Run) : List Nat :=
  match s.heats.find? r.ofHeat with
  | none => []
  | some h => s.unsavedChunks h (r.chunks.map (fun x => 65536 * x))

/-! Edges (R50, R51, R367, R376, R377, R461). -/

/-- Whether a dealer record of a task is unfinished (R461). -/
def State.dealerBusy (s : State) (card task : Nat) : Bool :=
  (s.postings ++ s.records).any (fun (p : FRec) => match p.dealer with | some d => d.card == card && d.task == task | none => false)

/-- An edge of a producer fires, with what follows when its counter is broken or cannot be reached (R52, R461). -/
def State.fire (s : State) (die card task va e lap : Nat) (pair : Option (Nat × Nat)) : State :=
  match s.card? card with
  | none => s
  | some c =>
    let (r, s) := s.fireEdge c.ctx die va e lap pair
    let s := match r.1 with | some f => s.failCard f.1 f.2 | none => s
    match r.2 with
    | some (x, addr) => s.postDealer die { card := card, task := task, edge := some (va, e, lap, pair) } x addr
    | none => s

/-- A card of a settled group whose task is re-fired: it takes its entries again, and its group is open again (R357, R377,
R379). -/
def State.reopen (s : State) (c : Card) : State :=
  if !c.settled then s
  else
    let s := s.updCard c.id (fun x => { x with settled := false, entries := (c.dies.filter (fun d => !s.fencedDies.contains d)).map (fun d => (d, (s.freeEntry d).getD 0)) })
    if s.groups.any (fun g => g.ctx = c.ctx ∧ g.obj = c.completion) then s
    else { s with groups := s.groups ++ [{ ctx := c.ctx, obj := c.completion }] }

/-- A consumer re-fired with a lap, whose publication's release it is to acquire (R375, R377). -/
def State.refire (s : State) (card task a : Nat) (pair : Option (Nat × Nat)) : State :=
  match s.card? card with
  | none => s
  | some c =>
    let s := s.reopen c
    let s := s.updTask card task (fun t => match pair with | some p => addPair t p | none => t)
    let again (s : State) : State := s.updTask card task (fun t => { t with lapIn := a, base := none, conflicts := 0 })
    match (c.task task).st with
    | .running run => s.abort run (.requeue (some a))
    | .dealt => (again { s with runs := s.runs.map (fun (r : Run) => if r.card = card then { r with rest := r.rest.filter (· ≠ task) } else r) }).requeue card task
    | .paged id => (again { s with postings := s.postings.filter (fun p => p.id ≠ id), records := s.records.filter (fun p => p.id ≠ id) }).requeue card task
    | .done => (again s).requeue card task
    | .retired => (again s).makeReady card task
    | _ => s

/-- Whether a task retires (R357): done, its tile final, and no dealer record of it unfinished. -/
def State.retireTask (s : State) (card task : Nat) : State :=
  match s.card? card with
  | none => s
  | some c =>
    let tile := s.tileOf c s.agentDie task
    if (c.task task).st = .done ∧ (tile = 0 ∨ bit (s.lapState c.ctx tile) 4) ∧ s.dealerBusy card task = false then
      (s.updTask card task (fun t => { t with st := .retired })).entriesFreed
    else s

/-- An edge at the publication of a lap (R376). -/
def State.edgeAt (s : State) (die card task a : Nat) (final : Bool) (pair : Nat × Nat) (edge : Nat × Nat) : State :=
  let (va, e) := edge
  match s.card? card with
  | none => s
  | some c =>
    let seen := fld e 58 4
    let arec := fld e 0 56
    match fld e 56 2 with
    | 2 => if final then s.fire die card task va e a (some pair) else s
    | m =>
      if seen = 0 then s.fire die card task va e a (some pair)
      else if m = 1 then s
      else match s.taskAt c.ctx arec with
        | none => s.setEdge c.ctx va (some a) none none
        | some (k, i) =>
          if bit (s.lapState c.ctx (s.tileOf k die i)) 4 then s
          else match (k.task i).st with
            | .running run =>
              if ((s.run? run).map (·.irrevocable)).getD false then s.setEdge c.ctx va (some a) none none
              else (s.setEdge c.ctx va (some a) (some false) none).refire k.id i a (some pair)
            | .paged _ | .dealt => (s.setEdge c.ctx va (some a) (some false) none).refire k.id i a (some pair)
            | .done | .retired => (s.setEdge c.ctx va (some a) none (some false)).refire k.id i a (some pair)
            | _ => s.setEdge c.ctx va (some a) none none

/-- The edges of a consumer at its commit (R376): the lap to requeue it with, where it ran irrevocably past a later
lap. -/
def State.committed (s : State) (r : Run) (lapIn : Nat) : Option Nat × State :=
  (s.edgesOf r.ctx (dieOf r.core) r.arec).foldl (fun (acc : Option Nat × State) e =>
    let seen := fld e.2 58 4
    if r.irrevocable && fld e.2 56 2 == 0 && lapIn < seen then
      (some (max seen (acc.1.getD 0)), acc.2.setEdge r.ctx e.1 none (some false) (some false))
    else (acc.1, acc.2.setEdge r.ctx e.1 none (some false) (some true))) (none, s)

/-! COMMIT (R367). -/

/-- A colour released at once by an agent whose writes are performed (R337, R344). -/
def State.releaseColourNow (s : State) (key : HeatKey) (core l c : Nat) : State :=
  let s := match s.entryPa key.ctx c with
    | none => s
    | some pa => s.releaseNow key.ctx core .package (some (pa, (s.cohNat pa 8 + 1) % 2 ^ 64)) 0
  (s.updLane key l (fun x => x.dropHeld c)).handOver key.ctx c

/-- The colours that a run's lanes hold, in the order of their release: every colour of the task, descending (R344). -/
def State.heldBy (s : State) (r : Run) : List (HeatKey × Nat × Nat) :=
  (sortBy (fun x => 4096 - x.2.2) ((s.lanesOf r).flatMap (fun kl => (((s.lane? kl.1 kl.2).map (·.held)).getD []).map (fun c => (kl.1, kl.2, c.colour)))))

/-- Whether every access of a run's lanes is complete, and its colours can be released (R367). -/
def State.commitReady (s : State) (r : Run) : Bool :=
  (s.lanesOf r).all (fun kl => !(s.ops.any (fun o => o.key = kl.1 && (o.left.contains kl.2 || o.parked.contains kl.2))) &&
    !(((s.heat? kl.1).map (fun h => h.cpyw.any (fun p => p.accs.any (fun a => a.lane == kl.2)))).getD false)) &&
  ((s.heldBy r).isEmpty || (s.noRels r.ctx r.core && s.performed r.core s.nid .package))

/-- Commits that waited for an irrevocable task re-enter at the head (R372). -/
def State.reenter (s : State) : State :=
  let w := s.arb.filter (·.waits)
  { s with arb := w.map (fun q => { q with waits := false }) ++ s.arb.filter (fun q => !q.waits) }

/-- The flags of a commit or publication added to the group (R379). -/
def State.groupFlags (s : State) (r : Run) : State :=
  match s.card? r.card with
  | none => s
  | some c => { s with groups := s.groups.map (fun g => if g.ctx = c.ctx ∧ g.obj = c.completion then { g with flags := g.flags ||| r.flags } else g) }

/-- Steps 4 to 7 of a commit, and the end of the run (R367). -/
def State.finishCommit (s : State) (r : Run) (c : Card) (die : Nat) : State :=
  let s := s.drainTask r die
  let s := s.releaseNow r.ctx (arbOrigin die) (if c.dies.length = 1 then .die else .package) none 0
  let pair := (arbOrigin die, s.lastSeq r.ctx (arbOrigin die))
  let s := { s with heats := s.heats.map (fun h => if r.ofHeat h then { h with nflags := h.nflags ||| r.flags } else h) }
  let s := (s.groupFlags r).freeTokens r.id
  let s := (s.heldBy r).foldl (fun s x => s.releaseColourNow x.1 r.core x.2.1 x.2.2) s
  let (again, s) := s.committed r (c.task r.task).lapIn
  let s := s.updTask r.card r.task (fun t => { t with st := .done, conflicts := 0, base := none, irrevocable := false })
  let es := if r.tile = 0 then r.succ else []
  let s := es.foldl (fun s e => s.fire die r.card r.task e.1 e.2 0 (some pair)) s
  let s := match again with
    | some a => s.refire r.card r.task a none
    | none => s.retireTask r.card r.task
  let s := s.nextOfChunk r.id
  if r.irrevocable then s.reenter else s

/-- COMMIT (R367, R372): the die's first commit whose accesses are complete. -/
def State.commitStep (s : State) (die : Nat) : State :=
  match s.arb.findSome? (fun q => if q.die = die ∧ q.publish = none ∧ q.waits = false then
      (s.run? q.run).bind (fun r => if s.commitReady r then some r else none) else none) with
  | none => s
  | some r =>
    let s := { s with arb := s.arb.filter (fun q => q.run ≠ r.id) }
    match s.card? r.card, s.judge r with
    | none, _ => s
    | some _, .abort => s.abort r.id (.rerun true)
    | some _, .wait => { s with arb := s.arb ++ [{ die := die, run := r.id, waits := true }] }
    | some c, .go =>
      let chunks := s.drainChunks r
      if r.sectors.any s.copyOwned then { s with arb := { die := die, run := r.id } :: s.arb }
      else if chunks.isEmpty then (s.broadcast r []).finishCommit r c die
      else { s.beginSaves r.ctx r.serial chunks with arb := { die := die, run := r.id } :: s.arb }

/-- COMMIT. -/
def execCommit (die : Nat) (s : State) : Result := .next (s.commitStep die)

/-! LAP_PUBLISH (R375). -/

/-- The successor entries of a run's tile at a publication (R53, R375). -/
def State.tileEdges (s : State) (r : Run) : List (Nat × Nat) := match s.runSuccessors r with | .ok l => l | .error _ => []

/-- The running consumers of a tile on lap a - 2 or earlier: the run, and whether it is to be aborted: its edge is EACH and
its own tile is not final, and it is not irrevocable (R371, R375, R376). -/
def State.lateConsumers (s : State) (r : Run) (a : Nat) : List (Run × Nat × Bool) :=
  (s.tileEdges r).filterMap (fun e =>
    match s.runs.find? (fun x => x.ctx = r.ctx ∧ x.arec % 2 ^ 56 = fld e.2 0 56) with
    | none => none
    | some x =>
      let lap := ((s.card? x.card).map (fun c => (c.task x.task).lapIn)).getD 0
      if lap + 2 ≤ a then some (x, e.1, fld e.2 56 2 == 0 && !(bit (s.lapState r.ctx x.tile) 4) && !x.irrevocable) else none)

/-- The publication itself: the lap state, the publication object, then the edges (R53, R54, R375, R376). The producer's
name is written at each publication (log entry 44). A handle that no longer translates makes the waiting lanes raise the
cause (R382). -/
def State.publishLap (s : State) (r : Run) (c : Card) (die a : Nat) (fin : Bool) : State :=
  match s.peek r.ctx die r.tile .write with
  | .error x => s.trapLanes (s.lanesOf r) { cause := x, addr := some r.tile, write := true, xlat := true }
  | .ok pa =>
    let st := s.cohNat (pa + 16) 1
    let final : Bool := a == 14 || bit st 5 || (fin && r.eachFinal)
    let t := c.task r.task
    let s := s.drainTask r die
    let s := s.releaseNow r.ctx (arbOrigin die) .package (some (pa + 64, a + 16 * b2n final)) r.flags
    let s := s.cohPut (pa + 16) 1 (setFld (setFld st 0 4 a) 4 1 (b2n final))
    let s := s.cohPut (pa + 20) 4 (taskRef t)
    let pair := (arbOrigin die, s.lastSeq r.ctx (arbOrigin die))
    let s := s.groupFlags r
    let s := (s.tileEdges r).foldl (fun s e => s.edgeAt die r.card r.task a final pair e) s
    let s := s.updRun r.id (fun r => { r with rs := {}, ws := {}, buf := [], chunks := [], flags := 0, published := true, lastFinal := final || fin })
    (s.lanesOf r).foldl (fun s kl => s.updLane kl.1 kl.2 Lane.goOn) s

/-- LAP_PUBLISH (R372, R375): the die's first publication that has a consumer to abort, or none to wait for. -/
def State.lapStep (s : State) (die : Nat) : State :=
  match s.arb.findSome? (fun q => if q.die = die ∧ q.waits = false then
      q.publish.bind (fun p => (s.run? q.run).bind (fun r =>
        let late := s.lateConsumers r p.1
        if late.isEmpty || late.any (fun x => x.2.2) then some (r, p) else none)) else none) with
  | none => s
  | some (r, a, fin) =>
    let late := s.lateConsumers r a
    let s := (late.filter (fun x => x.2.2)).foldl (fun s x => (s.setEdge r.ctx x.2.1 none (some false) none).refire x.1.card x.1.task a none) s
    if late.any (fun x => !x.2.2) then s
    else
      let s := { s with arb := s.arb.filter (fun q => q.run ≠ r.id) }
      match s.card? r.card, s.judge r with
      | none, _ => s
      | some _, .abort => s.abort r.id (.rerun true)
      | some _, .wait => { s with arb := s.arb ++ [{ die := die, run := r.id, publish := some (a, fin), waits := true }] }
      | some c, .go =>
        let chunks := s.drainChunks r
        if r.sectors.any s.copyOwned then { s with arb := { die := die, run := r.id, publish := some (a, fin) } :: s.arb }
        else if chunks.isEmpty then (s.broadcast r ((s.tileEdges r).map (fun e => fld e.2 0 56))).publishLap r c die a fin
        else { s.beginSaves r.ctx r.serial chunks with arb := { die := die, run := r.id, publish := some (a, fin) } :: s.arb }

/-- LAP_PUBLISH. -/
def execLapPublish (die : Nat) (s : State) : Result := .next (s.lapStep die)

/-! GROUP_SETTLE (R379). -/

/-- A lane's wait for a settling ends with its acquire (R379, R389). -/
def State.endSettle (s : State) (kl : HeatKey × Nat × Nat) : State :=
  match s.heat? kl.1 with
  | none => s
  | some h =>
    match s.translate kl.1.ctx (dieOf h.core) (some h.core) kl.2.2 .read with
    | (.error c, s) => s.trapBlocked kl.1 kl.2.1 { cause := c, addr := some kl.2.2, xlat := true }
    | (.ok pa, s) =>
      if s.poisoned pa 64 then s.trapBlocked kl.1 kl.2.1 { cause := .uncorrectable, addr := some kl.2.2 }
      else (s.acquireObj kl.1.ctx h.core pa).updLane kl.1 kl.2.1 Lane.goOn

/-- GROUP_SETTLE: the release by the arbiter of the object's home, with a full delta (R379). -/
def State.settle (s : State) (ctx obj : Nat) : State :=
  match s.groups.find? (fun g => g.ctx = ctx ∧ g.obj = obj) with
  | none => s
  | some g =>
    let mine (c : Card) : Bool := c.ctx == ctx && c.completion == obj && !c.settled
    let open_ (c : Card) : Bool := !((upto c.count).all (fun i => (c.task i).st = .retired && !(s.dealerBusy c.id i)))
    if s.cards.any (fun c => mine c && open_ c) || s.runs.any (fun r => s.cards.any (fun c => mine c && c.id == r.card)) then s
    else
      let s := { s with groups := s.groups.filter (fun x => x ≠ g), cards := s.cards.map (fun c => if mine c then { c with settled := true, entries := [] } else c) }
      let s := match s.peek ctx s.agentDie obj .write with
        | .error _ => s
        | .ok pa =>
          if s.poisoned pa 64 then s
          else
            let o := arbOrigin (homeOf pa)
            s.deposit ctx o .system (s.fullSig pa)
              (some (pa, (s.cohNat pa 8 + 1) % 2 ^ 64)) g.flags
      let ws := s.heats.flatMap (fun h => if h.key.ctx ≠ ctx ∨ h.saved then [] else (upto h.lanes.length).filterMap (fun l =>
        if (h.lane l).st = .blocked (.tsettle obj) then some (h.key, l, obj) else none))
      ws.foldl State.endSettle s.entriesFreed

/-- GROUP_SETTLE. -/
def execGroupSettle (ctx object : Nat) (s : State) : Result := .next (s.settle ctx object)

end Sys2Proof.Machine
end

