-- ==== Sys2Proof/Machine/Kill.lean ====
section
/-! DEFINITION. What the service instructions and the host's commands share: records and their handles (R398, R399), the
resuming of a record (R405, R461), and kills (R341, R406).
Readings logged: DEDUCED 71. -/

namespace Sys2Proof.Machine

/-- The bits of a record's flags (R397). -/
def FRec.isCard (r : FRec) : Bool := bit r.flags 4

/-- A posted record by its die and sequence (R398). -/
def State.byHandle (s : State) (h : Nat) : Option FRec := s.records.find? (fun r => r.die = fld h 16 2 ∧ r.seq = fld h 32 32)

/-- The task that a PAGE record keeps out of its lanes: card and task (R369). -/
def State.pagedBy (s : State) (id : Nat) : Option (Nat × Nat) :=
  s.cards.findSome? (fun c => (c.tasks.filter (fun t => t.2.st = .paged id)).head?.map (fun t => (c.id, t.1)))

/-- Whether a lane is parked on a record. -/
def Lane.parkedOn (x : Lane) (id : Nat) : Bool := x.st = .parked && x.park == id

/-- The lanes of a record that are still parked on it, of a mask. -/
def State.parkedLanes (s : State) (r : FRec) (mask : Nat) : List (HeatKey × Nat) :=
  match r.key with
  | none => []
  | some key => match s.heat? key with
    | none => []
    | some h => ((h.lanesWhere (fun x => x.parkedOn r.id)).filter (fun l => bit mask l && bit r.lanes l)).map (fun l => (key, l))

/-- Whether a kernel has ended: no kernel of that serial is queued or running. -/
def State.kernelGone (s : State) (ctx serial : Nat) : Bool :=
  match s.kernel? ctx serial with
  | none => true
  | some k => match k.st with
    | .ended _ | .rolledBack => true
    | _ => false

/-- Whether a posted record is finished of itself (R399). -/
def State.recDone (s : State) (r : FRec) : Bool :=
  if r.isCard then
    (match r.serial with
      | none => false
      | some n => s.kernelGone r.ctx n && !((s.postings ++ s.records).any (fun p => p.ctx == r.ctx && p.serial == some n && !p.isCard)))
  else if r.dealer.isSome then false
  else (s.parkedLanes r (2 ^ 32 - 1)).isEmpty && (s.pagedBy r.id).isNone

/-- Finished records leave the buffer, and claims of heats that have exited end (R399, R407). -/
def State.sweep (s : State) : State :=
  let s := { s with records := s.records.filter (fun r => !(s.recDone r) || r.isCard) }
  let s := { s with records := s.records.filter (fun r => !(s.recDone r)) }
  { s with records := s.records.map (fun (r : FRec) => match r.claimed with
      | none => r
      | some k => match s.heat? k with
        | some h => if h.allExited then { r with claimed := none } else r
        | none => { r with claimed := none }) }

def State.dropRec (s : State) (id : Nat) : State := { s with records := s.records.filter (fun r => r.id ≠ id) }

/-- A lane that no copy waits for any longer (R224). -/
def State.dropParked (s : State) (key : HeatKey) (l : Nat) (p : Op → Bool) : State :=
  { s with ops := s.ops.map (fun (o : Op) => if o.isCopy ∧ o.key = key ∧ p o then { o with parked := o.parked.filter (· ≠ l) } else o) }

/-- The copies of a killed lane wait for it no longer (R224). -/
def State.dropCopies (s : State) (key : HeatKey) (l : Nat) : State :=
  { s with ops := s.ops.map (fun (o : Op) =>
      if o.isCopy ∧ o.key = key then { o with left := o.left.filter (· ≠ l), parked := o.parked.filter (· ≠ l) } else o) }

/-- A dealer record's work tried again (R461): a read when the task is next dealt, a decrement at once. -/
def State.retryDealer (s : State) (r : FRec) (d : Dealer) : State :=
  let s := s.dropRec r.id
  match d.edge with
  | none => s
  | some (va, e, lap, pair) => (s.fire r.die d.card d.task va e lap pair).retireTask d.card d.task

/-- A parked lane resumed; a copy that it no longer stands at forgets it, and a release that waits for its copies is
tried (R224, R405). -/
def State.resumeLane (s : State) (key : HeatKey) (l : Nat) (skip : Bool) (acq : Nat × Nat) : State :=
  let s := s.updLane key l (fun x => x.resumed skip (some acq))
  let pc := ((s.lane? key l).map (·.pc)).getD 0
  (s.dropParked key l (fun o => o.pc ≠ pc)).updHeat key Heat.dropRunon

/-- RESUME of a record (R369, R399, R405, R461): its lanes of a mask return to their words, and acquire the release
given. -/
def State.resumeRec (s : State) (r : FRec) (mask : Nat) (skip : Bool) (acq : Nat × Nat) : State :=
  match r.dealer with
  | some d => s.retryDealer r d
  | none =>
    if r.isCard then s.dropRec r.id
    else match s.pagedBy r.id with
      | some (c, i) => (s.requeue c i).dropRec r.id
      | none => ((s.parkedLanes r mask).foldl (fun s kl => s.resumeLane kl.1 kl.2 skip acq) s).sweep

/-! Kills (R341, R406). -/

/-- The operations of a lane that it had not yet performed end with it: a coloured access, one that waits for a slot, a
signature. -/
def State.dropBlocked (s : State) (key : HeatKey) (l : Nat) : State :=
  match (s.lane? key l).map Lane.st with
  | some (.blocked (.colour _ a)) | some (.blocked (.slot a)) => s.opDone a.opId l
  | some (.blocked (.sign m)) =>
    let ids := ((((s.heat? key).bind (fun h => (s.unit? h.unit).bind (fun u => u.team? key.team))).bind (fun t => Tbl.find? t.partials m)).map
      (fun p => p.signers.flatMap (fun g => if g.heat = key.heat then (g.lanes.filter (fun x => x.lane = l)).map (·.op) else []))).getD []
    ids.foldl (fun s i => s.opDone i l) s
  | _ => s

/-- The hand-offs of a team whose lanes have all been killed (R233). -/
def State.killHandoffs (s : State) (key : HeatKey) : State :=
  match s.heat? key with
  | none => s
  | some h =>
    if (s.liveHeats h.unit key.team).isEmpty then
      s.updUnit h.unit (fun u => { u with handoffs := u.handoffs.map (fun o => if o.team = key.team then { o with killed := true } else o) })
    else s

/-- A lane is killed: its colours, its places in queues, its unperformed operations, its task's card (R341, R380, R406). -/
def State.killLane (s : State) (key : HeatKey) (l : Nat) : State :=
  match s.heat? key with
  | none => s
  | some h =>
    let x := h.lane l
    if x.exited || h.lanes.length ≤ l then s
    else
      let card := (s.runOf x).map (·.card)
      let s := ((s.killColours key l).dropBlocked key l).dropCopies key l
      let s := s.updLane key l (fun x => { x with st := .exited, task := none, depth := 0, held := [], trap := none, acq := none })
      let s := s.updHeat key Heat.dropRunon
      let s := match card with | some c => s.failCard c (dieOf h.core) | none => s
      (s.settleBars key).killHandoffs key

/-- Every lane of a heat killed. -/
def State.killHeat (s : State) (key : HeatKey) : State :=
  match s.heat? key with
  | none => s
  | some h => (upto h.lanes.length).foldl (fun s l => s.killLane key l) s

/-- KILL.kernel (R406): its teams' lanes, its cards; it ends with status 1 once its teams have retired. -/
def State.killKernel (s : State) (ctx serial : Nat) : State :=
  let s := s.updKernel ctx serial (fun k => { k with killed := true })
  let keys := (s.heats.filter (fun h => h.key.ctx = ctx ∧ h.key.serial = serial)).map (·.key)
  let s := keys.foldl (fun s k => s.killHeat k) s
  let cards := (s.cards.filter (fun c => c.ctx = ctx ∧ c.serial = serial)).map (fun c => (c.id, c.dies.headD 0))
  (cards.foldl (fun s c => s.failCard c.1 c.2) s).sweep

/-- KILL of a record by one of its three forms (R399, R406, R461). -/
def State.killRec (s : State) (r : FRec) (f : State → FRec → State) : State :=
  match r.dealer with
  | some d =>
    let s := s.dropRec r.id
    (match d.edge with
      | none => s.failCard d.card r.die
      | some _ => match s.taskAt r.ctx r.addr with
        | some (c, _) => s.failCard c.id r.die
        | none => s).retireTask d.card d.task
  | none =>
    if r.isCard then s.dropRec r.id
    else match s.pagedBy r.id with
      | some (c, _) => (s.failCard c r.die).dropRec r.id
      | none => (f s r).sweep

end Sys2Proof.Machine
end

