-- ==== Sys2Proof/Machine/System.lean ====
section
/-! DEFINITION. The system instructions (R402 to R411): RESUME, KILL, ERET, TFRAME, MFS, MTS, TLBINV and SPLINTER. -/

namespace Sys2Proof.Machine

/-- Whether the core's earlier accesses and releases, and the completion words of the heat, are performed at package scope,
so that the heat can release now (R266, R274). -/
def State.canRelease (s : State) (h : Heat) : Bool := h.cpyw.isEmpty && s.noRels h.key.ctx h.core && s.performed h.core s.nid .package

/-- What a handle gives a lane (R398, R402, R404). -/
inductive Named where
  | none
  | foreign
  | rec_ (r : FRec)
deriving DecidableEq, Repr

def Env.named (e : Env) (s : State) (h : Src) (l : Nat) : Named :=
  match s.byHandle (e.src64 h l) with
  | Option.none => .none
  | some r => if r.ctx = e.ctx then .rec_ r else .foreign

/-- An instruction that acts for each active lane on the record that its handle names (R404). -/
def Env.onRecords (e : Env) (h : Src) (f : Work → Nat → FRec → Work) (w : Work) : Work :=
  e.each (fun w l => match e.named w.s h l with
    | .none => w
    | .foreign => w.trap l { cause := .perm }
    | .rec_ r => f w l r) { w with irrev := true }

/-- A lane mask operand: every lane where it is left out (R403). -/
def Env.maskOp (e : Env) (m : Option Src) (l : Nat) : Nat := match m with
  | none => 2 ^ 32 - 1
  | some m => e.src32 m l

/-- RESUME (R405). -/
def execResume (c : Com) (skip : Bool) (h : Src) (m : Option Src) (s : State) : Result := issue (.resume c skip h m) s (fun e w =>
  if e.act.any (fun l => match e.named w.s h l with | .rec_ _ => true | _ => false) && !(w.s.canRelease e.h) then Work.stallWith e id
  else e.onRecords h (fun w l r =>
    let s := w.s.releaseNow e.ctx e.core .package none 0
    { w with s := s.resumeRec r (e.maskOp m l) skip (e.core, s.lastSeq e.ctx e.core) }) w)

/-- KILL.lanes (R406). -/
def execKillLanes (c : Com) (h : Src) (m : Option Src) (s : State) : Result := issue (.killLanes c h m) s (fun e w =>
  e.onRecords h (fun w l r => { w with s := w.s.killRec r (fun s r =>
    (s.parkedLanes r (e.maskOp m l)).foldl (fun s kl => s.killLane kl.1 kl.2) s) }) w)

/-- KILL.heat (R406). -/
def execKillHeat (c : Com) (h : Src) (s : State) : Result := issue (.killHeat c h) s (fun e w =>
  e.onRecords h (fun w _ r => { w with s := w.s.killRec r (fun s r => match r.key with | none => s | some k => s.killHeat k) }) w)

/-- KILL.kernel (R406). -/
def execKillKernel (c : Com) (h : Src) (s : State) : Result := issue (.killKernel c h) s (fun e w =>
  e.onRecords h (fun w _ r => { w with s := w.s.killRec r (fun s r => match r.serial with | none => s | some n => s.killKernel r.ctx n) }) w)

/-! TFRAME.next (R408). -/

/-- The record that a lane on a die takes: unclaimed, of its context, its own die's oldest first, then the other dies. -/
def State.nextRecord (s : State) (ctx die : Nat) : Option FRec :=
  let mine (d : Nat) : Option FRec := s.records.find? (fun r => r.ctx = ctx ∧ r.die = d ∧ r.claimed.isNone)
  (die :: (upto 4).filter (· ≠ die)).findSome? mine

/-- The 64 bytes of a posted record (R397). -/
def FRec.bytes (r : FRec) : List Byte :=
  let codes := r.laneCodes.foldl (fun w c => w + c.2 % 32 * 2 ^ (5 * c.1)) 0
  toBytes 8 (match r.key with | none => noThread | some k => threadId k 0) ++ toBytes 8 r.addr ++ toBytes 8 r.pc ++ toBytes 4 r.lanes ++
  toBytes 1 r.causeByte ++ toBytes 1 r.ctx ++ toBytes 2 r.code ++ toBytes 20 codes ++ toBytes 4 r.taskRef ++ toBytes 2 r.core ++
  toBytes 2 (r.die % 4 + r.flags) ++ toBytes 4 r.seq

/-- A blocked lane takes a record where one is available (R408). -/
def State.takeRecord (s : State) (key : HeatKey) (l : Nat) : State :=
  match s.heat? key with
  | none => s
  | some h => match (h.lane l).st with
    | .blocked (.tframe d va _) =>
      if h.saved then s
      else match s.nextRecord key.ctx (dieOf h.core) with
        | none => s
        | some r => match s.translate key.ctx (dieOf h.core) (some h.core) va .write with
          | (.error c, s) => s.trapBlocked key l { cause := c, addr := some va, write := true }
          | (.ok pa, s) =>
            let chunks := s.unsavedChunks h [pa]
            if !chunks.isEmpty then s.beginSaves key.ctx key.serial chunks
            else
              let s := s.storeThrough key.ctx h.core pa r.bytes
              let s := { s with records := s.records.map (fun (x : FRec) => if x.id = r.id then { x with claimed := some key } else x) }
              s.updLane key l (fun x => (x.setP d true).goOn)
    | _ => s

/-- Every lane blocked in TFRAME.next tries, in the order of heats and lanes. -/
def State.serveFrames (s : State) : State :=
  let ws := s.heats.flatMap (fun h => (upto h.lanes.length).filterMap (fun l => match (h.lane l).st with
    | .blocked (.tframe ..) => some (h.key, l)
    | _ => none))
  ws.foldl (fun s w => s.takeRecord w.1 w.2) s

/-- TFRAME.next (R408). -/
def execTframeNext (c : Com) (d : Nat) (a : Src) (t : Nat) (s : State) : Result := issue (.tframeNext c d a t) s (fun e w =>
  e.each (fun w l =>
    let va := e.src64 a l
    match taskAddr va 64 true with
    | some x => w.trap l x
    | none => match e.at w.s va 0 true with
      | (.error x, s) => ({ w with s := s } : Work).trap l x
      | (.ok _, s) =>
        let w := ({ w with s := s } : Work).block e l (.tframe d va (s.now + 2 ^ t))
        { w with s := w.s.takeRecord e.key l }) { w with irrev := true })

/-- A TFRAME.next that ends without a record: 0 in its predicate (R400, R408). -/
def Lane.frameEnds (x : Lane) : Lane := match x.st with
  | .blocked (.tframe d _ _) => (x.setP d false).goOn
  | _ => x

/-- TFRAME_TIMEOUT (R408). -/
def execTframeTimeout (key : HeatKey) (lane : Nat) (s : State) : Result := .next (
  match s.heat? key with
  | none => s
  | some h => match (h.lane lane).st with
    | .blocked (.tframe _ _ dl) => if dl ≤ s.now ∧ h.saved = false then s.updLane key lane Lane.frameEnds else s
    | _ => s)

/-- ERET (R407). -/
def execEret (c : Com) (h : Src) (s : State) : Result := issue (.eret c h) s (fun e w =>
  e.onRecords h (fun w _ r => { w with s := ({ w.s with records := w.s.records.map (fun (x : FRec) =>
    if x.id = r.id then { x with claimed := none } else x) }).serveFrames }) w)

/-! TFRAME.rd and TFRAME.wr (R408). -/

/-- The heat and lane of a frame access; k items name the heat alone. -/
def State.frame (s : State) (r : FRec) (lane item : Nat) : Option Heat :=
  match r.key.bind s.heat? with
  | none => none
  | some h =>
    if 320 ≤ item ∧ item < 384 then some h
    else if lane < 32 ∧ (h.lane lane).parkedOn r.id then some h else none

/-- An item as it is read; none is PERM. -/
def Heat.frameItem (h : Heat) (lane item : Nat) : Option Nat :=
  let x := h.lane lane
  if item < 320 then (if item < h.budget then some (x.v32 item) else none)
  else if item < 384 then some (h.k64 (item - 320))
  else match item with
    | 384 => some x.pc
    | 385 => some x.depth
    | 386 => some x.p.toNat
    | 387 => some ((x.trap.map (fun t => if t.cause = .trap then t.val else 0)).getD 0)
    | 388 => some h.nflags
    | _ => none

/-- TFRAME.rd (R408). -/
def execTframeRd (c : Com) (d : Nat) (h lane : Src) (item : Nat) (s : State) : Result := issue (.tframeRd c d h lane item) s (fun e w =>
  e.onRecords h (fun w l r =>
    match (w.s.frame r (e.src32 lane l) item).bind (fun x => x.frameItem (e.src32 lane l) item) with
    | none => w.trap l { cause := .perm }
    | some y => { w with s := w.s.updHeat e.key (fun x => x.setDst (Wf.itemWide item) l (.v d) y) }) w)

/-- An item written into a parked heat; none is PERM. -/
def Heat.setItem (h : Heat) (lane item y : Nat) : Option Heat :=
  if item < 320 then
    (if item < h.budget then some (h.updLane lane (fun x => { x.setV item y with pend := x.pend.filter (fun m => m.1 ≠ item) })) else none)
  else if item < 384 then some { h.setK (item - 320) y with kpend := h.kpend.filter (fun m => m.1 ≠ item - 320) }
  else match item with
    | 384 => if y % 8 ≠ 0 ∨ !(canonical y) then none else some (h.updLane lane (fun x => { x with pc := y, pcWritten := true }))
    | 386 => some (h.updLane lane (fun x => { x with p := BitVec.ofNat 12 y }))
    | 388 => some { h with nflags := y % 256 }
    | _ => none

/-- TFRAME.wr (R408). -/
def execTframeWr (c : Com) (h lane : Src) (item : Nat) (a : Src) (s : State) : Result := issue (.tframeWr c h lane item a) s (fun e w =>
  e.onRecords h (fun w l r =>
    let y := if Wf.itemWide item then e.src64 a l else e.src32 a l
    match (w.s.frame r (e.src32 lane l) item).bind (fun x => x.setItem (e.src32 lane l) item y) with
    | none => w.trap l { cause := .perm }
    | some x => { w with s := w.s.updHeat x.key (fun _ => x) }) w)

/-! MFS and MTS (R409). -/

/-- A field as MFS reads it. -/
def State.sysField (s : State) (h : Heat) (field : Nat) : Nat :=
  let d := dieOf h.core
  match field with
  | 0 => h.nflags
  | 1 => (s.records.filter (fun r => r.ctx = h.key.ctx ∧ r.die = d)).length + 8192 * b2n (Tbl.get false (s.ctx h.key.ctx).ovf d)
  | _ => Tbl.get 0 (s.ctx h.key.ctx).ovfCount d

/-- MFS (R409). -/
def execMfs (c : Com) (d field : Nat) (s : State) : Result := issue (.mfs c d field) s (fun e w =>
  e.compute false (.v d) (fun _ => (e.base.sysField e.h field, 0)) w)

/-- A field as MTS writes it. -/
def State.setSysField (s : State) (h : Heat) (field x : Nat) : State :=
  let d := dieOf h.core
  match field with
  | 0 => s.updHeat h.key (fun h => { h with nflags := x % 256 })
  | 1 => if bit x 13 then s.updCtx h.key.ctx (fun c => { c with ovf := Tbl.erase c.ovf d }) else s
  | _ => s.updCtx h.key.ctx (fun c => { c with ovfCount := Tbl.put 0 c.ovfCount d x })

/-- MTS (R409). -/
def execMts (c : Com) (field : Nat) (a : Src) (s : State) : Result := issue (.mts c field a) s (fun e w =>
  if e.act.isEmpty then w else { w with s := w.s.setSysField e.h field (e.src32 a e.lowest) })

/-! TLBINV and SPLINTER (R410, R411). -/

/-- The FENCE.rel at package scope that comes first: the body runs once it is complete. -/
def Env.afterFence (e : Env) (w : Work) (f : Work → Work) : Work :=
  let mark := e.waitMark w.s
  if w.s.fenceDone e.h .rel false .package mark then f w else Work.waitOn e mark

/-- The discarding of a range, after which the heat waits until no agent can reach the old mapping (R410). -/
def Env.discard (e : Env) (lo hi : Nat) (w : Work) : Work :=
  let s := w.s.tlbDrop e.ctx lo hi
  { w with s := s.updHeat e.key (fun h => { h with busy := some (.tlbinv lo hi s.nid) }), irrev := true }

/-- TLBINV.range (R410). -/
def execTlbinvRange (c : Com) (a n : Src) (s : State) : Result := issue (.tlbinvRange c a n) s (fun e w =>
  if e.act.isEmpty then w
  else e.afterFence w (fun w =>
    let x := e.src64 a e.lowest % 2 ^ 57
    let len := e.src64 n e.lowest
    if len = 0 then { w with irrev := true } else e.discard x (min (x + len) (2 ^ 57)) w))

/-- TLBINV.ctx (R410). -/
def execTlbinvCtx (c : Com) (s : State) : Result := issue (.tlbinvCtx c) s (fun e w =>
  if e.act.isEmpty then w else e.afterFence w (fun w => e.discard 0 (2 ^ 57) w))

/-- The new table of SPLINTER: entries as the leaf, each with its own address (R411). -/
def splinterTable (leaf pa size n : Nat) : List Byte :=
  (upto n).flatMap (fun i => toBytes 8 (setFld leaf 8 44 ((pa + i * size) / 256)))

/-- The table entry that replaces the leaf (R411). -/
def splinterEntry (leaf t : Nat) : Nat := setFld (setFld (setFld leaf 8 44 (t / 256)) 1 1 0) 4 2 0

/-- SPLINTER (R411). -/
def execSplinter (c : Com) (d : Nat) (a t : Src) (s : State) : Result := issue (.splinter c d a t) s (fun e w =>
  if e.act.isEmpty then w
  else e.afterFence w (fun w =>
    let va := e.src64 a e.lowest
    let tab := e.src64 t e.lowest
    let setP (s : State) (b : Bool) : State := e.act.foldl (fun s l => s.updLane e.key l (fun x => x.setP d b)) s
    match w.s.walk e.ctx e.die (va % 2 ^ 57) with
    | .error x => w.trapAll e.act { cause := x, addr := some va }
    | .ok f =>
      if f.size = 65536 then { w with s := setP w.s false, irrev := true }
      else
        let (n, size, al) := if f.size = 2 ^ 30 then (512, 2 ^ 21, 4096) else (32, 65536, 256)
        if tab % al ≠ 0 then w.trapAll e.act { cause := .align }
        else if 2 ^ 40 ≤ tab then w.trapAll e.act { cause := .perm }
        else
          let s := w.s.ownWrite e.die tab (splinterTable f.entry f.pa size n)
          let s := (upto (8 * n / 256)).foldl (fun s i => s.bankIn e.ctx e.core (tab + 256 * i)) s
          let s := s.cohPut f.pte 8 (splinterEntry f.entry tab)
          let lo := floorTo f.size (va % 2 ^ 57)
          e.discard lo (lo + f.size) { w with s := setP s true }))

/-- Whether an agent may still use a discarded translation: a request, a completion word or a release begun before the
discarding, or a write on its way (R410). -/
def State.oldUse (s : State) (ctx lo hi mark : Nat) : Bool :=
  let lo := floorTo 65536 lo
  let hi := ceilDiv hi 65536 * 65536
  let hit (va : Nat) : Bool := lo ≤ va % 2 ^ 57 && va % 2 ^ 57 < hi
  s.reqs.any (fun r => r.ctx == ctx && r.id < mark && r.accs.any (fun a => hit a.va)) ||
  s.heats.any (fun h => h.key.ctx == ctx && h.cpyw.any (fun p => p.before < mark && p.accs.any (fun a => hit a.va))) ||
  s.rels.any (fun r => r.ctx == ctx && r.id < mark && (match r.val with | .rmw _ accs => accs.any (fun a => hit a.va) | _ => r.obj.isSome)) ||
  (upto 4).any (fun d => !(s.drained d mark))

/-- A heat's TLBINV is complete once no agent can reach the old mapping: the heat is ready again (R410). -/
def State.tlbinvDone (s : State) (key : HeatKey) : State :=
  match s.heat? key with
  | none => s
  | some h => match h.busy with
    | some (.tlbinv lo hi mark) => if s.oldUse key.ctx lo hi mark then s else s.updHeat key (fun h => { h with busy := none })
    | _ => s

end Sys2Proof.Machine
end

