-- ==== Sys2Proof/Machine/DefMap.lean ====
section
/-! DEFINITION. The defect map (R456, R458): the fused section, the field section, their check words, and the fence bits
that the control processor writes (R445).
Readings logged: DEDUCED 49. -/

namespace Sys2Proof.Machine

/-- One bit of the IEEE 802.3 CRC-32, least significant bit first. -/
def crcStep (c : Nat) : Nat := if c % 2 = 1 then c / 2 ^^^ 0xEDB88320 else c / 2

/-- CRC-32 of bytes (R458). -/
def crc32 (bs : List Byte) : Nat :=
  (bs.foldl (fun c b => (upto 8).foldl (fun c _ => crcStep c) (c ^^^ b.toNat)) 0xFFFFFFFF) ^^^ 0xFFFFFFFF

/-- The fused section (R458). -/
def State.fusedBytes (s : State) : List Byte :=
  let b := readBytes s.fused 0 2044
  b ++ toBytes 4 (crc32 b)

/-- The field section (R458). -/
def State.fieldBytes (s : State) : List Byte :=
  let b := readBytes s.field 2048 2044
  b ++ toBytes 4 (crc32 b)

/-- A quadword of the merged map; 0 from 512 on (R456). -/
def State.mapQuad (s : State) (i : Nat) : Nat :=
  if i < 256 then rg s.fusedBytes (8 * i) 8 else if i < 512 then rg s.fieldBytes (8 * i - 2048) 8 else 0

/-- A byte of a die's field section. -/
def State.fieldByte (s : State) (die off : Nat) : Nat := (Tbl.get 0 s.field (2048 + 256 * die + off)).toNat

/-- A field update: bytes of a die's section, the count of updates, and the nonvolatile copy while die 0 is in service
(R445, R450). -/
def State.fieldUpdate (s : State) (die : Nat) (es : List (Nat × Nat)) : State :=
  let f := es.foldl (fun t e => Tbl.put 0 t (2048 + 256 * die + e.1) (BitVec.ofNat 8 e.2)) s.field
  let n := ofBytes (readBytes f 4088 4)
  let f := writeBytes f 4088 (toBytes 4 (n + 1))
  { s with field := f, nvField := if s.fencedDies.contains 0 then s.nvField else f }

/-- A bit set in a die's field section. -/
def State.fieldBit (s : State) (die off i : Nat) : State := s.fieldUpdate die [(off + i / 8, s.fieldByte die (off + i / 8) ||| 2 ^ (i % 8))]

/-- Whether a fence bit is set in either section. -/
def State.mapBit (s : State) (die off i : Nat) : Bool := bit (s.mapByte die (off + i / 8)) (i % 8)

/-- The bundle of a die with a partner: its place among the die's partners in ascending order (R458). -/
def bundleOf (die partner : Nat) : Nat := if partner < die then partner else partner - 1

/-- The logical core that a physical core carries. -/
def State.logicalCore (s : State) (die phys : Nat) : Option Nat :=
  ((upto 16).find? (fun q => s.physQuad die q == some (phys / 4))).map (fun q => 64 * die + 4 * q + phys % 4)

/-- Whether a team with a matrix leg is resident on a core. -/
def State.matrixHere (s : State) (core : Nat) : Bool := s.heats.any (fun h => h.core == core && h.role == 1 && !h.saved && !h.retired)

/-- Whether the half of a port carries traffic (R16, R445). -/
def State.halfCarries (s : State) (port half : Nat) : Bool :=
  let p := Tbl.get {} s.ports port
  p.trained && !p.stopped && !((upto 4).any (fun j => s.mapBit (port / 3) (152 + port % 3) (4 * half + j)))

/-- Whether a unit that BIST selects is out of service: none where the selector breaks the table (R454). -/
def State.outOfService (s : State) (sel : Nat) : Option Bool :=
  let die := fld sel 0 2
  let cls := fld sel 2 3
  let ix := fld sel 5 7
  let sub := fld sel 12 5
  if fld sel 17 15 ≠ 0 then none
  else match cls with
    | 0 => if 68 ≤ ix ∨ sub ≠ 0 then none else some (s.logicalCore die ix).isNone
    | 1 => if 68 ≤ ix ∨ 2 ≤ sub then none else some (match s.logicalCore die ix with
        | none => true
        | some c => s.mapBit die 32 (2 * ix + sub) || !(s.matrixHere c))
    | 2 => if 16 ≤ ix ∨ 25 ≤ sub then none
        else some (s.mapBit die (64 + 4 * ix) sub || (sub == 24 && !((upto 25).any (s.mapBit die (64 + 4 * ix)))))
    | 3 => if 4 ≤ ix ∨ ix = die ∨ 16 ≤ sub then none
        else some (s.mapBit die (128 + 8 * bundleOf die ix) sub || s.fencedDies.contains die || s.fencedDies.contains ix)
    | 4 => if 3 ≤ ix ∨ 2 ≤ sub then none else some (!(s.halfCarries (3 * die + ix) sub))
    | _ => none

end Sys2Proof.Machine
end

