-- ==== Sys2Proof/Machine/Debug.lean ====
section
/-! DEFINITION. The instructions of debugging and test (R429 to R443, R454 to R456).
Readings logged: DEDUCED 48, 49. -/

namespace Sys2Proof.Machine

/-- BRKPT (R440): a lane resumed from BREAK goes on (R431). -/
def execBrkpt (c : Com) (s : State) : Result := issue (.brkpt c) s (fun e w =>
  e.each (fun w l => if (e.h.lane l).noBreak then w else w.trap l { cause := .brk }) { w with irrev := true })

/-- BRKPT.wset (R432, R440). -/
def execBrkptWset (c : Com) (n : Nat) (kind : WatchKind) (a len : Src) (s : State) : Result := issue (.brkptWset c n kind a len) s (fun e w =>
  if e.act.isEmpty then w
  else
    let x := e.src64 a e.lowest
    let y := e.src64 len e.lowest
    if !(canonical x) || y = 0 || 65536 < y then w.trapAll e.act { cause := .perm }
    else { w with s := w.s.updCtx e.ctx (fun c => { c with watch := Tbl.set c.watch n { addr := x, len := y, kind := kind } }) })

/-- BRKPT.wclr (R440). -/
def execBrkptWclr (c : Com) (n : Nat) (s : State) : Result := issue (.brkptWclr c n) s (fun e w =>
  if e.act.isEmpty then w else { w with s := w.s.updCtx e.ctx (fun c => { c with watch := Tbl.erase c.watch n }) })

/-- HALTALL.stop (R441): the heat waits until the halt is complete. -/
def execHaltallStop (c : Com) (s : State) : Result := issue (.haltallStop c) s (fun e w =>
  if e.act.isEmpty then w
  else { w with s := (w.s.beginHalt e.ctx).updHeat e.key (fun h => { h with busy := some .halt }) })

/-- The lanes of a context that are parked on BREAK. -/
def State.broken (s : State) (ctx : Nat) : List (HeatKey × Nat) :=
  (s.heats.filter (fun h => h.key.ctx = ctx)).flatMap (fun h =>
    (h.lanesWhere (fun x => x.parkedB && (x.trap.map (·.cause)) == some .brk)).map (fun l => (h.key, l)))

/-- HALTALL.go (R441). -/
def execHaltallGo (c : Com) (s : State) : Result := issue (.haltallGo c) s (fun e w =>
  if e.act.isEmpty then w
  else if !(w.s.canRelease e.h) then Work.stallWith e id
  else
    let s := w.s.updCtx e.ctx (fun c => { c with haltBegun := false, halted := false })
    let s := s.releaseNow e.ctx e.core .package none 0
    let q := s.lastSeq e.ctx e.core
    { w with s := ((s.broken e.ctx).foldl (fun s kl => s.resumeLane kl.1 kl.2 false (e.core, q)) s).sweep })

/-- HALT (R429): a halt that has begun reaches every core of the context. -/
def execHalt (ctx : Nat) (s : State) : Result :=
  .next (if (s.ctx ctx).haltBegun then s.updCtx ctx (fun c => { c with halted := true }) else s)

/-! UNDO (R442). -/

/-- A lane as an undo entry recorded it. -/
def undoLane (u : UndoLane) (x : Lane) : Lane :=
  { x with pc := u.pc, blk := u.blk, depth := u.depth, pend := u.pend, p := u.p
           v := u.v.foldl (fun t e => Tbl.put 0 t e.1 e.2) x.v }

/-- What an entry recorded, put back. -/
def Heat.restore (h : Heat) (u : Undo) : Heat :=
  let h := u.lanes.foldl (fun h e => h.updLane e.lane (undoLane e)) h
  { h with k := u.k.foldl (fun t e => Tbl.put 0 t e.1 e.2) h.k, kpend := u.kpend, fcnt := u.fcnt, nflags := u.nflags, undo := h.undo.drop 1 }

/-- The heat that a lane's UNDO names; none where it raises PERM. -/
def State.undoHeat (s : State) (r : FRec) : Option Heat :=
  match r.key.bind s.heat? with
  | none => none
  | some h => if h.debug && h.lanes.all (fun x => x.exited || x.parkedB) then some h else none

/-- UNDO (R442). -/
def execUndo (c : Com) (d : Option Nat) (h : Src) (s : State) : Result := issue (.undo c d h) s (fun e w =>
  if e.act.any (fun l => match e.named w.s h l with
      | .rec_ r => (match w.s.undoHeat r with
        | some x => w.s.ops.any (fun o => o.key = x.key && o.flag.isSome)
        | none => false)
      | _ => false) then Work.stallWith e id
  else e.onRecords h (fun w l r =>
    match w.s.undoHeat r with
    | none => w.trap l { cause := .perm }
    | some x =>
      let ok : Option Undo := match x.undo with | u :: _ => if u.reversible then some u else none | [] => none
      let s := match ok with | some u => w.s.updHeat x.key (fun x => x.restore u) | none => w.s
      { w with s := match d with | none => s | some n => s.updLane e.key l (fun y => y.setP n ok.isSome) }) w)

/-! STAMP (R443). -/

/-- STAMP: the counter once the heat's earlier accesses are performed at the scope. -/
def execStamp (c : Com) (sc : Scope) (d : Dst) (s : State) : Result := issue (.stamp c sc d) s (fun e w =>
  if e.act.isEmpty then w
  else
    let mark := e.waitMark w.s
    if w.s.fenceDone e.h .rel false sc mark then e.compute true d (fun _ => ((w.s.clock e.core).toNat, 0)) w
    else Work.waitOn e mark)

/-! BIST and DEFMAP (R454 to R456). -/

/-- BIST (R454). -/
def execBist (c : Com) (d : Nat) (a b : Src) (alg : Nat) (s : State) : Result := issue (.bist c d a b alg) s (fun e w =>
  e.once a 64 0 true w (fun w va _ =>
    let sel := e.src32 b e.lowest
    let die := fld sel 0 2
    let ok : Bool := w.s.outOfService sel == some true && !(w.s.bist.any (fun t => t.die == die)) && !(w.s.fencedDies.contains 0)
    let s := if ok then { w.s with bist := w.s.bist ++ [{ die := die, ctx := e.ctx, va := va, sel := sel, alg := alg }] } else w.s
    { w with s := e.act.foldl (fun s l => s.updLane e.key l (fun x => x.setP d ok)) s }))

/-- DEFMAP (R456). -/
def execDefmap (c : Com) (d : Dst) (a : Src) (s : State) : Result := issue (.defmap c d a) s (fun e w =>
  e.compute true d (fun l => (e.base.mapQuad (e.src32 a l), 0)) w)

end Sys2Proof.Machine
end

