-- ==== Sys2Proof/Machine/MemEvents.lean ====
section
/-! DEFINITION. The events of the memory system and of the engines beside the arrays: responses (R193, R194, R200, R213,
R222), releases (R274, R277), copies and completion words (R224, R225), waits on a word (R227) and ring hand-offs
(R233).
Readings logged: DEDUCED 30, 34, 38, 40, 41; DESIGN CHOICE 10, 83. -/

namespace Sys2Proof.Machine

/-! Responses. -/

/-- A cause that lanes meet after they have moved on; a bound copy's slot then has a fault (R194, R200, R231). -/
def State.late (s : State) (accs : List Acc) (c : Cause) : State :=
  (nub (accs.map (·.opId))).foldl (fun s id =>
    let s := match s.ops.find? (fun o => o.id = id) with
      | none => s
      | some o => match o.ring, s.heat? o.key with
        | some (g, i), some h => s.ringFault h.unit g i
        | _, _ => s
    s.lateTraps id ((accs.filter (fun a => a.opId = id)).map (fun a => (a.lane, { cause := c, addr := some a.va, write := a.op.writes })))) s

/-- An access as a read-modify-write: SYADD is an add (R283). -/
def Acc.asRmw (a : Acc) : Acc :=
  match a.op with
  | .syadd y sc o d => { a with op := .rmw .add .unsigned 3 sc o y 0 d }
  | .cpyw y sz sc => { a with op := .rmw .add .unsigned sz sc .release y 0 none }
  | _ => a

/-- Whether an ordered operation acquires (R214, R277). -/
def ordAcquires : Order → Bool
  | .relaxed => false
  | _ => true

/-- A read-modify-write at the die's L2, under ownership (R213, R214, R283). -/
def State.rmwFar (s : State) (ctx : Nat) (key : HeatKey) (core : Nat) (a : Acc) : State :=
  let die := dieOf core
  let bs := s.dieRead die a.pa a.op.len
  match a.op with
  | .rmw op kind sz _ o y cmp _ =>
    let obj := parseSync (s.dieSector die (a.pa / 64))
    let r := rmwOf op kind sz (ofBytes bs) y cmp
    let s := (s.l2Write die a.pa (toBytes (2 ^ sz) r.1)).l1Drop core (fun c => c == a.pa / 64)
    let s := s.mergeFlags key a.lane r.2
    let s := if ordAcquires o then s.acquireSync ctx core obj else s
    s.finishLoad key a bs
  | _ => s

/-- One access of a line that has come back (R194, R206, R213, R220, R276). -/
def State.answer (r : Req) (s : State) (a : Acc) : State :=
  let die := dieOf r.core
  let sec := a.pa / 64
  let near (s : State) : State := if (s.l1? r.core sec).isSome then s else s.fillL1 r.core sec r.stream
  match a.op with
  | .load .. | .loadDst _ _ false =>
    let s := near s
    s.finishLoad r.key a ((s.nearRead r.key r.core a).getD [])
  | .loadDst _ _ true =>
    -- an older copy in the L1 would let a later load go back behind this one (R268)
    ((s.acquireSync r.ctx r.core (parseSync (s.dieSector die sec))).l1Drop r.core (fun c => c == sec)).finishLoad r.key a
      (overTask (s.laneRun r.key a.lane) a.pa (s.dieRead die a.pa a.op.len))
  | .rmw _ _ _ sc _ _ _ _ =>
    if 2 ≤ sc.code then s.rmwFar r.ctx r.key r.core a
    else
      let s := near s
      s.rmwNear r.key r.core a ((s.nearRead r.key r.core a).getD [])
  | .syadd .. => s.rmwFar r.ctx r.key r.core a.asRmw
  | .copyIn sz off => match s.heat? r.key with
    | none => s
    | some h => (s.copyElem a off (fun s => s.scrWrite h.unit off (s.dieRead die a.pa (2 ^ sz)))).opDone a.opId a.lane
  | .copyOut sz off => match s.heat? r.key with
    | none => s
    | some h => (s.copyElem a a.pa (fun s => s.dieWrite die a.pa (s.scrRead h.unit off (2 ^ sz)) true)).opDone a.opId a.lane
  | _ => s.opDone a.opId a.lane

/-- The scratchpad sectors that an access of a copy touches. -/
def Acc.scrSector (a : Acc) : Option Nat :=
  match a.op with
  | .copyIn _ off | .copyOut _ off => some (off / 64)
  | _ => none

/-- Whether an earlier copy of the core has a line under way that touches the same sectors, in scratchpad or in memory
(R220). -/
def State.copyBehind (s : State) (r : Req) : Bool :=
  s.reqs.any (fun q => q.copy && q.core == r.core && q.id < r.id && q.accs.any (fun a => r.accs.any (fun b =>
    (q.remote.isNone && r.remote.isNone && a.pa / 64 == b.pa / 64) ||
    (((s.heat? q.key).map (·.unit)) == ((s.heat? r.key).map (·.unit)) && a.scrSector == b.scrSector))))

/-- Whether a line's access needs ownership of its sectors, as against a readable copy; a store's or a copy-out's bytes
have a place of their own in the write queue (R264). -/
def Req.owning (r : Req) : Bool := r.accs.any (fun a => a.op.owning)

/-- The sectors that a line's accesses need and that the die cannot serve yet. -/
def State.missing (s : State) (r : Req) : List Nat :=
  let die := dieOf r.core
  (nub ((r.accs.filter (fun a => a.reads && !(s.poisoned a.pa a.op.len))).map (fun a => a.pa / 64))).filter (fun c =>
    !(if r.owning then s.owns die c && !(s.rwq.any (fun e => e.die == die && e.pa / 64 == c)) else s.readable die c))

/-- Whether an engine holds a sector that a thread's access needs (R222). -/
def State.recalled (s : State) (r : Req) : Bool := !r.copy && r.accs.any (fun a => a.reads && s.copyOwned (a.pa / 64))

/-- Releases of a heat's lanes that waited for copies, or for the end of another, are tried (R224, R337). -/
def State.retryReleases (s : State) (key : HeatKey) : State :=
  match s.heat? key with
  | none => s
  | some h => if h.saved then s else (upto h.lanes.length).foldl (fun s l => s.retryRelease key l) s

/-- A request's slot is freed: the lanes that waited for one try again (R193). -/
def State.freeReq (s : State) (r : Req) : State := ({ s with reqs := s.reqs.filter (fun q => q.id ≠ r.id) } : State).retrySlots

/-- The answer of the package to a line (R193, R194). -/
def State.respondLocal (s : State) (r : Req) : State :=
  let miss := s.missing r
  if s.recalled r || (r.copy && s.copyBehind r) then s
  else if !miss.isEmpty then miss.foldl (fun s c => s.ask (dieOf r.core) c r.owning) s
  else
    let bad := r.accs.filter (fun a => a.reads && s.poisoned a.pa a.op.len)
    let ok := r.accs.filter (fun a => !(a.reads && s.poisoned a.pa a.op.len))
    let s := s.late bad .uncorrectable
    let s := ok.foldl (State.answer r) s
    ((s.clearPoison (ok.filter (fun a => match a.op with | .copyOut .. => true | _ => false))).freeReq r).flushAll

/-- Whether a reply is one that a line's access can have. -/
def replyFits (r : Req) : Reply → Bool
  | .data _ => !r.write
  | .ack => r.write
  | .refused => true

/-- Whether a release through a REMOTE record can have left: every earlier write of the core is performed at system scope
(R279). -/
def State.remoteLeft (s : State) (r : Req) : Bool :=
  !(r.accs.any (fun a => match a.op with | .strel .. => true | _ => false)) || s.performed r.core r.id .system

/-- A request of a REMOTE record that found no port leaves on one that carries traffic by now (R17). -/
def State.departs (s : State) (r : Req) (handle : Nat) : State :=
  let (en, s) := s.endpoint r.ctx (dieOf r.core) handle
  match en.bind s.portFor with
  | none => s
  | some w => { s with reqs := s.reqs.map (fun (q : Req) => if q.id = r.id then { q with way := some w } else q) }

/-- The answer of a peer to a line (R200, R279). -/
def State.respondRemote (s : State) (r : Req) (handle : Nat) (reply : Reply) : State :=
  if r.way.isNone then s.departs r handle
  else if !(r.accs.isEmpty || replyFits r reply) || !(s.remoteLeft r) || (r.copy && s.copyBehind r) then s
  else
    let s := match reply with
      | .refused => s.late r.accs .perm
      | .ack => r.accs.foldl (fun (s : State) (a : Acc) => s.opDone a.opId a.lane) s
      | .data bytes => r.accs.foldl (fun (s : State) (a : Acc) =>
          let bs := ((bytes.drop (a.va % 256)).take a.op.len ++ List.replicate a.op.len 0).take a.op.len
          match a.op, s.heat? r.key with
          | .copyIn _ off, some h => (s.copyElem a off (fun s => s.scrWrite h.unit off bs)).opDone a.opId a.lane
          | _, _ => s.finishLoad r.key a bs) s
    (s.freeReq r).flushAll

/-- MEMORY_RESPONSE (R193, R194, R200). A victim is a sector of the core's L1 that the filled line evicts (R190). -/
def State.respond (s : State) (id : Nat) (victim : Option Nat) (reply : Reply) : State :=
  match s.reqs.find? (fun r => r.id = id) with
  | none => s
  | some r =>
    let s := match victim with | some v => s.l1Drop r.core (fun c => c == v) | none => s
    match r.remote with | some (handle, _) => s.respondRemote r handle reply | none => s.respondLocal r

/-- MEMORY_RESPONSE. -/
def execMemoryResponse (id : Nat) (victim : Option Nat) (reply : Reply) (s : State) : Result := .next (s.respond id victim reply)

/-- REMOTE_TIMEOUT (R200). -/
def execRemoteTimeout (id : Nat) (s : State) : Result := .next (
  match s.reqs.find? (fun r => r.id = id) with
  | none => s
  | some r => if r.remote.isSome ∧ r.born + 2 ^ 20 ≤ s.now then ((s.late r.accs .remoteGone).freeReq r).flushAll else s)

/-! Releases (R274, R277). -/

/-- The operations of a release's lanes on their object, in ascending order: the value they leave (R213, R283). -/
def State.applyLanes (s : State) (key : HeatKey) (v : Nat) : List Acc → State × Nat
  | [] => (s, v)
  | a :: as =>
    let b := a.asRmw
    match b.op with
    | .rmw op kind sz _ _ y cmp _ =>
      let r := rmwOf op kind sz v y cmp
      State.applyLanes ((s.mergeFlags key b.lane r.2).finishLoad key b (toBytes 8 v)) key r.1 as
    | _ => State.applyLanes s key v as

/-- An acquire made by a releasing operation: what it applies joins the release's own signature as well as the current
bank (R276, R277). -/
def State.acquireInto (s : State) (ctx core pa : Nat) (d : Sig) : State × Sig :=
  let b := Tbl.get {} (s.ctx ctx).banks core
  let s := s.updCtx ctx (fun c => { c with banks := Tbl.set c.banks core {} })
  let s := s.acquireObj ctx core pa
  let g := Tbl.get {} (s.ctx ctx).banks core
  (s.updCtx ctx (fun c => { c with banks := Tbl.set c.banks core (b.union g) }), d.union g)

/-- The value that a release leaves in its object, with what its lanes receive (R42, R213, R277). -/
def State.relValue (s : State) (r : PendRel) (pa : Nat) (d : Sig) : State × Nat × Sig :=
  match r.val with
  | .set v => (s, v, d)
  | .incr => (s, (s.cohNat pa 8 + 1) % 2 ^ 64, d)
  | .rmw key accs =>
    let (s, d) := s.acquireInto r.ctx r.origin pa d
    let (s, v) := s.applyLanes key (s.cohNat pa 8) accs
    (s, v, d)

/-- A release written: its sequence, its trail slot and its object. -/
def State.depositRel (s : State) (r : PendRel) (d : Sig) : State :=
  match r.obj with
  | none => s.deposit r.ctx r.origin r.scope d none r.flags
  | some pa =>
    match r.val with
    | .rmw _ accs =>
      if s.poisoned pa 64 then s.late accs .uncorrectable
      else
        let (s, v, d) := s.relValue r pa d
        s.deposit r.ctx r.origin r.scope d (some (pa, v)) r.flags
    | _ =>
      let (s, v, d) := s.relValue r pa d
      s.deposit r.ctx r.origin r.scope d (some (pa, v)) r.flags

/-- Whether the die of an origin can write an object: it owns the object's sector, none of its own older writes to the
sector waits, and no copy owns the sector (R222, R306). -/
def State.objectFree (s : State) (die pa : Nat) : Bool :=
  s.owns die (pa / 64) && !(s.rwq.any (fun e => e.die == die && e.pa / 64 == pa / 64)) && !(s.copyOwned (pa / 64))

/-- RELEASE_DEPOSIT: the head release of an origin, once every write of its bank is performed at its scope, at the L2 of the
origin's die under ownership of the object's sector (R274, R306). -/
def State.releaseStep (s : State) (origin ctx : Nat) : State :=
  match s.rels.find? (fun r => r.ctx = ctx ∧ r.origin = origin) with
  | none => s
  | some r => match r.cap with
    | none => s.capture ctx origin
    | some (d, mark) =>
      let free : Bool := match r.obj with | some pa => s.objectFree (originDie origin) pa | none => true
      if !(s.performed origin mark r.scope) then s
      else if !free then (match r.obj with | some pa => s.ask (originDie origin) (pa / 64) true | none => s)
      else
        let s := { s.depositRel r d with rels := removeFirst (fun q => q = r) s.rels }
        let s := s.capture ctx origin
        let s := match r.colour with
          | some (key, l, c) => s.afterRelease key l c
          | none => s
        s.flushAll

/-- RELEASE_DEPOSIT. -/
def execReleaseDeposit (origin ctx : Nat) (s : State) : Result := .next (s.releaseStep origin ctx)

/-! Copies and completion words (R224, R225). -/

/-- COPY_COMPLETE (R224): every lane has written all of its bytes or been killed. -/
def State.copyDone (s : State) (id : Nat) : State :=
  match s.ops.find? (fun o => o.id = id) with
  | none => s
  | some o =>
    if o.isCopy && o.left.isEmpty && o.parked.isEmpty then
      ({ s with ops := s.ops.filter (fun q => q.id ≠ id) } : State).retryReleases o.key
    else s

/-- COPY_COMPLETE. -/
def execCopyComplete (id : Nat) (s : State) : Result := .next (s.copyDone id)

/-- One add of a CPYW (R225): a release at scope 2 to 4; at core scope an add in the L1, whose line enters the bank with it
(R273, log entry 41). -/
def State.cpywAdd (h : Heat) (s : State) (a : Acc) : State :=
  let b := a.asRmw
  match a.op with
  | .cpyw _ _ sc =>
    if 2 ≤ sc.code then s.enqueueRel { origin := h.core, ctx := h.key.ctx, scope := sc, obj := some a.pa, val := .rmw h.key [b], cpyw := some (h.key, a.opId) }
    else if s.poisoned a.pa a.op.len then s
    else
      let s := s.bankIn h.key.ctx h.core a.pa
      let s := if (s.l1? h.core (a.pa / 64)).isSome then s else s.fillL1 h.core (a.pa / 64)
      s.rmwNear h.key h.core b ((s.nearRead h.key h.core b).getD [])
  | _ => s

/-- CPYW_PERFORM (R225): the oldest CPYW of a heat, once the copies before it are complete. -/
def State.cpywStep (s : State) (key : HeatKey) : State :=
  match s.heat? key with
  | none => s
  | some h => match h.cpyw with
    | [] => s
    | p :: rest =>
      if s.ops.any (fun o => o.isCopy && o.key = key && o.id < p.before) then s
      else
        let need := (nub ((p.accs.filter (fun a => match a.op with | .cpyw _ _ sc => sc.code < 2 | _ => false)).map (fun a => a.pa / 64))).filter
          (fun c => !(s.poison.contains c) && (s.l1? h.core c).isNone && !(s.readable (dieOf h.core) c))
        if !need.isEmpty then need.foldl (fun s c => s.ask (dieOf h.core) c false) s
        else (p.accs.foldl (State.cpywAdd h) (s.updHeat key (fun x => { x with cpyw := rest }))).retryReleases key

/-- CPYW_PERFORM. -/
def execCpywPerform (key : HeatKey) (s : State) : Result := .next (s.cpywStep key)

/-! WAITA (R227). -/

/-- cmp(word, b) of R227. -/
def waitHolds (cmp : WaitCmp) (sg w64 : Bool) (x y : Nat) : Bool :=
  let n := if w64 then 64 else 32
  let lt : Bool := if sg then sext x n < sext y n else x < y
  match cmp with
  | .eq => x == y
  | .ne => x != y
  | .lt => lt
  | .ge => !lt

/-- A lane of WAITA reads its word again: when the condition holds it acquires and moves on; when it does not, and the time
is over, it moves on with 0 (R227). -/
def State.reread (s : State) (key : HeatKey) (l : Nat) (last : Bool) : State :=
  match s.heat? key with
  | none => s
  | some h => match (h.lane l).st with
    | .blocked (.waita scr addr cmp sg w64 y d _ acq) =>
      let n := if w64 then 8 else 4
      let ends (b : Bool) (s : State) : State := s.updLane key l (fun x => (match d with | some p => x.setP p b | none => x).goOn)
      let fails (s : State) : State := if last then ends false s else s
      if h.saved then s
      else if scr then
        if s.scrOwned h.unit (addr / 64) then s
        else if waitHolds cmp sg w64 (ofBytes (s.scrRead h.unit addr n)) y then ends true s else fails s
      else match s.translate key.ctx (dieOf h.core) (some h.core) addr .read with
        | (.error c, s) => s.trapBlocked key l { cause := c, addr := some addr }
        | (.ok pa, s) =>
          if s.poisoned pa n then s.trapBlocked key l { cause := .uncorrectable, addr := some addr }
          else if s.copyOwned (pa / 64) then s
          else if !(s.readable (dieOf h.core) (pa / 64)) then s.ask (dieOf h.core) (pa / 64) false
          else if waitHolds cmp sg w64 (ofBytes (s.dieRead (dieOf h.core) pa n)) y then
            -- an acquiring read leaves no older copy in the L1 (R268)
            let s := if acq.isSome then s.l1Drop h.core (fun c => c == pa / 64) else s
            let sync : Bool := match acq with | some sc => 2 ≤ sc.code | none => false
            ends true (if sync then s.acquireSync key.ctx h.core (parseSync (s.dieSector (dieOf h.core) (pa / 64))) else s)
          else fails s
    | _ => s

/-- WAITA_POLL (R227). -/
def State.poll (s : State) (key : HeatKey) (l : Nat) : State := s.reread key l false

/-- WAITA_POLL. -/
def execWaitaPoll (key : HeatKey) (lane : Nat) (s : State) : Result := .next (s.poll key lane)

/-- WAITA_TIMEOUT (R227): the lane reads its word once more. -/
def execWaitaTimeout (key : HeatKey) (lane : Nat) (s : State) : Result := .next (
  match (s.lane? key lane).map Lane.st with
  | some (.blocked (.waita _ _ _ _ _ _ _ dl _)) => if dl ≤ s.now then s.reread key lane true else s
  | _ => s)

/-! Ring hand-offs (R233, R234). -/

/-- The stage that a slot goes to (R228). -/
def nextStage (o : List Byte) : Stage → Nat
  | .fill => if ringStages o = 2 then 2 else 1
  | .operate => 2
  | .drain => 0

/-- The split record of a slot (R57). -/
def splitRecord (o : List Byte) (slot : Nat) (fault : Bool) (h : SlotHid) (copyOut : Nat) : List Byte :=
  let core (i : Nat) : List Byte := toBytes 2 ((h.cores[i]?).getD 0)
  toBytes 4 (ringSplitSeq o) ++ toBytes 1 slot ++ toBytes 1 (b2n fault + 2 * b2n h.moved) ++ core 0 ++ core 1 ++ core 2 ++ toBytes 4 0 ++
  toBytes 8 h.start ++ toBytes 8 h.fill ++ toBytes 8 h.wait ++ toBytes 8 h.cstart ++ toBytes 8 h.cend ++ toBytes 8 copyOut

/-- The hidden state after a stage has handed on its slot (R234). -/
def stampStage (st : Stage) (core clock : Nat) (h : SlotHid) : SlotHid :=
  let h := h.touch core
  let h := { h with cores := modifyAt h.cores (stageCode st) (fun _ => core) }
  if st = .fill then { h with fill := clock } else h

/-- A split record stored at die scope, dropped on a fault (R58); none when its pre-image must be saved first. An address
that is not canonical is taken by its low 57 bits (log entry 83). -/
def State.storeSplit (s : State) (u : RUnit) (journal : Bool) (va : Nat) (bs : List Byte) : Option State × State :=
  match s.translate u.key.ctx (dieOf u.core) (some u.core) va .write with
  | (.error _, s) => (some s, s)
  | (.ok pa, s) =>
    let saved : Bool := (s.ctx u.key.ctx).saved.any (fun e => e.1 == u.key.serial && e.2.1 == pa / 65536)
    if journal && !saved then (none, s.beginSaves u.key.ctx u.key.serial [pa / 65536])
    else (some ((s.storeThrough u.key.ctx u.core pa bs).clearPoison [{ lane := 0, va := va, pa := pa, op := .store bs }]), s)

/-- The pending part of a hand-off takes effect (R57, R233, R234). -/
def State.handOffNow (s : State) (u : RUnit) (x : HandOff) : State :=
  let o := s.scrRead u.id x.ring 64
  let fault : Bool := x.killed || bit (ringState o x.slot) 3
  let drain : Bool := x.stage = .drain
  let clock := (s.clock u.core).toNat
  let hid := stampStage x.stage u.core clock (Tbl.get {} u.hid (hidKey x.ring x.slot))
  let journal : Bool := s.heats.any (fun h => h.unit == u.id && h.journal)
  let put (s : State) : State :=
    let s := s.scrWrite u.id (x.ring + 24 + x.slot) (toBytes 1 (nextStage o x.stage + 4 * b2n x.phase + 8 * b2n (fault && !drain)))
    let s := s.updUnit u.id (fun v => { v with handoffs := removeFirst (fun y => y = x) v.handoffs })
    let s := if drain then
        (s.scrWrite u.id (x.ring + 48) (toBytes 8 (ringSplitSeq o + 1))).updUnit u.id (fun v => { v with hid := Tbl.erase v.hid (hidKey x.ring x.slot) })
      else s.updHid u.id x.ring x.slot (fun _ => hid)
    s.wakeRing u.id x.ring
  let two : Bool := ringStages o == 2
  if drain && bit (ringFlags o) 0 then
    let va := (ringSplitBase o + ringSplitSeq o % ringSplitCap o * 64) % 2 ^ 64
    let hid := if two then { hid with cores := modifyAt hid.cores 1 (fun _ => 0) } else hid
    match s.storeSplit u journal va (splitRecord o x.slot fault hid clock) with
    | (some s, _) => put s
    | (none, s) => s
  else put s

/-- Whether a pending hand-off's condition is met, and what its heat did before it is performed (R233, R236, R266). -/
def State.handOffReady (s : State) (u : RUnit) (x : HandOff) : Bool :=
  !(s.slotBusy u.id x.ring x.slot) &&
  (match s.heat? { ctx := u.key.ctx, serial := u.key.serial, team := x.team, heat := x.heat } with
    | none => true
    | some h => !(s.engineBusy h x.before) && !(s.owed h x.before))

/-- HAND_OFF: the first hand-off of a ring whose condition is met; with none, the lanes that wait on the ring look at it
again (R232, R233). -/
def State.handOffStep (s : State) (key : UnitKey) (ring : Nat) : State :=
  match s.unitOf key with
  | none => s
  | some u =>
    if u.saved then s
    else match u.handoffs.find? (fun x => x.ring == ring && s.handOffReady u x) with
      | none => s.wakeRing u.id ring
      | some x => s.handOffNow u x

/-- HAND_OFF. -/
def execHandOff (u : UnitKey) (ring : Nat) (s : State) : Result := .next (s.handOffStep u ring)

end Sys2Proof.Machine
end

