-- ==== Sys2Proof/Machine/Transport.lean ====
section
/-! DEFINITION. The command transport: ports, messages as they arrive and as the part sends them (R59 to R64), and the
events KIND_NOT_ALLOWED and UUD_PACKET.
Readings logged: DEDUCED 52, 56, 59; DESIGN CHOICE 73, 81. -/

namespace Sys2Proof.Machine

/-- A message or packet discarded or refused is counted, saturating (R459). -/
def State.countError (s : State) (p : Nat) : State :=
  { s with sb := { s.sb with portErr := Tbl.set s.sb.portErr p (min (Tbl.get 0 s.sb.portErr p + 1) (2 ^ 32 - 1)) } }

/-! Messages that the part sends (R61). -/

/-- A message sent on a half of a port, or where that carries nothing on another (R17, R61, R87). -/
def State.send (s : State) (port half peer endpoint kind tag : Nat) (body : List Byte) : State :=
  let w := s.wayOut port half
  { s with out := s.out ++ [{ port := w.1, half := w.2, peer := peer, endpoint := endpoint, kind := kind, tag := tag, body := body }] }

/-- A REJECT of a message (R61, R62). -/
def State.reject (s : State) (m : Msg) (reason off : Nat) : State :=
  s.send m.port m.half m.sender m.endpoint 0x03 m.tag (toBytes 1 reason ++ toBytes 1 0 ++ toBytes 2 off)

/-- A CTX_ACK (R61). -/
def State.ctxAck (s : State) (port half peer tag ctx status : Nat) : State :=
  s.send port half peer 0 0x0D tag (toBytes 1 ctx ++ toBytes 1 status)

/-! Messages as they arrive. -/

/-- A field of a message's body, in the bytes of its stated length. -/
def Msg.fld (m : Sys2Proof.Msg) (off n : Nat) : Nat := ofBytes (((m.body.take m.length).drop off).take n)

/-- The fields of a host's message by kind: offset and size (R61). -/
def msgFields : Nat → List (Nat × Nat)
  | 0x01 => [(0, 8)]
  | 0x08 => [(0, 8), (8, 8), (16, 1)]
  | 0x09 => [(0, 1), (1, 1), (2, 1)]
  | 0x0B => [(0, 1), (8, 8), (16, 8), (24, 4), (28, 1)]
  | 0x0C => [(0, 1)]
  | 0x0E => [(0, 1), (1, 1), (2, 2), (8, 16), (24, 4), (32, 64), (96, 1)]
  | _ => []

/-- The bytes of a body that a kind uses. -/
def msgLen (kind : Nat) : Nat := ((msgFields kind).getLast?.map (fun f => f.1 + f.2)).getD 0

/-- The values of a body's fields that are out of range: their offsets (R61, R62, R68). -/
def badValues (kind : Nat) (m : Sys2Proof.Msg) : List Nat :=
  let f := Msg.fld m
  let op := f 0 1
  (match kind with
    | 0x01 => if f 0 8 % 256 ≠ 0 then [0] else []
    | 0x08 => if 1 < f 16 1 then [16] else []
    | 0x09 => (if 3 < op then [0] else []) ++ (if 3 < f 1 1 ∨ (op ≠ 0 ∧ f 1 1 ≠ 0) then [1] else []) ++
        (if 1 < f 2 1 ∨ (op ≠ 0 ∧ f 2 1 ≠ 0) then [2] else [])
    | 0x0B => (if 15 < op then [0] else []) ++ (if 3 < f 28 1 then [28] else [])
    | 0x0C => if 15 < op then [0] else []
    | 0x0E => (if 15 < op then [0] else []) ++ (if 1 < f 1 1 then [1] else [])
    | _ => [])

/-- The first field of a message that is reserved and not zero, or out of range, by its offset from the message's start
(R62). A byte of the body that R61 lists in no field is taken as reserved (log entry 81). -/
def badField (kind : Nat) (m : Sys2Proof.Msg) : Option Nat :=
  let raw := m.body.take m.length
  let gap (i : Nat) : Bool := (raw[i]?).getD 0 != 0 && !((msgFields kind).any (fun f => f.1 ≤ i && i < f.1 + f.2))
  let offs := (if 16 < m.endpoint then [4] else []) ++ (if m.rsv5 ≠ 0 then [5] else []) ++
    (if 63 < m.queue ∨ (m.queue ≠ 0 ∧ kind ≠ 0x01 ∧ kind ≠ 0x09) then [6] else []) ++
    (if m.length < msgLen kind then [16] else []) ++ (if m.rsv18 ≠ 0 then [18] else []) ++
    (((upto raw.length).find? gap).toList ++ badValues kind m).map (32 + ·)
  leastBy id offs

/-- Whether a kind is one that a host may send on an endpoint (R61). -/
def kindAllowed (kind endpoint : Nat) : Bool :=
  if endpoint = 0 then kind == 0x0B || kind == 0x0C || kind == 0x0E else kind == 0x01 || kind == 0x08 || kind == 0x09

/-- Whether an association of a context covers a sender (R64). -/
def Ctx.covers (c : Ctx) (sender : Nat) : Travel → Bool
  | .association i => (match Tbl.find? c.assocs i with | some a => a.peer == sender | none => false)
  | _ => false

/-- Whether a message travelled as its endpoint requires (R62, R64). -/
def State.secured (s : State) (m : Sys2Proof.Msg) : Bool :=
  if m.endpoint = 0 then
    m.travel == .management && s.sb.assoc.isSome && m.sender != 0 && (m.sender == s.sb.mgmt0 || m.sender == s.sb.mgmt1)
  else if 16 < m.endpoint then true
  else
    let c := s.ctx (m.endpoint - 1)
    match m.travel with
    | .association _ => c.covers m.sender m.travel
    | _ => !(c.opened && c.secure)

/-- A message as its kind's event takes it: lost on a port that carries no traffic, discarded and counted, rejected, or
taken (R62, R64, R67). -/
def State.receive (s : State) (kind : Nat) (m : Sys2Proof.Msg) (take : State → State) : State :=
  if !(s.carries m.port m.half) then s
  else if m.magic ≠ 0x5458 ∨ m.version ≠ 1 ∨ 224 < m.length ∨ m.body.length < m.length ∨ s.secured m = false then s.countError m.port
  else if kindAllowed kind m.endpoint = false then s.reject m 4 0
  else match badField kind m with
    | some off => s.reject m 5 off
    | none => take s

/-- KIND_NOT_ALLOWED (R61): a kind that no host may send on the endpoint. -/
def execKindNotAllowed (kind : Nat) (m : Sys2Proof.Msg) (s : State) : Result :=
  .next (if kindAllowed kind m.endpoint then s else s.receive kind m id)

/-- UUD_PACKET (R59). -/
def execUudPacket (port : Nat) (s : State) : Result := .next (if s.portUp port then s.countError port else s)

/-! Associations (R64). -/

/-- The association that an installing message or the sideband's window holds, from its body's bytes. -/
def assocOf (b : List Byte) : Assoc :=
  let n := ofBytes ((b.drop 96).take 1)
  { peer := ofBytes ((b.drop 8).take 16), spi := ofBytes ((b.drop 24).take 4), keyLen := n, key := (b.drop 32).take n }

/-- SA_SET (R64): its index and key length are answered, not rejected; whether the sublayer accepts the parameters is a
free value of theirs (log entry 73). -/
def State.saSet (s : State) (m : Sys2Proof.Msg) : State :=
  let c := Msg.fld m 0 1
  let op := Msg.fld m 1 1
  let i := Msg.fld m 2 2
  let n := Msg.fld m 96 1
  let a := assocOf (m.body.take m.length)
  let bad : Bool := !((s.ctx c).opened) || i == 0 || 1023 < i || n < 16 || 64 < n ||
    (op == 0 && !(Config.sublayerTakes a.peer a.spi a.key))
  let s := if bad then s
    else if op = 0 then s.updCtx c (fun x => { x with assocs := Tbl.set x.assocs i a })
    else s.updCtx c (fun x => { x with assocs := Tbl.erase x.assocs i })
  s.ctxAck m.port m.half m.sender m.tag c (b2n bad)

/-- SA_INSTALL (R64). -/
def execSaInstall (m : Sys2Proof.Msg) (s : State) : Result :=
  .next (if Msg.fld m 1 1 = 1 then s else s.receive 0x0E m (fun s => s.saSet m))

/-- SA_REMOVE (R64). -/
def execSaRemove (m : Sys2Proof.Msg) (s : State) : Result :=
  .next (if Msg.fld m 1 1 = 1 then s.receive 0x0E m (fun s => s.saSet m) else s)

end Sys2Proof.Machine
end

