-- ==== Sys2Proof/Machine/Admit.lean ====
section
/-! DEFINITION. Where relays and task heats go: what a core holds (R77, R239), the units of a launch (R74, R75), and the
building of a unit (R79).
Readings logged: DEDUCED 55; DESIGN CHOICE 85. -/

namespace Sys2Proof.Machine

/-- What a relay or a task heat asks of a core: its heats' budgets in order, its region, and whether it has a matrix leg. -/
structure Need where
  budgets : List Nat
  scratch : Nat
  matrix : Bool
deriving DecidableEq, Repr

/-- What stands on a core: heats and budget of each partition, the region bytes taken, and whether a matrix team does. -/
structure Occ where
  heats : List Nat
  budget : List Nat
  scratch : Nat
  matrix : Bool
deriving DecidableEq, Repr

def Occ.empty : Occ := { heats := List.replicate 32 0, budget := List.replicate 32 0, scratch := 0, matrix := false }

/-- What a core holds, without the units in `drop`. -/
def State.occ (s : State) (core : Nat) (drop : List Nat) : Occ :=
  let hs := s.heats.filter (fun h => h.core = core ∧ h.saved = false ∧ h.retired = false ∧ !(drop.contains h.unit))
  let us := s.units.filter (fun u => u.core = core ∧ u.saved = false ∧ u.retired = false ∧ !(drop.contains u.id))
  let at_ (p : Nat) : List Heat := hs.filter (fun h => h.part = p)
  { heats := (upto 32).map (fun p => (at_ p).length), budget := (upto 32).map (fun p => ((at_ p).map (·.budget)).sum)
    scratch := (us.map (·.size)).sum
    matrix := us.any (fun u => s.heats.any (fun h => h.unit == u.id && h.role == 1)) }

/-- Heats placed one after another on the partition whose resident budget is lowest (R77): their partitions, and what the
core then holds. -/
def packHeats : List Nat → List Nat → List Nat → List Nat × List Nat × List Nat
  | [], hs, bs => ([], hs, bs)
  | b :: rest, hs, bs =>
    let p := (leastBy (fun i => (bs[i]?).getD 0) (upto 32)).getD 0
    let (ps, hs, bs) := packHeats rest (modifyAt hs p (· + 1)) (modifyAt bs p (· + b))
    (p :: ps, hs, bs)

/-- The partitions of a relay's heats where it fits on what a core holds (R77, R239). -/
def Occ.fit (o : Occ) (n : Need) : Option (List Nat) :=
  let (ps, hs, bs) := packHeats n.budgets o.heats o.budget
  if hs.all (· ≤ 12) && bs.all (· ≤ 512) && o.scratch + n.scratch ≤ 786432 && !(n.matrix && o.matrix) then some ps else none

/-- Whether a core can hold a kind of relay at all (R78, R239, R445). -/
def State.whole (s : State) (core : Nat) (matrix : Bool) : Bool :=
  s.coreEnabled core && !(matrix && (s.arrayFenced core 0 || s.arrayFenced core 1))

/-- Whether a core is being cleared for a class at or above one, so that nothing of that class goes there (R414). -/
def State.clearing (s : State) (core cls : Nat) : Bool :=
  s.units.any (fun u => u.core == core && u.susp != .no && !u.saved && !u.retired && u.preempt ≤ cls)

/-- A core's fit, the units in `drop` apart. -/
def State.fits (s : State) (drop : List Nat) (cls core : Nat) (n : Need) : Option (List Nat) :=
  if s.whole core n.matrix && (!drop.isEmpty || !(s.clearing core cls)) && !(s.units.any (fun u => u.core == core && u.evicted && !u.retired && !u.saved))
  then (s.occ core drop).fit n else none

/-- Budget registers taken on a core. -/
def State.used (s : State) (drop : List Nat) (core : Nat) : Nat := (s.occ core drop).budget.sum

def coresOf (die : Nat) : List Nat := (upto 64).map (64 * die + ·)

/-- The core of a die that takes a relay: the most free budget registers, ties to the lowest COREID (R77). -/
def State.bestCore (s : State) (drop : List Nat) (cls die : Nat) (n : Need) : Option (Nat × List Nat) :=
  let can := (coresOf die).filterMap (fun c => (s.fits drop cls c n).map (fun ps => (c, ps)))
  leastBy (fun x => s.used drop x.1) can

/-- The die with the most free budget registers over its enabled cores (R75): free registers are compared, so that a die
with fewer cores counts as it stands. -/
def State.leastLoaded (s : State) (drop : List Nat) : Option Nat :=
  let free (d : Nat) : Nat := (((coresOf d).filter s.coreEnabled).map (fun c => 16384 - s.used drop c)).sum
  leastBy (fun d => 2 ^ 30 - free d) s.aliveDies

/-! The shape of a launch (R73 to R75). -/

/-- Counts and domains from the CORE entry upward. -/
def LaunchRec.up (r : LaunchRec) : List (Nat × Nat) := (r.levels.dropWhile (fun l => l.domain < 2)).map (fun l => (l.count, l.domain))

def LaunchRec.relays (r : LaunchRec) : Nat := (r.up.map (·.1)).foldl (· * ·) 1

/-- The relays of one placement unit: those of a QUAD unit, or one (R75). -/
def LaunchRec.unitSize (r : LaunchRec) : Nat :=
  if r.levels.any (fun l => l.domain == 3) then ((r.up.head?).map (·.1)).getD 1 else 1

def LaunchRec.quad (r : LaunchRec) : Bool := r.levels.any (fun l => l.domain == 3)

def LaunchRec.need (r : LaunchRec) : Need :=
  { budgets := r.legs.flatMap (fun g => List.replicate g.heats g.budget), scratch := r.scratch, matrix := r.legs.any (fun g => g.role == 1) }

/-- Mixed-radix digits, the fastest first. -/
def digits : List Nat → Nat → List Nat
  | [], _ => []
  | c :: cs, n => n % (max c 1) :: digits cs (n / max c 1)

/-- LVIX1 to LVIX7 of a heat (R99, R74). Of several HEAT entries the first varies fastest with the heat's number, and a
second LANE entry reads 0 (log entry 85). -/
def LaunchRec.lvix (r : LaunchRec) (relay heat : Nat) : List Nat :=
  let heatLv := r.levels.filter (fun l => l.domain == 1)
  let hd := digits (heatLv.map (·.count)) heat
  let ud := digits (r.up.map (·.1)) relay
  let low := (r.levels.drop 1).filter (fun l => l.domain < 2)
  let lows := ((upto low.length).zip low).map (fun e =>
    if e.2.domain = 1 then (hd[e.1 - (low.take e.1).countP (fun l => l.domain == 0)]?).getD 0 else 0)
  lows ++ ud

/-- The surviving dies in ascending order from one of them. -/
def State.diesFrom (s : State) (d : Nat) : List Nat := ((upto 4).map (fun i => (d + i) % 4)).filter (fun x => !s.fencedDies.contains x)

/-- The die that owns a queue (R67): the next survivor in order, and a queue that has moved stays there until it empties
(R453). -/
def State.queueDie (s : State) (ctx q : Nat) : Nat :=
  match (Tbl.get {} (s.ctx ctx).queues q).moved with
  | some d => if s.fencedDies.contains d then ((s.diesFrom d).head?).getD d else d
  | none => ((s.diesFrom (q % 4)).head?).getD (q % 4)

/-- The die of a relay by R75. -/
def State.dieFor (s : State) (drop : List Nat) (k : Kernel) (relay : Nat) : Option Nat :=
  let own := s.queueDie k.ctx k.queue
  let ds := (digits (k.lrec.up.map (·.1)) relay).zip k.lrec.up
  match ds.find? (fun d => d.2.2 == 4) with
  | some d =>
    let alive := s.diesFrom own
    alive[d.1 % max alive.length 1]?
  | none => if k.lrec.up.any (fun u => u.2 == 5) then s.leastLoaded drop else some own

/-- The logical quad of a die that takes a QUAD unit: the most free budget registers over its cores at the positions
taken, ties to the lowest number (R75). -/
def State.bestQuad (s : State) (drop : List Nat) (cls die n : Nat) (need : Need) : Option (List (Nat × List Nat)) :=
  let can := (upto 16).filterMap (fun q =>
    let cs := (upto n).map (fun i => 64 * die + 4 * q + i)
    (cs.mapM (fun c => (s.fits drop cls c need).map (fun ps => (c, ps)))).map (fun xs => (xs, (cs.map (s.used drop)).sum)))
  (leastBy (fun x => x.2) can).map (·.1)

/-- The cores and partitions of a placement unit whose first relay is given. -/
def State.spot (s : State) (drop : List Nat) (k : Kernel) (relay : Nat) : Option (List (Nat × List Nat)) :=
  match s.dieFor drop k relay with
  | none => none
  | some d =>
    if k.lrec.quad then s.bestQuad drop k.cls d k.lrec.unitSize k.lrec.need
    else (s.bestCore drop k.cls d k.lrec.need).map (fun x => [x])

/-- Whether some surviving core could hold a unit of a launch (R78). -/
def State.placeable (s : State) (k : Kernel) : Bool :=
  let ok (c : Nat) : Bool := s.whole c k.lrec.need.matrix
  if k.lrec.quad then (upto 64).any (fun q => (upto k.lrec.unitSize).all (fun i => ok (4 * q + i)))
  else (upto 256).any ok

/-! Building a unit (R74, R77, R79). -/

/-- A heat at its start (R79). -/
def startHeat (s : State) (k : Kernel) (unit core relay j i part : Nat) (g : Leg) : Heat :=
  { key := { ctx := k.ctx, serial := k.serial, team := relay * k.lrec.legs.length + j, heat := i }
    core := core, part := part, unit := unit, leg := j, role := g.role, budget := g.budget, cls := k.cls, heatn := g.heats
    lvix := k.lrec.lvix relay i, lanes := List.replicate 32 { pc := g.entry }
    k := Tbl.put 0 [] 0 (BitVec.ofNat 64 k.lrec.args), since := s.now, service := k.queue == 63, debug := k.lrec.debug
    journal := k.lrec.journalled, usesTasks := k.lrec.usesTasks, colours := k.lrec.colourBase != 0 }

/-- Entries of a list by the lengths of its parts. -/
def splitBy {α : Type} : List Nat → List α → List (List α)
  | [], _ => []
  | n :: ns, l => l.take n :: splitBy ns (l.drop n)

/-- A relay placed on a core, not yet started (R74, R77, R79). -/
def State.build (s : State) (k : Kernel) (relay core : Nat) (parts : List Nat) : State :=
  let id := s.nid
  let legs := (upto k.lrec.legs.length).zip k.lrec.legs
  let teams : List Team := legs.map (fun g => { team := relay * k.lrec.legs.length + g.1, leg := g.1, heats := g.2.heats })
  let u : RUnit := { id := id, key := { ctx := k.ctx, serial := k.serial, relay := relay }, core := core, cls := k.cls, size := k.lrec.scratch
                     teams := teams, placed := s.now, quad := if k.lrec.quad then some (relay / k.lrec.unitSize, core % 4) else none }
  let hs := (legs.zip (splitBy (k.lrec.legs.map (·.heats)) parts)).flatMap (fun e =>
    ((upto e.2.length).zip e.2).map (fun x => startHeat s k id core relay e.1.1 x.1 x.2 e.1.2))
  { s with nid := id + 1, units := s.units ++ [u], heats := s.heats ++ hs }

/-- Whether a relay of a kernel has been placed. -/
def State.relayPlaced (s : State) (k : Kernel) (relay : Nat) : Bool := (s.unitOf { ctx := k.ctx, serial := k.serial, relay := relay }).isSome

/-- A placement unit placed where it fits (R75). -/
def State.placeUnit (s : State) (k : Kernel) (relay : Nat) : Option State :=
  (s.spot [] k relay).map (fun xs =>
    let s := ((upto xs.length).zip xs).foldl (fun s e => s.build k (relay + e.1) e.2.1 e.2.2) s
    s.updKernel k.ctx k.serial (fun k => { k with placed := k.placed + xs.length }))

/-- The units of a kernel that wait for room, placed where they fit, in relay order (R75). -/
def State.placeMore (s : State) (ctx serial : Nat) : State :=
  match s.kernel? ctx serial with
  | none => s
  | some k =>
    if k.st = .running ∧ k.killed = false ∧ k.placed < k.lrec.relays then
      (upto (k.lrec.relays / k.lrec.unitSize)).foldl (fun s i =>
        let r := i * k.lrec.unitSize
        if s.relayPlaced k r then s else (s.placeUnit k r).getD s) s
    else s

end Sys2Proof.Machine
end

