-- ==== Sys2Proof/Machine/Launch.lean ====
section
/-! DEFINITION. The judging of a launch (R27 to R35, R67, R73, R78), and how kernels start, retire and end (R69 to R71,
R80, R84, R87, R115, R127).
Readings logged: DEDUCED 50, 51, 53, 55; DESIGN CHOICE 14, 77, 80, 86. -/

namespace Sys2Proof.Machine

/-! Judging a launch record. -/

/-- An unsigned field of a launch record. -/
def lr (b : List Byte) (off n : Nat) : Nat := ofBytes ((b.drop off).take n)

/-- The least scope of a domain (R29). -/
def leastScope : Nat → Nat
  | 0 | 1 => 0
  | 2 => 1
  | 3 => 2
  | _ => 3

/-- The first field of a group that is not zero, by its offset. -/
def firstSet (b : List Byte) (o : Nat) (fields : List (Nat × Nat)) : List Nat :=
  ((fields.find? (fun f => lr b (o + f.1) f.2 != 0)).map (fun f => o + f.1)).toList

/-- The offending fields of the level table (R28, R29). -/
def badLevels (b : List Byte) (n : Nat) : List Nat :=
  (upto 8).flatMap (fun i =>
    let o := 32 + 8 * i
    if n ≤ i then firstSet b o [(0, 4), (4, 1), (5, 1), (6, 2)]
    else
      let dom := lr b (o + 4) 1
      let before := ((upto i).map (fun j => lr b (36 + 8 * j) 1)).foldl max 0
      (if lr b o 4 = 0 ∨ (i = 0 ∧ lr b o 4 ≠ 32) then [o] else []) ++
      (if 5 < dom ∨ (i = 0 ∧ dom ≠ 0) ∨ dom < before then [o + 4] else []) ++
      (if 4 < lr b (o + 5) 1 ∨ (dom ≤ 5 ∧ lr b (o + 5) 1 < leastScope dom) then [o + 5] else []) ++
      (if lr b (o + 6) 2 ≠ 0 then [o + 6] else []))

/-- The offending fields of the leg table (R30, R31). -/
def badLegs (b : List Byte) (n : Nat) : List Nat :=
  (upto 3).flatMap (fun i =>
    let o := 96 + 32 * i
    if n ≤ i then firstSet b o [(0, 8), (8, 2), (10, 2), (12, 1), (13, 19)]
    else
      let role := lr b (o + 12) 1
      (if lr b o 8 % 8 ≠ 0 then [o] else []) ++
      (if lr b (o + 8) 2 % 8 ≠ 0 ∨ lr b (o + 8) 2 < 8 ∨ 320 < lr b (o + 8) 2 then [o + 8] else []) ++
      (if lr b (o + 10) 2 = 0 ∨ 384 < lr b (o + 10) 2 then [o + 10] else []) ++
      (if 2 < role ∨ (upto i).any (fun j => lr b (108 + 32 * j) 1 == role) then [o + 12] else []) ++
      (if lr b (o + 13) 19 ≠ 0 then [o + 13] else []))

/-- The offending fields of a launch record and of its kernel header word, where that was read, by the offsets of R33. -/
def badLaunch (b : List Byte) (otherBase : Bool) (hdr : Option Nat) : List Nat :=
  let flags := lr b 29 1
  let legs := lr b 31 1
  (if lr b 0 8 % 8 ≠ 0 then [0] else []) ++
  (if lr b 8 8 % 64 ≠ 0 then [8] else []) ++
  (if otherBase then [16] else []) ++
  (if lr b 24 4 % 256 ≠ 0 ∨ 786432 < lr b 24 4 then [24] else []) ++
  (if 7 < lr b 28 1 ∨ (bit (lr b 28 1) 2 ∧ lr b 28 1 % 4 ≠ 0) then [28] else []) ++
  (if 7 < flags then [29] else []) ++
  (if lr b 30 1 = 0 ∨ 8 < lr b 30 1 then [30] else []) ++
  (if legs = 0 ∨ 3 < legs then [31] else []) ++
  badLevels b (lr b 30 1) ++ badLegs b legs ++
  (if lr b 200 56 ≠ 0 then [200] else []) ++
  (match hdr with
    | none => []
    | some h =>
      (if fld h 0 16 ≠ 0x5354 then [256] else []) ++ (if fld h 16 8 ≠ 1 then [272] else []) ++
      (if fld h 24 2 ≠ legs then [31] else []) ++ (if bit h 26 ∧ !(bit flags 2) then [29] else []) ++
      (if bit h 27 ∧ lr b 16 8 = 0 then [16] else []) ++ (if fld h 28 4 ≠ 0 then [284] else []) ++
      (if fld h 32 32 % 8 ≠ 0 then [288] else []) ++ (if bit flags 1 ∧ fld h 32 32 = 0 then [29] else []))

/-- A launch record as the launch controller holds it (R27). -/
def parseLaunch (b : List Byte) : LaunchRec :=
  { image := lr b 0 8, completion := lr b 8 8, colourBase := lr b 16 8, scratch := lr b 24 4, cls := lr b 28 1 % 4
    qclass := bit (lr b 28 1) 2, journalled := bit (lr b 29 1) 0, debug := bit (lr b 29 1) 1, usesTasks := bit (lr b 29 1) 2
    levels := (upto (lr b 30 1)).map (fun i => { count := lr b (32 + 8 * i) 4, domain := lr b (36 + 8 * i) 1, scope := lr b (37 + 8 * i) 1 })
    legs := (upto (lr b 31 1)).map (fun i => { entry := lr b (96 + 32 * i) 8, budget := lr b (104 + 32 * i) 2
                                               heats := lr b (106 + 32 * i) 2, role := lr b (108 + 32 * i) 1 })
    args := lr b 192 8 }

/-- The rules of R73. -/
def LaunchRec.geometry (r : LaunchRec) : Bool :=
  let count (d : Nat) : Nat := (r.levels.filter (fun l => l.domain = d)).length
  let heats := (r.levels.filter (fun l => l.domain = 1)).map (·.count)
  count 2 == 1 && count 3 ≤ 1 && count 4 ≤ 1 && count 5 ≤ 1 && (!r.quad || r.unitSize ≤ 4) &&
  (heats.isEmpty || (r.legs.length == 1 && heats.foldl (· * ·) 1 == ((r.legs.head?).map (·.heats)).getD 0)) &&
  r.relays ≤ 2 ^ 23 / max r.legs.length 1

/-- An address that an agent of a die reads or writes in a context: translated, or the cause. An address that is not
canonical counts as one that does not translate (log entry 80). -/
def State.agentAt (s : State) (ctx die va : Nat) (use : Use) : Except Cause Nat × State :=
  if canonical va then s.translate ctx die none va use else (.error .perm, s)

/-- The bytes of a record that lies in one page: none, with the offset of the first that cannot be read (R34). -/
def State.readRecord (s : State) (ctx die va n : Nat) : Except Nat (List Byte) × State :=
  match s.agentAt ctx die va .read with
  | (.error _, s) => (.error 0, s)
  | (.ok pa, s) => match (upto ((n + 63) / 64)).find? (fun i => s.poisoned (pa + 64 * i) 1) with
    | some i => (.error (64 * i), s)
    | none => (.ok (s.viewRead die pa n), s)

/-! Serials (R67). -/

/-- Where index entry `slot` of the journal segment of a die lies (R436). -/
def journalIndex (c : Ctx) (die slot : Nat) : Nat := (c.trail + 204800 + 2 ^ 30 + die * 2 ^ 32 + 16 * slot) % 2 ^ 64

/-- Whether a journal entry has been freed (R438). -/
def State.entryFree (s : State) (ctx chunk slot : Nat) : Bool :=
  let die := homeOf (65536 * chunk)
  match s.peek ctx die (journalIndex (s.ctx ctx) die slot) .read with
  | .ok pa => s.viewNat die (pa + 10) 1 == 0
  | .error _ => true

/-- Whether a serial of a context is in use (R67). -/
def State.serialUsed (s : State) (ctx n : Nat) : Bool :=
  !(s.kernelGone ctx n) || (s.postings ++ s.records).any (fun p => p.ctx == ctx && p.serial == some n) ||
  (s.ctx ctx).saved.any (fun e => e.1 == n && !(s.entryFree ctx e.2.1 e.2.2))

/-- The next serial that is not in use, looking at most 65,536 numbers ahead. -/
def State.findSerial (s : State) (ctx : Nat) : Nat → Nat → Option Nat
  | 0, _ => none
  | n + 1, i => if s.serialUsed ctx i then s.findSerial ctx n ((i + 1) % 2 ^ 16) else some i

def State.queueLen (s : State) (ctx q : Nat) : Nat := (s.kernels.filter (fun k => k.ctx = ctx ∧ k.queue = q ∧ k.st = .queued)).length

/-! LAUNCH (R67). -/

/-- A launch accepted at the tail of its queue (R67, R68, R35). -/
def State.acceptLaunch (s : State) (m : Sys2Proof.Msg) (ctx n : Nat) (r : LaunchRec) : State :=
  let q := Tbl.get {} (s.ctx ctx).queues m.queue
  let k : Kernel := { ctx := ctx, serial := n, queue := m.queue, lrec := r, cls := if r.qclass then q.cls else r.cls, port := m.port
                      endpoint := m.endpoint, sender := m.sender, tag := m.tag, travel := m.travel, recDie := m.port / 3, half := m.half }
  let s := { s with kernels := s.kernels.filter (fun (x : Kernel) => !(x.ctx = ctx ∧ x.serial = n)) ++ [k]
                    units := s.units.filter (fun (u : RUnit) => !(u.key.ctx = ctx ∧ u.key.serial = n)) }
  let s := s.updCtx ctx (fun c => { c with nextSerial := (n + 1) % 2 ^ 16, colourBase := if r.colourBase = 0 then c.colourBase else r.colourBase
                                           saved := c.saved.filter (fun e => e.1 ≠ n) })
  s.send m.port m.half m.sender m.endpoint 0x02 m.tag (toBytes 2 n)

/-- The judging of a LAUNCH in the order of R67. -/
def State.judgeLaunch (s : State) (m : Sys2Proof.Msg) : State :=
  let ctx := m.endpoint - 1
  let c := s.ctx ctx
  let die := s.queueDie ctx m.queue
  if !c.opened || c.closing then s.reject m 3 0
  else match s.readRecord ctx die (Msg.fld m 0 8) 256 with
    | (.error off, s) => s.reject m 7 off
    | (.ok b, s) =>
      let image := lr b 0 8
      let (hdr, s) : Except Nat (Option Nat) × State := if image % 8 ≠ 0 then (.ok none, s) else
        match s.readRecord ctx die image 8 with
        | (.error _, s) => (.error 256, s)
        | (.ok w, s) => (.ok (some (ofBytes w)), s)
      match hdr with
      | .error off => s.reject m 7 off
      | .ok hdr =>
        let base := lr b 16 8
        let other := base != 0 && s.kernels.any (fun k => k.ctx == ctx && !(s.kernelGone ctx k.serial) && k.lrec.colourBase != 0 && k.lrec.colourBase != base)
        match leastBy id (badLaunch b other hdr) with
        | some off => s.reject m 1 off
        | none =>
          let r := parseLaunch b
          match s.agentAt ctx die r.completion .write with
          | (.error _, s) => s.reject m 7 8
          | (.ok _, s) =>
            if !r.geometry || (Occ.empty.fit r.need).isNone then s.reject m 6 0
            else if 32 ≤ s.queueLen ctx m.queue then s.reject m 2 0
            else match s.findSerial ctx 65536 c.nextSerial with
              | none => s.reject m 8 0
              | some n => s.acceptLaunch m ctx n r

/-- LAUNCH (R67). -/
def execLaunch (m : Sys2Proof.Msg) (s : State) : Result := .next (s.receive 0x01 m (fun s => s.judgeLaunch m))

/-! The end of a kernel (R87). -/

/-- The journal entries of a kernel freed (R437, R438). -/
def State.freeJournal (s : State) (ctx serial : Nat) : State :=
  let mine := (s.ctx ctx).saved.filter (fun e => e.1 = serial)
  let s := mine.foldl (fun s e =>
    let die := homeOf (65536 * e.2.1)
    match s.peek ctx die (journalIndex (s.ctx ctx) die e.2.2) .write with
    | .ok pa => s.ownWrite die (pa + 10) [0]
    | .error _ => s) s
  s.updCtx ctx (fun c => { c with saved := c.saved.filter (fun e => e.1 ≠ serial), saves := c.saves.filter (fun e => e.1 ≠ serial) })

/-- A queue that a die's loss has moved goes back once it is empty (R453). -/
def State.tidyQueue (s : State) (ctx q : Nat) : State :=
  if ((Tbl.get {} (s.ctx ctx).queues q).moved).isSome && s.queueLen ctx q == 0 then
    s.updCtx ctx (fun c => { c with queues := Tbl.set c.queues q { (Tbl.get {} c.queues q) with moved := none } })
  else s

/-- A kernel ends with a status: its units that have retired are forgotten, with its cards whose groups have settled (R377),
its journal is freed unless it is debug-capable, and COMPLETE goes out (R87, R438). -/
def State.endKernel (s : State) (ctx serial status : Nat) : State :=
  match s.kernel? ctx serial with
  | none => s
  | some k =>
    let s := s.updKernel ctx serial (fun k => { k with st := .ended status, endMark := s.nid })
    let s := { s with units := s.units.filter (fun u => !(u.key.ctx = ctx ∧ u.key.serial = serial ∧ u.retired))
                      cards := s.cards.filter (fun c => !(c.ctx = ctx ∧ c.serial = serial ∧ c.settled)) }
    let s := if k.lrec.debug then s.updCtx ctx (fun c => { c with saves := c.saves.filter (fun e => e.1 ≠ serial) }) else s.freeJournal ctx serial
    ((s.send k.port k.half k.sender k.endpoint 0x04 k.tag (toBytes 2 serial ++ toBytes 1 status ++ toBytes 1 0 ++ toBytes 2 k.nflags)).sweep).tidyQueue ctx k.queue

/-- The queued launches of a queue, or of a whole context, removed with COMPLETE status 1 (R63, R68). -/
def State.flushQueue (s : State) (ctx : Nat) (q : Option Nat) : State :=
  let mine := s.kernels.filter (fun k => k.ctx == ctx && k.st == .queued && (match q with | some q => k.queue == q | none => true))
  mine.foldl (fun s k => s.endKernel ctx k.serial 1) s

/-- Whether nothing of a kernel is left to run: its relays have all been placed, or it is killed; all have retired; none
of its task heats or started tasks remains (R87, R360). -/
def State.kernelIdle (s : State) (k : Kernel) : Bool :=
  (k.killed || k.placed == k.lrec.relays) &&
  !(s.units.any (fun u => u.key.ctx == k.ctx && u.key.serial == k.serial && !u.retired)) &&
  !(s.cards.any (fun c => c.ctx == k.ctx && c.serial == k.serial && c.tasks.any (fun t => t.2.st != .waiting && t.2.st != .done && t.2.st != .retired)))

/-- Whether every write of a kernel is performed at system scope: none of its requests is outstanding, no release of its
context is owed, and the write queues are empty (R87, R264). -/
def State.kernelWritten (s : State) (k : Kernel) : Bool :=
  !(s.reqs.any (fun r => r.ctx == k.ctx && r.key.serial == k.serial)) && !(s.rels.any (fun r => r.ctx == k.ctx)) && s.rwq.isEmpty

/-- Whether a kernel of the same command endpoint has retired before one and not ended: its COMPLETE goes first (R87). -/
def State.completesFirst (s : State) (k : Kernel) : Bool :=
  s.kernels.any (fun q => q.ctx == k.ctx && q.serial != k.serial && q.st == .running && s.kernelIdle q && q.lastRetire < k.lastRetire)

/-- COMPLETION_RELEASE (R87, R406). -/
def State.complete (s : State) (ctx serial : Nat) : State :=
  match s.kernel? ctx serial with
  | none => s
  | some k =>
    if k.st ≠ .running ∨ s.kernelIdle k = false ∨ s.kernelWritten k = false ∨ s.completesFirst k then s
    else if k.killed then s.endKernel ctx serial (if k.reset then 2 else 1)
    else match s.peek ctx s.agentDie k.lrec.completion .write with
      | .error _ => s.endKernel ctx serial 3
      | .ok pa =>
        if s.poisoned pa 64 then s.endKernel ctx serial 3
        else
          let s := s.deposit ctx (arbOrigin (homeOf pa)) .system (s.fullSig pa) (some (pa, (s.cohNat pa 8 + 1) % 2 ^ 64)) k.nflags
          s.endKernel ctx serial 0

/-- COMPLETION_RELEASE. -/
def execCompletionRelease (ctx serial : Nat) (s : State) : Result := .next (s.complete ctx serial)

/-! HEAT_RETIRE (R127). -/

/-- Whether a unit's heats have all retired and its accesses, copies and array operations are complete. -/
def State.unitDone (s : State) (u : RUnit) : Bool :=
  let mine (k : HeatKey) : Bool := s.heats.any (fun h => h.unit == u.id && h.key == k)
  s.heats.all (fun h => h.unit ≠ u.id || (h.retired && h.cpyw.isEmpty)) && u.handoffs.isEmpty && u.teams.all (fun t => t.partials.isEmpty) &&
  !(s.reqs.any (fun r => mine r.key)) && !(s.ops.any (fun o => mine o.key)) && !(s.arrays.any (fun a => a.2.q.any (fun o => o.unit == u.id)))

/-- A unit retires: its region and its heats are gone (R127). A relay is remembered as retired until its kernel ends. -/
def State.retireUnit (s : State) (id : Nat) : State :=
  match s.unit? id with
  | none => s
  | some u =>
    if !(s.unitDone u) then s
    else
      let s := { s with heats := s.heats.filter (fun h => h.unit ≠ id) }
      let live : Bool := ((s.kernel? u.key.ctx u.key.serial).map (fun k => k.st == .running)).getD false
      let s := if u.isTask || !live then { s with units := s.units.filter (fun v => v.id ≠ id) }
        else s.updUnit id (fun u => { u with retired := true, scr := [], teams := [], hid := [], susp := .no })
      let s := s.updKernel u.key.ctx u.key.serial (fun k => { k with done := if u.isTask then k.done else k.done + 1, lastRetire := s.nid })
      { s with nid := s.nid + 1 }

/-- HEAT_RETIRE (R127, R160, R242): the heat retires, and its unit with its last heat. Flags that its matrix operations
raise later reach no kernel (log entry 86). -/
def State.retireHeat (s : State) (key : HeatKey) : State :=
  match s.heat? key with
  | none => s
  | some h =>
    if h.saved || !h.allExited || !(h.fcnt.all (fun e => e.2 == 0)) then s
    else
      let s := s.settleMarks h.unit key.team key.ctx key.serial
      let s := if h.retired then s else
        (s.updHeat key (fun h => { h with retired := true, active := false, undo := [] })).updKernel key.ctx key.serial
          (fun k => { k with nflags := k.nflags ||| h.nflags })
      (s.sweep).retireUnit h.unit

/-- HEAT_RETIRE. -/
def execHeatRetire (key : HeatKey) (s : State) : Result := .next (s.retireHeat key)

/-! PACED_ISSUE and PROMOTE (R83 to R85, R115). -/

/-- PACED_ISSUE (R115): the heat's next issue selects the group of the candidate whose last issue is oldest. -/
def execPacedIssue (key : HeatKey) (s : State) : Result :=
  .next (s.updHeat key (fun h => if 1024 ≤ h.starved then { h with paced := true } else h))

/-- Whether selection would change something: a candidate, a yielded lane to clear, or a failed join (R111, R114, R119). -/
def State.movable (s : State) (h : Heat) : Bool :=
  let h := (s.gather h).wake
  h.lanes.any (fun x => h.candidate x || x.st = .yielded) ||
  (h.lanes.any (fun x => x.st = .held) && h.lanes.all (fun x => x.exited || x.st = .held))

/-- The header and the word that a lane would issue next, as its context maps them. -/
def State.wordAhead (s : State) (h : Heat) (x : Lane) : Option (Nat × Nat) :=
  let die := dieOf h.core
  match x.blk with
  | some b => (s.peekWord h.key.ctx die x.pc).map (fun w => (b.2, w))
  | none => (s.peekWord h.key.ctx die x.pc).bind (fun hdr => (s.peekWord h.key.ctx die (x.pc + 8)).map (fun w => (hdr, w)))

/-- Whether a word waits for a flag: WAITF on one that is not clear, or a long-latency word whose flag's count is at its
limit (R113, R122, R133). -/
def Heat.flagStalls (h : Heat) (hdr w : Nat) : Bool :=
  match decode w with
  | .error _ => false
  | .ok (.waitf _ mask) => !(h.flagsClear mask)
  | .ok i => Instr.long i && Tbl.get 0 h.fcnt (flagOf hdr (Dec.com w)) == 63

/-- Whether a heat's selected group is stalled on a flag, or it has no candidate lane (R83, R113). -/
def State.mustWait (s : State) (h : Heat) : Bool :=
  !(s.movable h) || (let g := (s.gather h).wake
    match g.group [] with
    | [] => false
    | l :: _ => match s.wordAhead g (g.lane l) with
      | some (hdr, w) => ((g.lane l).blk.isNone && !(g.flagsClear (fld hdr 40 12))) || g.flagStalls hdr w
      | none => false)

/-- The heats of a partition. -/
def Heat.on (h : Heat) (core part : Nat) : Bool := h.core == core && h.part == part && !h.saved && !h.retired

/-- Whether a pending heat is ready: the condition that moved it has ended (R83). -/
def State.readyPending (s : State) (h : Heat) : Bool := !h.active && s.heatReady h && !(s.mustWait h)

/-- The two sets of a partition brought up to date: an active heat that has to wait moves to the pending set, and a pending
heat keeps the clock at which it became ready (R83, R84). -/
def State.settleSets (s : State) (core part : Nat) : State :=
  { s with heats := s.heats.map (fun h =>
      if !(h.on core part) then h
      else if h.active then (if s.mustWait h then { h with active := false, readyAt := none } else h)
      else if s.readyPending h then { h with readyAt := some (h.readyAt.getD s.now) } else { h with readyAt := none }) }

/-- The pending heat that a partition promotes next: ready, of the highest class, ready longest, then resident longest
(R84). -/
def State.nextPending (s : State) (core part : Nat) : Option Heat :=
  leastBy (fun h => h.cls * 2 ^ 160 + h.readyAt.getD s.now * 2 ^ 80 + h.since) (s.heats.filter (fun h => h.on core part && s.readyPending h))

/-- PROMOTE (R83, R84): the sets of the heat's partition are brought up to date, and the heat takes a free place of the
active set if it is the one that is promoted next. -/
def State.promote (s : State) (key : HeatKey) : State :=
  match s.heat? key with
  | none => s
  | some h =>
    let s := s.settleSets h.core h.part
    if 8 ≤ (s.heats.filter (fun x => x.active && x.on h.core h.part)).length then s
    else if (s.nextPending h.core h.part).map (·.key) = some key then
      s.updHeat key (fun h => { h with active := true, lastIssue := none, readyAt := none })
    else s

/-- PROMOTE. -/
def execPromote (key : HeatKey) (s : State) : Result := .next (s.promote key)

/-! LAUNCH_START (R69 to R72, R78). -/

/-- The first queued launch of a queue. -/
def State.head? (s : State) (ctx q : Nat) : Option Kernel := s.kernels.find? (fun k => k.ctx = ctx ∧ k.queue = q ∧ k.st = .queued)

/-- Whether the previous launch of a queue has ended, and what it wrote before its end is performed at system scope or
discarded (R69, R70). -/
def State.prevEnded (s : State) (ctx : Nat) (q : LQueue) : Bool :=
  match q.last with
  | none => true
  | some n =>
    let mark := ((s.kernel? ctx n).map (·.endMark)).getD 0
    s.kernelGone ctx n && !(s.reqs.any (fun r => r.ctx == ctx && r.key.serial == n && r.write)) &&
    !(s.rels.any (fun r => r.ctx == ctx && r.id < mark)) && (upto 4).all (fun d => s.drained d mark)

/-- What the relays of a head of a die acquire at their start (R70). -/
def State.prevAcq (s : State) (ctx die : Nat) (q : LQueue) : PrevAcq :=
  if q.concurrent then .none
  else match q.last with
    | none => .none
    | some n => match s.kernel? ctx n with
      | none => .flush
      | some k =>
        if k.st ≠ .ended 0 then .flush
        else match s.peek ctx die k.lrec.completion .read with
          | .ok pa => .object pa
          | .error _ => .flush

/-- The heads of a die's queues that may start but for room (R69), with context and queue. -/
def State.heads (s : State) (die : Nat) : List (Kernel × Nat) :=
  s.ctxs.flatMap (fun c => if !c.2.opened || c.2.closing then [] else (upto 64).filterMap (fun q =>
    if s.queueDie c.1 q ≠ die then none
    else
      let lq := Tbl.get {} c.2.queues q
      if lq.paused then none
      else match s.head? c.1 q with
        | none => none
        | some k => if lq.concurrent || s.prevEnded c.1 lq then some (k, 64 * c.1 + q) else none))

/-- Whether saved units of a class, or a higher one, wait on a die, so that no launch of the class starts there (R420). -/
def State.savedAhead (s : State) (die cls : Nat) : Bool := s.units.any (fun u => u.saved && dieOf u.core == die && u.cls ≤ cls)

/-- The heads of a die in the order in which its launch controller looks at them: by class, and within a class in round
robin over context and queue (R69, R72). -/
def State.headOrder (s : State) (die : Nat) : List Kernel :=
  let hs := (s.heads die).filter (fun h => !(s.savedAhead die h.1.cls))
  (upto 4).flatMap (fun cls =>
    let mine := hs.filter (fun h => h.1.cls = cls)
    let last := Tbl.find? s.lastStart (4 * die + cls)
    let after (h : Kernel × Nat) : Bool := match last with | none => true | some x => x < h.2
    ((mine.filter after) ++ (mine.filter (fun h => !(after h)))).map (·.1))

/-- The suspension of a unit begins: its non-irrevocable tasks leave, and the rest of its chunks with them (R414, R416). -/
def State.beginSuspend (s : State) (cls : Nat) (id : Nat) : State :=
  match s.unit? id with
  | none => s
  | some u =>
    let mine (r : Run) : Bool := s.heats.any (fun h => h.unit == id && r.ofHeat h)
    let s := (s.runs.filter mine).foldl (fun s r =>
      let rest := r.rest
      let s := s.updRun r.id (fun r => { r with rest := [] })
      let s := if r.irrevocable then s else s.abort r.id (.requeue none)
      rest.foldl (fun s i => s.requeue r.card i) s) s
    s.updUnit u.id (fun u => { u with susp := .window s.now, preempt := cls })

/-- The units that are suspended with one: the members of its QUAD unit (R414). -/
def State.gang (s : State) (u : RUnit) : List Nat :=
  match u.quad with
  | none => [u.id]
  | some (n, _) => (s.units.filter (fun v => v.key.ctx = u.key.ctx ∧ v.key.serial = u.key.serial ∧ (v.quad.map (·.1)) = some n)).map (·.id)

/-- Units taken in order, each with its gang, until what is sought fits without them (R71). -/
def State.takeUntil (s : State) (fits : List Nat → Bool) : List RUnit → List Nat → List Nat
  | [], drop => drop
  | u :: us, drop =>
    if fits drop then drop
    else State.takeUntil s fits us (if drop.contains u.id then drop else drop ++ s.gang u)

/-- The units that a launch of a class may push aside, in the order of R71. -/
def State.victims (s : State) (cls : Nat) : List RUnit :=
  let can := s.units.filter (fun u => cls < u.cls ∧ u.started ∧ u.saved = false ∧ u.retired = false ∧ u.susp = .no)
  can.mergeSort (fun a b => b.cls < a.cls || (a.cls == b.cls && (b.placed < a.placed || (b.placed == a.placed && b.id ≤ a.id))))

/-- Room made for what a class asks, whose place without some units is given: units of lower classes are suspended in the
order of R71 until it fits, those that hold what it takes, on the cores where it will stand; none where even all of them
would not make room. -/
def State.makeRoom (s : State) (cls : Nat) (spot : List Nat → Option (List (Nat × List Nat))) : State :=
  let going := (s.units.filter (fun u => u.susp ≠ .no ∧ u.saved = false ∧ u.retired = false)).map (·.id)
  let at_ (drop : List Nat) : Option (List (Nat × List Nat)) := spot (if drop.isEmpty then [2 ^ 64] else drop)
  let drop := s.takeUntil (fun d => (at_ d).isSome) (s.victims cls) going
  let cores := ((at_ drop).getD []).map (·.1)
  let need := s.units.filter (fun u => drop.contains u.id && !(going.contains u.id) && cores.contains u.core)
  (nub (need.flatMap s.gang)).foldl (fun s i => s.beginSuspend cls i) s

/-- Suspensions for a head that does not fit (R71). -/
def State.pushAside (s : State) (k : Kernel) : State := s.makeRoom k.cls (fun drop => s.spot drop k 0)

/-- The room that a running kernel's remaining units take before a head of a class, class by class (R69, R75). -/
def State.placeRest (s : State) (die : Nat) (cls : Nat) : State :=
  let ks := (upto 4).flatMap (fun c => if c ≤ cls then s.kernels.filter (fun k => k.cls = c ∧ k.st = .running ∧ s.queueDie k.ctx k.queue = die) else [])
  ks.foldl (fun s k => s.placeMore k.ctx k.serial) s

/-- A head started: its first unit is placed, and as many more as find room (R69, R70). -/
def State.startKernel (s : State) (die : Nat) (k : Kernel) : State :=
  let q := Tbl.get {} (s.ctx k.ctx).queues k.queue
  let prev := s.prevAcq k.ctx die q
  let s := s.updKernel k.ctx k.serial (fun k => { k with st := .running, prev := prev })
  let s := s.updCtx k.ctx (fun c => { c with queues := Tbl.set c.queues k.queue { q with last := some k.serial } })
  let s := { s with lastStart := Tbl.set s.lastStart (4 * die + k.cls) (64 * k.ctx + k.queue) }
  (s.tidyQueue k.ctx k.queue).placeMore k.ctx k.serial

/-- The first of some heads that has room for its first unit is started, each looked at after the remaining units of its
class and the higher ones; where none has, units are suspended for them in turn (R69, R71, R72, R75). -/
def State.startFirst (die : Nat) : List Kernel → State → State
  | [], s => (s.headOrder die).foldl State.pushAside (s.placeRest die 3)
  | k :: ks, s =>
    let s := s.placeRest die k.cls
    if (s.spot [] k 0).isSome then s.startKernel die k else State.startFirst die ks s

/-- LAUNCH_START (R69, R71, R75, R78): a head that no surviving core could hold ends, else the first head with room
starts. -/
def State.launchStart (s : State) (die : Nat) : State :=
  let hs := s.headOrder die
  match hs.find? (fun h => !(s.placeable h)) with
  | some h =>
    let q := Tbl.get {} (s.ctx h.ctx).queues h.queue
    (s.updCtx h.ctx (fun c => { c with queues := Tbl.set c.queues h.queue { q with last := some h.serial } })).endKernel h.ctx h.serial 4
  | none => State.startFirst die hs s

/-- LAUNCH_START. -/
def execLaunchStart (die : Nat) (s : State) : Result := .next (s.launchStart die)

/-! RELAY_START (R70, R80, R240). -/

/-- Both arrays of a core as a matrix team finds them at its start (R240). -/
def State.clearArrays (s : State) (core : Nat) : State := (s.updArray core false (fun _ => {})).updArray core true (fun _ => {})

/-- RELAY_START: every heat of the relay is resident, and all become eligible at once (R80); in a serial queue the core
first acquires the previous launch's completion (R70). -/
def State.relayStart (s : State) (key : UnitKey) : State :=
  match s.unitOf key with
  | none => s
  | some u =>
    if u.started || u.retired || u.isTask then s
    else
      let s := match (s.kernel? key.ctx key.serial).map (·.prev) with
        | some (.object pa) => s.acquireObj key.ctx u.core pa
        | some .flush => s.invalidateAll key.ctx u.core
        | _ => s
      let s := if s.heats.any (fun h => h.unit == u.id && h.role == 1) then s.clearArrays u.core else s
      { s.updUnit u.id (fun u => { u with started := true, placed := s.now }) with
        heats := s.heats.map (fun h => if h.unit = u.id then { h with since := s.now } else h) }

/-- RELAY_START. -/
def execRelayStart (u : UnitKey) (s : State) : Result := .next (s.relayStart u)

end Sys2Proof.Machine
end

