-- ==== Sys2Proof/Machine/Suspend.lean ====
section
/-! DEFINITION. Suspension: saving, draining, the deadline with its forced reset, and restoring (R240, R278, R414 to
R422).
Readings logged: DEDUCED 54. -/

namespace Sys2Proof.Machine

/-! Forced reset (R421). -/

/-- What is left of a context's tasks once its lanes are killed: no run, commit, token or card. -/
def State.dropTasks (s : State) (p : Nat → Nat → Bool) : State :=
  let runs := (s.runs.filter (fun r => p r.ctx r.serial)).map (·.id)
  let s := { s with runs := s.runs.filter (fun r => !(p r.ctx r.serial)), arb := s.arb.filter (fun q => !(runs.contains q.run)) }
  let s := { s with token := s.token.filter (fun e => !(runs.contains e.2)), tokenQ := s.tokenQ.filter (fun r => !(runs.contains r)) }
  { s with cards := s.cards.filter (fun (c : Card) => !(p c.ctx c.serial)) }

/-- The kernels that a forced reset ends, with status 2: at once, or after those that have retired and await their own end
(R87, R421). -/
def State.resetKernels (s : State) (ctx : Nat) (wait : Bool) (serials : List Nat) : State :=
  serials.foldl (fun s n => if wait then s.updKernel ctx n (fun k => { k with killed := true, reset := true }) else s.endKernel ctx n 2) s

/-- A forced reset of a context: its lanes are killed, its cards, saved units and records discarded, and its kernels that
have started and not retired end with status 2 (R421). -/
def State.forceReset (s : State) (ctx : Nat) : State :=
  let (idle, live) := (s.kernels.filter (fun (k : Kernel) => k.ctx = ctx ∧ k.st = .running)).partition s.kernelIdle
  let s := { s with cards := s.cards.filter (fun (c : Card) => c.ctx ≠ ctx), groups := s.groups.filter (fun (g : Group) => g.ctx ≠ ctx) }
  let s := ((s.heats.filter (fun (h : Heat) => h.key.ctx = ctx)).map (·.key)).foldl (fun s k => s.killHeat k) s
  let s := s.dropTasks (fun c _ => c == ctx)
  let gone := (s.units.filter (fun (u : RUnit) => u.key.ctx = ctx ∧ u.saved)).map (·.id)
  let s := { s with heats := s.heats.filter (fun (h : Heat) => !(gone.contains h.unit)), units := s.units.filter (fun (u : RUnit) => !(gone.contains u.id)) }
  let s := { s with postings := s.postings.filter (fun (r : FRec) => r.ctx ≠ ctx), records := s.records.filter (fun (r : FRec) => r.ctx ≠ ctx) }
  let s := { s with units := s.units.map (fun (u : RUnit) => if u.key.ctx = ctx then { u with susp := .no } else u) }
  (s.resetKernels ctx (!idle.isEmpty) (live.map (·.serial))).entriesFreed

/-! Saving (R415 to R418). -/

/-- The greatest live high-water of the blocks in which a heat's lanes stand (R417). -/
def State.highWater (s : State) (h : Heat) : Nat :=
  (h.lanes.map (fun x => match x.blk with
    | some (_, w) => fld w 23 9
    | none => if x.exited then 0 else match s.peekWord h.key.ctx (dieOf h.core) x.pc with
      | some w => fld w 23 9
      | none => 0)).foldl max 0

/-- A heat as its save leaves it: registers that are not saved read 0 (R417, R427), and uncorrectable ones 0x7FC0_0000
(R447). -/
def Heat.save (h : Heat) (high : Nat) : Heat :=
  let keep (x : Lane) : Lane := if x.exited then x else
    let x := x.badRegs.foldl (fun (x : Lane) i => { x with v := Tbl.put 0 x.v i 0x7FC00000 }) x
    { x with v := x.v.filter (fun e => e.1 < high), badRegs := [] }
  { h with saved := true, active := false, fence := none, lanes := h.lanes.map keep }

/-- Whether a lane waits for other signers of a matrix operation (R242). -/
def Lane.signing (x : Lane) : Bool := match x.st with | .blocked (.sign _) => true | _ => false

/-- Whether an operation of a heat is complete, has parked its lanes, or is one that has still to be fully signed (R240,
R415). -/
def Heat.opRests (h : Heat) (o : Op) : Bool := o.key ≠ h.key || (o.isCopy && o.left.isEmpty) || o.left.all (fun l => (h.lane l).signing)

/-- Whether a unit rests (R278, R415). -/
def State.unitRests (s : State) (u : RUnit) : Bool :=
  let hs := s.heats.filter (fun (h : Heat) => h.unit = u.id)
  let mine (k : HeatKey) : Bool := hs.any (fun h => h.key == k)
  hs.all (fun h => h.busy.isNone && h.cpyw.isEmpty && h.lanes.all (s.atRest h.key.ctx (dieOf h.core)) && !(s.runs.any (fun r => r.ofHeat h)) && s.ops.all h.opRests) &&
  !(s.reqs.any (fun r => mine r.key)) &&
  !(s.arrays.any (fun a => a.2.q.any (fun o => o.unit == u.id))) && s.noRels u.key.ctx u.core

/-- An array as it is saved: rows with uncorrectable data as canonical NaNs (R240, R261). -/
def MArray.save (a : MArray) : MArray :=
  { a with badStat := false, badShadow := false, badRows := []
           acc := a.badRows.foldl (fun t r => (upto 64).foldl (fun t i => Tbl.put 0 t (64 * r + i) 0x7FC00000) t) a.acc }

/-- One unit saved (R240, R278, R417). -/
def State.saveUnit (s : State) (id : Nat) : State :=
  match s.unit? id with
  | none => s
  | some u =>
    let matrix : Bool := s.heats.any (fun h => h.unit == id && h.role == 1)
    let arr := if matrix then some ((s.array u.core false).save, (s.array u.core true).save) else none
    let keys := (s.heats.filter (fun (h : Heat) => h.unit = id)).map (·.key)
    let s := keys.foldl (fun s k => match s.heat? k with
      | none => s
      | some _ => s.updHeat k (fun h => h.save (s.highWater h))) s
    s.updUnit id (fun u => { u with saved := true, susp := .no, evicted := false, savedSig := Tbl.get {} (s.ctx u.key.ctx).banks u.core, savedAt := s.now, savedArr := arr })

/-- UNIT_SAVE (R416): the unit, with the members of its QUAD unit, rests within the window and is saved; a save area that
cannot be written resets the context (R418). -/
def State.unitSave (s : State) (key : UnitKey) : State :=
  match s.unitOf key with
  | none => s
  | some u =>
    let g := s.gang u
    let inWindow (v : RUnit) : Bool := match v.susp with | .window t => s.now < t + 2 ^ 14 | _ => false
    let vs := s.units.filter (fun v => g.contains v.id)
    if u.saved || u.retired || !(vs.all (fun v => v.retired || (inWindow v && s.unitRests v))) then s
    else match s.peek key.ctx (dieOf u.core) (((s.ctx key.ctx).trail + 204800) % 2 ^ 64) .write with
      | .error _ => s.forceReset key.ctx
      | .ok _ => (vs.filter (fun v => !v.retired)).foldl (fun s v => s.saveUnit v.id) s

/-- UNIT_SAVE. -/
def execUnitSave (u : UnitKey) (s : State) : Result := .next (s.unitSave u)

/-- SUSPEND_WINDOW_EXPIRY (R416): a unit that has not rested drains, with the members of its QUAD unit. -/
def State.windowExpiry (s : State) (key : UnitKey) : State :=
  match s.unitOf key with
  | none => s
  | some u => match u.susp with
    | .window t =>
      if t + 2 ^ 14 ≤ s.now then
        let g := s.gang u
        { s with units := s.units.map (fun v => if g.contains v.id then (match v.susp with | .window t => { v with susp := .drain t } | _ => v) else v) }
      else s
    | _ => s

/-- SUSPEND_WINDOW_EXPIRY. -/
def execSuspendWindowExpiry (u : UnitKey) (s : State) : Result := .next (s.windowExpiry u)

/-- SUSPEND_DEADLINE (R416, R421). -/
def State.deadline (s : State) (key : UnitKey) : State :=
  match s.unitOf key with
  | none => s
  | some u =>
    let expired : Bool := match u.susp with
      | .window t | .drain t => t + 2 ^ 17 ≤ s.now
      | .no => false
    if expired && !u.saved && !u.retired then s.forceReset key.ctx else s

/-- SUSPEND_DEADLINE. -/
def execSuspendDeadline (u : UnitKey) (s : State) : Result := .next (s.deadline u)

/-! Restoring (R419, R420). -/

/-- A lane's timeouts moved by the time for which its unit was saved (R417, R422). -/
def Lane.shift (n : Nat) (x : Lane) : Lane :=
  match x.st with
  | .blocked (.waita a b c d e f g dl acq) => { x with st := .blocked (.waita a b c d e f g (dl + n) acq) }
  | .blocked (.mwait a b c dl e f g h) => { x with st := .blocked (.mwait a b c (dl + n) e f g h) }
  | .blocked (.tframe a b dl) => { x with st := .blocked (.tframe a b (dl + n)) }
  | _ => x

/-- What a unit asks of a core, from its heats. -/
def State.unitNeed (s : State) (u : RUnit) : Need :=
  let hs := s.heats.filter (fun (h : Heat) => h.unit = u.id)
  { budgets := hs.map (·.budget), scratch := u.size, matrix := hs.any (fun h => h.role == 1) }

/-- The members of a QUAD unit at their positions of one logical quad. -/
def State.quadSpot (s : State) (drop : List Nat) (die : Nat) (vs : List RUnit) : Option (List (Nat × List Nat)) :=
  let at_ (q : Nat) (v : RUnit) : Option (Nat × List Nat) :=
    let c := 64 * die + 4 * q + ((v.quad.map (·.2)).getD 0)
    (s.fits drop v.cls c (s.unitNeed v)).map (fun ps => (c, ps))
  let can := (upto 16).filterMap (fun q => (vs.mapM (at_ q)).map (fun xs => (xs, (xs.map (fun x => s.used drop x.1)).sum)))
  (leastBy (fun x => x.2) can).map (·.1)

/-- Where the members of a saved gang go on their die (R75, R419). -/
def State.gangSpot (s : State) (drop : List Nat) (die : Nat) (vs : List RUnit) : Option (List (Nat × List Nat)) :=
  match vs with
  | [] => none
  | [u] =>
    if u.quad.isNone then (s.bestCore drop u.cls die (s.unitNeed u)).map (fun x => [x])
    else s.quadSpot drop die [u]
  | vs => s.quadSpot drop die vs

/-- Lanes whose settling came while their unit was saved (R379, R389). -/
def State.lateSettles (s : State) (id : Nat) : State :=
  let ws := s.heats.flatMap (fun h => if h.unit ≠ id then [] else (upto h.lanes.length).filterMap (fun l => match (h.lane l).st with
    | .blocked (.tsettle obj) => if s.groups.any (fun g => g.ctx = h.key.ctx ∧ g.obj = obj) then none else some (h.key, l, obj)
    | _ => none))
  ws.foldl State.endSettle s

/-- A saved unit stands on a core again (R240, R278, R419). -/
def State.restoreUnit (s : State) (id core : Nat) (parts : List Nat) : State :=
  match s.unit? id with
  | none => s
  | some u =>
    let away := s.now - u.savedAt
    let mine := (s.heats.filter (fun (h : Heat) => h.unit = id)).map (·.key)
    let s := ((upto mine.length).zip mine).foldl (fun s e => s.updHeat e.2 (fun h =>
      { h with saved := false, core := core, part := (parts[e.1]?).getD 0, since := s.now, lastIssue := none, readyAt := none, lanes := h.lanes.map (Lane.shift away) })) s
    let s := (s.bankOr u.key.ctx core u.savedSig).l1Drop core (fun _ => true)
    let s := match u.savedArr with
      | none => s
      | some (a, b) => (s.updArray core false (fun _ => a)).updArray core true (fun _ => b)
    let s := s.updUnit id (fun u => { u with saved := false, core := core, placed := s.now, savedArr := none, savedSig := {} })
    (s.lateSettles id).retrySlots

/-- The saved unit that a die restores next: the highest class, then the earliest saved (R420). -/
def State.nextSaved (s : State) (die : Nat) : Option RUnit :=
  leastBy (fun u => u.cls * 2 ^ 80 + u.savedAt) (s.units.filter (fun (u : RUnit) => u.saved ∧ dieOf u.core = die))

/-- UNIT_RESTORE (R419, R420): the unit is restored, or lower classes are suspended for it as for a launch head (R71). -/
def State.unitRestore (s : State) (die : Nat) : State :=
  match s.nextSaved die with
  | none => s
  | some u =>
    let g := s.gang u
    let vs := s.units.filter (fun v => g.contains v.id && v.saved)
    match s.gangSpot [] die vs with
    | some xs => (vs.zip xs).foldl (fun s e => s.restoreUnit e.1.id e.2.1 e.2.2) s
    | none => s.makeRoom u.cls (fun drop => s.gangSpot drop die vs)

/-- UNIT_RESTORE. -/
def execUnitRestore (die : Nat) (s : State) : Result := .next (s.unitRestore die)

end Sys2Proof.Machine
end

