-- ==== Sys2Proof/Machine/Faults.lean ====
section
/-! DEFINITION. The fault buffers (R399, R400) and the messages that a posting sends (R63).
Readings logged: DEDUCED 57. -/

namespace Sys2Proof.Machine

/-- The release of a port agent: its bank ORed with the banks of the other port agents, which stay (R66, R279). -/
def State.portRelease (s : State) (ctx port : Nat) (sc : Scope) (obj : Option (Nat × Nat)) (flags : Nat) : State :=
  let o := 256 + port
  let d := (upto 12).foldl (fun g p => if p = port then g else g.union (Tbl.get {} (s.ctx ctx).banks (256 + p))) (Tbl.get {} (s.ctx ctx).banks o)
  let d := match obj with | some (pa, _) => d.insert pa | none => d
  (s.updCtx ctx (fun c => { c with banks := Tbl.set c.banks o {} })).deposit ctx o sc d obj flags

/-- A message about a record goes where the LAUNCH of the kernel that it names came from (R63). -/
def State.sendRec (s : State) (r : FRec) (kind : Nat) (body : List Byte) : State :=
  match r.serial.bind (s.kernel? r.ctx) with
  | none => s
  | some k => s.send k.port k.half k.sender k.endpoint kind k.tag body

/-- The FAULT_NOTE and PAGE_REQ of a posting (R63). -/
def State.notify (s : State) (r : FRec) : State :=
  let c := s.ctx r.ctx
  let s := if bit c.fwd (r.causeByte % 32) then s.sendRec r 0x06 r.bytes else s
  if c.hostPaging ∧ r.causeByte % 32 = Cause.page.code then
    s.sendRec r 0x07 (toBytes 8 r.addr ++ toBytes 1 (b2n (bit r.causeByte 5)) ++ toBytes 1 r.die)
  else s

/-- A record enters its die's buffer with the die's next sequence (R397, R399). -/
def State.postRec (s : State) (r : FRec) : State :=
  let n := (Tbl.get 0 s.postCount r.die + 1) % 2 ^ 32
  let r := { r with seq := n }
  let s := { s with postings := s.postings.filter (fun (p : FRec) => p.id ≠ r.id), records := s.records ++ [r], postCount := Tbl.set s.postCount r.die n }
  ((s.notify r).serveFrames).sweep

/-- Whether a die's buffer has room (R399). -/
def State.bufferRoom (s : State) (die : Nat) : Bool := (s.records.filter (fun r => r.die = die)).length < 4096

/-- The overflow notice of R400, as the 64 bytes of a record. -/
def overflowNotice (ctx die : Nat) : List Byte :=
  toBytes 29 0 ++ toBytes 1 ctx ++ toBytes 22 0 ++ toBytes 4 (2 ^ 32 - 1) ++ toBytes 2 0 ++ toBytes 2 (die + 64) ++ toBytes 4 0

/-- The service interrupt (R400): waits for a record end, and the host is told. -/
def State.serviceInterrupt (s : State) (ctx die : Nat) : State :=
  let s := { s with heats := s.heats.map (fun (h : Heat) => if h.key.ctx = ctx then { h with lanes := h.lanes.map Lane.frameEnds } else h) }
  s.send (3 * die) 0 (s.ctx ctx).opener (ctx + 1) 0x06 (s.ctx ctx).openTag (overflowNotice ctx die)

/-- A posting that fails at its first attempt (R400). -/
def State.overflow (s : State) (r : FRec) : State :=
  let s := { s with postings := s.postings.map (fun (p : FRec) => if p.id = r.id then { p with retry := true, born := s.now } else p) }
  let first := !(Tbl.get false (s.ctx r.ctx).ovf r.die)
  let s := s.updCtx r.ctx (fun c => { c with ovf := Tbl.set c.ovf r.die true
                                             ovfCount := Tbl.put 0 c.ovfCount r.die (min (Tbl.get 0 c.ovfCount r.die + 1) (2 ^ 32 - 1)) })
  if first then s.serviceInterrupt r.ctx r.die else s

/-- The postings of a die that have been tried and wait, in the order of their first attempt (R400). -/
def State.waitingPosts (s : State) (die : Nat) : List FRec := s.postings.filter (fun p => p.die = die ∧ p.retry)

/-- FAULT_POST (R399, R400): the die's oldest posting that has not been tried; it does not overtake those that wait. -/
def State.faultPost (s : State) (die : Nat) : State :=
  match s.postings.find? (fun p => p.die = die ∧ p.retry = false) with
  | none => s
  | some r => if !(s.bufferRoom die) then s.overflow r else if (s.waitingPosts die).isEmpty then s.postRec r else s

/-- FAULT_POST. -/
def execFaultPost (die : Nat) (s : State) : Result := .next (s.faultPost die)

/-- Waiting postings tried in order; one that fails is tried again after 256 clocks (R400). -/
def State.retryPosts : List FRec → State → State
  | [], s => s
  | r :: rs, s =>
    State.retryPosts rs (if s.bufferRoom r.die then s.postRec { r with flags := r.flags ||| 32 }
      else { s with postings := s.postings.map (fun (p : FRec) => if p.id = r.id then { p with born := s.now } else p) })

/-- FAULT_POST_RETRY (R400): 256 clocks after their last attempt, none before one that was first tried earlier. -/
def State.faultRetry (s : State) (die : Nat) : State :=
  State.retryPosts ((s.waitingPosts die).takeWhile (fun p => p.born + 256 ≤ s.now)) s

/-- FAULT_POST_RETRY. -/
def execFaultPostRetry (die : Nat) (s : State) : Result := .next (s.faultRetry die)

end Sys2Proof.Machine
end

