-- ==== Sys2Proof/Machine/HostMsgs.lean ====
section
/-! DEFINITION. The host's messages beside LAUNCH: PAGE_DONE (R66), QCTL (R68), CTX_OPEN and CTX_CLOSE (R63).
Readings logged: DEDUCED 47, 58, 74; DESIGN CHOICE 81. -/

namespace Sys2Proof.Machine

/-! PAGE_DONE (R66). -/

/-- A message of a command endpoint whose context is not open is rejected (R61). -/
def State.onCtx (s : State) (m : Sys2Proof.Msg) (closing : Bool) (f : State → State) : State :=
  let c := s.ctx (m.endpoint - 1)
  if !c.opened || (closing && c.closing) then s.reject m 3 0 else f s

/-- The rest of PAGE_DONE with status 0, once no agent can reach the old mapping: the port agent releases, and the PAGE
records in the range are resumed with that release (R66). -/
def State.pageMapped (s : State) (ctx port va len : Nat) : State :=
  let s := s.portRelease ctx port .package none 0
  let acq := (256 + port, s.lastSeq ctx (256 + port))
  let mine := s.records.filter (fun r => r.ctx = ctx ∧ r.causeByte % 32 = Cause.page.code ∧ va ≤ r.addr ∧ r.addr < va + len)
  mine.foldl (fun s r => s.resumeRec r (2 ^ 32 - 1) false acq) s

/-- The end of a range that starts at an address, in the address space. -/
def rangeEnd (va len : Nat) : Nat := min (va % 2 ^ 57 + len) (2 ^ 57)

/-- Whether an agent can still reach the mapping that a PAGE_DONE replaces (R66, R410). -/
def State.stillMapped (s : State) (p : PageMap) : Bool := p.len != 0 && s.oldUse p.ctx (p.va % 2 ^ 57) (rangeEnd p.va p.len) p.mark

/-- PAGE_DONEs that wait go on in order, each once no agent can reach its old mapping. -/
def State.mapsDone : List PageMap → State → State
  | [], s => s
  | p :: ps, s =>
    if s.stillMapped p then State.mapsDone ps { s with maps := s.maps ++ [p] }
    else State.mapsDone ps (s.pageMapped p.ctx p.port p.va p.len)

/-- The waiting PAGE_DONEs looked at (log entry 74). -/
def State.settleMaps (s : State) : State := State.mapsDone s.maps { s with maps := [] }

/-- PAGE_DONE: the range's translations go, and the rest follows once the accesses that used them are performed or have
trapped, as after a TLBINV (R66, R410). -/
def State.pageDone (s : State) (m : Sys2Proof.Msg) : State :=
  s.onCtx m false (fun s =>
    if Msg.fld m 16 1 = 0 then
      let va := Msg.fld m 0 8
      let len := Msg.fld m 8 8
      let s := if len = 0 then s else s.tlbDrop (m.endpoint - 1) (va % 2 ^ 57) (rangeEnd va len)
      State.mapsDone [{ ctx := m.endpoint - 1, port := m.port, va := va, len := len, mark := s.nid }] s
    else s)

/-- TLBINV_COMPLETE (R66, R410): the heat is ready again, and so do waiting PAGE_DONEs go on, once no agent can reach the
old mapping. -/
def execTlbinvComplete (key : HeatKey) (s : State) : Result := .next ((s.tlbinvDone key).settleMaps)

def execPageDone (m : Sys2Proof.Msg) (s : State) : Result := .next (s.receive 0x08 m (fun s => s.pageDone m))

/-! QCTL (R68). -/

def State.updQueue (s : State) (ctx q : Nat) (f : LQueue → LQueue) : State :=
  s.updCtx ctx (fun c => { c with queues := Tbl.set c.queues q (f (Tbl.get {} c.queues q)) })

/-- A QCTL message, where its operation is one of those of an event. -/
def State.qctl (s : State) (m : Sys2Proof.Msg) (mine : Nat → Bool) (f : State → State) : State :=
  if mine (Msg.fld m 0 1) then s.receive 0x09 m (fun s => s.onCtx m true f) else s

/-- QCTL_SET (R68); operations 4 to 255 are rejected with it. -/
def execQctlSet (m : Sys2Proof.Msg) (s : State) : Result :=
  .next (s.qctl m (fun op => op == 0 || 3 < op) (fun s =>
    s.updQueue (m.endpoint - 1) m.queue (fun q => { q with cls := Msg.fld m 1 1, concurrent := Msg.fld m 2 1 == 1 })))

/-- QCTL_PAUSE (R68). -/
def execQctlPause (m : Sys2Proof.Msg) (s : State) : Result :=
  .next (s.qctl m (· == 1) (fun s => s.updQueue (m.endpoint - 1) m.queue (fun q => { q with paused := true })))

/-- QCTL_UNPAUSE (R68). -/
def execQctlUnpause (m : Sys2Proof.Msg) (s : State) : Result :=
  .next (s.qctl m (· == 2) (fun s => s.updQueue (m.endpoint - 1) m.queue (fun q => { q with paused := false })))

/-- QCTL_FLUSH (R68). -/
def execQctlFlush (m : Sys2Proof.Msg) (s : State) : Result :=
  .next (s.qctl m (· == 3) (fun s => s.flushQueue (m.endpoint - 1) (some m.queue)))

/-! Contexts (R63). -/

/-- A context becomes resident: sequences, banks and applied tables start at 0, and every L1 is invalidated (R63, R273,
R276). -/
def State.openCtx (s : State) (m : Sys2Proof.Msg) (c : Nat) : State :=
  let x : Ctx := { opened := true, root := Msg.fld m 8 8, trail := Msg.fld m 16 8, fwd := Msg.fld m 24 4, hostPaging := bit (Msg.fld m 28 1) 0
                   secure := bit (Msg.fld m 28 1) 1, opener := m.sender, openTag := m.tag }
  { s with ctxs := Tbl.set s.ctxs c x, l1 := [], l1Stream := [], tlb := s.tlb.filter (fun (e : TlbE) => e.ctx ≠ c) }

/-- CTX_OPEN (R63). -/
def State.ctxOpen (s : State) (m : Sys2Proof.Msg) : State :=
  let c := Msg.fld m 0 1
  if (s.ctx c).opened then s.ctxAck m.port m.half m.sender m.tag c 1 else (s.openCtx m c).ctxAck m.port m.half m.sender m.tag c 0

def execCtxOpen (m : Sys2Proof.Msg) (s : State) : Result := .next (s.receive 0x0B m (fun s => s.ctxOpen m))

/-- CTX_CLOSE (R63): queues stopped and flushed, running kernels killed; the answer comes when every team has retired. A
context that is not open, or is closing, is answered with status 1 (log entry 81). -/
def State.ctxClose (s : State) (m : Sys2Proof.Msg) : State :=
  let c := Msg.fld m 0 1
  if !(s.ctx c).opened || (s.ctx c).closing then s.ctxAck m.port m.half m.sender m.tag c 1
  else
    let s := s.updCtx c (fun x => { x with closing := true, closer := m.sender, closeTag := m.tag, closePort := m.port, closeHalf := m.half })
    let s := s.flushQueue c none
    ((s.kernels.filter (fun k => k.ctx = c ∧ k.st = .running)).map (·.serial)).foldl (fun s n => s.killKernel c n) s

def execCtxClose (m : Sys2Proof.Msg) (s : State) : Result := .next (s.receive 0x0C m (fun s => s.ctxClose m))

/-- CTX_CLOSE_DONE (R63): every team has retired; the context is free, and CTX_ACK goes out. -/
def State.closeDone (s : State) (c : Nat) : State :=
  let x := s.ctx c
  let busy : Bool := s.units.any (fun u => u.key.ctx == c && !u.retired) || s.kernels.any (fun k => k.ctx == c && (k.st == .queued || k.st == .running))
  if !x.opened || !x.closing || busy then s
  else
    let s := { s with ctxs := Tbl.erase s.ctxs c, kernels := s.kernels.filter (fun (k : Kernel) => k.ctx ≠ c), units := s.units.filter (fun (u : RUnit) => u.key.ctx ≠ c)
                      cards := s.cards.filter (fun (k : Card) => k.ctx ≠ c), groups := s.groups.filter (fun (g : Group) => g.ctx ≠ c)
                      postings := s.postings.filter (fun (r : FRec) => r.ctx ≠ c), records := s.records.filter (fun (r : FRec) => r.ctx ≠ c)
                      tlb := s.tlb.filter (fun (e : TlbE) => e.ctx ≠ c), maps := s.maps.filter (fun (p : PageMap) => p.ctx ≠ c) }
    s.ctxAck x.closePort x.closeHalf x.closer x.closeTag c 0

def execCtxCloseDone (ctx : Nat) (s : State) : Result := .next (s.closeDone ctx)

end Sys2Proof.Machine
end

