-- ==== Sys2Proof/Machine/Network.lean ====
section
/-! DEFINITION. Accesses of peers to the remote window: UET Writes, Reads and releases (R65, R279, R315 to R319).
Readings logged: DEDUCED 59. -/

namespace Sys2Proof.Machine

/-- The context of a header data word (R317). -/
def uetCtx (w : Nat) : Nat := fld w 0 4

/-- Whether a header data word is that of a plain access. -/
def plainHeader (w : Nat) : Bool := fld w 4 60 == 0

/-- Whether a header data word is that of a release. -/
def relHeader (w : Nat) : Bool := fld w 4 2 == 1 && fld w 22 3 == 4 && fld w 25 39 == 0

/-- Whether an endpoint entry breaks R318. -/
def badEndpoint (b : List Byte) : Bool :=
  fld (rg b 0 1) 3 5 != 0 || fld (rg b 1 1) 4 4 != 0 || rg b 2 2 == 0 || fld (rg b 2 2) 12 4 != 0 || rg b 28 36 != 0

/-- The endpoint entry that admits a sender: VALID and ACCEPT, with its address and job, under the association that the
access travelled under (R64, R316). -/
def State.admits (s : State) (u : Uet) : Bool :=
  let ctx := uetCtx u.header
  let c := s.ctx ctx
  let ok (b : List Byte) : Bool :=
    let assoc := rg b 4 4
    fld (rg b 0 1) 0 2 == 3 && !(badEndpoint b) && rg b 8 16 == u.sender && rg b 24 4 == u.job &&
    (match u.travel with
      | .association i => i == assoc && c.covers u.sender u.travel
      | _ => !c.secure)
  (upto 1024).any (fun i => i != 0 && (match Tbl.find? c.endpoints i with
    | some b => ok b
    | none => (match s.peek ctx (u.port / 3) ((c.trail + 139264 + 64 * i) % 2 ^ 64) .read with
      | .ok pa => !(s.poisoned pa 64) && ok (s.viewRead (u.port / 3) pa 64)
      | .error _ => false)))

/-- An access cut at the borders of its pages: address and length of each part. -/
def cutPages (va n : Nat) : List (Nat × Nat) :=
  (upto ((va % 65536 + n + 65535) / 65536)).map (fun i =>
    if i = 0 then (va, min n (65536 - va % 65536)) else (floorTo 65536 va + 65536 * i, min 65536 (va % 65536 + n - 65536 * i)))

/-- The physical parts of an access, or none where a part does not translate or is poisoned. -/
def State.uetPages (ctx die : Nat) (use : Use) : List (Nat × Nat) → State → Option (List (Nat × Nat)) × State
  | [], s => (some [], s)
  | (va, n) :: rest, s =>
    if !(canonical va) then (none, s)
    else match s.translate ctx die none va use with
      | (.error _, s) => (none, s)
      | (.ok pa, s) =>
        if s.poisoned pa n then (none, s)
        else match State.uetPages ctx die use rest s with
          | (none, s) => (none, s)
          | (some ps, s) => (some ((pa, n) :: ps), s)

/-- The physical parts that an access of a peer reaches, or none where the port agent refuses it; a refused access has no
effect, not even on the pages before the one that refuses it (R315, R316). -/
def State.uetAt (s : State) (u : Uet) (n : Nat) (use : Use) (okHeader : Bool) : Option (List (Nat × Nat)) × State :=
  let ctx := uetCtx u.header
  if !okHeader || !(s.ctx ctx).opened || !(s.admits u) then (none, s)
  else match State.uetPages ctx (u.port / 3) use (cutPages u.va n) s with
    | (none, _) => (none, s)
    | (some ps, t) => (some ps, t)

/-- An answer to a peer; a refusal is counted (R316). -/
def State.uetAnswer (s : State) (u : Uet) (ok : Bool) (data : List Byte) : State :=
  let s := if ok then s else s.countError u.port
  { s with uet := s.uet ++ [{ port := (s.wayOut u.port u.half).1, half := (s.wayOut u.port u.half).2, peer := u.sender, ok := ok, data := data }] }

/-- An access on a port that carries no traffic, or that does not travel as its context requires, is lost: the latter is
discarded and counted (R64). -/
def State.uetTake (s : State) (u : Uet) (f : State → State) : State :=
  let c := s.ctx (uetCtx u.header)
  let secured : Bool := match u.travel with | .association _ => true | _ => !(c.opened && c.secure)
  if !(s.carries u.port u.half) then s else if !secured then s.countError u.port else f s

/-- Bytes of a peer written into the L2 of the port's die under ownership, their lines in the port agent's bank (R273,
R315). -/
def State.portWrite (s : State) (ctx port pa : Nat) (bs : List Byte) : State :=
  (nub ((cutSectors pa bs).map (fun c => 256 * (c.1 / 4)))).foldl (fun s a => s.bankIn ctx (256 + port) a) (s.ownWrite (port / 3) pa bs)

/-- UET_WRITE (R65, R315). -/
def State.uetWrite (s : State) (u : Uet) (data : List Byte) : State :=
  match s.uetAt u data.length .write (plainHeader u.header) with
  | (none, s) => s.uetAnswer u false []
  | (some ps, s) => (ps.foldl (fun (acc : State × List Byte) p =>
      (acc.1.portWrite (uetCtx u.header) u.port p.1 (acc.2.take p.2), acc.2.drop p.2)) (s, data)).1.uetAnswer u true []

def execUetWrite (u : Uet) (data : List Byte) (s : State) : Result := .next (s.uetTake u (fun s => s.uetWrite u data))

/-- UET_READ (R315). -/
def State.uetRead (s : State) (u : Uet) (n : Nat) : State :=
  match s.uetAt u n .read (plainHeader u.header) with
  | (none, s) => s.uetAnswer u false []
  | (some ps, s) => s.uetAnswer u true (ps.flatMap (fun p => s.viewRead (u.port / 3) p.1 p.2))

def execUetRead (u : Uet) (n : Nat) (s : State) : Result := .next (s.uetTake u (fun s => s.uetRead u n))

/-- UET_RELEASE_WRITE (R279, R317): the value with a release by the port agent. -/
def State.uetRelease (s : State) (u : Uet) (value : Nat) : State :=
  let ctx := uetCtx u.header
  match s.uetAt u 8 .write (relHeader u.header && u.va % 64 == 0) with
  | (none, s) => s.uetAnswer u false []
  | (some ps, s) => (s.portRelease ctx u.port .system (ps.head?.map (fun p => (p.1, value))) (fld u.header 6 16)).uetAnswer u true []

def execUetReleaseWrite (u : Uet) (value : W64) (s : State) : Result := .next (s.uetTake u (fun s => s.uetRelease u value.toNat))

end Sys2Proof.Machine
end

