-- ==== Sys2Proof/Machine/Coherence.lean ====
section
/-! DEFINITION. Coherence across dies (R299 to R309, R330): requests at a home, snoops, responses, evictions and early
cleaning. A transaction on a sector lasts until its requester has its answer.
Readings logged: DEDUCED 12, 60; DESIGN CHOICE 10. -/

namespace Sys2Proof.Machine

/-! Messages. -/

/-- The first message of a channel between two dies, where it is of a kind (R302). -/
def State.headMsg (s : State) (src dst : Nat) (k : MsgKind) : Option CMsg :=
  match s.msgs.find? (fun m => m.src = src ∧ m.dst = dst ∧ m.kind.channel = k.channel) with
  | some m => if m.kind = k then some m else none
  | none => none

def State.takeMsg (s : State) (m : CMsg) : State := { s with msgs := removeFirst (fun x => x = m) s.msgs }

def MsgKind.isEvict : MsgKind → Bool
  | .writeBack | .cleanEvict => true
  | _ => false

/-! The directory (R301, R330). -/

def dirOf : L2St → DirSt
  | .m | .dirty => .m
  | .o => .o
  | .e | .clean => .e
  | .s => .s

def State.lineInTxn (s : State) (line : Nat) : Bool := (upto 4).any (fun i => s.inTxn (4 * line + i))

/-- The dies that hold a sector of a line. -/
def State.lineHolders (s : State) (line : Nat) : List Nat :=
  (upto 4).filter (fun d => (upto 4).any (fun i => (Tbl.find? (s.holders (4 * line + i)) d).isSome))

/-- The eviction of the least recently allocated entry of a set whose line has no transaction in progress begins, unless
one of the set is under way (R309). -/
def State.evictWay (s : State) (line : Nat) : State :=
  if s.backInv.any (fun b => dirSet b.line == dirSet line) then s
  else match s.dirOrder.find? (fun x => dirSet x = dirSet line ∧ s.lineInTxn x = false) with
    | none => s
    | some v =>
      let ds := s.lineHolders v
      let s := { s with backInv := s.backInv ++ [{ line := v, left := ds, sent := s.now }] }
      ds.foldl (fun s d => s.post { kind := .backInval, src := homeOf (256 * v), dst := d, sector := 4 * v }) s

/-! Grants. -/

/-- A request of a die that has its answer. -/
def State.answered (s : State) (die sec : Nat) : State := { s with asked := s.asked.filter (fun (a : Nat × Nat × Nat) => !(a.1 = die ∧ a.2.1 = sec)) }

/-- The writes of a die that wait for a sector: into the L2 where the die now owns it; else ownership is asked for, once the
sector's transaction has ended (R306). -/
def State.settleWrites (s : State) (die sec : Nat) : State :=
  if !(s.rwq.any (fun e => e.die == die && e.pa / 64 == sec)) then s
  else if s.owns die sec then s.drain die sec
  else if s.inTxn sec then s
  else s.ask die sec true

/-- The home's copy of a sector, or memory's, and whether it is newer than memory. -/
def State.homeData (s : State) (sec : Nat) : List Byte × Bool :=
  match s.l2? (homeOf (64 * sec)) sec with
  | some x => (x.data, x.st = .dirty)
  | none => (s.memSector sec, false)

/-- The home's answer to a requester, its own L2 among them (R302, R303). -/
def State.sendGrant (s : State) (sec r : Nat) (g : L2St) (dirty : Bool) (data : Option (List Byte)) : State :=
  s.post { kind := if dirty then .dataDirty else .dataClean, src := homeOf (64 * sec), dst := r, sector := sec, requester := r, grant := some g, data := data }

/-- A readable copy granted by the home, no other die answering for the data; the home's own dirty copy stays dirty (R304). -/
def State.grantShared (s : State) (sec r : Nat) : State :=
  let home := homeOf (64 * sec)
  let (data, dirty) := s.homeData sec
  if r = home then s.sendGrant sec r (if dirty then .m else .s) dirty (some data)
  else
    let hs := s.holders sec
    let g : L2St := if hs.isEmpty && (s.l2? home sec).isNone then .e else .s
    (s.putHolders sec (Tbl.set hs r (dirOf g))).sendGrant sec r g dirty (some data)

/-- The record of a sector that one die holds for writing: the home's own copy needs none (R301, R304). -/
def ownRecord (home r : Nat) (d : DirSt) : Tbl DirSt := if r = home then [] else [(r, d)]

/-- A writable copy granted by the home, no other die holding the sector; its own copy goes (R304). -/
def State.grantOwn (s : State) (sec r : Nat) : State :=
  let home := homeOf (64 * sec)
  let (data, dirty) := s.homeData sec
  let g : L2St := if dirty then .m else .e
  ((s.dropL2 home sec).putHolders sec (ownRecord home r (dirOf g))).sendGrant sec r g dirty (some data)

/-- The home's copy goes, where the requester is another die (R304). -/
def State.dropHome (s : State) (sec r : Nat) : State :=
  let home := homeOf (64 * sec)
  if r = home then s else s.dropL2 home sec

/-- Write permission without data (R304). -/
def State.grantUpgrade (s : State) (sec r : Nat) : State :=
  ((s.dropHome sec r).putHolders sec (ownRecord (homeOf (64 * sec)) r .m)).sendGrant sec r .m false none

/-- Whether a requester holds the copy that its Upgrade would make writable (R304). -/
def State.upgradable (s : State) (sec r : Nat) : Bool :=
  if r = homeOf (64 * sec) then (s.l2? r sec).isSome
  else (match Tbl.find? (s.holders sec) r with | some .s | some .o => true | _ => false)

/-! Requests at the home (R304, R305). -/

def State.snoop (s : State) (k : MsgKind) (sec r : Nat) (ds : List Nat) : State :=
  ds.foldl (fun s d => s.post { kind := k, src := homeOf (64 * sec), dst := d, sector := sec, requester := r }) s

/-- A transaction begins with its snoops (R305, R311). -/
def State.beginTxn (s : State) (t : Txn) : State := { s with txns := s.txns ++ [{ t with sent := s.now }] }

/-- ReadOwn, and an Upgrade whose requester holds nothing (R304). -/
def State.readOwnAt (s : State) (sec r : Nat) : State :=
  let others := (s.holders sec).filter (fun e => e.1 ≠ r)
  let xs := (others.filter (fun e => e.2 ≠ .s)).map (·.1)
  let ss := (others.filter (fun e => e.2 = .s)).map (·.1)
  if others.isEmpty then s.grantOwn sec r
  else
    let s := if xs.isEmpty then s else s.dropHome sec r
    ((s.snoop .fwdOwn sec r xs).snoop .inval sec r ss).beginTxn { sector := sec, kind := .readOwn, requester := r, acks := others.length }

/-- A request as the home serves it (R304). -/
def State.transact (s : State) (m : CMsg) : State :=
  let sec := m.sector
  let r := m.requester
  let hs := s.holders sec
  match m.kind with
  | .readShared => match (hs.filter (fun e => e.2 ≠ .s)).head? with
    | none => s.grantShared sec r
    | some x => (s.snoop .fwdShared sec r [x.1]).beginTxn { sector := sec, kind := .readShared, requester := r, acks := 1 }
  | .upgrade =>
    if s.upgradable sec r then
      let others := (hs.filter (fun e => e.1 ≠ r)).map (·.1)
      if others.isEmpty then s.grantUpgrade sec r
      else ((s.dropHome sec r).snoop .inval sec r others).beginTxn { sector := sec, kind := .upgrade, requester := r, acks := others.length }
    else s.readOwnAt sec r
  | _ => s.readOwnAt sec r

/-- A request that the home serves, or that waits: behind another for its sector, behind the requester's own WriteBack
or CleanEvict of it, or for a way of its set (R305, R309). -/
def State.serve (s : State) (m : CMsg) : State :=
  let line := m.sector / 4
  let wait (s : State) : State := { s with queued := s.queued ++ [m] }
  if s.inTxn m.sector || s.backInv.any (fun b => b.line == line) || s.queued.any (fun q => q.sector == m.sector) ||
    s.msgs.any (fun e => e.kind.isEvict && e.src == m.requester && e.sector == m.sector) then wait s
  else if m.requester ≠ m.dst ∧ s.wayFree line = false then wait (s.evictWay line)
  else s.transact m

/-- The requests that wait are tried again, in order. -/
def State.kick (s : State) : State := s.queued.foldl State.serve { s with queued := [] }

/-- A request at its home. -/
def State.request (s : State) (src home : Nat) (k : MsgKind) : State :=
  match s.headMsg src home k with
  | none => s
  | some m => (s.takeMsg m).serve m

/-- READ_SHARED. -/
def execReadShared (src home : Nat) (s : State) : Result := .next (s.request src home .readShared)

/-- READ_OWN. -/
def execReadOwn (src home : Nat) (s : State) : Result := .next (s.request src home .readOwn)

/-- UPGRADE. -/
def execUpgrade (src home : Nat) (s : State) : Result := .next (s.request src home .upgrade)

/-! Snoops (R304, R305): a die answers at once from the state its sector has. -/

/-- The acknowledgement of a snoop; `keep` is the state the die keeps where it has sent the data. -/
def State.ack (s : State) (m : CMsg) (sent : Bool) (keep : Option L2St) (dirty : Bool) : State :=
  s.post { kind := .invalAck, src := m.dst, dst := m.src, sector := m.sector, requester := m.requester, grant := keep, dirty := dirty, retain := sent }

/-- FWD_SHARED. -/
def State.fwdShared (s : State) (home die : Nat) : State :=
  match s.headMsg home die .fwdShared with
  | none => s
  | some m =>
    let s := s.takeMsg m
    match s.l2? die m.sector with
    | none => s.ack m false none false
    | some x =>
      let dirty : Bool := x.st = .m ∨ x.st = .o
      let keep : L2St := if dirty then .o else .s
      ((s.setL2 die m.sector { x with st := keep }).post { kind := if dirty then .dataDirty else .dataClean, src := die, dst := m.requester
                                                           sector := m.sector, requester := m.requester, grant := some .s, data := some x.data }).ack m true (some keep) dirty

def execFwdShared (home die : Nat) (s : State) : Result := .next (s.fwdShared home die)

/-- FWD_OWN. -/
def State.fwdOwn (s : State) (home die : Nat) : State :=
  match s.headMsg home die .fwdOwn with
  | none => s
  | some m =>
    let s := s.takeMsg m
    match s.l2? die m.sector with
    | none => s.ack m false none false
    | some x =>
      let dirty : Bool := x.st = .m ∨ x.st = .o
      ((s.dropL2 die m.sector).post { kind := if dirty then .dataDirty else .dataClean, src := die, dst := m.requester
                                      sector := m.sector, requester := m.requester, grant := some (if dirty then .m else .e), data := some x.data }).ack m true none dirty

def execFwdOwn (home die : Nat) (s : State) : Result := .next (s.fwdOwn home die)

/-- INVAL. -/
def State.inval (s : State) (home die : Nat) : State :=
  match s.headMsg home die .inval with
  | none => s
  | some m => ((s.takeMsg m).dropL2 die m.sector).ack m false none false

def execInval (home die : Nat) (s : State) : Result := .next (s.inval home die)

/-- BACK_INVAL (R309): the whole line goes; the answer carries its dirty sectors. -/
def State.backInval (s : State) (home die : Nat) : State :=
  match s.headMsg home die .backInval with
  | none => s
  | some m =>
    let s := s.takeMsg m
    let dirty := (upto 4).filterMap (fun i => (s.l2? die (m.sector + i)).bind (fun x => if x.st = .m ∨ x.st = .o then some (i, x.data) else none))
    let s := (upto 4).foldl (fun s i => s.dropL2 die (m.sector + i)) s
    s.post { kind := .backInvalAck, src := die, dst := home, sector := m.sector, dirty := !dirty.isEmpty, parts := dirty }

def execBackInval (home die : Nat) (s : State) : Result := .next (s.backInval home die)

/-! Responses. -/

/-- A transaction whose acknowledgements have all come (R304): the record, and the home's own answer where no holder has
sent the data. -/
def State.endTxn (s : State) (t : Txn) : State :=
  let s := { s with txns := s.txns.filter (fun (x : Txn) => x.sector ≠ t.sector) }
  let sec := t.sector
  let home := homeOf (64 * sec)
  let s := match t.kind with
    | .upgrade => s.grantUpgrade sec t.requester
    | .readShared =>
      if t.forwarded then
        (if t.requester = home then s else s.putHolders sec (Tbl.set (s.holders sec) t.requester .s))
      else s.grantShared sec t.requester
    | _ =>
      if t.forwarded then
        s.putHolders sec (ownRecord home t.requester (if t.dirty then .m else .e))
      else s.grantOwn sec t.requester
  (s.settleWrites t.requester sec).kick

/-- INVAL_ACK. -/
def State.invalAck (s : State) (die home : Nat) : State :=
  match s.headMsg die home .invalAck with
  | none => s
  | some m =>
    let s := s.takeMsg m
    match s.txns.find? (fun t => t.sector = m.sector) with
    | none => s
    | some t =>
      let s := match m.grant with
        | some st => s.putHolders m.sector (Tbl.set (s.holders m.sector) die (dirOf st))
        | none => s.dropHolder m.sector die
      let t2 := { t with acks := t.acks - 1, forwarded := t.forwarded || m.retain, dirty := t.dirty || m.dirty }
      let s := { s with txns := modifyFirst (fun (x : Txn) => x.sector = t.sector) (fun _ => t2) s.txns }
      if t2.acks = 0 then s.endTxn t2 else s

def execInvalAck (die home : Nat) (s : State) : Result := .next (s.invalAck die home)

/-- The state in which a die holds a sector granted to it: the home's copy is clean or dirty, or a copy beside a holder
of O (R300, R301). -/
def heldAs (home : Bool) (dirty : Bool) (g : L2St) : L2St :=
  if !home then g else match g with
    | .m => .dirty
    | .s => if dirty then .s else .clean
    | _ => .clean

/-- The answer to a request at the requester: the sector is installed, the victim's line leaves, and the writes that waited
follow (R304, R306, R307). -/
def State.data (s : State) (src die : Nat) (k : MsgKind) (victim : Option Nat) : State :=
  match s.headMsg src die k with
  | none => s
  | some m =>
    let s := (s.takeMsg m).answered die m.sector
    let s := match victim with
      | some v => if v / 4 = m.sector / 4 then s else s.evictLine die (v / 4)
      | none => s
    let g := heldAs (homeOf (64 * m.sector) == die) (k = .dataDirty) (m.grant.getD .s)
    let s := match m.data with
      | some d => s.fillL2 die m.sector { st := g, data := d, wrote := s.now }
      | none => match s.l2? die m.sector with
        | some x => s.setL2 die m.sector { x with st := g }
        | none => s
    (s.settleWrites die m.sector).kick

/-- DATA_CLEAN. -/
def execDataClean (src die : Nat) (victim : Option Nat) (s : State) : Result := .next (s.data src die .dataClean victim)

/-- DATA_DIRTY. -/
def execDataDirty (src die : Nat) (victim : Option Nat) (s : State) : Result := .next (s.data src die .dataDirty victim)

/-- Dirty bytes of a sector that come home: into the home's copy where it holds one, else into memory (R307). -/
def State.comeHome (s : State) (sec : Nat) (d : List Byte) : State :=
  let home := homeOf (64 * sec)
  match s.l2? home sec with
  | some x => s.setL2 home sec { x with st := .dirty, data := d }
  | none => { s with mem := writeBytes s.mem (64 * sec) d }

/-- WRITE_BACK (R307, R308). -/
def State.writeBack (s : State) (die home : Nat) : State :=
  match s.headMsg die home .writeBack with
  | none => s
  | some m =>
    let s := (s.takeMsg m).comeHome m.sector (m.data.getD [])
    let s := if !m.retain then s.dropHolder m.sector die
      else match Tbl.find? (s.holders m.sector) die with
        | some _ => s.putHolders m.sector (Tbl.set (s.holders m.sector) die (dirOf (m.grant.getD .s)))
        | none => s
    s.kick

def execWriteBack (die home : Nat) (s : State) : Result := .next (s.writeBack die home)

/-- CLEAN_EVICT (R307). -/
def State.cleanEvict (s : State) (die home : Nat) : State :=
  match s.headMsg die home .cleanEvict with
  | none => s
  | some m => ((s.takeMsg m).dropHolder m.sector die).kick

def execCleanEvict (die home : Nat) (s : State) : Result := .next (s.cleanEvict die home)

/-- A dirty sector of a BackInvalAck is written to memory; a copy at the home is then clean (R309). -/
def State.backDirty (s : State) (sec : Nat) (d : List Byte) : State :=
  let home := homeOf (64 * sec)
  let s := { s with mem := writeBytes s.mem (64 * sec) d }
  match s.l2? home sec with
  | some x => s.setL2 home sec { x with st := .clean, data := d }
  | none => s

/-- BACK_INVAL_ACK (R309): the dirty sectors go to memory, and the die leaves the line's record; after the last answer the
entry is free. -/
def State.backInvalAck (s : State) (die home : Nat) : State :=
  match s.headMsg die home .backInvalAck with
  | none => s
  | some m =>
    let s := m.parts.foldl (fun s p => s.backDirty (m.sector + p.1) p.2) (s.takeMsg m)
    let s := (upto 4).foldl (fun s i => s.dropHolder (m.sector + i) die) s
    let s := { s with backInv := (s.backInv.map (fun (b : BackInv) => if b.line = m.line then { b with left := b.left.filter (· ≠ die) } else b)).filter (fun b => !b.left.isEmpty) }
    s.kick

def execBackInvalAck (die home : Nat) (s : State) : Result := .next (s.backInvalAck die home)

/-- EARLY_CLEAN (R308): a dirty sector that has not been written for 4,096 clocks, and for which the die asks nothing. -/
def State.earlyClean (s : State) (die sec : Nat) : State :=
  match s.l2? die sec with
  | none => s
  | some x =>
    let home := homeOf (64 * sec)
    if s.now < x.wrote + 4096 ∨ s.asked.any (fun a => a.1 = die ∧ a.2.1 = sec) then s
    else match x.st with
      | .dirty => { s.setL2 die sec { x with st := .clean } with mem := writeBytes s.mem (64 * sec) x.data }
      | .m => (s.setL2 die sec { x with st := .e }).post { kind := .writeBack, src := die, dst := home, sector := sec, data := some x.data, retain := true, grant := some .e }
      | .o => (s.setL2 die sec { x with st := .s }).post { kind := .writeBack, src := die, dst := home, sector := sec, data := some x.data, retain := true, grant := some .s }
      | _ => s

def execEarlyClean (die sector : Nat) (s : State) : Result := .next (s.earlyClean die sector)

end Sys2Proof.Machine
end

