-- ==== Sys2Proof/Machine/Contain.lean ====
section
/-! DEFINITION. Fencing and spares (R445, R447), the replace request (R448), and errors that cannot be corrected (R446,
R261).
Readings logged: DEDUCED 63, 64, 65. -/

namespace Sys2Proof.Machine

/-! Capacity (R448). -/

def State.coresUp (s : State) : Nat := ((upto 256).filter s.coreEnabled).length

def State.arraysUp (s : State) : Nat := ((upto 512).filter (fun i => s.coreEnabled (i / 2) && !(s.arrayFenced (i / 2) (i % 2)))).length

/-- Enabled ways of a slice: 24 of 25, fenced ones replaced by the spare while it is whole (R445). -/
def State.waysUp (s : State) (die slice : Nat) : Nat := min 24 ((upto 25).filter (fun w => !(s.mapBit die (64 + 4 * slice) w))).length

/-- MiB of L2 in service. -/
def State.l2Up (s : State) : Nat := ((s.aliveDies.flatMap (fun d => (upto 16).map (s.waysUp d))).sum) / 2

/-- Sellable memory in chunks of 64 KiB. -/
def State.chunksUp (s : State) : Nat :=
  2 ^ 22 * s.aliveDies.length - (s.retiredChunks.filter (fun c => s.aliveDies.contains (homeOf (65536 * c)))).length

/-! REPLACE (R448). -/

/-- A REPLACE message to each management address that is set, and bit [3] of the state register. -/
def State.replace (s : State) (reason : Nat) : State :=
  let n := s.sb.replaceCount + 1
  let s := { s with sb := { s.sb with replace := true, replaceCount := n } }
  let body := toBytes 1 reason ++ toBytes 1 (maskOf s.aliveDies) ++ toBytes 2 s.coresUp ++ toBytes 2 s.arraysUp ++ toBytes 2 s.l2Up ++
    toBytes 4 s.chunksUp ++ toBytes 4 n ++ toBytes 16 0
  let port := 3 * (s.aliveDies.headD 0)
  ([s.sb.mgmt0, s.sb.mgmt1].filter (fun a => a != 0)).foldl (fun s a => s.send port 0 a 0 0x0A 0 body) s

/-! Spares. -/

/-- Whether the spare quad of a die is in use or fenced (R14, R445). -/
def State.spareGone (s : State) (die : Nat) : Bool :=
  match (upto 17).find? (fun p => bit (s.quadByte die p) 4) with
  | none => true
  | some r => s.quadFenced die r || (upto 16).any (fun q => s.physQuad die q == some r)

def State.rowsLeft (s : State) (die stack : Nat) : Nat :=
  let used := s.fieldByte die (160 + 4 * stack) + 256 * s.fieldByte die (161 + 4 * stack)
  (Tbl.get 0 s.fused (64 + 256 * die + 162 + 4 * stack)).toNat + 256 * (Tbl.get 0 s.fused (64 + 256 * die + 163 + 4 * stack)).toNat - used

/-- The spares that a die has left, kind by kind: quads, L2 ways, link lanes, memory rows. -/
def State.sparesLeft (s : State) (die : Nat) : List Nat :=
  [b2n (!(s.spareGone die)),
   ((upto 16).filter (fun i => !((upto 25).any (s.mapBit die (64 + 4 * i))))).length,
   192 - ((s.lanesUsed.filter (fun e => e.1 / 256 = die)).map (·.2)).sum,
   ((upto 4).map (s.rowsLeft die)).sum]

/-- Whether the last spare of a kind on some die has been used between two states. -/
def State.lastSpare (s t : State) : Bool :=
  s.aliveDies.any (fun d => ((s.sparesLeft d).zip (t.sparesLeft d)).any (fun e => e.1 != 0 && e.2 == 0))

/-- The replace requests that a change of state calls for: capacity that falls below what is sold, and the last spare
(R448). -/
def State.judgeCapacity (t s : State) : State :=
  let t1 := if (256 ≤ s.coresUp ∧ t.coresUp < 256) ∨ (2 ^ 24 ≤ s.chunksUp ∧ t.chunksUp < 2 ^ 24) then t.replace 1 else t
  if s.lastSpare t then t1.replace 4 else t1

/-! Fencing (R445, R447). -/

/-- A core's physical quad fenced: the spare takes its number where it is unused, and the quad's units are to park. -/
def State.fenceCore (s : State) (die phys : Nat) : State :=
  let p := phys / 4
  let s1 := s.fieldBit die 20 phys
  if s.quadFenced die p then s1
  else
    let carried := (upto 16).find? (fun q => s.physQuad die q == some p)
    let free := !(s.spareGone die)
    let spare := (upto 17).find? (fun r => bit (s.quadByte die r) 4)
    let s2 := s1.fieldUpdate die [(p, s1.fieldByte die p ||| 32)]
    match carried with
    | none => s2
    | some q =>
      let s3 := match spare with
        | some r => if free ∧ r ≠ p then s2.fieldUpdate die [(r, s2.fieldByte die r / 16 * 16 + q)] else s2
        | none => s2
      { s3 with units := s3.units.map (fun (u : RUnit) =>
          if u.core / 4 = 16 * die + q ∧ u.saved = false ∧ u.retired = false then { u with evicted := true } else u) }

/-- The sectors of a chunk poisoned (R323, R445). -/
def State.poisonSectors (s : State) (secs : List Nat) : State := { s with poison := s.poison ++ secs.filter (fun c => !(s.poison.contains c)) }

/-- A memory row: a spare takes it, or its chunk is retired. -/
def State.fenceRow (s : State) (die stack chunk : Nat) : State :=
  let o := 160 + 4 * stack
  if 0 < s.rowsLeft die stack then
    let used := s.fieldByte die o + 256 * s.fieldByte die (o + 1) + 1
    let left := s.rowsLeft die stack - 1
    s.fieldUpdate die [(o, used % 256), (o + 1, used / 256), (o + 2, left % 256), (o + 3, left / 256)]
  else if s.retiredChunks.contains chunk then s
  else
    let r := 176 + 4 * stack
    let n := (upto 4).foldl (fun n i => n + s.fieldByte die (r + i) * 256 ^ i) 0 + 1
    let s := s.fieldUpdate die ((upto 4).map (fun i => (r + i, n / 256 ^ i % 256)))
    ({ s with retiredChunks := s.retiredChunks ++ [chunk] } : State).poisonSectors ((upto 1024).map (fun i => 1024 * chunk + i))

/-- A lane of a port fenced; the port stops when both halves hold one. -/
def State.fenceLane (s : State) (port lane : Nat) : State :=
  let s := s.fieldBit (port / 3) (152 + port % 3) lane
  if s.halfFenced port 0 && s.halfFenced port 1 then s.updPort port (fun p => { p with stopped := true }) else s

/-- A unit fenced (R445). -/
def State.fence (s : State) (u : FenceUnit) : State :=
  match u with
  | .core die phys => s.fenceCore die phys
  | .array die phys a => s.fieldBit die 32 (2 * phys + a)
  | .l2way die slice way => s.fieldBit die (64 + 4 * slice) way
  | .module die partner m => s.fieldBit die (128 + 8 * bundleOf die partner) m
  | .portHalf port half => s.fenceLane port (4 * half)
  | .row die stack chunk => s.fenceRow die stack chunk

/-- The die of a unit. -/
def unitDie : FenceUnit → Nat
  | .core d _ | .array d _ _ | .l2way d _ _ | .module d _ _ | .row d _ _ => d
  | .portHalf p _ => p / 3

/-! Link lanes (R445). -/

/-- A failing lane of a link: a spare takes it, or its module or port half is fenced. -/
def State.laneFails (s : State) (l : LinkLane) : State :=
  match l with
  | .ethernet port lane => if 12 ≤ port ∨ 8 ≤ lane then s else s.fenceLane port lane
  | .ucie die partner m lane =>
    if 4 ≤ die ∨ 4 ≤ partner ∨ die = partner ∨ 16 ≤ m ∨ 68 ≤ lane then s
    else
      let key := 256 * die + 16 * partner + m
      let n := Tbl.get 0 s.lanesUsed key
      let o := 128 + 8 * bundleOf die partner
      if n < 4 then { s.fieldUpdate die [(o + 2, min 255 (s.fieldByte die (o + 2) + 1))] with lanesUsed := Tbl.set s.lanesUsed key (n + 1) }
      else s.fence (.module die partner m)

/-- LINK_LANE_FAILURE (R445, R448). -/
def execLinkLaneFailure (l : LinkLane) (s : State) : Result := .next ((s.laneFails l).judgeCapacity s)

/-! Uncorrectable errors (R446, R261). -/

/-- The lanes of a heat raise UNCORRECTABLE at their words. -/
def State.lanesFail (s : State) (key : HeatKey) (lanes : Nat) (regs : List Nat) : State :=
  match s.heat? key with
  | none => s
  | some h =>
    let ls := (h.lanesWhere (fun x => !(x.exited || x.parkedB))).filter (bit lanes)
    let s := ls.foldl (fun s l => (s.leaveQueues key l).updLane key l (fun x => { x with badRegs := nub (x.badRegs ++ regs) })) s
    s.trapLanes (ls.map (fun l => (key, l))) { cause := .uncorrectable }

/-- The physical core that carries a logical core. -/
def State.physCore (s : State) (core : Nat) : Option Nat := (s.physQuad (dieOf core) (core % 64 / 4)).map (fun p => 4 * p + core % 4)

/-- The card that an entry of a die's task queue belongs to: a card's own, or one of its tasks'. -/
def State.cardAt (s : State) (die entry : Nat) : Option Card :=
  s.cards.find? (fun c => c.entries.contains (die, entry) || c.tasks.any (fun t => t.2.die == die && t.2.entry == entry &&
    (match t.2.st with | .waiting | .queued | .retired => false | _ => true)))

/-- A directory entry that cannot be read: its M and O sectors are poisoned, and the line is back-invalidated. The home
reads an entry to serve a request, when no transaction on the line is in progress. -/
def State.entryFails (s : State) (line : Nat) : State :=
  if !(s.dirOrder.contains line) || s.lineInTxn line || s.backInv.any (fun b => b.line == line) then s
  else
    let s := s.poisonSectors (((upto 4).map (fun i => 4 * line + i)).filter (fun c => (s.holders c).any (fun e => e.2 = .m ∨ e.2 = .o)))
    let ds := s.lineHolders line
    let s := { s with backInv := s.backInv ++ [{ line := line, left := ds, sent := s.now }] }
    ds.foldl (fun s d => s.post { kind := .backInval, src := homeOf (256 * line), dst := d, sector := 4 * line }) s

/-- What an uncorrectable error does where it is found. -/
def State.errorAt (s : State) (e : ErrorAt) : State :=
  match e with
  | .lane key lanes regs =>
    (match s.heat? key with
      | none => s
      | some h =>
        let s := s.lanesFail key lanes regs
        match s.physCore h.core with
        | none => s
        | some p => s.fenceCore (dieOf h.core) p)
  | .memory sec => (s.poisonSectors [sec]).fenceRow (homeOf (64 * sec)) (sec / 64 % 4) (sec / 1024)
  | .l2 _ sec => s.poisonSectors [sec]
  | .card die entry => (match s.cardAt die entry with | some c => s.failCard c.id die | none => s)
  | .counter va ctx => (match s.taskAt ctx va with | some (c, _) => s.failCard c.id (s.counterDie ctx (c.dies.headD s.agentDie) va) | none => s)
  | .directory _ line => s.entryFails line
  | .array core a rows =>
    let s := s.updArray core (a == 1) (fun x => { x with
      badStat := x.badStat || rows.contains 256, badShadow := x.badShadow || rows.contains 257, badRows := nub (x.badRows ++ rows.filter (· < 256)) })
    match s.physCore core with
    | none => s
    | some p => s.fence (.array (dieOf core) p a)

/-- UNCORRECTABLE_ERROR. -/
def execUncorrectableError (e : ErrorAt) (s : State) : Result :=
  .next ((({ s with sb := { s.sb with uncorrected := min (s.sb.uncorrected + 1) (2 ^ 32 - 1) } } : State).errorAt e).judgeCapacity s)

/-- PATROL_SCRUB (R446): a sector read, and corrected where it holds a soft error; a corrected error has no visible effect
but its count. -/
def execPatrolScrub (sector : Nat) (corrected : Bool) (s : State) : Result :=
  .next (if corrected && sector < 2 ^ 34 then { s with sb := { s.sb with corrected := min (s.sb.corrected + 1) (2 ^ 32 - 1) } } else s)

end Sys2Proof.Machine
end

