-- ==== Sys2Proof/Machine/Journal.lean ====
section
/-! DEFINITION. The journal's saves (R436, R437) and the rollback of a kernel (R326, R327).
Readings logged: DEDUCED 62. -/

namespace Sys2Proof.Machine

/-! JOURNAL_SAVE (R437). -/

/-- The base of the journal segment of a die (R436). -/
def journalBase (c : Ctx) (die : Nat) : Nat := (c.trail + 204800 + 2 ^ 30 + die * 2 ^ 32) % 2 ^ 64

/-- The lowest free entry of a segment; none where there is none or the index cannot be reached (R437). -/
def State.freeSlot (s : State) (ctx die : Nat) : Option Nat :=
  ((upto 65536).drop 16).find? (fun i => match s.peek ctx die (journalIndex (s.ctx ctx) die i) .write with
    | .ok pa => !(s.poisoned pa 16) && s.viewNat die (pa + 10) 1 == 0
    | .error _ => false)

/-- Bytes written at virtual addresses by an agent of a die; none where a part of them faults. -/
def State.vwrite (s : State) (ctx die va : Nat) (bs : List Byte) : Option State :=
  match State.uetPages ctx die .write (cutPages va bs.length) s with
  | (none, _) => none
  | (some ps, s) => some (ps.foldl (fun (acc : State × List Byte) p => (acc.1.ownWrite die p.1 (acc.2.take p.2), acc.2.drop p.2)) (s, bs)).1

/-- An index entry (R436). -/
def indexEntry (chunk serial st : Nat) : List Byte := toBytes 8 (65536 * chunk) ++ toBytes 2 serial ++ toBytes 1 st ++ toBytes 5 0

/-- The pre-image of a chunk saved: the entry is taken as saving, the chunk copied, and the entry set to saved. -/
def State.saveChunk (s : State) (ctx serial chunk : Nat) : Option (Nat × State) :=
  let die := homeOf (65536 * chunk)
  match s.freeSlot ctx die with
  | none => none
  | some i =>
    let at_ := journalIndex (s.ctx ctx) die i
    match s.vwrite ctx die at_ (indexEntry chunk serial 1) with
    | none => none
    | some s => match s.vwrite ctx die ((journalBase (s.ctx ctx) die + 65536 * i) % 2 ^ 64) (s.viewRead die (65536 * chunk) 65536) with
      | none => none
      | some s => (s.vwrite ctx die at_ (indexEntry chunk serial 2)).map (fun s => (i, s))

/-- A kernel ceases to be journalled: its entries are freed (R437). -/
def State.unjournal (s : State) (ctx serial : Nat) : State :=
  let s := s.updKernel ctx serial (fun k => { k with lrec := { k.lrec with journalled := false } })
  let s := { s with heats := s.heats.map (fun (h : Heat) => if h.key.ctx = ctx ∧ h.key.serial = serial then { h with journal := false } else h) }
  s.freeJournal ctx serial

/-- JOURNAL_SAVE (R437): the save of a chunk ends, and the writes that waited for it go on. -/
def State.journalSave (s : State) (ctx chunk : Nat) : State :=
  match (s.ctx ctx).saves.find? (fun e => e.2 = chunk) with
  | none => s
  | some (serial, _) =>
    let s := match s.saveChunk ctx serial chunk with
      | none => s.unjournal ctx serial
      | some (i, s) => s.updCtx ctx (fun c => { c with saves := removeFirst (fun e => e = (serial, chunk)) c.saves, saved := c.saved ++ [(serial, chunk, i)] })
    s.retrySlots.serveFrames

/-- JOURNAL_SAVE. -/
def execJournalSave (ctx chunk : Nat) (s : State) : Result := .next (s.journalSave ctx chunk)

/-! Stopping a kernel (R325, R326). -/

/-- Every trace of a kernel's teams, tasks and cards goes; its lanes leave their colours by `f`. -/
def State.stopTeams (s : State) (k : Kernel) (f : State → HeatKey → Nat → State) : State :=
  let mine (x : HeatKey) : Bool := x.ctx == k.ctx && x.serial == k.serial
  let gone := s.cards.filter (fun c => c.ctx = k.ctx ∧ c.serial = k.serial)
  let s := { s with cards := s.cards.filter (fun (c : Card) => !(c.ctx = k.ctx ∧ c.serial = k.serial)) }
  let s := { s with groups := s.groups.filter (fun (g : Group) => !(gone.any (fun c => c.ctx == g.ctx && c.completion == g.obj)) ||
                                  s.cards.any (fun c => c.ctx == g.ctx && c.completion == g.obj)) }
  let s := (s.heats.filter (fun h => mine h.key)).foldl (fun s h => (upto h.lanes.length).foldl (fun s l => f s h.key l) s) s
  let s := s.dropTasks (fun c n => c == k.ctx && n == k.serial)
  let units := (s.units.filter (fun u => u.key.ctx = k.ctx ∧ u.key.serial = k.serial)).map (·.id)
  let s := { s with units := s.units.filter (fun (u : RUnit) => !(units.contains u.id)), heats := s.heats.filter (fun (h : Heat) => !(units.contains h.unit)) }
  let s := { s with reqs := s.reqs.filter (fun (r : Req) => !(mine r.key)), ops := s.ops.filter (fun (o : Op) => !(mine o.key)) }
  let s := { s with arrays := s.arrays.map (fun (a : Nat × MArray) => (a.1, { a.2 with q := a.2.q.filter (fun (o : MOp) => !(units.contains o.unit)) })) }
  { s with rels := s.rels.filter (fun (r : PendRel) => !((match r.val with | .rmw key _ => mine key | _ => false) ||
      (match r.colour with | some (key, _, _) => mine key | none => false))) }

/-- A kernel that is stopped and not rolled back: COMPLETE with status 2 (R325). -/
def State.stopKernel (s : State) (k : Kernel) : State :=
  (s.stopTeams k (fun s key l => s.killLane key l)).endKernel k.ctx k.serial 2

/-- The chunks of a kernel written back from their pre-images at their home dies through R304: how many are restored, and how
many lost (R326). -/
def State.restoreChunks (s : State) (ctx : Nat) (es : List (Nat × Nat × Nat)) : State × Nat × Nat :=
  es.foldl (fun acc e =>
    let (s, ok, lost) := acc
    let die := homeOf (65536 * e.2.1)
    if s.fencedDies.contains die then (s, ok, lost + 1)
    else match s.vread ctx die ((journalBase (s.ctx ctx) die + 65536 * e.2.2) % 2 ^ 64) 65536 with
      | (.ok bs, s) => (s.ownWrite die (65536 * e.2.1) bs, ok + 1, lost)
      | (.error _, s) => (s, ok, lost + 1)) (s, 0, 0)

/-- Every applied table of a context on some cores set to the sequences that its origins hold (R326, R453). -/
def State.levelApplied (s : State) (ctx : Nat) (p : Nat → Bool) : State :=
  s.updCtx ctx (fun c => { c with applied := ((upto 256).filter p).foldl (fun t core =>
    c.seqs.foldl (fun t e => Tbl.put 0 t (okey core e.1) e.2) t) c.applied })

/-- The rollback of a journalled kernel (R326, R327). -/
def State.rollback (s : State) (k : Kernel) : State :=
  let mine := (s.ctx k.ctx).saved.filter (fun e => e.1 = k.serial)
  let s := s.stopTeams k (fun s key l => s.handOnAll key l)
  let (s, ok, lost) := s.restoreChunks k.ctx mine
  let s := ({ s with l1 := [], l1Stream := [] } : State).levelApplied k.ctx (fun _ => true)
  let s := s.updKernel k.ctx k.serial (fun k => { k with st := .rolledBack, endMark := s.nid })
  let s := if k.lrec.debug then s.updCtx k.ctx (fun c => { c with saves := c.saves.filter (fun e => e.1 ≠ k.serial) }) else s.freeJournal k.ctx k.serial
  (s.send k.port k.half k.sender k.endpoint 0x05 k.tag (toBytes 2 k.serial ++ toBytes 1 (maskOf s.fencedDies) ++ toBytes 1 (b2n (lost != 0)) ++
    toBytes 4 ok ++ toBytes 4 lost ++ toBytes 4 0)).sweep

end Sys2Proof.Machine
end

