-- ==== Sys2Proof/Machine/DieLoss.lean ====
section
/-! DEFINITION. Losing a die (R320 to R328), its warm reset and its return (R451 to R453).
Readings logged: DEDUCED 61. -/

namespace Sys2Proof.Machine

/-! The fencing of a die (R322, R323). -/

/-- The sectors whose newest bytes a message carries. -/
def CMsg.newer (m : CMsg) : List Nat :=
  match m.kind with
  | .dataDirty | .writeBack => if m.data.isSome then [m.sector] else []
  | .backInvalAck => m.parts.map (fun p => m.sector + p.1)
  | _ => []

/-- The sectors of the survivors that a die held newer than memory: by its L2, by a message of its own that is lost, or by
the home's record of a grant of M that has not reached it (R323). -/
def State.heldDirty (s : State) (die : Nat) : List Nat :=
  let l2 := (s.l2.filter (fun e => e.1 / 2 ^ 34 = die ∧ (e.2.st = .m ∨ e.2.st = .o))).map (fun e => e.1 % 2 ^ 34)
  let ms := (s.msgs.filter (fun m => m.src = die ∨ m.dst = die)).flatMap CMsg.newer
  let rs := (s.dir.filter (fun e => match Tbl.find? e.2.holders die with | some .m | some .o => true | _ => false)).map (·.1)
  nub ((l2 ++ ms ++ rs).filter (fun c => homeOf (64 * c) ≠ die))

/-- Whether a transaction waits for a die's answer to its snoop (R304). -/
def State.awaits (s : State) (t : Txn) (die : Nat) : Bool :=
  t.requester != die && (match Tbl.find? (s.holders t.sector) die with
    | none => false
    | some st => t.kind != .readShared || st != .s)

/-- Whether a die's request for a sector is still without its answer. -/
def State.asking (s : State) (die sec : Nat) : Bool := s.asked.any (fun a => a.1 == die && a.2.1 == sec)

/-- A transaction once the messages of a lost die are gone: its requester has been answered by a holder, or the answer is
still under way, or it was lost and the home is to answer. -/
def State.judgeTxn (s : State) (t : Txn) : Txn :=
  let got := !(s.asking t.requester t.sector)
  let coming := t.forwarded && s.msgs.any (fun m => m.kind.isData && m.sector == t.sector && m.dst == t.requester)
  let newer : Bool := match s.l2? t.requester t.sector with | some x => x.st = .m | none => false
  { t with forwarded := t.kind != .upgrade && (got || coming), dirty := t.dirty || (got && newer) }

/-- The transactions of the survivors that wait for the die, with its acknowledgement taken as given. -/
def State.ackFor (s : State) (die : Nat) : State :=
  let s := { s with txns := s.txns.map s.judgeTxn }
  (s.txns.filter (fun t => s.awaits t die)).foldl (fun s t =>
    let s := s.dropHolder t.sector die
    let t2 := { t with acks := t.acks - 1 }
    let s := { s with txns := modifyFirst (fun (x : Txn) => x.sector = t.sector) (fun _ => t2) s.txns }
    if t2.acks = 0 then s.endTxn t2 else s) s

/-- The requests of survivors whose answers were lost with a die after the home had served them: the home's record of them
goes, and they are made again where a write or a lane still needs the sector (R322). -/
def State.askAgain (s : State) : State :=
  let live (r sec : Nat) : Bool := s.txns.any (fun t => t.requester == r && t.sector == sec) ||
    (s.msgs ++ s.queued).any (fun m => m.requester == r && m.sector == sec)
  (s.asked.filter (fun a => !(live a.1 a.2.1))).foldl (fun s a =>
    ((s.dropHolder a.2.1 a.1).answered a.1 a.2.1).settleWrites a.1 a.2.1) s

/-- The memory system without a die: bundles isolated, its copies and lines gone, what only it held poisoned (R322,
R323). -/
def State.isolate (s : State) (die : Nat) : State :=
  let lost := s.heldDirty die
  let home (c : Nat) : Bool := homeOf (64 * c) == die
  let dropMsgs (s : State) : State := { s with msgs := s.msgs.filter (fun (m : CMsg) => m.src ≠ die ∧ m.dst ≠ die ∧ m.requester ≠ die) }
  let s := dropMsgs s
  let s := { s with l2 := s.l2.filter (fun (e : Nat × L2Line) => e.1 / 2 ^ 34 ≠ die ∧ home (e.1 % 2 ^ 34) = false)
                    l1 := s.l1.filter (fun (e : Nat × List Byte) => dieOf (e.1 / 2 ^ 34) ≠ die)
                    l1Stream := s.l1Stream.filter (fun (x : Nat) => dieOf (x / 2 ^ 34) ≠ die)
                    rwq := s.rwq.filter (fun (e : Rwq) => e.die ≠ die ∧ homeOf e.pa ≠ die)
                    asked := s.asked.filter (fun (a : Nat × Nat × Nat) => a.1 ≠ die ∧ home a.2.1 = false)
                    txns := s.txns.filter (fun (t : Txn) => home t.sector = false ∧ t.requester ≠ die)
                    queued := s.queued.filter (fun (m : CMsg) => home m.sector = false ∧ m.requester ≠ die)
                    dir := s.dir.filter (fun (e : Nat × DirEntry) => home e.1 = false)
                    dirOrder := s.dirOrder.filter (fun (l : Nat) => homeOf (256 * l) ≠ die)
                    tlb := s.tlb.filter (fun (e : TlbE) => e.die ≠ die ∧ homeOf e.pa ≠ die) }
  let s := { s with backInv := ((s.backInv.filter (fun (b : BackInv) => homeOf (256 * b.line) ≠ die)).map (fun (b : BackInv) =>
      { b with left := b.left.filter (· ≠ die) })).filter (fun b => !b.left.isEmpty) }
  let s := dropMsgs (s.ackFor die)
  let s := s.dir.foldl (fun s e => s.dropHolder e.1 die) s
  ((s.poisonSectors lost).askAgain).kick

/-- The requests outstanding to a die end with UNCORRECTABLE in their lanes (R322). -/
def State.endRequests (s : State) (die : Nat) : State :=
  (s.reqs.filter (fun r => r.remote.isNone && r.accs.any (fun a => homeOf a.pa == die))).foldl (fun s r =>
    let bad := r.accs.filter (fun a => homeOf a.pa = die)
    let s := s.late bad .uncorrectable
    { s with reqs := s.reqs.filterMap (fun (q : Req) => if q.id = r.id then (if bad.length = r.accs.length then none else some { q with accs := q.accs.filter (fun (a : Acc) => homeOf a.pa ≠ die) }) else some q) }) s

/-- A die declared unresponsive: fenced, every kernel in flight stopped or rolled back, and the host told (R320 to R327,
R448). -/
def State.declare (s : State) (die : Nat) : State :=
  if 4 ≤ die ∨ s.fencedDies.contains die then s
  else
    let s := s.endRequests die
    let s := { s with fencedDies := s.fencedDies ++ [die], suspicions := s.suspicions.filter (fun (x : Suspicion) => x.target ≠ die ∧ x.by_ ≠ die)
                      bist := s.bist.filter (fun (t : Bist) => t.die ≠ die)
                      postings := s.postings.filter (fun (r : FRec) => r.die ≠ die), records := s.records.filter (fun (r : FRec) => r.die ≠ die) }
    let s := s.isolate die
    -- writes of the stopped kernels that are not performed are discarded (R70)
    let s := { s with rwq := [], rels := [] }
    let s := (s.kernels.filter (fun k => k.st = .running)).foldl (fun s k => if k.lrec.journalled then s.rollback k else s.stopKernel k) s
    s.replace 2

/-- Two dies unresponsive at once: no agreement, every kernel ends with status 2, and a replacement is asked for (R321). -/
def State.twoDown (s : State) (targets : List Nat) : State :=
  let s := { s with suspicions := s.suspicions.filter (fun (x : Suspicion) => !(targets.contains x.target)) }
  let s := (s.kernels.filter (fun k => k.st = .running)).foldl (fun s k => s.stopKernel k) s
  let s := (s.kernels.filter (fun k => k.st = .queued)).foldl (fun s k => s.endKernel k.ctx k.serial 2) s
  s.replace 2

/-! Suspicion and agreement (R320, R321, R452). -/

/-- The dies other than one. -/
def others (die : Nat) : List Nat := (upto 4).filter (· ≠ die)

def State.updSuspicion (s : State) (target : Nat) (f : Suspicion → Suspicion) : State :=
  { s with suspicions := modifyFirst (fun (x : Suspicion) => x.target = target) f s.suspicions }

/-- Whether a die has a request, a snoop or a back-invalidation to another whose last answer has not come within its bound
(R311). -/
def State.missed (s : State) (die target : Nat) : Bool :=
  let late (t : Nat) : Bool := t + 2 ^ 16 ≤ s.now
  s.asked.any (fun a => a.1 == die && homeOf (64 * a.2.1) == target && late a.2.2) ||
  s.txns.any (fun t => homeOf (64 * t.sector) == die && s.awaits t target && late t.sent) ||
  s.backInv.any (fun b => homeOf (256 * b.line) == die && b.left.contains target && late b.sent)

/-- The end of a suspicion once every die that can answer agrees: the die is declared, or two dies are unresponsive at
once (R320, R321, R452). -/
def State.judgeSuspicion (s : State) (target : Nat) : State :=
  match s.suspicions.find? (fun x => x.target = target) with
  | none => s
  | some x =>
    let missing := (others target).filter (fun d => !(x.agree.contains d))
    let down (d : Nat) : Bool := s.fencedDies.contains d || s.suspicions.any (fun y => y.target == d &&
      ((others d).filter (fun e => e != target)).all (fun e => y.agree.contains e || s.fencedDies.contains e))
    if missing.isEmpty then s.declare target
    else if missing.all down then s.twoDown (target :: missing)
    else s

/-- REQUEST_BOUND_MISS (R320): the die sends a suspicion, and itself agrees. -/
def State.suspect (s : State) (die target : Nat) : State :=
  if 4 ≤ die ∨ 4 ≤ target ∨ die = target ∨ s.fencedDies.contains die ∨ s.fencedDies.contains target ∨ s.missed die target = false then s
  else if s.suspicions.any (fun x => x.target == target) then
    (s.updSuspicion target (fun x => { x with agree := nub (x.agree ++ [die]), probes := Tbl.erase x.probes die })).judgeSuspicion target
  else ({ s with suspicions := s.suspicions ++ [{ target := target, by_ := die, agree := [die] }] } : State).judgeSuspicion target

/-- REQUEST_BOUND_MISS. -/
def execRequestBoundMiss (die target : Nat) (s : State) : Result := .next (s.suspect die target)

/-- SUSPICION (R320): the die that receives it probes the suspected die. -/
def State.probe (s : State) (die target : Nat) : State :=
  if 4 ≤ die ∨ die = target ∨ s.fencedDies.contains die then s
  else s.updSuspicion target (fun x => if x.agree.contains die || (Tbl.find? x.probes die).isSome then x else { x with probes := Tbl.set x.probes die s.now })

/-- SUSPICION. -/
def execSuspicion (die target : Nat) (s : State) : Result := .next (s.probe die target)

/-- PROBE_TIMEOUT (R320): no answer within 4,096 clocks counts as agreement. -/
def State.probeTimeout (s : State) (die target : Nat) : State :=
  match s.suspicions.find? (fun x => x.target = target) with
  | none => s
  | some x => match Tbl.find? x.probes die with
    | none => s
    | some t =>
      if s.now < t + 4096 then s
      else (s.updSuspicion target (fun x => { x with agree := nub (x.agree ++ [die]), probes := Tbl.erase x.probes die })).judgeSuspicion target

/-- PROBE_TIMEOUT. -/
def execProbeTimeout (die target : Nat) (s : State) : Result := .next (s.probeTimeout die target)

/-- PROBE_ANSWER (R321): the bundle between the suspecting die and the suspected one has failed, and the higher-numbered of
the two is declared. -/
def State.probeAnswer (s : State) (die target : Nat) : State :=
  match s.suspicions.find? (fun x => x.target = target) with
  | none => s
  | some x =>
    if (Tbl.find? x.probes die).isNone then s
    else ({ s with suspicions := s.suspicions.filter (fun (y : Suspicion) => y.target ≠ target) } : State).declare (max x.by_ target)

/-- PROBE_ANSWER. -/
def execProbeAnswer (die target : Nat) (s : State) : Result := .next (s.probeAnswer die target)

/-! Warm reset (R451 to R453). -/

/-- DIE_RESET (R451): a die other than 0 is held in reset; one still in service is declared first. With die 0 lost there
is no control processor to do it (R450). -/
def State.dieReset (s : State) (die : Nat) : State :=
  if die = 0 ∨ 4 ≤ die ∨ s.fencedDies.contains 0 ∨ s.resetting.contains die then s
  else
    let s := s.declare die
    { s with resetting := s.resetting ++ [die], sb := { s.sb with dieReset := s.sb.dieReset ||| 2 ^ die } }

/-- DIE_RESET. -/
def execDieReset (die : Nat) (s : State) : Result := .next (s.dieReset die)

/-- The fences of a die judged afresh (R445): those of its units and of its bundles' lanes go, and those that its
self-test finds take their place. -/
def State.refence (s : State) (die : Nat) (failing : List FenceUnit) : State :=
  let s := s.fieldUpdate die ((upto 256).map (fun i => (i, 0)))
  let s := { s with retiredChunks := s.retiredChunks.filter (fun (c : Nat) => homeOf (65536 * c) ≠ die)
                    lanesUsed := s.lanesUsed.filter (fun (e : Nat × Nat) => e.1 / 256 ≠ die ∧ e.1 / 16 % 16 ≠ die) }
  let s := (others die).foldl (fun s d => s.fieldUpdate d ((upto 8).map (fun i => (128 + 8 * bundleOf d die + i, 0)))) s
  let s := { s with sb := { s.sb with retrain := (portsOf die).foldl (fun w p => setFld w p 1 0) s.sb.retrain } }
  let s := (upto 3).foldl (fun s i => s.updPort (3 * die + i) (fun p => { p with stopped := false, split := bit s.sb.shape (3 * die + i), training := false })) s
  failing.foldl (fun s u => if unitDie u = die then s.fence u else s) s

/-- A die that rejoins (R453): empty memory and caches, and its unit fences as its self-test finds them. -/
def State.rejoin (s : State) (die : Nat) (failing : List FenceUnit) : State :=
  -- queues that still hold launches stay where they are until they empty
  let s := { s with ctxs := s.ctxs.map (fun (c : Nat × Ctx) => (c.1, { c.2 with queues := (upto 64).foldl (fun (t : Tbl LQueue) q =>
      if s.queueDie c.1 q ≠ die ∧ q % 4 = die ∧ s.queueLen c.1 q ≠ 0 then Tbl.set t q { (Tbl.get ({} : LQueue) t q) with moved := some (s.queueDie c.1 q) } else t) c.2.queues })) }
  let s := { s with mem := s.mem.filter (fun (e : Host.Cell) => homeOf e.1 ≠ die), poison := s.poison.filter (fun (c : Nat) => homeOf (64 * c) ≠ die)
                    fencedDies := s.fencedDies.filter (fun (d : Nat) => d ≠ die), resets := Tbl.put 0 s.resets die (Tbl.get 0 s.resets die + 1) }
  let s := s.refence die failing
  let s := (s.ctxs.filter (fun c => c.2.opened)).foldl (fun s c => s.levelApplied c.1 (fun core => dieOf core == die)) s
  { s with arrays := s.arrays.filter (fun (a : Nat × MArray) => dieOf (a.1 / 2) ≠ die) }

/-- DIE_REJOIN (R451, R453): a die whose self-test or bundles fail stays fenced; bit d clears either way. -/
def State.dieRejoin (s : State) (die : Nat) (ok : Bool) (failing : List FenceUnit) : State :=
  if !(s.resetting.contains die) || s.fencedDies.contains 0 then s
  else
    let s := { s with resetting := s.resetting.filter (fun (d : Nat) => d ≠ die), sb := { s.sb with dieReset := s.sb.dieReset &&& (15 - 2 ^ die) } }
    if !ok then s
    else
      let s0 := s.rejoin die failing
      let spares := s0.sparesLeft die
      let s := s0.replace 3
      if spares.any (· == 0) then s.replace 4 else s

/-- DIE_REJOIN. -/
def execDieRejoin (die : Nat) (ok : Bool) (failing : List FenceUnit) (s : State) : Result := .next (s.dieRejoin die ok failing)

end Sys2Proof.Machine
end

