-- ==== Sys2Proof/Machine/Deal.lean ====
section
/-! DEFINITION. Dealing (R359 to R364, R461): a task heat or team is placed on a core of the dealer's die and dealt a chunk
of ready tasks.
Readings logged: DEDUCED 66; DESIGN CHOICE 14. -/

namespace Sys2Proof.Machine

/-- What a task heat or team asks of a core (R359). -/
def Card.need (c : Card) : Need :=
  { budgets := List.replicate (if c.width = 2 then c.teamHeats else 1) c.budget, scratch := if c.width = 2 then c.scratch else 0, matrix := false }

/-- The ready tasks of a card that a die may deal: no dealer record of theirs is unfinished (R461). -/
def State.dealable (s : State) (c : Card) (die : Nat) : List Nat := (c.readyOn die).filter (fun i => !(s.dealerBusy c.id i))

/-- The heats of a budget that a core could still take. -/
def Occ.more (o : Occ) (budget : Nat) : Nat := ((o.heats.zip o.budget).map (fun p => min (12 - p.1) ((512 - p.2) / max budget 1))).sum

/-- The task heats of a card that its domain could still place (R361). -/
def State.roomFor (s : State) (c : Card) : Nat :=
  ((c.dies.filter (fun d => !(s.fencedDies.contains d))).flatMap (fun d => (coresOf d).map (fun k =>
    if s.whole k false && !(s.clearing k c.cls) then (s.occ k []).more c.budget else 0))).sum

/-- The size of a chunk (R361). -/
def chunkSize (n i width : Nat) : Nat := min (max 1 (ceilDiv n (2 * max 1 i))) (match width with | 0 => 32 | 1 => 8 | _ => 1)

/-- The card that a die's dealer takes, with its core and partitions (R361, R362). -/
def State.nextCard (s : State) (die : Nat) : Option (Card × Nat × List Nat) :=
  let can := s.cards.filterMap (fun c =>
    if c.failed || c.settled || (s.dealable c die).isEmpty then none else (s.bestCore [] c.cls die c.need).map (fun x => (c, x)))
  match leastBy id (can.map (fun x => x.1.cls)) with
  | none => none
  | some cls =>
    let mine := can.filter (fun x => x.1.cls = cls)
    let last := Tbl.get 0 s.lastDeal (4 * die + cls)
    match leastBy (fun x => x.1.id) (mine.filter (fun x => last < x.1.id)) with
    | some x => some x
    | none => leastBy (fun x => x.1.id) mine

/-- The argument records of a chunk read and kept (R26): the tasks that can be dealt; a read that fails posts a dealer record, and one
that meets an uncorrectable error fails the card (R51, R461). -/
def State.readArgs (die : Nat) (c : Card) : List Nat → State → List Nat × State
  | [], s => ([], s)
  | i :: is, s =>
    let va := c.args + c.recSize * i
    match s.vread c.ctx die va 16 with
    | (.ok b, s) => let (rest, s) := State.readArgs die c is (s.updTask c.id i (fun t => { t with args := b }))
      (i :: rest, s)
    | (.error .uncorrectable, s) => ([], s.failCard c.id die)
    | (.error x, s) => State.readArgs die c is (s.postDealer die { card := c.id, task := i } x va)

/-- The lowest team number that no task heat of a kernel holds (R360). -/
def State.taskTeam (s : State) (ctx serial : Nat) : Nat :=
  let held := (s.heats.filter (fun h => h.isTask ∧ h.key.ctx = ctx ∧ h.key.serial = serial)).map (·.key.team)
  ((upto (held.length + 1)).map (2 ^ 23 + ·)).find? (fun n => !(held.contains n)) |>.getD (2 ^ 23)

/-- A heat of a task team before its tasks start (R359, R360). -/
def taskHeat (s : State) (c : Card) (unit core team i part : Nat) : Heat :=
  let k := s.kernel? c.ctx c.serial
  { key := { ctx := c.ctx, serial := c.serial, team := team, heat := i }, core := core, part := part, unit := unit, leg := 0, role := 2
    budget := c.budget, cls := c.cls, heatn := c.need.budgets.length, lvix := [i], lanes := List.replicate 32 { st := .exited }, since := s.now
    service := (k.map (fun k => k.queue == 63)).getD false, debug := (k.map (fun k => k.lrec.debug)).getD false
    journal := (k.map (fun k => k.lrec.journalled)).getD false, usesTasks := true, isTask := true
    colours := (k.map (fun k => k.lrec.colourBase != 0)).getD false }

/-- The run of a task that is dealt (R364); its conflicts are counted from here (R370). -/
def State.dealRun (s : State) (c : Card) (core team i : Nat) (lane : Option Nat) (rest : List Nat) : State :=
  let t := c.task i
  let arec := c.args + c.recSize * i
  let tile := s.tileOf ((s.card? c.id).getD c) (dieOf core) i
  let id := s.nid
  let r : Run := { id := id, card := c.id, task := i, ctx := c.ctx, arec := arec, tile := tile, core := core, serial := c.serial, team := team
                   lane := lane, irrevocable := t.irrevocable, rest := rest, base := t.base.getD (fld (s.lapState c.ctx tile) 0 4) }
  let s := { s with nid := id + 1, runs := s.runs ++ [r] }
  let s := s.updTask c.id i (fun t => { t with st := .running id, conflicts := 0 })
  let s := s.startRun id (lane.isNone || lane == some 0)
  if r.irrevocable then s.awaitTokens id else s

/-- A chunk placed and dealt. -/
def State.dealChunk (s : State) (c : Card) (core : Nat) (parts tasks : List Nat) : State :=
  let team := s.taskTeam c.ctx c.serial
  let unit := s.nid
  let u : RUnit := { id := unit, key := { ctx := c.ctx, serial := c.serial, relay := team }, core := core, cls := c.cls, isTask := true
                     size := c.need.scratch, teams := [{ team := team, leg := 0, heats := parts.length }], started := true, placed := s.now }
  let hs := ((upto parts.length).zip parts).map (fun e => taskHeat s c unit core team e.1 e.2)
  let s := { s with nid := unit + 1, units := s.units ++ [u], heats := s.heats ++ hs }
  let s := s.updCard c.id (fun c => { c with ready := c.ready.filter (fun i => !(tasks.contains i)) })
  -- every task of the chunk is dealt now (R376)
  let s := tasks.foldl (fun s i => (s.updTask c.id i (fun t => { t with st := .dealt })).markRunning c.ctx (dieOf core) (c.args + c.recSize * i)) s
  match c.width, tasks with
  | 0, _ => ((upto tasks.length).zip tasks).foldl (fun s e => s.dealRun c core team e.2 (some e.1) []) s
  | _, [] => s
  | _, i :: rest => s.dealRun c core team i none rest

/-- DEAL. -/
def State.deal (s : State) (die : Nat) : State :=
  if s.fencedDies.contains die then s
  else match s.nextCard die with
    | none => s
    | some (c, core, parts) =>
      let s := { s with lastDeal := Tbl.set s.lastDeal (4 * die + c.cls) c.id }
      let n := (c.ready.filter (fun i => match (c.task i).st with | .ready .. => true | _ => false)).length
      let head := (s.dealable c die).take (chunkSize n (s.roomFor c) c.width)
      let (tasks, s) := State.readArgs die c head s
      if tasks.isEmpty then s else s.dealChunk c core parts tasks

/-- DEAL. -/
def execDeal (die : Nat) (s : State) : Result := .next (s.deal die)

end Sys2Proof.Machine
end

