-- ==== Sys2Proof/Machine/Bringup.lean ====
section
/-! DEFINITION. Boot (R449), port training (R16, R17) and the end of a self-test (R454, R455).
Readings logged: DEDUCED 67, 68. -/

namespace Sys2Proof.Machine

/-! POWER_GOOD (R449). -/

/-- The part before its self-test: everything as after power-on, the fuses and the nonvolatile store kept, the clocks
afresh (R434). -/
def State.cold (s : State) : State :=
  let field := s.nvField.filter (fun e => 3072 ≤ e.1)
  { State.reset with fused := s.fused, field := field, nvField := field, tap := s.tap, now := s.now, nid := s.nid, agenda := s.agenda
                     resets := (upto 4).foldl (fun t d => Tbl.put 0 t d (Tbl.get 0 t d + 1)) s.resets }

/-- POWER_GOOD: self-test fences what fails, the ports with a partner train, and the part is Ready (R449). -/
def State.powerGood (s : State) (failing : List FenceUnit) (partners : Nat) : State :=
  let s0 := s.cold
  let s1 := failing.foldl (fun s u => s.fence u) s0
  let s2 := { s1 with ports := (bitsOf partners 12).foldl (fun (t : Tbl Port) p => Tbl.set t p { (Tbl.get ({} : Port) t p) with trained := true }) s1.ports
                      sb := { s1.sb with state := 2 } }
  s2.judgeCapacity s0

/-- POWER_GOOD. -/
def execPowerGood (failing : List FenceUnit) (partners : Nat) (s : State) : Result := .next (s.powerGood failing partners)

/-! Ports (R17). -/

/-- The sideband answers while die 0 is in service (R450) and the part has started (R449). -/
def State.sbUp (s : State) : Bool := !(s.fencedDies.contains 0) && s.sb.state != 0

/-- Training of ports begins: they carry no traffic until it ends (R17). -/
def State.retrain (s : State) (mask : Nat) : State :=
  let s := (bitsOf mask 12).foldl (fun s p => s.updPort p (fun x => { x with training := true })) s
  { s with sb := { s.sb with retrain := s.sb.retrain ||| mask % 4096 } }

/-- PORT_RETRAIN (R17, R459). -/
def execPortRetrain (mask : Nat) (s : State) : Result := .next (if s.sbUp then s.retrain mask else s)

/-- PORT_TRAINING_DONE (R17): the port takes the shape that the register then holds, where both its halves are whole. -/
def State.trainingDone (s : State) (port : Nat) : State :=
  if 12 ≤ port ∨ (s.port port).training = false then s
  else
    let s := s.updPort port (fun x => { x with trained := true, training := false, split := bit s.sb.shape port && !(s.halfFenced port 0) && !(s.halfFenced port 1) })
    { s with sb := { s.sb with retrain := s.sb.retrain &&& (4095 - 2 ^ port) } }

/-- PORT_TRAINING_DONE. -/
def execPortTrainingDone (port : Nat) (s : State) : Result := .next (s.trainingDone port)

/-! BIST_DONE (R454, R455). -/

/-- The unit that a selector names (R454). -/
def selUnit (sel : Nat) : Option FenceUnit :=
  let die := fld sel 0 2
  let ix := fld sel 5 7
  let sub := fld sel 12 5
  match fld sel 2 3 with
  | 0 => some (.core die ix)
  | 1 => some (.array die ix sub)
  | 2 => some (.l2way die ix sub)
  | 3 => some (.module die ix sub)
  | 4 => some (.portHalf (3 * die + ix) sub)
  | _ => none

/-- The result record of a self-test (R455). -/
def bistRecord (t : Bist) (pass : Bool) (failing duration first : Nat) : List Byte :=
  toBytes 8 (1 + 2 * b2n pass + t.alg % 16 * 256 + min failing (2 ^ 32 - 1) * 2 ^ 32) ++ toBytes 4 t.sel ++ toBytes 4 duration ++
  toBytes 8 (if pass then 2 ^ 64 - 1 else first) ++ toBytes 40 0

/-- BIST_DONE: the record is written, and a unit that fails and is spare or unused is fenced. -/
def State.bistDone (s : State) (die : Nat) (pass : Bool) (failing duration first : Nat) : State :=
  match s.bist.find? (fun t => t.die = die) with
  | none => s
  | some t =>
    let s := { s with bist := s.bist.filter (fun (x : Bist) => x.die ≠ die) }
    let s := match s.agentAt t.ctx die t.va .write with
      | (.error _, s) => s
      | (.ok pa, s) => if (s.ctx t.ctx).opened then s.ownWrite die pa (bistRecord t pass failing duration first) else s
    if pass || s.outOfService t.sel != some true then s
    else match selUnit t.sel with
      | none => s
      | some u => (s.fence u).judgeCapacity s

/-- BIST_DONE. -/
def execBistDone (die : Nat) (pass : Bool) (failing duration first : Nat) (s : State) : Result :=
  .next (s.bistDone die pass failing duration first)

end Sys2Proof.Machine
end

