-- ==== Sys2Proof/Machine/Float.lean ====
section
/-! DEFINITION. Floating-point and packed BF16 instructions (R176 to R183). -/

namespace Sys2Proof.Machine

/-- FADD (R176). -/
def execFadd (c : Com) (r : Rnd) (sat : Bool) (d : Dst) (a b : Src) (rb : Option Src) (s : State) : Result :=
  issue (.fadd c r sat d a b rb) s (fun e w =>
    e.compute false d (fun l => fmtF32.add r (e.rb rb l) sat (e.srcT .f32 a l) (e.srcT .f32 b l)) w)

/-- FSUB (R176). -/
def execFsub (c : Com) (r : Rnd) (sat : Bool) (d : Dst) (a b : Src) (rb : Option Src) (s : State) : Result :=
  issue (.fsub c r sat d a b rb) s (fun e w =>
    e.compute false d (fun l => fmtF32.sub r (e.rb rb l) sat (e.srcT .f32 a l) (e.srcT .f32 b l)) w)

/-- FMUL (R176). -/
def execFmul (c : Com) (r : Rnd) (sat : Bool) (d : Dst) (a b : Src) (rb : Option Src) (s : State) : Result :=
  issue (.fmul c r sat d a b rb) s (fun e w =>
    e.compute false d (fun l => fmtF32.mul r (e.rb rb l) sat (e.srcT .f32 a l) (e.srcT .f32 b l)) w)

/-- FFMA (R176). -/
def execFfma (c : Com) (r : Rnd) (sat : Bool) (d : Dst) (a b z : Src) (s : State) : Result :=
  issue (.ffma c r sat d a b z) s (fun e w =>
    e.compute false d (fun l => fmtF32.fma r 0 sat (e.srcT .f32 a l) (e.srcT .f32 b l) (e.srcT .f32 z l)) w)

/-- FDIV (R176). -/
def execFdiv (c : Com) (r : Rnd) (sat : Bool) (d : Dst) (a b : Src) (rb : Option Src) (s : State) : Result :=
  issue (.fdiv c r sat d a b rb) s (fun e w =>
    e.compute false d (fun l => fmtF32.div r (e.rb rb l) sat (e.srcT .f32 a l) (e.srcT .f32 b l)) w)

/-- A function of one FP32 operand, its result rounded (R154, R176, R181). -/
def fn1 (r : Rnd) (rb : Nat) (sat : Bool) (f : FV → FV × Nat) (x : Nat) : Nat × Nat :=
  let v := fmtF32.decode x
  fmtF32.result r rb sat [v] (f v)

/-- FSQRT (R176). -/
def execFsqrt (c : Com) (r : Rnd) (sat : Bool) (d : Dst) (a : Src) (rb : Option Src) (s : State) : Result :=
  issue (.fsqrt c r sat d a rb) s (fun e w =>
    e.compute false d (fun l => fn1 r (e.rb rb l) sat sqrtV (e.srcT .f32 a l)) w)

/-- FMIN (R177). -/
def execFmin (c : Com) (nan : Bool) (d : Dst) (a b : Src) (s : State) : Result :=
  issue (.fmin c nan d a b) s (fun e w =>
    e.compute false d (fun l => fmtF32.minMax false nan (e.srcT .f32 a l) (e.srcT .f32 b l)) w)

/-- FMAX (R177). -/
def execFmax (c : Com) (nan : Bool) (d : Dst) (a b : Src) (s : State) : Result :=
  issue (.fmax c nan d a b) s (fun e w =>
    e.compute false d (fun l => fmtF32.minMax true nan (e.srcT .f32 a l) (e.srcT .f32 b l)) w)

/-- The sign operations (R178). -/
def signOf (op : SignOp) (x y : Nat) : Nat :=
  x % 2 ^ 31 + 2 ^ 31 * b2n (match op with
    | .abs => false
    | .neg => !(bit x 31)
    | .copy => bit y 31
    | .xor => bit x 31 != bit y 31)

/-- FSIGN (R178). -/
def execFsign (c : Com) (op : SignOp) (d : Dst) (a : Src) (b : Option Src) (s : State) : Result :=
  issue (.fsign c op d a b) s (fun e w =>
    e.compute false d (fun l => (signOf op (e.srcT .f32 a l) (match b with | none => 0 | some b => e.srcT .f32 b l), 0)) w)

/-- FRCP (R181). -/
def execFrcp (c : Com) (d : Dst) (a : Src) (s : State) : Result :=
  issue (.frcp c d a) s (fun e w =>
    e.compute false d (fun l => fn1 .rn 0 false (divV (.fin false 1 0 false)) (e.srcT .f32 a l)) w)

/-- FRSQ (R181). -/
def execFrsq (c : Com) (d : Dst) (a : Src) (s : State) : Result :=
  issue (.frsq c d a) s (fun e w => e.compute false d (fun l => fn1 .rn 0 false rsqrtV (e.srcT .f32 a l)) w)

/-- 2^x with its special values (R181). -/
def exp2Fn (x : FV) : FV × Nat :=
  match x with
  | .nan s => (.nan s, 0)
  | .inf n => (if n then .fin false 0 0 false else .inf false, 0)
  | .fin n m e _ =>
    if m = 0 then (.fin false 1 0 false, 0)
    else
      let top := (m.log2 : Int) + e
      if 8 ≤ top then (if n then (.fin false 0 0 false, fUF ||| fIX) else (.inf false, fOF ||| fIX))
      else if !n && 7 ≤ top then (.inf false, fOF ||| fIX)
      else if n && 7 ≤ top && 150 ≤ m * 2 ^ (e + 30).toNat / 2 ^ 30 then (.fin false 0 0 false, fUF ||| fIX)
      else (exp2V n m e, 0)

/-- FEXP2 (R181). -/
def execFexp2 (c : Com) (d : Dst) (a : Src) (s : State) : Result :=
  issue (.fexp2 c d a) s (fun e w => e.compute false d (fun l => fn1 .rn 0 false exp2Fn (e.srcT .f32 a l)) w)

/-- log2 x with its special values (R154, R181). -/
def log2Fn (x : FV) : FV × Nat :=
  match x with
  | .nan s => (.nan s, 0)
  | .inf n => if n then (.nan false, fIV) else (.inf false, 0)
  | .fin n m e _ => if m = 0 then (.inf true, fDZ) else if n then (.nan false, fIV) else (log2V m e, 0)

/-- FLOG2 (R181). -/
def execFlog2 (c : Com) (d : Dst) (a : Src) (s : State) : Result :=
  issue (.flog2 c d a) s (fun e w => e.compute false d (fun l => fn1 .rn 0 false log2Fn (e.srcT .f32 a l)) w)

/-- tanh x with its special values (R181). -/
def tanhFn (x : FV) : FV × Nat :=
  match x with
  | .nan s => (.nan s, 0)
  | .inf n => (.fin n 1 0 false, 0)
  | .fin n m e _ => (if m = 0 then .fin n 0 0 false else tanhV n m e, 0)

/-- FTANH (R181). -/
def execFtanh (c : Com) (d : Dst) (a : Src) (s : State) : Result :=
  issue (.ftanh c d a) s (fun e w => e.compute false d (fun l => fn1 .rn 0 false tanhFn (e.srcT .f32 a l)) w)

/-- FCLASS (R179). -/
def execFclass (c : Com) (t : Ty) (d : Dst) (a : Src) (s : State) : Result :=
  issue (.fclass c t d a) s (fun e w => e.compute false d (fun l => ((fmtOf t).classOf (e.srcT t a l), 0)) w)

/-- FRND of one value (R180). -/
def frndOf (r : Rnd) (rb : Nat) (exact : Bool) (x : Nat) : Nat × Nat :=
  match fmtF32.decode x with
  | .nan sig => (fmtF32.nan, nanFlags [.nan sig])
  | .inf _ => (x % 2 ^ 32, 0)
  | .fin n m e _ =>
    if m = 0 then (x % 2 ^ 32, 0)
    else
      let (y, inexact) := roundInt r rb n m e
      ((fmtF32.round .rn 0 false n y 0 false).1, b2n (exact && inexact) * fIX)

/-- FRND (R180). -/
def execFrnd (c : Com) (r : Rnd) (exact : Bool) (d : Dst) (a : Src) (rb : Option Src) (s : State) : Result :=
  issue (.frnd c r exact d a rb) s (fun e w =>
    e.compute false d (fun l => frndOf r (e.rb rb l) exact (e.srcT .f32 a l)) w)

/-- Both elements of a packed operation, y crossed or not (R182). -/
def packed (cross : Bool) (f : Nat → Nat → Nat → Nat × Nat) (x y : Nat) : Nat × Nat :=
  let p := f 0 (fld x 0 16) (fld y (if cross then 16 else 0) 16)
  let q := f 1 (fld x 16 16) (fld y (if cross then 0 else 16) 16)
  (p.1 + q.1 * 2 ^ 16, p.2 ||| q.2)

/-- PKADD (R182). -/
def execPkadd (c : Com) (r : Rnd) (sat cross : Bool) (d : Dst) (a b : Src) (rb : Option Src) (s : State) : Result :=
  issue (.pkadd c r sat cross d a b rb) s (fun e w =>
    e.compute false d (fun l => packed cross (fun j x y => fmtBf16.add r (rbits (e.rb rb l) j) sat x y) (e.srcT .bf16 a l) (e.srcT .bf16 b l)) w)

/-- PKMUL (R182). -/
def execPkmul (c : Com) (r : Rnd) (sat cross : Bool) (d : Dst) (a b : Src) (rb : Option Src) (s : State) : Result :=
  issue (.pkmul c r sat cross d a b rb) s (fun e w =>
    e.compute false d (fun l => packed cross (fun j x y => fmtBf16.mul r (rbits (e.rb rb l) j) sat x y) (e.srcT .bf16 a l) (e.srcT .bf16 b l)) w)

/-- PKFMA (R182). -/
def execPkfma (c : Com) (r : Rnd) (sat cross : Bool) (d : Dst) (a b z : Src) (s : State) : Result :=
  issue (.pkfma c r sat cross d a b z) s (fun e w =>
    e.compute false d (fun l => packed cross (fun j x y => fmtBf16.fma r 0 sat x y (fld (e.srcT .bf16 z l) (16 * j) 16)) (e.srcT .bf16 a l) (e.srcT .bf16 b l)) w)

/-- PKMNX (R183). -/
def execPkmnx (c : Com) (op : MnxOp) (cross : Bool) (d : Dst) (a b : Src) (s : State) : Result :=
  issue (.pkmnx c op cross d a b) s (fun e w =>
    e.compute false d (fun l => packed cross (fun _ x y => fmtBf16.minMax (op = .max ∨ op = .maxnan) (op = .minnan ∨ op = .maxnan) x y)
      (e.srcT .bf16 a l) (e.srcT .bf16 b l)) w)

end Sys2Proof.Machine
end

