-- ==== Sys2Proof/Machine/Integer.lean ====
section
/-! DEFINITION. Integer instructions (R168 to R175). -/

namespace Sys2Proof.Machine

/-- The width of a type (R168). -/
def tyW (t : Ty) : Nat := if t.wide then 64 else 32

/-- The least and greatest values of an integer type (R108). -/
def tyMin (t : Ty) : Int := if t.signed then -(2 ^ (tyW t - 1) : Nat) else 0
def tyMax (t : Ty) : Int := if t.signed then (2 ^ (tyW t - 1) : Nat) - 1 else (2 ^ tyW t : Nat) - 1

/-- sat() of R108. -/
def satTo (t : Ty) (z : Int) : Int := min (max z (tyMin t)) (tyMax t)

/-- A source as an integer of its type. -/
def Env.int (e : Env) (t : Ty) (x : Src) (l : Nat) : Int := asInt t (e.srcT t x l)

/-- An integer result kept in the low bits, or saturated with SAT (R168). -/
def intResult (t : Ty) (sat : Bool) (v : Int) : Nat × Nat :=
  if sat && v ≠ satTo t v then (low (tyW t) (satTo t v), fSAT) else (low (tyW t) v, 0)

/-- IADD (R168). -/
def execIadd (c : Com) (t : Ty) (sat : Bool) (d : Dst) (a b : Src) (s : State) : Result :=
  issue (.iadd c t sat d a b) s (fun e w => e.compute t.wide d (fun l => intResult t sat (e.int t a l + e.int t b l)) w)

/-- ISUB (R168). -/
def execIsub (c : Com) (t : Ty) (sat : Bool) (d : Dst) (a b : Src) (s : State) : Result :=
  issue (.isub c t sat d a b) s (fun e w => e.compute t.wide d (fun l => intResult t sat (e.int t a l - e.int t b l)) w)

/-- IMUL (R168). -/
def execImul (c : Com) (t : Ty) (m : MulMode) (d : Dst) (a b : Src) (s : State) : Result :=
  issue (.imul c t m d a b) s (fun e w => e.compute (t.wide || m = .wide) d (fun l =>
    let v := e.int t a l * e.int t b l
    (match m with
      | .low => low (tyW t) v
      | .hi => low (tyW t) (v / (2 ^ tyW t : Nat))
      | .wide => low 64 v, 0)) w)

/-- The 64-bit type of the signedness of a 32-bit one (R168). -/
def widened (t : Ty) : Ty := if t.signed then .s64 else .n64

/-- IMAD (R168). -/
def execImad (c : Com) (t : Ty) (wide : Bool) (d : Dst) (a b z : Src) (s : State) : Result :=
  issue (.imad c t wide d a b z) s (fun e w => e.compute (t.wide || wide) d (fun l =>
    let v := e.int t a l * e.int t b l + e.int (if wide then widened t else t) z l
    (low (if wide then 64 else tyW t) v, 0)) w)

/-- Quotient and remainder of IDIV (R169). -/
def divide (rem : Bool) (x y : Int) : Int :=
  if y = 0 then (if rem then x else -1) else if rem then x.tmod y else x.tdiv y

/-- IDIV (R169). -/
def execIdiv (c : Com) (t : Ty) (rem : Bool) (d : Dst) (a b : Src) (s : State) : Result :=
  issue (.idiv c t rem d a b) s (fun e w => e.compute t.wide d (fun l => (low (tyW t) (divide rem (e.int t a l) (e.int t b l)), 0)) w)

/-- IMIN (R168). -/
def execImin (c : Com) (t : Ty) (d : Dst) (a b : Src) (s : State) : Result :=
  issue (.imin c t d a b) s (fun e w => e.compute t.wide d (fun l => (low (tyW t) (min (e.int t a l) (e.int t b l)), 0)) w)

/-- IMAX (R168). -/
def execImax (c : Com) (t : Ty) (d : Dst) (a b : Src) (s : State) : Result :=
  issue (.imax c t d a b) s (fun e w => e.compute t.wide d (fun l => (low (tyW t) (max (e.int t a l) (e.int t b l)), 0)) w)

/-- IABS (R168). -/
def execIabs (c : Com) (t : Ty) (sat : Bool) (d : Dst) (a : Src) (s : State) : Result :=
  issue (.iabs c t sat d a) s (fun e w => e.compute t.wide d (fun l => intResult t sat ((e.int t a l).natAbs : Nat)) w)

/-- AND (R168). -/
def execAnd (c : Com) (t : Ty) (d : Dst) (a b : Src) (s : State) : Result :=
  issue (.and c t d a b) s (fun e w => e.compute t.wide d (fun l => (e.srcT t a l &&& e.srcT t b l, 0)) w)

/-- OR (R168). -/
def execOr (c : Com) (t : Ty) (d : Dst) (a b : Src) (s : State) : Result :=
  issue (.or c t d a b) s (fun e w => e.compute t.wide d (fun l => (e.srcT t a l ||| e.srcT t b l, 0)) w)

/-- XOR (R168). -/
def execXor (c : Com) (t : Ty) (d : Dst) (a b : Src) (s : State) : Result :=
  issue (.xor c t d a b) s (fun e w => e.compute t.wide d (fun l => (e.srcT t a l ^^^ e.srcT t b l, 0)) w)

/-- A rotation to the left of an n-bit pattern. -/
def rotl (n x k : Nat) : Nat := (x * 2 ^ (k % n) + x / 2 ^ (n - k % n)) % 2 ^ n

/-- SHL of a pattern (R170). -/
def shlOf (t : Ty) (rot : Bool) (x k : Nat) : Nat :=
  if rot then rotl (tyW t) x k else if tyW t ≤ k then 0 else x * 2 ^ k % 2 ^ tyW t

/-- SHR of a pattern (R170). -/
def shrOf (t : Ty) (rot : Bool) (x k : Nat) : Nat :=
  if rot then rotl (tyW t) x (tyW t - k % tyW t)
  else if t.signed then low (tyW t) (sext x (tyW t) / (2 ^ min k (tyW t) : Nat))
  else if tyW t ≤ k then 0 else x / 2 ^ k

/-- SHL (R170). -/
def execShl (c : Com) (t : Ty) (rot : Bool) (d : Dst) (a b : Src) (s : State) : Result :=
  issue (.shl c t rot d a b) s (fun e w => e.compute t.wide d (fun l => (shlOf t rot (e.srcT t a l) (e.src32 b l), 0)) w)

/-- SHR (R170). -/
def execShr (c : Com) (t : Ty) (rot : Bool) (d : Dst) (a b : Src) (s : State) : Result :=
  issue (.shr c t rot d a b) s (fun e w => e.compute t.wide d (fun l => (shrOf t rot (e.srcT t a l) (e.src32 b l), 0)) w)

/-- BFX of a pattern (R171). -/
def bfxOf (t : Ty) (x ctl : Nat) : Nat :=
  let n := tyW t
  let pos := fld ctl 0 8
  let len := min (fld ctl 8 8) n
  if len = 0 then 0
  else
    let f := if t.signed then low len (sext x n / (2 ^ pos : Nat)) else fld (x % 2 ^ n) pos len
    if t.signed then low n (sext f len) else f

/-- BFI of two patterns (R171). -/
def bfiOf (t : Ty) (x y ctl : Nat) : Nat :=
  let n := tyW t
  let pos := fld ctl 0 8
  let len := min (fld ctl 8 8) n
  if n ≤ pos || len = 0 then x else setFld x pos (min (pos + len) n - pos) y

/-- BFX (R171). -/
def execBfx (c : Com) (t : Ty) (d : Dst) (a ctl : Src) (s : State) : Result :=
  issue (.bfx c t d a ctl) s (fun e w => e.compute t.wide d (fun l => (bfxOf t (e.srcT t a l) (e.src32 ctl l), 0)) w)

/-- BFI (R171). -/
def execBfi (c : Com) (t : Ty) (d : Dst) (a b ctl : Src) (s : State) : Result :=
  issue (.bfi c t d a b ctl) s (fun e w => e.compute t.wide d (fun l => (bfiOf t (e.srcT t a l) (e.srcT t b l) (e.src32 ctl l), 0)) w)

/-- The number of set bits (R172). -/
def popcOf (n x : Nat) : Nat := (bitsOf x n).length

/-- The number of leading zeros (R172). -/
def clzOf (n x : Nat) : Nat := if x % 2 ^ n = 0 then n else n - 1 - (x % 2 ^ n).log2

/-- The bits in reverse order (R172). -/
def brevOf : Nat → Nat → Nat
  | 0, _ => 0
  | n + 1, x => x % 2 * 2 ^ n + brevOf n (x / 2)

/-- POPC (R172). -/
def execPopc (c : Com) (t : Ty) (d : Dst) (a : Src) (s : State) : Result :=
  issue (.popc c t d a) s (fun e w => e.compute t.wide d (fun l => (popcOf (tyW t) (e.srcT t a l), 0)) w)

/-- CLZ (R172). -/
def execClz (c : Com) (t : Ty) (d : Dst) (a : Src) (s : State) : Result :=
  issue (.clz c t d a) s (fun e w => e.compute t.wide d (fun l => (clzOf (tyW t) (e.srcT t a l), 0)) w)

/-- BREV (R172). -/
def execBrev (c : Com) (t : Ty) (d : Dst) (a : Src) (s : State) : Result :=
  issue (.brev c t d a) s (fun e w => e.compute t.wide d (fun l => (brevOf (tyW t) (e.srcT t a l), 0)) w)

/-- SEL (R173). -/
def execSel (c : Com) (t : Ty) (d : Dst) (a b : Src) (p : PSrc) (s : State) : Result :=
  issue (.sel c t d a b p) s (fun e w => e.compute t.wide d (fun l => (if (e.h.lane l).ps p then e.srcT t a l else e.srcT t b l, 0)) w)

/-- MOV (R173). -/
def execMov (c : Com) (t : Ty) (d : Dst) (a : Src) (s : State) : Result :=
  issue (.mov c t d a) s (fun e w => e.compute t.wide d (fun l => (e.srcT t a l, 0)) w)

/-- The low half of a destination that MOVI .hi keeps (R173). -/
def Heat.lowHalf (h : Heat) (l : Nat) : Dst → Nat
  | .v n => (h.lane l).v32 n
  | .k n => h.k64 n % 2 ^ 32

/-- MOVI (R173). -/
def execMovi (c : Com) (t : Ty) (hi : Bool) (d : Dst) (imm : Nat) (s : State) : Result :=
  issue (.movi c t hi d imm) s (fun e w => e.compute t.wide d (fun l =>
    (if hi then imm * 2 ^ 32 + e.h.lowHalf l d else if t = .s64 then low 64 (sext imm 32) else imm, 0)) w)

/-- ADDI (R173): the immediate is read as an inline integer of the type. -/
def execAddi (c : Com) (t : Ty) (sat : Bool) (d : Dst) (a : Src) (imm : Int) (s : State) : Result :=
  issue (.addi c t sat d a imm) s (fun e w => e.compute t.wide d (fun l =>
    intResult t sat (e.int t a l + asInt t (low (tyW t) imm))) w)

/-- LEA (R174). -/
def execLea (c : Com) (sg : Bool) (sh : Nat) (d : Dst) (a b : Src) (s : State) : Result :=
  issue (.lea c sg sh d a b) s (fun e w => e.compute true d (fun l =>
    (low 64 ((e.src64 a l : Int) + (if sg then sext (e.src32 b l) 32 else (e.src32 b l : Int)) * (2 ^ sh : Nat)), 0)) w)

/-- Byte i of BYSEL's result from the byte below it (R175). -/
def byselByte (ext : Bool) (x y s i below : Nat) : Nat :=
  if !(bit s (12 + i)) then
    let n := fld s (3 * i) 3
    if n < 4 then fld x (8 * n) 8 else fld y (8 * (n - 4)) 8
  else if !ext || i = 0 then 0 else if bit below 7 then 255 else 0

/-- BYSEL of two words (R175). -/
def byselOf (ext : Bool) (x y s : Nat) : Nat :=
  let r0 := byselByte ext x y s 0 0
  let r1 := byselByte ext x y s 1 r0
  let r2 := byselByte ext x y s 2 r1
  r0 + r1 * 2 ^ 8 + r2 * 2 ^ 16 + byselByte ext x y s 3 r2 * 2 ^ 24

/-- BYSEL (R175). -/
def execBysel (c : Com) (ext : Bool) (d : Dst) (a b z : Src) (s : State) : Result :=
  issue (.bysel c ext d a b z) s (fun e w => e.compute false d (fun l => (byselOf ext (e.src32 a l) (e.src32 b l) (e.src32 z l), 0)) w)

end Sys2Proof.Machine
end

