-- ==== Sys2Proof/Machine/Convert.lean ====
section
/-! DEFINITION. Conversions, packing and scaling (R150, R151, R157, R158, R184 to R187).
Readings logged: DEDUCED 21, 22. -/

namespace Sys2Proof.Machine

/-- A conversion source as an exact value: an integer of its type, or the narrow value in the low bits. -/
def cvtSrc (t : Ty) (x : Nat) : FV :=
  if t.isInt then let z := asInt t x
    .fin (z < 0) z.natAbs 0 false
  else if t = .e8m0 then e8m0V x
  else (fmtOf t).decode x

/-- CVTI of a floating-point value (R184). -/
def cvtiF (t : Ty) (r : Rnd) (rb : Nat) (x : FV) : Nat × Nat :=
  match x with
  | .nan _ => (0, fIV ||| fNANIN)
  | .inf n => (low (tyW t) (if n then tyMin t else tyMax t), fIV ||| fSAT)
  | .fin n m e _ =>
    let (a, inexact) := roundInt r rb n m e
    let z : Int := (if n then -1 else 1) * (a : Nat)
    let y := satTo t z
    (low (tyW t) y, b2n (y ≠ z) * fSAT ||| b2n (inexact || y ≠ z) * fIX)

/-- CVTI (R184). -/
def cvtiOf (t y : Ty) (r : Rnd) (rb x : Nat) : Nat × Nat :=
  if y.isInt then intResult t true (asInt y x) else cvtiF t r rb (cvtSrc y x)

def execCvti (c : Com) (t y : Ty) (r : Rnd) (d : Dst) (a : Src) (rb : Option Src) (s : State) : Result :=
  issue (.cvti c t y r d a rb) s (fun e w => e.compute t.wide d (fun l => cvtiOf t y r (e.rb rb l) (e.srcT y a l)) w)

/-- A value converted to E8M0 (R185). -/
def toE8m0 (r : Rnd) (x : FV) : Nat × Nat :=
  match x with
  | .nan _ => (0xFF, fIV ||| fNANIN)
  | .inf _ => (0xFE, fSAT)
  | .fin _ m e _ =>
    if m = 0 then (0, fSAT)
    else
      let exact := m == 2 ^ m.log2
      let k : Int := (m.log2 : Int) + e + (if r = .ru && !exact then 1 else 0)
      let y := min (max k (-127)) 127
      ((y + 127).toNat, b2n (!exact) * fIX ||| b2n (y ≠ k) * fSAT)

/-- CVTF (R185). -/
def cvtfOf (t y : Ty) (r : Rnd) (rb : Nat) (sat : Bool) (x : Nat) : Nat × Nat :=
  let v := cvtSrc y x
  if t = .e8m0 then toE8m0 r v
  else
    let iv := b2n (y = .e8m0 ∧ v.isNan) * fIV
    (fmtOf t).result r rb sat [v] (v, iv)

def execCvtf (c : Com) (t y : Ty) (r : Rnd) (sat : Bool) (d : Dst) (a : Src) (rb : Option Src) (s : State) : Result :=
  issue (.cvtf c t y r sat d a rb) s (fun e w => e.compute false d (fun l => cvtfOf t y r (e.rb rb l) sat (e.srcT y a l)) w)

/-! Code4 (R150, R151). -/

/-- The 16 BF16 entries of a codebook in four k registers (R150). -/
def Heat.book (h : Heat) (n : Nat) : List Nat := (upto 16).map (fun i => fld (h.k64 (n + i / 4)) (16 * (i % 4)) 16)

/-- The index of the first element for which no other is less. -/
def argLeast {α : Type} (lt : α → α → Bool) (l : List (Nat × α)) : Option Nat :=
  match l with
  | [] => none
  | x :: t => some (t.foldl (fun b y => if lt y.2 b.2 then y else b) x).1

/-- The exact distance of a finite value from an entry, on a common exponent; none for an infinite entry. -/
def distance (x t : FV) (e0 : Int) : Option Nat :=
  match x, t with
  | .fin a m e _, .fin b n k _ => some (atExp a m e e0 - atExp b n k e0).natAbs
  | _, _ => none

def distLt : Option Nat → Option Nat → Bool
  | some a, some b => a < b
  | some _, none => true
  | _, _ => false

/-- code4() of R186: the index that R151 chooses, and its flags. -/
def code4 (x : FV) (book : List Nat) : Nat × Nat :=
  let ts := (upto 16).zip (book.map fmtBf16.decode)
  let nums := ts.filter (fun t => !t.2.isNan)
  let fl := nanFlags [x]
  if nums.isEmpty then (0, fl ||| fIV ||| b2n (!x.isNan) * fIX)
  else match x with
    | .nan _ => (match (ts.filter (fun t => t.2.isNan)).head? with
      | some t => (t.1, fl)
      | none => (0, fl ||| fIV ||| fIX))
    | .inf n =>
      (match (nums.filter (fun t => t.2 = .inf n)).head? with
      | some t => (t.1, 0)
      | none => ((argLeast (fun a b => if n then cmpV a b < 0 else cmpV b a < 0) nums).getD 0, fIX))
    | .fin _ _ e _ =>
      let e0 := nums.foldl (fun m t => match t.2 with | .fin _ _ k _ => min m k | _ => m) e
      let i := (argLeast distLt (nums.map (fun t => (t.1, distance x t.2 e0)))).getD 0
      let exact := nums.any (fun t => t.1 == i && distance x t.2 e0 == some 0)
      (i, b2n (!exact) * fIX)

/-! PACK and UNPK (R186). -/

/-- The width of an element of a packed register in bits. -/
def elemW : Ty → Nat
  | .bf16 => 16
  | .c4 => 4
  | _ => 8

/-- The scale byte of a lane: 127 without one (R158, R186). -/
def Env.scaleByte (e : Env) (sc : Scale) (l : Nat) : Nat :=
  match sc with
  | .byte r sel => fld (e.src32 (match r with | .v n => .v n | .k n => .k n) l) (8 * sel) 8
  | _ => 127

/-- The codebook that a word names (R150). -/
def Env.bookOf (e : Env) (sc : Scale) : List Nat :=
  match sc with
  | .book k => e.h.book k
  | _ => []

/-- One element packed: its code and flags (R157, R186). -/
def packElem (t : Ty) (r : Rnd) (rb : Nat) (sat : Bool) (sb : Nat) (book : List Nat) (x : Nat) : Nat × Nat :=
  let v := fmtF32.decode x
  if t = .c4 then code4 v book
  else if sb = 0xFF then ((fmtOf t).nan, fIV ||| nanFlags [v])
  else (fmtOf t).result r rb sat [v] (v.scale (127 - (sb : Nat)), 0)

/-- One element unpacked (R157, R186). -/
def unpackElem (t : Ty) (r : Rnd) (rb sb : Nat) (book : List Nat) (x : Nat) : Nat × Nat :=
  if t = .c4 then
    let v := fmtBf16.decode ((book[x]?).getD 0)
    fmtF32.result r rb false [v] (v, 0)
  else
    let v := (fmtOf t).decode x
    if sb = 0xFF then (fmtF32.nan, fIV ||| nanFlags [v])
    else fmtF32.result r rb false [v] (v.scale ((sb : Nat) - 127), 0)

/-- PACK of n registers (R186). -/
def packBody (n : Nat) (t : Ty) (r : Rnd) (sat : Bool) (sc : Scale) (d : Dst) (a : Nat) (rb : Option Src) (e : Env) (w : Work) : Work :=
  e.compute false d (fun l =>
    (upto n).foldl (fun acc j =>
      let y := packElem t r (rbits (e.rb rb l) j) sat (e.scaleByte sc l) (e.bookOf sc) ((e.h.lane l).v32 (a + j))
      (acc.1 + y.1 * 2 ^ (elemW t * j), acc.2 ||| y.2)) (0, 0)) w

/-- UNPK into n registers (R186). -/
def unpackBody (n : Nat) (t : Ty) (r : Rnd) (sc : Scale) (d : Nat) (a : Src) (rb : Option Src) (e : Env) (w : Work) : Work :=
  (upto n).foldl (fun w j => e.compute false (.v (d + j)) (fun l =>
    unpackElem t r (rbits (e.rb rb l) j) (e.scaleByte sc l) (e.bookOf sc) (fld (e.src32 a l) (elemW t * j) (elemW t))) w) w

/-- PACK2 (R186). -/
def execPack2 (c : Com) (t : Ty) (r : Rnd) (sat : Bool) (sc : Scale) (d : Dst) (a : Nat) (rb : Option Src) (s : State) : Result :=
  issue (.pack2 c t r sat sc d a rb) s (packBody 2 t r sat sc d a rb)

/-- PACK4 (R186). -/
def execPack4 (c : Com) (t : Ty) (r : Rnd) (sat : Bool) (sc : Scale) (d : Dst) (a : Nat) (rb : Option Src) (s : State) : Result :=
  issue (.pack4 c t r sat sc d a rb) s (packBody 4 t r sat sc d a rb)

/-- PACK8 (R186). -/
def execPack8 (c : Com) (t : Ty) (r : Rnd) (sat : Bool) (sc : Scale) (d : Dst) (a : Nat) (rb : Option Src) (s : State) : Result :=
  issue (.pack8 c t r sat sc d a rb) s (packBody 8 t r sat sc d a rb)

/-- UNPK2 (R186). -/
def execUnpk2 (c : Com) (t : Ty) (r : Rnd) (sc : Scale) (d : Nat) (a : Src) (rb : Option Src) (s : State) : Result :=
  issue (.unpk2 c t r sc d a rb) s (unpackBody 2 t r sc d a rb)

/-- UNPK4 (R186). -/
def execUnpk4 (c : Com) (t : Ty) (r : Rnd) (sc : Scale) (d : Nat) (a : Src) (rb : Option Src) (s : State) : Result :=
  issue (.unpk4 c t r sc d a rb) s (unpackBody 4 t r sc d a rb)

/-- UNPK8 (R186). -/
def execUnpk8 (c : Com) (t : Ty) (r : Rnd) (sc : Scale) (d : Nat) (a : Src) (rb : Option Src) (s : State) : Result :=
  issue (.unpk8 c t r sc d a rb) s (unpackBody 8 t r sc d a rb)

/-- SCALEX of one value (R187). -/
def scalexOf (r : Rnd) (rb : Nat) (inv sat : Bool) (x sb : Nat) : Nat × Nat :=
  let v := fmtF32.decode x
  if sb = 0xFF then (fmtF32.nan, fIV ||| nanFlags [v])
  else fmtF32.result r rb sat [v] (v.scale (if inv then 127 - (sb : Int) else (sb : Int) - 127), 0)

/-- SCALEX (R187). -/
def execScalex (c : Com) (r : Rnd) (inv sat : Bool) (sb : Nat) (d : Dst) (a b : Src) (rb : Option Src) (s : State) : Result :=
  issue (.scalex c r inv sat sb d a b rb) s (fun e w =>
    e.compute false d (fun l => scalexOf r (e.rb rb l) inv sat (e.srcT .f32 a l) (fld (e.src32 b l) (8 * sb) 8)) w)

end Sys2Proof.Machine
end

