-- ==== Sys2Proof/Machine/Predicate.lean ====
section
/-! DEFINITION. Predicate instructions and heat collectives (R138 to R146).
Readings logged: DEDUCED 26. -/

namespace Sys2Proof.Machine

/-- A predicate written in every active lane from the state at issue. -/
def Env.setPred (e : Env) (d : Nat) (f : Nat → Bool) (w : Work) : Work :=
  e.each (fun w l => { w with s := w.s.updLane e.key l (fun x => x.setP d (f l)) }) w

/-- A predicate source of a lane at issue (R128). -/
def Env.ps (e : Env) (p : PSrc) (l : Nat) : Bool := (e.h.lane l).ps p

/-- A comparison by the sign of the difference, where there is one (R138). -/
def cmpHolds (op : Cmp) (un : Bool) (z : Int) : Bool :=
  match op with
  | .eq => !un && z = 0
  | .ne => un || z ≠ 0
  | .lt => !un && z < 0
  | .le => !un && z ≤ 0
  | .gt => !un && z > 0
  | .ge => !un && z ≥ 0
  | .un => un
  | .ord => !un

/-- PSET's comparison of two sources of a type (R138). -/
def cmpOf (t : Ty) (op : Cmp) (x y : Nat) : Bool :=
  if t = .f32 then
    let a := fmtF32.decode x
    let b := fmtF32.decode y
    cmpHolds op (a.isNan || b.isNan) (cmpV a b)
  else cmpHolds op false (asInt t x - asInt t y)

/-- PSET (R138). -/
def execPset (c : Com) (t : Ty) (op : Cmp) (d : Nat) (a b : Src) (s : State) : Result :=
  issue (.pset c t op d a b) s (fun e w => e.setPred d (fun l => cmpOf t op (e.srcT t a l) (e.srcT t b l)) w)

/-- PSETF.from (R139). -/
def execPsetfFrom (c : Com) (a b : Src) (s : State) : Result :=
  issue (.psetfFrom c a b) s (fun e w => e.each (fun w l =>
    let x := BitVec.ofNat 12 (e.src32 a l)
    let m := BitVec.ofNat 12 (e.src32 b l)
    { w with s := w.s.updLane e.key l (fun y => { y with p := (y.p &&& ~~~m) ||| (x &&& m) }) }) w)

/-- PSETF.to (R139). -/
def execPsetfTo (c : Com) (d : Dst) (s : State) : Result :=
  issue (.psetfTo c d) s (fun e w => e.compute false d (fun l => ((e.h.lane l).p.toNat, 0)) w)

/-- The operations of PLOG (R140). -/
def logOf (op : LogOp) (a b z : Bool) : Bool :=
  match op with
  | .and => a && b
  | .or => a || b
  | .xor => a != b
  | .andn => a && !b
  | .orn => a || !b
  | .not => !a
  | .and3 => a && b && z
  | .or3 => a || b || z
  | .sel => if z then a else b
  | .mov => a

/-- PLOG (R140). -/
def execPlog (c : Com) (op : LogOp) (d : Nat) (x : PSrc) (y z : Option PSrc) (s : State) : Result :=
  issue (.plog c op d x y z) s (fun e w =>
    let get (p : Option PSrc) (l : Nat) : Bool := match p with | none => false | some p => e.ps p l
    e.setPred d (fun l => logOf op (e.ps x l) (get y l) (get z l)) w)

/-- VOTE (R142). -/
def execVote (c : Com) (op : VoteOp) (a : PSrc) (s : State) : Result :=
  issue (.vote c op a) s (fun e w =>
    match op with
    | .ballot d => e.compute false d (fun _ => (maskOf (e.act.filter (e.ps a)), 0)) w
    | .any d => e.setPred d (fun _ => e.act.any (e.ps a)) w
    | .all d => e.setPred d (fun _ => e.act.all (e.ps a)) w
    | .uni d => e.setPred d (fun _ => e.act.all (e.ps a) || !(e.act.any (e.ps a))) w)

/-- The lane that SHFL reads for a lane (R143). -/
def shflLane (act : List Nat) (mode : ShflMode) (width l s : Nat) : Nat :=
  let base : Nat := l - l % width
  let j : Int := match mode with
    | .idx => (base + s % width : Nat)
    | .up => (l : Int) - s
    | .down => (l + s : Nat)
    | .xor => (l ^^^ s : Nat)
  if j < base ∨ (base + width : Nat) ≤ j ∨ !(act.contains j.toNat) then l else j.toNat

/-- SHFL (R143). -/
def execShfl (c : Com) (t : Ty) (mode : ShflMode) (d : Dst) (a b : Src) (width : Nat) (s : State) : Result :=
  issue (.shfl c t mode d a b width) s (fun e w =>
    e.compute t.wide d (fun l => (e.srcT t a (shflLane e.act mode width l (e.src32 b l)), 0)) w)

/-- The node operation of HRED and HSCAN: the value and the flags (R144). -/
def redNode (t : Ty) (r : Rnd) (op : RedOp) (x y : Nat) : Nat × Nat :=
  match op with
  | .add => if t = .f32 then fmtF32.add r 0 false x y else ((x + y) % 2 ^ tyW t, 0)
  | .min => if t = .f32 then fmtF32.minMax false false x y else (low (tyW t) (min (asInt t x) (asInt t y)), 0)
  | .max => if t = .f32 then fmtF32.minMax true false x y else (low (tyW t) (max (asInt t x) (asInt t y)), 0)
  | .and => (x &&& y, 0)
  | .or => (x ||| y, 0)
  | .xor => (x ^^^ y, 0)

/-- One level of the reduction tree: adjacent results combined, a lone child passed through (R144). -/
def treeLevel (f : Nat → Nat → Nat × Nat) : List (Option (Nat × Nat)) → List (Option (Nat × Nat))
  | some x :: some y :: t => let z := f x.1 y.1
    some (z.1, z.2 ||| x.2 ||| y.2) :: treeLevel f t
  | some x :: none :: t => some x :: treeLevel f t
  | none :: y :: t => y :: treeLevel f t
  | [x] => [x]
  | [] => []

/-- The reduction over the 32 lane positions (R144). -/
def treeOf (f : Nat → Nat → Nat × Nat) (xs : List (Option (Nat × Nat))) : Nat × Nat :=
  let go := treeLevel f
  (((go (go (go (go (go xs))))).head?).bind id).getD (0, 0)

/-- HRED (R144). -/
def execHred (c : Com) (t : Ty) (r : Rnd) (op : RedOp) (d : Dst) (a : Src) (s : State) : Result :=
  issue (.hred c t r op d a) s (fun e w =>
    let v := treeOf (redNode t r op) ((upto 32).map (fun l => if e.act.contains l then some (e.srcT t a l, 0) else none))
    e.compute t.wide d (fun _ => v) w)

/-- The identity of an operation (R145). -/
def redIdentity (t : Ty) (op : RedOp) : Nat :=
  match op with
  | .add | .or | .xor => 0
  | .and => 2 ^ tyW t - 1
  | .min => if t = .f32 then 0x7F800000 else low (tyW t) (tyMax t)
  | .max => if t = .f32 then 0xFF800000 else low (tyW t) (tyMin t)

/-- The scan over the active lanes in ascending order: lane, output and flags (R145). -/
def scanOf (f : Nat → Nat → Nat × Nat) (excl : Bool) (ident : Nat) (val : Nat → Nat) (head : Nat → Bool) :
    Option Nat → List Nat → List (Nat × Nat × Nat)
  | _, [] => []
  | acc, l :: ls =>
    let x := val l
    match (if head l then none else acc) with
    | none => (l, if excl then ident else x, 0) :: scanOf f excl ident val head (some x) ls
    | some a => let z := f a x
      (l, if excl then a else z.1, z.2) :: scanOf f excl ident val head (some z.1) ls

/-- HSCAN (R145). -/
def execHscan (c : Com) (t : Ty) (r : Rnd) (op : RedOp) (excl : Bool) (d : Dst) (a : Src) (hd : Option PSrc) (s : State) : Result :=
  issue (.hscan c t r op excl d a hd) s (fun e w =>
    let head (l : Nat) : Bool := match hd with | none => false | some p => e.ps p l
    let rs := scanOf (redNode t r op) excl (redIdentity t op) (e.srcT t a) head none e.act
    e.compute t.wide d (fun l => ((rs.find? (fun r => r.1 = l)).map (·.2)).getD (0, 0)) w)

/-- MATCH (R146). -/
def execMatchv (c : Com) (t : Ty) (d : Dst) (a : Src) (s : State) : Result :=
  issue (.matchv c t d a) s (fun e w =>
    e.compute false d (fun l => (maskOf (e.act.filter (fun m => e.srcT t a m == e.srcT t a l)), 0)) w)

end Sys2Proof.Machine
end

