-- ==== Sys2Proof/Machine/Sideband.lean ====
section
/-! DEFINITION. The sideband registers (R457, R459) and the test access port (R460).
Readings logged: DEDUCED 68, 69; DESIGN CHOICE 7, 8, 79. -/

namespace Sys2Proof.Machine

/-- The identification code (R460). -/
def idcode : Nat := 0x15A1056B

def State.updSb (s : State) (f : Sideband → Sideband) : State := { s with sb := f s.sb }

/-! Margining (R457). -/

/-- Whether a margining target is idle and not reserved. -/
def State.marginIdle (s : State) (sel : Nat) : Bool :=
  let die := fld sel 0 2
  let unit := fld sel 4 8
  let lane := fld sel 12 8
  match fld sel 2 2 with
  | 0 => let partner := unit / 16
    partner < 4 && partner != die && lane ≤ 67 &&
      (s.mapBit die (128 + 8 * bundleOf die partner) (unit % 16) || s.fencedDies.contains die || s.fencedDies.contains partner)
  | 1 => unit / 8 < 3 && lane == 0 && !(s.halfCarries (3 * die + unit / 8) (unit % 8 / 4) && s.portUp (3 * die + unit / 8))
  | 2 => unit < 64 && lane ≤ 63 && s.fencedDies.contains die
  | _ => false

/-- MARGCTL written with run set: discarded while a run is in progress, refused where the target or the axis is (R457). -/
def State.marginRun (s : State) (ctl : Nat) : State :=
  if bit s.sb.margctl 0 then s
  else
    let ctl := fld ctl 0 11 + fld ctl 16 16 * 2 ^ 16
    if s.marginIdle s.sb.margsel && !(bit ctl 2) then s.updSb (fun b => { b with margctl := setFld ctl 0 1 1 })
    else s.updSb (fun b => { b with margctl := setFld ctl 0 1 0, margres := b.margres ||| 256 })

/-- MARGIN_RUN. -/
def execMarginRun (ctl : Nat) (s : State) : Result := .next (if s.sbUp then s.marginRun ctl else s)

/-- MARGIN_DONE (R457). -/
def execMarginDone (pass errors : Nat) (s : State) : Result :=
  .next (if bit s.sb.margctl 0 then s.updSb (fun b => { b with
      margctl := setFld b.margctl 0 1 0
      margres := pass % 128 + 128 + fld b.margres 8 1 * 256 + min errors 65535 * 2 ^ 16 }) else s)

/-! The management association (R64, R459). -/

/-- Bytes written into the window; a 1 at byte 127 installs what it holds. -/
def State.assocWrite (s : State) (off : Nat) (bs : List Byte) : State :=
  let buf := writeBytes s.sb.assocBuf off (bs.take (128 - off))
  let a := assocOf (readBytes buf 0 128)
  let install : Bool := off ≤ 127 && bs[127 - off]? == some 1 && 16 ≤ a.keyLen && a.keyLen ≤ 64
  s.updSb (fun b => { b with assocBuf := buf, assoc := if install then some a else b.assoc })

/-- MGMT_ASSOC_INSTALL (R64): the bytes of the window, written from its start. -/
def execMgmtAssocInstall (bytes : List Byte) (s : State) : Result := .next (if s.sbUp then s.assocWrite 0 bytes else s)

/-! Registers (R459). -/

/-- A register as the sideband reads it, by its 32-bit words. -/
def State.sbReg (s : State) (off : Nat) : Nat :=
  match off with
  | 0x000 => idcode
  | 0x004 => s.sb.state + 8 * b2n s.sb.replace + 16 * maskOf s.aliveDies
  | 0x008 => s.sb.dieReset
  | 0x00C => s.sb.shape + s.sb.retrain * 2 ^ 16
  | 0x040 => s.sb.margsel
  | 0x044 => s.sb.margctl
  | 0x048 => s.sb.margres
  | 0x080 => s.sb.corrected
  | 0x084 => s.sb.uncorrected
  | 0x100 => s.sb.mapIndex
  | 0x104 => s.mapQuad s.sb.mapIndex % 2 ^ 32
  | 0x108 => s.mapQuad s.sb.mapIndex / 2 ^ 32
  | 0x200 => (Config.power s.now).toNat
  | 0x204 => s.sb.cap
  | _ =>
    if 0x010 ≤ off ∧ off < 0x020 then fld s.sb.mgmt0 (8 * (off - 0x010)) 32
    else if 0x020 ≤ off ∧ off < 0x030 then fld s.sb.mgmt1 (8 * (off - 0x020)) 32
    else if 0x0C0 ≤ off ∧ off < 0x0F0 then Tbl.get 0 s.sb.portErr ((off - 0x0C0) / 4)
    else 0

/-- A power cap written: values out of range are discarded (R459). -/
def State.setCap (s : State) (w : Nat) : State := if 1000 ≤ w ∧ w ≤ 3200 then s.updSb (fun b => { b with cap := w }) else s

/-- A 32-bit word written to a register (R17, R451, R457, R459). -/
def State.sbWrite (s : State) (off w : Nat) : State :=
  match off with
  | 0x004 => if bit w 3 then s.updSb (fun b => { b with replace := false }) else s
  | 0x008 => (bitsOf w 4).foldl (fun s d => s.dieReset d) s
  | 0x00C => (s.updSb (fun b => { b with shape := w % 4096 })).retrain (fld w 16 12)
  | 0x040 => if bit s.sb.margctl 0 then s else s.updSb (fun b => { b with margsel := w % 2 ^ 20 })
  | 0x044 =>
    if bit w 0 then s.marginRun w
    else if bit s.sb.margctl 0 then s else s.updSb (fun b => { b with margctl := fld w 0 11 + fld w 16 16 * 2 ^ 16 })
  | 0x048 => s.updSb (fun b => { b with margres := b.margres - (b.margres &&& w &&& 384) })
  | 0x100 => s.updSb (fun b => { b with mapIndex := w % 512 })
  | 0x204 => s.setCap w
  | _ =>
    if 0x010 ≤ off ∧ off < 0x020 then s.updSb (fun b => { b with mgmt0 := setFld b.mgmt0 (8 * (off - 0x010)) 32 w })
    else if 0x020 ≤ off ∧ off < 0x030 then s.updSb (fun b => { b with mgmt1 := setFld b.mgmt1 (8 * (off - 0x020)) 32 w })
    else if 0x0C0 ≤ off ∧ off < 0x0F0 then s.updSb (fun b => { b with portErr := Tbl.put 0 b.portErr ((off - 0x0C0) / 4) 0 })
    else s

/-- The words of a private write, from its offset on. The 1 to 3 bytes that are left after whole words are dropped (log
entry 79). -/
def State.sbWords (off : Nat) : List Byte → State → State
  | b0 :: b1 :: b2 :: b3 :: rest, s => State.sbWords (off + 4) rest (s.sbWrite off (ofBytes [b0, b1, b2, b3]))
  | _, s => s

/-- SIDEBAND_WRITE (R459): a private write, whose offset a later read takes; the word that such a read returns stands
ready. -/
def State.sidebandWrite (s : State) (off : Nat) (bs : List Byte) : State :=
  let s := if 0x300 ≤ off ∧ off < 0x380 then s.assocWrite (off - 0x300) bs else State.sbWords off bs s
  let s := s.updSb (fun b => { b with offset := off })
  { s with sbOut := toBytes 4 (s.sbReg off) }

/-- SIDEBAND_WRITE. -/
def execSidebandWrite (off : Nat) (bytes : List Byte) (s : State) : Result := .next (if s.sbUp then s.sidebandWrite off bytes else s)

/-- MAP_DATA_READ (R459). -/
def execMapDataRead (s : State) : Result :=
  .next (if s.sbUp then
      { s.updSb (fun b => { b with mapIndex := (b.mapIndex + 1) % 512, offset := 0x104 }) with sbOut := toBytes 8 (s.mapQuad s.sb.mapIndex) }
    else s)

/-- PORT_ERROR_CLEAR (R459). -/
def execPortErrorClear (port : Nat) (s : State) : Result :=
  .next (if s.sbUp && port < 12 then s.updSb (fun b => { b with portErr := Tbl.put 0 b.portErr port 0 }) else s)

/-- POWER_CAP_WRITE (R459). -/
def execPowerCapWrite (watts : Nat) (s : State) : Result := .next (if s.sbUp then s.setCap watts else s)

/-- POWER_EXCEEDS_CAP (R459): while power is above the cap, issue clocks are withheld. -/
def execPowerExceedsCap (watts : Nat) (s : State) : Result := .next (s.updSb (fun b => { b with throttled := b.cap < watts }))

/-- DYNAMIC_ADDRESS (R459): a 7-bit address that replaces 0x2E. -/
def execDynamicAddress (a : Nat) (s : State) : Result := .next (if s.sbUp then s.updSb (fun b => { b with dynamic := some (a % 128) }) else s)

/-! The test access port (R460). -/

def State.updTap (s : State) (f : Tap → Tap) : State := { s with tap := f s.tap }

/-- Bits of a number, least significant first. -/
def tapBits (n w : Nat) : List Bool := (upto n).map (bit w)

/-- What the one-bit bypass register shifts out: the 0 it captured, then what was shifted in. -/
def bypassOut (tdi : List Bool) : List Bool := (false :: tdi).take (max tdi.length 1)

/-- BYPASS, and every code that names no instruction. -/
def execBypass (code : Nat) (tdi : List Bool) (s : State) : Result :=
  .next (if [0x00, 0x01, 0x02, 0x03, 0x04, 0x10].contains (code % 256) then s
    else s.updTap (fun t => { t with ir := code % 256, shifted := bypassOut tdi }))

/-- EXTEST: the balls' levels are captured and shifted out, and the driven levels take effect; BYPASS while the reset ball
is not asserted. -/
def execExtest (drive : List Bool) (s : State) : Result :=
  .next (s.updTap (fun t => if t.reset then { t with ir := 0, chain := drive, update := drive, shifted := Config.sampled t.captures, captures := t.captures + 1 }
    else { t with ir := 0, shifted := bypassOut drive }))

/-- SAMPLE/PRELOAD: the levels of the balls, which the environment gives, are shifted out while the chain is loaded. -/
def execSamplePreload (pins load : List Bool) (s : State) : Result :=
  .next (s.updTap (fun t => { t with ir := 1, chain := load, shifted := pins }))

/-- IDCODE. -/
def execIdcode (s : State) : Result := .next (s.updTap (fun t => { t with ir := 2, shifted := tapBits 32 idcode }))

/-- CLAMP: the balls hold the preloaded levels while the reset ball is asserted; the data register is the bypass
register. -/
def execClamp (s : State) : Result :=
  .next (s.updTap (fun t => { t with ir := 3, update := if t.reset then t.chain else t.update, shifted := bypassOut [] }))

/-- HIGHZ: the balls are not driven while the reset ball is asserted. -/
def execHighz (s : State) : Result :=
  .next (s.updTap (fun t => { t with ir := 4, update := if t.reset then [] else t.update, shifted := bypassOut [] }))

/-- DEFREAD: the first bits of the fused section, byte 0 bit 0 first. -/
def execDefread (n : Nat) (s : State) : Result :=
  .next (s.updTap (fun t => { t with ir := 0x10, shifted := (s.fusedBytes.flatMap (fun b => tapBits 8 b.toNat)).take n }))

/-- RESET_BALL: EXTEST, CLAMP and HIGHZ act only while it is asserted. -/
def execResetBall (asserted : Bool) (s : State) : Result :=
  .next (s.updTap (fun t => { t with reset := asserted, update := if asserted then t.update else [] }))

end Sys2Proof.Machine
end

