-- ==== Sys2Proof/Machine/Dispatch.lean ====
section
/-! DEFINITION. One arm for each step of the part: a direct call of its meaning. -/

namespace Sys2Proof.Machine

def exec (i : Instr) (s : State) : Host.Outcome State Fault Refusal :=
  match i with
  | .nop a0 => Sys2Proof.Machine.execNop a0 s
  | .bra a0 a1 => Sys2Proof.Machine.execBra a0 a1 s
  | .brx a0 a1 => Sys2Proof.Machine.execBrx a0 a1 s
  | .call a0 a1 a2 => Sys2Proof.Machine.execCall a0 a1 a2 s
  | .callx a0 a1 => Sys2Proof.Machine.execCallx a0 a1 s
  | .ret a0 a1 => Sys2Proof.Machine.execRet a0 a1 s
  | .exit a0 => Sys2Proof.Machine.execExit a0 s
  | .yield a0 => Sys2Proof.Machine.execYield a0 s
  | .waitf a0 a1 => Sys2Proof.Machine.execWaitf a0 a1 s
  | .trap a0 a1 a2 => Sys2Proof.Machine.execTrap a0 a1 a2 s
  | .pset a0 a1 a2 a3 a4 a5 => Sys2Proof.Machine.execPset a0 a1 a2 a3 a4 a5 s
  | .psetfFrom a0 a1 a2 => Sys2Proof.Machine.execPsetfFrom a0 a1 a2 s
  | .psetfTo a0 a1 => Sys2Proof.Machine.execPsetfTo a0 a1 s
  | .plog a0 a1 a2 a3 a4 a5 => Sys2Proof.Machine.execPlog a0 a1 a2 a3 a4 a5 s
  | .vote a0 a1 a2 => Sys2Proof.Machine.execVote a0 a1 a2 s
  | .shfl a0 a1 a2 a3 a4 a5 a6 => Sys2Proof.Machine.execShfl a0 a1 a2 a3 a4 a5 a6 s
  | .hred a0 a1 a2 a3 a4 a5 => Sys2Proof.Machine.execHred a0 a1 a2 a3 a4 a5 s
  | .hscan a0 a1 a2 a3 a4 a5 a6 a7 => Sys2Proof.Machine.execHscan a0 a1 a2 a3 a4 a5 a6 a7 s
  | .matchv a0 a1 a2 a3 => Sys2Proof.Machine.execMatchv a0 a1 a2 a3 s
  | .iadd a0 a1 a2 a3 a4 a5 => Sys2Proof.Machine.execIadd a0 a1 a2 a3 a4 a5 s
  | .isub a0 a1 a2 a3 a4 a5 => Sys2Proof.Machine.execIsub a0 a1 a2 a3 a4 a5 s
  | .imul a0 a1 a2 a3 a4 a5 => Sys2Proof.Machine.execImul a0 a1 a2 a3 a4 a5 s
  | .imad a0 a1 a2 a3 a4 a5 a6 => Sys2Proof.Machine.execImad a0 a1 a2 a3 a4 a5 a6 s
  | .idiv a0 a1 a2 a3 a4 a5 => Sys2Proof.Machine.execIdiv a0 a1 a2 a3 a4 a5 s
  | .imin a0 a1 a2 a3 a4 => Sys2Proof.Machine.execImin a0 a1 a2 a3 a4 s
  | .imax a0 a1 a2 a3 a4 => Sys2Proof.Machine.execImax a0 a1 a2 a3 a4 s
  | .iabs a0 a1 a2 a3 a4 => Sys2Proof.Machine.execIabs a0 a1 a2 a3 a4 s
  | .and a0 a1 a2 a3 a4 => Sys2Proof.Machine.execAnd a0 a1 a2 a3 a4 s
  | .or a0 a1 a2 a3 a4 => Sys2Proof.Machine.execOr a0 a1 a2 a3 a4 s
  | .xor a0 a1 a2 a3 a4 => Sys2Proof.Machine.execXor a0 a1 a2 a3 a4 s
  | .shl a0 a1 a2 a3 a4 a5 => Sys2Proof.Machine.execShl a0 a1 a2 a3 a4 a5 s
  | .shr a0 a1 a2 a3 a4 a5 => Sys2Proof.Machine.execShr a0 a1 a2 a3 a4 a5 s
  | .bfx a0 a1 a2 a3 a4 => Sys2Proof.Machine.execBfx a0 a1 a2 a3 a4 s
  | .bfi a0 a1 a2 a3 a4 a5 => Sys2Proof.Machine.execBfi a0 a1 a2 a3 a4 a5 s
  | .popc a0 a1 a2 a3 => Sys2Proof.Machine.execPopc a0 a1 a2 a3 s
  | .clz a0 a1 a2 a3 => Sys2Proof.Machine.execClz a0 a1 a2 a3 s
  | .brev a0 a1 a2 a3 => Sys2Proof.Machine.execBrev a0 a1 a2 a3 s
  | .sel a0 a1 a2 a3 a4 a5 => Sys2Proof.Machine.execSel a0 a1 a2 a3 a4 a5 s
  | .mov a0 a1 a2 a3 => Sys2Proof.Machine.execMov a0 a1 a2 a3 s
  | .movi a0 a1 a2 a3 a4 => Sys2Proof.Machine.execMovi a0 a1 a2 a3 a4 s
  | .addi a0 a1 a2 a3 a4 a5 => Sys2Proof.Machine.execAddi a0 a1 a2 a3 a4 a5 s
  | .lea a0 a1 a2 a3 a4 a5 => Sys2Proof.Machine.execLea a0 a1 a2 a3 a4 a5 s
  | .bysel a0 a1 a2 a3 a4 a5 => Sys2Proof.Machine.execBysel a0 a1 a2 a3 a4 a5 s
  | .fadd a0 a1 a2 a3 a4 a5 a6 => Sys2Proof.Machine.execFadd a0 a1 a2 a3 a4 a5 a6 s
  | .fsub a0 a1 a2 a3 a4 a5 a6 => Sys2Proof.Machine.execFsub a0 a1 a2 a3 a4 a5 a6 s
  | .fmul a0 a1 a2 a3 a4 a5 a6 => Sys2Proof.Machine.execFmul a0 a1 a2 a3 a4 a5 a6 s
  | .ffma a0 a1 a2 a3 a4 a5 a6 => Sys2Proof.Machine.execFfma a0 a1 a2 a3 a4 a5 a6 s
  | .fmin a0 a1 a2 a3 a4 => Sys2Proof.Machine.execFmin a0 a1 a2 a3 a4 s
  | .fmax a0 a1 a2 a3 a4 => Sys2Proof.Machine.execFmax a0 a1 a2 a3 a4 s
  | .fsign a0 a1 a2 a3 a4 => Sys2Proof.Machine.execFsign a0 a1 a2 a3 a4 s
  | .frcp a0 a1 a2 => Sys2Proof.Machine.execFrcp a0 a1 a2 s
  | .frsq a0 a1 a2 => Sys2Proof.Machine.execFrsq a0 a1 a2 s
  | .fsqrt a0 a1 a2 a3 a4 a5 => Sys2Proof.Machine.execFsqrt a0 a1 a2 a3 a4 a5 s
  | .fdiv a0 a1 a2 a3 a4 a5 a6 => Sys2Proof.Machine.execFdiv a0 a1 a2 a3 a4 a5 a6 s
  | .fexp2 a0 a1 a2 => Sys2Proof.Machine.execFexp2 a0 a1 a2 s
  | .flog2 a0 a1 a2 => Sys2Proof.Machine.execFlog2 a0 a1 a2 s
  | .ftanh a0 a1 a2 => Sys2Proof.Machine.execFtanh a0 a1 a2 s
  | .fclass a0 a1 a2 a3 => Sys2Proof.Machine.execFclass a0 a1 a2 a3 s
  | .frnd a0 a1 a2 a3 a4 a5 => Sys2Proof.Machine.execFrnd a0 a1 a2 a3 a4 a5 s
  | .pkadd a0 a1 a2 a3 a4 a5 a6 a7 => Sys2Proof.Machine.execPkadd a0 a1 a2 a3 a4 a5 a6 a7 s
  | .pkmul a0 a1 a2 a3 a4 a5 a6 a7 => Sys2Proof.Machine.execPkmul a0 a1 a2 a3 a4 a5 a6 a7 s
  | .pkfma a0 a1 a2 a3 a4 a5 a6 a7 => Sys2Proof.Machine.execPkfma a0 a1 a2 a3 a4 a5 a6 a7 s
  | .pkmnx a0 a1 a2 a3 a4 a5 => Sys2Proof.Machine.execPkmnx a0 a1 a2 a3 a4 a5 s
  | .cvti a0 a1 a2 a3 a4 a5 a6 => Sys2Proof.Machine.execCvti a0 a1 a2 a3 a4 a5 a6 s
  | .cvtf a0 a1 a2 a3 a4 a5 a6 a7 => Sys2Proof.Machine.execCvtf a0 a1 a2 a3 a4 a5 a6 a7 s
  | .pack2 a0 a1 a2 a3 a4 a5 a6 a7 => Sys2Proof.Machine.execPack2 a0 a1 a2 a3 a4 a5 a6 a7 s
  | .pack4 a0 a1 a2 a3 a4 a5 a6 a7 => Sys2Proof.Machine.execPack4 a0 a1 a2 a3 a4 a5 a6 a7 s
  | .pack8 a0 a1 a2 a3 a4 a5 a6 a7 => Sys2Proof.Machine.execPack8 a0 a1 a2 a3 a4 a5 a6 a7 s
  | .unpk2 a0 a1 a2 a3 a4 a5 a6 => Sys2Proof.Machine.execUnpk2 a0 a1 a2 a3 a4 a5 a6 s
  | .unpk4 a0 a1 a2 a3 a4 a5 a6 => Sys2Proof.Machine.execUnpk4 a0 a1 a2 a3 a4 a5 a6 s
  | .unpk8 a0 a1 a2 a3 a4 a5 a6 => Sys2Proof.Machine.execUnpk8 a0 a1 a2 a3 a4 a5 a6 s
  | .scalex a0 a1 a2 a3 a4 a5 a6 a7 a8 => Sys2Proof.Machine.execScalex a0 a1 a2 a3 a4 a5 a6 a7 a8 s
  | .bldMem a0 a1 a2 a3 => Sys2Proof.Machine.execBldMem a0 a1 a2 a3 s
  | .bldQ a0 a1 a2 a3 => Sys2Proof.Machine.execBldQ a0 a1 a2 a3 s
  | .bldK a0 a1 a2 => Sys2Proof.Machine.execBldK a0 a1 a2 s
  | .bldZero a0 a1 => Sys2Proof.Machine.execBldZero a0 a1 s
  | .bsubOff a0 a1 a2 a3 => Sys2Proof.Machine.execBsubOff a0 a1 a2 a3 s
  | .bsubWin a0 a1 a2 a3 a4 => Sys2Proof.Machine.execBsubWin a0 a1 a2 a3 a4 s
  | .bsubColour a0 a1 a2 a3 => Sys2Proof.Machine.execBsubColour a0 a1 a2 a3 s
  | .bsubFlags a0 a1 a2 a3 => Sys2Proof.Machine.execBsubFlags a0 a1 a2 a3 s
  | .ld a0 a1 a2 a3 a4 a5 => Sys2Proof.Machine.execLd a0 a1 a2 a3 a4 a5 s
  | .st a0 a1 a2 a3 a4 a5 => Sys2Proof.Machine.execSt a0 a1 a2 a3 a4 a5 s
  | .ldg a0 a1 a2 a3 a4 a5 => Sys2Proof.Machine.execLdg a0 a1 a2 a3 a4 a5 s
  | .stg a0 a1 a2 a3 a4 a5 => Sys2Proof.Machine.execStg a0 a1 a2 a3 a4 a5 s
  | .lds a0 a1 a2 a3 a4 a5 => Sys2Proof.Machine.execLds a0 a1 a2 a3 a4 a5 s
  | .sts a0 a1 a2 a3 a4 a5 => Sys2Proof.Machine.execSts a0 a1 a2 a3 a4 a5 s
  | .ldsr a0 a1 a2 a3 a4 a5 => Sys2Proof.Machine.execLdsr a0 a1 a2 a3 a4 a5 s
  | .stsr a0 a1 a2 a3 a4 a5 => Sys2Proof.Machine.execStsr a0 a1 a2 a3 a4 a5 s
  | .pref a0 a1 a2 a3 a4 => Sys2Proof.Machine.execPref a0 a1 a2 a3 a4 s
  | .cmaintInv a0 a1 a2 a3 => Sys2Proof.Machine.execCmaintInv a0 a1 a2 a3 s
  | .cmaintWb a0 a1 a2 a3 => Sys2Proof.Machine.execCmaintWb a0 a1 a2 a3 s
  | .cmaintInvall a0 => Sys2Proof.Machine.execCmaintInvall a0 s
  | .ldk a0 a1 a2 a3 a4 => Sys2Proof.Machine.execLdk a0 a1 a2 a3 a4 s
  | .atom a0 a1 a2 a3 a4 a5 a6 a7 a8 a9 => Sys2Proof.Machine.execAtom a0 a1 a2 a3 a4 a5 a6 a7 a8 a9 s
  | .acas a0 a1 a2 a3 a4 a5 a6 a7 => Sys2Proof.Machine.execAcas a0 a1 a2 a3 a4 a5 a6 a7 s
  | .atoms a0 a1 a2 a3 a4 a5 a6 a7 a8 => Sys2Proof.Machine.execAtoms a0 a1 a2 a3 a4 a5 a6 a7 a8 s
  | .waita a0 a1 a2 a3 a4 a5 a6 a7 a8 => Sys2Proof.Machine.execWaita a0 a1 a2 a3 a4 a5 a6 a7 a8 s
  | .fence a0 a1 a2 a3 => Sys2Proof.Machine.execFence a0 a1 a2 a3 s
  | .ldacq a0 a1 a2 a3 a4 a5 => Sys2Proof.Machine.execLdacq a0 a1 a2 a3 a4 a5 s
  | .strel a0 a1 a2 a3 a4 a5 => Sys2Proof.Machine.execStrel a0 a1 a2 a3 a4 a5 s
  | .syadd a0 a1 a2 a3 a4 a5 a6 => Sys2Proof.Machine.execSyadd a0 a1 a2 a3 a4 a5 a6 s
  | .bar a0 a1 a2 => Sys2Proof.Machine.execBar a0 a1 a2 s
  | .bara a0 a1 a2 => Sys2Proof.Machine.execBara a0 a1 a2 s
  | .cpyin a0 a1 a2 a3 a4 a5 => Sys2Proof.Machine.execCpyin a0 a1 a2 a3 a4 a5 s
  | .cpyout a0 a1 a2 a3 a4 a5 => Sys2Proof.Machine.execCpyout a0 a1 a2 a3 a4 a5 s
  | .cpyw a0 a1 a2 a3 a4 a5 => Sys2Proof.Machine.execCpyw a0 a1 a2 a3 a4 a5 s
  | .rfill a0 a1 => Sys2Proof.Machine.execRfill a0 a1 s
  | .rawait a0 a1 a2 a3 => Sys2Proof.Machine.execRawait a0 a1 a2 a3 s
  | .rrelease a0 a1 => Sys2Proof.Machine.execRrelease a0 a1 s
  | .rpush a0 a1 => Sys2Proof.Machine.execRpush a0 a1 s
  | .rinit a0 a1 a2 => Sys2Proof.Machine.execRinit a0 a1 a2 s
  | .split a0 a1 a2 => Sys2Proof.Machine.execSplit a0 a1 a2 s
  | .mmarkSelf a0 a1 => Sys2Proof.Machine.execMmarkSelf a0 a1 s
  | .mmarkMask a0 a1 a2 a3 => Sys2Proof.Machine.execMmarkMask a0 a1 a2 a3 s
  | .mmarkClear a0 a1 => Sys2Proof.Machine.execMmarkClear a0 a1 s
  | .mldw a0 a1 a2 a3 a4 a5 => Sys2Proof.Machine.execMldw a0 a1 a2 a3 a4 a5 s
  | .mswap a0 a1 a2 => Sys2Proof.Machine.execMswap a0 a1 a2 s
  | .mstr a0 a1 a2 a3 a4 a5 a6 a7 => Sys2Proof.Machine.execMstr a0 a1 a2 a3 a4 a5 a6 a7 s
  | .mdist a0 a1 a2 a3 a4 a5 a6 a7 => Sys2Proof.Machine.execMdist a0 a1 a2 a3 a4 a5 a6 a7 s
  | .mtopk a0 a1 a2 a3 a4 a5 a6 => Sys2Proof.Machine.execMtopk a0 a1 a2 a3 a4 a5 a6 s
  | .mrd a0 a1 a2 a3 a4 a5 => Sys2Proof.Machine.execMrd a0 a1 a2 a3 a4 a5 s
  | .mrdScr a0 a1 a2 a3 a4 a5 a6 a7 => Sys2Proof.Machine.execMrdScr a0 a1 a2 a3 a4 a5 a6 a7 s
  | .mclr a0 a1 a2 a3 a4 a5 => Sys2Proof.Machine.execMclr a0 a1 a2 a3 a4 a5 s
  | .claim a0 a1 a2 => Sys2Proof.Machine.execClaim a0 a1 a2 s
  | .mwait a0 a1 a2 a3 => Sys2Proof.Machine.execMwait a0 a1 a2 a3 s
  | .mnote a0 a1 => Sys2Proof.Machine.execMnote a0 a1 s
  | .mnoteall a0 a1 => Sys2Proof.Machine.execMnoteall a0 a1 s
  | .heldTest a0 a1 a2 => Sys2Proof.Machine.execHeldTest a0 a1 a2 s
  | .heldList a0 a1 a2 => Sys2Proof.Machine.execHeldList a0 a1 a2 s
  | .mrepair a0 a1 => Sys2Proof.Machine.execMrepair a0 a1 s
  | .tspawn a0 a1 => Sys2Proof.Machine.execTspawn a0 a1 s
  | .tdone a0 => Sys2Proof.Machine.execTdone a0 s
  | .publap a0 a1 a2 => Sys2Proof.Machine.execPublap a0 a1 a2 s
  | .tstop a0 a1 => Sys2Proof.Machine.execTstop a0 a1 s
  | .tlapState a0 a1 a2 => Sys2Proof.Machine.execTlapState a0 a1 a2 s
  | .tlapBuf a0 a1 a2 => Sys2Proof.Machine.execTlapBuf a0 a1 a2 s
  | .tabortRequeue a0 => Sys2Proof.Machine.execTabortRequeue a0 s
  | .tabortFail a0 => Sys2Proof.Machine.execTabortFail a0 s
  | .tsettle a0 a1 => Sys2Proof.Machine.execTsettle a0 a1 s
  | .resume a0 a1 a2 a3 => Sys2Proof.Machine.execResume a0 a1 a2 a3 s
  | .killLanes a0 a1 a2 => Sys2Proof.Machine.execKillLanes a0 a1 a2 s
  | .killHeat a0 a1 => Sys2Proof.Machine.execKillHeat a0 a1 s
  | .killKernel a0 a1 => Sys2Proof.Machine.execKillKernel a0 a1 s
  | .eret a0 a1 => Sys2Proof.Machine.execEret a0 a1 s
  | .tframeNext a0 a1 a2 a3 => Sys2Proof.Machine.execTframeNext a0 a1 a2 a3 s
  | .tframeRd a0 a1 a2 a3 a4 => Sys2Proof.Machine.execTframeRd a0 a1 a2 a3 a4 s
  | .tframeWr a0 a1 a2 a3 a4 => Sys2Proof.Machine.execTframeWr a0 a1 a2 a3 a4 s
  | .mfs a0 a1 a2 => Sys2Proof.Machine.execMfs a0 a1 a2 s
  | .mts a0 a1 a2 => Sys2Proof.Machine.execMts a0 a1 a2 s
  | .tlbinvRange a0 a1 a2 => Sys2Proof.Machine.execTlbinvRange a0 a1 a2 s
  | .tlbinvCtx a0 => Sys2Proof.Machine.execTlbinvCtx a0 s
  | .splinter a0 a1 a2 a3 => Sys2Proof.Machine.execSplinter a0 a1 a2 a3 s
  | .brkpt a0 => Sys2Proof.Machine.execBrkpt a0 s
  | .brkptWset a0 a1 a2 a3 a4 => Sys2Proof.Machine.execBrkptWset a0 a1 a2 a3 a4 s
  | .brkptWclr a0 a1 => Sys2Proof.Machine.execBrkptWclr a0 a1 s
  | .haltallStop a0 => Sys2Proof.Machine.execHaltallStop a0 s
  | .haltallGo a0 => Sys2Proof.Machine.execHaltallGo a0 s
  | .undo a0 a1 a2 => Sys2Proof.Machine.execUndo a0 a1 a2 s
  | .stamp a0 a1 a2 => Sys2Proof.Machine.execStamp a0 a1 a2 s
  | .bist a0 a1 a2 a3 a4 => Sys2Proof.Machine.execBist a0 a1 a2 a3 a4 s
  | .defmap a0 a1 a2 => Sys2Proof.Machine.execDefmap a0 a1 a2 s
  | .releaseDeposit a0 a1 => Sys2Proof.Machine.execReleaseDeposit a0 a1 s
  | .halt a0 => Sys2Proof.Machine.execHalt a0 s
  | .pacedIssue a0 => Sys2Proof.Machine.execPacedIssue a0 s
  | .promote a0 => Sys2Proof.Machine.execPromote a0 s
  | .memoryResponse a0 a1 a2 => Sys2Proof.Machine.execMemoryResponse a0 a1 a2 s
  | .remoteTimeout a0 => Sys2Proof.Machine.execRemoteTimeout a0 s
  | .copyComplete a0 => Sys2Proof.Machine.execCopyComplete a0 s
  | .cpywPerform a0 => Sys2Proof.Machine.execCpywPerform a0 s
  | .waitaPoll a0 a1 => Sys2Proof.Machine.execWaitaPoll a0 a1 s
  | .waitaTimeout a0 a1 => Sys2Proof.Machine.execWaitaTimeout a0 a1 s
  | .handOff a0 a1 => Sys2Proof.Machine.execHandOff a0 a1 s
  | .matrixOpComplete a0 a1 => Sys2Proof.Machine.execMatrixOpComplete a0 a1 s
  | .monitorGrant a0 a1 => Sys2Proof.Machine.execMonitorGrant a0 a1 s
  | .mwaitTimeout a0 a1 => Sys2Proof.Machine.execMwaitTimeout a0 a1 s
  | .heatRetire a0 => Sys2Proof.Machine.execHeatRetire a0 s
  | .completionRelease a0 a1 => Sys2Proof.Machine.execCompletionRelease a0 a1 s
  | .launch a0 => Sys2Proof.Machine.execLaunch a0 s
  | .launchStart a0 => Sys2Proof.Machine.execLaunchStart a0 s
  | .relayStart a0 => Sys2Proof.Machine.execRelayStart a0 s
  | .unitSave a0 => Sys2Proof.Machine.execUnitSave a0 s
  | .suspendWindowExpiry a0 => Sys2Proof.Machine.execSuspendWindowExpiry a0 s
  | .suspendDeadline a0 => Sys2Proof.Machine.execSuspendDeadline a0 s
  | .unitRestore a0 => Sys2Proof.Machine.execUnitRestore a0 s
  | .faultPost a0 => Sys2Proof.Machine.execFaultPost a0 s
  | .faultPostRetry a0 => Sys2Proof.Machine.execFaultPostRetry a0 s
  | .tframeTimeout a0 a1 => Sys2Proof.Machine.execTframeTimeout a0 a1 s
  | .pageDone a0 => Sys2Proof.Machine.execPageDone a0 s
  | .qctlSet a0 => Sys2Proof.Machine.execQctlSet a0 s
  | .qctlPause a0 => Sys2Proof.Machine.execQctlPause a0 s
  | .qctlUnpause a0 => Sys2Proof.Machine.execQctlUnpause a0 s
  | .qctlFlush a0 => Sys2Proof.Machine.execQctlFlush a0 s
  | .ctxOpen a0 => Sys2Proof.Machine.execCtxOpen a0 s
  | .ctxClose a0 => Sys2Proof.Machine.execCtxClose a0 s
  | .ctxCloseDone a0 => Sys2Proof.Machine.execCtxCloseDone a0 s
  | .saInstall a0 => Sys2Proof.Machine.execSaInstall a0 s
  | .saRemove a0 => Sys2Proof.Machine.execSaRemove a0 s
  | .uetWrite a0 a1 => Sys2Proof.Machine.execUetWrite a0 a1 s
  | .uetRead a0 a1 => Sys2Proof.Machine.execUetRead a0 a1 s
  | .uetReleaseWrite a0 a1 => Sys2Proof.Machine.execUetReleaseWrite a0 a1 s
  | .uudPacket a0 => Sys2Proof.Machine.execUudPacket a0 s
  | .readShared a0 a1 => Sys2Proof.Machine.execReadShared a0 a1 s
  | .readOwn a0 a1 => Sys2Proof.Machine.execReadOwn a0 a1 s
  | .upgrade a0 a1 => Sys2Proof.Machine.execUpgrade a0 a1 s
  | .fwdShared a0 a1 => Sys2Proof.Machine.execFwdShared a0 a1 s
  | .fwdOwn a0 a1 => Sys2Proof.Machine.execFwdOwn a0 a1 s
  | .inval a0 a1 => Sys2Proof.Machine.execInval a0 a1 s
  | .backInval a0 a1 => Sys2Proof.Machine.execBackInval a0 a1 s
  | .invalAck a0 a1 => Sys2Proof.Machine.execInvalAck a0 a1 s
  | .dataClean a0 a1 a2 => Sys2Proof.Machine.execDataClean a0 a1 a2 s
  | .dataDirty a0 a1 a2 => Sys2Proof.Machine.execDataDirty a0 a1 a2 s
  | .writeBack a0 a1 => Sys2Proof.Machine.execWriteBack a0 a1 s
  | .cleanEvict a0 a1 => Sys2Proof.Machine.execCleanEvict a0 a1 s
  | .backInvalAck a0 a1 => Sys2Proof.Machine.execBackInvalAck a0 a1 s
  | .earlyClean a0 a1 => Sys2Proof.Machine.execEarlyClean a0 a1 s
  | .requestBoundMiss a0 a1 => Sys2Proof.Machine.execRequestBoundMiss a0 a1 s
  | .suspicion a0 a1 => Sys2Proof.Machine.execSuspicion a0 a1 s
  | .probeTimeout a0 a1 => Sys2Proof.Machine.execProbeTimeout a0 a1 s
  | .journalSave a0 a1 => Sys2Proof.Machine.execJournalSave a0 a1 s
  | .deal a0 => Sys2Proof.Machine.execDeal a0 s
  | .commit a0 => Sys2Proof.Machine.execCommit a0 s
  | .dieTokenGrant a0 => Sys2Proof.Machine.execDieTokenGrant a0 s
  | .lapPublish a0 => Sys2Proof.Machine.execLapPublish a0 s
  | .groupSettle a0 a1 => Sys2Proof.Machine.execGroupSettle a0 a1 s
  | .tlbinvComplete a0 => Sys2Proof.Machine.execTlbinvComplete a0 s
  | .uncorrectableError a0 => Sys2Proof.Machine.execUncorrectableError a0 s
  | .patrolScrub a0 a1 => Sys2Proof.Machine.execPatrolScrub a0 a1 s
  | .bistDone a0 a1 a2 a3 a4 => Sys2Proof.Machine.execBistDone a0 a1 a2 a3 a4 s
  | .powerGood a0 a1 => Sys2Proof.Machine.execPowerGood a0 a1 s
  | .portTrainingDone a0 => Sys2Proof.Machine.execPortTrainingDone a0 s
  | .dieReset a0 => Sys2Proof.Machine.execDieReset a0 s
  | .dieRejoin a0 a1 a2 => Sys2Proof.Machine.execDieRejoin a0 a1 a2 s
  | .portRetrain a0 => Sys2Proof.Machine.execPortRetrain a0 s
  | .mgmtAssocInstall a0 => Sys2Proof.Machine.execMgmtAssocInstall a0 s
  | .mapDataRead => Sys2Proof.Machine.execMapDataRead s
  | .portErrorClear a0 => Sys2Proof.Machine.execPortErrorClear a0 s
  | .powerCapWrite a0 => Sys2Proof.Machine.execPowerCapWrite a0 s
  | .marginRun a0 => Sys2Proof.Machine.execMarginRun a0 s
  | .marginDone a0 a1 => Sys2Proof.Machine.execMarginDone a0 a1 s
  | .sidebandWrite a0 a1 => Sys2Proof.Machine.execSidebandWrite a0 a1 s
  | .bypass a0 a1 => Sys2Proof.Machine.execBypass a0 a1 s
  | .extest a0 => Sys2Proof.Machine.execExtest a0 s
  | .samplePreload a0 a1 => Sys2Proof.Machine.execSamplePreload a0 a1 s
  | .idcode => Sys2Proof.Machine.execIdcode s
  | .clamp => Sys2Proof.Machine.execClamp s
  | .highz => Sys2Proof.Machine.execHighz s
  | .defread a0 => Sys2Proof.Machine.execDefread a0 s
  | .kindNotAllowed a0 a1 => Sys2Proof.Machine.execKindNotAllowed a0 a1 s
  | .probeAnswer a0 a1 => Sys2Proof.Machine.execProbeAnswer a0 a1 s
  | .linkLaneFailure a0 => Sys2Proof.Machine.execLinkLaneFailure a0 s
  | .dynamicAddress a0 => Sys2Proof.Machine.execDynamicAddress a0 s
  | .powerExceedsCap a0 => Sys2Proof.Machine.execPowerExceedsCap a0 s
  | .resetBall a0 => Sys2Proof.Machine.execResetBall a0 s

end Sys2Proof.Machine
end

