-- ==== Sys2Proof/Machine/Auto.lean ====
section
/-! DEFINITION. One move of the part: an issue of a heat, an event of another agent, or clocks that pass; and, when the
agenda names none, the move that the part makes by itself.
Readings logged: DESIGN CHOICE 3. -/

namespace Sys2Proof.Machine

abbrev Out := Host.Outcome State Fault Refusal

/-- An attempt of a heat to issue (R112): selection, and then the decoded word's own step. Only active heats issue (R83). -/
def tryIssue (key : HeatKey) (s : State) : Out :=
  match s.heat? key with
  | none => .next { s with now := s.now + 1 }
  | some h =>
    if h.active && s.heatReady h then
      let s := prepare 40 key [] (s.updHeat key (fun h => if h.busy = some .halt then { h with busy := none } else h))
      match s.iss with
      | none => .next { s with now := s.now + 1 }
      | some x => match decode x.word with
        | .ok i => exec i s
        | .error _ => .next (issueIllegal s)
    else .next { s with now := s.now + 1 }

/-- The heats that may issue, in the order in which a partition would take them: active, and the oldest last issue; a heat
that has not issued since its promotion counts as oldest, then the higher class, then the longer resident (R85). -/
def State.candidates (s : State) : List HeatKey :=
  let cand := s.heats.filter (fun h => h.active && s.heatReady h && s.movable h)
  (sortBy (fun h => (match h.lastIssue with | none => 0 | some t => t + 1) * 2 ^ 80 + h.cls * 2 ^ 72 + h.since) cand).map (·.key)

/-- The heats of its partition that go before a heat (R85). -/
def State.ahead (s : State) (h : Heat) : List HeatKey :=
  (s.candidates.takeWhile (· ≠ h.key)).filter (fun k => ((s.heat? k).map (fun x => x.on h.core h.part)).getD false)

/-- The first heat whose issue does more than let a clock pass, with what it leaves (R113). -/
def firstIssue (s : State) : List HeatKey → Option State
  | [] => none
  | key :: ks => match tryIssue key s with
    | .next t => if ({ t with now := s.now } : State) = s then firstIssue s ks else some t
    | _ => firstIssue s ks

/-- An issue clock of a heat's partition (R85): a heat that goes before it and can issue does, and else the heat itself. -/
def issueHeat (key : HeatKey) (s : State) : Out :=
  match s.heat? key with
  | none => tryIssue key s
  | some h => match firstIssue s (s.ahead h) with
    | some t => .next t
    | none => tryIssue key s

/-- One move (log entry 3). -/
def move (m : Move) (s : State) : Out :=
  match m with
  | .event i => if Instr.isWord i then .next s else exec i s
  | .issue key => issueHeat key s
  | .pass n => .next { s with now := s.now + n }

/-! The part's own events, which need nothing from outside. -/

/-- The delivery of a coherence message (R302). -/
def deliver (m : CMsg) : Instr :=
  match m.kind with
  | .readShared => .readShared m.src m.dst
  | .readOwn => .readOwn m.src m.dst
  | .upgrade => .upgrade m.src m.dst
  | .fwdShared => .fwdShared m.src m.dst
  | .fwdOwn => .fwdOwn m.src m.dst
  | .inval => .inval m.src m.dst
  | .backInval => .backInval m.src m.dst
  | .invalAck => .invalAck m.src m.dst
  | .dataClean => .dataClean m.src m.dst none
  | .dataDirty => .dataDirty m.src m.dst none
  | .writeBack => .writeBack m.src m.dst
  | .cleanEvict => .cleanEvict m.src m.dst
  | .backInvalAck => .backInvalAck m.src m.dst

/-- The events of a lane that waits. -/
def laneEvents (key : HeatKey) (l : Nat) (x : Lane) : List Instr :=
  match x.st with
  | .blocked (.waita ..) => [.waitaPoll key l, .waitaTimeout key l]
  | .blocked (.mwait c ..) => [.monitorGrant key.ctx c, .mwaitTimeout key l]
  | .blocked (.colour c _) => [.monitorGrant key.ctx c]
  | .blocked (.claim cs) => cs.map (.monitorGrant key.ctx)
  | .blocked (.tframe ..) => [.tframeTimeout key l]
  | _ => []

def Heat.events (h : Heat) : List Instr :=
  ((upto h.lanes.length).zip h.lanes).flatMap (fun e => laneEvents h.key e.1 e.2) ++
  [.cpywPerform h.key, .tlbinvComplete h.key, .heatRetire h.key, .pacedIssue h.key, .promote h.key]

/-- The rings on which lanes of a heat wait (R232). -/
def Heat.ringsAwaited (h : Heat) : List Nat := h.lanes.filterMap (fun x => match x.st with | .blocked (.rawait r ..) => some r | _ => none)

def RUnit.events (s : State) (u : RUnit) : List Instr :=
  let rings := u.handoffs.map (·.ring) ++ (s.heats.filter (fun h => h.unit = u.id)).flatMap Heat.ringsAwaited
  (nub rings).map (fun r => .handOff u.key r) ++
  [.relayStart u.key, .unitSave u.key, .suspendWindowExpiry u.key, .suspendDeadline u.key]

/-- What may stand ready for a request: its answer, its way out where it has found no port yet, and the end of its time
(R17, R200). -/
def Req.events (r : Req) : List Instr :=
  if r.remote.isNone || r.way.isNone then [.memoryResponse r.id none .ack] else [.remoteTimeout r.id]

/-- The dirty sectors of the L2s, which may stand ready for early cleaning (R308). -/
def State.cleanable (s : State) : List Instr :=
  (s.l2.filter (fun e => e.2.st = .m ∨ e.2.st = .o ∨ e.2.st = .dirty)).map (fun e => .earlyClean (e.1 / 2 ^ 34) (e.1 % 2 ^ 34))

/-- The events that may stand ready: memory, releases, engines, lanes, units, contexts, and the agents of each die. -/
def State.events (s : State) : List Instr :=
  (upto 4).flatMap (fun d => [.faultPost d, .faultPostRetry d]) ++ s.msgs.map deliver ++
  s.reqs.flatMap Req.events ++ s.maps.map (fun p => .tlbinvComplete { ctx := p.ctx, serial := 0, team := 0, heat := 0 }) ++
  s.rels.map (fun r => .releaseDeposit r.origin r.ctx) ++
  (s.ops.filter (·.isCopy)).map (fun o => .copyComplete o.id) ++
  (s.arrays.filter (fun a => !a.2.q.isEmpty)).map (fun a => .matrixOpComplete (a.1 / 2) (a.1 % 2 == 1)) ++
  s.ctxs.flatMap (fun c => c.2.saves.map (fun e => Instr.journalSave c.1 e.2) ++
    [.halt c.1, .ctxCloseDone c.1]) ++
  s.heats.flatMap Heat.events ++ s.units.flatMap (RUnit.events s) ++
  s.kernels.map (fun k => .completionRelease k.ctx k.serial) ++ s.groups.map (fun g => .groupSettle g.ctx g.obj) ++
  (upto 4).flatMap (fun d => [.commit d, .lapPublish d, .dieTokenGrant d, .unitRestore d, .launchStart d, .deal d]) ++ s.cleanable

/-- The first event of a list that changes the state, with what it leaves. -/
def firstChange (s : State) : List Instr → Option State
  | [] => none
  | i :: is => match exec i s with
    | .next t => if t = s then firstChange s is else some t
    | _ => firstChange s is

/-- The move that the part makes when the agenda names none: an event of its own that stands ready, else an issue of a
heat, else a clock. -/
def autoMove (s : State) : Out :=
  match firstChange s s.events with
  | some t => .next t
  | none => match firstIssue s s.candidates with
    | some t => .next t
    | none => .next { s with now := s.now + 1 }

end Sys2Proof.Machine
end

