-- ==== Sys2Proof/Machine/Place.lean ====
section
/-! DEFINITION. How a test word comes to stand where the next step fetches: the state that a launch would have made, with
one resident heat at a block that holds the word (log entry 4).
Readings logged: DESIGN CHOICE 4. -/

namespace Sys2Proof.Machine

/-- The heat that stands at the placed block. -/
def placedKey : HeatKey := { ctx := 0, serial := 1, team := 0, heat := 0 }

/-- The header of the placed block: one word, flags f0 and f1, high-water 320 (R89). -/
def placedHeader : Nat := 15 * 2 ^ 60 + 1 * 2 ^ 52 + 1 * 2 ^ 32 + 320 * 2 ^ 23

/-- The page tables of the placed context: a path from 0x1000 to the 64 KiB page at 0x10000 (R196, R197). -/
def placedTables : List (Nat × Nat) :=
  [(0x1000, 0x2001), (0x2000, 0x3001), (0x3000, 0x4001), (0x4000, 0x5001), (0x5000, 0x1003F)]

/-- The role that may issue an opcode (R82). -/
def placedRole (op : Nat) : Nat := if roleAllows 2 op then 2 else if roleAllows 0 op then 0 else 1

/-- The state with a word placed: context 0 open, its tables, the block's header and the word in memory, and one heat
whose lane 0 stands at the header and whose other lanes have exited. The next move is an issue of that heat. -/
def State.place (s : State) (w : Nat) : State :=
  let mem := placedTables.foldl (fun m e => writeBytes m e.1 (toBytes 8 e.2)) s.mem
  let mem := writeBytes (writeBytes mem 0x10000 (toBytes 8 placedHeader)) 0x10008 (toBytes 8 w)
  let op := fld w 56 8
  let lanes : List Lane := {} :: List.replicate 31 { st := .exited }
  let h : Heat := { key := placedKey, core := 0, part := 0, unit := 0, leg := 0, role := placedRole op, budget := 320, cls := 0
                    heatn := 1, lanes := lanes, active := true, service := true }
  let u : RUnit := { id := 0, key := { ctx := 0, serial := 1, relay := 0 }, core := 0, cls := 0, size := 65536, started := true
                     teams := [{ team := 0, leg := 0, heats := 1 }] }
  let k : Kernel := { ctx := 0, serial := 1, queue := 63, lrec := { image := 0, completion := 0, legs := [], levels := [] }, cls := 0
                      port := 0, endpoint := 1, sender := 0, tag := 0, travel := .plain, st := .running, placed := 1 }
  { s with
    mem := mem
    sb := { s.sb with state := 2 }
    ctxs := Tbl.set s.ctxs 0 { opened := true, root := 0x1000, nextSerial := 2 }
    kernels := [k], units := [u], heats := [h], tlb := [], l2 := [], dir := [], rwq := [], msgs := [], poison := []
    agenda := [.issue placedKey], iss := none, nid := s.nid + 1 }

end Sys2Proof.Machine
end

