-- ==== Sys2Proof/Machine/Step.lean ====
section
/-! DEFINITION. The step function: the next move of the agenda, or the part's own. -/

namespace Sys2Proof.Machine

/-- One step. -/
def step (s : State) : Host.Outcome State Fault Refusal :=
  match s.agenda with
  | m :: rest => move m { s with agenda := rest }
  | [] => autoMove s

/-- The state with an instruction stored where the next step fetches (log entry 4): an instruction is one 64-bit word. -/
def State.withFetchWord (s : State) (nbits w : Nat) : State := s.place (w % 2 ^ nbits)

end Sys2Proof.Machine
end

