-- ==== Sys2Proof/Safety.lean ====
section
/-! DEFINITION. What counts as a safe run, and the terms in which claims speak of the issue of an instruction word: when a
word issues without a trap or a stall, and what an issue leaves unchanged. -/

namespace Sys2Proof

/-- A step that answers a next state. -/
def Goes (s : Machine.State) : Prop := ∃ t, Machine.step s = .next t

/-- A run of `n` steps from a state that meets no fault and no refusal. -/
def SafeRun (s : Machine.State) (n : Nat) : Prop := ∃ t, core.run n s = .next t

namespace Safe
open Sys2Proof.Machine

/-- The common fields of a word (R93). -/
def com (i : Instr) : Com := Dec.com (encode i)

/-- The state once the issuing lanes have left the header of their block (R112). -/
def entered (s : State) (x : Iss) : State := enterBlock { s with iss := none } x

/-- active(): the issuing lanes whose guard holds (R93, R108). -/
def active (i : Instr) (x : Iss) (h : Heat) : List Nat := x.lanes.filter (fun l => (h.lane l).guard (com i))

/-- A word is at hand: heat `h`, as its block's entry leaves it, has the lanes of `x` running. -/
structure Stands (s : State) (x : Iss) (h : Heat) : Prop where
  iss : s.iss = some x
  heat : (entered s x).heat? x.key = some h
  some_lane : x.lanes ≠ []
  lanes : ∀ l ∈ x.lanes, l < h.lanes.length ∧ (h.lane l).st = .running
  order : x.lanes.Pairwise (· < ·)

/-- A word that issues: it meets none of the checks that stand before its effect (R94, R98, R82, R122, R402, R124). -/
structure Issues (i : Instr) (s : State) (x : Iss) (h : Heat) : Prop extends Stands s x h where
  legal : decodeTrap i x.hdr = false
  role : roleAllows h.role (Instr.opcode i) = true
  readable : Instr.unreadable i = false
  room : Instr.long i = true → Tbl.get 0 h.fcnt (flagOf x.hdr (com i)) ≠ 63
  mode : Instr.privileged i = true → h.service = true
  clear : ∀ l ∈ active i x h, h.hazard l (Instr.namedV i) (Instr.namedK i) = false

/-- What every issue does to a lane at its end: a lane that issued has issued now, and a lane that yielded before runs again
(R114, R115, R431). -/
def closeLane (issuing : List Nat) (now : Nat) (l : Nat) (x : Lane) : Lane :=
  if issuing.contains l then { x with age := some now, noBreak := false }
  else if x.st = .yielded then { x with st := .running } else x

/-- A destination of a lane read back: 64 bits with `w`, else 32; a uniform register whole. -/
def readDst (h : Heat) (w : Bool) (l : Nat) : Dst → Nat
  | .v n => if w then (h.lane l).v64 n else (h.lane l).v32 n
  | .k n => h.k64 n

/-- Whether a destination of 32 bits, or of 64 with `w`, covers vector register `n`. -/
def covers (w : Bool) (n : Nat) : Dst → Bool
  | .v m => n == m || (w && n == m + 1)
  | .k _ => false

/-- What an issue leaves of a lane whatever the instruction: all but its registers, its place, its state and the marks of
its last issue. -/
def LaneKept (x y : Lane) : Prop :=
  y = { x with pc := y.pc, blk := y.blk, st := y.st, v := y.v, p := y.p, age := y.age, noBreak := y.noBreak }

/-- What an issue leaves of a heat whatever the instruction. -/
def HeatKept (h g : Heat) : Prop :=
  g = { h with lanes := g.lanes, k := g.k, nflags := g.nflags, starved := g.starved, paced := g.paced, fence := g.fence,
               lastIssue := g.lastIssue, undo := g.undo } ∧
  g.lanes.length = h.lanes.length ∧ ∀ l, LaneKept (h.lane l) (g.lane l)

/-- What an issue that works on its own heat alone leaves of the part: everything but that heat, the flag words of the
tasks its lanes run, and the clock. -/
def PartKept (s t : State) (x : Iss) (h : Heat) : Prop :=
  t = { s with heats := t.heats, runs := t.runs, iss := none, now := s.now + 1 } ∧
  (∀ k, k ≠ x.key → t.heat? k = s.heat? k) ∧
  ((∀ l ∈ x.lanes, (h.lane l).task = none) → t.runs = s.runs)

/-- The lanes that issued stand at the next word: after the last word of the block, at the next header (R88). The others
stay where they are. -/
def Advanced (x : Iss) (h g : Heat) : Prop :=
  (∀ l ∈ x.lanes, (g.lane l).pc = (h.lane l).advance.pc ∧ (g.lane l).blk = (h.lane l).advance.blk ∧ (g.lane l).st = .running) ∧
  ∀ m, m ∉ x.lanes → (g.lane m).pc = (h.lane m).pc ∧ (g.lane m).blk = (h.lane m).blk

/-- The value that a destination takes: the lane's own in a vector register, the lowest active lane's in a uniform one
(R101), cut to the destination's width. -/
def destValue (w : Bool) (act : List Nat) (f : Nat → Nat) (l : Nat) : Dst → Nat
  | .v _ => f l % 2 ^ (if w then 64 else 32)
  | .k _ => f (act.headD 0) % 2 ^ (if w then 64 else 32)

/-- The outcome of a word that computes one value for each active lane: `f` gives a lane's value and flags. The value
stands in the destination (in a uniform one where some lane is active, R101), the flags are merged (R160), the lanes stand
at the next word, and everything else is unchanged. -/
def Computed (s t : State) (x : Iss) (h : Heat) (act : List Nat) (w : Bool) (d : Dst) (f : Nat → Nat × Nat) : Prop :=
  PartKept s t x h ∧ ∃ g, t.heat? x.key = some g ∧ HeatKept h g ∧ Advanced x h g ∧
    (∀ l ∈ act, readDst g w l d = destValue w act (fun l => (f l).1) l d) ∧
    ((∀ l ∈ x.lanes, (h.lane l).task = none) → g.nflags = act.foldl (fun n l => n ||| (f l).2) h.nflags) ∧
    (∀ l n, ¬ (l ∈ act ∧ covers w n d = true) → (g.lane l).v32 n = (h.lane l).v32 n) ∧
    (∀ n, d ≠ .k n ∨ act = [] → g.k64 n = h.k64 n) ∧ (∀ l, (g.lane l).p = (h.lane l).p)

/-- A lane's reading of a source as a type, in the state in which a word issues. -/
abbrev Reads := Ty → Src → Nat → Nat

/-- What the lanes of an issuing word read. -/
def reads (i : Instr) (s : State) (x : Iss) (h : Heat) : Reads := fun ty a l => srcT s h (maskOf (active i x h)) l ty a

/-- Every issue of the word completes as `Computed` says, for the value and flags that `f` gives from active() and from
what the lanes read. -/
def Collects (i : Instr) (w : Bool) (d : Dst) (f : List Nat → Heat → Reads → Nat → Nat × Nat) : Prop :=
  ∀ s x h, Issues i s x h → ∃ t, exec i s = .next t ∧
    Computed s t x h (active i x h) w d (f (active i x h) h (reads i s x h))

/-- The same where a lane's value depends on the lane alone. -/
def Computes (i : Instr) (w : Bool) (d : Dst) (f : Heat → Reads → Nat → Nat × Nat) : Prop := Collects i w d (fun _ => f)

/-- Every issue of the word completes and writes predicates alone: in an active lane, predicate `n` takes the value that `f`
gives, or stays where it gives none. -/
def SetsPreds (i : Instr) (f : List Nat → Heat → Reads → Nat → Nat → Option Bool) : Prop :=
  ∀ s x h, Issues i s x h → ∃ t, exec i s = .next t ∧ PartKept s t x h ∧ t.runs = s.runs ∧
    ∃ g, t.heat? x.key = some g ∧ HeatKept h g ∧ Advanced x h g ∧
      (∀ l ∈ active i x h, ∀ n, n < 12 →
        (g.lane l).p.getLsbD n = (f (active i x h) h (reads i s x h) l n).getD ((h.lane l).p.getLsbD n)) ∧
      (∀ l, l ∉ active i x h → (g.lane l).p = (h.lane l).p) ∧
      (∀ l, (g.lane l).v = (h.lane l).v) ∧ g.k = h.k ∧ g.nflags = h.nflags

/-- Every issue of the word completes and writes `n` vector registers from `d` in each active lane: the j-th takes the value
of `f j`, whose flags are merged. -/
def ComputesRun (i : Instr) (n d : Nat) (f : Heat → Reads → Nat → Nat → Nat × Nat) : Prop :=
  ∀ s x h, Issues i s x h → ∃ t, exec i s = .next t ∧ PartKept s t x h ∧
    ∃ g, t.heat? x.key = some g ∧ HeatKept h g ∧ Advanced x h g ∧
      (∀ l ∈ active i x h, ∀ j, j < n → (g.lane l).v32 (d + j) = (f h (reads i s x h) j l).1 % 2 ^ 32) ∧
      (∀ l m, ¬ (l ∈ active i x h ∧ d ≤ m ∧ m < d + n) → (g.lane l).v32 m = (h.lane l).v32 m) ∧
      ((∀ l ∈ x.lanes, (h.lane l).task = none) → g.nflags = (List.range n).foldl (fun a j =>
        (active i x h).foldl (fun a l => a ||| (f h (reads i s x h) j l).2) a) h.nflags) ∧
      g.k = h.k ∧ (∀ l, (g.lane l).p = (h.lane l).p)

/-- Every issue of the word that meets `P` completes and changes lanes alone: an active lane becomes what `F` makes of it,
the other lanes that issued stand at the next word, and every register, record, flag and count of the heat, every other
heat and the rest of the part are unchanged. -/
def LanesEnd (i : Instr) (P : Iss → List Nat → Heat → Reads → Prop) (F : Iss → Heat → Reads → Nat → Lane → Lane) : Prop :=
  ∀ s x h, Issues i s x h → P x (active i x h) h (reads i s x h) → ∃ t g, exec i s = .next t ∧
    t = { s with heats := t.heats, iss := none, now := s.now + 1 } ∧ (∀ k, k ≠ x.key → t.heat? k = s.heat? k) ∧
    t.heat? x.key = some g ∧
    g = { h with lanes := g.lanes, starved := g.starved, paced := false, fence := none, lastIssue := some s.now, undo := g.undo } ∧
    ∀ l, l < h.lanes.length → g.lane l = closeLane x.lanes s.now l
      (if l ∈ active i x h then F x h (reads i s x h) l (h.lane l) else if l ∈ x.lanes then (h.lane l).advance else h.lane l)

/-- What a word sees when it issues: the state, the issue, the heat, active(), and what the lanes read. -/
structure Seen where
  s : State
  x : Iss
  h : Heat
  act : List Nat
  rd : Reads

/-- What an issuing word sees. -/
def seen (i : Instr) (s : State) (x : Iss) (h : Heat) : Seen := { s := s, x := x, h := h, act := active i x h, rd := reads i s x h }

/-- The lowest lane in active(). -/
def Seen.low (e : Seen) : Nat := e.act.headD 0

/-- Every issue of the word that meets `P` completes: the part becomes what `U` makes of it, the heat what `G` makes of it,
and an active lane what `F` makes of it; the other lanes that issued stand at the next word, and every other heat is
unchanged. -/
def Acts (i : Instr) (P : Seen → Prop) (U : Seen → State) (G : Seen → Heat) (F : Seen → Nat → Lane → Lane) : Prop :=
  ∀ s x h, Issues i s x h → P (seen i s x h) → ∃ t g, exec i s = .next t ∧
    t = { U (seen i s x h) with heats := t.heats, iss := none, now := s.now + 1 } ∧ (∀ k, k ≠ x.key → t.heat? k = s.heat? k) ∧
    t.heat? x.key = some g ∧
    g = { G (seen i s x h) with lanes := g.lanes, starved := g.starved, paced := false, fence := none, lastIssue := some s.now,
                                undo := g.undo } ∧
    ∀ l, l < h.lanes.length → g.lane l = closeLane x.lanes s.now l
      (if l ∈ active i x h then F (seen i s x h) l (h.lane l) else if l ∈ x.lanes then (h.lane l).advance else h.lane l)

/-- The same for a word that changes nothing of its heat but its place. -/
def ActsOn (i : Instr) (P : Seen → Prop) (U : Seen → State) : Prop := Acts i P U Seen.h (fun _ _ y => y.advance)

/-- Every issue of the word completes and writes one record register, unless active() is empty: `R` relates what the word sees
to the record written. -/
def Builds (i : Instr) (d : Nat) (R : Seen → Nat → Prop) : Prop :=
  ∃ f : Seen → Nat, (∀ e, f e < 2 ^ 256 ∧ R e (f e)) ∧
    Acts i (fun _ => True) Seen.s (fun e => if e.act = [] then e.h else e.h.setB d (f e)) (fun _ _ y => y.advance)

/-- A field of two records is the same. -/
def sameFld (q r lo n : Nat) : Prop := fld q lo n = fld r lo n

/-- Every issue of the word that meets `P` completes as `Computed` says, for the value and flags that `f` gives each lane. -/
def Gives (i : Instr) (P : Seen → Prop) (w : Bool) (d : Dst) (f : Seen → Nat → Nat × Nat) : Prop :=
  ∀ s x h, Issues i s x h → P (seen i s x h) → ∃ t, exec i s = .next t ∧ Computed s t x h (active i x h) w d (f (seen i s x h))

/-- The group does not issue in this clock (R113): a clock passes and nothing else. -/
def Stalls (i : Instr) (s : State) : Prop := exec i s = .next { s with iss := none, now := s.now + 1 }

/-- The heat has no access outstanding that a release must follow, no completion word to write and no copy into a peer's
memory, and its core no release (R281). -/
def Seen.quiet (e : Seen) : Prop :=
  e.h.cpyw = [] ∧ (∀ r ∈ e.s.reqs, r.key = e.x.key → r.copy = true ∧ r.remote = none) ∧ (∀ r ∈ e.s.rels, r.ctx = e.x.key.ctx → r.origin ≠ e.h.core) ∧ e.s.rwq = []

/-- An access of the heat, not a copy, that came before a mark. -/
def Seen.before (e : Seen) (m : Nat) (r : Req) : Prop := r ∈ e.s.reqs ∧ r.key = e.x.key ∧ r.id < m ∧ r.copy = false

/-- A release of the heat's core and context that came before a mark. -/
def Seen.relBefore (e : Seen) (m : Nat) (r : PendRel) : Prop := r ∈ e.s.rels ∧ r.ctx = e.x.key.ctx ∧ r.origin = e.h.core ∧ r.id < m

/-- The parts of a fence that apply are done for what came before a mark (R266, R281): with release no access, no release and no
completion word is left; of any kind, nothing that reads; with .eng no engine operation; at package scope or wider every write
queue is empty; at system scope no write to a peer is left; at heat scope no access that never uses the L1. -/
structure Seen.Fenced (e : Seen) (kind : FenceKind) (eng : Bool) (sc : Scope) (m : Nat) : Prop where
  release : kind ≠ .acq → (∀ r, ¬ e.before m r) ∧ (∀ r, ¬ e.relBefore m r) ∧ ∀ p ∈ e.h.cpyw, m ≤ p.before
  reads : (∀ r, e.before m r → r.accs.any Acc.reads = false) ∧
    ∀ r, e.relBefore m r → ∀ k w, r.val = .rmw k w → k ≠ e.x.key
  engines : eng = true → e.s.engineBusy e.h m = false
  queues : 3 ≤ sc.code → ∀ q ∈ e.s.rwq, q.die < 4 → m ≤ q.id
  peers : sc = .system → ∀ r ∈ e.s.reqs, r.key = e.x.key → r.id < m → r.remote.isSome = true → r.write = false
  far : sc = .heat → (∀ r, ¬ e.relBefore m r) ∧ ∀ r, e.before m r → r.remote = none ∧ r.accs.any Acc.far = false

/-- Nothing of the heat's that a release at core scope must follow is still to be performed (R266). -/
def Seen.settled (e : Seen) : Prop := e.s.owed e.h (e.h.fence.getD e.s.nid) = false

/-- A release at a scope may issue: at heat or core scope what the heat did before it is performed, at a wider scope no completion
word of the heat waits (R225, R266, R274). -/
def Seen.mayRelease (e : Seen) (sc : Scope) : Prop := if 2 ≤ sc.code then e.h.cpyw = [] else e.settled

/-- Whether an order releases, and whether it acquires (R214). -/
def frees (o : Order) : Prop := o = .release ∨ o = .both
def holds (o : Order) : Prop := o = .acquire ∨ o = .both

/-- The heat waits for the word's result where it acquires (R266). -/
def Seen.awaits (e : Seen) (o : Order) (h : Heat) : Heat := match o with
  | .acquire | .both => { h with busy := some (.result e.s.nid) }
  | _ => h

/-- Lanes take an exception at the word (R395 to R397): lane `l` raises `f l`, all of them the cause of code `n`. One record is
posted, the lanes park with their place, registers and marks as they were, the other lanes that issued stand at the next word,
and nothing else changes. -/
def Parked (s t : State) (x : Iss) (h : Heat) (ls : List Nat) (f : Nat → Trap) (n : Nat) : Prop :=
  ∃ r g, t = { s with heats := t.heats, postings := s.postings ++ [r], nid := s.nid + 1, iss := none, now := s.now + 1 } ∧
    (r.ctx = x.key.ctx ∧ r.key = some x.key ∧ r.pc = x.pc ∧ r.lanes = maskOf ls ∧ r.causeByte % 32 = n ∧
      r.laneCodes = ls.map (fun l => (l, n)) ∧ r.core = h.core ∧ r.serial = some x.key.serial ∧ r.task = none) ∧
    (∀ k, k ≠ x.key → t.heat? k = s.heat? k) ∧ t.heat? x.key = some g ∧
    g = { h with lanes := g.lanes, starved := g.starved, paced := false, fence := none, lastIssue := some s.now, undo := g.undo,
                 runon := g.runon } ∧
    ∀ l, l < h.lanes.length → g.lane l =
      if l ∈ ls then { h.lane l with st := .parked, trap := some (f l), park := r.id, pcWritten := false, age := some s.now, noBreak := false }
      else closeLane x.lanes s.now l (if l ∈ x.lanes then (h.lane l).advance else h.lane l)

/-- A translation in place (R199): the buffers of the core and of its die hold the page, it allows the use, its home die is in
service, and for a write its D is set. -/
def Mapped (s : State) (ctx core va : Nat) (use : Use) (pa : Nat) : Prop :=
  ∃ e, s.tlb.find? (fun e => e.die = core / 64 ∧ e.ctx = ctx ∧ e.va ≤ va % 2 ^ 57 ∧ va % 2 ^ 57 < e.va + e.size) = some e ∧
    e.cores.contains core = true ∧ pa = e.pa + (va % 2 ^ 57 - e.va) ∧ s.fencedDies.contains (homeOf pa) = false ∧
    (use = .write → e.w = true ∧ e.dirty = true) ∧ (use = .fetch → e.x = true)

/-- Bits 63 to 57 of an address all equal bit 56. -/
def Canonical (va : Nat) : Prop := fld va 56 8 = 0 ∨ fld va 56 8 = 255

/-- The unit of the issuing heat, and its team there. -/
def Seen.Team (e : Seen) (u : RUnit) (t : Team) : Prop := e.s.unit? e.h.unit = some u ∧ u.team? e.x.key.team = some t

/-- A ring instruction finds its object (R56, R229): `o` are the 64 bytes at offset `off` of the unit's region, which follow
R55, and no engine owns their sector. -/
def Seen.Ring (e : Seen) (a : Src) (u : RUnit) (off : Nat) (o : List Byte) : Prop :=
  e.act ≠ [] ∧ off = e.rd .n32 a e.low ∧ e.s.unit? e.h.unit = some u ∧ o = readBytes u.scr off 64 ∧ off % 64 = 0 ∧ off + 64 ≤ u.size ∧
  e.s.scrOwned e.h.unit (off / 64) = false ∧ ringOk o u.size = true

/-- A loaded element in a lane's registers (R206): a value of 8 or 16 bits extended to 32, or the 32-bit parts of it. -/
def setElem (sg : Bool) (sz d q : Nat) (y : Lane) : Lane :=
  if sz ≤ 1 then y.setV d (if sg then low 32 (sext q (8 * 2 ^ sz)) else q)
  else (List.range (2 ^ (sz - 2))).foldl (fun y j => y.setV (d + j) (fld q (32 * j) 32)) y

/-- The marks that a long-latency word puts on its destination registers (R123). -/
def marked (i : Instr) (e : Seen) (y : Lane) : Lane := y.mark (flagOf e.x.hdr (com i)) (nub (Instr.destV i))

/-- An access of 2^sz bytes at an offset of a unit's region is in place (R201), and no engine owns its sector. -/
def Seen.Scratch (e : Seen) (unit off sz : Nat) : Prop :=
  ∃ u, e.s.unit? unit = some u ∧ off % 2 ^ sz = 0 ∧ off + 2 ^ sz ≤ u.size ∧ e.s.scrOwned unit (off / 64) = false

/-- The bytes of a region. -/
def Seen.scr (e : Seen) (unit off n : Nat) : List Byte := e.s.scrRead unit off n

/-- One active lane whose element stands at virtual address `va` and physical address `pa` of local memory: nothing of the
heat's own is under way there, no engine owns the sector, the core has a free request slot (R189, R190, R193), and neither a
task, a debugger nor the journal takes part. -/
structure Seen.Place (e : Seen) (l : Nat) (use : Use) (va pa : Nat) : Prop where
  one : e.act = [l]
  mapped : ∃ p, Mapped e.s e.x.key.ctx e.h.core (va / 256 * 256) use p ∧ pa = p + va % 256
  task : (e.h.lane l).task = none
  debug : e.h.debug = false
  journal : e.h.journal = false
  idle : e.h.busy = none
  free : e.s.freeSlots e.h.core ≠ 0
  clear : e.s.ownPending e.x.key (pa / 64) = false
  whole : e.s.copyOwned (pa / 64) = false
  fresh : ∀ o ∈ e.s.ops, o.id ≠ e.s.nid
  unqueued : ∀ y ∈ e.h.lanes, ∀ c a, y.st = .blocked (.colour c a) → a.opId ≠ e.s.nid

/-- The record that an instruction names. -/
def Seen.rcd (e : Seen) (b : Nat) : Nat := e.h.b256 b

/-- check() passes a lane's element of a local record without a colour (R191). -/
def Seen.Checked (e : Seen) (b sz : Nat) (i : Int) (k : AKind) (va : Nat) : Prop :=
  check (e.rcd b) sz i k = .va va ∧ recColour (e.rcd b) = 0 ∧ recRemote (e.rcd b) = false

/-- The line of an address stands in the buffers of the issuing heat's core (R199). -/
def Seen.At (e : Seen) (use : Use) (va pa : Nat) : Prop :=
  ∃ p, Mapped e.s e.x.key.ctx e.h.core (va / 256 * 256) use p ∧ pa = p + va % 256

/-- The index of an M form (R205). -/
def Seen.index (e : Seen) (x : Index) (l : Nat) : Int := ((if x.w64 then e.rd .n64 x.x l else e.rd .n32 x.x l : Nat) : Int)

/-- The index of a G form (R207). -/
def Seen.gindex (e : Seen) (x : GIndex) (l : Nat) : Int :=
  let w := 8 * 2 ^ x.iw
  let f := fld (if x.iw = 3 then e.rd .n64 x.x l else e.rd .n32 x.x l) (x.sel * w) w
  (if x.sg then sext f w else (f : Int)) * 2 ^ x.scl

/-- The flag that the word selects (R93). -/
def Seen.flag (i : Instr) (e : Seen) : Nat := flagOf e.x.hdr (com i)

/-- The word's operation begun for one lane (R121). -/
def opened (i : Instr) (e : Seen) (l : Nat) : State :=
  { e.s with nid := e.s.nid + 1
             ops := e.s.ops ++ [{ id := e.s.nid, key := e.x.key, pc := e.x.pc, left := [l], blk := some (e.x.hdrAddr, e.x.hdr)
                                  flag := if Instr.long i then some (Seen.flag i e) else none, born := e.s.now }] }

/-- The word's operation begun for every active lane (R121, R243). -/
def opens (i : Instr) (e : Seen) : State :=
  { e.s with nid := e.s.nid + 1
             ops := e.s.ops ++ [{ id := e.s.nid, key := e.x.key, pc := e.x.pc, left := e.act, blk := some (e.x.hdrAddr, e.x.hdr)
                                  flag := if Instr.long i then some (Seen.flag i e) else none, born := e.s.now }] }

/-- The word's operation over at once: its number is used up. -/
def Seen.over1 (e : Seen) : State := { e.s with nid := e.s.nid + 1 }

/-- The word's operation over at once, after what it did to the part. -/
def Seen.closed (e : Seen) (b : State) : State := { b with ops := e.s.ops }

/-- A sector asked for from its home where the die cannot serve it, or write it with `own` (R193, R264, R304). -/
def wanted (die sec : Nat) (own : Bool) (s : State) : State :=
  if (if own then s.owns die sec else s.readable die sec) then s else s.ask die sec own

/-- One request for the line of a lane's element, whose sector is asked for from its home where the die cannot serve it, or
write it with `own` (R193, R264); an atomic's line enters the release accumulator at issue (R273). -/
def sent (e : Seen) (l va pa r : Nat) (op : AccOp) (own : Bool) (s : State) : State :=
  let a : Acc := { lane := l, va := va, pa := pa, op := op, opId := e.s.nid, nopre := recNopre r, strm := recStream r }
  let s := { s with nid := s.nid + 1
                    reqs := s.reqs ++ [{ id := s.nid, key := e.x.key, ctx := e.x.key.ctx, core := e.h.core, line := va / 256, accs := [a]
                                         write := op.writes, stream := recStream r, born := s.now }] }
  wanted (e.h.core / 64) (pa / 64) own (if op.atomic then s.bankIn e.x.key.ctx e.h.core pa else s)

/-- A copy of one lane begun (R220 to R222): its operation, one request for its line, and with `out` the L1's copies of the
line gone and the line in the release accumulator. -/
def copied (out : Bool) (e : Seen) (l va pa r sz off : Nat) : State :=
  let a : Acc := { lane := l, va := va, pa := pa, op := if out then .copyOut sz off else .copyIn sz off, opId := e.s.nid, nopre := recNopre r }
  let s : State := { e.s with nid := e.s.nid + 1
                              ops := e.s.ops ++ [{ id := e.s.nid, key := e.x.key, pc := e.x.pc, left := [l], blk := some (e.x.hdrAddr, e.x.hdr)
                                                   isCopy := true, lanes := [l], born := e.s.now }] }
  let s : State := if out then (s.l1Drop e.h.core (fun c => c / 4 == pa / 256)).bankIn e.x.key.ctx e.h.core pa else s
  wanted (e.h.core / 64) (pa / 64) out { s with
    nid := s.nid + 1
    reqs := s.reqs ++ [{ id := s.nid, key := e.x.key, ctx := e.x.key.ctx, core := e.h.core, line := va / 256, accs := [a], write := out
                         copy := true, born := s.now }] }

/-- The heat with the word's flag raised and its uniform destinations marked (R121, R123). -/
def raised (i : Instr) (e : Seen) : Heat :=
  { e.h.flagUp (Seen.flag i e) with kpend := e.h.kpend ++ (Instr.destK i).map (fun k => (k, Seen.flag i e)) }

/-- An instruction of row 0xA that is made through mark `m`, with its fields and its operand (R249, R252 to R257). -/
def Signed (i : Instr) (m : Nat) (f : MFields) (a : Option Src) : Prop :=
  ∃ (c : Com) (arr x y : Bool) (t : MFmt) (row cnt d : Nat) (q : Src),
    (i = .mldw c m arr t x q ∧ f = { op := 0xA1, arr := arr, fmt := some t, row := 0, cnt := 0, d := 0, v0 := x } ∧ a = some q) ∨
    (i = .mswap c m arr ∧ f = { op := 0xA2, arr := arr, fmt := none, row := 0, cnt := 0, d := 0 } ∧ a = none) ∨
    (i = .mstr c m arr t x row q cnt ∧ f = { op := 0xA3, arr := arr, fmt := some t, row := row, cnt := cnt, d := 0, v0 := x } ∧ a = some q) ∨
    (i = .mdist c m arr t x row q cnt ∧ f = { op := 0xA4, arr := arr, fmt := some t, row := row, cnt := cnt, d := 0, v0 := x } ∧ a = some q) ∨
    (i = .mtopk c m arr x row d cnt ∧ f = { op := 0xA5, arr := arr, fmt := none, row := row, cnt := cnt, d := d, v0 := x } ∧ a = none) ∨
    (i = .mrd c m arr x row d ∧ f = { op := 0xA6, arr := arr, fmt := none, row := row, cnt := 0, d := d, v2 := x } ∧ a = none) ∨
    (i = .mrdScr c m arr x y row q cnt ∧
      f = { op := 0xA6, arr := arr, fmt := none, row := row, cnt := cnt, d := 0, v0 := true, v1 := x, v2 := y } ∧ a = some q) ∨
    (i = .mclr c m arr x row cnt ∧ f = { op := 0xA7, arr := arr, fmt := none, row := row, cnt := cnt, d := 0, v0 := x } ∧ a = none)

/-- A lane's vector destination of 32 bits, or of 64 with `w`, takes a value. -/
def laneTakes (w : Bool) (d : Option Dst) (v : Nat) (y : Lane) : Lane := match d with
  | some (.v n) => if w then y.setV64 n v else y.setV n v
  | _ => y

/-- The heat's uniform destination takes a value. -/
def heatTakes (w : Bool) (d : Option Dst) (v : Nat) (h : Heat) : Heat := match d with
  | some (.k n) => h.setK n (v % 2 ^ (if w then 64 else 32))
  | _ => h

/-- A lane blocked at the word. -/
def blocked (q : Wait) (y : Lane) : Lane := { y with st := .blocked q }

/-- A value clamped to an integer type, with SAT (bit 5) when it lies outside (R159, R168). -/
def clamp (t : Ty) (v : Int) : Nat × Nat :=
  if v < tyMin t then (low (tyW t) (tyMin t), 32) else if tyMax t < v then (low (tyW t) (tyMax t), 32) else (low (tyW t) v, 0)

/-- Every state that meets `P` is led to another by the step, and the two are related by `Q`. -/
def Leads (i : Instr) (P : State → Prop) (Q : State → State → Prop) : Prop := ∀ s, P s → ∃ t, exec i s = .next t ∧ Q s t

/-- The step of an agent, in every state that meets `P`, makes of the part what `U` says. -/
def Moves (i : Instr) (P : State → Prop) (U : State → State) : Prop := ∀ s, P s → exec i s = .next (U s)

/-- The step is not enabled in a state that meets `P`, and leaves it as it is. -/
def Waits (i : Instr) (P : State → Prop) : Prop := Moves i P id

/-- A sector of a core's L1 evicted, where a step names one (R190). -/
def evicted (core : Nat) (v : Option Nat) (s : State) : State := match v with
  | some c => s.l1Drop core (fun q => q == c)
  | none => s

/-- A heat with a live lane blocked as `q` says. -/
def Holds (s : State) (key : HeatKey) (l : Nat) (h : Heat) (q : Wait) : Prop :=
  s.heat? key = some h ∧ h.saved = false ∧ l < h.lanes.length ∧ (h.lane l).st = .blocked q

/-- The blocked lane goes on at the next word, its predicate set to `b` where it names one (R111). -/
def released (key : HeatKey) (l : Nat) (d : Option Nat) (b : Bool) (s : State) : State :=
  s.updLane key l (fun x => { (match d with | some n => x.setP n b | none => x).advance with st := .running })

/-- A message of a kind arrives on a port that carries traffic, and is taken: its transport fields are in order, it travels as its
endpoint requires, a host may send the kind there, and no field of it is out of range (R61, R62, R64). -/
structure Arrives (kind : Nat) (m : Sys2Proof.Msg) (s : State) : Prop where
  up : s.carries m.port m.half = true
  magic : m.magic = 0x5458
  version : m.version = 1
  length : m.length ≤ 224 ∧ m.length ≤ m.body.length
  secured : s.secured m = true
  allowed : kindAllowed kind m.endpoint = true
  fields : badField kind m = none

/-- The reply of a kind to a message (R61). -/
def replied (m : Sys2Proof.Msg) (endpoint kind : Nat) (body : List Byte) : OutMsg :=
  { port := m.port, half := m.half, peer := m.sender, endpoint := endpoint, kind := kind, tag := m.tag, body := body }

/-- A reply leaves. -/
def replies (m : Sys2Proof.Msg) (endpoint kind : Nat) (body : List Byte) (s : State) : State := { s with out := s.out ++ [replied m endpoint kind body] }

/-- The message is rejected with a reason and an offset (R61, R62). -/
def rejects (m : Sys2Proof.Msg) (reason off : Nat) (s : State) : State :=
  replies m m.endpoint 0x03 (toBytes 1 reason ++ toBytes 1 0 ++ toBytes 2 off) s

/-- The context of a command endpoint is open, and not being closed. -/
def Open (m : Sys2Proof.Msg) (s : State) : Prop := (s.ctx (m.endpoint - 1)).opened = true ∧ (s.ctx (m.endpoint - 1)).closing = false

end Safe

end Sys2Proof
end

