-- ==== Sys2Proof/Certificates/Slice0/Obligations.lean ====
section
/-! DEFINITION. The statements for the provers. -/

open Sys2Proof Sys2Proof.Machine Sys2Proof.Safe

/-- R168, R173. The wrapping integer instructions compute their exact values on unbounded integers and keep the low bits;
IMUL.hi keeps the upper half, and the .wide forms 64 bits. No flag rises, and nothing but the destination changes. -/
def Obligations.IntegerInstructionsKeepTheLowBits : Prop :=
  ∀ (c : Com) (t : Ty) (d : Dst) (a b z : Src) (imm : Int),
    Computes (.iadd c t false d a b) t.wide d (fun _ rd l => (low (tyW t) (asInt t (rd t a l) + asInt t (rd t b l)), 0)) ∧
    Computes (.isub c t false d a b) t.wide d (fun _ rd l => (low (tyW t) (asInt t (rd t a l) - asInt t (rd t b l)), 0)) ∧
    Computes (.addi c t false d a imm) t.wide d (fun _ rd l => (low (tyW t) (asInt t (rd t a l) + imm), 0)) ∧
    Computes (.iabs c t false d a) t.wide d (fun _ rd l => (low (tyW t) ((asInt t (rd t a l)).natAbs : Nat), 0)) ∧
    Computes (.imul c t .low d a b) t.wide d (fun _ rd l => (low (tyW t) (asInt t (rd t a l) * asInt t (rd t b l)), 0)) ∧
    Computes (.imul c t .hi d a b) t.wide d
      (fun _ rd l => (low (tyW t) (asInt t (rd t a l) * asInt t (rd t b l) / (2 ^ tyW t : Nat)), 0)) ∧
    Computes (.imul c t .wide d a b) true d (fun _ rd l => (low 64 (asInt t (rd t a l) * asInt t (rd t b l)), 0)) ∧
    Computes (.imad c t false d a b z) t.wide d
      (fun _ rd l => (low (tyW t) (asInt t (rd t a l) * asInt t (rd t b l) + asInt t (rd t z l)), 0)) ∧
    Computes (.imad c t true d a b z) true d
      (fun _ rd l => let q := if t = .s32 then Ty.s64 else .n64
        (low 64 (asInt t (rd t a l) * asInt t (rd t b l) + asInt q (rd q z l)), 0)) ∧
    Computes (.imin c t d a b) t.wide d (fun _ rd l => (low (tyW t) (min (asInt t (rd t a l)) (asInt t (rd t b l))), 0)) ∧
    Computes (.imax c t d a b) t.wide d (fun _ rd l => (low (tyW t) (max (asInt t (rd t a l)) (asInt t (rd t b l))), 0))

/-- R168, R173. The .sat variants write the nearest value of the type and raise SAT exactly when the exact value lies
outside it. -/
def Obligations.SaturatingIntegersClampAndRaiseSat : Prop :=
  ∀ (c : Com) (t : Ty) (d : Dst) (a b : Src) (imm : Int),
    Computes (.iadd c t true d a b) t.wide d (fun _ rd l => clamp t (asInt t (rd t a l) + asInt t (rd t b l))) ∧
    Computes (.isub c t true d a b) t.wide d (fun _ rd l => clamp t (asInt t (rd t a l) - asInt t (rd t b l))) ∧
    Computes (.iabs c t true d a) t.wide d (fun _ rd l => clamp t ((asInt t (rd t a l)).natAbs : Nat)) ∧
    Computes (.addi c t true d a imm) t.wide d (fun _ rd l =>
      clamp t (asInt t (rd t a l) + (if t = .n32 ∨ t = .n64 then imm % (2 ^ tyW t : Nat) else imm)))

/-- R169. IDIV truncates toward zero; the remainder takes the sign of the dividend; a zero divisor gives all ones and the
dividend; no flag rises. It is opcode 0x24 for types 0 to 3, with variant 0 for the quotient and 1 for the remainder. -/
def Obligations.IdivTruncatesTowardZero : Prop :=
  ∀ (c : Com) (t : Ty) (d : Dst) (a b : Src),
    Computes (.idiv c t false d a b) t.wide d (fun _ rd l =>
      let x := asInt t (rd t a l)
      let y := asInt t (rd t b l)
      (if y = 0 then 2 ^ tyW t - 1 else low (tyW t) (x.tdiv y), 0)) ∧
    Computes (.idiv c t true d a b) t.wide d (fun _ rd l =>
      let x := asInt t (rd t a l)
      let y := asInt t (rd t b l)
      (low (tyW t) (if y = 0 then x else x - x.tdiv y * y), 0)) ∧
    ∀ rem, Instr.wf (.idiv c t rem d a b) = true →
      fld (encode (.idiv c t rem d a b)) 56 8 = 0x24 ∧ fld (encode (.idiv c t rem d a b)) 0 5 = (if rem then 1 else 0) ∧
      (t = .s32 ∨ t = .n32 ∨ t = .s64 ∨ t = .n64)

/-- R168, R170 to R172, R174, R175. The bitwise, shift, field, count, address and byte-select instructions; the words of
POPC, CLZ, BREV and LEA carry the opcodes, the types and the variants that R172 and R174 give them. -/
def Obligations.BitInstructionsComputeTheirPatterns : Prop :=
  ∀ (c : Com) (t : Ty) (d : Dst) (a b z : Src),
    Computes (.and c t d a b) t.wide d (fun _ rd l => (rd t a l &&& rd t b l, 0)) ∧
    Computes (.or c t d a b) t.wide d (fun _ rd l => (rd t a l ||| rd t b l, 0)) ∧
    Computes (.xor c t d a b) t.wide d (fun _ rd l => (rd t a l ^^^ rd t b l, 0)) ∧
    Computes (.shl c t false d a b) t.wide d (fun _ rd l =>
      (if tyW t ≤ rd .n32 b l then 0 else rd t a l * 2 ^ rd .n32 b l % 2 ^ tyW t, 0)) ∧
    Computes (.shl c t true d a b) t.wide d (fun _ rd l =>
      let k := rd .n32 b l % tyW t
      ((rd t a l * 2 ^ k + rd t a l / 2 ^ (tyW t - k)) % 2 ^ tyW t, 0)) ∧
    Computes (.shr c t false d a b) t.wide d (fun _ rd l =>
      (if t = .s32 ∨ t = .s64 then low (tyW t) (sext (rd t a l) (tyW t) / (2 ^ min (rd .n32 b l) (tyW t) : Nat))
       else if tyW t ≤ rd .n32 b l then 0 else rd t a l / 2 ^ rd .n32 b l, 0)) ∧
    Computes (.shr c t true d a b) t.wide d (fun _ rd l => (rotl (tyW t) (rd t a l) (tyW t - rd .n32 b l % tyW t), 0)) ∧
    Computes (.bfx c t d a b) t.wide d (fun _ rd l => (bfxOf t (rd t a l) (rd .n32 b l), 0)) ∧
    Computes (.bfi c t d a b z) t.wide d (fun _ rd l => (bfiOf t (rd t a l) (rd t b l) (rd .n32 z l), 0)) ∧
    Computes (.popc c t d a) t.wide d (fun _ rd l => ((List.range (tyW t)).countP (bit (rd t a l)), 0)) ∧
    Computes (.clz c t d a) t.wide d (fun _ rd l =>
      (if rd t a l % 2 ^ tyW t = 0 then tyW t else tyW t - 1 - (rd t a l % 2 ^ tyW t).log2, 0)) ∧
    Computes (.brev c t d a) t.wide d (fun _ rd l =>
      (((List.range (tyW t)).map (fun i => b2n (bit (rd t a l) (tyW t - 1 - i)) * 2 ^ i)).sum, 0)) ∧
    (∀ sg sh, Computes (.lea c sg sh d a b) true d (fun _ rd l =>
      (low 64 ((rd .n64 a l : Int) + (if sg then sext (rd .n32 b l) 32 else (rd .n32 b l : Int)) * (2 ^ sh : Nat)), 0))) ∧
    (∀ x, Computes (.bysel c x d a b z) false d (fun _ rd l => (byselOf x (rd .n32 a l) (rd .n32 b l) (rd .n32 z l), 0))) ∧
    (∀ i o, (i, o) = (Instr.popc c t d a, 0x2F) ∨ (i, o) = (Instr.clz c t d a, 0x30) ∨ (i, o) = (Instr.brev c t d a, 0x31) →
      Instr.wf i = true → fld (encode i) 56 8 = o ∧ fld (encode i) 21 9 = 511 ∧ fld (encode i) 12 9 = 511 ∧
        fld (encode i) 0 5 = 0 ∧ (t = .s32 ∨ t = .n32 ∨ t = .s64 ∨ t = .n64)) ∧
    (∀ sg sh, Instr.wf (.lea c sg sh d a b) = true →
      fld (encode (.lea c sg sh d a b)) 56 8 = 0x36 ∧ fld (encode (.lea c sg sh d a b)) 12 9 = 511 ∧
        fld (encode (.lea c sg sh d a b)) 8 4 = (if sg then 2 else 3) ∧ fld (encode (.lea c sg sh d a b)) 0 5 = sh ∧ sh < 8)

/-- R139, R173. SEL, MOV, MOVI and PSETF.to move values without a flag. -/
def Obligations.MovesCopyTheirSources : Prop :=
  ∀ (c : Com) (t : Ty) (d : Dst) (a b : Src) (p : PSrc) (imm : Nat),
    Computes (.sel c t d a b p) t.wide d (fun h rd l => (if (h.lane l).ps p = true then rd t a l else rd t b l, 0)) ∧
    Computes (.mov c t d a) t.wide d (fun _ rd l => (rd t a l, 0)) ∧
    Computes (.movi c t false d imm) t.wide d (fun _ _ _ => (if t = .s64 then low 64 (sext imm 32) else imm, 0)) ∧
    Computes (.movi c t true d imm) t.wide d (fun h _ l =>
      (imm * 2 ^ 32 + (match d with | .v n => (h.lane l).v32 n | .k n => h.k64 n % 2 ^ 32), 0)) ∧
    Computes (.psetfTo c d) false d (fun h _ l => ((h.lane l).p.toNat, 0))

/-- R176, R180. The FP32 arithmetic instructions write the rounded result of their exact value with its flags; the random
bits are the register r's in .rs mode and 0 otherwise. -/
def Obligations.FloatArithmeticRoundsOnce : Prop :=
  ∀ (c : Com) (r : Rnd) (sat : Bool) (d : Dst) (a b z : Src) (rb : Option Src),
    let bits (rd : Reads) (l : Nat) : Nat := match rb with | none => 0 | some q => rd .n32 q l
    Computes (.fadd c r sat d a b rb) false d (fun _ rd l => fmtF32.add r (bits rd l) sat (rd .f32 a l) (rd .f32 b l)) ∧
    Computes (.fsub c r sat d a b rb) false d (fun _ rd l => fmtF32.sub r (bits rd l) sat (rd .f32 a l) (rd .f32 b l)) ∧
    Computes (.fmul c r sat d a b rb) false d (fun _ rd l => fmtF32.mul r (bits rd l) sat (rd .f32 a l) (rd .f32 b l)) ∧
    Computes (.fdiv c r sat d a b rb) false d (fun _ rd l => fmtF32.div r (bits rd l) sat (rd .f32 a l) (rd .f32 b l)) ∧
    Computes (.ffma c r sat d a b z) false d
      (fun _ rd l => fmtF32.fma r 0 sat (rd .f32 a l) (rd .f32 b l) (rd .f32 z l)) ∧
    Computes (.fsqrt c r sat d a rb) false d (fun _ rd l =>
      let v := fmtF32.decode (rd .f32 a l)
      fmtF32.result r (bits rd l) sat [v] (sqrtV v)) ∧
    Computes (.frnd c r sat d a rb) false d (fun _ rd l => frndOf r (bits rd l) sat (rd .f32 a l))

/-- R177 to R179, R181. The comparisons, the sign and class operations, and the five elementary functions, which round to
nearest; FSIGN's word carries the opcode, type and variants that R178 gives it, and b where its operation reads one. -/
def Obligations.FloatFunctionsGiveTheirResults : Prop :=
  ∀ (c : Com) (x : Bool) (t : Ty) (op : SignOp) (d : Dst) (a b : Src) (y : Option Src),
    let approx (f : FV → FV × Nat) (rd : Reads) (l : Nat) : Nat × Nat :=
      let v := fmtF32.decode (rd .f32 a l)
      fmtF32.result .rn 0 false [v] (f v)
    Computes (.fmin c x d a b) false d (fun _ rd l => fmtF32.minMax false x (rd .f32 a l) (rd .f32 b l)) ∧
    Computes (.fmax c x d a b) false d (fun _ rd l => fmtF32.minMax true x (rd .f32 a l) (rd .f32 b l)) ∧
    Computes (.fsign c op d a y) false d (fun _ rd l =>
      let u := rd .f32 a l
      let sb := match y with | none => 0 | some q => rd .f32 q l
      let n : Bool := match op with
        | .abs => false
        | .neg => !(bit u 31)
        | .copy => bit sb 31
        | .xor => Bool.xor (bit u 31) (bit sb 31)
      (u % 2 ^ 31 + (if n then 2 ^ 31 else 0), 0)) ∧
    Computes (.fclass c t d a) false d (fun _ rd l => ((fmtOf t).classOf (rd t a l), 0)) ∧
    Computes (.frcp c d a) false d (fun _ rd l => approx (fun v => divV (.fin false 1 0 false) v) rd l) ∧
    Computes (.frsq c d a) false d (fun _ rd l => approx rsqrtV rd l) ∧
    Computes (.fexp2 c d a) false d (fun _ rd l => approx exp2Fn rd l) ∧
    Computes (.flog2 c d a) false d (fun _ rd l => approx log2Fn rd l) ∧
    Computes (.ftanh c d a) false d (fun _ rd l => approx tanhFn rd l) ∧
    (Instr.wf (.fsign c op d a y) = true →
      fld (encode (.fsign c op d a y)) 56 8 = 0x46 ∧ fld (encode (.fsign c op d a y)) 8 4 = 4 ∧
      fld (encode (.fsign c op d a y)) 0 5 = (match op with | .abs => 0 | .neg => 1 | .copy => 2 | .xor => 3) ∧
      (y = none ↔ op = .abs ∨ op = .neg) ∧ (y = none → fld (encode (.fsign c op d a y)) 21 9 = 511))

/-- R155, R182, R183. A packed BF16 instruction works on both halves of its operands, crossed when it says so, and joins
the flags; element j of .rs mode rounds with r rotated right by 4j. -/
def Obligations.PackedInstructionsWorkOnBothHalves : Prop :=
  ∀ (c : Com) (r : Rnd) (sat x : Bool) (op : MnxOp) (d : Dst) (a b z : Src) (rb : Option Src),
    let bits (rd : Reads) (l j : Nat) : Nat := rbits (match rb with | none => 0 | some q => rd .n32 q l) j
    let both (f : Nat → Nat → Nat → Nat × Nat) (rd : Reads) (l : Nat) : Nat × Nat :=
      let u := rd .bf16 a l
      let v := rd .bf16 b l
      let lo := f 0 (fld u 0 16) (fld v (if x then 16 else 0) 16)
      let hi := f 1 (fld u 16 16) (fld v (if x then 0 else 16) 16)
      (lo.1 + hi.1 * 2 ^ 16, lo.2 ||| hi.2)
    Computes (.pkadd c r sat x d a b rb) false d (fun _ rd l => both (fun j u v => fmtBf16.add r (bits rd l j) sat u v) rd l) ∧
    Computes (.pkmul c r sat x d a b rb) false d (fun _ rd l => both (fun j u v => fmtBf16.mul r (bits rd l j) sat u v) rd l) ∧
    Computes (.pkfma c r sat x d a b z) false d
      (fun _ rd l => both (fun j u v => fmtBf16.fma r 0 sat u v (fld (rd .bf16 z l) (16 * j) 16)) rd l) ∧
    Computes (.pkmnx c op x d a b) false d (fun _ rd l =>
      both (fun _ u v => fmtBf16.minMax (op = .max ∨ op = .maxnan) (op = .minnan ∨ op = .maxnan) u v) rd l)

/-- R184 to R187. Conversions, packing, unpacking and scaling. -/
def Obligations.ConversionsPackAndUnpack : Prop :=
  ∀ (c : Com) (t y : Ty) (r : Rnd) (sat inv : Bool) (sc : Scale) (sb : Nat) (d : Dst) (a b : Src) (n : Nat) (rb : Option Src),
    let bits (rd : Reads) (l : Nat) : Nat := match rb with | none => 0 | some q => rd .n32 q l
    let scaleOf (rd : Reads) (l : Nat) : Nat := match sc with
      | .byte (.v k) s => fld (rd .n32 (.v k) l) (8 * s) 8
      | .byte (.k k) s => fld (rd .n32 (.k k) l) (8 * s) 8
      | _ => 127
    let book (h : Heat) : List Nat := match sc with | .book k => h.book k | _ => []
    let pack (m : Nat) (h : Heat) (rd : Reads) (l : Nat) : Nat × Nat :=
      (List.range m).foldl (fun acc j =>
        let e := packElem t r (rbits (bits rd l) j) sat (scaleOf rd l) (book h) ((h.lane l).v32 (n + j))
        (acc.1 + e.1 * 2 ^ (elemW t * j), acc.2 ||| e.2)) (0, 0)
    let unpack (h : Heat) (rd : Reads) (j l : Nat) : Nat × Nat :=
      unpackElem t r (rbits (bits rd l) j) (scaleOf rd l) (book h) (fld (rd .n32 a l) (elemW t * j) (elemW t))
    Computes (.cvti c t y r d a rb) t.wide d (fun _ rd l => cvtiOf t y r (bits rd l) (rd y a l)) ∧
    Computes (.cvtf c t y r sat d a rb) false d (fun _ rd l => cvtfOf t y r (bits rd l) sat (rd y a l)) ∧
    Computes (.pack2 c t r sat sc d n rb) false d (pack 2) ∧
    Computes (.pack4 c t r sat sc d n rb) false d (pack 4) ∧
    Computes (.pack8 c t r sat sc d n rb) false d (pack 8) ∧
    ComputesRun (.unpk2 c t r sc n a rb) 2 n unpack ∧
    ComputesRun (.unpk4 c t r sc n a rb) 4 n unpack ∧
    ComputesRun (.unpk8 c t r sc n a rb) 8 n unpack ∧
    Computes (.scalex c r inv sat sb d a b rb) false d
      (fun _ rd l => scalexOf r (bits rd l) inv sat (rd .f32 a l) (fld (rd .n32 b l) (8 * sb) 8))

/-- R138, R140, R142, R139. PSET, PLOG, the predicate forms of VOTE and PSETF.from write predicates alone. -/
def Obligations.PredicateInstructionsWritePredicates : Prop :=
  ∀ (c : Com) (t : Ty) (cmp : Cmp) (lop : LogOp) (d : Nat) (a b : Src) (x : PSrc) (y z : Option PSrc),
    let ps (h : Heat) (p : Option PSrc) (l : Nat) : Bool := match p with | none => false | some p => (h.lane l).ps p
    SetsPreds (.pset c t cmp d a b) (fun _ _ rd l n => if n = d then some (cmpOf t cmp (rd t a l) (rd t b l)) else none) ∧
    SetsPreds (.plog c lop d x y z)
      (fun _ h _ l n => if n = d then some (logOf lop ((h.lane l).ps x) (ps h y l) (ps h z l)) else none) ∧
    SetsPreds (.vote c (.any d) x) (fun act h _ _ n => if n = d then some (act.any (fun m => (h.lane m).ps x)) else none) ∧
    SetsPreds (.vote c (.all d) x) (fun act h _ _ n => if n = d then some (act.all (fun m => (h.lane m).ps x)) else none) ∧
    SetsPreds (.vote c (.uni d) x) (fun act h _ _ n => if n = d then
      some (act.all (fun m => (h.lane m).ps x) || act.all (fun m => !((h.lane m).ps x))) else none) ∧
    SetsPreds (.psetfFrom c a b)
      (fun _ _ rd l n => if bit (rd .n32 b l) n then some (bit (rd .n32 a l) n) else none)

/-- R142 to R146. The collectives work over active(): a ballot of a predicate, an exchange, a reduction in the fixed tree, a
scan in lane order, and the lanes that hold the same value. -/
def Obligations.CollectivesCombineTheActiveLanes : Prop :=
  ∀ (c : Com) (t : Ty) (r : Rnd) (op : RedOp) (m : ShflMode) (x : Bool) (d : Dst) (a b : Src) (w : Nat) (p : PSrc) (hd : Option PSrc),
    Collects (.vote c (.ballot d) p) false d (fun act h _ _ => (maskOf (act.filter (fun l => (h.lane l).ps p)), 0)) ∧
    Collects (.shfl c t m d a b w) t.wide d (fun act _ rd l => (rd t a (shflLane act m w l (rd .n32 b l)), 0)) ∧
    Collects (.hred c t r op d a) t.wide d (fun act _ rd _ =>
      treeOf (redNode t r op) ((List.range 32).map (fun l => if act.contains l then some (rd t a l, 0) else none))) ∧
    Collects (.hscan c t r op x d a hd) t.wide d (fun act h rd l =>
      (((scanOf (redNode t r op) x (redIdentity t op) (rd t a)
        (fun l => match hd with | none => false | some p => (h.lane l).ps p) none act).find? (fun r => r.1 = l)).map (·.2)).getD (0, 0)) ∧
    Collects (.matchv c t d a) false d (fun act _ rd l => (maskOf (act.filter (fun n => rd t a n == rd t a l)), 0))

/-- R125, R126, R131, R132, R136. NOP and YIELD move to the next word; BRA, BRX, CALL, CALLX and RET send the active lanes
to a header: the branch target lies in words from the branch word, the calls save the header after the calling block in
the link pair and deepen by one, and a RET that has no colour to release makes its lanes shallower by one. -/
def Obligations.ControlInstructionsMoveTheActiveLanes : Prop :=
  ∀ (c : Com) (off : Int) (a : Src) (link : Nat),
    let back (x : Iss) : Nat := low 64 ((x.hdrAddr : Int) + 8 * (fld x.hdr 52 8 + 1))
    let goes (t : Nat) (y : Lane) : Lane := { y with pc := t, blk := none }
    let good (t : Nat) : Prop := t % 8 = 0 ∧ (fld t 56 8 = 0 ∨ fld t 56 8 = 255)
    LanesEnd (.nop c) (fun _ _ _ _ => True) (fun _ _ _ _ y => y.advance) ∧
    LanesEnd (.yield c) (fun _ _ _ _ => True) (fun _ _ _ _ y => { y.advance with st := .yielded }) ∧
    LanesEnd (.bra c off) (fun _ _ _ _ => True) (fun x _ _ _ y => goes (low 64 ((x.pc : Int) + 8 * off)) y) ∧
    LanesEnd (.brx c a) (fun _ act _ rd => ∀ l ∈ act, good (rd .n64 a l)) (fun _ _ rd l y => goes (rd .n64 a l) y) ∧
    LanesEnd (.call c link off) (fun _ act h _ => ∀ l ∈ act, (h.lane l).depth ≠ 255)
      (fun x _ _ _ y => goes (low 64 ((x.pc : Int) + 8 * off)) { y.setV64 link (back x) with depth := y.depth + 1 }) ∧
    LanesEnd (.callx c link) (fun _ act h _ => ∀ l ∈ act, (h.lane l).depth ≠ 255 ∧ good ((h.lane l).v64 link))
      (fun x h _ l y => goes ((h.lane l).v64 link) { y.setV64 link (back x) with depth := y.depth + 1 }) ∧
    LanesEnd (.ret c a) (fun _ act h rd => ∀ l ∈ act, good (rd .n64 a l) ∧ (h.lane l).depth ≠ 0 ∧ (h.lane l).task = none ∧
        ∀ e ∈ (h.lane l).held, e.depth = (h.lane l).depth → e.pending = true)
      (fun _ _ rd l y => { goes (rd .n64 a l) y with st := .running, depth := y.depth - 1 })

/-- R203, R204. BLD.q, .k and .zero and the forms of BSUB write one record register from the lowest active lane's sources, or
nothing when active() is empty; the fields of the record that the form does not name are copied. -/
def Obligations.RecordInstructionsWriteOneRecord : Prop :=
  ∀ (c : Com) (d b n k col fl : Nat) (a : Src),
    Builds (.bldQ c d n a) d (fun e q => ∀ j, j < 4 →
      fld q (64 * j) 64 = if j = n then e.rd .n64 a e.low % 2 ^ 64 else fld (e.h.b256 d) (64 * j) 64) ∧
    Builds (.bldK c d k) d (fun e q => ∀ j, j < 4 → fld q (64 * j) 64 = e.h.k64 (k + j)) ∧
    Builds (.bldZero c d) d (fun _ q => q = 0) ∧
    Builds (.bsubOff c d b a) d (fun e q => let r := e.h.b256 b
      recBase q = (recBase r + e.rd .n64 a e.low * recSt r) % 2 ^ 57 ∧ recExtent q = recExtent r - e.rd .n64 a e.low ∧
      sameFld q r 57 7 ∧ sameFld q r 104 152) ∧
    Builds (.bsubWin c d b a n) d (fun e q => let r := e.h.b256 b
      recBase q = (recBase r + e.rd .n64 a e.low * recSt r) % 2 ^ 57 ∧
      recExtent q = min (recExtent r - e.rd .n64 a e.low) n ∧ sameFld q r 57 7 ∧ sameFld q r 104 152) ∧
    Builds (.bsubColour c d b col) d (fun e q => let r := e.h.b256 b
      (col < 4096 → recColour q = col) ∧ sameFld q r 0 136 ∧ sameFld q r 148 108) ∧
    Builds (.bsubFlags c d b fl) d (fun e q => let r := e.h.b256 b
      (∀ j, j < 4 → bit q (154 + j) = (bit r (154 + j) || bit fl j)) ∧ bit q 168 = (bit r 168 || bit fl 4) ∧
      sameFld q r 0 154 ∧ sameFld q r 158 10 ∧ sameFld q r 169 87)

/-- R136, R127. EXIT ends its lanes where none of them runs a task or holds a colour to release; the heat's other lanes go
on, and when none is left every lane of the heat has exited. -/
def Obligations.ExitEndsItsLanes : Prop :=
  ∀ (c : Com),
    let free (e : Seen) : Prop := ∀ l ∈ e.act, (e.h.lane l).task = none ∧ ∀ y ∈ (e.h.lane l).held, y.pending = true
    Acts (.exit c) (fun e => free e ∧ ∃ l, l < e.h.lanes.length ∧ l ∉ e.act ∧ (e.h.lane l).st ≠ .exited)
      Seen.s Seen.h (fun _ _ y => { y with st := .exited, depth := 0 }) ∧
    ∀ s x h, Issues (.exit c) s x h → free (seen (.exit c) s x h) →
      (∀ l, l < h.lanes.length → l ∈ active (.exit c) x h ∨ (h.lane l).st = .exited) →
      ∃ t g, exec (.exit c) s = .next t ∧ t.heat? x.key = some g ∧ g.allExited = true ∧ t.kernels = s.kernels

/-- R133, R123. WAITF stalls while a flag of its mask stands above 0; then it clears its lanes' marks, and those of the
uniform registers, on those flags. -/
def Obligations.WaitfWaitsAndClearsMarks : Prop :=
  ∀ (c : Com) (mask : Nat),
    Acts (.waitf c mask) (fun e => ∀ f, f < 12 → bit mask f = true → Tbl.get 0 e.h.fcnt f = 0) Seen.s
      (fun e => if e.act = [] then e.h else { e.h with kpend := e.h.kpend.filter (fun m => !(bit mask m.2)) })
      (fun _ _ y => { y.advance with pend := y.pend.filter (fun m => !(bit mask m.2)) }) ∧
    ∀ s x h, Issues (.waitf c mask) s x h → (∃ f, f < 12 ∧ bit mask f = true ∧ Tbl.get 0 h.fcnt f ≠ 0) → Stalls (.waitf c mask) s

/-- R350, R409, R443, R456. HELD, MFS, MTS, STAMP and DEFMAP. -/
def Obligations.SystemWordsReadAndWriteTheirFields : Prop :=
  ∀ (c : Com) (n : Nat) (d : Dst) (sc : Scope) (a : Src),
    let posted (e : Seen) : Nat := (e.s.records.filter (fun r => r.ctx = e.x.key.ctx ∧ r.die = e.h.core / 64)).length
    let none (_ : Seen) : Prop := True
    let write (e : Seen) : Nat := e.rd .n32 a e.low
    SetsPreds (.heldTest c n a) (fun _ h rd l m => if m = n then some ((h.lane l).held.any (fun y => y.colour == rd .n32 a l)) else .none) ∧
    Gives (.heldList c d a) none false d (fun e l => (match (e.h.lane l).held[e.rd .n32 a l]? with
      | .none => 0
      | some y => y.colour + y.depth * 2 ^ 12 + (if y.pending then 2 ^ 20 else 0), 0)) ∧
    Gives (.mfs c n 0) none false (.v n) (fun e _ => (e.h.nflags, 0)) ∧
    Gives (.mfs c n 1) none false (.v n) (fun e _ =>
      (posted e + (if Tbl.get false (e.s.ctx e.x.key.ctx).ovf (e.h.core / 64) then 8192 else 0), 0)) ∧
    Gives (.mfs c n 2) none false (.v n) (fun e _ => (Tbl.get 0 (e.s.ctx e.x.key.ctx).ovfCount (e.h.core / 64), 0)) ∧
    Acts (.mts c 0 a) (fun e => e.act ≠ []) Seen.s (fun e => { e.h with nflags := write e % 256 }) (fun _ _ y => y.advance) ∧
    ActsOn (.mts c 1 a) (fun e => e.act ≠ []) (fun e => if bit (write e) 13 then
      e.s.updCtx e.x.key.ctx (fun q => { q with ovf := Tbl.erase q.ovf (e.h.core / 64) }) else e.s) ∧
    ActsOn (.mts c 2 a) (fun e => e.act ≠ []) (fun e =>
      e.s.updCtx e.x.key.ctx (fun q => { q with ovfCount := Tbl.put 0 q.ovfCount (e.h.core / 64) (write e) })) ∧
    Gives (.stamp c sc d) Seen.quiet true d (fun e _ => ((e.s.clock e.h.core).toNat, 0)) ∧
    Gives (.defmap c d a) none true d (fun e l => (e.s.mapQuad (e.rd .n32 a l), 0))

/-- R94, R82, R98, R122, R124, R402, R134, R396, R397. A word that breaks a decode rule traps every issuing lane with ILLEGAL, a word
that the leg's role may not issue every issuing lane with ROLE, one that reads the code 511 every active lane with ILLEGAL, a privileged
word outside a service heat every active lane with PRIV, a MOV whose registers are pending in every active lane each of them with
HAZARD, and TRAP every active lane with its code and value: one record is posted and the lanes park, outside tasks. A long-latency
word whose flag holds 63 does not issue in this clock. -/
def Obligations.ExceptionsParkTheirLanes : Prop :=
  (∀ i s x h, i.isWord = true → Stands s x h → (∀ l ∈ x.lanes, (h.lane l).task = none) → decodeTrap i x.hdr = true →
    ∃ t, exec i s = .next t ∧ Parked s t x h x.lanes (fun _ => { cause := .illegal }) 1) ∧
  (∀ i s x h, i.isWord = true → Stands s x h → (∀ l ∈ x.lanes, (h.lane l).task = none) → decodeTrap i x.hdr = false →
    roleAllows h.role (Instr.opcode i) = false → Instr.unreadable i = false →
    ∃ t, exec i s = .next t ∧ Parked s t x h x.lanes (fun _ => { cause := .role }) 2) ∧
  (∀ i s x h, i.isWord = true → Stands s x h → (∀ l ∈ x.lanes, (h.lane l).task = none) → decodeTrap i x.hdr = false →
    roleAllows h.role (Instr.opcode i) = true → Instr.unreadable i = true → active i x h ≠ [] →
    ∃ t, exec i s = .next t ∧ Parked s t x h (active i x h) (fun _ => { cause := .illegal }) 1) ∧
  (∀ i s x h, i.isWord = true → Stands s x h → decodeTrap i x.hdr = false → roleAllows h.role (Instr.opcode i) = true →
    Instr.unreadable i = false → Instr.long i = true → Tbl.get 0 h.fcnt (flagOf x.hdr (com i)) = 63 → Stalls i s) ∧
  (∀ i s x h, i.isWord = true → Stands s x h → (∀ l ∈ x.lanes, (h.lane l).task = none) → decodeTrap i x.hdr = false →
    roleAllows h.role (Instr.opcode i) = true → Instr.unreadable i = false → Instr.long i = false →
    Instr.privileged i = true → h.service = false → active i x h ≠ [] →
    ∃ t, exec i s = .next t ∧ Parked s t x h (active i x h) (fun _ => { cause := .priv }) 3) ∧
  (∀ c ty d a s x h, Stands s x h → (∀ l ∈ x.lanes, (h.lane l).task = none) → decodeTrap (.mov c ty d a) x.hdr = false →
    roleAllows h.role (Instr.opcode (.mov c ty d a)) = true → Instr.unreadable (.mov c ty d a) = false → active (.mov c ty d a) x h ≠ [] →
    (∀ l ∈ active (.mov c ty d a) x h, h.hazard l (Instr.namedV (.mov c ty d a)) (Instr.namedK (.mov c ty d a)) = true) →
    ∃ t, exec (.mov c ty d a) s = .next t ∧ Parked s t x h (active (.mov c ty d a) x h) (fun _ => { cause := .hazard }) 4) ∧
  (∀ c code a s x h, Issues (.trap c code a) s x h → (∀ l ∈ x.lanes, (h.lane l).task = none) → active (.trap c code a) x h ≠ [] →
    ∃ t, exec (.trap c code a) s = .next t ∧ Parked s t x h (active (.trap c code a) x h)
      (fun l => { cause := .trap, code := code, val := match a with | none => 0 | some q => reads (.trap c code a) s x h .n32 q l }) 17)

/-- R284. A heat's first BAR or BARA on a barrier of its team in a phase is its arrival; BAR's lanes block, BARA's move on; a
BAR after the arrival blocks its lanes and a BARA stalls; a count out of place raises PERM; and the arrival that fills the
phase flips the phase bit, clears mask and count, and lets every lane of the team that waits there go on. -/
def Obligations.BarriersJoinTheirTeam : Prop :=
  ∀ (c : Com) (n : Nat) (b : Option Src),
    let bar (t : Team) : Bar := Tbl.get {} t.bars n
    let count (e : Seen) (t : Team) : Nat := match b with | none => t.heats | some q => e.rd .n32 q e.low
    let good (e : Seen) (t : Team) : Prop :=
      1 ≤ count e t ∧ count e t ≤ t.heats ∧ ((bar t).arrived = 0 ∨ count e t = (bar t).expect)
    let comes (e : Seen) (u : RUnit) (t : Team) (first : Bool) : Prop :=
      e.act ≠ [] ∧ e.Team u t ∧ bit (bar t).arrived e.x.key.heat = !first
    let after (e : Seen) (t : Team) : Bar := { phase := (bar t).phase, arrived := (bar t).arrived ||| 2 ^ e.x.key.heat
                                               expect := if (bar t).arrived = 0 then count e t else (bar t).expect }
    let fills (e : Seen) (u : RUnit) (t : Team) : Prop := comes e u t true ∧ good e t ∧ e.settled ∧ (after e t).expect ≤ e.s.barCount e.h.unit t (after e t)
    let early (e : Seen) : Prop := ∃ u t, comes e u t true ∧ good e t ∧ e.settled ∧ e.s.barCount e.h.unit t (after e t) < (after e t).expect
    let again (e : Seen) : Prop := ∃ u t, comes e u t false
    let owes (e : Seen) : Prop := ∃ u t, comes e u t true ∧ good e t ∧ ¬ e.settled
    let put (e : Seen) : State := e.s.updTeam e.h.unit e.x.key.team (fun t => { t with bars := Tbl.set t.bars n (after e t) })
    let flip (e : Seen) : State := e.s.updTeam e.h.unit e.x.key.team (fun t => { t with bars := Tbl.set t.bars n { phase := !(bar t).phase } })
    ActsOn (.bara c n b) early put ∧
    Acts (.bar c n b) early put Seen.h (fun _ _ y => blocked (.bar n) y) ∧
    Acts (.bar c n b) again Seen.s Seen.h (fun _ _ y => blocked (.bar n) y) ∧
    (∀ s x h, Issues (.bara c n b) s x h → again (seen (.bara c n b) s x h) → Stalls (.bara c n b) s) ∧
    (∀ i, i = .bara c n b ∨ i = .bar c n b → ∀ s x h, Issues i s x h → owes (seen i s x h) → exec i s = .next
      { s.updHeat x.key (fun q => { q with fence := some (h.fence.getD s.nid) }) with iss := none, now := s.now + 1 }) ∧
    ∀ i, i = .bara c n b ∨ i = .bar c n b → ∀ s x h, Issues i s x h → ∀ u t0, comes (seen i s x h) u t0 true →
      (fills (seen i s x h) u t0 → ∃ t g, exec i s = .next t ∧ t = { flip (seen i s x h) with heats := t.heats, iss := none, now := s.now + 1 } ∧
        (∀ k, k ≠ x.key → t.heat? k = (s.heat? k).map (fun q =>
          if q.inTeam h.unit x.key.team then { q with lanes := q.lanes.map (Lane.pass n) } else q)) ∧
        t.heat? x.key = some g ∧ g.k = h.k ∧ g.b = h.b ∧ g.nflags = h.nflags ∧
        ∀ l, l < h.lanes.length → g.lane l = closeLane x.lanes s.now l (if l ∈ x.lanes then (h.lane l).advance else (h.lane l).pass n)) ∧
      (¬ good (seen i s x h) t0 → (∀ l ∈ x.lanes, (h.lane l).task = none) →
        ∃ t, exec i s = .next t ∧ Parked s t x h (active i x h) (fun _ => { cause := .perm }) 11)

/-- R281. A fence completes once each part of it that applies is done, and stalls its group while one is not; an acquiring
fence at die scope or wider then invalidates the core's L1. -/
def Obligations.FenceWaitsForItsParts : Prop :=
  ∀ (c : Com) (kind : FenceKind) (eng : Bool) (sc : Scope),
    let mark (e : Seen) : Nat := e.h.fence.getD e.s.nid
    let done (e : Seen) : Prop := e.Fenced kind eng sc (mark e)
    ActsOn (.fence c kind eng sc) (fun e => e.act ≠ [] ∧ done e) (fun e =>
      if (kind = .acq ∨ kind = .full) ∧ 2 ≤ sc.code then e.s.invalidateAll e.x.key.ctx e.h.core else e.s) ∧
    ∀ s x h, Issues (.fence c kind eng sc) s x h → (seen (.fence c kind eng sc) s x h).act ≠ [] → ¬ done (seen (.fence c kind eng sc) s x h) →
      exec (.fence c kind eng sc) s = .next { s.updHeat x.key (fun q => { q with fence := some (mark (seen (.fence c kind eng sc) s x h)) }) with
        iss := none, now := s.now + 1 }

/-- R227. WAITA judges each lane's address and blocks the lane until a poll of its word, 2^20 clocks at most. -/
def Obligations.WaitaBlocksItsLanes : Prop :=
  ∀ (c : Com) (d : Option Nat) (a b : Src) (cmp : WaitCmp) (sg wide : Bool) (acq : Option Scope),
    let sz : Nat := if wide then 3 else 2
    let other (e : Seen) (l : Nat) : Nat := if wide then e.rd .n64 b l else e.rd .n32 b l
    let sync : Prop := ∃ sc, acq = some sc ∧ 2 ≤ sc.code
    Acts (.waita c d a b cmp sg wide true acq)
      (fun e => ∀ l ∈ e.act, ∃ u, e.s.unit? e.h.unit = some u ∧ e.rd .n32 a l % 2 ^ sz = 0 ∧ e.rd .n32 a l + 2 ^ sz ≤ u.size)
      Seen.s Seen.h (fun e l y => blocked (.waita true (e.rd .n32 a l) cmp sg wide (other e l) d (e.s.now + 2 ^ 20) acq) y) ∧
    Acts (.waita c d a b cmp sg wide false acq)
      (fun e => ∀ l ∈ e.act, e.rd .n64 a l % 2 ^ sz = 0 ∧ (sync → e.rd .n64 a l % 64 = 0 ∧ wide = true) ∧
        Canonical (e.rd .n64 a l) ∧ ∃ pa, Mapped e.s e.x.key.ctx e.h.core (e.rd .n64 a l) .read pa)
      Seen.s Seen.h (fun e l y => blocked (.waita false (e.rd .n64 a l) cmp sg wide (other e l) d (e.s.now + 2 ^ 20) acq) y)

/-- R230, R232, R233, R235. RFILL, RPUSH and RRELEASE move their stage's pointer on, with the phase inverted at the wrap, and
leave a pending hand-off; RAWAIT goes on at a ready slot with the slot's fault bit, and blocks at a slot that another stage
owns; RINIT writes a template that fits and the slot states; SPLIT stamps the slot; RAWAIT and SPLIT note the core on which the slot's
round runs. -/
def Obligations.RingInstructionsHandSlotsOn : Prop :=
  ∀ (c : Com) (a : Src) (d : Option Nat) (k : Nat) (fin : Bool),
    let here (e : Seen) : Nat := e.rd .n32 a e.low
    let ring (e : Seen) : List Byte := ((e.s.unit? e.h.unit).map (fun u => readBytes u.scr (here e) 64)).getD []
    let found (st : Stage) (e : Seen) : Prop :=
      (∃ u, e.Ring a u (here e) (ring e)) ∧ (st = .operate → ringStages (ring e) ≠ 2)
    let passes (st : Stage) (e : Seen) : Prop := found st e ∧ ringReady (ring e) (stageCode st) = true
    let passed (st : Stage) (e : Seen) : State :=
      let p := ringPtr (ring e) (stageCode st)
      let last : Bool := p % 16 + 1 = ringSlots (ring e)
      let q := if last then (if bit p 4 then 0 else 16) else p % 16 + 1 + (if bit p 4 then 16 else 0)
      let h : HandOff := { ring := here e, slot := p % 16, stage := st, phase := bit p 4, heat := e.x.key.heat, team := e.x.key.team, before := e.s.nid }
      { e.s with nid := e.s.nid + 1, units := modifyFirst (fun u => u.id = e.h.unit) (fun u =>
          { u with scr := writeBytes u.scr (here e + 16 + 2 * stageCode st) (toBytes 2 q), handoffs := u.handoffs ++ [h] }) e.s.units }
    let slot (st : Stage) (e : Seen) : Nat := ringPtr (ring e) (stageCode st) % 16
    let stamp (st : Stage) (e : Seen) (f : SlotHid → Nat → SlotHid) : State :=
      e.s.updHid e.h.unit (here e) (slot st e) (fun h => f (h.touch e.h.core) (e.s.clock e.h.core).toNat)
    ActsOn (.rfill c a) (passes .fill) (passed .fill) ∧
    ActsOn (.rpush c a) (passes .operate) (passed .operate) ∧
    ActsOn (.rrelease c a) (passes .drain) (passed .drain) ∧
    (∀ st, Acts (.rawait c st d a) (passes st)
      (fun e => stamp st e (fun h t => if st = .operate then { h with wait := t } else h)) Seen.h
      (fun e _ y => (y.ringDone d (bit (ringState (ring e) (slot st e)) 3)).advance)) ∧
    (∀ st, Acts (.rawait c st d a) (fun e => found st e ∧ ringOwned (ring e) (stageCode st) (slot st e) = false) Seen.s Seen.h
      (fun e _ y => blocked (.rawait (here e) st d) y)) ∧
    ActsOn (.split c fin a) (fun e => passes (if ringStages (ring e) = 2 then .drain else .operate) e)
      (fun e => stamp (if ringStages (ring e) = 2 then .drain else .operate) e (fun h t => if fin then { h with cend := t } else { h with cstart := t })) ∧
    ActsOn (.rinit c a k)
      (fun e => e.act ≠ [] ∧ here e % 64 = 0 ∧ (∃ u, e.s.unit? e.h.unit = some u ∧ here e + 64 ≤ u.size ∧ ringFits (e.h.template k) u.size = true ∧
          ∀ q ∈ u.handoffs, q.ring ≠ here e) ∧
        ringTemplateOk (e.h.template k) = true ∧ rg (e.h.template k) 11 29 = 0 ∧ rg (e.h.template k) 48 8 = 0 ∧ rg (e.h.template k) 60 4 = 0 ∧
        e.s.scrOwned e.h.unit (here e / 64) = false ∧ ∀ j, j < 16 → e.s.slotBusy e.h.unit (here e) j = false)
      (fun e =>
        let t := e.h.template k
        let bytes := t.take 24 ++ (List.range 16).flatMap (fun j => toBytes 1 (if j < ringSlots t then 4 else 0)) ++ t.drop 40
        { e.s with units := modifyFirst (fun u => u.id = e.h.unit) (fun u =>
            { u with scr := writeBytes u.scr (here e) bytes, hid := u.hid.filter (fun y => y.1 / 16 ≠ here e) }) e.s.units })

/-- R201, R202, R208. LDS and LDSR load each active lane's element from its own region or a quad member's, and put their flag's
marks on the destination. -/
def Obligations.ScratchpadLoadsFillTheirRegisters : Prop :=
  ∀ (c : Com) (sg : Bool) (sz d : Nat) (x pos : Src) (a : Option Src),
    let off (e : Seen) (l : Nat) : Nat := (e.rd .n32 x l + (match a with | none => 0 | some q => e.rd .n32 q l)) % 2 ^ 32
    let value (e : Seen) (u o : Nat) : Nat := ofBytes (e.scr u o (2 ^ sz))
    Acts (.lds c sg sz d x a) (fun e => ∀ l ∈ e.act, e.Scratch e.h.unit (off e l) sz) Seen.s Seen.h
      (fun e l y => (setElem sg sz d (value e e.h.unit (off e l)) (marked (.lds c sg sz d x a) e y)).advance) ∧
    ∀ (unit : Seen → Nat → Nat),
      Acts (.ldsr c sg sz d x pos)
        (fun e => ∀ l ∈ e.act, e.s.quadPlace e.h (e.rd .n32 pos l) = .unit (unit e l) ∧ e.Scratch (unit e l) (e.rd .n32 x l) sz) Seen.s Seen.h
        (fun e l y => (setElem sg sz d (value e (unit e l) (e.rd .n32 x l)) (marked (.ldsr c sg sz d x pos) e y)).advance)

/-- R201, R202, R208. STS and STSR store each active lane's element into its own region or a quad member's, lane after lane,
and write nothing else. -/
def Obligations.ScratchpadStoresWriteTheirBytes : Prop :=
  ∀ (c : Com) (sg : Bool) (sz d : Nat) (x pos : Src) (a : Option Src),
    let off (e : Seen) (l : Nat) : Nat := (e.rd .n32 x l + (match a with | none => 0 | some q => e.rd .n32 q l)) % 2 ^ 32
    let store (e : Seen) (unit offs : Nat → Nat) : State :=
      e.act.foldl (fun s l => s.scrWrite (unit l) (offs l) ((e.h.lane l).elemBytes sz d)) e.s
    ActsOn (.sts c sg sz d x a) (fun e => ∀ l ∈ e.act, e.Scratch e.h.unit (off e l) sz) (fun e => store e (fun _ => e.h.unit) (off e)) ∧
    ∀ (unit : Seen → Nat → Nat),
      ActsOn (.stsr c sg sz d x pos)
        (fun e => ∀ l ∈ e.act, e.s.quadPlace e.h (e.rd .n32 pos l) = .unit (unit e l) ∧ e.Scratch (unit e l) (e.rd .n32 x l) sz)
        (fun e => store e (unit e) (e.rd .n32 x))

/-- R191, R193, R206, R207. LD and LDG with one active lane in place: where the core's L1 holds the sector, the lane's registers
take the element and the word's operation is over; elsewhere one request goes out for the element's line, and the flag stays
raised. -/
def Obligations.LoadsBringTheirElement : Prop :=
  ∀ (c : Com) (sg : Bool) (sz d b : Nat) (m : Index) (g : GIndex) (i : Instr) (idx : Seen → Nat → Int) (l va pa : Nat) (line : List Byte),
    (i = .ld c sg sz d m b ∧ idx = (fun e l => e.index m l)) ∨ (i = .ldg c sg sz d g b ∧ idx = (fun e l => e.gindex g l)) →
    let here (e : Seen) : Prop := e.Place l .read va pa ∧ e.Checked b sz (idx e l) .load va
    Acts i (fun e => here e ∧ e.s.l1? e.h.core (pa / 64) = some line) Seen.over1
      (fun e => (e.h.flagUp (Seen.flag i e)).flagDown (Seen.flag i e))
      (fun e _ y => (setElem sg sz d (ofBytes ((line.drop (pa % 64)).take (2 ^ sz))) (marked i e y)).advance) ∧
    Acts i (fun e => here e ∧ e.s.l1? e.h.core (pa / 64) = none)
      (fun e => sent e l va pa (e.rcd b) (.load sg sz d) false (opened i e l))
      (fun e => e.h.flagUp (Seen.flag i e)) (fun e _ y => (marked i e y).advance)

/-- R190, R206, R207, R282. ST, STG and a STREL at heat or core scope with one active lane in place write their bytes through
to the die, enter the line in the release accumulator, and send one request for the line's acknowledgement. -/
def Obligations.StoresWriteTheirElementThrough : Prop :=
  ∀ (c : Com) (sg : Bool) (sz d b : Nat) (m : Index) (g : GIndex) (sc : Scope) (v : Src) (i : Instr) (idx : Seen → Nat → Int)
    (bytes : Seen → Nat → List Byte) (l va pa : Nat),
    (i = .st c sg sz d m b ∧ idx = (fun e l => e.index m l) ∧ bytes = (fun e l => (e.h.lane l).elemBytes sz d)) ∨
    (i = .stg c sg sz d g b ∧ idx = (fun e l => e.gindex g l) ∧ bytes = (fun e l => (e.h.lane l).elemBytes sz d)) ∨
    (i = .strel c sz sc v m b ∧ sc.code ≤ 1 ∧ idx = (fun e l => e.index m l) ∧
      bytes = (fun e l => toBytes (2 ^ sz) (if sz = 3 then e.rd .n64 v l else e.rd .n32 v l))) →
    ActsOn i (fun e => e.Place l .write va pa ∧ e.Checked b sz (idx e l) .store va ∧ (i = .strel c sz sc v m b → e.settled))
      (fun e => sent e l va pa (e.rcd b) (.store (bytes e l)) false ((opened i e l).storeThrough e.x.key.ctx e.h.core pa (bytes e l)))

/-- R190, R264, R273, R306. A store written through changes the L1's copy of the sector, if there is one; enters the die's L2
where the die owns the sector and no older write of it waits, else the die's queue with a request for ownership; and enters the
line in the core's release accumulator. -/
def Obligations.StoresGoThroughToTheDie : Prop :=
  ∀ (s : State) (ctx core pa : Nat) (bs : List Byte),
    let die := core / 64
    let s1 : State := match s.l1? core (pa / 64) with
      | none => s
      | some d => { s with l1 := Tbl.set s.l1 (skey core (pa / 64)) (patch d (pa % 64) bs) }
    let waits : Prop := s.owns die (pa / 64) = false ∨ ∃ q ∈ s.rwq, q.die = die ∧ q.pa / 64 = pa / 64
    (¬ waits → s.storeThrough ctx core pa bs = (s1.l2Write die pa bs).bankIn ctx core pa) ∧
    (waits → s.storeThrough ctx core pa bs =
      (({ s1 with rwq := s1.rwq ++ [{ id := s1.nid, die := die, pa := pa, bytes := bs }], nid := s1.nid + 1 } : State).ask die (pa / 64) true).bankIn ctx core pa)

/-- R209, R266, R282. LDK, and LDACQ at heat or core scope, with one active lane in place: as LD, with a destination that may be
uniform; the heat waits for an LDACQ that the L1 does not serve. An LDACQ at die scope or wider sends a request that acquires its
object, and the heat waits for it. -/
def Obligations.UniformAndAcquiringLoads : Prop :=
  ∀ (c : Com) (sz b k : Nat) (dst d : Dst) (m : Index) (sc : Scope) (i : Instr) (l va pa : Nat) (line : List Byte),
    let here (e : Seen) : Prop := e.Place l .read va pa ∧ e.Checked b sz (e.index m l) .load va
    let value : Nat := ofBytes ((line.drop (pa % 64)).take (2 ^ sz))
    let held (e : Seen) : Heat := { raised i e with busy := some (.result e.s.nid) }
    ((i = .ldk c sz k m b ∧ d = .k k) ∨ (i = .ldacq c sz sc dst m b ∧ d = dst ∧ sc.code ≤ 1) →
      Acts i (fun e => here e ∧ e.s.l1? e.h.core (pa / 64) = some line) Seen.over1
        (fun e => (heatTakes (sz == 3) (some d) value (raised i e)).flagDown (Seen.flag i e))
        (fun e _ y => (laneTakes (sz == 3) (some d) value (marked i e y)).advance)) ∧
    (∀ after, (i = .ldk c sz k m b ∧ d = .k k ∧ after = raised i) ∨ (i = .ldacq c sz sc dst m b ∧ d = dst ∧ sc.code ≤ 1 ∧ after = held) →
      Acts i (fun e => here e ∧ e.s.l1? e.h.core (pa / 64) = none)
        (fun e => sent e l va pa (e.rcd b) (.loadDst sz (some d) false) false (opened i e l)) after
        (fun e _ y => (marked i e y).advance)) ∧
    (i = .ldacq c sz sc dst m b ∧ 2 ≤ sc.code →
      Acts i (fun e => here e ∧ va % 64 = 0)
        (fun e => sent e l va pa (e.rcd b) (.loadDst sz (some dst) true) false (opened i e l)) held
        (fun e _ y => (marked i e y).advance))

/-- R212, R213, R214. ATOM and ACAS with one active lane in place: at heat or core scope on a sector in the L1 the word takes the
operation's value, written through, and the old value is the result; elsewhere one request goes out, under ownership of the
sector at die scope or wider; and with a release at such a scope the operation enters the core's queue of releases. The heat waits
for the answer of an acquiring one. -/
def Obligations.AtomicsReplaceTheirWord : Prop :=
  ∀ (c : Com) (op : AtomOp) (kind : AtomKind) (sz b : Nat) (o : Order) (sc : Scope) (d : Option Dst) (t : Dst) (m : Index) (a : Src)
    (i : Instr) (cmp : Seen → Nat) (l va pa : Nat) (line : List Byte),
    (i = .atom c op kind sz o sc d m a b ∧ cmp = fun _ => 0) ∨
    (i = .acas c sz o sc t m a b ∧ op = .cas ∧ kind = .unsigned ∧ d = some t ∧
      cmp = fun e => e.rd (atomTy .unsigned sz) (match t with | .v n => .v n | .k n => .k n) l) →
    let y (e : Seen) : Nat := e.rd (atomTy kind sz) a l
    let acc (e : Seen) : AccOp := .rmw op kind sz sc o (y e) (cmp e) d
    let here (e : Seen) : Prop := e.Place l .write va pa ∧ e.Checked b sz (e.index m l) .rmw va ∧ (frees o → e.mayRelease sc)
    let old : Nat := ofBytes ((line.drop (pa % 64)).take (2 ^ sz))
    let new (e : Seen) : Nat × Nat := rmwOf op kind sz old (y e) (cmp e)
    let leaves (e : Seen) : Heat := e.awaits o (raised i e)
    (sc.code ≤ 1 →
      Acts i (fun e => here e ∧ e.s.l1? e.h.core (pa / 64) = some line)
        (fun e => e.closed (((opened i e l).bankIn e.x.key.ctx e.h.core pa).writeThrough e.h.core pa (toBytes (2 ^ sz) (new e).1)))
        (fun e => (heatTakes (sz == 3) d old { raised i e with nflags := e.h.nflags ||| (new e).2 }).flagDown (Seen.flag i e))
        (fun e _ q => (laneTakes (sz == 3) d old (marked i e q)).advance) ∧
      Acts i (fun e => here e ∧ e.s.l1? e.h.core (pa / 64) = none)
        (fun e => sent e l va pa (e.rcd b) (acc e) false (opened i e l)) leaves (fun e _ q => (marked i e q).advance)) ∧
    (2 ≤ sc.code → ¬ frees o →
      Acts i (fun e => here e ∧ (o = .relaxed ∨ va % 64 = 0))
        (fun e => sent e l va pa (e.rcd b) (acc e) true (opened i e l)) leaves (fun e _ q => (marked i e q).advance)) ∧
    (2 ≤ sc.code → frees o →
      Acts i (fun e => here e ∧ va % 64 = 0)
        (fun e => (opened i e l).enqueueRel
          { origin := e.h.core, ctx := e.x.key.ctx, scope := sc, obj := some pa
            val := .rmw e.x.key [{ lane := l, va := va, pa := pa, op := acc e, opId := e.s.nid, nopre := recNopre (e.rcd b), strm := recStream (e.rcd b) }] })
        leaves (fun e _ q => (marked i e q).advance))

/-- R225, R282, R283. SYADD with one active lane in place sends its add under ownership of the object's sector, or enters it in the
core's queue of releases, and the heat waits for what it acquires or takes; a STREL at die scope or wider enters its value there,
and the heat goes on. A release waits in its place while a completion word of the heat is to be written. -/
def Obligations.SyncWordsReachTheirObject : Prop :=
  ∀ (c : Com) (o : Order) (sz b : Nat) (sc : Scope) (d : Option Dst) (v : Src) (m : Index) (a : Src) (l va pa : Nat),
    let here (e : Seen) (sz : Nat) (k : AKind) : Prop := e.Place l .write va pa ∧ e.Checked b sz (e.index m l) k va ∧ va % 64 = 0
    let add : Instr := .syadd c o sc d m a b
    let acc (e : Seen) : AccOp := .syadd (e.rd .n64 a l) sc o d
    let waits (e : Seen) : Heat := if d.isSome then { e.h with busy := some (.result e.s.nid) } else e.awaits o e.h
    let rel (e : Seen) (val : RelVal) : PendRel := { origin := e.h.core, ctx := e.x.key.ctx, scope := sc, obj := some pa, val := val }
    (o = .acquire →
      Acts add (fun e => here e 3 .rmw) (fun e => sent e l va pa (e.rcd b) (acc e) true (opened add e l)) waits (fun _ _ q => q.advance)) ∧
    (2 ≤ sc.code → frees o →
      Acts add (fun e => here e 3 .rmw ∧ e.mayRelease sc)
        (fun e => (opened add e l).enqueueRel (rel e (.rmw e.x.key
          [{ lane := l, va := va, pa := pa, op := acc e, opId := e.s.nid, nopre := recNopre (e.rcd b), strm := recStream (e.rcd b) }])))
        waits (fun _ _ q => q.advance)) ∧
    (2 ≤ sc.code →
      ActsOn (.strel c sz sc v m b) (fun e => here e sz .store ∧ e.mayRelease sc)
        (fun e => e.closed ((opened (.strel c sz sc v m b) e l).enqueueRel (rel e (.set (if sz = 3 then e.rd .n64 v l else e.rd .n32 v l)))))) ∧
    ∀ i, i = add ∧ frees o ∨ i = .strel c sz sc v m b → ∀ s x h, Issues i s x h → 2 ≤ sc.code → h.cpyw ≠ [] →
      (seen i s x h).Place l .write va pa → recColour (h.b256 b) = 0 → recRemote (h.b256 b) = false → Stalls i s

/-- R212, R215. ATOMS with one active lane in place: the word of the lane's region takes the operation's value, and the old value
is the result. -/
def Obligations.ScratchpadAtomicsReplaceTheirWord : Prop :=
  ∀ (c : Com) (op : AtomOp) (kind : AtomKind) (sz : Nat) (o : Order) (sc : Scope) (d : Option Dst) (x y : Src) (l : Nat),
    let i : Instr := .atoms c op kind sz o sc d x y
    let off (e : Seen) : Nat := e.rd .n32 x l
    let old (e : Seen) : Nat := ofBytes (e.scr e.h.unit (off e) (2 ^ sz))
    let cmp (e : Seen) : Nat := match d with | some (.v n) => e.rd (atomTy kind sz) (.v n) l | some (.k n) => e.rd (atomTy kind sz) (.k n) l | none => 0
    let new (e : Seen) : Nat × Nat := rmwOf op kind sz (old e) (e.rd (atomTy kind sz) y l) (cmp e)
    Acts i (fun e => e.act = [l] ∧ e.Scratch e.h.unit (off e) sz ∧ (e.h.lane l).task = none ∧ (frees o → e.mayRelease sc))
      (fun e => e.s.scrWrite e.h.unit (off e) (toBytes (2 ^ sz) (new e).1))
      (fun e => heatTakes (sz == 3) d (old e)
        { e.h with kpend := e.h.kpend ++ (Instr.destK i).map (fun k => (k, Seen.flag i e)), nflags := e.h.nflags ||| (new e).2 })
      (fun e _ q => (laneTakes (sz == 3) d (old e) (marked i e q)).advance)

/-- R210, R211. CMAINT.invall empties the core's L1; with one active lane whose element stands in place, CMAINT.inv drops the
L1's sectors of its line, CMAINT.wb writes the line's dirty sectors back, and PREF brings the line nearer; a PREF through a record
that check() would refuse, or a REMOTE one, changes nothing. -/
def Obligations.MaintenanceWordsActOnTheirLine : Prop :=
  ∀ (c : Com) (l2 : Bool) (sz b : Nat) (m : Index) (l va pa : Nat),
    let here (e : Seen) : Prop := e.act = [l] ∧ recRemote (e.rcd b) = false ∧ check (e.rcd b) sz (e.index m l) .load = .va va
    ActsOn (.cmaintInvall c) (fun e => e.act ≠ []) (fun e => e.s.l1Drop e.h.core (fun _ => true)) ∧
    ActsOn (.cmaintInv c sz m b) (fun e => here e ∧ e.At .read va pa) (fun e => e.s.l1Drop e.h.core (fun q => q / 4 == pa / 256)) ∧
    ActsOn (.cmaintWb c sz m b) (fun e => here e ∧ e.At .read va pa)
      (fun e => (upto 4).foldl (fun s j => s.cleanSector (4 * (pa / 256) + j)) e.s) ∧
    ActsOn (.pref c l2 sz m b) (fun e => here e ∧ e.s.peek e.x.key.ctx (e.h.core / 64) va .read = .ok pa)
      (fun e => e.s.prefetch e.h.core l2 (recStream (e.rcd b)) (pa / 256)) ∧
    ActsOn (.pref c l2 sz m b) (fun e => recBad (e.rcd b) = true ∨ sz ≠ recSize (e.rcd b) ∨ recRemote (e.rcd b) = true) Seen.s

/-- R203. BLD.mem reads the record at the lowest active lane's address, as the L1 holds it, into its record register. -/
def Obligations.BldMemReadsARecord : Prop :=
  ∀ (c : Com) (d n : Nat) (a : Src) (pa : Nat) (line : List Byte),
    let va (e : Seen) : Nat := (e.rd .n64 a e.low + 32 * n) % 2 ^ 64
    Acts (.bldMem c d a n)
      (fun e => e.act ≠ [] ∧ va e % 32 = 0 ∧ Canonical (va e) ∧ Mapped e.s e.x.key.ctx e.h.core (va e) .read pa ∧
        e.h.debug = false ∧ e.s.ownPending e.x.key (pa / 64) = false ∧ e.s.l1? e.h.core (pa / 64) = some line ∧
        ∀ l ∈ e.act, (e.h.lane l).task = none)
      Seen.s (fun e => e.h.setB d (ofBytes ((line.drop (pa % 64)).take 32))) (fun _ _ y => y.advance)

/-- R220 to R222, R225. A CPYIN or CPYOUT of one lane without a ring, its address and its scratchpad bytes in place, begins a
copy and its lane moves on; a CPYW leaves its add pending behind the heat's copies, and stalls while 16 are unperformed. -/
def Obligations.CopiesBeginAndTheHeatGoesOn : Prop :=
  ∀ (c : Com) (sz b : Nat) (sc : Scope) (o a : Src) (m : Index) (l va pa : Nat),
    let here (e : Seen) (k : AKind) (use : Use) : Prop := e.act = [l] ∧ e.At use va pa ∧ e.Checked b sz (e.index m l) k va ∧
      e.h.debug = false ∧ e.h.journal = false ∧ e.s.freeSlots e.h.core ≠ 0 ∧ e.s.ownPending e.x.key (pa / 64) = false ∧
      (∃ u, e.s.unit? e.h.unit = some u ∧ e.rd .n32 o l % 2 ^ sz = 0 ∧ e.rd .n32 o l + 2 ^ sz ≤ u.size) ∧
      ∀ q ∈ e.s.ops, q.isCopy = true → q.key = e.x.key → q.pc = e.x.pc → l ∉ q.parked
    ActsOn (.cpyin c sz o m none b) (fun e => here e .load .read) (fun e => copied false e l va pa (e.rcd b) sz (e.rd .n32 o l)) ∧
    ActsOn (.cpyout c sz o m none b) (fun e => here e .store .write) (fun e => copied true e l va pa (e.rcd b) sz (e.rd .n32 o l)) ∧
    Acts (.cpyw c sz sc a m b)
      (fun e => e.Place l .write va pa ∧ e.Checked b sz (e.index m l) .rmw va ∧ (sc.code ≤ 1 ∨ va % 64 = 0) ∧ e.s.cpywPending e.h < 16 ∧
        ∀ p ∈ e.h.cpyw, p.before ≠ e.s.nid)
      Seen.over1
      (fun e => { e.h with cpyw := e.h.cpyw ++ [{ before := e.s.nid, ctx := e.x.key.ctx
                                                  accs := [{ lane := l, va := va, pa := pa, op := .cpyw (if sz = 3 then e.rd .n64 a l else e.rd .n32 a l) sz sc
                                                             opId := e.s.nid, nopre := recNopre (e.rcd b), strm := recStream (e.rcd b) }] }] })
      (fun _ _ y => y.advance) ∧
    ∀ s x h, Issues (.cpyw c sz sc a m b) s x h → recRemote (h.b256 b) = false → 16 ≤ s.cpywPending h → Stalls (.cpyw c sz sc a m b) s

/-- R241, R251. MMARK writes its mark register: the issuing heat alone, the mask of the lowest active lane in a group, or 0. A
mask that names a heat the team has not, or a register with a partly signed operation, raises PERM in every active lane. -/
def Obligations.MarksNameTheSigners : Prop :=
  ∀ (c : Com) (m g : Nat) (a : Src) (i : Instr) (x : Seen → Mark),
    (i = .mmarkSelf c m ∧ x = fun e => { heats := 2 ^ (e.x.key.heat % 32), group := e.x.key.heat / 32 }) ∨
    (i = .mmarkMask c m g a ∧ x = fun e => { heats := e.rd .n32 a e.low, group := g }) ∨ (i = .mmarkClear c m ∧ x = fun _ => {}) →
    let ok (e : Seen) (t : Team) : Prop := (∀ n ∈ (x e).names, n < t.heats) ∧ Tbl.find? t.partials m = none
    ActsOn i (fun e => e.act ≠ [] ∧ ∃ u t, e.Team u t ∧ ok e t)
      (fun e => e.s.updTeam e.h.unit e.x.key.team (fun t => { t with marks := Tbl.put {} t.marks m (x e) })) ∧
    ∀ s h q, Issues i s q h → active i q h ≠ [] → (∃ u t, (seen i s q h).Team u t ∧ ¬ ok (seen i s q h) t) →
      (∀ l ∈ q.lanes, (h.lane l).task = none) → ∃ t, exec i s = .next t ∧ Parked s t q h (active i q h) (fun _ => { cause := .perm }) 11

/-- R242 to R244, R250. A signed matrix instruction whose mark names the issuing heat alone enters its array's queue when the
checks pass, and its lanes go on; one whose mark names another live heat blocks its lanes and leaves a partly signed operation; one
whose mark does not name the heat raises PERM in every active lane. -/
def Obligations.SignedOperationsEnterTheirArray : Prop :=
  ∀ (i : Instr) (m : Nat) (f : MFields) (a : Option Src), Signed i m f a →
    let operand (e : Seen) (l : Nat) : Nat := match a with | none => 0 | some q => e.rd .n32 q l
    let mark (t : Team) : Mark := Tbl.get {} t.marks m
    let signs (e : Seen) : List SignLane := e.act.map (fun l => { lane := l, operand := operand e l, op := e.s.nid })
    let named (e : Seen) (u : RUnit) (t : Team) : Prop :=
      e.act ≠ [] ∧ e.Team u t ∧ e.x.key.heat ∈ (mark t).names ∧ Tbl.find? t.partials m = none
    let alone (e : Seen) : Prop := ∃ u t, named e u t ∧ (∀ n ∈ (mark t).names, n = e.x.key.heat) ∧ u.core = e.h.core ∧
      (e.s.array e.h.core f.arr).q.length < 16 ∧ matrixTraps (e.s.array e.h.core f.arr) u.size f (operand e e.low) = []
    let more (e : Seen) : Prop := ∃ u t n, named e u t ∧ n ∈ (mark t).names ∧ n ≠ e.x.key.heat ∧ n ∈ e.s.liveHeats e.h.unit e.x.key.team
    let queued (e : Seen) : State :=
      let o : MOp := { id := e.s.nid + 1, ctx := e.x.key.ctx, serial := e.x.key.serial, team := e.x.key.team, unit := e.h.unit, fields := f
                       off := operand e e.low, signers := [{ heat := e.x.key.heat, lanes := signs e, born := e.s.nid }], operandHeat := e.x.key.heat }
      let s : State := (opens i e).updTeam e.h.unit e.x.key.team (fun t => { t with partials := Tbl.erase t.partials m })
      State.updArray { s with nid := e.s.nid + 2 } e.h.core f.arr (fun x => { x with q := x.q ++ [o] })
    let partly (e : Seen) : State :=
      let p : Partial := { word := fld (encode i) 0 48 + fld (encode i) 56 8 * 2 ^ 56, fields := f, signers := [{ heat := e.x.key.heat, lanes := signs e, born := e.s.nid }] }
      (opens i e).updTeam e.h.unit e.x.key.team (fun t => { t with partials := Tbl.set t.partials m p })
    let heat (e : Seen) : Heat := if Instr.long i then raised i e else e.h
    let lane (e : Seen) (y : Lane) : Lane := if Instr.long i then marked i e y else y
    Acts i alone queued heat (fun e _ y => (lane e y).advance) ∧
    Acts i more partly heat (fun e _ y => blocked (.sign m) (lane e y)) ∧
    ∀ s q h, Issues i s q h → active i q h ≠ [] → (∃ u t, (seen i s q h).Team u t ∧ q.key.heat ∉ (mark t).names) →
      (∀ l ∈ q.lanes, (h.lane l).task = none) → ∃ t, exec i s = .next t ∧ Parked s t q h (active i q h) (fun _ => { cause := .perm }) 11

/-- R251 to R258. MATRIX_OP_COMPLETE performs the operation at the head of an array's queue: MLDW loads the shadow plane, MSWAP
exchanges the planes, MSTR and MDIST stream vectors into the accumulators, MRD and MRD.scr clear theirs when they say so, MCLR
clears, and MTOPK leaves the array as it was; an error that what the operation wrote afresh held is gone. An empty queue leaves
everything as it was. -/
def Obligations.MatrixOperationsCompleteInOrder : Prop :=
  ∀ (core : Nat) (arr : Bool) (s : State),
    let a := s.array core arr
    let leaves (t : State) (rest : List MOp) (x : MArray) : Prop := ∃ f, a.q = f :: rest ∧ t.array core arr = ({ x with q := rest } : MArray).renew f.fields
    (a.q = [] → exec (.matrixOpComplete core arr) s = .next s) ∧
    ∀ o rest, a.q = o :: rest → a.finds o.fields = false → ∃ t, exec (.matrixOpComplete core arr) s = .next t ∧ t.mem = s.mem ∧
      (∀ k, k ≠ 2 * core + b2n arr → Tbl.get {} t.arrays k = Tbl.get {} s.arrays k) ∧
      (o.fields.op = 0xA1 → leaves t rest { a with shadow :=
        (mfLoad (o.fields.fmt.getD .bf16) o.fields.v0 (s.scrRead o.unit o.off (mfPlane (o.fields.fmt.getD .bf16)))).1 }) ∧
      (o.fields.op = 0xA2 → leaves t rest { a with stat := a.shadow, shadow := a.stat }) ∧
      (o.fields.op = 0xA3 ∨ o.fields.op = 0xA4 → leaves t rest
        (a.stream o.fields (a.stat.mode.getD .bf16) (s.scrRead o.unit o.off ((o.fields.cnt + 1) * mfVec (a.stat.mode.getD .bf16)))).1) ∧
      (o.fields.op = 0xA5 → leaves t rest a) ∧
      (o.fields.op = 0xA6 → leaves t rest (if o.fields.v2 then a.clear o.fields.row (if o.fields.v0 then o.fields.cnt + 1 else 1) else a)) ∧
      (o.fields.op = 0xA7 → leaves t rest (if o.fields.v0 then { a with acc := [] } else a.clear o.fields.row (o.fields.cnt + 1)))

/-- R333 to R335, R347. CLAIM moves on with lanes that hold every colour they name; one active lane that lacks a single colour takes
it at once where its entry is free, with the object acquired, and where it is owned joins its queue and blocks. -/
def Obligations.ClaimTakesOrWaits : Prop :=
  ∀ (c : Com) (a n l col pa : Nat),
    let i : Instr := .claim c a n
    let lacks (e : Seen) (l : Nat) (cs : List Nat) : Prop :=
      claimCheck (e.h.lane l) ((upto (n + 1)).map (fun j => (e.h.lane l).v32 (a + j))) = .ok cs
    let here (e : Seen) : Prop := e.act = [l] ∧ lacks e l [col] ∧ e.s.findEntry e.h col = (.ok pa, e.s)
    let owned (e : Seen) : State := e.s.setOwner e.x.key.ctx col (threadId e.x.key l)
    ActsOn i (fun e => ∀ l ∈ e.act, lacks e l []) Seen.s ∧
    Acts i (fun e => here e ∧ e.s.ownerOf pa = noThread ∧ (owned e).abandoned pa = false)
      (fun e => (owned e).acquireObj e.x.key.ctx e.h.core pa) Seen.h
      (fun _ _ y => { y with held := addHeld y.held { colour := col, depth := y.depth } }.advance) ∧
    Acts i (fun e => here e ∧ e.s.ownerOf pa ≠ noThread)
      (fun e => e.s.setMonQ e.x.key.ctx col (e.s.monQ e.x.key.ctx col ++ [{ key := e.x.key, lane := l }])) Seen.h
      (fun _ _ y => blocked (.claim [col]) y)

/-- R346, R348, R349, R351. MWAIT, MNOTE, MNOTEALL and MREPAIR on a colour that the lane holds complete. MWAIT, where no greater colour
is held and the lane runs no task, blocks the lane, with the release queued unless a copy through the colour is under way; a greater
colour raises MONITOR_ORDER. MNOTE makes the first sleeper of its colour's queue an acquirer at the tail and
MNOTEALL all of them in their order, notified; without a sleeper they have no effect. MREPAIR clears ABANDONED. A colour operand above
4095 raises PERM, and a colour that a lane does not hold MONITOR_STATE. Each of the four answers a next state with its own effect. -/
def Obligations.MonitorWordsWorkOnHeldColours : Prop :=
  ∀ (c : Com) (d : Option Nat) (a : Src) (t l pa : Nat),
    let col (e : Seen) : Nat := e.rd .n32 a l
    let holds (e : Seen) : Prop := e.act = [l] ∧ col e < 4096 ∧ (e.h.lane l).holds (col e) = true
    let depth (e : Seen) : Nat := (((e.h.lane l).held.find? (fun y => y.colour = col e)).map (·.depth)).getD 0
    Acts (.mwait c d a t)
      (fun e => holds e ∧ (e.h.lane l).task = none ∧ (∀ y ∈ (e.h.lane l).held, y.colour ≤ col e) ∧ e.s.entryPa e.x.key.ctx (col e) = some pa ∧
        e.s.copyBusy e.x.key l (col e) = false)
      (fun e => e.s.queueRelease e.h l (col e) pa) Seen.h
      (fun e _ y => blocked (.mwait (col e) (depth e) d 0 (2 ^ t) false false false) y) ∧
    Acts (.mwait c d a t)
      (fun e => holds e ∧ (e.h.lane l).task = none ∧ (∀ y ∈ (e.h.lane l).held, y.colour ≤ col e) ∧ e.s.copyBusy e.x.key l (col e) = true)
      Seen.s Seen.h (fun e _ y => blocked (.mwait (col e) (depth e) d 0 (2 ^ t) false false false) y) ∧
    ActsOn (.mrepair c a) (fun e => holds e ∧ e.s.entryPa e.x.key.ctx (col e) = some pa) (fun e => e.s.setAbandoned pa false) ∧
    (∀ i all, (i = .mnote c a ∧ all = false) ∨ (i = .mnoteall c a ∧ all = true) →
      let woken (e : Seen) : List Waiter := let q := (e.s.monQ e.x.key.ctx (col e)).filter (·.sleeper); if all then q else q.take 1
      let wake (e : Seen) (s : State) (v : Waiter) : State :=
        s.setMonQ e.x.key.ctx (col e) (removeFirst (fun y => y = v) (s.monQ e.x.key.ctx (col e)) ++ [{ v with sleeper := false }])
      let woke (e : Seen) (n : Nat) : State := ((woken e).take n).foldl (wake e) e.s
      ActsOn i (fun e => holds e ∧ woken e = []) Seen.s ∧
      ∀ s x h, Issues i s x h → let e := seen i s x h
        holds e → (∀ n, 1 ≤ n → n ≤ (woken e).length → ((woke e n).entryPa x.key.ctx (col e)).map (woke e n).ownerOf ≠ some noThread) →
        ∃ t, exec i s = .next t ∧ t = { woke e (woken e).length with heats := t.heats, iss := none, now := s.now + 1 } ∧
          ∀ v ∈ woken e, ∀ q dp p dl sp n r, s.heat? v.key = some q → v.lane < q.lanes.length →
            (q.lane v.lane).st = .blocked (.mwait (col e) dp p dl sp true n r) →
            ∃ g, t.heat? v.key = some g ∧ (g.lane v.lane).st = .blocked (.mwait (col e) dp p dl sp false true r)) ∧
    (∀ s x h, Issues (.mwait c d a t) s x h → holds (seen (.mwait c d a t) s x h) → (∀ l ∈ x.lanes, (h.lane l).task = none) →
      (∃ y ∈ (h.lane l).held, col (seen (.mwait c d a t) s x h) < y.colour) →
      ∃ u, exec (.mwait c d a t) s = .next u ∧ Parked s u x h [l] (fun _ => { cause := .monitorOrder }) 7) ∧
    ∀ i, i = .mwait c d a t ∨ i = .mnote c a ∨ i = .mnoteall c a ∨ i = .mrepair c a → ∀ s x h, Issues i s x h →
      (seen i s x h).act = [l] → (∀ l ∈ x.lanes, (h.lane l).task = none) →
      (4096 ≤ col (seen i s x h) → ∃ u, exec i s = .next u ∧ Parked s u x h [l] (fun _ => { cause := .perm }) 11) ∧
      (col (seen i s x h) < 4096 → (h.lane l).holds (col (seen i s x h)) = false →
        ∃ u, exec i s = .next u ∧ Parked s u x h [l] (fun _ => { cause := .monitorState }) 9)

/-- R378, R379, R382, R386, R387, R389. With their object in place, TSTOP sets STOP in a tile's lap state unless it is final or
stopped, TLAP acquires the publication and gives the lap state or the buffer of the newest lap, and TSETTLE acquires a settled
group's object or blocks its lanes while the group is live. -/
def Obligations.TaskWordsReachTheirHandles : Prop :=
  ∀ (c : Com) (d : Nat) (a : Src) (pa : Nat),
    let va (e : Seen) : Nat := e.rd .n64 a e.low
    let here (e : Seen) (n : Nat) (use : Use) : Prop := e.act ≠ [] ∧ va e % n = 0 ∧ Canonical (va e) ∧
      Mapped e.s e.x.key.ctx e.h.core (va e) use pa ∧ e.s.poisoned pa n = false
    let lap (e : Seen) : Nat := e.s.cohNat (pa + 16) 1
    let handle (e : Seen) : List Byte := e.s.viewRead (e.h.core / 64) pa 128
    let n (e : Seen) : Nat := fld (rg (handle e) 16 1) 0 4
    let reads (e : Seen) : Prop := here e 128 .read ∧ n e ≠ 15 ∧ badHandle (handle e) = false ∧ ∀ l ∈ e.act, (e.h.lane l).task = none
    let acquired (e : Seen) : State := e.s.acquireObj e.x.key.ctx e.h.core (pa + 64)
    let open_ (e : Seen) : Prop := ∃ g ∈ e.s.groups, g.ctx = e.x.key.ctx ∧ g.obj = va e
    let free (e : Seen) : Prop := here e 64 .read ∧ ∀ l ∈ e.act, (e.h.lane l).task = none
    ActsOn (.tstop c a) (fun e => here e 128 .write ∧ badHandle (e.s.cohRead pa 128) = false)
      (fun e => if bit (lap e) 4 = true ∨ bit (lap e) 5 = true then e.s else e.s.cohPut (pa + 16) 1 (lap e + 32)) ∧
    Acts (.tlapState c d a) reads acquired Seen.h (fun e _ y => (y.setV d (rg (handle e) 16 1)).advance) ∧
    Acts (.tlapBuf c d a) reads acquired Seen.h
      (fun e _ y => (y.setV64 d (if n e = 0 then 0 else rg (handle e) (8 * (n e % 2)) 8)).advance) ∧
    ActsOn (.tsettle c a) (fun e => free e ∧ ¬ open_ e) (fun e => e.s.acquireObj e.x.key.ctx e.h.core pa) ∧
    Acts (.tsettle c a) (fun e => free e ∧ open_ e) Seen.s Seen.h (fun e _ y => blocked (.tsettle (va e)) y)

/-- R51, R344, R367, R384, R385, R388, R369. One active lane that makes up its task: TDONE reads its successor list, marks its
colours release pending, blocks it and enters the commit at its die's arbiter; PUBLAP blocks it and enters the publication; TABORT.requeue ends the run with the task
ready again, and TABORT.fail fails the card. Outside a task each of them raises PERM. -/
def Obligations.TaskWordsEndOrPublish : Prop :=
  ∀ (c : Com) (fin : Bool) (a : Src) (l n : Nat) (r : Run),
    let runs (e : Seen) : Prop := e.act = [l] ∧ (e.h.lane l).task = some r.id ∧ e.s.run? r.id = some r ∧
      e.s.lanesOf r = [(e.x.key, l)] ∧ ∀ q ∈ e.s.arb, q.run ≠ r.id
    Acts (.tdone c) (fun e => runs e ∧ e.s.tdoneTrap r = none)
      (fun e => { e.s.updRun r.id (fun q => { q with succ := (e.s.runSuccessors r).toOption.getD [], committing := true }) with
        arb := e.s.arb ++ [{ die := r.core / 64, run := r.id }] }) Seen.h
      (fun _ _ y => blocked .tdone { y with held := y.held.map (fun q => { q with pending := true }) }) ∧
    Acts (.publap c fin a) (fun e => runs e ∧ r.tile ≠ 0 ∧ e.s.judgeLap r (e.rd .n32 a l) fin = (.publish n, e.s))
      (fun e => { e.s with arb := e.s.arb ++ [{ die := r.core / 64, run := r.id, publish := some (n, fin) }] }) Seen.h
      (fun e _ y => blocked (.publap (e.rd .n32 a l) fin) y) ∧
    (∀ s x h k, Issues (.tabortRequeue c) s x h → runs (seen (.tabortRequeue c) s x h) → r.irrevocable = false → r.rest = [] →
      s.card? r.card = some k → s.fencedDies.contains (k.task r.task).die = false →
      ∃ t q, exec (.tabortRequeue c) s = .next t ∧ t.run? r.id = none ∧ t.card? r.card = some q ∧ q.ready.getLast? = some r.task ∧
        (q.task r.task).st = .ready (k.task r.task).die (k.task r.task).entry) ∧
    (∀ s x h k, Issues (.tabortFail c) s x h → runs (seen (.tabortFail c) s x h) → r.irrevocable = false →
      s.card? r.card = some k → k.failed = false →
      ∃ t q, exec (.tabortFail c) s = .next t ∧ t.card? r.card = some q ∧ q.failed = true) ∧
    ∀ i, i = .tdone c ∨ i = .publap c fin a ∨ i = .tabortRequeue c ∨ i = .tabortFail c → ∀ s x h, Issues i s x h → active i x h ≠ [] →
      (∀ l ∈ x.lanes, (h.lane l).task = none) → ∃ t, exec i s = .next t ∧ Parked s t x h (active i x h) (fun _ => { cause := .perm }) 11

/-- R47, R356, R357, R383. TSPAWN with one active lane outside a task, its record and everything it names in place and an entry free
on every die of its domain, releases the core's writes and enters the card; a heat whose kernel declared no tasks raises PERM. -/
def Obligations.TspawnEntersItsCard : Prop :=
  ∀ (c : Com) (a : Src) (l pa obj : Nat),
    let i : Instr := .tspawn c a
    let va (e : Seen) : Nat := e.rd .n64 a l
    let bytes (e : Seen) : List Byte := e.s.cohRead pa 64
    let card (e : Seen) (id : Nat) : Card := cardOf id e.x.key.ctx e.x.key.serial (bytes e)
    let released (e : Seen) : State := e.s.releaseNow e.x.key.ctx e.h.core .package none 0
    let ready (e : Seen) : Prop := let k := card e e.s.nid
      (e.h.lane l).task = none ∧ e.h.cpyw = [] ∧ e.s.noRels e.x.key.ctx e.h.core = true ∧ e.s.performed e.h.core e.s.nid .package = true ∧
      va e % 64 = 0 ∧ Canonical (va e) ∧ Mapped e.s e.x.key.ctx e.h.core (va e) .read pa ∧ e.s.poisoned pa 64 = false ∧
      badCard (bytes e) = false ∧ Mapped e.s e.x.key.ctx e.h.core k.completion .write obj ∧ e.s.poisoned obj 64 = false ∧
      e.s.badArgs k = none ∧ ∀ d ∈ k.dies, e.s.fencedDies.contains d = false → (e.s.freeEntry d).isSome = true
    let whole (e : Seen) : Prop := let k := card e e.s.nid
      (∃ d ∈ k.dies, e.s.fencedDies.contains d = false) ∧
      ∀ j < k.count, ∃ q, (released e).peek k.ctx (e.h.core / 64) (k.args + k.recSize * j) .read = .ok q ∧ (released e).poisoned q 2 = false
    let tasks (e : Seen) : Prop := e.h.usesTasks = true ∨ e.h.isTask = true
    ActsOn i (fun e => e.act = [l] ∧ tasks e ∧ ready e ∧ whole e) (fun e =>
      State.enterCard { released e with nid := (released e).nid + 1 }
        { card e (released e).nid with pair := some (e.h.core, (released e).lastSeq e.x.key.ctx e.h.core) } (e.h.core / 64)) ∧
    ∀ s x h, Issues i s x h → active i x h ≠ [] → ¬ tasks (seen i s x h) → (∀ l ∈ x.lanes, (h.lane l).task = none) →
      ∃ t, exec i s = .next t ∧ Parked s t x h (active i x h) (fun _ => { cause := .perm }) 11

/-- R398, R404 to R407. With one active lane whose handle names a posted record of another heat: RESUME performs a release and
returns the record's parked lanes of its mask to their words, with that release to acquire; KILL.lanes makes those lanes exit,
KILL.heat every lane of the heat, and KILL.kernel marks the kernel killed; ERET gives the claim back. A handle that names no record
has no effect, and one of another context raises PERM. -/
def Obligations.RecordsResumeKillAndReturn : Prop :=
  ∀ (c : Com) (skip : Bool) (a : Src) (m : Option Src) (l : Nat) (r : FRec) (k : HeatKey) (q : Heat) (i : Instr),
    i = .resume c skip a m ∨ i = .killLanes c a m ∨ i = .killHeat c a ∨ i = .killKernel c a ∨ i = .eret c a →
    ActsOn i (fun e => ∀ n ∈ e.act, e.s.byHandle (e.rd .n64 a n) = none) Seen.s ∧
    ∀ s x h, Issues i s x h → let e := seen i s x h
      let mask : Nat := match m with | none => 2 ^ 32 - 1 | some b => e.rd .n32 b l
      let hit (n : Nat) : Prop := n < q.lanes.length ∧ (q.lane n).parkedOn r.id = true ∧ bit mask n = true ∧ bit r.lanes n = true
      e.act = [l] → s.byHandle (e.rd .n64 a l) = some r →
      (r.ctx ≠ x.key.ctx → (∀ n ∈ x.lanes, (h.lane n).task = none) →
        ∃ t, exec i s = .next t ∧ Parked s t x h [l] (fun _ => { cause := .perm }) 11) ∧
      (r.ctx = x.key.ctx → r.dealer = none → r.isCard = false → s.pagedBy r.id = none → r.key = some k → k ≠ x.key → s.heat? k = some q →
        (i = .resume c skip a m → s.canRelease h = true → ∃ t g, exec i s = .next t ∧ t.heat? k = some g ∧
          ∀ n, n < q.lanes.length → (hit n → g.lane n =
              (q.lane n).resumed skip (some (h.core, (Tbl.get 0 (s.ctx x.key.ctx).seqs h.core + 1) % 2 ^ 64))) ∧
            (¬ hit n → g.lane n = q.lane n)) ∧
        (i = .killLanes c a m → ∃ t g, exec i s = .next t ∧ t.heat? k = some g ∧ ∀ n, hit n → (g.lane n).st = .exited) ∧
        (i = .killHeat c a → ∃ t g, exec i s = .next t ∧ t.heat? k = some g ∧ ∀ n, n < q.lanes.length → (g.lane n).st = .exited) ∧
        (i = .killKernel c a → ∀ n y, r.serial = some n → s.kernel? r.ctx n = some y → x.key.serial ≠ n →
          ∃ t z, exec i s = .next t ∧ t.kernel? r.ctx n = some z ∧ z.killed = true) ∧
        (i = .eret c a → (∀ g ∈ s.heats, ∀ y ∈ g.lanes, ∀ d va dl, y.st ≠ .blocked (.tframe d va dl)) → ∃ t, exec i s = .next t ∧
          t = { s with heats := t.heats, iss := none, now := s.now + 1
                       records := s.records.map (fun y => if y.id = r.id then { y with claimed := none } else y) }))

/-- R397, R399, R408. TFRAME.next with its block in place blocks its lane where no record waits, and otherwise writes the 64 bytes of
its die's oldest record, claims it for the heat, and goes on with its predicate set; TFRAME.rd gives an item of a parked lane of the
record, and TFRAME.wr writes one. -/
def Obligations.TrapFramesAreTakenReadAndWritten : Prop :=
  ∀ (c : Com) (d t item pa : Nat) (a b y : Src) (l : Nat) (r : FRec),
    let va (e : Seen) : Nat := e.rd .n64 a l
    let here (e : Seen) : Prop := e.act = [l] ∧ va e % 64 = 0 ∧ Canonical (va e) ∧ Mapped e.s e.x.key.ctx e.h.core (va e) .write pa ∧
      e.h.journal = false ∧ (e.h.lane l).task = none
    let next (e : Seen) : Option FRec := e.s.nextRecord e.x.key.ctx (e.h.core / 64)
    let named (e : Seen) (k : HeatKey) : Prop := e.act = [l] ∧ e.s.byHandle (e.rd .n64 a l) = some r ∧ r.ctx = e.x.key.ctx ∧
      r.key = some k ∧ k ≠ e.x.key
    let wide : Bool := Wf.itemWide item
    let item_ (e : Seen) : Option Nat := (e.s.frame r (e.rd .n32 b l) item).bind (fun q => q.frameItem (e.rd .n32 b l) item)
    let given (e : Seen) : Nat := if wide then e.rd .n64 y l else e.rd .n32 y l
    Acts (.tframeNext c d a t) (fun e => here e ∧ next e = none) Seen.s Seen.h
      (fun e _ q => blocked (.tframe d (va e) (e.s.now + 2 ^ t)) q) ∧
    Acts (.tframeNext c d a t) (fun e => here e ∧ next e = some r ∧ e.h.saved = false)
      (fun e => let s := e.s.storeThrough e.x.key.ctx e.h.core pa r.bytes
        { s with records := s.records.map (fun q => if q.id = r.id then { q with claimed := some e.x.key } else q) }) Seen.h
      (fun _ _ q => (q.setP d true).advance) ∧
    Acts (.tframeRd c d a b item) (fun e => (∃ k, named e k) ∧ item_ e ≠ none) Seen.s Seen.h
      (fun e _ q => (if wide then q.setV64 d ((item_ e).getD 0) else q.setV d ((item_ e).getD 0)).advance) ∧
    ∀ s x h k f g, Issues (.tframeWr c a b item y) s x h → let e := seen (.tframeWr c a b item y) s x h
      named e k → s.frame r (e.rd .n32 b l) item = some f → f.setItem (e.rd .n32 b l) item (given e) = some g →
      ∃ u, exec (.tframeWr c a b item y) s = .next u ∧ u = { s with heats := u.heats, iss := none, now := s.now + 1 } ∧
        u.heat? k = some g ∧ ∀ j, j ≠ k → j ≠ x.key → u.heat? j = s.heat? j

/-- R410, R411, R274. TLBINV and SPLINTER stall until the heat's earlier writes and its core's releases are performed; then TLBINV
discards the translations of its range and SPLINTER replaces the leaf by a table of smaller ones, and the heat waits until no agent can
use the old mapping. -/
def Obligations.TranslationWordsDiscardTheirRange : Prop :=
  ∀ (c : Com) (d : Nat) (a n : Src),
    let mark (e : Seen) : Nat := e.h.fence.getD e.s.nid
    let fenced (e : Seen) : Prop := e.act ≠ [] ∧ e.s.fenceDone e.h .rel false .package (mark e) = true
    let waits (s : State) (lo hi : Nat) (h : Heat) : Heat := { h with busy := some (.tlbinv lo hi s.nid) }
    let lo (e : Seen) : Nat := e.rd .n64 a e.low % 2 ^ 57
    let hi (e : Seen) : Nat := min (lo e + e.rd .n64 n e.low) (2 ^ 57)
    let tab (e : Seen) : Nat := e.rd .n64 n e.low
    let shape (f : Leaf) : Nat × Nat × Nat := if f.size = 2 ^ 30 then (512, 2 ^ 21, 4096) else (32, 65536, 256)
    let split (e : Seen) (f : Leaf) : State :=
      let s := e.s.ownWrite (e.h.core / 64) (tab e) (splinterTable f.entry f.pa (shape f).2.1 (shape f).1)
      let s := (upto (8 * (shape f).1 / 256)).foldl (fun s j => s.bankIn e.x.key.ctx e.h.core (tab e + 256 * j)) s
      s.cohPut f.pte 8 (splinterEntry f.entry (tab e))
    let base (e : Seen) (f : Leaf) : Nat := lo e / f.size * f.size
    Acts (.tlbinvRange c a n) (fun e => fenced e ∧ e.rd .n64 n e.low ≠ 0) (fun e => e.s.tlbDrop e.x.key.ctx (lo e) (hi e))
      (fun e => waits e.s (lo e) (hi e) e.h) (fun _ _ y => y.advance) ∧
    ActsOn (.tlbinvRange c a n) (fun e => fenced e ∧ e.rd .n64 n e.low = 0) Seen.s ∧
    Acts (.tlbinvCtx c) fenced (fun e => e.s.tlbDrop e.x.key.ctx 0 (2 ^ 57)) (fun e => waits e.s 0 (2 ^ 57) e.h) (fun _ _ y => y.advance) ∧
    (∀ f, Acts (.splinter c d a n) (fun e => fenced e ∧ e.s.walk e.x.key.ctx (e.h.core / 64) (lo e) = .ok f ∧ f.size = 65536) Seen.s Seen.h
      (fun _ _ y => (y.setP d false).advance)) ∧
    (∀ f, Acts (.splinter c d a n)
      (fun e => fenced e ∧ e.s.walk e.x.key.ctx (e.h.core / 64) (lo e) = .ok f ∧ f.size ≠ 65536 ∧ tab e % (shape f).2.2 = 0 ∧ tab e < 2 ^ 40)
      (fun e => (split e f).tlbDrop e.x.key.ctx (base e f) (base e f + f.size)) (fun e => waits e.s (base e f) (base e f + f.size) e.h)
      (fun _ _ y => (y.setP d true).advance)) ∧
    ∀ i, i = .tlbinvRange c a n ∨ i = .tlbinvCtx c ∨ i = .splinter c d a n → ∀ s x h, Issues i s x h → active i x h ≠ [] →
      s.fenceDone h .rel false .package (mark (seen i s x h)) = false →
      exec i s = .next { s.updHeat x.key (fun q => { q with fence := some (mark (seen i s x h)) }) with iss := none, now := s.now + 1 }

/-- R429, R431, R432, R440 to R442, R454. BRKPT raises BREAK but for a lane that has been resumed from it; BRKPT.wset and BRKPT.wclr
write a watchpoint; HALTALL.stop begins the halt and waits, HALTALL.go ends it and resumes every lane parked on BREAK; UNDO puts the
newest entry of a parked heat back; BIST begins a test of a unit out of service. -/
def Obligations.DebugAndTestWords : Prop :=
  ∀ (c : Com) (n d alg pa : Nat) (kind : WatchKind) (a b : Src),
    let some_ (e : Seen) : Prop := e.act ≠ []
    let addr (e : Seen) : Nat := e.rd .n64 a e.low
    let len (e : Seen) : Nat := e.rd .n64 b e.low
    let sel (e : Seen) : Nat := e.rd .n32 b e.low
    let ok (e : Seen) : Bool := e.s.outOfService (sel e) == some true && !(e.s.bist.any (fun t => t.die == sel e % 4)) && !(e.s.fencedDies.contains 0)
    ActsOn (.brkpt c) (fun e => ∀ l ∈ e.act, (e.h.lane l).noBreak = true) Seen.s ∧
    (∀ s x h, Issues (.brkpt c) s x h → active (.brkpt c) x h ≠ [] → (∀ l ∈ active (.brkpt c) x h, (h.lane l).noBreak = false) →
      h.debug = false → (∀ l ∈ x.lanes, (h.lane l).task = none) →
      ∃ t, exec (.brkpt c) s = .next t ∧ Parked s t x h (active (.brkpt c) x h) (fun _ => { cause := .brk }) 16) ∧
    ActsOn (.brkptWset c n kind a b) (fun e => some_ e ∧ Canonical (addr e) ∧ 1 ≤ len e ∧ len e ≤ 65536)
      (fun e => e.s.updCtx e.x.key.ctx (fun q => { q with watch := Tbl.set q.watch n { addr := addr e, len := len e, kind := kind } })) ∧
    ActsOn (.brkptWclr c n) some_ (fun e => e.s.updCtx e.x.key.ctx (fun q => { q with watch := Tbl.erase q.watch n })) ∧
    Acts (.haltallStop c) some_ (fun e => e.s.beginHalt e.x.key.ctx) (fun e => { e.h with busy := some .halt }) (fun _ _ y => y.advance) ∧
    (∀ s x h, Issues (.haltallGo c) s x h → active (.haltallGo c) x h ≠ [] → s.canRelease h = true →
      (s.heats.map (·.key)).Nodup → ∃ t, exec (.haltallGo c) s = .next t ∧
        (t.ctx x.key.ctx).haltBegun = false ∧ (t.ctx x.key.ctx).halted = false ∧
        ∀ k q, k ≠ x.key → k.ctx = x.key.ctx → s.heat? k = some q → ∃ g, t.heat? k = some g ∧ ∀ l, l < q.lanes.length → g.lane l =
          if (q.lane l).st = .parked ∧ (q.lane l).trap.map (·.cause) = some .brk then
            (q.lane l).resumed false (some (h.core, (Tbl.get 0 (s.ctx x.key.ctx).seqs h.core + 1) % 2 ^ 64)) else q.lane l) ∧
    (∀ s x h l r k q, Issues (.undo c (some d) a) s x h → let e := seen (.undo c (some d) a) s x h
      e.act = [l] → s.byHandle (e.rd .n64 a l) = some r → r.ctx = x.key.ctx → r.key = some k → k ≠ x.key → s.undoHeat r = some q →
      (∀ o ∈ s.ops, o.key = k → o.flag = none) →
      ∃ t g, exec (.undo c (some d) a) s = .next t ∧ t = { s with heats := t.heats, iss := none, now := s.now + 1 } ∧
        t.heat? k = some (match q.undo with | u :: _ => if u.reversible then q.restore u else q | [] => q) ∧ t.heat? x.key = some g ∧
        (d < 12 → (g.lane l).p.getLsbD d = (match q.undo with | u :: _ => u.reversible | [] => false))) ∧
    Acts (.bist c d a b alg)
      (fun e => some_ e ∧ addr e % 64 = 0 ∧ Canonical (addr e) ∧ Mapped e.s e.x.key.ctx e.h.core (addr e) .write pa)
      (fun e => if ok e then { e.s with bist := e.s.bist ++ [{ die := sel e % 4, ctx := e.x.key.ctx, va := addr e, sel := sel e, alg := alg }] } else e.s)
      Seen.h (fun e _ y => (y.setP d (ok e)).advance)

/-- R190, R193, R200, R206, R224, R225. MEMORY_RESPONSE answers a request for a line: a load that misses the L1 fills its sector from
the die's L2 and takes its element from there, a store's lane is done, a copy's bytes land in scratchpad unless a higher lane's stand
there; REMOTE_TIMEOUT ends a remote request that has waited 2^20 clocks. Then the causes that all of an issue's lanes have met are raised. COPY_COMPLETE retires a copy with no lane left; CPYW_PERFORM makes the oldest CPYW's add a
release once no copy before it is under way. Where nothing of the kind stands ready, nothing changes. -/
def Obligations.RequestsAreAnswered : Prop :=
  ∀ (n : Nat) (v : Option Nat) (p : Reply) (r : Req) (a : Acc) (o : Op) (key : HeatKey),
    let asked (s : State) : Prop := s.reqs.find? (fun q => q.id = n) = some r
    let sec : Nat := a.pa / 64
    let bytes (s : State) : List Byte := ((s.dieSector (r.core / 64) sec).drop (a.pa % 64)).take a.op.len
    let here (s : State) : Prop := asked s ∧ r.remote = none ∧ r.accs = [a] ∧ s.readable (r.core / 64) sec = true ∧ s.poison = []
    (∀ sg sz d, a.op = .load sg sz d → Moves (.memoryResponse n v p)
      (fun s => here s ∧ r.copy = false ∧ s.copyOwned sec = false ∧ s.laneRun r.key a.lane = none ∧ (evicted r.core v s).l1? r.core sec = none)
      (fun s => (((((evicted r.core v s).fillL1 r.core sec r.stream).updHeat r.key (fun h =>
        h.updLane a.lane (setElem sg sz d (ofBytes (bytes s))))).opDone a.opId a.lane).freeReq r).flushAll)) ∧
    (∀ b, a.op = .store b → Moves (.memoryResponse n v p) (fun s => here s ∧ r.copy = false)
      (fun s => (((evicted r.core v s).opDone a.opId a.lane).freeReq r).flushAll)) ∧
    (∀ sz off h, a.op = .copyIn sz off → Moves (.memoryResponse n v p)
      (fun s => here s ∧ r.copy = true ∧ s.copyBehind r = false ∧ s.heat? r.key = some h)
      (fun s => ((((evicted r.core v s).copyElem a off (fun t => t.scrWrite h.unit off (bytes s))).opDone a.opId a.lane).freeReq r).flushAll)) ∧
    Waits (.memoryResponse n v p) (fun s => ∀ q ∈ s.reqs, q.id ≠ n) ∧
    Moves (.remoteTimeout n) (fun s => asked s ∧ r.remote.isSome = true ∧ r.born + 2 ^ 20 ≤ s.now) (fun s => ((s.late r.accs .remoteGone).freeReq r).flushAll) ∧
    Waits (.remoteTimeout n) (fun s => asked s ∧ s.now < r.born + 2 ^ 20) ∧
    Moves (.copyComplete n) (fun s => s.ops.find? (fun q => q.id = n) = some o ∧ o.isCopy = true ∧ o.left = [] ∧ o.parked = [])
      (fun s => ({ s with ops := s.ops.filter (fun q => q.id ≠ n) } : State).retryReleases o.key) ∧
    Waits (.copyComplete n) (fun s => s.ops.find? (fun q => q.id = n) = some o ∧ o.left ≠ []) ∧
    (∀ h w rest y sz sc, h.cpyw = w :: rest → w.accs = [a] → a.op = .cpyw y sz sc → 2 ≤ sc.code →
      Moves (.cpywPerform key) (fun s => s.heat? key = some h ∧ ∀ q ∈ s.ops, q.isCopy = true → q.key = key → w.before ≤ q.id)
        (fun s => ((s.updHeat key (fun x => { x with cpyw := rest })).enqueueRel
          { origin := h.core, ctx := h.key.ctx, scope := sc, obj := some a.pa, cpyw := some (h.key, a.opId)
            val := .rmw h.key [{ a with op := .rmw .add .unsigned sz sc .release y 0 none }] }).retryReleases key) ∧
      Waits (.cpywPerform key) (fun s => s.heat? key = some h ∧ ∃ q ∈ s.ops, q.isCopy = true ∧ q.key = key ∧ q.id < w.before))

/-- R227, R232, R233, R274, R306, R335, R343, R347, R348, R410, R429. What a heat waits for: WAITA_POLL lets a lane go on with its
predicate 1, and WAITA_TIMEOUT, once its time is over, with what the word's last reading gives; HAND_OFF gives a ring's slot to its
next stage, and with none ready lets the ring's waiting lanes look again; MWAIT_TIMEOUT makes a sleeper an acquirer; MONITOR_GRANT
gives a lane the colour it claimed; RELEASE_DEPOSIT writes the head release of an origin once its writes are performed and its die
can write the object; TLBINV_COMPLETE and HALT end the waits of their words. -/
def Obligations.WaitsEndWhenTheirEventsCome : Prop :=
  ∀ (key : HeatKey) (l : Nat) (h : Heat) (addr y n dl pa col span depth origin ctx v lo hi mark : Nat) (d : Option Nat) (cmp : WaitCmp)
    (sg w64 note rel phase : Bool) (u : RUnit) (x : HandOff) (f : Waiter) (r : PendRel) (g : Sig),
    let polls (s : State) : Prop := Holds s key l h (.waita true addr cmp sg w64 y d dl none)
    let word (s : State) : Nat := ofBytes (s.scrRead h.unit addr (if w64 then 8 else 4))
    let holds (s : State) : Prop := waitHolds cmp sg w64 (word s) y = true
    let head (s : State) : Prop := s.rels.find? (fun q => q.ctx = ctx ∧ q.origin = origin) = some r ∧ r.cap = some (g, mark)
    Moves (.waitaPoll key l) (fun s => polls s ∧ s.scrOwned h.unit (addr / 64) = false ∧ holds s) (released key l d true) ∧
    Waits (.waitaPoll key l) (fun s => polls s ∧ ¬ holds s) ∧
    Moves (.waitaTimeout key l) (fun s => polls s ∧ dl ≤ s.now ∧ s.scrOwned h.unit (addr / 64) = false ∧ holds s) (released key l d true) ∧
    Moves (.waitaTimeout key l) (fun s => polls s ∧ dl ≤ s.now ∧ s.scrOwned h.unit (addr / 64) = false ∧ ¬ holds s) (released key l d false) ∧
    Waits (.waitaTimeout key l) (fun s => polls s ∧ s.now < dl) ∧
    Moves (.handOff u.key n)
      (fun s => s.unitOf u.key = some u ∧ u.saved = false ∧ u.handoffs.find? (fun q => q.ring == n && s.handOffReady u q) = some x ∧
        x = { x with ring := n, stage := .fill, phase := phase, killed := false } ∧ ringStages (s.scrRead u.id n 64) = 3 ∧
        bit (ringState (s.scrRead u.id n 64) x.slot) 3 = false)
      (fun s =>
        let t := (s.scrWrite u.id (n + 24 + x.slot) (toBytes 1 (1 + 4 * b2n phase))).updUnit u.id
          (fun q => { q with handoffs := removeFirst (fun z => z = x) q.handoffs })
        (t.updHid u.id n x.slot (fun _ => stampStage .fill u.core (s.clock u.core).toNat (Tbl.get {} u.hid (hidKey n x.slot)))).wakeRing u.id n) ∧
    Moves (.handOff u.key n)
      (fun s => s.unitOf u.key = some u ∧ u.saved = false ∧ ∀ q ∈ u.handoffs, q.ring = n → s.handOffReady u q = false) (fun s => s.wakeRing u.id n) ∧
    Moves (.mwaitTimeout key l)
      (fun s => Holds s key l h (.mwait col depth d dl span true note rel) ∧ dl < s.now ∧
        (s.monQ key.ctx col).find? (fun q => q.key = key ∧ q.lane = l) = some f)
      (fun s => s.wakeSleeper key.ctx col f false) ∧
    Waits (.mwaitTimeout key l) (fun s => Holds s key l h (.mwait col depth d dl span true note rel) ∧ s.now ≤ dl) ∧
    Moves (.monitorGrant key.ctx col)
      (fun s => Holds s key l h (.claim [col]) ∧ h.key = key ∧ s.grantee key.ctx col = some (key, l, pa) ∧ (s.acquireObj key.ctx h.core pa).abandoned pa = false)
      (fun s => released key l none true ((s.acquireObj key.ctx h.core pa).updLane key l
        (fun z => { z with held := addHeld z.held { colour := col, depth := (h.lane l).depth } }))) ∧
    Waits (.monitorGrant ctx col) (fun s => s.grantee ctx col = none) ∧
    Moves (.releaseDeposit origin ctx)
      (fun s => head s ∧ r.obj = some pa ∧ r.val = .set v ∧ r.colour = none ∧ s.performed origin mark r.scope = true ∧
        s.objectFree (originDie origin) pa = true)
      (fun s => (({ s.deposit r.ctx r.origin r.scope g (some (pa, v)) r.flags with rels := removeFirst (fun q => q = r) s.rels } : State).capture ctx
        origin).flushAll) ∧
    Waits (.releaseDeposit origin ctx) (fun s => head s ∧ s.performed origin mark r.scope = false) ∧
    Moves (.tlbinvComplete key) (fun s => s.heat? key = some h ∧ h.busy = some (.tlbinv lo hi mark) ∧ s.oldUse key.ctx lo hi mark = false)
      (fun s => (s.updHeat key (fun z => { z with busy := none })).settleMaps) ∧
    Waits (.tlbinvComplete key)
      (fun s => s.heat? key = some h ∧ h.busy = some (.tlbinv lo hi mark) ∧ s.oldUse key.ctx lo hi mark = true ∧ s.maps = []) ∧
    Moves (.halt ctx) (fun s => (s.ctx ctx).haltBegun = true) (fun s => s.updCtx ctx (fun c => { c with halted := true })) ∧
    Waits (.halt ctx) (fun s => (s.ctx ctx).haltBegun = false)

/-- R67, R68, R69, R80, R83 to R85, R87, R115, R127. A LAUNCH whose record keeps the rules enters its queue with the next free serial and
is acknowledged; one on a context that is not open, whose record cannot be read, or whose queue holds 32, is rejected. LAUNCH_START
starts the head of the highest class that has room, suspends units for one that has none, or ends with status 4 one that no core can
hold; RELAY_START makes a relay's heats eligible; PACED_ISSUE lets a starved heat's next issue take the group that issued least lately;
PROMOTE moves the heats that have to wait out of their partition's active set, and the ready heat of the highest class, ready longest,
into a free place of it; HEAT_RETIRE retires a heat whose lanes have exited; COMPLETION_RELEASE ends a kernel that is idle with its
writes performed, after those of its context that retired before it, and one that is killed with status 1, or 2 by a reset. Each of these
seven steps completes, with a next state, wherever its conditions hold. -/
def Obligations.KernelsRunFromLaunchToCompletion : Prop :=
  ∀ (m : Sys2Proof.Msg) (die n pa off serial ctx : Nat) (b w : List Byte) (k : Kernel) (u : RUnit) (key : HeatKey) (h : Heat),
    let c : Nat := m.endpoint - 1
    let home (s : State) : Nat := s.queueDie c m.queue
    let arrives (s : State) : Prop := Arrives 0x01 m s ∧ Open m s
    let read (s : State) : Prop := arrives s ∧ s.readRecord c (home s) (Msg.fld m 0 8) 256 = (.ok b, s) ∧ lr b 0 8 % 8 = 0 ∧ lr b 16 8 = 0 ∧
      s.readRecord c (home s) (lr b 0 8) 8 = (.ok w, s) ∧ badLaunch b false (some (ofBytes w)) = [] ∧
      s.agentAt c (home s) (parseLaunch b).completion .write = (.ok pa, s) ∧ (parseLaunch b).geometry = true ∧
      (Occ.empty.fit (parseLaunch b).need).isSome = true
    let fresh (s : State) : Kernel := let r := parseLaunch b
      { ctx := c, serial := n, queue := m.queue, lrec := r, cls := if r.qclass then (Tbl.get {} (s.ctx c).queues m.queue).cls else r.cls
        port := m.port, half := m.half, endpoint := m.endpoint, sender := m.sender, tag := m.tag, travel := m.travel, recDie := m.port / 3 }
    let runs (s : State) : Prop := s.kernel? ctx serial = some k ∧ k.st = .running
    let settled (s : State) : State := s.settleSets h.core h.part
    let places (s : State) : Nat := ((settled s).heats.filter (fun x => x.active && x.on h.core h.part)).length
    let chosen (s : State) : Option HeatKey := ((settled s).nextPending h.core h.part).map (·.key)
    Leads (.launch m)
      (fun s => read s ∧ s.queueLen c m.queue < 32 ∧ s.findSerial c 65536 (s.ctx c).nextSerial = some n)
      (fun s t => t = { s with kernels := t.kernels, units := t.units, ctxs := t.ctxs, out := s.out ++ [replied m m.endpoint 0x02 (toBytes 2 n)] } ∧
        t.kernel? c n = some (fresh s) ∧ (t.ctx c).nextSerial = (n + 1) % 2 ^ 16) ∧
    Moves (.launch m) (fun s => Arrives 0x01 m s ∧ (s.ctx c).opened = false) (rejects m 3 0) ∧
    Moves (.launch m) (fun s => arrives s ∧ s.readRecord c (home s) (Msg.fld m 0 8) 256 = (.error off, s)) (rejects m 7 off) ∧
    Moves (.launch m) (fun s => read s ∧ 32 ≤ s.queueLen c m.queue) (rejects m 2 0) ∧
    Moves (.launchStart die)
      (fun s => s.headOrder die = [k] ∧ (∀ q ∈ s.kernels, q.st ≠ .running) ∧ s.placeable k = true ∧ (s.spot [] k 0).isSome = true)
      (fun s => s.startKernel die k) ∧
    Moves (.launchStart die)
      (fun s => s.headOrder die = [k] ∧ (∀ q ∈ s.kernels, q.st ≠ .running) ∧ s.placeable k = true ∧ s.spot [] k 0 = none)
      (fun s => s.pushAside k) ∧
    Moves (.launchStart die) (fun s => s.headOrder die = [k] ∧ (∀ q ∈ s.kernels, q.st ≠ .running) ∧ s.placeable k = false)
      (fun s => (s.updQueue k.ctx k.queue (fun q => { q with last := some k.serial })).endKernel k.ctx k.serial 4) ∧
    Waits (.launchStart die) (fun s => s.headOrder die = [] ∧ ∀ q ∈ s.kernels, q.st ≠ .running) ∧
    Moves (.relayStart u.key)
      (fun s => s.unitOf u.key = some u ∧ u.started = false ∧ u.retired = false ∧ u.isTask = false ∧
        (s.kernel? u.key.ctx u.key.serial).map (·.prev) = some .none ∧ ∀ q ∈ s.heats, q.unit = u.id → q.role ≠ 1)
      (fun s => { s.updUnit u.id (fun q => { q with started := true, placed := s.now }) with
        heats := s.heats.map (fun q => if q.unit = u.id then { q with since := s.now } else q) }) ∧
    Waits (.relayStart u.key) (fun s => s.unitOf u.key = some u ∧ u.started = true) ∧
    Moves (.pacedIssue key) (fun _ => True) (fun s => s.updHeat key (fun q => if 1024 ≤ q.starved then { q with paced := true } else q)) ∧
    Moves (.promote key) (fun s => s.heat? key = some h ∧ places s < 8 ∧ chosen s = some key)
      (fun s => (settled s).updHeat key (fun q => { q with active := true, lastIssue := none, readyAt := none })) ∧
    Moves (.promote key) (fun s => s.heat? key = some h ∧ (8 ≤ places s ∨ chosen s ≠ some key)) settled ∧
    (∀ (s : State) (x y : Heat), s.nextPending h.core h.part = some x → y ∈ s.heats → y.on h.core h.part = true → s.readyPending y = true →
      (∀ z ∈ s.heats, z.readyAt.getD s.now < 2 ^ 80 ∧ z.since < 2 ^ 80) →
      x.cls < y.cls ∨ (x.cls = y.cls ∧ x.readyAt.getD s.now ≤ y.readyAt.getD s.now)) ∧
    Waits (.promote key) (fun s => s.heat? key = none) ∧
    Moves (.heatRetire key)
      (fun s => s.heat? key = some h ∧ h.saved = false ∧ h.allExited = true ∧ h.fcnt = [] ∧ h.retired = false ∧
        ∃ q, s.unit? h.unit = some q ∧ ∀ t, q.team? key.team = some t → t.partials = [])
      (fun s => (((s.updHeat key (fun q => { q with retired := true, active := false, undo := [] })).updKernel key.ctx key.serial
        (fun q => { q with nflags := q.nflags ||| h.nflags })).sweep).retireUnit h.unit) ∧
    Waits (.heatRetire key) (fun s => s.heat? key = some h ∧ h.allExited = false) ∧
    Moves (.completionRelease ctx serial)
      (fun s => runs s ∧ k.killed = false ∧ s.kernelIdle k = true ∧ s.kernelWritten k = true ∧ s.completesFirst k = false ∧
        s.peek ctx s.agentDie k.lrec.completion .write = .ok pa ∧ s.poisoned pa 64 = false)
      (fun s => (s.deposit ctx (arbOrigin (homeOf pa)) .system (s.fullSig pa) (some (pa, (s.cohNat pa 8 + 1) % 2 ^ 64)) k.nflags).endKernel ctx serial 0) ∧
    Moves (.completionRelease ctx serial)
      (fun s => runs s ∧ k.killed = true ∧ s.kernelIdle k = true ∧ s.kernelWritten k = true ∧ s.completesFirst k = false)
      (fun s => s.endKernel ctx serial (if k.reset then 2 else 1)) ∧
    Waits (.completionRelease ctx serial) (fun s => runs s ∧ (s.kernelIdle k = false ∨ s.kernelWritten k = false ∨ s.completesFirst k = true))

/-- R415 to R421. A unit that rests within its window is saved, with the time, the core's bank and its heats out of the active set; one
whose save area cannot be written resets its context. After 2^14 clocks the window becomes a drain, and after 2^17 the context is
reset. UNIT_RESTORE puts the die's next saved unit on a core that has room. UNIT_SAVE, SUSPEND_WINDOW_EXPIRY, SUSPEND_DEADLINE and
UNIT_RESTORE each complete, with a next state, wherever these conditions hold. -/
def Obligations.UnitsAreSavedAndRestored : Prop :=
  ∀ (u : RUnit) (t die core pa : Nat) (c : Cause) (ps : List Nat),
    let alone (s : State) : Prop := s.unitOf u.key = some u ∧ u.quad = none ∧ s.units.filter (fun v => v.id = u.id) = [u]
    let windowed (s : State) : Prop := alone s ∧ u.saved = false ∧ u.retired = false ∧ u.susp = .window t
    let area (s : State) : Except Cause Nat := s.peek u.key.ctx (u.core / 64) (((s.ctx u.key.ctx).trail + 204800) % 2 ^ 64) .write
    let rests (s : State) : Prop := windowed s ∧ s.now < t + 2 ^ 14 ∧ s.unitRests u = true
    Leads (.unitSave u.key) (fun s => rests s ∧ area s = .ok pa ∧ (s.heats.map (·.key)).Nodup)
      (fun s x => x = { s with heats := x.heats, units := x.units } ∧
        (∃ v, x.unit? u.id = some v ∧ v = { u with saved := true, susp := .no, evicted := false, savedAt := s.now, savedArr := v.savedArr
                                                   savedSig := Tbl.get {} (s.ctx u.key.ctx).banks u.core }) ∧
        ∀ k h, s.heat? k = some h → ∃ g, x.heat? k = some g ∧ (h.unit ≠ u.id → g = h) ∧
          (h.unit = u.id → g = { h with saved := true, active := false, fence := none, lanes := g.lanes })) ∧
    Moves (.unitSave u.key) (fun s => rests s ∧ area s = .error c) (fun s => s.forceReset u.key.ctx) ∧
    Waits (.unitSave u.key) (fun s => windowed s ∧ (t + 2 ^ 14 ≤ s.now ∨ s.unitRests u = false)) ∧
    Moves (.suspendWindowExpiry u.key) (fun s => windowed s ∧ t + 2 ^ 14 ≤ s.now)
      (fun s => { s with units := s.units.map (fun v => if v.id = u.id then { v with susp := .drain t } else v) }) ∧
    Waits (.suspendWindowExpiry u.key) (fun s => windowed s ∧ s.now < t + 2 ^ 14) ∧
    Moves (.suspendDeadline u.key)
      (fun s => s.unitOf u.key = some u ∧ (u.susp = .window t ∨ u.susp = .drain t) ∧ u.saved = false ∧ u.retired = false ∧ t + 2 ^ 17 ≤ s.now)
      (fun s => s.forceReset u.key.ctx) ∧
    Waits (.suspendDeadline u.key) (fun s => s.unitOf u.key = some u ∧ u.susp = .drain t ∧ s.now < t + 2 ^ 17) ∧
    Moves (.unitRestore die)
      (fun s => alone s ∧ u.saved = true ∧ s.nextSaved die = some u ∧ s.bestCore [] u.cls die (s.unitNeed u) = some (core, ps))
      (fun s => s.restoreUnit u.id core ps) ∧
    Waits (.unitRestore die) (fun s => s.nextSaved die = none)

/-- R61 to R64, R66, R68, R399, R400, R408. What the host's messages do, and what tells the host: QCTL sets, pauses, unpauses or flushes
its queue; CTX_OPEN makes a context resident with empty buffers, CTX_CLOSE stops it and CTX_CLOSE_DONE frees it; SA_SET installs or
removes an association; PAGE_DONE drops its range's translations and releases, once no agent can reach the old mapping; a kind that
no host may send there is rejected with reason 4. FAULT_POST puts a posting into the die's buffer where it has room; one that waits is
tried again after 256 clocks, and none is posted before one that waits. Each of these events (QCTL_SET, _PAUSE, _UNPAUSE and _FLUSH,
CTX_OPEN, CTX_CLOSE, CTX_CLOSE_DONE, SA_INSTALL, SA_REMOVE, PAGE_DONE, KIND_NOT_ALLOWED, FAULT_POST, FAULT_POST_RETRY and TFRAME_TIMEOUT)
completes, with a next state, wherever its conditions hold. -/
def Obligations.HostMessagesAreAnswered : Prop :=
  ∀ (m : Sys2Proof.Msg) (kind die ctx va dl l d : Nat) (r : FRec) (key : HeatKey) (h : Heat),
    let c : Nat := m.endpoint - 1
    let f (off n : Nat) : Nat := Msg.fld m off n
    let ack (x status : Nat) (s : State) : State := replies m 0 0x0D (toBytes 1 x ++ toBytes 1 status) s
    let qctl (op : Nat) (s : State) : Prop := Arrives 0x09 m s ∧ Open m s ∧ f 0 1 = op
    let closed (x : Nat) (s : State) : Prop := (s.ctx x).opened = true ∧ (s.ctx x).closing = true ∧ (∀ u ∈ s.units, u.key.ctx = x → u.retired = true) ∧
      ∀ k ∈ s.kernels, k.ctx = x → k.st ≠ .queued ∧ k.st ≠ .running
    let saOk (x : Nat) (s : State) : Prop := (s.ctx x).opened = true ∧ 1 ≤ f 2 2 ∧ f 2 2 ≤ 1023 ∧ 16 ≤ f 96 1 ∧ f 96 1 ≤ 64
    let dropped (s : State) : State := if f 8 8 = 0 then s else s.tlbDrop c (f 0 8 % 2 ^ 57) (rangeEnd (f 0 8) (f 8 8))
    let inUse (s : State) : Prop := f 8 8 ≠ 0 ∧ (dropped s).oldUse c (f 0 8 % 2 ^ 57) (rangeEnd (f 0 8) (f 8 8)) s.nid = true
    Moves (.kindNotAllowed kind m)
      (fun s => s.carries m.port m.half = true ∧ m.magic = 0x5458 ∧ m.version = 1 ∧ m.length ≤ 224 ∧ m.length ≤ m.body.length ∧ s.secured m = true ∧
        kindAllowed kind m.endpoint = false) (rejects m 4 0) ∧
    Moves (.qctlSet m) (qctl 0) (fun s => s.updQueue c m.queue (fun q => { q with cls := f 1 1, concurrent := f 2 1 == 1 })) ∧
    Moves (.qctlPause m) (qctl 1) (fun s => s.updQueue c m.queue (fun q => { q with paused := true })) ∧
    Moves (.qctlUnpause m) (qctl 2) (fun s => s.updQueue c m.queue (fun q => { q with paused := false })) ∧
    Moves (.qctlFlush m) (qctl 3) (fun s => (s.kernels.filter (fun k => k.ctx == c && k.st == .queued && k.queue == m.queue)).foldl
      (fun s k => s.endKernel c k.serial 1) s) ∧
    Moves (.qctlSet m) (fun s => Arrives 0x09 m s ∧ f 0 1 = 0 ∧ (s.ctx c).opened = false) (rejects m 3 0) ∧
    Moves (.ctxOpen m) (fun s => Arrives 0x0B m s ∧ (s.ctx (f 0 1)).opened = false)
      (fun s => ack (f 0 1) 0 { s with
        ctxs := Tbl.set s.ctxs (f 0 1) { opened := true, root := f 8 8, trail := f 16 8, fwd := f 24 4, hostPaging := bit (f 28 1) 0
                                         secure := bit (f 28 1) 1, opener := m.sender, openTag := m.tag }
        l1 := [], l1Stream := [], tlb := s.tlb.filter (fun e => e.ctx ≠ f 0 1) }) ∧
    Moves (.ctxOpen m) (fun s => Arrives 0x0B m s ∧ (s.ctx (f 0 1)).opened = true) (ack (f 0 1) 1) ∧
    Moves (.ctxClose m)
      (fun s => Arrives 0x0C m s ∧ (s.ctx (f 0 1)).opened = true ∧ (s.ctx (f 0 1)).closing = false ∧
        ∀ k ∈ s.kernels, k.ctx = f 0 1 → k.st ≠ .queued ∧ k.st ≠ .running)
      (fun s => s.updCtx (f 0 1) (fun x => { x with closing := true, closer := m.sender, closeTag := m.tag, closePort := m.port, closeHalf := m.half })) ∧
    Moves (.ctxClose m) (fun s => Arrives 0x0C m s ∧ (s.ctx (f 0 1)).opened = false) (ack (f 0 1) 1) ∧
    Leads (.ctxCloseDone ctx) (fun s => closed ctx s ∧ s.carries (s.ctx ctx).closePort (s.ctx ctx).closeHalf = true)
      (fun s t => t.ctx ctx = {} ∧ (∀ k ∈ t.kernels, k.ctx ≠ ctx) ∧ (∀ x ∈ t.records, x.ctx ≠ ctx) ∧ (∀ e ∈ t.tlb, e.ctx ≠ ctx) ∧
        t.out = s.out ++ [{ port := (s.ctx ctx).closePort, half := (s.ctx ctx).closeHalf, peer := (s.ctx ctx).closer, endpoint := 0, kind := 0x0D
                            tag := (s.ctx ctx).closeTag, body := toBytes 1 ctx ++ toBytes 1 0 }]) ∧
    Waits (.ctxCloseDone ctx) (fun s => ∃ u ∈ s.units, u.key.ctx = ctx ∧ u.retired = false) ∧
    Moves (.saInstall m) (fun s => Arrives 0x0E m s ∧ saOk (f 0 1) s ∧ f 1 1 = 0)
      (fun s =>
        let a := assocOf (m.body.take m.length)
        if Config.sublayerTakes a.peer a.spi a.key then
          ack (f 0 1) 0 (s.updCtx (f 0 1) (fun x => { x with assocs := Tbl.set x.assocs (f 2 2) a }))
        else ack (f 0 1) 1 s) ∧
    Moves (.saRemove m) (fun s => Arrives 0x0E m s ∧ saOk (f 0 1) s ∧ f 1 1 = 1)
      (fun s => ack (f 0 1) 0 (s.updCtx (f 0 1) (fun x => { x with assocs := Tbl.erase x.assocs (f 2 2) }))) ∧
    (∀ i, i = .saInstall m ∧ f 1 1 = 0 ∨ i = .saRemove m ∧ f 1 1 = 1 →
      Moves i (fun s => Arrives 0x0E m s ∧ ¬ saOk (f 0 1) s) (ack (f 0 1) 1)) ∧
    Moves (.pageDone m)
      (fun s => Arrives 0x08 m s ∧ (s.ctx c).opened = true ∧ f 16 1 = 0 ∧ ¬ inUse s ∧
        ∀ x ∈ s.records, ¬ (x.ctx = c ∧ x.causeByte % 32 = 12 ∧ f 0 8 ≤ x.addr ∧ x.addr < f 0 8 + f 8 8))
      (fun s => (dropped s).portRelease c m.port .package none 0) ∧
    Moves (.pageDone m) (fun s => Arrives 0x08 m s ∧ (s.ctx c).opened = true ∧ f 16 1 = 0 ∧ inUse s)
      (fun s => { dropped s with maps := s.maps ++ [{ ctx := c, port := m.port, va := f 0 8, len := f 8 8, mark := s.nid }] }) ∧
    Waits (.pageDone m) (fun s => Arrives 0x08 m s ∧ (s.ctx c).opened = true ∧ f 16 1 = 1) ∧
    (∀ s, s.postings.find? (fun p => p.die = die ∧ p.retry = false) = some r →
      ((s.records.filter (fun x => x.die = die)).length < 4096 → (∀ p ∈ s.postings, p.die = die → p.retry = false) →
        exec (.faultPost die) s = .next (s.postRec r)) ∧
      ((s.records.filter (fun x => x.die = die)).length < 4096 → (∃ p ∈ s.postings, p.die = die ∧ p.retry = true) →
        exec (.faultPost die) s = .next s) ∧
      (4096 ≤ (s.records.filter (fun x => x.die = die)).length → exec (.faultPost die) s = .next (s.overflow r))) ∧
    Waits (.faultPost die) (fun s => ∀ p ∈ s.postings, p.die = die → p.retry = true) ∧
    (∀ s, s.postings.filter (fun p => p.die = die ∧ p.retry) = [r] → r.born + 256 ≤ s.now →
      ((s.records.filter (fun x => x.die = die)).length < 4096 → exec (.faultPostRetry die) s = .next (s.postRec { r with flags := r.flags ||| 32 })) ∧
      (4096 ≤ (s.records.filter (fun x => x.die = die)).length → exec (.faultPostRetry die) s = .next
        { s with postings := s.postings.map (fun p => if p.id = r.id then { p with born := s.now } else p) })) ∧
    Waits (.faultPostRetry die) (fun s => s.now < r.born + 256 ∧ ∃ rs, s.postings.filter (fun p => p.die = die ∧ p.retry) = r :: rs) ∧
    Waits (.faultPostRetry die) (fun s => ∀ p ∈ s.postings, p.die = die → p.retry = false) ∧
    Moves (.tframeTimeout key l) (fun s => Holds s key l h (.tframe d va dl) ∧ dl ≤ s.now) (released key l (some d) false) ∧
    Waits (.tframeTimeout key l) (fun s => Holds s key l h (.tframe d va dl) ∧ s.now < dl)

/-- R59, R64, R65, R279, R315 to R317. Accesses of a peer to a remote window on a port that carries traffic: one that the port agent
admits in one page writes its bytes, returns those read, or releases its value with the port agent's sequence, and is acknowledged; any
other is refused and counted. A UUD packet is counted. -/
def Obligations.PeersReachTheRemoteWindow : Prop :=
  ∀ (u : Uet) (data : List Byte) (n pa p : Nat) (v : W64),
    let ctx : Nat := fld u.header 0 4
    let taken (s : State) : Prop := s.carries u.port u.half = true ∧ ((s.ctx ctx).secure = false ∨ ∃ i, u.travel = .association i)
    let plain (s : State) : Prop := taken s ∧ fld u.header 4 60 = 0
    let answers (ok : Bool) (bs : List Byte) (s : State) : State := { s with uet := s.uet ++ [{ port := u.port, half := u.half, peer := u.sender, ok := ok, data := bs }] }
    let refuses (s : State) : State := answers false [] (s.countError u.port)
    let pages (s : State) (use : Use) (k : Nat) : Prop := (s.ctx ctx).opened = true ∧ s.admits u = true ∧
      State.uetPages ctx (u.port / 3) use (cutPages u.va k) s = (some [(pa, k)], s)
    Moves (.uetWrite u data) (fun s => plain s ∧ pages s .write data.length) (fun s => answers true [] (s.portWrite ctx u.port pa data)) ∧
    Moves (.uetRead u n) (fun s => plain s ∧ pages s .read n) (fun s => answers true (s.viewRead (u.port / 3) pa n) s) ∧
    Moves (.uetReleaseWrite u v)
      (fun s => taken s ∧ fld u.header 4 2 = 1 ∧ fld u.header 22 3 = 4 ∧ fld u.header 25 39 = 0 ∧ u.va % 64 = 0 ∧ pages s .write 8)
      (fun s => answers true [] (s.portRelease ctx u.port .system (some (pa, v.toNat)) (fld u.header 6 16))) ∧
    (∀ i, i = .uetWrite u data ∨ i = .uetRead u n ∨ i = .uetReleaseWrite u v →
      Moves i (fun s => taken s ∧ ((s.ctx ctx).opened = false ∨ s.admits u = false)) refuses ∧
      Moves i (fun s => s.carries u.port u.half = true ∧ (s.ctx ctx).opened = true ∧ (s.ctx ctx).secure = true ∧ ∀ i, u.travel ≠ .association i)
        (fun s => s.countError u.port) ∧
      Waits i (fun s => s.carries u.port u.half = false)) ∧
    Moves (.uetWrite u data) (fun s => taken s ∧ (State.uetPages ctx (u.port / 3) .write (cutPages u.va data.length) s).1 = none) refuses ∧
    Moves (.uetRead u n) (fun s => taken s ∧ (State.uetPages ctx (u.port / 3) .read (cutPages u.va n) s).1 = none) refuses ∧
    Moves (.uudPacket p) (fun s => s.portUp p = true) (fun s => s.countError p) ∧
    Waits (.uudPacket p) (fun s => s.portUp p = false)

/-- R300 to R309. A message at the head of its channel. A request that finds its sector idle at the home is granted where no die stands
in the way (E to the first holder, M without data by an Upgrade), and otherwise makes the home snoop the holders; one that finds the
sector busy waits. A snooped die sends the data to the requester and acknowledges; the last acknowledgement closes the transaction. The
answer installs the sector, dirty bytes that come home are written to memory, and a dirty sector that has rested 4,096 clocks is cleaned. -/
def Obligations.CoherenceMessagesMoveTheirSectors : Prop :=
  ∀ (m : CMsg) (x : L2Line) (x1 : Txn) (d d2 sec : Nat) (v : DirSt) (b : List Byte),
    let first (s : State) (k : MsgKind) : Prop := m.kind = k ∧
      s.msgs.find? (fun q => q.src = m.src ∧ q.dst = m.dst ∧ q.kind.channel = m.kind.channel) = some m
    let home : Nat := homeOf (64 * m.sector)
    let here (s : State) : Option L2Line := s.l2? m.dst m.sector
    let idle (s : State) : Prop := s.inTxn m.sector = false ∧ (∀ q ∈ s.backInv, q.line ≠ m.sector / 4) ∧ (∀ q ∈ s.queued, q.sector ≠ m.sector) ∧
      (∀ e ∈ s.msgs, e.kind.isEvict = true → e.src = m.requester → e.sector ≠ m.sector) ∧ s.wayFree (m.sector / 4) = true
    let asks (s : State) (k : MsgKind) : Prop := first s k ∧ m.dst = home ∧ m.src = m.requester ∧ m.requester ≠ home ∧ idle s
    let taken (s : State) : State := s.takeMsg m
    let answer (s : State) (src dst : Nat) (dirty : Bool) (g : L2St) (data : Option (List Byte)) : State :=
      s.post { kind := if dirty then .dataDirty else .dataClean, src := src, dst := dst, sector := m.sector, requester := m.requester, grant := some g, data := data }
    let acks (s : State) (sent : Bool) (keep : Option L2St) (dirty : Bool) : State :=
      s.post { kind := .invalAck, src := m.dst, dst := m.src, sector := m.sector, requester := m.requester, grant := keep, dirty := dirty, retain := sent }
    let snoops (s : State) (k : MsgKind) : State := s.post { kind := k, src := home, dst := d, sector := m.sector, requester := m.requester }
    let begins (s : State) (k : MsgKind) : State := { s with txns := s.txns ++ [{ sector := m.sector, kind := k, requester := m.requester, acks := 1, sent := s.now }] }
    let soiled : Bool := x.st = .m ∨ x.st = .o
    Moves (.readShared m.src m.dst) (fun s => asks s .readShared ∧ s.holders m.sector = [] ∧ here s = none)
      (fun s => answer ((taken s).putHolders m.sector [(m.requester, .e)]) home m.requester false .e (some (s.memSector m.sector))) ∧
    Moves (.readShared m.src m.dst)
      (fun s => first s .readShared ∧ m.dst = home ∧ m.requester = home ∧ idle s ∧ s.holders m.sector = [] ∧ here s = none)
      (fun s => answer (taken s) home home false .s (some (s.memSector m.sector))) ∧
    Moves (.readShared m.src m.dst) (fun s => asks s .readShared ∧ s.holders m.sector = [(d, v)] ∧ v ≠ .s)
      (fun s => begins (snoops (taken s) .fwdShared) .readShared) ∧
    Moves (.readOwn m.src m.dst) (fun s => asks s .readOwn ∧ s.holders m.sector = [] ∧ here s = some x ∧ x.st = .dirty)
      (fun s => answer (((taken s).dropL2 home m.sector).putHolders m.sector [(m.requester, .m)]) home m.requester true .m (some x.data)) ∧
    Moves (.readOwn m.src m.dst) (fun s => asks s .readOwn ∧ s.holders m.sector = [(d, v)] ∧ v ≠ .s ∧ d ≠ m.requester)
      (fun s => begins (snoops ((taken s).dropL2 home m.sector) .fwdOwn) .readOwn) ∧
    Moves (.upgrade m.src m.dst) (fun s => asks s .upgrade ∧ s.holders m.sector = [(m.requester, .s)])
      (fun s => answer (((taken s).dropL2 home m.sector).putHolders m.sector [(m.requester, .m)]) home m.requester false .m none) ∧
    (∀ i k, (i = .readShared m.src m.dst ∧ k = .readShared) ∨ (i = .readOwn m.src m.dst ∧ k = .readOwn) ∨ (i = .upgrade m.src m.dst ∧ k = .upgrade) →
      Moves i (fun s => first s k ∧ ∃ q ∈ s.txns, q.sector = m.sector) (fun s => { taken s with queued := s.queued ++ [m] })) ∧
    Moves (.fwdShared m.src m.dst) (fun s => first s .fwdShared ∧ here s = some x)
      (fun s => let keep : L2St := if soiled then .o else .s
        acks (answer ((taken s).setL2 m.dst m.sector { x with st := keep }) m.dst m.requester soiled .s (some x.data)) true (some keep) soiled) ∧
    Moves (.fwdOwn m.src m.dst) (fun s => first s .fwdOwn ∧ here s = some x)
      (fun s => acks (answer ((taken s).dropL2 m.dst m.sector) m.dst m.requester soiled (if soiled then .m else .e) (some x.data)) true none soiled) ∧
    Moves (.inval m.src m.dst) (fun s => first s .inval) (fun s => acks ((taken s).dropL2 m.dst m.sector) false none false) ∧
    Moves (.backInval m.src m.dst)
      (fun s => first s .backInval ∧ here s = some x ∧ x.st = .m ∧ ∀ j, 1 ≤ j → j < 4 → s.l2? m.dst (m.sector + j) = none)
      (fun s => ((upto 4).foldl (fun q j => q.dropL2 m.dst (m.sector + j)) (taken s)).post
        { kind := .backInvalAck, src := m.dst, dst := m.src, sector := m.sector, dirty := true, parts := [(0, x.data)] }) ∧
    Leads (.invalAck m.src m.dst)
      (fun s => first s .invalAck ∧ s.txns.find? (fun q => q.sector = m.sector) = some x1 ∧ x1.acks = 1 ∧ x1.kind = .readOwn ∧ m.grant = none ∧
        m.retain = true ∧ x1.requester ≠ home ∧ s.queued = [] ∧ ∀ e ∈ s.rwq, ¬ (e.die = x1.requester ∧ e.pa / 64 = m.sector))
      (fun s t => t = { s with msgs := t.msgs, txns := s.txns.filter (fun q => q.sector ≠ m.sector), dir := t.dir, dirOrder := t.dirOrder } ∧
        t.msgs = (taken s).msgs ∧ t.holders m.sector = [(x1.requester, if x1.dirty || m.dirty then .m else .e)]) ∧
    (∀ i k, (i = .dataClean m.src m.dst none ∧ k = .dataClean) ∨ (i = .dataDirty m.src m.dst none ∧ k = .dataDirty) → ∀ g,
      Moves i (fun s => first s k ∧ m.dst ≠ home ∧ m.grant = some g ∧ m.data = some b ∧ (∀ e ∈ s.rwq, ¬ (e.die = m.dst ∧ e.pa / 64 = m.sector)) ∧ s.queued = [])
        (fun s => ((taken s).answered m.dst m.sector).fillL2 m.dst m.sector { st := g, data := b, wrote := s.now })) ∧
    Moves (.writeBack m.src m.dst) (fun s => first s .writeBack ∧ m.dst = home ∧ m.retain = false ∧ m.data = some b ∧ here s = none ∧ s.queued = [])
      (fun s => ({ taken s with mem := writeBytes s.mem (64 * m.sector) b } : State).dropHolder m.sector m.src) ∧
    Moves (.cleanEvict m.src m.dst) (fun s => first s .cleanEvict ∧ s.queued = []) (fun s => (taken s).dropHolder m.sector m.src) ∧
    Moves (.backInvalAck m.src m.dst)
      (fun s => first s .backInvalAck ∧ m.parts = [] ∧ (∃ q, s.backInv = [q] ∧ q.line = m.sector / 4 ∧ q.left = [m.src]) ∧ s.queued = [])
      (fun s => { (upto 4).foldl (fun q j => q.dropHolder (m.sector + j) m.src) (taken s) with backInv := [] }) ∧
    Moves (.earlyClean d sec) (fun s => s.l2? d sec = some x ∧ x.st = .dirty ∧ x.wrote + 4096 ≤ s.now ∧ ∀ a ∈ s.asked, ¬ (a.1 = d ∧ a.2.1 = sec))
      (fun s => { s.setL2 d sec { x with st := .clean } with mem := writeBytes s.mem (64 * sec) x.data }) ∧
    Moves (.earlyClean d sec) (fun s => s.l2? d sec = some x ∧ x.st = .m ∧ x.wrote + 4096 ≤ s.now ∧ ∀ a ∈ s.asked, ¬ (a.1 = d ∧ a.2.1 = sec))
      (fun s => (s.setL2 d sec { x with st := .e }).post
        { kind := .writeBack, src := d, dst := homeOf (64 * sec), sector := sec, data := some x.data, retain := true, grant := some .e }) ∧
    Waits (.earlyClean d sec) (fun s => s.l2? d sec = some x ∧ s.now < x.wrote + 4096) ∧
    ∀ i, i = .readShared d d2 ∨ i = .readOwn d d2 ∨ i = .upgrade d d2 ∨ i = .fwdShared d d2 ∨ i = .fwdOwn d d2 ∨ i = .inval d d2 ∨
      i = .backInval d d2 ∨ i = .invalAck d d2 ∨ i = .dataClean d d2 none ∨ i = .dataDirty d d2 none ∨ i = .writeBack d d2 ∨
      i = .cleanEvict d d2 ∨ i = .backInvalAck d d2 → Waits i (fun s => s.msgs = [])


/-- R359 to R364, R367, R371, R372, R375, R376, R379, R437, R461. DEAL places a chunk of a card's ready tasks on a core that has room; a
fenced die, and one with nothing to deal, deals nothing. COMMIT judges the die's first commit whose accesses are complete: it is
broadcast and drained, runs again, or waits for the irrevocable task. A token goes to the first run that wants it, whose lanes go on once
it holds its domain's. LAP_PUBLISH publishes a lap past which no consumer is late; a group settles when its tasks have retired, by a
release with its flags; a saved chunk joins the journal, and one that cannot be saved ends the journalling. -/
def Obligations.TasksAreDealtCommittedAndSettled : Prop :=
  ∀ (die core ctx obj a l pa serial chunk n : Nat) (fin : Bool) (c : Card) (r : Run) (g : Group) (parts tasks : List Nat) (k : HeatKey)
    (s1 : State),
    let deals (s : State) : State := { s with lastDeal := Tbl.set s.lastDeal (4 * die + c.cls) c.id }
    let ready : Nat := (c.ready.filter (fun i => match (c.task i).st with | .ready .. => true | _ => false)).length
    let head (s : State) : List Nat :=
      ((deals s).dealable c die).take (min (max 1 (ceilDiv ready (2 * max 1 ((deals s).roomFor c)))) (if c.width = 0 then 32 else if c.width = 1 then 8 else 1))
    let picks (s : State) : Prop := s.fencedDies.contains die = false ∧ s.nextCard die = some (c, core, parts) ∧
      State.readArgs die c (head s) (deals s) = (tasks, s1)
    let q : CommitQ := { die := die, run := r.id }
    let queued (q : CommitQ) (s : State) : Prop := s.arb = [q] ∧ s.run? r.id = some r ∧ s.card? r.card = some c
    let pops (s : State) : State := { s with arb := [] }
    let commits (s : State) : Prop := queued q s ∧ s.commitReady r = true
    let drains (s : State) : Prop := (pops s).judge r = .go ∧ (pops s).drainChunks r = [] ∧ ∀ c ∈ r.sectors, s.copyOwned c = false
    let lap : CommitQ := { die := die, run := r.id, publish := some (a, fin) }
    let publishes (s : State) : Prop := queued lap s ∧ s.lateConsumers r a = []
    let mine (x : Card) : Bool := x.ctx == ctx && x.completion == obj && !x.settled
    let retired (s : State) (x : Card) : Prop := ∀ i, i < x.count → (x.task i).st = .retired ∧ s.dealerBusy x.id i = false
    let saving (s : State) : Prop := (s.ctx ctx).saves = [(serial, chunk)]
    Moves (.deal die) (fun s => picks s ∧ tasks ≠ []) (fun _ => s1.dealChunk c core parts tasks) ∧
    Moves (.deal die) (fun s => picks s ∧ tasks = []) (fun _ => s1) ∧
    Waits (.deal die) (fun s => s.fencedDies.contains die = true ∨ s.nextCard die = none) ∧
    Moves (.commit die) (fun s => commits s ∧ drains s)
      (fun s => ((pops s).broadcast r []).finishCommit r c die) ∧
    Moves (.commit die) (fun s => commits s ∧ (pops s).judge r = .abort) (fun s => (pops s).abort r.id (.rerun true)) ∧
    Moves (.commit die) (fun s => commits s ∧ (pops s).judge r = .wait) (fun s => { s with arb := [{ q with waits := true }] }) ∧
    Waits (.commit die) (fun s => (queued q s ∧ s.commitReady r = false) ∨ s.arb = []) ∧
    Moves (.dieTokenGrant die)
      (fun s => Tbl.find? s.token die = none ∧ s.tokenQ = [r.id] ∧ s.run? r.id = some r ∧ r.tokens = [] ∧ s.domain r = [die] ∧ s.lanesOf r = [(k, l)])
      (fun s => ({ s.updRun r.id (fun r => { r with tokens := [die] }) with token := Tbl.set s.token die r.id, tokenQ := [] } : State).updLane k l
        (fun x => if x.st = .blocked .token then { x with st := .running } else x)) ∧
    Waits (.dieTokenGrant die) (fun s => (Tbl.find? s.token die).isSome = true ∨ s.tokenQ = []) ∧
    Moves (.lapPublish die) (fun s => publishes s ∧ drains s)
      (fun s => ((pops s).broadcast r (((pops s).tileEdges r).map (fun e => fld e.2 0 56))).publishLap r c die a fin) ∧
    Moves (.lapPublish die) (fun s => publishes s ∧ (pops s).judge r = .abort) (fun s => (pops s).abort r.id (.rerun true)) ∧
    Waits (.lapPublish die) (fun s => s.arb = [] ∨
      (queued lap s ∧ s.lateConsumers r a ≠ [] ∧ ∀ x ∈ s.lateConsumers r a, x.2.2 = false)) ∧
    Moves (.groupSettle ctx obj)
      (fun s => s.groups = [g] ∧ g.ctx = ctx ∧ g.obj = obj ∧ (∀ x ∈ s.cards, mine x = true ∧ retired s x) ∧ s.runs = [] ∧
        (∀ h ∈ s.heats, h.key.ctx ≠ ctx) ∧ s.peek ctx s.agentDie obj .write = .ok pa ∧ s.poisoned pa 64 = false)
      (fun s => (({ s with groups := [], cards := s.cards.map (fun x => { x with settled := true, entries := [] }) } : State).deposit ctx (arbOrigin (homeOf pa)) .system (s.fullSig pa)
        (some (pa, (s.cohNat pa 8 + 1) % 2 ^ 64)) g.flags).entriesFreed) ∧
    Waits (.groupSettle ctx obj) (fun s => s.groups = [g] ∧ g.ctx = ctx ∧ g.obj = obj ∧ ∃ x ∈ s.cards, mine x = true ∧ ¬ retired s x) ∧
    Moves (.journalSave ctx chunk) (fun s => saving s ∧ s.saveChunk ctx serial chunk = some (n, s1))
      (fun _ => (s1.updCtx ctx (fun x => { x with saves := removeFirst (fun e => e = (serial, chunk)) x.saves, saved := x.saved ++ [(serial, chunk, n)] })).retrySlots.serveFrames) ∧
    Moves (.journalSave ctx chunk) (fun s => saving s ∧ s.saveChunk ctx serial chunk = none) (fun s => (s.unjournal ctx serial).retrySlots.serveFrames) ∧
    Waits (.journalSave ctx chunk) (fun s => ∀ e ∈ (s.ctx ctx).saves, e.2 ≠ chunk)

/-- R261, R311, R320 to R323, R445, R446, R448, R451, R453 to R455. A die that misses another's bound raises a suspicion, the others
probe, and one that no die hears is declared: fenced, its bundles, lines, records and translations gone, what it held newer than memory
poisoned, and a replacement asked for. A die is held in reset and rejoins with empty memory, or stays fenced. Errors that cannot be
corrected are counted and poison their sector, corrected ones are counted, a self-test that passes leaves its record, and a failing
lane of a bundle is remapped while its module has a spare. -/
def Obligations.FailingPartsAreContained : Prop :=
  ∀ (die target d p sec n t pa failing took first : Nat) (ok : Bool) (bad : List FenceUnit) (b : Bist) (x : Suspicion),
    let missed (s : State) : Prop := (∃ e ∈ s.asked, e.1 = die ∧ homeOf (64 * e.2.1) = target ∧ e.2.2 + 2 ^ 16 ≤ s.now) ∨
      (∃ e ∈ s.txns, homeOf (64 * e.sector) = die ∧ s.awaits e target = true ∧ e.sent + 2 ^ 16 ≤ s.now) ∨
      ∃ e ∈ s.backInv, homeOf (256 * e.line) = die ∧ target ∈ e.left ∧ e.sent + 2 ^ 16 ≤ s.now
    let pair (s : State) : Prop := die < 4 ∧ target < 4 ∧ die ≠ target ∧ die ∉ s.fencedDies ∧ target ∉ s.fencedDies
    let suspected (s : State) : Prop := s.suspicions = [x] ∧ x.target = target
    let quiet (v : Nat) (s : State) : Prop := s.reqs = [] ∧ s.txns = [] ∧ s.queued = [] ∧ (∀ k ∈ s.kernels, k.st ≠ .running) ∧
      ∀ e ∈ s.asked, e.1 = v ∨ homeOf (64 * e.2.1) = v
    let gone (v : Nat) (s u : State) : Prop := u.fencedDies = s.fencedDies ++ [v] ∧ u.sb.replace = true ∧ u.rwq = [] ∧ u.rels = [] ∧
      (∀ e ∈ u.suspicions, e.target ≠ v) ∧ (∀ e ∈ u.records, e.die ≠ v) ∧ (∀ e ∈ u.l2, e.1 / 2 ^ 34 ≠ v) ∧ (∀ e ∈ u.tlb, homeOf e.pa ≠ v) ∧
      ∀ c ∈ s.heldDirty v, c ∈ u.poison
    let noAnswer (s : State) : Prop := suspected s ∧ Tbl.find? x.probes die = some t
    let bring (s : State) : State := { s with resetting := s.resetting.filter (fun q => q ≠ d), sb := { s.sb with dieReset := s.sb.dieReset &&& (15 - 2 ^ d) } }
    let counted (s : State) : State := { s with sb := { s.sb with uncorrected := min (s.sb.uncorrected + 1) (2 ^ 32 - 1) } }
    let tested (s : State) : Prop := s.bist = [b] ∧ b.die = die
    let noted (s : State) : State := { s with bist := [] }
    Moves (.requestBoundMiss die target) (fun s => pair s ∧ missed s ∧ s.suspicions = [] ∧ s.fencedDies = [])
      (fun s => { s with suspicions := [{ target := target, by_ := die, agree := [die] }] }) ∧
    Moves (.requestBoundMiss die target) (fun s => pair s ∧ missed s ∧ suspected s)
      (fun s => ({ s with suspicions := [{ x with agree := nub (x.agree ++ [die]), probes := Tbl.erase x.probes die }] } : State).judgeSuspicion target) ∧
    Waits (.requestBoundMiss die target) (fun s => ¬ missed s) ∧
    Moves (.suspicion die target)
      (fun s => die < 4 ∧ die ≠ target ∧ die ∉ s.fencedDies ∧ suspected s ∧ die ∉ x.agree ∧ Tbl.find? x.probes die = none)
      (fun s => { s with suspicions := [{ x with probes := Tbl.set x.probes die s.now }] }) ∧
    Waits (.suspicion die target) (fun s => die ∈ s.fencedDies) ∧
    Leads (.probeTimeout die target)
      (fun s => noAnswer s ∧ t + 4096 ≤ s.now ∧ quiet target s ∧ target < 4 ∧ target ∉ s.fencedDies ∧ (∀ q, q < 4 → q ≠ target → q = die ∨ q ∈ x.agree))
      (gone target) ∧
    Moves (.probeTimeout die target)
      (fun s => noAnswer s ∧ t + 4096 ≤ s.now ∧ p < 4 ∧ p ≠ target ∧ p ≠ die ∧ p ∉ x.agree ∧ s.fencedDies = [])
      (fun s => { s with suspicions := [{ x with agree := nub (x.agree ++ [die]), probes := Tbl.erase x.probes die }] }) ∧
    Waits (.probeTimeout die target) (fun s => noAnswer s ∧ s.now < t + 4096) ∧
    Leads (.probeAnswer die target)
      (fun s => noAnswer s ∧ quiet (max x.by_ target) s ∧ max x.by_ target < 4 ∧ max x.by_ target ∉ s.fencedDies)
      (fun s u => gone (max x.by_ target) s u) ∧
    Waits (.probeAnswer die target) (fun s => suspected s ∧ Tbl.find? x.probes die = none) ∧
    Moves (.dieReset d) (fun s => 0 < d ∧ d < 4 ∧ d ∈ s.fencedDies ∧ 0 ∉ s.fencedDies ∧ d ∉ s.resetting)
      (fun s => { s with resetting := s.resetting ++ [d], sb := { s.sb with dieReset := s.sb.dieReset ||| 2 ^ d } }) ∧
    Leads (.dieReset d) (fun s => 0 < d ∧ d < 4 ∧ d ∉ s.fencedDies ∧ 0 ∉ s.fencedDies ∧ d ∉ s.resetting ∧ quiet d s)
      (fun s u => gone d s u ∧ u.resetting = s.resetting ++ [d] ∧ u.sb.dieReset = s.sb.dieReset ||| 2 ^ d) ∧
    Waits (.dieReset d) (fun s => d = 0 ∨ 0 ∈ s.fencedDies) ∧
    Moves (.dieRejoin d false bad) (fun s => d ∈ s.resetting ∧ 0 ∉ s.fencedDies) bring ∧
    Leads (.dieRejoin d true bad) (fun s => d ∈ s.resetting ∧ 0 ∉ s.fencedDies ∧ bad = [])
      (fun s u => u.fencedDies = s.fencedDies.filter (fun q => q ≠ d) ∧ u.resetting = s.resetting.filter (fun q => q ≠ d) ∧ u.sb.replace = true ∧
        (∀ adr v, (adr, v) ∈ u.mem → homeOf adr ≠ d) ∧ (∀ c ∈ u.poison, homeOf (64 * c) ≠ d) ∧
        u.sb.dieReset = s.sb.dieReset &&& (15 - 2 ^ d)) ∧
    Waits (.dieRejoin d ok bad) (fun s => d ∉ s.resetting ∨ 0 ∈ s.fencedDies) ∧
    Moves (.uncorrectableError (.l2 d sec)) (fun s => sec ∉ s.poison) (fun s => { counted s with poison := s.poison ++ [sec] }) ∧
    Moves (.patrolScrub sec true) (fun _ => sec < 2 ^ 34)
      (fun s => { s with sb := { s.sb with corrected := min (s.sb.corrected + 1) (2 ^ 32 - 1) } }) ∧
    Waits (.patrolScrub sec false) (fun _ => True) ∧
    Moves (.bistDone die true failing took first) (fun s => tested s ∧ (s.ctx b.ctx).opened = true ∧ (noted s).agentAt b.ctx die b.va .write = (.ok pa, noted s))
      (fun s => (noted s).ownWrite die pa (toBytes 8 (3 + b.alg % 16 * 256 + min failing (2 ^ 32 - 1) * 2 ^ 32) ++ toBytes 4 b.sel ++ toBytes 4 took ++
        toBytes 8 (2 ^ 64 - 1) ++ toBytes 40 0)) ∧
    Waits (.bistDone die ok failing took first) (fun s => s.bist = []) ∧
    (∀ lane m, Leads (.linkLaneFailure (.ucie die d m lane))
      (fun s => die < 4 ∧ d < 4 ∧ die ≠ d ∧ m < 16 ∧ lane < 68 ∧ Tbl.get 0 s.lanesUsed (256 * die + 16 * d + m) = n ∧ n < 4)
      (fun s u => u.lanesUsed = Tbl.set s.lanesUsed (256 * die + 16 * d + m) (n + 1) ∧ u.fencedDies = s.fencedDies ∧ u.ports = s.ports))

/-- R16, R17, R64, R449, R450, R457, R459, R460. POWER_GOOD leaves the part Ready with contexts, heats and fences of dies gone,
the ports with a partner trained and the fuses kept. While the part has started and die 0 is in service the sideband's writes do what
their registers say; else they do nothing. A margin run starts on an idle target and ends with its result, a port that ends its training
takes its shape, and the test access port's instructions capture and shift what theirs name. -/
def Obligations.BringUpAndServiceActOnTheirRegisters : Prop :=
  ∀ (bad : List FenceUnit) (partners port mask off w ctl n m a code : Nat) (bytes : List Byte) (ok : Bool) (tdi drive pins load : List Bool),
    let up (s : State) : Prop := 0 ∉ s.fencedDies ∧ s.sb.state ≠ 0
    let down (s : State) : Prop := 0 ∈ s.fencedDies ∨ s.sb.state = 0
    let sb (f : Sideband → Sideband) (s : State) : State := { s with sb := f s.sb }
    let tap (f : Tap → Tap) (s : State) : State := { s with tap := f s.tap }
    let idle (s : State) : Prop := bit s.sb.margctl 0 = false
    let assoc : Assoc := assocOf (readBytes (writeBytes ([] : Tbl Byte) 0 (bytes.take 128)) 0 128)
    let acts (s : State) : Prop := s.tap.reset = true
    Leads (.powerGood bad partners) (fun _ => True)
      (fun s t => t.sb.state = 2 ∧ t.sb.cap = 3200 ∧ t.sb.shape = 0 ∧ t.ctxs = [] ∧ t.heats = [] ∧ t.kernels = [] ∧ t.fencedDies = [] ∧
        t.fused = s.fused ∧ ∀ p, p < 12 → bit partners p = true → (t.port p).trained = true) ∧
    Moves (.portRetrain mask) (fun s => up s ∧ mask = 2 ^ port ∧ port < 12)
      (fun s => sb (fun b => { b with retrain := b.retrain ||| mask }) (s.updPort port (fun x => { x with training := true }))) ∧
    Moves (.portTrainingDone port) (fun s => port < 12 ∧ (s.port port).training = true)
      (fun s => sb (fun b => { b with retrain := b.retrain &&& (4095 - 2 ^ port) })
        (let whole : Bool := !(s.halfFenced port 0) && !(s.halfFenced port 1)
        s.updPort port (fun p => { p with trained := true, training := false, split := bit s.sb.shape port && whole }))) ∧
    Waits (.portTrainingDone port) (fun s => (s.port port).training = false) ∧
    Moves (.mgmtAssocInstall bytes)
      (fun s => up s ∧ s.sb.assocBuf = [] ∧ bytes[127]? = some 1 ∧ 16 ≤ assoc.keyLen ∧ assoc.keyLen ≤ 64)
      (sb (fun b => { b with assocBuf := writeBytes [] 0 (bytes.take 128), assoc := some assoc })) ∧
    Moves (.mapDataRead) up (fun s => { sb (fun b => { b with mapIndex := (b.mapIndex + 1) % 512, offset := 0x104 }) s with sbOut := toBytes 8 (s.mapQuad s.sb.mapIndex) }) ∧
    Moves (.portErrorClear port) (fun s => up s ∧ port < 12) (sb (fun b => { b with portErr := Tbl.put 0 b.portErr port 0 })) ∧
    Moves (.powerCapWrite w) (fun s => up s ∧ 1000 ≤ w ∧ w ≤ 3200) (sb (fun b => { b with cap := w })) ∧
    Waits (.powerCapWrite w) (fun _ => w < 1000 ∨ 3200 < w) ∧
    Moves (.powerExceedsCap w) (fun _ => True) (fun s => sb (fun b => { b with throttled := decide (s.sb.cap < w) }) s) ∧
    Moves (.marginRun ctl) (fun s => up s ∧ idle s ∧ s.marginIdle s.sb.margsel = true ∧ bit ctl 2 = false)
      (sb (fun b => { b with margctl := setFld (fld ctl 0 11 + fld ctl 16 16 * 2 ^ 16) 0 1 1 })) ∧
    Moves (.marginRun ctl) (fun s => up s ∧ idle s ∧ (s.marginIdle s.sb.margsel = false ∨ bit ctl 2 = true))
      (sb (fun b => { b with margctl := setFld (fld ctl 0 11 + fld ctl 16 16 * 2 ^ 16) 0 1 0, margres := b.margres ||| 256 })) ∧
    Waits (.marginRun ctl) (fun s => ¬ idle s) ∧
    Moves (.marginDone n m) (fun s => ¬ idle s)
      (sb (fun b => { b with margctl := setFld b.margctl 0 1 0, margres := n % 128 + 128 + fld b.margres 8 1 * 256 + min m 65535 * 2 ^ 16 })) ∧
    Waits (.marginDone n m) idle ∧
    Moves (.sidebandWrite 0x00C (toBytes 4 w)) (fun s => up s ∧ w < 4096)
      (fun s => let u := sb (fun b => { b with shape := w, offset := 0x00C }) s
        { u with sbOut := toBytes 4 (w + s.sb.retrain * 2 ^ 16) }) ∧
    Moves (.sidebandWrite 0x004 (toBytes 4 8)) up
      (fun s => let u := sb (fun b => { b with replace := false, offset := 0x004 }) s
        { u with sbOut := toBytes 4 (s.sb.state + 16 * maskOf s.aliveDies) }) ∧
    Moves (.sidebandWrite 0x000 bytes) (fun s => up s ∧ bytes.length = 4)
      (fun s => { sb (fun b => { b with offset := 0 }) s with sbOut := toBytes 4 0x15A1056B }) ∧
    Moves (.dynamicAddress a) up (sb (fun b => { b with dynamic := some (a % 128) })) ∧
    (∀ i, i = .portRetrain mask ∨ i = .mgmtAssocInstall bytes ∨ i = .mapDataRead ∨ i = .portErrorClear port ∨ i = .powerCapWrite w ∨
      i = .marginRun ctl ∨ i = .sidebandWrite off bytes ∨ i = .dynamicAddress a → Waits i down) ∧
    Moves (.bypass code tdi) (fun _ => code < 256 ∧ 0x04 < code ∧ code ≠ 0x10)
      (tap (fun t => { t with ir := code, shifted := (false :: tdi).take (max tdi.length 1) })) ∧
    Moves (.extest drive) acts
      (tap (fun t => { t with ir := 0, chain := drive, update := drive, shifted := Config.sampled t.captures, captures := t.captures + 1 })) ∧
    Moves (.extest drive) (fun s => ¬ acts s) (tap (fun t => { t with ir := 0, shifted := (false :: drive).take (max drive.length 1) })) ∧
    Moves (.samplePreload pins load) (fun _ => True) (tap (fun t => { t with ir := 1, chain := load, shifted := pins })) ∧
    Moves .idcode (fun _ => True) (tap (fun t => { t with ir := 2, shifted := (upto 32).map (bit 0x15A1056B) })) ∧
    Moves .clamp acts (tap (fun t => { t with ir := 3, update := t.chain, shifted := [false] })) ∧
    Moves .clamp (fun s => ¬ acts s) (tap (fun t => { t with ir := 3, shifted := [false] })) ∧
    Moves .highz acts (tap (fun t => { t with ir := 4, update := [], shifted := [false] })) ∧
    Moves .highz (fun s => ¬ acts s) (tap (fun t => { t with ir := 4, shifted := [false] })) ∧
    Moves (.defread n) (fun _ => True)
      (fun s => tap (fun t => { t with ir := 0x10, shifted := (s.fusedBytes.flatMap (fun b => (upto 8).map (bit b.toNat))).take n }) s) ∧
    Moves (.resetBall ok) (fun _ => True) (tap (fun t => { t with reset := ok, update := if ok then t.update else [] }))

/-- R85, R88, R89, R94, R112, R113, R462. A step runs the word at hand: the heat that the agenda names, active, ready and with its live
lanes together, where no heat that goes before it on its partition can issue, issues the word that stands at their program counter in
their block; at a header that keeps the rules and whose waited flags are clear, the block's first word. A word that is no instruction traps its lanes with ILLEGAL. An event of the agenda is its own step,
and clocks pass. A word placed by the model's withFetchWord is the one that the next step runs (log entry 4, the model's choice). -/
def Obligations.StepRunsTheWordAtHand : Prop :=
  ∀ (s : State) (rest : List Move) (key : HeatKey) (h : Heat) (i : Instr) (p w b0 b1 n : Nat),
    let u : State := { s with agenda := rest }
    let live : List Nat := h.lanesWhere (fun x => !x.exited)
    let fetches (va w : Nat) : Prop := ∃ pa, Mapped u key.ctx h.core va .fetch pa ∧ u.poisoned pa 8 = false ∧
      w = ofBytes (((u.overlay (h.core / 64) (pa / 64) (u.cohSector (pa / 64))).drop (pa % 64)).take 8)
    let ready : Prop := s.agenda = .issue key :: rest ∧ u.heat? key = some h ∧ h.active = true ∧ u.heatReady h = true ∧ h.busy = none ∧
      firstIssue u (u.ahead h) = none ∧ u.halting h = false ∧ u.holding h = false ∧ live ≠ [] ∧
      ∀ l ∈ live, (h.lane l).st = .running ∧ (h.lane l).pc = p ∧ (h.lane l).acq = none
    let inBlock : Prop := ready ∧ (∀ l ∈ live, (h.lane l).blk = some (b0, b1)) ∧ fetches p w
    let atHeader : Prop := ready ∧ (∀ l ∈ live, (h.lane l).blk = none) ∧ fetches p b1 ∧ badHeader b1 h.budget = false ∧
      h.flagsClear (fld b1 40 12) = true ∧ fetches (p + 8) w
    let x : Iss := { key := key, lanes := live, pc := p, hdrAddr := b0, hdr := b1, entering := false, word := w }
    let y : Iss := { key := key, lanes := live, pc := p + 8, hdrAddr := p, hdr := b1, entering := true, word := w }
    (inBlock → decode w = .ok i → step s = exec i { u with iss := some x }) ∧
    (atHeader → decode w = .ok i → step s = exec i { u with iss := some y }) ∧
    (inBlock → (∀ j, decode w ≠ .ok j) → (∀ l ∈ live, (h.lane l).task = none) →
      ∃ t, step s = .next t ∧ Parked { u with iss := some x } t x h live (fun _ => { cause := .illegal }) 1) ∧
    (s.agenda = .event i :: rest → i.isWord = false → step s = exec i u) ∧
    (s.agenda = .pass n :: rest → step s = .next { u with now := s.now + n }) ∧
    (w < 2 ^ 64 → decode w = .ok i → ∃ t z, step (State.reset.withFetchWord 64 w) = exec i t ∧ t.iss = some z ∧ z.word = w ∧
      z.pc = 0x10008 ∧ z.lanes = [0] ∧ t.fencedDies = [])

/-- R93, R95 to R103. Words of the manual's own tables decode to the instructions that it writes beside them, and a word of opcode 0xFF
decodes to none. -/
def Obligations.DecodingReadsTheManualsWords : Prop :=
  let c : Com := { guard := 12, neg := false, stop := false, flagB := false }
  decode 0x4038_0281_285F_F420 = .ok (.fadd { c with guard := 3, neg := true } .rz false (.v 5) (.v 4) (.k 2) none) ∧
  decode 0x72C6_0200_7FE2_4000 = .ok (.ld { c with stop := true, flagB := true } false 2 4 { x := .v 1, w64 := false } 2) ∧
  decode 0x78C0_0501_2820_4000 = .ok (.ldsr c false 2 10 (.v 4) (.k 1)) ∧
  decode 0x01C0_FFFF_FBFF_8000 = .ok (.bra c (-5)) ∧
  decode 0x35C0_0180_C0FF_FFFF = .ok (.addi c .s32 false (.v 3) (.v 3) (-1)) ∧
  decode 0xB1C0_0101_FFE0_0010 = .ok (.mwait c (some 2) (.v 7) 16) ∧
  decode 0xA5C2_1003_0507_0000 = .ok (.mtopk { c with flagB := true } 0 true false 3 10 7) ∧
  decode 0xC3C0_0401_00C0_C001 = .ok (.tframeRd c 8 (.v 4) (.v 6) 384) ∧
  ∀ i, decode 0xFFC0_FFFF_FFE0_0000 ≠ .ok i

/-- R93 to R102. The word that the encoder gives for a well-formed instruction word decodes to that instruction, whatever values its
operands have. -/
def Obligations.DecodingAnEncodingGivesItBack : Prop :=
  ∀ i : Instr, i.wf = true → i.isWord = true → decode (encode i) = .ok i

/-- R26. Memory is one byte at each address: every step keeps its list of bytes in the one canonical form, so that equal memories are
equal data. -/
def Obligations.EveryStepKeepsMemoryCanonical : Prop := ∀ s t : State, Memory.wf s.mem = true → step s = .next t → Memory.wf t.mem = true

/-- R449, R457, R459, R322. What the machine holds at reset, where the manual gives a value: no context is open and nothing is resident, no
die is fenced, the sideband is in state reset with its registers at their reset values; and its memory has the canonical form. -/
def Obligations.ResetLeavesWhatTheManualStates : Prop :=
  Memory.wf State.reset.mem = true ∧ (∀ c, (State.reset.ctx c).opened = false) ∧ State.reset.heats = [] ∧ State.reset.kernels = [] ∧
  State.reset.fencedDies = [] ∧ State.reset.sb.state = 0 ∧ State.reset.sb.cap = 3200 ∧ State.reset.sb.shape = 0 ∧ State.reset.sb.margsel = 0 ∧
  State.reset.sb.margctl = 0 ∧ State.reset.sb.margres = 0 ∧ (∀ p, Tbl.get 0 State.reset.sb.portErr p = 0) ∧ State.reset.sb.corrected = 0 ∧
  State.reset.sb.uncorrected = 0
end

