-- ==== Sys2Proof/Laws/Table.lean ====
section
/-! SUPPORT. Laws of the sorted tables and of byte sequences in them: a read after a write, and the canonical form. -/

namespace Sys2Proof.Machine

namespace Tbl
variable {β : Type}

@[simp] theorem find?_nil (x : Nat) : find? ([] : Tbl β) x = none := rfl

@[simp] theorem find?_set_self (t : Tbl β) (x : Nat) (y : β) : find? (set t x y) x = some y := by
  induction t with
  | nil => simp [set, find?]
  | cons e t ih =>
    simp only [set]
    split
    · simp [find?]
    · split
      · simp [find?]
      · rename_i h1 h2
        simp only [find?]
        rw [if_neg h1]
        exact ih

theorem find?_set_ne (t : Tbl β) (x z : Nat) (y : β) (h : z ≠ x) : find? (set t x y) z = find? t z := by
  induction t with
  | nil => simp [set, find?, Ne.symm h]
  | cons e t ih =>
    obtain ⟨k, v⟩ := e
    simp only [set]
    split
    · rename_i hk
      subst hk
      simp only [find?]
      rw [if_neg (Ne.symm h), if_neg (Ne.symm h)]
    · split
      · conv => lhs; unfold find?
        rw [if_neg (Ne.symm h)]
      · simp only [find?]
        rw [ih]

theorem find?_filter (t : Tbl β) (p : Nat → Bool) (z : Nat) :
    find? (t.filter (fun e => p e.1)) z = if p z then find? t z else none := by
  induction t with
  | nil => simp
  | cons e t ih =>
    obtain ⟨k, v⟩ := e
    simp only [List.filter_cons, find?]
    by_cases hk : k = z
    · subst hk
      by_cases hp : p k = true
      · simp [hp, find?]
      · simp only [hp]
        simpa [hp] using ih
    · by_cases hp : p k = true
      · simp [hp, find?, hk, ih]
      · simp [hp, hk, ih]

@[simp] theorem find?_erase_self (t : Tbl β) (x : Nat) : find? (erase t x) x = none := by
  have := find?_filter t (fun k => decide (k ≠ x)) x
  simpa [erase] using this

theorem find?_erase_ne (t : Tbl β) (x z : Nat) (h : z ≠ x) : find? (erase t x) z = find? t z := by
  have := find?_filter t (fun k => decide (k ≠ x)) z
  simpa [erase, h] using this

/-- A read after an entry is set. -/
@[simp] theorem get_set_self {d : β} (t : Tbl β) (x : Nat) (y : β) : get d (set t x y) x = y := by simp [get]

theorem get_set_ne {d : β} (t : Tbl β) (x z : Nat) (y : β) (hz : z ≠ x) : get d (set t x y) z = get d t z := by
  simp [get, find?_set_ne t x z y hz]

theorem sortedFrom_mono {n m : Nat} {t : Tbl β} (h : sortedFrom n t = true) (hm : m ≤ n) : sortedFrom m t = true := by
  cases t with
  | nil => rfl
  | cons e t =>
    simp only [sortedFrom, Bool.and_eq_true, decide_eq_true_eq] at h ⊢
    exact ⟨by omega, h.2⟩

theorem sortedFrom_set {n x : Nat} {t : Tbl β} (y : β) (hs : sortedFrom n t = true) (hx : n ≤ x) :
    sortedFrom n (set t x y) = true := by
  induction t generalizing n with
  | nil => simp [set, sortedFrom, hx]
  | cons e t ih =>
    obtain ⟨k, v⟩ := e
    simp only [sortedFrom, Bool.and_eq_true, decide_eq_true_eq] at hs
    simp only [set]
    split
    · rename_i hk
      subst hk
      simp [sortedFrom, hs]
    · split
      · rename_i h1 h2
        simp only [sortedFrom, Bool.and_eq_true, decide_eq_true_eq]
        exact ⟨hx, by omega, hs.2⟩
      · rename_i h1 h2
        simp only [sortedFrom, Bool.and_eq_true, decide_eq_true_eq]
        exact ⟨hs.1, ih hs.2 (by omega)⟩

theorem sortedFrom_filter {n : Nat} {t : Tbl β} (p : Nat × β → Bool) (hs : sortedFrom n t = true) :
    sortedFrom n (t.filter p) = true := by
  induction t generalizing n with
  | nil => rfl
  | cons e t ih =>
    simp only [sortedFrom, Bool.and_eq_true, decide_eq_true_eq] at hs
    simp only [List.filter_cons]
    split
    · simp only [sortedFrom, Bool.and_eq_true, decide_eq_true_eq]
      exact ⟨hs.1, ih hs.2⟩
    · exact sortedFrom_mono (ih hs.2) (by omega)

theorem mem_set {t : Tbl β} {x : Nat} {y : β} {e : Nat × β} (h : e ∈ set t x y) : e = (x, y) ∨ e ∈ t := by
  induction t with
  | nil => simpa [set] using h
  | cons a t ih =>
    simp only [set] at h
    split at h
    · rcases List.mem_cons.1 h with h | h
      · exact .inl h
      · exact .inr (List.mem_cons_of_mem _ h)
    · split at h
      · rcases List.mem_cons.1 h with h | h
        · exact .inl h
        · exact .inr h
      · rcases List.mem_cons.1 h with h | h
        · exact .inr (h ▸ List.mem_cons_self)
        · rcases ih h with h | h
          · exact .inl h
          · exact .inr (List.mem_cons_of_mem _ h)

variable [DecidableEq β]

theorem wf_iff {d : β} {t : Tbl β} : wf d t = true ↔ sortedFrom 0 t = true ∧ ∀ e ∈ t, e.2 ≠ d := by
  simp [wf, List.all_eq_true]

theorem wf_nil (d : β) : wf d ([] : Tbl β) = true := rfl

/-- A write keeps the canonical form. -/
theorem put_wf {d : β} {t : Tbl β} (h : wf d t = true) (x : Nat) (y : β) : wf d (put d t x y) = true := by
  rw [wf_iff] at h ⊢
  unfold put
  split
  · exact ⟨sortedFrom_filter _ h.1, fun e he => h.2 e (List.mem_filter.1 he).1⟩
  · rename_i hy
    refine ⟨sortedFrom_set y h.1 (Nat.zero_le x), fun e he => ?_⟩
    rcases mem_set he with he | he
    · exact he ▸ hy
    · exact h.2 e he

theorem filter_wf {d : β} {t : Tbl β} (p : Nat × β → Bool) (h : wf d t = true) : wf d (t.filter p) = true := by
  rw [wf_iff] at h ⊢
  exact ⟨sortedFrom_filter p h.1, fun e he => h.2 e (List.mem_filter.1 he).1⟩

/-- A read after a write to the same place. -/
@[simp] theorem get_put_self {d : β} (t : Tbl β) (x : Nat) (y : β) : get d (put d t x y) x = y := by
  unfold put get
  split
  · rename_i hy
    simp [hy]
  · simp

/-- A write leaves every other place alone. -/
theorem get_put_ne {d : β} (t : Tbl β) (x z : Nat) (y : β) (hz : z ≠ x) : get d (put d t x y) z = get d t z := by
  unfold put get
  split
  · rw [find?_erase_ne t x z hz]
  · rw [find?_set_ne t x z y hz]

end Tbl

/-- Storing bytes keeps the canonical form. -/
theorem writeBytes_wf {t : Tbl Byte} (bs : List Byte) (a : Nat) (h : Tbl.wf 0 t = true) :
    Tbl.wf 0 (writeBytes t a bs) = true := by
  induction bs generalizing t a with
  | nil => exact h
  | cons b bs ih => exact ih (a + 1) (Tbl.put_wf h a b)

/-- A byte outside the stored range reads as before. -/
theorem get_writeBytes_ne (t : Tbl Byte) (bs : List Byte) (a x : Nat) (hx : x < a ∨ a + bs.length ≤ x) :
    Tbl.get 0 (writeBytes t a bs) x = Tbl.get 0 t x := by
  induction bs generalizing t a with
  | nil => rfl
  | cons b bs ih =>
    simp only [List.length_cons] at hx
    rw [writeBytes, ih _ (a + 1) (by omega), Tbl.get_put_ne t a x b (by omega)]

/-- A stored byte reads back. -/
theorem get_writeBytes (t : Tbl Byte) (bs : List Byte) (a i : Nat) (hi : i < bs.length) :
    Tbl.get 0 (writeBytes t a bs) (a + i) = bs[i] := by
  induction bs generalizing t a i with
  | nil => simp at hi
  | cons b bs ih =>
    rw [writeBytes]
    cases i with
    | zero =>
      rw [get_writeBytes_ne _ bs (a + 1) (a + 0) (by omega)]
      simp
    | succ i =>
      have := ih (Tbl.put 0 t a b) (a + 1) i (by simpa using hi)
      simpa [Nat.add_assoc, Nat.add_comm 1] using this

theorem readBytes_length (t : Tbl Byte) (a n : Nat) : (readBytes t a n).length = n := by
  induction n generalizing a with
  | zero => rfl
  | succ n ih => simp [readBytes, ih]

theorem getElem_readBytes (t : Tbl Byte) (a n i : Nat) (h : i < (readBytes t a n).length) :
    (readBytes t a n)[i] = Tbl.get 0 t (a + i) := by
  induction n generalizing a i with
  | zero => simp [readBytes] at h
  | succ n ih =>
    cases i with
    | zero => simp [readBytes]
    | succ i =>
      have := ih (a + 1) i (by simpa [readBytes] using h)
      simp only [readBytes, List.getElem_cons_succ]
      rw [this]
      congr 1
      omega

/-- The bytes stored are the bytes read. -/
theorem readBytes_writeBytes (t : Tbl Byte) (bs : List Byte) (a : Nat) :
    readBytes (writeBytes t a bs) a bs.length = bs := by
  apply List.ext_getElem (readBytes_length _ _ _)
  intro i h1 h2
  rw [getElem_readBytes, get_writeBytes t bs a i h2]

end Sys2Proof.Machine
end

