-- ==== Sys2Proof/Laws/Memory.lean ====
section
/-! SUPPORT. The operations that write memory keep its canonical form: bytes written coherently, dirty sectors that come home or are
cleaned, a die that rejoins, and the placement of a word. -/

namespace Sys2Proof.Machine

theorem Memory.wf_nil : Memory.wf [] = true := rfl

theorem Memory.write_wf {m : List Host.Cell} (a : Nat) (bs : List Byte) (h : Memory.wf m = true) : Memory.wf (writeBytes m a bs) = true :=
  writeBytes_wf bs a h

theorem Memory.filter_wf {m : List Host.Cell} (p : Host.Cell → Bool) (h : Memory.wf m = true) : Memory.wf (m.filter p) = true := Tbl.filter_wf p h

theorem foldl_keeps {α β : Type} {P : β → Prop} {f : β → α → β} (hf : ∀ b a, P b → P (f b a)) (l : List α) : ∀ b, P b → P (l.foldl f b) := by
  induction l with
  | nil => exact fun b h => h
  | cons a l ih => exact fun b h => ih _ (hf b a h)

theorem cohPatch_wf {s : State} (sec off : Nat) (bs : List Byte) (h : Memory.wf s.mem = true) : Memory.wf (s.cohPatch sec off bs).mem = true := by
  unfold State.cohPatch
  dsimp only
  split <;> exact Memory.write_wf _ _ h

/-- Bytes that every view sees at once (R190). -/
theorem cohWrite_wf {s : State} (pa : Nat) (bs : List Byte) (h : Memory.wf s.mem = true) : Memory.wf (s.cohWrite pa bs).mem = true :=
  foldl_keeps (P := fun s => Memory.wf s.mem = true) (fun _ _ hb => cohPatch_wf _ _ _ hb) _ s h

theorem cohPut_wf {s : State} (pa n x : Nat) (h : Memory.wf s.mem = true) : Memory.wf (s.cohPut pa n x).mem = true := cohWrite_wf _ _ h

theorem setL2_mem (s : State) (die sec : Nat) (x : L2Line) : (s.setL2 die sec x).mem = s.mem := rfl

theorem dropL2_mem (s : State) (die sec : Nat) : (s.dropL2 die sec).mem = s.mem := rfl

theorem post_mem (s : State) (m : CMsg) : (s.post m).mem = s.mem := rfl

theorem takeMsg_mem (s : State) (m : CMsg) : (s.takeMsg m).mem = s.mem := rfl

/-- Dirty bytes that come home (R307). -/
theorem comeHome_wf {s : State} (sec : Nat) (d : List Byte) (h : Memory.wf s.mem = true) : Memory.wf (s.comeHome sec d).mem = true := by
  unfold State.comeHome
  dsimp only
  split
  · exact h
  · exact Memory.write_wf _ _ h

/-- A dirty sector of an answer to a back-invalidation (R309). -/
theorem backDirty_wf {s : State} (sec : Nat) (d : List Byte) (h : Memory.wf s.mem = true) : Memory.wf (s.backDirty sec d).mem = true := by
  unfold State.backDirty
  dsimp only
  split <;> exact Memory.write_wf _ _ h

/-- A sector that has rested is cleaned (R308). -/
theorem earlyClean_wf {s : State} (die sec : Nat) (h : Memory.wf s.mem = true) : Memory.wf (s.earlyClean die sec).mem = true := by
  unfold State.earlyClean
  dsimp only
  repeat' split
  all_goals first | exact h | exact Memory.write_wf _ _ h

/-- A dirty sector written back (R211). -/
theorem cleanSector_wf {s : State} (sec : Nat) (h : Memory.wf s.mem = true) : Memory.wf (s.cleanSector sec).mem = true := by
  unfold State.cleanSector
  dsimp only
  refine foldl_keeps (P := fun (s : State) => Memory.wf s.mem = true) (fun b i hb => ?_) _ _ ?_
  · repeat' split
    all_goals exact hb
  · split
    · exact h
    · exact Memory.write_wf _ _ h

/-- A line leaves a die's L2 (R307). -/
theorem evictLine_wf {s : State} (die line : Nat) (h : Memory.wf s.mem = true) : Memory.wf (s.evictLine die line).mem = true := by
  unfold State.evictLine
  split
  · exact h
  · refine foldl_keeps (P := fun s => Memory.wf s.mem = true) (fun b i hb => ?_) _ s h
    dsimp only
    repeat' split
    all_goals first | exact hb | exact Memory.write_wf _ _ hb

/-- What a line that leaves a die's L2 changes. -/
theorem evictLine_eq (s : State) (die line : Nat) :
    s.evictLine die line = { s with mem := (s.evictLine die line).mem, l2 := (s.evictLine die line).l2, msgs := (s.evictLine die line).msgs } := by
  unfold State.evictLine
  split
  · rfl
  · refine foldl_keeps (P := fun b => b = { s with mem := b.mem, l2 := b.l2, msgs := b.msgs }) (fun b i hb => ?_) _ s rfl
    dsimp only
    repeat' split
    all_goals first | exact hb | (rw [hb]; rfl)

/-- What a sector installed in a die's L2 changes. -/
theorem fillL2_eq (s : State) (die sec : Nat) (x : L2Line) :
    s.fillL2 die sec x = { s with mem := (s.fillL2 die sec x).mem, l2 := (s.fillL2 die sec x).l2, msgs := (s.fillL2 die sec x).msgs } := by
  have h : s.roomL2 die (sec / 4) = { s with mem := (s.roomL2 die (sec / 4)).mem, l2 := (s.roomL2 die (sec / 4)).l2, msgs := (s.roomL2 die (sec / 4)).msgs } := by
    unfold State.roomL2
    dsimp only
    repeat' split
    all_goals first | rfl | exact evictLine_eq _ _ _
  unfold State.fillL2
  generalize s.roomL2 die (sec / 4) = t at h ⊢
  rw [h]
  rfl

/-- What a write into a die's L2 changes. -/
theorem l2Write_eq (s : State) (die pa : Nat) (bs : List Byte) :
    s.l2Write die pa bs = { s with mem := (s.l2Write die pa bs).mem, l2 := (s.l2Write die pa bs).l2, msgs := (s.l2Write die pa bs).msgs, poison := (s.l2Write die pa bs).poison } := by
  unfold State.l2Write
  dsimp only
  split
  · rw [fillL2_eq]
  · rw [fillL2_eq]

/-- A state changed in its memory, its L2s, its directory, the write queues, the messages of coherence and the poison alone. -/
def Cached (s b : State) : Prop :=
  b = { s with mem := b.mem, l2 := b.l2, dir := b.dir, dirOrder := b.dirOrder, msgs := b.msgs, rwq := b.rwq, poison := b.poison }

theorem Cached.trans {s b c : State} (h1 : Cached s b) (h2 : Cached b c) : Cached s c := by
  unfold Cached at *
  rw [h2, h1]

theorem l2Write_cached (s : State) (die pa : Nat) (bs : List Byte) : Cached s (s.l2Write die pa bs) := by
  unfold Cached
  conv => lhs; rw [l2Write_eq]
  rw [l2Write_eq]

theorem fillL2_cached (s : State) (die sec : Nat) (x : L2Line) : Cached s (s.fillL2 die sec x) := by
  unfold Cached
  conv => lhs; rw [fillL2_eq]
  rw [fillL2_eq]

theorem drain_cached (s : State) (die sec : Nat) : Cached s (s.drain die sec) := by
  unfold State.drain
  dsimp only
  split
  · exact foldl_keeps (P := Cached s) (fun b e hb => hb.trans (l2Write_cached b _ _ _)) _ _ rfl
  · rfl

theorem putHolders_cached (s : State) (sec : Nat) (t : Tbl DirSt) : Cached s (s.putHolders sec t) := by
  unfold State.putHolders
  dsimp only
  repeat' split
  all_goals rfl

theorem gainOwn_cached (s : State) (die sec : Nat) : Cached s (s.gainOwn die sec) := by
  have h1 : Cached s ((upto 4).foldl (fun s d => if d = die then s else s.dropL2 d sec) s) := by
    refine foldl_keeps (P := Cached s) (fun b e hb => hb.trans ?_) _ _ rfl
    split <;> rfl
  unfold State.gainOwn
  split
  · exact drain_cached _ _ _
  · dsimp only
    exact ((h1.trans (putHolders_cached _ _ _)).trans (fillL2_cached _ _ _ _)).trans (drain_cached _ _ _)

/-- What a write of an agent through its die's L2 changes (R299, R306). -/
theorem ownWrite_cached (s : State) (die pa : Nat) (bs : List Byte) : Cached s (s.ownWrite die pa bs) := by
  refine foldl_keeps (P := Cached s) (fun b e hb => hb.trans ?_) _ _ rfl
  split
  · exact (gainOwn_cached _ _ _).trans (l2Write_cached _ _ _ _)
  · unfold State.cohPatch
    dsimp only
    split <;> rfl

/-! Writes under ownership (R304, R306, R307). -/

theorem roomL2_wf {s : State} (die line : Nat) (h : Memory.wf s.mem = true) : Memory.wf (s.roomL2 die line).mem = true := by
  unfold State.roomL2
  dsimp only
  repeat' split
  all_goals first | exact h | exact evictLine_wf _ _ h

theorem fillL2_wf {s : State} (die sec : Nat) (x : L2Line) (h : Memory.wf s.mem = true) : Memory.wf (s.fillL2 die sec x).mem = true :=
  roomL2_wf _ _ h

theorem l2Write_wf {s : State} (die pa : Nat) (bs : List Byte) (h : Memory.wf s.mem = true) : Memory.wf (s.l2Write die pa bs).mem = true := by
  have poison (t : State) (c : Prop) [Decidable c] (p : List Nat) (ht : Memory.wf t.mem = true) :
      Memory.wf (if c then { t with poison := p } else t).mem = true := by split <;> exact ht
  exact poison _ _ _ (fillL2_wf _ _ _ h)

theorem drain_wf {s : State} (die sec : Nat) (h : Memory.wf s.mem = true) : Memory.wf (s.drain die sec).mem = true := by
  unfold State.drain
  dsimp only
  split
  · exact foldl_keeps (P := fun (s : State) => Memory.wf s.mem = true) (fun _ _ hb => l2Write_wf _ _ _ hb) _ _ h
  · exact h

theorem putHolders_mem (s : State) (sec : Nat) (t : Tbl DirSt) : (s.putHolders sec t).mem = s.mem := by
  unfold State.putHolders
  dsimp only
  repeat' split
  all_goals rfl

theorem gainOwn_wf {s : State} (die sec : Nat) (h : Memory.wf s.mem = true) : Memory.wf (s.gainOwn die sec).mem = true := by
  unfold State.gainOwn
  dsimp only
  split
  · exact drain_wf _ _ h
  · refine drain_wf _ _ (fillL2_wf _ _ _ ?_)
    rw [putHolders_mem]
    refine foldl_keeps (P := fun (s : State) => Memory.wf s.mem = true) (fun b i hb => ?_) _ s h
    split <;> exact hb

/-- A write of an agent through its die's L2 (R299). -/
theorem ownWrite_wf {s : State} (die pa : Nat) (bs : List Byte) (h : Memory.wf s.mem = true) : Memory.wf (s.ownWrite die pa bs).mem = true := by
  refine foldl_keeps (P := fun (s : State) => Memory.wf s.mem = true) (fun b i hb => ?_) _ s h
  split
  · exact l2Write_wf _ _ _ (gainOwn_wf _ _ hb)
  · exact cohPatch_wf _ _ _ hb

/-- A word placed (log entry 4). -/
theorem place_wf {s : State} (w : Nat) (h : Memory.wf s.mem = true) : Memory.wf (s.place w).mem = true :=
  Memory.write_wf _ _ (Memory.write_wf _ _ (foldl_keeps (P := fun m => Memory.wf m = true) (fun _ _ hb => Memory.write_wf _ _ hb) _ _ h))

theorem withFetchWord_wf {s : State} (nbits w : Nat) (h : Memory.wf s.mem = true) : Memory.wf (s.withFetchWord nbits w).mem = true := by
  unfold State.withFetchWord
  exact place_wf _ h

theorem reset_mem_wf : Memory.wf State.reset.mem = true := rfl

end Sys2Proof.Machine
end

