-- ==== Sys2Proof/Laws/Encode.lean ====
section
/-! SUPPORT. The fields of encoded words, format by format, and the decoding of each encoded part (R93 to R101). -/

namespace Sys2Proof.Enc
open Machine

theorem b2n_lt (b : Bool) : b2n b < 2 := by cases b <;> decide
theorem b2n_beq (b : Bool) : (b2n b == 1) = b := by cases b <;> rfl

theorem head_nat (op g x y z r : Nat) (h1 : op < 256) (h2 : g < 16) (hx : x < 2) (hy : y < 2) (hz : z < 2) (h3 : r < 2 ^ 48) :
    let w := op * 2 ^ 56 + g * 2 ^ 52 + x * 2 ^ 51 + y * 2 ^ 50 + z * 2 ^ 49 + r
    w / 2 ^ 56 % 2 ^ 8 = op ∧ w / 2 ^ 48 % 2 = 0 ∧ w / 2 ^ 52 % 2 ^ 4 = g ∧ w / 2 ^ 51 % 2 = x ∧ w / 2 ^ 50 % 2 = y ∧ w / 2 ^ 49 % 2 = z ∧ w % 2 ^ 48 = r := by
  simp only
  refine ⟨?_, ?_, ?_, ?_, ?_, ?_, ?_⟩ <;> omega

theorem head_fields (op : Nat) (c : Com) (r : Nat) (h1 : op < 256) (h2 : c.guard < 16) (h3 : r < 2 ^ 48) :
    fld (com op c + r) 56 8 = op ∧ bit (com op c + r) 48 = false ∧ Dec.com (com op c + r) = c := by
  obtain ⟨q1, q2, q3, q4, q5, q6, _⟩ := head_nat op c.guard (b2n c.neg) (b2n c.stop) (b2n c.flagB) r h1 h2 (b2n_lt _) (b2n_lt _) (b2n_lt _) h3
  refine ⟨q1, ?_, ?_⟩
  · show (_ / 2 ^ 48 % 2 == 1) = false
    unfold com
    rw [q2]; rfl
  · unfold Dec.com bit fld com
    rw [q3, q4, q5, q6, b2n_beq, b2n_beq, b2n_beq]

theorem fld_mod (w lo n : Nat) (h : lo + n ≤ 48) : fld (w % 2 ^ 48) lo n = fld w lo n := by
  unfold fld
  apply Nat.eq_of_testBit_eq
  intro j
  simp only [Nat.testBit_mod_two_pow, Nat.testBit_div_two_pow]
  by_cases hj : j < n
  · have : lo + j < 48 := by omega
    simp [hj, Nat.add_comm, this]
  · simp [hj]

theorem bit_mod (w i : Nat) (h : i < 48) : bit (w % 2 ^ 48) i = bit w i := by
  have := fld_mod w i 1 (by omega)
  unfold fld at this
  unfold bit
  simp only [Nat.pow_one] at this
  rw [this]

theorem low_fields (op : Nat) (c : Com) (r : Nat) (h1 : op < 256) (h2 : c.guard < 16) (h3 : r < 2 ^ 48) :
    (∀ lo n, lo + n ≤ 48 → fld (com op c + r) lo n = fld r lo n) ∧ ∀ i, i < 48 → bit (com op c + r) i = bit r i := by
  obtain ⟨_, _, _, _, _, _, q⟩ := head_nat op c.guard (b2n c.neg) (b2n c.stop) (b2n c.flagB) r h1 h2 (b2n_lt _) (b2n_lt _) (b2n_lt _) h3
  have q' : (com op c + r) % 2 ^ 48 = r := q
  constructor
  · intro lo n h
    rw [← fld_mod _ _ _ h, q']
  · intro i h
    rw [← bit_mod _ _ h, q']

theorem fmtV_low (d a b cc t r v : Nat) (hd : d < 512) (ha : a < 512) (hb : b < 512) (hc : cc < 512) (ht : t < 16) (hr : r < 8) (hv : v < 32) :
    let w := d * 2 ^ 39 + a * 2 ^ 30 + b * 2 ^ 21 + cc * 2 ^ 12 + t * 2 ^ 8 + r * 2 ^ 5 + v
    w < 2 ^ 48 ∧ fld w 39 9 = d ∧ fld w 30 9 = a ∧ fld w 21 9 = b ∧ fld w 12 9 = cc ∧ fld w 8 4 = t ∧ fld w 5 3 = r ∧ fld w 0 5 = v := by
  unfold fld
  simp only
  refine ⟨?_, ?_, ?_, ?_, ?_, ?_, ?_, ?_⟩ <;> omega

theorem fmtS_low (d a b m : Nat) (hd : d < 512) (ha : a < 512) (hb : b < 512) (hm : m < 2 ^ 21) :
    let w := d * 2 ^ 39 + a * 2 ^ 30 + b * 2 ^ 21 + m
    w < 2 ^ 48 ∧ fld w 39 9 = d ∧ fld w 30 9 = a ∧ fld w 21 9 = b ∧ fld w 0 21 = m := by
  unfold fld
  simp only
  refine ⟨?_, ?_, ?_, ?_, ?_⟩ <;> omega

theorem fmtM_low (t x e b sz od sc fn : Nat) (ht : t < 512) (hx : x < 512) (he : e < 512) (hb : b < 32) (hz : sz < 8) (ho : od < 4) (hs : sc < 8) (hf : fn < 256) :
    let w := t * 2 ^ 39 + x * 2 ^ 30 + e * 2 ^ 21 + b * 2 ^ 16 + sz * 2 ^ 13 + od * 2 ^ 11 + sc * 2 ^ 8 + fn
    w < 2 ^ 48 ∧ fld w 39 9 = t ∧ fld w 30 9 = x ∧ fld w 21 9 = e ∧ fld w 16 5 = b ∧ fld w 13 3 = sz ∧ fld w 11 2 = od ∧ fld w 8 3 = sc ∧ fld w 0 8 = fn := by
  unfold fld
  simp only
  refine ⟨?_, ?_, ?_, ?_, ?_, ?_, ?_, ?_, ?_⟩ <;> omega

theorem fmtG_low (t x b sz iw sg scl sel z : Nat) (ht : t < 512) (hx : x < 512) (hb : b < 32) (hz : sz < 8) (hi : iw < 4) (hsg : sg < 2) (hs : scl < 8) (hl : sel < 8) (hzz : z < 2) :
    let w := t * 2 ^ 39 + x * 2 ^ 30 + b * 2 ^ 25 + sz * 2 ^ 22 + iw * 2 ^ 20 + sg * 2 ^ 19 + scl * 2 ^ 16 + sel * 2 ^ 13 + z * 2 ^ 12
    w < 2 ^ 48 ∧ fld w 39 9 = t ∧ fld w 30 9 = x ∧ fld w 25 5 = b ∧ fld w 22 3 = sz ∧ fld w 20 2 = iw ∧ w / 2 ^ 19 % 2 = sg ∧ fld w 16 3 = scl ∧ fld w 13 3 = sel ∧ w / 2 ^ 12 % 2 = z ∧ fld w 0 12 = 0 := by
  unfold fld
  simp only
  refine ⟨?_, ?_, ?_, ?_, ?_, ?_, ?_, ?_, ?_, ?_, ?_⟩ <;> omega

theorem fmtB_low (o a : Nat) (ho : o < 2 ^ 24) (ha : a < 512) :
    let w := o * 2 ^ 24 + a * 2 ^ 15
    w < 2 ^ 48 ∧ fld w 24 24 = o ∧ fld w 15 9 = a ∧ fld w 0 15 = 0 := by
  unfold fld
  simp only
  refine ⟨?_, ?_, ?_, ?_⟩ <;> omega

theorem fmtX_low (m r f row a cnt fn : Nat) (hm : m < 8) (hr : r < 2) (hf : f < 16) (hrow : row < 256) (ha : a < 512) (hc : cnt < 128) (hfn : fn < 2 ^ 16) :
    let w := m * 2 ^ 45 + r * 2 ^ 44 + f * 2 ^ 40 + row * 2 ^ 32 + a * 2 ^ 23 + cnt * 2 ^ 16 + fn
    w < 2 ^ 48 ∧ fld w 45 3 = m ∧ w / 2 ^ 44 % 2 = r ∧ fld w 40 4 = f ∧ fld w 32 8 = row ∧ fld w 23 9 = a ∧ fld w 16 7 = cnt ∧ fld w 0 16 = fn := by
  unfold fld
  simp only
  refine ⟨?_, ?_, ?_, ?_, ?_, ?_, ?_, ?_⟩ <;> omega

/-! The fields of a whole word. -/

theorem fmtV_fields (op : Nat) (c : Com) (d a b cc t r v : Nat) (h1 : op < 256) (h2 : c.guard < 16) (hd : d < 512) (ha : a < 512) (hb : b < 512)
    (hc : cc < 512) (ht : t < 16) (hr : r < 8) (hv : v < 32) :
    let w := fmtV op c d a b cc t r v
    fld w 56 8 = op ∧ bit w 48 = false ∧ Dec.com w = c ∧ Dec.fD w = d ∧ Dec.fA w = a ∧ Dec.fB w = b ∧ Dec.fC w = cc ∧ Dec.vTy w = t ∧
      Dec.vRnd w = r ∧ Dec.vVar w = v := by
  obtain ⟨hw, q⟩ := fmtV_low d a b cc t r v hd ha hb hc ht hr hv
  have e : fmtV op c d a b cc t r v = com op c + (d * 2 ^ 39 + a * 2 ^ 30 + b * 2 ^ 21 + cc * 2 ^ 12 + t * 2 ^ 8 + r * 2 ^ 5 + v) := by
    unfold fmtV; omega
  obtain ⟨p1, p2, p3⟩ := head_fields op c _ h1 h2 hw
  obtain ⟨l1, l2⟩ := low_fields op c _ h1 h2 hw
  simp only [e, Dec.fD, Dec.fA, Dec.fB, Dec.fC, Dec.vTy, Dec.vRnd, Dec.vVar]
  refine ⟨p1, p2, p3, ?_, ?_, ?_, ?_, ?_, ?_, ?_⟩ <;> rw [l1 _ _ (by decide)]
  · exact q.1
  · exact q.2.1
  · exact q.2.2.1
  · exact q.2.2.2.1
  · exact q.2.2.2.2.1
  · exact q.2.2.2.2.2.1
  · exact q.2.2.2.2.2.2

theorem fmtS_fields (op : Nat) (c : Com) (d a b m : Nat) (h1 : op < 256) (h2 : c.guard < 16) (hd : d < 512) (ha : a < 512) (hb : b < 512) (hm : m < 2 ^ 21) :
    let w := fmtS op c d a b m
    fld w 56 8 = op ∧ bit w 48 = false ∧ Dec.com w = c ∧ Dec.fD w = d ∧ Dec.fA w = a ∧ Dec.fB w = b ∧ Dec.imm w = m ∧
      (∀ lo n, lo + n ≤ 21 → fld w lo n = fld m lo n) ∧ ∀ i, i < 21 → bit w i = bit m i := by
  obtain ⟨hw, q⟩ := fmtS_low d a b m hd ha hb hm
  have e : fmtS op c d a b m = com op c + (d * 2 ^ 39 + a * 2 ^ 30 + b * 2 ^ 21 + m) := by
    unfold fmtS; omega
  obtain ⟨p1, p2, p3⟩ := head_fields op c _ h1 h2 hw
  obtain ⟨l1, l2⟩ := low_fields op c _ h1 h2 hw
  have hsub : (d * 2 ^ 39 + a * 2 ^ 30 + b * 2 ^ 21 + m) % 2 ^ 21 = m := by omega
  simp only [e, Dec.fD, Dec.fA, Dec.fB, Dec.imm]
  refine ⟨p1, p2, p3, ?_, ?_, ?_, ?_, ?_, ?_⟩
  · rw [l1 _ _ (by decide)]; exact q.1
  · rw [l1 _ _ (by decide)]; exact q.2.1
  · rw [l1 _ _ (by decide)]; exact q.2.2.1
  · rw [l1 _ _ (by decide)]; exact q.2.2.2
  · intro lo n h
    rw [l1 lo n (by omega)]
    have : fld (d * 2 ^ 39 + a * 2 ^ 30 + b * 2 ^ 21 + m) lo n = fld ((d * 2 ^ 39 + a * 2 ^ 30 + b * 2 ^ 21 + m) % 2 ^ 21) lo n := by
      unfold fld
      apply Nat.eq_of_testBit_eq
      intro j
      simp only [Nat.testBit_mod_two_pow, Nat.testBit_div_two_pow]
      by_cases hj : j < n
      · have : lo + j < 21 := by omega
        simp [hj, Nat.add_comm, this]
      · simp [hj]
    rw [this, hsub]
  · intro i h
    rw [l2 i (by omega)]
    unfold bit
    have : (d * 2 ^ 39 + a * 2 ^ 30 + b * 2 ^ 21 + m) / 2 ^ i % 2 = ((d * 2 ^ 39 + a * 2 ^ 30 + b * 2 ^ 21 + m) % 2 ^ 21) / 2 ^ i % 2 := by
      have e1 := Nat.toNat_testBit (d * 2 ^ 39 + a * 2 ^ 30 + b * 2 ^ 21 + m) i
      have e2 := Nat.toNat_testBit ((d * 2 ^ 39 + a * 2 ^ 30 + b * 2 ^ 21 + m) % 2 ^ 21) i
      rw [← e1, ← e2, Nat.testBit_mod_two_pow]
      simp [h]
    rw [this, hsub]

theorem fmtM_fields (op : Nat) (c : Com) (t x e b sz od sc fn : Nat) (h1 : op < 256) (h2 : c.guard < 16) (ht : t < 512) (hx : x < 512) (he : e < 512)
    (hb : b < 32) (hz : sz < 8) (ho : od < 4) (hs : sc < 8) (hf : fn < 256) :
    let w := fmtM op c t x e b sz od sc fn
    fld w 56 8 = op ∧ bit w 48 = false ∧ Dec.com w = c ∧ Dec.fD w = t ∧ Dec.fA w = x ∧ Dec.fB w = e ∧ Dec.mB w = b ∧ Dec.mSz w = sz ∧
      Dec.mOrd w = od ∧ Dec.mSc w = sc ∧ Dec.mFn w = fn ∧
      (∀ lo n, lo + n ≤ 8 → fld w lo n = fld fn lo n) ∧ (∀ i, i < 8 → bit w i = bit fn i) := by
  obtain ⟨hw, q⟩ := fmtM_low t x e b sz od sc fn ht hx he hb hz ho hs hf
  have ee : fmtM op c t x e b sz od sc fn = com op c + (t * 2 ^ 39 + x * 2 ^ 30 + e * 2 ^ 21 + b * 2 ^ 16 + sz * 2 ^ 13 + od * 2 ^ 11 + sc * 2 ^ 8 + fn) := by
    unfold fmtM; omega
  obtain ⟨p1, p2, p3⟩ := head_fields op c _ h1 h2 hw
  obtain ⟨l1, l2⟩ := low_fields op c _ h1 h2 hw
  have hsub : (t * 2 ^ 39 + x * 2 ^ 30 + e * 2 ^ 21 + b * 2 ^ 16 + sz * 2 ^ 13 + od * 2 ^ 11 + sc * 2 ^ 8 + fn) % 2 ^ 8 = fn := by omega
  simp only [ee, Dec.fD, Dec.fA, Dec.fB, Dec.mB, Dec.mSz, Dec.mOrd, Dec.mSc, Dec.mFn]
  generalize t * 2 ^ 39 + x * 2 ^ 30 + e * 2 ^ 21 + b * 2 ^ 16 + sz * 2 ^ 13 + od * 2 ^ 11 + sc * 2 ^ 8 + fn = r at *
  refine ⟨p1, p2, p3, ?_, ?_, ?_, ?_, ?_, ?_, ?_, ?_, ?_, ?_⟩
  · rw [l1 _ _ (by decide)]; exact q.1
  · rw [l1 _ _ (by decide)]; exact q.2.1
  · rw [l1 _ _ (by decide)]; exact q.2.2.1
  · rw [l1 _ _ (by decide)]; exact q.2.2.2.1
  · rw [l1 _ _ (by decide)]; exact q.2.2.2.2.1
  · rw [l1 _ _ (by decide)]; exact q.2.2.2.2.2.1
  · rw [l1 _ _ (by decide)]; exact q.2.2.2.2.2.2.1
  · rw [l1 _ _ (by decide)]; exact q.2.2.2.2.2.2.2
  · intro lo n h
    rw [l1 lo n (by omega)]
    have : fld r lo n = fld (r % 2 ^ 8) lo n := by
      unfold fld
      apply Nat.eq_of_testBit_eq
      intro j
      simp only [Nat.testBit_mod_two_pow, Nat.testBit_div_two_pow]
      by_cases hj : j < n
      · have : lo + j < 8 := by omega
        simp [hj, Nat.add_comm, this]
      · simp [hj]
    rw [this, hsub]
  · intro i h
    rw [l2 i (by omega)]
    unfold bit
    have : r / 2 ^ i % 2 = (r % 2 ^ 8) / 2 ^ i % 2 := by
      have e1 := Nat.toNat_testBit r i
      have e2 := Nat.toNat_testBit (r % 2 ^ 8) i
      rw [← e1, ← e2, Nat.testBit_mod_two_pow]
      simp [h]
    rw [this, hsub]

theorem fmtG_fields (op : Nat) (c : Com) (t : Nat) (x : GIndex) (b sz : Nat) (sg : Bool) (h1 : op < 256) (h2 : c.guard < 16) (ht : t < 512) (hx : src x.x < 512)
    (hb : b < 32) (hz : sz < 8) (hi : x.iw < 4) (hs : x.scl < 8) (hl : x.sel < 8) :
    let w := fmtG op c t x b sz sg
    fld w 56 8 = op ∧ bit w 48 = false ∧ Dec.com w = c ∧ Dec.fD w = t ∧ Dec.fA w = src x.x ∧ fld w 25 5 = b ∧ fld w 22 3 = sz ∧ fld w 20 2 = x.iw ∧
      bit w 19 = x.sg ∧ fld w 16 3 = x.scl ∧ fld w 13 3 = x.sel ∧ bit w 12 = sg ∧ fld w 0 12 = 0 := by
  obtain ⟨hw, q⟩ := fmtG_low t (src x.x) b sz x.iw (b2n x.sg) x.scl x.sel (b2n sg) ht hx hb hz hi (b2n_lt _) hs hl (b2n_lt _)
  have ee : fmtG op c t x b sz sg = com op c + (t * 2 ^ 39 + src x.x * 2 ^ 30 + b * 2 ^ 25 + sz * 2 ^ 22 + x.iw * 2 ^ 20 + b2n x.sg * 2 ^ 19 + x.scl * 2 ^ 16 + x.sel * 2 ^ 13 + b2n sg * 2 ^ 12) := by
    unfold fmtG; omega
  obtain ⟨p1, p2, p3⟩ := head_fields op c _ h1 h2 hw
  obtain ⟨l1, l2⟩ := low_fields op c _ h1 h2 hw
  simp only [ee, Dec.fD, Dec.fA]
  generalize t * 2 ^ 39 + src x.x * 2 ^ 30 + b * 2 ^ 25 + sz * 2 ^ 22 + x.iw * 2 ^ 20 + b2n x.sg * 2 ^ 19 + x.scl * 2 ^ 16 + x.sel * 2 ^ 13 + b2n sg * 2 ^ 12 = r at *
  refine ⟨p1, p2, p3, ?_, ?_, ?_, ?_, ?_, ?_, ?_, ?_, ?_, ?_⟩
  · rw [l1 _ _ (by decide)]; exact q.1
  · rw [l1 _ _ (by decide)]; exact q.2.1
  · rw [l1 _ _ (by decide)]; exact q.2.2.1
  · rw [l1 _ _ (by decide)]; exact q.2.2.2.1
  · rw [l1 _ _ (by decide)]; exact q.2.2.2.2.1
  · rw [l2 _ (by decide)]; unfold bit; rw [q.2.2.2.2.2.1, b2n_beq]
  · rw [l1 _ _ (by decide)]; exact q.2.2.2.2.2.2.1
  · rw [l1 _ _ (by decide)]; exact q.2.2.2.2.2.2.2.1
  · rw [l2 _ (by decide)]; unfold bit; rw [q.2.2.2.2.2.2.2.2.1, b2n_beq]
  · rw [l1 _ _ (by decide)]; exact q.2.2.2.2.2.2.2.2.2

theorem fmtB_fields (op : Nat) (c : Com) (off : Int) (a : Nat) (h1 : op < 256) (h2 : c.guard < 16) (ha : a < 512) :
    let w := fmtB op c off a
    fld w 56 8 = op ∧ bit w 48 = false ∧ Dec.com w = c ∧ fld w 24 24 = low 24 off ∧ Dec.bA w = a ∧ Dec.bFn w = 0 := by
  have ho : low 24 off < 2 ^ 24 := by unfold low; omega
  obtain ⟨hw, q⟩ := fmtB_low (low 24 off) a ho ha
  have ee : fmtB op c off a = com op c + (low 24 off * 2 ^ 24 + a * 2 ^ 15) := by
    unfold fmtB; omega
  obtain ⟨p1, p2, p3⟩ := head_fields op c _ h1 h2 hw
  obtain ⟨l1, l2⟩ := low_fields op c _ h1 h2 hw
  simp only [ee, Dec.bA, Dec.bFn]
  refine ⟨p1, p2, p3, ?_, ?_, ?_⟩ <;> rw [l1 _ _ (by decide)]
  · exact q.1
  · exact q.2.1
  · exact q.2.2

theorem fmtX_fields (op : Nat) (c : Com) (m : Nat) (arr : Bool) (f row a cnt fn : Nat) (h1 : op < 256) (h2 : c.guard < 16) (hm : m < 8) (hf : f < 16)
    (hrow : row < 256) (ha : a < 512) (hc : cnt < 128) (hfn : fn < 2 ^ 16) :
    let w := fmtX op c m arr f row a cnt fn
    fld w 56 8 = op ∧ bit w 48 = false ∧ Dec.com w = c ∧ Dec.xM w = m ∧ Dec.xArr w = arr ∧ Dec.xFmt w = f ∧ Dec.xRow w = row ∧ Dec.xA w = a ∧
      Dec.xCnt w = cnt ∧ Dec.xFn w = fn ∧ (∀ i, i < 16 → bit w i = bit fn i) := by
  obtain ⟨hw, q⟩ := fmtX_low m (b2n arr) f row a cnt fn hm (b2n_lt _) hf hrow ha hc hfn
  have ee : fmtX op c m arr f row a cnt fn = com op c + (m * 2 ^ 45 + b2n arr * 2 ^ 44 + f * 2 ^ 40 + row * 2 ^ 32 + a * 2 ^ 23 + cnt * 2 ^ 16 + fn) := by
    unfold fmtX; omega
  obtain ⟨p1, p2, p3⟩ := head_fields op c _ h1 h2 hw
  obtain ⟨l1, l2⟩ := low_fields op c _ h1 h2 hw
  have hsub : (m * 2 ^ 45 + b2n arr * 2 ^ 44 + f * 2 ^ 40 + row * 2 ^ 32 + a * 2 ^ 23 + cnt * 2 ^ 16 + fn) % 2 ^ 16 = fn := by omega
  simp only [ee, Dec.xM, Dec.xArr, Dec.xFmt, Dec.xRow, Dec.xA, Dec.xCnt, Dec.xFn]
  generalize m * 2 ^ 45 + b2n arr * 2 ^ 44 + f * 2 ^ 40 + row * 2 ^ 32 + a * 2 ^ 23 + cnt * 2 ^ 16 + fn = r at *
  refine ⟨p1, p2, p3, ?_, ?_, ?_, ?_, ?_, ?_, ?_, ?_⟩
  · rw [l1 _ _ (by decide)]; exact q.1
  · rw [l2 _ (by decide)]; unfold bit; rw [q.2.1, b2n_beq]
  · rw [l1 _ _ (by decide)]; exact q.2.2.1
  · rw [l1 _ _ (by decide)]; exact q.2.2.2.1
  · rw [l1 _ _ (by decide)]; exact q.2.2.2.2.1
  · rw [l1 _ _ (by decide)]; exact q.2.2.2.2.2.1
  · rw [l1 _ _ (by decide)]; exact q.2.2.2.2.2.2
  · intro i h
    rw [l2 i (by omega)]
    unfold bit
    have : r / 2 ^ i % 2 = (r % 2 ^ 16) / 2 ^ i % 2 := by
      have e1 := Nat.toNat_testBit r i
      have e2 := Nat.toNat_testBit (r % 2 ^ 16) i
      rw [← e1, ← e2, Nat.testBit_mod_two_pow]
      simp [h]
    rw [this, hsub]

/-! Operands. -/

theorem src_v {n : Nat} (h : n < 320) : Dec.src n = some (.v n) := by unfold Dec.src; rw [if_pos h]
theorem src_k {n : Nat} (h : n < 64) : Dec.src (320 + n) = some (.k n) := by
  unfold Dec.src; rw [if_neg (by omega), if_pos (by omega), Nat.add_sub_cancel_left]
theorem src_inl {n : Nat} (h : n < 64) : Dec.src (384 + n) = some (.inl n) := by
  unfold Dec.src; rw [if_neg (by omega), if_neg (by omega), if_pos (by omega), Nat.add_sub_cancel_left]

theorem src_ok {w : Bool} {a : Src} (h : Wf.read w a = true) : src a < 512 ∧ Dec.src (src a) = some a := by
  cases a with
  | v n =>
    have hn : n < 320 := by
      simp only [Wf.read, Wf.src] at h
      split at h <;> simp at h <;> omega
    exact ⟨show n < 512 by omega, src_v hn⟩
  | k n =>
    have hn : n < 64 := by simpa [Wf.read, Wf.src] using h
    exact ⟨show 320 + n < 512 by omega, src_k hn⟩
  | inl n =>
    have hn : n < 64 := by simpa [Wf.read, Wf.src] using h
    exact ⟨show 384 + n < 512 by omega, src_inl hn⟩
  | sp x =>
    cases x with
    | lvix i =>
      have hi : i < 8 := by simpa [Wf.read, Wf.src] using h
      match i, hi with
      | 0, _ | 1, _ | 2, _ | 3, _ | 4, _ | 5, _ | 6, _ | 7, _ => exact ⟨by decide, by decide⟩
    | _ => exact ⟨by decide, by decide⟩
  | none => exact ⟨by decide, by decide⟩

theorem src_ok' {w : Bool} {a : Src} (h : Wf.src w a = true) : src a < 511 ∧ Dec.src (src a) = some a := by
  have h' : Wf.read w a = true := by cases a <;> first | exact h | rfl
  refine ⟨?_, (src_ok h').2⟩
  have := (src_ok h').1
  cases a with
  | v n =>
    have hn : n < 320 := by
      simp only [Wf.src] at h
      split at h <;> simp at h <;> omega
    simp only [src]; omega
  | k n =>
    have hn : n < 64 := by simpa [Wf.src] using h
    simp only [src]; omega
  | inl n =>
    have hn : n < 64 := by simpa [Wf.src] using h
    simp only [src]; omega
  | sp x =>
    cases x with
    | lvix i =>
      have hi : i < 8 := by simpa [Wf.src] using h
      simp only [src, special]; omega
    | _ => exact by decide
  | none => simp [Wf.src] at h

theorem addr_ok {a : Src} (h : Wf.addr a = true) : src a < 512 ∧ Dec.src (src a) = some a := by
  cases a with
  | v n => exact src_ok (w := true) (by simpa [Wf.read, Wf.src, Wf.addr] using h)
  | k n => exact src_ok (w := true) (by simpa [Wf.read, Wf.src, Wf.addr] using h)
  | _ => simp [Wf.addr] at h

theorem dst_v {n : Nat} (h : n < 320) : Dec.dst n = some (.v n) := by unfold Dec.dst; rw [if_pos h]
theorem dst_k {n : Nat} (h : n < 64) : Dec.dst (320 + n) = some (.k n) := by
  unfold Dec.dst; rw [if_neg (by omega), if_pos (by omega), Nat.add_sub_cancel_left]

theorem dst_ok {w : Bool} {d : Dst} (h : Wf.dst w d = true) : dst d < 384 ∧ Dec.dst (dst d) = some d := by
  cases d with
  | v n =>
    have hn : n < 320 := by
      simp only [Wf.dst] at h
      split at h <;> simp at h <;> omega
    exact ⟨show n < 384 by omega, dst_v hn⟩
  | k n =>
    have hn : n < 64 := by simpa [Wf.dst] using h
    exact ⟨show 320 + n < 384 by omega, dst_k hn⟩

theorem srcOpt_ok {w : Bool} {a : Option Src} (h : Wf.opt (Wf.src w) a = true) : srcOpt a < 512 ∧ Dec.srcOpt (srcOpt a) = some a := by
  cases a with
  | none => exact ⟨by decide, by decide⟩
  | some a =>
    obtain ⟨h1, h2⟩ := src_ok' (show Wf.src w a = true from h)
    refine ⟨show src a < 512 by omega, ?_⟩
    show Dec.srcOpt (src a) = some (some a)
    unfold Dec.srcOpt
    rw [if_neg (by omega), h2]
    rfl

theorem dstOpt_ok {w : Bool} {a : Option Dst} (h : Wf.opt (Wf.dst w) a = true) : dstOpt a < 512 ∧ Dec.dstOpt (dstOpt a) = some a := by
  cases a with
  | none => exact ⟨by decide, by decide⟩
  | some a =>
    obtain ⟨h1, h2⟩ := dst_ok (show Wf.dst w a = true from h)
    refine ⟨show dst a < 512 by omega, ?_⟩
    show Dec.dstOpt (dst a) = some (some a)
    unfold Dec.dstOpt
    rw [if_neg (by omega), h2]
    rfl

theorem ps_ok {p : PSrc} (h : Wf.ps p = true) : ps p < 14 ∧ Dec.ps (ps p) = some p := by
  cases p with
  | p n =>
    have hn : n < 12 := by simpa [Wf.ps] using h
    refine ⟨show n < 14 by omega, ?_⟩
    show Dec.ps n = some (.p n)
    unfold Dec.ps
    rw [if_pos hn]
  | _ => exact ⟨by decide, by decide⟩

theorem psOpt_ok {p : Option PSrc} (h : Wf.opt Wf.ps p = true) : psOpt p < 512 ∧ Dec.psOpt (psOpt p) = some p := by
  cases p with
  | none => exact ⟨by decide, by decide⟩
  | some p =>
    obtain ⟨h1, h2⟩ := ps_ok (show Wf.ps p = true from h)
    refine ⟨show ps p < 512 by omega, ?_⟩
    show Dec.psOpt (ps p) = some (some p)
    unfold Dec.psOpt
    rw [if_neg (by omega), h2]
    rfl

theorem pdOpt_ok {p : Option Nat} (h : Wf.opt Wf.pd p = true) : pdOpt p < 512 ∧ Dec.pdOpt (pdOpt p) = some p := by
  cases p with
  | none => exact ⟨by decide, by decide⟩
  | some p =>
    have hn : p < 12 := by simpa [Wf.opt, Wf.pd] using h
    refine ⟨show p < 512 by omega, ?_⟩
    show Dec.pdOpt p = some (some p)
    unfold Dec.pdOpt
    rw [if_neg (by omega), if_pos hn]

theorem rand_ok {r : Rnd} {a : Option Src} (h : Wf.random r a = true) : srcOpt a < 512 ∧ Dec.rand r (srcOpt a) = some a := by
  cases a with
  | none =>
    have : r ≠ .rs := by simpa [Wf.random] using h
    exact ⟨by decide, by simp [Dec.rand, srcOpt, this]⟩
  | some a =>
    simp only [Wf.random, Bool.and_eq_true, decide_eq_true_eq] at h
    obtain ⟨h1, h2⟩ := src_ok h.2
    exact ⟨h1, by simp [Dec.rand, srcOpt, h.1, h2]⟩

theorem ty_ok (t : Ty) : ty t < 10 ∧ Dec.ty (ty t) = some t := by cases t <;> decide
theorem rnd_ok (r : Rnd) : rnd r < 5 ∧ Dec.rnd (rnd r) = some r := by cases r <;> decide
theorem cmp_ok (x : Cmp) : cmp x < 8 ∧ Dec.cmp (cmp x) = some x := by cases x <;> decide
theorem logOp_ok (x : LogOp) : logOp x < 10 ∧ Dec.logOp (logOp x) = some x := by cases x <;> decide
theorem redOp_ok (x : RedOp) : redOp x < 6 ∧ Dec.redOp (redOp x) = some x := by cases x <;> decide
theorem shflMode_ok (x : ShflMode) : shflMode x < 4 ∧ Dec.shflMode (shflMode x) = some x := by cases x <;> decide
theorem mulMode_ok (x : MulMode) : mulMode x < 3 ∧ Dec.mulMode (mulMode x) = some x := by cases x <;> decide
theorem signOp_ok (x : SignOp) : signOp x < 4 ∧ Dec.signOp (signOp x) = some x := by cases x <;> decide
theorem mnxOp_ok (x : MnxOp) : mnxOp x < 4 ∧ Dec.mnxOp (mnxOp x) = some x := by cases x <;> decide
theorem atomOp_ok (x : AtomOp) : atomOp x < 9 ∧ Dec.atomOp (atomOp x) = some x := by cases x <;> decide
theorem atomKind_ok (x : AtomKind) : atomKind x < 3 ∧ Dec.atomKind (atomKind x) = some x := by cases x <;> decide
theorem order_ok (x : Order) : order x < 4 ∧ Dec.order (order x) = some x := by cases x <;> decide
theorem scope_ok (x : Scope) : x.code < 5 ∧ Dec.scope x.code = some x := by cases x <;> decide
theorem fenceKind_ok (x : FenceKind) : fenceKind x < 3 ∧ Dec.fenceKind (fenceKind x) = some x := by cases x <;> decide
theorem waitCmp_ok (x : WaitCmp) : waitCmp x < 4 ∧ Dec.waitCmp (waitCmp x) = some x := by cases x <;> decide
theorem stage_ok (x : Stage) : stage x < 3 ∧ Dec.stage (stage x) = some x := by cases x <;> decide
theorem mfmt_ok (x : MFmt) : mfmt x < 6 ∧ Dec.mfmt (mfmt x) = some x := by cases x <;> decide
theorem watchKind_ok (x : WatchKind) : watchKind x < 4 ∧ Dec.watchKind (watchKind x) = some x := by cases x <;> decide
theorem flag1_ok (b : Bool) : b2n b < 2 ∧ Dec.flag1 (b2n b) = some b := by cases b <;> decide

theorem com_ok {l : Bool} {c : Com} (h : Wf.com l c = true) : c.guard < 16 := by
  simp [Wf.com] at h
  omega

theorem data_ok {sz n : Nat} (h : Wf.data sz n = true) : n < 320 := by
  unfold Wf.data at h
  split at h
  · simpa using h
  · split at h <;> simp at h <;> omega

theorem sign_ok {sg : Bool} {sz : Nat} (h : Wf.sign sg sz = true) : sz ≤ 4 := by
  simp [Wf.sign] at h
  exact h.1

theorem syncSz_ok {sz : Nat} {sc : Scope} (h : Wf.syncSz sz sc = true) : sz = 2 ∨ sz = 3 := by
  simp [Wf.syncSz] at h
  omega

theorem atomSz_ok {op : AtomOp} {kind : AtomKind} {sz : Nat} (h : Wf.atomKind op kind sz = true) : sz = 2 ∨ sz = 3 := by
  simp only [Wf.atomKind, Bool.and_eq_true, Bool.or_eq_true, beq_iff_eq] at h
  exact h.1.1

theorem int_ok {z : Int} (h : Wf.int 24 z = true) : sext (low 24 z) 24 = z := by
  simp [Wf.int] at h
  unfold sext low
  split <;> omega

theorem low_zero : low 24 0 = 0 := rfl
theorem kreg_add (n : Nat) (h : n < 64) : Dec.kreg (320 + n) = some n := by
  unfold Dec.kreg; rw [if_pos (by omega), Nat.add_sub_cancel_left]
theorem rnd0 : Dec.rnd 0 = some .rn := rfl
theorem ty1 : Dec.ty 1 = some .n32 := by decide
theorem ty4 : Dec.ty 4 = some .f32 := by decide
theorem ty5 : Dec.ty 5 = some .bf16 := by decide
theorem bit00 : bit 0 0 = false := by decide
theorem bit10 : bit 1 0 = true := by decide
theorem bit3_ok (v : Nat) (b : Bool) (h : v < 8) : bit (v + 8 * b2n b) 3 = b := by
  unfold bit; cases b
  · rw [show (v + 8 * b2n false) / 2 ^ 3 % 2 = 0 by show (v + 8 * 0) / 8 % 2 = 0; omega]; rfl
  · rw [show (v + 8 * b2n true) / 2 ^ 3 % 2 = 1 by show (v + 8 * 1) / 8 % 2 = 1; omega]; rfl
theorem bit2_ok (v : Nat) (b d : Bool) (h : v < 4) : bit (v + 4 * b2n b + 8 * b2n d) 2 = b ∧ bit (v + 4 * b2n b + 8 * b2n d) 3 = d ∧
    (v + 4 * b2n b + 8 * b2n d) % 4 = v ∧ v + 4 * b2n b + 8 * b2n d < 16 := by
  have h2 : v = 0 ∨ v = 1 ∨ v = 2 ∨ v = 3 := by omega
  rcases h2 with rfl | rfl | rfl | rfl <;> cases b <;> cases d <;> decide
theorem gindex_ok {x : GIndex} (h : Wf.gindex x = true) : x.iw < 4 ∧ x.scl < 8 ∧ x.sel < 8 ∧ src x.x < 512 ∧ Dec.src (src x.x) = some x.x := by
  unfold Wf.gindex at h
  simp only [Bool.and_eq_true, decide_eq_true_eq] at h
  obtain ⟨⟨⟨h1, h2⟩, h3⟩, h4⟩ := h
  have h5 : src x.x < 512 ∧ Dec.src (src x.x) = some x.x := by
    split at h4
    · exact addr_ok h4
    · exact src_ok h4
  refine ⟨h1, h2, ?_, h5⟩
  split at h3
  · omega
  · split at h3 <;> omega
theorem scale_ok {t : Ty} {sc : Scale} (h : Wf.scale t sc = true) : scaleB sc < 512 ∧ scaleV sc < 8 ∧
    ∀ w, Dec.fB w = scaleB sc → fld w 0 5 % 8 = scaleV sc → Dec.scale t w = some sc := by
  have hf : ∀ w, fld w 0 3 = fld w 0 5 % 8 ∧ fld w 0 2 = fld w 0 5 % 8 % 4 ∧ bit w 2 = (fld w 0 5 % 8 / 4 == 1) := by
    intro w
    unfold bit
    have h1 : w / 2 ^ 2 % 2 = fld w 0 5 % 8 / 4 := by unfold fld; omega
    rw [h1]
    unfold fld
    exact ⟨by omega, by omega, rfl⟩
  cases sc with
  | none =>
    have hc : t ≠ .c4 := by simpa [Wf.scale] using h
    refine ⟨by decide, by decide, fun w h1 h2 => ?_⟩
    unfold Dec.scale
    obtain ⟨e1, e2, e3⟩ := hf w
    rw [e1, e3, h1, h2]
    simp [hc, scaleV, scaleB, Dec.need]
  | byte r n =>
    simp only [Wf.scale, Bool.and_eq_true, decide_eq_true_eq] at h
    obtain ⟨⟨hc, hr⟩, hn⟩ := h
    have hd := dst_ok hr
    refine ⟨by show dst r < 512; omega, by show 4 + n < 8; omega, fun w h1 h2 => ?_⟩
    unfold Dec.scale
    obtain ⟨e1, e2, e3⟩ := hf w
    rw [e2, e3, h1, h2]
    have h3 : (4 + n) / 4 = 1 := by omega
    have h4 : (4 + n) % 4 = n := by omega
    simp [hc, scaleV, scaleB, h3, h4, hd.2]
  | book k =>
    simp only [Wf.scale, Bool.and_eq_true, decide_eq_true_eq] at h
    obtain ⟨⟨hc, hr⟩, hn⟩ := h
    refine ⟨by show 320 + k < 512; omega, by show 0 < 8; omega, fun w h1 h2 => ?_⟩
    unfold Dec.scale
    obtain ⟨e1, e2, e3⟩ := hf w
    rw [e1, h1, h2]
    simp [hc, scaleV, scaleB, Dec.need, kreg_add k hn]

/-- A decoded word. -/
theorem decode_of {w : Nat} {i : Instr} {op : Nat} (h1 : fld w 56 8 = op) (h2 : Dec.assigned op = true) (h3 : bit w 48 = false) (h4 : Dec.parse w = some i)
    (h5 : i.wf = true) : decode w = .ok i := by
  unfold decode
  have h6 : fld w 60 4 ≠ 15 := by
    intro hc
    have : op = 240 ∨ op = 241 ∨ op = 242 ∨ op = 243 ∨ op = 244 ∨ op = 245 ∨ op = 246 ∨ op = 247 ∨ op = 248 ∨ op = 249 ∨ op = 250 ∨ op = 251 ∨ op = 252 ∨
        op = 253 ∨ op = 254 ∨ op = 255 := by
      unfold fld at *
      omega
    rcases this with h | h | h | h | h | h | h | h | h | h | h | h | h | h | h | h <;> subst h <;> cases h2
  rw [if_neg h6, h1, if_neg (by rw [h2]; simp), if_neg (by rw [h3]; simp), h4]
  simp only [h5, if_true]

end Sys2Proof.Enc
end

