-- ==== Sys2Proof/Laws/Exec.lean ====
section
/-! SUPPORT. Each arm of `exec` as an equation, so that no proof unfolds the whole match. -/

namespace Sys2Proof.Machine

theorem exec_nop (s : State) (a0 : _) : exec (.nop a0) s = execNop a0 s := rfl
theorem exec_bra (s : State) (a0 : _) (a1 : _) : exec (.bra a0 a1) s = execBra a0 a1 s := rfl
theorem exec_brx (s : State) (a0 : _) (a1 : _) : exec (.brx a0 a1) s = execBrx a0 a1 s := rfl
theorem exec_call (s : State) (a0 : _) (a1 : _) (a2 : _) : exec (.call a0 a1 a2) s = execCall a0 a1 a2 s := rfl
theorem exec_callx (s : State) (a0 : _) (a1 : _) : exec (.callx a0 a1) s = execCallx a0 a1 s := rfl
theorem exec_ret (s : State) (a0 : _) (a1 : _) : exec (.ret a0 a1) s = execRet a0 a1 s := rfl
theorem exec_exit (s : State) (a0 : _) : exec (.exit a0) s = execExit a0 s := rfl
theorem exec_yield (s : State) (a0 : _) : exec (.yield a0) s = execYield a0 s := rfl
theorem exec_waitf (s : State) (a0 : _) (a1 : _) : exec (.waitf a0 a1) s = execWaitf a0 a1 s := rfl
theorem exec_trap (s : State) (a0 : _) (a1 : _) (a2 : _) : exec (.trap a0 a1 a2) s = execTrap a0 a1 a2 s := rfl
theorem exec_pset (s : State) (a0 : _) (a1 : _) (a2 : _) (a3 : _) (a4 : _) (a5 : _) : exec (.pset a0 a1 a2 a3 a4 a5) s = execPset a0 a1 a2 a3 a4 a5 s := rfl
theorem exec_psetfFrom (s : State) (a0 : _) (a1 : _) (a2 : _) : exec (.psetfFrom a0 a1 a2) s = execPsetfFrom a0 a1 a2 s := rfl
theorem exec_psetfTo (s : State) (a0 : _) (a1 : _) : exec (.psetfTo a0 a1) s = execPsetfTo a0 a1 s := rfl
theorem exec_plog (s : State) (a0 : _) (a1 : _) (a2 : _) (a3 : _) (a4 : _) (a5 : _) : exec (.plog a0 a1 a2 a3 a4 a5) s = execPlog a0 a1 a2 a3 a4 a5 s := rfl
theorem exec_vote (s : State) (a0 : _) (a1 : _) (a2 : _) : exec (.vote a0 a1 a2) s = execVote a0 a1 a2 s := rfl
theorem exec_shfl (s : State) (a0 : _) (a1 : _) (a2 : _) (a3 : _) (a4 : _) (a5 : _) (a6 : _) : exec (.shfl a0 a1 a2 a3 a4 a5 a6) s = execShfl a0 a1 a2 a3 a4 a5 a6 s := rfl
theorem exec_hred (s : State) (a0 : _) (a1 : _) (a2 : _) (a3 : _) (a4 : _) (a5 : _) : exec (.hred a0 a1 a2 a3 a4 a5) s = execHred a0 a1 a2 a3 a4 a5 s := rfl
theorem exec_hscan (s : State) (a0 : _) (a1 : _) (a2 : _) (a3 : _) (a4 : _) (a5 : _) (a6 : _) (a7 : _) : exec (.hscan a0 a1 a2 a3 a4 a5 a6 a7) s = execHscan a0 a1 a2 a3 a4 a5 a6 a7 s := rfl
theorem exec_matchv (s : State) (a0 : _) (a1 : _) (a2 : _) (a3 : _) : exec (.matchv a0 a1 a2 a3) s = execMatchv a0 a1 a2 a3 s := rfl
theorem exec_iadd (s : State) (a0 : _) (a1 : _) (a2 : _) (a3 : _) (a4 : _) (a5 : _) : exec (.iadd a0 a1 a2 a3 a4 a5) s = execIadd a0 a1 a2 a3 a4 a5 s := rfl
theorem exec_isub (s : State) (a0 : _) (a1 : _) (a2 : _) (a3 : _) (a4 : _) (a5 : _) : exec (.isub a0 a1 a2 a3 a4 a5) s = execIsub a0 a1 a2 a3 a4 a5 s := rfl
theorem exec_imul (s : State) (a0 : _) (a1 : _) (a2 : _) (a3 : _) (a4 : _) (a5 : _) : exec (.imul a0 a1 a2 a3 a4 a5) s = execImul a0 a1 a2 a3 a4 a5 s := rfl
theorem exec_imad (s : State) (a0 : _) (a1 : _) (a2 : _) (a3 : _) (a4 : _) (a5 : _) (a6 : _) : exec (.imad a0 a1 a2 a3 a4 a5 a6) s = execImad a0 a1 a2 a3 a4 a5 a6 s := rfl
theorem exec_idiv (s : State) (a0 : _) (a1 : _) (a2 : _) (a3 : _) (a4 : _) (a5 : _) : exec (.idiv a0 a1 a2 a3 a4 a5) s = execIdiv a0 a1 a2 a3 a4 a5 s := rfl
theorem exec_imin (s : State) (a0 : _) (a1 : _) (a2 : _) (a3 : _) (a4 : _) : exec (.imin a0 a1 a2 a3 a4) s = execImin a0 a1 a2 a3 a4 s := rfl
theorem exec_imax (s : State) (a0 : _) (a1 : _) (a2 : _) (a3 : _) (a4 : _) : exec (.imax a0 a1 a2 a3 a4) s = execImax a0 a1 a2 a3 a4 s := rfl
theorem exec_iabs (s : State) (a0 : _) (a1 : _) (a2 : _) (a3 : _) (a4 : _) : exec (.iabs a0 a1 a2 a3 a4) s = execIabs a0 a1 a2 a3 a4 s := rfl
theorem exec_and (s : State) (a0 : _) (a1 : _) (a2 : _) (a3 : _) (a4 : _) : exec (.and a0 a1 a2 a3 a4) s = execAnd a0 a1 a2 a3 a4 s := rfl
theorem exec_or (s : State) (a0 : _) (a1 : _) (a2 : _) (a3 : _) (a4 : _) : exec (.or a0 a1 a2 a3 a4) s = execOr a0 a1 a2 a3 a4 s := rfl
theorem exec_xor (s : State) (a0 : _) (a1 : _) (a2 : _) (a3 : _) (a4 : _) : exec (.xor a0 a1 a2 a3 a4) s = execXor a0 a1 a2 a3 a4 s := rfl
theorem exec_shl (s : State) (a0 : _) (a1 : _) (a2 : _) (a3 : _) (a4 : _) (a5 : _) : exec (.shl a0 a1 a2 a3 a4 a5) s = execShl a0 a1 a2 a3 a4 a5 s := rfl
theorem exec_shr (s : State) (a0 : _) (a1 : _) (a2 : _) (a3 : _) (a4 : _) (a5 : _) : exec (.shr a0 a1 a2 a3 a4 a5) s = execShr a0 a1 a2 a3 a4 a5 s := rfl
theorem exec_bfx (s : State) (a0 : _) (a1 : _) (a2 : _) (a3 : _) (a4 : _) : exec (.bfx a0 a1 a2 a3 a4) s = execBfx a0 a1 a2 a3 a4 s := rfl
theorem exec_bfi (s : State) (a0 : _) (a1 : _) (a2 : _) (a3 : _) (a4 : _) (a5 : _) : exec (.bfi a0 a1 a2 a3 a4 a5) s = execBfi a0 a1 a2 a3 a4 a5 s := rfl
theorem exec_popc (s : State) (a0 : _) (a1 : _) (a2 : _) (a3 : _) : exec (.popc a0 a1 a2 a3) s = execPopc a0 a1 a2 a3 s := rfl
theorem exec_clz (s : State) (a0 : _) (a1 : _) (a2 : _) (a3 : _) : exec (.clz a0 a1 a2 a3) s = execClz a0 a1 a2 a3 s := rfl
theorem exec_brev (s : State) (a0 : _) (a1 : _) (a2 : _) (a3 : _) : exec (.brev a0 a1 a2 a3) s = execBrev a0 a1 a2 a3 s := rfl
theorem exec_sel (s : State) (a0 : _) (a1 : _) (a2 : _) (a3 : _) (a4 : _) (a5 : _) : exec (.sel a0 a1 a2 a3 a4 a5) s = execSel a0 a1 a2 a3 a4 a5 s := rfl
theorem exec_mov (s : State) (a0 : _) (a1 : _) (a2 : _) (a3 : _) : exec (.mov a0 a1 a2 a3) s = execMov a0 a1 a2 a3 s := rfl
theorem exec_movi (s : State) (a0 : _) (a1 : _) (a2 : _) (a3 : _) (a4 : _) : exec (.movi a0 a1 a2 a3 a4) s = execMovi a0 a1 a2 a3 a4 s := rfl
theorem exec_addi (s : State) (a0 : _) (a1 : _) (a2 : _) (a3 : _) (a4 : _) (a5 : _) : exec (.addi a0 a1 a2 a3 a4 a5) s = execAddi a0 a1 a2 a3 a4 a5 s := rfl
theorem exec_lea (s : State) (a0 : _) (a1 : _) (a2 : _) (a3 : _) (a4 : _) (a5 : _) : exec (.lea a0 a1 a2 a3 a4 a5) s = execLea a0 a1 a2 a3 a4 a5 s := rfl
theorem exec_bysel (s : State) (a0 : _) (a1 : _) (a2 : _) (a3 : _) (a4 : _) (a5 : _) : exec (.bysel a0 a1 a2 a3 a4 a5) s = execBysel a0 a1 a2 a3 a4 a5 s := rfl
theorem exec_fadd (s : State) (a0 : _) (a1 : _) (a2 : _) (a3 : _) (a4 : _) (a5 : _) (a6 : _) : exec (.fadd a0 a1 a2 a3 a4 a5 a6) s = execFadd a0 a1 a2 a3 a4 a5 a6 s := rfl
theorem exec_fsub (s : State) (a0 : _) (a1 : _) (a2 : _) (a3 : _) (a4 : _) (a5 : _) (a6 : _) : exec (.fsub a0 a1 a2 a3 a4 a5 a6) s = execFsub a0 a1 a2 a3 a4 a5 a6 s := rfl
theorem exec_fmul (s : State) (a0 : _) (a1 : _) (a2 : _) (a3 : _) (a4 : _) (a5 : _) (a6 : _) : exec (.fmul a0 a1 a2 a3 a4 a5 a6) s = execFmul a0 a1 a2 a3 a4 a5 a6 s := rfl
theorem exec_ffma (s : State) (a0 : _) (a1 : _) (a2 : _) (a3 : _) (a4 : _) (a5 : _) (a6 : _) : exec (.ffma a0 a1 a2 a3 a4 a5 a6) s = execFfma a0 a1 a2 a3 a4 a5 a6 s := rfl
theorem exec_fmin (s : State) (a0 : _) (a1 : _) (a2 : _) (a3 : _) (a4 : _) : exec (.fmin a0 a1 a2 a3 a4) s = execFmin a0 a1 a2 a3 a4 s := rfl
theorem exec_fmax (s : State) (a0 : _) (a1 : _) (a2 : _) (a3 : _) (a4 : _) : exec (.fmax a0 a1 a2 a3 a4) s = execFmax a0 a1 a2 a3 a4 s := rfl
theorem exec_fsign (s : State) (a0 : _) (a1 : _) (a2 : _) (a3 : _) (a4 : _) : exec (.fsign a0 a1 a2 a3 a4) s = execFsign a0 a1 a2 a3 a4 s := rfl
theorem exec_frcp (s : State) (a0 : _) (a1 : _) (a2 : _) : exec (.frcp a0 a1 a2) s = execFrcp a0 a1 a2 s := rfl
theorem exec_frsq (s : State) (a0 : _) (a1 : _) (a2 : _) : exec (.frsq a0 a1 a2) s = execFrsq a0 a1 a2 s := rfl
theorem exec_fsqrt (s : State) (a0 : _) (a1 : _) (a2 : _) (a3 : _) (a4 : _) (a5 : _) : exec (.fsqrt a0 a1 a2 a3 a4 a5) s = execFsqrt a0 a1 a2 a3 a4 a5 s := rfl
theorem exec_fdiv (s : State) (a0 : _) (a1 : _) (a2 : _) (a3 : _) (a4 : _) (a5 : _) (a6 : _) : exec (.fdiv a0 a1 a2 a3 a4 a5 a6) s = execFdiv a0 a1 a2 a3 a4 a5 a6 s := rfl
theorem exec_fexp2 (s : State) (a0 : _) (a1 : _) (a2 : _) : exec (.fexp2 a0 a1 a2) s = execFexp2 a0 a1 a2 s := rfl
theorem exec_flog2 (s : State) (a0 : _) (a1 : _) (a2 : _) : exec (.flog2 a0 a1 a2) s = execFlog2 a0 a1 a2 s := rfl
theorem exec_ftanh (s : State) (a0 : _) (a1 : _) (a2 : _) : exec (.ftanh a0 a1 a2) s = execFtanh a0 a1 a2 s := rfl
theorem exec_fclass (s : State) (a0 : _) (a1 : _) (a2 : _) (a3 : _) : exec (.fclass a0 a1 a2 a3) s = execFclass a0 a1 a2 a3 s := rfl
theorem exec_frnd (s : State) (a0 : _) (a1 : _) (a2 : _) (a3 : _) (a4 : _) (a5 : _) : exec (.frnd a0 a1 a2 a3 a4 a5) s = execFrnd a0 a1 a2 a3 a4 a5 s := rfl
theorem exec_pkadd (s : State) (a0 : _) (a1 : _) (a2 : _) (a3 : _) (a4 : _) (a5 : _) (a6 : _) (a7 : _) : exec (.pkadd a0 a1 a2 a3 a4 a5 a6 a7) s = execPkadd a0 a1 a2 a3 a4 a5 a6 a7 s := rfl
theorem exec_pkmul (s : State) (a0 : _) (a1 : _) (a2 : _) (a3 : _) (a4 : _) (a5 : _) (a6 : _) (a7 : _) : exec (.pkmul a0 a1 a2 a3 a4 a5 a6 a7) s = execPkmul a0 a1 a2 a3 a4 a5 a6 a7 s := rfl
theorem exec_pkfma (s : State) (a0 : _) (a1 : _) (a2 : _) (a3 : _) (a4 : _) (a5 : _) (a6 : _) (a7 : _) : exec (.pkfma a0 a1 a2 a3 a4 a5 a6 a7) s = execPkfma a0 a1 a2 a3 a4 a5 a6 a7 s := rfl
theorem exec_pkmnx (s : State) (a0 : _) (a1 : _) (a2 : _) (a3 : _) (a4 : _) (a5 : _) : exec (.pkmnx a0 a1 a2 a3 a4 a5) s = execPkmnx a0 a1 a2 a3 a4 a5 s := rfl
theorem exec_cvti (s : State) (a0 : _) (a1 : _) (a2 : _) (a3 : _) (a4 : _) (a5 : _) (a6 : _) : exec (.cvti a0 a1 a2 a3 a4 a5 a6) s = execCvti a0 a1 a2 a3 a4 a5 a6 s := rfl
theorem exec_cvtf (s : State) (a0 : _) (a1 : _) (a2 : _) (a3 : _) (a4 : _) (a5 : _) (a6 : _) (a7 : _) : exec (.cvtf a0 a1 a2 a3 a4 a5 a6 a7) s = execCvtf a0 a1 a2 a3 a4 a5 a6 a7 s := rfl
theorem exec_pack2 (s : State) (a0 : _) (a1 : _) (a2 : _) (a3 : _) (a4 : _) (a5 : _) (a6 : _) (a7 : _) : exec (.pack2 a0 a1 a2 a3 a4 a5 a6 a7) s = execPack2 a0 a1 a2 a3 a4 a5 a6 a7 s := rfl
theorem exec_pack4 (s : State) (a0 : _) (a1 : _) (a2 : _) (a3 : _) (a4 : _) (a5 : _) (a6 : _) (a7 : _) : exec (.pack4 a0 a1 a2 a3 a4 a5 a6 a7) s = execPack4 a0 a1 a2 a3 a4 a5 a6 a7 s := rfl
theorem exec_pack8 (s : State) (a0 : _) (a1 : _) (a2 : _) (a3 : _) (a4 : _) (a5 : _) (a6 : _) (a7 : _) : exec (.pack8 a0 a1 a2 a3 a4 a5 a6 a7) s = execPack8 a0 a1 a2 a3 a4 a5 a6 a7 s := rfl
theorem exec_unpk2 (s : State) (a0 : _) (a1 : _) (a2 : _) (a3 : _) (a4 : _) (a5 : _) (a6 : _) : exec (.unpk2 a0 a1 a2 a3 a4 a5 a6) s = execUnpk2 a0 a1 a2 a3 a4 a5 a6 s := rfl
theorem exec_unpk4 (s : State) (a0 : _) (a1 : _) (a2 : _) (a3 : _) (a4 : _) (a5 : _) (a6 : _) : exec (.unpk4 a0 a1 a2 a3 a4 a5 a6) s = execUnpk4 a0 a1 a2 a3 a4 a5 a6 s := rfl
theorem exec_unpk8 (s : State) (a0 : _) (a1 : _) (a2 : _) (a3 : _) (a4 : _) (a5 : _) (a6 : _) : exec (.unpk8 a0 a1 a2 a3 a4 a5 a6) s = execUnpk8 a0 a1 a2 a3 a4 a5 a6 s := rfl
theorem exec_scalex (s : State) (a0 : _) (a1 : _) (a2 : _) (a3 : _) (a4 : _) (a5 : _) (a6 : _) (a7 : _) (a8 : _) : exec (.scalex a0 a1 a2 a3 a4 a5 a6 a7 a8) s = execScalex a0 a1 a2 a3 a4 a5 a6 a7 a8 s := rfl
theorem exec_bldMem (s : State) (a0 : _) (a1 : _) (a2 : _) (a3 : _) : exec (.bldMem a0 a1 a2 a3) s = execBldMem a0 a1 a2 a3 s := rfl
theorem exec_bldQ (s : State) (a0 : _) (a1 : _) (a2 : _) (a3 : _) : exec (.bldQ a0 a1 a2 a3) s = execBldQ a0 a1 a2 a3 s := rfl
theorem exec_bldK (s : State) (a0 : _) (a1 : _) (a2 : _) : exec (.bldK a0 a1 a2) s = execBldK a0 a1 a2 s := rfl
theorem exec_bldZero (s : State) (a0 : _) (a1 : _) : exec (.bldZero a0 a1) s = execBldZero a0 a1 s := rfl
theorem exec_bsubOff (s : State) (a0 : _) (a1 : _) (a2 : _) (a3 : _) : exec (.bsubOff a0 a1 a2 a3) s = execBsubOff a0 a1 a2 a3 s := rfl
theorem exec_bsubWin (s : State) (a0 : _) (a1 : _) (a2 : _) (a3 : _) (a4 : _) : exec (.bsubWin a0 a1 a2 a3 a4) s = execBsubWin a0 a1 a2 a3 a4 s := rfl
theorem exec_bsubColour (s : State) (a0 : _) (a1 : _) (a2 : _) (a3 : _) : exec (.bsubColour a0 a1 a2 a3) s = execBsubColour a0 a1 a2 a3 s := rfl
theorem exec_bsubFlags (s : State) (a0 : _) (a1 : _) (a2 : _) (a3 : _) : exec (.bsubFlags a0 a1 a2 a3) s = execBsubFlags a0 a1 a2 a3 s := rfl
theorem exec_ld (s : State) (a0 : _) (a1 : _) (a2 : _) (a3 : _) (a4 : _) (a5 : _) : exec (.ld a0 a1 a2 a3 a4 a5) s = execLd a0 a1 a2 a3 a4 a5 s := rfl
theorem exec_st (s : State) (a0 : _) (a1 : _) (a2 : _) (a3 : _) (a4 : _) (a5 : _) : exec (.st a0 a1 a2 a3 a4 a5) s = execSt a0 a1 a2 a3 a4 a5 s := rfl
theorem exec_ldg (s : State) (a0 : _) (a1 : _) (a2 : _) (a3 : _) (a4 : _) (a5 : _) : exec (.ldg a0 a1 a2 a3 a4 a5) s = execLdg a0 a1 a2 a3 a4 a5 s := rfl
theorem exec_stg (s : State) (a0 : _) (a1 : _) (a2 : _) (a3 : _) (a4 : _) (a5 : _) : exec (.stg a0 a1 a2 a3 a4 a5) s = execStg a0 a1 a2 a3 a4 a5 s := rfl
theorem exec_lds (s : State) (a0 : _) (a1 : _) (a2 : _) (a3 : _) (a4 : _) (a5 : _) : exec (.lds a0 a1 a2 a3 a4 a5) s = execLds a0 a1 a2 a3 a4 a5 s := rfl
theorem exec_sts (s : State) (a0 : _) (a1 : _) (a2 : _) (a3 : _) (a4 : _) (a5 : _) : exec (.sts a0 a1 a2 a3 a4 a5) s = execSts a0 a1 a2 a3 a4 a5 s := rfl
theorem exec_ldsr (s : State) (a0 : _) (a1 : _) (a2 : _) (a3 : _) (a4 : _) (a5 : _) : exec (.ldsr a0 a1 a2 a3 a4 a5) s = execLdsr a0 a1 a2 a3 a4 a5 s := rfl
theorem exec_stsr (s : State) (a0 : _) (a1 : _) (a2 : _) (a3 : _) (a4 : _) (a5 : _) : exec (.stsr a0 a1 a2 a3 a4 a5) s = execStsr a0 a1 a2 a3 a4 a5 s := rfl
theorem exec_pref (s : State) (a0 : _) (a1 : _) (a2 : _) (a3 : _) (a4 : _) : exec (.pref a0 a1 a2 a3 a4) s = execPref a0 a1 a2 a3 a4 s := rfl
theorem exec_cmaintInv (s : State) (a0 : _) (a1 : _) (a2 : _) (a3 : _) : exec (.cmaintInv a0 a1 a2 a3) s = execCmaintInv a0 a1 a2 a3 s := rfl
theorem exec_cmaintWb (s : State) (a0 : _) (a1 : _) (a2 : _) (a3 : _) : exec (.cmaintWb a0 a1 a2 a3) s = execCmaintWb a0 a1 a2 a3 s := rfl
theorem exec_cmaintInvall (s : State) (a0 : _) : exec (.cmaintInvall a0) s = execCmaintInvall a0 s := rfl
theorem exec_ldk (s : State) (a0 : _) (a1 : _) (a2 : _) (a3 : _) (a4 : _) : exec (.ldk a0 a1 a2 a3 a4) s = execLdk a0 a1 a2 a3 a4 s := rfl
theorem exec_atom (s : State) (a0 : _) (a1 : _) (a2 : _) (a3 : _) (a4 : _) (a5 : _) (a6 : _) (a7 : _) (a8 : _) (a9 : _) : exec (.atom a0 a1 a2 a3 a4 a5 a6 a7 a8 a9) s = execAtom a0 a1 a2 a3 a4 a5 a6 a7 a8 a9 s := rfl
theorem exec_acas (s : State) (a0 : _) (a1 : _) (a2 : _) (a3 : _) (a4 : _) (a5 : _) (a6 : _) (a7 : _) : exec (.acas a0 a1 a2 a3 a4 a5 a6 a7) s = execAcas a0 a1 a2 a3 a4 a5 a6 a7 s := rfl
theorem exec_atoms (s : State) (a0 : _) (a1 : _) (a2 : _) (a3 : _) (a4 : _) (a5 : _) (a6 : _) (a7 : _) (a8 : _) : exec (.atoms a0 a1 a2 a3 a4 a5 a6 a7 a8) s = execAtoms a0 a1 a2 a3 a4 a5 a6 a7 a8 s := rfl
theorem exec_waita (s : State) (a0 : _) (a1 : _) (a2 : _) (a3 : _) (a4 : _) (a5 : _) (a6 : _) (a7 : _) (a8 : _) : exec (.waita a0 a1 a2 a3 a4 a5 a6 a7 a8) s = execWaita a0 a1 a2 a3 a4 a5 a6 a7 a8 s := rfl
theorem exec_fence (s : State) (a0 : _) (a1 : _) (a2 : _) (a3 : _) : exec (.fence a0 a1 a2 a3) s = execFence a0 a1 a2 a3 s := rfl
theorem exec_ldacq (s : State) (a0 : _) (a1 : _) (a2 : _) (a3 : _) (a4 : _) (a5 : _) : exec (.ldacq a0 a1 a2 a3 a4 a5) s = execLdacq a0 a1 a2 a3 a4 a5 s := rfl
theorem exec_strel (s : State) (a0 : _) (a1 : _) (a2 : _) (a3 : _) (a4 : _) (a5 : _) : exec (.strel a0 a1 a2 a3 a4 a5) s = execStrel a0 a1 a2 a3 a4 a5 s := rfl
theorem exec_syadd (s : State) (a0 : _) (a1 : _) (a2 : _) (a3 : _) (a4 : _) (a5 : _) (a6 : _) : exec (.syadd a0 a1 a2 a3 a4 a5 a6) s = execSyadd a0 a1 a2 a3 a4 a5 a6 s := rfl
theorem exec_bar (s : State) (a0 : _) (a1 : _) (a2 : _) : exec (.bar a0 a1 a2) s = execBar a0 a1 a2 s := rfl
theorem exec_bara (s : State) (a0 : _) (a1 : _) (a2 : _) : exec (.bara a0 a1 a2) s = execBara a0 a1 a2 s := rfl
theorem exec_cpyin (s : State) (a0 : _) (a1 : _) (a2 : _) (a3 : _) (a4 : _) (a5 : _) : exec (.cpyin a0 a1 a2 a3 a4 a5) s = execCpyin a0 a1 a2 a3 a4 a5 s := rfl
theorem exec_cpyout (s : State) (a0 : _) (a1 : _) (a2 : _) (a3 : _) (a4 : _) (a5 : _) : exec (.cpyout a0 a1 a2 a3 a4 a5) s = execCpyout a0 a1 a2 a3 a4 a5 s := rfl
theorem exec_cpyw (s : State) (a0 : _) (a1 : _) (a2 : _) (a3 : _) (a4 : _) (a5 : _) : exec (.cpyw a0 a1 a2 a3 a4 a5) s = execCpyw a0 a1 a2 a3 a4 a5 s := rfl
theorem exec_rfill (s : State) (a0 : _) (a1 : _) : exec (.rfill a0 a1) s = execRfill a0 a1 s := rfl
theorem exec_rawait (s : State) (a0 : _) (a1 : _) (a2 : _) (a3 : _) : exec (.rawait a0 a1 a2 a3) s = execRawait a0 a1 a2 a3 s := rfl
theorem exec_rrelease (s : State) (a0 : _) (a1 : _) : exec (.rrelease a0 a1) s = execRrelease a0 a1 s := rfl
theorem exec_rpush (s : State) (a0 : _) (a1 : _) : exec (.rpush a0 a1) s = execRpush a0 a1 s := rfl
theorem exec_rinit (s : State) (a0 : _) (a1 : _) (a2 : _) : exec (.rinit a0 a1 a2) s = execRinit a0 a1 a2 s := rfl
theorem exec_split (s : State) (a0 : _) (a1 : _) (a2 : _) : exec (.split a0 a1 a2) s = execSplit a0 a1 a2 s := rfl
theorem exec_mmarkSelf (s : State) (a0 : _) (a1 : _) : exec (.mmarkSelf a0 a1) s = execMmarkSelf a0 a1 s := rfl
theorem exec_mmarkMask (s : State) (a0 : _) (a1 : _) (a2 : _) (a3 : _) : exec (.mmarkMask a0 a1 a2 a3) s = execMmarkMask a0 a1 a2 a3 s := rfl
theorem exec_mmarkClear (s : State) (a0 : _) (a1 : _) : exec (.mmarkClear a0 a1) s = execMmarkClear a0 a1 s := rfl
theorem exec_mldw (s : State) (a0 : _) (a1 : _) (a2 : _) (a3 : _) (a4 : _) (a5 : _) : exec (.mldw a0 a1 a2 a3 a4 a5) s = execMldw a0 a1 a2 a3 a4 a5 s := rfl
theorem exec_mswap (s : State) (a0 : _) (a1 : _) (a2 : _) : exec (.mswap a0 a1 a2) s = execMswap a0 a1 a2 s := rfl
theorem exec_mstr (s : State) (a0 : _) (a1 : _) (a2 : _) (a3 : _) (a4 : _) (a5 : _) (a6 : _) (a7 : _) : exec (.mstr a0 a1 a2 a3 a4 a5 a6 a7) s = execMstr a0 a1 a2 a3 a4 a5 a6 a7 s := rfl
theorem exec_mdist (s : State) (a0 : _) (a1 : _) (a2 : _) (a3 : _) (a4 : _) (a5 : _) (a6 : _) (a7 : _) : exec (.mdist a0 a1 a2 a3 a4 a5 a6 a7) s = execMdist a0 a1 a2 a3 a4 a5 a6 a7 s := rfl
theorem exec_mtopk (s : State) (a0 : _) (a1 : _) (a2 : _) (a3 : _) (a4 : _) (a5 : _) (a6 : _) : exec (.mtopk a0 a1 a2 a3 a4 a5 a6) s = execMtopk a0 a1 a2 a3 a4 a5 a6 s := rfl
theorem exec_mrd (s : State) (a0 : _) (a1 : _) (a2 : _) (a3 : _) (a4 : _) (a5 : _) : exec (.mrd a0 a1 a2 a3 a4 a5) s = execMrd a0 a1 a2 a3 a4 a5 s := rfl
theorem exec_mrdScr (s : State) (a0 : _) (a1 : _) (a2 : _) (a3 : _) (a4 : _) (a5 : _) (a6 : _) (a7 : _) : exec (.mrdScr a0 a1 a2 a3 a4 a5 a6 a7) s = execMrdScr a0 a1 a2 a3 a4 a5 a6 a7 s := rfl
theorem exec_mclr (s : State) (a0 : _) (a1 : _) (a2 : _) (a3 : _) (a4 : _) (a5 : _) : exec (.mclr a0 a1 a2 a3 a4 a5) s = execMclr a0 a1 a2 a3 a4 a5 s := rfl
theorem exec_claim (s : State) (a0 : _) (a1 : _) (a2 : _) : exec (.claim a0 a1 a2) s = execClaim a0 a1 a2 s := rfl
theorem exec_mwait (s : State) (a0 : _) (a1 : _) (a2 : _) (a3 : _) : exec (.mwait a0 a1 a2 a3) s = execMwait a0 a1 a2 a3 s := rfl
theorem exec_mnote (s : State) (a0 : _) (a1 : _) : exec (.mnote a0 a1) s = execMnote a0 a1 s := rfl
theorem exec_mnoteall (s : State) (a0 : _) (a1 : _) : exec (.mnoteall a0 a1) s = execMnoteall a0 a1 s := rfl
theorem exec_heldTest (s : State) (a0 : _) (a1 : _) (a2 : _) : exec (.heldTest a0 a1 a2) s = execHeldTest a0 a1 a2 s := rfl
theorem exec_heldList (s : State) (a0 : _) (a1 : _) (a2 : _) : exec (.heldList a0 a1 a2) s = execHeldList a0 a1 a2 s := rfl
theorem exec_mrepair (s : State) (a0 : _) (a1 : _) : exec (.mrepair a0 a1) s = execMrepair a0 a1 s := rfl
theorem exec_tspawn (s : State) (a0 : _) (a1 : _) : exec (.tspawn a0 a1) s = execTspawn a0 a1 s := rfl
theorem exec_tdone (s : State) (a0 : _) : exec (.tdone a0) s = execTdone a0 s := rfl
theorem exec_publap (s : State) (a0 : _) (a1 : _) (a2 : _) : exec (.publap a0 a1 a2) s = execPublap a0 a1 a2 s := rfl
theorem exec_tstop (s : State) (a0 : _) (a1 : _) : exec (.tstop a0 a1) s = execTstop a0 a1 s := rfl
theorem exec_tlapState (s : State) (a0 : _) (a1 : _) (a2 : _) : exec (.tlapState a0 a1 a2) s = execTlapState a0 a1 a2 s := rfl
theorem exec_tlapBuf (s : State) (a0 : _) (a1 : _) (a2 : _) : exec (.tlapBuf a0 a1 a2) s = execTlapBuf a0 a1 a2 s := rfl
theorem exec_tabortRequeue (s : State) (a0 : _) : exec (.tabortRequeue a0) s = execTabortRequeue a0 s := rfl
theorem exec_tabortFail (s : State) (a0 : _) : exec (.tabortFail a0) s = execTabortFail a0 s := rfl
theorem exec_tsettle (s : State) (a0 : _) (a1 : _) : exec (.tsettle a0 a1) s = execTsettle a0 a1 s := rfl
theorem exec_resume (s : State) (a0 : _) (a1 : _) (a2 : _) (a3 : _) : exec (.resume a0 a1 a2 a3) s = execResume a0 a1 a2 a3 s := rfl
theorem exec_killLanes (s : State) (a0 : _) (a1 : _) (a2 : _) : exec (.killLanes a0 a1 a2) s = execKillLanes a0 a1 a2 s := rfl
theorem exec_killHeat (s : State) (a0 : _) (a1 : _) : exec (.killHeat a0 a1) s = execKillHeat a0 a1 s := rfl
theorem exec_killKernel (s : State) (a0 : _) (a1 : _) : exec (.killKernel a0 a1) s = execKillKernel a0 a1 s := rfl
theorem exec_eret (s : State) (a0 : _) (a1 : _) : exec (.eret a0 a1) s = execEret a0 a1 s := rfl
theorem exec_tframeNext (s : State) (a0 : _) (a1 : _) (a2 : _) (a3 : _) : exec (.tframeNext a0 a1 a2 a3) s = execTframeNext a0 a1 a2 a3 s := rfl
theorem exec_tframeRd (s : State) (a0 : _) (a1 : _) (a2 : _) (a3 : _) (a4 : _) : exec (.tframeRd a0 a1 a2 a3 a4) s = execTframeRd a0 a1 a2 a3 a4 s := rfl
theorem exec_tframeWr (s : State) (a0 : _) (a1 : _) (a2 : _) (a3 : _) (a4 : _) : exec (.tframeWr a0 a1 a2 a3 a4) s = execTframeWr a0 a1 a2 a3 a4 s := rfl
theorem exec_mfs (s : State) (a0 : _) (a1 : _) (a2 : _) : exec (.mfs a0 a1 a2) s = execMfs a0 a1 a2 s := rfl
theorem exec_mts (s : State) (a0 : _) (a1 : _) (a2 : _) : exec (.mts a0 a1 a2) s = execMts a0 a1 a2 s := rfl
theorem exec_tlbinvRange (s : State) (a0 : _) (a1 : _) (a2 : _) : exec (.tlbinvRange a0 a1 a2) s = execTlbinvRange a0 a1 a2 s := rfl
theorem exec_tlbinvCtx (s : State) (a0 : _) : exec (.tlbinvCtx a0) s = execTlbinvCtx a0 s := rfl
theorem exec_splinter (s : State) (a0 : _) (a1 : _) (a2 : _) (a3 : _) : exec (.splinter a0 a1 a2 a3) s = execSplinter a0 a1 a2 a3 s := rfl
theorem exec_brkpt (s : State) (a0 : _) : exec (.brkpt a0) s = execBrkpt a0 s := rfl
theorem exec_brkptWset (s : State) (a0 : _) (a1 : _) (a2 : _) (a3 : _) (a4 : _) : exec (.brkptWset a0 a1 a2 a3 a4) s = execBrkptWset a0 a1 a2 a3 a4 s := rfl
theorem exec_brkptWclr (s : State) (a0 : _) (a1 : _) : exec (.brkptWclr a0 a1) s = execBrkptWclr a0 a1 s := rfl
theorem exec_haltallStop (s : State) (a0 : _) : exec (.haltallStop a0) s = execHaltallStop a0 s := rfl
theorem exec_haltallGo (s : State) (a0 : _) : exec (.haltallGo a0) s = execHaltallGo a0 s := rfl
theorem exec_undo (s : State) (a0 : _) (a1 : _) (a2 : _) : exec (.undo a0 a1 a2) s = execUndo a0 a1 a2 s := rfl
theorem exec_stamp (s : State) (a0 : _) (a1 : _) (a2 : _) : exec (.stamp a0 a1 a2) s = execStamp a0 a1 a2 s := rfl
theorem exec_bist (s : State) (a0 : _) (a1 : _) (a2 : _) (a3 : _) (a4 : _) : exec (.bist a0 a1 a2 a3 a4) s = execBist a0 a1 a2 a3 a4 s := rfl
theorem exec_defmap (s : State) (a0 : _) (a1 : _) (a2 : _) : exec (.defmap a0 a1 a2) s = execDefmap a0 a1 a2 s := rfl
theorem exec_releaseDeposit (s : State) (a0 : _) (a1 : _) : exec (.releaseDeposit a0 a1) s = execReleaseDeposit a0 a1 s := rfl
theorem exec_halt (s : State) (a0 : _) : exec (.halt a0) s = execHalt a0 s := rfl
theorem exec_pacedIssue (s : State) (a0 : _) : exec (.pacedIssue a0) s = execPacedIssue a0 s := rfl
theorem exec_promote (s : State) (a0 : _) : exec (.promote a0) s = execPromote a0 s := rfl
theorem exec_memoryResponse (s : State) (a0 : _) (a1 : _) (a2 : _) : exec (.memoryResponse a0 a1 a2) s = execMemoryResponse a0 a1 a2 s := rfl
theorem exec_remoteTimeout (s : State) (a0 : _) : exec (.remoteTimeout a0) s = execRemoteTimeout a0 s := rfl
theorem exec_copyComplete (s : State) (a0 : _) : exec (.copyComplete a0) s = execCopyComplete a0 s := rfl
theorem exec_cpywPerform (s : State) (a0 : _) : exec (.cpywPerform a0) s = execCpywPerform a0 s := rfl
theorem exec_waitaPoll (s : State) (a0 : _) (a1 : _) : exec (.waitaPoll a0 a1) s = execWaitaPoll a0 a1 s := rfl
theorem exec_waitaTimeout (s : State) (a0 : _) (a1 : _) : exec (.waitaTimeout a0 a1) s = execWaitaTimeout a0 a1 s := rfl
theorem exec_handOff (s : State) (a0 : _) (a1 : _) : exec (.handOff a0 a1) s = execHandOff a0 a1 s := rfl
theorem exec_matrixOpComplete (s : State) (a0 : _) (a1 : _) : exec (.matrixOpComplete a0 a1) s = execMatrixOpComplete a0 a1 s := rfl
theorem exec_monitorGrant (s : State) (a0 : _) (a1 : _) : exec (.monitorGrant a0 a1) s = execMonitorGrant a0 a1 s := rfl
theorem exec_mwaitTimeout (s : State) (a0 : _) (a1 : _) : exec (.mwaitTimeout a0 a1) s = execMwaitTimeout a0 a1 s := rfl
theorem exec_heatRetire (s : State) (a0 : _) : exec (.heatRetire a0) s = execHeatRetire a0 s := rfl
theorem exec_completionRelease (s : State) (a0 : _) (a1 : _) : exec (.completionRelease a0 a1) s = execCompletionRelease a0 a1 s := rfl
theorem exec_launch (s : State) (a0 : _) : exec (.launch a0) s = execLaunch a0 s := rfl
theorem exec_launchStart (s : State) (a0 : _) : exec (.launchStart a0) s = execLaunchStart a0 s := rfl
theorem exec_relayStart (s : State) (a0 : _) : exec (.relayStart a0) s = execRelayStart a0 s := rfl
theorem exec_unitSave (s : State) (a0 : _) : exec (.unitSave a0) s = execUnitSave a0 s := rfl
theorem exec_suspendWindowExpiry (s : State) (a0 : _) : exec (.suspendWindowExpiry a0) s = execSuspendWindowExpiry a0 s := rfl
theorem exec_suspendDeadline (s : State) (a0 : _) : exec (.suspendDeadline a0) s = execSuspendDeadline a0 s := rfl
theorem exec_unitRestore (s : State) (a0 : _) : exec (.unitRestore a0) s = execUnitRestore a0 s := rfl
theorem exec_faultPost (s : State) (a0 : _) : exec (.faultPost a0) s = execFaultPost a0 s := rfl
theorem exec_faultPostRetry (s : State) (a0 : _) : exec (.faultPostRetry a0) s = execFaultPostRetry a0 s := rfl
theorem exec_tframeTimeout (s : State) (a0 : _) (a1 : _) : exec (.tframeTimeout a0 a1) s = execTframeTimeout a0 a1 s := rfl
theorem exec_pageDone (s : State) (a0 : _) : exec (.pageDone a0) s = execPageDone a0 s := rfl
theorem exec_qctlSet (s : State) (a0 : _) : exec (.qctlSet a0) s = execQctlSet a0 s := rfl
theorem exec_qctlPause (s : State) (a0 : _) : exec (.qctlPause a0) s = execQctlPause a0 s := rfl
theorem exec_qctlUnpause (s : State) (a0 : _) : exec (.qctlUnpause a0) s = execQctlUnpause a0 s := rfl
theorem exec_qctlFlush (s : State) (a0 : _) : exec (.qctlFlush a0) s = execQctlFlush a0 s := rfl
theorem exec_ctxOpen (s : State) (a0 : _) : exec (.ctxOpen a0) s = execCtxOpen a0 s := rfl
theorem exec_ctxClose (s : State) (a0 : _) : exec (.ctxClose a0) s = execCtxClose a0 s := rfl
theorem exec_ctxCloseDone (s : State) (a0 : _) : exec (.ctxCloseDone a0) s = execCtxCloseDone a0 s := rfl
theorem exec_saInstall (s : State) (a0 : _) : exec (.saInstall a0) s = execSaInstall a0 s := rfl
theorem exec_saRemove (s : State) (a0 : _) : exec (.saRemove a0) s = execSaRemove a0 s := rfl
theorem exec_uetWrite (s : State) (a0 : _) (a1 : _) : exec (.uetWrite a0 a1) s = execUetWrite a0 a1 s := rfl
theorem exec_uetRead (s : State) (a0 : _) (a1 : _) : exec (.uetRead a0 a1) s = execUetRead a0 a1 s := rfl
theorem exec_uetReleaseWrite (s : State) (a0 : _) (a1 : _) : exec (.uetReleaseWrite a0 a1) s = execUetReleaseWrite a0 a1 s := rfl
theorem exec_uudPacket (s : State) (a0 : _) : exec (.uudPacket a0) s = execUudPacket a0 s := rfl
theorem exec_readShared (s : State) (a0 : _) (a1 : _) : exec (.readShared a0 a1) s = execReadShared a0 a1 s := rfl
theorem exec_readOwn (s : State) (a0 : _) (a1 : _) : exec (.readOwn a0 a1) s = execReadOwn a0 a1 s := rfl
theorem exec_upgrade (s : State) (a0 : _) (a1 : _) : exec (.upgrade a0 a1) s = execUpgrade a0 a1 s := rfl
theorem exec_fwdShared (s : State) (a0 : _) (a1 : _) : exec (.fwdShared a0 a1) s = execFwdShared a0 a1 s := rfl
theorem exec_fwdOwn (s : State) (a0 : _) (a1 : _) : exec (.fwdOwn a0 a1) s = execFwdOwn a0 a1 s := rfl
theorem exec_inval (s : State) (a0 : _) (a1 : _) : exec (.inval a0 a1) s = execInval a0 a1 s := rfl
theorem exec_backInval (s : State) (a0 : _) (a1 : _) : exec (.backInval a0 a1) s = execBackInval a0 a1 s := rfl
theorem exec_invalAck (s : State) (a0 : _) (a1 : _) : exec (.invalAck a0 a1) s = execInvalAck a0 a1 s := rfl
theorem exec_dataClean (s : State) (a0 : _) (a1 : _) (a2 : _) : exec (.dataClean a0 a1 a2) s = execDataClean a0 a1 a2 s := rfl
theorem exec_dataDirty (s : State) (a0 : _) (a1 : _) (a2 : _) : exec (.dataDirty a0 a1 a2) s = execDataDirty a0 a1 a2 s := rfl
theorem exec_writeBack (s : State) (a0 : _) (a1 : _) : exec (.writeBack a0 a1) s = execWriteBack a0 a1 s := rfl
theorem exec_cleanEvict (s : State) (a0 : _) (a1 : _) : exec (.cleanEvict a0 a1) s = execCleanEvict a0 a1 s := rfl
theorem exec_backInvalAck (s : State) (a0 : _) (a1 : _) : exec (.backInvalAck a0 a1) s = execBackInvalAck a0 a1 s := rfl
theorem exec_earlyClean (s : State) (a0 : _) (a1 : _) : exec (.earlyClean a0 a1) s = execEarlyClean a0 a1 s := rfl
theorem exec_requestBoundMiss (s : State) (a0 : _) (a1 : _) : exec (.requestBoundMiss a0 a1) s = execRequestBoundMiss a0 a1 s := rfl
theorem exec_suspicion (s : State) (a0 : _) (a1 : _) : exec (.suspicion a0 a1) s = execSuspicion a0 a1 s := rfl
theorem exec_probeTimeout (s : State) (a0 : _) (a1 : _) : exec (.probeTimeout a0 a1) s = execProbeTimeout a0 a1 s := rfl
theorem exec_journalSave (s : State) (a0 : _) (a1 : _) : exec (.journalSave a0 a1) s = execJournalSave a0 a1 s := rfl
theorem exec_deal (s : State) (a0 : _) : exec (.deal a0) s = execDeal a0 s := rfl
theorem exec_commit (s : State) (a0 : _) : exec (.commit a0) s = execCommit a0 s := rfl
theorem exec_dieTokenGrant (s : State) (a0 : _) : exec (.dieTokenGrant a0) s = execDieTokenGrant a0 s := rfl
theorem exec_lapPublish (s : State) (a0 : _) : exec (.lapPublish a0) s = execLapPublish a0 s := rfl
theorem exec_groupSettle (s : State) (a0 : _) (a1 : _) : exec (.groupSettle a0 a1) s = execGroupSettle a0 a1 s := rfl
theorem exec_tlbinvComplete (s : State) (a0 : _) : exec (.tlbinvComplete a0) s = execTlbinvComplete a0 s := rfl
theorem exec_uncorrectableError (s : State) (a0 : _) : exec (.uncorrectableError a0) s = execUncorrectableError a0 s := rfl
theorem exec_patrolScrub (s : State) (a0 : _) (a1 : _) : exec (.patrolScrub a0 a1) s = execPatrolScrub a0 a1 s := rfl
theorem exec_bistDone (s : State) (a0 : _) (a1 : _) (a2 : _) (a3 : _) (a4 : _) : exec (.bistDone a0 a1 a2 a3 a4) s = execBistDone a0 a1 a2 a3 a4 s := rfl
theorem exec_powerGood (s : State) (a0 : _) (a1 : _) : exec (.powerGood a0 a1) s = execPowerGood a0 a1 s := rfl
theorem exec_portTrainingDone (s : State) (a0 : _) : exec (.portTrainingDone a0) s = execPortTrainingDone a0 s := rfl
theorem exec_dieReset (s : State) (a0 : _) : exec (.dieReset a0) s = execDieReset a0 s := rfl
theorem exec_dieRejoin (s : State) (a0 : _) (a1 : _) (a2 : _) : exec (.dieRejoin a0 a1 a2) s = execDieRejoin a0 a1 a2 s := rfl
theorem exec_portRetrain (s : State) (a0 : _) : exec (.portRetrain a0) s = execPortRetrain a0 s := rfl
theorem exec_mgmtAssocInstall (s : State) (a0 : _) : exec (.mgmtAssocInstall a0) s = execMgmtAssocInstall a0 s := rfl
theorem exec_mapDataRead (s : State) : exec (.mapDataRead) s = execMapDataRead s := rfl
theorem exec_portErrorClear (s : State) (a0 : _) : exec (.portErrorClear a0) s = execPortErrorClear a0 s := rfl
theorem exec_powerCapWrite (s : State) (a0 : _) : exec (.powerCapWrite a0) s = execPowerCapWrite a0 s := rfl
theorem exec_marginRun (s : State) (a0 : _) : exec (.marginRun a0) s = execMarginRun a0 s := rfl
theorem exec_marginDone (s : State) (a0 : _) (a1 : _) : exec (.marginDone a0 a1) s = execMarginDone a0 a1 s := rfl
theorem exec_sidebandWrite (s : State) (a0 : _) (a1 : _) : exec (.sidebandWrite a0 a1) s = execSidebandWrite a0 a1 s := rfl
theorem exec_bypass (s : State) (a0 : _) (a1 : _) : exec (.bypass a0 a1) s = execBypass a0 a1 s := rfl
theorem exec_extest (s : State) (a0 : _) : exec (.extest a0) s = execExtest a0 s := rfl
theorem exec_samplePreload (s : State) (a0 : _) (a1 : _) : exec (.samplePreload a0 a1) s = execSamplePreload a0 a1 s := rfl
theorem exec_idcode (s : State) : exec (.idcode) s = execIdcode s := rfl
theorem exec_clamp (s : State) : exec (.clamp) s = execClamp s := rfl
theorem exec_highz (s : State) : exec (.highz) s = execHighz s := rfl
theorem exec_defread (s : State) (a0 : _) : exec (.defread a0) s = execDefread a0 s := rfl
theorem exec_kindNotAllowed (s : State) (a0 : _) (a1 : _) : exec (.kindNotAllowed a0 a1) s = execKindNotAllowed a0 a1 s := rfl
theorem exec_probeAnswer (s : State) (a0 : _) (a1 : _) : exec (.probeAnswer a0 a1) s = execProbeAnswer a0 a1 s := rfl
theorem exec_linkLaneFailure (s : State) (a0 : _) : exec (.linkLaneFailure a0) s = execLinkLaneFailure a0 s := rfl
theorem exec_dynamicAddress (s : State) (a0 : _) : exec (.dynamicAddress a0) s = execDynamicAddress a0 s := rfl
theorem exec_powerExceedsCap (s : State) (a0 : _) : exec (.powerExceedsCap a0) s = execPowerExceedsCap a0 s := rfl
theorem exec_resetBall (s : State) (a0 : _) : exec (.resetBall a0) s = execResetBall a0 s := rfl

/-- Every instruction word issues through the one frame. -/
theorem exec_word (i : Instr) (hw : i.isWord = true) : ∃ body, ∀ s, exec i s = issue i s body := by
  cases i
  case nop => exact ⟨_, fun s => by rw [exec_nop, execNop.eq_def]⟩
  case bra => exact ⟨_, fun s => by rw [exec_bra, execBra.eq_def]⟩
  case brx => exact ⟨_, fun s => by rw [exec_brx, execBrx.eq_def]⟩
  case call => exact ⟨_, fun s => by rw [exec_call, execCall.eq_def]⟩
  case callx => exact ⟨_, fun s => by rw [exec_callx, execCallx.eq_def]⟩
  case ret => exact ⟨_, fun s => by rw [exec_ret, execRet.eq_def]⟩
  case exit => exact ⟨_, fun s => by rw [exec_exit, execExit.eq_def]⟩
  case yield => exact ⟨_, fun s => by rw [exec_yield, execYield.eq_def]⟩
  case waitf => exact ⟨_, fun s => by rw [exec_waitf, execWaitf.eq_def]⟩
  case trap => exact ⟨_, fun s => by rw [exec_trap, execTrap.eq_def]⟩
  case pset => exact ⟨_, fun s => by rw [exec_pset, execPset.eq_def]⟩
  case psetfFrom => exact ⟨_, fun s => by rw [exec_psetfFrom, execPsetfFrom.eq_def]⟩
  case psetfTo => exact ⟨_, fun s => by rw [exec_psetfTo, execPsetfTo.eq_def]⟩
  case plog => exact ⟨_, fun s => by rw [exec_plog, execPlog.eq_def]⟩
  case vote => exact ⟨_, fun s => by rw [exec_vote, execVote.eq_def]⟩
  case shfl => exact ⟨_, fun s => by rw [exec_shfl, execShfl.eq_def]⟩
  case hred => exact ⟨_, fun s => by rw [exec_hred, execHred.eq_def]⟩
  case hscan => exact ⟨_, fun s => by rw [exec_hscan, execHscan.eq_def]⟩
  case matchv => exact ⟨_, fun s => by rw [exec_matchv, execMatchv.eq_def]⟩
  case iadd => exact ⟨_, fun s => by rw [exec_iadd, execIadd.eq_def]⟩
  case isub => exact ⟨_, fun s => by rw [exec_isub, execIsub.eq_def]⟩
  case imul => exact ⟨_, fun s => by rw [exec_imul, execImul.eq_def]⟩
  case imad => exact ⟨_, fun s => by rw [exec_imad, execImad.eq_def]⟩
  case idiv => exact ⟨_, fun s => by rw [exec_idiv, execIdiv.eq_def]⟩
  case imin => exact ⟨_, fun s => by rw [exec_imin, execImin.eq_def]⟩
  case imax => exact ⟨_, fun s => by rw [exec_imax, execImax.eq_def]⟩
  case iabs => exact ⟨_, fun s => by rw [exec_iabs, execIabs.eq_def]⟩
  case and => exact ⟨_, fun s => by rw [exec_and, execAnd.eq_def]⟩
  case or => exact ⟨_, fun s => by rw [exec_or, execOr.eq_def]⟩
  case xor => exact ⟨_, fun s => by rw [exec_xor, execXor.eq_def]⟩
  case shl => exact ⟨_, fun s => by rw [exec_shl, execShl.eq_def]⟩
  case shr => exact ⟨_, fun s => by rw [exec_shr, execShr.eq_def]⟩
  case bfx => exact ⟨_, fun s => by rw [exec_bfx, execBfx.eq_def]⟩
  case bfi => exact ⟨_, fun s => by rw [exec_bfi, execBfi.eq_def]⟩
  case popc => exact ⟨_, fun s => by rw [exec_popc, execPopc.eq_def]⟩
  case clz => exact ⟨_, fun s => by rw [exec_clz, execClz.eq_def]⟩
  case brev => exact ⟨_, fun s => by rw [exec_brev, execBrev.eq_def]⟩
  case sel => exact ⟨_, fun s => by rw [exec_sel, execSel.eq_def]⟩
  case mov => exact ⟨_, fun s => by rw [exec_mov, execMov.eq_def]⟩
  case movi => exact ⟨_, fun s => by rw [exec_movi, execMovi.eq_def]⟩
  case addi => exact ⟨_, fun s => by rw [exec_addi, execAddi.eq_def]⟩
  case lea => exact ⟨_, fun s => by rw [exec_lea, execLea.eq_def]⟩
  case bysel => exact ⟨_, fun s => by rw [exec_bysel, execBysel.eq_def]⟩
  case fadd => exact ⟨_, fun s => by rw [exec_fadd, execFadd.eq_def]⟩
  case fsub => exact ⟨_, fun s => by rw [exec_fsub, execFsub.eq_def]⟩
  case fmul => exact ⟨_, fun s => by rw [exec_fmul, execFmul.eq_def]⟩
  case ffma => exact ⟨_, fun s => by rw [exec_ffma, execFfma.eq_def]⟩
  case fmin => exact ⟨_, fun s => by rw [exec_fmin, execFmin.eq_def]⟩
  case fmax => exact ⟨_, fun s => by rw [exec_fmax, execFmax.eq_def]⟩
  case fsign => exact ⟨_, fun s => by rw [exec_fsign, execFsign.eq_def]⟩
  case frcp => exact ⟨_, fun s => by rw [exec_frcp, execFrcp.eq_def]⟩
  case frsq => exact ⟨_, fun s => by rw [exec_frsq, execFrsq.eq_def]⟩
  case fsqrt => exact ⟨_, fun s => by rw [exec_fsqrt, execFsqrt.eq_def]⟩
  case fdiv => exact ⟨_, fun s => by rw [exec_fdiv, execFdiv.eq_def]⟩
  case fexp2 => exact ⟨_, fun s => by rw [exec_fexp2, execFexp2.eq_def]⟩
  case flog2 => exact ⟨_, fun s => by rw [exec_flog2, execFlog2.eq_def]⟩
  case ftanh => exact ⟨_, fun s => by rw [exec_ftanh, execFtanh.eq_def]⟩
  case fclass => exact ⟨_, fun s => by rw [exec_fclass, execFclass.eq_def]⟩
  case frnd => exact ⟨_, fun s => by rw [exec_frnd, execFrnd.eq_def]⟩
  case pkadd => exact ⟨_, fun s => by rw [exec_pkadd, execPkadd.eq_def]⟩
  case pkmul => exact ⟨_, fun s => by rw [exec_pkmul, execPkmul.eq_def]⟩
  case pkfma => exact ⟨_, fun s => by rw [exec_pkfma, execPkfma.eq_def]⟩
  case pkmnx => exact ⟨_, fun s => by rw [exec_pkmnx, execPkmnx.eq_def]⟩
  case cvti => exact ⟨_, fun s => by rw [exec_cvti, execCvti.eq_def]⟩
  case cvtf => exact ⟨_, fun s => by rw [exec_cvtf, execCvtf.eq_def]⟩
  case pack2 => exact ⟨_, fun s => by rw [exec_pack2, execPack2.eq_def]⟩
  case pack4 => exact ⟨_, fun s => by rw [exec_pack4, execPack4.eq_def]⟩
  case pack8 => exact ⟨_, fun s => by rw [exec_pack8, execPack8.eq_def]⟩
  case unpk2 => exact ⟨_, fun s => by rw [exec_unpk2, execUnpk2.eq_def]⟩
  case unpk4 => exact ⟨_, fun s => by rw [exec_unpk4, execUnpk4.eq_def]⟩
  case unpk8 => exact ⟨_, fun s => by rw [exec_unpk8, execUnpk8.eq_def]⟩
  case scalex => exact ⟨_, fun s => by rw [exec_scalex, execScalex.eq_def]⟩
  case bldMem => exact ⟨_, fun s => by rw [exec_bldMem, execBldMem.eq_def]⟩
  case bldQ => exact ⟨_, fun s => by rw [exec_bldQ, execBldQ.eq_def]⟩
  case bldK => exact ⟨_, fun s => by rw [exec_bldK, execBldK.eq_def]⟩
  case bldZero => exact ⟨_, fun s => by rw [exec_bldZero, execBldZero.eq_def]⟩
  case bsubOff => exact ⟨_, fun s => by rw [exec_bsubOff, execBsubOff.eq_def]⟩
  case bsubWin => exact ⟨_, fun s => by rw [exec_bsubWin, execBsubWin.eq_def]⟩
  case bsubColour => exact ⟨_, fun s => by rw [exec_bsubColour, execBsubColour.eq_def]⟩
  case bsubFlags => exact ⟨_, fun s => by rw [exec_bsubFlags, execBsubFlags.eq_def]⟩
  case ld => exact ⟨_, fun s => by rw [exec_ld, execLd.eq_def]⟩
  case st => exact ⟨_, fun s => by rw [exec_st, execSt.eq_def]⟩
  case ldg => exact ⟨_, fun s => by rw [exec_ldg, execLdg.eq_def]⟩
  case stg => exact ⟨_, fun s => by rw [exec_stg, execStg.eq_def]⟩
  case lds => exact ⟨_, fun s => by rw [exec_lds, execLds.eq_def]⟩
  case sts => exact ⟨_, fun s => by rw [exec_sts, execSts.eq_def]⟩
  case ldsr => exact ⟨_, fun s => by rw [exec_ldsr, execLdsr.eq_def]⟩
  case stsr => exact ⟨_, fun s => by rw [exec_stsr, execStsr.eq_def]⟩
  case pref => exact ⟨_, fun s => by rw [exec_pref, execPref.eq_def]⟩
  case cmaintInv => exact ⟨_, fun s => by rw [exec_cmaintInv, execCmaintInv.eq_def]⟩
  case cmaintWb => exact ⟨_, fun s => by rw [exec_cmaintWb, execCmaintWb.eq_def]⟩
  case cmaintInvall => exact ⟨_, fun s => by rw [exec_cmaintInvall, execCmaintInvall.eq_def]⟩
  case ldk => exact ⟨_, fun s => by rw [exec_ldk, execLdk.eq_def]⟩
  case atom => exact ⟨_, fun s => by rw [exec_atom, execAtom.eq_def]⟩
  case acas => exact ⟨_, fun s => by rw [exec_acas, execAcas.eq_def]⟩
  case atoms => exact ⟨_, fun s => by rw [exec_atoms, execAtoms.eq_def]⟩
  case waita => exact ⟨_, fun s => by rw [exec_waita, execWaita.eq_def]⟩
  case fence => exact ⟨_, fun s => by rw [exec_fence, execFence.eq_def]⟩
  case ldacq => exact ⟨_, fun s => by rw [exec_ldacq, execLdacq.eq_def]⟩
  case strel => exact ⟨_, fun s => by rw [exec_strel, execStrel.eq_def]⟩
  case syadd => exact ⟨_, fun s => by rw [exec_syadd, execSyadd.eq_def]⟩
  case bar => exact ⟨_, fun s => by rw [exec_bar, execBar.eq_def]⟩
  case bara => exact ⟨_, fun s => by rw [exec_bara, execBara.eq_def]⟩
  case cpyin => exact ⟨_, fun s => by rw [exec_cpyin, execCpyin.eq_def]⟩
  case cpyout => exact ⟨_, fun s => by rw [exec_cpyout, execCpyout.eq_def]⟩
  case cpyw => exact ⟨_, fun s => by rw [exec_cpyw, execCpyw.eq_def]⟩
  case rfill => exact ⟨_, fun s => by rw [exec_rfill, execRfill.eq_def]⟩
  case rawait => exact ⟨_, fun s => by rw [exec_rawait, execRawait.eq_def]⟩
  case rrelease => exact ⟨_, fun s => by rw [exec_rrelease, execRrelease.eq_def]⟩
  case rpush => exact ⟨_, fun s => by rw [exec_rpush, execRpush.eq_def]⟩
  case rinit => exact ⟨_, fun s => by rw [exec_rinit, execRinit.eq_def]⟩
  case split => exact ⟨_, fun s => by rw [exec_split, execSplit.eq_def]⟩
  case mmarkSelf => exact ⟨_, fun s => by rw [exec_mmarkSelf, execMmarkSelf.eq_def]⟩
  case mmarkMask => exact ⟨_, fun s => by rw [exec_mmarkMask, execMmarkMask.eq_def]⟩
  case mmarkClear => exact ⟨_, fun s => by rw [exec_mmarkClear, execMmarkClear.eq_def]⟩
  case mldw => exact ⟨_, fun s => by rw [exec_mldw, execMldw.eq_def]⟩
  case mswap => exact ⟨_, fun s => by rw [exec_mswap, execMswap.eq_def]⟩
  case mstr => exact ⟨_, fun s => by rw [exec_mstr, execMstr.eq_def]⟩
  case mdist => exact ⟨_, fun s => by rw [exec_mdist, execMdist.eq_def]⟩
  case mtopk => exact ⟨_, fun s => by rw [exec_mtopk, execMtopk.eq_def]⟩
  case mrd => exact ⟨_, fun s => by rw [exec_mrd, execMrd.eq_def]⟩
  case mrdScr => exact ⟨_, fun s => by rw [exec_mrdScr, execMrdScr.eq_def]⟩
  case mclr => exact ⟨_, fun s => by rw [exec_mclr, execMclr.eq_def]⟩
  case claim => exact ⟨_, fun s => by rw [exec_claim, execClaim.eq_def]⟩
  case mwait => exact ⟨_, fun s => by rw [exec_mwait, execMwait.eq_def]⟩
  case mnote => exact ⟨_, fun s => by rw [exec_mnote, execMnote.eq_def]⟩
  case mnoteall => exact ⟨_, fun s => by rw [exec_mnoteall, execMnoteall.eq_def]⟩
  case heldTest => exact ⟨_, fun s => by rw [exec_heldTest, execHeldTest.eq_def]⟩
  case heldList => exact ⟨_, fun s => by rw [exec_heldList, execHeldList.eq_def]⟩
  case mrepair => exact ⟨_, fun s => by rw [exec_mrepair, execMrepair.eq_def]⟩
  case tspawn => exact ⟨_, fun s => by rw [exec_tspawn, execTspawn.eq_def]⟩
  case tdone => exact ⟨_, fun s => by rw [exec_tdone, execTdone.eq_def]⟩
  case publap => exact ⟨_, fun s => by rw [exec_publap, execPublap.eq_def]⟩
  case tstop => exact ⟨_, fun s => by rw [exec_tstop, execTstop.eq_def]⟩
  case tlapState => exact ⟨_, fun s => by rw [exec_tlapState, execTlapState.eq_def]⟩
  case tlapBuf => exact ⟨_, fun s => by rw [exec_tlapBuf, execTlapBuf.eq_def]⟩
  case tabortRequeue => exact ⟨_, fun s => by rw [exec_tabortRequeue, execTabortRequeue.eq_def]⟩
  case tabortFail => exact ⟨_, fun s => by rw [exec_tabortFail, execTabortFail.eq_def]⟩
  case tsettle => exact ⟨_, fun s => by rw [exec_tsettle, execTsettle.eq_def]⟩
  case resume => exact ⟨_, fun s => by rw [exec_resume, execResume.eq_def]⟩
  case killLanes => exact ⟨_, fun s => by rw [exec_killLanes, execKillLanes.eq_def]⟩
  case killHeat => exact ⟨_, fun s => by rw [exec_killHeat, execKillHeat.eq_def]⟩
  case killKernel => exact ⟨_, fun s => by rw [exec_killKernel, execKillKernel.eq_def]⟩
  case eret => exact ⟨_, fun s => by rw [exec_eret, execEret.eq_def]⟩
  case tframeNext => exact ⟨_, fun s => by rw [exec_tframeNext, execTframeNext.eq_def]⟩
  case tframeRd => exact ⟨_, fun s => by rw [exec_tframeRd, execTframeRd.eq_def]⟩
  case tframeWr => exact ⟨_, fun s => by rw [exec_tframeWr, execTframeWr.eq_def]⟩
  case mfs => exact ⟨_, fun s => by rw [exec_mfs, execMfs.eq_def]⟩
  case mts => exact ⟨_, fun s => by rw [exec_mts, execMts.eq_def]⟩
  case tlbinvRange => exact ⟨_, fun s => by rw [exec_tlbinvRange, execTlbinvRange.eq_def]⟩
  case tlbinvCtx => exact ⟨_, fun s => by rw [exec_tlbinvCtx, execTlbinvCtx.eq_def]⟩
  case splinter => exact ⟨_, fun s => by rw [exec_splinter, execSplinter.eq_def]⟩
  case brkpt => exact ⟨_, fun s => by rw [exec_brkpt, execBrkpt.eq_def]⟩
  case brkptWset => exact ⟨_, fun s => by rw [exec_brkptWset, execBrkptWset.eq_def]⟩
  case brkptWclr => exact ⟨_, fun s => by rw [exec_brkptWclr, execBrkptWclr.eq_def]⟩
  case haltallStop => exact ⟨_, fun s => by rw [exec_haltallStop, execHaltallStop.eq_def]⟩
  case haltallGo => exact ⟨_, fun s => by rw [exec_haltallGo, execHaltallGo.eq_def]⟩
  case undo => exact ⟨_, fun s => by rw [exec_undo, execUndo.eq_def]⟩
  case stamp => exact ⟨_, fun s => by rw [exec_stamp, execStamp.eq_def]⟩
  case bist => exact ⟨_, fun s => by rw [exec_bist, execBist.eq_def]⟩
  case defmap => exact ⟨_, fun s => by rw [exec_defmap, execDefmap.eq_def]⟩
  case releaseDeposit => exact absurd (show encode _ = 0 from rfl) (by simpa [Instr.isWord] using hw)
  case halt => exact absurd (show encode _ = 0 from rfl) (by simpa [Instr.isWord] using hw)
  case pacedIssue => exact absurd (show encode _ = 0 from rfl) (by simpa [Instr.isWord] using hw)
  case promote => exact absurd (show encode _ = 0 from rfl) (by simpa [Instr.isWord] using hw)
  case memoryResponse => exact absurd (show encode _ = 0 from rfl) (by simpa [Instr.isWord] using hw)
  case remoteTimeout => exact absurd (show encode _ = 0 from rfl) (by simpa [Instr.isWord] using hw)
  case copyComplete => exact absurd (show encode _ = 0 from rfl) (by simpa [Instr.isWord] using hw)
  case cpywPerform => exact absurd (show encode _ = 0 from rfl) (by simpa [Instr.isWord] using hw)
  case waitaPoll => exact absurd (show encode _ = 0 from rfl) (by simpa [Instr.isWord] using hw)
  case waitaTimeout => exact absurd (show encode _ = 0 from rfl) (by simpa [Instr.isWord] using hw)
  case handOff => exact absurd (show encode _ = 0 from rfl) (by simpa [Instr.isWord] using hw)
  case matrixOpComplete => exact absurd (show encode _ = 0 from rfl) (by simpa [Instr.isWord] using hw)
  case monitorGrant => exact absurd (show encode _ = 0 from rfl) (by simpa [Instr.isWord] using hw)
  case mwaitTimeout => exact absurd (show encode _ = 0 from rfl) (by simpa [Instr.isWord] using hw)
  case heatRetire => exact absurd (show encode _ = 0 from rfl) (by simpa [Instr.isWord] using hw)
  case completionRelease => exact absurd (show encode _ = 0 from rfl) (by simpa [Instr.isWord] using hw)
  case launch => exact absurd (show encode _ = 0 from rfl) (by simpa [Instr.isWord] using hw)
  case launchStart => exact absurd (show encode _ = 0 from rfl) (by simpa [Instr.isWord] using hw)
  case relayStart => exact absurd (show encode _ = 0 from rfl) (by simpa [Instr.isWord] using hw)
  case unitSave => exact absurd (show encode _ = 0 from rfl) (by simpa [Instr.isWord] using hw)
  case suspendWindowExpiry => exact absurd (show encode _ = 0 from rfl) (by simpa [Instr.isWord] using hw)
  case suspendDeadline => exact absurd (show encode _ = 0 from rfl) (by simpa [Instr.isWord] using hw)
  case unitRestore => exact absurd (show encode _ = 0 from rfl) (by simpa [Instr.isWord] using hw)
  case faultPost => exact absurd (show encode _ = 0 from rfl) (by simpa [Instr.isWord] using hw)
  case faultPostRetry => exact absurd (show encode _ = 0 from rfl) (by simpa [Instr.isWord] using hw)
  case tframeTimeout => exact absurd (show encode _ = 0 from rfl) (by simpa [Instr.isWord] using hw)
  case pageDone => exact absurd (show encode _ = 0 from rfl) (by simpa [Instr.isWord] using hw)
  case qctlSet => exact absurd (show encode _ = 0 from rfl) (by simpa [Instr.isWord] using hw)
  case qctlPause => exact absurd (show encode _ = 0 from rfl) (by simpa [Instr.isWord] using hw)
  case qctlUnpause => exact absurd (show encode _ = 0 from rfl) (by simpa [Instr.isWord] using hw)
  case qctlFlush => exact absurd (show encode _ = 0 from rfl) (by simpa [Instr.isWord] using hw)
  case ctxOpen => exact absurd (show encode _ = 0 from rfl) (by simpa [Instr.isWord] using hw)
  case ctxClose => exact absurd (show encode _ = 0 from rfl) (by simpa [Instr.isWord] using hw)
  case ctxCloseDone => exact absurd (show encode _ = 0 from rfl) (by simpa [Instr.isWord] using hw)
  case saInstall => exact absurd (show encode _ = 0 from rfl) (by simpa [Instr.isWord] using hw)
  case saRemove => exact absurd (show encode _ = 0 from rfl) (by simpa [Instr.isWord] using hw)
  case uetWrite => exact absurd (show encode _ = 0 from rfl) (by simpa [Instr.isWord] using hw)
  case uetRead => exact absurd (show encode _ = 0 from rfl) (by simpa [Instr.isWord] using hw)
  case uetReleaseWrite => exact absurd (show encode _ = 0 from rfl) (by simpa [Instr.isWord] using hw)
  case uudPacket => exact absurd (show encode _ = 0 from rfl) (by simpa [Instr.isWord] using hw)
  case readShared => exact absurd (show encode _ = 0 from rfl) (by simpa [Instr.isWord] using hw)
  case readOwn => exact absurd (show encode _ = 0 from rfl) (by simpa [Instr.isWord] using hw)
  case upgrade => exact absurd (show encode _ = 0 from rfl) (by simpa [Instr.isWord] using hw)
  case fwdShared => exact absurd (show encode _ = 0 from rfl) (by simpa [Instr.isWord] using hw)
  case fwdOwn => exact absurd (show encode _ = 0 from rfl) (by simpa [Instr.isWord] using hw)
  case inval => exact absurd (show encode _ = 0 from rfl) (by simpa [Instr.isWord] using hw)
  case backInval => exact absurd (show encode _ = 0 from rfl) (by simpa [Instr.isWord] using hw)
  case invalAck => exact absurd (show encode _ = 0 from rfl) (by simpa [Instr.isWord] using hw)
  case dataClean => exact absurd (show encode _ = 0 from rfl) (by simpa [Instr.isWord] using hw)
  case dataDirty => exact absurd (show encode _ = 0 from rfl) (by simpa [Instr.isWord] using hw)
  case writeBack => exact absurd (show encode _ = 0 from rfl) (by simpa [Instr.isWord] using hw)
  case cleanEvict => exact absurd (show encode _ = 0 from rfl) (by simpa [Instr.isWord] using hw)
  case backInvalAck => exact absurd (show encode _ = 0 from rfl) (by simpa [Instr.isWord] using hw)
  case earlyClean => exact absurd (show encode _ = 0 from rfl) (by simpa [Instr.isWord] using hw)
  case requestBoundMiss => exact absurd (show encode _ = 0 from rfl) (by simpa [Instr.isWord] using hw)
  case suspicion => exact absurd (show encode _ = 0 from rfl) (by simpa [Instr.isWord] using hw)
  case probeTimeout => exact absurd (show encode _ = 0 from rfl) (by simpa [Instr.isWord] using hw)
  case journalSave => exact absurd (show encode _ = 0 from rfl) (by simpa [Instr.isWord] using hw)
  case deal => exact absurd (show encode _ = 0 from rfl) (by simpa [Instr.isWord] using hw)
  case commit => exact absurd (show encode _ = 0 from rfl) (by simpa [Instr.isWord] using hw)
  case dieTokenGrant => exact absurd (show encode _ = 0 from rfl) (by simpa [Instr.isWord] using hw)
  case lapPublish => exact absurd (show encode _ = 0 from rfl) (by simpa [Instr.isWord] using hw)
  case groupSettle => exact absurd (show encode _ = 0 from rfl) (by simpa [Instr.isWord] using hw)
  case tlbinvComplete => exact absurd (show encode _ = 0 from rfl) (by simpa [Instr.isWord] using hw)
  case uncorrectableError => exact absurd (show encode _ = 0 from rfl) (by simpa [Instr.isWord] using hw)
  case patrolScrub => exact absurd (show encode _ = 0 from rfl) (by simpa [Instr.isWord] using hw)
  case bistDone => exact absurd (show encode _ = 0 from rfl) (by simpa [Instr.isWord] using hw)
  case powerGood => exact absurd (show encode _ = 0 from rfl) (by simpa [Instr.isWord] using hw)
  case portTrainingDone => exact absurd (show encode _ = 0 from rfl) (by simpa [Instr.isWord] using hw)
  case dieReset => exact absurd (show encode _ = 0 from rfl) (by simpa [Instr.isWord] using hw)
  case dieRejoin => exact absurd (show encode _ = 0 from rfl) (by simpa [Instr.isWord] using hw)
  case portRetrain => exact absurd (show encode _ = 0 from rfl) (by simpa [Instr.isWord] using hw)
  case mgmtAssocInstall => exact absurd (show encode _ = 0 from rfl) (by simpa [Instr.isWord] using hw)
  case mapDataRead => exact absurd (show encode _ = 0 from rfl) (by simpa [Instr.isWord] using hw)
  case portErrorClear => exact absurd (show encode _ = 0 from rfl) (by simpa [Instr.isWord] using hw)
  case powerCapWrite => exact absurd (show encode _ = 0 from rfl) (by simpa [Instr.isWord] using hw)
  case marginRun => exact absurd (show encode _ = 0 from rfl) (by simpa [Instr.isWord] using hw)
  case marginDone => exact absurd (show encode _ = 0 from rfl) (by simpa [Instr.isWord] using hw)
  case sidebandWrite => exact absurd (show encode _ = 0 from rfl) (by simpa [Instr.isWord] using hw)
  case bypass => exact absurd (show encode _ = 0 from rfl) (by simpa [Instr.isWord] using hw)
  case extest => exact absurd (show encode _ = 0 from rfl) (by simpa [Instr.isWord] using hw)
  case samplePreload => exact absurd (show encode _ = 0 from rfl) (by simpa [Instr.isWord] using hw)
  case idcode => exact absurd (show encode _ = 0 from rfl) (by simpa [Instr.isWord] using hw)
  case clamp => exact absurd (show encode _ = 0 from rfl) (by simpa [Instr.isWord] using hw)
  case highz => exact absurd (show encode _ = 0 from rfl) (by simpa [Instr.isWord] using hw)
  case defread => exact absurd (show encode _ = 0 from rfl) (by simpa [Instr.isWord] using hw)
  case kindNotAllowed => exact absurd (show encode _ = 0 from rfl) (by simpa [Instr.isWord] using hw)
  case probeAnswer => exact absurd (show encode _ = 0 from rfl) (by simpa [Instr.isWord] using hw)
  case linkLaneFailure => exact absurd (show encode _ = 0 from rfl) (by simpa [Instr.isWord] using hw)
  case dynamicAddress => exact absurd (show encode _ = 0 from rfl) (by simpa [Instr.isWord] using hw)
  case powerExceedsCap => exact absurd (show encode _ = 0 from rfl) (by simpa [Instr.isWord] using hw)
  case resetBall => exact absurd (show encode _ = 0 from rfl) (by simpa [Instr.isWord] using hw)

end Sys2Proof.Machine
end

