-- ==== Sys2Proof/Laws/State.lean ====
section
/-! SUPPORT. One lemma for each field and each named update of the state, of a heat and of a lane: what the update leaves
alone. -/

namespace Sys2Proof.Machine

/-! A heat updated. -/

@[simp] theorem State.updHeat_mem (s : State) (k : HeatKey) (f : Heat → Heat) : (s.updHeat k f).mem = s.mem := rfl
@[simp] theorem State.updHeat_l1 (s : State) (k : HeatKey) (f : Heat → Heat) : (s.updHeat k f).l1 = s.l1 := rfl
@[simp] theorem State.updHeat_l1Stream (s : State) (k : HeatKey) (f : Heat → Heat) : (s.updHeat k f).l1Stream = s.l1Stream := rfl
@[simp] theorem State.updHeat_l2 (s : State) (k : HeatKey) (f : Heat → Heat) : (s.updHeat k f).l2 = s.l2 := rfl
@[simp] theorem State.updHeat_dir (s : State) (k : HeatKey) (f : Heat → Heat) : (s.updHeat k f).dir = s.dir := rfl
@[simp] theorem State.updHeat_dirOrder (s : State) (k : HeatKey) (f : Heat → Heat) : (s.updHeat k f).dirOrder = s.dirOrder := rfl
@[simp] theorem State.updHeat_backInv (s : State) (k : HeatKey) (f : Heat → Heat) : (s.updHeat k f).backInv = s.backInv := rfl
@[simp] theorem State.updHeat_msgs (s : State) (k : HeatKey) (f : Heat → Heat) : (s.updHeat k f).msgs = s.msgs := rfl
@[simp] theorem State.updHeat_txns (s : State) (k : HeatKey) (f : Heat → Heat) : (s.updHeat k f).txns = s.txns := rfl
@[simp] theorem State.updHeat_queued (s : State) (k : HeatKey) (f : Heat → Heat) : (s.updHeat k f).queued = s.queued := rfl
@[simp] theorem State.updHeat_asked (s : State) (k : HeatKey) (f : Heat → Heat) : (s.updHeat k f).asked = s.asked := rfl
@[simp] theorem State.updHeat_rwq (s : State) (k : HeatKey) (f : Heat → Heat) : (s.updHeat k f).rwq = s.rwq := rfl
@[simp] theorem State.updHeat_tlb (s : State) (k : HeatKey) (f : Heat → Heat) : (s.updHeat k f).tlb = s.tlb := rfl
@[simp] theorem State.updHeat_poison (s : State) (k : HeatKey) (f : Heat → Heat) : (s.updHeat k f).poison = s.poison := rfl
@[simp] theorem State.updHeat_retiredChunks (s : State) (k : HeatKey) (f : Heat → Heat) : (s.updHeat k f).retiredChunks = s.retiredChunks := rfl
@[simp] theorem State.updHeat_reqs (s : State) (k : HeatKey) (f : Heat → Heat) : (s.updHeat k f).reqs = s.reqs := rfl
@[simp] theorem State.updHeat_ops (s : State) (k : HeatKey) (f : Heat → Heat) : (s.updHeat k f).ops = s.ops := rfl
@[simp] theorem State.updHeat_rels (s : State) (k : HeatKey) (f : Heat → Heat) : (s.updHeat k f).rels = s.rels := rfl
@[simp] theorem State.updHeat_units (s : State) (k : HeatKey) (f : Heat → Heat) : (s.updHeat k f).units = s.units := rfl
@[simp] theorem State.updHeat_arrays (s : State) (k : HeatKey) (f : Heat → Heat) : (s.updHeat k f).arrays = s.arrays := rfl
@[simp] theorem State.updHeat_ctxs (s : State) (k : HeatKey) (f : Heat → Heat) : (s.updHeat k f).ctxs = s.ctxs := rfl
@[simp] theorem State.updHeat_kernels (s : State) (k : HeatKey) (f : Heat → Heat) : (s.updHeat k f).kernels = s.kernels := rfl
@[simp] theorem State.updHeat_lastStart (s : State) (k : HeatKey) (f : Heat → Heat) : (s.updHeat k f).lastStart = s.lastStart := rfl
@[simp] theorem State.updHeat_postings (s : State) (k : HeatKey) (f : Heat → Heat) : (s.updHeat k f).postings = s.postings := rfl
@[simp] theorem State.updHeat_records (s : State) (k : HeatKey) (f : Heat → Heat) : (s.updHeat k f).records = s.records := rfl
@[simp] theorem State.updHeat_postCount (s : State) (k : HeatKey) (f : Heat → Heat) : (s.updHeat k f).postCount = s.postCount := rfl
@[simp] theorem State.updHeat_cards (s : State) (k : HeatKey) (f : Heat → Heat) : (s.updHeat k f).cards = s.cards := rfl
@[simp] theorem State.updHeat_runs (s : State) (k : HeatKey) (f : Heat → Heat) : (s.updHeat k f).runs = s.runs := rfl
@[simp] theorem State.updHeat_groups (s : State) (k : HeatKey) (f : Heat → Heat) : (s.updHeat k f).groups = s.groups := rfl
@[simp] theorem State.updHeat_arb (s : State) (k : HeatKey) (f : Heat → Heat) : (s.updHeat k f).arb = s.arb := rfl
@[simp] theorem State.updHeat_token (s : State) (k : HeatKey) (f : Heat → Heat) : (s.updHeat k f).token = s.token := rfl
@[simp] theorem State.updHeat_tokenQ (s : State) (k : HeatKey) (f : Heat → Heat) : (s.updHeat k f).tokenQ = s.tokenQ := rfl
@[simp] theorem State.updHeat_lastDeal (s : State) (k : HeatKey) (f : Heat → Heat) : (s.updHeat k f).lastDeal = s.lastDeal := rfl
@[simp] theorem State.updHeat_fencedDies (s : State) (k : HeatKey) (f : Heat → Heat) : (s.updHeat k f).fencedDies = s.fencedDies := rfl
@[simp] theorem State.updHeat_suspicions (s : State) (k : HeatKey) (f : Heat → Heat) : (s.updHeat k f).suspicions = s.suspicions := rfl
@[simp] theorem State.updHeat_bist (s : State) (k : HeatKey) (f : Heat → Heat) : (s.updHeat k f).bist = s.bist := rfl
@[simp] theorem State.updHeat_resetting (s : State) (k : HeatKey) (f : Heat → Heat) : (s.updHeat k f).resetting = s.resetting := rfl
@[simp] theorem State.updHeat_fused (s : State) (k : HeatKey) (f : Heat → Heat) : (s.updHeat k f).fused = s.fused := rfl
@[simp] theorem State.updHeat_field (s : State) (k : HeatKey) (f : Heat → Heat) : (s.updHeat k f).field = s.field := rfl
@[simp] theorem State.updHeat_nvField (s : State) (k : HeatKey) (f : Heat → Heat) : (s.updHeat k f).nvField = s.nvField := rfl
@[simp] theorem State.updHeat_lanesUsed (s : State) (k : HeatKey) (f : Heat → Heat) : (s.updHeat k f).lanesUsed = s.lanesUsed := rfl
@[simp] theorem State.updHeat_sb (s : State) (k : HeatKey) (f : Heat → Heat) : (s.updHeat k f).sb = s.sb := rfl
@[simp] theorem State.updHeat_tap (s : State) (k : HeatKey) (f : Heat → Heat) : (s.updHeat k f).tap = s.tap := rfl
@[simp] theorem State.updHeat_ports (s : State) (k : HeatKey) (f : Heat → Heat) : (s.updHeat k f).ports = s.ports := rfl
@[simp] theorem State.updHeat_out (s : State) (k : HeatKey) (f : Heat → Heat) : (s.updHeat k f).out = s.out := rfl
@[simp] theorem State.updHeat_uet (s : State) (k : HeatKey) (f : Heat → Heat) : (s.updHeat k f).uet = s.uet := rfl
@[simp] theorem State.updHeat_maps (s : State) (k : HeatKey) (f : Heat → Heat) : (s.updHeat k f).maps = s.maps := rfl
@[simp] theorem State.updHeat_sbOut (s : State) (k : HeatKey) (f : Heat → Heat) : (s.updHeat k f).sbOut = s.sbOut := rfl
@[simp] theorem State.updHeat_resets (s : State) (k : HeatKey) (f : Heat → Heat) : (s.updHeat k f).resets = s.resets := rfl
@[simp] theorem State.updHeat_now (s : State) (k : HeatKey) (f : Heat → Heat) : (s.updHeat k f).now = s.now := rfl
@[simp] theorem State.updHeat_nid (s : State) (k : HeatKey) (f : Heat → Heat) : (s.updHeat k f).nid = s.nid := rfl
@[simp] theorem State.updHeat_agenda (s : State) (k : HeatKey) (f : Heat → Heat) : (s.updHeat k f).agenda = s.agenda := rfl
@[simp] theorem State.updHeat_iss (s : State) (k : HeatKey) (f : Heat → Heat) : (s.updHeat k f).iss = s.iss := rfl

/-! A lane updated. -/

@[simp] theorem State.updLane_mem (s : State) (k : HeatKey) (l : Nat) (f : Lane → Lane) : (s.updLane k l f).mem = s.mem := rfl
@[simp] theorem State.updLane_l1 (s : State) (k : HeatKey) (l : Nat) (f : Lane → Lane) : (s.updLane k l f).l1 = s.l1 := rfl
@[simp] theorem State.updLane_l1Stream (s : State) (k : HeatKey) (l : Nat) (f : Lane → Lane) : (s.updLane k l f).l1Stream = s.l1Stream := rfl
@[simp] theorem State.updLane_l2 (s : State) (k : HeatKey) (l : Nat) (f : Lane → Lane) : (s.updLane k l f).l2 = s.l2 := rfl
@[simp] theorem State.updLane_dir (s : State) (k : HeatKey) (l : Nat) (f : Lane → Lane) : (s.updLane k l f).dir = s.dir := rfl
@[simp] theorem State.updLane_dirOrder (s : State) (k : HeatKey) (l : Nat) (f : Lane → Lane) : (s.updLane k l f).dirOrder = s.dirOrder := rfl
@[simp] theorem State.updLane_backInv (s : State) (k : HeatKey) (l : Nat) (f : Lane → Lane) : (s.updLane k l f).backInv = s.backInv := rfl
@[simp] theorem State.updLane_msgs (s : State) (k : HeatKey) (l : Nat) (f : Lane → Lane) : (s.updLane k l f).msgs = s.msgs := rfl
@[simp] theorem State.updLane_txns (s : State) (k : HeatKey) (l : Nat) (f : Lane → Lane) : (s.updLane k l f).txns = s.txns := rfl
@[simp] theorem State.updLane_queued (s : State) (k : HeatKey) (l : Nat) (f : Lane → Lane) : (s.updLane k l f).queued = s.queued := rfl
@[simp] theorem State.updLane_asked (s : State) (k : HeatKey) (l : Nat) (f : Lane → Lane) : (s.updLane k l f).asked = s.asked := rfl
@[simp] theorem State.updLane_rwq (s : State) (k : HeatKey) (l : Nat) (f : Lane → Lane) : (s.updLane k l f).rwq = s.rwq := rfl
@[simp] theorem State.updLane_tlb (s : State) (k : HeatKey) (l : Nat) (f : Lane → Lane) : (s.updLane k l f).tlb = s.tlb := rfl
@[simp] theorem State.updLane_poison (s : State) (k : HeatKey) (l : Nat) (f : Lane → Lane) : (s.updLane k l f).poison = s.poison := rfl
@[simp] theorem State.updLane_retiredChunks (s : State) (k : HeatKey) (l : Nat) (f : Lane → Lane) : (s.updLane k l f).retiredChunks = s.retiredChunks := rfl
@[simp] theorem State.updLane_reqs (s : State) (k : HeatKey) (l : Nat) (f : Lane → Lane) : (s.updLane k l f).reqs = s.reqs := rfl
@[simp] theorem State.updLane_ops (s : State) (k : HeatKey) (l : Nat) (f : Lane → Lane) : (s.updLane k l f).ops = s.ops := rfl
@[simp] theorem State.updLane_rels (s : State) (k : HeatKey) (l : Nat) (f : Lane → Lane) : (s.updLane k l f).rels = s.rels := rfl
@[simp] theorem State.updLane_units (s : State) (k : HeatKey) (l : Nat) (f : Lane → Lane) : (s.updLane k l f).units = s.units := rfl
@[simp] theorem State.updLane_arrays (s : State) (k : HeatKey) (l : Nat) (f : Lane → Lane) : (s.updLane k l f).arrays = s.arrays := rfl
@[simp] theorem State.updLane_ctxs (s : State) (k : HeatKey) (l : Nat) (f : Lane → Lane) : (s.updLane k l f).ctxs = s.ctxs := rfl
@[simp] theorem State.updLane_kernels (s : State) (k : HeatKey) (l : Nat) (f : Lane → Lane) : (s.updLane k l f).kernels = s.kernels := rfl
@[simp] theorem State.updLane_lastStart (s : State) (k : HeatKey) (l : Nat) (f : Lane → Lane) : (s.updLane k l f).lastStart = s.lastStart := rfl
@[simp] theorem State.updLane_postings (s : State) (k : HeatKey) (l : Nat) (f : Lane → Lane) : (s.updLane k l f).postings = s.postings := rfl
@[simp] theorem State.updLane_records (s : State) (k : HeatKey) (l : Nat) (f : Lane → Lane) : (s.updLane k l f).records = s.records := rfl
@[simp] theorem State.updLane_postCount (s : State) (k : HeatKey) (l : Nat) (f : Lane → Lane) : (s.updLane k l f).postCount = s.postCount := rfl
@[simp] theorem State.updLane_cards (s : State) (k : HeatKey) (l : Nat) (f : Lane → Lane) : (s.updLane k l f).cards = s.cards := rfl
@[simp] theorem State.updLane_runs (s : State) (k : HeatKey) (l : Nat) (f : Lane → Lane) : (s.updLane k l f).runs = s.runs := rfl
@[simp] theorem State.updLane_groups (s : State) (k : HeatKey) (l : Nat) (f : Lane → Lane) : (s.updLane k l f).groups = s.groups := rfl
@[simp] theorem State.updLane_arb (s : State) (k : HeatKey) (l : Nat) (f : Lane → Lane) : (s.updLane k l f).arb = s.arb := rfl
@[simp] theorem State.updLane_token (s : State) (k : HeatKey) (l : Nat) (f : Lane → Lane) : (s.updLane k l f).token = s.token := rfl
@[simp] theorem State.updLane_tokenQ (s : State) (k : HeatKey) (l : Nat) (f : Lane → Lane) : (s.updLane k l f).tokenQ = s.tokenQ := rfl
@[simp] theorem State.updLane_lastDeal (s : State) (k : HeatKey) (l : Nat) (f : Lane → Lane) : (s.updLane k l f).lastDeal = s.lastDeal := rfl
@[simp] theorem State.updLane_fencedDies (s : State) (k : HeatKey) (l : Nat) (f : Lane → Lane) : (s.updLane k l f).fencedDies = s.fencedDies := rfl
@[simp] theorem State.updLane_suspicions (s : State) (k : HeatKey) (l : Nat) (f : Lane → Lane) : (s.updLane k l f).suspicions = s.suspicions := rfl
@[simp] theorem State.updLane_bist (s : State) (k : HeatKey) (l : Nat) (f : Lane → Lane) : (s.updLane k l f).bist = s.bist := rfl
@[simp] theorem State.updLane_resetting (s : State) (k : HeatKey) (l : Nat) (f : Lane → Lane) : (s.updLane k l f).resetting = s.resetting := rfl
@[simp] theorem State.updLane_fused (s : State) (k : HeatKey) (l : Nat) (f : Lane → Lane) : (s.updLane k l f).fused = s.fused := rfl
@[simp] theorem State.updLane_field (s : State) (k : HeatKey) (l : Nat) (f : Lane → Lane) : (s.updLane k l f).field = s.field := rfl
@[simp] theorem State.updLane_nvField (s : State) (k : HeatKey) (l : Nat) (f : Lane → Lane) : (s.updLane k l f).nvField = s.nvField := rfl
@[simp] theorem State.updLane_lanesUsed (s : State) (k : HeatKey) (l : Nat) (f : Lane → Lane) : (s.updLane k l f).lanesUsed = s.lanesUsed := rfl
@[simp] theorem State.updLane_sb (s : State) (k : HeatKey) (l : Nat) (f : Lane → Lane) : (s.updLane k l f).sb = s.sb := rfl
@[simp] theorem State.updLane_tap (s : State) (k : HeatKey) (l : Nat) (f : Lane → Lane) : (s.updLane k l f).tap = s.tap := rfl
@[simp] theorem State.updLane_ports (s : State) (k : HeatKey) (l : Nat) (f : Lane → Lane) : (s.updLane k l f).ports = s.ports := rfl
@[simp] theorem State.updLane_out (s : State) (k : HeatKey) (l : Nat) (f : Lane → Lane) : (s.updLane k l f).out = s.out := rfl
@[simp] theorem State.updLane_uet (s : State) (k : HeatKey) (l : Nat) (f : Lane → Lane) : (s.updLane k l f).uet = s.uet := rfl
@[simp] theorem State.updLane_maps (s : State) (k : HeatKey) (l : Nat) (f : Lane → Lane) : (s.updLane k l f).maps = s.maps := rfl
@[simp] theorem State.updLane_sbOut (s : State) (k : HeatKey) (l : Nat) (f : Lane → Lane) : (s.updLane k l f).sbOut = s.sbOut := rfl
@[simp] theorem State.updLane_resets (s : State) (k : HeatKey) (l : Nat) (f : Lane → Lane) : (s.updLane k l f).resets = s.resets := rfl
@[simp] theorem State.updLane_now (s : State) (k : HeatKey) (l : Nat) (f : Lane → Lane) : (s.updLane k l f).now = s.now := rfl
@[simp] theorem State.updLane_nid (s : State) (k : HeatKey) (l : Nat) (f : Lane → Lane) : (s.updLane k l f).nid = s.nid := rfl
@[simp] theorem State.updLane_agenda (s : State) (k : HeatKey) (l : Nat) (f : Lane → Lane) : (s.updLane k l f).agenda = s.agenda := rfl
@[simp] theorem State.updLane_iss (s : State) (k : HeatKey) (l : Nat) (f : Lane → Lane) : (s.updLane k l f).iss = s.iss := rfl

/-! A unit updated. -/

@[simp] theorem State.updUnit_mem (s : State) (i : Nat) (f : RUnit → RUnit) : (s.updUnit i f).mem = s.mem := rfl
@[simp] theorem State.updUnit_l1 (s : State) (i : Nat) (f : RUnit → RUnit) : (s.updUnit i f).l1 = s.l1 := rfl
@[simp] theorem State.updUnit_l1Stream (s : State) (i : Nat) (f : RUnit → RUnit) : (s.updUnit i f).l1Stream = s.l1Stream := rfl
@[simp] theorem State.updUnit_l2 (s : State) (i : Nat) (f : RUnit → RUnit) : (s.updUnit i f).l2 = s.l2 := rfl
@[simp] theorem State.updUnit_dir (s : State) (i : Nat) (f : RUnit → RUnit) : (s.updUnit i f).dir = s.dir := rfl
@[simp] theorem State.updUnit_dirOrder (s : State) (i : Nat) (f : RUnit → RUnit) : (s.updUnit i f).dirOrder = s.dirOrder := rfl
@[simp] theorem State.updUnit_backInv (s : State) (i : Nat) (f : RUnit → RUnit) : (s.updUnit i f).backInv = s.backInv := rfl
@[simp] theorem State.updUnit_msgs (s : State) (i : Nat) (f : RUnit → RUnit) : (s.updUnit i f).msgs = s.msgs := rfl
@[simp] theorem State.updUnit_txns (s : State) (i : Nat) (f : RUnit → RUnit) : (s.updUnit i f).txns = s.txns := rfl
@[simp] theorem State.updUnit_queued (s : State) (i : Nat) (f : RUnit → RUnit) : (s.updUnit i f).queued = s.queued := rfl
@[simp] theorem State.updUnit_asked (s : State) (i : Nat) (f : RUnit → RUnit) : (s.updUnit i f).asked = s.asked := rfl
@[simp] theorem State.updUnit_rwq (s : State) (i : Nat) (f : RUnit → RUnit) : (s.updUnit i f).rwq = s.rwq := rfl
@[simp] theorem State.updUnit_tlb (s : State) (i : Nat) (f : RUnit → RUnit) : (s.updUnit i f).tlb = s.tlb := rfl
@[simp] theorem State.updUnit_poison (s : State) (i : Nat) (f : RUnit → RUnit) : (s.updUnit i f).poison = s.poison := rfl
@[simp] theorem State.updUnit_retiredChunks (s : State) (i : Nat) (f : RUnit → RUnit) : (s.updUnit i f).retiredChunks = s.retiredChunks := rfl
@[simp] theorem State.updUnit_reqs (s : State) (i : Nat) (f : RUnit → RUnit) : (s.updUnit i f).reqs = s.reqs := rfl
@[simp] theorem State.updUnit_ops (s : State) (i : Nat) (f : RUnit → RUnit) : (s.updUnit i f).ops = s.ops := rfl
@[simp] theorem State.updUnit_rels (s : State) (i : Nat) (f : RUnit → RUnit) : (s.updUnit i f).rels = s.rels := rfl
@[simp] theorem State.updUnit_heats (s : State) (i : Nat) (f : RUnit → RUnit) : (s.updUnit i f).heats = s.heats := rfl
@[simp] theorem State.updUnit_arrays (s : State) (i : Nat) (f : RUnit → RUnit) : (s.updUnit i f).arrays = s.arrays := rfl
@[simp] theorem State.updUnit_ctxs (s : State) (i : Nat) (f : RUnit → RUnit) : (s.updUnit i f).ctxs = s.ctxs := rfl
@[simp] theorem State.updUnit_kernels (s : State) (i : Nat) (f : RUnit → RUnit) : (s.updUnit i f).kernels = s.kernels := rfl
@[simp] theorem State.updUnit_lastStart (s : State) (i : Nat) (f : RUnit → RUnit) : (s.updUnit i f).lastStart = s.lastStart := rfl
@[simp] theorem State.updUnit_postings (s : State) (i : Nat) (f : RUnit → RUnit) : (s.updUnit i f).postings = s.postings := rfl
@[simp] theorem State.updUnit_records (s : State) (i : Nat) (f : RUnit → RUnit) : (s.updUnit i f).records = s.records := rfl
@[simp] theorem State.updUnit_postCount (s : State) (i : Nat) (f : RUnit → RUnit) : (s.updUnit i f).postCount = s.postCount := rfl
@[simp] theorem State.updUnit_cards (s : State) (i : Nat) (f : RUnit → RUnit) : (s.updUnit i f).cards = s.cards := rfl
@[simp] theorem State.updUnit_runs (s : State) (i : Nat) (f : RUnit → RUnit) : (s.updUnit i f).runs = s.runs := rfl
@[simp] theorem State.updUnit_groups (s : State) (i : Nat) (f : RUnit → RUnit) : (s.updUnit i f).groups = s.groups := rfl
@[simp] theorem State.updUnit_arb (s : State) (i : Nat) (f : RUnit → RUnit) : (s.updUnit i f).arb = s.arb := rfl
@[simp] theorem State.updUnit_token (s : State) (i : Nat) (f : RUnit → RUnit) : (s.updUnit i f).token = s.token := rfl
@[simp] theorem State.updUnit_tokenQ (s : State) (i : Nat) (f : RUnit → RUnit) : (s.updUnit i f).tokenQ = s.tokenQ := rfl
@[simp] theorem State.updUnit_lastDeal (s : State) (i : Nat) (f : RUnit → RUnit) : (s.updUnit i f).lastDeal = s.lastDeal := rfl
@[simp] theorem State.updUnit_fencedDies (s : State) (i : Nat) (f : RUnit → RUnit) : (s.updUnit i f).fencedDies = s.fencedDies := rfl
@[simp] theorem State.updUnit_suspicions (s : State) (i : Nat) (f : RUnit → RUnit) : (s.updUnit i f).suspicions = s.suspicions := rfl
@[simp] theorem State.updUnit_bist (s : State) (i : Nat) (f : RUnit → RUnit) : (s.updUnit i f).bist = s.bist := rfl
@[simp] theorem State.updUnit_resetting (s : State) (i : Nat) (f : RUnit → RUnit) : (s.updUnit i f).resetting = s.resetting := rfl
@[simp] theorem State.updUnit_fused (s : State) (i : Nat) (f : RUnit → RUnit) : (s.updUnit i f).fused = s.fused := rfl
@[simp] theorem State.updUnit_field (s : State) (i : Nat) (f : RUnit → RUnit) : (s.updUnit i f).field = s.field := rfl
@[simp] theorem State.updUnit_nvField (s : State) (i : Nat) (f : RUnit → RUnit) : (s.updUnit i f).nvField = s.nvField := rfl
@[simp] theorem State.updUnit_lanesUsed (s : State) (i : Nat) (f : RUnit → RUnit) : (s.updUnit i f).lanesUsed = s.lanesUsed := rfl
@[simp] theorem State.updUnit_sb (s : State) (i : Nat) (f : RUnit → RUnit) : (s.updUnit i f).sb = s.sb := rfl
@[simp] theorem State.updUnit_tap (s : State) (i : Nat) (f : RUnit → RUnit) : (s.updUnit i f).tap = s.tap := rfl
@[simp] theorem State.updUnit_ports (s : State) (i : Nat) (f : RUnit → RUnit) : (s.updUnit i f).ports = s.ports := rfl
@[simp] theorem State.updUnit_out (s : State) (i : Nat) (f : RUnit → RUnit) : (s.updUnit i f).out = s.out := rfl
@[simp] theorem State.updUnit_uet (s : State) (i : Nat) (f : RUnit → RUnit) : (s.updUnit i f).uet = s.uet := rfl
@[simp] theorem State.updUnit_maps (s : State) (i : Nat) (f : RUnit → RUnit) : (s.updUnit i f).maps = s.maps := rfl
@[simp] theorem State.updUnit_sbOut (s : State) (i : Nat) (f : RUnit → RUnit) : (s.updUnit i f).sbOut = s.sbOut := rfl
@[simp] theorem State.updUnit_resets (s : State) (i : Nat) (f : RUnit → RUnit) : (s.updUnit i f).resets = s.resets := rfl
@[simp] theorem State.updUnit_now (s : State) (i : Nat) (f : RUnit → RUnit) : (s.updUnit i f).now = s.now := rfl
@[simp] theorem State.updUnit_nid (s : State) (i : Nat) (f : RUnit → RUnit) : (s.updUnit i f).nid = s.nid := rfl
@[simp] theorem State.updUnit_agenda (s : State) (i : Nat) (f : RUnit → RUnit) : (s.updUnit i f).agenda = s.agenda := rfl
@[simp] theorem State.updUnit_iss (s : State) (i : Nat) (f : RUnit → RUnit) : (s.updUnit i f).iss = s.iss := rfl

/-! A team updated. -/

@[simp] theorem State.updTeam_mem (s : State) (i t : Nat) (f : Team → Team) : (s.updTeam i t f).mem = s.mem := rfl
@[simp] theorem State.updTeam_l1 (s : State) (i t : Nat) (f : Team → Team) : (s.updTeam i t f).l1 = s.l1 := rfl
@[simp] theorem State.updTeam_l1Stream (s : State) (i t : Nat) (f : Team → Team) : (s.updTeam i t f).l1Stream = s.l1Stream := rfl
@[simp] theorem State.updTeam_l2 (s : State) (i t : Nat) (f : Team → Team) : (s.updTeam i t f).l2 = s.l2 := rfl
@[simp] theorem State.updTeam_dir (s : State) (i t : Nat) (f : Team → Team) : (s.updTeam i t f).dir = s.dir := rfl
@[simp] theorem State.updTeam_dirOrder (s : State) (i t : Nat) (f : Team → Team) : (s.updTeam i t f).dirOrder = s.dirOrder := rfl
@[simp] theorem State.updTeam_backInv (s : State) (i t : Nat) (f : Team → Team) : (s.updTeam i t f).backInv = s.backInv := rfl
@[simp] theorem State.updTeam_msgs (s : State) (i t : Nat) (f : Team → Team) : (s.updTeam i t f).msgs = s.msgs := rfl
@[simp] theorem State.updTeam_txns (s : State) (i t : Nat) (f : Team → Team) : (s.updTeam i t f).txns = s.txns := rfl
@[simp] theorem State.updTeam_queued (s : State) (i t : Nat) (f : Team → Team) : (s.updTeam i t f).queued = s.queued := rfl
@[simp] theorem State.updTeam_asked (s : State) (i t : Nat) (f : Team → Team) : (s.updTeam i t f).asked = s.asked := rfl
@[simp] theorem State.updTeam_rwq (s : State) (i t : Nat) (f : Team → Team) : (s.updTeam i t f).rwq = s.rwq := rfl
@[simp] theorem State.updTeam_tlb (s : State) (i t : Nat) (f : Team → Team) : (s.updTeam i t f).tlb = s.tlb := rfl
@[simp] theorem State.updTeam_poison (s : State) (i t : Nat) (f : Team → Team) : (s.updTeam i t f).poison = s.poison := rfl
@[simp] theorem State.updTeam_retiredChunks (s : State) (i t : Nat) (f : Team → Team) : (s.updTeam i t f).retiredChunks = s.retiredChunks := rfl
@[simp] theorem State.updTeam_reqs (s : State) (i t : Nat) (f : Team → Team) : (s.updTeam i t f).reqs = s.reqs := rfl
@[simp] theorem State.updTeam_ops (s : State) (i t : Nat) (f : Team → Team) : (s.updTeam i t f).ops = s.ops := rfl
@[simp] theorem State.updTeam_rels (s : State) (i t : Nat) (f : Team → Team) : (s.updTeam i t f).rels = s.rels := rfl
@[simp] theorem State.updTeam_heats (s : State) (i t : Nat) (f : Team → Team) : (s.updTeam i t f).heats = s.heats := rfl
@[simp] theorem State.updTeam_arrays (s : State) (i t : Nat) (f : Team → Team) : (s.updTeam i t f).arrays = s.arrays := rfl
@[simp] theorem State.updTeam_ctxs (s : State) (i t : Nat) (f : Team → Team) : (s.updTeam i t f).ctxs = s.ctxs := rfl
@[simp] theorem State.updTeam_kernels (s : State) (i t : Nat) (f : Team → Team) : (s.updTeam i t f).kernels = s.kernels := rfl
@[simp] theorem State.updTeam_lastStart (s : State) (i t : Nat) (f : Team → Team) : (s.updTeam i t f).lastStart = s.lastStart := rfl
@[simp] theorem State.updTeam_postings (s : State) (i t : Nat) (f : Team → Team) : (s.updTeam i t f).postings = s.postings := rfl
@[simp] theorem State.updTeam_records (s : State) (i t : Nat) (f : Team → Team) : (s.updTeam i t f).records = s.records := rfl
@[simp] theorem State.updTeam_postCount (s : State) (i t : Nat) (f : Team → Team) : (s.updTeam i t f).postCount = s.postCount := rfl
@[simp] theorem State.updTeam_cards (s : State) (i t : Nat) (f : Team → Team) : (s.updTeam i t f).cards = s.cards := rfl
@[simp] theorem State.updTeam_runs (s : State) (i t : Nat) (f : Team → Team) : (s.updTeam i t f).runs = s.runs := rfl
@[simp] theorem State.updTeam_groups (s : State) (i t : Nat) (f : Team → Team) : (s.updTeam i t f).groups = s.groups := rfl
@[simp] theorem State.updTeam_arb (s : State) (i t : Nat) (f : Team → Team) : (s.updTeam i t f).arb = s.arb := rfl
@[simp] theorem State.updTeam_token (s : State) (i t : Nat) (f : Team → Team) : (s.updTeam i t f).token = s.token := rfl
@[simp] theorem State.updTeam_tokenQ (s : State) (i t : Nat) (f : Team → Team) : (s.updTeam i t f).tokenQ = s.tokenQ := rfl
@[simp] theorem State.updTeam_lastDeal (s : State) (i t : Nat) (f : Team → Team) : (s.updTeam i t f).lastDeal = s.lastDeal := rfl
@[simp] theorem State.updTeam_fencedDies (s : State) (i t : Nat) (f : Team → Team) : (s.updTeam i t f).fencedDies = s.fencedDies := rfl
@[simp] theorem State.updTeam_suspicions (s : State) (i t : Nat) (f : Team → Team) : (s.updTeam i t f).suspicions = s.suspicions := rfl
@[simp] theorem State.updTeam_bist (s : State) (i t : Nat) (f : Team → Team) : (s.updTeam i t f).bist = s.bist := rfl
@[simp] theorem State.updTeam_resetting (s : State) (i t : Nat) (f : Team → Team) : (s.updTeam i t f).resetting = s.resetting := rfl
@[simp] theorem State.updTeam_fused (s : State) (i t : Nat) (f : Team → Team) : (s.updTeam i t f).fused = s.fused := rfl
@[simp] theorem State.updTeam_field (s : State) (i t : Nat) (f : Team → Team) : (s.updTeam i t f).field = s.field := rfl
@[simp] theorem State.updTeam_nvField (s : State) (i t : Nat) (f : Team → Team) : (s.updTeam i t f).nvField = s.nvField := rfl
@[simp] theorem State.updTeam_lanesUsed (s : State) (i t : Nat) (f : Team → Team) : (s.updTeam i t f).lanesUsed = s.lanesUsed := rfl
@[simp] theorem State.updTeam_sb (s : State) (i t : Nat) (f : Team → Team) : (s.updTeam i t f).sb = s.sb := rfl
@[simp] theorem State.updTeam_tap (s : State) (i t : Nat) (f : Team → Team) : (s.updTeam i t f).tap = s.tap := rfl
@[simp] theorem State.updTeam_ports (s : State) (i t : Nat) (f : Team → Team) : (s.updTeam i t f).ports = s.ports := rfl
@[simp] theorem State.updTeam_out (s : State) (i t : Nat) (f : Team → Team) : (s.updTeam i t f).out = s.out := rfl
@[simp] theorem State.updTeam_uet (s : State) (i t : Nat) (f : Team → Team) : (s.updTeam i t f).uet = s.uet := rfl
@[simp] theorem State.updTeam_maps (s : State) (i t : Nat) (f : Team → Team) : (s.updTeam i t f).maps = s.maps := rfl
@[simp] theorem State.updTeam_sbOut (s : State) (i t : Nat) (f : Team → Team) : (s.updTeam i t f).sbOut = s.sbOut := rfl
@[simp] theorem State.updTeam_resets (s : State) (i t : Nat) (f : Team → Team) : (s.updTeam i t f).resets = s.resets := rfl
@[simp] theorem State.updTeam_now (s : State) (i t : Nat) (f : Team → Team) : (s.updTeam i t f).now = s.now := rfl
@[simp] theorem State.updTeam_nid (s : State) (i t : Nat) (f : Team → Team) : (s.updTeam i t f).nid = s.nid := rfl
@[simp] theorem State.updTeam_agenda (s : State) (i t : Nat) (f : Team → Team) : (s.updTeam i t f).agenda = s.agenda := rfl
@[simp] theorem State.updTeam_iss (s : State) (i t : Nat) (f : Team → Team) : (s.updTeam i t f).iss = s.iss := rfl

/-! A context updated. -/

@[simp] theorem State.updCtx_mem (s : State) (c : Nat) (f : Ctx → Ctx) : (s.updCtx c f).mem = s.mem := rfl
@[simp] theorem State.updCtx_l1 (s : State) (c : Nat) (f : Ctx → Ctx) : (s.updCtx c f).l1 = s.l1 := rfl
@[simp] theorem State.updCtx_l1Stream (s : State) (c : Nat) (f : Ctx → Ctx) : (s.updCtx c f).l1Stream = s.l1Stream := rfl
@[simp] theorem State.updCtx_l2 (s : State) (c : Nat) (f : Ctx → Ctx) : (s.updCtx c f).l2 = s.l2 := rfl
@[simp] theorem State.updCtx_dir (s : State) (c : Nat) (f : Ctx → Ctx) : (s.updCtx c f).dir = s.dir := rfl
@[simp] theorem State.updCtx_dirOrder (s : State) (c : Nat) (f : Ctx → Ctx) : (s.updCtx c f).dirOrder = s.dirOrder := rfl
@[simp] theorem State.updCtx_backInv (s : State) (c : Nat) (f : Ctx → Ctx) : (s.updCtx c f).backInv = s.backInv := rfl
@[simp] theorem State.updCtx_msgs (s : State) (c : Nat) (f : Ctx → Ctx) : (s.updCtx c f).msgs = s.msgs := rfl
@[simp] theorem State.updCtx_txns (s : State) (c : Nat) (f : Ctx → Ctx) : (s.updCtx c f).txns = s.txns := rfl
@[simp] theorem State.updCtx_queued (s : State) (c : Nat) (f : Ctx → Ctx) : (s.updCtx c f).queued = s.queued := rfl
@[simp] theorem State.updCtx_asked (s : State) (c : Nat) (f : Ctx → Ctx) : (s.updCtx c f).asked = s.asked := rfl
@[simp] theorem State.updCtx_rwq (s : State) (c : Nat) (f : Ctx → Ctx) : (s.updCtx c f).rwq = s.rwq := rfl
@[simp] theorem State.updCtx_tlb (s : State) (c : Nat) (f : Ctx → Ctx) : (s.updCtx c f).tlb = s.tlb := rfl
@[simp] theorem State.updCtx_poison (s : State) (c : Nat) (f : Ctx → Ctx) : (s.updCtx c f).poison = s.poison := rfl
@[simp] theorem State.updCtx_retiredChunks (s : State) (c : Nat) (f : Ctx → Ctx) : (s.updCtx c f).retiredChunks = s.retiredChunks := rfl
@[simp] theorem State.updCtx_reqs (s : State) (c : Nat) (f : Ctx → Ctx) : (s.updCtx c f).reqs = s.reqs := rfl
@[simp] theorem State.updCtx_ops (s : State) (c : Nat) (f : Ctx → Ctx) : (s.updCtx c f).ops = s.ops := rfl
@[simp] theorem State.updCtx_rels (s : State) (c : Nat) (f : Ctx → Ctx) : (s.updCtx c f).rels = s.rels := rfl
@[simp] theorem State.updCtx_heats (s : State) (c : Nat) (f : Ctx → Ctx) : (s.updCtx c f).heats = s.heats := rfl
@[simp] theorem State.updCtx_units (s : State) (c : Nat) (f : Ctx → Ctx) : (s.updCtx c f).units = s.units := rfl
@[simp] theorem State.updCtx_arrays (s : State) (c : Nat) (f : Ctx → Ctx) : (s.updCtx c f).arrays = s.arrays := rfl
@[simp] theorem State.updCtx_kernels (s : State) (c : Nat) (f : Ctx → Ctx) : (s.updCtx c f).kernels = s.kernels := rfl
@[simp] theorem State.updCtx_lastStart (s : State) (c : Nat) (f : Ctx → Ctx) : (s.updCtx c f).lastStart = s.lastStart := rfl
@[simp] theorem State.updCtx_postings (s : State) (c : Nat) (f : Ctx → Ctx) : (s.updCtx c f).postings = s.postings := rfl
@[simp] theorem State.updCtx_records (s : State) (c : Nat) (f : Ctx → Ctx) : (s.updCtx c f).records = s.records := rfl
@[simp] theorem State.updCtx_postCount (s : State) (c : Nat) (f : Ctx → Ctx) : (s.updCtx c f).postCount = s.postCount := rfl
@[simp] theorem State.updCtx_cards (s : State) (c : Nat) (f : Ctx → Ctx) : (s.updCtx c f).cards = s.cards := rfl
@[simp] theorem State.updCtx_runs (s : State) (c : Nat) (f : Ctx → Ctx) : (s.updCtx c f).runs = s.runs := rfl
@[simp] theorem State.updCtx_groups (s : State) (c : Nat) (f : Ctx → Ctx) : (s.updCtx c f).groups = s.groups := rfl
@[simp] theorem State.updCtx_arb (s : State) (c : Nat) (f : Ctx → Ctx) : (s.updCtx c f).arb = s.arb := rfl
@[simp] theorem State.updCtx_token (s : State) (c : Nat) (f : Ctx → Ctx) : (s.updCtx c f).token = s.token := rfl
@[simp] theorem State.updCtx_tokenQ (s : State) (c : Nat) (f : Ctx → Ctx) : (s.updCtx c f).tokenQ = s.tokenQ := rfl
@[simp] theorem State.updCtx_lastDeal (s : State) (c : Nat) (f : Ctx → Ctx) : (s.updCtx c f).lastDeal = s.lastDeal := rfl
@[simp] theorem State.updCtx_fencedDies (s : State) (c : Nat) (f : Ctx → Ctx) : (s.updCtx c f).fencedDies = s.fencedDies := rfl
@[simp] theorem State.updCtx_suspicions (s : State) (c : Nat) (f : Ctx → Ctx) : (s.updCtx c f).suspicions = s.suspicions := rfl
@[simp] theorem State.updCtx_bist (s : State) (c : Nat) (f : Ctx → Ctx) : (s.updCtx c f).bist = s.bist := rfl
@[simp] theorem State.updCtx_resetting (s : State) (c : Nat) (f : Ctx → Ctx) : (s.updCtx c f).resetting = s.resetting := rfl
@[simp] theorem State.updCtx_fused (s : State) (c : Nat) (f : Ctx → Ctx) : (s.updCtx c f).fused = s.fused := rfl
@[simp] theorem State.updCtx_field (s : State) (c : Nat) (f : Ctx → Ctx) : (s.updCtx c f).field = s.field := rfl
@[simp] theorem State.updCtx_nvField (s : State) (c : Nat) (f : Ctx → Ctx) : (s.updCtx c f).nvField = s.nvField := rfl
@[simp] theorem State.updCtx_lanesUsed (s : State) (c : Nat) (f : Ctx → Ctx) : (s.updCtx c f).lanesUsed = s.lanesUsed := rfl
@[simp] theorem State.updCtx_sb (s : State) (c : Nat) (f : Ctx → Ctx) : (s.updCtx c f).sb = s.sb := rfl
@[simp] theorem State.updCtx_tap (s : State) (c : Nat) (f : Ctx → Ctx) : (s.updCtx c f).tap = s.tap := rfl
@[simp] theorem State.updCtx_ports (s : State) (c : Nat) (f : Ctx → Ctx) : (s.updCtx c f).ports = s.ports := rfl
@[simp] theorem State.updCtx_out (s : State) (c : Nat) (f : Ctx → Ctx) : (s.updCtx c f).out = s.out := rfl
@[simp] theorem State.updCtx_uet (s : State) (c : Nat) (f : Ctx → Ctx) : (s.updCtx c f).uet = s.uet := rfl
@[simp] theorem State.updCtx_maps (s : State) (c : Nat) (f : Ctx → Ctx) : (s.updCtx c f).maps = s.maps := rfl
@[simp] theorem State.updCtx_sbOut (s : State) (c : Nat) (f : Ctx → Ctx) : (s.updCtx c f).sbOut = s.sbOut := rfl
@[simp] theorem State.updCtx_resets (s : State) (c : Nat) (f : Ctx → Ctx) : (s.updCtx c f).resets = s.resets := rfl
@[simp] theorem State.updCtx_now (s : State) (c : Nat) (f : Ctx → Ctx) : (s.updCtx c f).now = s.now := rfl
@[simp] theorem State.updCtx_nid (s : State) (c : Nat) (f : Ctx → Ctx) : (s.updCtx c f).nid = s.nid := rfl
@[simp] theorem State.updCtx_agenda (s : State) (c : Nat) (f : Ctx → Ctx) : (s.updCtx c f).agenda = s.agenda := rfl
@[simp] theorem State.updCtx_iss (s : State) (c : Nat) (f : Ctx → Ctx) : (s.updCtx c f).iss = s.iss := rfl

/-! A kernel updated. -/

@[simp] theorem State.updKernel_mem (s : State) (c n : Nat) (f : Kernel → Kernel) : (s.updKernel c n f).mem = s.mem := rfl
@[simp] theorem State.updKernel_l1 (s : State) (c n : Nat) (f : Kernel → Kernel) : (s.updKernel c n f).l1 = s.l1 := rfl
@[simp] theorem State.updKernel_l1Stream (s : State) (c n : Nat) (f : Kernel → Kernel) : (s.updKernel c n f).l1Stream = s.l1Stream := rfl
@[simp] theorem State.updKernel_l2 (s : State) (c n : Nat) (f : Kernel → Kernel) : (s.updKernel c n f).l2 = s.l2 := rfl
@[simp] theorem State.updKernel_dir (s : State) (c n : Nat) (f : Kernel → Kernel) : (s.updKernel c n f).dir = s.dir := rfl
@[simp] theorem State.updKernel_dirOrder (s : State) (c n : Nat) (f : Kernel → Kernel) : (s.updKernel c n f).dirOrder = s.dirOrder := rfl
@[simp] theorem State.updKernel_backInv (s : State) (c n : Nat) (f : Kernel → Kernel) : (s.updKernel c n f).backInv = s.backInv := rfl
@[simp] theorem State.updKernel_msgs (s : State) (c n : Nat) (f : Kernel → Kernel) : (s.updKernel c n f).msgs = s.msgs := rfl
@[simp] theorem State.updKernel_txns (s : State) (c n : Nat) (f : Kernel → Kernel) : (s.updKernel c n f).txns = s.txns := rfl
@[simp] theorem State.updKernel_queued (s : State) (c n : Nat) (f : Kernel → Kernel) : (s.updKernel c n f).queued = s.queued := rfl
@[simp] theorem State.updKernel_asked (s : State) (c n : Nat) (f : Kernel → Kernel) : (s.updKernel c n f).asked = s.asked := rfl
@[simp] theorem State.updKernel_rwq (s : State) (c n : Nat) (f : Kernel → Kernel) : (s.updKernel c n f).rwq = s.rwq := rfl
@[simp] theorem State.updKernel_tlb (s : State) (c n : Nat) (f : Kernel → Kernel) : (s.updKernel c n f).tlb = s.tlb := rfl
@[simp] theorem State.updKernel_poison (s : State) (c n : Nat) (f : Kernel → Kernel) : (s.updKernel c n f).poison = s.poison := rfl
@[simp] theorem State.updKernel_retiredChunks (s : State) (c n : Nat) (f : Kernel → Kernel) : (s.updKernel c n f).retiredChunks = s.retiredChunks := rfl
@[simp] theorem State.updKernel_reqs (s : State) (c n : Nat) (f : Kernel → Kernel) : (s.updKernel c n f).reqs = s.reqs := rfl
@[simp] theorem State.updKernel_ops (s : State) (c n : Nat) (f : Kernel → Kernel) : (s.updKernel c n f).ops = s.ops := rfl
@[simp] theorem State.updKernel_rels (s : State) (c n : Nat) (f : Kernel → Kernel) : (s.updKernel c n f).rels = s.rels := rfl
@[simp] theorem State.updKernel_heats (s : State) (c n : Nat) (f : Kernel → Kernel) : (s.updKernel c n f).heats = s.heats := rfl
@[simp] theorem State.updKernel_units (s : State) (c n : Nat) (f : Kernel → Kernel) : (s.updKernel c n f).units = s.units := rfl
@[simp] theorem State.updKernel_arrays (s : State) (c n : Nat) (f : Kernel → Kernel) : (s.updKernel c n f).arrays = s.arrays := rfl
@[simp] theorem State.updKernel_ctxs (s : State) (c n : Nat) (f : Kernel → Kernel) : (s.updKernel c n f).ctxs = s.ctxs := rfl
@[simp] theorem State.updKernel_lastStart (s : State) (c n : Nat) (f : Kernel → Kernel) : (s.updKernel c n f).lastStart = s.lastStart := rfl
@[simp] theorem State.updKernel_postings (s : State) (c n : Nat) (f : Kernel → Kernel) : (s.updKernel c n f).postings = s.postings := rfl
@[simp] theorem State.updKernel_records (s : State) (c n : Nat) (f : Kernel → Kernel) : (s.updKernel c n f).records = s.records := rfl
@[simp] theorem State.updKernel_postCount (s : State) (c n : Nat) (f : Kernel → Kernel) : (s.updKernel c n f).postCount = s.postCount := rfl
@[simp] theorem State.updKernel_cards (s : State) (c n : Nat) (f : Kernel → Kernel) : (s.updKernel c n f).cards = s.cards := rfl
@[simp] theorem State.updKernel_runs (s : State) (c n : Nat) (f : Kernel → Kernel) : (s.updKernel c n f).runs = s.runs := rfl
@[simp] theorem State.updKernel_groups (s : State) (c n : Nat) (f : Kernel → Kernel) : (s.updKernel c n f).groups = s.groups := rfl
@[simp] theorem State.updKernel_arb (s : State) (c n : Nat) (f : Kernel → Kernel) : (s.updKernel c n f).arb = s.arb := rfl
@[simp] theorem State.updKernel_token (s : State) (c n : Nat) (f : Kernel → Kernel) : (s.updKernel c n f).token = s.token := rfl
@[simp] theorem State.updKernel_tokenQ (s : State) (c n : Nat) (f : Kernel → Kernel) : (s.updKernel c n f).tokenQ = s.tokenQ := rfl
@[simp] theorem State.updKernel_lastDeal (s : State) (c n : Nat) (f : Kernel → Kernel) : (s.updKernel c n f).lastDeal = s.lastDeal := rfl
@[simp] theorem State.updKernel_fencedDies (s : State) (c n : Nat) (f : Kernel → Kernel) : (s.updKernel c n f).fencedDies = s.fencedDies := rfl
@[simp] theorem State.updKernel_suspicions (s : State) (c n : Nat) (f : Kernel → Kernel) : (s.updKernel c n f).suspicions = s.suspicions := rfl
@[simp] theorem State.updKernel_bist (s : State) (c n : Nat) (f : Kernel → Kernel) : (s.updKernel c n f).bist = s.bist := rfl
@[simp] theorem State.updKernel_resetting (s : State) (c n : Nat) (f : Kernel → Kernel) : (s.updKernel c n f).resetting = s.resetting := rfl
@[simp] theorem State.updKernel_fused (s : State) (c n : Nat) (f : Kernel → Kernel) : (s.updKernel c n f).fused = s.fused := rfl
@[simp] theorem State.updKernel_field (s : State) (c n : Nat) (f : Kernel → Kernel) : (s.updKernel c n f).field = s.field := rfl
@[simp] theorem State.updKernel_nvField (s : State) (c n : Nat) (f : Kernel → Kernel) : (s.updKernel c n f).nvField = s.nvField := rfl
@[simp] theorem State.updKernel_lanesUsed (s : State) (c n : Nat) (f : Kernel → Kernel) : (s.updKernel c n f).lanesUsed = s.lanesUsed := rfl
@[simp] theorem State.updKernel_sb (s : State) (c n : Nat) (f : Kernel → Kernel) : (s.updKernel c n f).sb = s.sb := rfl
@[simp] theorem State.updKernel_tap (s : State) (c n : Nat) (f : Kernel → Kernel) : (s.updKernel c n f).tap = s.tap := rfl
@[simp] theorem State.updKernel_ports (s : State) (c n : Nat) (f : Kernel → Kernel) : (s.updKernel c n f).ports = s.ports := rfl
@[simp] theorem State.updKernel_out (s : State) (c n : Nat) (f : Kernel → Kernel) : (s.updKernel c n f).out = s.out := rfl
@[simp] theorem State.updKernel_uet (s : State) (c n : Nat) (f : Kernel → Kernel) : (s.updKernel c n f).uet = s.uet := rfl
@[simp] theorem State.updKernel_maps (s : State) (c n : Nat) (f : Kernel → Kernel) : (s.updKernel c n f).maps = s.maps := rfl
@[simp] theorem State.updKernel_sbOut (s : State) (c n : Nat) (f : Kernel → Kernel) : (s.updKernel c n f).sbOut = s.sbOut := rfl
@[simp] theorem State.updKernel_resets (s : State) (c n : Nat) (f : Kernel → Kernel) : (s.updKernel c n f).resets = s.resets := rfl
@[simp] theorem State.updKernel_now (s : State) (c n : Nat) (f : Kernel → Kernel) : (s.updKernel c n f).now = s.now := rfl
@[simp] theorem State.updKernel_nid (s : State) (c n : Nat) (f : Kernel → Kernel) : (s.updKernel c n f).nid = s.nid := rfl
@[simp] theorem State.updKernel_agenda (s : State) (c n : Nat) (f : Kernel → Kernel) : (s.updKernel c n f).agenda = s.agenda := rfl
@[simp] theorem State.updKernel_iss (s : State) (c n : Nat) (f : Kernel → Kernel) : (s.updKernel c n f).iss = s.iss := rfl

/-! A run updated. -/

@[simp] theorem State.updRun_mem (s : State) (i : Nat) (f : Run → Run) : (s.updRun i f).mem = s.mem := rfl
@[simp] theorem State.updRun_l1 (s : State) (i : Nat) (f : Run → Run) : (s.updRun i f).l1 = s.l1 := rfl
@[simp] theorem State.updRun_l1Stream (s : State) (i : Nat) (f : Run → Run) : (s.updRun i f).l1Stream = s.l1Stream := rfl
@[simp] theorem State.updRun_l2 (s : State) (i : Nat) (f : Run → Run) : (s.updRun i f).l2 = s.l2 := rfl
@[simp] theorem State.updRun_dir (s : State) (i : Nat) (f : Run → Run) : (s.updRun i f).dir = s.dir := rfl
@[simp] theorem State.updRun_dirOrder (s : State) (i : Nat) (f : Run → Run) : (s.updRun i f).dirOrder = s.dirOrder := rfl
@[simp] theorem State.updRun_backInv (s : State) (i : Nat) (f : Run → Run) : (s.updRun i f).backInv = s.backInv := rfl
@[simp] theorem State.updRun_msgs (s : State) (i : Nat) (f : Run → Run) : (s.updRun i f).msgs = s.msgs := rfl
@[simp] theorem State.updRun_txns (s : State) (i : Nat) (f : Run → Run) : (s.updRun i f).txns = s.txns := rfl
@[simp] theorem State.updRun_queued (s : State) (i : Nat) (f : Run → Run) : (s.updRun i f).queued = s.queued := rfl
@[simp] theorem State.updRun_asked (s : State) (i : Nat) (f : Run → Run) : (s.updRun i f).asked = s.asked := rfl
@[simp] theorem State.updRun_rwq (s : State) (i : Nat) (f : Run → Run) : (s.updRun i f).rwq = s.rwq := rfl
@[simp] theorem State.updRun_tlb (s : State) (i : Nat) (f : Run → Run) : (s.updRun i f).tlb = s.tlb := rfl
@[simp] theorem State.updRun_poison (s : State) (i : Nat) (f : Run → Run) : (s.updRun i f).poison = s.poison := rfl
@[simp] theorem State.updRun_retiredChunks (s : State) (i : Nat) (f : Run → Run) : (s.updRun i f).retiredChunks = s.retiredChunks := rfl
@[simp] theorem State.updRun_reqs (s : State) (i : Nat) (f : Run → Run) : (s.updRun i f).reqs = s.reqs := rfl
@[simp] theorem State.updRun_ops (s : State) (i : Nat) (f : Run → Run) : (s.updRun i f).ops = s.ops := rfl
@[simp] theorem State.updRun_rels (s : State) (i : Nat) (f : Run → Run) : (s.updRun i f).rels = s.rels := rfl
@[simp] theorem State.updRun_heats (s : State) (i : Nat) (f : Run → Run) : (s.updRun i f).heats = s.heats := rfl
@[simp] theorem State.updRun_units (s : State) (i : Nat) (f : Run → Run) : (s.updRun i f).units = s.units := rfl
@[simp] theorem State.updRun_arrays (s : State) (i : Nat) (f : Run → Run) : (s.updRun i f).arrays = s.arrays := rfl
@[simp] theorem State.updRun_ctxs (s : State) (i : Nat) (f : Run → Run) : (s.updRun i f).ctxs = s.ctxs := rfl
@[simp] theorem State.updRun_kernels (s : State) (i : Nat) (f : Run → Run) : (s.updRun i f).kernels = s.kernels := rfl
@[simp] theorem State.updRun_lastStart (s : State) (i : Nat) (f : Run → Run) : (s.updRun i f).lastStart = s.lastStart := rfl
@[simp] theorem State.updRun_postings (s : State) (i : Nat) (f : Run → Run) : (s.updRun i f).postings = s.postings := rfl
@[simp] theorem State.updRun_records (s : State) (i : Nat) (f : Run → Run) : (s.updRun i f).records = s.records := rfl
@[simp] theorem State.updRun_postCount (s : State) (i : Nat) (f : Run → Run) : (s.updRun i f).postCount = s.postCount := rfl
@[simp] theorem State.updRun_cards (s : State) (i : Nat) (f : Run → Run) : (s.updRun i f).cards = s.cards := rfl
@[simp] theorem State.updRun_groups (s : State) (i : Nat) (f : Run → Run) : (s.updRun i f).groups = s.groups := rfl
@[simp] theorem State.updRun_arb (s : State) (i : Nat) (f : Run → Run) : (s.updRun i f).arb = s.arb := rfl
@[simp] theorem State.updRun_token (s : State) (i : Nat) (f : Run → Run) : (s.updRun i f).token = s.token := rfl
@[simp] theorem State.updRun_tokenQ (s : State) (i : Nat) (f : Run → Run) : (s.updRun i f).tokenQ = s.tokenQ := rfl
@[simp] theorem State.updRun_lastDeal (s : State) (i : Nat) (f : Run → Run) : (s.updRun i f).lastDeal = s.lastDeal := rfl
@[simp] theorem State.updRun_fencedDies (s : State) (i : Nat) (f : Run → Run) : (s.updRun i f).fencedDies = s.fencedDies := rfl
@[simp] theorem State.updRun_suspicions (s : State) (i : Nat) (f : Run → Run) : (s.updRun i f).suspicions = s.suspicions := rfl
@[simp] theorem State.updRun_bist (s : State) (i : Nat) (f : Run → Run) : (s.updRun i f).bist = s.bist := rfl
@[simp] theorem State.updRun_resetting (s : State) (i : Nat) (f : Run → Run) : (s.updRun i f).resetting = s.resetting := rfl
@[simp] theorem State.updRun_fused (s : State) (i : Nat) (f : Run → Run) : (s.updRun i f).fused = s.fused := rfl
@[simp] theorem State.updRun_field (s : State) (i : Nat) (f : Run → Run) : (s.updRun i f).field = s.field := rfl
@[simp] theorem State.updRun_nvField (s : State) (i : Nat) (f : Run → Run) : (s.updRun i f).nvField = s.nvField := rfl
@[simp] theorem State.updRun_lanesUsed (s : State) (i : Nat) (f : Run → Run) : (s.updRun i f).lanesUsed = s.lanesUsed := rfl
@[simp] theorem State.updRun_sb (s : State) (i : Nat) (f : Run → Run) : (s.updRun i f).sb = s.sb := rfl
@[simp] theorem State.updRun_tap (s : State) (i : Nat) (f : Run → Run) : (s.updRun i f).tap = s.tap := rfl
@[simp] theorem State.updRun_ports (s : State) (i : Nat) (f : Run → Run) : (s.updRun i f).ports = s.ports := rfl
@[simp] theorem State.updRun_out (s : State) (i : Nat) (f : Run → Run) : (s.updRun i f).out = s.out := rfl
@[simp] theorem State.updRun_uet (s : State) (i : Nat) (f : Run → Run) : (s.updRun i f).uet = s.uet := rfl
@[simp] theorem State.updRun_maps (s : State) (i : Nat) (f : Run → Run) : (s.updRun i f).maps = s.maps := rfl
@[simp] theorem State.updRun_sbOut (s : State) (i : Nat) (f : Run → Run) : (s.updRun i f).sbOut = s.sbOut := rfl
@[simp] theorem State.updRun_resets (s : State) (i : Nat) (f : Run → Run) : (s.updRun i f).resets = s.resets := rfl
@[simp] theorem State.updRun_now (s : State) (i : Nat) (f : Run → Run) : (s.updRun i f).now = s.now := rfl
@[simp] theorem State.updRun_nid (s : State) (i : Nat) (f : Run → Run) : (s.updRun i f).nid = s.nid := rfl
@[simp] theorem State.updRun_agenda (s : State) (i : Nat) (f : Run → Run) : (s.updRun i f).agenda = s.agenda := rfl
@[simp] theorem State.updRun_iss (s : State) (i : Nat) (f : Run → Run) : (s.updRun i f).iss = s.iss := rfl

/-! A card updated. -/

@[simp] theorem State.updCard_mem (s : State) (i : Nat) (f : Card → Card) : (s.updCard i f).mem = s.mem := rfl
@[simp] theorem State.updCard_l1 (s : State) (i : Nat) (f : Card → Card) : (s.updCard i f).l1 = s.l1 := rfl
@[simp] theorem State.updCard_l1Stream (s : State) (i : Nat) (f : Card → Card) : (s.updCard i f).l1Stream = s.l1Stream := rfl
@[simp] theorem State.updCard_l2 (s : State) (i : Nat) (f : Card → Card) : (s.updCard i f).l2 = s.l2 := rfl
@[simp] theorem State.updCard_dir (s : State) (i : Nat) (f : Card → Card) : (s.updCard i f).dir = s.dir := rfl
@[simp] theorem State.updCard_dirOrder (s : State) (i : Nat) (f : Card → Card) : (s.updCard i f).dirOrder = s.dirOrder := rfl
@[simp] theorem State.updCard_backInv (s : State) (i : Nat) (f : Card → Card) : (s.updCard i f).backInv = s.backInv := rfl
@[simp] theorem State.updCard_msgs (s : State) (i : Nat) (f : Card → Card) : (s.updCard i f).msgs = s.msgs := rfl
@[simp] theorem State.updCard_txns (s : State) (i : Nat) (f : Card → Card) : (s.updCard i f).txns = s.txns := rfl
@[simp] theorem State.updCard_queued (s : State) (i : Nat) (f : Card → Card) : (s.updCard i f).queued = s.queued := rfl
@[simp] theorem State.updCard_asked (s : State) (i : Nat) (f : Card → Card) : (s.updCard i f).asked = s.asked := rfl
@[simp] theorem State.updCard_rwq (s : State) (i : Nat) (f : Card → Card) : (s.updCard i f).rwq = s.rwq := rfl
@[simp] theorem State.updCard_tlb (s : State) (i : Nat) (f : Card → Card) : (s.updCard i f).tlb = s.tlb := rfl
@[simp] theorem State.updCard_poison (s : State) (i : Nat) (f : Card → Card) : (s.updCard i f).poison = s.poison := rfl
@[simp] theorem State.updCard_retiredChunks (s : State) (i : Nat) (f : Card → Card) : (s.updCard i f).retiredChunks = s.retiredChunks := rfl
@[simp] theorem State.updCard_reqs (s : State) (i : Nat) (f : Card → Card) : (s.updCard i f).reqs = s.reqs := rfl
@[simp] theorem State.updCard_ops (s : State) (i : Nat) (f : Card → Card) : (s.updCard i f).ops = s.ops := rfl
@[simp] theorem State.updCard_rels (s : State) (i : Nat) (f : Card → Card) : (s.updCard i f).rels = s.rels := rfl
@[simp] theorem State.updCard_heats (s : State) (i : Nat) (f : Card → Card) : (s.updCard i f).heats = s.heats := rfl
@[simp] theorem State.updCard_units (s : State) (i : Nat) (f : Card → Card) : (s.updCard i f).units = s.units := rfl
@[simp] theorem State.updCard_arrays (s : State) (i : Nat) (f : Card → Card) : (s.updCard i f).arrays = s.arrays := rfl
@[simp] theorem State.updCard_ctxs (s : State) (i : Nat) (f : Card → Card) : (s.updCard i f).ctxs = s.ctxs := rfl
@[simp] theorem State.updCard_kernels (s : State) (i : Nat) (f : Card → Card) : (s.updCard i f).kernels = s.kernels := rfl
@[simp] theorem State.updCard_lastStart (s : State) (i : Nat) (f : Card → Card) : (s.updCard i f).lastStart = s.lastStart := rfl
@[simp] theorem State.updCard_postings (s : State) (i : Nat) (f : Card → Card) : (s.updCard i f).postings = s.postings := rfl
@[simp] theorem State.updCard_records (s : State) (i : Nat) (f : Card → Card) : (s.updCard i f).records = s.records := rfl
@[simp] theorem State.updCard_postCount (s : State) (i : Nat) (f : Card → Card) : (s.updCard i f).postCount = s.postCount := rfl
@[simp] theorem State.updCard_runs (s : State) (i : Nat) (f : Card → Card) : (s.updCard i f).runs = s.runs := rfl
@[simp] theorem State.updCard_groups (s : State) (i : Nat) (f : Card → Card) : (s.updCard i f).groups = s.groups := rfl
@[simp] theorem State.updCard_arb (s : State) (i : Nat) (f : Card → Card) : (s.updCard i f).arb = s.arb := rfl
@[simp] theorem State.updCard_token (s : State) (i : Nat) (f : Card → Card) : (s.updCard i f).token = s.token := rfl
@[simp] theorem State.updCard_tokenQ (s : State) (i : Nat) (f : Card → Card) : (s.updCard i f).tokenQ = s.tokenQ := rfl
@[simp] theorem State.updCard_lastDeal (s : State) (i : Nat) (f : Card → Card) : (s.updCard i f).lastDeal = s.lastDeal := rfl
@[simp] theorem State.updCard_fencedDies (s : State) (i : Nat) (f : Card → Card) : (s.updCard i f).fencedDies = s.fencedDies := rfl
@[simp] theorem State.updCard_suspicions (s : State) (i : Nat) (f : Card → Card) : (s.updCard i f).suspicions = s.suspicions := rfl
@[simp] theorem State.updCard_bist (s : State) (i : Nat) (f : Card → Card) : (s.updCard i f).bist = s.bist := rfl
@[simp] theorem State.updCard_resetting (s : State) (i : Nat) (f : Card → Card) : (s.updCard i f).resetting = s.resetting := rfl
@[simp] theorem State.updCard_fused (s : State) (i : Nat) (f : Card → Card) : (s.updCard i f).fused = s.fused := rfl
@[simp] theorem State.updCard_field (s : State) (i : Nat) (f : Card → Card) : (s.updCard i f).field = s.field := rfl
@[simp] theorem State.updCard_nvField (s : State) (i : Nat) (f : Card → Card) : (s.updCard i f).nvField = s.nvField := rfl
@[simp] theorem State.updCard_lanesUsed (s : State) (i : Nat) (f : Card → Card) : (s.updCard i f).lanesUsed = s.lanesUsed := rfl
@[simp] theorem State.updCard_sb (s : State) (i : Nat) (f : Card → Card) : (s.updCard i f).sb = s.sb := rfl
@[simp] theorem State.updCard_tap (s : State) (i : Nat) (f : Card → Card) : (s.updCard i f).tap = s.tap := rfl
@[simp] theorem State.updCard_ports (s : State) (i : Nat) (f : Card → Card) : (s.updCard i f).ports = s.ports := rfl
@[simp] theorem State.updCard_out (s : State) (i : Nat) (f : Card → Card) : (s.updCard i f).out = s.out := rfl
@[simp] theorem State.updCard_uet (s : State) (i : Nat) (f : Card → Card) : (s.updCard i f).uet = s.uet := rfl
@[simp] theorem State.updCard_maps (s : State) (i : Nat) (f : Card → Card) : (s.updCard i f).maps = s.maps := rfl
@[simp] theorem State.updCard_sbOut (s : State) (i : Nat) (f : Card → Card) : (s.updCard i f).sbOut = s.sbOut := rfl
@[simp] theorem State.updCard_resets (s : State) (i : Nat) (f : Card → Card) : (s.updCard i f).resets = s.resets := rfl
@[simp] theorem State.updCard_now (s : State) (i : Nat) (f : Card → Card) : (s.updCard i f).now = s.now := rfl
@[simp] theorem State.updCard_nid (s : State) (i : Nat) (f : Card → Card) : (s.updCard i f).nid = s.nid := rfl
@[simp] theorem State.updCard_agenda (s : State) (i : Nat) (f : Card → Card) : (s.updCard i f).agenda = s.agenda := rfl
@[simp] theorem State.updCard_iss (s : State) (i : Nat) (f : Card → Card) : (s.updCard i f).iss = s.iss := rfl

/-! An array updated. -/

@[simp] theorem State.updArray_mem (s : State) (n : Nat) (a : Bool) (f : MArray → MArray) : (s.updArray n a f).mem = s.mem := rfl
@[simp] theorem State.updArray_l1 (s : State) (n : Nat) (a : Bool) (f : MArray → MArray) : (s.updArray n a f).l1 = s.l1 := rfl
@[simp] theorem State.updArray_l1Stream (s : State) (n : Nat) (a : Bool) (f : MArray → MArray) : (s.updArray n a f).l1Stream = s.l1Stream := rfl
@[simp] theorem State.updArray_l2 (s : State) (n : Nat) (a : Bool) (f : MArray → MArray) : (s.updArray n a f).l2 = s.l2 := rfl
@[simp] theorem State.updArray_dir (s : State) (n : Nat) (a : Bool) (f : MArray → MArray) : (s.updArray n a f).dir = s.dir := rfl
@[simp] theorem State.updArray_dirOrder (s : State) (n : Nat) (a : Bool) (f : MArray → MArray) : (s.updArray n a f).dirOrder = s.dirOrder := rfl
@[simp] theorem State.updArray_backInv (s : State) (n : Nat) (a : Bool) (f : MArray → MArray) : (s.updArray n a f).backInv = s.backInv := rfl
@[simp] theorem State.updArray_msgs (s : State) (n : Nat) (a : Bool) (f : MArray → MArray) : (s.updArray n a f).msgs = s.msgs := rfl
@[simp] theorem State.updArray_txns (s : State) (n : Nat) (a : Bool) (f : MArray → MArray) : (s.updArray n a f).txns = s.txns := rfl
@[simp] theorem State.updArray_queued (s : State) (n : Nat) (a : Bool) (f : MArray → MArray) : (s.updArray n a f).queued = s.queued := rfl
@[simp] theorem State.updArray_asked (s : State) (n : Nat) (a : Bool) (f : MArray → MArray) : (s.updArray n a f).asked = s.asked := rfl
@[simp] theorem State.updArray_rwq (s : State) (n : Nat) (a : Bool) (f : MArray → MArray) : (s.updArray n a f).rwq = s.rwq := rfl
@[simp] theorem State.updArray_tlb (s : State) (n : Nat) (a : Bool) (f : MArray → MArray) : (s.updArray n a f).tlb = s.tlb := rfl
@[simp] theorem State.updArray_poison (s : State) (n : Nat) (a : Bool) (f : MArray → MArray) : (s.updArray n a f).poison = s.poison := rfl
@[simp] theorem State.updArray_retiredChunks (s : State) (n : Nat) (a : Bool) (f : MArray → MArray) : (s.updArray n a f).retiredChunks = s.retiredChunks := rfl
@[simp] theorem State.updArray_reqs (s : State) (n : Nat) (a : Bool) (f : MArray → MArray) : (s.updArray n a f).reqs = s.reqs := rfl
@[simp] theorem State.updArray_ops (s : State) (n : Nat) (a : Bool) (f : MArray → MArray) : (s.updArray n a f).ops = s.ops := rfl
@[simp] theorem State.updArray_rels (s : State) (n : Nat) (a : Bool) (f : MArray → MArray) : (s.updArray n a f).rels = s.rels := rfl
@[simp] theorem State.updArray_heats (s : State) (n : Nat) (a : Bool) (f : MArray → MArray) : (s.updArray n a f).heats = s.heats := rfl
@[simp] theorem State.updArray_units (s : State) (n : Nat) (a : Bool) (f : MArray → MArray) : (s.updArray n a f).units = s.units := rfl
@[simp] theorem State.updArray_ctxs (s : State) (n : Nat) (a : Bool) (f : MArray → MArray) : (s.updArray n a f).ctxs = s.ctxs := rfl
@[simp] theorem State.updArray_kernels (s : State) (n : Nat) (a : Bool) (f : MArray → MArray) : (s.updArray n a f).kernels = s.kernels := rfl
@[simp] theorem State.updArray_lastStart (s : State) (n : Nat) (a : Bool) (f : MArray → MArray) : (s.updArray n a f).lastStart = s.lastStart := rfl
@[simp] theorem State.updArray_postings (s : State) (n : Nat) (a : Bool) (f : MArray → MArray) : (s.updArray n a f).postings = s.postings := rfl
@[simp] theorem State.updArray_records (s : State) (n : Nat) (a : Bool) (f : MArray → MArray) : (s.updArray n a f).records = s.records := rfl
@[simp] theorem State.updArray_postCount (s : State) (n : Nat) (a : Bool) (f : MArray → MArray) : (s.updArray n a f).postCount = s.postCount := rfl
@[simp] theorem State.updArray_cards (s : State) (n : Nat) (a : Bool) (f : MArray → MArray) : (s.updArray n a f).cards = s.cards := rfl
@[simp] theorem State.updArray_runs (s : State) (n : Nat) (a : Bool) (f : MArray → MArray) : (s.updArray n a f).runs = s.runs := rfl
@[simp] theorem State.updArray_groups (s : State) (n : Nat) (a : Bool) (f : MArray → MArray) : (s.updArray n a f).groups = s.groups := rfl
@[simp] theorem State.updArray_arb (s : State) (n : Nat) (a : Bool) (f : MArray → MArray) : (s.updArray n a f).arb = s.arb := rfl
@[simp] theorem State.updArray_token (s : State) (n : Nat) (a : Bool) (f : MArray → MArray) : (s.updArray n a f).token = s.token := rfl
@[simp] theorem State.updArray_tokenQ (s : State) (n : Nat) (a : Bool) (f : MArray → MArray) : (s.updArray n a f).tokenQ = s.tokenQ := rfl
@[simp] theorem State.updArray_lastDeal (s : State) (n : Nat) (a : Bool) (f : MArray → MArray) : (s.updArray n a f).lastDeal = s.lastDeal := rfl
@[simp] theorem State.updArray_fencedDies (s : State) (n : Nat) (a : Bool) (f : MArray → MArray) : (s.updArray n a f).fencedDies = s.fencedDies := rfl
@[simp] theorem State.updArray_suspicions (s : State) (n : Nat) (a : Bool) (f : MArray → MArray) : (s.updArray n a f).suspicions = s.suspicions := rfl
@[simp] theorem State.updArray_bist (s : State) (n : Nat) (a : Bool) (f : MArray → MArray) : (s.updArray n a f).bist = s.bist := rfl
@[simp] theorem State.updArray_resetting (s : State) (n : Nat) (a : Bool) (f : MArray → MArray) : (s.updArray n a f).resetting = s.resetting := rfl
@[simp] theorem State.updArray_fused (s : State) (n : Nat) (a : Bool) (f : MArray → MArray) : (s.updArray n a f).fused = s.fused := rfl
@[simp] theorem State.updArray_field (s : State) (n : Nat) (a : Bool) (f : MArray → MArray) : (s.updArray n a f).field = s.field := rfl
@[simp] theorem State.updArray_nvField (s : State) (n : Nat) (a : Bool) (f : MArray → MArray) : (s.updArray n a f).nvField = s.nvField := rfl
@[simp] theorem State.updArray_lanesUsed (s : State) (n : Nat) (a : Bool) (f : MArray → MArray) : (s.updArray n a f).lanesUsed = s.lanesUsed := rfl
@[simp] theorem State.updArray_sb (s : State) (n : Nat) (a : Bool) (f : MArray → MArray) : (s.updArray n a f).sb = s.sb := rfl
@[simp] theorem State.updArray_tap (s : State) (n : Nat) (a : Bool) (f : MArray → MArray) : (s.updArray n a f).tap = s.tap := rfl
@[simp] theorem State.updArray_ports (s : State) (n : Nat) (a : Bool) (f : MArray → MArray) : (s.updArray n a f).ports = s.ports := rfl
@[simp] theorem State.updArray_out (s : State) (n : Nat) (a : Bool) (f : MArray → MArray) : (s.updArray n a f).out = s.out := rfl
@[simp] theorem State.updArray_uet (s : State) (n : Nat) (a : Bool) (f : MArray → MArray) : (s.updArray n a f).uet = s.uet := rfl
@[simp] theorem State.updArray_maps (s : State) (n : Nat) (a : Bool) (f : MArray → MArray) : (s.updArray n a f).maps = s.maps := rfl
@[simp] theorem State.updArray_sbOut (s : State) (n : Nat) (a : Bool) (f : MArray → MArray) : (s.updArray n a f).sbOut = s.sbOut := rfl
@[simp] theorem State.updArray_resets (s : State) (n : Nat) (a : Bool) (f : MArray → MArray) : (s.updArray n a f).resets = s.resets := rfl
@[simp] theorem State.updArray_now (s : State) (n : Nat) (a : Bool) (f : MArray → MArray) : (s.updArray n a f).now = s.now := rfl
@[simp] theorem State.updArray_nid (s : State) (n : Nat) (a : Bool) (f : MArray → MArray) : (s.updArray n a f).nid = s.nid := rfl
@[simp] theorem State.updArray_agenda (s : State) (n : Nat) (a : Bool) (f : MArray → MArray) : (s.updArray n a f).agenda = s.agenda := rfl
@[simp] theorem State.updArray_iss (s : State) (n : Nat) (a : Bool) (f : MArray → MArray) : (s.updArray n a f).iss = s.iss := rfl

/-! A lane of a heat updated. -/

@[simp] theorem Heat.updLane_key (h : Heat) (l : Nat) (f : Lane → Lane) : (h.updLane l f).key = h.key := rfl
@[simp] theorem Heat.updLane_core (h : Heat) (l : Nat) (f : Lane → Lane) : (h.updLane l f).core = h.core := rfl
@[simp] theorem Heat.updLane_part (h : Heat) (l : Nat) (f : Lane → Lane) : (h.updLane l f).part = h.part := rfl
@[simp] theorem Heat.updLane_unit (h : Heat) (l : Nat) (f : Lane → Lane) : (h.updLane l f).unit = h.unit := rfl
@[simp] theorem Heat.updLane_leg (h : Heat) (l : Nat) (f : Lane → Lane) : (h.updLane l f).leg = h.leg := rfl
@[simp] theorem Heat.updLane_role (h : Heat) (l : Nat) (f : Lane → Lane) : (h.updLane l f).role = h.role := rfl
@[simp] theorem Heat.updLane_budget (h : Heat) (l : Nat) (f : Lane → Lane) : (h.updLane l f).budget = h.budget := rfl
@[simp] theorem Heat.updLane_cls (h : Heat) (l : Nat) (f : Lane → Lane) : (h.updLane l f).cls = h.cls := rfl
@[simp] theorem Heat.updLane_heatn (h : Heat) (l : Nat) (f : Lane → Lane) : (h.updLane l f).heatn = h.heatn := rfl
@[simp] theorem Heat.updLane_lvix (h : Heat) (l : Nat) (f : Lane → Lane) : (h.updLane l f).lvix = h.lvix := rfl
@[simp] theorem Heat.updLane_k (h : Heat) (l : Nat) (f : Lane → Lane) : (h.updLane l f).k = h.k := rfl
@[simp] theorem Heat.updLane_kpend (h : Heat) (l : Nat) (f : Lane → Lane) : (h.updLane l f).kpend = h.kpend := rfl
@[simp] theorem Heat.updLane_b (h : Heat) (l : Nat) (f : Lane → Lane) : (h.updLane l f).b = h.b := rfl
@[simp] theorem Heat.updLane_fcnt (h : Heat) (l : Nat) (f : Lane → Lane) : (h.updLane l f).fcnt = h.fcnt := rfl
@[simp] theorem Heat.updLane_nflags (h : Heat) (l : Nat) (f : Lane → Lane) : (h.updLane l f).nflags = h.nflags := rfl
@[simp] theorem Heat.updLane_starved (h : Heat) (l : Nat) (f : Lane → Lane) : (h.updLane l f).starved = h.starved := rfl
@[simp] theorem Heat.updLane_paced (h : Heat) (l : Nat) (f : Lane → Lane) : (h.updLane l f).paced = h.paced := rfl
@[simp] theorem Heat.updLane_runon (h : Heat) (l : Nat) (f : Lane → Lane) : (h.updLane l f).runon = h.runon := rfl
@[simp] theorem Heat.updLane_active (h : Heat) (l : Nat) (f : Lane → Lane) : (h.updLane l f).active = h.active := rfl
@[simp] theorem Heat.updLane_lastIssue (h : Heat) (l : Nat) (f : Lane → Lane) : (h.updLane l f).lastIssue = h.lastIssue := rfl
@[simp] theorem Heat.updLane_since (h : Heat) (l : Nat) (f : Lane → Lane) : (h.updLane l f).since = h.since := rfl
@[simp] theorem Heat.updLane_readyAt (h : Heat) (l : Nat) (f : Lane → Lane) : (h.updLane l f).readyAt = h.readyAt := rfl
@[simp] theorem Heat.updLane_cpyw (h : Heat) (l : Nat) (f : Lane → Lane) : (h.updLane l f).cpyw = h.cpyw := rfl
@[simp] theorem Heat.updLane_fence (h : Heat) (l : Nat) (f : Lane → Lane) : (h.updLane l f).fence = h.fence := rfl
@[simp] theorem Heat.updLane_busy (h : Heat) (l : Nat) (f : Lane → Lane) : (h.updLane l f).busy = h.busy := rfl
@[simp] theorem Heat.updLane_service (h : Heat) (l : Nat) (f : Lane → Lane) : (h.updLane l f).service = h.service := rfl
@[simp] theorem Heat.updLane_debug (h : Heat) (l : Nat) (f : Lane → Lane) : (h.updLane l f).debug = h.debug := rfl
@[simp] theorem Heat.updLane_journal (h : Heat) (l : Nat) (f : Lane → Lane) : (h.updLane l f).journal = h.journal := rfl
@[simp] theorem Heat.updLane_usesTasks (h : Heat) (l : Nat) (f : Lane → Lane) : (h.updLane l f).usesTasks = h.usesTasks := rfl
@[simp] theorem Heat.updLane_colours (h : Heat) (l : Nat) (f : Lane → Lane) : (h.updLane l f).colours = h.colours := rfl
@[simp] theorem Heat.updLane_isTask (h : Heat) (l : Nat) (f : Lane → Lane) : (h.updLane l f).isTask = h.isTask := rfl
@[simp] theorem Heat.updLane_saved (h : Heat) (l : Nat) (f : Lane → Lane) : (h.updLane l f).saved = h.saved := rfl
@[simp] theorem Heat.updLane_retired (h : Heat) (l : Nat) (f : Lane → Lane) : (h.updLane l f).retired = h.retired := rfl
@[simp] theorem Heat.updLane_undo (h : Heat) (l : Nat) (f : Lane → Lane) : (h.updLane l f).undo = h.undo := rfl

/-! A uniform register written. -/

@[simp] theorem Heat.setK_key (h : Heat) (n y : Nat) : (h.setK n y).key = h.key := rfl
@[simp] theorem Heat.setK_core (h : Heat) (n y : Nat) : (h.setK n y).core = h.core := rfl
@[simp] theorem Heat.setK_part (h : Heat) (n y : Nat) : (h.setK n y).part = h.part := rfl
@[simp] theorem Heat.setK_unit (h : Heat) (n y : Nat) : (h.setK n y).unit = h.unit := rfl
@[simp] theorem Heat.setK_leg (h : Heat) (n y : Nat) : (h.setK n y).leg = h.leg := rfl
@[simp] theorem Heat.setK_role (h : Heat) (n y : Nat) : (h.setK n y).role = h.role := rfl
@[simp] theorem Heat.setK_budget (h : Heat) (n y : Nat) : (h.setK n y).budget = h.budget := rfl
@[simp] theorem Heat.setK_cls (h : Heat) (n y : Nat) : (h.setK n y).cls = h.cls := rfl
@[simp] theorem Heat.setK_heatn (h : Heat) (n y : Nat) : (h.setK n y).heatn = h.heatn := rfl
@[simp] theorem Heat.setK_lvix (h : Heat) (n y : Nat) : (h.setK n y).lvix = h.lvix := rfl
@[simp] theorem Heat.setK_lanes (h : Heat) (n y : Nat) : (h.setK n y).lanes = h.lanes := rfl
@[simp] theorem Heat.setK_kpend (h : Heat) (n y : Nat) : (h.setK n y).kpend = h.kpend := rfl
@[simp] theorem Heat.setK_b (h : Heat) (n y : Nat) : (h.setK n y).b = h.b := rfl
@[simp] theorem Heat.setK_fcnt (h : Heat) (n y : Nat) : (h.setK n y).fcnt = h.fcnt := rfl
@[simp] theorem Heat.setK_nflags (h : Heat) (n y : Nat) : (h.setK n y).nflags = h.nflags := rfl
@[simp] theorem Heat.setK_starved (h : Heat) (n y : Nat) : (h.setK n y).starved = h.starved := rfl
@[simp] theorem Heat.setK_paced (h : Heat) (n y : Nat) : (h.setK n y).paced = h.paced := rfl
@[simp] theorem Heat.setK_runon (h : Heat) (n y : Nat) : (h.setK n y).runon = h.runon := rfl
@[simp] theorem Heat.setK_active (h : Heat) (n y : Nat) : (h.setK n y).active = h.active := rfl
@[simp] theorem Heat.setK_lastIssue (h : Heat) (n y : Nat) : (h.setK n y).lastIssue = h.lastIssue := rfl
@[simp] theorem Heat.setK_since (h : Heat) (n y : Nat) : (h.setK n y).since = h.since := rfl
@[simp] theorem Heat.setK_readyAt (h : Heat) (n y : Nat) : (h.setK n y).readyAt = h.readyAt := rfl
@[simp] theorem Heat.setK_cpyw (h : Heat) (n y : Nat) : (h.setK n y).cpyw = h.cpyw := rfl
@[simp] theorem Heat.setK_fence (h : Heat) (n y : Nat) : (h.setK n y).fence = h.fence := rfl
@[simp] theorem Heat.setK_busy (h : Heat) (n y : Nat) : (h.setK n y).busy = h.busy := rfl
@[simp] theorem Heat.setK_service (h : Heat) (n y : Nat) : (h.setK n y).service = h.service := rfl
@[simp] theorem Heat.setK_debug (h : Heat) (n y : Nat) : (h.setK n y).debug = h.debug := rfl
@[simp] theorem Heat.setK_journal (h : Heat) (n y : Nat) : (h.setK n y).journal = h.journal := rfl
@[simp] theorem Heat.setK_usesTasks (h : Heat) (n y : Nat) : (h.setK n y).usesTasks = h.usesTasks := rfl
@[simp] theorem Heat.setK_colours (h : Heat) (n y : Nat) : (h.setK n y).colours = h.colours := rfl
@[simp] theorem Heat.setK_isTask (h : Heat) (n y : Nat) : (h.setK n y).isTask = h.isTask := rfl
@[simp] theorem Heat.setK_saved (h : Heat) (n y : Nat) : (h.setK n y).saved = h.saved := rfl
@[simp] theorem Heat.setK_retired (h : Heat) (n y : Nat) : (h.setK n y).retired = h.retired := rfl
@[simp] theorem Heat.setK_undo (h : Heat) (n y : Nat) : (h.setK n y).undo = h.undo := rfl

/-! A record register written. -/

@[simp] theorem Heat.setB_key (h : Heat) (n y : Nat) : (h.setB n y).key = h.key := rfl
@[simp] theorem Heat.setB_core (h : Heat) (n y : Nat) : (h.setB n y).core = h.core := rfl
@[simp] theorem Heat.setB_part (h : Heat) (n y : Nat) : (h.setB n y).part = h.part := rfl
@[simp] theorem Heat.setB_unit (h : Heat) (n y : Nat) : (h.setB n y).unit = h.unit := rfl
@[simp] theorem Heat.setB_leg (h : Heat) (n y : Nat) : (h.setB n y).leg = h.leg := rfl
@[simp] theorem Heat.setB_role (h : Heat) (n y : Nat) : (h.setB n y).role = h.role := rfl
@[simp] theorem Heat.setB_budget (h : Heat) (n y : Nat) : (h.setB n y).budget = h.budget := rfl
@[simp] theorem Heat.setB_cls (h : Heat) (n y : Nat) : (h.setB n y).cls = h.cls := rfl
@[simp] theorem Heat.setB_heatn (h : Heat) (n y : Nat) : (h.setB n y).heatn = h.heatn := rfl
@[simp] theorem Heat.setB_lvix (h : Heat) (n y : Nat) : (h.setB n y).lvix = h.lvix := rfl
@[simp] theorem Heat.setB_lanes (h : Heat) (n y : Nat) : (h.setB n y).lanes = h.lanes := rfl
@[simp] theorem Heat.setB_k (h : Heat) (n y : Nat) : (h.setB n y).k = h.k := rfl
@[simp] theorem Heat.setB_kpend (h : Heat) (n y : Nat) : (h.setB n y).kpend = h.kpend := rfl
@[simp] theorem Heat.setB_fcnt (h : Heat) (n y : Nat) : (h.setB n y).fcnt = h.fcnt := rfl
@[simp] theorem Heat.setB_nflags (h : Heat) (n y : Nat) : (h.setB n y).nflags = h.nflags := rfl
@[simp] theorem Heat.setB_starved (h : Heat) (n y : Nat) : (h.setB n y).starved = h.starved := rfl
@[simp] theorem Heat.setB_paced (h : Heat) (n y : Nat) : (h.setB n y).paced = h.paced := rfl
@[simp] theorem Heat.setB_runon (h : Heat) (n y : Nat) : (h.setB n y).runon = h.runon := rfl
@[simp] theorem Heat.setB_active (h : Heat) (n y : Nat) : (h.setB n y).active = h.active := rfl
@[simp] theorem Heat.setB_lastIssue (h : Heat) (n y : Nat) : (h.setB n y).lastIssue = h.lastIssue := rfl
@[simp] theorem Heat.setB_since (h : Heat) (n y : Nat) : (h.setB n y).since = h.since := rfl
@[simp] theorem Heat.setB_readyAt (h : Heat) (n y : Nat) : (h.setB n y).readyAt = h.readyAt := rfl
@[simp] theorem Heat.setB_cpyw (h : Heat) (n y : Nat) : (h.setB n y).cpyw = h.cpyw := rfl
@[simp] theorem Heat.setB_fence (h : Heat) (n y : Nat) : (h.setB n y).fence = h.fence := rfl
@[simp] theorem Heat.setB_busy (h : Heat) (n y : Nat) : (h.setB n y).busy = h.busy := rfl
@[simp] theorem Heat.setB_service (h : Heat) (n y : Nat) : (h.setB n y).service = h.service := rfl
@[simp] theorem Heat.setB_debug (h : Heat) (n y : Nat) : (h.setB n y).debug = h.debug := rfl
@[simp] theorem Heat.setB_journal (h : Heat) (n y : Nat) : (h.setB n y).journal = h.journal := rfl
@[simp] theorem Heat.setB_usesTasks (h : Heat) (n y : Nat) : (h.setB n y).usesTasks = h.usesTasks := rfl
@[simp] theorem Heat.setB_colours (h : Heat) (n y : Nat) : (h.setB n y).colours = h.colours := rfl
@[simp] theorem Heat.setB_isTask (h : Heat) (n y : Nat) : (h.setB n y).isTask = h.isTask := rfl
@[simp] theorem Heat.setB_saved (h : Heat) (n y : Nat) : (h.setB n y).saved = h.saved := rfl
@[simp] theorem Heat.setB_retired (h : Heat) (n y : Nat) : (h.setB n y).retired = h.retired := rfl
@[simp] theorem Heat.setB_undo (h : Heat) (n y : Nat) : (h.setB n y).undo = h.undo := rfl

/-! A flag count raised. -/

@[simp] theorem Heat.flagUp_key (h : Heat) (f : Nat) : (h.flagUp f).key = h.key := rfl
@[simp] theorem Heat.flagUp_core (h : Heat) (f : Nat) : (h.flagUp f).core = h.core := rfl
@[simp] theorem Heat.flagUp_part (h : Heat) (f : Nat) : (h.flagUp f).part = h.part := rfl
@[simp] theorem Heat.flagUp_unit (h : Heat) (f : Nat) : (h.flagUp f).unit = h.unit := rfl
@[simp] theorem Heat.flagUp_leg (h : Heat) (f : Nat) : (h.flagUp f).leg = h.leg := rfl
@[simp] theorem Heat.flagUp_role (h : Heat) (f : Nat) : (h.flagUp f).role = h.role := rfl
@[simp] theorem Heat.flagUp_budget (h : Heat) (f : Nat) : (h.flagUp f).budget = h.budget := rfl
@[simp] theorem Heat.flagUp_cls (h : Heat) (f : Nat) : (h.flagUp f).cls = h.cls := rfl
@[simp] theorem Heat.flagUp_heatn (h : Heat) (f : Nat) : (h.flagUp f).heatn = h.heatn := rfl
@[simp] theorem Heat.flagUp_lvix (h : Heat) (f : Nat) : (h.flagUp f).lvix = h.lvix := rfl
@[simp] theorem Heat.flagUp_lanes (h : Heat) (f : Nat) : (h.flagUp f).lanes = h.lanes := rfl
@[simp] theorem Heat.flagUp_k (h : Heat) (f : Nat) : (h.flagUp f).k = h.k := rfl
@[simp] theorem Heat.flagUp_kpend (h : Heat) (f : Nat) : (h.flagUp f).kpend = h.kpend := rfl
@[simp] theorem Heat.flagUp_b (h : Heat) (f : Nat) : (h.flagUp f).b = h.b := rfl
@[simp] theorem Heat.flagUp_nflags (h : Heat) (f : Nat) : (h.flagUp f).nflags = h.nflags := rfl
@[simp] theorem Heat.flagUp_starved (h : Heat) (f : Nat) : (h.flagUp f).starved = h.starved := rfl
@[simp] theorem Heat.flagUp_paced (h : Heat) (f : Nat) : (h.flagUp f).paced = h.paced := rfl
@[simp] theorem Heat.flagUp_runon (h : Heat) (f : Nat) : (h.flagUp f).runon = h.runon := rfl
@[simp] theorem Heat.flagUp_active (h : Heat) (f : Nat) : (h.flagUp f).active = h.active := rfl
@[simp] theorem Heat.flagUp_lastIssue (h : Heat) (f : Nat) : (h.flagUp f).lastIssue = h.lastIssue := rfl
@[simp] theorem Heat.flagUp_since (h : Heat) (f : Nat) : (h.flagUp f).since = h.since := rfl
@[simp] theorem Heat.flagUp_readyAt (h : Heat) (f : Nat) : (h.flagUp f).readyAt = h.readyAt := rfl
@[simp] theorem Heat.flagUp_cpyw (h : Heat) (f : Nat) : (h.flagUp f).cpyw = h.cpyw := rfl
@[simp] theorem Heat.flagUp_fence (h : Heat) (f : Nat) : (h.flagUp f).fence = h.fence := rfl
@[simp] theorem Heat.flagUp_busy (h : Heat) (f : Nat) : (h.flagUp f).busy = h.busy := rfl
@[simp] theorem Heat.flagUp_service (h : Heat) (f : Nat) : (h.flagUp f).service = h.service := rfl
@[simp] theorem Heat.flagUp_debug (h : Heat) (f : Nat) : (h.flagUp f).debug = h.debug := rfl
@[simp] theorem Heat.flagUp_journal (h : Heat) (f : Nat) : (h.flagUp f).journal = h.journal := rfl
@[simp] theorem Heat.flagUp_usesTasks (h : Heat) (f : Nat) : (h.flagUp f).usesTasks = h.usesTasks := rfl
@[simp] theorem Heat.flagUp_colours (h : Heat) (f : Nat) : (h.flagUp f).colours = h.colours := rfl
@[simp] theorem Heat.flagUp_isTask (h : Heat) (f : Nat) : (h.flagUp f).isTask = h.isTask := rfl
@[simp] theorem Heat.flagUp_saved (h : Heat) (f : Nat) : (h.flagUp f).saved = h.saved := rfl
@[simp] theorem Heat.flagUp_retired (h : Heat) (f : Nat) : (h.flagUp f).retired = h.retired := rfl
@[simp] theorem Heat.flagUp_undo (h : Heat) (f : Nat) : (h.flagUp f).undo = h.undo := rfl

/-! A flag count lowered. -/

@[simp] theorem Heat.flagDown_key (h : Heat) (f : Nat) : (h.flagDown f).key = h.key := rfl
@[simp] theorem Heat.flagDown_core (h : Heat) (f : Nat) : (h.flagDown f).core = h.core := rfl
@[simp] theorem Heat.flagDown_part (h : Heat) (f : Nat) : (h.flagDown f).part = h.part := rfl
@[simp] theorem Heat.flagDown_unit (h : Heat) (f : Nat) : (h.flagDown f).unit = h.unit := rfl
@[simp] theorem Heat.flagDown_leg (h : Heat) (f : Nat) : (h.flagDown f).leg = h.leg := rfl
@[simp] theorem Heat.flagDown_role (h : Heat) (f : Nat) : (h.flagDown f).role = h.role := rfl
@[simp] theorem Heat.flagDown_budget (h : Heat) (f : Nat) : (h.flagDown f).budget = h.budget := rfl
@[simp] theorem Heat.flagDown_cls (h : Heat) (f : Nat) : (h.flagDown f).cls = h.cls := rfl
@[simp] theorem Heat.flagDown_heatn (h : Heat) (f : Nat) : (h.flagDown f).heatn = h.heatn := rfl
@[simp] theorem Heat.flagDown_lvix (h : Heat) (f : Nat) : (h.flagDown f).lvix = h.lvix := rfl
@[simp] theorem Heat.flagDown_lanes (h : Heat) (f : Nat) : (h.flagDown f).lanes = h.lanes := rfl
@[simp] theorem Heat.flagDown_k (h : Heat) (f : Nat) : (h.flagDown f).k = h.k := rfl
@[simp] theorem Heat.flagDown_kpend (h : Heat) (f : Nat) : (h.flagDown f).kpend = h.kpend := rfl
@[simp] theorem Heat.flagDown_b (h : Heat) (f : Nat) : (h.flagDown f).b = h.b := rfl
@[simp] theorem Heat.flagDown_nflags (h : Heat) (f : Nat) : (h.flagDown f).nflags = h.nflags := rfl
@[simp] theorem Heat.flagDown_starved (h : Heat) (f : Nat) : (h.flagDown f).starved = h.starved := rfl
@[simp] theorem Heat.flagDown_paced (h : Heat) (f : Nat) : (h.flagDown f).paced = h.paced := rfl
@[simp] theorem Heat.flagDown_runon (h : Heat) (f : Nat) : (h.flagDown f).runon = h.runon := rfl
@[simp] theorem Heat.flagDown_active (h : Heat) (f : Nat) : (h.flagDown f).active = h.active := rfl
@[simp] theorem Heat.flagDown_lastIssue (h : Heat) (f : Nat) : (h.flagDown f).lastIssue = h.lastIssue := rfl
@[simp] theorem Heat.flagDown_since (h : Heat) (f : Nat) : (h.flagDown f).since = h.since := rfl
@[simp] theorem Heat.flagDown_readyAt (h : Heat) (f : Nat) : (h.flagDown f).readyAt = h.readyAt := rfl
@[simp] theorem Heat.flagDown_cpyw (h : Heat) (f : Nat) : (h.flagDown f).cpyw = h.cpyw := rfl
@[simp] theorem Heat.flagDown_fence (h : Heat) (f : Nat) : (h.flagDown f).fence = h.fence := rfl
@[simp] theorem Heat.flagDown_busy (h : Heat) (f : Nat) : (h.flagDown f).busy = h.busy := rfl
@[simp] theorem Heat.flagDown_service (h : Heat) (f : Nat) : (h.flagDown f).service = h.service := rfl
@[simp] theorem Heat.flagDown_debug (h : Heat) (f : Nat) : (h.flagDown f).debug = h.debug := rfl
@[simp] theorem Heat.flagDown_journal (h : Heat) (f : Nat) : (h.flagDown f).journal = h.journal := rfl
@[simp] theorem Heat.flagDown_usesTasks (h : Heat) (f : Nat) : (h.flagDown f).usesTasks = h.usesTasks := rfl
@[simp] theorem Heat.flagDown_colours (h : Heat) (f : Nat) : (h.flagDown f).colours = h.colours := rfl
@[simp] theorem Heat.flagDown_isTask (h : Heat) (f : Nat) : (h.flagDown f).isTask = h.isTask := rfl
@[simp] theorem Heat.flagDown_saved (h : Heat) (f : Nat) : (h.flagDown f).saved = h.saved := rfl
@[simp] theorem Heat.flagDown_retired (h : Heat) (f : Nat) : (h.flagDown f).retired = h.retired := rfl
@[simp] theorem Heat.flagDown_undo (h : Heat) (f : Nat) : (h.flagDown f).undo = h.undo := rfl

/-! A vector register written. -/

@[simp] theorem Lane.setV_pc (x : Lane) (n y : Nat) : (x.setV n y).pc = x.pc := rfl
@[simp] theorem Lane.setV_blk (x : Lane) (n y : Nat) : (x.setV n y).blk = x.blk := rfl
@[simp] theorem Lane.setV_st (x : Lane) (n y : Nat) : (x.setV n y).st = x.st := rfl
@[simp] theorem Lane.setV_p (x : Lane) (n y : Nat) : (x.setV n y).p = x.p := rfl
@[simp] theorem Lane.setV_depth (x : Lane) (n y : Nat) : (x.setV n y).depth = x.depth := rfl
@[simp] theorem Lane.setV_held (x : Lane) (n y : Nat) : (x.setV n y).held = x.held := rfl
@[simp] theorem Lane.setV_pend (x : Lane) (n y : Nat) : (x.setV n y).pend = x.pend := rfl
@[simp] theorem Lane.setV_age (x : Lane) (n y : Nat) : (x.setV n y).age = x.age := rfl
@[simp] theorem Lane.setV_task (x : Lane) (n y : Nat) : (x.setV n y).task = x.task := rfl
@[simp] theorem Lane.setV_taskIx (x : Lane) (n y : Nat) : (x.setV n y).taskIx = x.taskIx := rfl
@[simp] theorem Lane.setV_lapIn (x : Lane) (n y : Nat) : (x.setV n y).lapIn = x.lapIn := rfl
@[simp] theorem Lane.setV_trap (x : Lane) (n y : Nat) : (x.setV n y).trap = x.trap := rfl
@[simp] theorem Lane.setV_park (x : Lane) (n y : Nat) : (x.setV n y).park = x.park := rfl
@[simp] theorem Lane.setV_pcWritten (x : Lane) (n y : Nat) : (x.setV n y).pcWritten = x.pcWritten := rfl
@[simp] theorem Lane.setV_acq (x : Lane) (n y : Nat) : (x.setV n y).acq = x.acq := rfl
@[simp] theorem Lane.setV_noBreak (x : Lane) (n y : Nat) : (x.setV n y).noBreak = x.noBreak := rfl
@[simp] theorem Lane.setV_badRegs (x : Lane) (n y : Nat) : (x.setV n y).badRegs = x.badRegs := rfl

/-! A pair of vector registers written. -/

@[simp] theorem Lane.setV64_pc (x : Lane) (n y : Nat) : (x.setV64 n y).pc = x.pc := rfl
@[simp] theorem Lane.setV64_blk (x : Lane) (n y : Nat) : (x.setV64 n y).blk = x.blk := rfl
@[simp] theorem Lane.setV64_st (x : Lane) (n y : Nat) : (x.setV64 n y).st = x.st := rfl
@[simp] theorem Lane.setV64_p (x : Lane) (n y : Nat) : (x.setV64 n y).p = x.p := rfl
@[simp] theorem Lane.setV64_depth (x : Lane) (n y : Nat) : (x.setV64 n y).depth = x.depth := rfl
@[simp] theorem Lane.setV64_held (x : Lane) (n y : Nat) : (x.setV64 n y).held = x.held := rfl
@[simp] theorem Lane.setV64_pend (x : Lane) (n y : Nat) : (x.setV64 n y).pend = x.pend := rfl
@[simp] theorem Lane.setV64_age (x : Lane) (n y : Nat) : (x.setV64 n y).age = x.age := rfl
@[simp] theorem Lane.setV64_task (x : Lane) (n y : Nat) : (x.setV64 n y).task = x.task := rfl
@[simp] theorem Lane.setV64_taskIx (x : Lane) (n y : Nat) : (x.setV64 n y).taskIx = x.taskIx := rfl
@[simp] theorem Lane.setV64_lapIn (x : Lane) (n y : Nat) : (x.setV64 n y).lapIn = x.lapIn := rfl
@[simp] theorem Lane.setV64_trap (x : Lane) (n y : Nat) : (x.setV64 n y).trap = x.trap := rfl
@[simp] theorem Lane.setV64_park (x : Lane) (n y : Nat) : (x.setV64 n y).park = x.park := rfl
@[simp] theorem Lane.setV64_pcWritten (x : Lane) (n y : Nat) : (x.setV64 n y).pcWritten = x.pcWritten := rfl
@[simp] theorem Lane.setV64_acq (x : Lane) (n y : Nat) : (x.setV64 n y).acq = x.acq := rfl
@[simp] theorem Lane.setV64_noBreak (x : Lane) (n y : Nat) : (x.setV64 n y).noBreak = x.noBreak := rfl
@[simp] theorem Lane.setV64_badRegs (x : Lane) (n y : Nat) : (x.setV64 n y).badRegs = x.badRegs := rfl

/-! A predicate written. -/

@[simp] theorem Lane.setP_pc (x : Lane) (n : Nat) (b : Bool) : (x.setP n b).pc = x.pc := rfl
@[simp] theorem Lane.setP_blk (x : Lane) (n : Nat) (b : Bool) : (x.setP n b).blk = x.blk := rfl
@[simp] theorem Lane.setP_st (x : Lane) (n : Nat) (b : Bool) : (x.setP n b).st = x.st := rfl
@[simp] theorem Lane.setP_v (x : Lane) (n : Nat) (b : Bool) : (x.setP n b).v = x.v := rfl
@[simp] theorem Lane.setP_depth (x : Lane) (n : Nat) (b : Bool) : (x.setP n b).depth = x.depth := rfl
@[simp] theorem Lane.setP_held (x : Lane) (n : Nat) (b : Bool) : (x.setP n b).held = x.held := rfl
@[simp] theorem Lane.setP_pend (x : Lane) (n : Nat) (b : Bool) : (x.setP n b).pend = x.pend := rfl
@[simp] theorem Lane.setP_age (x : Lane) (n : Nat) (b : Bool) : (x.setP n b).age = x.age := rfl
@[simp] theorem Lane.setP_task (x : Lane) (n : Nat) (b : Bool) : (x.setP n b).task = x.task := rfl
@[simp] theorem Lane.setP_taskIx (x : Lane) (n : Nat) (b : Bool) : (x.setP n b).taskIx = x.taskIx := rfl
@[simp] theorem Lane.setP_lapIn (x : Lane) (n : Nat) (b : Bool) : (x.setP n b).lapIn = x.lapIn := rfl
@[simp] theorem Lane.setP_trap (x : Lane) (n : Nat) (b : Bool) : (x.setP n b).trap = x.trap := rfl
@[simp] theorem Lane.setP_park (x : Lane) (n : Nat) (b : Bool) : (x.setP n b).park = x.park := rfl
@[simp] theorem Lane.setP_pcWritten (x : Lane) (n : Nat) (b : Bool) : (x.setP n b).pcWritten = x.pcWritten := rfl
@[simp] theorem Lane.setP_acq (x : Lane) (n : Nat) (b : Bool) : (x.setP n b).acq = x.acq := rfl
@[simp] theorem Lane.setP_noBreak (x : Lane) (n : Nat) (b : Bool) : (x.setP n b).noBreak = x.noBreak := rfl
@[simp] theorem Lane.setP_badRegs (x : Lane) (n : Nat) (b : Bool) : (x.setP n b).badRegs = x.badRegs := rfl

/-! A transfer. -/

@[simp] theorem Lane.goto_st (x : Lane) (t : Nat) : (x.goto t).st = x.st := rfl
@[simp] theorem Lane.goto_v (x : Lane) (t : Nat) : (x.goto t).v = x.v := rfl
@[simp] theorem Lane.goto_p (x : Lane) (t : Nat) : (x.goto t).p = x.p := rfl
@[simp] theorem Lane.goto_depth (x : Lane) (t : Nat) : (x.goto t).depth = x.depth := rfl
@[simp] theorem Lane.goto_held (x : Lane) (t : Nat) : (x.goto t).held = x.held := rfl
@[simp] theorem Lane.goto_pend (x : Lane) (t : Nat) : (x.goto t).pend = x.pend := rfl
@[simp] theorem Lane.goto_age (x : Lane) (t : Nat) : (x.goto t).age = x.age := rfl
@[simp] theorem Lane.goto_task (x : Lane) (t : Nat) : (x.goto t).task = x.task := rfl
@[simp] theorem Lane.goto_taskIx (x : Lane) (t : Nat) : (x.goto t).taskIx = x.taskIx := rfl
@[simp] theorem Lane.goto_lapIn (x : Lane) (t : Nat) : (x.goto t).lapIn = x.lapIn := rfl
@[simp] theorem Lane.goto_trap (x : Lane) (t : Nat) : (x.goto t).trap = x.trap := rfl
@[simp] theorem Lane.goto_park (x : Lane) (t : Nat) : (x.goto t).park = x.park := rfl
@[simp] theorem Lane.goto_pcWritten (x : Lane) (t : Nat) : (x.goto t).pcWritten = x.pcWritten := rfl
@[simp] theorem Lane.goto_acq (x : Lane) (t : Nat) : (x.goto t).acq = x.acq := rfl
@[simp] theorem Lane.goto_noBreak (x : Lane) (t : Nat) : (x.goto t).noBreak = x.noBreak := rfl
@[simp] theorem Lane.goto_badRegs (x : Lane) (t : Nat) : (x.goto t).badRegs = x.badRegs := rfl

/-! Marks set. -/

@[simp] theorem Lane.mark_pc (x : Lane) (f : Nat) (rs : List Nat) : (x.mark f rs).pc = x.pc := rfl
@[simp] theorem Lane.mark_blk (x : Lane) (f : Nat) (rs : List Nat) : (x.mark f rs).blk = x.blk := rfl
@[simp] theorem Lane.mark_st (x : Lane) (f : Nat) (rs : List Nat) : (x.mark f rs).st = x.st := rfl
@[simp] theorem Lane.mark_v (x : Lane) (f : Nat) (rs : List Nat) : (x.mark f rs).v = x.v := rfl
@[simp] theorem Lane.mark_p (x : Lane) (f : Nat) (rs : List Nat) : (x.mark f rs).p = x.p := rfl
@[simp] theorem Lane.mark_depth (x : Lane) (f : Nat) (rs : List Nat) : (x.mark f rs).depth = x.depth := rfl
@[simp] theorem Lane.mark_held (x : Lane) (f : Nat) (rs : List Nat) : (x.mark f rs).held = x.held := rfl
@[simp] theorem Lane.mark_age (x : Lane) (f : Nat) (rs : List Nat) : (x.mark f rs).age = x.age := rfl
@[simp] theorem Lane.mark_task (x : Lane) (f : Nat) (rs : List Nat) : (x.mark f rs).task = x.task := rfl
@[simp] theorem Lane.mark_taskIx (x : Lane) (f : Nat) (rs : List Nat) : (x.mark f rs).taskIx = x.taskIx := rfl
@[simp] theorem Lane.mark_lapIn (x : Lane) (f : Nat) (rs : List Nat) : (x.mark f rs).lapIn = x.lapIn := rfl
@[simp] theorem Lane.mark_trap (x : Lane) (f : Nat) (rs : List Nat) : (x.mark f rs).trap = x.trap := rfl
@[simp] theorem Lane.mark_park (x : Lane) (f : Nat) (rs : List Nat) : (x.mark f rs).park = x.park := rfl
@[simp] theorem Lane.mark_pcWritten (x : Lane) (f : Nat) (rs : List Nat) : (x.mark f rs).pcWritten = x.pcWritten := rfl
@[simp] theorem Lane.mark_acq (x : Lane) (f : Nat) (rs : List Nat) : (x.mark f rs).acq = x.acq := rfl
@[simp] theorem Lane.mark_noBreak (x : Lane) (f : Nat) (rs : List Nat) : (x.mark f rs).noBreak = x.noBreak := rfl
@[simp] theorem Lane.mark_badRegs (x : Lane) (f : Nat) (rs : List Nat) : (x.mark f rs).badRegs = x.badRegs := rfl

/-! Marks cleared. -/

@[simp] theorem Lane.unmark_pc (x : Lane) (m : Nat) : (x.unmark m).pc = x.pc := rfl
@[simp] theorem Lane.unmark_blk (x : Lane) (m : Nat) : (x.unmark m).blk = x.blk := rfl
@[simp] theorem Lane.unmark_st (x : Lane) (m : Nat) : (x.unmark m).st = x.st := rfl
@[simp] theorem Lane.unmark_v (x : Lane) (m : Nat) : (x.unmark m).v = x.v := rfl
@[simp] theorem Lane.unmark_p (x : Lane) (m : Nat) : (x.unmark m).p = x.p := rfl
@[simp] theorem Lane.unmark_depth (x : Lane) (m : Nat) : (x.unmark m).depth = x.depth := rfl
@[simp] theorem Lane.unmark_held (x : Lane) (m : Nat) : (x.unmark m).held = x.held := rfl
@[simp] theorem Lane.unmark_age (x : Lane) (m : Nat) : (x.unmark m).age = x.age := rfl
@[simp] theorem Lane.unmark_task (x : Lane) (m : Nat) : (x.unmark m).task = x.task := rfl
@[simp] theorem Lane.unmark_taskIx (x : Lane) (m : Nat) : (x.unmark m).taskIx = x.taskIx := rfl
@[simp] theorem Lane.unmark_lapIn (x : Lane) (m : Nat) : (x.unmark m).lapIn = x.lapIn := rfl
@[simp] theorem Lane.unmark_trap (x : Lane) (m : Nat) : (x.unmark m).trap = x.trap := rfl
@[simp] theorem Lane.unmark_park (x : Lane) (m : Nat) : (x.unmark m).park = x.park := rfl
@[simp] theorem Lane.unmark_pcWritten (x : Lane) (m : Nat) : (x.unmark m).pcWritten = x.pcWritten := rfl
@[simp] theorem Lane.unmark_acq (x : Lane) (m : Nat) : (x.unmark m).acq = x.acq := rfl
@[simp] theorem Lane.unmark_noBreak (x : Lane) (m : Nat) : (x.unmark m).noBreak = x.noBreak := rfl
@[simp] theorem Lane.unmark_badRegs (x : Lane) (m : Nat) : (x.unmark m).badRegs = x.badRegs := rfl

/-! The move to the next word. -/

@[simp] theorem Lane.advance_st (x : Lane) : x.advance.st = x.st := by unfold Lane.advance; split <;> rfl
@[simp] theorem Lane.advance_v (x : Lane) : x.advance.v = x.v := by unfold Lane.advance; split <;> rfl
@[simp] theorem Lane.advance_p (x : Lane) : x.advance.p = x.p := by unfold Lane.advance; split <;> rfl
@[simp] theorem Lane.advance_depth (x : Lane) : x.advance.depth = x.depth := by unfold Lane.advance; split <;> rfl
@[simp] theorem Lane.advance_held (x : Lane) : x.advance.held = x.held := by unfold Lane.advance; split <;> rfl
@[simp] theorem Lane.advance_pend (x : Lane) : x.advance.pend = x.pend := by unfold Lane.advance; split <;> rfl
@[simp] theorem Lane.advance_age (x : Lane) : x.advance.age = x.age := by unfold Lane.advance; split <;> rfl
@[simp] theorem Lane.advance_task (x : Lane) : x.advance.task = x.task := by unfold Lane.advance; split <;> rfl
@[simp] theorem Lane.advance_taskIx (x : Lane) : x.advance.taskIx = x.taskIx := by unfold Lane.advance; split <;> rfl
@[simp] theorem Lane.advance_lapIn (x : Lane) : x.advance.lapIn = x.lapIn := by unfold Lane.advance; split <;> rfl
@[simp] theorem Lane.advance_trap (x : Lane) : x.advance.trap = x.trap := by unfold Lane.advance; split <;> rfl
@[simp] theorem Lane.advance_park (x : Lane) : x.advance.park = x.park := by unfold Lane.advance; split <;> rfl
@[simp] theorem Lane.advance_pcWritten (x : Lane) : x.advance.pcWritten = x.pcWritten := by unfold Lane.advance; split <;> rfl
@[simp] theorem Lane.advance_acq (x : Lane) : x.advance.acq = x.acq := by unfold Lane.advance; split <;> rfl
@[simp] theorem Lane.advance_noBreak (x : Lane) : x.advance.noBreak = x.noBreak := by unfold Lane.advance; split <;> rfl
@[simp] theorem Lane.advance_badRegs (x : Lane) : x.advance.badRegs = x.badRegs := by unfold Lane.advance; split <;> rfl

end Sys2Proof.Machine
end

