-- ==== Sys2Proof/Laws/Heat.lean ====
section
/-! SUPPORT. Laws of the heats of the state and of the lanes of a heat: lookup after update, folds over lanes. -/

namespace Sys2Proof.Machine

/-! Lists. -/

theorem find?_modifyFirst_self {α : Type} (p : α → Bool) (f : α → α) (l : List α) (hp : ∀ a, p a = true → p (f a) = true) :
    (modifyFirst p f l).find? p = (l.find? p).map f := by
  induction l with
  | nil => rfl
  | cons a t ih =>
    simp only [modifyFirst]
    by_cases h : p a = true
    · rw [if_pos h, List.find?_cons_of_pos (hp a h), List.find?_cons_of_pos h]
      rfl
    · rw [if_neg h, List.find?_cons_of_neg h, List.find?_cons_of_neg h, ih]

theorem find?_modifyFirst_ne {α : Type} (p q : α → Bool) (f : α → α) (l : List α)
    (hf : ∀ a, p a = true → q a = false ∧ q (f a) = false) : (modifyFirst p f l).find? q = l.find? q := by
  induction l with
  | nil => rfl
  | cons a t ih =>
    simp only [modifyFirst]
    by_cases h : p a = true
    · rw [if_pos h, List.find?_cons_of_neg (by simp [(hf a h).2]), List.find?_cons_of_neg (by simp [(hf a h).1])]
    · rw [if_neg h]
      by_cases hq : q a = true
      · rw [List.find?_cons_of_pos hq, List.find?_cons_of_pos hq]
      · rw [List.find?_cons_of_neg hq, List.find?_cons_of_neg hq, ih]

theorem modifyFirst_modifyFirst {α : Type} (p : α → Bool) (f g : α → α) (l : List α) (hf : ∀ a, p a = true → p (f a) = true) :
    modifyFirst p g (modifyFirst p f l) = modifyFirst p (fun a => g (f a)) l := by
  induction l with
  | nil => rfl
  | cons a t ih =>
    simp only [modifyFirst]
    by_cases h : p a = true
    · rw [if_pos h, if_pos h]
      simp only [modifyFirst]
      rw [if_pos (hf a h)]
    · rw [if_neg h, if_neg h]
      simp only [modifyFirst]
      rw [if_neg h, ih]

theorem length_modifyAt {α : Type} (l : List α) (i : Nat) (f : α → α) : (modifyAt l i f).length = l.length := by
  induction l generalizing i with
  | nil => rfl
  | cons a t ih => cases i <;> simp [modifyAt, ih]

theorem getElem?_modifyAt {α : Type} (l : List α) (i j : Nat) (f : α → α) :
    (modifyAt l i f)[j]? = if j = i then (l[j]?).map f else l[j]? := by
  induction l generalizing i j with
  | nil => simp [modifyAt]
  | cons a t ih =>
    cases i with
    | zero => cases j <;> simp [modifyAt]
    | succ i => cases j <;> simp [modifyAt, ih]

/-! Heats. -/

theorem State.heat?_key {s : State} {k : HeatKey} {h : Heat} (hh : s.heat? k = some h) : h.key = k := by
  simpa using List.find?_some hh

theorem State.heat?_updHeat_self (s : State) (k : HeatKey) (f : Heat → Heat) (hf : ∀ h, (f h).key = h.key) :
    (s.updHeat k f).heat? k = (s.heat? k).map f :=
  find?_modifyFirst_self _ f s.heats (fun a ha => by simpa [hf a] using ha)

theorem State.heat?_updHeat_ne (s : State) (k j : HeatKey) (f : Heat → Heat) (hf : ∀ h, (f h).key = h.key) (hj : j ≠ k) :
    (s.updHeat k f).heat? j = s.heat? j :=
  find?_modifyFirst_ne _ _ f s.heats (fun a ha => by
    have : a.key = k := by simpa using ha
    simp [hf, this, Ne.symm hj])

theorem State.updHeat_updHeat (s : State) (k : HeatKey) (f g : Heat → Heat) (hf : ∀ h, (f h).key = h.key) :
    (s.updHeat k f).updHeat k g = s.updHeat k (fun h => g (f h)) := by
  simp only [State.updHeat]
  rw [modifyFirst_modifyFirst _ _ _ _ (fun a ha => by simpa [hf a] using ha)]

/-- A lookup sees the heats alone. -/
theorem State.heat?_congr {s t : State} (h : t.heats = s.heats) (k : HeatKey) : t.heat? k = s.heat? k := by
  simp [State.heat?, h]

/-! Lanes. -/

@[simp] theorem Heat.length_updLane (h : Heat) (l : Nat) (f : Lane → Lane) : (h.updLane l f).lanes.length = h.lanes.length :=
  length_modifyAt _ _ _

theorem Heat.lane_updLane (h : Heat) (l m : Nat) (f : Lane → Lane) :
    (h.updLane l f).lane m = if m = l ∧ m < h.lanes.length then f (h.lane m) else h.lane m := by
  simp only [Heat.lane, Heat.updLane, getElem?_modifyAt]
  by_cases hm : m = l
  · by_cases hl : m < h.lanes.length
    · simp [hm, hm ▸ hl]
    · simp [hm, hm ▸ hl]
  · simp [hm]

theorem Heat.length_foldl_updLane (ls : List Nat) (f : Nat → Lane → Lane) (h : Heat) :
    (ls.foldl (fun h l => h.updLane l (f l)) h).lanes.length = h.lanes.length := by
  induction ls generalizing h with
  | nil => rfl
  | cons a t ih => rw [List.foldl_cons, ih, Heat.length_updLane]

/-- A fold that updates each lane of a list once. -/
theorem Heat.lane_foldl_updLane (ls : List Nat) (f : Nat → Lane → Lane) (h : Heat) (m : Nat) (hn : ls.Nodup) :
    (ls.foldl (fun h l => h.updLane l (f l)) h).lane m =
      if m ∈ ls ∧ m < h.lanes.length then f m (h.lane m) else h.lane m := by
  induction ls generalizing h with
  | nil => simp
  | cons a t ih =>
    rw [List.foldl_cons, ih _ (List.nodup_cons.1 hn).2, Heat.length_updLane, Heat.lane_updLane]
    have ha := (List.nodup_cons.1 hn).1
    by_cases hm : m = a
    · subst hm
      simp [ha]
    · simp [hm]

/-- A fold of updates of lanes leaves the other parts of a heat. -/
theorem Heat.foldl_updLane_eq (ls : List Nat) (f : Nat → Lane → Lane) (h : Heat) :
    ls.foldl (fun h l => h.updLane l (f l)) h = { h with lanes := (ls.foldl (fun h l => h.updLane l (f l)) h).lanes } := by
  induction ls generalizing h with
  | nil => rfl
  | cons a t ih =>
    rw [List.foldl_cons, ih]
    rfl

theorem Heat.foldl_updLane_key (ls : List Nat) (f : Nat → Lane → Lane) (h : Heat) :
    (ls.foldl (fun h l => h.updLane l (f l)) h).key = h.key := by rw [Heat.foldl_updLane_eq]

@[simp] theorem Heat.unmark_key (h : Heat) (ls : List Nat) (m : Nat) : (h.unmark ls m).key = h.key := by
  have := Heat.foldl_updLane_key ls (fun _ x => x.unmark m) h
  unfold Heat.unmark
  split <;> exact this

theorem Heat.ext_lane {h g : Heat} (hl : g.lanes.length = h.lanes.length) (he : ∀ l, g.lane l = h.lane l) : g.lanes = h.lanes := by
  apply List.ext_getElem hl
  intro i h1 h2
  have := he i
  simpa [Heat.lane, h1, h2] using this

/-! The counts of an issue. -/

theorem account_lanes (h0 : Heat) (issuing aside : List Nat) (now : Nat) (i : Instr) (rev : Bool) (h : Heat) :
    (account h0 issuing aside now i rev h).lanes.length = h.lanes.length ∧
    ∀ l, l < h.lanes.length → (account h0 issuing aside now i rev h).lane l = Safe.closeLane issuing now l (h.lane l) := by
  constructor
  · simp [account, upto]
  · intro l hl
    simp [account, Heat.lane, upto, Safe.closeLane, hl]

theorem account_lane (h0 : Heat) (issuing aside : List Nat) (now : Nat) (i : Instr) (rev : Bool) (h : Heat) (l : Nat)
    (hi : ∀ m ∈ issuing, m < h.lanes.length) :
    (account h0 issuing aside now i rev h).lane l = Safe.closeLane issuing now l (h.lane l) := by
  by_cases hl : l < h.lanes.length
  · exact (account_lanes h0 issuing aside now i rev h).2 l hl
  · have h1 : h.lanes[l]? = none := List.getElem?_eq_none (Nat.le_of_not_lt hl)
    have h2 : (account h0 issuing aside now i rev h).lanes[l]? = none := by
      apply List.getElem?_eq_none
      rw [(account_lanes h0 issuing aside now i rev h).1]
      exact Nat.le_of_not_lt hl
    have h3 : issuing.contains l = false := by
      simpa using fun hm => absurd (hi l hm) hl
    have h4 : l ∉ issuing := fun hm => absurd (hi l hm) hl
    simp [Heat.lane, h1, h2, Safe.closeLane, h4]

theorem account_rest (h0 : Heat) (issuing aside : List Nat) (now : Nat) (i : Instr) (rev : Bool) (h : Heat) :
    account h0 issuing aside now i rev h =
      { h with lanes := (account h0 issuing aside now i rev h).lanes, starved := (account h0 issuing aside now i rev h).starved, paced := false,
               fence := none, lastIssue := some now, undo := (account h0 issuing aside now i rev h).undo } := rfl

/-! Barriers are settled only where a heat has just exited. -/

theorem State.settleBars_live {s : State} {k : HeatKey} {h : Heat} (hh : s.heat? k = some h) (hl : h.allExited = false) :
    s.settleBars k = s := by
  simp [State.settleBars, hh, hl]

theorem Heat.allExited_false {h : Heat} {l : Nat} (hl : l < h.lanes.length) (hs : (h.lane l).st ≠ .exited) : h.allExited = false := by
  rw [Heat.allExited, List.all_eq_false]
  refine ⟨h.lanes[l], List.getElem_mem hl, ?_⟩
  simpa [Lane.exited, Heat.lane, hl] using hs

end Sys2Proof.Machine
end

