-- ==== Sys2Proof/Laws/Issue.lean ====
section
/-! SUPPORT. What an issue does, said once: the frame of `issue` and `finish` for a word that meets none of the checks before
its effect, and the outcome of the words that compute a value for each lane. -/

namespace Sys2Proof.Machine
open Safe

/-- What the body of a word that issues sees. -/
def envOf (i : Instr) (s : State) (x : Iss) (h : Heat) : Env :=
  { i := i, com := com i, key := x.key, h := h, act := active i x h, mask := maskOf (active i x h), issuing := x.lanes
    pc := x.pc, hdrAddr := x.hdrAddr, hdr := x.hdr, flag := flagOf x.hdr (com i), base := { s with iss := none }, aside := x.aside }

theorem entered_heat {s : State} {x : Iss} {h : Heat} (hh : (entered s x).heat? x.key = some h) :
    ∃ h0, s.heat? x.key = some h0 := by
  unfold entered enterBlock at hh
  split at hh
  · rw [State.heat?_updHeat_self _ _ _ (fun h => by rw [Heat.unmark_key]; exact Heat.foldl_updLane_key _ _ h), Option.map_eq_some_iff] at hh
    obtain ⟨a, ha, _⟩ := hh
    exact ⟨a, ha⟩
  · exact ⟨h, hh⟩

/-- The frame of a word that issues: its body, then the end of the issue. -/
theorem issue_eq {i : Instr} {s : State} {x : Iss} {h : Heat} (hI : Issues i s x h) (body : Env → Work → Work) :
    ∃ h0, s.heat? x.key = some h0 ∧
      issue i s body = .next (finish (envOf i s x h) h0 (body (envOf i s x h) { s := entered s x })) := by
  obtain ⟨h0, hh0⟩ := entered_heat hI.heat
  refine ⟨h0, hh0, ?_⟩
  have hh := hI.heat
  have hz : (active i x h).filter (fun l => h.hazard l (Instr.namedV i) (Instr.namedK i)) = [] := by
    rw [List.filter_eq_nil_iff]
    exact fun l hl => by simp [hI.clear l hl]
  have hz' : (active i x h).filter (fun l => !([] : List Nat).contains l) = active i x h := by simp
  simp only [entered, active, com] at hh hz hz'
  have hroom : (Instr.long i && Tbl.get 0 h.fcnt (flagOf x.hdr (Dec.com (encode i))) == 63) = false := by
    cases hl : Instr.long i
    · rfl
    · simpa [com] using hI.room hl
  have hpriv : (Instr.privileged i && !h.service) = false := by
    cases hl : Instr.privileged i
    · rfl
    · simp [hI.mode hl]
  unfold issue
  simp only [hI.iss, hh0, hh, Option.getD_some, hz, hz', hI.legal, hI.role, hI.readable, hroom, hpriv, Bool.false_and,
    Bool.false_eq_true, if_false, Bool.true_eq_false]
  rfl

/-- The end of an issue without a trap or a stall, while a lane of the heat lives. -/
def closing (e : Env) (h0 : Heat) (w : Work) (h : Heat) : Heat :=
  account h0 e.issuing e.aside w.s.now e.i (reversible e.i && !w.irrev)
    ((e.issuing.filter (fun l => !(w.stay.contains l))).foldl (fun h l => h.updLane l Lane.advance) h)

theorem closing_key (e : Env) (h0 : Heat) (w : Work) (h : Heat) : (closing e h0 w h).key = h.key := by
  unfold closing
  rw [account_rest, Heat.foldl_updLane_eq]

theorem finish_quiet {e : Env} {h0 : Heat} {w : Work} {h : Heat} (ht : w.traps = []) (hst : w.stall = false)
    (hh : w.s.heat? e.key = some h) (hl : (closing e h0 w h).allExited = false) :
    finish e h0 w = { w.s.updHeat e.key (closing e h0 w) with iss := none, now := w.s.now + 1 } := by
  have hk : (w.s.updHeat e.key (closing e h0 w)).heat? e.key = some (closing e h0 w h) := by
    rw [State.heat?_updHeat_self _ _ _ (closing_key e h0 w), hh]
    rfl
  have hf : (e.issuing).filterMap (fun l => ([] : List (Nat × Trap)).find? (fun t => t.1 = l)) = [] := by
    simp
  unfold finish
  rw [if_neg (by simp [hst])]
  simp only [ht, hf, List.isEmpty_nil, if_true, List.any_nil, Bool.not_false, Bool.and_true]
  have := State.settleBars_live hk hl
  unfold closing at this
  rw [this]
  rfl

/-- A lane of the heat at the end of the issue. -/
theorem closing_lane (e : Env) (h0 : Heat) (w : Work) (h : Heat) (l : Nat) (hi : ∀ m ∈ e.issuing, m < h.lanes.length)
    (hn : e.issuing.Nodup) :
    (closing e h0 w h).lane l =
      closeLane e.issuing w.s.now l (if l ∈ e.issuing ∧ l ∉ w.stay then (h.lane l).advance else h.lane l) := by
  unfold closing
  rw [account_lane _ _ _ _ _ _ _ _ (by
    intro m hm
    rw [Heat.length_foldl_updLane _ (fun _ => Lane.advance)]
    exact hi m hm), Heat.lane_foldl_updLane _ (fun _ => Lane.advance) _ _ (hn.filter _)]
  congr 1
  by_cases h1 : l ∈ e.issuing
  · simp [h1, hi l h1]
  · simp [h1]

theorem closing_length (e : Env) (h0 : Heat) (w : Work) (h : Heat) : (closing e h0 w h).lanes.length = h.lanes.length := by
  unfold closing
  rw [(account_lanes _ _ _ _ _ _ _).1, Heat.length_foldl_updLane _ (fun _ => Lane.advance)]

theorem closing_rest (e : Env) (h0 : Heat) (w : Work) (h : Heat) :
    closing e h0 w h = { h with lanes := (closing e h0 w h).lanes, starved := (closing e h0 w h).starved, paced := false,
                                fence := none, lastIssue := some w.s.now, undo := (closing e h0 w h).undo } := by
  unfold closing
  rw [account_rest, Heat.foldl_updLane_eq]

theorem Issues_nodup {i : Instr} {s : State} {x : Iss} {h : Heat} (hI : Issues i s x h) : x.lanes.Nodup :=
  hI.order.imp (fun h => Nat.ne_of_lt h)

theorem Issues_active_nodup {i : Instr} {s : State} {x : Iss} {h : Heat} (hI : Issues i s x h) : (active i x h).Nodup :=
  (Issues_nodup hI).filter _

theorem entered_eq (s : State) (x : Iss) : entered s x = { s with heats := (entered s x).heats, iss := none } := by
  unfold entered enterBlock
  split <;> rfl

theorem entered_heat_ne (s : State) (x : Iss) (k : HeatKey) (hk : k ≠ x.key) : (entered s x).heat? k = s.heat? k := by
  unfold entered enterBlock
  split
  · rw [State.heat?_updHeat_ne _ _ _ _ (fun h => by rw [Heat.unmark_key]; exact Heat.foldl_updLane_key _ _ h) hk]
    rfl
  · rfl

theorem closeLane_live (ls : List Nat) (now l : Nat) (y : Lane) (hy : y.st ≠ .exited) : (closeLane ls now l y).st ≠ .exited := by
  unfold closeLane
  split
  · exact hy
  · split
    · simp
    · exact hy

/-- The outcome of a word whose body neither traps nor stalls while a lane of its heat lives: the state that the body left,
with every lane that issued and is not settled by the body at the next word. -/
theorem quiet_outcome {i : Instr} {s : State} {x : Iss} {h h1 : Heat} (hI : Issues i s x h) (body : Env → Work → Work) {w : Work}
    (hw : body (envOf i s x h) { s := entered s x } = w) (ht : w.traps = []) (hst : w.stall = false) (hn : w.s.now = s.now)
    (hh : w.s.heat? x.key = some h1) (hlen : h1.lanes.length = h.lanes.length) (hlive : h1.allExited = false) :
    ∃ t g, issue i s body = .next t ∧ t = { w.s with heats := t.heats, iss := none, now := s.now + 1 } ∧
      (∀ k, k ≠ x.key → t.heat? k = w.s.heat? k) ∧ t.heat? x.key = some g ∧
      g = { h1 with lanes := g.lanes, starved := g.starved, paced := false, fence := none, lastIssue := some s.now, undo := g.undo } ∧
      g.lanes.length = h.lanes.length ∧
      ∀ l, g.lane l = closeLane x.lanes s.now l (if l ∈ x.lanes ∧ l ∉ w.stay then (h1.lane l).advance else h1.lane l) := by
  obtain ⟨h0, _, he⟩ := issue_eq hI body
  rw [hw] at he
  have hlan : ∀ m ∈ x.lanes, m < h1.lanes.length := fun m hm => hlen ▸ (hI.lanes m hm).1
  have hg := closing_lane (envOf i s x h) h0 w h1
  have hl' : (closing (envOf i s x h) h0 w h1).allExited = false := by
    rw [Heat.allExited, List.all_eq_false] at hlive
    obtain ⟨y, hy, hs⟩ := hlive
    obtain ⟨l, hl, rfl⟩ := List.mem_iff_getElem.1 hy
    have hs' : (h1.lane l).st ≠ .exited := by simpa [Lane.exited, Heat.lane, hl] using hs
    refine Heat.allExited_false (l := l) (by rw [closing_length]; exact hl) ?_
    rw [hg l hlan (Issues_nodup hI)]
    refine closeLane_live _ _ _ _ ?_
    split <;> simpa using hs'
  rw [finish_quiet ht hst hh hl'] at he
  refine ⟨_, closing (envOf i s x h) h0 w h1, he, ?_, ?_, ?_, ?_, ?_, ?_⟩
  · rw [hn]
    rfl
  · intro k hk
    exact State.heat?_updHeat_ne _ _ _ _ (closing_key _ _ _) hk
  · show (w.s.updHeat x.key _).heat? x.key = _
    rw [State.heat?_updHeat_self _ _ _ (closing_key _ _ _), hh]
    rfl
  · rw [← hn]; exact closing_rest _ _ _ _
  · rw [closing_length, hlen]
  · intro m
    rw [hg m hlan (Issues_nodup hI), hn]
    rfl

/-- The outcome of a word whose body works on its own heat (and on the flag words of tasks) and neither traps nor stalls. -/
theorem local_outcome {i : Instr} {s : State} {x : Iss} {h h1 : Heat} (hI : Issues i s x h) (body : Env → Work → Work) {w : Work}
    (hw : body (envOf i s x h) { s := entered s x } = w) (ht : w.traps = []) (hst : w.stall = false)
    (hs : w.s = { entered s x with heats := w.s.heats, runs := w.s.runs }) (hh : w.s.heat? x.key = some h1)
    (hne : ∀ k, k ≠ x.key → w.s.heat? k = s.heat? k) (hlen : h1.lanes.length = h.lanes.length)
    (hlive : ∃ l ∈ x.lanes, (h1.lane l).st ≠ .exited) :
    ∃ t g, issue i s body = .next t ∧ t = { s with heats := t.heats, runs := w.s.runs, iss := none, now := s.now + 1 } ∧
      (∀ k, k ≠ x.key → t.heat? k = s.heat? k) ∧ t.heat? x.key = some g ∧
      g = { h1 with lanes := g.lanes, starved := g.starved, paced := false, fence := none, lastIssue := some s.now, undo := g.undo } ∧
      g.lanes.length = h.lanes.length ∧
      ∀ l, g.lane l = closeLane x.lanes s.now l (if l ∈ x.lanes ∧ l ∉ w.stay then (h1.lane l).advance else h1.lane l) := by
  have hn : w.s.now = s.now := by rw [hs]; show (entered s x).now = _; rw [entered_eq]
  obtain ⟨l, hl, hls⟩ := hlive
  obtain ⟨t, g, e1, e2, e3, e4⟩ := quiet_outcome hI body hw ht hst hn hh hlen
    (Heat.allExited_false (hlen ▸ (hI.lanes l hl).1) hls)
  refine ⟨t, g, e1, ?_, fun k hk => (e3 k hk).trans (hne k hk), e4⟩
  rw [e2, hs, entered_eq s x]

/-- A word whose body does what `Acts` says. -/
theorem acts_of {i : Instr} {P : Seen → Prop} {U : Seen → State} {G : Seen → Heat} {F : Seen → Nat → Lane → Lane} (body : Env → Work → Work)
    (hi : ∀ s, exec i s = issue i s body)
    (hb : ∀ s x h, Issues i s x h → P (seen i s x h) → ∃ (w : Work) (h1 : Heat),
      body (envOf i s x h) { s := entered s x } = w ∧ w.traps = [] ∧ w.stall = false ∧ w.s.now = s.now ∧
      w.s = { U (seen i s x h) with heats := w.s.heats, iss := none, now := s.now } ∧ (∀ k, k ≠ x.key → w.s.heat? k = s.heat? k) ∧
      w.s.heat? x.key = some h1 ∧ h1 = { G (seen i s x h) with lanes := h1.lanes } ∧ h1.lanes.length = h.lanes.length ∧
      h1.allExited = false ∧
      ∀ l, l < h.lanes.length → (if l ∈ x.lanes ∧ l ∉ w.stay then (h1.lane l).advance else h1.lane l) =
        if l ∈ active i x h then F (seen i s x h) l (h.lane l) else if l ∈ x.lanes then (h.lane l).advance else h.lane l) :
    Acts i P U G F := by
  intro s x h hI hP
  obtain ⟨w, h1, b1, b2, b3, b4, b5, b6, b7, b8, b9, b10, b12⟩ := hb s x h hI hP
  obtain ⟨t, g, e1, e2, e3, e4, e5, e6, e7⟩ := quiet_outcome hI body b1 b2 b3 b4 b7 b9 b10
  refine ⟨t, g, (hi s).trans e1, ?_, fun k hk => (e3 k hk).trans (b6 k hk), e4, ?_, ?_⟩
  · rw [e2, b5]
  · rw [e5, b8]
  · intro m hm
    rw [e7 m, b12 m hm]

/-- A word whose body changes the part and not its heat. -/
theorem actsOn_of {i : Instr} {P : Seen → Prop} {U : Seen → State} (body : Env → Work → Work) (hi : ∀ s, exec i s = issue i s body)
    (hb : ∀ s x h, Issues i s x h → P (seen i s x h) → ∃ (w : Work), body (envOf i s x h) { s := entered s x } = w ∧
      w.traps = [] ∧ w.stall = false ∧ w.stay = [] ∧
      w.s = { U (seen i s x h) with heats := (entered s x).heats, iss := none, now := s.now }) : ActsOn i P U := by
  refine acts_of body hi (fun s x h hI hP => ?_)
  obtain ⟨w, b1, b2, b3, b4, b5⟩ := hb s x h hI hP
  obtain ⟨l, hl⟩ := List.exists_mem_of_ne_nil _ hI.some_lane
  have hh : w.s.heats = (entered s x).heats := by rw [b5]
  refine ⟨w, h, b1, b2, b3, by rw [b5], by rw [b5], ?_, ?_, rfl, rfl, Heat.allExited_false (hI.lanes l hl).1 (by rw [(hI.lanes l hl).2]; simp), ?_⟩
  · intro k hk
    rw [State.heat?_congr hh]
    exact entered_heat_ne s x k hk
  · rw [State.heat?_congr hh]
    exact hI.heat
  · intro l _
    by_cases ha : l ∈ active i x h
    · simp [b4, ha, (List.mem_filter.1 ha).1]
    · simp [b4, ha]

/-- A word whose body updates its heat and changes the rest of the part. -/
theorem acts_upd {i : Instr} {P : Seen → Prop} {U : Seen → State} {G : Seen → Heat} {F : Seen → Nat → Lane → Lane} (body : Env → Work → Work)
    (hi : ∀ s, exec i s = issue i s body)
    (hb : ∀ s x h, Issues i s x h → P (seen i s x h) → ∃ (w : Work) (f : Heat → Heat),
      body (envOf i s x h) { s := entered s x } = w ∧ w.traps = [] ∧ w.stall = false ∧ (∀ g, (f g).key = g.key) ∧
      w.s = { U (seen i s x h) with heats := ((entered s x).updHeat x.key f).heats, iss := none, now := s.now } ∧
      f h = { G (seen i s x h) with lanes := (f h).lanes } ∧ (f h).lanes.length = h.lanes.length ∧
      (∀ l ∈ x.lanes, ((f h).lane l).st ≠ .exited) ∧
      ∀ l, l < h.lanes.length → (if l ∈ x.lanes ∧ l ∉ w.stay then ((f h).lane l).advance else (f h).lane l) =
        if l ∈ active i x h then F (seen i s x h) l (h.lane l) else if l ∈ x.lanes then (h.lane l).advance else h.lane l) :
    Acts i P U G F := by
  refine acts_of body hi (fun s x h hI hP => ?_)
  obtain ⟨w, f, b1, b2, b3, b4, b5, b6, b7, b8, b9⟩ := hb s x h hI hP
  obtain ⟨l, hl⟩ := List.exists_mem_of_ne_nil _ hI.some_lane
  have hh : w.s.heats = ((entered s x).updHeat x.key f).heats := by rw [b5]
  refine ⟨w, f h, b1, b2, b3, by rw [b5], by rw [b5], ?_, ?_, b6, b7, Heat.allExited_false (b7 ▸ (hI.lanes l hl).1) (b8 l hl), b9⟩
  · intro k hk
    rw [State.heat?_congr hh, State.heat?_updHeat_ne _ _ _ _ b4 hk]
    exact entered_heat_ne s x k hk
  · rw [State.heat?_congr hh, State.heat?_updHeat_self _ _ _ b4, hI.heat]
    rfl

/-- The lanes of a word that leaves each of them to move on. -/
theorem lanes_advance {i : Instr} {x : Iss} {h : Heat} (l : Nat) :
    (if l ∈ x.lanes ∧ l ∉ ([] : List Nat) then (h.lane l).advance else h.lane l) =
      if l ∈ active i x h then (h.lane l).advance else if l ∈ x.lanes then (h.lane l).advance else h.lane l := by
  by_cases ha : l ∈ active i x h
  · simp [ha, (List.mem_filter.1 ha).1]
  · simp [ha]

theorem Issues_live {i : Instr} {s : State} {x : Iss} {h : Heat} (hI : Issues i s x h) : ∀ l ∈ x.lanes, (h.lane l).st ≠ .exited :=
  fun l hl => by rw [(hI.lanes l hl).2]; simp

/-! Destinations. -/

/-- A lane's vector register written. -/
def Lane.setDstV (x : Lane) (w : Bool) (n y : Nat) : Lane := if w then x.setV64 n y else x.setV n y

@[simp] theorem Lane.v32_setV_self (x : Lane) (n y : Nat) : (x.setV n y).v32 n = y % 2 ^ 32 := by
  simp [Lane.v32, Lane.setV]

theorem Lane.v32_setV_ne (x : Lane) (n m y : Nat) (h : m ≠ n) : (x.setV n y).v32 m = x.v32 m := by
  simp [Lane.v32, Lane.setV, Tbl.get_put_ne _ _ _ _ h]

@[simp] theorem Lane.v64_setV64 (x : Lane) (n y : Nat) : (x.setV64 n y).v64 n = y % 2 ^ 64 := by
  have h : ((x.setV n y).setV (n + 1) (y / 2 ^ 32)).v32 n = y % 2 ^ 32 := by
    rw [Lane.v32_setV_ne _ _ _ _ (by omega), Lane.v32_setV_self]
  simp only [Lane.v64, Lane.setV64, h, Lane.v32_setV_self]
  omega

theorem Lane.v32_setDstV_ne (x : Lane) (w : Bool) (n m y : Nat) (h : covers w m (.v n) = false) :
    (x.setDstV w n y).v32 m = x.v32 m := by
  simp only [covers, Bool.or_eq_false_iff, Bool.and_eq_false_iff, beq_eq_false_iff_ne] at h
  unfold Lane.setDstV
  split
  · rename_i hw
    have h2 : m ≠ n + 1 := by
      rcases h.2 with h | h
      · simp [hw] at h
      · exact h
    rw [Lane.setV64, Lane.v32_setV_ne _ _ _ _ h2, Lane.v32_setV_ne _ _ _ _ h.1]
  · rw [Lane.v32_setV_ne _ _ _ _ h.1]

theorem Lane.setDstV_eq (x : Lane) (w : Bool) (n y : Nat) : x.setDstV w n y = { x with v := (x.setDstV w n y).v } := by
  unfold Lane.setDstV; split <;> rfl

theorem Heat.k64_setK_self (h : Heat) (n y : Nat) : (h.setK n y).k64 n = y % 2 ^ 64 := by
  simp [Heat.k64, Heat.setK]

theorem Heat.k64_setK_ne (h : Heat) (n m y : Nat) (hm : m ≠ n) : (h.setK n y).k64 m = h.k64 m := by
  simp [Heat.k64, Heat.setK, Tbl.get_put_ne _ _ _ _ hm]

/-- The results of the active lanes in a vector destination. -/
theorem Heat.setAll_v (h : Heat) (w : Bool) (n : Nat) (act : List Nat) (f : Nat → Nat) :
    h.setAll w (.v n) (act.map (fun l => (l, f l))) = act.foldl (fun h l => h.updLane l (fun x => x.setDstV w n (f l))) h := by
  have : ∀ (g : Heat), (act.map (fun l => (l, f l))).foldl (fun h r => h.setDst w r.1 (.v n) r.2) g =
      act.foldl (fun h l => h.updLane l (fun x => x.setDstV w n (f l))) g := by
    induction act with
    | nil => exact fun _ => rfl
    | cons a t ih => exact fun g => ih _
  exact this h

/-- The results of the active lanes in a uniform destination: the lowest lane's. -/
theorem Heat.setAll_k (h : Heat) (w : Bool) (n : Nat) (act : List Nat) (f : Nat → Nat) :
    h.setAll w (.k n) (act.map (fun l => (l, f l))) =
      if act = [] then h else h.setK n (f (act.headD 0) % 2 ^ (if w then 64 else 32)) := by
  cases act with
  | nil => rfl
  | cons a t => cases w <;> rfl

/-- What writing a destination changes. -/
theorem Heat.setAll_spec (h : Heat) (w : Bool) (d : Dst) (act : List Nat) (f : Nat → Nat) (hn : act.Nodup)
    (hl : ∀ l ∈ act, l < h.lanes.length) :
    ∃ g, h.setAll w d (act.map (fun l => (l, f l))) = g ∧ g = { h with lanes := g.lanes, k := g.k } ∧
      g.lanes.length = h.lanes.length ∧ (∀ l, g.lane l = { h.lane l with v := (g.lane l).v }) ∧
      (∀ l ∈ act, readDst g w l d = destValue w act f l d) ∧
      (∀ l n, ¬ (l ∈ act ∧ covers w n d = true) → (g.lane l).v32 n = (h.lane l).v32 n) ∧
      (∀ n, d ≠ .k n → g.k64 n = h.k64 n) := by
  refine ⟨_, rfl, ?_⟩
  cases d with
  | v n =>
    rw [Heat.setAll_v]
    have hlane := fun m => Heat.lane_foldl_updLane act (fun l x => x.setDstV w n (f l)) h m hn
    refine ⟨?_, Heat.length_foldl_updLane _ (fun l x => x.setDstV w n (f l)) _, ?_, ?_, ?_, ?_⟩
    · rw [Heat.foldl_updLane_eq act (fun l x => x.setDstV w n (f l))]
    · intro l
      rw [hlane]
      split
      · exact Lane.setDstV_eq _ _ _ _
      · rfl
    · intro l hm
      simp only [readDst, destValue, hlane, if_pos (And.intro hm (hl l hm))]
      cases w
      · simp [Lane.setDstV]
      · simp [Lane.setDstV]
    · intro l m hm
      rw [hlane]
      split
      · rename_i hc
        rw [Lane.v32_setDstV_ne _ _ _ _ _ (by
          cases hv : covers w m (.v n)
          · rfl
          · exact absurd ⟨hc.1, hv⟩ hm)]
      · rfl
    · intro m _
      rw [Heat.foldl_updLane_eq act (fun l x => x.setDstV w n (f l))]
      rfl
  | k n =>
    rw [Heat.setAll_k]
    split
    · rename_i ha
      subst ha
      exact ⟨rfl, rfl, fun _ => rfl, by simp, fun _ _ _ => rfl, fun _ _ => rfl⟩
    · refine ⟨rfl, rfl, fun _ => rfl, ?_, fun _ _ _ => rfl, ?_⟩
      · intro l _
        simp only [readDst, destValue, Heat.k64_setK_self]
        apply Nat.mod_eq_of_lt
        cases w
        · exact Nat.lt_of_lt_of_le (Nat.mod_lt _ (by decide)) (by decide)
        · exact Nat.mod_lt _ (by decide)
      · intro m hm
        exact Heat.k64_setK_ne _ _ _ _ (fun he => hm (by rw [he]))

/-! The merging of flags (R160). -/

theorem State.mergeFlags_eq (s : State) (k : HeatKey) (l fl : Nat) :
    s.mergeFlags k l fl = { s with heats := (s.mergeFlags k l fl).heats, runs := (s.mergeFlags k l fl).runs } := by
  unfold State.mergeFlags
  split
  · rfl
  · split <;> rfl

theorem State.heat?_mergeFlags_ne (s : State) (k j : HeatKey) (l fl : Nat) (hj : j ≠ k) :
    (s.mergeFlags k l fl).heat? j = s.heat? j := by
  unfold State.mergeFlags
  split
  · rfl
  · split
    · rfl
    · exact State.heat?_updHeat_ne _ _ _ _ (fun _ => rfl) hj

theorem State.mergeFlags_heat (s : State) (k : HeatKey) (l fl : Nat) (h : Heat) (hh : s.heat? k = some h) :
    ∃ n, (s.mergeFlags k l fl).heat? k = some { h with nflags := n } := by
  unfold State.mergeFlags
  split
  · exact ⟨h.nflags, hh⟩
  · split
    · exact ⟨h.nflags, hh⟩
    · exact ⟨h.nflags ||| fl, by rw [State.heat?_updHeat_self _ _ _ (by intro _; rfl), hh]; rfl⟩

theorem State.mergeFlags_noTask (s : State) (k : HeatKey) (l fl : Nat) (h : Heat) (hh : s.heat? k = some h)
    (ht : (h.lane l).task = none) :
    (s.mergeFlags k l fl).heat? k = some { h with nflags := h.nflags ||| fl } ∧ (s.mergeFlags k l fl).runs = s.runs := by
  have hl : (s.lane? k l).bind (·.task) = none := by
    simp only [State.lane?, hh, Option.bind_some]
    simp only [Heat.lane] at ht
    cases hx : h.lanes[l]? with
    | none => rfl
    | some y => rw [hx] at ht; exact ht
  unfold State.mergeFlags
  by_cases hf : fl = 0
  · subst hf
    simp [hh]
  · rw [if_neg hf, hl]
    exact ⟨by rw [State.heat?_updHeat_self _ _ _ (by intro _; rfl), hh]; rfl, rfl⟩

/-- The flags of several lanes merged. -/
theorem State.mergeFlags_all (ls : List Nat) (f : Nat → Nat) (k : HeatKey) (s : State) (h : Heat) (hh : s.heat? k = some h) :
    ∃ t n, ls.foldl (fun s l => s.mergeFlags k l (f l)) s = t ∧ t = { s with heats := t.heats, runs := t.runs } ∧
      t.heat? k = some { h with nflags := n } ∧ (∀ j, j ≠ k → t.heat? j = s.heat? j) ∧
      ((∀ l ∈ ls, (h.lane l).task = none) → t.runs = s.runs ∧ n = ls.foldl (fun n l => n ||| f l) h.nflags) := by
  induction ls generalizing s h with
  | nil => exact ⟨s, h.nflags, rfl, rfl, hh, fun _ _ => rfl, fun _ => ⟨rfl, rfl⟩⟩
  | cons a ls ih =>
    obtain ⟨n1, hn1⟩ := State.mergeFlags_heat s k a (f a) h hh
    obtain ⟨t, n, h1, h2, h3, h4, h5⟩ := ih (s.mergeFlags k a (f a)) _ hn1
    refine ⟨t, n, h1, ?_, h3, ?_, ?_⟩
    · rw [h2, State.mergeFlags_eq s k a (f a)]
    · intro j hj
      rw [h4 j hj, State.heat?_mergeFlags_ne _ _ _ _ _ hj]
    · intro ht
      obtain ⟨h6, h7⟩ := State.mergeFlags_noTask s k a (f a) h hh (ht a (by simp))
      have h8 := h5 (fun l hl => ht l (by simp [hl]))
      have h9 : n1 = h.nflags ||| f a := by
        rw [hn1] at h6
        exact congrArg Heat.nflags (Option.some.inj h6)
      refine ⟨h8.1.trans h7, ?_⟩
      rw [h8.2, h9]
      rfl

theorem srcT_congr {s u : State} (hr : u.resets = s.resets) (hn : u.now = s.now) (h : Heat) (m l : Nat) (t : Ty) (x : Src) :
    srcT u h m l t x = srcT s h m l t x := by
  cases x <;> simp only [srcT]
  rename_i y
  cases y <;> simp only [special, State.clock, hr, hn]

theorem closeLane_eq (ls : List Nat) (now l : Nat) (x : Lane) :
    closeLane ls now l x = { x with age := (closeLane ls now l x).age, noBreak := (closeLane ls now l x).noBreak,
                                    st := (closeLane ls now l x).st } := by
  unfold closeLane
  split
  · rfl
  · split <;> rfl

theorem Heat.setAll_key (h : Heat) (w : Bool) (d : Dst) (act : List Nat) (f : Nat → Nat) :
    (h.setAll w d (act.map (fun l => (l, f l)))).key = h.key := by
  cases d with
  | v n => rw [Heat.setAll_v, Heat.foldl_updLane_eq _ (fun l x => x.setDstV w n (f l))]
  | k n =>
    rw [Heat.setAll_k]
    split <;> rfl

/-- What `compute` does to the state: one destination of the issuing heat written, and the lanes' flags merged. -/
theorem compute_body (e : Env) (w : Bool) (d : Dst) (f : Nat → Nat × Nat) (k : Work) (h : Heat) (hh : k.s.heat? e.key = some h)
    (hn : e.act.Nodup) (hlt : ∀ l ∈ e.act, l < h.lanes.length) :
    ∃ u g, e.compute w d f k = { k with s := u } ∧ u = { k.s with heats := u.heats, runs := u.runs } ∧
      u.heat? e.key = some g ∧ (∀ j, j ≠ e.key → u.heat? j = k.s.heat? j) ∧
      g = { h with lanes := g.lanes, k := g.k, nflags := g.nflags } ∧ g.lanes.length = h.lanes.length ∧
      (∀ l, g.lane l = { h.lane l with v := (g.lane l).v }) ∧
      (∀ l ∈ e.act, readDst g w l d = destValue w e.act (fun l => (f l).1) l d) ∧
      (∀ l n, ¬ (l ∈ e.act ∧ covers w n d = true) → (g.lane l).v32 n = (h.lane l).v32 n) ∧
      (∀ n, d ≠ .k n ∨ e.act = [] → g.k64 n = h.k64 n) ∧ ((∀ n, d ≠ .k n) → g.k = h.k) ∧
      ((∀ l ∈ e.act, (h.lane l).task = none) → u.runs = k.s.runs ∧ g.nflags = e.act.foldl (fun n l => n ||| (f l).2) h.nflags) := by
  obtain ⟨g, hg, hgr, hglen, hglane, hgval, hgv, hgk⟩ := Heat.setAll_spec h w d e.act (fun l => (f l).1) hn hlt
  have hmap : (e.act.map (fun l => (l, f l))).map (fun r => (r.1, r.2.1)) = e.act.map (fun l => (l, (f l).1)) := by simp
  have hset : ∀ h2 : Heat, (h2.setAll w d (e.act.map (fun l => (l, (f l).1)))).key = h2.key := fun h2 =>
    Heat.setAll_key h2 w d e.act _
  have hu : (k.s.updHeat e.key (fun h2 => h2.setAll w d (e.act.map (fun l => (l, (f l).1))))).heat? e.key = some g := by
    rw [State.heat?_updHeat_self _ _ _ hset, hh, Option.map_some, hg]
  obtain ⟨u, n, h1, h2, h3, h4, h5⟩ := State.mergeFlags_all e.act (fun l => (f l).2) e.key _ g hu
  refine ⟨u, { g with nflags := n }, ?_, ?_, h3, ?_, ?_, hglen, hglane, hgval, hgv, ?_, ?_, ?_⟩
  · simp only [Env.compute]
    rw [hmap, List.foldl_map, h1]
  · rw [h2]; rfl
  · intro j hj
    rw [h4 j hj, State.heat?_updHeat_ne _ _ _ _ hset hj]
  · rw [hgr]
  · intro n hn
    rcases hn with hn | hn
    · exact hgk n hn
    · show g.k64 n = h.k64 n
      rw [← hg, hn]
      cases d <;> rfl
  · intro hd
    show g.k = h.k
    cases d with
    | v m => rw [← hg, Heat.setAll_v, Heat.foldl_updLane_eq _ (fun l x => x.setDstV w m (f l).1)]
    | k m => exact absurd rfl (hd m)
  · intro ht
    have := h5 (fun l hl => by rw [hglane l]; exact ht l hl)
    refine ⟨this.1, ?_⟩
    show n = _
    rw [this.2, hgr]

/-- The end of an issue whose body wrote vector registers, uniform registers and flags of the heat alone. -/
theorem regs_outcome {i : Instr} {s : State} {x : Iss} {h g : Heat} (hI : Issues i s x h) (body : Env → Work → Work) {u : State}
    (hw : body (envOf i s x h) { s := entered s x } = { s := u }) (hu : u = { entered s x with heats := u.heats, runs := u.runs })
    (hh : u.heat? x.key = some g) (hne : ∀ k, k ≠ x.key → u.heat? k = (entered s x).heat? k)
    (hg : g = { h with lanes := g.lanes, k := g.k, nflags := g.nflags }) (hglen : g.lanes.length = h.lanes.length)
    (hglane : ∀ l, g.lane l = { h.lane l with v := (g.lane l).v, p := (g.lane l).p }) :
    ∃ t q, issue i s body = .next t ∧ t = { s with heats := t.heats, runs := u.runs, iss := none, now := s.now + 1 } ∧
      (∀ k, k ≠ x.key → t.heat? k = s.heat? k) ∧ t.heat? x.key = some q ∧ HeatKept h q ∧ Advanced x h q ∧
      (∀ l, (q.lane l).v = (g.lane l).v) ∧ (∀ l, (q.lane l).p = (g.lane l).p) ∧ q.k = g.k ∧ q.nflags = g.nflags := by
  have hst : ∀ l ∈ x.lanes, (g.lane l).st = .running := fun l hl => by
    rw [hglane l]
    exact (hI.lanes l hl).2
  obtain ⟨l0, hl0⟩ := List.exists_mem_of_ne_nil _ hI.some_lane
  obtain ⟨t, q, e1, e2, e3, e4, e5, e6, e7⟩ := local_outcome (w := { s := u }) (h1 := g) hI body hw rfl rfl hu hh
    (fun k hk => by rw [hne k hk, entered_heat_ne s x k hk]) hglen ⟨l0, hl0, by rw [hst l0 hl0]; simp⟩
  have e7' : ∀ l, q.lane l = closeLane x.lanes s.now l (if l ∈ x.lanes then (g.lane l).advance else g.lane l) := by
    intro l
    rw [e7 l]
    simp only [List.not_mem_nil, not_false_eq_true, and_true]
  have hadv : ∀ l, (g.lane l).advance.pc = (h.lane l).advance.pc ∧ (g.lane l).advance.blk = (h.lane l).advance.blk := by
    intro l
    rw [hglane l]
    unfold Lane.advance
    simp only
    split <;> exact ⟨rfl, rfl⟩
  refine ⟨t, q, e1, e2, e3, e4, ⟨?_, e6, ?_⟩, ⟨?_, ?_⟩, ?_, ?_, ?_, ?_⟩
  · rw [e5, hg]
  · intro l
    unfold LaneKept
    rw [e7' l, closeLane_eq]
    have h6 := hglane l
    split
    · unfold Lane.advance
      split <;> · simp only; rw [h6]
    · simp only; rw [h6]
  · intro l hl
    rw [e7' l]
    unfold closeLane
    rw [if_pos (by simpa using hl), if_pos hl]
    exact ⟨(hadv l).1, (hadv l).2, by simpa using hst l hl⟩
  · intro l hl
    rw [e7' l, if_neg hl, closeLane_eq, hglane l]
    exact ⟨rfl, rfl⟩
  · intro l
    rw [e7' l, closeLane_eq]
    split <;> simp
  · intro l
    rw [e7' l, closeLane_eq]
    split <;> simp
  · rw [e5]
  · rw [e5]

/-- The outcome of a word whose body computes one value for each active lane. -/
theorem compute_outcome {i : Instr} {s : State} {x : Iss} {h : Heat} (hI : Issues i s x h) (w : Bool) (d : Dst)
    (F : Env → Nat → Nat × Nat) :
    ∃ t, issue i s (fun e k => e.compute w d (F e) k) = .next t ∧ Computed s t x h (active i x h) w d (F (envOf i s x h)) := by
  have hlt : ∀ l ∈ active i x h, l < h.lanes.length := fun l hl => (hI.lanes l (List.mem_filter.1 hl).1).1
  obtain ⟨u, g, b1, b2, b3, b4, b5, b6, b7, b8, b9, b10, _, b12⟩ := compute_body (envOf i s x h) w d (F (envOf i s x h))
    { s := entered s x } h hI.heat (Issues_active_nodup hI) hlt
  obtain ⟨t, q, e1, e2, e3, e4, e5, e6, e7, e8, e9, e10⟩ := regs_outcome hI (fun e k => e.compute w d (F e) k) b1 b2 b3 b4 b5 b6
    (fun l => by rw [b7 l])
  have hv32 : ∀ l n, (q.lane l).v32 n = (g.lane l).v32 n := fun l n => by simp [Lane.v32, e7]
  have hk64 : ∀ n, q.k64 n = g.k64 n := fun n => by simp [Heat.k64, e9]
  have hact : ∀ (P : Nat → Prop), (∀ l ∈ x.lanes, P l) → ∀ l ∈ active i x h, P l := fun P hP l hl => hP l (List.mem_filter.1 hl).1
  refine ⟨t, e1, ⟨by rw [e2], e3, ?_⟩, q, e4, e5, e6, ?_, ?_, ?_, ?_, ?_⟩
  · intro ht
    rw [e2]
    show u.runs = _
    rw [(b12 (hact _ ht)).1]
    show (entered s x).runs = _
    rw [entered_eq]
  · intro l hl
    refine Eq.trans ?_ (b8 l hl)
    cases d with
    | v n => simp [readDst, Lane.v64, hv32]
    | k n => simp [readDst, hk64]
  · intro ht
    rw [e10, (b12 (hact _ ht)).2]
    rfl
  · intro l n hn
    rw [hv32, b9 l n hn]
  · intro n hn
    rw [hk64, b10 n hn]
  · intro l
    rw [e8 l, b7 l]

/-- What the lanes of an issuing word read, by the environment of its body. -/
theorem envOf_srcT (i : Instr) (s : State) (x : Iss) (h : Heat) (t : Ty) (a : Src) (l : Nat) :
    (envOf i s x h).srcT t a l = reads i s x h t a l :=
  srcT_congr rfl rfl _ _ _ _ _

theorem envOf_src32 (i : Instr) (s : State) (x : Iss) (h : Heat) (a : Src) (l : Nat) :
    (envOf i s x h).src32 a l = reads i s x h .n32 a l :=
  srcT_congr rfl rfl _ _ _ _ _

theorem envOf_src64 (i : Instr) (s : State) (x : Iss) (h : Heat) (a : Src) (l : Nat) :
    (envOf i s x h).src64 a l = reads i s x h .n64 a l :=
  srcT_congr rfl rfl _ _ _ _ _

theorem envOf_rb (i : Instr) (s : State) (x : Iss) (h : Heat) (a : Option Src) (l : Nat) :
    (envOf i s x h).rb a l = match a with | none => 0 | some a => reads i s x h .n32 a l := by
  cases a with
  | none => rfl
  | some a => exact envOf_src32 i s x h a l

/-- A word whose meaning is `compute` computes what its function gives of active() and of what the lanes read. -/
theorem collects_of {i : Instr} {w : Bool} {d : Dst} {f : List Nat → Heat → Reads → Nat → Nat × Nat} (F : Env → Nat → Nat × Nat)
    (hi : ∀ s, exec i s = issue i s (fun e k => e.compute w d (F e) k))
    (hf : ∀ s x h, Issues i s x h → ∀ l, F (envOf i s x h) l = f (active i x h) h (reads i s x h) l) : Collects i w d f := by
  intro s x h hI
  obtain ⟨t, h1, h2⟩ := compute_outcome hI w d F
  refine ⟨t, (hi s).trans h1, ?_⟩
  rwa [funext (hf s x h hI)] at h2

theorem computes_of {i : Instr} {w : Bool} {d : Dst} {f : Heat → Reads → Nat → Nat × Nat} (F : Env → Nat → Nat × Nat)
    (hi : ∀ s, exec i s = issue i s (fun e k => e.compute w d (F e) k))
    (hf : ∀ s x h, Issues i s x h → ∀ l, F (envOf i s x h) l = f h (reads i s x h) l) : Computes i w d f :=
  collects_of F hi hf

/-! Words that write predicates. -/

theorem modifyFirst_id {α : Type} (p : α → Bool) (l : List α) : modifyFirst p (fun a => a) l = l := by
  induction l with
  | nil => rfl
  | cons a t ih => simp only [modifyFirst, ih]; split <;> rfl

theorem State.updHeat_id (s : State) (k : HeatKey) : s.updHeat k (fun h => h) = s := by
  simp only [State.updHeat, modifyFirst_id]

/-- Each lane of a list updated in turn is one update of the heat. -/
theorem each_updLane (k : HeatKey) (F : Nat → Lane → Lane) (ls : List Nat) (w : Work) :
    ls.foldl (fun w l => { w with s := w.s.updLane k l (F l) }) w =
      { w with s := w.s.updHeat k (fun h => ls.foldl (fun h l => h.updLane l (F l)) h) } := by
  induction ls generalizing w with
  | nil =>
    simp only [List.foldl_nil]
    rw [State.updHeat_id]
  | cons a ls ih =>
    rw [List.foldl_cons, ih]
    simp only [State.updLane, List.foldl_cons]
    rw [State.updHeat_updHeat _ _ _ _ (by intro _; rfl)]

/-- The outcome of a word whose body changes the predicates of each active lane. -/
theorem preds_outcome {i : Instr} {s : State} {x : Iss} {h : Heat} (hI : Issues i s x h) (F : Env → Nat → Lane → Lane)
    (hF : ∀ l y, F (envOf i s x h) l y = { y with p := (F (envOf i s x h) l y).p }) :
    ∃ t, issue i s (fun e w => e.each (fun w l => { w with s := w.s.updLane e.key l (F e l) }) w) = .next t ∧
      PartKept s t x h ∧ t.runs = s.runs ∧ ∃ g, t.heat? x.key = some g ∧ HeatKept h g ∧ Advanced x h g ∧
        (∀ l ∈ active i x h, (g.lane l).p = (F (envOf i s x h) l (h.lane l)).p) ∧
        (∀ l, l ∉ active i x h → (g.lane l).p = (h.lane l).p) ∧
        (∀ l, (g.lane l).v = (h.lane l).v) ∧ g.k = h.k ∧ g.nflags = h.nflags := by
  generalize hG : F (envOf i s x h) = G at hF
  have hlt : ∀ l ∈ active i x h, l < h.lanes.length := fun l hl => (hI.lanes l (List.mem_filter.1 hl).1).1
  let g := (active i x h).foldl (fun h l => h.updLane l (G l)) h
  have hg : g = { h with lanes := g.lanes } := Heat.foldl_updLane_eq _ _ _
  have hlane := fun m => Heat.lane_foldl_updLane (active i x h) G h m (Issues_active_nodup hI)
  have hkey : ∀ h2 : Heat, ((active i x h).foldl (fun h l => h.updLane l (G l)) h2).key = h2.key := fun h2 =>
    Heat.foldl_updLane_key _ _ _
  have hgl : ∀ l, g.lane l = { h.lane l with v := (g.lane l).v, p := (g.lane l).p } := by
    intro l
    show ((active i x h).foldl (fun h l => h.updLane l (G l)) h).lane l = _
    rw [show g.lane l = _ from hlane l]
    split
    · rw [hF]
    · rfl
  obtain ⟨t, q, e1, e2, e3, e4, e5, e6, e7, e8, e9, e10⟩ := regs_outcome (g := g)
    (u := (entered s x).updHeat x.key (fun h2 => (active i x h).foldl (fun h l => h.updLane l (G l)) h2)) hI
    (fun e w => e.each (fun w l => { w with s := w.s.updLane e.key l (F e l) }) w)
    (by
      simp only [Env.each, hG]
      exact each_updLane x.key G _ _)
    rfl (by rw [State.heat?_updHeat_self _ _ _ hkey, hI.heat]; rfl) (fun k hk => State.heat?_updHeat_ne _ _ _ _ hkey hk)
    (by rw [hg]) (Heat.length_foldl_updLane _ _ _) hgl
  have hruns : t.runs = s.runs := by
    rw [e2]
    show (entered s x).runs = _
    rw [entered_eq]
  refine ⟨t, e1, ⟨by rw [e2], e3, fun _ => hruns⟩, hruns, q, e4, e5, e6, ?_, ?_, ?_, ?_, ?_⟩
  · intro l hl
    rw [e8 l, show g.lane l = _ from hlane l, if_pos ⟨hl, hlt l hl⟩]
  · intro l hl
    rw [e8 l, show g.lane l = _ from hlane l, if_neg (fun hc => hl hc.1)]
  · intro l
    rw [e7 l, show g.lane l = _ from hlane l]
    split
    · rw [hF]
    · rfl
  · rw [e9, hg]
  · rw [e10, hg]

theorem setsPreds_of {i : Instr} {f : List Nat → Heat → Reads → Nat → Nat → Option Bool} (F : Env → Nat → Lane → Lane)
    (hi : ∀ s, exec i s = issue i s (fun e w => e.each (fun w l => { w with s := w.s.updLane e.key l (F e l) }) w))
    (hF : ∀ e l y, F e l y = { y with p := (F e l y).p })
    (hf : ∀ s x h, Issues i s x h → ∀ l ∈ active i x h, ∀ n, n < 12 →
      (F (envOf i s x h) l (h.lane l)).p.getLsbD n = (f (active i x h) h (reads i s x h) l n).getD ((h.lane l).p.getLsbD n)) :
    SetsPreds i f := by
  intro s x h hI
  obtain ⟨t, h1, h2, h3, g, h4, h5, h6, h7, h8, h9, h10, h11⟩ := preds_outcome hI F (hF _)
  exact ⟨t, (hi s).trans h1, h2, h3, g, h4, h5, h6, fun l hl n hn => by rw [h7 l hl, hf s x h hI l hl n hn], h8, h9, h10, h11⟩

/-- One predicate written. -/
theorem Lane.getLsbD_setP (x : Lane) (n m : Nat) (b : Bool) (hm : m < 12) :
    (x.setP n b).p.getLsbD m = if m = n then b else x.p.getLsbD m := by
  unfold Lane.setP
  cases b <;> by_cases h : m = n <;> simp [h, hm] <;> omega

/-- A word that issues is well formed. -/
theorem Issues_wf {i : Instr} {s : State} {x : Iss} {h : Heat} (hI : Issues i s x h) : i.wf = true := by
  have := hI.legal
  unfold decodeTrap at this
  simp only [Bool.or_eq_false_iff, Bool.not_eq_false'] at this
  exact this.1.1

/-- Several computed registers in a row. -/
theorem computeRun_body (e : Env) (d : Nat) (f : Nat → Nat → Nat × Nat) (k : Work) (h : Heat) (n : Nat)
    (hh : k.s.heat? e.key = some h) (hn : e.act.Nodup) (hlt : ∀ l ∈ e.act, l < h.lanes.length) :
    ∃ u g, (List.range n).foldl (fun w j => e.compute false (.v (d + j)) (f j) w) k = { k with s := u } ∧
      u = { k.s with heats := u.heats, runs := u.runs } ∧ u.heat? e.key = some g ∧
      (∀ j, j ≠ e.key → u.heat? j = k.s.heat? j) ∧ g = { h with lanes := g.lanes, k := g.k, nflags := g.nflags } ∧
      g.lanes.length = h.lanes.length ∧ (∀ l, g.lane l = { h.lane l with v := (g.lane l).v }) ∧
      (∀ l ∈ e.act, ∀ j, j < n → (g.lane l).v32 (d + j) = (f j l).1 % 2 ^ 32) ∧
      (∀ l m, ¬ (l ∈ e.act ∧ d ≤ m ∧ m < d + n) → (g.lane l).v32 m = (h.lane l).v32 m) ∧ g.k = h.k ∧
      ((∀ l ∈ e.act, (h.lane l).task = none) → u.runs = k.s.runs ∧
        g.nflags = (List.range n).foldl (fun a j => e.act.foldl (fun a l => a ||| (f j l).2) a) h.nflags) := by
  induction n with
  | zero => exact ⟨k.s, h, rfl, rfl, hh, fun _ _ => rfl, rfl, rfl, fun _ => rfl, fun _ _ _ hj => absurd hj (by omega),
      fun _ _ _ => rfl, rfl, fun _ => ⟨rfl, rfl⟩⟩
  | succ n ih =>
    obtain ⟨u, g, a1, a2, a3, a4, a5, a6, a7, a8, a9, a10, a11⟩ := ih
    obtain ⟨u', g', b1, b2, b3, b4, b5, b6, b7, b8, b9, _, b11, b12⟩ := compute_body e false (.v (d + n)) (f n) { k with s := u } g a3 hn
      (fun l hl => by rw [a6]; exact hlt l hl)
    refine ⟨u', g', ?_, ?_, b3, ?_, ?_, b6.trans a6, ?_, ?_, ?_, ?_, ?_⟩
    · rw [List.range_succ, List.foldl_append, a1]
      exact b1
    · rw [b2]
      simp only
      rw [a2]
    · intro j hj
      rw [b4 j hj]
      exact a4 j hj
    · rw [b5, a5]
    · intro l
      rw [b7 l, a7 l]
    · intro l hl j hj
      by_cases hjn : j = n
      · subst hjn
        exact b8 l hl
      · rw [b9 l (d + j) (by simp [covers]; intro _; omega)]
        exact a8 l hl j (by omega)
    · intro l m hm
      rw [b9 l m (by
        intro hc
        simp [covers] at hc
        exact hm ⟨hc.1, by omega, by omega⟩)]
      exact a9 l m (fun hc => hm ⟨hc.1, hc.2.1, by omega⟩)
    · rw [b11 (fun _ => by simp), a10]
    · intro ht
      have h1 := a11 ht
      have h2 := b12 (fun l hl => by rw [a7 l]; exact ht l hl)
      refine ⟨h2.1.trans h1.1, ?_⟩
      rw [h2.2, List.range_succ, List.foldl_append, h1.2]
      rfl

theorem computesRun_of {i : Instr} {n d : Nat} {f : Heat → Reads → Nat → Nat → Nat × Nat} (F : Env → Nat → Nat → Nat × Nat)
    (hi : ∀ s, exec i s = issue i s (fun e w => (List.range n).foldl (fun w j => e.compute false (.v (d + j)) (F e j) w) w))
    (hf : ∀ s x h, Issues i s x h → ∀ j l, F (envOf i s x h) j l = f h (reads i s x h) j l) : ComputesRun i n d f := by
  intro s x h hI
  have hlt : ∀ l ∈ active i x h, l < h.lanes.length := fun l hl => (hI.lanes l (List.mem_filter.1 hl).1).1
  have hact : ∀ (P : Nat → Prop), (∀ l ∈ x.lanes, P l) → ∀ l ∈ active i x h, P l := fun P hP l hl => hP l (List.mem_filter.1 hl).1
  obtain ⟨u, g, a1, a2, a3, a4, a5, a6, a7, a8, a9, a10, a11⟩ := computeRun_body (envOf i s x h) d (F (envOf i s x h))
    { s := entered s x } h n hI.heat (Issues_active_nodup hI) hlt
  obtain ⟨t, q, e1, e2, e3, e4, e5, e6, e7, e8, e9, e10⟩ := regs_outcome hI
    (fun e w => (List.range n).foldl (fun w j => e.compute false (.v (d + j)) (F e j) w) w) a1 a2 a3 a4 a5 a6
    (fun l => by rw [a7 l])
  have hv32 : ∀ l n, (q.lane l).v32 n = (g.lane l).v32 n := fun l n => by simp [Lane.v32, e7]
  refine ⟨t, (hi s).trans e1, ⟨by rw [e2], e3, ?_⟩, q, e4, e5, e6, ?_, ?_, ?_, ?_, ?_⟩
  · intro ht
    rw [e2]
    show u.runs = _
    rw [(a11 (hact _ ht)).1]
    show (entered s x).runs = _
    rw [entered_eq]
  · intro l hl j hj
    rw [hv32, a8 l hl j hj, hf s x h hI]
  · intro l m hm
    rw [hv32, a9 l m hm]
  · intro ht
    rw [e10, (a11 (hact _ ht)).2]
    have : F (envOf i s x h) = f h (reads i s x h) := funext fun j => funext fun l => hf s x h hI j l
    rw [this]
    rfl
  · rw [e9, a10]
  · intro l
    rw [e8 l, a7 l]

/-! Words that move lanes. -/

/-- The end of an issue whose body changed each active lane and settled some of them. -/
theorem lanesEnd_of {i : Instr} {P : Iss → List Nat → Heat → Reads → Prop} {F : Iss → Heat → Reads → Nat → Lane → Lane}
    (body : Env → Work → Work) (hi : ∀ s, exec i s = issue i s body)
    (hb : ∀ s x h, Issues i s x h → P x (active i x h) h (reads i s x h) → ∃ (w : Work) (G : Nat → Lane → Lane),
      body (envOf i s x h) { s := entered s x } = w ∧ w.traps = [] ∧ w.stall = false ∧
      w.s = (entered s x).updHeat x.key (fun g => (active i x h).foldl (fun h l => h.updLane l (G l)) g) ∧
      (∀ l, l ∉ active i x h → l ∉ w.stay) ∧
      (∀ l ∈ active i x h, (if l ∈ w.stay then G l (h.lane l) else (G l (h.lane l)).advance) = F x h (reads i s x h) l (h.lane l)) ∧
      (∀ l ∈ active i x h, (G l (h.lane l)).st ≠ .exited)) : LanesEnd i P F := by
  intro s x h hI hP
  obtain ⟨w, G, b1, b2, b3, b4, b5, b6, b7⟩ := hb s x h hI hP
  have hkey : ∀ h2 : Heat, ((active i x h).foldl (fun h l => h.updLane l (G l)) h2).key = h2.key := fun h2 =>
    Heat.foldl_updLane_key _ _ _
  have hlane := fun m => Heat.lane_foldl_updLane (active i x h) G h m (Issues_active_nodup hI)
  have hhe := hI.heat
  have hh : w.s.heat? x.key = some ((active i x h).foldl (fun h l => h.updLane l (G l)) h) := by
    rw [b4, State.heat?_updHeat_self _ _ _ hkey, hhe]
    rfl
  have hlive : ∀ l ∈ x.lanes, (((active i x h).foldl (fun h l => h.updLane l (G l)) h).lane l).st ≠ .exited := by
    intro l hl
    rw [hlane l]
    split
    · rename_i hc
      exact b7 l hc.1
    · rw [(hI.lanes l hl).2]
      simp
  obtain ⟨l0, hl0⟩ := List.exists_mem_of_ne_nil _ hI.some_lane
  obtain ⟨t, g, e1, e2, e3, e4, e5, e6, e7⟩ := local_outcome hI body b1 b2 b3 (by rw [b4]; rfl) hh
    (fun k hk => by
      rw [b4, State.heat?_updHeat_ne _ _ _ _ hkey hk]
      exact entered_heat_ne s x k hk)
    (Heat.length_foldl_updLane _ _ _) ⟨l0, hl0, hlive l0 hl0⟩
  refine ⟨t, g, (hi s).trans e1, ?_, e3, e4, ?_, ?_⟩
  · rw [e2]
    have : w.s.runs = s.runs := by
      rw [b4]
      show (entered s x).runs = _
      rw [entered_eq]
    rw [this]
  · rw [e5, Heat.foldl_updLane_eq]
  · intro l hl
    rw [e7 l, hlane l]
    congr 1
    by_cases ha : l ∈ active i x h
    · have hx : l ∈ x.lanes := (List.mem_filter.1 ha).1
      have := b6 l ha
      simp only [ha, hl, hx, and_self, if_true, true_and]
      rw [← this]
      by_cases hs : l ∈ w.stay <;> simp [hs]
    · have hs := b5 l ha
      by_cases hx : l ∈ x.lanes <;> simp [ha, hs, hx]

/-- Lanes changed and settled in turn. -/
theorem each_hold (k : HeatKey) (F : Nat → Lane → Lane) (ls : List Nat) (w : Work) :
    ls.foldl (fun w l => ({ w with s := w.s.updLane k l (F l) } : Work).hold l) w =
      { w with s := w.s.updHeat k (fun h => ls.foldl (fun h l => h.updLane l (F l)) h), stay := w.stay ++ ls } := by
  induction ls generalizing w with
  | nil =>
    simp only [List.foldl_nil, List.append_nil]
    rw [State.updHeat_id]
  | cons a ls ih =>
    rw [List.foldl_cons, ih]
    simp only [State.updLane, List.foldl_cons, Work.hold, List.append_assoc, List.cons_append, List.nil_append]
    rw [State.updHeat_updHeat _ _ _ _ (by intro _; rfl)]

/-- The end of an issue whose body changes and settles each active lane. -/
theorem held_of {i : Instr} {P : Iss → List Nat → Heat → Reads → Prop} {F : Iss → Heat → Reads → Nat → Lane → Lane}
    (body : Env → Work → Work) (hi : ∀ s, exec i s = issue i s body)
    (hb : ∀ s x h, Issues i s x h → P x (active i x h) h (reads i s x h) →
      (∀ w, w.s.heat? x.key = some h → body (envOf i s x h) w = (active i x h).foldl (fun w l => ({ w with s := w.s.updLane x.key l (F x h (reads i s x h) l) } : Work).hold l) w) ∧
      (∀ l ∈ active i x h, (F x h (reads i s x h) l (h.lane l)).st ≠ .exited)) : LanesEnd i P F := by
  refine lanesEnd_of body hi (fun s x h hI hP => ?_)
  obtain ⟨h1, h2⟩ := hb s x h hI hP
  refine ⟨_, F x h (reads i s x h), (h1 _ hI.heat).trans (each_hold _ _ _ _), rfl, rfl, rfl, ?_, ?_, h2⟩
  · intro l hl
    simpa using hl
  · intro l hl
    simp [hl]

theorem foldl_congr {α β : Type} (f g : β → α → β) (ls : List α) (b : β) (h : ∀ b, ∀ a ∈ ls, f b a = g b a) : ls.foldl f b = ls.foldl g b := by
  induction ls generalizing b with
  | nil => rfl
  | cons a t ih => rw [List.foldl_cons, List.foldl_cons, h b a (by simp)]; exact ih _ (fun b a ha => h b a (by simp [ha]))

theorem targetTrap_good {t : Nat} (h : t % 8 = 0 ∧ (fld t 56 8 = 0 ∨ fld t 56 8 = 255)) : targetTrap t = none := by
  unfold targetTrap canonical
  rw [if_neg (by omega)]
  rcases h.2 with h | h <;> simp [h]

/-! Stalls, results under a premise, and the last exit. -/

/-- Two bodies that do the same for a word that issues. -/
theorem issue_congr {i : Instr} {s : State} {x : Iss} {h : Heat} (hI : Issues i s x h) (b1 b2 : Env → Work → Work)
    (hb : b1 (envOf i s x h) { s := entered s x } = b2 (envOf i s x h) { s := entered s x }) : issue i s b1 = issue i s b2 := by
  obtain ⟨h0, q1, e1⟩ := issue_eq hI b1
  obtain ⟨h0', q2, e2⟩ := issue_eq hI b2
  rw [q1] at q2
  cases q2
  rw [e1, e2, hb]

/-- A word whose body is `compute` where its premise holds. -/
theorem gives_of {i : Instr} {P : Seen → Prop} {w : Bool} {d : Dst} {f : Seen → Nat → Nat × Nat} (body : Env → Work → Work)
    (hi : ∀ s, exec i s = issue i s body)
    (hf : ∀ s x h, Issues i s x h → P (seen i s x h) →
      body (envOf i s x h) { s := entered s x } = (envOf i s x h).compute w d (f (seen i s x h)) { s := entered s x }) : Gives i P w d f := by
  intro s x h hI hP
  obtain ⟨t, h1, h2⟩ := compute_outcome hI w d (fun _ => f (seen i s x h))
  refine ⟨t, ?_, h2⟩
  rw [hi s, ← h1]
  exact issue_congr hI _ _ (hf s x h hI hP)

/-- A word whose body stalls. -/
theorem stalls_of {i : Instr} {s : State} {x : Iss} {h : Heat} (hI : Issues i s x h) (body : Env → Work → Work)
    (hi : ∀ s, exec i s = issue i s body)
    (hb : body (envOf i s x h) { s := entered s x } = Work.stallWith (envOf i s x h) id) : Stalls i s := by
  obtain ⟨h0, q1, e1⟩ := issue_eq hI body
  rw [Stalls, hi, e1, hb]
  rfl

theorem flagsClear_iff (h : Heat) (mask : Nat) : h.flagsClear mask = true ↔ ∀ f, f < 12 → bit mask f = true → Tbl.get 0 h.fcnt f = 0 := by
  simp only [Heat.flagsClear, bitsOf, upto, Heat.flagClear, List.all_filter, List.all_eq_true, List.mem_range, Bool.or_eq_true, Bool.not_eq_true', beq_iff_eq]
  constructor
  · intro h f h1 h2
    rcases h f h1 with h3 | h3
    · rw [h2] at h3; cases h3
    · exact h3
  · intro h f h1
    cases h2 : bit mask f
    · exact .inl rfl
    · exact .inr (h f h1 h2)

/-- What clearing marks changes of a heat. -/
theorem unmark_eq (h : Heat) (ls : List Nat) (mask : Nat) :
    h.unmark ls mask = { h with lanes := (h.unmark ls mask).lanes, kpend := if ls = [] then h.kpend else h.kpend.filter (fun m => !(bit mask m.2)) } := by
  cases ls with
  | nil => rfl
  | cons a ls =>
    unfold Heat.unmark
    have := Heat.foldl_updLane_eq (a :: ls) (fun _ x => x.unmark mask) h
    rw [if_neg (by simp), if_neg (by simp)]
    rw [this]

theorem unmark_lane (h : Heat) (ls : List Nat) (mask m : Nat) (hn : ls.Nodup) :
    (h.unmark ls mask).lane m = if m ∈ ls ∧ m < h.lanes.length then (h.lane m).unmark mask else h.lane m := by
  have := Heat.lane_foldl_updLane ls (fun _ x => x.unmark mask) h m hn
  rw [← this]
  unfold Heat.unmark
  split <;> rfl

theorem unmark_length (h : Heat) (ls : List Nat) (mask : Nat) : (h.unmark ls mask).lanes.length = h.lanes.length := by
  have := Heat.length_foldl_updLane ls (fun _ x => x.unmark mask) h
  rw [← this]
  unfold Heat.unmark
  split <;> rfl

theorem act_ne {i s x h} (hP : (seen i s x h).act ≠ []) : ¬ ((envOf i s x h).act.isEmpty = true) := by
  have : (envOf i s x h).act = (seen i s x h).act := rfl
  rw [this]
  simpa using hP

/-- A fence of a heat without outstanding accesses is done. -/
theorem quiet_fence {i s x h} (hI : Issues i s x h) (hq : (seen i s x h).quiet) (sc : Scope) (m : Nat) :
   (entered s x).fenceDone h .rel false sc m = true := by
  obtain ⟨q0, q1, q2, q3⟩ := hq
  have hk := State.heat?_key hI.heat
  have e0 := entered_eq s x
  have hc : h.cpyw = [] := q0
  have hown : ∀ r ∈ (entered s x).reqs, r.key = h.key → r.copy = true ∧ r.remote = none := by
    rw [e0, hk]
    exact q1
  have hm : ((entered s x).reqs.filter (fun r => r.key = h.key && r.id < m)).filter (fun r => !r.copy) = [] := by
    rw [List.filter_filter, List.filter_eq_nil_iff]
    intro r hr
    by_cases hrk : r.key = h.key
    · simp [(hown r hr hrk).1]
    · simp [hrk]
  have hw : (((entered s x).reqs.filter (fun r => r.key = h.key && r.id < m)).any (fun r => r.remote.isSome && r.write)) = false := by
    rw [List.any_eq_false]
    intro r hr
    obtain ⟨h1, h2⟩ := List.mem_filter.1 hr
    rw [Bool.and_eq_true, decide_eq_true_eq] at h2
    simp [(hown r h1 h2.1).2]
  have hr : (entered s x).rels.filter (fun r => r.ctx == h.key.ctx && r.origin == h.core && r.id < m) = [] := by
    rw [e0, List.filter_eq_nil_iff]
    intro r hr
    rw [hk]
    by_cases hc : r.ctx = x.key.ctx
    · have := q2 r hr hc
      have e : r.origin ≠ h.core := this
      simp [e]
    · simp [hc]
  have hd : ∀ d, (entered s x).drained d m = true := by
    intro d
    rw [e0]
    simp [State.drained, show s.rwq = [] from q3]
  unfold State.fenceDone
  simp only [hm, hr, hw, hc]
  simp [hd]

/-- One lane's EXIT where nothing is to be released. -/
theorem exit_one (k : HeatKey) (h : Heat) (d : Nat) (w : Work) (hs : Heat) (l : Nat) (hh : w.s.heat? k = some hs) (hl : l < hs.lanes.length)
    (he : hs.lane l = h.lane l) (ht : (h.lane l).task = none) (hc : (h.lane l).toRelease (fun _ => true) = []) (hr : (h.lane l).st = .running) :
    (match (w.s.lane? k l).bind (·.task) with
    | some r => match w.s.run? r with
      | some r =>
        if r.irrevocable then w.trap l { cause := .perm }
        else ({ w with s := w.s.failCard r.card d, irrev := true } : Work).hold l
      | none => w.hold l
    | none =>
      if ((w.s.lane? k l).map Lane.exited).getD true then w.hold l
      else
        let cs := (h.lane l).toRelease (fun _ => true)
        ({ w with s := w.s.releaseColours k l none cs, irrev := w.irrev || !cs.isEmpty } : Work).hold l) =
    ({ w with s := (w.s.updLane k l (fun x => x.leave none)).settleBars k } : Work).hold l := by
  have h1 : w.s.lane? k l = some (h.lane l) := by
    rw [State.lane?, hh, ← he]
    simp [Heat.lane, hl]
  rw [h1]
  simp only [Option.bind_some, ht, Option.map_some, Option.getD_some, hc, Lane.exited, hr]
  simp [State.releaseColours]

theorem exit_live (k : HeatKey) (s : State) (hs : Heat) (l : Nat) (hh : s.heat? k = some hs) (m : Nat) (hm : m < hs.lanes.length) (hne : m ≠ l)
    (hlive : (hs.lane m).st ≠ .exited) : (s.updLane k l (fun x => x.leave none)).settleBars k = s.updLane k l (fun x => x.leave none) := by
  have h3 : (s.updLane k l (fun x => x.leave none)).heat? k = some (hs.updLane l (fun x => x.leave none)) := by
    rw [State.updLane, State.heat?_updHeat_self _ _ _ (by intro _; rfl), hh]; rfl
  refine State.settleBars_live h3 (Heat.allExited_false (l := m) (by rw [Heat.length_updLane]; exact hm) ?_)
  rw [Heat.lane_updLane, if_neg (fun hc => hne hc.1)]
  exact hlive

/-- EXIT of lanes where another lane of the heat lives. -/
theorem exit_fold (k : HeatKey) (h : Heat) (f : Work → Nat → Work) (ls : List Nat) (hn : ls.Nodup) (w : Work) (hs : Heat)
    (hf : ∀ (w : Work) (hs : Heat) (l : Nat), l ∈ ls → w.s.heat? k = some hs → hs.lanes.length = h.lanes.length → hs.lane l = h.lane l →
      f w l = ({ w with s := (w.s.updLane k l (fun x => x.leave none)).settleBars k } : Work).hold l)
    (hh : w.s.heat? k = some hs) (hlen : hs.lanes.length = h.lanes.length) (he : ∀ l ∈ ls, hs.lane l = h.lane l)
    (m : Nat) (hm : m < hs.lanes.length) (hnm : m ∉ ls) (hlive : (hs.lane m).st ≠ .exited) :
    ls.foldl f w = ls.foldl (fun w l => ({ w with s := w.s.updLane k l (fun x => x.leave none) } : Work).hold l) w := by
  induction ls generalizing w hs with
  | nil => rfl
  | cons a ls ih =>
    obtain ⟨n1, n2⟩ := List.nodup_cons.1 hn
    rw [List.foldl_cons, List.foldl_cons, hf w hs a (by simp) hh hlen (he a (by simp)), exit_live k w.s hs a hh m hm (fun e => hnm (by simp [e])) hlive]
    have h3 : (w.s.updLane k a (fun x => x.leave none)).heat? k = some (hs.updLane a (fun x => x.leave none)) := by
      rw [State.updLane, State.heat?_updHeat_self _ _ _ (by intro _; rfl), hh]; rfl
    refine ih n2 (({ w with s := w.s.updLane k a (fun x => x.leave none) } : Work).hold a) (hs.updLane a (fun x => x.leave none)) (fun w hs l hl => hf w hs l (by simp [hl])) h3 (by rw [Heat.length_updLane, hlen]) ?_ (by rw [Heat.length_updLane]; exact hm) (fun hc => hnm (by simp [hc])) ?_
    · intro l hl
      rw [Heat.lane_updLane, if_neg (by rintro ⟨rfl, _⟩; exact n1 hl)]
      exact he l (by simp [hl])
    · rw [Heat.lane_updLane, if_neg (fun hc => hnm (by simp [hc.1]))]
      exact hlive

theorem settleBar_heat (s : State) (u t n : Nat) (k : HeatKey) (h : Heat) (hh : s.heat? k = some h) (ha : h.allExited = true) :
    ∃ g, (s.settleBar u t n).heat? k = some g ∧ g.allExited = true ∧ (s.settleBar u t n).kernels = s.kernels ∧ g.lanes.length = h.lanes.length := by
  unfold State.settleBar
  split
  · exact ⟨h, hh, ha, rfl, rfl⟩
  · simp only
    split
    · refine ⟨if h.inTeam u t then { h with lanes := h.lanes.map (Lane.pass n) } else h, ?_, ?_, rfl, by split <;> simp⟩
      · show List.find? _ (List.map _ s.heats) = _
        rw [List.find?_map]
        have : ((fun h => decide (h.key = k)) ∘ fun h => if h.inTeam u t = true then { h with lanes := h.lanes.map (Lane.pass n) } else h) = (fun h : Heat => decide (h.key = k)) := by
          funext g
          simp only [Function.comp]
          split <;> rfl
        rw [this]
        have h2 : List.find? (fun h : Heat => decide (h.key = k)) s.heats = some h := hh
        rw [h2]
        rfl
      · split
        · unfold Heat.allExited at *
          rw [List.all_eq_true] at *
          intro y hy
          obtain ⟨z, hz, rfl⟩ := List.mem_map.1 hy
          have := ha z hz
          simp only [Lane.exited, decide_eq_true_eq] at *
          unfold Lane.pass
          rw [this]
          exact this
        · exact ha
    · exact ⟨h, hh, ha, rfl, rfl⟩

/-- The settling of barriers keeps an exited heat exited. -/
theorem settleBars_heat (s : State) (k : HeatKey) (h : Heat) (hh : s.heat? k = some h) (ha : h.allExited = true) :
    ∃ g, (s.settleBars k).heat? k = some g ∧ g.allExited = true ∧ (s.settleBars k).kernels = s.kernels ∧ g.lanes.length = h.lanes.length := by
  unfold State.settleBars
  rw [hh]
  simp only [ha, if_true]
  generalize upto 16 = ns
  generalize h.unit = u, h.key.team = tm
  induction ns generalizing s h with
  | nil => exact ⟨h, hh, ha, rfl, rfl⟩
  | cons n ns ih =>
    obtain ⟨g, h1, h2, h3, h4⟩ := settleBar_heat s u tm n k h hh ha
    rw [List.foldl_cons]
    obtain ⟨g', h5, h6, h7, h8⟩ := ih _ g h1 h2
    exact ⟨g', h5, h6, h7.trans h3, h8.trans h4⟩

/-- The end of an issue keeps an exited heat exited. -/
theorem closing_exited (e : Env) (h0 : Heat) (w : Work) (h : Heat) (ha : h.allExited = true) (hi : ∀ m ∈ e.issuing, m < h.lanes.length)
    (hn : e.issuing.Nodup) : (closing e h0 w h).allExited = true := by
  rw [Heat.allExited, List.all_eq_true] at *
  intro y hy
  obtain ⟨l, hl, rfl⟩ := List.mem_iff_getElem.1 hy
  have hl' : l < h.lanes.length := by rw [closing_length] at hl; exact hl
  have h6 : (closing e h0 w h).lanes[l] = (closing e h0 w h).lane l := by simp [Heat.lane, hl]
  have h7 : (h.lane l).st = .exited := by
    have := ha h.lanes[l] (List.getElem_mem hl')
    simpa [Lane.exited, Heat.lane, hl'] using this
  rw [h6, closing_lane _ _ _ _ _ hi hn]
  have h8 : (if l ∈ e.issuing ∧ l ∉ w.stay then (h.lane l).advance else h.lane l).st = .exited := by split <;> simp [h7]
  unfold closeLane
  split
  · simp [Lane.exited, h8]
  · rw [if_neg (by rw [h8]; simp)]
    simp [Lane.exited, h8]

/-- The outcome of a word that leaves its heat exited. -/
theorem exited_outcome {i : Instr} {s : State} {x : Iss} {h g : Heat} (hI : Issues i s x h) (body : Env → Work → Work) {w : Work}
    (hw : body (envOf i s x h) { s := entered s x } = w) (ht : w.traps = []) (hst : w.stall = false)
    (hh : w.s.heat? x.key = some g) (ha : g.allExited = true) (hlen : g.lanes.length = h.lanes.length) :
    ∃ t, issue i s body = .next t ∧ (∃ g, t.heat? x.key = some g ∧ g.allExited = true) ∧ t.kernels = w.s.kernels := by
  obtain ⟨h0, _, he⟩ := issue_eq hI body
  have hf : (envOf i s x h).issuing.filterMap (fun l => ([] : List (Nat × Trap)).find? (fun t => t.1 = l)) = [] := by simp
  have hk : (w.s.updHeat x.key (closing (envOf i s x h) h0 w)).heat? x.key = some (closing (envOf i s x h) h0 w g) := by
    rw [State.heat?_updHeat_self _ _ _ (closing_key _ h0 w), hh]
    rfl
  have hx := closing_exited (envOf i s x h) h0 w g ha (fun m hm => hlen ▸ (hI.lanes m hm).1) (Issues_nodup hI)
  obtain ⟨q, q1, q2, q3, q4⟩ := settleBars_heat _ _ _ hk hx
  refine ⟨_, he, ?_⟩
  rw [hw]
  unfold finish
  rw [if_neg (by simp [hst])]
  simp only [ht, hf, List.isEmpty_nil, if_true, List.any_nil, Bool.not_false, Bool.and_true]
  exact ⟨⟨q, q1, q2⟩, q3⟩

end Sys2Proof.Machine
end

