-- ==== Sys2Proof/Laws/Trap.lean ====
section
/-! SUPPORT. Taking an exception: what the end of an issue does when lanes trap. -/

namespace Sys2Proof.Machine
open Sys2Proof.Safe

theorem find_map_lane (ls : List Nat) (f : Nat → Trap) (l : Nat) :
    (ls.map (fun l => (l, f l))).find? (fun t => t.1 = l) = if l ∈ ls then some (l, f l) else none := by
  induction ls with
  | nil => rfl
  | cons a t ih =>
    rw [List.map_cons, List.find?_cons]
    by_cases h : a = l
    · subst h; simp
    · have : l ≠ a := fun e => h e.symm
      simp [h, this, ih]

theorem traps_list (is ls : List Nat) (f : Nat → Trap) (h : ls = is.filter (fun l => ls.contains l)) :
    is.filterMap (fun l => (ls.map (fun l => (l, f l))).find? (fun t => t.1 = l)) = ls.map (fun l => (l, f l)) := by
  simp only [find_map_lane]
  conv => rhs; rw [h]
  clear h
  induction is with
  | nil => rfl
  | cons a t ih =>
    by_cases ha : a ∈ ls
    · simp [ha]
      have := ih
      simp at this
      exact this
    · simp [ha]
      have := ih
      simp at this
      exact this

theorem leastBy_const (n : Nat) (ls : List Nat) (h : ls ≠ []) (hl : ∀ a ∈ ls, a = n) : leastBy id ls = some n := by
  induction ls with
  | nil => exact absurd rfl h
  | cons a t ih =>
    simp only [leastBy]
    have ha := hl a (by simp)
    subst ha
    cases t with
    | nil => rfl
    | cons b u =>
      rw [ih (by simp) (fun c hc => hl c (by simp [hc]))]
      simp

theorem nub_const (ls : List Nat) (h : ls ≠ []) (hl : ∀ a ∈ ls, a = 0) : nub ls = [0] := by
  induction ls with
  | nil => exact absurd rfl h
  | cons a t ih =>
    have ha := hl a (by simp)
    subst ha
    cases t with
    | nil => rfl
    | cons b u =>
      rw [nub, ih (by simp) (fun c hc => hl c (by simp [hc]))]
      rfl

theorem raise_aux (s : State) (k : HeatKey) (pc : Nat) (ts : List (Nat × Trap)) (τ : Nat × Trap → Nat) (hne : ts ≠ []) (ht : ∀ t ∈ ts, τ t = 0) :
    (nub (ts.map τ)).foldl (fun s j => parkGroup s k pc (ts.filter (fun t => τ t == j)) (if j = 0 then none else s.run? (j - 1))) s =
      parkGroup s k pc ts none := by
  have h1 : nub (ts.map τ) = [0] := by
    apply nub_const
    · simpa using hne
    · intro a ha
      obtain ⟨l, hl, rfl⟩ := List.mem_map.1 ha
      exact ht l hl
  rw [h1]
  simp only [List.foldl_cons, List.foldl_nil, if_true]
  congr 1
  rw [List.filter_eq_self]
  intro t ht'
  simp [ht t ht']

/-- Taking an exception outside tasks: one record, one heat updated. -/
theorem raise_noTask (s : State) (k : HeatKey) (pc : Nat) (h : Heat) (ls : List Nat) (f : Nat → Trap) (hh : s.heat? k = some h) (hne : ls ≠ [])
    (ht : ∀ l ∈ ls, (h.lane l).task = none) :
    raise s k pc (ls.map (fun l => (l, f l))) = parkGroup s k pc (ls.map (fun l => (l, f l))) none := by
  unfold raise
  rw [hh]
  refine raise_aux s k pc _ _ (by simpa using hne) (fun t hm => ?_)
  obtain ⟨l, hl, rfl⟩ := List.mem_map.1 hm
  simp only [ht l hl]

/-- The heat of a parked group. -/
def parkHeat (ls : List Nat) (f : Nat → Trap) (id : Nat) (h : Heat) : Heat :=
  ls.foldl (fun h l => h.updLane l (fun x => { x with st := .parked, trap := some (f l), park := id, pcWritten := false })) h

theorem parkAll_spec (h : Heat) (ls : List Nat) (f : Nat → Trap) (id : Nat) :
    h.parkAll (ls.map (fun l => (l, f l))) id = { parkHeat ls f id h with runon := (h.parkAll (ls.map (fun l => (l, f l))) id).runon } := by
  have hfold : (ls.map (fun l => (l, f l))).foldl (fun h t => h.updLane t.1 (fun x => { x with st := .parked, trap := some t.2, park := id, pcWritten := false })) h = parkHeat ls f id h := by
    rw [List.foldl_map]; rfl
  unfold Heat.parkAll
  simp only [hfold]
  split
  · rfl
  · split <;> rfl

theorem parkHeat_key (h : Heat) (ls : List Nat) (f : Nat → Trap) (id : Nat) : (parkHeat ls f id h).key = h.key :=
  Heat.foldl_updLane_key _ (fun l x => { x with st := .parked, trap := some (f l), park := id, pcWritten := false }) _

theorem parkGroup_spec (s : State) (k : HeatKey) (pc : Nat) (h : Heat) (ls : List Nat) (f : Nat → Trap) (hh : s.heat? k = some h) :
    ∃ g t, parkGroup s k pc (ls.map (fun l => (l, f l))) none = t ∧
      t = { s with heats := t.heats, nid := s.nid + 1, postings := s.postings ++ [mkRec s h pc (ls.map (fun l => (l, f l))) none] } ∧
      (∀ j, j ≠ k → t.heat? j = s.heat? j) ∧ t.heat? k = some g ∧
      g = { parkHeat ls f s.nid h with runon := g.runon } := by
  have hkey : ∀ h : Heat, (h.parkAll (ls.map (fun l => (l, f l))) s.nid).key = h.key := fun h => by
    rw [parkAll_spec]; exact parkHeat_key _ _ _ _
  refine ⟨h.parkAll (ls.map (fun l => (l, f l))) s.nid, _, rfl, ?_, ?_, ?_, parkAll_spec h ls f s.nid⟩
  · unfold parkGroup
    rw [hh]; rfl
  · intro j hj
    unfold parkGroup
    rw [hh]
    exact State.heat?_updHeat_ne _ _ _ _ hkey hj
  · unfold parkGroup
    rw [hh]
    simp only
    have hid : (mkRec s h pc (ls.map (fun l => (l, f l))) none).id = s.nid := rfl
    rw [hid, State.heat?_updHeat_self _ _ _ hkey]
    show Option.map _ (s.heat? k) = _
    rw [hh]; rfl

/-- A parked lane keeps its task. -/
theorem parkHeat_task (ls : List Nat) (f : Nat → Trap) (id m : Nat) : ∀ h : Heat, ((parkHeat ls f id h).lane m).task = (h.lane m).task := by
  induction ls with
  | nil => exact fun _ => rfl
  | cons a ls ih =>
    intro h
    refine (ih (h.updLane a (fun x => { x with st := .parked, trap := some (f a), park := id, pcWritten := false }))).trans ?_
    rw [Heat.lane_updLane]
    split <;> rfl

/-- Traps that are no break, outside tasks. -/
theorem raiseAll_noTask (s : State) (k : HeatKey) (pc : Nat) (h : Heat) (ls : List Nat) (f : Nat → Trap) (hh : s.heat? k = some h) (hne : ls ≠ [])
    (ht : ∀ l ∈ ls, (h.lane l).task = none) (hb : ∀ l ∈ ls, (f l).cause ≠ .brk) :
    raiseAll s k pc (ls.map (fun l => (l, f l))) = parkGroup s k pc (ls.map (fun l => (l, f l))) none := by
  unfold raiseAll
  rw [raise_noTask s k pc h ls f hh hne ht]
  have h1 : (ls.map (fun l => (l, f l))).any (fun t => t.2.cause = .brk) = false := by
    rw [List.any_eq_false]
    intro t hm
    obtain ⟨l, hl, rfl⟩ := List.mem_map.1 hm
    simpa using hb l hl
  obtain ⟨g, t, q1, q2, q3, q4, q5⟩ := parkGroup_spec s k pc h ls f hh
  have h2 : ∀ l ∈ ls, (t.lane? k l).bind (fun x => x.task.map (fun r => (r, x.park))) = none := by
    intro l hl
    have h3 : (g.lane l).task = none := by
      rw [q5]
      exact (parkHeat_task ls f s.nid l h).trans (ht l hl)
    unfold State.lane?
    rw [q4]
    show (g.lanes[l]?).bind _ = none
    cases hg : g.lanes[l]? with
    | none => rfl
    | some y =>
      have h4 : y.task = none := by simpa [Heat.lane, hg] using h3
      simp [h4]
  have h5 : ((ls.map (fun l => (l, f l))).filter (fun t => t.2.cause = .page || t.2.xlat)).filterMap (fun e =>
      (t.lane? k e.1).bind (fun x => x.task.map (fun r => (r, x.park)))) = [] := by
    rw [List.filterMap_eq_nil_iff]
    intro e he
    obtain ⟨l, hl, rfl⟩ := List.mem_map.1 (List.mem_filter.1 he).1
    exact h2 l hl
  rw [q1]
  simp only [h1, Bool.false_and, Bool.false_eq_true, if_false]
  rw [h5]
  rfl

theorem parkHeat_lane (h : Heat) (ls : List Nat) (f : Nat → Trap) (id m : Nat) (hn : ls.Nodup) :
    (parkHeat ls f id h).lane m = if m ∈ ls ∧ m < h.lanes.length then { h.lane m with st := .parked, trap := some (f m), park := id, pcWritten := false } else h.lane m :=
  Heat.lane_foldl_updLane ls (fun l x => { x with st := .parked, trap := some (f l), park := id, pcWritten := false }) h m hn

theorem parkHeat_length (h : Heat) (ls : List Nat) (f : Nat → Trap) (id : Nat) : (parkHeat ls f id h).lanes.length = h.lanes.length :=
  Heat.length_foldl_updLane ls (fun l x => { x with st := .parked, trap := some (f l), park := id, pcWritten := false }) h

/-- The end of an issue in which lanes trap outside tasks. -/
theorem finish_parked {s : State} {x : Iss} {h h0 : Heat} {e : Env} (hS : Stands s x h) (hk : e.key = x.key) (hi : e.issuing = x.lanes) (hpc : e.pc = x.pc)
    (ls : List Nat) (f : Nat → Trap) (n : Nat) (irr : Bool) (hne : ls ≠ []) (hls : ls = x.lanes.filter (fun l => ls.contains l))
    (ht : ∀ l ∈ x.lanes, (h.lane l).task = none) (hc : ∀ l ∈ ls, (f l).cause.code = n) (hb : ∀ l ∈ ls, (f l).cause ≠ .brk)
    (hn : n < 32) :
    Parked s (finish e h0 { s := entered s x, traps := ls.map (fun l => (l, f l)), irrev := irr }) x h ls f n := by
  have hsub : ∀ l ∈ ls, l ∈ x.lanes := fun l hl => by rw [hls] at hl; exact (List.mem_filter.1 hl).1
  have hnod : x.lanes.Nodup := hS.order.imp (fun h => Nat.ne_of_lt h)
  have hlsn : ls.Nodup := by rw [hls]; exact hnod.filter _
  have e0 := entered_eq s x
  have hany : ∀ l, (ls.map (fun l => (l, f l))).any (fun t => t.1 == l) = ls.contains l := by
    intro l
    rw [List.any_map, List.contains_eq_any_beq]
    congr 1
    funext a
    exact Bool.beq_comm
  unfold finish
  rw [if_neg (by simp)]
  simp only [hi, hk, hpc, traps_list x.lanes ls f hls]
  rw [if_neg (by simpa using hne)]
  simp only [List.contains_nil, Bool.not_false, Bool.true_and, hany]
  -- the heat at the end of the issue
  generalize hφ : (fun h : Heat => account h0 x.lanes e.aside (entered s x).now e.i (reversible e.i && !irr)
      ((x.lanes.filter (fun l => !(ls.contains l))).foldl (fun h l => h.updLane l Lane.advance) h)) = φ
  have hφr : ∀ g, φ g = { g with lanes := (φ g).lanes, starved := (φ g).starved, paced := false, fence := none, lastIssue := some s.now, undo := (φ g).undo } := by
    intro g
    have hnow : (entered s x).now = s.now := by rw [e0]
    obtain ⟨y, hy, h1⟩ : ∃ y : Heat, (x.lanes.filter (fun l => !(ls.contains l))).foldl (fun h l => h.updLane l Lane.advance) g = y ∧ y = { g with lanes := y.lanes } :=
      ⟨_, rfl, Heat.foldl_updLane_eq _ (fun _ => Lane.advance) _⟩
    rw [← hφ, ← hnow]
    simp only [hy]
    rw [h1]
    rfl
  have hφlen : (φ h).lanes.length = h.lanes.length := by
    rw [← hφ]
    simp only
    rw [(account_lanes _ _ _ _ _ _ _).1, Heat.length_foldl_updLane _ (fun _ => Lane.advance)]
  have hφl : ∀ l, (φ h).lane l = closeLane x.lanes s.now l (if l ∈ x.lanes ∧ l ∉ ls then (h.lane l).advance else h.lane l) := by
    intro l
    have hnow : (entered s x).now = s.now := by rw [e0]
    rw [← hφ]
    simp only
    rw [account_lane _ _ _ _ _ _ _ _ (by
      intro m hm
      rw [Heat.length_foldl_updLane _ (fun _ => Lane.advance)]
      exact (hS.lanes m hm).1), Heat.lane_foldl_updLane _ (fun _ => Lane.advance) _ _ (hnod.filter _), hnow]
    congr 1
    by_cases h1 : l ∈ x.lanes
    · simp [h1, (hS.lanes l h1).1]
    · simp [h1]
  have hkey : ∀ g, (φ g).key = g.key := fun g => by rw [hφr g]
  have hh1 : ((entered s x).updHeat x.key φ).heat? x.key = some (φ h) := by
    rw [State.heat?_updHeat_self _ _ _ hkey, hS.heat]; rfl
  have htask : ∀ l ∈ ls, ((φ h).lane l).task = none := by
    intro l hl
    rw [hφl, closeLane_eq, if_neg (fun hc => hc.2 hl)]
    exact ht l (hsub l hl)
  rw [raiseAll_noTask _ _ _ _ ls f hh1 hne htask hb]
  obtain ⟨g, t, q1, q2, q3, q4, q5⟩ := parkGroup_spec ((entered s x).updHeat x.key φ) x.key x.pc (φ h) ls f hh1
  rw [q1]
  have hgl : ∀ l, g.lane l = if l ∈ ls ∧ l < h.lanes.length then { (φ h).lane l with st := .parked, trap := some (f l), park := s.nid, pcWritten := false } else (φ h).lane l := by
    intro l
    have hnid : ((entered s x).updHeat x.key φ).nid = s.nid := by rw [e0]; rfl
    have h2 := parkHeat_lane (φ h) ls f s.nid l hlsn
    rw [hφlen] at h2
    rw [← h2, q5, hnid]
    rfl
  obtain ⟨l0, hl0⟩ := List.exists_mem_of_ne_nil _ hne
  have hlive : g.allExited = false := by
    refine Heat.allExited_false (l := l0) ?_ ?_
    · rw [q5]
      show (parkHeat ls f _ (φ h)).lanes.length > _
      rw [parkHeat_length, hφlen]
      exact (hS.lanes l0 (hsub l0 hl0)).1
    · rw [hgl, if_pos ⟨hl0, (hS.lanes l0 (hsub l0 hl0)).1⟩]
      simp
  rw [State.settleBars_live q4 hlive]
  refine ⟨mkRec ((entered s x).updHeat x.key φ) (φ h) x.pc (ls.map (fun l => (l, f l))) none, g, ?_, ?_, ?_, q4, ?_, ?_⟩
  · have hnow : t.now = s.now := by rw [q2, e0]; rfl
    rw [hnow, q2, e0]; rfl
  · have hkk : (φ h).key = x.key := (hkey h).trans (State.heat?_key hS.heat)
    have hcore : (φ h).core = h.core := by rw [hφr h]
    have hcodes : (ls.map (fun l => (l, f l))).map (fun t => t.2.cause.code) = ls.map (fun _ => n) := by
      rw [List.map_map]
      apply List.map_congr_left
      intro l hl
      exact hc l hl
    have hleast : leastBy id ((ls.map (fun l => (l, f l))).map (fun t => t.2.cause.code)) = some n := by
      rw [hcodes]
      apply leastBy_const
      · simpa using hne
      · intro a ha
        simp at ha
        first | exact ha.2.symm | exact ha.2
    refine ⟨by rw [← hkk]; rfl, by rw [← hkk]; rfl, rfl, ?_, ?_, ?_, hcore, by rw [← hkk]; rfl, rfl⟩
    · show maskOf ((ls.map (fun l => (l, f l))).map (·.1)) = _
      rw [List.map_map]
      exact congrArg maskOf ((List.map_congr_left (fun _ _ => rfl)).trans (List.map_id _))
    · simp only [mkRec, hleast, Option.getD_some]
      have hb2 : ∀ b : Bool, b2n b = 0 ∨ b2n b = 1 := by intro b; cases b <;> simp [b2n]
      rcases hb2 (((ls.map (fun l => (l, f l))).find? (fun t => t.2.addr.isSome)).bind (fun t => t.2.addr.map (fun a => (a, t.2.write, t.2.fetch))) |>.getD (0, false, false)).2.1 with h1 | h1 <;>
      rcases hb2 (((ls.map (fun l => (l, f l))).find? (fun t => t.2.addr.isSome)).bind (fun t => t.2.addr.map (fun a => (a, t.2.write, t.2.fetch))) |>.getD (0, false, false)).2.2 with h2 | h2 <;> rw [h1, h2] <;> omega
    · simp only [mkRec, List.map_map]
      apply List.map_congr_left
      intro l hl
      simp [hc l hl]
  · intro k hk'
    show t.heat? k = _
    rw [q3 k hk', State.heat?_updHeat_ne _ _ _ _ hkey hk']
    exact entered_heat_ne s x k hk'
  · rw [q5]
    show _ = _
    unfold parkHeat
    rw [Heat.foldl_updLane_eq ls (fun l z => { z with st := .parked, trap := some (f l), park := ((entered s x).updHeat x.key φ).nid, pcWritten := false })]
    rw [hφr h]
  · intro l hl
    rw [hgl l, hφl l]
    have hid : (mkRec ((entered s x).updHeat x.key φ) (φ h) x.pc (ls.map (fun l => (l, f l))) none).id = s.nid := by
      show (entered s x).nid = _
      rw [e0]
    rw [hid]
    by_cases h1 : l ∈ ls
    · have h2 := hsub l h1
      simp [h1, hl, closeLane, h2]
    · simp [h1]

/-- The frame of a word at hand, up to the checks. -/
theorem issue_stands (i : Instr) {s : State} {x : Iss} {h : Heat} (hS : Stands s x h) (body : Env → Work → Work) :
    ∃ h0 e, e.key = x.key ∧ e.issuing = x.lanes ∧ e.pc = x.pc ∧
      ∃ B, issue i s body = .next (finish e h0 (
        if decodeTrap i x.hdr then { s := entered s x, traps := x.lanes.map (fun l => (l, { cause := .illegal })) }
        else if roleAllows h.role (Instr.opcode i) = false then
          (if Instr.unreadable i then ({ s := entered s x } : Work).trapAll (active i x h) { cause := .illegal } else { s := entered s x }).trapAll x.lanes { cause := .role }
        else if Instr.unreadable i && !(active i x h).isEmpty then ({ s := entered s x } : Work).trapAll (active i x h) { cause := .illegal }
        else if Instr.long i && Tbl.get 0 h.fcnt (flagOf x.hdr (com i)) == 63 then Work.stallWith e id
        else if Instr.privileged i && !h.service then { s := entered s x, traps := (active i x h).map (fun l => (l, { cause := .priv })) }
        else B)) := by
  obtain ⟨h0, hh0⟩ := entered_heat hS.heat
  have hh := hS.heat
  simp only [entered] at hh
  let hz := (active i x h).filter (fun l => h.hazard l (Instr.namedV i) (Instr.namedK i))
  let e : Env := { i := i, com := com i, key := x.key, h := h, act := (active i x h).filter (fun l => !hz.contains l), mask := maskOf (active i x h), issuing := x.lanes, pc := x.pc, hdrAddr := x.hdrAddr, hdr := x.hdr, flag := flagOf x.hdr (com i), base := { s with iss := none }, aside := x.aside }
  refine ⟨h0, e, rfl, rfl, rfl, body e (({ s := entered s x } : Work).trapAll hz { cause := .hazard }), ?_⟩
  unfold issue
  simp only [hS.iss, hh0]
  rw [show (enterBlock { s with iss := none } x).heat? x.key = some h from hS.heat]
  rfl

theorem self_filter (ls is : List Nat) (p : Nat → Bool) (h : ls = is.filter p) : ls = is.filter (fun l => ls.contains l) := by
  conv => lhs; rw [h]
  apply List.filter_congr
  intro l hl
  rw [h]
  cases hp : p l <;> simp [hl, hp]

end Sys2Proof.Machine
end

