-- ==== Sys2Proof/Laws/Sync.lean ====
section
/-! SUPPORT. Fences, waits and barriers: lanes that block, an arrival's outcome. -/

namespace Sys2Proof.Machine
open Sys2Proof.Safe

theorem targetCanonical {va : Nat} (h : Canonical va) : canonical va = true := by
  unfold canonical
  rcases h with h | h <;> simp [h]

theorem translate_mapped {s : State} {ctx core va : Nat} {use : Use} {pa : Nat} (h : Mapped s ctx core va use pa) :
    s.translate ctx (dieOf core) (some core) va use = (.ok pa, s) := by
  obtain ⟨e, h1, hc, h2, h3, h4, h5⟩ := h
  unfold State.translate dieOf
  simp only [h1]
  rw [← h2, h3]
  simp only [Bool.false_eq_true, if_false]
  have hn : s.enterCore (some core) e = s := by
    unfold State.enterCore
    simp only [hc, if_true]
  rw [hn, if_neg]
  · rw [if_neg]
    rintro ⟨q1, q2⟩
    rw [(h4 q1).2] at q2
    cases q2
  · rintro (⟨q1, q2⟩ | ⟨q1, q2⟩)
    · rw [(h4 q1).1] at q2; cases q2
    · rw [h5 q1] at q2; cases q2

theorem Mapped.congr {s t : State} (h1 : t.tlb = s.tlb) (h2 : t.fencedDies = s.fencedDies) {ctx core va use pa} (h : Mapped s ctx core va use pa) :
    Mapped t ctx core va use pa := by
  unfold Mapped
  rw [h1, h2]
  exact h

theorem each_block (e : Env) (q : Nat → Wait) (ls : List Nat) (w : Work) :
    ls.foldl (fun w l => w.block e l (q l)) w =
      { w with s := w.s.updHeat e.key (fun h => ls.foldl (fun h l => h.updLane l (blocked (q l))) h), stay := w.stay ++ ls } :=
  each_hold e.key (fun l => blocked (q l)) ls w

/-- A word whose lanes block, and that changes the rest of the part. -/
theorem blocks_of {i : Instr} {P : Seen → Prop} {U : Seen → State} {q : Seen → Nat → Wait} (body : Env → Work → Work)
    (hi : ∀ s, exec i s = issue i s body)
    (hb : ∀ s x h, Issues i s x h → P (seen i s x h) → ∃ (w0 : Work), w0.traps = [] ∧ w0.stall = false ∧ w0.stay = [] ∧
      body (envOf i s x h) { s := entered s x } = { w0 with s := w0.s, stay := active i x h } ∧
      w0.s = { U (seen i s x h) with heats := ((entered s x).updHeat x.key (fun g => (active i x h).foldl (fun g l => g.updLane l (blocked (q (seen i s x h) l))) g)).heats, iss := none, now := s.now }) :
    Acts i P U Seen.h (fun e l y => blocked (q e l) y) := by
  refine acts_upd body hi (fun s x h hI hP => ?_)
  obtain ⟨w0, b1, b2, b3, b4, b5⟩ := hb s x h hI hP
  refine ⟨_, fun g => (active i x h).foldl (fun g l => g.updLane l (blocked (q (seen i s x h) l))) g, b4, b1, b2, fun g => Heat.foldl_updLane_key _ (fun l => blocked (q (seen i s x h) l)) g, b5, Heat.foldl_updLane_eq _ (fun l => blocked (q (seen i s x h) l)) _, Heat.length_foldl_updLane _ (fun l => blocked (q (seen i s x h) l)) _, ?_, ?_⟩
  · intro l hl
    rw [Heat.lane_foldl_updLane _ (fun l => blocked (q (seen i s x h) l)) _ _ (Issues_active_nodup hI)]
    split
    · simp [blocked]
    · exact Issues_live hI l hl
  · intro l hl
    rw [Heat.lane_foldl_updLane _ (fun l => blocked (q (seen i s x h) l)) _ _ (Issues_active_nodup hI)]
    by_cases ha : l ∈ active i x h
    · simp [ha, hl]
    · simp [ha]

theorem each_blocks_aux (e : Env) (q : Nat → Wait) (f : Work → Nat → Work) (ls : List Nat) (w0 w : Work) (hw : w.s = { w0.s with heats := w.s.heats })
    (hf : ∀ w, w.s = { w0.s with heats := w.s.heats } → ∀ l ∈ ls, f w l = w.block e l (q l)) :
    ls.foldl f w = ls.foldl (fun w l => w.block e l (q l)) w := by
  induction ls generalizing w with
  | nil => rfl
  | cons a t ih =>
    rw [List.foldl_cons, List.foldl_cons, hf w hw a (by simp)]
    refine ih _ ?_ (fun w h l hl => hf w h l (by simp [hl]))
    have h1 : (w.block e a (q a)).s = { w.s with heats := (w.block e a (q a)).s.heats } := rfl
    rw [h1, hw]

/-- Lanes that block one after another. -/
theorem each_blocks (e : Env) (q : Nat → Wait) (f : Work → Nat → Work) (ls : List Nat) (w0 : Work)
    (hf : ∀ w, w.s = { w0.s with heats := w.s.heats } → ∀ l ∈ ls, f w l = w.block e l (q l)) :
    ls.foldl f w0 = { w0 with s := w0.s.updHeat e.key (fun h => ls.foldl (fun h l => h.updLane l (blocked (q l))) h), stay := w0.stay ++ ls } :=
  (each_blocks_aux e q f ls w0 w0 rfl hf).trans (each_block e q ls w0)

theorem mem_before {e : Seen} {h : Heat} (hk : h.key = e.x.key) (m : Nat) (r : Req) :
    r ∈ (e.s.reqs.filter (fun r => r.key = h.key && r.id < m)).filter (fun r => !r.copy) ↔ e.before m r := by
  simp only [List.mem_filter, Bool.and_eq_true, decide_eq_true_eq, Bool.not_eq_true', hk, Seen.before]
  constructor
  · rintro ⟨⟨h1, h2, h3⟩, h4⟩
    exact ⟨h1, h2, h3, h4⟩
  · rintro ⟨h1, h2, h3, h4⟩
    exact ⟨⟨h1, h2, h3⟩, h4⟩

theorem mem_relBefore {e : Seen} (hk : e.h.key = e.x.key) (m : Nat) (r : PendRel) :
    r ∈ e.s.rels.filter (fun r => r.ctx == e.h.key.ctx && r.origin == e.h.core && r.id < m) ↔ e.relBefore m r := by
  simp only [List.mem_filter, Bool.and_eq_true, decide_eq_true_eq, beq_iff_eq, hk, Seen.relBefore, and_assoc]

/-- A fence's parts as its statement lists them (R281). -/
theorem fenceDone_iff (e : Seen) (hk : e.h.key = e.x.key) (kind : FenceKind) (eng : Bool) (sc : Scope) (m : Nat) :
    e.s.fenceDone e.h kind eng sc m = true ↔ e.Fenced kind eng sc m := by
  unfold State.fenceDone
  have empty : ∀ {α : Type} (l : List α) (P : α → Prop), (∀ a, a ∈ l ↔ P a) → (l.isEmpty = true ↔ ∀ a, ¬ P a) := by
    intro α l P hP
    rw [List.isEmpty_iff, List.eq_nil_iff_forall_not_mem]
    exact forall_congr' (fun a => not_congr (hP a))
  have none_ : ∀ {α : Type} (l : List α) (P : α → Prop) (q : α → Bool), (∀ a, a ∈ l ↔ P a) → ((!(l.any q)) = true ↔ ∀ a, P a → q a = false) := by
    intro α l P q hP
    rw [Bool.not_eq_true', List.any_eq_false]
    exact forall_congr' (fun a => by rw [hP a]; simp)
  have hm := mem_before (e := e) hk m
  have hr := mem_relBefore (e := e) hk m
  have e1 := empty _ _ hm
  have e2 := empty _ _ hr
  have e3 := none_ _ _ (fun r => r.accs.any Acc.reads) hm
  have e4 := none_ _ _ (fun r => match r.val with | .rmw k _ => decide (k = e.h.key) | _ => false) hr
  have e5 := none_ _ _ (fun r => r.remote.isSome || r.accs.any Acc.far) hm
  simp only [Bool.and_eq_true, Bool.or_eq_true, decide_eq_true_eq, Bool.not_or, ← Bool.not_eq_true', e1, e2] at *
  constructor
  · rintro ⟨⟨⟨⟨⟨h1, h2⟩, h3⟩, h4⟩, h5⟩, h6⟩
    refine ⟨fun hn => ?_, ⟨fun r hb => by simpa using e3.1 h2.1 r hb, fun r hb k w hv => ?_⟩, fun he => ?_, fun hc q hq hd => ?_, fun hc r q1 q2 q3 q4 => ?_, fun hc => ?_⟩
    · rcases h1 with h1 | h1
      · exact absurd h1 hn
      · exact ⟨h1.1.1, h1.1.2, fun p hp => by
          have := h1.2
          simp only [Bool.not_eq_true', List.any_eq_false] at this
          simpa using this p hp⟩
    · have := e4.1 h2.2 r hb
      rw [hv, hk] at this
      simpa using this
    · rcases h3 with h3 | h3
      · simp [he] at h3
      · simpa using h3
    · rcases h4 with h4 | h4
      · omega
      · have := List.all_eq_true.1 h4 q.die (by simpa [upto] using hd)
        unfold State.drained at this
        simp only [Bool.not_eq_true', List.any_eq_false] at this
        simpa using this q hq
    · rcases h5 with h5 | h5
      · exact absurd hc h5
      · simp only [Bool.not_eq_true', List.any_eq_false] at h5
        have := h5 r (List.mem_filter.2 ⟨q1, by simp [q2, hk, q3]⟩)
        simpa [q4] using this
    · rcases h6 with h6 | h6
      · exact absurd hc h6
      · refine ⟨h6.1, fun r hb => ?_⟩
        have := e5.1 h6.2 r hb
        simpa using this
  · rintro ⟨h1, ⟨h2, h2'⟩, h3, h4, h5, h6⟩
    refine ⟨⟨⟨⟨⟨?_, e3.2 (fun r hb => by simpa using h2 r hb), ?_⟩, ?_⟩, ?_⟩, ?_⟩, ?_⟩
    · by_cases hc : kind = .acq
      · exact .inl hc
      · obtain ⟨q1, q2, q3⟩ := h1 hc
        refine .inr ⟨⟨q1, q2⟩, ?_⟩
        simp only [Bool.not_eq_true', List.any_eq_false]
        intro p hp
        have := q3 p hp
        simpa using this
    · refine e4.2 (fun r hb => ?_)
      cases hv : r.val with
      | rmw k w => simpa [hk] using h2' r hb k w hv
      | _ => rfl
    · cases eng
      · exact .inl rfl
      · exact .inr (by simp [h3 rfl])
    · by_cases hc : 3 ≤ sc.code
      · refine .inr (List.all_eq_true.2 (fun d hd => ?_))
        unfold State.drained
        simp only [Bool.not_eq_true', List.any_eq_false]
        intro q hq hh
        simp at hh
        have := h4 hc q hq (by simp [upto] at hd; omega)
        omega
      · exact .inl (by omega)
    · by_cases hc : sc = .system
      · refine .inr ?_
        simp only [Bool.not_eq_true', List.any_eq_false]
        intro r hr
        obtain ⟨q1, q2⟩ := List.mem_filter.1 hr
        simp [hk] at q2
        cases q4 : r.remote.isSome
        · simp
        · simp [h5 hc r q1 q2.1 q2.2 q4]
      · exact .inl hc
    · by_cases hc : sc = .heat
      · refine .inr ⟨(h6 hc).1, e5.2 (fun r hb => ?_)⟩
        obtain ⟨q1, q2⟩ := (h6 hc).2 r hb
        simp [q1, q2]
      · exact .inl hc

theorem fence_congr {s t : State} (h1 : t.reqs = s.reqs) (h2 : t.rels = s.rels) (h3 : t.rwq = s.rwq) (h4 : t.ops = s.ops) (h5 : t.arrays = s.arrays) (h6 : t.units = s.units)
    (h : Heat) (kind : FenceKind) (eng : Bool) (sc : Scope) (m : Nat) : t.fenceDone h kind eng sc m = s.fenceDone h kind eng sc m := by
  unfold State.fenceDone State.engineBusy State.drained State.unit?
  rw [h1, h2, h3, h4, h5, h6]

theorem stallWith_of {i : Instr} {s : State} {x : Iss} {h : Heat} (hI : Issues i s x h) (body : Env → Work → Work) (f : State → State)
    (hi : ∀ s, exec i s = issue i s body)
    (hb : body (envOf i s x h) { s := entered s x } = Work.stallWith (envOf i s x h) f) :
    exec i s = .next { f { s with iss := none } with iss := none, now := (f { s with iss := none }).now + 1 } := by
  obtain ⟨h0, q1, e1⟩ := issue_eq hI body
  rw [hi, e1, hb]
  rfl

theorem Seen.team_entered {s : State} {x : Iss} {i : Instr} {h : Heat} {u : RUnit} {t : Team} (hT : (seen i s x h).Team u t) :
    (entered s x).unit? h.unit = some u ∧ u.team? x.key.team = some t := by
  refine ⟨?_, hT.2⟩
  rw [entered_eq]
  exact hT.1

theorem unit?_updUnit_self (s : State) (i : Nat) (f : RUnit → RUnit) (hf : ∀ u, (f u).id = u.id) :
    (s.updUnit i f).unit? i = (s.unit? i).map f :=
  find?_modifyFirst_self _ f s.units (fun a ha => by simpa [hf a] using ha)

theorem team?_updTeam_self (u : RUnit) (i : Nat) (f : Team → Team) (hf : ∀ u, (f u).team = u.team) :
    (u.updTeam i f).team? i = (u.team? i).map f :=
  find?_modifyFirst_self _ f u.teams (fun a ha => by simpa [hf a] using ha)

theorem updTeam_updTeam (s : State) (i k : Nat) (f g : Team → Team) (hf : ∀ u, (f u).team = u.team) :
    (s.updTeam i k f).updTeam i k g = s.updTeam i k (fun t => g (f t)) := by
  have h1 : ∀ u : RUnit, (u.updTeam k f).updTeam k g = u.updTeam k (fun t => g (f t)) := fun u =>
    congrArg (fun ts => { u with teams := ts }) (modifyFirst_modifyFirst (fun x => decide (x.team = k)) f g u.teams (fun a ha => by simpa [hf a] using ha))
  refine congrArg (fun us => { s with units := us }) ((modifyFirst_modifyFirst (fun u => decide (u.id = i)) (fun u => u.updTeam k f) (fun u => u.updTeam k g) s.units (fun a ha => ha)).trans ?_)
  simp only [h1]

theorem set_set {β : Type} (t : Tbl β) (x : Nat) (y z : β) : Tbl.set (Tbl.set t x y) x z = Tbl.set t x z := by
  induction t with
  | nil => simp [Tbl.set]
  | cons e t ih =>
    simp only [Tbl.set]
    split
    · simp [Tbl.set]
    · split
      · simp [Tbl.set]
      · rename_i h1 h2
        simp [Tbl.set, h1, h2, ih]

theorem modifyFirst_congr {α : Type} (p : α → Bool) (f g : α → α) (l : List α) (h : ∀ a ∈ l.find? p, f a = g a) : modifyFirst p f l = modifyFirst p g l := by
  induction l with
  | nil => rfl
  | cons a t ih =>
    simp only [modifyFirst]
    by_cases hp : p a = true
    · rw [if_pos hp, if_pos hp, h a (by simp [hp])]
    · rw [if_neg hp, if_neg hp, ih (fun b hb => h b (by rw [List.find?_cons_of_neg hp]; exact hb))]

theorem updTeam_congr (s : State) (i k : Nat) (f g : Team → Team) {u : RUnit} {t : Team} (hu : s.unit? i = some u) (ht : u.team? k = some t) (h : f t = g t) :
    s.updTeam i k f = s.updTeam i k g := by
  unfold State.updTeam State.updUnit
  congr 1
  refine modifyFirst_congr _ _ _ _ (fun a ha => ?_)
  have ha' : s.unit? i = some a := ha
  rw [hu] at ha'
  cases ha'
  unfold RUnit.updTeam
  congr 1
  refine modifyFirst_congr _ _ _ _ (fun b hb => ?_)
  have hb' : u.team? k = some b := hb
  rw [ht] at hb'
  cases hb'
  exact h

theorem all_modifyAt {α : Type} (p : α → Bool) (f : α → α) (l : List α) (i : Nat) (hf : ∀ a, p (f a) = p a) : (modifyAt l i f).all p = l.all p := by
  induction l generalizing i with
  | nil => rfl
  | cons a t ih => cases i <;> simp [modifyAt, hf, ih]

theorem allExited_foldl (ls : List Nat) (f : Nat → Lane → Lane) (hf : ∀ l y, (f l y).st = y.st) (h : Heat) :
    (ls.foldl (fun h l => h.updLane l (f l)) h).allExited = h.allExited := by
  induction ls generalizing h with
  | nil => rfl
  | cons a t ih =>
    rw [List.foldl_cons, ih]
    exact all_modifyAt _ _ _ _ (fun y => by simp [Lane.exited, hf])

theorem allExited_unmark (h : Heat) (ls : List Nat) (m : Nat) : (h.unmark ls m).allExited = h.allExited := by
  rw [← allExited_foldl ls (fun _ y => y.unmark m) (fun _ y => rfl) h]
  unfold Heat.unmark
  split <;> rfl

/-- The heats that count at a barrier are the same after the lanes' entry into a block. -/
theorem liveHeats_entered (s : State) (x : Iss) (u t : Nat) : (entered s x).liveHeats u t = s.liveHeats u t := by
  unfold entered enterBlock
  split
  · unfold State.liveHeats State.updHeat
    simp only
    generalize s.heats = hs
    induction hs with
    | nil => rfl
    | cons a hs ih =>
      simp only [modifyFirst]
      split
      · have h1 := allExited_foldl x.lanes (fun _ y => { y with pc := x.pc, blk := some (x.hdrAddr, x.hdr) }) (fun _ _ => rfl) a
        have h2 := unmark_eq (x.lanes.foldl (fun h l => h.updLane l (fun y => { y with pc := x.pc, blk := some (x.hdrAddr, x.hdr) })) a) x.lanes (fld x.hdr 40 12)
        have h3 := Heat.foldl_updLane_eq x.lanes (fun _ y => { y with pc := x.pc, blk := some (x.hdrAddr, x.hdr) }) a
        have h4 := allExited_unmark (x.lanes.foldl (fun h l => h.updLane l (fun y => { y with pc := x.pc, blk := some (x.hdrAddr, x.hdr) })) a) x.lanes (fld x.hdr 40 12)
        simp only [List.filter_cons]
        have e : ∀ g : Heat, g.key = a.key → g.unit = a.unit → g.retired = a.retired → g.allExited = a.allExited →
            (g.inTeam u t && !g.retired && !g.allExited) = (a.inTeam u t && !a.retired && !a.allExited) := by
          intro g q1 q2 q3 q4
          rw [q3, q4]
          unfold Heat.inTeam
          rw [q1, q2]
        have hk : ((x.lanes.foldl (fun h l => h.updLane l (fun y => { y with pc := x.pc, blk := some (x.hdrAddr, x.hdr) })) a).unmark x.lanes (fld x.hdr 40 12)).key = a.key := by
          rw [h2, h3]
        rw [e _ hk (by rw [h2, h3]) (by rw [h2, h3]) (h4.trans h1)]
        split
        · simp only [List.map_cons, hk]
        · rfl
      · simp only [List.filter_cons]
        split
        · simp only [List.map_cons]; congr 1
        · exact ih
  · rfl

/-- The state in which a heat arrives, and the barrier's settling. -/
theorem arrive_eq {s : State} {h : Heat} {n count : Nat} {u : RUnit} {t : Team} (hu : s.unit? h.unit = some u) (ht : u.team? h.key.team = some t) (b : Bar)
    (hb : b = { (Tbl.get {} t.bars n) with expect := if (Tbl.get {} t.bars n).arrived = 0 then count else (Tbl.get {} t.bars n).expect, arrived := (Tbl.get {} t.bars n).arrived ||| 2 ^ h.key.heat }) :
    s.arrive h n count =
      if b.expect ≤ s.barCount h.unit t b then
        { s.updTeam h.unit h.key.team (fun t => { t with bars := Tbl.set t.bars n { phase := !b.phase } }) with
          heats := s.heats.map (fun g => if g.inTeam h.unit h.key.team then { g with lanes := g.lanes.map (Lane.pass n) } else g) }
      else s.updTeam h.unit h.key.team (fun t => { t with bars := Tbl.set t.bars n b }) := by
  unfold State.arrive
  rw [updTeam_congr s _ _ _ (fun t => { t with bars := Tbl.set t.bars n b }) hu ht (by simp only [hb])]
  unfold State.settleBar
  have h1 : ((s.updTeam h.unit h.key.team (fun t => { t with bars := Tbl.set t.bars n b })).unit? h.unit).bind (fun u => u.team? h.key.team) = some { t with bars := Tbl.set t.bars n b } := by
    unfold State.updTeam
    rw [unit?_updUnit_self _ _ _ (by intro _; rfl), hu]
    show (u.updTeam _ _).team? _ = _
    rw [team?_updTeam_self _ _ _ (by intro _; rfl), ht]
    rfl
  rw [h1]
  simp only [Tbl.get_set_self]
  have h2 : (b.arrived != 0) = true := by
    rw [hb]
    simp only [bne_iff_ne, ne_eq]
    intro hc
    have := Nat.or_eq_zero_iff.1 hc
    have := Nat.two_pow_pos h.key.heat
    omega
  have h3 : (s.updTeam h.unit h.key.team (fun t => { t with bars := Tbl.set t.bars n b })).barCount h.unit { t with bars := Tbl.set t.bars n b } b = s.barCount h.unit t b := rfl
  rw [h2, h3]
  have h4 : t.team = h.key.team := by simpa using List.find?_some ht
  simp only [Bool.true_and, decide_eq_true_eq]
  split
  · rw [updTeam_updTeam _ _ _ _ _ (by intro _; rfl)]
    simp only [set_set]
    rfl
  · rfl

theorem barrier_env {i : Instr} {s : State} {x : Iss} {h : Heat} {u : RUnit} {t : Team} (hT : (seen i s x h).Team u t) (n : Nat) :
    (envOf i s x h).barrier (entered s x) n = (Tbl.get {} t.bars n, t.heats) := by
  obtain ⟨h1, h2⟩ := Seen.team_entered hT
  unfold Env.barrier
  have : ((entered s x).unit? (envOf i s x h).h.unit).bind (fun u => u.team? (envOf i s x h).key.team) = some t := by
    show ((entered s x).unit? h.unit).bind (fun u => u.team? x.key.team) = some t
    rw [h1]; exact h2
  rw [this]

theorem barCount_entered (s : State) (x : Iss) (u : Nat) (t : Team) (b : Bar) : (entered s x).barCount u t b = s.barCount u t b := by
  unfold State.barCount
  rw [liveHeats_entered]

theorem liveHeats_updHeat (s : State) (k : HeatKey) (f : Heat → Heat) (u t : Nat) (h1 : ∀ g, (f g).key = g.key) (h2 : ∀ g, (f g).unit = g.unit) (h3 : ∀ g, (f g).retired = g.retired)
    (h4 : ∀ g ∈ s.heat? k, (f g).allExited = g.allExited) : (s.updHeat k f).liveHeats u t = s.liveHeats u t := by
  unfold State.liveHeats State.updHeat State.heat? at *
  simp only
  generalize s.heats = hs at *
  induction hs with
  | nil => rfl
  | cons a hs ih =>
    simp only [modifyFirst]
    split
    · rename_i hk
      simp only [List.filter_cons]
      have e : (Heat.inTeam (f a) u t && !(f a).retired && !(f a).allExited) = (Heat.inTeam a u t && !a.retired && !a.allExited) := by
        rw [h3, h4 a (by rw [List.find?_cons, hk]; simp)]
        unfold Heat.inTeam
        rw [h1, h2]
      rw [e]
      split
      · simp only [List.map_cons, h1]
      · rfl
    · rename_i hk
      have := ih (fun g hg => h4 g (by rw [List.find?_cons, Bool.eq_false_iff.2 hk]; exact hg))
      simp only [List.filter_cons]
      split
      · simp only [List.map_cons, this]
      · exact this

theorem heat?_map (s : State) (f : Heat → Heat) (hf : ∀ h, (f h).key = h.key) (k : HeatKey) : ({ s with heats := s.heats.map f } : State).heat? k = (s.heat? k).map f := by
  unfold State.heat?
  simp only
  induction s.heats with
  | nil => rfl
  | cons a t ih =>
    rw [List.map_cons, List.find?_cons, List.find?_cons, hf a]
    split <;> simp [ih]

theorem barCount_block {i : Instr} {s : State} {x : Iss} {h : Heat} (hI : Issues i s x h) (n : Nat) (ls : List Nat) (hnd : ls.Nodup) (u : Nat) (t : Team) (b : Bar) :
    ((entered s x).updHeat x.key (fun g => ls.foldl (fun g l => g.updLane l (blocked (.bar n))) g)).barCount u t b = s.barCount u t b := by
  have hfk : ∀ g : Heat, (ls.foldl (fun g l => g.updLane l (blocked (.bar n))) g).key = g.key := fun g => Heat.foldl_updLane_key ls (fun _ => blocked (.bar n)) g
  have hfe : ∀ g : Heat, ls.foldl (fun g l => g.updLane l (blocked (.bar n))) g = { g with lanes := (ls.foldl (fun g l => g.updLane l (blocked (.bar n))) g).lanes } := fun g => Heat.foldl_updLane_eq ls (fun _ => blocked (.bar n)) g
  have hfl := fun (g : Heat) (m : Nat) => Heat.lane_foldl_updLane ls (fun _ => blocked (.bar n)) g m hnd
  have hlen : (ls.foldl (fun g l => g.updLane l (blocked (.bar n))) h).lanes.length = h.lanes.length := Heat.length_foldl_updLane ls (fun _ => blocked (.bar n)) h
  unfold State.barCount
  rw [liveHeats_updHeat _ _ _ _ _ hfk (fun g => by rw [hfe]) (fun g => by rw [hfe]), liveHeats_entered]
  intro g hg
  rw [hI.heat] at hg
  cases hg
  obtain ⟨m, hm⟩ := List.exists_mem_of_ne_nil _ hI.some_lane
  have e1 : h.allExited = false := Heat.allExited_false (hI.lanes m hm).1 (Issues_live hI m hm)
  rw [e1]
  refine Heat.allExited_false (l := m) (by rw [hlen]; exact (hI.lanes m hm).1) ?_
  rw [hfl]
  split
  · simp [blocked]
  · exact Issues_live hI m hm

/-- The arrival that fills a phase: `ls` are the lanes that the word has blocked. -/
theorem fills_outcome {i : Instr} {s : State} {x : Iss} {h : Heat} (hI : Issues i s x h) {n count : Nat} {u : RUnit} {t : Team} (hT : (seen i s x h).Team u t)
    (body : Env → Work → Work) (hi : ∀ s, exec i s = issue i s body) (ls : List Nat) (hls : ∀ l ∈ ls, l ∈ x.lanes) (hnd : ls.Nodup) (b : Bar)
    (hb : b = { (Tbl.get {} t.bars n) with expect := if (Tbl.get {} t.bars n).arrived = 0 then count else (Tbl.get {} t.bars n).expect, arrived := (Tbl.get {} t.bars n).arrived ||| 2 ^ x.key.heat })
    (hfull : b.expect ≤ s.barCount h.unit t b)
    (hbody : body (envOf i s x h) { s := entered s x } =
      { s := ((entered s x).updHeat x.key (fun g => ls.foldl (fun g l => g.updLane l (blocked (.bar n))) g)).arrive h n count, stay := ls, irrev := true }) :
    ∃ t' g, exec i s = .next t' ∧
      t' = { s.updTeam h.unit x.key.team (fun t => { t with bars := Tbl.set t.bars n { phase := !b.phase } }) with heats := t'.heats, iss := none, now := s.now + 1 } ∧
        (∀ k, k ≠ x.key → t'.heat? k = (s.heat? k).map (fun q =>
          if q.inTeam h.unit x.key.team then { q with lanes := q.lanes.map (Lane.pass n) } else q)) ∧
        t'.heat? x.key = some g ∧ g.k = h.k ∧ g.b = h.b ∧ g.nflags = h.nflags ∧
        ∀ l, l < h.lanes.length → g.lane l = closeLane x.lanes s.now l (if l ∈ x.lanes then (h.lane l).advance else (h.lane l).pass n) := by
  have hk := State.heat?_key hI.heat
  have e0 := entered_eq s x
  obtain ⟨hu, ht⟩ := Seen.team_entered hT
  have hfk : ∀ g : Heat, (ls.foldl (fun g l => g.updLane l (blocked (.bar n))) g).key = g.key := fun g => Heat.foldl_updLane_key ls (fun _ => blocked (.bar n)) g
  have hfe : ∀ g : Heat, ls.foldl (fun g l => g.updLane l (blocked (.bar n))) g = { g with lanes := (ls.foldl (fun g l => g.updLane l (blocked (.bar n))) g).lanes } := fun g => Heat.foldl_updLane_eq ls (fun _ => blocked (.bar n)) g
  have hfl := fun (g : Heat) (m : Nat) => Heat.lane_foldl_updLane ls (fun _ => blocked (.bar n)) g m hnd
  have hlen : (ls.foldl (fun g l => g.updLane l (blocked (.bar n))) h).lanes.length = h.lanes.length := Heat.length_foldl_updLane ls (fun _ => blocked (.bar n)) h
  have hcnt := barCount_block hI n ls hnd h.unit t b
  have harr := arrive_eq (s := (entered s x).updHeat x.key (fun g => ls.foldl (fun g l => g.updLane l (blocked (.bar n))) g)) (h := h) (n := n) (count := count) hu (hk ▸ ht) b (by rw [hk]; exact hb)
  rw [hcnt, if_pos hfull] at harr
  rw [harr] at hbody
  have hmk : ∀ q : Heat, (if q.inTeam h.unit h.key.team then { q with lanes := q.lanes.map (Lane.pass n) } else q).key = q.key := fun q => by split <;> rfl
  have hin : h.inTeam h.unit h.key.team = true := by simp [Heat.inTeam]
  have hmap := fun k => heat?_map ((entered s x).updHeat x.key (fun g => ls.foldl (fun g l => g.updLane l (blocked (.bar n))) g)) _ hmk k
  generalize hh1 : ls.foldl (fun g l => g.updLane l (blocked (.bar n))) h = h1 at hlen
  have h1e : h1 = { h with lanes := h1.lanes } := by rw [← hh1]; exact hfe h
  have h1in : h1.inTeam h.unit h.key.team = true := by rw [h1e]; exact hin
  have hpl : ∀ m, m < h.lanes.length → ({ h1 with lanes := h1.lanes.map (Lane.pass n) } : Heat).lane m = (h1.lane m).pass n := by
    intro m hm
    simp [Heat.lane, hlen, hm]
  have hl1 : ∀ m, m < h.lanes.length → (h1.lane m) = if m ∈ ls then blocked (.bar n) (h.lane m) else h.lane m := by
    intro m hm
    rw [← hh1, hfl]
    by_cases hml : m ∈ ls <;> simp [hml, hm]
  have hpass : ∀ m ∈ x.lanes, (h1.lane m).pass n = if m ∈ ls then (h.lane m).advance else h.lane m := by
    intro m hm
    have hr := (hI.lanes m hm).2
    rw [hl1 m (hI.lanes m hm).1]
    split
    · unfold Lane.pass blocked
      simp only [if_true]
      unfold Lane.advance
      simp only
      split <;> simp [← hr]
    · unfold Lane.pass
      rw [hr]
  obtain ⟨m, hm⟩ := List.exists_mem_of_ne_nil _ hI.some_lane
  obtain ⟨t', g, e1, e2, e3, e4, e5, e6, e7⟩ := quiet_outcome (h1 := { h1 with lanes := h1.lanes.map (Lane.pass n) }) hI body hbody rfl rfl (by rw [e0]; rfl) (by
    refine (hmap x.key).trans ?_
    rw [State.heat?_updHeat_self _ _ _ hfk, hI.heat]
    simp only [Option.map_some, hh1]
    rw [if_pos h1in]) (by simpa using hlen) (Heat.allExited_false (l := m) (by simpa [hlen] using (hI.lanes m hm).1) (by
      rw [hpl m (hI.lanes m hm).1, hpass m hm]
      have := Issues_live hI m hm
      split
      · unfold Lane.advance; split <;> simpa using this
      · exact this))
  refine ⟨t', g, (hi s).trans e1, ?_, ?_, e4, by rw [e5, h1e], by rw [e5, h1e], by rw [e5, h1e], ?_⟩
  · rw [e2, e0, hk]
    rfl
  · intro k hk'
    rw [e3 k hk']
    refine (hmap k).trans ?_
    rw [State.heat?_updHeat_ne _ _ _ _ hfk hk', entered_heat_ne s x k hk', hk]
  · intro l hl
    rw [e7 l, hpl l hl]
    congr 1
    by_cases hxl : l ∈ x.lanes
    · rw [hpass l hxl, if_pos hxl]
      by_cases hll : l ∈ ls <;> simp [hxl, hll]
    · rw [hl1 l hl, if_neg (fun hc => hxl (hls l hc))]
      simp [hxl]

end Sys2Proof.Machine
end

