-- ==== Sys2Proof/Laws/Ring.lean ====
section
/-! SUPPORT. Baton rings: a ring instruction at its object. -/

namespace Sys2Proof.Machine
open Sys2Proof.Safe

theorem updUnit_updUnit (s : State) (i : Nat) (f g : RUnit → RUnit) (hf : ∀ u, (f u).id = u.id) :
    (s.updUnit i f).updUnit i g = s.updUnit i (fun u => g (f u)) :=
  congrArg (fun us => { s with units := us }) (modifyFirst_modifyFirst (fun u => decide (u.id = i)) f g s.units (fun a ha => by simpa [hf a] using ha))

/-- What the lanes' entry into a block leaves of a heat: all but lanes and marks. -/
theorem entered_field {α : Type} (f : Heat → α) (hf : ∀ (g : Heat) ls km, f { g with lanes := ls, kpend := km } = f g) (s : State) (x : Iss) (k : HeatKey) :
    ((entered s x).heat? k).map f = (s.heat? k).map f := by
  by_cases hk : k = x.key
  · subst hk
    unfold entered enterBlock
    split
    · rw [State.heat?_updHeat_self _ _ _ (fun h => by rw [Heat.unmark_key]; exact Heat.foldl_updLane_key _ _ h), Option.map_map]
      congr 1
      funext g
      have h1 := Heat.foldl_updLane_eq x.lanes (fun _ y => { y with pc := x.pc, blk := some (x.hdrAddr, x.hdr) }) g
      have h2 := unmark_eq (x.lanes.foldl (fun h l => h.updLane l (fun y => { y with pc := x.pc, blk := some (x.hdrAddr, x.hdr) })) g) x.lanes (fld x.hdr 40 12)
      simp only [Function.comp_apply]
      rw [h2, h1]
      exact hf g _ _
    · rfl
  · rw [entered_heat_ne s x k hk]

theorem scrOwned_entered (s : State) (x : Iss) (u sec : Nat) : (entered s x).scrOwned u sec = s.scrOwned u sec := by
  have h1 := entered_field (·.unit) (fun _ _ _ => rfl) s x
  unfold State.scrOwned
  simp only [h1]
  rw [entered_eq]

theorem slotBusy_entered (s : State) (x : Iss) (u r j : Nat) : (entered s x).slotBusy u r j = s.slotBusy u r j := by
  have h1 := entered_field (·.unit) (fun _ _ _ => rfl) s x
  unfold State.slotBusy
  simp only [h1]
  rw [entered_eq]

/-- A ring instruction at its object. -/
theorem ringOp_eq {i : Instr} {s : State} {x : Iss} {h : Heat} (hI : Issues i s x h) {a : Src} {u : RUnit} {off : Nat} {o : List Byte} (hR : (seen i s x h).Ring a u off o) (f : Work → Nat → List Byte → Work) :
    (envOf i s x h).ringOp a f { s := entered s x } = f { s := entered s x } off o := by
  obtain ⟨h1, h2, h3, h4, h5, h6, h7, h8⟩ := hR
  have e0 := entered_eq s x
  have hu : (entered s x).unit? h.unit = some u := by rw [e0]; exact h3
  unfold Env.ringOp
  rw [if_neg (act_ne h1)]
  simp only [envOf_src32]
  have hoff : reads i s x h .n32 a (envOf i s x h).lowest = off := h2.symm
  have hr : (envOf i s x h).ring (entered s x) off = (o, u.size) := by
    unfold Env.ring State.scrRead
    rw [show (entered s x).unit? (envOf i s x h).h.unit = some u from hu, h4]
    rfl
  rw [hoff, hr]
  have ho : ringOffset u.size off = none := by
    unfold ringOffset
    rw [if_neg (by omega), if_neg (by omega)]
  have hs : (entered s x).scrOwned (envOf i s x h).h.unit (off / 64) = false := by
    rw [scrOwned_entered s x]
    exact h7
  simp only [ho, hs, h8]
  rfl

end Sys2Proof.Machine
end

