-- ==== Sys2Proof/Laws/Scratch.lean ====
section
/-! SUPPORT. Scratchpad loads and stores: what the bodies of LDS, STS, LDSR and STSR come to where every lane is in place. -/

namespace Sys2Proof.Machine
open Sys2Proof.Safe

/-- Operand lists whose only destination is a vector register. -/
theorem destK_scr (c : Com) (sg : Bool) (sz d : Nat) (x pos : Src) (a : Option Src) :
    Instr.destK (.lds c sg sz d x a) = [] ∧ Instr.destK (.ldsr c sg sz d x pos) = [] := by
  constructor
  · show ((Opnd.dv d (Opnd.regs sz) ++ Opnd.s false x ++ Opnd.so a).flatMap _) = []
    cases a <;> rfl
  · show ((Opnd.dv d (Opnd.regs sz) ++ Opnd.s false x ++ Opnd.s false pos).flatMap _) = []
    rfl

/-- Marks put on the destinations of a word that writes vector registers alone. -/
theorem mark_eq {i : Instr} {s : State} {x : Iss} {h : Heat} (hk : Instr.destK i = []) (t : State) :
    (envOf i s x h).mark t = t.updHeat x.key (fun g => (active i x h).foldl (fun g l => g.updLane l (marked i (seen i s x h))) g) := by
  unfold Env.mark
  congr 1
  funext g
  have hk' : Instr.destK (envOf i s x h).i = [] := hk
  rw [hk', List.map_nil]
  dsimp only
  split
  · rfl
  · rw [List.append_nil]
    rfl

/-- The bodies of scratchpad words whose lanes are all in place. -/
theorem scratch_eq {i : Instr} {s : State} {x : Iss} {h : Heat} (sz : Nat) (place : Nat → Except Trap (Nat × Nat)) (unit off : Nat → Nat)
    (op : State → Nat → Nat → Nat → State) (hp : ∀ l ∈ active i x h, place l = .ok (unit l, off l))
    (hs : ∀ l ∈ active i x h, (seen i s x h).Scratch (unit l) (off l) sz) :
    (envOf i s x h).scratch sz place op { s := entered s x } =
      (active i x h).foldl (fun w l => { w with s := op w.s l (unit l) (off l) })
        { s := if Instr.long i then (envOf i s x h).mark (entered s x) else entered s x } := by
  have e0 := entered_eq s x
  have hc : ∀ l ∈ active i x h, scrCheck ((((entered s x).unit? (unit l)).map RUnit.size).getD 0) (off l) sz = none := by
    intro l hl
    obtain ⟨u, h1, h2, h3, h4⟩ := hs l hl
    have hu : (entered s x).unit? (unit l) = some u := by rw [e0]; exact h1
    rw [hu]
    unfold scrCheck
    rw [if_neg (by omega), if_neg]
    simp only [Option.map_some, Option.getD_some]
    omega
  have hl : ∀ l, l ∈ (envOf i s x h).act → l ∈ active i x h := fun l hl => hl
  unfold Env.scratch
  dsimp only
  rw [if_neg]
  · rw [List.foldl_map]
    refine (foldl_congr _ (fun (w : Work) l => { w with s := op w.s l (unit l) (off l) }) _ _ (fun w l hl' => ?_)).trans ?_
    · rw [hp l (hl l hl')]
      dsimp only
      rw [hc l (hl l hl')]
    · cases hlong : Instr.long i
      · have : Instr.long (envOf i s x h).i = false := hlong
        rw [this]
        rfl
      · have : Instr.long (envOf i s x h).i = true := hlong
        rw [this]
        rfl
  · rw [List.any_map]
    simp only [List.any_eq_true, not_exists, not_and]
    intro l hl'
    obtain ⟨u, h1, h2, h3, h4⟩ := hs l (hl l hl')
    simp only [Function.comp_apply]
    rw [hp l (hl l hl')]
    dsimp only
    rw [hc l (hl l hl')]
    dsimp only
    rw [scrOwned_entered]
    have h4' : s.scrOwned (unit l) (off l / 64) = false := h4
    rw [h4']
    simp

/-- A lane takes a loaded element. -/
theorem setElem_work (w : Work) (key : HeatKey) (a : Nat) (sg : Bool) (sz d q : Nat) :
    ({ w with s := w.s.updHeat key (fun h => h.setElem a sg sz d q) } : Work) = { w with s := w.s.updLane key a (setElem sg sz d q) } := rfl

/-- The loads of several lanes, when none of them changes a region. -/
theorem fold_setElem (s : State) (key : HeatKey) (sg : Bool) (sz d : Nat) (unit off : Nat → Nat) (ls : List Nat) (w : Work) (hw : w.s.units = s.units) :
    ls.foldl (fun (w : Work) l => { w with s := w.s.updHeat key (fun h => h.setElem l sg sz d (ofBytes (w.s.scrRead (unit l) (off l) (2 ^ sz)))) }) w =
      { w with s := w.s.updHeat key (fun g => ls.foldl (fun g l => g.updLane l (setElem sg sz d (ofBytes (s.scrRead (unit l) (off l) (2 ^ sz))))) g) } := by
  rw [← each_updLane key (fun l => setElem sg sz d (ofBytes (s.scrRead (unit l) (off l) (2 ^ sz))))]
  induction ls generalizing w with
  | nil => rw [List.foldl_nil, List.foldl_nil]
  | cons a t ih =>
    rw [List.foldl_cons, List.foldl_cons]
    have hr : w.s.scrRead (unit a) (off a) (2 ^ sz) = s.scrRead (unit a) (off a) (2 ^ sz) := by
      unfold State.scrRead State.unit?
      rw [hw]
    rw [hr, setElem_work]
    exact ih _ hw

/-- Loads from scratchpad. -/
theorem scratch_loads {i : Instr} {s : State} {x : Iss} {h : Heat} (hi : Instr.long i = true) (hk : Instr.destK i = []) (sg : Bool) (sz d : Nat)
    (place : Nat → Except Trap (Nat × Nat)) (unit off : Nat → Nat) (hp : ∀ l ∈ active i x h, place l = .ok (unit l, off l))
    (hs : ∀ l ∈ active i x h, (seen i s x h).Scratch (unit l) (off l) sz) :
    (envOf i s x h).scratch sz place (fun s l u off => s.updHeat x.key (fun h => h.setElem l sg sz d (ofBytes (s.scrRead u off (2 ^ sz))))) { s := entered s x } =
      { s := ((entered s x).updHeat x.key (fun g => (active i x h).foldl (fun g l => g.updLane l (marked i (seen i s x h))) g)).updHeat x.key
          (fun g => (active i x h).foldl (fun g l => g.updLane l (setElem sg sz d (ofBytes ((seen i s x h).scr (unit l) (off l) (2 ^ sz))))) g) } := by
  rw [scratch_eq sz place unit off _ hp hs, if_pos hi, mark_eq hk]
  exact fold_setElem s x.key sg sz d unit off (active i x h) _ (by show (entered s x).units = s.units; rw [entered_eq])

theorem loads_of {i : Instr} {P : Seen → Prop} {F : Seen → Nat → Lane → Lane} (hlong : i.wf = true → Instr.long i = true) (hk : Instr.destK i = []) (sg : Bool) (sz d : Nat)
    (unit off : Seen → Nat → Nat) (hF : F = fun e l y => (setElem sg sz d (ofBytes (e.scr (unit e l) (off e l) (2 ^ sz))) (marked i e y)).advance)
    (body : Env → Work → Work) (hi : ∀ s, exec i s = issue i s body)
    (hb : ∀ s x h, Issues i s x h → P (seen i s x h) → ∃ place : Nat → Except Trap (Nat × Nat),
      body (envOf i s x h) { s := entered s x } = (envOf i s x h).scratch sz place (fun s l u off => s.updHeat x.key (fun h => h.setElem l sg sz d (ofBytes (s.scrRead u off (2 ^ sz))))) { s := entered s x } ∧
      (∀ l ∈ active i x h, place l = .ok (unit (seen i s x h) l, off (seen i s x h) l)) ∧
      ∀ l ∈ active i x h, (seen i s x h).Scratch (unit (seen i s x h) l) (off (seen i s x h) l) sz) : Acts i P Seen.s Seen.h F := by
  refine acts_upd body hi (fun s x h hI hP => ?_)
  obtain ⟨place, h1, h2, h3⟩ := hb s x h hI hP
  rw [scratch_loads (hlong (Issues_wf hI)) hk sg sz d place _ _ h2 h3, State.updHeat_updHeat _ _ _ _ (fun g => Heat.foldl_updLane_key _ (fun _ => marked i (seen i s x h)) g)] at h1
  have hst : ∀ (q : Nat) (y : Lane), (setElem sg sz d q y).st = y.st := by
    intro q y
    unfold setElem
    split
    · rfl
    · generalize List.range (2 ^ (sz - 2)) = ls
      induction ls generalizing y with
      | nil => rfl
      | cons a t ih => rw [List.foldl_cons, ih]; rfl
  have hn := Issues_active_nodup hI
  have hl1 := fun (g : Heat) m => Heat.lane_foldl_updLane (active i x h) (fun _ => marked i (seen i s x h)) g m hn
  have hl2 := fun (g : Heat) m => Heat.lane_foldl_updLane (active i x h) (fun l => setElem sg sz d (ofBytes ((seen i s x h).scr (unit (seen i s x h) l) (off (seen i s x h) l) (2 ^ sz)))) g m hn
  have hg1 := fun (g : Heat) => Heat.length_foldl_updLane (active i x h) (fun _ => marked i (seen i s x h)) g
  have hg2 := fun (g : Heat) => Heat.length_foldl_updLane (active i x h) (fun l => setElem sg sz d (ofBytes ((seen i s x h).scr (unit (seen i s x h) l) (off (seen i s x h) l) (2 ^ sz)))) g
  have hm : ∀ y : Lane, (marked i (seen i s x h) y).st = y.st := fun _ => rfl
  refine ⟨_, _, h1, rfl, rfl, ?_, by rw [entered_eq]; rfl, ?_, ?_, ?_, ?_⟩
  · intro g
    rw [Heat.foldl_updLane_key _ (fun l => setElem sg sz d (ofBytes ((seen i s x h).scr (unit (seen i s x h) l) (off (seen i s x h) l) (2 ^ sz)))), Heat.foldl_updLane_key _ (fun _ => marked i (seen i s x h))]
  · rw [Heat.foldl_updLane_eq _ (fun l => setElem sg sz d (ofBytes ((seen i s x h).scr (unit (seen i s x h) l) (off (seen i s x h) l) (2 ^ sz)))), Heat.foldl_updLane_eq _ (fun _ => marked i (seen i s x h))]
    rfl
  · rw [hg2, hg1]
  · intro l hl
    rw [hl2, hl1]
    have := Issues_live hI l hl
    split <;> split <;> (try simp only [hst, hm]) <;> exact this
  · intro l hl
    rw [hl2, hl1, hg1]
    by_cases ha : l ∈ active i x h
    · simp [ha, hl, (List.mem_filter.1 ha).1, hF]
    · simp [ha]

/-- The opcode of a scratchpad word. -/
theorem scr_op {l : Bool} {c : Com} {sg : Bool} {sz d x e op : Nat} (h : Wf.com l c = true) (h1 : Wf.sign sg sz = true) (h2 : Wf.data sz d = true)
    (hx : x < 512) (he : e < 512) (ho : op < 256) : fld (Enc.fmtScr op c sg sz d x e) 56 8 = op := by
  have := Enc.sign_ok h1
  have := Enc.data_ok h2
  have h128 : b2n sg * 128 < 256 := by cases sg <;> decide
  exact (Enc.fmtM_fields op c d x e 0 sz 0 0 (b2n sg * 128) ho (Enc.com_ok h) (by omega) hx he (by omega) (by omega) (by omega) (by omega) h128).1

theorem lds_op {c : Com} {sg : Bool} {sz d : Nat} {x : Src} {a : Option Src} (hw : Instr.wf (.lds c sg sz d x a) = true) : Instr.opcode (.lds c sg sz d x a) = 0x76 := by
  have h : (Wf.com true c && Wf.sign sg sz && Wf.data sz d && Wf.read false x && Wf.opt (Wf.src false) a) = true := hw
  simp only [Bool.and_eq_true] at h
  obtain ⟨⟨⟨⟨h1, h2⟩, h3⟩, h4⟩, h5⟩ := h
  exact scr_op h1 h2 h3 (Enc.src_ok h4).1 (Enc.srcOpt_ok h5).1 (by omega)

theorem sts_op {c : Com} {sg : Bool} {sz d : Nat} {x : Src} {a : Option Src} (hw : Instr.wf (.sts c sg sz d x a) = true) : Instr.opcode (.sts c sg sz d x a) = 0x77 := by
  have h : (Wf.com false c && Wf.sign sg sz && Wf.data sz d && Wf.read false x && Wf.opt (Wf.src false) a) = true := hw
  simp only [Bool.and_eq_true] at h
  obtain ⟨⟨⟨⟨h1, h2⟩, h3⟩, h4⟩, h5⟩ := h
  exact scr_op h1 h2 h3 (Enc.src_ok h4).1 (Enc.srcOpt_ok h5).1 (by omega)

theorem ldsr_op {c : Com} {sg : Bool} {sz d : Nat} {x a : Src} (hw : Instr.wf (.ldsr c sg sz d x a) = true) : Instr.opcode (.ldsr c sg sz d x a) = 0x78 := by
  have h : (Wf.com true c && Wf.sign sg sz && Wf.data sz d && Wf.read false x && Wf.read false a) = true := hw
  simp only [Bool.and_eq_true] at h
  obtain ⟨⟨⟨⟨h1, h2⟩, h3⟩, h4⟩, h5⟩ := h
  exact scr_op h1 h2 h3 (Enc.src_ok h4).1 (Enc.src_ok h5).1 (by omega)

theorem stsr_op {c : Com} {sg : Bool} {sz d : Nat} {x a : Src} (hw : Instr.wf (.stsr c sg sz d x a) = true) : Instr.opcode (.stsr c sg sz d x a) = 0x79 := by
  have h : (Wf.com false c && Wf.sign sg sz && Wf.data sz d && Wf.read false x && Wf.read false a) = true := hw
  simp only [Bool.and_eq_true] at h
  obtain ⟨⟨⟨⟨h1, h2⟩, h3⟩, h4⟩, h5⟩ := h
  exact scr_op h1 h2 h3 (Enc.src_ok h4).1 (Enc.src_ok h5).1 (by omega)

/-- Whether a word is of long latency, from its opcode. -/
theorem long_of {i : Instr} {op : Nat} (h : Instr.opcode i = op) : Instr.long i = (op == 0x72 || op == 0x74 || op == 0x76 || op == 0x78 || op == 0x7C || op == 0x80 || op == 0x81 || op == 0x82 ||
  op == 0x84 || op == 0xA5 || op == 0xA6) := by
  subst h
  rfl

/-- The quad form of a scratchpad access, where every position leads to a region. -/
theorem quad_eq {i : Instr} {s : State} {x : Iss} {h : Heat} (sz : Nat) (a pos : Src) (op : State → Nat → Nat → Nat → State) (unit : Nat → Nat)
    (hu : ∀ l ∈ active i x h, s.quadPlace h (reads i s x h .n32 pos l) = .unit (unit l)) :
    ∃ place : Nat → Except Trap (Nat × Nat), (envOf i s x h).quad sz a pos op { s := entered s x } = (envOf i s x h).scratch sz place op { s := entered s x } ∧
      ∀ l ∈ active i x h, place l = .ok (unit l, reads i s x h .n32 a l) := by
  have hq : ∀ l ∈ active i x h, (entered s x).quadPlace (envOf i s x h).h ((envOf i s x h).src32 pos l) = .unit (unit l) := by
    intro l hl
    rw [envOf_src32, ← hu l hl, entered_eq]
    rfl
  unfold Env.quad
  dsimp only
  rw [if_neg]
  · refine ⟨_, rfl, fun l hl => ?_⟩
    rw [hq l hl, envOf_src32]
  · simp only [List.any_eq_true, not_exists, not_and]
    intro l hl
    rw [hq l hl]
    simp

/-- Bytes stored one lane after another. -/
theorem stores_fold (un of : Nat → Nat) (bs : Nat → List Byte) (ls : List Nat) (w : Work) (s0 : State) (hs : List Heat) (hw : w.s = { s0 with heats := hs, iss := none }) :
    ls.foldl (fun (w : Work) l => { w with s := w.s.scrWrite (un l) (of l) (bs l) }) w =
      { w with s := { (ls.foldl (fun (s : State) l => s.scrWrite (un l) (of l) (bs l)) s0) with heats := hs, iss := none } } ∧
    (ls.foldl (fun (s : State) l => s.scrWrite (un l) (of l) (bs l)) s0).now = s0.now := by
  induction ls generalizing w s0 with
  | nil => exact ⟨by rw [List.foldl_nil, List.foldl_nil, ← hw], rfl⟩
  | cons a t ih =>
    rw [List.foldl_cons, List.foldl_cons]
    obtain ⟨a1, a2⟩ := ih { w with s := w.s.scrWrite (un a) (of a) (bs a) } (s0.scrWrite (un a) (of a) (bs a)) (by
      show w.s.scrWrite _ _ _ = _
      rw [hw]; rfl)
    exact ⟨a1, a2.trans rfl⟩

/-- Stores to scratchpad. -/
theorem stores_of {i : Instr} {P : Seen → Prop} {U : Seen → State} (hlong : i.wf = true → Instr.long i = false) (sz d : Nat)
    (unit off : Seen → Nat → Nat) (hU : U = fun e => e.act.foldl (fun s l => s.scrWrite (unit e l) (off e l) ((e.h.lane l).elemBytes sz d)) e.s)
    (body : Env → Work → Work) (hi : ∀ s, exec i s = issue i s body)
    (hb : ∀ s x h, Issues i s x h → P (seen i s x h) → ∃ place : Nat → Except Trap (Nat × Nat),
      body (envOf i s x h) { s := entered s x } = (envOf i s x h).scratch sz place (fun s l u off => s.scrWrite u off ((h.lane l).elemBytes sz d)) { s := entered s x } ∧
      (∀ l ∈ active i x h, place l = .ok (unit (seen i s x h) l, off (seen i s x h) l)) ∧
      ∀ l ∈ active i x h, (seen i s x h).Scratch (unit (seen i s x h) l) (off (seen i s x h) l) sz) : ActsOn i P U := by
  refine actsOn_of body hi (fun s x h hI hP => ?_)
  obtain ⟨place, h1, h2, h3⟩ := hb s x h hI hP
  rw [scratch_eq sz place _ _ _ h2 h3, hlong (Issues_wf hI)] at h1
  refine ⟨_, h1, ?_⟩
  obtain ⟨a1, a2⟩ := stores_fold (unit (seen i s x h)) (off (seen i s x h)) (fun l => (h.lane l).elemBytes sz d) (active i x h) { s := entered s x } s (entered s x).heats (entered_eq s x)
  have a2 : (U (seen i s x h)).now = s.now := by rw [hU]; exact a2
  have e := a1
  refine ⟨?_, ?_, ?_, ?_⟩
  · exact (congrArg Work.traps e).trans rfl
  · exact (congrArg Work.stall e).trans rfl
  · exact (congrArg Work.stay e).trans rfl
  · refine (congrArg Work.s e).trans ?_
    rw [← a2, hU]
    try rfl

theorem scrOff_eq {i : Instr} {s : State} {x : Iss} {h : Heat} (a : Src) (b : Option Src) (l : Nat) :
    (envOf i s x h).scrOff a b l = (reads i s x h .n32 a l + (match b with | none => 0 | some q => reads i s x h .n32 q l)) % 2 ^ 32 := by
  unfold Env.scrOff
  rw [envOf_src32, envOf_rb]

end Sys2Proof.Machine
end

