-- ==== Sys2Proof/Laws/Words.lean ====
section
/-! SUPPORT. The words of the instructions: each has its opcode, and decodes to the instruction it stands for (R93 to R102). -/

set_option linter.unusedSimpArgs false
set_option Elab.async false

namespace Sys2Proof.Words
open Machine

theorem nop (a0 : Com) (hw : Instr.wf (.nop a0) = true) : fld (encode (.nop a0)) 56 8 = 0x00 ∧ decode (encode (.nop a0)) = .ok (.nop a0) := by
  have hwf := hw
  replace hw : (Wf.com false a0) = true := hw
  have h0 := hw
  have qc := Enc.com_ok h0
  rw [show encode (.nop a0) = Enc.fmtS 0x00 a0 511 511 511 0 from rfl]
  obtain ⟨f1, f2, f3, f4, f5, f6, f7, f8, f9⟩ := Enc.fmtS_fields 0x00 a0 511 511 511 0 (by decide) qc (by omega) (by omega) (by omega) (by omega)
  generalize Enc.fmtS 0x00 a0 511 511 511 0 = w at *
  refine ⟨f1, Enc.decode_of f1 (by decide) f2 ?_ hwf⟩
  unfold Dec.parse
  rw [f1]
  simp [Dec.control, Dec.need, f3, f4, f5, f6, f7, f8, f9, Enc.bit00, Enc.bit10, Dec.index, Dec.gindex, Dec.scrRest, Dec.vreg, Enc.kreg_add, Enc.rnd0, Enc.ty1, Enc.ty4, Enc.ty5]

theorem bra (a0 : Com) (a1 : Int) (hw : Instr.wf (.bra a0 a1) = true) : fld (encode (.bra a0 a1)) 56 8 = 0x01 ∧ decode (encode (.bra a0 a1)) = .ok (.bra a0 a1) := by
  have hwf := hw
  replace hw : (Wf.com false a0 && Wf.int 24 a1) = true := hw
  simp only [Bool.and_eq_true] at hw
  obtain ⟨h0, h1⟩ := hw
  have qc := Enc.com_ok h0
  have qi := Enc.int_ok h1
  rw [show encode (.bra a0 a1) = Enc.fmtB 0x01 a0 a1 511 from rfl]
  obtain ⟨f1, f2, f3, f4, f5, f6⟩ := Enc.fmtB_fields 0x01 a0 a1 511 (by decide) qc (by omega)
  generalize Enc.fmtB 0x01 a0 a1 511 = w at *
  refine ⟨f1, Enc.decode_of f1 (by decide) f2 ?_ hwf⟩
  unfold Dec.parse
  rw [f1]
  simp [Dec.control, Dec.need, f3, f4, f5, f6, Dec.bOff, Enc.low_zero, Dec.vreg, qi]

theorem brx (a0 : Com) (a1 : Src) (hw : Instr.wf (.brx a0 a1) = true) : fld (encode (.brx a0 a1)) 56 8 = 0x02 ∧ decode (encode (.brx a0 a1)) = .ok (.brx a0 a1) := by
  have hwf := hw
  replace hw : (Wf.com false a0 && Wf.addr a1) = true := hw
  simp only [Bool.and_eq_true] at hw
  obtain ⟨h0, h1⟩ := hw
  have qc := Enc.com_ok h0
  have q0 := Enc.addr_ok h1
  rw [show encode (.brx a0 a1) = Enc.fmtB 0x02 a0 0 (Enc.src a1) from rfl]
  obtain ⟨f1, f2, f3, f4, f5, f6⟩ := Enc.fmtB_fields 0x02 a0 0 (Enc.src a1) (by decide) qc (by omega)
  generalize Enc.fmtB 0x02 a0 0 (Enc.src a1) = w at *
  refine ⟨f1, Enc.decode_of f1 (by decide) f2 ?_ hwf⟩
  unfold Dec.parse
  rw [f1]
  simp [Dec.control, Dec.need, f3, f4, f5, f6, Dec.bOff, Enc.low_zero, Dec.vreg, q0.2]

theorem call (a0 : Com) (a1 : Nat) (a2 : Int) (hw : Instr.wf (.call a0 a1 a2) = true) : fld (encode (.call a0 a1 a2)) 56 8 = 0x03 ∧ decode (encode (.call a0 a1 a2)) = .ok (.call a0 a1 a2) := by
  have hwf := hw
  replace hw : (Wf.com false a0 && a1 % 2 == 0 && a1 < 320 && Wf.int 24 a2) = true := hw
  simp only [Bool.and_eq_true] at hw
  obtain ⟨⟨⟨h0, h1⟩, h2⟩, h3⟩ := hw
  have qc := Enc.com_ok h0
  have qi := Enc.int_ok h3
  try simp at h1
  try simp at h2
  rw [show encode (.call a0 a1 a2) = Enc.fmtB 0x03 a0 a2 a1 from rfl]
  obtain ⟨f1, f2, f3, f4, f5, f6⟩ := Enc.fmtB_fields 0x03 a0 a2 a1 (by decide) qc (by omega)
  generalize Enc.fmtB 0x03 a0 a2 a1 = w at *
  refine ⟨f1, Enc.decode_of f1 (by decide) f2 ?_ hwf⟩
  unfold Dec.parse
  rw [f1]
  simp [Dec.control, Dec.need, f3, f4, f5, f6, Dec.bOff, Enc.low_zero, Dec.vreg, qi, h1, h2]

theorem callx (a0 : Com) (a1 : Nat) (hw : Instr.wf (.callx a0 a1) = true) : fld (encode (.callx a0 a1)) 56 8 = 0x04 ∧ decode (encode (.callx a0 a1)) = .ok (.callx a0 a1) := by
  have hwf := hw
  replace hw : (Wf.com false a0 && a1 % 2 == 0 && a1 < 320) = true := hw
  simp only [Bool.and_eq_true] at hw
  obtain ⟨⟨h0, h1⟩, h2⟩ := hw
  have qc := Enc.com_ok h0
  try simp at h1
  try simp at h2
  rw [show encode (.callx a0 a1) = Enc.fmtB 0x04 a0 0 a1 from rfl]
  obtain ⟨f1, f2, f3, f4, f5, f6⟩ := Enc.fmtB_fields 0x04 a0 0 a1 (by decide) qc (by omega)
  generalize Enc.fmtB 0x04 a0 0 a1 = w at *
  refine ⟨f1, Enc.decode_of f1 (by decide) f2 ?_ hwf⟩
  unfold Dec.parse
  rw [f1]
  simp [Dec.control, Dec.need, f3, f4, f5, f6, Dec.bOff, Enc.low_zero, Dec.vreg, h1, h2]

theorem ret (a0 : Com) (a1 : Src) (hw : Instr.wf (.ret a0 a1) = true) : fld (encode (.ret a0 a1)) 56 8 = 0x05 ∧ decode (encode (.ret a0 a1)) = .ok (.ret a0 a1) := by
  have hwf := hw
  replace hw : (Wf.com false a0 && Wf.addr a1) = true := hw
  simp only [Bool.and_eq_true] at hw
  obtain ⟨h0, h1⟩ := hw
  have qc := Enc.com_ok h0
  have q0 := Enc.addr_ok h1
  rw [show encode (.ret a0 a1) = Enc.fmtB 0x05 a0 0 (Enc.src a1) from rfl]
  obtain ⟨f1, f2, f3, f4, f5, f6⟩ := Enc.fmtB_fields 0x05 a0 0 (Enc.src a1) (by decide) qc (by omega)
  generalize Enc.fmtB 0x05 a0 0 (Enc.src a1) = w at *
  refine ⟨f1, Enc.decode_of f1 (by decide) f2 ?_ hwf⟩
  unfold Dec.parse
  rw [f1]
  simp [Dec.control, Dec.need, f3, f4, f5, f6, Dec.bOff, Enc.low_zero, Dec.vreg, q0.2]

theorem exit (a0 : Com) (hw : Instr.wf (.exit a0) = true) : fld (encode (.exit a0)) 56 8 = 0x06 ∧ decode (encode (.exit a0)) = .ok (.exit a0) := by
  have hwf := hw
  replace hw : (Wf.com false a0) = true := hw
  have h0 := hw
  have qc := Enc.com_ok h0
  rw [show encode (.exit a0) = Enc.fmtB 0x06 a0 0 511 from rfl]
  obtain ⟨f1, f2, f3, f4, f5, f6⟩ := Enc.fmtB_fields 0x06 a0 0 511 (by decide) qc (by omega)
  generalize Enc.fmtB 0x06 a0 0 511 = w at *
  refine ⟨f1, Enc.decode_of f1 (by decide) f2 ?_ hwf⟩
  unfold Dec.parse
  rw [f1]
  simp [Dec.control, Dec.need, f3, f4, f5, f6, Dec.bOff, Enc.low_zero, Dec.vreg]

theorem yield (a0 : Com) (hw : Instr.wf (.yield a0) = true) : fld (encode (.yield a0)) 56 8 = 0x07 ∧ decode (encode (.yield a0)) = .ok (.yield a0) := by
  have hwf := hw
  replace hw : (Wf.com false a0) = true := hw
  have h0 := hw
  have qc := Enc.com_ok h0
  rw [show encode (.yield a0) = Enc.fmtS 0x07 a0 511 511 511 0 from rfl]
  obtain ⟨f1, f2, f3, f4, f5, f6, f7, f8, f9⟩ := Enc.fmtS_fields 0x07 a0 511 511 511 0 (by decide) qc (by omega) (by omega) (by omega) (by omega)
  generalize Enc.fmtS 0x07 a0 511 511 511 0 = w at *
  refine ⟨f1, Enc.decode_of f1 (by decide) f2 ?_ hwf⟩
  unfold Dec.parse
  rw [f1]
  simp [Dec.control, Dec.need, f3, f4, f5, f6, f7, f8, f9, Enc.bit00, Enc.bit10, Dec.index, Dec.gindex, Dec.scrRest, Dec.vreg, Enc.kreg_add, Enc.rnd0, Enc.ty1, Enc.ty4, Enc.ty5]

theorem waitf (a0 : Com) (a1 : Nat) (hw : Instr.wf (.waitf a0 a1) = true) : fld (encode (.waitf a0 a1)) 56 8 = 0x08 ∧ decode (encode (.waitf a0 a1)) = .ok (.waitf a0 a1) := by
  have hwf := hw
  replace hw : (Wf.com false a0 && a1 < 4096) = true := hw
  simp only [Bool.and_eq_true] at hw
  obtain ⟨h0, h1⟩ := hw
  have qc := Enc.com_ok h0
  try simp at h1
  rw [show encode (.waitf a0 a1) = Enc.fmtS 0x08 a0 511 511 511 a1 from rfl]
  obtain ⟨f1, f2, f3, f4, f5, f6, f7, f8, f9⟩ := Enc.fmtS_fields 0x08 a0 511 511 511 a1 (by decide) qc (by omega) (by omega) (by omega) (by omega)
  generalize Enc.fmtS 0x08 a0 511 511 511 a1 = w at *
  refine ⟨f1, Enc.decode_of f1 (by decide) f2 ?_ hwf⟩
  unfold Dec.parse
  rw [f1]
  simp [Dec.control, Dec.need, f3, f4, f5, f6, f7, f8, f9, Enc.bit00, Enc.bit10, Dec.index, Dec.gindex, Dec.scrRest, Dec.vreg, Enc.kreg_add, Enc.rnd0, Enc.ty1, Enc.ty4, Enc.ty5, h1]

theorem trap (a0 : Com) (a1 : Nat) (a2 : Option Src) (hw : Instr.wf (.trap a0 a1 a2) = true) : fld (encode (.trap a0 a1 a2)) 56 8 = 0x09 ∧ decode (encode (.trap a0 a1 a2)) = .ok (.trap a0 a1 a2) := by
  have hwf := hw
  replace hw : (Wf.com false a0 && a1 < 65536 && Wf.opt (Wf.src false) a2) = true := hw
  simp only [Bool.and_eq_true] at hw
  obtain ⟨⟨h0, h1⟩, h2⟩ := hw
  have qc := Enc.com_ok h0
  have q0 := Enc.srcOpt_ok h2
  try simp at h1
  rw [show encode (.trap a0 a1 a2) = Enc.fmtS 0x09 a0 511 (Enc.srcOpt a2) 511 a1 from rfl]
  obtain ⟨f1, f2, f3, f4, f5, f6, f7, f8, f9⟩ := Enc.fmtS_fields 0x09 a0 511 (Enc.srcOpt a2) 511 a1 (by decide) qc (by omega) (by omega) (by omega) (by omega)
  generalize Enc.fmtS 0x09 a0 511 (Enc.srcOpt a2) 511 a1 = w at *
  refine ⟨f1, Enc.decode_of f1 (by decide) f2 ?_ hwf⟩
  unfold Dec.parse
  rw [f1]
  simp [Dec.control, Dec.need, f3, f4, f5, f6, f7, f8, f9, Enc.bit00, Enc.bit10, Dec.index, Dec.gindex, Dec.scrRest, Dec.vreg, Enc.kreg_add, Enc.rnd0, Enc.ty1, Enc.ty4, Enc.ty5, q0.2, h1]

theorem pset (a0 : Com) (a1 : Ty) (a2 : Cmp) (a3 : Nat) (a4 : Src) (a5 : Src) (hw : Instr.wf (.pset a0 a1 a2 a3 a4 a5) = true) : fld (encode (.pset a0 a1 a2 a3 a4 a5)) 56 8 = 0x10 ∧ decode (encode (.pset a0 a1 a2 a3 a4 a5)) = .ok (.pset a0 a1 a2 a3 a4 a5) := by
  have hwf := hw
  replace hw : (Wf.com false a0 && a1.isBasic && (a1 = .f32 || (a2 ≠ .un && a2 ≠ .ord)) && Wf.pd a3 && Wf.read a1.wide a4 && Wf.read a1.wide a5) = true := hw
  simp only [Bool.and_eq_true] at hw
  obtain ⟨⟨⟨⟨⟨h0, h1⟩, h2⟩, h3⟩, h4⟩, h5⟩ := hw
  have qc := Enc.com_ok h0
  simp only [Wf.pd, decide_eq_true_eq] at h3
  have q0 := Enc.src_ok h4
  have q1 := Enc.src_ok h5
  try simp at h1
  try simp at h2
  have q2 := Enc.ty_ok a1
  have q3 := Enc.cmp_ok a2
  rw [show encode (.pset a0 a1 a2 a3 a4 a5) = Enc.fmtV 0x10 a0 a3 (Enc.src a4) (Enc.src a5) 511 (Enc.ty a1) 0 (Enc.cmp a2) from rfl]
  obtain ⟨f1, f2, f3, f4, f5, f6, f7, f8, f9, f10⟩ := Enc.fmtV_fields 0x10 a0 a3 (Enc.src a4) (Enc.src a5) 511 (Enc.ty a1) 0 (Enc.cmp a2) (by decide) qc (by omega) (by omega) (by omega) (by omega) (by omega) (by omega) (by omega)
  generalize Enc.fmtV 0x10 a0 a3 (Enc.src a4) (Enc.src a5) 511 (Enc.ty a1) 0 (Enc.cmp a2) = w at *
  refine ⟨f1, Enc.decode_of f1 (by decide) f2 ?_ hwf⟩
  unfold Dec.parse
  rw [f1]
  simp [Dec.predicate, Dec.need, f3, f4, f5, f6, f7, f8, f9, f10, Enc.bit00, Enc.bit10, Dec.index, Dec.gindex, Dec.scrRest, Dec.vreg, Enc.kreg_add, Enc.rnd0, Enc.ty1, Enc.ty4, Enc.ty5, q0.2, q1.2, q2.2, q3.2, h3, h1, h2]

theorem psetfFrom (a0 : Com) (a1 : Src) (a2 : Src) (hw : Instr.wf (.psetfFrom a0 a1 a2) = true) : fld (encode (.psetfFrom a0 a1 a2)) 56 8 = 0x11 ∧ decode (encode (.psetfFrom a0 a1 a2)) = .ok (.psetfFrom a0 a1 a2) := by
  have hwf := hw
  replace hw : (Wf.com false a0 && Wf.read false a1 && Wf.read false a2) = true := hw
  simp only [Bool.and_eq_true] at hw
  obtain ⟨⟨h0, h1⟩, h2⟩ := hw
  have qc := Enc.com_ok h0
  have q0 := Enc.src_ok h1
  have q1 := Enc.src_ok h2
  rw [show encode (.psetfFrom a0 a1 a2) = Enc.fmtV 0x11 a0 511 (Enc.src a1) (Enc.src a2) 511 0 0 0 from rfl]
  obtain ⟨f1, f2, f3, f4, f5, f6, f7, f8, f9, f10⟩ := Enc.fmtV_fields 0x11 a0 511 (Enc.src a1) (Enc.src a2) 511 0 0 0 (by decide) qc (by omega) (by omega) (by omega) (by omega) (by omega) (by omega) (by omega)
  generalize Enc.fmtV 0x11 a0 511 (Enc.src a1) (Enc.src a2) 511 0 0 0 = w at *
  refine ⟨f1, Enc.decode_of f1 (by decide) f2 ?_ hwf⟩
  unfold Dec.parse
  rw [f1]
  simp [Dec.predicate, Dec.need, f3, f4, f5, f6, f7, f8, f9, f10, Enc.bit00, Enc.bit10, Dec.index, Dec.gindex, Dec.scrRest, Dec.vreg, Enc.kreg_add, Enc.rnd0, Enc.ty1, Enc.ty4, Enc.ty5, q0.2, q1.2]

theorem psetfTo (a0 : Com) (a1 : Dst) (hw : Instr.wf (.psetfTo a0 a1) = true) : fld (encode (.psetfTo a0 a1)) 56 8 = 0x11 ∧ decode (encode (.psetfTo a0 a1)) = .ok (.psetfTo a0 a1) := by
  have hwf := hw
  replace hw : (Wf.com false a0 && Wf.dst false a1) = true := hw
  simp only [Bool.and_eq_true] at hw
  obtain ⟨h0, h1⟩ := hw
  have qc := Enc.com_ok h0
  have q0 := Enc.dst_ok h1
  rw [show encode (.psetfTo a0 a1) = Enc.fmtV 0x11 a0 (Enc.dst a1) 511 511 511 0 0 1 from rfl]
  obtain ⟨f1, f2, f3, f4, f5, f6, f7, f8, f9, f10⟩ := Enc.fmtV_fields 0x11 a0 (Enc.dst a1) 511 511 511 0 0 1 (by decide) qc (by omega) (by omega) (by omega) (by omega) (by omega) (by omega) (by omega)
  generalize Enc.fmtV 0x11 a0 (Enc.dst a1) 511 511 511 0 0 1 = w at *
  refine ⟨f1, Enc.decode_of f1 (by decide) f2 ?_ hwf⟩
  unfold Dec.parse
  rw [f1]
  simp [Dec.predicate, Dec.need, f3, f4, f5, f6, f7, f8, f9, f10, Enc.bit00, Enc.bit10, Dec.index, Dec.gindex, Dec.scrRest, Dec.vreg, Enc.kreg_add, Enc.rnd0, Enc.ty1, Enc.ty4, Enc.ty5, q0.2]

theorem plog (a0 : Com) (a1 : LogOp) (a2 : Nat) (a3 : PSrc) (a4 : Option PSrc) (a5 : Option PSrc) (hw : Instr.wf (.plog a0 a1 a2 a3 a4 a5) = true) : fld (encode (.plog a0 a1 a2 a3 a4 a5)) 56 8 = 0x12 ∧ decode (encode (.plog a0 a1 a2 a3 a4 a5)) = .ok (.plog a0 a1 a2 a3 a4 a5) := by
  have hwf := hw
  replace hw : (Wf.com false a0 && Wf.pd a2 && Wf.ps a3 && Wf.opt Wf.ps a4 && Wf.opt Wf.ps a5 && Wf.logReads a1 a4 a5) = true := hw
  simp only [Bool.and_eq_true] at hw
  obtain ⟨⟨⟨⟨⟨h0, h1⟩, h2⟩, h3⟩, h4⟩, h5⟩ := hw
  have qc := Enc.com_ok h0
  simp only [Wf.pd, decide_eq_true_eq] at h1
  have q0 := Enc.ps_ok h2
  have q1 := Enc.psOpt_ok h3
  have q2 := Enc.psOpt_ok h4
  try simp at h5
  have q3 := Enc.logOp_ok a1
  rw [show encode (.plog a0 a1 a2 a3 a4 a5) = Enc.fmtV 0x12 a0 a2 (Enc.ps a3) (Enc.psOpt a4) (Enc.psOpt a5) 0 0 (Enc.logOp a1) from rfl]
  obtain ⟨f1, f2, f3, f4, f5, f6, f7, f8, f9, f10⟩ := Enc.fmtV_fields 0x12 a0 a2 (Enc.ps a3) (Enc.psOpt a4) (Enc.psOpt a5) 0 0 (Enc.logOp a1) (by decide) qc (by omega) (by omega) (by omega) (by omega) (by omega) (by omega) (by omega)
  generalize Enc.fmtV 0x12 a0 a2 (Enc.ps a3) (Enc.psOpt a4) (Enc.psOpt a5) 0 0 (Enc.logOp a1) = w at *
  refine ⟨f1, Enc.decode_of f1 (by decide) f2 ?_ hwf⟩
  unfold Dec.parse
  rw [f1]
  simp [Dec.predicate, Dec.need, f3, f4, f5, f6, f7, f8, f9, f10, Enc.bit00, Enc.bit10, Dec.index, Dec.gindex, Dec.scrRest, Dec.vreg, Enc.kreg_add, Enc.rnd0, Enc.ty1, Enc.ty4, Enc.ty5, q0.2, q1.2, q2.2, q3.2, h1, h5]

theorem vote_ballot (a0 : Com) (d : Dst) (a2 : PSrc) (hw : Instr.wf (.vote a0 (.ballot d) a2) = true) : fld (encode (.vote a0 (.ballot d) a2)) 56 8 = 0x13 ∧ decode (encode (.vote a0 (.ballot d) a2)) = .ok (.vote a0 (.ballot d) a2) := by
  have hwf := hw
  replace hw : (Wf.com false a0 && Wf.ps a2 && Wf.dst false d) = true := hw
  simp only [Bool.and_eq_true] at hw
  obtain ⟨⟨h0, h1⟩, h2⟩ := hw
  have qc := Enc.com_ok h0
  have q0 := Enc.ps_ok h1
  have q1 := Enc.dst_ok h2
  rw [show encode (.vote a0 (.ballot d) a2) = Enc.fmtV 0x13 a0 (Enc.dst d) (Enc.ps a2) 511 511 0 0 0 from rfl]
  obtain ⟨f1, f2, f3, f4, f5, f6, f7, f8, f9, f10⟩ := Enc.fmtV_fields 0x13 a0 (Enc.dst d) (Enc.ps a2) 511 511 0 0 0 (by decide) qc (by omega) (by omega) (by omega) (by omega) (by omega) (by omega) (by omega)
  generalize Enc.fmtV 0x13 a0 (Enc.dst d) (Enc.ps a2) 511 511 0 0 0 = w at *
  refine ⟨f1, Enc.decode_of f1 (by decide) f2 ?_ hwf⟩
  unfold Dec.parse
  rw [f1]
  simp [Dec.predicate, Dec.need, f3, f4, f5, f6, f7, f8, f9, f10, q0.2, q1.2]

theorem vote_any (a0 : Com) (d : Nat) (a2 : PSrc) (hw : Instr.wf (.vote a0 (.any d) a2) = true) : fld (encode (.vote a0 (.any d) a2)) 56 8 = 0x13 ∧ decode (encode (.vote a0 (.any d) a2)) = .ok (.vote a0 (.any d) a2) := by
  have hwf := hw
  replace hw : (Wf.com false a0 && Wf.ps a2 && Wf.pd d) = true := hw
  simp only [Bool.and_eq_true] at hw
  obtain ⟨⟨h0, h1⟩, h2⟩ := hw
  have qc := Enc.com_ok h0
  have q0 := Enc.ps_ok h1
  simp only [Wf.pd, decide_eq_true_eq] at h2
  rw [show encode (.vote a0 (.any d) a2) = Enc.fmtV 0x13 a0 (d) (Enc.ps a2) 511 511 0 0 1 from rfl]
  obtain ⟨f1, f2, f3, f4, f5, f6, f7, f8, f9, f10⟩ := Enc.fmtV_fields 0x13 a0 (d) (Enc.ps a2) 511 511 0 0 1 (by decide) qc (by omega) (by omega) (by omega) (by omega) (by omega) (by omega) (by omega)
  generalize Enc.fmtV 0x13 a0 (d) (Enc.ps a2) 511 511 0 0 1 = w at *
  refine ⟨f1, Enc.decode_of f1 (by decide) f2 ?_ hwf⟩
  unfold Dec.parse
  rw [f1]
  simp [Dec.predicate, Dec.need, f3, f4, f5, f6, f7, f8, f9, f10, q0.2, h2]

theorem vote_all (a0 : Com) (d : Nat) (a2 : PSrc) (hw : Instr.wf (.vote a0 (.all d) a2) = true) : fld (encode (.vote a0 (.all d) a2)) 56 8 = 0x13 ∧ decode (encode (.vote a0 (.all d) a2)) = .ok (.vote a0 (.all d) a2) := by
  have hwf := hw
  replace hw : (Wf.com false a0 && Wf.ps a2 && Wf.pd d) = true := hw
  simp only [Bool.and_eq_true] at hw
  obtain ⟨⟨h0, h1⟩, h2⟩ := hw
  have qc := Enc.com_ok h0
  have q0 := Enc.ps_ok h1
  simp only [Wf.pd, decide_eq_true_eq] at h2
  rw [show encode (.vote a0 (.all d) a2) = Enc.fmtV 0x13 a0 (d) (Enc.ps a2) 511 511 0 0 2 from rfl]
  obtain ⟨f1, f2, f3, f4, f5, f6, f7, f8, f9, f10⟩ := Enc.fmtV_fields 0x13 a0 (d) (Enc.ps a2) 511 511 0 0 2 (by decide) qc (by omega) (by omega) (by omega) (by omega) (by omega) (by omega) (by omega)
  generalize Enc.fmtV 0x13 a0 (d) (Enc.ps a2) 511 511 0 0 2 = w at *
  refine ⟨f1, Enc.decode_of f1 (by decide) f2 ?_ hwf⟩
  unfold Dec.parse
  rw [f1]
  simp [Dec.predicate, Dec.need, f3, f4, f5, f6, f7, f8, f9, f10, q0.2, h2]

theorem vote_uni (a0 : Com) (d : Nat) (a2 : PSrc) (hw : Instr.wf (.vote a0 (.uni d) a2) = true) : fld (encode (.vote a0 (.uni d) a2)) 56 8 = 0x13 ∧ decode (encode (.vote a0 (.uni d) a2)) = .ok (.vote a0 (.uni d) a2) := by
  have hwf := hw
  replace hw : (Wf.com false a0 && Wf.ps a2 && Wf.pd d) = true := hw
  simp only [Bool.and_eq_true] at hw
  obtain ⟨⟨h0, h1⟩, h2⟩ := hw
  have qc := Enc.com_ok h0
  have q0 := Enc.ps_ok h1
  simp only [Wf.pd, decide_eq_true_eq] at h2
  rw [show encode (.vote a0 (.uni d) a2) = Enc.fmtV 0x13 a0 (d) (Enc.ps a2) 511 511 0 0 3 from rfl]
  obtain ⟨f1, f2, f3, f4, f5, f6, f7, f8, f9, f10⟩ := Enc.fmtV_fields 0x13 a0 (d) (Enc.ps a2) 511 511 0 0 3 (by decide) qc (by omega) (by omega) (by omega) (by omega) (by omega) (by omega) (by omega)
  generalize Enc.fmtV 0x13 a0 (d) (Enc.ps a2) 511 511 0 0 3 = w at *
  refine ⟨f1, Enc.decode_of f1 (by decide) f2 ?_ hwf⟩
  unfold Dec.parse
  rw [f1]
  simp [Dec.predicate, Dec.need, f3, f4, f5, f6, f7, f8, f9, f10, q0.2, h2]

theorem vote (a0 : Com) (a1 : VoteOp) (a2 : PSrc) (hw : Instr.wf (.vote a0 a1 a2) = true) : fld (encode (.vote a0 a1 a2)) 56 8 = 0x13 ∧ decode (encode (.vote a0 a1 a2)) = .ok (.vote a0 a1 a2) := by
  cases a1 with
  | ballot d => exact vote_ballot a0 d a2 hw
  | any d => exact vote_any a0 d a2 hw
  | all d => exact vote_all a0 d a2 hw
  | uni d => exact vote_uni a0 d a2 hw

theorem shfl (a0 : Com) (a1 : Ty) (a2 : ShflMode) (a3 : Dst) (a4 : Src) (a5 : Src) (a6 : Nat) (hw : Instr.wf (.shfl a0 a1 a2 a3 a4 a5 a6) = true) : fld (encode (.shfl a0 a1 a2 a3 a4 a5 a6)) 56 8 = 0x14 ∧ decode (encode (.shfl a0 a1 a2 a3 a4 a5 a6)) = .ok (.shfl a0 a1 a2 a3 a4 a5 a6) := by
  have hwf := hw
  replace hw : (Wf.com false a0 && a1.isBasic && Wf.dst a1.wide a3 && Wf.read a1.wide a4 && Wf.read false a5 && (a6 == 1 || a6 == 2 || a6 == 4 || a6 == 8 || a6 == 16 || a6 == 32)) = true := hw
  simp only [Bool.and_eq_true] at hw
  obtain ⟨⟨⟨⟨⟨h0, h1⟩, h2⟩, h3⟩, h4⟩, h5⟩ := hw
  have qc := Enc.com_ok h0
  have q0 := Enc.dst_ok h2
  have q1 := Enc.src_ok h3
  have q2 := Enc.src_ok h4
  try simp at h1
  have ew : Enc.shflWidth a6 < 512 ∧ Dec.shflWidth (Enc.shflWidth a6) = some a6 := by
    simp at h5
    rcases h5 with ((((h | h) | h) | h) | h) | h <;> subst h <;> decide
  have q3 := Enc.ty_ok a1
  have q4 := Enc.shflMode_ok a2
  rw [show encode (.shfl a0 a1 a2 a3 a4 a5 a6) = Enc.fmtV 0x14 a0 (Enc.dst a3) (Enc.src a4) (Enc.src a5) (Enc.shflWidth a6) (Enc.ty a1) 0 (Enc.shflMode a2) from rfl]
  obtain ⟨f1, f2, f3, f4, f5, f6, f7, f8, f9, f10⟩ := Enc.fmtV_fields 0x14 a0 (Enc.dst a3) (Enc.src a4) (Enc.src a5) (Enc.shflWidth a6) (Enc.ty a1) 0 (Enc.shflMode a2) (by decide) qc (by omega) (by omega) (by omega) (by omega) (by omega) (by omega) (by omega)
  generalize Enc.fmtV 0x14 a0 (Enc.dst a3) (Enc.src a4) (Enc.src a5) (Enc.shflWidth a6) (Enc.ty a1) 0 (Enc.shflMode a2) = w at *
  refine ⟨f1, Enc.decode_of f1 (by decide) f2 ?_ hwf⟩
  unfold Dec.parse
  rw [f1]
  simp [Dec.predicate, Dec.need, f3, f4, f5, f6, f7, f8, f9, f10, Enc.bit00, Enc.bit10, Dec.index, Dec.gindex, Dec.scrRest, Dec.vreg, Enc.kreg_add, Enc.rnd0, Enc.ty1, Enc.ty4, Enc.ty5, q0.2, q1.2, q2.2, q3.2, q4.2, h1, ew.2]

theorem hred (a0 : Com) (a1 : Ty) (a2 : Rnd) (a3 : RedOp) (a4 : Dst) (a5 : Src) (hw : Instr.wf (.hred a0 a1 a2 a3 a4 a5) = true) : fld (encode (.hred a0 a1 a2 a3 a4 a5)) 56 8 = 0x15 ∧ decode (encode (.hred a0 a1 a2 a3 a4 a5)) = .ok (.hred a0 a1 a2 a3 a4 a5) := by
  have hwf := hw
  replace hw : (Wf.com false a0 && Wf.red a1 a2 a3 && Wf.dst a1.wide a4 && Wf.read a1.wide a5) = true := hw
  simp only [Bool.and_eq_true] at hw
  obtain ⟨⟨⟨h0, h1⟩, h2⟩, h3⟩ := hw
  have qc := Enc.com_ok h0
  have q0 := Enc.dst_ok h2
  have q1 := Enc.src_ok h3
  try simp at h1
  have q2 := Enc.ty_ok a1
  have q3 := Enc.rnd_ok a2
  have q4 := Enc.redOp_ok a3
  rw [show encode (.hred a0 a1 a2 a3 a4 a5) = Enc.fmtV 0x15 a0 (Enc.dst a4) (Enc.src a5) 511 511 (Enc.ty a1) (Enc.rnd a2) (Enc.redOp a3) from rfl]
  obtain ⟨f1, f2, f3, f4, f5, f6, f7, f8, f9, f10⟩ := Enc.fmtV_fields 0x15 a0 (Enc.dst a4) (Enc.src a5) 511 511 (Enc.ty a1) (Enc.rnd a2) (Enc.redOp a3) (by decide) qc (by omega) (by omega) (by omega) (by omega) (by omega) (by omega) (by omega)
  generalize Enc.fmtV 0x15 a0 (Enc.dst a4) (Enc.src a5) 511 511 (Enc.ty a1) (Enc.rnd a2) (Enc.redOp a3) = w at *
  refine ⟨f1, Enc.decode_of f1 (by decide) f2 ?_ hwf⟩
  unfold Dec.parse
  rw [f1]
  simp [Dec.predicate, Dec.need, f3, f4, f5, f6, f7, f8, f9, f10, Enc.bit00, Enc.bit10, Dec.index, Dec.gindex, Dec.scrRest, Dec.vreg, Enc.kreg_add, Enc.rnd0, Enc.ty1, Enc.ty4, Enc.ty5, q0.2, q1.2, q2.2, q3.2, q4.2, h1]

theorem hscan (a0 : Com) (a1 : Ty) (a2 : Rnd) (a3 : RedOp) (a4 : Bool) (a5 : Dst) (a6 : Src) (a7 : Option PSrc) (hw : Instr.wf (.hscan a0 a1 a2 a3 a4 a5 a6 a7) = true) : fld (encode (.hscan a0 a1 a2 a3 a4 a5 a6 a7)) 56 8 = 0x16 ∧ decode (encode (.hscan a0 a1 a2 a3 a4 a5 a6 a7)) = .ok (.hscan a0 a1 a2 a3 a4 a5 a6 a7) := by
  have hwf := hw
  replace hw : (Wf.com false a0 && Wf.red a1 a2 a3 && Wf.dst a1.wide a5 && Wf.read a1.wide a6 && Wf.opt Wf.ps a7) = true := hw
  simp only [Bool.and_eq_true] at hw
  obtain ⟨⟨⟨⟨h0, h1⟩, h2⟩, h3⟩, h4⟩ := hw
  have qc := Enc.com_ok h0
  have q0 := Enc.dst_ok h2
  have q1 := Enc.src_ok h3
  have q2 := Enc.psOpt_ok h4
  try simp at h1
  have q3 := Enc.ty_ok a1
  have q4 := Enc.rnd_ok a2
  have q5 := Enc.redOp_ok a3
  have q6 := Enc.flag1_ok a4
  rw [show encode (.hscan a0 a1 a2 a3 a4 a5 a6 a7) = Enc.fmtV 0x16 a0 (Enc.dst a5) (Enc.src a6) (Enc.psOpt a7) 511 (Enc.ty a1) (Enc.rnd a2) (Enc.redOp a3 + 8 * b2n a4) from rfl]
  obtain ⟨f1, f2, f3, f4, f5, f6, f7, f8, f9, f10⟩ := Enc.fmtV_fields 0x16 a0 (Enc.dst a5) (Enc.src a6) (Enc.psOpt a7) 511 (Enc.ty a1) (Enc.rnd a2) (Enc.redOp a3 + 8 * b2n a4) (by decide) qc (by omega) (by omega) (by omega) (by omega) (by omega) (by omega) (by omega)
  generalize Enc.fmtV 0x16 a0 (Enc.dst a5) (Enc.src a6) (Enc.psOpt a7) 511 (Enc.ty a1) (Enc.rnd a2) (Enc.redOp a3 + 8 * b2n a4) = w at *
  refine ⟨f1, Enc.decode_of f1 (by decide) f2 ?_ hwf⟩
  have g0 : Enc.redOp a3 + 8 * b2n a4 < 16 := by cases a3 <;> cases a4 <;> decide
  have g1 : Enc.redOp a3 % 8 = Enc.redOp a3 := by cases a3 <;> decide
  have g2 : decide (8 ≤ Enc.redOp a3 + 8 * b2n a4) = a4 := by cases a3 <;> cases a4 <;> decide
  unfold Dec.parse
  rw [f1]
  simp [Dec.predicate, Dec.need, f3, f4, f5, f6, f7, f8, f9, f10, Enc.bit00, Enc.bit10, Dec.index, Dec.gindex, Dec.scrRest, Dec.vreg, Enc.kreg_add, Enc.rnd0, Enc.ty1, Enc.ty4, Enc.ty5, q0.2, q1.2, q2.2, q3.2, q4.2, q5.2, q6.2, h1, g0, g1, g2]

theorem matchv (a0 : Com) (a1 : Ty) (a2 : Dst) (a3 : Src) (hw : Instr.wf (.matchv a0 a1 a2 a3) = true) : fld (encode (.matchv a0 a1 a2 a3)) 56 8 = 0x17 ∧ decode (encode (.matchv a0 a1 a2 a3)) = .ok (.matchv a0 a1 a2 a3) := by
  have hwf := hw
  replace hw : (Wf.com false a0 && a1.isBasic && Wf.dst false a2 && Wf.read a1.wide a3) = true := hw
  simp only [Bool.and_eq_true] at hw
  obtain ⟨⟨⟨h0, h1⟩, h2⟩, h3⟩ := hw
  have qc := Enc.com_ok h0
  have q0 := Enc.dst_ok h2
  have q1 := Enc.src_ok h3
  try simp at h1
  have q2 := Enc.ty_ok a1
  rw [show encode (.matchv a0 a1 a2 a3) = Enc.fmtV 0x17 a0 (Enc.dst a2) (Enc.src a3) 511 511 (Enc.ty a1) 0 0 from rfl]
  obtain ⟨f1, f2, f3, f4, f5, f6, f7, f8, f9, f10⟩ := Enc.fmtV_fields 0x17 a0 (Enc.dst a2) (Enc.src a3) 511 511 (Enc.ty a1) 0 0 (by decide) qc (by omega) (by omega) (by omega) (by omega) (by omega) (by omega) (by omega)
  generalize Enc.fmtV 0x17 a0 (Enc.dst a2) (Enc.src a3) 511 511 (Enc.ty a1) 0 0 = w at *
  refine ⟨f1, Enc.decode_of f1 (by decide) f2 ?_ hwf⟩
  unfold Dec.parse
  rw [f1]
  simp [Dec.predicate, Dec.need, f3, f4, f5, f6, f7, f8, f9, f10, Enc.bit00, Enc.bit10, Dec.index, Dec.gindex, Dec.scrRest, Dec.vreg, Enc.kreg_add, Enc.rnd0, Enc.ty1, Enc.ty4, Enc.ty5, q0.2, q1.2, q2.2, h1]

theorem iadd (a0 : Com) (a1 : Ty) (a2 : Bool) (a3 : Dst) (a4 : Src) (a5 : Src) (hw : Instr.wf (.iadd a0 a1 a2 a3 a4 a5) = true) : fld (encode (.iadd a0 a1 a2 a3 a4 a5)) 56 8 = 0x20 ∧ decode (encode (.iadd a0 a1 a2 a3 a4 a5)) = .ok (.iadd a0 a1 a2 a3 a4 a5) := by
  have hwf := hw
  replace hw : (Wf.com false a0 && a1.isInt && Wf.dst a1.wide a3 && Wf.read a1.wide a4 && Wf.read a1.wide a5) = true := hw
  simp only [Bool.and_eq_true] at hw
  obtain ⟨⟨⟨⟨h0, h1⟩, h2⟩, h3⟩, h4⟩ := hw
  have qc := Enc.com_ok h0
  have q0 := Enc.dst_ok h2
  have q1 := Enc.src_ok h3
  have q2 := Enc.src_ok h4
  try simp at h1
  have q3 := Enc.ty_ok a1
  have q4 := Enc.flag1_ok a2
  rw [show encode (.iadd a0 a1 a2 a3 a4 a5) = Enc.fmtV 0x20 a0 (Enc.dst a3) (Enc.src a4) (Enc.src a5) 511 (Enc.ty a1) 0 (b2n a2) from rfl]
  obtain ⟨f1, f2, f3, f4, f5, f6, f7, f8, f9, f10⟩ := Enc.fmtV_fields 0x20 a0 (Enc.dst a3) (Enc.src a4) (Enc.src a5) 511 (Enc.ty a1) 0 (b2n a2) (by decide) qc (by omega) (by omega) (by omega) (by omega) (by omega) (by omega) (by omega)
  generalize Enc.fmtV 0x20 a0 (Enc.dst a3) (Enc.src a4) (Enc.src a5) 511 (Enc.ty a1) 0 (b2n a2) = w at *
  refine ⟨f1, Enc.decode_of f1 (by decide) f2 ?_ hwf⟩
  unfold Dec.parse
  rw [f1]
  simp [Dec.integer, Dec.need, f3, f4, f5, f6, f7, f8, f9, f10, Enc.bit00, Enc.bit10, Dec.index, Dec.gindex, Dec.scrRest, Dec.vreg, Enc.kreg_add, Enc.rnd0, Enc.ty1, Enc.ty4, Enc.ty5, q0.2, q1.2, q2.2, q3.2, q4.2, h1]

theorem isub (a0 : Com) (a1 : Ty) (a2 : Bool) (a3 : Dst) (a4 : Src) (a5 : Src) (hw : Instr.wf (.isub a0 a1 a2 a3 a4 a5) = true) : fld (encode (.isub a0 a1 a2 a3 a4 a5)) 56 8 = 0x21 ∧ decode (encode (.isub a0 a1 a2 a3 a4 a5)) = .ok (.isub a0 a1 a2 a3 a4 a5) := by
  have hwf := hw
  replace hw : (Wf.com false a0 && a1.isInt && Wf.dst a1.wide a3 && Wf.read a1.wide a4 && Wf.read a1.wide a5) = true := hw
  simp only [Bool.and_eq_true] at hw
  obtain ⟨⟨⟨⟨h0, h1⟩, h2⟩, h3⟩, h4⟩ := hw
  have qc := Enc.com_ok h0
  have q0 := Enc.dst_ok h2
  have q1 := Enc.src_ok h3
  have q2 := Enc.src_ok h4
  try simp at h1
  have q3 := Enc.ty_ok a1
  have q4 := Enc.flag1_ok a2
  rw [show encode (.isub a0 a1 a2 a3 a4 a5) = Enc.fmtV 0x21 a0 (Enc.dst a3) (Enc.src a4) (Enc.src a5) 511 (Enc.ty a1) 0 (b2n a2) from rfl]
  obtain ⟨f1, f2, f3, f4, f5, f6, f7, f8, f9, f10⟩ := Enc.fmtV_fields 0x21 a0 (Enc.dst a3) (Enc.src a4) (Enc.src a5) 511 (Enc.ty a1) 0 (b2n a2) (by decide) qc (by omega) (by omega) (by omega) (by omega) (by omega) (by omega) (by omega)
  generalize Enc.fmtV 0x21 a0 (Enc.dst a3) (Enc.src a4) (Enc.src a5) 511 (Enc.ty a1) 0 (b2n a2) = w at *
  refine ⟨f1, Enc.decode_of f1 (by decide) f2 ?_ hwf⟩
  unfold Dec.parse
  rw [f1]
  simp [Dec.integer, Dec.need, f3, f4, f5, f6, f7, f8, f9, f10, Enc.bit00, Enc.bit10, Dec.index, Dec.gindex, Dec.scrRest, Dec.vreg, Enc.kreg_add, Enc.rnd0, Enc.ty1, Enc.ty4, Enc.ty5, q0.2, q1.2, q2.2, q3.2, q4.2, h1]

theorem imul (a0 : Com) (a1 : Ty) (a2 : MulMode) (a3 : Dst) (a4 : Src) (a5 : Src) (hw : Instr.wf (.imul a0 a1 a2 a3 a4 a5) = true) : fld (encode (.imul a0 a1 a2 a3 a4 a5)) 56 8 = 0x22 ∧ decode (encode (.imul a0 a1 a2 a3 a4 a5)) = .ok (.imul a0 a1 a2 a3 a4 a5) := by
  have hwf := hw
  replace hw : (Wf.com false a0 && a1.isInt && (a2 ≠ .wide || !a1.wide) && Wf.dst (a1.wide || a2 = .wide) a3 && Wf.read a1.wide a4 && Wf.read a1.wide a5) = true := hw
  simp only [Bool.and_eq_true] at hw
  obtain ⟨⟨⟨⟨⟨h0, h1⟩, h2⟩, h3⟩, h4⟩, h5⟩ := hw
  have qc := Enc.com_ok h0
  have q0 := Enc.dst_ok h3
  have q1 := Enc.src_ok h4
  have q2 := Enc.src_ok h5
  try simp at h1
  try simp at h2
  have q3 := Enc.ty_ok a1
  have q4 := Enc.mulMode_ok a2
  rw [show encode (.imul a0 a1 a2 a3 a4 a5) = Enc.fmtV 0x22 a0 (Enc.dst a3) (Enc.src a4) (Enc.src a5) 511 (Enc.ty a1) 0 (Enc.mulMode a2) from rfl]
  obtain ⟨f1, f2, f3, f4, f5, f6, f7, f8, f9, f10⟩ := Enc.fmtV_fields 0x22 a0 (Enc.dst a3) (Enc.src a4) (Enc.src a5) 511 (Enc.ty a1) 0 (Enc.mulMode a2) (by decide) qc (by omega) (by omega) (by omega) (by omega) (by omega) (by omega) (by omega)
  generalize Enc.fmtV 0x22 a0 (Enc.dst a3) (Enc.src a4) (Enc.src a5) 511 (Enc.ty a1) 0 (Enc.mulMode a2) = w at *
  refine ⟨f1, Enc.decode_of f1 (by decide) f2 ?_ hwf⟩
  unfold Dec.parse
  rw [f1]
  simp [Dec.integer, Dec.need, f3, f4, f5, f6, f7, f8, f9, f10, Enc.bit00, Enc.bit10, Dec.index, Dec.gindex, Dec.scrRest, Dec.vreg, Enc.kreg_add, Enc.rnd0, Enc.ty1, Enc.ty4, Enc.ty5, q0.2, q1.2, q2.2, q3.2, q4.2, h1, h2]

theorem imad (a0 : Com) (a1 : Ty) (a2 : Bool) (a3 : Dst) (a4 : Src) (a5 : Src) (a6 : Src) (hw : Instr.wf (.imad a0 a1 a2 a3 a4 a5 a6) = true) : fld (encode (.imad a0 a1 a2 a3 a4 a5 a6)) 56 8 = 0x23 ∧ decode (encode (.imad a0 a1 a2 a3 a4 a5 a6)) = .ok (.imad a0 a1 a2 a3 a4 a5 a6) := by
  have hwf := hw
  replace hw : (Wf.com false a0 && a1.isInt && (!a2 || !a1.wide) && Wf.dst (a1.wide || a2) a3 && Wf.read a1.wide a4 && Wf.read a1.wide a5 && Wf.read (a1.wide || a2) a6) = true := hw
  simp only [Bool.and_eq_true] at hw
  obtain ⟨⟨⟨⟨⟨⟨h0, h1⟩, h2⟩, h3⟩, h4⟩, h5⟩, h6⟩ := hw
  have qc := Enc.com_ok h0
  have q0 := Enc.dst_ok h3
  have q1 := Enc.src_ok h4
  have q2 := Enc.src_ok h5
  have q3 := Enc.src_ok h6
  try simp at h1
  try simp at h2
  have q4 := Enc.ty_ok a1
  have q5 := Enc.flag1_ok a2
  rw [show encode (.imad a0 a1 a2 a3 a4 a5 a6) = Enc.fmtV 0x23 a0 (Enc.dst a3) (Enc.src a4) (Enc.src a5) (Enc.src a6) (Enc.ty a1) 0 (b2n a2) from rfl]
  obtain ⟨f1, f2, f3, f4, f5, f6, f7, f8, f9, f10⟩ := Enc.fmtV_fields 0x23 a0 (Enc.dst a3) (Enc.src a4) (Enc.src a5) (Enc.src a6) (Enc.ty a1) 0 (b2n a2) (by decide) qc (by omega) (by omega) (by omega) (by omega) (by omega) (by omega) (by omega)
  generalize Enc.fmtV 0x23 a0 (Enc.dst a3) (Enc.src a4) (Enc.src a5) (Enc.src a6) (Enc.ty a1) 0 (b2n a2) = w at *
  refine ⟨f1, Enc.decode_of f1 (by decide) f2 ?_ hwf⟩
  unfold Dec.parse
  rw [f1]
  simp [Dec.integer, Dec.need, f3, f4, f5, f6, f7, f8, f9, f10, Enc.bit00, Enc.bit10, Dec.index, Dec.gindex, Dec.scrRest, Dec.vreg, Enc.kreg_add, Enc.rnd0, Enc.ty1, Enc.ty4, Enc.ty5, q0.2, q1.2, q2.2, q3.2, q4.2, q5.2, h1, h2]

theorem idiv (a0 : Com) (a1 : Ty) (a2 : Bool) (a3 : Dst) (a4 : Src) (a5 : Src) (hw : Instr.wf (.idiv a0 a1 a2 a3 a4 a5) = true) : fld (encode (.idiv a0 a1 a2 a3 a4 a5)) 56 8 = 0x24 ∧ decode (encode (.idiv a0 a1 a2 a3 a4 a5)) = .ok (.idiv a0 a1 a2 a3 a4 a5) := by
  have hwf := hw
  replace hw : (Wf.com false a0 && a1.isInt && Wf.dst a1.wide a3 && Wf.read a1.wide a4 && Wf.read a1.wide a5) = true := hw
  simp only [Bool.and_eq_true] at hw
  obtain ⟨⟨⟨⟨h0, h1⟩, h2⟩, h3⟩, h4⟩ := hw
  have qc := Enc.com_ok h0
  have q0 := Enc.dst_ok h2
  have q1 := Enc.src_ok h3
  have q2 := Enc.src_ok h4
  try simp at h1
  have q3 := Enc.ty_ok a1
  have q4 := Enc.flag1_ok a2
  rw [show encode (.idiv a0 a1 a2 a3 a4 a5) = Enc.fmtV 0x24 a0 (Enc.dst a3) (Enc.src a4) (Enc.src a5) 511 (Enc.ty a1) 0 (b2n a2) from rfl]
  obtain ⟨f1, f2, f3, f4, f5, f6, f7, f8, f9, f10⟩ := Enc.fmtV_fields 0x24 a0 (Enc.dst a3) (Enc.src a4) (Enc.src a5) 511 (Enc.ty a1) 0 (b2n a2) (by decide) qc (by omega) (by omega) (by omega) (by omega) (by omega) (by omega) (by omega)
  generalize Enc.fmtV 0x24 a0 (Enc.dst a3) (Enc.src a4) (Enc.src a5) 511 (Enc.ty a1) 0 (b2n a2) = w at *
  refine ⟨f1, Enc.decode_of f1 (by decide) f2 ?_ hwf⟩
  unfold Dec.parse
  rw [f1]
  simp [Dec.integer, Dec.need, f3, f4, f5, f6, f7, f8, f9, f10, Enc.bit00, Enc.bit10, Dec.index, Dec.gindex, Dec.scrRest, Dec.vreg, Enc.kreg_add, Enc.rnd0, Enc.ty1, Enc.ty4, Enc.ty5, q0.2, q1.2, q2.2, q3.2, q4.2, h1]

theorem imin (a0 : Com) (a1 : Ty) (a2 : Dst) (a3 : Src) (a4 : Src) (hw : Instr.wf (.imin a0 a1 a2 a3 a4) = true) : fld (encode (.imin a0 a1 a2 a3 a4)) 56 8 = 0x25 ∧ decode (encode (.imin a0 a1 a2 a3 a4)) = .ok (.imin a0 a1 a2 a3 a4) := by
  have hwf := hw
  replace hw : (Wf.com false a0 && a1.isInt && Wf.dst a1.wide a2 && Wf.read a1.wide a3 && Wf.read a1.wide a4) = true := hw
  simp only [Bool.and_eq_true] at hw
  obtain ⟨⟨⟨⟨h0, h1⟩, h2⟩, h3⟩, h4⟩ := hw
  have qc := Enc.com_ok h0
  have q0 := Enc.dst_ok h2
  have q1 := Enc.src_ok h3
  have q2 := Enc.src_ok h4
  try simp at h1
  have q3 := Enc.ty_ok a1
  rw [show encode (.imin a0 a1 a2 a3 a4) = Enc.fmtV 0x25 a0 (Enc.dst a2) (Enc.src a3) (Enc.src a4) 511 (Enc.ty a1) 0 0 from rfl]
  obtain ⟨f1, f2, f3, f4, f5, f6, f7, f8, f9, f10⟩ := Enc.fmtV_fields 0x25 a0 (Enc.dst a2) (Enc.src a3) (Enc.src a4) 511 (Enc.ty a1) 0 0 (by decide) qc (by omega) (by omega) (by omega) (by omega) (by omega) (by omega) (by omega)
  generalize Enc.fmtV 0x25 a0 (Enc.dst a2) (Enc.src a3) (Enc.src a4) 511 (Enc.ty a1) 0 0 = w at *
  refine ⟨f1, Enc.decode_of f1 (by decide) f2 ?_ hwf⟩
  unfold Dec.parse
  rw [f1]
  simp [Dec.integer, Dec.need, f3, f4, f5, f6, f7, f8, f9, f10, Enc.bit00, Enc.bit10, Dec.index, Dec.gindex, Dec.scrRest, Dec.vreg, Enc.kreg_add, Enc.rnd0, Enc.ty1, Enc.ty4, Enc.ty5, q0.2, q1.2, q2.2, q3.2, h1]

theorem imax (a0 : Com) (a1 : Ty) (a2 : Dst) (a3 : Src) (a4 : Src) (hw : Instr.wf (.imax a0 a1 a2 a3 a4) = true) : fld (encode (.imax a0 a1 a2 a3 a4)) 56 8 = 0x26 ∧ decode (encode (.imax a0 a1 a2 a3 a4)) = .ok (.imax a0 a1 a2 a3 a4) := by
  have hwf := hw
  replace hw : (Wf.com false a0 && a1.isInt && Wf.dst a1.wide a2 && Wf.read a1.wide a3 && Wf.read a1.wide a4) = true := hw
  simp only [Bool.and_eq_true] at hw
  obtain ⟨⟨⟨⟨h0, h1⟩, h2⟩, h3⟩, h4⟩ := hw
  have qc := Enc.com_ok h0
  have q0 := Enc.dst_ok h2
  have q1 := Enc.src_ok h3
  have q2 := Enc.src_ok h4
  try simp at h1
  have q3 := Enc.ty_ok a1
  rw [show encode (.imax a0 a1 a2 a3 a4) = Enc.fmtV 0x26 a0 (Enc.dst a2) (Enc.src a3) (Enc.src a4) 511 (Enc.ty a1) 0 0 from rfl]
  obtain ⟨f1, f2, f3, f4, f5, f6, f7, f8, f9, f10⟩ := Enc.fmtV_fields 0x26 a0 (Enc.dst a2) (Enc.src a3) (Enc.src a4) 511 (Enc.ty a1) 0 0 (by decide) qc (by omega) (by omega) (by omega) (by omega) (by omega) (by omega) (by omega)
  generalize Enc.fmtV 0x26 a0 (Enc.dst a2) (Enc.src a3) (Enc.src a4) 511 (Enc.ty a1) 0 0 = w at *
  refine ⟨f1, Enc.decode_of f1 (by decide) f2 ?_ hwf⟩
  unfold Dec.parse
  rw [f1]
  simp [Dec.integer, Dec.need, f3, f4, f5, f6, f7, f8, f9, f10, Enc.bit00, Enc.bit10, Dec.index, Dec.gindex, Dec.scrRest, Dec.vreg, Enc.kreg_add, Enc.rnd0, Enc.ty1, Enc.ty4, Enc.ty5, q0.2, q1.2, q2.2, q3.2, h1]

theorem iabs (a0 : Com) (a1 : Ty) (a2 : Bool) (a3 : Dst) (a4 : Src) (hw : Instr.wf (.iabs a0 a1 a2 a3 a4) = true) : fld (encode (.iabs a0 a1 a2 a3 a4)) 56 8 = 0x27 ∧ decode (encode (.iabs a0 a1 a2 a3 a4)) = .ok (.iabs a0 a1 a2 a3 a4) := by
  have hwf := hw
  replace hw : (Wf.com false a0 && a1.signed && Wf.dst a1.wide a3 && Wf.read a1.wide a4) = true := hw
  simp only [Bool.and_eq_true] at hw
  obtain ⟨⟨⟨h0, h1⟩, h2⟩, h3⟩ := hw
  have qc := Enc.com_ok h0
  have q0 := Enc.dst_ok h2
  have q1 := Enc.src_ok h3
  try simp at h1
  have q2 := Enc.ty_ok a1
  have q3 := Enc.flag1_ok a2
  rw [show encode (.iabs a0 a1 a2 a3 a4) = Enc.fmtV 0x27 a0 (Enc.dst a3) (Enc.src a4) 511 511 (Enc.ty a1) 0 (b2n a2) from rfl]
  obtain ⟨f1, f2, f3, f4, f5, f6, f7, f8, f9, f10⟩ := Enc.fmtV_fields 0x27 a0 (Enc.dst a3) (Enc.src a4) 511 511 (Enc.ty a1) 0 (b2n a2) (by decide) qc (by omega) (by omega) (by omega) (by omega) (by omega) (by omega) (by omega)
  generalize Enc.fmtV 0x27 a0 (Enc.dst a3) (Enc.src a4) 511 511 (Enc.ty a1) 0 (b2n a2) = w at *
  refine ⟨f1, Enc.decode_of f1 (by decide) f2 ?_ hwf⟩
  unfold Dec.parse
  rw [f1]
  simp [Dec.integer, Dec.need, f3, f4, f5, f6, f7, f8, f9, f10, Enc.bit00, Enc.bit10, Dec.index, Dec.gindex, Dec.scrRest, Dec.vreg, Enc.kreg_add, Enc.rnd0, Enc.ty1, Enc.ty4, Enc.ty5, q0.2, q1.2, q2.2, q3.2, h1]

theorem and (a0 : Com) (a1 : Ty) (a2 : Dst) (a3 : Src) (a4 : Src) (hw : Instr.wf (.and a0 a1 a2 a3 a4) = true) : fld (encode (.and a0 a1 a2 a3 a4)) 56 8 = 0x28 ∧ decode (encode (.and a0 a1 a2 a3 a4)) = .ok (.and a0 a1 a2 a3 a4) := by
  have hwf := hw
  replace hw : (Wf.com false a0 && a1.isInt && Wf.dst a1.wide a2 && Wf.read a1.wide a3 && Wf.read a1.wide a4) = true := hw
  simp only [Bool.and_eq_true] at hw
  obtain ⟨⟨⟨⟨h0, h1⟩, h2⟩, h3⟩, h4⟩ := hw
  have qc := Enc.com_ok h0
  have q0 := Enc.dst_ok h2
  have q1 := Enc.src_ok h3
  have q2 := Enc.src_ok h4
  try simp at h1
  have q3 := Enc.ty_ok a1
  rw [show encode (.and a0 a1 a2 a3 a4) = Enc.fmtV 0x28 a0 (Enc.dst a2) (Enc.src a3) (Enc.src a4) 511 (Enc.ty a1) 0 0 from rfl]
  obtain ⟨f1, f2, f3, f4, f5, f6, f7, f8, f9, f10⟩ := Enc.fmtV_fields 0x28 a0 (Enc.dst a2) (Enc.src a3) (Enc.src a4) 511 (Enc.ty a1) 0 0 (by decide) qc (by omega) (by omega) (by omega) (by omega) (by omega) (by omega) (by omega)
  generalize Enc.fmtV 0x28 a0 (Enc.dst a2) (Enc.src a3) (Enc.src a4) 511 (Enc.ty a1) 0 0 = w at *
  refine ⟨f1, Enc.decode_of f1 (by decide) f2 ?_ hwf⟩
  unfold Dec.parse
  rw [f1]
  simp [Dec.integer, Dec.need, f3, f4, f5, f6, f7, f8, f9, f10, Enc.bit00, Enc.bit10, Dec.index, Dec.gindex, Dec.scrRest, Dec.vreg, Enc.kreg_add, Enc.rnd0, Enc.ty1, Enc.ty4, Enc.ty5, q0.2, q1.2, q2.2, q3.2, h1]

theorem or (a0 : Com) (a1 : Ty) (a2 : Dst) (a3 : Src) (a4 : Src) (hw : Instr.wf (.or a0 a1 a2 a3 a4) = true) : fld (encode (.or a0 a1 a2 a3 a4)) 56 8 = 0x29 ∧ decode (encode (.or a0 a1 a2 a3 a4)) = .ok (.or a0 a1 a2 a3 a4) := by
  have hwf := hw
  replace hw : (Wf.com false a0 && a1.isInt && Wf.dst a1.wide a2 && Wf.read a1.wide a3 && Wf.read a1.wide a4) = true := hw
  simp only [Bool.and_eq_true] at hw
  obtain ⟨⟨⟨⟨h0, h1⟩, h2⟩, h3⟩, h4⟩ := hw
  have qc := Enc.com_ok h0
  have q0 := Enc.dst_ok h2
  have q1 := Enc.src_ok h3
  have q2 := Enc.src_ok h4
  try simp at h1
  have q3 := Enc.ty_ok a1
  rw [show encode (.or a0 a1 a2 a3 a4) = Enc.fmtV 0x29 a0 (Enc.dst a2) (Enc.src a3) (Enc.src a4) 511 (Enc.ty a1) 0 0 from rfl]
  obtain ⟨f1, f2, f3, f4, f5, f6, f7, f8, f9, f10⟩ := Enc.fmtV_fields 0x29 a0 (Enc.dst a2) (Enc.src a3) (Enc.src a4) 511 (Enc.ty a1) 0 0 (by decide) qc (by omega) (by omega) (by omega) (by omega) (by omega) (by omega) (by omega)
  generalize Enc.fmtV 0x29 a0 (Enc.dst a2) (Enc.src a3) (Enc.src a4) 511 (Enc.ty a1) 0 0 = w at *
  refine ⟨f1, Enc.decode_of f1 (by decide) f2 ?_ hwf⟩
  unfold Dec.parse
  rw [f1]
  simp [Dec.integer, Dec.need, f3, f4, f5, f6, f7, f8, f9, f10, Enc.bit00, Enc.bit10, Dec.index, Dec.gindex, Dec.scrRest, Dec.vreg, Enc.kreg_add, Enc.rnd0, Enc.ty1, Enc.ty4, Enc.ty5, q0.2, q1.2, q2.2, q3.2, h1]

theorem xor (a0 : Com) (a1 : Ty) (a2 : Dst) (a3 : Src) (a4 : Src) (hw : Instr.wf (.xor a0 a1 a2 a3 a4) = true) : fld (encode (.xor a0 a1 a2 a3 a4)) 56 8 = 0x2A ∧ decode (encode (.xor a0 a1 a2 a3 a4)) = .ok (.xor a0 a1 a2 a3 a4) := by
  have hwf := hw
  replace hw : (Wf.com false a0 && a1.isInt && Wf.dst a1.wide a2 && Wf.read a1.wide a3 && Wf.read a1.wide a4) = true := hw
  simp only [Bool.and_eq_true] at hw
  obtain ⟨⟨⟨⟨h0, h1⟩, h2⟩, h3⟩, h4⟩ := hw
  have qc := Enc.com_ok h0
  have q0 := Enc.dst_ok h2
  have q1 := Enc.src_ok h3
  have q2 := Enc.src_ok h4
  try simp at h1
  have q3 := Enc.ty_ok a1
  rw [show encode (.xor a0 a1 a2 a3 a4) = Enc.fmtV 0x2A a0 (Enc.dst a2) (Enc.src a3) (Enc.src a4) 511 (Enc.ty a1) 0 0 from rfl]
  obtain ⟨f1, f2, f3, f4, f5, f6, f7, f8, f9, f10⟩ := Enc.fmtV_fields 0x2A a0 (Enc.dst a2) (Enc.src a3) (Enc.src a4) 511 (Enc.ty a1) 0 0 (by decide) qc (by omega) (by omega) (by omega) (by omega) (by omega) (by omega) (by omega)
  generalize Enc.fmtV 0x2A a0 (Enc.dst a2) (Enc.src a3) (Enc.src a4) 511 (Enc.ty a1) 0 0 = w at *
  refine ⟨f1, Enc.decode_of f1 (by decide) f2 ?_ hwf⟩
  unfold Dec.parse
  rw [f1]
  simp [Dec.integer, Dec.need, f3, f4, f5, f6, f7, f8, f9, f10, Enc.bit00, Enc.bit10, Dec.index, Dec.gindex, Dec.scrRest, Dec.vreg, Enc.kreg_add, Enc.rnd0, Enc.ty1, Enc.ty4, Enc.ty5, q0.2, q1.2, q2.2, q3.2, h1]

theorem shl (a0 : Com) (a1 : Ty) (a2 : Bool) (a3 : Dst) (a4 : Src) (a5 : Src) (hw : Instr.wf (.shl a0 a1 a2 a3 a4 a5) = true) : fld (encode (.shl a0 a1 a2 a3 a4 a5)) 56 8 = 0x2B ∧ decode (encode (.shl a0 a1 a2 a3 a4 a5)) = .ok (.shl a0 a1 a2 a3 a4 a5) := by
  have hwf := hw
  replace hw : (Wf.com false a0 && a1.isInt && Wf.dst a1.wide a3 && Wf.read a1.wide a4 && Wf.read false a5) = true := hw
  simp only [Bool.and_eq_true] at hw
  obtain ⟨⟨⟨⟨h0, h1⟩, h2⟩, h3⟩, h4⟩ := hw
  have qc := Enc.com_ok h0
  have q0 := Enc.dst_ok h2
  have q1 := Enc.src_ok h3
  have q2 := Enc.src_ok h4
  try simp at h1
  have q3 := Enc.ty_ok a1
  have q4 := Enc.flag1_ok a2
  rw [show encode (.shl a0 a1 a2 a3 a4 a5) = Enc.fmtV 0x2B a0 (Enc.dst a3) (Enc.src a4) (Enc.src a5) 511 (Enc.ty a1) 0 (b2n a2) from rfl]
  obtain ⟨f1, f2, f3, f4, f5, f6, f7, f8, f9, f10⟩ := Enc.fmtV_fields 0x2B a0 (Enc.dst a3) (Enc.src a4) (Enc.src a5) 511 (Enc.ty a1) 0 (b2n a2) (by decide) qc (by omega) (by omega) (by omega) (by omega) (by omega) (by omega) (by omega)
  generalize Enc.fmtV 0x2B a0 (Enc.dst a3) (Enc.src a4) (Enc.src a5) 511 (Enc.ty a1) 0 (b2n a2) = w at *
  refine ⟨f1, Enc.decode_of f1 (by decide) f2 ?_ hwf⟩
  unfold Dec.parse
  rw [f1]
  simp [Dec.integer, Dec.need, f3, f4, f5, f6, f7, f8, f9, f10, Enc.bit00, Enc.bit10, Dec.index, Dec.gindex, Dec.scrRest, Dec.vreg, Enc.kreg_add, Enc.rnd0, Enc.ty1, Enc.ty4, Enc.ty5, q0.2, q1.2, q2.2, q3.2, q4.2, h1]

theorem shr (a0 : Com) (a1 : Ty) (a2 : Bool) (a3 : Dst) (a4 : Src) (a5 : Src) (hw : Instr.wf (.shr a0 a1 a2 a3 a4 a5) = true) : fld (encode (.shr a0 a1 a2 a3 a4 a5)) 56 8 = 0x2C ∧ decode (encode (.shr a0 a1 a2 a3 a4 a5)) = .ok (.shr a0 a1 a2 a3 a4 a5) := by
  have hwf := hw
  replace hw : (Wf.com false a0 && a1.isInt && Wf.dst a1.wide a3 && Wf.read a1.wide a4 && Wf.read false a5) = true := hw
  simp only [Bool.and_eq_true] at hw
  obtain ⟨⟨⟨⟨h0, h1⟩, h2⟩, h3⟩, h4⟩ := hw
  have qc := Enc.com_ok h0
  have q0 := Enc.dst_ok h2
  have q1 := Enc.src_ok h3
  have q2 := Enc.src_ok h4
  try simp at h1
  have q3 := Enc.ty_ok a1
  have q4 := Enc.flag1_ok a2
  rw [show encode (.shr a0 a1 a2 a3 a4 a5) = Enc.fmtV 0x2C a0 (Enc.dst a3) (Enc.src a4) (Enc.src a5) 511 (Enc.ty a1) 0 (b2n a2) from rfl]
  obtain ⟨f1, f2, f3, f4, f5, f6, f7, f8, f9, f10⟩ := Enc.fmtV_fields 0x2C a0 (Enc.dst a3) (Enc.src a4) (Enc.src a5) 511 (Enc.ty a1) 0 (b2n a2) (by decide) qc (by omega) (by omega) (by omega) (by omega) (by omega) (by omega) (by omega)
  generalize Enc.fmtV 0x2C a0 (Enc.dst a3) (Enc.src a4) (Enc.src a5) 511 (Enc.ty a1) 0 (b2n a2) = w at *
  refine ⟨f1, Enc.decode_of f1 (by decide) f2 ?_ hwf⟩
  unfold Dec.parse
  rw [f1]
  simp [Dec.integer, Dec.need, f3, f4, f5, f6, f7, f8, f9, f10, Enc.bit00, Enc.bit10, Dec.index, Dec.gindex, Dec.scrRest, Dec.vreg, Enc.kreg_add, Enc.rnd0, Enc.ty1, Enc.ty4, Enc.ty5, q0.2, q1.2, q2.2, q3.2, q4.2, h1]

theorem bfx (a0 : Com) (a1 : Ty) (a2 : Dst) (a3 : Src) (a4 : Src) (hw : Instr.wf (.bfx a0 a1 a2 a3 a4) = true) : fld (encode (.bfx a0 a1 a2 a3 a4)) 56 8 = 0x2D ∧ decode (encode (.bfx a0 a1 a2 a3 a4)) = .ok (.bfx a0 a1 a2 a3 a4) := by
  have hwf := hw
  replace hw : (Wf.com false a0 && a1.isInt && Wf.dst a1.wide a2 && Wf.read a1.wide a3 && Wf.read false a4) = true := hw
  simp only [Bool.and_eq_true] at hw
  obtain ⟨⟨⟨⟨h0, h1⟩, h2⟩, h3⟩, h4⟩ := hw
  have qc := Enc.com_ok h0
  have q0 := Enc.dst_ok h2
  have q1 := Enc.src_ok h3
  have q2 := Enc.src_ok h4
  try simp at h1
  have q3 := Enc.ty_ok a1
  rw [show encode (.bfx a0 a1 a2 a3 a4) = Enc.fmtV 0x2D a0 (Enc.dst a2) (Enc.src a3) (Enc.src a4) 511 (Enc.ty a1) 0 0 from rfl]
  obtain ⟨f1, f2, f3, f4, f5, f6, f7, f8, f9, f10⟩ := Enc.fmtV_fields 0x2D a0 (Enc.dst a2) (Enc.src a3) (Enc.src a4) 511 (Enc.ty a1) 0 0 (by decide) qc (by omega) (by omega) (by omega) (by omega) (by omega) (by omega) (by omega)
  generalize Enc.fmtV 0x2D a0 (Enc.dst a2) (Enc.src a3) (Enc.src a4) 511 (Enc.ty a1) 0 0 = w at *
  refine ⟨f1, Enc.decode_of f1 (by decide) f2 ?_ hwf⟩
  unfold Dec.parse
  rw [f1]
  simp [Dec.integer, Dec.need, f3, f4, f5, f6, f7, f8, f9, f10, Enc.bit00, Enc.bit10, Dec.index, Dec.gindex, Dec.scrRest, Dec.vreg, Enc.kreg_add, Enc.rnd0, Enc.ty1, Enc.ty4, Enc.ty5, q0.2, q1.2, q2.2, q3.2, h1]

theorem bfi (a0 : Com) (a1 : Ty) (a2 : Dst) (a3 : Src) (a4 : Src) (a5 : Src) (hw : Instr.wf (.bfi a0 a1 a2 a3 a4 a5) = true) : fld (encode (.bfi a0 a1 a2 a3 a4 a5)) 56 8 = 0x2E ∧ decode (encode (.bfi a0 a1 a2 a3 a4 a5)) = .ok (.bfi a0 a1 a2 a3 a4 a5) := by
  have hwf := hw
  replace hw : (Wf.com false a0 && a1.isInt && Wf.dst a1.wide a2 && Wf.read a1.wide a3 && Wf.read a1.wide a4 && Wf.read false a5) = true := hw
  simp only [Bool.and_eq_true] at hw
  obtain ⟨⟨⟨⟨⟨h0, h1⟩, h2⟩, h3⟩, h4⟩, h5⟩ := hw
  have qc := Enc.com_ok h0
  have q0 := Enc.dst_ok h2
  have q1 := Enc.src_ok h3
  have q2 := Enc.src_ok h4
  have q3 := Enc.src_ok h5
  try simp at h1
  have q4 := Enc.ty_ok a1
  rw [show encode (.bfi a0 a1 a2 a3 a4 a5) = Enc.fmtV 0x2E a0 (Enc.dst a2) (Enc.src a3) (Enc.src a4) (Enc.src a5) (Enc.ty a1) 0 0 from rfl]
  obtain ⟨f1, f2, f3, f4, f5, f6, f7, f8, f9, f10⟩ := Enc.fmtV_fields 0x2E a0 (Enc.dst a2) (Enc.src a3) (Enc.src a4) (Enc.src a5) (Enc.ty a1) 0 0 (by decide) qc (by omega) (by omega) (by omega) (by omega) (by omega) (by omega) (by omega)
  generalize Enc.fmtV 0x2E a0 (Enc.dst a2) (Enc.src a3) (Enc.src a4) (Enc.src a5) (Enc.ty a1) 0 0 = w at *
  refine ⟨f1, Enc.decode_of f1 (by decide) f2 ?_ hwf⟩
  unfold Dec.parse
  rw [f1]
  simp [Dec.integer, Dec.need, f3, f4, f5, f6, f7, f8, f9, f10, Enc.bit00, Enc.bit10, Dec.index, Dec.gindex, Dec.scrRest, Dec.vreg, Enc.kreg_add, Enc.rnd0, Enc.ty1, Enc.ty4, Enc.ty5, q0.2, q1.2, q2.2, q3.2, q4.2, h1]

theorem popc (a0 : Com) (a1 : Ty) (a2 : Dst) (a3 : Src) (hw : Instr.wf (.popc a0 a1 a2 a3) = true) : fld (encode (.popc a0 a1 a2 a3)) 56 8 = 0x2F ∧ decode (encode (.popc a0 a1 a2 a3)) = .ok (.popc a0 a1 a2 a3) := by
  have hwf := hw
  replace hw : (Wf.com false a0 && a1.isInt && Wf.dst a1.wide a2 && Wf.read a1.wide a3) = true := hw
  simp only [Bool.and_eq_true] at hw
  obtain ⟨⟨⟨h0, h1⟩, h2⟩, h3⟩ := hw
  have qc := Enc.com_ok h0
  have q0 := Enc.dst_ok h2
  have q1 := Enc.src_ok h3
  try simp at h1
  have q2 := Enc.ty_ok a1
  rw [show encode (.popc a0 a1 a2 a3) = Enc.fmtV 0x2F a0 (Enc.dst a2) (Enc.src a3) 511 511 (Enc.ty a1) 0 0 from rfl]
  obtain ⟨f1, f2, f3, f4, f5, f6, f7, f8, f9, f10⟩ := Enc.fmtV_fields 0x2F a0 (Enc.dst a2) (Enc.src a3) 511 511 (Enc.ty a1) 0 0 (by decide) qc (by omega) (by omega) (by omega) (by omega) (by omega) (by omega) (by omega)
  generalize Enc.fmtV 0x2F a0 (Enc.dst a2) (Enc.src a3) 511 511 (Enc.ty a1) 0 0 = w at *
  refine ⟨f1, Enc.decode_of f1 (by decide) f2 ?_ hwf⟩
  unfold Dec.parse
  rw [f1]
  simp [Dec.integer, Dec.need, f3, f4, f5, f6, f7, f8, f9, f10, Enc.bit00, Enc.bit10, Dec.index, Dec.gindex, Dec.scrRest, Dec.vreg, Enc.kreg_add, Enc.rnd0, Enc.ty1, Enc.ty4, Enc.ty5, q0.2, q1.2, q2.2, h1]

theorem clz (a0 : Com) (a1 : Ty) (a2 : Dst) (a3 : Src) (hw : Instr.wf (.clz a0 a1 a2 a3) = true) : fld (encode (.clz a0 a1 a2 a3)) 56 8 = 0x30 ∧ decode (encode (.clz a0 a1 a2 a3)) = .ok (.clz a0 a1 a2 a3) := by
  have hwf := hw
  replace hw : (Wf.com false a0 && a1.isInt && Wf.dst a1.wide a2 && Wf.read a1.wide a3) = true := hw
  simp only [Bool.and_eq_true] at hw
  obtain ⟨⟨⟨h0, h1⟩, h2⟩, h3⟩ := hw
  have qc := Enc.com_ok h0
  have q0 := Enc.dst_ok h2
  have q1 := Enc.src_ok h3
  try simp at h1
  have q2 := Enc.ty_ok a1
  rw [show encode (.clz a0 a1 a2 a3) = Enc.fmtV 0x30 a0 (Enc.dst a2) (Enc.src a3) 511 511 (Enc.ty a1) 0 0 from rfl]
  obtain ⟨f1, f2, f3, f4, f5, f6, f7, f8, f9, f10⟩ := Enc.fmtV_fields 0x30 a0 (Enc.dst a2) (Enc.src a3) 511 511 (Enc.ty a1) 0 0 (by decide) qc (by omega) (by omega) (by omega) (by omega) (by omega) (by omega) (by omega)
  generalize Enc.fmtV 0x30 a0 (Enc.dst a2) (Enc.src a3) 511 511 (Enc.ty a1) 0 0 = w at *
  refine ⟨f1, Enc.decode_of f1 (by decide) f2 ?_ hwf⟩
  unfold Dec.parse
  rw [f1]
  simp [Dec.integer, Dec.need, f3, f4, f5, f6, f7, f8, f9, f10, Enc.bit00, Enc.bit10, Dec.index, Dec.gindex, Dec.scrRest, Dec.vreg, Enc.kreg_add, Enc.rnd0, Enc.ty1, Enc.ty4, Enc.ty5, q0.2, q1.2, q2.2, h1]

theorem brev (a0 : Com) (a1 : Ty) (a2 : Dst) (a3 : Src) (hw : Instr.wf (.brev a0 a1 a2 a3) = true) : fld (encode (.brev a0 a1 a2 a3)) 56 8 = 0x31 ∧ decode (encode (.brev a0 a1 a2 a3)) = .ok (.brev a0 a1 a2 a3) := by
  have hwf := hw
  replace hw : (Wf.com false a0 && a1.isInt && Wf.dst a1.wide a2 && Wf.read a1.wide a3) = true := hw
  simp only [Bool.and_eq_true] at hw
  obtain ⟨⟨⟨h0, h1⟩, h2⟩, h3⟩ := hw
  have qc := Enc.com_ok h0
  have q0 := Enc.dst_ok h2
  have q1 := Enc.src_ok h3
  try simp at h1
  have q2 := Enc.ty_ok a1
  rw [show encode (.brev a0 a1 a2 a3) = Enc.fmtV 0x31 a0 (Enc.dst a2) (Enc.src a3) 511 511 (Enc.ty a1) 0 0 from rfl]
  obtain ⟨f1, f2, f3, f4, f5, f6, f7, f8, f9, f10⟩ := Enc.fmtV_fields 0x31 a0 (Enc.dst a2) (Enc.src a3) 511 511 (Enc.ty a1) 0 0 (by decide) qc (by omega) (by omega) (by omega) (by omega) (by omega) (by omega) (by omega)
  generalize Enc.fmtV 0x31 a0 (Enc.dst a2) (Enc.src a3) 511 511 (Enc.ty a1) 0 0 = w at *
  refine ⟨f1, Enc.decode_of f1 (by decide) f2 ?_ hwf⟩
  unfold Dec.parse
  rw [f1]
  simp [Dec.integer, Dec.need, f3, f4, f5, f6, f7, f8, f9, f10, Enc.bit00, Enc.bit10, Dec.index, Dec.gindex, Dec.scrRest, Dec.vreg, Enc.kreg_add, Enc.rnd0, Enc.ty1, Enc.ty4, Enc.ty5, q0.2, q1.2, q2.2, h1]

theorem sel (a0 : Com) (a1 : Ty) (a2 : Dst) (a3 : Src) (a4 : Src) (a5 : PSrc) (hw : Instr.wf (.sel a0 a1 a2 a3 a4 a5) = true) : fld (encode (.sel a0 a1 a2 a3 a4 a5)) 56 8 = 0x32 ∧ decode (encode (.sel a0 a1 a2 a3 a4 a5)) = .ok (.sel a0 a1 a2 a3 a4 a5) := by
  have hwf := hw
  replace hw : (Wf.com false a0 && a1.isBasic && Wf.dst a1.wide a2 && Wf.read a1.wide a3 && Wf.read a1.wide a4 && Wf.ps a5) = true := hw
  simp only [Bool.and_eq_true] at hw
  obtain ⟨⟨⟨⟨⟨h0, h1⟩, h2⟩, h3⟩, h4⟩, h5⟩ := hw
  have qc := Enc.com_ok h0
  have q0 := Enc.dst_ok h2
  have q1 := Enc.src_ok h3
  have q2 := Enc.src_ok h4
  have q3 := Enc.ps_ok h5
  try simp at h1
  have q4 := Enc.ty_ok a1
  rw [show encode (.sel a0 a1 a2 a3 a4 a5) = Enc.fmtV 0x32 a0 (Enc.dst a2) (Enc.src a3) (Enc.src a4) (Enc.ps a5) (Enc.ty a1) 0 0 from rfl]
  obtain ⟨f1, f2, f3, f4, f5, f6, f7, f8, f9, f10⟩ := Enc.fmtV_fields 0x32 a0 (Enc.dst a2) (Enc.src a3) (Enc.src a4) (Enc.ps a5) (Enc.ty a1) 0 0 (by decide) qc (by omega) (by omega) (by omega) (by omega) (by omega) (by omega) (by omega)
  generalize Enc.fmtV 0x32 a0 (Enc.dst a2) (Enc.src a3) (Enc.src a4) (Enc.ps a5) (Enc.ty a1) 0 0 = w at *
  refine ⟨f1, Enc.decode_of f1 (by decide) f2 ?_ hwf⟩
  unfold Dec.parse
  rw [f1]
  simp [Dec.integer, Dec.need, f3, f4, f5, f6, f7, f8, f9, f10, Enc.bit00, Enc.bit10, Dec.index, Dec.gindex, Dec.scrRest, Dec.vreg, Enc.kreg_add, Enc.rnd0, Enc.ty1, Enc.ty4, Enc.ty5, q0.2, q1.2, q2.2, q3.2, q4.2, h1]

theorem mov (a0 : Com) (a1 : Ty) (a2 : Dst) (a3 : Src) (hw : Instr.wf (.mov a0 a1 a2 a3) = true) : fld (encode (.mov a0 a1 a2 a3)) 56 8 = 0x33 ∧ decode (encode (.mov a0 a1 a2 a3)) = .ok (.mov a0 a1 a2 a3) := by
  have hwf := hw
  replace hw : (Wf.com false a0 && a1.isBasic && Wf.dst a1.wide a2 && Wf.read a1.wide a3) = true := hw
  simp only [Bool.and_eq_true] at hw
  obtain ⟨⟨⟨h0, h1⟩, h2⟩, h3⟩ := hw
  have qc := Enc.com_ok h0
  have q0 := Enc.dst_ok h2
  have q1 := Enc.src_ok h3
  try simp at h1
  have q2 := Enc.ty_ok a1
  rw [show encode (.mov a0 a1 a2 a3) = Enc.fmtV 0x33 a0 (Enc.dst a2) (Enc.src a3) 511 511 (Enc.ty a1) 0 0 from rfl]
  obtain ⟨f1, f2, f3, f4, f5, f6, f7, f8, f9, f10⟩ := Enc.fmtV_fields 0x33 a0 (Enc.dst a2) (Enc.src a3) 511 511 (Enc.ty a1) 0 0 (by decide) qc (by omega) (by omega) (by omega) (by omega) (by omega) (by omega) (by omega)
  generalize Enc.fmtV 0x33 a0 (Enc.dst a2) (Enc.src a3) 511 511 (Enc.ty a1) 0 0 = w at *
  refine ⟨f1, Enc.decode_of f1 (by decide) f2 ?_ hwf⟩
  unfold Dec.parse
  rw [f1]
  simp [Dec.integer, Dec.need, f3, f4, f5, f6, f7, f8, f9, f10, Enc.bit00, Enc.bit10, Dec.index, Dec.gindex, Dec.scrRest, Dec.vreg, Enc.kreg_add, Enc.rnd0, Enc.ty1, Enc.ty4, Enc.ty5, q0.2, q1.2, q2.2, h1]

theorem movi (a0 : Com) (a1 : Ty) (a2 : Bool) (a3 : Dst) (a4 : Nat) (hw : Instr.wf (.movi a0 a1 a2 a3 a4) = true) : fld (encode (.movi a0 a1 a2 a3 a4)) 56 8 = 0x34 ∧ decode (encode (.movi a0 a1 a2 a3 a4)) = .ok (.movi a0 a1 a2 a3 a4) := by
  have hwf := hw
  replace hw : (Wf.com false a0 && a1.isBasic && (!a2 || a1.wide) && Wf.dst a1.wide a3 && decide (a4 < 2 ^ 32)) = true := hw
  simp only [Bool.and_eq_true, decide_eq_true_eq] at hw
  obtain ⟨⟨⟨⟨h0, h1⟩, h2⟩, h3⟩, h4⟩ := hw
  have qc := Enc.com_ok h0
  have q0 := Enc.dst_ok h3
  have q1 := Enc.ty_ok a1
  have q2 := Enc.b2n_lt a2
  have hr : Enc.dst a3 * 2 ^ 39 + Enc.ty a1 * 2 ^ 35 + b2n a2 * 2 ^ 32 + a4 < 2 ^ 48 := by omega
  rw [show encode (.movi a0 a1 a2 a3 a4) = Enc.com 0x34 a0 + (Enc.dst a3 * 2 ^ 39 + Enc.ty a1 * 2 ^ 35 + b2n a2 * 2 ^ 32 + a4) by
    show Enc.com 0x34 a0 + Enc.dst a3 * 2 ^ 39 + Enc.ty a1 * 2 ^ 35 + b2n a2 * 2 ^ 32 + a4 = _; omega]
  obtain ⟨f1, f2, f3⟩ := Enc.head_fields 0x34 a0 _ (by decide) qc hr
  obtain ⟨l1, l2⟩ := Enc.low_fields 0x34 a0 _ (by decide) qc hr
  have f4 := l1 39 9 (by decide)
  have f5 := l1 35 4 (by decide)
  have f6 := l1 32 3 (by decide)
  have f7 := l1 0 32 (by decide)
  rw [show fld (Enc.dst a3 * 2 ^ 39 + Enc.ty a1 * 2 ^ 35 + b2n a2 * 2 ^ 32 + a4) 39 9 = Enc.dst a3 by unfold fld; omega] at f4
  rw [show fld (Enc.dst a3 * 2 ^ 39 + Enc.ty a1 * 2 ^ 35 + b2n a2 * 2 ^ 32 + a4) 35 4 = Enc.ty a1 by unfold fld; omega] at f5
  rw [show fld (Enc.dst a3 * 2 ^ 39 + Enc.ty a1 * 2 ^ 35 + b2n a2 * 2 ^ 32 + a4) 32 3 = b2n a2 by unfold fld; omega] at f6
  rw [show fld (Enc.dst a3 * 2 ^ 39 + Enc.ty a1 * 2 ^ 35 + b2n a2 * 2 ^ 32 + a4) 0 32 = a4 by unfold fld; omega] at f7
  generalize Enc.com 0x34 a0 + (Enc.dst a3 * 2 ^ 39 + Enc.ty a1 * 2 ^ 35 + b2n a2 * 2 ^ 32 + a4) = w at *
  refine ⟨f1, Enc.decode_of f1 (by decide) f2 ?_ hwf⟩
  unfold Dec.parse
  rw [f1]
  simp [Dec.integer, Dec.need, Dec.fD, f3, f4, f5, f6, f7, q0.2, q1.2, q2, Enc.b2n_beq]

theorem addi (a0 : Com) (a1 : Ty) (a2 : Bool) (a3 : Dst) (a4 : Src) (a5 : Int) (hw : Instr.wf (.addi a0 a1 a2 a3 a4 a5) = true) : fld (encode (.addi a0 a1 a2 a3 a4 a5)) 56 8 = 0x35 ∧ decode (encode (.addi a0 a1 a2 a3 a4 a5)) = .ok (.addi a0 a1 a2 a3 a4 a5) := by
  have hwf := hw
  replace hw : (Wf.com false a0 && a1.isInt && Wf.dst a1.wide a3 && Wf.read a1.wide a4 && Wf.int 24 a5) = true := hw
  simp only [Bool.and_eq_true] at hw
  obtain ⟨⟨⟨⟨h0, h1⟩, h2⟩, h3⟩, h4⟩ := hw
  have qc := Enc.com_ok h0
  have q0 := Enc.dst_ok h2
  have q1 := Enc.ty_ok a1
  have q2 := Enc.b2n_lt a2
  have q3 := Enc.src_ok h3
  have qi := Enc.int_ok h4
  have ql : low 24 a5 < 2 ^ 24 := by unfold low; omega
  have hr : Enc.dst a3 * 2 ^ 39 + Enc.src a4 * 2 ^ 30 + Enc.ty a1 * 2 ^ 26 + b2n a2 * 2 ^ 24 + low 24 a5 < 2 ^ 48 := by omega
  rw [show encode (.addi a0 a1 a2 a3 a4 a5) = Enc.com 0x35 a0 + (Enc.dst a3 * 2 ^ 39 + Enc.src a4 * 2 ^ 30 + Enc.ty a1 * 2 ^ 26 + b2n a2 * 2 ^ 24 + low 24 a5) by
    show Enc.com 0x35 a0 + Enc.dst a3 * 2 ^ 39 + Enc.src a4 * 2 ^ 30 + Enc.ty a1 * 2 ^ 26 + b2n a2 * 2 ^ 24 + low 24 a5 = _; omega]
  obtain ⟨f1, f2, f3⟩ := Enc.head_fields 0x35 a0 _ (by decide) qc hr
  obtain ⟨l1, l2⟩ := Enc.low_fields 0x35 a0 _ (by decide) qc hr
  have f4 := l1 39 9 (by decide)
  have f5 := l1 26 4 (by decide)
  have f6 := l1 24 2 (by decide)
  have f7 := l1 0 24 (by decide)
  have f8 := l1 30 9 (by decide)
  generalize low 24 a5 = m at *
  rw [show fld (Enc.dst a3 * 2 ^ 39 + Enc.src a4 * 2 ^ 30 + Enc.ty a1 * 2 ^ 26 + b2n a2 * 2 ^ 24 + m) 39 9 = Enc.dst a3 by unfold fld; omega] at f4
  rw [show fld (Enc.dst a3 * 2 ^ 39 + Enc.src a4 * 2 ^ 30 + Enc.ty a1 * 2 ^ 26 + b2n a2 * 2 ^ 24 + m) 26 4 = Enc.ty a1 by unfold fld; omega] at f5
  rw [show fld (Enc.dst a3 * 2 ^ 39 + Enc.src a4 * 2 ^ 30 + Enc.ty a1 * 2 ^ 26 + b2n a2 * 2 ^ 24 + m) 24 2 = b2n a2 by unfold fld; omega] at f6
  rw [show fld (Enc.dst a3 * 2 ^ 39 + Enc.src a4 * 2 ^ 30 + Enc.ty a1 * 2 ^ 26 + b2n a2 * 2 ^ 24 + m) 0 24 = m by unfold fld; omega] at f7
  rw [show fld (Enc.dst a3 * 2 ^ 39 + Enc.src a4 * 2 ^ 30 + Enc.ty a1 * 2 ^ 26 + b2n a2 * 2 ^ 24 + m) 30 9 = Enc.src a4 by unfold fld; omega] at f8
  generalize Enc.com 0x35 a0 + (Enc.dst a3 * 2 ^ 39 + Enc.src a4 * 2 ^ 30 + Enc.ty a1 * 2 ^ 26 + b2n a2 * 2 ^ 24 + m) = w at *
  refine ⟨f1, Enc.decode_of f1 (by decide) f2 ?_ hwf⟩
  unfold Dec.parse
  rw [f1]
  simp [Dec.integer, Dec.need, Dec.fD, Dec.fA, f3, f4, f5, f6, f7, f8, q0.2, q1.2, q2, q3.2, qi, Enc.b2n_beq]

theorem lea (a0 : Com) (a1 : Bool) (a2 : Nat) (a3 : Dst) (a4 : Src) (a5 : Src) (hw : Instr.wf (.lea a0 a1 a2 a3 a4 a5) = true) : fld (encode (.lea a0 a1 a2 a3 a4 a5)) 56 8 = 0x36 ∧ decode (encode (.lea a0 a1 a2 a3 a4 a5)) = .ok (.lea a0 a1 a2 a3 a4 a5) := by
  have hwf := hw
  replace hw : (Wf.com false a0 && a2 < 8 && Wf.dst true a3 && Wf.read true a4 && Wf.read false a5) = true := hw
  simp only [Bool.and_eq_true] at hw
  obtain ⟨⟨⟨⟨h0, h1⟩, h2⟩, h3⟩, h4⟩ := hw
  have qc := Enc.com_ok h0
  have q0 := Enc.dst_ok h2
  have q1 := Enc.src_ok h3
  have q2 := Enc.src_ok h4
  try simp at h1
  have pl : (if a1 = true then 2 else 3) < 16 := by split <;> omega
  have q3 := Enc.flag1_ok a1
  rw [show encode (.lea a0 a1 a2 a3 a4 a5) = Enc.fmtV 0x36 a0 (Enc.dst a3) (Enc.src a4) (Enc.src a5) 511 (if a1 then 2 else 3) 0 a2 from rfl]
  obtain ⟨f1, f2, f3, f4, f5, f6, f7, f8, f9, f10⟩ := Enc.fmtV_fields 0x36 a0 (Enc.dst a3) (Enc.src a4) (Enc.src a5) 511 (if a1 then 2 else 3) 0 a2 (by decide) qc (by omega) (by omega) (by omega) (by omega) (by omega) (by omega) (by omega)
  generalize Enc.fmtV 0x36 a0 (Enc.dst a3) (Enc.src a4) (Enc.src a5) 511 (if a1 then 2 else 3) 0 a2 = w at *
  refine ⟨f1, Enc.decode_of f1 (by decide) f2 ?_ hwf⟩
  unfold Dec.parse
  rw [f1]
  simp [Dec.integer, Dec.need, f3, f4, f5, f6, f7, f8, f9, f10, Enc.bit00, Enc.bit10, Dec.index, Dec.gindex, Dec.scrRest, Dec.vreg, Enc.kreg_add, Enc.rnd0, Enc.ty1, Enc.ty4, Enc.ty5, q0.2, q1.2, q2.2, q3.2, h1]
  cases a1 <;> rfl

theorem bysel (a0 : Com) (a1 : Bool) (a2 : Dst) (a3 : Src) (a4 : Src) (a5 : Src) (hw : Instr.wf (.bysel a0 a1 a2 a3 a4 a5) = true) : fld (encode (.bysel a0 a1 a2 a3 a4 a5)) 56 8 = 0x37 ∧ decode (encode (.bysel a0 a1 a2 a3 a4 a5)) = .ok (.bysel a0 a1 a2 a3 a4 a5) := by
  have hwf := hw
  replace hw : (Wf.com false a0 && Wf.dst false a2 && Wf.read false a3 && Wf.read false a4 && Wf.read false a5) = true := hw
  simp only [Bool.and_eq_true] at hw
  obtain ⟨⟨⟨⟨h0, h1⟩, h2⟩, h3⟩, h4⟩ := hw
  have qc := Enc.com_ok h0
  have q0 := Enc.dst_ok h1
  have q1 := Enc.src_ok h2
  have q2 := Enc.src_ok h3
  have q3 := Enc.src_ok h4
  have q4 := Enc.flag1_ok a1
  rw [show encode (.bysel a0 a1 a2 a3 a4 a5) = Enc.fmtV 0x37 a0 (Enc.dst a2) (Enc.src a3) (Enc.src a4) (Enc.src a5) 1 0 (b2n a1) from rfl]
  obtain ⟨f1, f2, f3, f4, f5, f6, f7, f8, f9, f10⟩ := Enc.fmtV_fields 0x37 a0 (Enc.dst a2) (Enc.src a3) (Enc.src a4) (Enc.src a5) 1 0 (b2n a1) (by decide) qc (by omega) (by omega) (by omega) (by omega) (by omega) (by omega) (by omega)
  generalize Enc.fmtV 0x37 a0 (Enc.dst a2) (Enc.src a3) (Enc.src a4) (Enc.src a5) 1 0 (b2n a1) = w at *
  refine ⟨f1, Enc.decode_of f1 (by decide) f2 ?_ hwf⟩
  unfold Dec.parse
  rw [f1]
  simp [Dec.integer, Dec.need, f3, f4, f5, f6, f7, f8, f9, f10, Enc.bit00, Enc.bit10, Dec.index, Dec.gindex, Dec.scrRest, Dec.vreg, Enc.kreg_add, Enc.rnd0, Enc.ty1, Enc.ty4, Enc.ty5, q0.2, q1.2, q2.2, q3.2, q4.2]

theorem fadd (a0 : Com) (a1 : Rnd) (a2 : Bool) (a3 : Dst) (a4 : Src) (a5 : Src) (a6 : Option Src) (hw : Instr.wf (.fadd a0 a1 a2 a3 a4 a5 a6) = true) : fld (encode (.fadd a0 a1 a2 a3 a4 a5 a6)) 56 8 = 0x40 ∧ decode (encode (.fadd a0 a1 a2 a3 a4 a5 a6)) = .ok (.fadd a0 a1 a2 a3 a4 a5 a6) := by
  have hwf := hw
  replace hw : (Wf.com false a0 && Wf.dst false a3 && Wf.read false a4 && Wf.read false a5 && Wf.random a1 a6) = true := hw
  simp only [Bool.and_eq_true] at hw
  obtain ⟨⟨⟨⟨h0, h1⟩, h2⟩, h3⟩, h4⟩ := hw
  have qc := Enc.com_ok h0
  have q0 := Enc.dst_ok h1
  have q1 := Enc.src_ok h2
  have q2 := Enc.src_ok h3
  have q3 := Enc.rand_ok h4
  have q4 := Enc.rnd_ok a1
  have q5 := Enc.flag1_ok a2
  rw [show encode (.fadd a0 a1 a2 a3 a4 a5 a6) = Enc.fmtV 0x40 a0 (Enc.dst a3) (Enc.src a4) (Enc.src a5) (Enc.srcOpt a6) 4 (Enc.rnd a1) (b2n a2) from rfl]
  obtain ⟨f1, f2, f3, f4, f5, f6, f7, f8, f9, f10⟩ := Enc.fmtV_fields 0x40 a0 (Enc.dst a3) (Enc.src a4) (Enc.src a5) (Enc.srcOpt a6) 4 (Enc.rnd a1) (b2n a2) (by decide) qc (by omega) (by omega) (by omega) (by omega) (by omega) (by omega) (by omega)
  generalize Enc.fmtV 0x40 a0 (Enc.dst a3) (Enc.src a4) (Enc.src a5) (Enc.srcOpt a6) 4 (Enc.rnd a1) (b2n a2) = w at *
  refine ⟨f1, Enc.decode_of f1 (by decide) f2 ?_ hwf⟩
  unfold Dec.parse
  rw [f1]
  simp [Dec.float, Dec.need, f3, f4, f5, f6, f7, f8, f9, f10, Enc.bit00, Enc.bit10, Dec.index, Dec.gindex, Dec.scrRest, Dec.vreg, Enc.kreg_add, Enc.rnd0, Enc.ty1, Enc.ty4, Enc.ty5, q0.2, q1.2, q2.2, q3.2, q4.2, q5.2]

theorem fsub (a0 : Com) (a1 : Rnd) (a2 : Bool) (a3 : Dst) (a4 : Src) (a5 : Src) (a6 : Option Src) (hw : Instr.wf (.fsub a0 a1 a2 a3 a4 a5 a6) = true) : fld (encode (.fsub a0 a1 a2 a3 a4 a5 a6)) 56 8 = 0x41 ∧ decode (encode (.fsub a0 a1 a2 a3 a4 a5 a6)) = .ok (.fsub a0 a1 a2 a3 a4 a5 a6) := by
  have hwf := hw
  replace hw : (Wf.com false a0 && Wf.dst false a3 && Wf.read false a4 && Wf.read false a5 && Wf.random a1 a6) = true := hw
  simp only [Bool.and_eq_true] at hw
  obtain ⟨⟨⟨⟨h0, h1⟩, h2⟩, h3⟩, h4⟩ := hw
  have qc := Enc.com_ok h0
  have q0 := Enc.dst_ok h1
  have q1 := Enc.src_ok h2
  have q2 := Enc.src_ok h3
  have q3 := Enc.rand_ok h4
  have q4 := Enc.rnd_ok a1
  have q5 := Enc.flag1_ok a2
  rw [show encode (.fsub a0 a1 a2 a3 a4 a5 a6) = Enc.fmtV 0x41 a0 (Enc.dst a3) (Enc.src a4) (Enc.src a5) (Enc.srcOpt a6) 4 (Enc.rnd a1) (b2n a2) from rfl]
  obtain ⟨f1, f2, f3, f4, f5, f6, f7, f8, f9, f10⟩ := Enc.fmtV_fields 0x41 a0 (Enc.dst a3) (Enc.src a4) (Enc.src a5) (Enc.srcOpt a6) 4 (Enc.rnd a1) (b2n a2) (by decide) qc (by omega) (by omega) (by omega) (by omega) (by omega) (by omega) (by omega)
  generalize Enc.fmtV 0x41 a0 (Enc.dst a3) (Enc.src a4) (Enc.src a5) (Enc.srcOpt a6) 4 (Enc.rnd a1) (b2n a2) = w at *
  refine ⟨f1, Enc.decode_of f1 (by decide) f2 ?_ hwf⟩
  unfold Dec.parse
  rw [f1]
  simp [Dec.float, Dec.need, f3, f4, f5, f6, f7, f8, f9, f10, Enc.bit00, Enc.bit10, Dec.index, Dec.gindex, Dec.scrRest, Dec.vreg, Enc.kreg_add, Enc.rnd0, Enc.ty1, Enc.ty4, Enc.ty5, q0.2, q1.2, q2.2, q3.2, q4.2, q5.2]

theorem fmul (a0 : Com) (a1 : Rnd) (a2 : Bool) (a3 : Dst) (a4 : Src) (a5 : Src) (a6 : Option Src) (hw : Instr.wf (.fmul a0 a1 a2 a3 a4 a5 a6) = true) : fld (encode (.fmul a0 a1 a2 a3 a4 a5 a6)) 56 8 = 0x42 ∧ decode (encode (.fmul a0 a1 a2 a3 a4 a5 a6)) = .ok (.fmul a0 a1 a2 a3 a4 a5 a6) := by
  have hwf := hw
  replace hw : (Wf.com false a0 && Wf.dst false a3 && Wf.read false a4 && Wf.read false a5 && Wf.random a1 a6) = true := hw
  simp only [Bool.and_eq_true] at hw
  obtain ⟨⟨⟨⟨h0, h1⟩, h2⟩, h3⟩, h4⟩ := hw
  have qc := Enc.com_ok h0
  have q0 := Enc.dst_ok h1
  have q1 := Enc.src_ok h2
  have q2 := Enc.src_ok h3
  have q3 := Enc.rand_ok h4
  have q4 := Enc.rnd_ok a1
  have q5 := Enc.flag1_ok a2
  rw [show encode (.fmul a0 a1 a2 a3 a4 a5 a6) = Enc.fmtV 0x42 a0 (Enc.dst a3) (Enc.src a4) (Enc.src a5) (Enc.srcOpt a6) 4 (Enc.rnd a1) (b2n a2) from rfl]
  obtain ⟨f1, f2, f3, f4, f5, f6, f7, f8, f9, f10⟩ := Enc.fmtV_fields 0x42 a0 (Enc.dst a3) (Enc.src a4) (Enc.src a5) (Enc.srcOpt a6) 4 (Enc.rnd a1) (b2n a2) (by decide) qc (by omega) (by omega) (by omega) (by omega) (by omega) (by omega) (by omega)
  generalize Enc.fmtV 0x42 a0 (Enc.dst a3) (Enc.src a4) (Enc.src a5) (Enc.srcOpt a6) 4 (Enc.rnd a1) (b2n a2) = w at *
  refine ⟨f1, Enc.decode_of f1 (by decide) f2 ?_ hwf⟩
  unfold Dec.parse
  rw [f1]
  simp [Dec.float, Dec.need, f3, f4, f5, f6, f7, f8, f9, f10, Enc.bit00, Enc.bit10, Dec.index, Dec.gindex, Dec.scrRest, Dec.vreg, Enc.kreg_add, Enc.rnd0, Enc.ty1, Enc.ty4, Enc.ty5, q0.2, q1.2, q2.2, q3.2, q4.2, q5.2]

theorem ffma (a0 : Com) (a1 : Rnd) (a2 : Bool) (a3 : Dst) (a4 : Src) (a5 : Src) (a6 : Src) (hw : Instr.wf (.ffma a0 a1 a2 a3 a4 a5 a6) = true) : fld (encode (.ffma a0 a1 a2 a3 a4 a5 a6)) 56 8 = 0x43 ∧ decode (encode (.ffma a0 a1 a2 a3 a4 a5 a6)) = .ok (.ffma a0 a1 a2 a3 a4 a5 a6) := by
  have hwf := hw
  replace hw : (Wf.com false a0 && a1 ≠ .rs && Wf.dst false a3 && Wf.read false a4 && Wf.read false a5 && Wf.read false a6) = true := hw
  simp only [Bool.and_eq_true] at hw
  obtain ⟨⟨⟨⟨⟨h0, h1⟩, h2⟩, h3⟩, h4⟩, h5⟩ := hw
  have qc := Enc.com_ok h0
  have q0 := Enc.dst_ok h2
  have q1 := Enc.src_ok h3
  have q2 := Enc.src_ok h4
  have q3 := Enc.src_ok h5
  try simp at h1
  have q4 := Enc.rnd_ok a1
  have q5 := Enc.flag1_ok a2
  rw [show encode (.ffma a0 a1 a2 a3 a4 a5 a6) = Enc.fmtV 0x43 a0 (Enc.dst a3) (Enc.src a4) (Enc.src a5) (Enc.src a6) 4 (Enc.rnd a1) (b2n a2) from rfl]
  obtain ⟨f1, f2, f3, f4, f5, f6, f7, f8, f9, f10⟩ := Enc.fmtV_fields 0x43 a0 (Enc.dst a3) (Enc.src a4) (Enc.src a5) (Enc.src a6) 4 (Enc.rnd a1) (b2n a2) (by decide) qc (by omega) (by omega) (by omega) (by omega) (by omega) (by omega) (by omega)
  generalize Enc.fmtV 0x43 a0 (Enc.dst a3) (Enc.src a4) (Enc.src a5) (Enc.src a6) 4 (Enc.rnd a1) (b2n a2) = w at *
  refine ⟨f1, Enc.decode_of f1 (by decide) f2 ?_ hwf⟩
  unfold Dec.parse
  rw [f1]
  simp [Dec.float, Dec.need, f3, f4, f5, f6, f7, f8, f9, f10, Enc.bit00, Enc.bit10, Dec.index, Dec.gindex, Dec.scrRest, Dec.vreg, Enc.kreg_add, Enc.rnd0, Enc.ty1, Enc.ty4, Enc.ty5, q0.2, q1.2, q2.2, q3.2, q4.2, q5.2, h1]

theorem fmin (a0 : Com) (a1 : Bool) (a2 : Dst) (a3 : Src) (a4 : Src) (hw : Instr.wf (.fmin a0 a1 a2 a3 a4) = true) : fld (encode (.fmin a0 a1 a2 a3 a4)) 56 8 = 0x44 ∧ decode (encode (.fmin a0 a1 a2 a3 a4)) = .ok (.fmin a0 a1 a2 a3 a4) := by
  have hwf := hw
  replace hw : (Wf.com false a0 && Wf.dst false a2 && Wf.read false a3 && Wf.read false a4) = true := hw
  simp only [Bool.and_eq_true] at hw
  obtain ⟨⟨⟨h0, h1⟩, h2⟩, h3⟩ := hw
  have qc := Enc.com_ok h0
  have q0 := Enc.dst_ok h1
  have q1 := Enc.src_ok h2
  have q2 := Enc.src_ok h3
  have q3 := Enc.flag1_ok a1
  rw [show encode (.fmin a0 a1 a2 a3 a4) = Enc.fmtV 0x44 a0 (Enc.dst a2) (Enc.src a3) (Enc.src a4) 511 4 0 (b2n a1) from rfl]
  obtain ⟨f1, f2, f3, f4, f5, f6, f7, f8, f9, f10⟩ := Enc.fmtV_fields 0x44 a0 (Enc.dst a2) (Enc.src a3) (Enc.src a4) 511 4 0 (b2n a1) (by decide) qc (by omega) (by omega) (by omega) (by omega) (by omega) (by omega) (by omega)
  generalize Enc.fmtV 0x44 a0 (Enc.dst a2) (Enc.src a3) (Enc.src a4) 511 4 0 (b2n a1) = w at *
  refine ⟨f1, Enc.decode_of f1 (by decide) f2 ?_ hwf⟩
  unfold Dec.parse
  rw [f1]
  simp [Dec.float, Dec.need, f3, f4, f5, f6, f7, f8, f9, f10, Enc.bit00, Enc.bit10, Dec.index, Dec.gindex, Dec.scrRest, Dec.vreg, Enc.kreg_add, Enc.rnd0, Enc.ty1, Enc.ty4, Enc.ty5, q0.2, q1.2, q2.2, q3.2]

theorem fmax (a0 : Com) (a1 : Bool) (a2 : Dst) (a3 : Src) (a4 : Src) (hw : Instr.wf (.fmax a0 a1 a2 a3 a4) = true) : fld (encode (.fmax a0 a1 a2 a3 a4)) 56 8 = 0x45 ∧ decode (encode (.fmax a0 a1 a2 a3 a4)) = .ok (.fmax a0 a1 a2 a3 a4) := by
  have hwf := hw
  replace hw : (Wf.com false a0 && Wf.dst false a2 && Wf.read false a3 && Wf.read false a4) = true := hw
  simp only [Bool.and_eq_true] at hw
  obtain ⟨⟨⟨h0, h1⟩, h2⟩, h3⟩ := hw
  have qc := Enc.com_ok h0
  have q0 := Enc.dst_ok h1
  have q1 := Enc.src_ok h2
  have q2 := Enc.src_ok h3
  have q3 := Enc.flag1_ok a1
  rw [show encode (.fmax a0 a1 a2 a3 a4) = Enc.fmtV 0x45 a0 (Enc.dst a2) (Enc.src a3) (Enc.src a4) 511 4 0 (b2n a1) from rfl]
  obtain ⟨f1, f2, f3, f4, f5, f6, f7, f8, f9, f10⟩ := Enc.fmtV_fields 0x45 a0 (Enc.dst a2) (Enc.src a3) (Enc.src a4) 511 4 0 (b2n a1) (by decide) qc (by omega) (by omega) (by omega) (by omega) (by omega) (by omega) (by omega)
  generalize Enc.fmtV 0x45 a0 (Enc.dst a2) (Enc.src a3) (Enc.src a4) 511 4 0 (b2n a1) = w at *
  refine ⟨f1, Enc.decode_of f1 (by decide) f2 ?_ hwf⟩
  unfold Dec.parse
  rw [f1]
  simp [Dec.float, Dec.need, f3, f4, f5, f6, f7, f8, f9, f10, Enc.bit00, Enc.bit10, Dec.index, Dec.gindex, Dec.scrRest, Dec.vreg, Enc.kreg_add, Enc.rnd0, Enc.ty1, Enc.ty4, Enc.ty5, q0.2, q1.2, q2.2, q3.2]

theorem fsign (a0 : Com) (a1 : SignOp) (a2 : Dst) (a3 : Src) (a4 : Option Src) (hw : Instr.wf (.fsign a0 a1 a2 a3 a4) = true) : fld (encode (.fsign a0 a1 a2 a3 a4)) 56 8 = 0x46 ∧ decode (encode (.fsign a0 a1 a2 a3 a4)) = .ok (.fsign a0 a1 a2 a3 a4) := by
  have hwf := hw
  replace hw : (Wf.com false a0 && Wf.dst false a2 && Wf.read false a3 && Wf.opt (Wf.read false) a4 && (a4.isSome == (a1 == .copy || a1 == .xor))) = true := hw
  simp only [Bool.and_eq_true] at hw
  obtain ⟨⟨⟨⟨h0, h1⟩, h2⟩, h3⟩, h4⟩ := hw
  have qc := Enc.com_ok h0
  have q0 := Enc.dst_ok h1
  have q1 := Enc.src_ok h2
  have q9 : Enc.srcOpt a4 < 512 ∧ Dec.signB a1 (Enc.srcOpt a4) = some a4 := by
    cases a4 with
    | none => cases a1 <;> first | exact ⟨by decide, rfl⟩ | (exfalso; revert h4; decide)
    | some b =>
      have hb := Enc.src_ok (show Wf.read false b = true from h3)
      cases a1 <;> first | exact absurd (show false = true from h4) (by decide) | exact ⟨hb.1, by show (Dec.src (Enc.src b)).map some = _; rw [hb.2]; rfl⟩
  have q2 := Enc.signOp_ok a1
  rw [show encode (.fsign a0 a1 a2 a3 a4) = Enc.fmtV 0x46 a0 (Enc.dst a2) (Enc.src a3) (Enc.srcOpt a4) 511 4 0 (Enc.signOp a1) from rfl]
  obtain ⟨f1, f2, f3, f4, f5, f6, f7, f8, f9, f10⟩ := Enc.fmtV_fields 0x46 a0 (Enc.dst a2) (Enc.src a3) (Enc.srcOpt a4) 511 4 0 (Enc.signOp a1) (by decide) qc (by omega) (by omega) (by omega) (by omega) (by omega) (by omega) (by omega)
  generalize Enc.fmtV 0x46 a0 (Enc.dst a2) (Enc.src a3) (Enc.srcOpt a4) 511 4 0 (Enc.signOp a1) = w at *
  refine ⟨f1, Enc.decode_of f1 (by decide) f2 ?_ hwf⟩
  unfold Dec.parse
  rw [f1]
  simp [Dec.float, Dec.need, f3, f4, f5, f6, f7, f8, f9, f10, Enc.bit00, Enc.bit10, Dec.index, Dec.gindex, Dec.scrRest, Dec.vreg, Enc.kreg_add, Enc.rnd0, Enc.ty1, Enc.ty4, Enc.ty5, q0.2, q1.2, q2.2, q9.2]

theorem frcp (a0 : Com) (a1 : Dst) (a2 : Src) (hw : Instr.wf (.frcp a0 a1 a2) = true) : fld (encode (.frcp a0 a1 a2)) 56 8 = 0x47 ∧ decode (encode (.frcp a0 a1 a2)) = .ok (.frcp a0 a1 a2) := by
  have hwf := hw
  replace hw : (Wf.com false a0 && Wf.dst false a1 && Wf.read false a2) = true := hw
  simp only [Bool.and_eq_true] at hw
  obtain ⟨⟨h0, h1⟩, h2⟩ := hw
  have qc := Enc.com_ok h0
  have q0 := Enc.dst_ok h1
  have q1 := Enc.src_ok h2
  rw [show encode (.frcp a0 a1 a2) = Enc.fmtV 0x47 a0 (Enc.dst a1) (Enc.src a2) 511 511 4 0 0 from rfl]
  obtain ⟨f1, f2, f3, f4, f5, f6, f7, f8, f9, f10⟩ := Enc.fmtV_fields 0x47 a0 (Enc.dst a1) (Enc.src a2) 511 511 4 0 0 (by decide) qc (by omega) (by omega) (by omega) (by omega) (by omega) (by omega) (by omega)
  generalize Enc.fmtV 0x47 a0 (Enc.dst a1) (Enc.src a2) 511 511 4 0 0 = w at *
  refine ⟨f1, Enc.decode_of f1 (by decide) f2 ?_ hwf⟩
  unfold Dec.parse
  rw [f1]
  simp [Dec.float, Dec.need, f3, f4, f5, f6, f7, f8, f9, f10, Enc.bit00, Enc.bit10, Dec.index, Dec.gindex, Dec.scrRest, Dec.vreg, Enc.kreg_add, Enc.rnd0, Enc.ty1, Enc.ty4, Enc.ty5, q0.2, q1.2]

theorem frsq (a0 : Com) (a1 : Dst) (a2 : Src) (hw : Instr.wf (.frsq a0 a1 a2) = true) : fld (encode (.frsq a0 a1 a2)) 56 8 = 0x48 ∧ decode (encode (.frsq a0 a1 a2)) = .ok (.frsq a0 a1 a2) := by
  have hwf := hw
  replace hw : (Wf.com false a0 && Wf.dst false a1 && Wf.read false a2) = true := hw
  simp only [Bool.and_eq_true] at hw
  obtain ⟨⟨h0, h1⟩, h2⟩ := hw
  have qc := Enc.com_ok h0
  have q0 := Enc.dst_ok h1
  have q1 := Enc.src_ok h2
  rw [show encode (.frsq a0 a1 a2) = Enc.fmtV 0x48 a0 (Enc.dst a1) (Enc.src a2) 511 511 4 0 0 from rfl]
  obtain ⟨f1, f2, f3, f4, f5, f6, f7, f8, f9, f10⟩ := Enc.fmtV_fields 0x48 a0 (Enc.dst a1) (Enc.src a2) 511 511 4 0 0 (by decide) qc (by omega) (by omega) (by omega) (by omega) (by omega) (by omega) (by omega)
  generalize Enc.fmtV 0x48 a0 (Enc.dst a1) (Enc.src a2) 511 511 4 0 0 = w at *
  refine ⟨f1, Enc.decode_of f1 (by decide) f2 ?_ hwf⟩
  unfold Dec.parse
  rw [f1]
  simp [Dec.float, Dec.need, f3, f4, f5, f6, f7, f8, f9, f10, Enc.bit00, Enc.bit10, Dec.index, Dec.gindex, Dec.scrRest, Dec.vreg, Enc.kreg_add, Enc.rnd0, Enc.ty1, Enc.ty4, Enc.ty5, q0.2, q1.2]

theorem fsqrt (a0 : Com) (a1 : Rnd) (a2 : Bool) (a3 : Dst) (a4 : Src) (a5 : Option Src) (hw : Instr.wf (.fsqrt a0 a1 a2 a3 a4 a5) = true) : fld (encode (.fsqrt a0 a1 a2 a3 a4 a5)) 56 8 = 0x49 ∧ decode (encode (.fsqrt a0 a1 a2 a3 a4 a5)) = .ok (.fsqrt a0 a1 a2 a3 a4 a5) := by
  have hwf := hw
  replace hw : (Wf.com false a0 && Wf.dst false a3 && Wf.read false a4 && Wf.random a1 a5) = true := hw
  simp only [Bool.and_eq_true] at hw
  obtain ⟨⟨⟨h0, h1⟩, h2⟩, h3⟩ := hw
  have qc := Enc.com_ok h0
  have q0 := Enc.dst_ok h1
  have q1 := Enc.src_ok h2
  have q2 := Enc.rand_ok h3
  have q3 := Enc.rnd_ok a1
  have q4 := Enc.flag1_ok a2
  rw [show encode (.fsqrt a0 a1 a2 a3 a4 a5) = Enc.fmtV 0x49 a0 (Enc.dst a3) (Enc.src a4) 511 (Enc.srcOpt a5) 4 (Enc.rnd a1) (b2n a2) from rfl]
  obtain ⟨f1, f2, f3, f4, f5, f6, f7, f8, f9, f10⟩ := Enc.fmtV_fields 0x49 a0 (Enc.dst a3) (Enc.src a4) 511 (Enc.srcOpt a5) 4 (Enc.rnd a1) (b2n a2) (by decide) qc (by omega) (by omega) (by omega) (by omega) (by omega) (by omega) (by omega)
  generalize Enc.fmtV 0x49 a0 (Enc.dst a3) (Enc.src a4) 511 (Enc.srcOpt a5) 4 (Enc.rnd a1) (b2n a2) = w at *
  refine ⟨f1, Enc.decode_of f1 (by decide) f2 ?_ hwf⟩
  unfold Dec.parse
  rw [f1]
  simp [Dec.float, Dec.need, f3, f4, f5, f6, f7, f8, f9, f10, Enc.bit00, Enc.bit10, Dec.index, Dec.gindex, Dec.scrRest, Dec.vreg, Enc.kreg_add, Enc.rnd0, Enc.ty1, Enc.ty4, Enc.ty5, q0.2, q1.2, q2.2, q3.2, q4.2]

theorem fdiv (a0 : Com) (a1 : Rnd) (a2 : Bool) (a3 : Dst) (a4 : Src) (a5 : Src) (a6 : Option Src) (hw : Instr.wf (.fdiv a0 a1 a2 a3 a4 a5 a6) = true) : fld (encode (.fdiv a0 a1 a2 a3 a4 a5 a6)) 56 8 = 0x4A ∧ decode (encode (.fdiv a0 a1 a2 a3 a4 a5 a6)) = .ok (.fdiv a0 a1 a2 a3 a4 a5 a6) := by
  have hwf := hw
  replace hw : (Wf.com false a0 && Wf.dst false a3 && Wf.read false a4 && Wf.read false a5 && Wf.random a1 a6) = true := hw
  simp only [Bool.and_eq_true] at hw
  obtain ⟨⟨⟨⟨h0, h1⟩, h2⟩, h3⟩, h4⟩ := hw
  have qc := Enc.com_ok h0
  have q0 := Enc.dst_ok h1
  have q1 := Enc.src_ok h2
  have q2 := Enc.src_ok h3
  have q3 := Enc.rand_ok h4
  have q4 := Enc.rnd_ok a1
  have q5 := Enc.flag1_ok a2
  rw [show encode (.fdiv a0 a1 a2 a3 a4 a5 a6) = Enc.fmtV 0x4A a0 (Enc.dst a3) (Enc.src a4) (Enc.src a5) (Enc.srcOpt a6) 4 (Enc.rnd a1) (b2n a2) from rfl]
  obtain ⟨f1, f2, f3, f4, f5, f6, f7, f8, f9, f10⟩ := Enc.fmtV_fields 0x4A a0 (Enc.dst a3) (Enc.src a4) (Enc.src a5) (Enc.srcOpt a6) 4 (Enc.rnd a1) (b2n a2) (by decide) qc (by omega) (by omega) (by omega) (by omega) (by omega) (by omega) (by omega)
  generalize Enc.fmtV 0x4A a0 (Enc.dst a3) (Enc.src a4) (Enc.src a5) (Enc.srcOpt a6) 4 (Enc.rnd a1) (b2n a2) = w at *
  refine ⟨f1, Enc.decode_of f1 (by decide) f2 ?_ hwf⟩
  unfold Dec.parse
  rw [f1]
  simp [Dec.float, Dec.need, f3, f4, f5, f6, f7, f8, f9, f10, Enc.bit00, Enc.bit10, Dec.index, Dec.gindex, Dec.scrRest, Dec.vreg, Enc.kreg_add, Enc.rnd0, Enc.ty1, Enc.ty4, Enc.ty5, q0.2, q1.2, q2.2, q3.2, q4.2, q5.2]

theorem fexp2 (a0 : Com) (a1 : Dst) (a2 : Src) (hw : Instr.wf (.fexp2 a0 a1 a2) = true) : fld (encode (.fexp2 a0 a1 a2)) 56 8 = 0x4B ∧ decode (encode (.fexp2 a0 a1 a2)) = .ok (.fexp2 a0 a1 a2) := by
  have hwf := hw
  replace hw : (Wf.com false a0 && Wf.dst false a1 && Wf.read false a2) = true := hw
  simp only [Bool.and_eq_true] at hw
  obtain ⟨⟨h0, h1⟩, h2⟩ := hw
  have qc := Enc.com_ok h0
  have q0 := Enc.dst_ok h1
  have q1 := Enc.src_ok h2
  rw [show encode (.fexp2 a0 a1 a2) = Enc.fmtV 0x4B a0 (Enc.dst a1) (Enc.src a2) 511 511 4 0 0 from rfl]
  obtain ⟨f1, f2, f3, f4, f5, f6, f7, f8, f9, f10⟩ := Enc.fmtV_fields 0x4B a0 (Enc.dst a1) (Enc.src a2) 511 511 4 0 0 (by decide) qc (by omega) (by omega) (by omega) (by omega) (by omega) (by omega) (by omega)
  generalize Enc.fmtV 0x4B a0 (Enc.dst a1) (Enc.src a2) 511 511 4 0 0 = w at *
  refine ⟨f1, Enc.decode_of f1 (by decide) f2 ?_ hwf⟩
  unfold Dec.parse
  rw [f1]
  simp [Dec.float, Dec.need, f3, f4, f5, f6, f7, f8, f9, f10, Enc.bit00, Enc.bit10, Dec.index, Dec.gindex, Dec.scrRest, Dec.vreg, Enc.kreg_add, Enc.rnd0, Enc.ty1, Enc.ty4, Enc.ty5, q0.2, q1.2]

theorem flog2 (a0 : Com) (a1 : Dst) (a2 : Src) (hw : Instr.wf (.flog2 a0 a1 a2) = true) : fld (encode (.flog2 a0 a1 a2)) 56 8 = 0x4C ∧ decode (encode (.flog2 a0 a1 a2)) = .ok (.flog2 a0 a1 a2) := by
  have hwf := hw
  replace hw : (Wf.com false a0 && Wf.dst false a1 && Wf.read false a2) = true := hw
  simp only [Bool.and_eq_true] at hw
  obtain ⟨⟨h0, h1⟩, h2⟩ := hw
  have qc := Enc.com_ok h0
  have q0 := Enc.dst_ok h1
  have q1 := Enc.src_ok h2
  rw [show encode (.flog2 a0 a1 a2) = Enc.fmtV 0x4C a0 (Enc.dst a1) (Enc.src a2) 511 511 4 0 0 from rfl]
  obtain ⟨f1, f2, f3, f4, f5, f6, f7, f8, f9, f10⟩ := Enc.fmtV_fields 0x4C a0 (Enc.dst a1) (Enc.src a2) 511 511 4 0 0 (by decide) qc (by omega) (by omega) (by omega) (by omega) (by omega) (by omega) (by omega)
  generalize Enc.fmtV 0x4C a0 (Enc.dst a1) (Enc.src a2) 511 511 4 0 0 = w at *
  refine ⟨f1, Enc.decode_of f1 (by decide) f2 ?_ hwf⟩
  unfold Dec.parse
  rw [f1]
  simp [Dec.float, Dec.need, f3, f4, f5, f6, f7, f8, f9, f10, Enc.bit00, Enc.bit10, Dec.index, Dec.gindex, Dec.scrRest, Dec.vreg, Enc.kreg_add, Enc.rnd0, Enc.ty1, Enc.ty4, Enc.ty5, q0.2, q1.2]

theorem ftanh (a0 : Com) (a1 : Dst) (a2 : Src) (hw : Instr.wf (.ftanh a0 a1 a2) = true) : fld (encode (.ftanh a0 a1 a2)) 56 8 = 0x4D ∧ decode (encode (.ftanh a0 a1 a2)) = .ok (.ftanh a0 a1 a2) := by
  have hwf := hw
  replace hw : (Wf.com false a0 && Wf.dst false a1 && Wf.read false a2) = true := hw
  simp only [Bool.and_eq_true] at hw
  obtain ⟨⟨h0, h1⟩, h2⟩ := hw
  have qc := Enc.com_ok h0
  have q0 := Enc.dst_ok h1
  have q1 := Enc.src_ok h2
  rw [show encode (.ftanh a0 a1 a2) = Enc.fmtV 0x4D a0 (Enc.dst a1) (Enc.src a2) 511 511 4 0 0 from rfl]
  obtain ⟨f1, f2, f3, f4, f5, f6, f7, f8, f9, f10⟩ := Enc.fmtV_fields 0x4D a0 (Enc.dst a1) (Enc.src a2) 511 511 4 0 0 (by decide) qc (by omega) (by omega) (by omega) (by omega) (by omega) (by omega) (by omega)
  generalize Enc.fmtV 0x4D a0 (Enc.dst a1) (Enc.src a2) 511 511 4 0 0 = w at *
  refine ⟨f1, Enc.decode_of f1 (by decide) f2 ?_ hwf⟩
  unfold Dec.parse
  rw [f1]
  simp [Dec.float, Dec.need, f3, f4, f5, f6, f7, f8, f9, f10, Enc.bit00, Enc.bit10, Dec.index, Dec.gindex, Dec.scrRest, Dec.vreg, Enc.kreg_add, Enc.rnd0, Enc.ty1, Enc.ty4, Enc.ty5, q0.2, q1.2]

theorem fclass (a0 : Com) (a1 : Ty) (a2 : Dst) (a3 : Src) (hw : Instr.wf (.fclass a0 a1 a2 a3) = true) : fld (encode (.fclass a0 a1 a2 a3)) 56 8 = 0x4E ∧ decode (encode (.fclass a0 a1 a2 a3)) = .ok (.fclass a0 a1 a2 a3) := by
  have hwf := hw
  replace hw : (Wf.com false a0 && (a1 = .f32 || a1 = .bf16) && Wf.dst false a2 && Wf.read false a3) = true := hw
  simp only [Bool.and_eq_true] at hw
  obtain ⟨⟨⟨h0, h1⟩, h2⟩, h3⟩ := hw
  have qc := Enc.com_ok h0
  have q0 := Enc.dst_ok h2
  have q1 := Enc.src_ok h3
  try simp at h1
  have q2 := Enc.ty_ok a1
  rw [show encode (.fclass a0 a1 a2 a3) = Enc.fmtV 0x4E a0 (Enc.dst a2) (Enc.src a3) 511 511 (Enc.ty a1) 0 0 from rfl]
  obtain ⟨f1, f2, f3, f4, f5, f6, f7, f8, f9, f10⟩ := Enc.fmtV_fields 0x4E a0 (Enc.dst a2) (Enc.src a3) 511 511 (Enc.ty a1) 0 0 (by decide) qc (by omega) (by omega) (by omega) (by omega) (by omega) (by omega) (by omega)
  generalize Enc.fmtV 0x4E a0 (Enc.dst a2) (Enc.src a3) 511 511 (Enc.ty a1) 0 0 = w at *
  refine ⟨f1, Enc.decode_of f1 (by decide) f2 ?_ hwf⟩
  unfold Dec.parse
  rw [f1]
  simp [Dec.float, Dec.need, f3, f4, f5, f6, f7, f8, f9, f10, Enc.bit00, Enc.bit10, Dec.index, Dec.gindex, Dec.scrRest, Dec.vreg, Enc.kreg_add, Enc.rnd0, Enc.ty1, Enc.ty4, Enc.ty5, q0.2, q1.2, q2.2, h1]

theorem frnd (a0 : Com) (a1 : Rnd) (a2 : Bool) (a3 : Dst) (a4 : Src) (a5 : Option Src) (hw : Instr.wf (.frnd a0 a1 a2 a3 a4 a5) = true) : fld (encode (.frnd a0 a1 a2 a3 a4 a5)) 56 8 = 0x4F ∧ decode (encode (.frnd a0 a1 a2 a3 a4 a5)) = .ok (.frnd a0 a1 a2 a3 a4 a5) := by
  have hwf := hw
  replace hw : (Wf.com false a0 && Wf.dst false a3 && Wf.read false a4 && Wf.random a1 a5) = true := hw
  simp only [Bool.and_eq_true] at hw
  obtain ⟨⟨⟨h0, h1⟩, h2⟩, h3⟩ := hw
  have qc := Enc.com_ok h0
  have q0 := Enc.dst_ok h1
  have q1 := Enc.src_ok h2
  have q2 := Enc.rand_ok h3
  have q3 := Enc.rnd_ok a1
  have q4 := Enc.flag1_ok a2
  rw [show encode (.frnd a0 a1 a2 a3 a4 a5) = Enc.fmtV 0x4F a0 (Enc.dst a3) (Enc.src a4) 511 (Enc.srcOpt a5) 4 (Enc.rnd a1) (b2n a2) from rfl]
  obtain ⟨f1, f2, f3, f4, f5, f6, f7, f8, f9, f10⟩ := Enc.fmtV_fields 0x4F a0 (Enc.dst a3) (Enc.src a4) 511 (Enc.srcOpt a5) 4 (Enc.rnd a1) (b2n a2) (by decide) qc (by omega) (by omega) (by omega) (by omega) (by omega) (by omega) (by omega)
  generalize Enc.fmtV 0x4F a0 (Enc.dst a3) (Enc.src a4) 511 (Enc.srcOpt a5) 4 (Enc.rnd a1) (b2n a2) = w at *
  refine ⟨f1, Enc.decode_of f1 (by decide) f2 ?_ hwf⟩
  unfold Dec.parse
  rw [f1]
  simp [Dec.float, Dec.need, f3, f4, f5, f6, f7, f8, f9, f10, Enc.bit00, Enc.bit10, Dec.index, Dec.gindex, Dec.scrRest, Dec.vreg, Enc.kreg_add, Enc.rnd0, Enc.ty1, Enc.ty4, Enc.ty5, q0.2, q1.2, q2.2, q3.2, q4.2]

theorem pkadd (a0 : Com) (a1 : Rnd) (a2 : Bool) (a3 : Bool) (a4 : Dst) (a5 : Src) (a6 : Src) (a7 : Option Src) (hw : Instr.wf (.pkadd a0 a1 a2 a3 a4 a5 a6 a7) = true) : fld (encode (.pkadd a0 a1 a2 a3 a4 a5 a6 a7)) 56 8 = 0x50 ∧ decode (encode (.pkadd a0 a1 a2 a3 a4 a5 a6 a7)) = .ok (.pkadd a0 a1 a2 a3 a4 a5 a6 a7) := by
  have hwf := hw
  replace hw : (Wf.com false a0 && Wf.dst false a4 && Wf.read false a5 && Wf.read false a6 && Wf.random a1 a7) = true := hw
  simp only [Bool.and_eq_true] at hw
  obtain ⟨⟨⟨⟨h0, h1⟩, h2⟩, h3⟩, h4⟩ := hw
  have qc := Enc.com_ok h0
  have q0 := Enc.dst_ok h1
  have q1 := Enc.src_ok h2
  have q2 := Enc.src_ok h3
  have q3 := Enc.rand_ok h4
  have q4 := Enc.rnd_ok a1
  have q5 := Enc.flag1_ok a2
  have q6 := Enc.flag1_ok a3
  rw [show encode (.pkadd a0 a1 a2 a3 a4 a5 a6 a7) = Enc.fmtV 0x50 a0 (Enc.dst a4) (Enc.src a5) (Enc.src a6) (Enc.srcOpt a7) 5 (Enc.rnd a1) (b2n a2 + 2 * b2n a3) from rfl]
  obtain ⟨f1, f2, f3, f4, f5, f6, f7, f8, f9, f10⟩ := Enc.fmtV_fields 0x50 a0 (Enc.dst a4) (Enc.src a5) (Enc.src a6) (Enc.srcOpt a7) 5 (Enc.rnd a1) (b2n a2 + 2 * b2n a3) (by decide) qc (by omega) (by omega) (by omega) (by omega) (by omega) (by omega) (by omega)
  generalize Enc.fmtV 0x50 a0 (Enc.dst a4) (Enc.src a5) (Enc.src a6) (Enc.srcOpt a7) 5 (Enc.rnd a1) (b2n a2 + 2 * b2n a3) = w at *
  refine ⟨f1, Enc.decode_of f1 (by decide) f2 ?_ hwf⟩
  have g0 : b2n a2 + 2 * b2n a3 < 4 := by cases a2 <;> cases a3 <;> decide
  have g1 : bit (b2n a2 + 2 * b2n a3) 0 = a2 := by cases a2 <;> cases a3 <;> rfl
  have g2 : bit (b2n a2 + 2 * b2n a3) 1 = a3 := by cases a2 <;> cases a3 <;> rfl
  unfold Dec.parse
  rw [f1]
  simp [Dec.float, Dec.need, f3, f4, f5, f6, f7, f8, f9, f10, Enc.bit00, Enc.bit10, Dec.index, Dec.gindex, Dec.scrRest, Dec.vreg, Enc.kreg_add, Enc.rnd0, Enc.ty1, Enc.ty4, Enc.ty5, q0.2, q1.2, q2.2, q3.2, q4.2, q5.2, q6.2, g0, g1, g2]

theorem pkmul (a0 : Com) (a1 : Rnd) (a2 : Bool) (a3 : Bool) (a4 : Dst) (a5 : Src) (a6 : Src) (a7 : Option Src) (hw : Instr.wf (.pkmul a0 a1 a2 a3 a4 a5 a6 a7) = true) : fld (encode (.pkmul a0 a1 a2 a3 a4 a5 a6 a7)) 56 8 = 0x51 ∧ decode (encode (.pkmul a0 a1 a2 a3 a4 a5 a6 a7)) = .ok (.pkmul a0 a1 a2 a3 a4 a5 a6 a7) := by
  have hwf := hw
  replace hw : (Wf.com false a0 && Wf.dst false a4 && Wf.read false a5 && Wf.read false a6 && Wf.random a1 a7) = true := hw
  simp only [Bool.and_eq_true] at hw
  obtain ⟨⟨⟨⟨h0, h1⟩, h2⟩, h3⟩, h4⟩ := hw
  have qc := Enc.com_ok h0
  have q0 := Enc.dst_ok h1
  have q1 := Enc.src_ok h2
  have q2 := Enc.src_ok h3
  have q3 := Enc.rand_ok h4
  have q4 := Enc.rnd_ok a1
  have q5 := Enc.flag1_ok a2
  have q6 := Enc.flag1_ok a3
  rw [show encode (.pkmul a0 a1 a2 a3 a4 a5 a6 a7) = Enc.fmtV 0x51 a0 (Enc.dst a4) (Enc.src a5) (Enc.src a6) (Enc.srcOpt a7) 5 (Enc.rnd a1) (b2n a2 + 2 * b2n a3) from rfl]
  obtain ⟨f1, f2, f3, f4, f5, f6, f7, f8, f9, f10⟩ := Enc.fmtV_fields 0x51 a0 (Enc.dst a4) (Enc.src a5) (Enc.src a6) (Enc.srcOpt a7) 5 (Enc.rnd a1) (b2n a2 + 2 * b2n a3) (by decide) qc (by omega) (by omega) (by omega) (by omega) (by omega) (by omega) (by omega)
  generalize Enc.fmtV 0x51 a0 (Enc.dst a4) (Enc.src a5) (Enc.src a6) (Enc.srcOpt a7) 5 (Enc.rnd a1) (b2n a2 + 2 * b2n a3) = w at *
  refine ⟨f1, Enc.decode_of f1 (by decide) f2 ?_ hwf⟩
  have g0 : b2n a2 + 2 * b2n a3 < 4 := by cases a2 <;> cases a3 <;> decide
  have g1 : bit (b2n a2 + 2 * b2n a3) 0 = a2 := by cases a2 <;> cases a3 <;> rfl
  have g2 : bit (b2n a2 + 2 * b2n a3) 1 = a3 := by cases a2 <;> cases a3 <;> rfl
  unfold Dec.parse
  rw [f1]
  simp [Dec.float, Dec.need, f3, f4, f5, f6, f7, f8, f9, f10, Enc.bit00, Enc.bit10, Dec.index, Dec.gindex, Dec.scrRest, Dec.vreg, Enc.kreg_add, Enc.rnd0, Enc.ty1, Enc.ty4, Enc.ty5, q0.2, q1.2, q2.2, q3.2, q4.2, q5.2, q6.2, g0, g1, g2]

theorem pkfma (a0 : Com) (a1 : Rnd) (a2 : Bool) (a3 : Bool) (a4 : Dst) (a5 : Src) (a6 : Src) (a7 : Src) (hw : Instr.wf (.pkfma a0 a1 a2 a3 a4 a5 a6 a7) = true) : fld (encode (.pkfma a0 a1 a2 a3 a4 a5 a6 a7)) 56 8 = 0x52 ∧ decode (encode (.pkfma a0 a1 a2 a3 a4 a5 a6 a7)) = .ok (.pkfma a0 a1 a2 a3 a4 a5 a6 a7) := by
  have hwf := hw
  replace hw : (Wf.com false a0 && a1 ≠ .rs && Wf.dst false a4 && Wf.read false a5 && Wf.read false a6 && Wf.read false a7) = true := hw
  simp only [Bool.and_eq_true] at hw
  obtain ⟨⟨⟨⟨⟨h0, h1⟩, h2⟩, h3⟩, h4⟩, h5⟩ := hw
  have qc := Enc.com_ok h0
  have q0 := Enc.dst_ok h2
  have q1 := Enc.src_ok h3
  have q2 := Enc.src_ok h4
  have q3 := Enc.src_ok h5
  try simp at h1
  have q4 := Enc.rnd_ok a1
  have q5 := Enc.flag1_ok a2
  have q6 := Enc.flag1_ok a3
  rw [show encode (.pkfma a0 a1 a2 a3 a4 a5 a6 a7) = Enc.fmtV 0x52 a0 (Enc.dst a4) (Enc.src a5) (Enc.src a6) (Enc.src a7) 5 (Enc.rnd a1) (b2n a2 + 2 * b2n a3) from rfl]
  obtain ⟨f1, f2, f3, f4, f5, f6, f7, f8, f9, f10⟩ := Enc.fmtV_fields 0x52 a0 (Enc.dst a4) (Enc.src a5) (Enc.src a6) (Enc.src a7) 5 (Enc.rnd a1) (b2n a2 + 2 * b2n a3) (by decide) qc (by omega) (by omega) (by omega) (by omega) (by omega) (by omega) (by omega)
  generalize Enc.fmtV 0x52 a0 (Enc.dst a4) (Enc.src a5) (Enc.src a6) (Enc.src a7) 5 (Enc.rnd a1) (b2n a2 + 2 * b2n a3) = w at *
  refine ⟨f1, Enc.decode_of f1 (by decide) f2 ?_ hwf⟩
  have g0 : b2n a2 + 2 * b2n a3 < 4 := by cases a2 <;> cases a3 <;> decide
  have g1 : bit (b2n a2 + 2 * b2n a3) 0 = a2 := by cases a2 <;> cases a3 <;> rfl
  have g2 : bit (b2n a2 + 2 * b2n a3) 1 = a3 := by cases a2 <;> cases a3 <;> rfl
  unfold Dec.parse
  rw [f1]
  simp [Dec.float, Dec.need, f3, f4, f5, f6, f7, f8, f9, f10, Enc.bit00, Enc.bit10, Dec.index, Dec.gindex, Dec.scrRest, Dec.vreg, Enc.kreg_add, Enc.rnd0, Enc.ty1, Enc.ty4, Enc.ty5, q0.2, q1.2, q2.2, q3.2, q4.2, q5.2, q6.2, h1, g0, g1, g2]

theorem pkmnx (a0 : Com) (a1 : MnxOp) (a2 : Bool) (a3 : Dst) (a4 : Src) (a5 : Src) (hw : Instr.wf (.pkmnx a0 a1 a2 a3 a4 a5) = true) : fld (encode (.pkmnx a0 a1 a2 a3 a4 a5)) 56 8 = 0x53 ∧ decode (encode (.pkmnx a0 a1 a2 a3 a4 a5)) = .ok (.pkmnx a0 a1 a2 a3 a4 a5) := by
  have hwf := hw
  replace hw : (Wf.com false a0 && Wf.dst false a3 && Wf.read false a4 && Wf.read false a5) = true := hw
  simp only [Bool.and_eq_true] at hw
  obtain ⟨⟨⟨h0, h1⟩, h2⟩, h3⟩ := hw
  have qc := Enc.com_ok h0
  have q0 := Enc.dst_ok h1
  have q1 := Enc.src_ok h2
  have q2 := Enc.src_ok h3
  have q3 := Enc.mnxOp_ok a1
  have q4 := Enc.flag1_ok a2
  rw [show encode (.pkmnx a0 a1 a2 a3 a4 a5) = Enc.fmtV 0x53 a0 (Enc.dst a3) (Enc.src a4) (Enc.src a5) 511 5 0 (Enc.mnxOp a1 + 4 * b2n a2) from rfl]
  obtain ⟨f1, f2, f3, f4, f5, f6, f7, f8, f9, f10⟩ := Enc.fmtV_fields 0x53 a0 (Enc.dst a3) (Enc.src a4) (Enc.src a5) 511 5 0 (Enc.mnxOp a1 + 4 * b2n a2) (by decide) qc (by omega) (by omega) (by omega) (by omega) (by omega) (by omega) (by omega)
  generalize Enc.fmtV 0x53 a0 (Enc.dst a3) (Enc.src a4) (Enc.src a5) 511 5 0 (Enc.mnxOp a1 + 4 * b2n a2) = w at *
  refine ⟨f1, Enc.decode_of f1 (by decide) f2 ?_ hwf⟩
  have g0 : Enc.mnxOp a1 + 4 * b2n a2 < 8 := by cases a1 <;> cases a2 <;> decide
  have g1 : Enc.mnxOp a1 % 4 = Enc.mnxOp a1 := by cases a1 <;> decide
  have g2 : bit (Enc.mnxOp a1 + 4 * b2n a2) 2 = a2 := by cases a1 <;> cases a2 <;> rfl
  unfold Dec.parse
  rw [f1]
  simp [Dec.float, Dec.need, f3, f4, f5, f6, f7, f8, f9, f10, Enc.bit00, Enc.bit10, Dec.index, Dec.gindex, Dec.scrRest, Dec.vreg, Enc.kreg_add, Enc.rnd0, Enc.ty1, Enc.ty4, Enc.ty5, q0.2, q1.2, q2.2, q3.2, q4.2, g0, g1, g2]

theorem cvti (a0 : Com) (a1 : Ty) (a2 : Ty) (a3 : Rnd) (a4 : Dst) (a5 : Src) (a6 : Option Src) (hw : Instr.wf (.cvti a0 a1 a2 a3 a4 a5 a6) = true) : fld (encode (.cvti a0 a1 a2 a3 a4 a5 a6)) 56 8 = 0x60 ∧ decode (encode (.cvti a0 a1 a2 a3 a4 a5 a6)) = .ok (.cvti a0 a1 a2 a3 a4 a5 a6) := by
  have hwf := hw
  replace hw : (Wf.com false a0 && a1.isInt && a2 ≠ .e8m0 && a2 ≠ .c4 && (!a2.isInt || a3 = .rn) && Wf.dst a1.wide a4 && Wf.read a2.wide a5 && Wf.random a3 a6) = true := hw
  simp only [Bool.and_eq_true] at hw
  obtain ⟨⟨⟨⟨⟨⟨⟨h0, h1⟩, h2⟩, h3⟩, h4⟩, h5⟩, h6⟩, h7⟩ := hw
  have qc := Enc.com_ok h0
  have q0 := Enc.dst_ok h5
  have q1 := Enc.src_ok h6
  have q2 := Enc.rand_ok h7
  try simp at h1
  try simp at h2
  try simp at h3
  try simp at h4
  have q3 := Enc.ty_ok a1
  have q4 := Enc.ty_ok a2
  have q5 := Enc.rnd_ok a3
  rw [show encode (.cvti a0 a1 a2 a3 a4 a5 a6) = Enc.fmtV 0x60 a0 (Enc.dst a4) (Enc.src a5) 511 (Enc.srcOpt a6) (Enc.ty a1) (Enc.rnd a3) (Enc.ty a2) from rfl]
  obtain ⟨f1, f2, f3, f4, f5, f6, f7, f8, f9, f10⟩ := Enc.fmtV_fields 0x60 a0 (Enc.dst a4) (Enc.src a5) 511 (Enc.srcOpt a6) (Enc.ty a1) (Enc.rnd a3) (Enc.ty a2) (by decide) qc (by omega) (by omega) (by omega) (by omega) (by omega) (by omega) (by omega)
  generalize Enc.fmtV 0x60 a0 (Enc.dst a4) (Enc.src a5) 511 (Enc.srcOpt a6) (Enc.ty a1) (Enc.rnd a3) (Enc.ty a2) = w at *
  refine ⟨f1, Enc.decode_of f1 (by decide) f2 ?_ hwf⟩
  have g0 : Enc.ty a2 < 16 := by cases a2 <;> decide
  unfold Dec.parse
  rw [f1]
  simp [Dec.convert, Dec.need, f3, f4, f5, f6, f7, f8, f9, f10, Enc.bit00, Enc.bit10, Dec.index, Dec.gindex, Dec.scrRest, Dec.vreg, Enc.kreg_add, Enc.rnd0, Enc.ty1, Enc.ty4, Enc.ty5, q0.2, q1.2, q2.2, q3.2, q4.2, q5.2, h1, h2, h3, h4, g0]

theorem cvtf (a0 : Com) (a1 : Ty) (a2 : Ty) (a3 : Rnd) (a4 : Bool) (a5 : Dst) (a6 : Src) (a7 : Option Src) (hw : Instr.wf (.cvtf a0 a1 a2 a3 a4 a5 a6 a7) = true) : fld (encode (.cvtf a0 a1 a2 a3 a4 a5 a6 a7)) 56 8 = 0x61 ∧ decode (encode (.cvtf a0 a1 a2 a3 a4 a5 a6 a7)) = .ok (.cvtf a0 a1 a2 a3 a4 a5 a6 a7) := by
  have hwf := hw
  replace hw : (Wf.com false a0 && !a1.isInt && a1 ≠ .c4 && a2 ≠ .c4 && (a2 ≠ .e8m0 || a1 = .f32) && (a1 ≠ .e8m0 || (a2 = .f32 && (a3 = .rz || a3 = .ru || a3 = .rd))) && Wf.dst false a5 && Wf.read a2.wide a6 && Wf.random a3 a7) = true := hw
  simp only [Bool.and_eq_true] at hw
  obtain ⟨⟨⟨⟨⟨⟨⟨⟨h0, h1⟩, h2⟩, h3⟩, h4⟩, h5⟩, h6⟩, h7⟩, h8⟩ := hw
  have qc := Enc.com_ok h0
  have q0 := Enc.dst_ok h6
  have q1 := Enc.src_ok h7
  have q2 := Enc.rand_ok h8
  try simp at h1
  try simp at h2
  try simp at h3
  try simp at h4
  try simp at h5
  have q3 := Enc.ty_ok a1
  have q4 := Enc.ty_ok a2
  have q5 := Enc.rnd_ok a3
  have q6 := Enc.flag1_ok a4
  rw [show encode (.cvtf a0 a1 a2 a3 a4 a5 a6 a7) = Enc.fmtV 0x61 a0 (Enc.dst a5) (Enc.src a6) 511 (Enc.srcOpt a7) (Enc.ty a1) (Enc.rnd a3) (Enc.ty a2 + 16 * b2n a4) from rfl]
  obtain ⟨f1, f2, f3, f4, f5, f6, f7, f8, f9, f10⟩ := Enc.fmtV_fields 0x61 a0 (Enc.dst a5) (Enc.src a6) 511 (Enc.srcOpt a7) (Enc.ty a1) (Enc.rnd a3) (Enc.ty a2 + 16 * b2n a4) (by decide) qc (by omega) (by omega) (by omega) (by omega) (by omega) (by omega) (by omega)
  generalize Enc.fmtV 0x61 a0 (Enc.dst a5) (Enc.src a6) 511 (Enc.srcOpt a7) (Enc.ty a1) (Enc.rnd a3) (Enc.ty a2 + 16 * b2n a4) = w at *
  refine ⟨f1, Enc.decode_of f1 (by decide) f2 ?_ hwf⟩
  have g0 : Enc.ty a2 % 16 = Enc.ty a2 := by cases a2 <;> decide
  have g1 : decide (16 ≤ Enc.ty a2 + 16 * b2n a4) = a4 := by cases a2 <;> cases a4 <;> decide
  unfold Dec.parse
  rw [f1]
  simp [Dec.convert, Dec.need, f3, f4, f5, f6, f7, f8, f9, f10, Enc.bit00, Enc.bit10, Dec.index, Dec.gindex, Dec.scrRest, Dec.vreg, Enc.kreg_add, Enc.rnd0, Enc.ty1, Enc.ty4, Enc.ty5, q0.2, q1.2, q2.2, q3.2, q4.2, q5.2, q6.2, h1, h2, h3, h4, h5, g0, g1]

theorem pack2 (a0 : Com) (a1 : Ty) (a2 : Rnd) (a3 : Bool) (a4 : Scale) (a5 : Dst) (a6 : Nat) (a7 : Option Src) (hw : Instr.wf (.pack2 a0 a1 a2 a3 a4 a5 a6 a7) = true) : fld (encode (.pack2 a0 a1 a2 a3 a4 a5 a6 a7)) 56 8 = 0x62 ∧ decode (encode (.pack2 a0 a1 a2 a3 a4 a5 a6 a7)) = .ok (.pack2 a0 a1 a2 a3 a4 a5 a6 a7) := by
  have hwf := hw
  replace hw : (Wf.com false a0 && Wf.pack 2 a1 a2 a3 a4 a5 a6 a7) = true := hw
  simp only [Bool.and_eq_true] at hw
  obtain ⟨h0, h1⟩ := hw
  have qc := Enc.com_ok h0
  have hp : (Wf.packTy 2 a1 && Wf.scale a1 a4 && Wf.dst false a5 && decide (a6 + 2 ≤ 320) && Wf.random a2 a7 && (decide (a1 ≠ .c4) || (decide (a2 = .rn) && !a3))) = true := h1
  simp only [Bool.and_eq_true, decide_eq_true_eq] at hp
  obtain ⟨⟨⟨⟨⟨p1, p2⟩, p3⟩, p4⟩, p5⟩, p6⟩ := hp
  have e1 := Enc.dst_ok p3
  have e2 := Enc.rand_ok p5
  have e3 := Enc.scale_ok p2
  have e4 : a6 < 320 := by omega
  have e5 := Enc.b2n_lt a3
  have q0 := Enc.ty_ok a1
  have q1 := Enc.rnd_ok a2
  have q2 := Enc.flag1_ok a3
  rw [show encode (.pack2 a0 a1 a2 a3 a4 a5 a6 a7) = Enc.fmtV 0x62 a0 (Enc.dst a5) a6 (Enc.scaleB a4) (Enc.srcOpt a7) (Enc.ty a1) (Enc.rnd a2) (Enc.scaleV a4 + 8 * b2n a3) from rfl]
  obtain ⟨f1, f2, f3, f4, f5, f6, f7, f8, f9, f10⟩ := Enc.fmtV_fields 0x62 a0 (Enc.dst a5) a6 (Enc.scaleB a4) (Enc.srcOpt a7) (Enc.ty a1) (Enc.rnd a2) (Enc.scaleV a4 + 8 * b2n a3) (by decide) qc (by omega) (by omega) (by omega) (by omega) (by omega) (by omega) (by omega)
  generalize Enc.fmtV 0x62 a0 (Enc.dst a5) a6 (Enc.scaleB a4) (Enc.srcOpt a7) (Enc.ty a1) (Enc.rnd a2) (Enc.scaleV a4 + 8 * b2n a3) = w at *
  refine ⟨f1, Enc.decode_of f1 (by decide) f2 ?_ hwf⟩
  have g0 : Enc.scaleV a4 + 8 * b2n a3 < 16 := by omega
  have g1 : bit (Enc.scaleV a4 + 8 * b2n a3) 3 = a3 := Enc.bit3_ok _ _ e3.2.1
  have g2 : Dec.scale a1 w = some a4 := e3.2.2 w f6 (by rw [show fld w 0 5 = Enc.scaleV a4 + 8 * b2n a3 from f10]; omega)
  unfold Dec.parse
  rw [f1]
  simp [Dec.convert, Dec.need, f3, f4, f5, f6, f7, f8, f9, f10, Enc.bit00, Enc.bit10, Dec.index, Dec.gindex, Dec.scrRest, Dec.vreg, Enc.kreg_add, Enc.rnd0, Enc.ty1, Enc.ty4, Enc.ty5, q0.2, q1.2, q2.2, g0, g1, g2, e1.2, e2.2, e4]

theorem pack4 (a0 : Com) (a1 : Ty) (a2 : Rnd) (a3 : Bool) (a4 : Scale) (a5 : Dst) (a6 : Nat) (a7 : Option Src) (hw : Instr.wf (.pack4 a0 a1 a2 a3 a4 a5 a6 a7) = true) : fld (encode (.pack4 a0 a1 a2 a3 a4 a5 a6 a7)) 56 8 = 0x63 ∧ decode (encode (.pack4 a0 a1 a2 a3 a4 a5 a6 a7)) = .ok (.pack4 a0 a1 a2 a3 a4 a5 a6 a7) := by
  have hwf := hw
  replace hw : (Wf.com false a0 && Wf.pack 4 a1 a2 a3 a4 a5 a6 a7) = true := hw
  simp only [Bool.and_eq_true] at hw
  obtain ⟨h0, h1⟩ := hw
  have qc := Enc.com_ok h0
  have hp : (Wf.packTy 4 a1 && Wf.scale a1 a4 && Wf.dst false a5 && decide (a6 + 4 ≤ 320) && Wf.random a2 a7 && (decide (a1 ≠ .c4) || (decide (a2 = .rn) && !a3))) = true := h1
  simp only [Bool.and_eq_true, decide_eq_true_eq] at hp
  obtain ⟨⟨⟨⟨⟨p1, p2⟩, p3⟩, p4⟩, p5⟩, p6⟩ := hp
  have e1 := Enc.dst_ok p3
  have e2 := Enc.rand_ok p5
  have e3 := Enc.scale_ok p2
  have e4 : a6 < 320 := by omega
  have e5 := Enc.b2n_lt a3
  have q0 := Enc.ty_ok a1
  have q1 := Enc.rnd_ok a2
  have q2 := Enc.flag1_ok a3
  rw [show encode (.pack4 a0 a1 a2 a3 a4 a5 a6 a7) = Enc.fmtV 0x63 a0 (Enc.dst a5) a6 (Enc.scaleB a4) (Enc.srcOpt a7) (Enc.ty a1) (Enc.rnd a2) (Enc.scaleV a4 + 8 * b2n a3) from rfl]
  obtain ⟨f1, f2, f3, f4, f5, f6, f7, f8, f9, f10⟩ := Enc.fmtV_fields 0x63 a0 (Enc.dst a5) a6 (Enc.scaleB a4) (Enc.srcOpt a7) (Enc.ty a1) (Enc.rnd a2) (Enc.scaleV a4 + 8 * b2n a3) (by decide) qc (by omega) (by omega) (by omega) (by omega) (by omega) (by omega) (by omega)
  generalize Enc.fmtV 0x63 a0 (Enc.dst a5) a6 (Enc.scaleB a4) (Enc.srcOpt a7) (Enc.ty a1) (Enc.rnd a2) (Enc.scaleV a4 + 8 * b2n a3) = w at *
  refine ⟨f1, Enc.decode_of f1 (by decide) f2 ?_ hwf⟩
  have g0 : Enc.scaleV a4 + 8 * b2n a3 < 16 := by omega
  have g1 : bit (Enc.scaleV a4 + 8 * b2n a3) 3 = a3 := Enc.bit3_ok _ _ e3.2.1
  have g2 : Dec.scale a1 w = some a4 := e3.2.2 w f6 (by rw [show fld w 0 5 = Enc.scaleV a4 + 8 * b2n a3 from f10]; omega)
  unfold Dec.parse
  rw [f1]
  simp [Dec.convert, Dec.need, f3, f4, f5, f6, f7, f8, f9, f10, Enc.bit00, Enc.bit10, Dec.index, Dec.gindex, Dec.scrRest, Dec.vreg, Enc.kreg_add, Enc.rnd0, Enc.ty1, Enc.ty4, Enc.ty5, q0.2, q1.2, q2.2, g0, g1, g2, e1.2, e2.2, e4]

theorem pack8 (a0 : Com) (a1 : Ty) (a2 : Rnd) (a3 : Bool) (a4 : Scale) (a5 : Dst) (a6 : Nat) (a7 : Option Src) (hw : Instr.wf (.pack8 a0 a1 a2 a3 a4 a5 a6 a7) = true) : fld (encode (.pack8 a0 a1 a2 a3 a4 a5 a6 a7)) 56 8 = 0x64 ∧ decode (encode (.pack8 a0 a1 a2 a3 a4 a5 a6 a7)) = .ok (.pack8 a0 a1 a2 a3 a4 a5 a6 a7) := by
  have hwf := hw
  replace hw : (Wf.com false a0 && Wf.pack 8 a1 a2 a3 a4 a5 a6 a7) = true := hw
  simp only [Bool.and_eq_true] at hw
  obtain ⟨h0, h1⟩ := hw
  have qc := Enc.com_ok h0
  have hp : (Wf.packTy 8 a1 && Wf.scale a1 a4 && Wf.dst false a5 && decide (a6 + 8 ≤ 320) && Wf.random a2 a7 && (decide (a1 ≠ .c4) || (decide (a2 = .rn) && !a3))) = true := h1
  simp only [Bool.and_eq_true, decide_eq_true_eq] at hp
  obtain ⟨⟨⟨⟨⟨p1, p2⟩, p3⟩, p4⟩, p5⟩, p6⟩ := hp
  have e1 := Enc.dst_ok p3
  have e2 := Enc.rand_ok p5
  have e3 := Enc.scale_ok p2
  have e4 : a6 < 320 := by omega
  have e5 := Enc.b2n_lt a3
  have q0 := Enc.ty_ok a1
  have q1 := Enc.rnd_ok a2
  have q2 := Enc.flag1_ok a3
  rw [show encode (.pack8 a0 a1 a2 a3 a4 a5 a6 a7) = Enc.fmtV 0x64 a0 (Enc.dst a5) a6 (Enc.scaleB a4) (Enc.srcOpt a7) (Enc.ty a1) (Enc.rnd a2) (Enc.scaleV a4 + 8 * b2n a3) from rfl]
  obtain ⟨f1, f2, f3, f4, f5, f6, f7, f8, f9, f10⟩ := Enc.fmtV_fields 0x64 a0 (Enc.dst a5) a6 (Enc.scaleB a4) (Enc.srcOpt a7) (Enc.ty a1) (Enc.rnd a2) (Enc.scaleV a4 + 8 * b2n a3) (by decide) qc (by omega) (by omega) (by omega) (by omega) (by omega) (by omega) (by omega)
  generalize Enc.fmtV 0x64 a0 (Enc.dst a5) a6 (Enc.scaleB a4) (Enc.srcOpt a7) (Enc.ty a1) (Enc.rnd a2) (Enc.scaleV a4 + 8 * b2n a3) = w at *
  refine ⟨f1, Enc.decode_of f1 (by decide) f2 ?_ hwf⟩
  have g0 : Enc.scaleV a4 + 8 * b2n a3 < 16 := by omega
  have g1 : bit (Enc.scaleV a4 + 8 * b2n a3) 3 = a3 := Enc.bit3_ok _ _ e3.2.1
  have g2 : Dec.scale a1 w = some a4 := e3.2.2 w f6 (by rw [show fld w 0 5 = Enc.scaleV a4 + 8 * b2n a3 from f10]; omega)
  unfold Dec.parse
  rw [f1]
  simp [Dec.convert, Dec.need, f3, f4, f5, f6, f7, f8, f9, f10, Enc.bit00, Enc.bit10, Dec.index, Dec.gindex, Dec.scrRest, Dec.vreg, Enc.kreg_add, Enc.rnd0, Enc.ty1, Enc.ty4, Enc.ty5, q0.2, q1.2, q2.2, g0, g1, g2, e1.2, e2.2, e4]

theorem unpk2 (a0 : Com) (a1 : Ty) (a2 : Rnd) (a3 : Scale) (a4 : Nat) (a5 : Src) (a6 : Option Src) (hw : Instr.wf (.unpk2 a0 a1 a2 a3 a4 a5 a6) = true) : fld (encode (.unpk2 a0 a1 a2 a3 a4 a5 a6)) 56 8 = 0x65 ∧ decode (encode (.unpk2 a0 a1 a2 a3 a4 a5 a6)) = .ok (.unpk2 a0 a1 a2 a3 a4 a5 a6) := by
  have hwf := hw
  replace hw : (Wf.com false a0 && Wf.unpk 2 a1 a2 a3 a4 a5 a6) = true := hw
  simp only [Bool.and_eq_true] at hw
  obtain ⟨h0, h1⟩ := hw
  have qc := Enc.com_ok h0
  have hp : (Wf.packTy 2 a1 && Wf.scale a1 a3 && Wf.read false a5 && decide (a4 + 2 ≤ 320) && Wf.random a2 a6 && (decide (a1 ≠ .c4) || decide (a2 = .rn))) = true := h1
  simp only [Bool.and_eq_true, decide_eq_true_eq] at hp
  obtain ⟨⟨⟨⟨⟨p1, p2⟩, p3⟩, p4⟩, p5⟩, p6⟩ := hp
  have e1 := Enc.src_ok p3
  have e2 := Enc.rand_ok p5
  have e3 := Enc.scale_ok p2
  have e4 : a4 < 320 := by omega
  have q0 := Enc.ty_ok a1
  have q1 := Enc.rnd_ok a2
  rw [show encode (.unpk2 a0 a1 a2 a3 a4 a5 a6) = Enc.fmtV 0x65 a0 a4 (Enc.src a5) (Enc.scaleB a3) (Enc.srcOpt a6) (Enc.ty a1) (Enc.rnd a2) (Enc.scaleV a3) from rfl]
  obtain ⟨f1, f2, f3, f4, f5, f6, f7, f8, f9, f10⟩ := Enc.fmtV_fields 0x65 a0 a4 (Enc.src a5) (Enc.scaleB a3) (Enc.srcOpt a6) (Enc.ty a1) (Enc.rnd a2) (Enc.scaleV a3) (by decide) qc (by omega) (by omega) (by omega) (by omega) (by omega) (by omega) (by omega)
  generalize Enc.fmtV 0x65 a0 a4 (Enc.src a5) (Enc.scaleB a3) (Enc.srcOpt a6) (Enc.ty a1) (Enc.rnd a2) (Enc.scaleV a3) = w at *
  refine ⟨f1, Enc.decode_of f1 (by decide) f2 ?_ hwf⟩
  have g0 : Enc.scaleV a3 < 8 := by omega
  have g1 : Dec.scale a1 w = some a3 := e3.2.2 w f6 (by rw [show fld w 0 5 = Enc.scaleV a3 from f10]; omega)
  unfold Dec.parse
  rw [f1]
  simp [Dec.convert, Dec.need, f3, f4, f5, f6, f7, f8, f9, f10, Enc.bit00, Enc.bit10, Dec.index, Dec.gindex, Dec.scrRest, Dec.vreg, Enc.kreg_add, Enc.rnd0, Enc.ty1, Enc.ty4, Enc.ty5, q0.2, q1.2, g0, g1, e1.2, e2.2, e4]

theorem unpk4 (a0 : Com) (a1 : Ty) (a2 : Rnd) (a3 : Scale) (a4 : Nat) (a5 : Src) (a6 : Option Src) (hw : Instr.wf (.unpk4 a0 a1 a2 a3 a4 a5 a6) = true) : fld (encode (.unpk4 a0 a1 a2 a3 a4 a5 a6)) 56 8 = 0x66 ∧ decode (encode (.unpk4 a0 a1 a2 a3 a4 a5 a6)) = .ok (.unpk4 a0 a1 a2 a3 a4 a5 a6) := by
  have hwf := hw
  replace hw : (Wf.com false a0 && Wf.unpk 4 a1 a2 a3 a4 a5 a6) = true := hw
  simp only [Bool.and_eq_true] at hw
  obtain ⟨h0, h1⟩ := hw
  have qc := Enc.com_ok h0
  have hp : (Wf.packTy 4 a1 && Wf.scale a1 a3 && Wf.read false a5 && decide (a4 + 4 ≤ 320) && Wf.random a2 a6 && (decide (a1 ≠ .c4) || decide (a2 = .rn))) = true := h1
  simp only [Bool.and_eq_true, decide_eq_true_eq] at hp
  obtain ⟨⟨⟨⟨⟨p1, p2⟩, p3⟩, p4⟩, p5⟩, p6⟩ := hp
  have e1 := Enc.src_ok p3
  have e2 := Enc.rand_ok p5
  have e3 := Enc.scale_ok p2
  have e4 : a4 < 320 := by omega
  have q0 := Enc.ty_ok a1
  have q1 := Enc.rnd_ok a2
  rw [show encode (.unpk4 a0 a1 a2 a3 a4 a5 a6) = Enc.fmtV 0x66 a0 a4 (Enc.src a5) (Enc.scaleB a3) (Enc.srcOpt a6) (Enc.ty a1) (Enc.rnd a2) (Enc.scaleV a3) from rfl]
  obtain ⟨f1, f2, f3, f4, f5, f6, f7, f8, f9, f10⟩ := Enc.fmtV_fields 0x66 a0 a4 (Enc.src a5) (Enc.scaleB a3) (Enc.srcOpt a6) (Enc.ty a1) (Enc.rnd a2) (Enc.scaleV a3) (by decide) qc (by omega) (by omega) (by omega) (by omega) (by omega) (by omega) (by omega)
  generalize Enc.fmtV 0x66 a0 a4 (Enc.src a5) (Enc.scaleB a3) (Enc.srcOpt a6) (Enc.ty a1) (Enc.rnd a2) (Enc.scaleV a3) = w at *
  refine ⟨f1, Enc.decode_of f1 (by decide) f2 ?_ hwf⟩
  have g0 : Enc.scaleV a3 < 8 := by omega
  have g1 : Dec.scale a1 w = some a3 := e3.2.2 w f6 (by rw [show fld w 0 5 = Enc.scaleV a3 from f10]; omega)
  unfold Dec.parse
  rw [f1]
  simp [Dec.convert, Dec.need, f3, f4, f5, f6, f7, f8, f9, f10, Enc.bit00, Enc.bit10, Dec.index, Dec.gindex, Dec.scrRest, Dec.vreg, Enc.kreg_add, Enc.rnd0, Enc.ty1, Enc.ty4, Enc.ty5, q0.2, q1.2, g0, g1, e1.2, e2.2, e4]

theorem unpk8 (a0 : Com) (a1 : Ty) (a2 : Rnd) (a3 : Scale) (a4 : Nat) (a5 : Src) (a6 : Option Src) (hw : Instr.wf (.unpk8 a0 a1 a2 a3 a4 a5 a6) = true) : fld (encode (.unpk8 a0 a1 a2 a3 a4 a5 a6)) 56 8 = 0x67 ∧ decode (encode (.unpk8 a0 a1 a2 a3 a4 a5 a6)) = .ok (.unpk8 a0 a1 a2 a3 a4 a5 a6) := by
  have hwf := hw
  replace hw : (Wf.com false a0 && Wf.unpk 8 a1 a2 a3 a4 a5 a6) = true := hw
  simp only [Bool.and_eq_true] at hw
  obtain ⟨h0, h1⟩ := hw
  have qc := Enc.com_ok h0
  have hp : (Wf.packTy 8 a1 && Wf.scale a1 a3 && Wf.read false a5 && decide (a4 + 8 ≤ 320) && Wf.random a2 a6 && (decide (a1 ≠ .c4) || decide (a2 = .rn))) = true := h1
  simp only [Bool.and_eq_true, decide_eq_true_eq] at hp
  obtain ⟨⟨⟨⟨⟨p1, p2⟩, p3⟩, p4⟩, p5⟩, p6⟩ := hp
  have e1 := Enc.src_ok p3
  have e2 := Enc.rand_ok p5
  have e3 := Enc.scale_ok p2
  have e4 : a4 < 320 := by omega
  have q0 := Enc.ty_ok a1
  have q1 := Enc.rnd_ok a2
  rw [show encode (.unpk8 a0 a1 a2 a3 a4 a5 a6) = Enc.fmtV 0x67 a0 a4 (Enc.src a5) (Enc.scaleB a3) (Enc.srcOpt a6) (Enc.ty a1) (Enc.rnd a2) (Enc.scaleV a3) from rfl]
  obtain ⟨f1, f2, f3, f4, f5, f6, f7, f8, f9, f10⟩ := Enc.fmtV_fields 0x67 a0 a4 (Enc.src a5) (Enc.scaleB a3) (Enc.srcOpt a6) (Enc.ty a1) (Enc.rnd a2) (Enc.scaleV a3) (by decide) qc (by omega) (by omega) (by omega) (by omega) (by omega) (by omega) (by omega)
  generalize Enc.fmtV 0x67 a0 a4 (Enc.src a5) (Enc.scaleB a3) (Enc.srcOpt a6) (Enc.ty a1) (Enc.rnd a2) (Enc.scaleV a3) = w at *
  refine ⟨f1, Enc.decode_of f1 (by decide) f2 ?_ hwf⟩
  have g0 : Enc.scaleV a3 < 8 := by omega
  have g1 : Dec.scale a1 w = some a3 := e3.2.2 w f6 (by rw [show fld w 0 5 = Enc.scaleV a3 from f10]; omega)
  unfold Dec.parse
  rw [f1]
  simp [Dec.convert, Dec.need, f3, f4, f5, f6, f7, f8, f9, f10, Enc.bit00, Enc.bit10, Dec.index, Dec.gindex, Dec.scrRest, Dec.vreg, Enc.kreg_add, Enc.rnd0, Enc.ty1, Enc.ty4, Enc.ty5, q0.2, q1.2, g0, g1, e1.2, e2.2, e4]

theorem scalex (a0 : Com) (a1 : Rnd) (a2 : Bool) (a3 : Bool) (a4 : Nat) (a5 : Dst) (a6 : Src) (a7 : Src) (a8 : Option Src) (hw : Instr.wf (.scalex a0 a1 a2 a3 a4 a5 a6 a7 a8) = true) : fld (encode (.scalex a0 a1 a2 a3 a4 a5 a6 a7 a8)) 56 8 = 0x68 ∧ decode (encode (.scalex a0 a1 a2 a3 a4 a5 a6 a7 a8)) = .ok (.scalex a0 a1 a2 a3 a4 a5 a6 a7 a8) := by
  have hwf := hw
  replace hw : (Wf.com false a0 && a4 < 4 && Wf.dst false a5 && Wf.read false a6 && Wf.read false a7 && Wf.random a1 a8) = true := hw
  simp only [Bool.and_eq_true] at hw
  obtain ⟨⟨⟨⟨⟨h0, h1⟩, h2⟩, h3⟩, h4⟩, h5⟩ := hw
  have qc := Enc.com_ok h0
  have q0 := Enc.dst_ok h2
  have q1 := Enc.src_ok h3
  have q2 := Enc.src_ok h4
  have q3 := Enc.rand_ok h5
  try simp at h1
  have e5 := Enc.bit2_ok a4 a2 a3 (by simpa using h1)
  have q4 := Enc.rnd_ok a1
  have q5 := Enc.flag1_ok a2
  have q6 := Enc.flag1_ok a3
  rw [show encode (.scalex a0 a1 a2 a3 a4 a5 a6 a7 a8) = Enc.fmtV 0x68 a0 (Enc.dst a5) (Enc.src a6) (Enc.src a7) (Enc.srcOpt a8) 4 (Enc.rnd a1) (a4 + 4 * b2n a2 + 8 * b2n a3) from rfl]
  obtain ⟨f1, f2, f3, f4, f5, f6, f7, f8, f9, f10⟩ := Enc.fmtV_fields 0x68 a0 (Enc.dst a5) (Enc.src a6) (Enc.src a7) (Enc.srcOpt a8) 4 (Enc.rnd a1) (a4 + 4 * b2n a2 + 8 * b2n a3) (by decide) qc (by omega) (by omega) (by omega) (by omega) (by omega) (by omega) (by omega)
  generalize Enc.fmtV 0x68 a0 (Enc.dst a5) (Enc.src a6) (Enc.src a7) (Enc.srcOpt a8) 4 (Enc.rnd a1) (a4 + 4 * b2n a2 + 8 * b2n a3) = w at *
  refine ⟨f1, Enc.decode_of f1 (by decide) f2 ?_ hwf⟩
  unfold Dec.parse
  rw [f1]
  simp [Dec.convert, Dec.need, f3, f4, f5, f6, f7, f8, f9, f10, Enc.bit00, Enc.bit10, Dec.index, Dec.gindex, Dec.scrRest, Dec.vreg, Enc.kreg_add, Enc.rnd0, Enc.ty1, Enc.ty4, Enc.ty5, q0.2, q1.2, q2.2, q3.2, q4.2, q5.2, q6.2, h1, e5.1, e5.2.1, e5.2.2.1, e5.2.2.2]

theorem bldMem (a0 : Com) (a1 : Nat) (a2 : Src) (a3 : Nat) (hw : Instr.wf (.bldMem a0 a1 a2 a3) = true) : fld (encode (.bldMem a0 a1 a2 a3)) 56 8 = 0x70 ∧ decode (encode (.bldMem a0 a1 a2 a3)) = .ok (.bldMem a0 a1 a2 a3) := by
  have hwf := hw
  replace hw : (Wf.com false a0 && Wf.recReg a1 && Wf.addr a2 && a3 < 2 ^ 18) = true := hw
  simp only [Bool.and_eq_true] at hw
  obtain ⟨⟨⟨h0, h1⟩, h2⟩, h3⟩ := hw
  have qc := Enc.com_ok h0
  simp only [Wf.recReg, decide_eq_true_eq] at h1
  have q0 := Enc.addr_ok h2
  try simp at h3
  rw [show encode (.bldMem a0 a1 a2 a3) = Enc.fmtS 0x70 a0 a1 (Enc.src a2) 511 a3 from rfl]
  obtain ⟨f1, f2, f3, f4, f5, f6, f7, f8, f9⟩ := Enc.fmtS_fields 0x70 a0 a1 (Enc.src a2) 511 a3 (by decide) qc (by omega) (by omega) (by omega) (by omega)
  generalize Enc.fmtS 0x70 a0 a1 (Enc.src a2) 511 a3 = w at *
  refine ⟨f1, Enc.decode_of f1 (by decide) f2 ?_ hwf⟩
  have g0 : fld a3 18 3 = 0 := by unfold fld; omega
  have g1 : fld a3 0 18 = a3 := by unfold fld; omega
  unfold Dec.parse
  rw [f1]
  simp [Dec.access, Dec.need, f3, f4, f5, f6, f7, f8, f9, Enc.bit00, Enc.bit10, Dec.index, Dec.gindex, Dec.scrRest, Dec.vreg, Enc.kreg_add, Enc.rnd0, Enc.ty1, Enc.ty4, Enc.ty5, q0.2, h3, g0, g1]

theorem bldQ (a0 : Com) (a1 : Nat) (a2 : Nat) (a3 : Src) (hw : Instr.wf (.bldQ a0 a1 a2 a3) = true) : fld (encode (.bldQ a0 a1 a2 a3)) 56 8 = 0x70 ∧ decode (encode (.bldQ a0 a1 a2 a3)) = .ok (.bldQ a0 a1 a2 a3) := by
  have hwf := hw
  replace hw : (Wf.com false a0 && Wf.recReg a1 && a2 < 4 && Wf.read true a3) = true := hw
  simp only [Bool.and_eq_true] at hw
  obtain ⟨⟨⟨h0, h1⟩, h2⟩, h3⟩ := hw
  have qc := Enc.com_ok h0
  simp only [Wf.recReg, decide_eq_true_eq] at h1
  have q0 := Enc.src_ok h3
  try simp at h2
  rw [show encode (.bldQ a0 a1 a2 a3) = Enc.fmtS 0x70 a0 a1 (Enc.src a3) 511 (1 * 2 ^ 18 + a2) from rfl]
  obtain ⟨f1, f2, f3, f4, f5, f6, f7, f8, f9⟩ := Enc.fmtS_fields 0x70 a0 a1 (Enc.src a3) 511 (1 * 2 ^ 18 + a2) (by decide) qc (by omega) (by omega) (by omega) (by omega)
  generalize Enc.fmtS 0x70 a0 a1 (Enc.src a3) 511 (1 * 2 ^ 18 + a2) = w at *
  refine ⟨f1, Enc.decode_of f1 (by decide) f2 ?_ hwf⟩
  have g0 : fld (262144 + a2) 18 3 = 1 := by unfold fld; omega
  have g1 : fld (262144 + a2) 2 16 = 0 := by unfold fld; omega
  have g2 : fld (262144 + a2) 0 2 = a2 := by unfold fld; omega
  unfold Dec.parse
  rw [f1]
  simp [Dec.access, Dec.need, f3, f4, f5, f6, f7, f8, f9, Enc.bit00, Enc.bit10, Dec.index, Dec.gindex, Dec.scrRest, Dec.vreg, Enc.kreg_add, Enc.rnd0, Enc.ty1, Enc.ty4, Enc.ty5, q0.2, h2, g0, g1, g2]

theorem bldK (a0 : Com) (a1 : Nat) (a2 : Nat) (hw : Instr.wf (.bldK a0 a1 a2) = true) : fld (encode (.bldK a0 a1 a2)) 56 8 = 0x70 ∧ decode (encode (.bldK a0 a1 a2)) = .ok (.bldK a0 a1 a2) := by
  have hwf := hw
  replace hw : (Wf.com false a0 && Wf.recReg a1 && a2 % 4 == 0 && a2 < 64) = true := hw
  simp only [Bool.and_eq_true] at hw
  obtain ⟨⟨⟨h0, h1⟩, h2⟩, h3⟩ := hw
  have qc := Enc.com_ok h0
  simp only [Wf.recReg, decide_eq_true_eq] at h1
  try simp at h2
  try simp at h3
  rw [show encode (.bldK a0 a1 a2) = Enc.fmtS 0x70 a0 a1 (320 + a2) 511 (2 * 2 ^ 18) from rfl]
  obtain ⟨f1, f2, f3, f4, f5, f6, f7, f8, f9⟩ := Enc.fmtS_fields 0x70 a0 a1 (320 + a2) 511 (2 * 2 ^ 18) (by decide) qc (by omega) (by omega) (by omega) (by omega)
  generalize Enc.fmtS 0x70 a0 a1 (320 + a2) 511 (2 * 2 ^ 18) = w at *
  refine ⟨f1, Enc.decode_of f1 (by decide) f2 ?_ hwf⟩
  have g0 : fld 524288 18 3 = 2 := by unfold fld; omega
  have g1 : fld 524288 0 18 = 0 := by unfold fld; omega
  unfold Dec.parse
  rw [f1]
  simp [Dec.access, Dec.need, f3, f4, f5, f6, f7, f8, f9, Enc.bit00, Enc.bit10, Dec.index, Dec.gindex, Dec.scrRest, Dec.vreg, Enc.kreg_add, Enc.rnd0, Enc.ty1, Enc.ty4, Enc.ty5, h2, h3, g0, g1]

theorem bldZero (a0 : Com) (a1 : Nat) (hw : Instr.wf (.bldZero a0 a1) = true) : fld (encode (.bldZero a0 a1)) 56 8 = 0x70 ∧ decode (encode (.bldZero a0 a1)) = .ok (.bldZero a0 a1) := by
  have hwf := hw
  replace hw : (Wf.com false a0 && Wf.recReg a1) = true := hw
  simp only [Bool.and_eq_true] at hw
  obtain ⟨h0, h1⟩ := hw
  have qc := Enc.com_ok h0
  simp only [Wf.recReg, decide_eq_true_eq] at h1
  rw [show encode (.bldZero a0 a1) = Enc.fmtS 0x70 a0 a1 511 511 (3 * 2 ^ 18) from rfl]
  obtain ⟨f1, f2, f3, f4, f5, f6, f7, f8, f9⟩ := Enc.fmtS_fields 0x70 a0 a1 511 511 (3 * 2 ^ 18) (by decide) qc (by omega) (by omega) (by omega) (by omega)
  generalize Enc.fmtS 0x70 a0 a1 511 511 (3 * 2 ^ 18) = w at *
  refine ⟨f1, Enc.decode_of f1 (by decide) f2 ?_ hwf⟩
  have g0 : fld 786432 18 3 = 3 := by unfold fld; omega
  have g1 : fld 786432 0 18 = 0 := by unfold fld; omega
  unfold Dec.parse
  rw [f1]
  simp [Dec.access, Dec.need, f3, f4, f5, f6, f7, f8, f9, Enc.bit00, Enc.bit10, Dec.index, Dec.gindex, Dec.scrRest, Dec.vreg, Enc.kreg_add, Enc.rnd0, Enc.ty1, Enc.ty4, Enc.ty5, g0, g1]

theorem bsubOff (a0 : Com) (a1 : Nat) (a2 : Nat) (a3 : Src) (hw : Instr.wf (.bsubOff a0 a1 a2 a3) = true) : fld (encode (.bsubOff a0 a1 a2 a3)) 56 8 = 0x71 ∧ decode (encode (.bsubOff a0 a1 a2 a3)) = .ok (.bsubOff a0 a1 a2 a3) := by
  have hwf := hw
  replace hw : (Wf.com false a0 && Wf.recReg a1 && Wf.recReg a2 && Wf.read true a3) = true := hw
  simp only [Bool.and_eq_true] at hw
  obtain ⟨⟨⟨h0, h1⟩, h2⟩, h3⟩ := hw
  have qc := Enc.com_ok h0
  simp only [Wf.recReg, decide_eq_true_eq] at h1
  simp only [Wf.recReg, decide_eq_true_eq] at h2
  have q0 := Enc.src_ok h3
  rw [show encode (.bsubOff a0 a1 a2 a3) = Enc.fmtS 0x71 a0 a1 (Enc.src a3) a2 0 from rfl]
  obtain ⟨f1, f2, f3, f4, f5, f6, f7, f8, f9⟩ := Enc.fmtS_fields 0x71 a0 a1 (Enc.src a3) a2 0 (by decide) qc (by omega) (by omega) (by omega) (by omega)
  generalize Enc.fmtS 0x71 a0 a1 (Enc.src a3) a2 0 = w at *
  refine ⟨f1, Enc.decode_of f1 (by decide) f2 ?_ hwf⟩
  have g0 : fld 0 19 2 = 0 := by unfold fld; omega
  have g1 : fld 0 0 19 = 0 := by unfold fld; omega
  unfold Dec.parse
  rw [f1]
  simp [Dec.access, Dec.need, f3, f4, f5, f6, f7, f8, f9, Enc.bit00, Enc.bit10, Dec.index, Dec.gindex, Dec.scrRest, Dec.vreg, Enc.kreg_add, Enc.rnd0, Enc.ty1, Enc.ty4, Enc.ty5, q0.2, g0, g1]

theorem bsubWin (a0 : Com) (a1 : Nat) (a2 : Nat) (a3 : Src) (a4 : Nat) (hw : Instr.wf (.bsubWin a0 a1 a2 a3 a4) = true) : fld (encode (.bsubWin a0 a1 a2 a3 a4)) 56 8 = 0x71 ∧ decode (encode (.bsubWin a0 a1 a2 a3 a4)) = .ok (.bsubWin a0 a1 a2 a3 a4) := by
  have hwf := hw
  replace hw : (Wf.com false a0 && Wf.recReg a1 && Wf.recReg a2 && Wf.read true a3 && a4 < 2 ^ 19) = true := hw
  simp only [Bool.and_eq_true] at hw
  obtain ⟨⟨⟨⟨h0, h1⟩, h2⟩, h3⟩, h4⟩ := hw
  have qc := Enc.com_ok h0
  simp only [Wf.recReg, decide_eq_true_eq] at h1
  simp only [Wf.recReg, decide_eq_true_eq] at h2
  have q0 := Enc.src_ok h3
  try simp at h4
  rw [show encode (.bsubWin a0 a1 a2 a3 a4) = Enc.fmtS 0x71 a0 a1 (Enc.src a3) a2 (1 * 2 ^ 19 + a4) from rfl]
  obtain ⟨f1, f2, f3, f4, f5, f6, f7, f8, f9⟩ := Enc.fmtS_fields 0x71 a0 a1 (Enc.src a3) a2 (1 * 2 ^ 19 + a4) (by decide) qc (by omega) (by omega) (by omega) (by omega)
  generalize Enc.fmtS 0x71 a0 a1 (Enc.src a3) a2 (1 * 2 ^ 19 + a4) = w at *
  refine ⟨f1, Enc.decode_of f1 (by decide) f2 ?_ hwf⟩
  have g0 : fld (524288 + a4) 19 2 = 1 := by unfold fld; omega
  have g1 : fld (524288 + a4) 0 19 = a4 := by unfold fld; omega
  unfold Dec.parse
  rw [f1]
  simp [Dec.access, Dec.need, f3, f4, f5, f6, f7, f8, f9, Enc.bit00, Enc.bit10, Dec.index, Dec.gindex, Dec.scrRest, Dec.vreg, Enc.kreg_add, Enc.rnd0, Enc.ty1, Enc.ty4, Enc.ty5, q0.2, h4, g0, g1]

theorem bsubColour (a0 : Com) (a1 : Nat) (a2 : Nat) (a3 : Nat) (hw : Instr.wf (.bsubColour a0 a1 a2 a3) = true) : fld (encode (.bsubColour a0 a1 a2 a3)) 56 8 = 0x71 ∧ decode (encode (.bsubColour a0 a1 a2 a3)) = .ok (.bsubColour a0 a1 a2 a3) := by
  have hwf := hw
  replace hw : (Wf.com false a0 && Wf.recReg a1 && Wf.recReg a2 && a3 < 4096) = true := hw
  simp only [Bool.and_eq_true] at hw
  obtain ⟨⟨⟨h0, h1⟩, h2⟩, h3⟩ := hw
  have qc := Enc.com_ok h0
  simp only [Wf.recReg, decide_eq_true_eq] at h1
  simp only [Wf.recReg, decide_eq_true_eq] at h2
  try simp at h3
  rw [show encode (.bsubColour a0 a1 a2 a3) = Enc.fmtS 0x71 a0 a1 511 a2 (2 * 2 ^ 19 + a3) from rfl]
  obtain ⟨f1, f2, f3, f4, f5, f6, f7, f8, f9⟩ := Enc.fmtS_fields 0x71 a0 a1 511 a2 (2 * 2 ^ 19 + a3) (by decide) qc (by omega) (by omega) (by omega) (by omega)
  generalize Enc.fmtS 0x71 a0 a1 511 a2 (2 * 2 ^ 19 + a3) = w at *
  refine ⟨f1, Enc.decode_of f1 (by decide) f2 ?_ hwf⟩
  have g0 : fld (1048576 + a3) 19 2 = 2 := by unfold fld; omega
  have g1 : fld (1048576 + a3) 12 7 = 0 := by unfold fld; omega
  have g2 : fld (1048576 + a3) 0 12 = a3 := by unfold fld; omega
  unfold Dec.parse
  rw [f1]
  simp [Dec.access, Dec.need, f3, f4, f5, f6, f7, f8, f9, Enc.bit00, Enc.bit10, Dec.index, Dec.gindex, Dec.scrRest, Dec.vreg, Enc.kreg_add, Enc.rnd0, Enc.ty1, Enc.ty4, Enc.ty5, h3, g0, g1, g2]

theorem bsubFlags (a0 : Com) (a1 : Nat) (a2 : Nat) (a3 : Nat) (hw : Instr.wf (.bsubFlags a0 a1 a2 a3) = true) : fld (encode (.bsubFlags a0 a1 a2 a3)) 56 8 = 0x71 ∧ decode (encode (.bsubFlags a0 a1 a2 a3)) = .ok (.bsubFlags a0 a1 a2 a3) := by
  have hwf := hw
  replace hw : (Wf.com false a0 && Wf.recReg a1 && Wf.recReg a2 && a3 < 32) = true := hw
  simp only [Bool.and_eq_true] at hw
  obtain ⟨⟨⟨h0, h1⟩, h2⟩, h3⟩ := hw
  have qc := Enc.com_ok h0
  simp only [Wf.recReg, decide_eq_true_eq] at h1
  simp only [Wf.recReg, decide_eq_true_eq] at h2
  try simp at h3
  rw [show encode (.bsubFlags a0 a1 a2 a3) = Enc.fmtS 0x71 a0 a1 511 a2 (3 * 2 ^ 19 + a3) from rfl]
  obtain ⟨f1, f2, f3, f4, f5, f6, f7, f8, f9⟩ := Enc.fmtS_fields 0x71 a0 a1 511 a2 (3 * 2 ^ 19 + a3) (by decide) qc (by omega) (by omega) (by omega) (by omega)
  generalize Enc.fmtS 0x71 a0 a1 511 a2 (3 * 2 ^ 19 + a3) = w at *
  refine ⟨f1, Enc.decode_of f1 (by decide) f2 ?_ hwf⟩
  have g0 : fld (1572864 + a3) 19 2 = 3 := by unfold fld; omega
  have g1 : fld (1572864 + a3) 5 14 = 0 := by unfold fld; omega
  have g2 : fld (1572864 + a3) 0 5 = a3 := by unfold fld; omega
  unfold Dec.parse
  rw [f1]
  simp [Dec.access, Dec.need, f3, f4, f5, f6, f7, f8, f9, Enc.bit00, Enc.bit10, Dec.index, Dec.gindex, Dec.scrRest, Dec.vreg, Enc.kreg_add, Enc.rnd0, Enc.ty1, Enc.ty4, Enc.ty5, h3, g0, g1, g2]

theorem ld (a0 : Com) (a1 : Bool) (a2 : Nat) (a3 : Nat) (a4 : Index) (a5 : Nat) (hw : Instr.wf (.ld a0 a1 a2 a3 a4 a5) = true) : fld (encode (.ld a0 a1 a2 a3 a4 a5)) 56 8 = 0x72 ∧ decode (encode (.ld a0 a1 a2 a3 a4 a5)) = .ok (.ld a0 a1 a2 a3 a4 a5) := by
  have hwf := hw
  replace hw : (Wf.com true a0 && Wf.sign a1 a2 && Wf.data a2 a3 && Wf.index a4 && Wf.recReg a5) = true := hw
  simp only [Bool.and_eq_true] at hw
  obtain ⟨⟨⟨⟨h0, h1⟩, h2⟩, h3⟩, h4⟩ := hw
  have qc := Enc.com_ok h0
  have za2 : a2 ≤ 4 := Enc.sign_ok h1
  have da3 : a3 < 320 := Enc.data_ok h2
  have q0 := Enc.src_ok (show Wf.read a4.w64 a4.x = true from h3)
  simp only [Wf.recReg, decide_eq_true_eq] at h4
  have q1 := Enc.flag1_ok a1
  have q2 := Enc.flag1_ok a4.w64
  rw [show encode (.ld a0 a1 a2 a3 a4 a5) = Enc.fmtM 0x72 a0 a3 (Enc.src a4.x) 511 a5 a2 0 0 (b2n a4.w64 + 128 * b2n a1) from rfl]
  obtain ⟨f1, f2, f3, f4, f5, f6, f7, f8, f9, f10, f11, f12, f13⟩ := Enc.fmtM_fields 0x72 a0 a3 (Enc.src a4.x) 511 a5 a2 0 0 (b2n a4.w64 + 128 * b2n a1) (by decide) qc (by omega) (by omega) (by omega) (by omega) (by omega) (by omega) (by omega) (by omega)
  generalize Enc.fmtM 0x72 a0 a3 (Enc.src a4.x) 511 a5 a2 0 0 (b2n a4.w64 + 128 * b2n a1) = w at *
  refine ⟨f1, Enc.decode_of f1 (by decide) f2 ?_ hwf⟩
  have g0 : fld (b2n a4.w64 + 128 * b2n a1) 1 6 = 0 := by cases a4.w64 <;> cases a1 <;> rfl
  have g1 : bit (b2n a4.w64 + 128 * b2n a1) 7 = a1 := by cases a4.w64 <;> cases a1 <;> rfl
  have g2 : bit (b2n a4.w64 + 128 * b2n a1) 0 = a4.w64 := by cases a4.w64 <;> cases a1 <;> rfl
  unfold Dec.parse
  rw [f1]
  simp [Dec.access, Dec.need, f3, f4, f5, f6, f7, f8, f9, f10, f11, f12, f13, Enc.bit00, Enc.bit10, Dec.index, Dec.gindex, Dec.scrRest, Dec.vreg, Enc.kreg_add, Enc.rnd0, Enc.ty1, Enc.ty4, Enc.ty5, q0.2, q1.2, q2.2, da3, g0, g1, g2]

theorem st (a0 : Com) (a1 : Bool) (a2 : Nat) (a3 : Nat) (a4 : Index) (a5 : Nat) (hw : Instr.wf (.st a0 a1 a2 a3 a4 a5) = true) : fld (encode (.st a0 a1 a2 a3 a4 a5)) 56 8 = 0x73 ∧ decode (encode (.st a0 a1 a2 a3 a4 a5)) = .ok (.st a0 a1 a2 a3 a4 a5) := by
  have hwf := hw
  replace hw : (Wf.com false a0 && Wf.sign a1 a2 && Wf.data a2 a3 && Wf.index a4 && Wf.recReg a5) = true := hw
  simp only [Bool.and_eq_true] at hw
  obtain ⟨⟨⟨⟨h0, h1⟩, h2⟩, h3⟩, h4⟩ := hw
  have qc := Enc.com_ok h0
  have za2 : a2 ≤ 4 := Enc.sign_ok h1
  have da3 : a3 < 320 := Enc.data_ok h2
  have q0 := Enc.src_ok (show Wf.read a4.w64 a4.x = true from h3)
  simp only [Wf.recReg, decide_eq_true_eq] at h4
  have q1 := Enc.flag1_ok a1
  have q2 := Enc.flag1_ok a4.w64
  rw [show encode (.st a0 a1 a2 a3 a4 a5) = Enc.fmtM 0x73 a0 a3 (Enc.src a4.x) 511 a5 a2 0 0 (b2n a4.w64 + 128 * b2n a1) from rfl]
  obtain ⟨f1, f2, f3, f4, f5, f6, f7, f8, f9, f10, f11, f12, f13⟩ := Enc.fmtM_fields 0x73 a0 a3 (Enc.src a4.x) 511 a5 a2 0 0 (b2n a4.w64 + 128 * b2n a1) (by decide) qc (by omega) (by omega) (by omega) (by omega) (by omega) (by omega) (by omega) (by omega)
  generalize Enc.fmtM 0x73 a0 a3 (Enc.src a4.x) 511 a5 a2 0 0 (b2n a4.w64 + 128 * b2n a1) = w at *
  refine ⟨f1, Enc.decode_of f1 (by decide) f2 ?_ hwf⟩
  have g0 : fld (b2n a4.w64 + 128 * b2n a1) 1 6 = 0 := by cases a4.w64 <;> cases a1 <;> rfl
  have g1 : bit (b2n a4.w64 + 128 * b2n a1) 7 = a1 := by cases a4.w64 <;> cases a1 <;> rfl
  have g2 : bit (b2n a4.w64 + 128 * b2n a1) 0 = a4.w64 := by cases a4.w64 <;> cases a1 <;> rfl
  unfold Dec.parse
  rw [f1]
  simp [Dec.access, Dec.need, f3, f4, f5, f6, f7, f8, f9, f10, f11, f12, f13, Enc.bit00, Enc.bit10, Dec.index, Dec.gindex, Dec.scrRest, Dec.vreg, Enc.kreg_add, Enc.rnd0, Enc.ty1, Enc.ty4, Enc.ty5, q0.2, q1.2, q2.2, da3, g0, g1, g2]

theorem ldg (a0 : Com) (a1 : Bool) (a2 : Nat) (a3 : Nat) (a4 : GIndex) (a5 : Nat) (hw : Instr.wf (.ldg a0 a1 a2 a3 a4 a5) = true) : fld (encode (.ldg a0 a1 a2 a3 a4 a5)) 56 8 = 0x74 ∧ decode (encode (.ldg a0 a1 a2 a3 a4 a5)) = .ok (.ldg a0 a1 a2 a3 a4 a5) := by
  have hwf := hw
  replace hw : (Wf.com true a0 && Wf.sign a1 a2 && Wf.data a2 a3 && Wf.gindex a4 && Wf.recReg a5) = true := hw
  simp only [Bool.and_eq_true] at hw
  obtain ⟨⟨⟨⟨h0, h1⟩, h2⟩, h3⟩, h4⟩ := hw
  have qc := Enc.com_ok h0
  have za2 : a2 ≤ 4 := Enc.sign_ok h1
  have da3 : a3 < 320 := Enc.data_ok h2
  simp only [Wf.recReg, decide_eq_true_eq] at h4
  have eg := Enc.gindex_ok h3
  have q0 := Enc.flag1_ok a1
  rw [show encode (.ldg a0 a1 a2 a3 a4 a5) = Enc.fmtG 0x74 a0 a3 a4 a5 a2 a1 from rfl]
  obtain ⟨f1, f2, f3, f4, f5, f6, f7, f8, f9, f10, f11, f12, f13⟩ := Enc.fmtG_fields 0x74 a0 a3 a4 a5 a2 a1 (by decide) qc (by omega) (by omega) (by omega) (by omega) (by omega) (by omega) (by omega)
  generalize Enc.fmtG 0x74 a0 a3 a4 a5 a2 a1 = w at *
  refine ⟨f1, Enc.decode_of f1 (by decide) f2 ?_ hwf⟩
  unfold Dec.parse
  rw [f1]
  simp [Dec.access, Dec.need, f3, f4, f5, f6, f7, f8, f9, f10, f11, f12, f13, Enc.bit00, Enc.bit10, Dec.index, Dec.gindex, Dec.scrRest, Dec.vreg, Enc.kreg_add, Enc.rnd0, Enc.ty1, Enc.ty4, Enc.ty5, q0.2, da3, eg.2.2.2.2]

theorem stg (a0 : Com) (a1 : Bool) (a2 : Nat) (a3 : Nat) (a4 : GIndex) (a5 : Nat) (hw : Instr.wf (.stg a0 a1 a2 a3 a4 a5) = true) : fld (encode (.stg a0 a1 a2 a3 a4 a5)) 56 8 = 0x75 ∧ decode (encode (.stg a0 a1 a2 a3 a4 a5)) = .ok (.stg a0 a1 a2 a3 a4 a5) := by
  have hwf := hw
  replace hw : (Wf.com false a0 && Wf.sign a1 a2 && Wf.data a2 a3 && Wf.gindex a4 && Wf.recReg a5) = true := hw
  simp only [Bool.and_eq_true] at hw
  obtain ⟨⟨⟨⟨h0, h1⟩, h2⟩, h3⟩, h4⟩ := hw
  have qc := Enc.com_ok h0
  have za2 : a2 ≤ 4 := Enc.sign_ok h1
  have da3 : a3 < 320 := Enc.data_ok h2
  simp only [Wf.recReg, decide_eq_true_eq] at h4
  have eg := Enc.gindex_ok h3
  have q0 := Enc.flag1_ok a1
  rw [show encode (.stg a0 a1 a2 a3 a4 a5) = Enc.fmtG 0x75 a0 a3 a4 a5 a2 a1 from rfl]
  obtain ⟨f1, f2, f3, f4, f5, f6, f7, f8, f9, f10, f11, f12, f13⟩ := Enc.fmtG_fields 0x75 a0 a3 a4 a5 a2 a1 (by decide) qc (by omega) (by omega) (by omega) (by omega) (by omega) (by omega) (by omega)
  generalize Enc.fmtG 0x75 a0 a3 a4 a5 a2 a1 = w at *
  refine ⟨f1, Enc.decode_of f1 (by decide) f2 ?_ hwf⟩
  unfold Dec.parse
  rw [f1]
  simp [Dec.access, Dec.need, f3, f4, f5, f6, f7, f8, f9, f10, f11, f12, f13, Enc.bit00, Enc.bit10, Dec.index, Dec.gindex, Dec.scrRest, Dec.vreg, Enc.kreg_add, Enc.rnd0, Enc.ty1, Enc.ty4, Enc.ty5, q0.2, da3, eg.2.2.2.2]

theorem lds (a0 : Com) (a1 : Bool) (a2 : Nat) (a3 : Nat) (a4 : Src) (a5 : Option Src) (hw : Instr.wf (.lds a0 a1 a2 a3 a4 a5) = true) : fld (encode (.lds a0 a1 a2 a3 a4 a5)) 56 8 = 0x76 ∧ decode (encode (.lds a0 a1 a2 a3 a4 a5)) = .ok (.lds a0 a1 a2 a3 a4 a5) := by
  have hwf := hw
  replace hw : (Wf.com true a0 && Wf.sign a1 a2 && Wf.data a2 a3 && Wf.read false a4 && Wf.opt (Wf.src false) a5) = true := hw
  simp only [Bool.and_eq_true] at hw
  obtain ⟨⟨⟨⟨h0, h1⟩, h2⟩, h3⟩, h4⟩ := hw
  have qc := Enc.com_ok h0
  have za2 : a2 ≤ 4 := Enc.sign_ok h1
  have da3 : a3 < 320 := Enc.data_ok h2
  have q0 := Enc.src_ok h3
  have q1 := Enc.srcOpt_ok h4
  have q2 := Enc.flag1_ok a1
  rw [show encode (.lds a0 a1 a2 a3 a4 a5) = Enc.fmtM 0x76 a0 a3 (Enc.src a4) (Enc.srcOpt a5) 0 a2 0 0 (b2n a1 * 128) from rfl]
  obtain ⟨f1, f2, f3, f4, f5, f6, f7, f8, f9, f10, f11, f12, f13⟩ := Enc.fmtM_fields 0x76 a0 a3 (Enc.src a4) (Enc.srcOpt a5) 0 a2 0 0 (b2n a1 * 128) (by decide) qc (by omega) (by omega) (by omega) (by omega) (by omega) (by omega) (by omega) (by omega)
  generalize Enc.fmtM 0x76 a0 a3 (Enc.src a4) (Enc.srcOpt a5) 0 a2 0 0 (b2n a1 * 128) = w at *
  refine ⟨f1, Enc.decode_of f1 (by decide) f2 ?_ hwf⟩
  have g0 : fld (b2n a1 * 128) 0 7 = 0 := by cases a1 <;> rfl
  have g1 : bit (b2n a1 * 128) 7 = a1 := by cases a1 <;> rfl
  unfold Dec.parse
  rw [f1]
  simp [Dec.access, Dec.need, f3, f4, f5, f6, f7, f8, f9, f10, f11, f12, f13, Enc.bit00, Enc.bit10, Dec.index, Dec.gindex, Dec.scrRest, Dec.vreg, Enc.kreg_add, Enc.rnd0, Enc.ty1, Enc.ty4, Enc.ty5, q0.2, q1.2, q2.2, da3, g0, g1]

theorem sts (a0 : Com) (a1 : Bool) (a2 : Nat) (a3 : Nat) (a4 : Src) (a5 : Option Src) (hw : Instr.wf (.sts a0 a1 a2 a3 a4 a5) = true) : fld (encode (.sts a0 a1 a2 a3 a4 a5)) 56 8 = 0x77 ∧ decode (encode (.sts a0 a1 a2 a3 a4 a5)) = .ok (.sts a0 a1 a2 a3 a4 a5) := by
  have hwf := hw
  replace hw : (Wf.com false a0 && Wf.sign a1 a2 && Wf.data a2 a3 && Wf.read false a4 && Wf.opt (Wf.src false) a5) = true := hw
  simp only [Bool.and_eq_true] at hw
  obtain ⟨⟨⟨⟨h0, h1⟩, h2⟩, h3⟩, h4⟩ := hw
  have qc := Enc.com_ok h0
  have za2 : a2 ≤ 4 := Enc.sign_ok h1
  have da3 : a3 < 320 := Enc.data_ok h2
  have q0 := Enc.src_ok h3
  have q1 := Enc.srcOpt_ok h4
  have q2 := Enc.flag1_ok a1
  rw [show encode (.sts a0 a1 a2 a3 a4 a5) = Enc.fmtM 0x77 a0 a3 (Enc.src a4) (Enc.srcOpt a5) 0 a2 0 0 (b2n a1 * 128) from rfl]
  obtain ⟨f1, f2, f3, f4, f5, f6, f7, f8, f9, f10, f11, f12, f13⟩ := Enc.fmtM_fields 0x77 a0 a3 (Enc.src a4) (Enc.srcOpt a5) 0 a2 0 0 (b2n a1 * 128) (by decide) qc (by omega) (by omega) (by omega) (by omega) (by omega) (by omega) (by omega) (by omega)
  generalize Enc.fmtM 0x77 a0 a3 (Enc.src a4) (Enc.srcOpt a5) 0 a2 0 0 (b2n a1 * 128) = w at *
  refine ⟨f1, Enc.decode_of f1 (by decide) f2 ?_ hwf⟩
  have g0 : fld (b2n a1 * 128) 0 7 = 0 := by cases a1 <;> rfl
  have g1 : bit (b2n a1 * 128) 7 = a1 := by cases a1 <;> rfl
  unfold Dec.parse
  rw [f1]
  simp [Dec.access, Dec.need, f3, f4, f5, f6, f7, f8, f9, f10, f11, f12, f13, Enc.bit00, Enc.bit10, Dec.index, Dec.gindex, Dec.scrRest, Dec.vreg, Enc.kreg_add, Enc.rnd0, Enc.ty1, Enc.ty4, Enc.ty5, q0.2, q1.2, q2.2, da3, g0, g1]

theorem ldsr (a0 : Com) (a1 : Bool) (a2 : Nat) (a3 : Nat) (a4 : Src) (a5 : Src) (hw : Instr.wf (.ldsr a0 a1 a2 a3 a4 a5) = true) : fld (encode (.ldsr a0 a1 a2 a3 a4 a5)) 56 8 = 0x78 ∧ decode (encode (.ldsr a0 a1 a2 a3 a4 a5)) = .ok (.ldsr a0 a1 a2 a3 a4 a5) := by
  have hwf := hw
  replace hw : (Wf.com true a0 && Wf.sign a1 a2 && Wf.data a2 a3 && Wf.read false a4 && Wf.read false a5) = true := hw
  simp only [Bool.and_eq_true] at hw
  obtain ⟨⟨⟨⟨h0, h1⟩, h2⟩, h3⟩, h4⟩ := hw
  have qc := Enc.com_ok h0
  have za2 : a2 ≤ 4 := Enc.sign_ok h1
  have da3 : a3 < 320 := Enc.data_ok h2
  have q0 := Enc.src_ok h3
  have q1 := Enc.src_ok h4
  have q2 := Enc.flag1_ok a1
  rw [show encode (.ldsr a0 a1 a2 a3 a4 a5) = Enc.fmtM 0x78 a0 a3 (Enc.src a4) (Enc.src a5) 0 a2 0 0 (b2n a1 * 128) from rfl]
  obtain ⟨f1, f2, f3, f4, f5, f6, f7, f8, f9, f10, f11, f12, f13⟩ := Enc.fmtM_fields 0x78 a0 a3 (Enc.src a4) (Enc.src a5) 0 a2 0 0 (b2n a1 * 128) (by decide) qc (by omega) (by omega) (by omega) (by omega) (by omega) (by omega) (by omega) (by omega)
  generalize Enc.fmtM 0x78 a0 a3 (Enc.src a4) (Enc.src a5) 0 a2 0 0 (b2n a1 * 128) = w at *
  refine ⟨f1, Enc.decode_of f1 (by decide) f2 ?_ hwf⟩
  have g0 : fld (b2n a1 * 128) 0 7 = 0 := by cases a1 <;> rfl
  have g1 : bit (b2n a1 * 128) 7 = a1 := by cases a1 <;> rfl
  unfold Dec.parse
  rw [f1]
  simp [Dec.access, Dec.need, f3, f4, f5, f6, f7, f8, f9, f10, f11, f12, f13, Enc.bit00, Enc.bit10, Dec.index, Dec.gindex, Dec.scrRest, Dec.vreg, Enc.kreg_add, Enc.rnd0, Enc.ty1, Enc.ty4, Enc.ty5, q0.2, q1.2, q2.2, da3, g0, g1]

theorem stsr (a0 : Com) (a1 : Bool) (a2 : Nat) (a3 : Nat) (a4 : Src) (a5 : Src) (hw : Instr.wf (.stsr a0 a1 a2 a3 a4 a5) = true) : fld (encode (.stsr a0 a1 a2 a3 a4 a5)) 56 8 = 0x79 ∧ decode (encode (.stsr a0 a1 a2 a3 a4 a5)) = .ok (.stsr a0 a1 a2 a3 a4 a5) := by
  have hwf := hw
  replace hw : (Wf.com false a0 && Wf.sign a1 a2 && Wf.data a2 a3 && Wf.read false a4 && Wf.read false a5) = true := hw
  simp only [Bool.and_eq_true] at hw
  obtain ⟨⟨⟨⟨h0, h1⟩, h2⟩, h3⟩, h4⟩ := hw
  have qc := Enc.com_ok h0
  have za2 : a2 ≤ 4 := Enc.sign_ok h1
  have da3 : a3 < 320 := Enc.data_ok h2
  have q0 := Enc.src_ok h3
  have q1 := Enc.src_ok h4
  have q2 := Enc.flag1_ok a1
  rw [show encode (.stsr a0 a1 a2 a3 a4 a5) = Enc.fmtM 0x79 a0 a3 (Enc.src a4) (Enc.src a5) 0 a2 0 0 (b2n a1 * 128) from rfl]
  obtain ⟨f1, f2, f3, f4, f5, f6, f7, f8, f9, f10, f11, f12, f13⟩ := Enc.fmtM_fields 0x79 a0 a3 (Enc.src a4) (Enc.src a5) 0 a2 0 0 (b2n a1 * 128) (by decide) qc (by omega) (by omega) (by omega) (by omega) (by omega) (by omega) (by omega) (by omega)
  generalize Enc.fmtM 0x79 a0 a3 (Enc.src a4) (Enc.src a5) 0 a2 0 0 (b2n a1 * 128) = w at *
  refine ⟨f1, Enc.decode_of f1 (by decide) f2 ?_ hwf⟩
  have g0 : fld (b2n a1 * 128) 0 7 = 0 := by cases a1 <;> rfl
  have g1 : bit (b2n a1 * 128) 7 = a1 := by cases a1 <;> rfl
  unfold Dec.parse
  rw [f1]
  simp [Dec.access, Dec.need, f3, f4, f5, f6, f7, f8, f9, f10, f11, f12, f13, Enc.bit00, Enc.bit10, Dec.index, Dec.gindex, Dec.scrRest, Dec.vreg, Enc.kreg_add, Enc.rnd0, Enc.ty1, Enc.ty4, Enc.ty5, q0.2, q1.2, q2.2, da3, g0, g1]

theorem pref (a0 : Com) (a1 : Bool) (a2 : Nat) (a3 : Index) (a4 : Nat) (hw : Instr.wf (.pref a0 a1 a2 a3 a4) = true) : fld (encode (.pref a0 a1 a2 a3 a4)) 56 8 = 0x7A ∧ decode (encode (.pref a0 a1 a2 a3 a4)) = .ok (.pref a0 a1 a2 a3 a4) := by
  have hwf := hw
  replace hw : (Wf.com false a0 && a2 ≤ 4 && Wf.index a3 && Wf.recReg a4) = true := hw
  simp only [Bool.and_eq_true] at hw
  obtain ⟨⟨⟨h0, h1⟩, h2⟩, h3⟩ := hw
  have qc := Enc.com_ok h0
  have q0 := Enc.src_ok (show Wf.read a3.w64 a3.x = true from h2)
  simp only [Wf.recReg, decide_eq_true_eq] at h3
  try simp at h1
  have q1 := Enc.flag1_ok a1
  have q2 := Enc.flag1_ok a3.w64
  rw [show encode (.pref a0 a1 a2 a3 a4) = Enc.fmtM 0x7A a0 511 (Enc.src a3.x) 511 a4 a2 0 0 (b2n a3.w64 + 2 * b2n a1) from rfl]
  obtain ⟨f1, f2, f3, f4, f5, f6, f7, f8, f9, f10, f11, f12, f13⟩ := Enc.fmtM_fields 0x7A a0 511 (Enc.src a3.x) 511 a4 a2 0 0 (b2n a3.w64 + 2 * b2n a1) (by decide) qc (by omega) (by omega) (by omega) (by omega) (by omega) (by omega) (by omega) (by omega)
  generalize Enc.fmtM 0x7A a0 511 (Enc.src a3.x) 511 a4 a2 0 0 (b2n a3.w64 + 2 * b2n a1) = w at *
  refine ⟨f1, Enc.decode_of f1 (by decide) f2 ?_ hwf⟩
  have g0 : fld (b2n a3.w64 + 2 * b2n a1) 2 6 = 0 := by cases a3.w64 <;> cases a1 <;> rfl
  have g1 : bit (b2n a3.w64 + 2 * b2n a1) 1 = a1 := by cases a3.w64 <;> cases a1 <;> rfl
  have g2 : bit (b2n a3.w64 + 2 * b2n a1) 0 = a3.w64 := by cases a3.w64 <;> cases a1 <;> rfl
  unfold Dec.parse
  rw [f1]
  simp [Dec.access, Dec.need, f3, f4, f5, f6, f7, f8, f9, f10, f11, f12, f13, Enc.bit00, Enc.bit10, Dec.index, Dec.gindex, Dec.scrRest, Dec.vreg, Enc.kreg_add, Enc.rnd0, Enc.ty1, Enc.ty4, Enc.ty5, q0.2, q1.2, q2.2, h1, g0, g1, g2]

theorem cmaintInv (a0 : Com) (a1 : Nat) (a2 : Index) (a3 : Nat) (hw : Instr.wf (.cmaintInv a0 a1 a2 a3) = true) : fld (encode (.cmaintInv a0 a1 a2 a3)) 56 8 = 0x7B ∧ decode (encode (.cmaintInv a0 a1 a2 a3)) = .ok (.cmaintInv a0 a1 a2 a3) := by
  have hwf := hw
  replace hw : (Wf.com false a0 && a1 ≤ 4 && Wf.index a2 && Wf.recReg a3) = true := hw
  simp only [Bool.and_eq_true] at hw
  obtain ⟨⟨⟨h0, h1⟩, h2⟩, h3⟩ := hw
  have qc := Enc.com_ok h0
  have q0 := Enc.src_ok (show Wf.read a2.w64 a2.x = true from h2)
  simp only [Wf.recReg, decide_eq_true_eq] at h3
  try simp at h1
  have q1 := Enc.flag1_ok a2.w64
  rw [show encode (.cmaintInv a0 a1 a2 a3) = Enc.fmtM 0x7B a0 511 (Enc.src a2.x) 511 a3 a1 0 0 (b2n a2.w64) from rfl]
  obtain ⟨f1, f2, f3, f4, f5, f6, f7, f8, f9, f10, f11, f12, f13⟩ := Enc.fmtM_fields 0x7B a0 511 (Enc.src a2.x) 511 a3 a1 0 0 (b2n a2.w64) (by decide) qc (by omega) (by omega) (by omega) (by omega) (by omega) (by omega) (by omega) (by omega)
  generalize Enc.fmtM 0x7B a0 511 (Enc.src a2.x) 511 a3 a1 0 0 (b2n a2.w64) = w at *
  refine ⟨f1, Enc.decode_of f1 (by decide) f2 ?_ hwf⟩
  have g0 : fld (b2n a2.w64) 3 5 = 0 := by cases a2.w64 <;> rfl
  have g1 : fld (b2n a2.w64) 1 2 = 0 := by cases a2.w64 <;> rfl
  have g2 : bit (b2n a2.w64) 0 = a2.w64 := by cases a2.w64 <;> rfl
  unfold Dec.parse
  rw [f1]
  simp [Dec.access, Dec.need, f3, f4, f5, f6, f7, f8, f9, f10, f11, f12, f13, Enc.bit00, Enc.bit10, Dec.index, Dec.gindex, Dec.scrRest, Dec.vreg, Enc.kreg_add, Enc.rnd0, Enc.ty1, Enc.ty4, Enc.ty5, q0.2, q1.2, h1, g0, g1, g2]

theorem cmaintWb (a0 : Com) (a1 : Nat) (a2 : Index) (a3 : Nat) (hw : Instr.wf (.cmaintWb a0 a1 a2 a3) = true) : fld (encode (.cmaintWb a0 a1 a2 a3)) 56 8 = 0x7B ∧ decode (encode (.cmaintWb a0 a1 a2 a3)) = .ok (.cmaintWb a0 a1 a2 a3) := by
  have hwf := hw
  replace hw : (Wf.com false a0 && a1 ≤ 4 && Wf.index a2 && Wf.recReg a3) = true := hw
  simp only [Bool.and_eq_true] at hw
  obtain ⟨⟨⟨h0, h1⟩, h2⟩, h3⟩ := hw
  have qc := Enc.com_ok h0
  have q0 := Enc.src_ok (show Wf.read a2.w64 a2.x = true from h2)
  simp only [Wf.recReg, decide_eq_true_eq] at h3
  try simp at h1
  have q1 := Enc.flag1_ok a2.w64
  rw [show encode (.cmaintWb a0 a1 a2 a3) = Enc.fmtM 0x7B a0 511 (Enc.src a2.x) 511 a3 a1 0 0 (b2n a2.w64 + 2) from rfl]
  obtain ⟨f1, f2, f3, f4, f5, f6, f7, f8, f9, f10, f11, f12, f13⟩ := Enc.fmtM_fields 0x7B a0 511 (Enc.src a2.x) 511 a3 a1 0 0 (b2n a2.w64 + 2) (by decide) qc (by omega) (by omega) (by omega) (by omega) (by omega) (by omega) (by omega) (by omega)
  generalize Enc.fmtM 0x7B a0 511 (Enc.src a2.x) 511 a3 a1 0 0 (b2n a2.w64 + 2) = w at *
  refine ⟨f1, Enc.decode_of f1 (by decide) f2 ?_ hwf⟩
  have g0 : fld (b2n a2.w64 + 2) 3 5 = 0 := by cases a2.w64 <;> rfl
  have g1 : fld (b2n a2.w64 + 2) 1 2 = 1 := by cases a2.w64 <;> rfl
  have g2 : bit (b2n a2.w64 + 2) 0 = a2.w64 := by cases a2.w64 <;> rfl
  unfold Dec.parse
  rw [f1]
  simp [Dec.access, Dec.need, f3, f4, f5, f6, f7, f8, f9, f10, f11, f12, f13, Enc.bit00, Enc.bit10, Dec.index, Dec.gindex, Dec.scrRest, Dec.vreg, Enc.kreg_add, Enc.rnd0, Enc.ty1, Enc.ty4, Enc.ty5, q0.2, q1.2, h1, g0, g1, g2]

theorem cmaintInvall (a0 : Com) (hw : Instr.wf (.cmaintInvall a0) = true) : fld (encode (.cmaintInvall a0)) 56 8 = 0x7B ∧ decode (encode (.cmaintInvall a0)) = .ok (.cmaintInvall a0) := by
  have hwf := hw
  replace hw : (Wf.com false a0) = true := hw
  have h0 := hw
  have qc := Enc.com_ok h0
  rw [show encode (.cmaintInvall a0) = Enc.fmtM 0x7B a0 511 511 511 0 0 0 0 4 from rfl]
  obtain ⟨f1, f2, f3, f4, f5, f6, f7, f8, f9, f10, f11, f12, f13⟩ := Enc.fmtM_fields 0x7B a0 511 511 511 0 0 0 0 4 (by decide) qc (by omega) (by omega) (by omega) (by omega) (by omega) (by omega) (by omega) (by omega)
  generalize Enc.fmtM 0x7B a0 511 511 511 0 0 0 0 4 = w at *
  refine ⟨f1, Enc.decode_of f1 (by decide) f2 ?_ hwf⟩
  have g0 : fld (4) 3 5 = 0 := by rfl
  have g1 : fld (4) 1 2 = 2 := by rfl
  have g2 : fld (4) 0 1 = 0 := by rfl
  unfold Dec.parse
  rw [f1]
  simp [Dec.access, Dec.need, f3, f4, f5, f6, f7, f8, f9, f10, f11, f12, f13, Enc.bit00, Enc.bit10, Dec.index, Dec.gindex, Dec.scrRest, Dec.vreg, Enc.kreg_add, Enc.rnd0, Enc.ty1, Enc.ty4, Enc.ty5, g0, g1, g2]

theorem ldk (a0 : Com) (a1 : Nat) (a2 : Nat) (a3 : Index) (a4 : Nat) (hw : Instr.wf (.ldk a0 a1 a2 a3 a4) = true) : fld (encode (.ldk a0 a1 a2 a3 a4)) 56 8 = 0x7C ∧ decode (encode (.ldk a0 a1 a2 a3 a4)) = .ok (.ldk a0 a1 a2 a3 a4) := by
  have hwf := hw
  replace hw : (Wf.com true a0 && (a1 == 2 || a1 == 3) && a2 < 64 && Wf.index a3 && Wf.recReg a4) = true := hw
  simp only [Bool.and_eq_true] at hw
  obtain ⟨⟨⟨⟨h0, h1⟩, h2⟩, h3⟩, h4⟩ := hw
  have qc := Enc.com_ok h0
  have q0 := Enc.src_ok (show Wf.read a3.w64 a3.x = true from h3)
  simp only [Wf.recReg, decide_eq_true_eq] at h4
  try simp at h1
  try simp at h2
  have q1 := Enc.flag1_ok a3.w64
  rw [show encode (.ldk a0 a1 a2 a3 a4) = Enc.fmtM 0x7C a0 (320 + a2) (Enc.src a3.x) 511 a4 a1 0 0 (b2n a3.w64) from rfl]
  obtain ⟨f1, f2, f3, f4, f5, f6, f7, f8, f9, f10, f11, f12, f13⟩ := Enc.fmtM_fields 0x7C a0 (320 + a2) (Enc.src a3.x) 511 a4 a1 0 0 (b2n a3.w64) (by decide) qc (by omega) (by omega) (by omega) (by omega) (by omega) (by omega) (by omega) (by omega)
  generalize Enc.fmtM 0x7C a0 (320 + a2) (Enc.src a3.x) 511 a4 a1 0 0 (b2n a3.w64) = w at *
  refine ⟨f1, Enc.decode_of f1 (by decide) f2 ?_ hwf⟩
  have g0 : fld (b2n a3.w64) 1 7 = 0 := by cases a3.w64 <;> rfl
  have g1 : bit (b2n a3.w64) 0 = a3.w64 := by cases a3.w64 <;> rfl
  unfold Dec.parse
  rw [f1]
  simp [Dec.access, Dec.need, f3, f4, f5, f6, f7, f8, f9, f10, f11, f12, f13, Enc.bit00, Enc.bit10, Dec.index, Dec.gindex, Dec.scrRest, Dec.vreg, Enc.kreg_add, Enc.rnd0, Enc.ty1, Enc.ty4, Enc.ty5, q0.2, q1.2, h1, h2, g0, g1]

theorem atom (a0 : Com) (a1 : AtomOp) (a2 : AtomKind) (a3 : Nat) (a4 : Order) (a5 : Scope) (a6 : Option Dst) (a7 : Index) (a8 : Src) (a9 : Nat) (hw : Instr.wf (.atom a0 a1 a2 a3 a4 a5 a6 a7 a8 a9) = true) : fld (encode (.atom a0 a1 a2 a3 a4 a5 a6 a7 a8 a9)) 56 8 = 0x80 ∧ decode (encode (.atom a0 a1 a2 a3 a4 a5 a6 a7 a8 a9)) = .ok (.atom a0 a1 a2 a3 a4 a5 a6 a7 a8 a9) := by
  have hwf := hw
  replace hw : (Wf.com true a0 && a1 ≠ .cas && Wf.atomKind a1 a2 a3 && Wf.syncShape a4 a5 a2 a3 && Wf.opt (Wf.dst (Wf.szT a3)) a6 && Wf.index a7 && Wf.read (Wf.szT a3) a8 && Wf.recReg a9) = true := hw
  simp only [Bool.and_eq_true] at hw
  obtain ⟨⟨⟨⟨⟨⟨⟨h0, h1⟩, h2⟩, h3⟩, h4⟩, h5⟩, h6⟩, h7⟩ := hw
  have qc := Enc.com_ok h0
  have zs := Enc.atomSz_ok h2
  have q0 := Enc.dstOpt_ok h4
  have q1 := Enc.src_ok (show Wf.read a7.w64 a7.x = true from h5)
  have q2 := Enc.src_ok h6
  simp only [Wf.recReg, decide_eq_true_eq] at h7
  try simp at h1
  try simp at h3
  have q3 := Enc.atomOp_ok a1
  have q4 := Enc.atomKind_ok a2
  have q5 := Enc.order_ok a4
  have q6 := Enc.scope_ok a5
  have q7 := Enc.flag1_ok a7.w64
  rw [show encode (.atom a0 a1 a2 a3 a4 a5 a6 a7 a8 a9) = Enc.fmtM 0x80 a0 (Enc.dstOpt a6) (Enc.src a7.x) (Enc.src a8) a9 a3 (Enc.order a4) a5.code (Enc.atomOp a1 + 16 * Enc.atomKind a2 + 64 * b2n a7.w64) from rfl]
  obtain ⟨f1, f2, f3, f4, f5, f6, f7, f8, f9, f10, f11, f12, f13⟩ := Enc.fmtM_fields 0x80 a0 (Enc.dstOpt a6) (Enc.src a7.x) (Enc.src a8) a9 a3 (Enc.order a4) a5.code (Enc.atomOp a1 + 16 * Enc.atomKind a2 + 64 * b2n a7.w64) (by decide) qc (by omega) (by omega) (by omega) (by omega) (by omega) (by omega) (by omega) (by omega)
  generalize Enc.fmtM 0x80 a0 (Enc.dstOpt a6) (Enc.src a7.x) (Enc.src a8) a9 a3 (Enc.order a4) a5.code (Enc.atomOp a1 + 16 * Enc.atomKind a2 + 64 * b2n a7.w64) = w at *
  refine ⟨f1, Enc.decode_of f1 (by decide) f2 ?_ hwf⟩
  have g0 : fld (Enc.atomOp a1 + 16 * Enc.atomKind a2 + 64 * b2n a7.w64) 7 1 = 0 := by cases a1 <;> cases a2 <;> cases a7.w64 <;> rfl
  have g1 : fld (Enc.atomOp a1 + 16 * Enc.atomKind a2 + 64 * b2n a7.w64) 0 4 = Enc.atomOp a1 := by cases a1 <;> cases a2 <;> cases a7.w64 <;> rfl
  have g2 : fld (Enc.atomOp a1 + 16 * Enc.atomKind a2 + 64 * b2n a7.w64) 4 2 = Enc.atomKind a2 := by cases a1 <;> cases a2 <;> cases a7.w64 <;> rfl
  have g3 : bit (Enc.atomOp a1 + 16 * Enc.atomKind a2 + 64 * b2n a7.w64) 6 = a7.w64 := by cases a1 <;> cases a2 <;> cases a7.w64 <;> rfl
  unfold Dec.parse
  rw [f1]
  simp [Dec.access, Dec.need, f3, f4, f5, f6, f7, f8, f9, f10, f11, f12, f13, Enc.bit00, Enc.bit10, Dec.index, Dec.gindex, Dec.scrRest, Dec.vreg, Enc.kreg_add, Enc.rnd0, Enc.ty1, Enc.ty4, Enc.ty5, q0.2, q1.2, q2.2, q3.2, q4.2, q5.2, q6.2, q7.2, h1, h3, g0, g1, g2, g3]

theorem acas (a0 : Com) (a1 : Nat) (a2 : Order) (a3 : Scope) (a4 : Dst) (a5 : Index) (a6 : Src) (a7 : Nat) (hw : Instr.wf (.acas a0 a1 a2 a3 a4 a5 a6 a7) = true) : fld (encode (.acas a0 a1 a2 a3 a4 a5 a6 a7)) 56 8 = 0x81 ∧ decode (encode (.acas a0 a1 a2 a3 a4 a5 a6 a7)) = .ok (.acas a0 a1 a2 a3 a4 a5 a6 a7) := by
  have hwf := hw
  replace hw : (Wf.com true a0 && (a1 == 2 || a1 == 3) && Wf.syncShape a2 a3 .unsigned a1 && Wf.dst (Wf.szT a1) a4 && Wf.index a5 && Wf.read (Wf.szT a1) a6 && Wf.recReg a7) = true := hw
  simp only [Bool.and_eq_true] at hw
  obtain ⟨⟨⟨⟨⟨⟨h0, h1⟩, h2⟩, h3⟩, h4⟩, h5⟩, h6⟩ := hw
  have qc := Enc.com_ok h0
  have q0 := Enc.dst_ok h3
  have q1 := Enc.src_ok (show Wf.read a5.w64 a5.x = true from h4)
  have q2 := Enc.src_ok h5
  simp only [Wf.recReg, decide_eq_true_eq] at h6
  try simp at h1
  try simp at h2
  have q3 := Enc.order_ok a2
  have q4 := Enc.scope_ok a3
  have q5 := Enc.flag1_ok a5.w64
  rw [show encode (.acas a0 a1 a2 a3 a4 a5 a6 a7) = Enc.fmtM 0x81 a0 (Enc.dst a4) (Enc.src a5.x) (Enc.src a6) a7 a1 (Enc.order a2) a3.code (64 * b2n a5.w64) from rfl]
  obtain ⟨f1, f2, f3, f4, f5, f6, f7, f8, f9, f10, f11, f12, f13⟩ := Enc.fmtM_fields 0x81 a0 (Enc.dst a4) (Enc.src a5.x) (Enc.src a6) a7 a1 (Enc.order a2) a3.code (64 * b2n a5.w64) (by decide) qc (by omega) (by omega) (by omega) (by omega) (by omega) (by omega) (by omega) (by omega)
  generalize Enc.fmtM 0x81 a0 (Enc.dst a4) (Enc.src a5.x) (Enc.src a6) a7 a1 (Enc.order a2) a3.code (64 * b2n a5.w64) = w at *
  refine ⟨f1, Enc.decode_of f1 (by decide) f2 ?_ hwf⟩
  have g0 : fld (64 * b2n a5.w64) 7 1 = 0 := by cases a5.w64 <;> rfl
  have g1 : fld (64 * b2n a5.w64) 0 6 = 0 := by cases a5.w64 <;> rfl
  have g2 : bit (64 * b2n a5.w64) 6 = a5.w64 := by cases a5.w64 <;> rfl
  unfold Dec.parse
  rw [f1]
  simp [Dec.access, Dec.need, f3, f4, f5, f6, f7, f8, f9, f10, f11, f12, f13, Enc.bit00, Enc.bit10, Dec.index, Dec.gindex, Dec.scrRest, Dec.vreg, Enc.kreg_add, Enc.rnd0, Enc.ty1, Enc.ty4, Enc.ty5, q0.2, q1.2, q2.2, q3.2, q4.2, q5.2, h1, h2, g0, g1, g2]

theorem atoms (a0 : Com) (a1 : AtomOp) (a2 : AtomKind) (a3 : Nat) (a4 : Order) (a5 : Scope) (a6 : Option Dst) (a7 : Src) (a8 : Src) (hw : Instr.wf (.atoms a0 a1 a2 a3 a4 a5 a6 a7 a8) = true) : fld (encode (.atoms a0 a1 a2 a3 a4 a5 a6 a7 a8)) 56 8 = 0x82 ∧ decode (encode (.atoms a0 a1 a2 a3 a4 a5 a6 a7 a8)) = .ok (.atoms a0 a1 a2 a3 a4 a5 a6 a7 a8) := by
  have hwf := hw
  replace hw : (Wf.com true a0 && Wf.atomKind a1 a2 a3 && a5.code ≤ 1 && Wf.opt (Wf.dst (Wf.szT a3)) a6 && (a1 ≠ .cas || a6.isSome) && Wf.read false a7 && Wf.read (Wf.szT a3) a8) = true := hw
  simp only [Bool.and_eq_true] at hw
  obtain ⟨⟨⟨⟨⟨⟨h0, h1⟩, h2⟩, h3⟩, h4⟩, h5⟩, h6⟩ := hw
  have qc := Enc.com_ok h0
  have zs := Enc.atomSz_ok h1
  have q0 := Enc.dstOpt_ok h3
  have q1 := Enc.src_ok h5
  have q2 := Enc.src_ok h6
  try simp at h2
  try simp at h4
  have q3 := Enc.atomOp_ok a1
  have q4 := Enc.atomKind_ok a2
  have q5 := Enc.order_ok a4
  have q6 := Enc.scope_ok a5
  rw [show encode (.atoms a0 a1 a2 a3 a4 a5 a6 a7 a8) = Enc.fmtM 0x82 a0 (Enc.dstOpt a6) (Enc.src a7) (Enc.src a8) 0 a3 (Enc.order a4) a5.code (Enc.atomOp a1 + 16 * Enc.atomKind a2) from rfl]
  obtain ⟨f1, f2, f3, f4, f5, f6, f7, f8, f9, f10, f11, f12, f13⟩ := Enc.fmtM_fields 0x82 a0 (Enc.dstOpt a6) (Enc.src a7) (Enc.src a8) 0 a3 (Enc.order a4) a5.code (Enc.atomOp a1 + 16 * Enc.atomKind a2) (by decide) qc (by omega) (by omega) (by omega) (by omega) (by omega) (by omega) (by omega) (by omega)
  generalize Enc.fmtM 0x82 a0 (Enc.dstOpt a6) (Enc.src a7) (Enc.src a8) 0 a3 (Enc.order a4) a5.code (Enc.atomOp a1 + 16 * Enc.atomKind a2) = w at *
  refine ⟨f1, Enc.decode_of f1 (by decide) f2 ?_ hwf⟩
  have g0 : fld (Enc.atomOp a1 + 16 * Enc.atomKind a2) 6 2 = 0 := by cases a1 <;> cases a2 <;> rfl
  have g1 : fld (Enc.atomOp a1 + 16 * Enc.atomKind a2) 0 4 = Enc.atomOp a1 := by cases a1 <;> cases a2 <;> rfl
  have g2 : fld (Enc.atomOp a1 + 16 * Enc.atomKind a2) 4 2 = Enc.atomKind a2 := by cases a1 <;> cases a2 <;> rfl
  unfold Dec.parse
  rw [f1]
  simp [Dec.access, Dec.need, f3, f4, f5, f6, f7, f8, f9, f10, f11, f12, f13, Enc.bit00, Enc.bit10, Dec.index, Dec.gindex, Dec.scrRest, Dec.vreg, Enc.kreg_add, Enc.rnd0, Enc.ty1, Enc.ty4, Enc.ty5, q0.2, q1.2, q2.2, q3.2, q4.2, q5.2, q6.2, h2, h4, g0, g1, g2]

theorem waita_plain (a0 : Com) (a1 : Option Nat) (a2 a3 : Src) (a4 : WaitCmp) (a5 a6 a7 : Bool) (hw : Instr.wf (.waita a0 a1 a2 a3 a4 a5 a6 a7 none) = true) : fld (encode (.waita a0 a1 a2 a3 a4 a5 a6 a7 none)) 56 8 = 0x87 ∧ decode (encode (.waita a0 a1 a2 a3 a4 a5 a6 a7 none)) = .ok (.waita a0 a1 a2 a3 a4 a5 a6 a7 none) := by
  have hwf := hw
  replace hw : (Wf.com false a0 && Wf.opt Wf.pd a1 && (if a7 = true then Wf.read false a2 else Wf.addr a2) && Wf.read a6 a3 && true) = true := hw
  simp only [Bool.and_eq_true] at hw
  obtain ⟨⟨⟨⟨h0, h1⟩, h2⟩, h3⟩, h4⟩ := hw
  have qc := Enc.com_ok h0
  have q0 := Enc.pdOpt_ok h1
  have q1 : Enc.src a2 < 512 ∧ Dec.src (Enc.src a2) = some a2 := by
    split at h2
    · exact Enc.src_ok h2
    · exact Enc.addr_ok h2
  have q2 := Enc.src_ok h3
  have q3 := Enc.waitCmp_ok a4
  have b5 := Enc.b2n_lt a5
  have b6 := Enc.b2n_lt a6
  have b7 := Enc.b2n_lt a7
  rw [show encode (.waita a0 a1 a2 a3 a4 a5 a6 a7 none) = Enc.fmtS 0x87 a0 (Enc.pdOpt a1) (Enc.src a2) (Enc.src a3) (Enc.waitCmp a4 + 8 * b2n a5 + 16 * b2n a6 + 32 * b2n a7 + 0) from rfl]
  obtain ⟨f1, f2, f3, f4, f5, f6, f7, f8, f9⟩ := Enc.fmtS_fields 0x87 a0 (Enc.pdOpt a1) (Enc.src a2) (Enc.src a3) (Enc.waitCmp a4 + 8 * b2n a5 + 16 * b2n a6 + 32 * b2n a7 + 0) (by decide) qc (by omega) (by omega) (by omega) (by omega)
  generalize Enc.fmtS 0x87 a0 (Enc.pdOpt a1) (Enc.src a2) (Enc.src a3) (Enc.waitCmp a4 + 8 * b2n a5 + 16 * b2n a6 + 32 * b2n a7 + 0) = w at *
  refine ⟨f1, Enc.decode_of f1 (by decide) f2 ?_ hwf⟩
  unfold Dec.parse
  rw [f1]
  have g1 : fld (Enc.waitCmp a4 + 8 * b2n a5 + 16 * b2n a6 + 32 * b2n a7 + 0) 10 11 = 0 := by cases a4 <;> cases a5 <;> cases a6 <;> cases a7 <;> decide
  have g2 : bit (Enc.waitCmp a4 + 8 * b2n a5 + 16 * b2n a6 + 32 * b2n a7 + 0) 6 = false := by cases a4 <;> cases a5 <;> cases a6 <;> cases a7 <;> decide
  have g3 : fld (Enc.waitCmp a4 + 8 * b2n a5 + 16 * b2n a6 + 32 * b2n a7 + 0) 7 3 = 0 := by cases a4 <;> cases a5 <;> cases a6 <;> cases a7 <;> decide
  have g4 : fld (Enc.waitCmp a4 + 8 * b2n a5 + 16 * b2n a6 + 32 * b2n a7 + 0) 0 3 = Enc.waitCmp a4 := by cases a4 <;> cases a5 <;> cases a6 <;> cases a7 <;> decide
  have g5 : bit (Enc.waitCmp a4 + 8 * b2n a5 + 16 * b2n a6 + 32 * b2n a7 + 0) 3 = a5 := by cases a4 <;> cases a5 <;> cases a6 <;> cases a7 <;> decide
  have g6 : bit (Enc.waitCmp a4 + 8 * b2n a5 + 16 * b2n a6 + 32 * b2n a7 + 0) 4 = a6 := by cases a4 <;> cases a5 <;> cases a6 <;> cases a7 <;> decide
  have g7 : bit (Enc.waitCmp a4 + 8 * b2n a5 + 16 * b2n a6 + 32 * b2n a7 + 0) 5 = a7 := by cases a4 <;> cases a5 <;> cases a6 <;> cases a7 <;> decide
  have k1 := (f8 10 11 (by decide)).trans g1
  have k2 := (f9 6 (by decide)).trans g2
  have k3 := (f8 7 3 (by decide)).trans g3
  have k4 := (f8 0 3 (by decide)).trans g4
  have k5 := (f9 3 (by decide)).trans g5
  have k6 := (f9 4 (by decide)).trans g6
  have k7 := (f9 5 (by decide)).trans g7
  simp [Dec.sync, Dec.need, f3, f4, f5, f6, k1, k2, k3, k4, k5, k6, k7, q0.2, q1.2, q2.2, q3.2]

theorem waita_acq (a0 : Com) (a1 : Option Nat) (a2 a3 : Src) (a4 : WaitCmp) (a5 a6 a7 : Bool) (sc : Scope) (hw : Instr.wf (.waita a0 a1 a2 a3 a4 a5 a6 a7 (some sc)) = true) : fld (encode (.waita a0 a1 a2 a3 a4 a5 a6 a7 (some sc))) 56 8 = 0x87 ∧ decode (encode (.waita a0 a1 a2 a3 a4 a5 a6 a7 (some sc))) = .ok (.waita a0 a1 a2 a3 a4 a5 a6 a7 (some sc)) := by
  have hwf := hw
  replace hw : (Wf.com false a0 && Wf.opt Wf.pd a1 && (if a7 = true then Wf.read false a2 else Wf.addr a2) && Wf.read a6 a3 && (!a7 || decide (sc.code ≤ 1))) = true := hw
  simp only [Bool.and_eq_true] at hw
  obtain ⟨⟨⟨⟨h0, h1⟩, h2⟩, h3⟩, h4⟩ := hw
  have qc := Enc.com_ok h0
  have q0 := Enc.pdOpt_ok h1
  have q1 : Enc.src a2 < 512 ∧ Dec.src (Enc.src a2) = some a2 := by
    split at h2
    · exact Enc.src_ok h2
    · exact Enc.addr_ok h2
  have q2 := Enc.src_ok h3
  have q3 := Enc.waitCmp_ok a4
  have b5 := Enc.b2n_lt a5
  have b6 := Enc.b2n_lt a6
  have b7 := Enc.b2n_lt a7
  have q4 := Enc.scope_ok sc
  rw [show encode (.waita a0 a1 a2 a3 a4 a5 a6 a7 (some sc)) = Enc.fmtS 0x87 a0 (Enc.pdOpt a1) (Enc.src a2) (Enc.src a3) (Enc.waitCmp a4 + 8 * b2n a5 + 16 * b2n a6 + 32 * b2n a7 + (64 + 128 * sc.code)) from rfl]
  obtain ⟨f1, f2, f3, f4, f5, f6, f7, f8, f9⟩ := Enc.fmtS_fields 0x87 a0 (Enc.pdOpt a1) (Enc.src a2) (Enc.src a3) (Enc.waitCmp a4 + 8 * b2n a5 + 16 * b2n a6 + 32 * b2n a7 + (64 + 128 * sc.code)) (by decide) qc (by omega) (by omega) (by omega) (by omega)
  generalize Enc.fmtS 0x87 a0 (Enc.pdOpt a1) (Enc.src a2) (Enc.src a3) (Enc.waitCmp a4 + 8 * b2n a5 + 16 * b2n a6 + 32 * b2n a7 + (64 + 128 * sc.code)) = w at *
  refine ⟨f1, Enc.decode_of f1 (by decide) f2 ?_ hwf⟩
  unfold Dec.parse
  rw [f1]
  have g1 : fld (Enc.waitCmp a4 + 8 * b2n a5 + 16 * b2n a6 + 32 * b2n a7 + (64 + 128 * sc.code)) 10 11 = 0 := by cases a4 <;> cases a5 <;> cases a6 <;> cases a7 <;> cases sc <;> decide
  have g2 : bit (Enc.waitCmp a4 + 8 * b2n a5 + 16 * b2n a6 + 32 * b2n a7 + (64 + 128 * sc.code)) 6 = true := by cases a4 <;> cases a5 <;> cases a6 <;> cases a7 <;> cases sc <;> decide
  have g3 : fld (Enc.waitCmp a4 + 8 * b2n a5 + 16 * b2n a6 + 32 * b2n a7 + (64 + 128 * sc.code)) 7 3 = sc.code := by cases a4 <;> cases a5 <;> cases a6 <;> cases a7 <;> cases sc <;> decide
  have g4 : fld (Enc.waitCmp a4 + 8 * b2n a5 + 16 * b2n a6 + 32 * b2n a7 + (64 + 128 * sc.code)) 0 3 = Enc.waitCmp a4 := by cases a4 <;> cases a5 <;> cases a6 <;> cases a7 <;> cases sc <;> decide
  have g5 : bit (Enc.waitCmp a4 + 8 * b2n a5 + 16 * b2n a6 + 32 * b2n a7 + (64 + 128 * sc.code)) 3 = a5 := by cases a4 <;> cases a5 <;> cases a6 <;> cases a7 <;> cases sc <;> decide
  have g6 : bit (Enc.waitCmp a4 + 8 * b2n a5 + 16 * b2n a6 + 32 * b2n a7 + (64 + 128 * sc.code)) 4 = a6 := by cases a4 <;> cases a5 <;> cases a6 <;> cases a7 <;> cases sc <;> decide
  have g7 : bit (Enc.waitCmp a4 + 8 * b2n a5 + 16 * b2n a6 + 32 * b2n a7 + (64 + 128 * sc.code)) 5 = a7 := by cases a4 <;> cases a5 <;> cases a6 <;> cases a7 <;> cases sc <;> decide
  have k1 := (f8 10 11 (by decide)).trans g1
  have k2 := (f9 6 (by decide)).trans g2
  have k3 := (f8 7 3 (by decide)).trans g3
  have k4 := (f8 0 3 (by decide)).trans g4
  have k5 := (f9 3 (by decide)).trans g5
  have k6 := (f9 4 (by decide)).trans g6
  have k7 := (f9 5 (by decide)).trans g7
  simp [Dec.sync, Dec.need, f3, f4, f5, f6, k1, k2, k3, k4, k5, k6, k7, q0.2, q1.2, q2.2, q3.2, q4.2]

theorem waita (a0 : Com) (a1 : Option Nat) (a2 a3 : Src) (a4 : WaitCmp) (a5 a6 a7 : Bool) (a8 : Option Scope) (hw : Instr.wf (.waita a0 a1 a2 a3 a4 a5 a6 a7 a8) = true) : fld (encode (.waita a0 a1 a2 a3 a4 a5 a6 a7 a8)) 56 8 = 0x87 ∧ decode (encode (.waita a0 a1 a2 a3 a4 a5 a6 a7 a8)) = .ok (.waita a0 a1 a2 a3 a4 a5 a6 a7 a8) := by
  cases a8 with
  | none => exact waita_plain a0 a1 a2 a3 a4 a5 a6 a7 hw
  | some sc => exact waita_acq a0 a1 a2 a3 a4 a5 a6 a7 sc hw

theorem fence (a0 : Com) (a1 : FenceKind) (a2 : Bool) (a3 : Scope) (hw : Instr.wf (.fence a0 a1 a2 a3) = true) : fld (encode (.fence a0 a1 a2 a3)) 56 8 = 0x83 ∧ decode (encode (.fence a0 a1 a2 a3)) = .ok (.fence a0 a1 a2 a3) := by
  have hwf := hw
  replace hw : (Wf.com false a0) = true := hw
  have h0 := hw
  have qc := Enc.com_ok h0
  have q0 := Enc.fenceKind_ok a1
  have q1 := Enc.flag1_ok a2
  have q2 := Enc.scope_ok a3
  rw [show encode (.fence a0 a1 a2 a3) = Enc.fmtS 0x83 a0 511 511 511 (a3.code + 8 * Enc.fenceKind a1 + 32 * b2n a2) from rfl]
  obtain ⟨f1, f2, f3, f4, f5, f6, f7, f8, f9⟩ := Enc.fmtS_fields 0x83 a0 511 511 511 (a3.code + 8 * Enc.fenceKind a1 + 32 * b2n a2) (by decide) qc (by omega) (by omega) (by omega) (by omega)
  generalize Enc.fmtS 0x83 a0 511 511 511 (a3.code + 8 * Enc.fenceKind a1 + 32 * b2n a2) = w at *
  refine ⟨f1, Enc.decode_of f1 (by decide) f2 ?_ hwf⟩
  have g0 : fld (a3.code + 8 * Enc.fenceKind a1 + 32 * b2n a2) 6 15 = 0 := by cases a3 <;> cases a1 <;> cases a2 <;> rfl
  have g1 : fld (a3.code + 8 * Enc.fenceKind a1 + 32 * b2n a2) 3 2 = Enc.fenceKind a1 := by cases a3 <;> cases a1 <;> cases a2 <;> rfl
  have g2 : fld (a3.code + 8 * Enc.fenceKind a1 + 32 * b2n a2) 0 3 = a3.code := by cases a3 <;> cases a1 <;> cases a2 <;> rfl
  have g3 : bit (a3.code + 8 * Enc.fenceKind a1 + 32 * b2n a2) 5 = a2 := by cases a3 <;> cases a1 <;> cases a2 <;> rfl
  unfold Dec.parse
  rw [f1]
  simp [Dec.sync, Dec.need, f3, f4, f5, f6, f7, f8, f9, Enc.bit00, Enc.bit10, Dec.index, Dec.gindex, Dec.scrRest, Dec.vreg, Enc.kreg_add, Enc.rnd0, Enc.ty1, Enc.ty4, Enc.ty5, q0.2, q1.2, q2.2, g0, g1, g2, g3]

theorem ldacq (a0 : Com) (a1 : Nat) (a2 : Scope) (a3 : Dst) (a4 : Index) (a5 : Nat) (hw : Instr.wf (.ldacq a0 a1 a2 a3 a4 a5) = true) : fld (encode (.ldacq a0 a1 a2 a3 a4 a5)) 56 8 = 0x84 ∧ decode (encode (.ldacq a0 a1 a2 a3 a4 a5)) = .ok (.ldacq a0 a1 a2 a3 a4 a5) := by
  have hwf := hw
  replace hw : (Wf.com true a0 && Wf.syncSz a1 a2 && Wf.dst (Wf.szT a1) a3 && Wf.index a4 && Wf.recReg a5) = true := hw
  simp only [Bool.and_eq_true] at hw
  obtain ⟨⟨⟨⟨h0, h1⟩, h2⟩, h3⟩, h4⟩ := hw
  have qc := Enc.com_ok h0
  have zs := Enc.syncSz_ok h1
  have q0 := Enc.dst_ok h2
  have q1 := Enc.src_ok (show Wf.read a4.w64 a4.x = true from h3)
  simp only [Wf.recReg, decide_eq_true_eq] at h4
  have q2 := Enc.scope_ok a2
  have q3 := Enc.flag1_ok a4.w64
  rw [show encode (.ldacq a0 a1 a2 a3 a4 a5) = Enc.fmtM 0x84 a0 (Enc.dst a3) (Enc.src a4.x) 511 a5 a1 1 a2.code (b2n a4.w64) from rfl]
  obtain ⟨f1, f2, f3, f4, f5, f6, f7, f8, f9, f10, f11, f12, f13⟩ := Enc.fmtM_fields 0x84 a0 (Enc.dst a3) (Enc.src a4.x) 511 a5 a1 1 a2.code (b2n a4.w64) (by decide) qc (by omega) (by omega) (by omega) (by omega) (by omega) (by omega) (by omega) (by omega)
  generalize Enc.fmtM 0x84 a0 (Enc.dst a3) (Enc.src a4.x) 511 a5 a1 1 a2.code (b2n a4.w64) = w at *
  refine ⟨f1, Enc.decode_of f1 (by decide) f2 ?_ hwf⟩
  have g0 : fld (b2n a4.w64) 1 7 = 0 := by cases a4.w64 <;> rfl
  have g1 : bit (b2n a4.w64) 0 = a4.w64 := by cases a4.w64 <;> rfl
  unfold Dec.parse
  rw [f1]
  simp [Dec.sync, Dec.need, f3, f4, f5, f6, f7, f8, f9, f10, f11, f12, f13, Enc.bit00, Enc.bit10, Dec.index, Dec.gindex, Dec.scrRest, Dec.vreg, Enc.kreg_add, Enc.rnd0, Enc.ty1, Enc.ty4, Enc.ty5, q0.2, q1.2, q2.2, q3.2, g0, g1]

theorem strel (a0 : Com) (a1 : Nat) (a2 : Scope) (a3 : Src) (a4 : Index) (a5 : Nat) (hw : Instr.wf (.strel a0 a1 a2 a3 a4 a5) = true) : fld (encode (.strel a0 a1 a2 a3 a4 a5)) 56 8 = 0x85 ∧ decode (encode (.strel a0 a1 a2 a3 a4 a5)) = .ok (.strel a0 a1 a2 a3 a4 a5) := by
  have hwf := hw
  replace hw : (Wf.com false a0 && Wf.syncSz a1 a2 && Wf.read (Wf.szT a1) a3 && Wf.index a4 && Wf.recReg a5) = true := hw
  simp only [Bool.and_eq_true] at hw
  obtain ⟨⟨⟨⟨h0, h1⟩, h2⟩, h3⟩, h4⟩ := hw
  have qc := Enc.com_ok h0
  have zs := Enc.syncSz_ok h1
  have q0 := Enc.src_ok h2
  have q1 := Enc.src_ok (show Wf.read a4.w64 a4.x = true from h3)
  simp only [Wf.recReg, decide_eq_true_eq] at h4
  have q2 := Enc.scope_ok a2
  have q3 := Enc.flag1_ok a4.w64
  rw [show encode (.strel a0 a1 a2 a3 a4 a5) = Enc.fmtM 0x85 a0 (Enc.src a3) (Enc.src a4.x) 511 a5 a1 2 a2.code (b2n a4.w64) from rfl]
  obtain ⟨f1, f2, f3, f4, f5, f6, f7, f8, f9, f10, f11, f12, f13⟩ := Enc.fmtM_fields 0x85 a0 (Enc.src a3) (Enc.src a4.x) 511 a5 a1 2 a2.code (b2n a4.w64) (by decide) qc (by omega) (by omega) (by omega) (by omega) (by omega) (by omega) (by omega) (by omega)
  generalize Enc.fmtM 0x85 a0 (Enc.src a3) (Enc.src a4.x) 511 a5 a1 2 a2.code (b2n a4.w64) = w at *
  refine ⟨f1, Enc.decode_of f1 (by decide) f2 ?_ hwf⟩
  have g0 : fld (b2n a4.w64) 1 7 = 0 := by cases a4.w64 <;> rfl
  have g1 : bit (b2n a4.w64) 0 = a4.w64 := by cases a4.w64 <;> rfl
  unfold Dec.parse
  rw [f1]
  simp [Dec.sync, Dec.need, f3, f4, f5, f6, f7, f8, f9, f10, f11, f12, f13, Enc.bit00, Enc.bit10, Dec.index, Dec.gindex, Dec.scrRest, Dec.vreg, Enc.kreg_add, Enc.rnd0, Enc.ty1, Enc.ty4, Enc.ty5, q0.2, q1.2, q2.2, q3.2, g0, g1]

theorem syadd (a0 : Com) (a1 : Order) (a2 : Scope) (a3 : Option Dst) (a4 : Index) (a5 : Src) (a6 : Nat) (hw : Instr.wf (.syadd a0 a1 a2 a3 a4 a5 a6) = true) : fld (encode (.syadd a0 a1 a2 a3 a4 a5 a6)) 56 8 = 0x86 ∧ decode (encode (.syadd a0 a1 a2 a3 a4 a5 a6)) = .ok (.syadd a0 a1 a2 a3 a4 a5 a6) := by
  have hwf := hw
  replace hw : (Wf.com false a0 && a1 ≠ .relaxed && 2 ≤ a2.code && Wf.opt (Wf.dst true) a3 && Wf.index a4 && Wf.read true a5 && Wf.recReg a6) = true := hw
  simp only [Bool.and_eq_true] at hw
  obtain ⟨⟨⟨⟨⟨⟨h0, h1⟩, h2⟩, h3⟩, h4⟩, h5⟩, h6⟩ := hw
  have qc := Enc.com_ok h0
  have q0 := Enc.dstOpt_ok h3
  have q1 := Enc.src_ok (show Wf.read a4.w64 a4.x = true from h4)
  have q2 := Enc.src_ok h5
  simp only [Wf.recReg, decide_eq_true_eq] at h6
  try simp at h1
  try simp at h2
  have q3 := Enc.order_ok a1
  have q4 := Enc.scope_ok a2
  have q5 := Enc.flag1_ok a4.w64
  rw [show encode (.syadd a0 a1 a2 a3 a4 a5 a6) = Enc.fmtM 0x86 a0 (Enc.dstOpt a3) (Enc.src a4.x) (Enc.src a5) a6 3 (Enc.order a1) a2.code (b2n a4.w64) from rfl]
  obtain ⟨f1, f2, f3, f4, f5, f6, f7, f8, f9, f10, f11, f12, f13⟩ := Enc.fmtM_fields 0x86 a0 (Enc.dstOpt a3) (Enc.src a4.x) (Enc.src a5) a6 3 (Enc.order a1) a2.code (b2n a4.w64) (by decide) qc (by omega) (by omega) (by omega) (by omega) (by omega) (by omega) (by omega) (by omega)
  generalize Enc.fmtM 0x86 a0 (Enc.dstOpt a3) (Enc.src a4.x) (Enc.src a5) a6 3 (Enc.order a1) a2.code (b2n a4.w64) = w at *
  refine ⟨f1, Enc.decode_of f1 (by decide) f2 ?_ hwf⟩
  have g0 : fld (b2n a4.w64) 1 7 = 0 := by cases a4.w64 <;> rfl
  have g1 : bit (b2n a4.w64) 0 = a4.w64 := by cases a4.w64 <;> rfl
  unfold Dec.parse
  rw [f1]
  simp [Dec.sync, Dec.need, f3, f4, f5, f6, f7, f8, f9, f10, f11, f12, f13, Enc.bit00, Enc.bit10, Dec.index, Dec.gindex, Dec.scrRest, Dec.vreg, Enc.kreg_add, Enc.rnd0, Enc.ty1, Enc.ty4, Enc.ty5, q0.2, q1.2, q2.2, q3.2, q4.2, q5.2, h1, h2, g0, g1]

theorem bar (a0 : Com) (a1 : Nat) (a2 : Option Src) (hw : Instr.wf (.bar a0 a1 a2) = true) : fld (encode (.bar a0 a1 a2)) 56 8 = 0x88 ∧ decode (encode (.bar a0 a1 a2)) = .ok (.bar a0 a1 a2) := by
  have hwf := hw
  replace hw : (Wf.com false a0 && a1 < 16 && Wf.opt (Wf.src false) a2) = true := hw
  simp only [Bool.and_eq_true] at hw
  obtain ⟨⟨h0, h1⟩, h2⟩ := hw
  have qc := Enc.com_ok h0
  have q0 := Enc.srcOpt_ok h2
  try simp at h1
  rw [show encode (.bar a0 a1 a2) = Enc.fmtS 0x88 a0 511 511 (Enc.srcOpt a2) a1 from rfl]
  obtain ⟨f1, f2, f3, f4, f5, f6, f7, f8, f9⟩ := Enc.fmtS_fields 0x88 a0 511 511 (Enc.srcOpt a2) a1 (by decide) qc (by omega) (by omega) (by omega) (by omega)
  generalize Enc.fmtS 0x88 a0 511 511 (Enc.srcOpt a2) a1 = w at *
  refine ⟨f1, Enc.decode_of f1 (by decide) f2 ?_ hwf⟩
  unfold Dec.parse
  rw [f1]
  simp [Dec.sync, Dec.need, f3, f4, f5, f6, f7, f8, f9, Enc.bit00, Enc.bit10, Dec.index, Dec.gindex, Dec.scrRest, Dec.vreg, Enc.kreg_add, Enc.rnd0, Enc.ty1, Enc.ty4, Enc.ty5, q0.2, h1]

theorem bara (a0 : Com) (a1 : Nat) (a2 : Option Src) (hw : Instr.wf (.bara a0 a1 a2) = true) : fld (encode (.bara a0 a1 a2)) 56 8 = 0x89 ∧ decode (encode (.bara a0 a1 a2)) = .ok (.bara a0 a1 a2) := by
  have hwf := hw
  replace hw : (Wf.com false a0 && a1 < 16 && Wf.opt (Wf.src false) a2) = true := hw
  simp only [Bool.and_eq_true] at hw
  obtain ⟨⟨h0, h1⟩, h2⟩ := hw
  have qc := Enc.com_ok h0
  have q0 := Enc.srcOpt_ok h2
  try simp at h1
  rw [show encode (.bara a0 a1 a2) = Enc.fmtS 0x89 a0 511 511 (Enc.srcOpt a2) a1 from rfl]
  obtain ⟨f1, f2, f3, f4, f5, f6, f7, f8, f9⟩ := Enc.fmtS_fields 0x89 a0 511 511 (Enc.srcOpt a2) a1 (by decide) qc (by omega) (by omega) (by omega) (by omega)
  generalize Enc.fmtS 0x89 a0 511 511 (Enc.srcOpt a2) a1 = w at *
  refine ⟨f1, Enc.decode_of f1 (by decide) f2 ?_ hwf⟩
  unfold Dec.parse
  rw [f1]
  simp [Dec.sync, Dec.need, f3, f4, f5, f6, f7, f8, f9, Enc.bit00, Enc.bit10, Dec.index, Dec.gindex, Dec.scrRest, Dec.vreg, Enc.kreg_add, Enc.rnd0, Enc.ty1, Enc.ty4, Enc.ty5, q0.2, h1]

theorem cpyin (a0 : Com) (a1 : Nat) (a2 : Src) (a3 : Index) (a4 : Option Src) (a5 : Nat) (hw : Instr.wf (.cpyin a0 a1 a2 a3 a4 a5) = true) : fld (encode (.cpyin a0 a1 a2 a3 a4 a5)) 56 8 = 0x90 ∧ decode (encode (.cpyin a0 a1 a2 a3 a4 a5)) = .ok (.cpyin a0 a1 a2 a3 a4 a5) := by
  have hwf := hw
  replace hw : (Wf.com false a0 && (a1 == 2 || a1 == 3 || a1 == 4) && Wf.read false a2 && Wf.index a3 && Wf.opt (Wf.src false) a4 && Wf.recReg a5) = true := hw
  simp only [Bool.and_eq_true] at hw
  obtain ⟨⟨⟨⟨⟨h0, h1⟩, h2⟩, h3⟩, h4⟩, h5⟩ := hw
  have qc := Enc.com_ok h0
  have q0 := Enc.src_ok h2
  have q1 := Enc.src_ok (show Wf.read a3.w64 a3.x = true from h3)
  have q2 := Enc.srcOpt_ok h4
  simp only [Wf.recReg, decide_eq_true_eq] at h5
  try simp at h1
  have q3 := Enc.flag1_ok a3.w64
  rw [show encode (.cpyin a0 a1 a2 a3 a4 a5) = Enc.fmtM 0x90 a0 (Enc.src a2) (Enc.src a3.x) (Enc.srcOpt a4) a5 a1 0 0 (b2n a3.w64) from rfl]
  obtain ⟨f1, f2, f3, f4, f5, f6, f7, f8, f9, f10, f11, f12, f13⟩ := Enc.fmtM_fields 0x90 a0 (Enc.src a2) (Enc.src a3.x) (Enc.srcOpt a4) a5 a1 0 0 (b2n a3.w64) (by decide) qc (by omega) (by omega) (by omega) (by omega) (by omega) (by omega) (by omega) (by omega)
  generalize Enc.fmtM 0x90 a0 (Enc.src a2) (Enc.src a3.x) (Enc.srcOpt a4) a5 a1 0 0 (b2n a3.w64) = w at *
  refine ⟨f1, Enc.decode_of f1 (by decide) f2 ?_ hwf⟩
  have g0 : fld (b2n a3.w64) 1 7 = 0 := by cases a3.w64 <;> rfl
  have g1 : bit (b2n a3.w64) 0 = a3.w64 := by cases a3.w64 <;> rfl
  unfold Dec.parse
  rw [f1]
  simp [Dec.copy, Dec.need, f3, f4, f5, f6, f7, f8, f9, f10, f11, f12, f13, Enc.bit00, Enc.bit10, Dec.index, Dec.gindex, Dec.scrRest, Dec.vreg, Enc.kreg_add, Enc.rnd0, Enc.ty1, Enc.ty4, Enc.ty5, q0.2, q1.2, q2.2, q3.2, h1, g0, g1]

theorem cpyout (a0 : Com) (a1 : Nat) (a2 : Src) (a3 : Index) (a4 : Option Src) (a5 : Nat) (hw : Instr.wf (.cpyout a0 a1 a2 a3 a4 a5) = true) : fld (encode (.cpyout a0 a1 a2 a3 a4 a5)) 56 8 = 0x91 ∧ decode (encode (.cpyout a0 a1 a2 a3 a4 a5)) = .ok (.cpyout a0 a1 a2 a3 a4 a5) := by
  have hwf := hw
  replace hw : (Wf.com false a0 && (a1 == 2 || a1 == 3 || a1 == 4) && Wf.read false a2 && Wf.index a3 && Wf.opt (Wf.src false) a4 && Wf.recReg a5) = true := hw
  simp only [Bool.and_eq_true] at hw
  obtain ⟨⟨⟨⟨⟨h0, h1⟩, h2⟩, h3⟩, h4⟩, h5⟩ := hw
  have qc := Enc.com_ok h0
  have q0 := Enc.src_ok h2
  have q1 := Enc.src_ok (show Wf.read a3.w64 a3.x = true from h3)
  have q2 := Enc.srcOpt_ok h4
  simp only [Wf.recReg, decide_eq_true_eq] at h5
  try simp at h1
  have q3 := Enc.flag1_ok a3.w64
  rw [show encode (.cpyout a0 a1 a2 a3 a4 a5) = Enc.fmtM 0x91 a0 (Enc.src a2) (Enc.src a3.x) (Enc.srcOpt a4) a5 a1 0 0 (b2n a3.w64) from rfl]
  obtain ⟨f1, f2, f3, f4, f5, f6, f7, f8, f9, f10, f11, f12, f13⟩ := Enc.fmtM_fields 0x91 a0 (Enc.src a2) (Enc.src a3.x) (Enc.srcOpt a4) a5 a1 0 0 (b2n a3.w64) (by decide) qc (by omega) (by omega) (by omega) (by omega) (by omega) (by omega) (by omega) (by omega)
  generalize Enc.fmtM 0x91 a0 (Enc.src a2) (Enc.src a3.x) (Enc.srcOpt a4) a5 a1 0 0 (b2n a3.w64) = w at *
  refine ⟨f1, Enc.decode_of f1 (by decide) f2 ?_ hwf⟩
  have g0 : fld (b2n a3.w64) 1 7 = 0 := by cases a3.w64 <;> rfl
  have g1 : bit (b2n a3.w64) 0 = a3.w64 := by cases a3.w64 <;> rfl
  unfold Dec.parse
  rw [f1]
  simp [Dec.copy, Dec.need, f3, f4, f5, f6, f7, f8, f9, f10, f11, f12, f13, Enc.bit00, Enc.bit10, Dec.index, Dec.gindex, Dec.scrRest, Dec.vreg, Enc.kreg_add, Enc.rnd0, Enc.ty1, Enc.ty4, Enc.ty5, q0.2, q1.2, q2.2, q3.2, h1, g0, g1]

theorem cpyw (a0 : Com) (a1 : Nat) (a2 : Scope) (a3 : Src) (a4 : Index) (a5 : Nat) (hw : Instr.wf (.cpyw a0 a1 a2 a3 a4 a5) = true) : fld (encode (.cpyw a0 a1 a2 a3 a4 a5)) 56 8 = 0x98 ∧ decode (encode (.cpyw a0 a1 a2 a3 a4 a5)) = .ok (.cpyw a0 a1 a2 a3 a4 a5) := by
  have hwf := hw
  replace hw : (Wf.com false a0 && 1 ≤ a2.code && (a1 == 3 || (a1 == 2 && a2.code == 1)) && Wf.read (Wf.szT a1) a3 && Wf.index a4 && Wf.recReg a5) = true := hw
  simp only [Bool.and_eq_true] at hw
  obtain ⟨⟨⟨⟨⟨h0, h1⟩, h2⟩, h3⟩, h4⟩, h5⟩ := hw
  have qc := Enc.com_ok h0
  have q0 := Enc.src_ok h3
  have q1 := Enc.src_ok (show Wf.read a4.w64 a4.x = true from h4)
  simp only [Wf.recReg, decide_eq_true_eq] at h5
  try simp at h1
  try simp at h2
  have q2 := Enc.scope_ok a2
  have q3 := Enc.flag1_ok a4.w64
  rw [show encode (.cpyw a0 a1 a2 a3 a4 a5) = Enc.fmtM 0x98 a0 (Enc.src a3) (Enc.src a4.x) 511 a5 a1 2 a2.code (b2n a4.w64) from rfl]
  obtain ⟨f1, f2, f3, f4, f5, f6, f7, f8, f9, f10, f11, f12, f13⟩ := Enc.fmtM_fields 0x98 a0 (Enc.src a3) (Enc.src a4.x) 511 a5 a1 2 a2.code (b2n a4.w64) (by decide) qc (by omega) (by omega) (by omega) (by omega) (by omega) (by omega) (by omega) (by omega)
  generalize Enc.fmtM 0x98 a0 (Enc.src a3) (Enc.src a4.x) 511 a5 a1 2 a2.code (b2n a4.w64) = w at *
  refine ⟨f1, Enc.decode_of f1 (by decide) f2 ?_ hwf⟩
  have g0 : fld (b2n a4.w64) 1 7 = 0 := by cases a4.w64 <;> rfl
  have g1 : bit (b2n a4.w64) 0 = a4.w64 := by cases a4.w64 <;> rfl
  unfold Dec.parse
  rw [f1]
  simp [Dec.copy, Dec.need, f3, f4, f5, f6, f7, f8, f9, f10, f11, f12, f13, Enc.bit00, Enc.bit10, Dec.index, Dec.gindex, Dec.scrRest, Dec.vreg, Enc.kreg_add, Enc.rnd0, Enc.ty1, Enc.ty4, Enc.ty5, q0.2, q1.2, q2.2, q3.2, h1, h2, g0, g1]

theorem rfill (a0 : Com) (a1 : Src) (hw : Instr.wf (.rfill a0 a1) = true) : fld (encode (.rfill a0 a1)) 56 8 = 0x92 ∧ decode (encode (.rfill a0 a1)) = .ok (.rfill a0 a1) := by
  have hwf := hw
  replace hw : (Wf.com false a0 && Wf.read false a1) = true := hw
  simp only [Bool.and_eq_true] at hw
  obtain ⟨h0, h1⟩ := hw
  have qc := Enc.com_ok h0
  have q0 := Enc.src_ok h1
  rw [show encode (.rfill a0 a1) = Enc.fmtS 0x92 a0 511 (Enc.src a1) 511 0 from rfl]
  obtain ⟨f1, f2, f3, f4, f5, f6, f7, f8, f9⟩ := Enc.fmtS_fields 0x92 a0 511 (Enc.src a1) 511 0 (by decide) qc (by omega) (by omega) (by omega) (by omega)
  generalize Enc.fmtS 0x92 a0 511 (Enc.src a1) 511 0 = w at *
  refine ⟨f1, Enc.decode_of f1 (by decide) f2 ?_ hwf⟩
  unfold Dec.parse
  rw [f1]
  simp [Dec.copy, Dec.need, f3, f4, f5, f6, f7, f8, f9, Enc.bit00, Enc.bit10, Dec.index, Dec.gindex, Dec.scrRest, Dec.vreg, Enc.kreg_add, Enc.rnd0, Enc.ty1, Enc.ty4, Enc.ty5, q0.2]

theorem rawait (a0 : Com) (a1 : Stage) (a2 : Option Nat) (a3 : Src) (hw : Instr.wf (.rawait a0 a1 a2 a3) = true) : fld (encode (.rawait a0 a1 a2 a3)) 56 8 = 0x93 ∧ decode (encode (.rawait a0 a1 a2 a3)) = .ok (.rawait a0 a1 a2 a3) := by
  have hwf := hw
  replace hw : (Wf.com false a0 && Wf.opt Wf.pd a2 && Wf.read false a3) = true := hw
  simp only [Bool.and_eq_true] at hw
  obtain ⟨⟨h0, h1⟩, h2⟩ := hw
  have qc := Enc.com_ok h0
  have q0 := Enc.pdOpt_ok h1
  have q1 := Enc.src_ok h2
  have q2 := Enc.stage_ok a1
  rw [show encode (.rawait a0 a1 a2 a3) = Enc.fmtS 0x93 a0 (Enc.pdOpt a2) (Enc.src a3) 511 (Enc.stage a1) from rfl]
  obtain ⟨f1, f2, f3, f4, f5, f6, f7, f8, f9⟩ := Enc.fmtS_fields 0x93 a0 (Enc.pdOpt a2) (Enc.src a3) 511 (Enc.stage a1) (by decide) qc (by omega) (by omega) (by omega) (by omega)
  generalize Enc.fmtS 0x93 a0 (Enc.pdOpt a2) (Enc.src a3) 511 (Enc.stage a1) = w at *
  refine ⟨f1, Enc.decode_of f1 (by decide) f2 ?_ hwf⟩
  have g0 : fld (Enc.stage a1) 2 19 = 0 := by cases a1 <;> rfl
  have g1 : fld (Enc.stage a1) 0 2 = Enc.stage a1 := by cases a1 <;> rfl
  unfold Dec.parse
  rw [f1]
  simp [Dec.copy, Dec.need, f3, f4, f5, f6, f7, f8, f9, Enc.bit00, Enc.bit10, Dec.index, Dec.gindex, Dec.scrRest, Dec.vreg, Enc.kreg_add, Enc.rnd0, Enc.ty1, Enc.ty4, Enc.ty5, q0.2, q1.2, q2.2, g0, g1]

theorem rrelease (a0 : Com) (a1 : Src) (hw : Instr.wf (.rrelease a0 a1) = true) : fld (encode (.rrelease a0 a1)) 56 8 = 0x94 ∧ decode (encode (.rrelease a0 a1)) = .ok (.rrelease a0 a1) := by
  have hwf := hw
  replace hw : (Wf.com false a0 && Wf.read false a1) = true := hw
  simp only [Bool.and_eq_true] at hw
  obtain ⟨h0, h1⟩ := hw
  have qc := Enc.com_ok h0
  have q0 := Enc.src_ok h1
  rw [show encode (.rrelease a0 a1) = Enc.fmtS 0x94 a0 511 (Enc.src a1) 511 0 from rfl]
  obtain ⟨f1, f2, f3, f4, f5, f6, f7, f8, f9⟩ := Enc.fmtS_fields 0x94 a0 511 (Enc.src a1) 511 0 (by decide) qc (by omega) (by omega) (by omega) (by omega)
  generalize Enc.fmtS 0x94 a0 511 (Enc.src a1) 511 0 = w at *
  refine ⟨f1, Enc.decode_of f1 (by decide) f2 ?_ hwf⟩
  unfold Dec.parse
  rw [f1]
  simp [Dec.copy, Dec.need, f3, f4, f5, f6, f7, f8, f9, Enc.bit00, Enc.bit10, Dec.index, Dec.gindex, Dec.scrRest, Dec.vreg, Enc.kreg_add, Enc.rnd0, Enc.ty1, Enc.ty4, Enc.ty5, q0.2]

theorem rpush (a0 : Com) (a1 : Src) (hw : Instr.wf (.rpush a0 a1) = true) : fld (encode (.rpush a0 a1)) 56 8 = 0x95 ∧ decode (encode (.rpush a0 a1)) = .ok (.rpush a0 a1) := by
  have hwf := hw
  replace hw : (Wf.com false a0 && Wf.read false a1) = true := hw
  simp only [Bool.and_eq_true] at hw
  obtain ⟨h0, h1⟩ := hw
  have qc := Enc.com_ok h0
  have q0 := Enc.src_ok h1
  rw [show encode (.rpush a0 a1) = Enc.fmtS 0x95 a0 511 (Enc.src a1) 511 0 from rfl]
  obtain ⟨f1, f2, f3, f4, f5, f6, f7, f8, f9⟩ := Enc.fmtS_fields 0x95 a0 511 (Enc.src a1) 511 0 (by decide) qc (by omega) (by omega) (by omega) (by omega)
  generalize Enc.fmtS 0x95 a0 511 (Enc.src a1) 511 0 = w at *
  refine ⟨f1, Enc.decode_of f1 (by decide) f2 ?_ hwf⟩
  unfold Dec.parse
  rw [f1]
  simp [Dec.copy, Dec.need, f3, f4, f5, f6, f7, f8, f9, Enc.bit00, Enc.bit10, Dec.index, Dec.gindex, Dec.scrRest, Dec.vreg, Enc.kreg_add, Enc.rnd0, Enc.ty1, Enc.ty4, Enc.ty5, q0.2]

theorem rinit (a0 : Com) (a1 : Src) (a2 : Nat) (hw : Instr.wf (.rinit a0 a1 a2) = true) : fld (encode (.rinit a0 a1 a2)) 56 8 = 0x96 ∧ decode (encode (.rinit a0 a1 a2)) = .ok (.rinit a0 a1 a2) := by
  have hwf := hw
  replace hw : (Wf.com false a0 && Wf.read false a1 && a2 % 8 == 0 && a2 < 64) = true := hw
  simp only [Bool.and_eq_true] at hw
  obtain ⟨⟨⟨h0, h1⟩, h2⟩, h3⟩ := hw
  have qc := Enc.com_ok h0
  have q0 := Enc.src_ok h1
  try simp at h2
  try simp at h3
  rw [show encode (.rinit a0 a1 a2) = Enc.fmtS 0x96 a0 511 (Enc.src a1) (320 + a2) 0 from rfl]
  obtain ⟨f1, f2, f3, f4, f5, f6, f7, f8, f9⟩ := Enc.fmtS_fields 0x96 a0 511 (Enc.src a1) (320 + a2) 0 (by decide) qc (by omega) (by omega) (by omega) (by omega)
  generalize Enc.fmtS 0x96 a0 511 (Enc.src a1) (320 + a2) 0 = w at *
  refine ⟨f1, Enc.decode_of f1 (by decide) f2 ?_ hwf⟩
  unfold Dec.parse
  rw [f1]
  simp [Dec.copy, Dec.need, f3, f4, f5, f6, f7, f8, f9, Enc.bit00, Enc.bit10, Dec.index, Dec.gindex, Dec.scrRest, Dec.vreg, Enc.kreg_add, Enc.rnd0, Enc.ty1, Enc.ty4, Enc.ty5, q0.2, h2, h3]

theorem split (a0 : Com) (a1 : Bool) (a2 : Src) (hw : Instr.wf (.split a0 a1 a2) = true) : fld (encode (.split a0 a1 a2)) 56 8 = 0x97 ∧ decode (encode (.split a0 a1 a2)) = .ok (.split a0 a1 a2) := by
  have hwf := hw
  replace hw : (Wf.com false a0 && Wf.read false a2) = true := hw
  simp only [Bool.and_eq_true] at hw
  obtain ⟨h0, h1⟩ := hw
  have qc := Enc.com_ok h0
  have q0 := Enc.src_ok h1
  have q1 := Enc.flag1_ok a1
  rw [show encode (.split a0 a1 a2) = Enc.fmtS 0x97 a0 511 (Enc.src a2) 511 (b2n a1) from rfl]
  obtain ⟨f1, f2, f3, f4, f5, f6, f7, f8, f9⟩ := Enc.fmtS_fields 0x97 a0 511 (Enc.src a2) 511 (b2n a1) (by decide) qc (by omega) (by omega) (by omega) (by omega)
  generalize Enc.fmtS 0x97 a0 511 (Enc.src a2) 511 (b2n a1) = w at *
  refine ⟨f1, Enc.decode_of f1 (by decide) f2 ?_ hwf⟩
  have g0 : b2n a1 < 2 := by cases a1 <;> decide
  have g1 : bit (b2n a1) 0 = a1 := by cases a1 <;> rfl
  unfold Dec.parse
  rw [f1]
  simp [Dec.copy, Dec.need, f3, f4, f5, f6, f7, f8, f9, Enc.bit00, Enc.bit10, Dec.index, Dec.gindex, Dec.scrRest, Dec.vreg, Enc.kreg_add, Enc.rnd0, Enc.ty1, Enc.ty4, Enc.ty5, q0.2, q1.2, g0, g1]

theorem mmarkSelf (a0 : Com) (a1 : Nat) (hw : Instr.wf (.mmarkSelf a0 a1) = true) : fld (encode (.mmarkSelf a0 a1)) 56 8 = 0xA0 ∧ decode (encode (.mmarkSelf a0 a1)) = .ok (.mmarkSelf a0 a1) := by
  have hwf := hw
  replace hw : (Wf.com false a0 && a1 < 8) = true := hw
  simp only [Bool.and_eq_true] at hw
  obtain ⟨h0, h1⟩ := hw
  have qc := Enc.com_ok h0
  try simp at h1
  rw [show encode (.mmarkSelf a0 a1) = Enc.fmtX 0xA0 a0 a1 false 0 0 511 0 0 from rfl]
  obtain ⟨f1, f2, f3, f4, f5, f6, f7, f8, f9, f10, f11⟩ := Enc.fmtX_fields 0xA0 a0 a1 false 0 0 511 0 0 (by decide) qc (by omega) (by omega) (by omega) (by omega) (by omega) (by omega)
  generalize Enc.fmtX 0xA0 a0 a1 false 0 0 511 0 0 = w at *
  refine ⟨f1, Enc.decode_of f1 (by decide) f2 ?_ hwf⟩
  unfold Dec.parse
  rw [f1]
  simp [Dec.matrix, Dec.need, f3, f4, f5, f6, f7, f8, f9, f10, f11, Enc.bit00, Enc.bit10, Dec.index, Dec.gindex, Dec.scrRest, Dec.vreg, Enc.kreg_add, Enc.rnd0, Enc.ty1, Enc.ty4, Enc.ty5, h1]

theorem mmarkMask (a0 : Com) (a1 : Nat) (a2 : Nat) (a3 : Src) (hw : Instr.wf (.mmarkMask a0 a1 a2 a3) = true) : fld (encode (.mmarkMask a0 a1 a2 a3)) 56 8 = 0xA0 ∧ decode (encode (.mmarkMask a0 a1 a2 a3)) = .ok (.mmarkMask a0 a1 a2 a3) := by
  have hwf := hw
  replace hw : (Wf.com false a0 && a1 < 8 && a2 < 12 && Wf.read false a3) = true := hw
  simp only [Bool.and_eq_true] at hw
  obtain ⟨⟨⟨h0, h1⟩, h2⟩, h3⟩ := hw
  have qc := Enc.com_ok h0
  have q0 := Enc.src_ok h3
  try simp at h1
  try simp at h2
  rw [show encode (.mmarkMask a0 a1 a2 a3) = Enc.fmtX 0xA0 a0 a1 false 0 a2 (Enc.src a3) 0 1 from rfl]
  obtain ⟨f1, f2, f3, f4, f5, f6, f7, f8, f9, f10, f11⟩ := Enc.fmtX_fields 0xA0 a0 a1 false 0 a2 (Enc.src a3) 0 1 (by decide) qc (by omega) (by omega) (by omega) (by omega) (by omega) (by omega)
  generalize Enc.fmtX 0xA0 a0 a1 false 0 a2 (Enc.src a3) 0 1 = w at *
  refine ⟨f1, Enc.decode_of f1 (by decide) f2 ?_ hwf⟩
  unfold Dec.parse
  rw [f1]
  simp [Dec.matrix, Dec.need, f3, f4, f5, f6, f7, f8, f9, f10, f11, Enc.bit00, Enc.bit10, Dec.index, Dec.gindex, Dec.scrRest, Dec.vreg, Enc.kreg_add, Enc.rnd0, Enc.ty1, Enc.ty4, Enc.ty5, q0.2, h1, h2]

theorem mmarkClear (a0 : Com) (a1 : Nat) (hw : Instr.wf (.mmarkClear a0 a1) = true) : fld (encode (.mmarkClear a0 a1)) 56 8 = 0xA0 ∧ decode (encode (.mmarkClear a0 a1)) = .ok (.mmarkClear a0 a1) := by
  have hwf := hw
  replace hw : (Wf.com false a0 && a1 < 8) = true := hw
  simp only [Bool.and_eq_true] at hw
  obtain ⟨h0, h1⟩ := hw
  have qc := Enc.com_ok h0
  try simp at h1
  rw [show encode (.mmarkClear a0 a1) = Enc.fmtX 0xA0 a0 a1 false 0 0 511 0 2 from rfl]
  obtain ⟨f1, f2, f3, f4, f5, f6, f7, f8, f9, f10, f11⟩ := Enc.fmtX_fields 0xA0 a0 a1 false 0 0 511 0 2 (by decide) qc (by omega) (by omega) (by omega) (by omega) (by omega) (by omega)
  generalize Enc.fmtX 0xA0 a0 a1 false 0 0 511 0 2 = w at *
  refine ⟨f1, Enc.decode_of f1 (by decide) f2 ?_ hwf⟩
  unfold Dec.parse
  rw [f1]
  simp [Dec.matrix, Dec.need, f3, f4, f5, f6, f7, f8, f9, f10, f11, Enc.bit00, Enc.bit10, Dec.index, Dec.gindex, Dec.scrRest, Dec.vreg, Enc.kreg_add, Enc.rnd0, Enc.ty1, Enc.ty4, Enc.ty5, h1]

theorem mldw (a0 : Com) (a1 : Nat) (a2 : Bool) (a3 : MFmt) (a4 : Bool) (a5 : Src) (hw : Instr.wf (.mldw a0 a1 a2 a3 a4 a5) = true) : fld (encode (.mldw a0 a1 a2 a3 a4 a5)) 56 8 = 0xA1 ∧ decode (encode (.mldw a0 a1 a2 a3 a4 a5)) = .ok (.mldw a0 a1 a2 a3 a4 a5) := by
  have hwf := hw
  replace hw : (Wf.com false a0 && a1 < 8 && (!a4 || a3 = .c4) && Wf.read false a5) = true := hw
  simp only [Bool.and_eq_true] at hw
  obtain ⟨⟨⟨h0, h1⟩, h2⟩, h3⟩ := hw
  have qc := Enc.com_ok h0
  have q0 := Enc.src_ok h3
  try simp at h1
  try simp at h2
  have q1 := Enc.flag1_ok a2
  have q2 := Enc.mfmt_ok a3
  have q3 := Enc.flag1_ok a4
  rw [show encode (.mldw a0 a1 a2 a3 a4 a5) = Enc.fmtX 0xA1 a0 a1 a2 (Enc.mfmt a3) 0 (Enc.src a5) 0 (b2n a4) from rfl]
  obtain ⟨f1, f2, f3, f4, f5, f6, f7, f8, f9, f10, f11⟩ := Enc.fmtX_fields 0xA1 a0 a1 a2 (Enc.mfmt a3) 0 (Enc.src a5) 0 (b2n a4) (by decide) qc (by omega) (by omega) (by omega) (by omega) (by omega) (by omega)
  generalize Enc.fmtX 0xA1 a0 a1 a2 (Enc.mfmt a3) 0 (Enc.src a5) 0 (b2n a4) = w at *
  refine ⟨f1, Enc.decode_of f1 (by decide) f2 ?_ hwf⟩
  unfold Dec.parse
  rw [f1]
  simp [Dec.matrix, Dec.need, f3, f4, f5, f6, f7, f8, f9, f10, f11, Enc.bit00, Enc.bit10, Dec.index, Dec.gindex, Dec.scrRest, Dec.vreg, Enc.kreg_add, Enc.rnd0, Enc.ty1, Enc.ty4, Enc.ty5, q0.2, q1.2, q2.2, q3.2, h1, h2]

theorem mswap (a0 : Com) (a1 : Nat) (a2 : Bool) (hw : Instr.wf (.mswap a0 a1 a2) = true) : fld (encode (.mswap a0 a1 a2)) 56 8 = 0xA2 ∧ decode (encode (.mswap a0 a1 a2)) = .ok (.mswap a0 a1 a2) := by
  have hwf := hw
  replace hw : (Wf.com false a0 && a1 < 8) = true := hw
  simp only [Bool.and_eq_true] at hw
  obtain ⟨h0, h1⟩ := hw
  have qc := Enc.com_ok h0
  try simp at h1
  have q0 := Enc.flag1_ok a2
  rw [show encode (.mswap a0 a1 a2) = Enc.fmtX 0xA2 a0 a1 a2 0 0 511 0 0 from rfl]
  obtain ⟨f1, f2, f3, f4, f5, f6, f7, f8, f9, f10, f11⟩ := Enc.fmtX_fields 0xA2 a0 a1 a2 0 0 511 0 0 (by decide) qc (by omega) (by omega) (by omega) (by omega) (by omega) (by omega)
  generalize Enc.fmtX 0xA2 a0 a1 a2 0 0 511 0 0 = w at *
  refine ⟨f1, Enc.decode_of f1 (by decide) f2 ?_ hwf⟩
  unfold Dec.parse
  rw [f1]
  simp [Dec.matrix, Dec.need, f3, f4, f5, f6, f7, f8, f9, f10, f11, Enc.bit00, Enc.bit10, Dec.index, Dec.gindex, Dec.scrRest, Dec.vreg, Enc.kreg_add, Enc.rnd0, Enc.ty1, Enc.ty4, Enc.ty5, q0.2, h1]

theorem mstr (a0 : Com) (a1 : Nat) (a2 : Bool) (a3 : MFmt) (a4 : Bool) (a5 : Nat) (a6 : Src) (a7 : Nat) (hw : Instr.wf (.mstr a0 a1 a2 a3 a4 a5 a6 a7) = true) : fld (encode (.mstr a0 a1 a2 a3 a4 a5 a6 a7)) 56 8 = 0xA3 ∧ decode (encode (.mstr a0 a1 a2 a3 a4 a5 a6 a7)) = .ok (.mstr a0 a1 a2 a3 a4 a5 a6 a7) := by
  have hwf := hw
  replace hw : (Wf.com false a0 && a1 < 8 && a7 < 128 && a5 + a7 < 256 && Wf.read false a6) = true := hw
  simp only [Bool.and_eq_true] at hw
  obtain ⟨⟨⟨⟨h0, h1⟩, h2⟩, h3⟩, h4⟩ := hw
  have qc := Enc.com_ok h0
  have q0 := Enc.src_ok h4
  try simp at h1
  try simp at h2
  try simp at h3
  have q1 := Enc.flag1_ok a2
  have q2 := Enc.mfmt_ok a3
  have q3 := Enc.flag1_ok a4
  rw [show encode (.mstr a0 a1 a2 a3 a4 a5 a6 a7) = Enc.fmtX 0xA3 a0 a1 a2 (Enc.mfmt a3) a5 (Enc.src a6) a7 (b2n a4) from rfl]
  obtain ⟨f1, f2, f3, f4, f5, f6, f7, f8, f9, f10, f11⟩ := Enc.fmtX_fields 0xA3 a0 a1 a2 (Enc.mfmt a3) a5 (Enc.src a6) a7 (b2n a4) (by decide) qc (by omega) (by omega) (by omega) (by omega) (by omega) (by omega)
  generalize Enc.fmtX 0xA3 a0 a1 a2 (Enc.mfmt a3) a5 (Enc.src a6) a7 (b2n a4) = w at *
  refine ⟨f1, Enc.decode_of f1 (by decide) f2 ?_ hwf⟩
  unfold Dec.parse
  rw [f1]
  simp [Dec.matrix, Dec.need, f3, f4, f5, f6, f7, f8, f9, f10, f11, Enc.bit00, Enc.bit10, Dec.index, Dec.gindex, Dec.scrRest, Dec.vreg, Enc.kreg_add, Enc.rnd0, Enc.ty1, Enc.ty4, Enc.ty5, q0.2, q1.2, q2.2, q3.2, h1, h2, h3]

theorem mdist (a0 : Com) (a1 : Nat) (a2 : Bool) (a3 : MFmt) (a4 : Bool) (a5 : Nat) (a6 : Src) (a7 : Nat) (hw : Instr.wf (.mdist a0 a1 a2 a3 a4 a5 a6 a7) = true) : fld (encode (.mdist a0 a1 a2 a3 a4 a5 a6 a7)) 56 8 = 0xA4 ∧ decode (encode (.mdist a0 a1 a2 a3 a4 a5 a6 a7)) = .ok (.mdist a0 a1 a2 a3 a4 a5 a6 a7) := by
  have hwf := hw
  replace hw : (Wf.com false a0 && a1 < 8 && a7 < 128 && a5 + a7 < 256 && Wf.read false a6) = true := hw
  simp only [Bool.and_eq_true] at hw
  obtain ⟨⟨⟨⟨h0, h1⟩, h2⟩, h3⟩, h4⟩ := hw
  have qc := Enc.com_ok h0
  have q0 := Enc.src_ok h4
  try simp at h1
  try simp at h2
  try simp at h3
  have q1 := Enc.flag1_ok a2
  have q2 := Enc.mfmt_ok a3
  have q3 := Enc.flag1_ok a4
  rw [show encode (.mdist a0 a1 a2 a3 a4 a5 a6 a7) = Enc.fmtX 0xA4 a0 a1 a2 (Enc.mfmt a3) a5 (Enc.src a6) a7 (b2n a4) from rfl]
  obtain ⟨f1, f2, f3, f4, f5, f6, f7, f8, f9, f10, f11⟩ := Enc.fmtX_fields 0xA4 a0 a1 a2 (Enc.mfmt a3) a5 (Enc.src a6) a7 (b2n a4) (by decide) qc (by omega) (by omega) (by omega) (by omega) (by omega) (by omega)
  generalize Enc.fmtX 0xA4 a0 a1 a2 (Enc.mfmt a3) a5 (Enc.src a6) a7 (b2n a4) = w at *
  refine ⟨f1, Enc.decode_of f1 (by decide) f2 ?_ hwf⟩
  unfold Dec.parse
  rw [f1]
  simp [Dec.matrix, Dec.need, f3, f4, f5, f6, f7, f8, f9, f10, f11, Enc.bit00, Enc.bit10, Dec.index, Dec.gindex, Dec.scrRest, Dec.vreg, Enc.kreg_add, Enc.rnd0, Enc.ty1, Enc.ty4, Enc.ty5, q0.2, q1.2, q2.2, q3.2, h1, h2, h3]

theorem mtopk (a0 : Com) (a1 : Nat) (a2 : Bool) (a3 : Bool) (a4 : Nat) (a5 : Nat) (a6 : Nat) (hw : Instr.wf (.mtopk a0 a1 a2 a3 a4 a5 a6) = true) : fld (encode (.mtopk a0 a1 a2 a3 a4 a5 a6)) 56 8 = 0xA5 ∧ decode (encode (.mtopk a0 a1 a2 a3 a4 a5 a6)) = .ok (.mtopk a0 a1 a2 a3 a4 a5 a6) := by
  have hwf := hw
  replace hw : (Wf.com true a0 && a1 < 8 && a6 < 32 && a4 < 256 && a5 < 319) = true := hw
  simp only [Bool.and_eq_true] at hw
  obtain ⟨⟨⟨⟨h0, h1⟩, h2⟩, h3⟩, h4⟩ := hw
  have qc := Enc.com_ok h0
  try simp at h1
  try simp at h2
  try simp at h3
  try simp at h4
  have q0 := Enc.flag1_ok a2
  have q1 := Enc.flag1_ok a3
  rw [show encode (.mtopk a0 a1 a2 a3 a4 a5 a6) = Enc.fmtX 0xA5 a0 a1 a2 0 a4 a5 a6 (b2n a3) from rfl]
  obtain ⟨f1, f2, f3, f4, f5, f6, f7, f8, f9, f10, f11⟩ := Enc.fmtX_fields 0xA5 a0 a1 a2 0 a4 a5 a6 (b2n a3) (by decide) qc (by omega) (by omega) (by omega) (by omega) (by omega) (by omega)
  generalize Enc.fmtX 0xA5 a0 a1 a2 0 a4 a5 a6 (b2n a3) = w at *
  refine ⟨f1, Enc.decode_of f1 (by decide) f2 ?_ hwf⟩
  have g0 : a5 < 320 := by omega
  unfold Dec.parse
  rw [f1]
  simp [Dec.matrix, Dec.need, f3, f4, f5, f6, f7, f8, f9, f10, f11, Enc.bit00, Enc.bit10, Dec.index, Dec.gindex, Dec.scrRest, Dec.vreg, Enc.kreg_add, Enc.rnd0, Enc.ty1, Enc.ty4, Enc.ty5, q0.2, q1.2, h1, h2, h3, h4, g0]

theorem mrd (a0 : Com) (a1 : Nat) (a2 : Bool) (a3 : Bool) (a4 : Nat) (a5 : Nat) (hw : Instr.wf (.mrd a0 a1 a2 a3 a4 a5) = true) : fld (encode (.mrd a0 a1 a2 a3 a4 a5)) 56 8 = 0xA6 ∧ decode (encode (.mrd a0 a1 a2 a3 a4 a5)) = .ok (.mrd a0 a1 a2 a3 a4 a5) := by
  have hwf := hw
  replace hw : (Wf.com true a0 && a1 < 8 && a4 < 256 && a5 < 319) = true := hw
  simp only [Bool.and_eq_true] at hw
  obtain ⟨⟨⟨h0, h1⟩, h2⟩, h3⟩ := hw
  have qc := Enc.com_ok h0
  try simp at h1
  try simp at h2
  try simp at h3
  have q0 := Enc.flag1_ok a2
  have q1 := Enc.flag1_ok a3
  rw [show encode (.mrd a0 a1 a2 a3 a4 a5) = Enc.fmtX 0xA6 a0 a1 a2 0 a4 a5 0 (4 * b2n a3) from rfl]
  obtain ⟨f1, f2, f3, f4, f5, f6, f7, f8, f9, f10, f11⟩ := Enc.fmtX_fields 0xA6 a0 a1 a2 0 a4 a5 0 (4 * b2n a3) (by decide) qc (by omega) (by omega) (by omega) (by omega) (by omega) (by omega)
  generalize Enc.fmtX 0xA6 a0 a1 a2 0 a4 a5 0 (4 * b2n a3) = w at *
  refine ⟨f1, Enc.decode_of f1 (by decide) f2 ?_ hwf⟩
  have g0 : 4 * b2n a3 < 8 := by cases a3 <;> decide
  have g1 : bit (4 * b2n a3) 0 = false := by cases a3 <;> rfl
  have g2 : bit (4 * b2n a3) 1 = false := by cases a3 <;> rfl
  have g3 : bit (4 * b2n a3) 2 = a3 := by cases a3 <;> rfl
  have g4 : a5 < 320 := by omega
  unfold Dec.parse
  rw [f1]
  simp [Dec.matrix, Dec.need, f3, f4, f5, f6, f7, f8, f9, f10, f11, Enc.bit00, Enc.bit10, Dec.index, Dec.gindex, Dec.scrRest, Dec.vreg, Enc.kreg_add, Enc.rnd0, Enc.ty1, Enc.ty4, Enc.ty5, q0.2, q1.2, h1, h2, h3, g0, g1, g2, g3, g4]

theorem mrdScr (a0 : Com) (a1 : Nat) (a2 : Bool) (a3 : Bool) (a4 : Bool) (a5 : Nat) (a6 : Src) (a7 : Nat) (hw : Instr.wf (.mrdScr a0 a1 a2 a3 a4 a5 a6 a7) = true) : fld (encode (.mrdScr a0 a1 a2 a3 a4 a5 a6 a7)) 56 8 = 0xA6 ∧ decode (encode (.mrdScr a0 a1 a2 a3 a4 a5 a6 a7)) = .ok (.mrdScr a0 a1 a2 a3 a4 a5 a6 a7) := by
  have hwf := hw
  replace hw : (Wf.com true a0 && a1 < 8 && a7 < 128 && a5 + a7 < 256 && Wf.read false a6) = true := hw
  simp only [Bool.and_eq_true] at hw
  obtain ⟨⟨⟨⟨h0, h1⟩, h2⟩, h3⟩, h4⟩ := hw
  have qc := Enc.com_ok h0
  have q0 := Enc.src_ok h4
  try simp at h1
  try simp at h2
  try simp at h3
  have q1 := Enc.flag1_ok a2
  have q2 := Enc.flag1_ok a3
  have q3 := Enc.flag1_ok a4
  rw [show encode (.mrdScr a0 a1 a2 a3 a4 a5 a6 a7) = Enc.fmtX 0xA6 a0 a1 a2 0 a5 (Enc.src a6) a7 (1 + 2 * b2n a3 + 4 * b2n a4) from rfl]
  obtain ⟨f1, f2, f3, f4, f5, f6, f7, f8, f9, f10, f11⟩ := Enc.fmtX_fields 0xA6 a0 a1 a2 0 a5 (Enc.src a6) a7 (1 + 2 * b2n a3 + 4 * b2n a4) (by decide) qc (by omega) (by omega) (by omega) (by omega) (by omega) (by omega)
  generalize Enc.fmtX 0xA6 a0 a1 a2 0 a5 (Enc.src a6) a7 (1 + 2 * b2n a3 + 4 * b2n a4) = w at *
  refine ⟨f1, Enc.decode_of f1 (by decide) f2 ?_ hwf⟩
  have g0 : 1 + 2 * b2n a3 + 4 * b2n a4 < 8 := by cases a3 <;> cases a4 <;> decide
  have g1 : bit (1 + 2 * b2n a3 + 4 * b2n a4) 0 = true := by cases a3 <;> cases a4 <;> rfl
  have g2 : bit (1 + 2 * b2n a3 + 4 * b2n a4) 1 = a3 := by cases a3 <;> cases a4 <;> rfl
  have g3 : bit (1 + 2 * b2n a3 + 4 * b2n a4) 2 = a4 := by cases a3 <;> cases a4 <;> rfl
  unfold Dec.parse
  rw [f1]
  simp [Dec.matrix, Dec.need, f3, f4, f5, f6, f7, f8, f9, f10, f11, Enc.bit00, Enc.bit10, Dec.index, Dec.gindex, Dec.scrRest, Dec.vreg, Enc.kreg_add, Enc.rnd0, Enc.ty1, Enc.ty4, Enc.ty5, q0.2, q1.2, q2.2, q3.2, h1, h2, h3, g0, g1, g2, g3]

theorem mclr (a0 : Com) (a1 : Nat) (a2 : Bool) (a3 : Bool) (a4 : Nat) (a5 : Nat) (hw : Instr.wf (.mclr a0 a1 a2 a3 a4 a5) = true) : fld (encode (.mclr a0 a1 a2 a3 a4 a5)) 56 8 = 0xA7 ∧ decode (encode (.mclr a0 a1 a2 a3 a4 a5)) = .ok (.mclr a0 a1 a2 a3 a4 a5) := by
  have hwf := hw
  replace hw : (Wf.com false a0 && a1 < 8 && a5 < 128 && a4 + a5 < 256 && (!a3 || (a4 == 0 && a5 == 0))) = true := hw
  simp only [Bool.and_eq_true] at hw
  obtain ⟨⟨⟨⟨h0, h1⟩, h2⟩, h3⟩, h4⟩ := hw
  have qc := Enc.com_ok h0
  try simp at h1
  try simp at h2
  try simp at h3
  try simp at h4
  have q0 := Enc.flag1_ok a2
  have q1 := Enc.flag1_ok a3
  rw [show encode (.mclr a0 a1 a2 a3 a4 a5) = Enc.fmtX 0xA7 a0 a1 a2 0 a4 511 a5 (b2n a3) from rfl]
  obtain ⟨f1, f2, f3, f4, f5, f6, f7, f8, f9, f10, f11⟩ := Enc.fmtX_fields 0xA7 a0 a1 a2 0 a4 511 a5 (b2n a3) (by decide) qc (by omega) (by omega) (by omega) (by omega) (by omega) (by omega)
  generalize Enc.fmtX 0xA7 a0 a1 a2 0 a4 511 a5 (b2n a3) = w at *
  refine ⟨f1, Enc.decode_of f1 (by decide) f2 ?_ hwf⟩
  unfold Dec.parse
  rw [f1]
  simp [Dec.matrix, Dec.need, f3, f4, f5, f6, f7, f8, f9, f10, f11, Enc.bit00, Enc.bit10, Dec.index, Dec.gindex, Dec.scrRest, Dec.vreg, Enc.kreg_add, Enc.rnd0, Enc.ty1, Enc.ty4, Enc.ty5, q0.2, q1.2, h1, h2, h3, h4]

theorem claim (a0 : Com) (a1 : Nat) (a2 : Nat) (hw : Instr.wf (.claim a0 a1 a2) = true) : fld (encode (.claim a0 a1 a2)) 56 8 = 0xB0 ∧ decode (encode (.claim a0 a1 a2)) = .ok (.claim a0 a1 a2) := by
  have hwf := hw
  replace hw : (Wf.com false a0 && a2 < 8 && a1 + a2 < 320) = true := hw
  simp only [Bool.and_eq_true] at hw
  obtain ⟨⟨h0, h1⟩, h2⟩ := hw
  have qc := Enc.com_ok h0
  try simp at h1
  try simp at h2
  rw [show encode (.claim a0 a1 a2) = Enc.fmtS 0xB0 a0 511 a1 511 a2 from rfl]
  obtain ⟨f1, f2, f3, f4, f5, f6, f7, f8, f9⟩ := Enc.fmtS_fields 0xB0 a0 511 a1 511 a2 (by decide) qc (by omega) (by omega) (by omega) (by omega)
  generalize Enc.fmtS 0xB0 a0 511 a1 511 a2 = w at *
  refine ⟨f1, Enc.decode_of f1 (by decide) f2 ?_ hwf⟩
  have g0 : fld a2 3 18 = 0 := by unfold fld; omega
  have g1 : a1 < 320 := by omega
  have g2 : fld a2 0 3 = a2 := by unfold fld; omega
  unfold Dec.parse
  rw [f1]
  simp [Dec.monitor, Dec.need, f3, f4, f5, f6, f7, f8, f9, Enc.bit00, Enc.bit10, Dec.index, Dec.gindex, Dec.scrRest, Dec.vreg, Enc.kreg_add, Enc.rnd0, Enc.ty1, Enc.ty4, Enc.ty5, h1, h2, g0, g1, g2]

theorem mwait (a0 : Com) (a1 : Option Nat) (a2 : Src) (a3 : Nat) (hw : Instr.wf (.mwait a0 a1 a2 a3) = true) : fld (encode (.mwait a0 a1 a2 a3)) 56 8 = 0xB1 ∧ decode (encode (.mwait a0 a1 a2 a3)) = .ok (.mwait a0 a1 a2 a3) := by
  have hwf := hw
  replace hw : (Wf.com false a0 && Wf.opt Wf.pd a1 && Wf.read false a2 && a3 ≤ 20) = true := hw
  simp only [Bool.and_eq_true] at hw
  obtain ⟨⟨⟨h0, h1⟩, h2⟩, h3⟩ := hw
  have qc := Enc.com_ok h0
  have q0 := Enc.pdOpt_ok h1
  have q1 := Enc.src_ok h2
  try simp at h3
  rw [show encode (.mwait a0 a1 a2 a3) = Enc.fmtS 0xB1 a0 (Enc.pdOpt a1) (Enc.src a2) 511 a3 from rfl]
  obtain ⟨f1, f2, f3, f4, f5, f6, f7, f8, f9⟩ := Enc.fmtS_fields 0xB1 a0 (Enc.pdOpt a1) (Enc.src a2) 511 a3 (by decide) qc (by omega) (by omega) (by omega) (by omega)
  generalize Enc.fmtS 0xB1 a0 (Enc.pdOpt a1) (Enc.src a2) 511 a3 = w at *
  refine ⟨f1, Enc.decode_of f1 (by decide) f2 ?_ hwf⟩
  have g0 : fld a3 5 16 = 0 := by unfold fld; omega
  have g1 : fld a3 0 5 = a3 := by unfold fld; omega
  unfold Dec.parse
  rw [f1]
  simp [Dec.monitor, Dec.need, f3, f4, f5, f6, f7, f8, f9, Enc.bit00, Enc.bit10, Dec.index, Dec.gindex, Dec.scrRest, Dec.vreg, Enc.kreg_add, Enc.rnd0, Enc.ty1, Enc.ty4, Enc.ty5, q0.2, q1.2, h3, g0, g1]

theorem mnote (a0 : Com) (a1 : Src) (hw : Instr.wf (.mnote a0 a1) = true) : fld (encode (.mnote a0 a1)) 56 8 = 0xB2 ∧ decode (encode (.mnote a0 a1)) = .ok (.mnote a0 a1) := by
  have hwf := hw
  replace hw : (Wf.com false a0 && Wf.read false a1) = true := hw
  simp only [Bool.and_eq_true] at hw
  obtain ⟨h0, h1⟩ := hw
  have qc := Enc.com_ok h0
  have q0 := Enc.src_ok h1
  rw [show encode (.mnote a0 a1) = Enc.fmtS 0xB2 a0 511 (Enc.src a1) 511 0 from rfl]
  obtain ⟨f1, f2, f3, f4, f5, f6, f7, f8, f9⟩ := Enc.fmtS_fields 0xB2 a0 511 (Enc.src a1) 511 0 (by decide) qc (by omega) (by omega) (by omega) (by omega)
  generalize Enc.fmtS 0xB2 a0 511 (Enc.src a1) 511 0 = w at *
  refine ⟨f1, Enc.decode_of f1 (by decide) f2 ?_ hwf⟩
  unfold Dec.parse
  rw [f1]
  simp [Dec.monitor, Dec.need, f3, f4, f5, f6, f7, f8, f9, Enc.bit00, Enc.bit10, Dec.index, Dec.gindex, Dec.scrRest, Dec.vreg, Enc.kreg_add, Enc.rnd0, Enc.ty1, Enc.ty4, Enc.ty5, q0.2]

theorem mnoteall (a0 : Com) (a1 : Src) (hw : Instr.wf (.mnoteall a0 a1) = true) : fld (encode (.mnoteall a0 a1)) 56 8 = 0xB3 ∧ decode (encode (.mnoteall a0 a1)) = .ok (.mnoteall a0 a1) := by
  have hwf := hw
  replace hw : (Wf.com false a0 && Wf.read false a1) = true := hw
  simp only [Bool.and_eq_true] at hw
  obtain ⟨h0, h1⟩ := hw
  have qc := Enc.com_ok h0
  have q0 := Enc.src_ok h1
  rw [show encode (.mnoteall a0 a1) = Enc.fmtS 0xB3 a0 511 (Enc.src a1) 511 0 from rfl]
  obtain ⟨f1, f2, f3, f4, f5, f6, f7, f8, f9⟩ := Enc.fmtS_fields 0xB3 a0 511 (Enc.src a1) 511 0 (by decide) qc (by omega) (by omega) (by omega) (by omega)
  generalize Enc.fmtS 0xB3 a0 511 (Enc.src a1) 511 0 = w at *
  refine ⟨f1, Enc.decode_of f1 (by decide) f2 ?_ hwf⟩
  unfold Dec.parse
  rw [f1]
  simp [Dec.monitor, Dec.need, f3, f4, f5, f6, f7, f8, f9, Enc.bit00, Enc.bit10, Dec.index, Dec.gindex, Dec.scrRest, Dec.vreg, Enc.kreg_add, Enc.rnd0, Enc.ty1, Enc.ty4, Enc.ty5, q0.2]

theorem heldTest (a0 : Com) (a1 : Nat) (a2 : Src) (hw : Instr.wf (.heldTest a0 a1 a2) = true) : fld (encode (.heldTest a0 a1 a2)) 56 8 = 0xB4 ∧ decode (encode (.heldTest a0 a1 a2)) = .ok (.heldTest a0 a1 a2) := by
  have hwf := hw
  replace hw : (Wf.com false a0 && Wf.pd a1 && Wf.read false a2) = true := hw
  simp only [Bool.and_eq_true] at hw
  obtain ⟨⟨h0, h1⟩, h2⟩ := hw
  have qc := Enc.com_ok h0
  simp only [Wf.pd, decide_eq_true_eq] at h1
  have q0 := Enc.src_ok h2
  rw [show encode (.heldTest a0 a1 a2) = Enc.fmtS 0xB4 a0 a1 (Enc.src a2) 511 0 from rfl]
  obtain ⟨f1, f2, f3, f4, f5, f6, f7, f8, f9⟩ := Enc.fmtS_fields 0xB4 a0 a1 (Enc.src a2) 511 0 (by decide) qc (by omega) (by omega) (by omega) (by omega)
  generalize Enc.fmtS 0xB4 a0 a1 (Enc.src a2) 511 0 = w at *
  refine ⟨f1, Enc.decode_of f1 (by decide) f2 ?_ hwf⟩
  unfold Dec.parse
  rw [f1]
  simp [Dec.monitor, Dec.need, f3, f4, f5, f6, f7, f8, f9, Enc.bit00, Enc.bit10, Dec.index, Dec.gindex, Dec.scrRest, Dec.vreg, Enc.kreg_add, Enc.rnd0, Enc.ty1, Enc.ty4, Enc.ty5, q0.2, h1]

theorem heldList (a0 : Com) (a1 : Dst) (a2 : Src) (hw : Instr.wf (.heldList a0 a1 a2) = true) : fld (encode (.heldList a0 a1 a2)) 56 8 = 0xB4 ∧ decode (encode (.heldList a0 a1 a2)) = .ok (.heldList a0 a1 a2) := by
  have hwf := hw
  replace hw : (Wf.com false a0 && Wf.dst false a1 && Wf.read false a2) = true := hw
  simp only [Bool.and_eq_true] at hw
  obtain ⟨⟨h0, h1⟩, h2⟩ := hw
  have qc := Enc.com_ok h0
  have q0 := Enc.dst_ok h1
  have q1 := Enc.src_ok h2
  rw [show encode (.heldList a0 a1 a2) = Enc.fmtS 0xB4 a0 (Enc.dst a1) (Enc.src a2) 511 1 from rfl]
  obtain ⟨f1, f2, f3, f4, f5, f6, f7, f8, f9⟩ := Enc.fmtS_fields 0xB4 a0 (Enc.dst a1) (Enc.src a2) 511 1 (by decide) qc (by omega) (by omega) (by omega) (by omega)
  generalize Enc.fmtS 0xB4 a0 (Enc.dst a1) (Enc.src a2) 511 1 = w at *
  refine ⟨f1, Enc.decode_of f1 (by decide) f2 ?_ hwf⟩
  unfold Dec.parse
  rw [f1]
  simp [Dec.monitor, Dec.need, f3, f4, f5, f6, f7, f8, f9, Enc.bit00, Enc.bit10, Dec.index, Dec.gindex, Dec.scrRest, Dec.vreg, Enc.kreg_add, Enc.rnd0, Enc.ty1, Enc.ty4, Enc.ty5, q0.2, q1.2]

theorem mrepair (a0 : Com) (a1 : Src) (hw : Instr.wf (.mrepair a0 a1) = true) : fld (encode (.mrepair a0 a1)) 56 8 = 0xB5 ∧ decode (encode (.mrepair a0 a1)) = .ok (.mrepair a0 a1) := by
  have hwf := hw
  replace hw : (Wf.com false a0 && Wf.read false a1) = true := hw
  simp only [Bool.and_eq_true] at hw
  obtain ⟨h0, h1⟩ := hw
  have qc := Enc.com_ok h0
  have q0 := Enc.src_ok h1
  rw [show encode (.mrepair a0 a1) = Enc.fmtS 0xB5 a0 511 (Enc.src a1) 511 0 from rfl]
  obtain ⟨f1, f2, f3, f4, f5, f6, f7, f8, f9⟩ := Enc.fmtS_fields 0xB5 a0 511 (Enc.src a1) 511 0 (by decide) qc (by omega) (by omega) (by omega) (by omega)
  generalize Enc.fmtS 0xB5 a0 511 (Enc.src a1) 511 0 = w at *
  refine ⟨f1, Enc.decode_of f1 (by decide) f2 ?_ hwf⟩
  unfold Dec.parse
  rw [f1]
  simp [Dec.monitor, Dec.need, f3, f4, f5, f6, f7, f8, f9, Enc.bit00, Enc.bit10, Dec.index, Dec.gindex, Dec.scrRest, Dec.vreg, Enc.kreg_add, Enc.rnd0, Enc.ty1, Enc.ty4, Enc.ty5, q0.2]

theorem tspawn (a0 : Com) (a1 : Src) (hw : Instr.wf (.tspawn a0 a1) = true) : fld (encode (.tspawn a0 a1)) 56 8 = 0xB8 ∧ decode (encode (.tspawn a0 a1)) = .ok (.tspawn a0 a1) := by
  have hwf := hw
  replace hw : (Wf.com false a0 && Wf.addr a1) = true := hw
  simp only [Bool.and_eq_true] at hw
  obtain ⟨h0, h1⟩ := hw
  have qc := Enc.com_ok h0
  have q0 := Enc.addr_ok h1
  rw [show encode (.tspawn a0 a1) = Enc.fmtS 0xB8 a0 511 (Enc.src a1) 511 0 from rfl]
  obtain ⟨f1, f2, f3, f4, f5, f6, f7, f8, f9⟩ := Enc.fmtS_fields 0xB8 a0 511 (Enc.src a1) 511 0 (by decide) qc (by omega) (by omega) (by omega) (by omega)
  generalize Enc.fmtS 0xB8 a0 511 (Enc.src a1) 511 0 = w at *
  refine ⟨f1, Enc.decode_of f1 (by decide) f2 ?_ hwf⟩
  unfold Dec.parse
  rw [f1]
  simp [Dec.monitor, Dec.need, f3, f4, f5, f6, f7, f8, f9, Enc.bit00, Enc.bit10, Dec.index, Dec.gindex, Dec.scrRest, Dec.vreg, Enc.kreg_add, Enc.rnd0, Enc.ty1, Enc.ty4, Enc.ty5, q0.2]

theorem tdone (a0 : Com) (hw : Instr.wf (.tdone a0) = true) : fld (encode (.tdone a0)) 56 8 = 0xB9 ∧ decode (encode (.tdone a0)) = .ok (.tdone a0) := by
  have hwf := hw
  replace hw : (Wf.com false a0) = true := hw
  have h0 := hw
  have qc := Enc.com_ok h0
  rw [show encode (.tdone a0) = Enc.fmtS 0xB9 a0 511 511 511 0 from rfl]
  obtain ⟨f1, f2, f3, f4, f5, f6, f7, f8, f9⟩ := Enc.fmtS_fields 0xB9 a0 511 511 511 0 (by decide) qc (by omega) (by omega) (by omega) (by omega)
  generalize Enc.fmtS 0xB9 a0 511 511 511 0 = w at *
  refine ⟨f1, Enc.decode_of f1 (by decide) f2 ?_ hwf⟩
  unfold Dec.parse
  rw [f1]
  simp [Dec.monitor, Dec.need, f3, f4, f5, f6, f7, f8, f9, Enc.bit00, Enc.bit10, Dec.index, Dec.gindex, Dec.scrRest, Dec.vreg, Enc.kreg_add, Enc.rnd0, Enc.ty1, Enc.ty4, Enc.ty5]

theorem publap (a0 : Com) (a1 : Bool) (a2 : Src) (hw : Instr.wf (.publap a0 a1 a2) = true) : fld (encode (.publap a0 a1 a2)) 56 8 = 0xBA ∧ decode (encode (.publap a0 a1 a2)) = .ok (.publap a0 a1 a2) := by
  have hwf := hw
  replace hw : (Wf.com false a0 && Wf.read false a2) = true := hw
  simp only [Bool.and_eq_true] at hw
  obtain ⟨h0, h1⟩ := hw
  have qc := Enc.com_ok h0
  have q0 := Enc.src_ok h1
  have q1 := Enc.flag1_ok a1
  rw [show encode (.publap a0 a1 a2) = Enc.fmtS 0xBA a0 511 (Enc.src a2) 511 (b2n a1) from rfl]
  obtain ⟨f1, f2, f3, f4, f5, f6, f7, f8, f9⟩ := Enc.fmtS_fields 0xBA a0 511 (Enc.src a2) 511 (b2n a1) (by decide) qc (by omega) (by omega) (by omega) (by omega)
  generalize Enc.fmtS 0xBA a0 511 (Enc.src a2) 511 (b2n a1) = w at *
  refine ⟨f1, Enc.decode_of f1 (by decide) f2 ?_ hwf⟩
  have g0 : b2n a1 < 2 := by cases a1 <;> decide
  have g1 : bit (b2n a1) 0 = a1 := by cases a1 <;> rfl
  unfold Dec.parse
  rw [f1]
  simp [Dec.monitor, Dec.need, f3, f4, f5, f6, f7, f8, f9, Enc.bit00, Enc.bit10, Dec.index, Dec.gindex, Dec.scrRest, Dec.vreg, Enc.kreg_add, Enc.rnd0, Enc.ty1, Enc.ty4, Enc.ty5, q0.2, q1.2, g0, g1]

theorem tstop (a0 : Com) (a1 : Src) (hw : Instr.wf (.tstop a0 a1) = true) : fld (encode (.tstop a0 a1)) 56 8 = 0xBB ∧ decode (encode (.tstop a0 a1)) = .ok (.tstop a0 a1) := by
  have hwf := hw
  replace hw : (Wf.com false a0 && Wf.addr a1) = true := hw
  simp only [Bool.and_eq_true] at hw
  obtain ⟨h0, h1⟩ := hw
  have qc := Enc.com_ok h0
  have q0 := Enc.addr_ok h1
  rw [show encode (.tstop a0 a1) = Enc.fmtS 0xBB a0 511 (Enc.src a1) 511 0 from rfl]
  obtain ⟨f1, f2, f3, f4, f5, f6, f7, f8, f9⟩ := Enc.fmtS_fields 0xBB a0 511 (Enc.src a1) 511 0 (by decide) qc (by omega) (by omega) (by omega) (by omega)
  generalize Enc.fmtS 0xBB a0 511 (Enc.src a1) 511 0 = w at *
  refine ⟨f1, Enc.decode_of f1 (by decide) f2 ?_ hwf⟩
  unfold Dec.parse
  rw [f1]
  simp [Dec.monitor, Dec.need, f3, f4, f5, f6, f7, f8, f9, Enc.bit00, Enc.bit10, Dec.index, Dec.gindex, Dec.scrRest, Dec.vreg, Enc.kreg_add, Enc.rnd0, Enc.ty1, Enc.ty4, Enc.ty5, q0.2]

theorem tlapState (a0 : Com) (a1 : Nat) (a2 : Src) (hw : Instr.wf (.tlapState a0 a1 a2) = true) : fld (encode (.tlapState a0 a1 a2)) 56 8 = 0xBC ∧ decode (encode (.tlapState a0 a1 a2)) = .ok (.tlapState a0 a1 a2) := by
  have hwf := hw
  replace hw : (Wf.com false a0 && a1 < 320 && Wf.addr a2) = true := hw
  simp only [Bool.and_eq_true] at hw
  obtain ⟨⟨h0, h1⟩, h2⟩ := hw
  have qc := Enc.com_ok h0
  have q0 := Enc.addr_ok h2
  try simp at h1
  rw [show encode (.tlapState a0 a1 a2) = Enc.fmtS 0xBC a0 a1 (Enc.src a2) 511 0 from rfl]
  obtain ⟨f1, f2, f3, f4, f5, f6, f7, f8, f9⟩ := Enc.fmtS_fields 0xBC a0 a1 (Enc.src a2) 511 0 (by decide) qc (by omega) (by omega) (by omega) (by omega)
  generalize Enc.fmtS 0xBC a0 a1 (Enc.src a2) 511 0 = w at *
  refine ⟨f1, Enc.decode_of f1 (by decide) f2 ?_ hwf⟩
  unfold Dec.parse
  rw [f1]
  simp [Dec.monitor, Dec.need, f3, f4, f5, f6, f7, f8, f9, Enc.bit00, Enc.bit10, Dec.index, Dec.gindex, Dec.scrRest, Dec.vreg, Enc.kreg_add, Enc.rnd0, Enc.ty1, Enc.ty4, Enc.ty5, q0.2, h1]

theorem tlapBuf (a0 : Com) (a1 : Nat) (a2 : Src) (hw : Instr.wf (.tlapBuf a0 a1 a2) = true) : fld (encode (.tlapBuf a0 a1 a2)) 56 8 = 0xBC ∧ decode (encode (.tlapBuf a0 a1 a2)) = .ok (.tlapBuf a0 a1 a2) := by
  have hwf := hw
  replace hw : (Wf.com false a0 && a1 % 2 == 0 && a1 < 320 && Wf.addr a2) = true := hw
  simp only [Bool.and_eq_true] at hw
  obtain ⟨⟨⟨h0, h1⟩, h2⟩, h3⟩ := hw
  have qc := Enc.com_ok h0
  have q0 := Enc.addr_ok h3
  try simp at h1
  try simp at h2
  rw [show encode (.tlapBuf a0 a1 a2) = Enc.fmtS 0xBC a0 a1 (Enc.src a2) 511 1 from rfl]
  obtain ⟨f1, f2, f3, f4, f5, f6, f7, f8, f9⟩ := Enc.fmtS_fields 0xBC a0 a1 (Enc.src a2) 511 1 (by decide) qc (by omega) (by omega) (by omega) (by omega)
  generalize Enc.fmtS 0xBC a0 a1 (Enc.src a2) 511 1 = w at *
  refine ⟨f1, Enc.decode_of f1 (by decide) f2 ?_ hwf⟩
  unfold Dec.parse
  rw [f1]
  simp [Dec.monitor, Dec.need, f3, f4, f5, f6, f7, f8, f9, Enc.bit00, Enc.bit10, Dec.index, Dec.gindex, Dec.scrRest, Dec.vreg, Enc.kreg_add, Enc.rnd0, Enc.ty1, Enc.ty4, Enc.ty5, q0.2, h1, h2]

theorem tabortRequeue (a0 : Com) (hw : Instr.wf (.tabortRequeue a0) = true) : fld (encode (.tabortRequeue a0)) 56 8 = 0xBD ∧ decode (encode (.tabortRequeue a0)) = .ok (.tabortRequeue a0) := by
  have hwf := hw
  replace hw : (Wf.com false a0) = true := hw
  have h0 := hw
  have qc := Enc.com_ok h0
  rw [show encode (.tabortRequeue a0) = Enc.fmtS 0xBD a0 511 511 511 0 from rfl]
  obtain ⟨f1, f2, f3, f4, f5, f6, f7, f8, f9⟩ := Enc.fmtS_fields 0xBD a0 511 511 511 0 (by decide) qc (by omega) (by omega) (by omega) (by omega)
  generalize Enc.fmtS 0xBD a0 511 511 511 0 = w at *
  refine ⟨f1, Enc.decode_of f1 (by decide) f2 ?_ hwf⟩
  unfold Dec.parse
  rw [f1]
  simp [Dec.monitor, Dec.need, f3, f4, f5, f6, f7, f8, f9, Enc.bit00, Enc.bit10, Dec.index, Dec.gindex, Dec.scrRest, Dec.vreg, Enc.kreg_add, Enc.rnd0, Enc.ty1, Enc.ty4, Enc.ty5]

theorem tabortFail (a0 : Com) (hw : Instr.wf (.tabortFail a0) = true) : fld (encode (.tabortFail a0)) 56 8 = 0xBD ∧ decode (encode (.tabortFail a0)) = .ok (.tabortFail a0) := by
  have hwf := hw
  replace hw : (Wf.com false a0) = true := hw
  have h0 := hw
  have qc := Enc.com_ok h0
  rw [show encode (.tabortFail a0) = Enc.fmtS 0xBD a0 511 511 511 1 from rfl]
  obtain ⟨f1, f2, f3, f4, f5, f6, f7, f8, f9⟩ := Enc.fmtS_fields 0xBD a0 511 511 511 1 (by decide) qc (by omega) (by omega) (by omega) (by omega)
  generalize Enc.fmtS 0xBD a0 511 511 511 1 = w at *
  refine ⟨f1, Enc.decode_of f1 (by decide) f2 ?_ hwf⟩
  unfold Dec.parse
  rw [f1]
  simp [Dec.monitor, Dec.need, f3, f4, f5, f6, f7, f8, f9, Enc.bit00, Enc.bit10, Dec.index, Dec.gindex, Dec.scrRest, Dec.vreg, Enc.kreg_add, Enc.rnd0, Enc.ty1, Enc.ty4, Enc.ty5]

theorem tsettle (a0 : Com) (a1 : Src) (hw : Instr.wf (.tsettle a0 a1) = true) : fld (encode (.tsettle a0 a1)) 56 8 = 0xBE ∧ decode (encode (.tsettle a0 a1)) = .ok (.tsettle a0 a1) := by
  have hwf := hw
  replace hw : (Wf.com false a0 && Wf.addr a1) = true := hw
  simp only [Bool.and_eq_true] at hw
  obtain ⟨h0, h1⟩ := hw
  have qc := Enc.com_ok h0
  have q0 := Enc.addr_ok h1
  rw [show encode (.tsettle a0 a1) = Enc.fmtS 0xBE a0 511 (Enc.src a1) 511 0 from rfl]
  obtain ⟨f1, f2, f3, f4, f5, f6, f7, f8, f9⟩ := Enc.fmtS_fields 0xBE a0 511 (Enc.src a1) 511 0 (by decide) qc (by omega) (by omega) (by omega) (by omega)
  generalize Enc.fmtS 0xBE a0 511 (Enc.src a1) 511 0 = w at *
  refine ⟨f1, Enc.decode_of f1 (by decide) f2 ?_ hwf⟩
  unfold Dec.parse
  rw [f1]
  simp [Dec.monitor, Dec.need, f3, f4, f5, f6, f7, f8, f9, Enc.bit00, Enc.bit10, Dec.index, Dec.gindex, Dec.scrRest, Dec.vreg, Enc.kreg_add, Enc.rnd0, Enc.ty1, Enc.ty4, Enc.ty5, q0.2]

theorem resume (a0 : Com) (a1 : Bool) (a2 : Src) (a3 : Option Src) (hw : Instr.wf (.resume a0 a1 a2 a3) = true) : fld (encode (.resume a0 a1 a2 a3)) 56 8 = 0xC0 ∧ decode (encode (.resume a0 a1 a2 a3)) = .ok (.resume a0 a1 a2 a3) := by
  have hwf := hw
  replace hw : (Wf.com false a0 && Wf.addr a2 && Wf.opt (Wf.src false) a3) = true := hw
  simp only [Bool.and_eq_true] at hw
  obtain ⟨⟨h0, h1⟩, h2⟩ := hw
  have qc := Enc.com_ok h0
  have q0 := Enc.addr_ok h1
  have q1 := Enc.srcOpt_ok h2
  have q2 := Enc.flag1_ok a1
  rw [show encode (.resume a0 a1 a2 a3) = Enc.fmtS 0xC0 a0 511 (Enc.src a2) (Enc.srcOpt a3) (b2n a1) from rfl]
  obtain ⟨f1, f2, f3, f4, f5, f6, f7, f8, f9⟩ := Enc.fmtS_fields 0xC0 a0 511 (Enc.src a2) (Enc.srcOpt a3) (b2n a1) (by decide) qc (by omega) (by omega) (by omega) (by omega)
  generalize Enc.fmtS 0xC0 a0 511 (Enc.src a2) (Enc.srcOpt a3) (b2n a1) = w at *
  refine ⟨f1, Enc.decode_of f1 (by decide) f2 ?_ hwf⟩
  have g0 : b2n a1 < 2 := by cases a1 <;> decide
  have g1 : bit (b2n a1) 0 = a1 := by cases a1 <;> rfl
  unfold Dec.parse
  rw [f1]
  simp [Dec.system, Dec.need, f3, f4, f5, f6, f7, f8, f9, Enc.bit00, Enc.bit10, Dec.index, Dec.gindex, Dec.scrRest, Dec.vreg, Enc.kreg_add, Enc.rnd0, Enc.ty1, Enc.ty4, Enc.ty5, q0.2, q1.2, q2.2, g0, g1]

theorem killLanes (a0 : Com) (a1 : Src) (a2 : Option Src) (hw : Instr.wf (.killLanes a0 a1 a2) = true) : fld (encode (.killLanes a0 a1 a2)) 56 8 = 0xC1 ∧ decode (encode (.killLanes a0 a1 a2)) = .ok (.killLanes a0 a1 a2) := by
  have hwf := hw
  replace hw : (Wf.com false a0 && Wf.addr a1 && Wf.opt (Wf.src false) a2) = true := hw
  simp only [Bool.and_eq_true] at hw
  obtain ⟨⟨h0, h1⟩, h2⟩ := hw
  have qc := Enc.com_ok h0
  have q0 := Enc.addr_ok h1
  have q1 := Enc.srcOpt_ok h2
  rw [show encode (.killLanes a0 a1 a2) = Enc.fmtS 0xC1 a0 511 (Enc.src a1) (Enc.srcOpt a2) 0 from rfl]
  obtain ⟨f1, f2, f3, f4, f5, f6, f7, f8, f9⟩ := Enc.fmtS_fields 0xC1 a0 511 (Enc.src a1) (Enc.srcOpt a2) 0 (by decide) qc (by omega) (by omega) (by omega) (by omega)
  generalize Enc.fmtS 0xC1 a0 511 (Enc.src a1) (Enc.srcOpt a2) 0 = w at *
  refine ⟨f1, Enc.decode_of f1 (by decide) f2 ?_ hwf⟩
  unfold Dec.parse
  rw [f1]
  simp [Dec.system, Dec.need, f3, f4, f5, f6, f7, f8, f9, Enc.bit00, Enc.bit10, Dec.index, Dec.gindex, Dec.scrRest, Dec.vreg, Enc.kreg_add, Enc.rnd0, Enc.ty1, Enc.ty4, Enc.ty5, q0.2, q1.2]

theorem killHeat (a0 : Com) (a1 : Src) (hw : Instr.wf (.killHeat a0 a1) = true) : fld (encode (.killHeat a0 a1)) 56 8 = 0xC1 ∧ decode (encode (.killHeat a0 a1)) = .ok (.killHeat a0 a1) := by
  have hwf := hw
  replace hw : (Wf.com false a0 && Wf.addr a1) = true := hw
  simp only [Bool.and_eq_true] at hw
  obtain ⟨h0, h1⟩ := hw
  have qc := Enc.com_ok h0
  have q0 := Enc.addr_ok h1
  rw [show encode (.killHeat a0 a1) = Enc.fmtS 0xC1 a0 511 (Enc.src a1) 511 1 from rfl]
  obtain ⟨f1, f2, f3, f4, f5, f6, f7, f8, f9⟩ := Enc.fmtS_fields 0xC1 a0 511 (Enc.src a1) 511 1 (by decide) qc (by omega) (by omega) (by omega) (by omega)
  generalize Enc.fmtS 0xC1 a0 511 (Enc.src a1) 511 1 = w at *
  refine ⟨f1, Enc.decode_of f1 (by decide) f2 ?_ hwf⟩
  unfold Dec.parse
  rw [f1]
  simp [Dec.system, Dec.need, f3, f4, f5, f6, f7, f8, f9, Enc.bit00, Enc.bit10, Dec.index, Dec.gindex, Dec.scrRest, Dec.vreg, Enc.kreg_add, Enc.rnd0, Enc.ty1, Enc.ty4, Enc.ty5, q0.2]

theorem killKernel (a0 : Com) (a1 : Src) (hw : Instr.wf (.killKernel a0 a1) = true) : fld (encode (.killKernel a0 a1)) 56 8 = 0xC1 ∧ decode (encode (.killKernel a0 a1)) = .ok (.killKernel a0 a1) := by
  have hwf := hw
  replace hw : (Wf.com false a0 && Wf.addr a1) = true := hw
  simp only [Bool.and_eq_true] at hw
  obtain ⟨h0, h1⟩ := hw
  have qc := Enc.com_ok h0
  have q0 := Enc.addr_ok h1
  rw [show encode (.killKernel a0 a1) = Enc.fmtS 0xC1 a0 511 (Enc.src a1) 511 2 from rfl]
  obtain ⟨f1, f2, f3, f4, f5, f6, f7, f8, f9⟩ := Enc.fmtS_fields 0xC1 a0 511 (Enc.src a1) 511 2 (by decide) qc (by omega) (by omega) (by omega) (by omega)
  generalize Enc.fmtS 0xC1 a0 511 (Enc.src a1) 511 2 = w at *
  refine ⟨f1, Enc.decode_of f1 (by decide) f2 ?_ hwf⟩
  unfold Dec.parse
  rw [f1]
  simp [Dec.system, Dec.need, f3, f4, f5, f6, f7, f8, f9, Enc.bit00, Enc.bit10, Dec.index, Dec.gindex, Dec.scrRest, Dec.vreg, Enc.kreg_add, Enc.rnd0, Enc.ty1, Enc.ty4, Enc.ty5, q0.2]

theorem eret (a0 : Com) (a1 : Src) (hw : Instr.wf (.eret a0 a1) = true) : fld (encode (.eret a0 a1)) 56 8 = 0xC2 ∧ decode (encode (.eret a0 a1)) = .ok (.eret a0 a1) := by
  have hwf := hw
  replace hw : (Wf.com false a0 && Wf.addr a1) = true := hw
  simp only [Bool.and_eq_true] at hw
  obtain ⟨h0, h1⟩ := hw
  have qc := Enc.com_ok h0
  have q0 := Enc.addr_ok h1
  rw [show encode (.eret a0 a1) = Enc.fmtS 0xC2 a0 511 (Enc.src a1) 511 0 from rfl]
  obtain ⟨f1, f2, f3, f4, f5, f6, f7, f8, f9⟩ := Enc.fmtS_fields 0xC2 a0 511 (Enc.src a1) 511 0 (by decide) qc (by omega) (by omega) (by omega) (by omega)
  generalize Enc.fmtS 0xC2 a0 511 (Enc.src a1) 511 0 = w at *
  refine ⟨f1, Enc.decode_of f1 (by decide) f2 ?_ hwf⟩
  unfold Dec.parse
  rw [f1]
  simp [Dec.system, Dec.need, f3, f4, f5, f6, f7, f8, f9, Enc.bit00, Enc.bit10, Dec.index, Dec.gindex, Dec.scrRest, Dec.vreg, Enc.kreg_add, Enc.rnd0, Enc.ty1, Enc.ty4, Enc.ty5, q0.2]

theorem tframeNext (a0 : Com) (a1 : Nat) (a2 : Src) (a3 : Nat) (hw : Instr.wf (.tframeNext a0 a1 a2 a3) = true) : fld (encode (.tframeNext a0 a1 a2 a3)) 56 8 = 0xC3 ∧ decode (encode (.tframeNext a0 a1 a2 a3)) = .ok (.tframeNext a0 a1 a2 a3) := by
  have hwf := hw
  replace hw : (Wf.com false a0 && Wf.pd a1 && Wf.addr a2 && a3 ≤ 20) = true := hw
  simp only [Bool.and_eq_true] at hw
  obtain ⟨⟨⟨h0, h1⟩, h2⟩, h3⟩ := hw
  have qc := Enc.com_ok h0
  simp only [Wf.pd, decide_eq_true_eq] at h1
  have q0 := Enc.addr_ok h2
  try simp at h3
  rw [show encode (.tframeNext a0 a1 a2 a3) = Enc.fmtS 0xC3 a0 a1 (Enc.src a2) 511 (4 * a3) from rfl]
  obtain ⟨f1, f2, f3, f4, f5, f6, f7, f8, f9⟩ := Enc.fmtS_fields 0xC3 a0 a1 (Enc.src a2) 511 (4 * a3) (by decide) qc (by omega) (by omega) (by omega) (by omega)
  generalize Enc.fmtS 0xC3 a0 a1 (Enc.src a2) 511 (4 * a3) = w at *
  refine ⟨f1, Enc.decode_of f1 (by decide) f2 ?_ hwf⟩
  have g0 : fld (4 * a3) 0 2 = 0 := by unfold fld; omega
  have g1 : fld (4 * a3) 7 14 = 0 := by unfold fld; omega
  have g2 : fld (4 * a3) 2 5 = a3 := by unfold fld; omega
  unfold Dec.parse
  rw [f1]
  simp [Dec.system, Dec.need, f3, f4, f5, f6, f7, f8, f9, Enc.bit00, Enc.bit10, Dec.index, Dec.gindex, Dec.scrRest, Dec.vreg, Enc.kreg_add, Enc.rnd0, Enc.ty1, Enc.ty4, Enc.ty5, q0.2, h1, h3, g0, g1, g2]

theorem tframeRd (a0 : Com) (a1 : Nat) (a2 : Src) (a3 : Src) (a4 : Nat) (hw : Instr.wf (.tframeRd a0 a1 a2 a3 a4) = true) : fld (encode (.tframeRd a0 a1 a2 a3 a4)) 56 8 = 0xC3 ∧ decode (encode (.tframeRd a0 a1 a2 a3 a4)) = .ok (.tframeRd a0 a1 a2 a3 a4) := by
  have hwf := hw
  replace hw : (Wf.com false a0 && Wf.addr a2 && Wf.read false a3 && a4 ≤ 388 && a1 < 320 && (!Wf.itemWide a4 || a1 % 2 == 0)) = true := hw
  simp only [Bool.and_eq_true] at hw
  obtain ⟨⟨⟨⟨⟨h0, h1⟩, h2⟩, h3⟩, h4⟩, h5⟩ := hw
  have qc := Enc.com_ok h0
  have q0 := Enc.addr_ok h1
  have q1 := Enc.src_ok h2
  try simp at h3
  try simp at h4
  try simp at h5
  rw [show encode (.tframeRd a0 a1 a2 a3 a4) = Enc.fmtS 0xC3 a0 a1 (Enc.src a2) (Enc.src a3) (1 + 128 * a4) from rfl]
  obtain ⟨f1, f2, f3, f4, f5, f6, f7, f8, f9⟩ := Enc.fmtS_fields 0xC3 a0 a1 (Enc.src a2) (Enc.src a3) (1 + 128 * a4) (by decide) qc (by omega) (by omega) (by omega) (by omega)
  generalize Enc.fmtS 0xC3 a0 a1 (Enc.src a2) (Enc.src a3) (1 + 128 * a4) = w at *
  refine ⟨f1, Enc.decode_of f1 (by decide) f2 ?_ hwf⟩
  have g0 : fld (1 + 128 * a4) 0 2 = 1 := by unfold fld; omega
  have g1 : fld (1 + 128 * a4) 2 5 = 0 := by unfold fld; omega
  have g2 : fld (1 + 128 * a4) 16 5 = 0 := by unfold fld; omega
  have g3 : fld (1 + 128 * a4) 7 9 = a4 := by unfold fld; omega
  unfold Dec.parse
  rw [f1]
  simp [Dec.system, Dec.need, f3, f4, f5, f6, f7, f8, f9, Enc.bit00, Enc.bit10, Dec.index, Dec.gindex, Dec.scrRest, Dec.vreg, Enc.kreg_add, Enc.rnd0, Enc.ty1, Enc.ty4, Enc.ty5, q0.2, q1.2, h3, h4, h5, g0, g1, g2, g3]

theorem tframeWr (a0 : Com) (a1 : Src) (a2 : Src) (a3 : Nat) (a4 : Src) (hw : Instr.wf (.tframeWr a0 a1 a2 a3 a4) = true) : fld (encode (.tframeWr a0 a1 a2 a3 a4)) 56 8 = 0xC3 ∧ decode (encode (.tframeWr a0 a1 a2 a3 a4)) = .ok (.tframeWr a0 a1 a2 a3 a4) := by
  have hwf := hw
  replace hw : (Wf.com false a0 && Wf.addr a1 && Wf.read false a2 && a3 ≤ 388 && (if Wf.itemWide a3 then Wf.addr a4 else Wf.read false a4)) = true := hw
  simp only [Bool.and_eq_true] at hw
  obtain ⟨⟨⟨⟨h0, h1⟩, h2⟩, h3⟩, h4⟩ := hw
  have qc := Enc.com_ok h0
  have q0 := Enc.addr_ok h1
  have q1 := Enc.src_ok h2
  try simp at h3
  have ew : Enc.src a4 < 512 ∧ Dec.src (Enc.src a4) = some a4 := by
    replace h4 : (if Wf.itemWide a3 = true then Wf.addr a4 else Wf.read false a4) = true := h4
    split at h4
    · exact Enc.addr_ok h4
    · exact Enc.src_ok h4
  rw [show encode (.tframeWr a0 a1 a2 a3 a4) = Enc.fmtS 0xC3 a0 (Enc.src a4) (Enc.src a1) (Enc.src a2) (2 + 128 * a3) from rfl]
  obtain ⟨f1, f2, f3, f4, f5, f6, f7, f8, f9⟩ := Enc.fmtS_fields 0xC3 a0 (Enc.src a4) (Enc.src a1) (Enc.src a2) (2 + 128 * a3) (by decide) qc (by omega) (by omega) (by omega) (by omega)
  generalize Enc.fmtS 0xC3 a0 (Enc.src a4) (Enc.src a1) (Enc.src a2) (2 + 128 * a3) = w at *
  refine ⟨f1, Enc.decode_of f1 (by decide) f2 ?_ hwf⟩
  have g0 : fld (2 + 128 * a3) 0 2 = 2 := by unfold fld; omega
  have g1 : fld (2 + 128 * a3) 2 5 = 0 := by unfold fld; omega
  have g2 : fld (2 + 128 * a3) 16 5 = 0 := by unfold fld; omega
  have g3 : fld (2 + 128 * a3) 7 9 = a3 := by unfold fld; omega
  unfold Dec.parse
  rw [f1]
  simp [Dec.system, Dec.need, f3, f4, f5, f6, f7, f8, f9, Enc.bit00, Enc.bit10, Dec.index, Dec.gindex, Dec.scrRest, Dec.vreg, Enc.kreg_add, Enc.rnd0, Enc.ty1, Enc.ty4, Enc.ty5, q0.2, q1.2, h3, g0, g1, g2, g3, ew.2]

theorem mfs (a0 : Com) (a1 : Nat) (a2 : Nat) (hw : Instr.wf (.mfs a0 a1 a2) = true) : fld (encode (.mfs a0 a1 a2)) 56 8 = 0xC4 ∧ decode (encode (.mfs a0 a1 a2)) = .ok (.mfs a0 a1 a2) := by
  have hwf := hw
  replace hw : (Wf.com false a0 && a1 < 320 && a2 ≤ 2) = true := hw
  simp only [Bool.and_eq_true] at hw
  obtain ⟨⟨h0, h1⟩, h2⟩ := hw
  have qc := Enc.com_ok h0
  try simp at h1
  try simp at h2
  rw [show encode (.mfs a0 a1 a2) = Enc.fmtS 0xC4 a0 a1 511 511 a2 from rfl]
  obtain ⟨f1, f2, f3, f4, f5, f6, f7, f8, f9⟩ := Enc.fmtS_fields 0xC4 a0 a1 511 511 a2 (by decide) qc (by omega) (by omega) (by omega) (by omega)
  generalize Enc.fmtS 0xC4 a0 a1 511 511 a2 = w at *
  refine ⟨f1, Enc.decode_of f1 (by decide) f2 ?_ hwf⟩
  unfold Dec.parse
  rw [f1]
  simp [Dec.system, Dec.need, f3, f4, f5, f6, f7, f8, f9, Enc.bit00, Enc.bit10, Dec.index, Dec.gindex, Dec.scrRest, Dec.vreg, Enc.kreg_add, Enc.rnd0, Enc.ty1, Enc.ty4, Enc.ty5, h1, h2]

theorem mts (a0 : Com) (a1 : Nat) (a2 : Src) (hw : Instr.wf (.mts a0 a1 a2) = true) : fld (encode (.mts a0 a1 a2)) 56 8 = 0xC5 ∧ decode (encode (.mts a0 a1 a2)) = .ok (.mts a0 a1 a2) := by
  have hwf := hw
  replace hw : (Wf.com false a0 && a1 ≤ 2 && Wf.read false a2) = true := hw
  simp only [Bool.and_eq_true] at hw
  obtain ⟨⟨h0, h1⟩, h2⟩ := hw
  have qc := Enc.com_ok h0
  have q0 := Enc.src_ok h2
  try simp at h1
  rw [show encode (.mts a0 a1 a2) = Enc.fmtS 0xC5 a0 511 (Enc.src a2) 511 a1 from rfl]
  obtain ⟨f1, f2, f3, f4, f5, f6, f7, f8, f9⟩ := Enc.fmtS_fields 0xC5 a0 511 (Enc.src a2) 511 a1 (by decide) qc (by omega) (by omega) (by omega) (by omega)
  generalize Enc.fmtS 0xC5 a0 511 (Enc.src a2) 511 a1 = w at *
  refine ⟨f1, Enc.decode_of f1 (by decide) f2 ?_ hwf⟩
  unfold Dec.parse
  rw [f1]
  simp [Dec.system, Dec.need, f3, f4, f5, f6, f7, f8, f9, Enc.bit00, Enc.bit10, Dec.index, Dec.gindex, Dec.scrRest, Dec.vreg, Enc.kreg_add, Enc.rnd0, Enc.ty1, Enc.ty4, Enc.ty5, q0.2, h1]

theorem tlbinvRange (a0 : Com) (a1 : Src) (a2 : Src) (hw : Instr.wf (.tlbinvRange a0 a1 a2) = true) : fld (encode (.tlbinvRange a0 a1 a2)) 56 8 = 0xC6 ∧ decode (encode (.tlbinvRange a0 a1 a2)) = .ok (.tlbinvRange a0 a1 a2) := by
  have hwf := hw
  replace hw : (Wf.com false a0 && Wf.addr a1 && Wf.read true a2) = true := hw
  simp only [Bool.and_eq_true] at hw
  obtain ⟨⟨h0, h1⟩, h2⟩ := hw
  have qc := Enc.com_ok h0
  have q0 := Enc.addr_ok h1
  have q1 := Enc.src_ok h2
  rw [show encode (.tlbinvRange a0 a1 a2) = Enc.fmtS 0xC6 a0 511 (Enc.src a1) (Enc.src a2) 0 from rfl]
  obtain ⟨f1, f2, f3, f4, f5, f6, f7, f8, f9⟩ := Enc.fmtS_fields 0xC6 a0 511 (Enc.src a1) (Enc.src a2) 0 (by decide) qc (by omega) (by omega) (by omega) (by omega)
  generalize Enc.fmtS 0xC6 a0 511 (Enc.src a1) (Enc.src a2) 0 = w at *
  refine ⟨f1, Enc.decode_of f1 (by decide) f2 ?_ hwf⟩
  unfold Dec.parse
  rw [f1]
  simp [Dec.system, Dec.need, f3, f4, f5, f6, f7, f8, f9, Enc.bit00, Enc.bit10, Dec.index, Dec.gindex, Dec.scrRest, Dec.vreg, Enc.kreg_add, Enc.rnd0, Enc.ty1, Enc.ty4, Enc.ty5, q0.2, q1.2]

theorem tlbinvCtx (a0 : Com) (hw : Instr.wf (.tlbinvCtx a0) = true) : fld (encode (.tlbinvCtx a0)) 56 8 = 0xC6 ∧ decode (encode (.tlbinvCtx a0)) = .ok (.tlbinvCtx a0) := by
  have hwf := hw
  replace hw : (Wf.com false a0) = true := hw
  have h0 := hw
  have qc := Enc.com_ok h0
  rw [show encode (.tlbinvCtx a0) = Enc.fmtS 0xC6 a0 511 511 511 1 from rfl]
  obtain ⟨f1, f2, f3, f4, f5, f6, f7, f8, f9⟩ := Enc.fmtS_fields 0xC6 a0 511 511 511 1 (by decide) qc (by omega) (by omega) (by omega) (by omega)
  generalize Enc.fmtS 0xC6 a0 511 511 511 1 = w at *
  refine ⟨f1, Enc.decode_of f1 (by decide) f2 ?_ hwf⟩
  unfold Dec.parse
  rw [f1]
  simp [Dec.system, Dec.need, f3, f4, f5, f6, f7, f8, f9, Enc.bit00, Enc.bit10, Dec.index, Dec.gindex, Dec.scrRest, Dec.vreg, Enc.kreg_add, Enc.rnd0, Enc.ty1, Enc.ty4, Enc.ty5]

theorem splinter (a0 : Com) (a1 : Nat) (a2 : Src) (a3 : Src) (hw : Instr.wf (.splinter a0 a1 a2 a3) = true) : fld (encode (.splinter a0 a1 a2 a3)) 56 8 = 0xC7 ∧ decode (encode (.splinter a0 a1 a2 a3)) = .ok (.splinter a0 a1 a2 a3) := by
  have hwf := hw
  replace hw : (Wf.com false a0 && Wf.pd a1 && Wf.addr a2 && Wf.addr a3) = true := hw
  simp only [Bool.and_eq_true] at hw
  obtain ⟨⟨⟨h0, h1⟩, h2⟩, h3⟩ := hw
  have qc := Enc.com_ok h0
  simp only [Wf.pd, decide_eq_true_eq] at h1
  have q0 := Enc.addr_ok h2
  have q1 := Enc.addr_ok h3
  rw [show encode (.splinter a0 a1 a2 a3) = Enc.fmtS 0xC7 a0 a1 (Enc.src a2) (Enc.src a3) 0 from rfl]
  obtain ⟨f1, f2, f3, f4, f5, f6, f7, f8, f9⟩ := Enc.fmtS_fields 0xC7 a0 a1 (Enc.src a2) (Enc.src a3) 0 (by decide) qc (by omega) (by omega) (by omega) (by omega)
  generalize Enc.fmtS 0xC7 a0 a1 (Enc.src a2) (Enc.src a3) 0 = w at *
  refine ⟨f1, Enc.decode_of f1 (by decide) f2 ?_ hwf⟩
  unfold Dec.parse
  rw [f1]
  simp [Dec.system, Dec.need, f3, f4, f5, f6, f7, f8, f9, Enc.bit00, Enc.bit10, Dec.index, Dec.gindex, Dec.scrRest, Dec.vreg, Enc.kreg_add, Enc.rnd0, Enc.ty1, Enc.ty4, Enc.ty5, q0.2, q1.2, h1]

theorem brkpt (a0 : Com) (hw : Instr.wf (.brkpt a0) = true) : fld (encode (.brkpt a0)) 56 8 = 0xD0 ∧ decode (encode (.brkpt a0)) = .ok (.brkpt a0) := by
  have hwf := hw
  replace hw : (Wf.com false a0) = true := hw
  have h0 := hw
  have qc := Enc.com_ok h0
  rw [show encode (.brkpt a0) = Enc.fmtS 0xD0 a0 511 511 511 0 from rfl]
  obtain ⟨f1, f2, f3, f4, f5, f6, f7, f8, f9⟩ := Enc.fmtS_fields 0xD0 a0 511 511 511 0 (by decide) qc (by omega) (by omega) (by omega) (by omega)
  generalize Enc.fmtS 0xD0 a0 511 511 511 0 = w at *
  refine ⟨f1, Enc.decode_of f1 (by decide) f2 ?_ hwf⟩
  have g0 : fld 0 0 2 = 0 := by unfold fld; omega
  have g1 : fld 0 2 19 = 0 := by unfold fld; omega
  unfold Dec.parse
  rw [f1]
  simp [Dec.system, Dec.need, f3, f4, f5, f6, f7, f8, f9, Enc.bit00, Enc.bit10, Dec.index, Dec.gindex, Dec.scrRest, Dec.vreg, Enc.kreg_add, Enc.rnd0, Enc.ty1, Enc.ty4, Enc.ty5, g0, g1]

theorem brkptWset (a0 : Com) (a1 : Nat) (a2 : WatchKind) (a3 : Src) (a4 : Src) (hw : Instr.wf (.brkptWset a0 a1 a2 a3 a4) = true) : fld (encode (.brkptWset a0 a1 a2 a3 a4)) 56 8 = 0xD0 ∧ decode (encode (.brkptWset a0 a1 a2 a3 a4)) = .ok (.brkptWset a0 a1 a2 a3 a4) := by
  have hwf := hw
  replace hw : (Wf.com false a0 && a1 < 4 && Wf.addr a3 && Wf.read true a4) = true := hw
  simp only [Bool.and_eq_true] at hw
  obtain ⟨⟨⟨h0, h1⟩, h2⟩, h3⟩ := hw
  have qc := Enc.com_ok h0
  have q0 := Enc.addr_ok h2
  have q1 := Enc.src_ok h3
  try simp at h1
  have q2 := Enc.watchKind_ok a2
  rw [show encode (.brkptWset a0 a1 a2 a3 a4) = Enc.fmtS 0xD0 a0 511 (Enc.src a3) (Enc.src a4) (1 + 4 * a1 + 16 * Enc.watchKind a2) from rfl]
  obtain ⟨f1, f2, f3, f4, f5, f6, f7, f8, f9⟩ := Enc.fmtS_fields 0xD0 a0 511 (Enc.src a3) (Enc.src a4) (1 + 4 * a1 + 16 * Enc.watchKind a2) (by decide) qc (by omega) (by omega) (by omega) (by omega)
  generalize Enc.fmtS 0xD0 a0 511 (Enc.src a3) (Enc.src a4) (1 + 4 * a1 + 16 * Enc.watchKind a2) = w at *
  refine ⟨f1, Enc.decode_of f1 (by decide) f2 ?_ hwf⟩
  have g0 : fld (1 + 4 * a1 + 16 * Enc.watchKind a2) 0 2 = 1 := by have := (Enc.watchKind_ok a2).1; unfold fld; omega
  have g1 : fld (1 + 4 * a1 + 16 * Enc.watchKind a2) 6 15 = 0 := by have := (Enc.watchKind_ok a2).1; unfold fld; omega
  have g2 : fld (1 + 4 * a1 + 16 * Enc.watchKind a2) 4 2 = Enc.watchKind a2 := by have := (Enc.watchKind_ok a2).1; unfold fld; omega
  have g3 : fld (1 + 4 * a1 + 16 * Enc.watchKind a2) 2 2 = a1 := by have := (Enc.watchKind_ok a2).1; unfold fld; omega
  unfold Dec.parse
  rw [f1]
  simp [Dec.system, Dec.need, f3, f4, f5, f6, f7, f8, f9, Enc.bit00, Enc.bit10, Dec.index, Dec.gindex, Dec.scrRest, Dec.vreg, Enc.kreg_add, Enc.rnd0, Enc.ty1, Enc.ty4, Enc.ty5, q0.2, q1.2, q2.2, h1, g0, g1, g2, g3]

theorem brkptWclr (a0 : Com) (a1 : Nat) (hw : Instr.wf (.brkptWclr a0 a1) = true) : fld (encode (.brkptWclr a0 a1)) 56 8 = 0xD0 ∧ decode (encode (.brkptWclr a0 a1)) = .ok (.brkptWclr a0 a1) := by
  have hwf := hw
  replace hw : (Wf.com false a0 && a1 < 4) = true := hw
  simp only [Bool.and_eq_true] at hw
  obtain ⟨h0, h1⟩ := hw
  have qc := Enc.com_ok h0
  try simp at h1
  rw [show encode (.brkptWclr a0 a1) = Enc.fmtS 0xD0 a0 511 511 511 (2 + 4 * a1) from rfl]
  obtain ⟨f1, f2, f3, f4, f5, f6, f7, f8, f9⟩ := Enc.fmtS_fields 0xD0 a0 511 511 511 (2 + 4 * a1) (by decide) qc (by omega) (by omega) (by omega) (by omega)
  generalize Enc.fmtS 0xD0 a0 511 511 511 (2 + 4 * a1) = w at *
  refine ⟨f1, Enc.decode_of f1 (by decide) f2 ?_ hwf⟩
  have g0 : fld (2 + 4 * a1) 0 2 = 2 := by unfold fld; omega
  have g1 : fld (2 + 4 * a1) 4 17 = 0 := by unfold fld; omega
  have g2 : fld (2 + 4 * a1) 2 2 = a1 := by unfold fld; omega
  unfold Dec.parse
  rw [f1]
  simp [Dec.system, Dec.need, f3, f4, f5, f6, f7, f8, f9, Enc.bit00, Enc.bit10, Dec.index, Dec.gindex, Dec.scrRest, Dec.vreg, Enc.kreg_add, Enc.rnd0, Enc.ty1, Enc.ty4, Enc.ty5, h1, g0, g1, g2]

theorem haltallStop (a0 : Com) (hw : Instr.wf (.haltallStop a0) = true) : fld (encode (.haltallStop a0)) 56 8 = 0xD1 ∧ decode (encode (.haltallStop a0)) = .ok (.haltallStop a0) := by
  have hwf := hw
  replace hw : (Wf.com false a0) = true := hw
  have h0 := hw
  have qc := Enc.com_ok h0
  rw [show encode (.haltallStop a0) = Enc.fmtS 0xD1 a0 511 511 511 0 from rfl]
  obtain ⟨f1, f2, f3, f4, f5, f6, f7, f8, f9⟩ := Enc.fmtS_fields 0xD1 a0 511 511 511 0 (by decide) qc (by omega) (by omega) (by omega) (by omega)
  generalize Enc.fmtS 0xD1 a0 511 511 511 0 = w at *
  refine ⟨f1, Enc.decode_of f1 (by decide) f2 ?_ hwf⟩
  unfold Dec.parse
  rw [f1]
  simp [Dec.system, Dec.need, f3, f4, f5, f6, f7, f8, f9, Enc.bit00, Enc.bit10, Dec.index, Dec.gindex, Dec.scrRest, Dec.vreg, Enc.kreg_add, Enc.rnd0, Enc.ty1, Enc.ty4, Enc.ty5]

theorem haltallGo (a0 : Com) (hw : Instr.wf (.haltallGo a0) = true) : fld (encode (.haltallGo a0)) 56 8 = 0xD1 ∧ decode (encode (.haltallGo a0)) = .ok (.haltallGo a0) := by
  have hwf := hw
  replace hw : (Wf.com false a0) = true := hw
  have h0 := hw
  have qc := Enc.com_ok h0
  rw [show encode (.haltallGo a0) = Enc.fmtS 0xD1 a0 511 511 511 1 from rfl]
  obtain ⟨f1, f2, f3, f4, f5, f6, f7, f8, f9⟩ := Enc.fmtS_fields 0xD1 a0 511 511 511 1 (by decide) qc (by omega) (by omega) (by omega) (by omega)
  generalize Enc.fmtS 0xD1 a0 511 511 511 1 = w at *
  refine ⟨f1, Enc.decode_of f1 (by decide) f2 ?_ hwf⟩
  unfold Dec.parse
  rw [f1]
  simp [Dec.system, Dec.need, f3, f4, f5, f6, f7, f8, f9, Enc.bit00, Enc.bit10, Dec.index, Dec.gindex, Dec.scrRest, Dec.vreg, Enc.kreg_add, Enc.rnd0, Enc.ty1, Enc.ty4, Enc.ty5]

theorem undo (a0 : Com) (a1 : Option Nat) (a2 : Src) (hw : Instr.wf (.undo a0 a1 a2) = true) : fld (encode (.undo a0 a1 a2)) 56 8 = 0xD2 ∧ decode (encode (.undo a0 a1 a2)) = .ok (.undo a0 a1 a2) := by
  have hwf := hw
  replace hw : (Wf.com false a0 && Wf.opt Wf.pd a1 && Wf.addr a2) = true := hw
  simp only [Bool.and_eq_true] at hw
  obtain ⟨⟨h0, h1⟩, h2⟩ := hw
  have qc := Enc.com_ok h0
  have q0 := Enc.pdOpt_ok h1
  have q1 := Enc.addr_ok h2
  rw [show encode (.undo a0 a1 a2) = Enc.fmtS 0xD2 a0 (Enc.pdOpt a1) (Enc.src a2) 511 0 from rfl]
  obtain ⟨f1, f2, f3, f4, f5, f6, f7, f8, f9⟩ := Enc.fmtS_fields 0xD2 a0 (Enc.pdOpt a1) (Enc.src a2) 511 0 (by decide) qc (by omega) (by omega) (by omega) (by omega)
  generalize Enc.fmtS 0xD2 a0 (Enc.pdOpt a1) (Enc.src a2) 511 0 = w at *
  refine ⟨f1, Enc.decode_of f1 (by decide) f2 ?_ hwf⟩
  unfold Dec.parse
  rw [f1]
  simp [Dec.system, Dec.need, f3, f4, f5, f6, f7, f8, f9, Enc.bit00, Enc.bit10, Dec.index, Dec.gindex, Dec.scrRest, Dec.vreg, Enc.kreg_add, Enc.rnd0, Enc.ty1, Enc.ty4, Enc.ty5, q0.2, q1.2]

theorem stamp (a0 : Com) (a1 : Scope) (a2 : Dst) (hw : Instr.wf (.stamp a0 a1 a2) = true) : fld (encode (.stamp a0 a1 a2)) 56 8 = 0xD3 ∧ decode (encode (.stamp a0 a1 a2)) = .ok (.stamp a0 a1 a2) := by
  have hwf := hw
  replace hw : (Wf.com false a0 && Wf.dst true a2) = true := hw
  simp only [Bool.and_eq_true] at hw
  obtain ⟨h0, h1⟩ := hw
  have qc := Enc.com_ok h0
  have q0 := Enc.dst_ok h1
  have q1 := Enc.scope_ok a1
  rw [show encode (.stamp a0 a1 a2) = Enc.fmtS 0xD3 a0 (Enc.dst a2) 511 511 a1.code from rfl]
  obtain ⟨f1, f2, f3, f4, f5, f6, f7, f8, f9⟩ := Enc.fmtS_fields 0xD3 a0 (Enc.dst a2) 511 511 a1.code (by decide) qc (by omega) (by omega) (by omega) (by omega)
  generalize Enc.fmtS 0xD3 a0 (Enc.dst a2) 511 511 a1.code = w at *
  refine ⟨f1, Enc.decode_of f1 (by decide) f2 ?_ hwf⟩
  have g0 : a1.code < 8 := by cases a1 <;> decide
  unfold Dec.parse
  rw [f1]
  simp [Dec.system, Dec.need, f3, f4, f5, f6, f7, f8, f9, Enc.bit00, Enc.bit10, Dec.index, Dec.gindex, Dec.scrRest, Dec.vreg, Enc.kreg_add, Enc.rnd0, Enc.ty1, Enc.ty4, Enc.ty5, q0.2, q1.2, g0]

theorem bist (a0 : Com) (a1 : Nat) (a2 : Src) (a3 : Src) (a4 : Nat) (hw : Instr.wf (.bist a0 a1 a2 a3 a4) = true) : fld (encode (.bist a0 a1 a2 a3 a4)) 56 8 = 0xD4 ∧ decode (encode (.bist a0 a1 a2 a3 a4)) = .ok (.bist a0 a1 a2 a3 a4) := by
  have hwf := hw
  replace hw : (Wf.com false a0 && Wf.pd a1 && Wf.addr a2 && Wf.read false a3 && a4 < 4) = true := hw
  simp only [Bool.and_eq_true] at hw
  obtain ⟨⟨⟨⟨h0, h1⟩, h2⟩, h3⟩, h4⟩ := hw
  have qc := Enc.com_ok h0
  simp only [Wf.pd, decide_eq_true_eq] at h1
  have q0 := Enc.addr_ok h2
  have q1 := Enc.src_ok h3
  try simp at h4
  rw [show encode (.bist a0 a1 a2 a3 a4) = Enc.fmtS 0xD4 a0 a1 (Enc.src a2) (Enc.src a3) a4 from rfl]
  obtain ⟨f1, f2, f3, f4, f5, f6, f7, f8, f9⟩ := Enc.fmtS_fields 0xD4 a0 a1 (Enc.src a2) (Enc.src a3) a4 (by decide) qc (by omega) (by omega) (by omega) (by omega)
  generalize Enc.fmtS 0xD4 a0 a1 (Enc.src a2) (Enc.src a3) a4 = w at *
  refine ⟨f1, Enc.decode_of f1 (by decide) f2 ?_ hwf⟩
  have g0 : a4 < 16 := by omega
  unfold Dec.parse
  rw [f1]
  simp [Dec.system, Dec.need, f3, f4, f5, f6, f7, f8, f9, Enc.bit00, Enc.bit10, Dec.index, Dec.gindex, Dec.scrRest, Dec.vreg, Enc.kreg_add, Enc.rnd0, Enc.ty1, Enc.ty4, Enc.ty5, q0.2, q1.2, h1, h4, g0]

theorem defmap (a0 : Com) (a1 : Dst) (a2 : Src) (hw : Instr.wf (.defmap a0 a1 a2) = true) : fld (encode (.defmap a0 a1 a2)) 56 8 = 0xD5 ∧ decode (encode (.defmap a0 a1 a2)) = .ok (.defmap a0 a1 a2) := by
  have hwf := hw
  replace hw : (Wf.com false a0 && Wf.dst true a1 && Wf.read false a2) = true := hw
  simp only [Bool.and_eq_true] at hw
  obtain ⟨⟨h0, h1⟩, h2⟩ := hw
  have qc := Enc.com_ok h0
  have q0 := Enc.dst_ok h1
  have q1 := Enc.src_ok h2
  rw [show encode (.defmap a0 a1 a2) = Enc.fmtS 0xD5 a0 (Enc.dst a1) (Enc.src a2) 511 0 from rfl]
  obtain ⟨f1, f2, f3, f4, f5, f6, f7, f8, f9⟩ := Enc.fmtS_fields 0xD5 a0 (Enc.dst a1) (Enc.src a2) 511 0 (by decide) qc (by omega) (by omega) (by omega) (by omega)
  generalize Enc.fmtS 0xD5 a0 (Enc.dst a1) (Enc.src a2) 511 0 = w at *
  refine ⟨f1, Enc.decode_of f1 (by decide) f2 ?_ hwf⟩
  unfold Dec.parse
  rw [f1]
  simp [Dec.system, Dec.need, f3, f4, f5, f6, f7, f8, f9, Enc.bit00, Enc.bit10, Dec.index, Dec.gindex, Dec.scrRest, Dec.vreg, Enc.kreg_add, Enc.rnd0, Enc.ty1, Enc.ty4, Enc.ty5, q0.2, q1.2]

end Sys2Proof.Words
end

