-- ==== Sys2Proof/Laws/Access.lean ====
section
/-! SUPPORT. Accesses of one lane through local memory: what the shared access of the memory instructions comes to where the element is in place. -/

namespace Sys2Proof.Machine
open Sys2Proof.Safe

theorem filter_tt {α : Type} (l : List α) : l.filter (fun _ => true) = l := by
  induction l with
  | nil => rfl
  | cons a t ih => rw [List.filter_cons, if_pos rfl, ih]

theorem filter_ff {α : Type} (l : List α) : l.filter (fun _ => false) = [] := by
  induction l with
  | nil => rfl
  | cons a t ih => rw [List.filter_cons, if_neg (by decide), ih]

/-- Poison stays where accesses are shorter than a sector. -/
theorem clearPoison_short (s : State) (a : Acc) (p : Acc → Bool) (h : a.op.len < 64) : s.clearPoison ([a].filter p) = s := by
  have H : ∀ as : List Acc, (∀ b ∈ as, b = a) → s.clearPoison as = s := by
    intro as has
    unfold State.clearPoison
    split
    · rfl
    · have : ∀ sec, ((upto 64).all (fun i => as.any (fun a => a.pa ≤ 64 * sec + i && 64 * sec + i < a.pa + a.op.len))) = false := by
        intro sec
        rw [Bool.eq_false_iff]
        intro hc
        rw [List.all_eq_true] at hc
        have h0 := hc 0 (by decide)
        have h1 := hc 63 (by decide)
        rw [List.any_eq_true] at h0 h1
        obtain ⟨b, hb, h0⟩ := h0
        obtain ⟨d, hd, h1⟩ := h1
        rw [has b hb] at h0
        rw [has d hd] at h1
        simp only [Bool.and_eq_true, decide_eq_true_eq] at h0 h1
        omega
      simp only [this, Bool.not_false, filter_tt]
  exact H _ (fun b hb => by simpa using (List.mem_filter.1 hb).1)

/-- One access through a local record, in place. -/
theorem access_one (s0 : State) (h : Heat) (nb : Nat → Bool) (nopre strm : Bool) (a : Acc) (p : Nat)
    (hm : Mapped s0 h.key.ctx h.core (a.va / 256 * 256) (if a.op.writes then .write else .read) p)
    (hd : h.debug = false) (hj : h.journal = false) (ht : s0.laneRun h.key a.lane = none) (hl : a.op.len < 64)
    (ho : s0.ownPending h.key ((p + a.va % 256) / 64) = false) (hc : s0.copyOwned ((p + a.va % 256) / 64) = false) :
    s0.access h nb nopre strm [a] =
      { s := (State.nearAccess h ([], s0) { a with pa := p + a.va % 256 }).2.sendReqs h strm (State.nearAccess h ([], s0) { a with pa := p + a.va % 256 }).1 } := by
  have ht' : ∀ b : Acc, b.lane = a.lane → s0.laneRun h.key b.lane = none := fun b hb => hb ▸ ht
  have hu : (if ([a] : List Acc).any (fun a => a.op.writes) then Use.write else Use.read) = if a.op.writes then .write else .read := by simp
  have htr : State.translateAccs h.key.ctx h.core (if a.op.writes then .write else .read) [a] [] s0 =
      ([({ a with pa := p + a.va % 256 }, .ok (p + a.va % 256))], s0) := by
    unfold State.translateAccs
    dsimp only [Tbl.find?]
    rw [translate_mapped hm]
    rfl
  unfold State.access
  dsimp only
  rw [hu, htr]
  dsimp only [List.filterMap_cons, List.filterMap_nil]
  have hch : ∀ pas, s0.unsavedChunks h pas = [] := by
    intro pas; unfold State.unsavedChunks; rw [hj]; rfl
  simp only [hd, Bool.false_and, filter_ff, List.any_nil, Bool.not_false, filter_tt, List.map_cons, List.map_nil, List.any_cons, Bool.or_false, hch, List.append_nil]
  rw [ho, hc]
  simp only [Bool.and_false, Bool.or_false, Bool.false_eq_true, if_false]
  rw [show (if nopre = true then ([] : List Nat) else []) = [] by split <;> rfl]
  have hov : s0.overfull h.key [({ a with pa := p + a.va % 256 } : Acc)] = [] := by
    unfold State.overfull
    rw [show ([({ a with pa := p + a.va % 256 } : Acc)].filterMap (fun a => (s0.laneRun h.key a.lane).map (·.id))) = [] by
      rw [List.filterMap_cons, ht' _ rfl]; rfl]
    rfl
  simp only [hov]
  rw [show (if (if a.op.writes = true then Use.write else Use.read) = Use.write then ([] : List Nat) else []) = [] by split <;> rfl]
  simp only [List.any_nil, Bool.not_false, filter_tt, List.isEmpty_nil, Bool.not_true, Bool.false_eq_true, if_false, List.foldl_cons, List.foldl_nil]
  rw [clearPoison_short _ _ _ (by exact hl)]

/-- What the beginning of a word's operation does to the heat, with one active lane (R121, R123). -/
def lifted (i : Instr) (e : Seen) (l : Nat) (g : Heat) : Heat :=
  if Instr.long i then
    { ((g.flagUp (Seen.flag i e)).updLane l (marked i e)) with kpend := g.kpend ++ (Instr.destK i).map (fun k => (k, Seen.flag i e)) }
  else g

theorem lifted_key (i : Instr) (e : Seen) (l : Nat) (g : Heat) : (lifted i e l g).key = g.key := by
  unfold lifted; split <;> rfl

theorem lifted_core (i : Instr) (e : Seen) (l : Nat) (g : Heat) : (lifted i e l g).core = g.core := by
  unfold lifted; split <;> rfl

theorem mem_modifyAt {α : Type} {f : α → α} {l : List α} {i : Nat} {y : α} (h : y ∈ modifyAt l i f) : y ∈ l ∨ ∃ z ∈ l, y = f z := by
  induction l generalizing i with
  | nil => exact .inl h
  | cons a l ih =>
    cases i with
    | zero =>
      rcases List.mem_cons.1 h with rfl | h
      · exact .inr ⟨a, by simp, rfl⟩
      · exact .inl (by simp [h])
    | succ i =>
      rcases List.mem_cons.1 h with rfl | h
      · exact .inl (by simp)
      · rcases ih h with h | ⟨z, hz, rfl⟩
        · exact .inl (by simp [h])
        · exact .inr ⟨z, by simp [hz], rfl⟩

/-- Beginning a word's operation leaves every lane's state. -/
theorem lifted_lanes {i : Instr} {e : Seen} {l : Nat} {g : Heat} {y : Lane} (h : y ∈ (lifted i e l g).lanes) : ∃ z ∈ g.lanes, y.st = z.st := by
  unfold lifted at h
  split at h
  · rcases mem_modifyAt h with h | ⟨z, hz, rfl⟩
    · exact ⟨y, h, rfl⟩
    · exact ⟨z, hz, rfl⟩
  · exact ⟨y, h, rfl⟩

/-- The part once the word's operation has begun for one lane. -/
def begun (i : Instr) (s : State) (x : Iss) (h : Heat) (l : Nat) : State :=
  { opened i (seen i s x h) l with heats := ((entered s x).updHeat x.key (lifted i (seen i s x h) l)).heats, iss := none }

theorem begin_one {i : Instr} {s : State} {x : Iss} {h : Heat} {l : Nat} (ha : active i x h = [l]) (r : Bool) :
    (envOf i s x h).begin { s := entered s x, irrev := r } = (s.nid, { s := begun i s x h l, irrev := r }) := by
  have e0 := entered_eq s x
  have ha' : (envOf i s x h).act = [l] := ha
  unfold Env.begin begun opened
  rw [ha']
  generalize (entered s x).heats = H at e0
  rw [e0]
  dsimp only [List.isEmpty_cons]
  simp only [Bool.false_eq_true, if_false]
  unfold lifted
  cases hl : Instr.long i
  · have hl' : Instr.long (envOf i s x h).i = false := hl
    simp only [hl', Bool.false_eq_true, if_false]
    rw [State.updHeat_id]
    rfl
  · have hl' : Instr.long (envOf i s x h).i = true := hl
    simp only [hl', if_true]
    unfold Env.mark
    rw [ha']
    show (_, ({ s := (State.updHeat _ _ _).updHeat _ _, irrev := r } : Work)) = _
    rw [State.updHeat_updHeat]
    · simp only [List.isEmpty_cons, Bool.false_eq_true, if_false, List.foldl_cons, List.foldl_nil]
      rfl
    · intro _; rfl

theorem laneRun_none {s : State} {k : HeatKey} {l : Nat} {g : Heat} (h : s.heat? k = some g) (ht : (g.lane l).task = none) : s.laneRun k l = none := by
  unfold State.laneRun State.lane?
  rw [h, Option.bind_some]
  unfold Heat.lane at ht
  cases hl : g.lanes[l]? with
  | none => rfl
  | some y =>
    rw [hl] at ht
    rw [Option.bind_some, show y.task = none from ht]
    rfl

theorem begun_heat {i : Instr} {s : State} {x : Iss} {h : Heat} (hI : Issues i s x h) (l : Nat) :
    (begun i s x h l).heat? x.key = some (lifted i (seen i s x h) l h) := by
  have : (begun i s x h l).heat? x.key = ((entered s x).updHeat x.key (lifted i (seen i s x h) l)).heat? x.key := State.heat?_congr rfl _
  rw [this, State.heat?_updHeat_self _ _ _ (fun g => lifted_key _ _ _ g), hI.heat]
  rfl

theorem lifted_task (i : Instr) (e : Seen) (l m : Nat) (g : Heat) : ((lifted i e l g).lane m).task = (g.lane m).task := by
  unfold lifted
  split
  · show (((g.flagUp (Seen.flag i e)).updLane l (marked i e)).lane m).task = _
    rw [Heat.lane_updLane]
    split <;> rfl
  · rfl

theorem ownPending_congr {s t : State} (h1 : t.reqs = s.reqs) (h2 : t.rels = s.rels) (k : HeatKey) (sec : Nat)
    (h3 : (t.heat? k).map (·.core) = (s.heat? k).map (·.core)) : t.ownPending k sec = s.ownPending k sec := by
  unfold State.ownPending
  rw [h1, h2, h3]

theorem entered_core {s : State} {x : Iss} {h : Heat} (hh : (entered s x).heat? x.key = some h) : (s.heat? x.key).map (·.core) = some h.core := by
  have := entered_field (fun g => g.core) (fun _ _ _ => rfl) s x x.key
  rw [hh] at this
  exact this.symm

theorem accessBy_one {i : Instr} {s : State} {x : Iss} {h : Heat} (hI : Issues i s x h) {l va pa : Nat} {use : Use} (hP : (seen i s x h).Place l use va pa)
    (rcd : Nat) (chk : Nat → Chk) (op : Nat → AccOp) (hc : chk l = .va va) (hcol : recColour rcd = 0) (hrem : recRemote rcd = false)
    (hu : use = if (op l).writes then .write else .read) (hl : (op l).len < 64) (r : Bool) :
    (envOf i s x h).accessBy rcd chk op { s := entered s x, irrev := r } =
      let a : Acc := { lane := l, va := va, pa := pa, op := op l, opId := s.nid, nopre := recNopre rcd, strm := recStream rcd }
      let n := State.nearAccess h ([], begun i s x h l) a
      { s := n.2.sendReqs h (recStream rcd) n.1, irrev := r } := by
  have e0 := entered_eq s x
  have ha : (envOf i s x h).act = [l] := hP.one
  have hkey := State.heat?_key hI.heat
  obtain ⟨p, hm, hpa⟩ := hP.mapped
  have hlist : [l].map (fun l => (l, chk l)) = [(l, Chk.va va)] := by rw [List.map_cons, hc, List.map_nil]
  have hf : (entered s x).freeSlots (envOf i s x h).core ≠ 0 := by
    have := hP.free
    rw [e0]
    exact this
  unfold Env.accessBy
  rw [ha, hlist]
  dsimp only
  rw [show (if recBad rcd = true then 0 else recColour rcd) = 0 by rw [hcol]; split <;> rfl]
  rw [if_neg, begin_one hP.one, if_pos rfl]
  · have hacc : (begun i s x h l).access (envOf i s x h).h (fun l => ((envOf i s x h).h.lane l).noBreak) (recNopre rcd) (recStream rcd)
        [{ lane := l, va := va, op := op l, opId := s.nid, nopre := recNopre rcd, strm := recStream rcd }] = _ := access_one (begun i s x h l) h _ _ _ _ p (by
          show Mapped _ h.key.ctx _ _ (if (op l).writes then .write else .read) _
          rw [← hu, hkey]
          exact Mapped.congr rfl rfl hm) hP.debug hP.journal (laneRun_none (by rw [hkey]; exact begun_heat hI l) (by rw [lifted_task]; exact hP.task)) hl (by
          have := hP.clear
          rw [hpa] at this
          rw [hkey]
          refine Eq.trans ?_ this
          refine ownPending_congr (s := s) (t := begun i s x h l) rfl rfl _ _ ?_
          rw [begun_heat hI]
          refine Eq.trans ?_ (entered_core hI.heat).symm
          show some (lifted _ _ _ _).core = _
          rw [lifted_core]) (by
          have := hP.whole
          rw [hpa] at this
          exact this)
    have hper : (begun i s x h l).perform (envOf i s x h).h (fun l => ((envOf i s x h).h.lane l).noBreak) rcd
        [{ lane := l, va := va, op := op l, opId := s.nid, nopre := recNopre rcd, strm := recStream rcd }] = (begun i s x h l).access (envOf i s x h).h (fun l => ((envOf i s x h).h.lane l).noBreak) (recNopre rcd) (recStream rcd)
        [{ lane := l, va := va, op := op l, opId := s.nid, nopre := recNopre rcd, strm := recStream rcd }] := by
      unfold State.perform
      rw [hrem]
      rfl
    have hw : ∀ R : AccOut, R = (begun i s x h l).perform (envOf i s x h).h (fun l => ((envOf i s x h).h.lane l).noBreak) rcd
        [{ lane := l, va := va, op := op l, opId := s.nid, nopre := recNopre rcd, strm := recStream rcd }] → R.wait = none → R.traps = [] → R.irrevocable = [] →
        (match ((begun i s x h l).perform (envOf i s x h).h (fun l => ((envOf i s x h).h.lane l).noBreak) rcd
          [{ lane := l, va := va, op := op l, opId := s.nid, nopre := recNopre rcd, strm := recStream rcd }]).wait with
        | some chunks => Work.stallWith (envOf i s x h) (fun s => s.beginSaves (envOf i s x h).ctx (envOf i s x h).key.serial chunks)
        | none => (({ { s := begun i s x h l, irrev := r : Work } with s := ((begun i s x h l).perform (envOf i s x h).h (fun l => ((envOf i s x h).h.lane l).noBreak) rcd
          [{ lane := l, va := va, op := op l, opId := s.nid, nopre := recNopre rcd, strm := recStream rcd }]).s } : Work).fail s.nid ((begun i s x h l).perform (envOf i s x h).h (fun l => ((envOf i s x h).h.lane l).noBreak) rcd
          [{ lane := l, va := va, op := op l, opId := s.nid, nopre := recNopre rcd, strm := recStream rcd }]).traps).irrevocably (envOf i s x h) ((begun i s x h l).perform (envOf i s x h).h (fun l => ((envOf i s x h).h.lane l).noBreak) rcd
          [{ lane := l, va := va, op := op l, opId := s.nid, nopre := recNopre rcd, strm := recStream rcd }]).irrevocable) = ({ s := R.s, irrev := r } : Work) := by
      intro R hR h1 h2 h3
      rw [← hR, h1, h2, h3]
      rfl
    refine Eq.trans (hw _ (hper.trans hacc).symm rfl rfl rfl) ?_
    rw [← hpa]
  · have : (1 : Nat) ≤ (entered s x).freeSlots (envOf i s x h).core := by omega
    simp only [decide_true, Bool.true_and, decide_eq_true_eq, Nat.not_lt]
    exact this

/-- A state with other heats and no issue at hand. -/
def withH (b : State) (H : List Heat) : State := { b with heats := H, iss := none }

theorem begun_withH (i : Instr) (s : State) (x : Iss) (h : Heat) (l : Nat) :
    begun i s x h l = withH (opened i (seen i s x h) l) ((entered s x).updHeat x.key (lifted i (seen i s x h) l)).heats := rfl

theorem ask_withH (b : State) (H : List Heat) (d sec : Nat) (own : Bool) : (withH b H).ask d sec own = withH (b.ask d sec own) H := by
  unfold State.ask
  dsimp only
  have : (withH b H).asked = b.asked := rfl
  rw [this]
  split <;> rfl

theorem ask_now (b : State) (d sec : Nat) (own : Bool) : (b.ask d sec own).now = b.now := by
  unfold State.ask
  dsimp only
  split <;> rfl

theorem wanted_withH (d sec : Nat) (own : Bool) (b : State) (H : List Heat) : wanted d sec own (withH b H) = withH (wanted d sec own b) H := by
  unfold wanted
  rw [ask_withH]
  have h1 : (withH b H).owns d sec = b.owns d sec := rfl
  have h2 : (withH b H).readable d sec = b.readable d sec := rfl
  rw [h1, h2]
  generalize (if own = true then b.owns d sec else b.readable d sec) = q
  cases q <;> rfl

theorem wanted_now (d sec : Nat) (own : Bool) (b : State) : (wanted d sec own b).now = b.now := by
  unfold wanted
  generalize (if own = true then b.owns d sec else b.readable d sec) = q
  cases q
  · exact ask_now _ _ _ _
  · rfl

theorem sent_withH (e : Seen) (l va pa r : Nat) (op : AccOp) (own : Bool) (b : State) (H : List Heat) :
    sent e l va pa r op own (withH b H) = withH (sent e l va pa r op own b) H := by
  unfold sent
  dsimp only
  rw [← wanted_withH]
  cases op.atomic <;> rfl

theorem sent_now (e : Seen) (l va pa r : Nat) (op : AccOp) (own : Bool) (b : State) : (sent e l va pa r op own b).now = b.now := by
  unfold sent
  dsimp only
  rw [wanted_now]
  cases op.atomic <;> rfl

theorem foldl_withH {α : Type} (f : State → α → State) (H : List Heat) (hf : ∀ b a, f (withH b H) a = withH (f b a) H) (l : List α) :
    ∀ b, l.foldl f (withH b H) = withH (l.foldl f b) H := by
  induction l with
  | nil => exact fun b => rfl
  | cons a l ih =>
    intro b
    rw [List.foldl_cons, List.foldl_cons, hf, ih]

theorem evictLine_withH (b : State) (H : List Heat) (die line : Nat) : (withH b H).evictLine die line = withH (b.evictLine die line) H := by
  unfold State.evictLine
  rw [show (withH b H).asked = b.asked from rfl]
  split
  · rfl
  · refine foldl_withH _ H (fun b i => ?_) _ b
    dsimp only
    rw [show (withH b H).l2? die (4 * line + i) = b.l2? die (4 * line + i) from rfl]
    cases b.l2? die (4 * line + i) with
    | none => rfl
    | some x =>
      dsimp only
      split
      · split <;> rfl
      · split <;> rfl

theorem l2Write_withH (b : State) (H : List Heat) (die pa : Nat) (bs : List Byte) : (withH b H).l2Write die pa bs = withH (b.l2Write die pa bs) H := by
  have hr : ∀ line, (withH b H).roomL2 die line = withH (b.roomL2 die line) H := by
    intro line
    unfold State.roomL2
    dsimp only
    rw [show (withH b H).l2Lines die = b.l2Lines die from rfl, show (withH b H).asked = b.asked from rfl]
    split
    · rfl
    · rw [show ∀ l : List Nat, (withH b H).anyOf l = b.anyOf l from fun _ => rfl]
      split
      · exact evictLine_withH _ _ _ _
      · rfl
  unfold State.l2Write State.fillL2
  dsimp only
  rw [hr]
  split <;> rfl

theorem writeThrough_withH (b : State) (H : List Heat) (core pa : Nat) (bs : List Byte) :
    (withH b H).writeThrough core pa bs = withH (b.writeThrough core pa bs) H := by
  unfold State.writeThrough
  have h1 : (withH b H).l1Patch core pa bs = withH (b.l1Patch core pa bs) H := by
    unfold State.l1Patch
    have : (withH b H).l1? core (pa / 64) = b.l1? core (pa / 64) := rfl
    rw [this]
    cases b.l1? core (pa / 64) <;> rfl
  rw [h1]
  generalize b.l1Patch core pa bs = q
  have h2 : (withH q H).dieWrite (dieOf core) pa bs = withH (q.dieWrite (dieOf core) pa bs) H := by
    unfold State.dieWrite
    dsimp only
    have e1 : (withH q H).owns (dieOf core) (pa / 64) = q.owns (dieOf core) (pa / 64) := rfl
    have e2 : (withH q H).rwq = q.rwq := rfl
    rw [e1, e2, show ({ withH q H with rwq := q.rwq ++ [{ id := (withH q H).nid, die := dieOf core, pa := pa, bytes := bs }], nid := (withH q H).nid + 1 } : State) =
      withH { q with rwq := q.rwq ++ [{ id := q.nid, die := dieOf core, pa := pa, bytes := bs }], nid := q.nid + 1 } H from rfl, ask_withH]
    rw [l2Write_withH]
    split <;> rfl
  exact h2

theorem storeThrough_withH (b : State) (H : List Heat) (ctx core pa : Nat) (bs : List Byte) :
    (withH b H).storeThrough ctx core pa bs = withH (b.storeThrough ctx core pa bs) H := by
  unfold State.storeThrough
  rw [writeThrough_withH]
  rfl

theorem sendReqs_one {i : Instr} {s : State} {x : Iss} {h : Heat} (hk : h.key = x.key) (s1 : State) (l va pa rcd : Nat) (op : AccOp) (hr : op.releases = false) (hc : op.isCpyw = false) :
    s1.sendReqs h (recStream rcd) [{ lane := l, va := va, pa := pa, op := op, opId := s.nid, nopre := recNopre rcd, strm := recStream rcd }] =
      sent (seen i s x h) l va pa rcd op op.owning s1 := by
  unfold State.sendReqs sent wanted
  simp only [List.filter_cons, List.filter_nil, hr, hc, Bool.false_eq_true, if_false, Bool.not_false, Bool.and_self, if_true, List.map_cons, List.map_nil]
  show (nub [pa / 64]).foldl _ _ = _
  have : ∀ a : Nat, nub [a] = [a] := fun a => rfl
  rw [this, this]
  have hkey : (seen i s x h).x.key = h.key := hk.symm
  rw [hkey]
  simp only [List.foldl_cons, List.foldl_nil, decide_true, if_true, List.any_cons, List.any_nil, Bool.or_false]
  cases ho : op.owning <;> cases ha : op.atomic <;>
    simp only [Bool.false_eq_true, if_false, if_true, List.foldl_cons, List.foldl_nil, Bool.and_false, Bool.and_true, beq_self_eq_true] <;> rfl

/-- An operation of one lane that is over (R121). -/
theorem opDone_at {i : Instr} {s : State} {x : Iss} {h : Heat} {l : Nat} (hf : ∀ o ∈ s.ops, o.id ≠ s.nid) (b : State) (hb : b.ops = (opened i (seen i s x h) l).ops) (H : List Heat) :
    (withH b H).opDone s.nid l =
      (withH { b with ops := s.ops } H).updHeat x.key (fun h1 =>
        let h1 := if h1.busy = some (Busy.result s.nid) then { h1 with busy := none } else h1
        if Instr.long i then h1.flagDown (Seen.flag i (seen i s x h)) else h1) := by
  have hops : (withH b H).ops = s.ops ++ [{ id := s.nid, key := x.key, pc := x.pc, left := [l], blk := some (x.hdrAddr, x.hdr), flag := if Instr.long i then some (Seen.flag i (seen i s x h)) else none, born := s.now }] := hb
  have hfind : ∀ o : Op, o.id = s.nid → (s.ops ++ [o]).find? (fun o => o.id = s.nid) = some o := by
    intro o ho
    rw [List.find?_append, List.find?_eq_none.2 (by simpa using hf)]
    simp [ho]
  have hfilt : ∀ o : Op, o.id = s.nid → (s.ops ++ [o]).filter (fun o => o.id ≠ s.nid) = s.ops := by
    intro o ho
    rw [List.filter_append, List.filter_eq_self.2 (by simpa using hf)]
    simp [ho]
  unfold State.opDone
  rw [hops, hfind _ rfl]
  dsimp only
  simp only [ne_eq, List.filter_cons, not_true_eq_false, decide_false, Bool.false_eq_true, if_false, List.filter_nil, List.isEmpty_nil, Bool.not_true, Bool.or_self]
  have := hfilt { id := s.nid, key := x.key, pc := x.pc, left := [l], blk := some (x.hdrAddr, x.hdr), flag := if Instr.long i then some (Seen.flag i (seen i s x h)) else none, born := s.now } rfl
  simp only [ne_eq] at this
  rw [this]
  cases Instr.long i <;> rfl

/-- The same where the operation did nothing else. -/
theorem opDone_one {i : Instr} {s : State} {x : Iss} {h : Heat} {l : Nat} (hf : ∀ o ∈ s.ops, o.id ≠ s.nid) (H : List Heat) :
    (withH (opened i (seen i s x h) l) H).opDone s.nid l =
      (withH (Seen.over1 (seen i s x h)) H).updHeat x.key (fun h1 =>
        let h1 := if h1.busy = some (Busy.result s.nid) then { h1 with busy := none } else h1
        if Instr.long i then h1.flagDown (Seen.flag i (seen i s x h)) else h1) :=
  opDone_at hf _ rfl H

/-- Bytes written through leave the operations and the clock. -/
theorem writeThrough_keeps (b : State) (core pa : Nat) (bs : List Byte) :
    (b.writeThrough core pa bs).ops = b.ops ∧ (b.writeThrough core pa bs).now = b.now := by
  unfold State.writeThrough
  show (State.dieWrite _ _ _ _).ops = _ ∧ (State.dieWrite _ _ _ _).now = _
  have h1 : (b.l1Patch core pa bs).ops = b.ops ∧ (b.l1Patch core pa bs).now = b.now := by
    unfold State.l1Patch
    split <;> exact ⟨rfl, rfl⟩
  rw [← h1.1, ← h1.2]
  generalize b.l1Patch core pa bs = q
  unfold State.dieWrite
  dsimp only
  split
  · rw [l2Write_eq]
    exact ⟨rfl, rfl⟩
  · refine ⟨?_, ask_now _ _ _ _⟩
    unfold State.ask
    dsimp only
    split <;> rfl

theorem storeThrough_now (b : State) (ctx core pa : Nat) (bs : List Byte) : (b.storeThrough ctx core pa bs).now = b.now :=
  (writeThrough_keeps b core pa bs).2

theorem Checked.local {i : Instr} {s : State} {x : Iss} {h : Heat} {b sz : Nat} {n : Int} {k : AKind} {va : Nat} (hC : (seen i s x h).Checked b sz n k va) :
    check ((envOf i s x h).record b) sz n k = .va va ∧ recColour ((envOf i s x h).record b) = 0 ∧ recRemote ((envOf i s x h).record b) = false := hC

theorem envOf_index (i : Instr) (s : State) (x : Iss) (h : Heat) (m : Index) (l : Nat) : (envOf i s x h).index m l = (seen i s x h).index m l := by
  unfold Env.index Seen.index indexOf
  rw [show src64 (envOf i s x h).base (envOf i s x h).h (envOf i s x h).mask l m.x = _ from envOf_src64 i s x h m.x l,
    show src32 (envOf i s x h).base (envOf i s x h).h (envOf i s x h).mask l m.x = _ from envOf_src32 i s x h m.x l]
  rfl

theorem envOf_gindex (i : Instr) (s : State) (x : Iss) (h : Heat) (g : GIndex) (l : Nat) :
    gindexOf (envOf i s x h).base (envOf i s x h).h (envOf i s x h).mask l g = (seen i s x h).gindex g l := by
  unfold gindexOf Seen.gindex
  rw [show src64 (envOf i s x h).base (envOf i s x h).h (envOf i s x h).mask l g.x = _ from envOf_src64 i s x h g.x l,
    show src32 (envOf i s x h).base (envOf i s x h).h (envOf i s x h).mask l g.x = _ from envOf_src32 i s x h g.x l]
  rfl

/-- A store in place. -/
theorem store_one {i : Instr} {s : State} {x : Iss} {h : Heat} (hI : Issues i s x h) (hlong : Instr.long i = false) {l va pa : Nat} (hP : (seen i s x h).Place l .write va pa)
    (rcd : Nat) (chk : Nat → Chk) (op : Nat → AccOp) (bs : List Byte) (hop : op l = .store bs) (hc : chk l = .va va) (hcol : recColour rcd = 0) (hrem : recRemote rcd = false) (hl : bs.length < 64) :
    (envOf i s x h).accessBy rcd chk op { s := entered s x } =
      { s := withH (sent (seen i s x h) l va pa rcd (.store bs) false ((opened i (seen i s x h) l).storeThrough x.key.ctx h.core pa bs)) (entered s x).heats } := by
  have hkey := State.heat?_key hI.heat
  rw [accessBy_one hI hP rcd chk op hc hcol hrem (by rw [hop]; rfl) (by rw [hop]; exact hl)]
  dsimp only
  rw [hop]
  have hnear : State.nearAccess h ([], begun i s x h l) { lane := l, va := va, pa := pa, op := .store bs, opId := s.nid, nopre := recNopre rcd, strm := recStream rcd } =
      ([{ lane := l, va := va, pa := pa, op := .store bs, opId := s.nid, nopre := recNopre rcd, strm := recStream rcd }], (begun i s x h l).storeThrough x.key.ctx h.core pa bs) := by
    have hrun : (begun i s x h l).laneRun h.key l = none := laneRun_none (by rw [hkey]; exact begun_heat hI l) (by rw [lifted_task]; exact hP.task)
    unfold State.nearAccess
    dsimp only
    rw [hrun]
    dsimp only
    simp only [Bool.false_eq_true, if_false, List.nil_append]
    unfold State.doStore
    dsimp only
    rw [hrun]
    rw [hkey]
  rw [hnear]
  dsimp only
  rw [sendReqs_one hkey _ _ _ _ _ _ rfl rfl, begun_withH, storeThrough_withH, sent_withH]
  congr 2
  unfold lifted
  rw [hlong]
  simp only [Bool.false_eq_true, if_false]
  rw [State.updHeat_id]

theorem toBytes_length (n x : Nat) : (toBytes n x).length = n := by
  induction n generalizing x with
  | zero => rfl
  | succ n ih => unfold toBytes; rw [List.length_cons, ih]

theorem elemBytes_length (y : Lane) (sz d : Nat) (h : sz ≤ 4) : (y.elemBytes sz d).length < 64 := by
  have : (y.elemBytes sz d).length ≤ 2 ^ sz := by
    unfold Lane.elemBytes
    rw [List.length_take]
    exact Nat.min_le_left _ _
  have : 2 ^ sz ≤ 2 ^ 4 := Nat.pow_le_pow_right (by omega) h
  omega

theorem long_ld {c : Com} {sg : Bool} {sz d b : Nat} {m : Index} (hw : Instr.wf (.ld c sg sz d m b) = true) : Instr.long (.ld c sg sz d m b) = true := (long_of (Words.ld c sg sz d m b hw).1).trans rfl

theorem long_ldg {c : Com} {sg : Bool} {sz d b : Nat} {m : GIndex} (hw : Instr.wf (.ldg c sg sz d m b) = true) : Instr.long (.ldg c sg sz d m b) = true := (long_of (Words.ldg c sg sz d m b hw).1).trans rfl

theorem long_st {c : Com} {sg : Bool} {sz d b : Nat} {m : Index} (hw : Instr.wf (.st c sg sz d m b) = true) : Instr.long (.st c sg sz d m b) = false := (long_of (Words.st c sg sz d m b hw).1).trans rfl

theorem long_stg {c : Com} {sg : Bool} {sz d b : Nat} {m : GIndex} (hw : Instr.wf (.stg c sg sz d m b) = true) : Instr.long (.stg c sg sz d m b) = false := (long_of (Words.stg c sg sz d m b hw).1).trans rfl

theorem long_strel {c : Com} {sz b : Nat} {sc : Scope} {v : Src} {m : Index} (hw : Instr.wf (.strel c sz sc v m b) = true) : Instr.long (.strel c sz sc v m b) = false := (long_of (Words.strel c sz sc v m b hw).1).trans rfl

/-- A word that stores one lane's bytes. -/
theorem stores_one {i : Instr} {P : Seen → Prop} {U : Seen → State} (body : Env → Work → Work) (hi : ∀ s, exec i s = issue i s body) (hlong : i.wf = true → Instr.long i = false)
    (l va pa : Nat) (b : Nat) (bytes : Seen → List Byte) (hU : U = fun e => sent e l va pa (e.rcd b) (.store (bytes e)) false ((opened i e l).storeThrough e.x.key.ctx e.h.core pa (bytes e)))
    (hb : ∀ s x h, Issues i s x h → P (seen i s x h) → (seen i s x h).Place l .write va pa ∧ (bytes (seen i s x h)).length < 64 ∧ recColour (h.b256 b) = 0 ∧ recRemote (h.b256 b) = false ∧
      ∃ chk op, body (envOf i s x h) { s := entered s x } = (envOf i s x h).accessBy (h.b256 b) chk op { s := entered s x } ∧ chk l = .va va ∧ op l = .store (bytes (seen i s x h))) :
    ActsOn i P U := by
  refine actsOn_of body hi (fun s x h hI hP => ?_)
  obtain ⟨h1, h2, h3, h4, chk, op, h5, h6, h7⟩ := hb s x h hI hP
  refine ⟨_, h5.trans (store_one hI (hlong (Issues_wf hI)) h1 _ chk op _ h7 h6 h3 h4 h2), rfl, rfl, rfl, ?_⟩
  have hn : (U (seen i s x h)).now = s.now := by
    rw [hU]
    exact (sent_now _ _ _ _ _ _ _ _).trans (storeThrough_now _ _ _ _ _)
  rw [← hn, hU]
  rfl

theorem irrevocable_none {i : Instr} {s : State} {x : Iss} {h : Heat} (hI : Issues i s x h) {l va pa : Nat} {use : Use} (hP : (seen i s x h).Place l use va pa) (w : Work) (hw : w.s = entered s x) (body : Env → Work → Work) :
    (envOf i s x h).irrevocable w body = body (envOf i s x h) w := by
  have ha : (envOf i s x h).act = [l] := hP.one
  have hr : (envOf i s x h).revocable w.s = [] := by
    unfold Env.revocable
    rw [ha, hw, List.filterMap_cons, laneRun_none (k := (envOf i s x h).key) hI.heat hP.task]
    rfl
  unfold Env.irrevocable
  rw [hr]
  rfl

/-- The end of an operation on its heat (R121). -/
def lowered (i : Instr) (e : Seen) (g : Heat) : Heat :=
  let g := if g.busy = some (Busy.result e.s.nid) then { g with busy := none } else g
  if Instr.long i then g.flagDown (Seen.flag i e) else g

theorem lowered_key (i : Instr) (e : Seen) (g : Heat) : (lowered i e g).key = g.key := by
  unfold lowered
  dsimp only
  split <;> split <;> rfl

theorem lowered_idle {i : Instr} {e : Seen} {g : Heat} (hb : g.busy = none) (hl : Instr.long i = true) : lowered i e g = g.flagDown (Seen.flag i e) := by
  have : ¬ (g.busy = some (Busy.result e.s.nid)) := by rw [hb]; simp
  simp only [lowered, this, if_false, hl, if_true]

/-- A register write and the end of the word's operation, at issue. -/
theorem done_one {i : Instr} {s : State} {x : Iss} {h : Heat} {l : Nat} (hf : ∀ o ∈ s.ops, o.id ≠ s.nid) (set : Heat → Heat) (hk : ∀ g, (set g).key = g.key) :
    ((begun i s x h l).updHeat x.key set).opDone s.nid l =
      withH (Seen.over1 (seen i s x h)) ((entered s x).updHeat x.key (fun g => lowered i (seen i s x h) (set (lifted i (seen i s x h) l g)))).heats := by
  have h1 : (begun i s x h l).updHeat x.key set = withH (opened i (seen i s x h) l) ((entered s x).updHeat x.key (fun g => set (lifted i (seen i s x h) l g))).heats := by
    rw [begun_withH]
    have := State.updHeat_updHeat (entered s x) x.key (lifted i (seen i s x h) l) set (fun g => lifted_key _ _ _ g)
    rw [← this]
    rfl
  rw [h1, opDone_one hf]
  have := State.updHeat_updHeat (entered s x) x.key (fun g => set (lifted i (seen i s x h) l g)) (lowered i (seen i s x h)) (fun g => by rw [hk, lifted_key])
  rw [← this]
  rfl

/-- What a lane's access reads near it. -/
theorem nearRead_none {s1 : State} {k : HeatKey} {core : Nat} {a : Acc} (hr : s1.laneRun k a.lane = none) :
    s1.nearRead k core a = (s1.l1? core (a.pa / 64)).map (fun d => (d.drop (a.pa % 64)).take a.op.len) := by
  unfold State.nearRead
  rw [hr]
  rfl

/-- A load served by the L1, or left for a request. -/
theorem load_near {i : Instr} {s : State} {x : Iss} {h : Heat} (hI : Issues i s x h) {l va pa : Nat} (hP : (seen i s x h).Place l .read va pa) (op : AccOp) (set : Nat → Heat → Heat) (id : Nat) (nop strm : Bool)
    (hop : (∃ sg sz d, op = .load sg sz d ∧ set = fun v g => g.setElem l sg sz d v) ∨
      (∃ sz d, op = .loadDst sz (some d) false ∧ set = fun v g => g.setDst (sz == 3) l d v) ∨ (∃ sz, op = .loadDst sz none false ∧ set = fun _ g => g)) :
    let a : Acc := { lane := l, va := va, pa := pa, op := op, opId := id, nopre := nop, strm := strm }
    State.nearAccess h ([], begun i s x h l) a =
      match s.l1? h.core (pa / 64) with
      | some d => ([], ((begun i s x h l).updHeat x.key (set (ofBytes ((d.drop (pa % 64)).take op.len)))).opDone id l)
      | none => ([a], begun i s x h l) := by
  intro a
  have hkey := State.heat?_key hI.heat
  have hrun : (begun i s x h l).laneRun h.key l = none := laneRun_none (by rw [hkey]; exact begun_heat hI l) (by rw [lifted_task]; exact hP.task)
  have hsig : (begun i s x h l).readSig h.key l pa = begun i s x h l := by unfold State.readSig; rw [hrun]
  have hn : (begun i s x h l).nearRead h.key h.core a = (s.l1? h.core (pa / 64)).map (fun d => (d.drop (pa % 64)).take op.len) := nearRead_none hrun
  have key : State.nearAccess h ([], begun i s x h l) a = match (begun i s x h l).nearRead h.key h.core a with
      | some bs => ([], (begun i s x h l).finishLoad h.key a bs)
      | none => ([a], begun i s x h l) := by
    rcases hop with ⟨sg, sz, d, rfl, rfl⟩ | ⟨sz, d, rfl, rfl⟩ | ⟨sz, rfl, rfl⟩
    all_goals
      unfold State.nearAccess
      dsimp only [a]
      rw [hsig]
      rfl
  rw [key, hn]
  cases s.l1? h.core (pa / 64) with
  | none => rfl
  | some d =>
    rw [Option.map_some]
    dsimp only
    unfold State.finishLoad
    rcases hop with ⟨sg, sz, d, rfl, rfl⟩ | ⟨sz, d, rfl, rfl⟩ | ⟨sz, rfl, rfl⟩
    · rw [hkey]
    · rw [hkey]
    · dsimp only
      rw [State.updHeat_id]

theorem modifyAt_id {α : Type} (ls : List α) (l : Nat) : modifyAt ls l (fun y => y) = ls := by
  apply List.ext_getElem?
  intro j
  rw [getElem?_modifyAt]
  split <;> simp

/-- The heat after a long-latency word of one lane: what `set` writes to the heat and to the lane. -/
structure Sets (set heatF : Heat → Heat) (laneF : Lane → Lane) (l : Nat) : Prop where
  eq : ∀ g, set g = (heatF g).updLane l laneF
  key : ∀ g, (heatF g).key = g.key
  busy : ∀ g, (heatF g).busy = g.busy
  lanes : ∀ (g : Heat) ls, heatF { g with lanes := ls } = { heatF g with lanes := ls }
  st : ∀ y, (laneF y).st = y.st

theorem Sets.dst (w : Bool) (d : Dst) (v l : Nat) : Sets (fun g => g.setDst w l d v) (heatTakes w (some d) v) (laneTakes w (some d) v) l := by
  cases d with
  | v n =>
    refine ⟨fun g => rfl, fun _ => rfl, fun _ => rfl, fun _ _ => rfl, fun y => ?_⟩
    unfold laneTakes
    cases w <;> rfl
  | k n =>
    refine ⟨fun g => ?_, fun _ => rfl, fun _ => rfl, fun _ _ => rfl, fun y => rfl⟩
    unfold laneTakes heatTakes Heat.setDst Heat.updLane
    show Heat.setK _ _ _ = { Heat.setK _ _ _ with lanes := modifyAt g.lanes l (fun y => y) }
    rw [modifyAt_id]
    cases w <;> rfl

theorem Sets.elem (sg : Bool) (sz d v l : Nat) : Sets (fun g => g.setElem l sg sz d v) (fun g => g) (setElem sg sz d v) l := by
  refine ⟨fun g => rfl, fun _ => rfl, fun _ => rfl, fun _ _ => rfl, fun y => ?_⟩
  unfold setElem
  split
  · rfl
  · generalize List.range (2 ^ (sz - 2)) = ls
    induction ls generalizing y with
    | nil => rfl
    | cons a t ih => rw [List.foldl_cons, ih]; rfl

/-- A long-latency word that is over at issue. -/
theorem closed_acts {i : Instr} {P : Seen → Prop} {U : Seen → State} {F : Seen → Nat → Lane → Lane} {G : Seen → Heat} (body : Env → Work → Work) (hi : ∀ s, exec i s = issue i s body) (hlong : i.wf = true → Instr.long i = true)
    (l : Nat) (set heatF : Seen → Heat → Heat) (laneF : Seen → Lane → Lane) (hset : ∀ e, Sets (set e) (heatF e) (laneF e) l)
    (hG : G = fun e => (heatF e (raised i e)).flagDown (Seen.flag i e)) (hF : F = fun e _ y => (laneF e (marked i e y)).advance)
    (hb : ∀ s x h, Issues i s x h → P (seen i s x h) → active i x h = [l] ∧ h.busy = none ∧ (U (seen i s x h)).now = s.now ∧ ∃ r,
      body (envOf i s x h) { s := entered s x } = { s := withH (U (seen i s x h)) ((entered s x).updHeat x.key (fun g => lowered i (seen i s x h) (set (seen i s x h) (lifted i (seen i s x h) l g)))).heats, irrev := r }) :
    Acts i P U G F := by
  refine acts_upd body hi (fun s x h hI hP => ?_)
  obtain ⟨h1, h2, h3, r, h4⟩ := hb s x h hI hP
  have hS := hset (seen i s x h)
  have hl := hlong (Issues_wf hI)
  have hr : raised i (seen i s x h) = { h.flagUp (Seen.flag i (seen i s x h)) with kpend := h.kpend ++ (Instr.destK i).map (fun k => (k, Seen.flag i (seen i s x h))) } := rfl
  have hlift : lifted i (seen i s x h) l h = { raised i (seen i s x h) with lanes := modifyAt h.lanes l (marked i (seen i s x h)) } := by
    unfold lifted
    rw [if_pos hl]
    rfl
  have hlan : ∀ g : Heat, (heatF (seen i s x h) g).lanes = g.lanes := fun g => (congrArg (fun q : Heat => q.lanes) (hS.lanes g g.lanes) :)
  have hf : lowered i (seen i s x h) (set (seen i s x h) (lifted i (seen i s x h) l h)) =
      { (heatF (seen i s x h) (raised i (seen i s x h))).flagDown (Seen.flag i (seen i s x h)) with
        lanes := ((h.updLane l (marked i (seen i s x h))).updLane l (laneF (seen i s x h))).lanes } := by
    have hb2 : (set (seen i s x h) (lifted i (seen i s x h) l h)).busy = none := by
      rw [hS.eq, hlift]
      show (heatF _ _).busy = none
      rw [hS.busy]
      exact h2
    rw [lowered_idle hb2 hl, hS.eq, hlift, hS.lanes]
    rfl
  have hact : ∀ y, y ∈ active i x h ↔ y = l := by intro y; rw [h1]; simp
  have hlane : ∀ m, ((lowered i (seen i s x h) (set (seen i s x h) (lifted i (seen i s x h) l h))).lane m) =
      (if m = l ∧ m < h.lanes.length then laneF (seen i s x h) (marked i (seen i s x h) (h.lane m)) else h.lane m) := by
    intro m
    rw [hf]
    show ((h.updLane l (marked i (seen i s x h))).updLane l (laneF (seen i s x h))).lane m = _
    rw [Heat.lane_updLane, Heat.lane_updLane, Heat.length_updLane]
    by_cases hm : m = l ∧ m < h.lanes.length
    · rw [if_pos hm, if_pos hm, if_pos hm]
    · rw [if_neg hm, if_neg hm, if_neg hm]
  refine ⟨_, fun g => lowered i (seen i s x h) (set (seen i s x h) (lifted i (seen i s x h) l g)), h4, rfl, rfl, ?_, by rw [← h3]; rfl, ?_, ?_, ?_, ?_⟩
  · intro g
    rw [lowered_key, hS.eq]
    exact (hS.key _).trans (lifted_key _ _ _ _)
  · dsimp only
    rw [hf, hG]
  · dsimp only
    rw [hf]
    simp only [Heat.length_updLane]
  · intro m hm
    dsimp only
    rw [hlane]
    have := Issues_live hI m hm
    split
    · rw [hS.st]; exact this
    · exact this
  · intro m hm
    dsimp only
    rw [hlane, hF]
    simp only [hact, List.not_mem_nil, not_false_eq_true, and_true, hm]
    by_cases hml : m = l
    · subst hml
      have : m ∈ x.lanes := (List.mem_filter.1 ((hact m).2 rfl)).1
      simp [this]
    · simp [hml]

/-- A long-latency word served at issue. -/
theorem served_acts {i : Instr} {P : Seen → Prop} {F : Seen → Nat → Lane → Lane} {G : Seen → Heat} (body : Env → Work → Work) (hi : ∀ s, exec i s = issue i s body) (hlong : i.wf = true → Instr.long i = true)
    (l : Nat) (set heatF : Seen → Heat → Heat) (laneF : Seen → Lane → Lane) (hset : ∀ e, Sets (set e) (heatF e) (laneF e) l)
    (hG : G = fun e => (heatF e (raised i e)).flagDown (Seen.flag i e)) (hF : F = fun e _ y => (laneF e (marked i e y)).advance)
    (hb : ∀ s x h, Issues i s x h → P (seen i s x h) → active i x h = [l] ∧ h.busy = none ∧ (∀ o ∈ s.ops, o.id ≠ s.nid) ∧ ∃ r,
      body (envOf i s x h) { s := entered s x } = { s := ((begun i s x h l).updHeat x.key (set (seen i s x h))).opDone s.nid l, irrev := r }) :
    Acts i P Seen.over1 G F := by
  refine closed_acts body hi hlong l set heatF laneF hset hG hF (fun s x h hI hP => ?_)
  obtain ⟨h1, h2, h3, r, h4⟩ := hb s x h hI hP
  refine ⟨h1, h2, rfl, r, h4.trans ?_⟩
  rw [done_one h3 _ (fun g => by rw [(hset _).eq]; exact (hset _).key g)]

/-- A long-latency word whose access is left for a request. -/
theorem sent_acts {i : Instr} {P : Seen → Prop} {U : Seen → State} {F : Seen → Nat → Lane → Lane} {G : Seen → Heat} (body : Env → Work → Work) (hi : ∀ s, exec i s = issue i s body) (hlong : i.wf = true → Instr.long i = true)
    (l : Nat) (extra : Seen → Heat → Heat) (hk : ∀ e g, (extra e g).key = g.key) (hL : ∀ e (g : Heat) ls, extra e { g with lanes := ls } = { extra e g with lanes := ls })
    (hG : G = fun e => extra e (raised i e)) (hF : F = fun e _ y => (marked i e y).advance) (hU : ∀ e, (U e).now = e.s.now)
    (hb : ∀ s x h, Issues i s x h → P (seen i s x h) → active i x h = [l] ∧ ∃ r,
      body (envOf i s x h) { s := entered s x } = { s := withH (U (seen i s x h)) ((entered s x).updHeat x.key (fun g => extra (seen i s x h) (lifted i (seen i s x h) l g))).heats, irrev := r }) :
    Acts i P U G F := by
  refine acts_upd body hi (fun s x h hI hP => ?_)
  obtain ⟨h1, r, h4⟩ := hb s x h hI hP
  have hl := hlong (Issues_wf hI)
  have hlift : lifted i (seen i s x h) l h = { raised i (seen i s x h) with lanes := modifyAt h.lanes l (marked i (seen i s x h)) } := by
    unfold lifted
    rw [if_pos hl]
    rfl
  have hf : extra (seen i s x h) (lifted i (seen i s x h) l h) =
      { extra (seen i s x h) (raised i (seen i s x h)) with lanes := (h.updLane l (marked i (seen i s x h))).lanes } := by
    rw [hlift, hL]
    rfl
  have hact : ∀ y, y ∈ active i x h ↔ y = l := by intro y; rw [h1]; simp
  have hlane : ∀ m, ((extra (seen i s x h) (lifted i (seen i s x h) l h)).lane m) =
      (if m = l ∧ m < h.lanes.length then marked i (seen i s x h) (h.lane m) else h.lane m) := by
    intro m
    rw [hf]
    show (h.updLane l (marked i (seen i s x h))).lane m = _
    rw [Heat.lane_updLane]
  refine ⟨_, fun g => extra (seen i s x h) (lifted i (seen i s x h) l g), h4, rfl, rfl, ?_, ?_, ?_, ?_, ?_, ?_⟩
  · intro g
    rw [hk]
    exact lifted_key _ _ _ _
  · have : (U (seen i s x h)).now = s.now := hU (seen i s x h)
    rw [← this]
    rfl
  · dsimp only
    rw [hf, hG]
  · dsimp only
    rw [hf]
    simp only [Heat.length_updLane]
  · intro m hm
    dsimp only
    rw [hlane]
    have := Issues_live hI m hm
    split <;> exact this
  · intro m hm
    dsimp only
    rw [hlane, hF]
    simp only [hact, List.not_mem_nil, not_false_eq_true, and_true, hm]
    by_cases hml : m = l
    · subst hml
      have : m ∈ x.lanes := (List.mem_filter.1 ((hact m).2 rfl)).1
      simp [this]
    · simp [hml]

theorem sentopened_now (i : Instr) (e : Seen) (l va pa r : Nat) (op : AccOp) (own : Bool) : (sent e l va pa r op own (opened i e l)).now = e.s.now :=
  (sent_now _ _ _ _ _ _ _ _).trans rfl

/-- A load of one lane, served or left. -/
theorem load_one {i : Instr} {s : State} {x : Iss} {h : Heat} (hI : Issues i s x h) {l va pa : Nat} (hP : (seen i s x h).Place l .read va pa)
    (rcd : Nat) (chk : Nat → Chk) (op : Nat → AccOp) (set : Nat → Heat → Heat) (hc : chk l = .va va) (hcol : recColour rcd = 0) (hrem : recRemote rcd = false) (hl : (op l).len < 64)
    (hop : (∃ sg sz d, op l = .load sg sz d ∧ set = fun v g => g.setElem l sg sz d v) ∨
      (∃ sz d, op l = .loadDst sz (some d) false ∧ set = fun v g => g.setDst (sz == 3) l d v) ∨ (∃ sz, op l = .loadDst sz none false ∧ set = fun _ g => g)) (r : Bool) :
    (∀ line, s.l1? h.core (pa / 64) = some line → (envOf i s x h).accessBy rcd chk op { s := entered s x, irrev := r } =
      { s := ((begun i s x h l).updHeat x.key (set (ofBytes ((line.drop (pa % 64)).take (op l).len)))).opDone s.nid l, irrev := r }) ∧
    (s.l1? h.core (pa / 64) = none → (envOf i s x h).accessBy rcd chk op { s := entered s x, irrev := r } =
      { s := withH (sent (seen i s x h) l va pa rcd (op l) false (opened i (seen i s x h) l)) ((entered s x).updHeat x.key (lifted i (seen i s x h) l)).heats, irrev := r }) := by
  have hkey := State.heat?_key hI.heat
  have hw : (op l).writes = false ∧ (op l).releases = false ∧ (op l).isCpyw = false ∧ (op l).owning = false := by
    rcases hop with ⟨sg, sz, d, hq, _⟩ | ⟨sz, d, hq, _⟩ | ⟨sz, hq, _⟩ <;> rw [hq] <;> exact ⟨rfl, rfl, rfl, rfl⟩
  have hA := accessBy_one hI hP rcd chk op hc hcol hrem (by rw [hw.1]; rfl) hl r
  have hn := load_near hI hP (op l) set s.nid (recNopre rcd) (recStream rcd) hop
  dsimp only at hA hn
  rw [hn] at hA
  constructor
  · intro line h1
    rw [hA, h1]
    rfl
  · intro h1
    rw [hA, h1]
    dsimp only
    rw [sendReqs_one hkey _ _ _ _ _ _ hw.2.1 hw.2.2.1, hw.2.2.2, begun_withH, sent_withH]

theorem lowest_one {i : Instr} {s : State} {x : Iss} {h : Heat} {l : Nat} (ha : active i x h = [l]) : (envOf i s x h).lowest = l := by
  unfold Env.lowest
  rw [show (envOf i s x h).act = [l] from ha]
  rfl

theorem laneDst_one {i : Instr} {s : State} {x : Iss} {h : Heat} {l : Nat} (ha : active i x h = [l]) (d : Option Dst) : (envOf i s x h).laneDst d l = d := by
  unfold Env.laneDst
  rw [lowest_one ha]
  cases d with
  | none => rfl
  | some d => cases d <;> simp

theorem sz_len {sz : Nat} (h : sz = 2 ∨ sz = 3) : 2 ^ sz < 64 := by rcases h with rfl | rfl <;> decide

/-- A load with a destination, through the L1. -/
theorem loadDst_acts {i : Instr} {P : Seen → Prop} (body : Env → Work → Work) (hi : ∀ s, exec i s = issue i s body) (hlong : i.wf = true → Instr.long i = true ∧ (sz = 2 ∨ sz = 3))
    (b l va pa : Nat) (d : Dst) (line : List Byte)
    (hb : ∀ s x h, Issues i s x h → P (seen i s x h) → (seen i s x h).Place l .read va pa ∧ recColour (h.b256 b) = 0 ∧ recRemote (h.b256 b) = false ∧ ∃ chk op r,
      body (envOf i s x h) { s := entered s x } = (envOf i s x h).accessBy (h.b256 b) chk op { s := entered s x, irrev := r } ∧ chk l = .va va ∧ op l = .loadDst sz (some d) false) :
    Acts i (fun e => P e ∧ e.s.l1? e.h.core (pa / 64) = some line) Seen.over1
        (fun e => (heatTakes (sz == 3) (some d) (ofBytes ((line.drop (pa % 64)).take (2 ^ sz))) (raised i e)).flagDown (Seen.flag i e))
        (fun e _ y => (laneTakes (sz == 3) (some d) (ofBytes ((line.drop (pa % 64)).take (2 ^ sz))) (marked i e y)).advance) ∧
      Acts i (fun e => P e ∧ e.s.l1? e.h.core (pa / 64) = none)
        (fun e => sent e l va pa (e.rcd b) (.loadDst sz (some d) false) false (opened i e l)) (raised i)
        (fun e _ y => (marked i e y).advance) := by
  constructor
  · refine served_acts body hi (fun hw => (hlong hw).1) l (fun _ g => g.setDst (sz == 3) l d (ofBytes ((line.drop (pa % 64)).take (2 ^ sz)))) (fun _ => heatTakes (sz == 3) (some d) (ofBytes ((line.drop (pa % 64)).take (2 ^ sz)))) (fun _ => laneTakes (sz == 3) (some d) (ofBytes ((line.drop (pa % 64)).take (2 ^ sz))))
      (fun _ => Sets.dst _ _ _ _) rfl rfl (fun s x h hI hP => ?_)
    obtain ⟨h1, h2, h3, chk, op, r, h4, h5, h6⟩ := hb s x h hI hP.1
    refine ⟨h1.one, h1.idle, h1.fresh, r, h4.trans ?_⟩
    have := (load_one hI h1 (h.b256 b) chk op (fun v g => g.setDst (sz == 3) l d v) h5 h2 h3 (by rw [h6]; exact sz_len (hlong (Issues_wf hI)).2) (Or.inr (Or.inl ⟨sz, d, h6, rfl⟩)) r).1 line hP.2
    rw [h6] at this
    exact this
  · refine sent_acts body hi (fun hw => (hlong hw).1) l (fun _ g => g) (fun _ _ => rfl) (fun _ _ _ => rfl) rfl rfl (fun e => sentopened_now _ _ _ _ _ _ _ _) (fun s x h hI hP => ?_)
    obtain ⟨h1, h2, h3, chk, op, r, h4, h5, h6⟩ := hb s x h hI hP.1
    refine ⟨h1.one, r, h4.trans ?_⟩
    have := (load_one hI h1 (h.b256 b) chk op (fun v g => g.setDst (sz == 3) l d v) h5 h2 h3 (by rw [h6]; exact sz_len (hlong (Issues_wf hI)).2) (Or.inr (Or.inl ⟨sz, d, h6, rfl⟩)) r).2 hP.2
    rw [h6] at this
    exact this

/-- An operation of one lane, sent: the heat waits for its result. -/
theorem awaitOp_one {i : Instr} {s : State} {x : Iss} {h : Heat} (hI : Issues i s x h) {l va pa r : Nat} {op : AccOp} {own : Bool} (q : Bool)
    (hq : ∀ y ∈ h.lanes, ∀ c a, y.st = .blocked (.colour c a) → a.opId ≠ s.nid) :
    let H := ((entered s x).updHeat x.key (lifted i (seen i s x h) l)).heats
    Work.awaitOp { s := withH (sent (seen i s x h) l va pa r op own (opened i (seen i s x h) l)) H, irrev := q } (envOf i s x h) s.nid =
      { s := (withH (sent (seen i s x h) l va pa r op own (opened i (seen i s x h) l)) H).updHeat x.key (fun h => { h with busy := some (.result s.nid) }), irrev := q } := by
  intro H
  have hops : (withH (sent (seen i s x h) l va pa r op own (opened i (seen i s x h) l)) H).ops = (opened i (seen i s x h) l).ops := by
    show (sent _ _ _ _ _ _ _ _).ops = _
    have hw : ∀ d sec own (b : State), (wanted d sec own b).ops = b.ops := by
      intro d sec own b
      unfold wanted State.ask
      generalize (if own = true then b.owns d sec else b.readable d sec) = z
      cases z
      · dsimp only
        simp only [Bool.false_eq_true, if_false]
        split <;> rfl
      · rfl
    unfold sent
    dsimp only
    rw [hw]
    split <;> rfl
  have hheat : (withH (sent (seen i s x h) l va pa r op own (opened i (seen i s x h) l)) H).heat? x.key = some (lifted i (seen i s x h) l h) :=
    begun_heat hI l
  unfold Work.awaitOp
  dsimp only
  rw [hops, show (withH (sent (seen i s x h) l va pa r op own (opened i (seen i s x h) l)) H).heat? (envOf i s x h).key = _ from hheat, if_pos]
  · rfl
  · simp only [Option.map_some, Option.getD_some]
    simp [opened, seen]
    intro y hy
    obtain ⟨y', hy', hst⟩ : ∃ y' ∈ h.lanes, y.st = y'.st := lifted_lanes hy
    rw [hst]
    cases hs : y'.st with
    | blocked w => cases w with
      | colour c a => simpa using hq y' hy' c a hs
      | _ => rfl
    | _ => rfl

theorem syncChk_false (wr : Bool) (x : Chk) : syncChk false wr x = x := by
  unfold syncChk
  cases x <;> rfl

theorem syncChk_va {sync wr : Bool} {va : Nat} (h : va % 64 = 0) : syncChk sync wr (.va va) = .va va := by
  unfold syncChk
  simp [h]

theorem unrefused {i : Instr} {s : State} {x : Iss} {h : Heat} {b : Nat} {r : Bool} (h1 : recColour (h.b256 b) = 0) (h2 : recRemote (h.b256 b) = false) :
    syncRefused ((envOf i s x h).record b) r = false := by
  unfold syncRefused
  rw [show (envOf i s x h).record b = h.b256 b from rfl, h1, h2]
  simp

theorem ldacq_sz {c : Com} {sz b : Nat} {sc : Scope} {dst : Dst} {m : Index} (hw : Instr.wf (.ldacq c sz sc dst m b) = true) : sz = 2 ∨ sz = 3 := by
  have hw' : (Wf.com true c && Wf.syncSz sz sc && Wf.dst (Wf.szT sz) dst && Wf.index m && Wf.recReg b) = true := hw
  simp only [Bool.and_eq_true] at hw'
  exact Enc.syncSz_ok hw'.1.1.1.2

end Sys2Proof.Machine
end

