-- ==== Sys2Proof/Laws/Arith.lean ====
section
/-! SUPPORT. Laws of the integer readings and results (R108, R168). -/

namespace Sys2Proof.Machine

theorem sext_emod (x n : Nat) : sext x n % (2 ^ n : Nat) = (x : Int) % (2 ^ n : Nat) := by
  unfold sext
  split
  · simp
  · rw [Int.sub_emod, Int.emod_self]
    simp

/-- A value and its reading as an integer agree in the low bits. -/
theorem asInt_emod (t : Ty) (x : Nat) : asInt t x % (2 ^ tyW t : Nat) = (x : Int) % (2 ^ tyW t : Nat) := by
  cases t <;> simp only [asInt, tyW, Ty.wide, if_true, if_false, Bool.false_eq_true] <;>
    first
      | exact sext_emod x 32
      | exact sext_emod x 64
      | simp

theorem low_congr {n : Nat} {a b : Int} (h : a % (2 ^ n : Nat) = b % (2 ^ n : Nat)) : low n a = low n b := by
  simp only [low]
  rw [h]

theorem low_cast (n : Nat) (z : Int) : ((low n z : Nat) : Int) = z % (2 ^ n : Nat) := by
  unfold low
  apply Int.toNat_of_nonneg
  apply Int.emod_nonneg
  have : 0 < 2 ^ n := Nat.two_pow_pos n
  omega

/-- Adding an operand read at its width keeps the low bits. -/
theorem low_add_asInt (t : Ty) (x z : Int) : low (tyW t) (x + asInt t (low (tyW t) z)) = low (tyW t) (x + z) := by
  apply low_congr
  rw [Int.add_emod, asInt_emod, low_cast, Int.emod_emod_of_dvd _ (Int.dvd_refl _), ← Int.add_emod]

/-- Saturation as a clamp. -/
theorem intResult_sat (t : Ty) (v : Int) : intResult t true v =
    if v < tyMin t then (low (tyW t) (tyMin t), 32) else if tyMax t < v then (low (tyW t) (tyMax t), 32) else (low (tyW t) v, 0) := by
  have hm : tyMin t ≤ tyMax t := by cases t <;> decide
  unfold intResult satTo
  by_cases h1 : v < tyMin t
  · rw [if_pos h1]
    have : min (max v (tyMin t)) (tyMax t) = tyMin t := by omega
    rw [this, if_pos (by simp; omega)]
    rfl
  · rw [if_neg h1]
    by_cases h2 : tyMax t < v
    · rw [if_pos h2]
      have : min (max v (tyMin t)) (tyMax t) = tyMax t := by omega
      rw [this, if_pos (by simp; omega)]
      rfl
    · rw [if_neg h2]
      have : min (max v (tyMin t)) (tyMax t) = v := by omega
      rw [this, if_neg (by simp)]

/-- The immediate of ADDI as its type reads it. -/
theorem asInt_low_imm (t : Ty) (z : Int) (ht : t.isInt = true) (hz : -(2 ^ 23 : Int) ≤ z) (hz' : z < 2 ^ 23) :
    asInt t (low (tyW t) z) = if t = .n32 ∨ t = .n64 then z % (2 ^ tyW t : Nat) else z := by
  have h32 : (low 32 z : Nat) < 2 ^ 32 := by have := low_cast 32 z; omega
  have h64 : (low 64 z : Nat) < 2 ^ 64 := by have := low_cast 64 z; omega
  have c32 := low_cast 32 z
  have c64 := low_cast 64 z
  cases t <;> simp only [Ty.isInt, Bool.false_eq_true] at ht <;> simp [asInt, tyW, Ty.wide, sext] <;> omega

/-- POPC counts the set bits. -/
theorem popcOf_eq (n x : Nat) : popcOf n x = (List.range n).countP (bit x) := by
  simp [popcOf, bitsOf, upto, List.countP_eq_length_filter]

theorem bit_half (x i : Nat) : bit (x / 2) i = bit x (i + 1) := by
  unfold bit
  rw [Nat.div_div_eq_div_mul, Nat.pow_succ, Nat.mul_comm]

/-- BREV puts bit n - 1 - i into place i. -/
theorem brevOf_eq (n x : Nat) : brevOf n x = ((List.range n).map (fun i => b2n (bit x (n - 1 - i)) * 2 ^ i)).sum := by
  induction n generalizing x with
  | zero => rfl
  | succ n ih =>
    rw [brevOf, ih, List.range_succ, List.map_append, List.sum_append, Nat.add_comm]
    congr 1
    · congr 1
      apply List.map_congr_left
      intro i hi
      have hi' : i < n := List.mem_range.1 hi
      rw [bit_half]
      congr 3
      omega
    · have : b2n (bit x 0) = x % 2 := by
        unfold b2n bit
        rcases Nat.mod_two_eq_zero_or_one x with h | h <;> simp [h]
      simp [this]

/-- The remainder of IDIV. -/
theorem divide_rem (x y : Int) : divide true x y = if y = 0 then x else x - x.tdiv y * y := by
  unfold divide
  by_cases h : y = 0
  · simp [h]
  · simp only [h, if_false, if_true]
    have := Int.mul_tdiv_add_tmod x y
    rw [Int.mul_comm] at this
    omega

/-- The quotient of IDIV. -/
theorem divide_quo (t : Ty) (x y : Int) :
    low (tyW t) (divide false x y) = if y = 0 then 2 ^ tyW t - 1 else low (tyW t) (x.tdiv y) := by
  unfold divide
  by_cases h : y = 0
  · simp only [h, if_true]
    cases t <;> rfl
  · simp [h]

end Sys2Proof.Machine
end

