-- ==== Sys2Proof/Laws/Atomic.lean ====
section
/-! SUPPORT. Atomics, sync words and scratchpad atomics of one lane. -/

namespace Sys2Proof.Machine
open Sys2Proof.Safe

theorem capture_withH (q : State) (H : List Heat) (ctx origin : Nat) : (withH q H).capture ctx origin = withH (q.capture ctx origin) H := by
  unfold State.capture
  rw [show (withH q H).rels = q.rels from rfl]
  generalize q.rels.find? _ = o
  cases o with
  | none => rfl
  | some r =>
    dsimp only
    split <;> rfl

theorem enqueueRel_withH (b : State) (H : List Heat) (r : PendRel) : (withH b H).enqueueRel r = withH (b.enqueueRel r) H :=
  capture_withH { b with rels := b.rels ++ [{ r with id := b.nid }], nid := b.nid + 1 } H r.ctx r.origin

theorem enqueueRel_now (b : State) (r : PendRel) : (b.enqueueRel r).now = b.now := by
  unfold State.enqueueRel State.capture
  generalize List.find? _ _ = o
  cases o with
  | none => rfl
  | some q =>
    dsimp only
    split <;> rfl

/-- An access left to the far side of an owned sector, or to a release. -/
theorem far_one {i : Instr} {s : State} {x : Iss} {h : Heat} (hI : Issues i s x h) {l va pa : Nat} (hP : (seen i s x h).Place l .write va pa)
    (rcd : Nat) (chk : Nat → Chk) (op : Nat → AccOp) (hc : chk l = .va va) (hcol : recColour rcd = 0) (hrem : recRemote rcd = false) (hl : (op l).len < 64)
    (hop : (∃ a k sz sc o y cmp d, op l = .rmw a k sz sc o y cmp d ∧ 2 ≤ sc.code) ∨ (∃ y sc o d, op l = .syadd y sc o d ∧ 2 ≤ sc.code) ∨ (∃ v sc, op l = .strel v sc)) (r : Bool) :
    let a : Machine.Acc := { lane := l, va := va, pa := pa, op := op l, opId := s.nid, nopre := recNopre rcd, strm := recStream rcd }
    (envOf i s x h).accessBy rcd chk op { s := entered s x, irrev := r } = { s := (begun i s x h l).sendReqs h (recStream rcd) [a], irrev := r } := by
  intro a
  have hkey := State.heat?_key hI.heat
  have hw : (op l).writes = true := by
    rcases hop with ⟨_, _, _, _, _, _, _, _, hq, _⟩ | ⟨_, _, _, _, hq, _⟩ | ⟨_, _, hq⟩ <;> rw [hq] <;> rfl
  have hA := accessBy_one hI hP rcd chk op hc hcol hrem (by rw [hw]; rfl) hl r
  have hrun : (begun i s x h l).laneRun h.key l = none := laneRun_none (by rw [hkey]; exact begun_heat hI l) (by rw [lifted_task]; exact hP.task)
  have hr1 : (begun i s x h l).readSig h.key l pa = begun i s x h l := by unfold State.readSig; rw [hrun]
  have hr2 : (begun i s x h l).writeSig h.key l pa = begun i s x h l := by unfold State.writeSig; rw [hrun]
  have hnear : State.nearAccess h ([], begun i s x h l) a = ([a], begun i s x h l) := by
    have hop' : a.op = op l := rfl
    unfold State.nearAccess
    dsimp only
    rcases hop with ⟨_, _, _, _, _, _, _, _, hq, hs⟩ | ⟨_, _, _, _, hq, hs⟩ | ⟨_, _, hq⟩
    · rw [hop', hq]
      dsimp only
      rw [if_pos hs]
      show (_, ((begun i s x h l).readSig h.key l pa).writeSig h.key l pa) = _
      rw [hr1, hr2]
      rfl
    · rw [hop', hq]
      dsimp only
      show (_, ((begun i s x h l).readSig h.key l pa).writeSig h.key l pa) = _
      rw [hr1, hr2]
      rfl
    · rw [hop', hq]
      dsimp only
      show (_, ((begun i s x h l).readSig h.key l pa).writeSig h.key l pa) = _
      rw [hr1, hr2]
      rfl
  dsimp only at hA
  rw [hA, show State.nearAccess h ([], begun i s x h l) { lane := l, va := va, pa := pa, op := op l, opId := s.nid, nopre := recNopre rcd, strm := recStream rcd } = _ from hnear]

theorem sendReqs_nil (s : State) (h : Heat) (st : Bool) : (s.sendReqs h st []) = s := by rfl

/-- Flags merged into the heat's flag word. -/
def addFlags (fl : Nat) (g : Heat) : Heat := { g with nflags := g.nflags ||| fl }

theorem mergeFlags_none {s : State} {k : HeatKey} {l fl : Nat} {g : Heat} (hh : s.heat? k = some g) (ht : (g.lane l).task = none) :
    s.mergeFlags k l fl = s.updHeat k (addFlags fl) := by
  unfold State.mergeFlags
  split
  · rename_i h0
    subst h0
    have : addFlags 0 = fun h => h := by funext g; unfold addFlags; rw [Nat.or_zero]
    rw [this]
    exact (State.updHeat_id s k).symm
  · have : (s.lane? k l).bind (·.task) = none := by
      unfold State.lane?
      rw [hh, Option.bind_some]
      unfold Heat.lane at ht
      cases hl : g.lanes[l]? with
      | none => rfl
      | some y =>
        rw [hl] at ht
        exact ht
    rw [this]
    rfl

theorem withH_updHeat (b : State) (s : State) (k : HeatKey) (f g : Heat → Heat) (hf : ∀ h, (f h).key = h.key) :
    (withH b (s.updHeat k f).heats).updHeat k g = withH b (s.updHeat k (fun h => g (f h))).heats := by
  have := State.updHeat_updHeat s k f g hf
  rw [← this]
  rfl

theorem withH_heat? (b : State) (s : State) (k j : HeatKey) (f : Heat → Heat) : (withH b (s.updHeat k f).heats).heat? j = (s.updHeat k f).heat? j :=
  State.heat?_congr rfl _

/-- The heat after a served read-modify-write: its flags merged, its destination written. -/
def rmwSet (w : Bool) (d : Option Dst) (l old fl : Nat) (g : Heat) : Heat := match d with
  | none => addFlags fl g
  | some d => (addFlags fl g).setDst w l d old

/-- A read-modify-write served by the L1. -/
theorem rmw_near {i : Instr} {s : State} {x : Iss} {h : Heat} (hI : Issues i s x h) {l va pa : Nat} (hP : (seen i s x h).Place l .write va pa)
    (op : AtomOp) (kind : AtomKind) (sz : Nat) (sc : Scope) (o : Order) (y cmp : Nat) (d : Option Dst) (nop strm : Bool) (hs : sc.code ≤ 1) (line : List Byte) (hl : s.l1? h.core (pa / 64) = some line) :
    let a : Machine.Acc := { lane := l, va := va, pa := pa, op := .rmw op kind sz sc o y cmp d, opId := s.nid, nopre := nop, strm := strm }
    let old := ofBytes ((line.drop (pa % 64)).take (2 ^ sz))
    let r := rmwOf op kind sz old y cmp
    let set (g : Heat) : Heat := rmwSet (sz == 3) d l old r.2 g
    State.nearAccess h ([], begun i s x h l) a = ([], withH { ((opened i (seen i s x h) l).bankIn x.key.ctx h.core pa).writeThrough h.core pa (toBytes (2 ^ sz) r.1) with ops := s.ops }
      ((entered s x).updHeat x.key (fun g => lowered i (seen i s x h) (set (lifted i (seen i s x h) l g)))).heats) := by
  intro a old r set
  have hkey := State.heat?_key hI.heat
  have hrun : (begun i s x h l).laneRun h.key l = none := laneRun_none (by rw [hkey]; exact begun_heat hI l) (by rw [lifted_task]; exact hP.task)
  have hn : (begun i s x h l).nearRead h.key h.core a = some ((line.drop (pa % 64)).take (2 ^ sz)) := by
    rw [nearRead_none hrun]
    show Option.map _ (s.l1? h.core (pa / 64)) = _
    rw [hl]
    rfl
  unfold State.nearAccess
  dsimp only [a]
  rw [if_neg (by omega)]
  rw [show (begun i s x h l).nearRead h.key h.core { lane := l, va := va, pa := pa, op := .rmw op kind sz sc o y cmp d, opId := s.nid, nopre := nop, strm := strm } = _ from hn]
  dsimp only
  congr 1
  unfold State.rmwNear
  dsimp only
  rw [begun_withH, show ∀ H, (withH (opened i (seen i s x h) l) H).bankIn h.key.ctx h.core pa = withH ((opened i (seen i s x h) l).bankIn h.key.ctx h.core pa) H from fun _ => rfl,
    writeThrough_withH, hkey]
  show ((((withH (((opened i (seen i s x h) l).bankIn x.key.ctx h.core pa).writeThrough h.core pa (toBytes (2 ^ sz) r.1)) _).mergeFlags x.key l r.2).readSig x.key l pa).writeSig x.key l pa).finishLoad x.key _ _ = _
  generalize hB : ((opened i (seen i s x h) l).bankIn x.key.ctx h.core pa).writeThrough h.core pa (toBytes (2 ^ sz) r.1) = B
  have hBo : B.ops = (opened i (seen i s x h) l).ops := by rw [← hB, (writeThrough_keeps _ _ _ _).1]; rfl
  have hh1 : (withH B ((entered s x).updHeat x.key (lifted i (seen i s x h) l)).heats).heat? x.key = some (lifted i (seen i s x h) l h) := by
    rw [withH_heat?, State.heat?_updHeat_self _ _ _ (fun g => lifted_key _ _ _ g), hI.heat]
    rfl
  rw [mergeFlags_none hh1 (by rw [lifted_task]; exact hP.task), withH_updHeat _ _ _ _ _ (fun g => lifted_key _ _ _ g)]
  have hh2 : (withH B ((entered s x).updHeat x.key (fun g => addFlags r.2 (lifted i (seen i s x h) l g))).heats).heat? x.key =
      some (addFlags r.2 (lifted i (seen i s x h) l h)) := by
    rw [withH_heat?, State.heat?_updHeat_self (entered s x) x.key (fun g => addFlags r.2 (lifted i (seen i s x h) l g)) (fun g => lifted_key i (seen i s x h) l g), hI.heat]
    rfl
  have hrun2 : (withH B ((entered s x).updHeat x.key (fun g => addFlags r.2 (lifted i (seen i s x h) l g))).heats).laneRun x.key l = none :=
    laneRun_none hh2 ((lifted_task i (seen i s x h) l l h).trans hP.task)
  have e1 : ∀ q : State, q.laneRun x.key l = none → q.readSig x.key l pa = q ∧ q.writeSig x.key l pa = q := by
    intro q hq
    unfold State.readSig State.writeSig
    rw [hq]
    exact ⟨rfl, rfl⟩
  rw [(e1 _ hrun2).1, (e1 _ hrun2).2]
  unfold State.finishLoad
  dsimp only
  have hd : ∀ (f : Heat → Heat), (∀ g, (f g).key = g.key) → (withH B ((entered s x).updHeat x.key f).heats).opDone s.nid l =
      withH { B with ops := s.ops } ((entered s x).updHeat x.key (fun g => lowered i (seen i s x h) (f g))).heats := by
    intro f hf
    rw [opDone_at (s := s) (i := i) (x := x) (h := h) hP.fresh B hBo]
    exact withH_updHeat _ _ _ f (lowered i (seen i s x h)) hf
  cases d with
  | none =>
    exact hd (fun g => addFlags r.2 (lifted i (seen i s x h) l g)) (fun g => lifted_key _ _ _ g)
  | some d =>
    dsimp only
    rw [withH_updHeat _ _ _ (fun g => addFlags r.2 (lifted i (seen i s x h) l g)) _ (fun g => lifted_key _ _ _ g)]
    refine hd (fun g => (addFlags r.2 (lifted i (seen i s x h) l g)).setDst (sz == 3) l d old) (fun g => ?_)
    cases d <;> exact lifted_key _ _ _ _

theorem Sets.rmw (w : Bool) (d : Option Dst) (v l fl : Nat) :
    Sets (fun g => rmwSet w d l v fl g)
      (fun g => heatTakes w d v (addFlags fl g)) (laneTakes w d v) l := by
  cases d with
  | none =>
    refine ⟨fun g => ?_, fun _ => rfl, fun _ => rfl, fun _ _ => rfl, fun y => rfl⟩
    have := (Sets.dst true (.k 0) 0 l).eq
    show ({ g with nflags := g.nflags ||| fl } : Heat) = { g with nflags := g.nflags ||| fl, lanes := modifyAt g.lanes l (fun y => y) }
    rw [modifyAt_id]
  | some d =>
    have h := Sets.dst w d v l
    refine ⟨fun g => h.eq _, fun g => h.key _, fun g => h.busy _, fun g ls => ?_, h.st⟩
    exact h.lanes (addFlags fl g) ls

/-- A release that may issue issues. -/
theorem releaseAt_go {i : Instr} {s : State} {x : Iss} {h : Heat} {sc : Scope} {rel : Bool} (hr : rel = true → (seen i s x h).mayRelease sc) (r : Bool) (f : Work → Work) :
    (envOf i s x h).releaseAt sc rel { s := entered s x, irrev := r } f = f { s := entered s x, irrev := r } := by
  unfold Env.releaseAt
  cases rel with
  | false => rfl
  | true =>
    have := hr rfl
    unfold Seen.mayRelease at this
    simp only [Bool.not_true, Bool.false_eq_true, if_false]
    split
    · rename_i hs
      rw [if_pos hs] at this
      unfold Env.afterCpyw
      rw [show (envOf i s x h).h.cpyw = [] from this]
      simp
    · rename_i hs
      rw [if_neg hs] at this
      unfold Env.afterOwed
      have e0 := entered_eq s x
      have ho : (entered s x).owed (envOf i s x h).h ((envOf i s x h).waitMark (entered s x)) = false := by
        rw [e0]
        exact this
      rw [ho]
      simp

/-- A release of one lane's read-modify-write. -/
theorem sendReqs_rel {x : Iss} {h : Heat} (hk : h.key = x.key) (s1 : State) (st : Bool) (a : Machine.Acc)
    (hop : (∃ ap k sz sc o y cmp d, a.op = .rmw ap k sz sc o y cmp d ∧ 2 ≤ sc.code ∧ (o = .release ∨ o = .both)) ∨ (∃ y sc o d, a.op = .syadd y sc o d ∧ 2 ≤ sc.code ∧ (o = .release ∨ o = .both))) :
    s1.sendReqs h st [a] = s1.enqueueRel { origin := h.core, ctx := x.key.ctx, scope := a.op.scope, obj := some a.pa, val := .rmw x.key [a] } := by
  have hr : a.op.releases = true := by
    rcases hop with ⟨_, _, _, _, _, _, _, _, hq, h1, h2⟩ | ⟨_, _, _, _, hq, h1, h2⟩ <;> rw [hq] <;> (show (decide _ && (decide _ || decide _)) = true; simp [h1, h2])
  have hs : s1.sendReleases h [a] = s1.enqueueRel { origin := h.core, ctx := x.key.ctx, scope := a.op.scope, obj := some a.pa, val := .rmw x.key [a] } := by
    rw [← hk]
    unfold State.sendReleases
    rcases hop with ⟨_, _, _, _, _, _, _, _, hq, h1, h2⟩ | ⟨_, _, _, _, hq, h1, h2⟩
    · simp only [List.filter_cons, hq, List.filter_nil, if_true, List.foldl_cons, List.foldl_nil, Bool.false_eq_true, if_false, List.map_nil]
      rfl
    · simp only [List.filter_cons, hq, List.filter_nil, if_true, List.foldl_nil, Bool.false_eq_true, if_false, List.map_cons, List.map_nil]
      show (nub [a.pa]).foldl _ _ = _
      rw [show nub [a.pa] = [a.pa] from rfl]
      simp only [List.foldl_cons, List.foldl_nil, decide_true, if_true, List.getLast?_singleton, hq]
  unfold State.sendReqs
  simp only [List.filter_cons, hr, List.filter_nil, if_true, Bool.not_true, Bool.false_and, Bool.false_eq_true, if_false]
  rw [hs]
  have hc : a.op.isCpyw = false := by
    rcases hop with ⟨_, _, _, _, _, _, _, _, hq, h1, h2⟩ | ⟨_, _, _, _, hq, h1, h2⟩ <;> rw [hq] <;> rfl
  simp only [hc, Bool.false_eq_true, if_false]
  rfl

theorem atomic_body {i : Instr} {s : State} {x : Iss} {h : Heat} (hI : Issues i s x h) {l va pa : Nat} (hP : (seen i s x h).Place l .write va pa) (b sz : Nat) (m : Index) (op : AtomOp) (kind : AtomKind) (o : Order) (sc : Scope)
    (yf cf : Nat → Nat) (d : Option Dst) (hC : (seen i s x h).Checked b sz ((seen i s x h).index m l) .rmw va) (hsy : o = .relaxed ∨ sc.code ≤ 1 ∨ va % 64 = 0) (hr : frees o → (seen i s x h).mayRelease sc) :
    ∃ chk opf, (envOf i s x h).atomic ((envOf i s x h).record b) sz ((envOf i s x h).index m) op kind o sc yf cf d { s := entered s x } =
      (let r := (envOf i s x h).accessBy (h.b256 b) chk opf { s := entered s x }
       if ordHolds o then r.awaitOp (envOf i s x h) s.nid else r) ∧ chk l = .va va ∧ opf l = .rmw op kind sz sc o (yf l) (cf l) d := by
  refine ⟨fun l => syncChk (o ≠ .relaxed && 2 ≤ sc.code) true (check (h.b256 b) sz ((envOf i s x h).index m l) .rmw), fun l => .rmw op kind sz sc o (yf l) (cf l) ((envOf i s x h).laneDst d l), ?_, ?_, ?_⟩
  · unfold Env.atomic
    rw [show recRemote ((envOf i s x h).record b) = false from hC.2.2]
    simp only [Bool.false_eq_true, if_false]
    rw [irrevocable_none hI hP _ rfl, releaseAt_go (fun ho => hr (by cases o <;> first | exact .inl rfl | exact .inr rfl | cases ho)), show (entered s x).nid = s.nid by rw [entered_eq]]
    rfl
  · dsimp only
    rw [envOf_index, show check (h.b256 b) sz ((seen i s x h).index m l) .rmw = .va va from hC.1]
    rcases hsy with rfl | hs | hs
    · exact syncChk_false _ _
    · rw [show (decide (2 ≤ sc.code)) = false by simpa using (by omega : sc.code < 2), Bool.and_false]
      exact syncChk_false _ _
    · exact syncChk_va hs
  · dsimp only
    rw [laneDst_one hP.one]

theorem enqueueRel_ops (b : State) (r : PendRel) : (b.enqueueRel r).ops = b.ops := by
  unfold State.enqueueRel State.capture
  generalize List.find? _ _ = o
  cases o with
  | none => rfl
  | some q =>
    dsimp only
    split <;> rfl

/-- A word that raises no flag and whose part becomes `U`. -/
theorem short_acts {i : Instr} {P : Seen → Prop} {U : Seen → State} {G : Seen → Heat} (body : Env → Work → Work) (hi : ∀ s, exec i s = issue i s body)
    (extra : Seen → Heat → Heat) (hk : ∀ e g, (extra e g).key = g.key) (hL : ∀ e (g : Heat), (extra e g).lanes = g.lanes)
    (hG : ∀ s x h, Issues i s x h → P (seen i s x h) → extra (seen i s x h) h = G (seen i s x h)) (hU : ∀ e, (U e).now = e.s.now)
    (hb : ∀ s x h, Issues i s x h → P (seen i s x h) → ∃ r,
      body (envOf i s x h) { s := entered s x } = { s := withH (U (seen i s x h)) ((entered s x).updHeat x.key (extra (seen i s x h))).heats, irrev := r }) :
    Acts i P U G (fun _ _ y => y.advance) := by
  refine acts_upd body hi (fun s x h hI hP => ?_)
  obtain ⟨r, h4⟩ := hb s x h hI hP
  have hlane : ∀ m, ((extra (seen i s x h) h).lane m) = h.lane m := by intro m; unfold Heat.lane; rw [hL]
  refine ⟨_, extra (seen i s x h), h4, rfl, rfl, hk _, ?_, ?_, ?_, ?_, ?_⟩
  · rw [← show (U (seen i s x h)).now = s.now from hU (seen i s x h)]
    rfl
  · rw [← hG s x h hI hP]
  · rw [hL]
  · intro l hl
    rw [hlane]
    exact Issues_live hI l hl
  · intro l _
    rw [hlane]
    exact lanes_advance l

theorem updHeat_ident (s : State) (k : HeatKey) : s.updHeat k id = s := State.updHeat_id s k

theorem lifted_short {i : Instr} (hl : Instr.long i = false) (e : Seen) (l : Nat) : lifted i e l = id := by
  funext g
  unfold lifted
  rw [hl]
  rfl

theorem lowered_short {i : Instr} (hl : Instr.long i = false) (e : Seen) (g : Heat) (hb : g.busy = none) : lowered i e g = g := by
  unfold lowered
  rw [hl, hb]
  rfl

/-- A release store of one lane. -/
theorem sendReqs_strel {x : Iss} {h : Heat} (hk : h.key = x.key) (s1 : State) (st : Bool) (a : Machine.Acc) (v : Nat) (sc : Scope)
    (hop : a.op = .strel v sc) :
    s1.sendReqs h st [a] = (s1.enqueueRel { origin := h.core, ctx := x.key.ctx, scope := sc, obj := some a.pa, val := .set v }).opDone a.opId a.lane := by
  have hr : a.op.releases = true := by rw [hop]; rfl
  have hs : s1.sendReleases h [a] = (s1.enqueueRel { origin := h.core, ctx := x.key.ctx, scope := sc, obj := some a.pa, val := .set v }).opDone a.opId a.lane := by
    rw [← hk]
    unfold State.sendReleases
    simp only [List.filter_cons, hop, List.filter_nil, if_true, List.foldl_nil, Bool.false_eq_true, if_false, List.map_cons, List.map_nil]
    show (nub [a.pa]).foldl _ _ = _
    rw [show nub [a.pa] = [a.pa] from rfl]
    simp only [List.foldl_cons, List.foldl_nil, decide_true, if_true, List.getLast?_singleton, hop]
    rfl
  unfold State.sendReqs
  simp only [List.filter_cons, hr, List.filter_nil, if_true, Bool.not_true, Bool.false_and, Bool.false_eq_true, if_false]
  rw [hs]
  have hc : a.op.isCpyw = false := by rw [hop]; rfl
  simp only [hc, Bool.false_eq_true, if_false]
  rfl

theorem lowered_lanes (i : Instr) (e : Seen) (g : Heat) : (lowered i e g).lanes = g.lanes := by
  unfold lowered
  dsimp only
  split <;> split <;> rfl

theorem opDone_low {i : Instr} {s : State} {x : Iss} {h : Heat} {l : Nat} (hf : ∀ o ∈ s.ops, o.id ≠ s.nid) (b : State) (hb : b.ops = (opened i (seen i s x h) l).ops) (H : List Heat) :
    (withH b H).opDone s.nid l = (withH ((seen i s x h).closed b) H).updHeat x.key (lowered i (seen i s x h)) := opDone_at hf b hb H

theorem strel_acts (c : Com) (sz b : Nat) (sc : Scope) (v : Src) (m : Index) (l va pa : Nat) (hs : 2 ≤ sc.code) :
    ActsOn (.strel c sz sc v m b) (fun e => e.Place l .write va pa ∧ e.Checked b sz (e.index m l) .store va ∧ va % 64 = 0 ∧ e.mayRelease sc)
        (fun e => e.closed ((opened (.strel c sz sc v m b) e l).enqueueRel { origin := e.h.core, ctx := e.x.key.ctx, scope := sc, obj := some pa, val := .set (if sz = 3 then e.rd .n64 v l else e.rd .n32 v l) })) := by
  have hlongS : ∀ {s x h}, Issues (.strel c sz sc v m b) s x h → Instr.long (.strel c sz sc v m b) = false := fun hI => (long_of (Words.strel c sz sc v m b (Issues_wf hI)).1).trans rfl
  obtain ⟨lw, hlw⟩ : ∃ f : Seen → Heat → Heat, f = lowered (.strel c sz sc v m b) := ⟨_, rfl⟩
  refine short_acts _ (fun s => by rw [exec_strel, execStrel]) lw (by rw [hlw]; exact lowered_key _) (by rw [hlw]; exact lowered_lanes _) (fun s x h hI hP => by rw [hlw]; exact lowered_short (hlongS hI) _ _ hP.1.idle)
    (fun e => (enqueueRel_now _ _).trans rfl) (fun s x h hI hP => ⟨false, ?_⟩)
  have hkey := State.heat?_key hI.heat
  have hsc : (decide (2 ≤ sc.code)) = true := by simpa using hs
  have hop : ∀ l, (if (2 ≤ sc.code : Bool) then AccOp.strel (if sz = 3 then (envOf (.strel c sz sc v m b) s x h).src64 v l else (envOf (.strel c sz sc v m b) s x h).src32 v l) sc
      else AccOp.store (toBytes (2 ^ sz) (if sz = 3 then (envOf (.strel c sz sc v m b) s x h).src64 v l else (envOf (.strel c sz sc v m b) s x h).src32 v l))) =
      .strel (if sz = 3 then (seen (.strel c sz sc v m b) s x h).rd .n64 v l else (seen (.strel c sz sc v m b) s x h).rd .n32 v l) sc := by
    intro l
    rw [hsc]
    rfl
  have hF := far_one hI hP.1 (h.b256 b) (fun l => syncChk (2 ≤ sc.code) true (check (h.b256 b) sz ((envOf (.strel c sz sc v m b) s x h).index m l) .store))
    (fun l => if (2 ≤ sc.code : Bool) then AccOp.strel (if sz = 3 then (envOf (.strel c sz sc v m b) s x h).src64 v l else (envOf (.strel c sz sc v m b) s x h).src32 v l) sc
      else AccOp.store (toBytes (2 ^ sz) (if sz = 3 then (envOf (.strel c sz sc v m b) s x h).src64 v l else (envOf (.strel c sz sc v m b) s x h).src32 v l)))
    (by rw [envOf_index, show check (h.b256 b) sz ((seen (.strel c sz sc v m b) s x h).index m l) .store = .va va from hP.2.1.1, syncChk_va hP.2.2.1])
    hP.2.1.2.1 hP.2.1.2.2 (by rw [hop]; exact (by decide : (8:Nat) < 64)) (Or.inr (Or.inr ⟨_, _, hop l⟩)) false
  dsimp only at hF
  dsimp only
  rw [unrefused (h := h) hP.2.1.2.1 hP.2.1.2.2]
  simp only [Bool.false_eq_true, if_false]
  rw [irrevocable_none hI hP.1 { s := entered s x } rfl, releaseAt_go (fun _ => hP.2.2.2)]
  refine hF.trans ?_
  rw [hop l, sendReqs_strel (v := if sz = 3 then (seen (.strel c sz sc v m b) s x h).rd .n64 v l else (seen (.strel c sz sc v m b) s x h).rd .n32 v l) (sc := sc) hkey _ _ _ rfl, begun_withH, enqueueRel_withH, lifted_short (hlongS hI), updHeat_ident]
  dsimp only
  rw [opDone_low (i := .strel c sz sc v m b) (s := s) (x := x) (h := h) hP.1.fresh _ (enqueueRel_ops _ _)]
  have hfin : ∀ (B : State) (f : Heat → Heat), (withH B (entered s x).heats).updHeat x.key f = withH B ((entered s x).updHeat x.key f).heats := fun _ _ => rfl
  rw [hfin]
  rw [hlw]
  rfl

/-- The heat once a scratchpad word has marked its one lane's destination. -/
def markOne (i : Instr) (e : Seen) (l : Nat) (g : Heat) : Heat :=
  { g.updLane l (marked i e) with kpend := g.kpend ++ (Instr.destK i).map (fun k => (k, Seen.flag i e)) }

theorem mark_one {i : Instr} {s : State} {x : Iss} {h : Heat} {l : Nat} (ha : active i x h = [l]) (t : State) :
    (envOf i s x h).mark t = t.updHeat x.key (markOne i (seen i s x h) l) := by
  unfold Env.mark
  congr 1
  funext g
  rw [show (envOf i s x h).act = [l] from ha]
  rfl

theorem scr_acts {i : Instr} {P : Seen → Prop} {U : Seen → State} {F : Seen → Nat → Lane → Lane} {G : Seen → Heat} (body : Env → Work → Work) (hi : ∀ s, exec i s = issue i s body)
    (l : Nat) (set heatF : Seen → Heat → Heat) (laneF : Seen → Lane → Lane) (hset : ∀ e, Sets (set e) (heatF e) (laneF e) l)
    (hG : G = fun e => heatF e { e.h with kpend := e.h.kpend ++ (Instr.destK i).map (fun k => (k, Seen.flag i e)) }) (hF : F = fun e _ y => (laneF e (marked i e y)).advance)
    (hb : ∀ s x h, Issues i s x h → P (seen i s x h) → active i x h = [l] ∧ (U (seen i s x h)).now = s.now ∧ ∃ r,
      body (envOf i s x h) { s := entered s x } = { s := withH (U (seen i s x h)) ((entered s x).updHeat x.key (fun g => set (seen i s x h) (markOne i (seen i s x h) l g))).heats, irrev := r }) :
    Acts i P U G F := by
  refine acts_upd body hi (fun s x h hI hP => ?_)
  obtain ⟨h1, h3, r, h4⟩ := hb s x h hI hP
  have hS := hset (seen i s x h)
  have hf : set (seen i s x h) (markOne i (seen i s x h) l h) =
      { heatF (seen i s x h) { h with kpend := h.kpend ++ (Instr.destK i).map (fun k => (k, Seen.flag i (seen i s x h))) } with
        lanes := ((h.updLane l (marked i (seen i s x h))).updLane l (laneF (seen i s x h))).lanes } := by
    have hm : markOne i (seen i s x h) l h = { ({ h with kpend := h.kpend ++ (Instr.destK i).map (fun k => (k, Seen.flag i (seen i s x h))) } : Heat) with lanes := (h.updLane l (marked i (seen i s x h))).lanes } := rfl
    rw [hS.eq, hm, hS.lanes]
    rfl
  have hact : ∀ y, y ∈ active i x h ↔ y = l := by intro y; rw [h1]; simp
  have hlane : ∀ m, ((set (seen i s x h) (markOne i (seen i s x h) l h)).lane m) =
      (if m = l ∧ m < h.lanes.length then laneF (seen i s x h) (marked i (seen i s x h) (h.lane m)) else h.lane m) := by
    intro m
    rw [hf]
    show ((h.updLane l (marked i (seen i s x h))).updLane l (laneF (seen i s x h))).lane m = _
    rw [Heat.lane_updLane, Heat.lane_updLane, Heat.length_updLane]
    by_cases hm : m = l ∧ m < h.lanes.length
    · rw [if_pos hm, if_pos hm, if_pos hm]
    · rw [if_neg hm, if_neg hm, if_neg hm]
  refine ⟨_, fun g => set (seen i s x h) (markOne i (seen i s x h) l g), h4, rfl, rfl, ?_, by rw [← h3]; rfl, ?_, ?_, ?_, ?_⟩
  · intro g
    dsimp only
    rw [hS.eq]
    exact (hS.key _).trans rfl
  · dsimp only
    rw [hf, hG]
    rfl
  · dsimp only
    rw [hf]
    simp only [Heat.length_updLane]
  · intro m hm
    dsimp only
    rw [hlane]
    have := Issues_live hI m hm
    split
    · rw [hS.st]; exact this
    · exact this
  · intro m hm
    dsimp only
    rw [hlane, hF]
    simp only [hact, List.not_mem_nil, not_false_eq_true, and_true, hm]
    by_cases hml : m = l
    · subst hml
      have : m ∈ x.lanes := (List.mem_filter.1 ((hact m).2 rfl)).1
      simp [this]
    · simp [hml]

end Sys2Proof.Machine
end

