-- ==== Sys2Proof/Laws/Fields.lean ====
section
/-! SUPPORT. Laws of bit fields: what a field reads after a field is replaced. -/

namespace Sys2Proof.Machine

theorem testBit_fld (w lo n i : Nat) : (fld w lo n).testBit i = (decide (i < n) && w.testBit (lo + i)) := by
  unfold fld
  rw [Nat.testBit_mod_two_pow, Nat.testBit_div_two_pow, Nat.add_comm]

theorem word_split (w lo n : Nat) : w = 2 ^ lo * (2 ^ n * (w / 2 ^ lo / 2 ^ n) + fld w lo n) + w % 2 ^ lo := by
  have h1 := Nat.div_add_mod w (2 ^ lo)
  have h2 := Nat.div_add_mod (w / 2 ^ lo) (2 ^ n)
  unfold fld
  rw [h2, h1]

theorem setFld_eq (w lo n x : Nat) : setFld w lo n x = 2 ^ lo * (2 ^ n * (w / 2 ^ lo / 2 ^ n) + x % 2 ^ n) + w % 2 ^ lo := by
  have h := word_split w lo n
  unfold setFld
  rw [Nat.mul_add] at h ⊢
  have e1 : fld w lo n * 2 ^ lo = 2 ^ lo * fld w lo n := Nat.mul_comm _ _
  have e2 : x % 2 ^ n * 2 ^ lo = 2 ^ lo * (x % 2 ^ n) := Nat.mul_comm _ _
  omega

theorem testBit_setFld (w lo n x i : Nat) :
    (setFld w lo n x).testBit i = if lo ≤ i ∧ i < lo + n then x.testBit (i - lo) else w.testBit i := by
  have h := word_split w lo n
  rw [setFld_eq, Nat.testBit_two_pow_mul_add _ (Nat.mod_lt _ (Nat.two_pow_pos _))]
  by_cases h1 : i < lo
  · rw [if_pos h1, if_neg (by omega), Nat.testBit_mod_two_pow]
    simp [h1]
  · rw [if_neg h1, Nat.testBit_two_pow_mul_add _ (Nat.mod_lt _ (Nat.two_pow_pos _))]
    by_cases h2 : i - lo < n
    · rw [if_pos h2, if_pos (by omega), Nat.testBit_mod_two_pow]
      simp [h2]
    · rw [if_neg h2, if_neg (by omega), Nat.testBit_div_two_pow, Nat.testBit_div_two_pow]
      congr 1
      omega

theorem fld_setFld_self (w lo n x : Nat) : fld (setFld w lo n x) lo n = x % 2 ^ n := by
  apply Nat.eq_of_testBit_eq
  intro i
  rw [testBit_fld, testBit_setFld, Nat.testBit_mod_two_pow]
  by_cases h : i < n
  · rw [if_pos (by omega)]
    simp
  · simp [h]

theorem fld_setFld_ne (w lo n x lo' n' : Nat) (h : lo' + n' ≤ lo ∨ lo + n ≤ lo') : fld (setFld w lo n x) lo' n' = fld w lo' n' := by
  apply Nat.eq_of_testBit_eq
  intro i
  rw [testBit_fld, testBit_fld, testBit_setFld]
  by_cases h' : i < n'
  · rw [if_neg (by omega)]
  · simp [h']

theorem bit_eq_testBit (w i : Nat) : bit w i = w.testBit i := by
  unfold bit
  rw [Nat.testBit_eq_decide_div_mod_eq]
  by_cases h : w / 2 ^ i % 2 = 1 <;> simp [h]

theorem setFld_lt (w lo n x m : Nat) (hw : w < 2 ^ m) (h : lo + n ≤ m) : setFld w lo n x < 2 ^ m := by
  apply Nat.lt_pow_two_of_testBit
  intro i hi
  rw [testBit_setFld, if_neg (by omega)]
  exact Nat.testBit_lt_two_pow (Nat.lt_of_lt_of_le hw (Nat.pow_le_pow_right (by decide) hi))

theorem fld_lt (w lo n : Nat) : fld w lo n < 2 ^ n := Nat.mod_lt _ (Nat.two_pow_pos _)

theorem Heat.b256_lt (h : Heat) (n : Nat) : h.b256 n < 2 ^ 256 := BitVec.isLt _
theorem Heat.k64_lt (h : Heat) (n : Nat) : h.k64 n < 2 ^ 64 := BitVec.isLt _

end Sys2Proof.Machine
end

