-- ==== Sys2Proof/Laws/Messages.lean ====
section
/-! SUPPORT. Messages of the host and of the dies: their arrival, their answers, and what they leave. -/

namespace Sys2Proof.Machine
open Sys2Proof.Safe

theorem receive_arrives {kind : Nat} {m : Sys2Proof.Msg} {s : State} (h : Arrives kind m s) (f : State → State) : s.receive kind m f = f s := by
  obtain ⟨h1, h2, h3, ⟨h4, h5⟩, h6, h7, h8⟩ := h
  unfold State.receive
  rw [h1, if_neg (by decide), if_neg, h7, if_neg (by decide), h8]
  rintro (h | h | h | h | h)
  · exact h h2
  · exact h h3
  · omega
  · omega
  · rw [h6] at h; cases h

/-- A reply leaves by the port, and the half, on which its message came (R17, R87). -/
theorem wayOut_up {s : State} {p q : Nat} (h : s.carries p q = true) : s.wayOut p q = (p, q) := by
  unfold State.wayOut; rw [if_pos h]

theorem send_up {s : State} {p q : Nat} (h : s.carries p q = true) (a b c d : Nat) (e : List Byte) :
    s.send p q a b c d e = { s with out := s.out ++ [{ port := p, half := q, peer := a, endpoint := b, kind := c, tag := d, body := e }] } := by
  unfold State.send
  rw [wayOut_up h]

theorem reject_eq {s : State} {m : Sys2Proof.Msg} (h : s.carries m.port m.half = true) (r o : Nat) : s.reject m r o = rejects m r o s :=
  send_up h _ _ _ _ _

theorem ctxAck_eq {s : State} {m : Sys2Proof.Msg} (h : s.carries m.port m.half = true) (x st : Nat) :
    s.ctxAck m.port m.half m.sender m.tag x st = replies m 0 0x0D (toBytes 1 x ++ toBytes 1 st) s :=
  send_up h _ _ _ _ _

theorem updLane_congr {s : State} {k : HeatKey} {h : Heat} {l : Nat} {f g : Lane → Lane} (hh : s.heat? k = some h) (he : f (h.lane l) = g (h.lane l)) :
    s.updLane k l f = s.updLane k l g := by
  unfold State.updLane State.updHeat
  congr 1
  refine modifyFirst_congr _ _ _ _ ?_
  intro a ha
  have : a = h := by
    have e : s.heat? k = some a := ha
    exact Option.some.inj (e.symm.trans hh)
  subst this
  unfold Heat.updLane
  congr 1
  have : ∀ (ls : List Lane) (n : Nat), f ((ls[n]?).getD {}) = g ((ls[n]?).getD {}) → modifyAt ls n f = modifyAt ls n g := by
    intro ls
    induction ls with
    | nil => intros; rfl
    | cons x t ih =>
      intro n hn
      cases n with
      | zero => exact congrArg (· :: t) hn
      | succ n => exact congrArg (x :: ·) (ih n hn)
  exact this _ _ he

theorem ownWrite_records (s : State) (die a : Nat) (bs : List Byte) : (s.ownWrite die a bs).records = s.records := by
  rw [ownWrite_cached s die a bs]

theorem deposit_records (s : State) (c o : Nat) (sc : Scope) (d : Sig) (f : Nat) : (s.deposit c o sc d none f).records = s.records := by
  unfold State.deposit
  dsimp only
  split
  · rfl
  · exact ownWrite_records _ _ _ _

theorem judge_read {m : Sys2Proof.Msg} {s : State} {b w : List Byte} {pa : Nat} (hA : Arrives 1 m s) (hO : Open m s)
    (h1 : s.readRecord (m.endpoint - 1) (s.queueDie (m.endpoint - 1) m.queue) (Msg.fld m 0 8) 256 = (.ok b, s)) (h2 : lr b 0 8 % 8 = 0) (h3 : lr b 16 8 = 0)
    (h4 : s.readRecord (m.endpoint - 1) (s.queueDie (m.endpoint - 1) m.queue) (lr b 0 8) 8 = (.ok w, s)) (h5 : badLaunch b false (some (ofBytes w)) = [])
    (h6 : s.agentAt (m.endpoint - 1) (s.queueDie (m.endpoint - 1) m.queue) (parseLaunch b).completion .write = (.ok pa, s)) (h7 : (parseLaunch b).geometry = true)
    (h8 : (Occ.empty.fit (parseLaunch b).need).isSome = true) :
    exec (.launch m) s = .next (if 32 ≤ s.queueLen (m.endpoint - 1) m.queue then s.reject m 2 0
      else match s.findSerial (m.endpoint - 1) 65536 (s.ctx (m.endpoint - 1)).nextSerial with
        | none => s.reject m 8 0
        | some n => s.acceptLaunch m (m.endpoint - 1) n (parseLaunch b)) := by
  show Host.Outcome.next _ = _
  rw [receive_arrives hA]
  unfold State.judgeLaunch
  dsimp only
  rw [hO.1, hO.2, if_neg (by decide), h1]
  dsimp only
  rw [if_neg (by omega), h4]
  dsimp only
  have : (lr b 16 8 != 0 && s.kernels.any (fun k => k.ctx == m.endpoint - 1 && !(s.kernelGone (m.endpoint - 1) k.serial) && k.lrec.colourBase != 0 && k.lrec.colourBase != lr b 16 8)) = false := by
    rw [h3]; rfl
  rw [this, h5]
  have hl : leastBy id ([] : List Nat) = none := rfl
  rw [hl]
  dsimp only
  rw [h6]
  dsimp only
  have h9 : (Occ.empty.fit (parseLaunch b).need).isNone = false := by
    cases hf : Occ.empty.fit (parseLaunch b).need with
    | none => rw [hf] at h8; cases h8
    | some _ => rfl
  rw [h7, h9, if_neg (by decide)]

theorem find?_append_filter {α : Type} (p : α → Bool) (l : List α) (a : α) (h : p a = true) : (l.filter (fun x => !(p x)) ++ [a]).find? p = some a := by
  rw [List.find?_append]
  have : (l.filter (fun x => !(p x))).find? p = none := by
    rw [List.find?_eq_none]
    intro x hx
    have := (List.mem_filter.1 hx).2
    simpa using this
  rw [this]
  simp [h]

theorem placeRest_idle {s : State} (die : Nat) (h : ∀ q ∈ s.kernels, q.st ≠ .running) (c : Nat) : s.placeRest die c = s := by
  unfold State.placeRest
  have : ((upto 4).flatMap (fun d => if d ≤ c then s.kernels.filter (fun k => k.cls = d ∧ k.st = .running ∧ s.queueDie k.ctx k.queue = die) else [])) = [] := by
    rw [List.flatMap_eq_nil_iff]
    intro d _
    split
    · rw [List.filter_eq_nil_iff]
      intro k hk hh
      exact h k hk (of_decide_eq_true hh).2.1
    · rfl
  rw [this]
  rfl

theorem headMsg_of {s : State} {m : CMsg} {k : MsgKind} (h : m.kind = k)
    (h2 : s.msgs.find? (fun q => q.src = m.src ∧ q.dst = m.dst ∧ q.kind.channel = m.kind.channel) = some m) : s.headMsg m.src m.dst k = some m := by
  subst h
  unfold State.headMsg
  rw [h2]
  exact if_pos rfl

theorem kick_nil {s : State} (h : s.queued = []) : s.kick = s := by
  unfold State.kick
  rw [h]
  show ({ s with queued := [] } : State) = s
  rw [← h]

end Sys2Proof.Machine
end

