-- ==== Sys2Proof/Laws/PerInstr.lean ====
section
/-! SUPPORT. What holds of each instruction: its word decodes to it. -/

namespace Sys2Proof.Laws.RoundTrip
open Machine

/-- The word of a well-formed instruction word decodes to that instruction (R93 to R102); the steps that have no word say nothing. -/
def Statement (i : Instr) : Prop := i.wf = true → i.isWord = true → decode (encode i) = .ok i

theorem nop (a0 : Com) : Statement (.nop a0) := fun hw _ => (Words.nop a0 hw).2
theorem bra (a0 : Com) (a1 : Int) : Statement (.bra a0 a1) := fun hw _ => (Words.bra a0 a1 hw).2
theorem brx (a0 : Com) (a1 : Src) : Statement (.brx a0 a1) := fun hw _ => (Words.brx a0 a1 hw).2
theorem call (a0 : Com) (a1 : Nat) (a2 : Int) : Statement (.call a0 a1 a2) := fun hw _ => (Words.call a0 a1 a2 hw).2
theorem callx (a0 : Com) (a1 : Nat) : Statement (.callx a0 a1) := fun hw _ => (Words.callx a0 a1 hw).2
theorem ret (a0 : Com) (a1 : Src) : Statement (.ret a0 a1) := fun hw _ => (Words.ret a0 a1 hw).2
theorem exit (a0 : Com) : Statement (.exit a0) := fun hw _ => (Words.exit a0 hw).2
theorem yield (a0 : Com) : Statement (.yield a0) := fun hw _ => (Words.yield a0 hw).2
theorem waitf (a0 : Com) (a1 : Nat) : Statement (.waitf a0 a1) := fun hw _ => (Words.waitf a0 a1 hw).2
theorem trap (a0 : Com) (a1 : Nat) (a2 : Option Src) : Statement (.trap a0 a1 a2) := fun hw _ => (Words.trap a0 a1 a2 hw).2
theorem pset (a0 : Com) (a1 : Ty) (a2 : Cmp) (a3 : Nat) (a4 : Src) (a5 : Src) : Statement (.pset a0 a1 a2 a3 a4 a5) := fun hw _ => (Words.pset a0 a1 a2 a3 a4 a5 hw).2
theorem psetfFrom (a0 : Com) (a1 : Src) (a2 : Src) : Statement (.psetfFrom a0 a1 a2) := fun hw _ => (Words.psetfFrom a0 a1 a2 hw).2
theorem psetfTo (a0 : Com) (a1 : Dst) : Statement (.psetfTo a0 a1) := fun hw _ => (Words.psetfTo a0 a1 hw).2
theorem plog (a0 : Com) (a1 : LogOp) (a2 : Nat) (a3 : PSrc) (a4 : Option PSrc) (a5 : Option PSrc) : Statement (.plog a0 a1 a2 a3 a4 a5) := fun hw _ => (Words.plog a0 a1 a2 a3 a4 a5 hw).2
theorem vote (a0 : Com) (a1 : VoteOp) (a2 : PSrc) : Statement (.vote a0 a1 a2) := fun hw _ => (Words.vote a0 a1 a2 hw).2
theorem shfl (a0 : Com) (a1 : Ty) (a2 : ShflMode) (a3 : Dst) (a4 : Src) (a5 : Src) (a6 : Nat) : Statement (.shfl a0 a1 a2 a3 a4 a5 a6) := fun hw _ => (Words.shfl a0 a1 a2 a3 a4 a5 a6 hw).2
theorem hred (a0 : Com) (a1 : Ty) (a2 : Rnd) (a3 : RedOp) (a4 : Dst) (a5 : Src) : Statement (.hred a0 a1 a2 a3 a4 a5) := fun hw _ => (Words.hred a0 a1 a2 a3 a4 a5 hw).2
theorem hscan (a0 : Com) (a1 : Ty) (a2 : Rnd) (a3 : RedOp) (a4 : Bool) (a5 : Dst) (a6 : Src) (a7 : Option PSrc) : Statement (.hscan a0 a1 a2 a3 a4 a5 a6 a7) := fun hw _ => (Words.hscan a0 a1 a2 a3 a4 a5 a6 a7 hw).2
theorem matchv (a0 : Com) (a1 : Ty) (a2 : Dst) (a3 : Src) : Statement (.matchv a0 a1 a2 a3) := fun hw _ => (Words.matchv a0 a1 a2 a3 hw).2
theorem iadd (a0 : Com) (a1 : Ty) (a2 : Bool) (a3 : Dst) (a4 : Src) (a5 : Src) : Statement (.iadd a0 a1 a2 a3 a4 a5) := fun hw _ => (Words.iadd a0 a1 a2 a3 a4 a5 hw).2
theorem isub (a0 : Com) (a1 : Ty) (a2 : Bool) (a3 : Dst) (a4 : Src) (a5 : Src) : Statement (.isub a0 a1 a2 a3 a4 a5) := fun hw _ => (Words.isub a0 a1 a2 a3 a4 a5 hw).2
theorem imul (a0 : Com) (a1 : Ty) (a2 : MulMode) (a3 : Dst) (a4 : Src) (a5 : Src) : Statement (.imul a0 a1 a2 a3 a4 a5) := fun hw _ => (Words.imul a0 a1 a2 a3 a4 a5 hw).2
theorem imad (a0 : Com) (a1 : Ty) (a2 : Bool) (a3 : Dst) (a4 : Src) (a5 : Src) (a6 : Src) : Statement (.imad a0 a1 a2 a3 a4 a5 a6) := fun hw _ => (Words.imad a0 a1 a2 a3 a4 a5 a6 hw).2
theorem idiv (a0 : Com) (a1 : Ty) (a2 : Bool) (a3 : Dst) (a4 : Src) (a5 : Src) : Statement (.idiv a0 a1 a2 a3 a4 a5) := fun hw _ => (Words.idiv a0 a1 a2 a3 a4 a5 hw).2
theorem imin (a0 : Com) (a1 : Ty) (a2 : Dst) (a3 : Src) (a4 : Src) : Statement (.imin a0 a1 a2 a3 a4) := fun hw _ => (Words.imin a0 a1 a2 a3 a4 hw).2
theorem imax (a0 : Com) (a1 : Ty) (a2 : Dst) (a3 : Src) (a4 : Src) : Statement (.imax a0 a1 a2 a3 a4) := fun hw _ => (Words.imax a0 a1 a2 a3 a4 hw).2
theorem iabs (a0 : Com) (a1 : Ty) (a2 : Bool) (a3 : Dst) (a4 : Src) : Statement (.iabs a0 a1 a2 a3 a4) := fun hw _ => (Words.iabs a0 a1 a2 a3 a4 hw).2
theorem and (a0 : Com) (a1 : Ty) (a2 : Dst) (a3 : Src) (a4 : Src) : Statement (.and a0 a1 a2 a3 a4) := fun hw _ => (Words.and a0 a1 a2 a3 a4 hw).2
theorem or (a0 : Com) (a1 : Ty) (a2 : Dst) (a3 : Src) (a4 : Src) : Statement (.or a0 a1 a2 a3 a4) := fun hw _ => (Words.or a0 a1 a2 a3 a4 hw).2
theorem xor (a0 : Com) (a1 : Ty) (a2 : Dst) (a3 : Src) (a4 : Src) : Statement (.xor a0 a1 a2 a3 a4) := fun hw _ => (Words.xor a0 a1 a2 a3 a4 hw).2
theorem shl (a0 : Com) (a1 : Ty) (a2 : Bool) (a3 : Dst) (a4 : Src) (a5 : Src) : Statement (.shl a0 a1 a2 a3 a4 a5) := fun hw _ => (Words.shl a0 a1 a2 a3 a4 a5 hw).2
theorem shr (a0 : Com) (a1 : Ty) (a2 : Bool) (a3 : Dst) (a4 : Src) (a5 : Src) : Statement (.shr a0 a1 a2 a3 a4 a5) := fun hw _ => (Words.shr a0 a1 a2 a3 a4 a5 hw).2
theorem bfx (a0 : Com) (a1 : Ty) (a2 : Dst) (a3 : Src) (a4 : Src) : Statement (.bfx a0 a1 a2 a3 a4) := fun hw _ => (Words.bfx a0 a1 a2 a3 a4 hw).2
theorem bfi (a0 : Com) (a1 : Ty) (a2 : Dst) (a3 : Src) (a4 : Src) (a5 : Src) : Statement (.bfi a0 a1 a2 a3 a4 a5) := fun hw _ => (Words.bfi a0 a1 a2 a3 a4 a5 hw).2
theorem popc (a0 : Com) (a1 : Ty) (a2 : Dst) (a3 : Src) : Statement (.popc a0 a1 a2 a3) := fun hw _ => (Words.popc a0 a1 a2 a3 hw).2
theorem clz (a0 : Com) (a1 : Ty) (a2 : Dst) (a3 : Src) : Statement (.clz a0 a1 a2 a3) := fun hw _ => (Words.clz a0 a1 a2 a3 hw).2
theorem brev (a0 : Com) (a1 : Ty) (a2 : Dst) (a3 : Src) : Statement (.brev a0 a1 a2 a3) := fun hw _ => (Words.brev a0 a1 a2 a3 hw).2
theorem sel (a0 : Com) (a1 : Ty) (a2 : Dst) (a3 : Src) (a4 : Src) (a5 : PSrc) : Statement (.sel a0 a1 a2 a3 a4 a5) := fun hw _ => (Words.sel a0 a1 a2 a3 a4 a5 hw).2
theorem mov (a0 : Com) (a1 : Ty) (a2 : Dst) (a3 : Src) : Statement (.mov a0 a1 a2 a3) := fun hw _ => (Words.mov a0 a1 a2 a3 hw).2
theorem movi (a0 : Com) (a1 : Ty) (a2 : Bool) (a3 : Dst) (a4 : Nat) : Statement (.movi a0 a1 a2 a3 a4) := fun hw _ => (Words.movi a0 a1 a2 a3 a4 hw).2
theorem addi (a0 : Com) (a1 : Ty) (a2 : Bool) (a3 : Dst) (a4 : Src) (a5 : Int) : Statement (.addi a0 a1 a2 a3 a4 a5) := fun hw _ => (Words.addi a0 a1 a2 a3 a4 a5 hw).2
theorem lea (a0 : Com) (a1 : Bool) (a2 : Nat) (a3 : Dst) (a4 : Src) (a5 : Src) : Statement (.lea a0 a1 a2 a3 a4 a5) := fun hw _ => (Words.lea a0 a1 a2 a3 a4 a5 hw).2
theorem bysel (a0 : Com) (a1 : Bool) (a2 : Dst) (a3 : Src) (a4 : Src) (a5 : Src) : Statement (.bysel a0 a1 a2 a3 a4 a5) := fun hw _ => (Words.bysel a0 a1 a2 a3 a4 a5 hw).2
theorem fadd (a0 : Com) (a1 : Rnd) (a2 : Bool) (a3 : Dst) (a4 : Src) (a5 : Src) (a6 : Option Src) : Statement (.fadd a0 a1 a2 a3 a4 a5 a6) := fun hw _ => (Words.fadd a0 a1 a2 a3 a4 a5 a6 hw).2
theorem fsub (a0 : Com) (a1 : Rnd) (a2 : Bool) (a3 : Dst) (a4 : Src) (a5 : Src) (a6 : Option Src) : Statement (.fsub a0 a1 a2 a3 a4 a5 a6) := fun hw _ => (Words.fsub a0 a1 a2 a3 a4 a5 a6 hw).2
theorem fmul (a0 : Com) (a1 : Rnd) (a2 : Bool) (a3 : Dst) (a4 : Src) (a5 : Src) (a6 : Option Src) : Statement (.fmul a0 a1 a2 a3 a4 a5 a6) := fun hw _ => (Words.fmul a0 a1 a2 a3 a4 a5 a6 hw).2
theorem ffma (a0 : Com) (a1 : Rnd) (a2 : Bool) (a3 : Dst) (a4 : Src) (a5 : Src) (a6 : Src) : Statement (.ffma a0 a1 a2 a3 a4 a5 a6) := fun hw _ => (Words.ffma a0 a1 a2 a3 a4 a5 a6 hw).2
theorem fmin (a0 : Com) (a1 : Bool) (a2 : Dst) (a3 : Src) (a4 : Src) : Statement (.fmin a0 a1 a2 a3 a4) := fun hw _ => (Words.fmin a0 a1 a2 a3 a4 hw).2
theorem fmax (a0 : Com) (a1 : Bool) (a2 : Dst) (a3 : Src) (a4 : Src) : Statement (.fmax a0 a1 a2 a3 a4) := fun hw _ => (Words.fmax a0 a1 a2 a3 a4 hw).2
theorem fsign (a0 : Com) (a1 : SignOp) (a2 : Dst) (a3 : Src) (a4 : Option Src) : Statement (.fsign a0 a1 a2 a3 a4) := fun hw _ => (Words.fsign a0 a1 a2 a3 a4 hw).2
theorem frcp (a0 : Com) (a1 : Dst) (a2 : Src) : Statement (.frcp a0 a1 a2) := fun hw _ => (Words.frcp a0 a1 a2 hw).2
theorem frsq (a0 : Com) (a1 : Dst) (a2 : Src) : Statement (.frsq a0 a1 a2) := fun hw _ => (Words.frsq a0 a1 a2 hw).2
theorem fsqrt (a0 : Com) (a1 : Rnd) (a2 : Bool) (a3 : Dst) (a4 : Src) (a5 : Option Src) : Statement (.fsqrt a0 a1 a2 a3 a4 a5) := fun hw _ => (Words.fsqrt a0 a1 a2 a3 a4 a5 hw).2
theorem fdiv (a0 : Com) (a1 : Rnd) (a2 : Bool) (a3 : Dst) (a4 : Src) (a5 : Src) (a6 : Option Src) : Statement (.fdiv a0 a1 a2 a3 a4 a5 a6) := fun hw _ => (Words.fdiv a0 a1 a2 a3 a4 a5 a6 hw).2
theorem fexp2 (a0 : Com) (a1 : Dst) (a2 : Src) : Statement (.fexp2 a0 a1 a2) := fun hw _ => (Words.fexp2 a0 a1 a2 hw).2
theorem flog2 (a0 : Com) (a1 : Dst) (a2 : Src) : Statement (.flog2 a0 a1 a2) := fun hw _ => (Words.flog2 a0 a1 a2 hw).2
theorem ftanh (a0 : Com) (a1 : Dst) (a2 : Src) : Statement (.ftanh a0 a1 a2) := fun hw _ => (Words.ftanh a0 a1 a2 hw).2
theorem fclass (a0 : Com) (a1 : Ty) (a2 : Dst) (a3 : Src) : Statement (.fclass a0 a1 a2 a3) := fun hw _ => (Words.fclass a0 a1 a2 a3 hw).2
theorem frnd (a0 : Com) (a1 : Rnd) (a2 : Bool) (a3 : Dst) (a4 : Src) (a5 : Option Src) : Statement (.frnd a0 a1 a2 a3 a4 a5) := fun hw _ => (Words.frnd a0 a1 a2 a3 a4 a5 hw).2
theorem pkadd (a0 : Com) (a1 : Rnd) (a2 : Bool) (a3 : Bool) (a4 : Dst) (a5 : Src) (a6 : Src) (a7 : Option Src) : Statement (.pkadd a0 a1 a2 a3 a4 a5 a6 a7) := fun hw _ => (Words.pkadd a0 a1 a2 a3 a4 a5 a6 a7 hw).2
theorem pkmul (a0 : Com) (a1 : Rnd) (a2 : Bool) (a3 : Bool) (a4 : Dst) (a5 : Src) (a6 : Src) (a7 : Option Src) : Statement (.pkmul a0 a1 a2 a3 a4 a5 a6 a7) := fun hw _ => (Words.pkmul a0 a1 a2 a3 a4 a5 a6 a7 hw).2
theorem pkfma (a0 : Com) (a1 : Rnd) (a2 : Bool) (a3 : Bool) (a4 : Dst) (a5 : Src) (a6 : Src) (a7 : Src) : Statement (.pkfma a0 a1 a2 a3 a4 a5 a6 a7) := fun hw _ => (Words.pkfma a0 a1 a2 a3 a4 a5 a6 a7 hw).2
theorem pkmnx (a0 : Com) (a1 : MnxOp) (a2 : Bool) (a3 : Dst) (a4 : Src) (a5 : Src) : Statement (.pkmnx a0 a1 a2 a3 a4 a5) := fun hw _ => (Words.pkmnx a0 a1 a2 a3 a4 a5 hw).2
theorem cvti (a0 : Com) (a1 : Ty) (a2 : Ty) (a3 : Rnd) (a4 : Dst) (a5 : Src) (a6 : Option Src) : Statement (.cvti a0 a1 a2 a3 a4 a5 a6) := fun hw _ => (Words.cvti a0 a1 a2 a3 a4 a5 a6 hw).2
theorem cvtf (a0 : Com) (a1 : Ty) (a2 : Ty) (a3 : Rnd) (a4 : Bool) (a5 : Dst) (a6 : Src) (a7 : Option Src) : Statement (.cvtf a0 a1 a2 a3 a4 a5 a6 a7) := fun hw _ => (Words.cvtf a0 a1 a2 a3 a4 a5 a6 a7 hw).2
theorem pack2 (a0 : Com) (a1 : Ty) (a2 : Rnd) (a3 : Bool) (a4 : Scale) (a5 : Dst) (a6 : Nat) (a7 : Option Src) : Statement (.pack2 a0 a1 a2 a3 a4 a5 a6 a7) := fun hw _ => (Words.pack2 a0 a1 a2 a3 a4 a5 a6 a7 hw).2
theorem pack4 (a0 : Com) (a1 : Ty) (a2 : Rnd) (a3 : Bool) (a4 : Scale) (a5 : Dst) (a6 : Nat) (a7 : Option Src) : Statement (.pack4 a0 a1 a2 a3 a4 a5 a6 a7) := fun hw _ => (Words.pack4 a0 a1 a2 a3 a4 a5 a6 a7 hw).2
theorem pack8 (a0 : Com) (a1 : Ty) (a2 : Rnd) (a3 : Bool) (a4 : Scale) (a5 : Dst) (a6 : Nat) (a7 : Option Src) : Statement (.pack8 a0 a1 a2 a3 a4 a5 a6 a7) := fun hw _ => (Words.pack8 a0 a1 a2 a3 a4 a5 a6 a7 hw).2
theorem unpk2 (a0 : Com) (a1 : Ty) (a2 : Rnd) (a3 : Scale) (a4 : Nat) (a5 : Src) (a6 : Option Src) : Statement (.unpk2 a0 a1 a2 a3 a4 a5 a6) := fun hw _ => (Words.unpk2 a0 a1 a2 a3 a4 a5 a6 hw).2
theorem unpk4 (a0 : Com) (a1 : Ty) (a2 : Rnd) (a3 : Scale) (a4 : Nat) (a5 : Src) (a6 : Option Src) : Statement (.unpk4 a0 a1 a2 a3 a4 a5 a6) := fun hw _ => (Words.unpk4 a0 a1 a2 a3 a4 a5 a6 hw).2
theorem unpk8 (a0 : Com) (a1 : Ty) (a2 : Rnd) (a3 : Scale) (a4 : Nat) (a5 : Src) (a6 : Option Src) : Statement (.unpk8 a0 a1 a2 a3 a4 a5 a6) := fun hw _ => (Words.unpk8 a0 a1 a2 a3 a4 a5 a6 hw).2
theorem scalex (a0 : Com) (a1 : Rnd) (a2 : Bool) (a3 : Bool) (a4 : Nat) (a5 : Dst) (a6 : Src) (a7 : Src) (a8 : Option Src) : Statement (.scalex a0 a1 a2 a3 a4 a5 a6 a7 a8) := fun hw _ => (Words.scalex a0 a1 a2 a3 a4 a5 a6 a7 a8 hw).2
theorem bldMem (a0 : Com) (a1 : Nat) (a2 : Src) (a3 : Nat) : Statement (.bldMem a0 a1 a2 a3) := fun hw _ => (Words.bldMem a0 a1 a2 a3 hw).2
theorem bldQ (a0 : Com) (a1 : Nat) (a2 : Nat) (a3 : Src) : Statement (.bldQ a0 a1 a2 a3) := fun hw _ => (Words.bldQ a0 a1 a2 a3 hw).2
theorem bldK (a0 : Com) (a1 : Nat) (a2 : Nat) : Statement (.bldK a0 a1 a2) := fun hw _ => (Words.bldK a0 a1 a2 hw).2
theorem bldZero (a0 : Com) (a1 : Nat) : Statement (.bldZero a0 a1) := fun hw _ => (Words.bldZero a0 a1 hw).2
theorem bsubOff (a0 : Com) (a1 : Nat) (a2 : Nat) (a3 : Src) : Statement (.bsubOff a0 a1 a2 a3) := fun hw _ => (Words.bsubOff a0 a1 a2 a3 hw).2
theorem bsubWin (a0 : Com) (a1 : Nat) (a2 : Nat) (a3 : Src) (a4 : Nat) : Statement (.bsubWin a0 a1 a2 a3 a4) := fun hw _ => (Words.bsubWin a0 a1 a2 a3 a4 hw).2
theorem bsubColour (a0 : Com) (a1 : Nat) (a2 : Nat) (a3 : Nat) : Statement (.bsubColour a0 a1 a2 a3) := fun hw _ => (Words.bsubColour a0 a1 a2 a3 hw).2
theorem bsubFlags (a0 : Com) (a1 : Nat) (a2 : Nat) (a3 : Nat) : Statement (.bsubFlags a0 a1 a2 a3) := fun hw _ => (Words.bsubFlags a0 a1 a2 a3 hw).2
theorem ld (a0 : Com) (a1 : Bool) (a2 : Nat) (a3 : Nat) (a4 : Index) (a5 : Nat) : Statement (.ld a0 a1 a2 a3 a4 a5) := fun hw _ => (Words.ld a0 a1 a2 a3 a4 a5 hw).2
theorem st (a0 : Com) (a1 : Bool) (a2 : Nat) (a3 : Nat) (a4 : Index) (a5 : Nat) : Statement (.st a0 a1 a2 a3 a4 a5) := fun hw _ => (Words.st a0 a1 a2 a3 a4 a5 hw).2
theorem ldg (a0 : Com) (a1 : Bool) (a2 : Nat) (a3 : Nat) (a4 : GIndex) (a5 : Nat) : Statement (.ldg a0 a1 a2 a3 a4 a5) := fun hw _ => (Words.ldg a0 a1 a2 a3 a4 a5 hw).2
theorem stg (a0 : Com) (a1 : Bool) (a2 : Nat) (a3 : Nat) (a4 : GIndex) (a5 : Nat) : Statement (.stg a0 a1 a2 a3 a4 a5) := fun hw _ => (Words.stg a0 a1 a2 a3 a4 a5 hw).2
theorem lds (a0 : Com) (a1 : Bool) (a2 : Nat) (a3 : Nat) (a4 : Src) (a5 : Option Src) : Statement (.lds a0 a1 a2 a3 a4 a5) := fun hw _ => (Words.lds a0 a1 a2 a3 a4 a5 hw).2
theorem sts (a0 : Com) (a1 : Bool) (a2 : Nat) (a3 : Nat) (a4 : Src) (a5 : Option Src) : Statement (.sts a0 a1 a2 a3 a4 a5) := fun hw _ => (Words.sts a0 a1 a2 a3 a4 a5 hw).2
theorem ldsr (a0 : Com) (a1 : Bool) (a2 : Nat) (a3 : Nat) (a4 : Src) (a5 : Src) : Statement (.ldsr a0 a1 a2 a3 a4 a5) := fun hw _ => (Words.ldsr a0 a1 a2 a3 a4 a5 hw).2
theorem stsr (a0 : Com) (a1 : Bool) (a2 : Nat) (a3 : Nat) (a4 : Src) (a5 : Src) : Statement (.stsr a0 a1 a2 a3 a4 a5) := fun hw _ => (Words.stsr a0 a1 a2 a3 a4 a5 hw).2
theorem pref (a0 : Com) (a1 : Bool) (a2 : Nat) (a3 : Index) (a4 : Nat) : Statement (.pref a0 a1 a2 a3 a4) := fun hw _ => (Words.pref a0 a1 a2 a3 a4 hw).2
theorem cmaintInv (a0 : Com) (a1 : Nat) (a2 : Index) (a3 : Nat) : Statement (.cmaintInv a0 a1 a2 a3) := fun hw _ => (Words.cmaintInv a0 a1 a2 a3 hw).2
theorem cmaintWb (a0 : Com) (a1 : Nat) (a2 : Index) (a3 : Nat) : Statement (.cmaintWb a0 a1 a2 a3) := fun hw _ => (Words.cmaintWb a0 a1 a2 a3 hw).2
theorem cmaintInvall (a0 : Com) : Statement (.cmaintInvall a0) := fun hw _ => (Words.cmaintInvall a0 hw).2
theorem ldk (a0 : Com) (a1 : Nat) (a2 : Nat) (a3 : Index) (a4 : Nat) : Statement (.ldk a0 a1 a2 a3 a4) := fun hw _ => (Words.ldk a0 a1 a2 a3 a4 hw).2
theorem atom (a0 : Com) (a1 : AtomOp) (a2 : AtomKind) (a3 : Nat) (a4 : Order) (a5 : Scope) (a6 : Option Dst) (a7 : Index) (a8 : Src) (a9 : Nat) : Statement (.atom a0 a1 a2 a3 a4 a5 a6 a7 a8 a9) := fun hw _ => (Words.atom a0 a1 a2 a3 a4 a5 a6 a7 a8 a9 hw).2
theorem acas (a0 : Com) (a1 : Nat) (a2 : Order) (a3 : Scope) (a4 : Dst) (a5 : Index) (a6 : Src) (a7 : Nat) : Statement (.acas a0 a1 a2 a3 a4 a5 a6 a7) := fun hw _ => (Words.acas a0 a1 a2 a3 a4 a5 a6 a7 hw).2
theorem atoms (a0 : Com) (a1 : AtomOp) (a2 : AtomKind) (a3 : Nat) (a4 : Order) (a5 : Scope) (a6 : Option Dst) (a7 : Src) (a8 : Src) : Statement (.atoms a0 a1 a2 a3 a4 a5 a6 a7 a8) := fun hw _ => (Words.atoms a0 a1 a2 a3 a4 a5 a6 a7 a8 hw).2
theorem waita (a0 : Com) (a1 : Option Nat) (a2 : Src) (a3 : Src) (a4 : WaitCmp) (a5 : Bool) (a6 : Bool) (a7 : Bool) (a8 : Option Scope) : Statement (.waita a0 a1 a2 a3 a4 a5 a6 a7 a8) := fun hw _ => (Words.waita a0 a1 a2 a3 a4 a5 a6 a7 a8 hw).2
theorem fence (a0 : Com) (a1 : FenceKind) (a2 : Bool) (a3 : Scope) : Statement (.fence a0 a1 a2 a3) := fun hw _ => (Words.fence a0 a1 a2 a3 hw).2
theorem ldacq (a0 : Com) (a1 : Nat) (a2 : Scope) (a3 : Dst) (a4 : Index) (a5 : Nat) : Statement (.ldacq a0 a1 a2 a3 a4 a5) := fun hw _ => (Words.ldacq a0 a1 a2 a3 a4 a5 hw).2
theorem strel (a0 : Com) (a1 : Nat) (a2 : Scope) (a3 : Src) (a4 : Index) (a5 : Nat) : Statement (.strel a0 a1 a2 a3 a4 a5) := fun hw _ => (Words.strel a0 a1 a2 a3 a4 a5 hw).2
theorem syadd (a0 : Com) (a1 : Order) (a2 : Scope) (a3 : Option Dst) (a4 : Index) (a5 : Src) (a6 : Nat) : Statement (.syadd a0 a1 a2 a3 a4 a5 a6) := fun hw _ => (Words.syadd a0 a1 a2 a3 a4 a5 a6 hw).2
theorem bar (a0 : Com) (a1 : Nat) (a2 : Option Src) : Statement (.bar a0 a1 a2) := fun hw _ => (Words.bar a0 a1 a2 hw).2
theorem bara (a0 : Com) (a1 : Nat) (a2 : Option Src) : Statement (.bara a0 a1 a2) := fun hw _ => (Words.bara a0 a1 a2 hw).2
theorem cpyin (a0 : Com) (a1 : Nat) (a2 : Src) (a3 : Index) (a4 : Option Src) (a5 : Nat) : Statement (.cpyin a0 a1 a2 a3 a4 a5) := fun hw _ => (Words.cpyin a0 a1 a2 a3 a4 a5 hw).2
theorem cpyout (a0 : Com) (a1 : Nat) (a2 : Src) (a3 : Index) (a4 : Option Src) (a5 : Nat) : Statement (.cpyout a0 a1 a2 a3 a4 a5) := fun hw _ => (Words.cpyout a0 a1 a2 a3 a4 a5 hw).2
theorem cpyw (a0 : Com) (a1 : Nat) (a2 : Scope) (a3 : Src) (a4 : Index) (a5 : Nat) : Statement (.cpyw a0 a1 a2 a3 a4 a5) := fun hw _ => (Words.cpyw a0 a1 a2 a3 a4 a5 hw).2
theorem rfill (a0 : Com) (a1 : Src) : Statement (.rfill a0 a1) := fun hw _ => (Words.rfill a0 a1 hw).2
theorem rawait (a0 : Com) (a1 : Stage) (a2 : Option Nat) (a3 : Src) : Statement (.rawait a0 a1 a2 a3) := fun hw _ => (Words.rawait a0 a1 a2 a3 hw).2
theorem rrelease (a0 : Com) (a1 : Src) : Statement (.rrelease a0 a1) := fun hw _ => (Words.rrelease a0 a1 hw).2
theorem rpush (a0 : Com) (a1 : Src) : Statement (.rpush a0 a1) := fun hw _ => (Words.rpush a0 a1 hw).2
theorem rinit (a0 : Com) (a1 : Src) (a2 : Nat) : Statement (.rinit a0 a1 a2) := fun hw _ => (Words.rinit a0 a1 a2 hw).2
theorem split (a0 : Com) (a1 : Bool) (a2 : Src) : Statement (.split a0 a1 a2) := fun hw _ => (Words.split a0 a1 a2 hw).2
theorem mmarkSelf (a0 : Com) (a1 : Nat) : Statement (.mmarkSelf a0 a1) := fun hw _ => (Words.mmarkSelf a0 a1 hw).2
theorem mmarkMask (a0 : Com) (a1 : Nat) (a2 : Nat) (a3 : Src) : Statement (.mmarkMask a0 a1 a2 a3) := fun hw _ => (Words.mmarkMask a0 a1 a2 a3 hw).2
theorem mmarkClear (a0 : Com) (a1 : Nat) : Statement (.mmarkClear a0 a1) := fun hw _ => (Words.mmarkClear a0 a1 hw).2
theorem mldw (a0 : Com) (a1 : Nat) (a2 : Bool) (a3 : MFmt) (a4 : Bool) (a5 : Src) : Statement (.mldw a0 a1 a2 a3 a4 a5) := fun hw _ => (Words.mldw a0 a1 a2 a3 a4 a5 hw).2
theorem mswap (a0 : Com) (a1 : Nat) (a2 : Bool) : Statement (.mswap a0 a1 a2) := fun hw _ => (Words.mswap a0 a1 a2 hw).2
theorem mstr (a0 : Com) (a1 : Nat) (a2 : Bool) (a3 : MFmt) (a4 : Bool) (a5 : Nat) (a6 : Src) (a7 : Nat) : Statement (.mstr a0 a1 a2 a3 a4 a5 a6 a7) := fun hw _ => (Words.mstr a0 a1 a2 a3 a4 a5 a6 a7 hw).2
theorem mdist (a0 : Com) (a1 : Nat) (a2 : Bool) (a3 : MFmt) (a4 : Bool) (a5 : Nat) (a6 : Src) (a7 : Nat) : Statement (.mdist a0 a1 a2 a3 a4 a5 a6 a7) := fun hw _ => (Words.mdist a0 a1 a2 a3 a4 a5 a6 a7 hw).2
theorem mtopk (a0 : Com) (a1 : Nat) (a2 : Bool) (a3 : Bool) (a4 : Nat) (a5 : Nat) (a6 : Nat) : Statement (.mtopk a0 a1 a2 a3 a4 a5 a6) := fun hw _ => (Words.mtopk a0 a1 a2 a3 a4 a5 a6 hw).2
theorem mrd (a0 : Com) (a1 : Nat) (a2 : Bool) (a3 : Bool) (a4 : Nat) (a5 : Nat) : Statement (.mrd a0 a1 a2 a3 a4 a5) := fun hw _ => (Words.mrd a0 a1 a2 a3 a4 a5 hw).2
theorem mrdScr (a0 : Com) (a1 : Nat) (a2 : Bool) (a3 : Bool) (a4 : Bool) (a5 : Nat) (a6 : Src) (a7 : Nat) : Statement (.mrdScr a0 a1 a2 a3 a4 a5 a6 a7) := fun hw _ => (Words.mrdScr a0 a1 a2 a3 a4 a5 a6 a7 hw).2
theorem mclr (a0 : Com) (a1 : Nat) (a2 : Bool) (a3 : Bool) (a4 : Nat) (a5 : Nat) : Statement (.mclr a0 a1 a2 a3 a4 a5) := fun hw _ => (Words.mclr a0 a1 a2 a3 a4 a5 hw).2
theorem claim (a0 : Com) (a1 : Nat) (a2 : Nat) : Statement (.claim a0 a1 a2) := fun hw _ => (Words.claim a0 a1 a2 hw).2
theorem mwait (a0 : Com) (a1 : Option Nat) (a2 : Src) (a3 : Nat) : Statement (.mwait a0 a1 a2 a3) := fun hw _ => (Words.mwait a0 a1 a2 a3 hw).2
theorem mnote (a0 : Com) (a1 : Src) : Statement (.mnote a0 a1) := fun hw _ => (Words.mnote a0 a1 hw).2
theorem mnoteall (a0 : Com) (a1 : Src) : Statement (.mnoteall a0 a1) := fun hw _ => (Words.mnoteall a0 a1 hw).2
theorem heldTest (a0 : Com) (a1 : Nat) (a2 : Src) : Statement (.heldTest a0 a1 a2) := fun hw _ => (Words.heldTest a0 a1 a2 hw).2
theorem heldList (a0 : Com) (a1 : Dst) (a2 : Src) : Statement (.heldList a0 a1 a2) := fun hw _ => (Words.heldList a0 a1 a2 hw).2
theorem mrepair (a0 : Com) (a1 : Src) : Statement (.mrepair a0 a1) := fun hw _ => (Words.mrepair a0 a1 hw).2
theorem tspawn (a0 : Com) (a1 : Src) : Statement (.tspawn a0 a1) := fun hw _ => (Words.tspawn a0 a1 hw).2
theorem tdone (a0 : Com) : Statement (.tdone a0) := fun hw _ => (Words.tdone a0 hw).2
theorem publap (a0 : Com) (a1 : Bool) (a2 : Src) : Statement (.publap a0 a1 a2) := fun hw _ => (Words.publap a0 a1 a2 hw).2
theorem tstop (a0 : Com) (a1 : Src) : Statement (.tstop a0 a1) := fun hw _ => (Words.tstop a0 a1 hw).2
theorem tlapState (a0 : Com) (a1 : Nat) (a2 : Src) : Statement (.tlapState a0 a1 a2) := fun hw _ => (Words.tlapState a0 a1 a2 hw).2
theorem tlapBuf (a0 : Com) (a1 : Nat) (a2 : Src) : Statement (.tlapBuf a0 a1 a2) := fun hw _ => (Words.tlapBuf a0 a1 a2 hw).2
theorem tabortRequeue (a0 : Com) : Statement (.tabortRequeue a0) := fun hw _ => (Words.tabortRequeue a0 hw).2
theorem tabortFail (a0 : Com) : Statement (.tabortFail a0) := fun hw _ => (Words.tabortFail a0 hw).2
theorem tsettle (a0 : Com) (a1 : Src) : Statement (.tsettle a0 a1) := fun hw _ => (Words.tsettle a0 a1 hw).2
theorem resume (a0 : Com) (a1 : Bool) (a2 : Src) (a3 : Option Src) : Statement (.resume a0 a1 a2 a3) := fun hw _ => (Words.resume a0 a1 a2 a3 hw).2
theorem killLanes (a0 : Com) (a1 : Src) (a2 : Option Src) : Statement (.killLanes a0 a1 a2) := fun hw _ => (Words.killLanes a0 a1 a2 hw).2
theorem killHeat (a0 : Com) (a1 : Src) : Statement (.killHeat a0 a1) := fun hw _ => (Words.killHeat a0 a1 hw).2
theorem killKernel (a0 : Com) (a1 : Src) : Statement (.killKernel a0 a1) := fun hw _ => (Words.killKernel a0 a1 hw).2
theorem eret (a0 : Com) (a1 : Src) : Statement (.eret a0 a1) := fun hw _ => (Words.eret a0 a1 hw).2
theorem tframeNext (a0 : Com) (a1 : Nat) (a2 : Src) (a3 : Nat) : Statement (.tframeNext a0 a1 a2 a3) := fun hw _ => (Words.tframeNext a0 a1 a2 a3 hw).2
theorem tframeRd (a0 : Com) (a1 : Nat) (a2 : Src) (a3 : Src) (a4 : Nat) : Statement (.tframeRd a0 a1 a2 a3 a4) := fun hw _ => (Words.tframeRd a0 a1 a2 a3 a4 hw).2
theorem tframeWr (a0 : Com) (a1 : Src) (a2 : Src) (a3 : Nat) (a4 : Src) : Statement (.tframeWr a0 a1 a2 a3 a4) := fun hw _ => (Words.tframeWr a0 a1 a2 a3 a4 hw).2
theorem mfs (a0 : Com) (a1 : Nat) (a2 : Nat) : Statement (.mfs a0 a1 a2) := fun hw _ => (Words.mfs a0 a1 a2 hw).2
theorem mts (a0 : Com) (a1 : Nat) (a2 : Src) : Statement (.mts a0 a1 a2) := fun hw _ => (Words.mts a0 a1 a2 hw).2
theorem tlbinvRange (a0 : Com) (a1 : Src) (a2 : Src) : Statement (.tlbinvRange a0 a1 a2) := fun hw _ => (Words.tlbinvRange a0 a1 a2 hw).2
theorem tlbinvCtx (a0 : Com) : Statement (.tlbinvCtx a0) := fun hw _ => (Words.tlbinvCtx a0 hw).2
theorem splinter (a0 : Com) (a1 : Nat) (a2 : Src) (a3 : Src) : Statement (.splinter a0 a1 a2 a3) := fun hw _ => (Words.splinter a0 a1 a2 a3 hw).2
theorem brkpt (a0 : Com) : Statement (.brkpt a0) := fun hw _ => (Words.brkpt a0 hw).2
theorem brkptWset (a0 : Com) (a1 : Nat) (a2 : WatchKind) (a3 : Src) (a4 : Src) : Statement (.brkptWset a0 a1 a2 a3 a4) := fun hw _ => (Words.brkptWset a0 a1 a2 a3 a4 hw).2
theorem brkptWclr (a0 : Com) (a1 : Nat) : Statement (.brkptWclr a0 a1) := fun hw _ => (Words.brkptWclr a0 a1 hw).2
theorem haltallStop (a0 : Com) : Statement (.haltallStop a0) := fun hw _ => (Words.haltallStop a0 hw).2
theorem haltallGo (a0 : Com) : Statement (.haltallGo a0) := fun hw _ => (Words.haltallGo a0 hw).2
theorem undo (a0 : Com) (a1 : Option Nat) (a2 : Src) : Statement (.undo a0 a1 a2) := fun hw _ => (Words.undo a0 a1 a2 hw).2
theorem stamp (a0 : Com) (a1 : Scope) (a2 : Dst) : Statement (.stamp a0 a1 a2) := fun hw _ => (Words.stamp a0 a1 a2 hw).2
theorem bist (a0 : Com) (a1 : Nat) (a2 : Src) (a3 : Src) (a4 : Nat) : Statement (.bist a0 a1 a2 a3 a4) := fun hw _ => (Words.bist a0 a1 a2 a3 a4 hw).2
theorem defmap (a0 : Com) (a1 : Dst) (a2 : Src) : Statement (.defmap a0 a1 a2) := fun hw _ => (Words.defmap a0 a1 a2 hw).2
theorem releaseDeposit (a0 : Nat) (a1 : Nat) : Statement (.releaseDeposit a0 a1) := fun _ h => nomatch (show false = true from h)
theorem halt (a0 : Nat) : Statement (.halt a0) := fun _ h => nomatch (show false = true from h)
theorem pacedIssue (a0 : HeatKey) : Statement (.pacedIssue a0) := fun _ h => nomatch (show false = true from h)
theorem promote (a0 : HeatKey) : Statement (.promote a0) := fun _ h => nomatch (show false = true from h)
theorem memoryResponse (a0 : Nat) (a1 : Option Nat) (a2 : Reply) : Statement (.memoryResponse a0 a1 a2) := fun _ h => nomatch (show false = true from h)
theorem remoteTimeout (a0 : Nat) : Statement (.remoteTimeout a0) := fun _ h => nomatch (show false = true from h)
theorem copyComplete (a0 : Nat) : Statement (.copyComplete a0) := fun _ h => nomatch (show false = true from h)
theorem cpywPerform (a0 : HeatKey) : Statement (.cpywPerform a0) := fun _ h => nomatch (show false = true from h)
theorem waitaPoll (a0 : HeatKey) (a1 : Nat) : Statement (.waitaPoll a0 a1) := fun _ h => nomatch (show false = true from h)
theorem waitaTimeout (a0 : HeatKey) (a1 : Nat) : Statement (.waitaTimeout a0 a1) := fun _ h => nomatch (show false = true from h)
theorem handOff (a0 : UnitKey) (a1 : Nat) : Statement (.handOff a0 a1) := fun _ h => nomatch (show false = true from h)
theorem matrixOpComplete (a0 : Nat) (a1 : Bool) : Statement (.matrixOpComplete a0 a1) := fun _ h => nomatch (show false = true from h)
theorem monitorGrant (a0 : Nat) (a1 : Nat) : Statement (.monitorGrant a0 a1) := fun _ h => nomatch (show false = true from h)
theorem mwaitTimeout (a0 : HeatKey) (a1 : Nat) : Statement (.mwaitTimeout a0 a1) := fun _ h => nomatch (show false = true from h)
theorem heatRetire (a0 : HeatKey) : Statement (.heatRetire a0) := fun _ h => nomatch (show false = true from h)
theorem completionRelease (a0 : Nat) (a1 : Nat) : Statement (.completionRelease a0 a1) := fun _ h => nomatch (show false = true from h)
theorem launch (a0 : Msg) : Statement (.launch a0) := fun _ h => nomatch (show false = true from h)
theorem launchStart (a0 : Nat) : Statement (.launchStart a0) := fun _ h => nomatch (show false = true from h)
theorem relayStart (a0 : UnitKey) : Statement (.relayStart a0) := fun _ h => nomatch (show false = true from h)
theorem unitSave (a0 : UnitKey) : Statement (.unitSave a0) := fun _ h => nomatch (show false = true from h)
theorem suspendWindowExpiry (a0 : UnitKey) : Statement (.suspendWindowExpiry a0) := fun _ h => nomatch (show false = true from h)
theorem suspendDeadline (a0 : UnitKey) : Statement (.suspendDeadline a0) := fun _ h => nomatch (show false = true from h)
theorem unitRestore (a0 : Nat) : Statement (.unitRestore a0) := fun _ h => nomatch (show false = true from h)
theorem faultPost (a0 : Nat) : Statement (.faultPost a0) := fun _ h => nomatch (show false = true from h)
theorem faultPostRetry (a0 : Nat) : Statement (.faultPostRetry a0) := fun _ h => nomatch (show false = true from h)
theorem tframeTimeout (a0 : HeatKey) (a1 : Nat) : Statement (.tframeTimeout a0 a1) := fun _ h => nomatch (show false = true from h)
theorem pageDone (a0 : Msg) : Statement (.pageDone a0) := fun _ h => nomatch (show false = true from h)
theorem qctlSet (a0 : Msg) : Statement (.qctlSet a0) := fun _ h => nomatch (show false = true from h)
theorem qctlPause (a0 : Msg) : Statement (.qctlPause a0) := fun _ h => nomatch (show false = true from h)
theorem qctlUnpause (a0 : Msg) : Statement (.qctlUnpause a0) := fun _ h => nomatch (show false = true from h)
theorem qctlFlush (a0 : Msg) : Statement (.qctlFlush a0) := fun _ h => nomatch (show false = true from h)
theorem ctxOpen (a0 : Msg) : Statement (.ctxOpen a0) := fun _ h => nomatch (show false = true from h)
theorem ctxClose (a0 : Msg) : Statement (.ctxClose a0) := fun _ h => nomatch (show false = true from h)
theorem ctxCloseDone (a0 : Nat) : Statement (.ctxCloseDone a0) := fun _ h => nomatch (show false = true from h)
theorem saInstall (a0 : Msg) : Statement (.saInstall a0) := fun _ h => nomatch (show false = true from h)
theorem saRemove (a0 : Msg) : Statement (.saRemove a0) := fun _ h => nomatch (show false = true from h)
theorem uetWrite (a0 : Uet) (a1 : List Byte) : Statement (.uetWrite a0 a1) := fun _ h => nomatch (show false = true from h)
theorem uetRead (a0 : Uet) (a1 : Nat) : Statement (.uetRead a0 a1) := fun _ h => nomatch (show false = true from h)
theorem uetReleaseWrite (a0 : Uet) (a1 : W64) : Statement (.uetReleaseWrite a0 a1) := fun _ h => nomatch (show false = true from h)
theorem uudPacket (a0 : Nat) : Statement (.uudPacket a0) := fun _ h => nomatch (show false = true from h)
theorem readShared (a0 : Nat) (a1 : Nat) : Statement (.readShared a0 a1) := fun _ h => nomatch (show false = true from h)
theorem readOwn (a0 : Nat) (a1 : Nat) : Statement (.readOwn a0 a1) := fun _ h => nomatch (show false = true from h)
theorem upgrade (a0 : Nat) (a1 : Nat) : Statement (.upgrade a0 a1) := fun _ h => nomatch (show false = true from h)
theorem fwdShared (a0 : Nat) (a1 : Nat) : Statement (.fwdShared a0 a1) := fun _ h => nomatch (show false = true from h)
theorem fwdOwn (a0 : Nat) (a1 : Nat) : Statement (.fwdOwn a0 a1) := fun _ h => nomatch (show false = true from h)
theorem inval (a0 : Nat) (a1 : Nat) : Statement (.inval a0 a1) := fun _ h => nomatch (show false = true from h)
theorem backInval (a0 : Nat) (a1 : Nat) : Statement (.backInval a0 a1) := fun _ h => nomatch (show false = true from h)
theorem invalAck (a0 : Nat) (a1 : Nat) : Statement (.invalAck a0 a1) := fun _ h => nomatch (show false = true from h)
theorem dataClean (a0 : Nat) (a1 : Nat) (a2 : Option Nat) : Statement (.dataClean a0 a1 a2) := fun _ h => nomatch (show false = true from h)
theorem dataDirty (a0 : Nat) (a1 : Nat) (a2 : Option Nat) : Statement (.dataDirty a0 a1 a2) := fun _ h => nomatch (show false = true from h)
theorem writeBack (a0 : Nat) (a1 : Nat) : Statement (.writeBack a0 a1) := fun _ h => nomatch (show false = true from h)
theorem cleanEvict (a0 : Nat) (a1 : Nat) : Statement (.cleanEvict a0 a1) := fun _ h => nomatch (show false = true from h)
theorem backInvalAck (a0 : Nat) (a1 : Nat) : Statement (.backInvalAck a0 a1) := fun _ h => nomatch (show false = true from h)
theorem earlyClean (a0 : Nat) (a1 : Nat) : Statement (.earlyClean a0 a1) := fun _ h => nomatch (show false = true from h)
theorem requestBoundMiss (a0 : Nat) (a1 : Nat) : Statement (.requestBoundMiss a0 a1) := fun _ h => nomatch (show false = true from h)
theorem suspicion (a0 : Nat) (a1 : Nat) : Statement (.suspicion a0 a1) := fun _ h => nomatch (show false = true from h)
theorem probeTimeout (a0 : Nat) (a1 : Nat) : Statement (.probeTimeout a0 a1) := fun _ h => nomatch (show false = true from h)
theorem journalSave (a0 : Nat) (a1 : Nat) : Statement (.journalSave a0 a1) := fun _ h => nomatch (show false = true from h)
theorem deal (a0 : Nat) : Statement (.deal a0) := fun _ h => nomatch (show false = true from h)
theorem commit (a0 : Nat) : Statement (.commit a0) := fun _ h => nomatch (show false = true from h)
theorem dieTokenGrant (a0 : Nat) : Statement (.dieTokenGrant a0) := fun _ h => nomatch (show false = true from h)
theorem lapPublish (a0 : Nat) : Statement (.lapPublish a0) := fun _ h => nomatch (show false = true from h)
theorem groupSettle (a0 : Nat) (a1 : Nat) : Statement (.groupSettle a0 a1) := fun _ h => nomatch (show false = true from h)
theorem tlbinvComplete (a0 : HeatKey) : Statement (.tlbinvComplete a0) := fun _ h => nomatch (show false = true from h)
theorem uncorrectableError (a0 : ErrorAt) : Statement (.uncorrectableError a0) := fun _ h => nomatch (show false = true from h)
theorem patrolScrub (a0 : Nat) (a1 : Bool) : Statement (.patrolScrub a0 a1) := fun _ h => nomatch (show false = true from h)
theorem bistDone (a0 : Nat) (a1 : Bool) (a2 : Nat) (a3 : Nat) (a4 : Nat) : Statement (.bistDone a0 a1 a2 a3 a4) := fun _ h => nomatch (show false = true from h)
theorem powerGood (a0 : List FenceUnit) (a1 : Nat) : Statement (.powerGood a0 a1) := fun _ h => nomatch (show false = true from h)
theorem portTrainingDone (a0 : Nat) : Statement (.portTrainingDone a0) := fun _ h => nomatch (show false = true from h)
theorem dieReset (a0 : Nat) : Statement (.dieReset a0) := fun _ h => nomatch (show false = true from h)
theorem dieRejoin (a0 : Nat) (a1 : Bool) (a2 : List FenceUnit) : Statement (.dieRejoin a0 a1 a2) := fun _ h => nomatch (show false = true from h)
theorem portRetrain (a0 : Nat) : Statement (.portRetrain a0) := fun _ h => nomatch (show false = true from h)
theorem mgmtAssocInstall (a0 : List Byte) : Statement (.mgmtAssocInstall a0) := fun _ h => nomatch (show false = true from h)
theorem mapDataRead  : Statement .mapDataRead := fun _ h => absurd h (by decide)
theorem portErrorClear (a0 : Nat) : Statement (.portErrorClear a0) := fun _ h => nomatch (show false = true from h)
theorem powerCapWrite (a0 : Nat) : Statement (.powerCapWrite a0) := fun _ h => nomatch (show false = true from h)
theorem marginRun (a0 : Nat) : Statement (.marginRun a0) := fun _ h => nomatch (show false = true from h)
theorem marginDone (a0 : Nat) (a1 : Nat) : Statement (.marginDone a0 a1) := fun _ h => nomatch (show false = true from h)
theorem sidebandWrite (a0 : Nat) (a1 : List Byte) : Statement (.sidebandWrite a0 a1) := fun _ h => nomatch (show false = true from h)
theorem bypass (a0 : Nat) (a1 : List Bool) : Statement (.bypass a0 a1) := fun _ h => nomatch (show false = true from h)
theorem extest (a0 : List Bool) : Statement (.extest a0) := fun _ h => nomatch (show false = true from h)
theorem samplePreload (a0 : List Bool) (a1 : List Bool) : Statement (.samplePreload a0 a1) := fun _ h => nomatch (show false = true from h)
theorem idcode  : Statement .idcode := fun _ h => absurd h (by decide)
theorem clamp  : Statement .clamp := fun _ h => absurd h (by decide)
theorem highz  : Statement .highz := fun _ h => absurd h (by decide)
theorem defread (a0 : Nat) : Statement (.defread a0) := fun _ h => nomatch (show false = true from h)
theorem kindNotAllowed (a0 : Nat) (a1 : Msg) : Statement (.kindNotAllowed a0 a1) := fun _ h => nomatch (show false = true from h)
theorem probeAnswer (a0 : Nat) (a1 : Nat) : Statement (.probeAnswer a0 a1) := fun _ h => nomatch (show false = true from h)
theorem linkLaneFailure (a0 : LinkLane) : Statement (.linkLaneFailure a0) := fun _ h => nomatch (show false = true from h)
theorem dynamicAddress (a0 : Nat) : Statement (.dynamicAddress a0) := fun _ h => nomatch (show false = true from h)
theorem powerExceedsCap (a0 : Nat) : Statement (.powerExceedsCap a0) := fun _ h => nomatch (show false = true from h)
theorem resetBall (a0 : Bool) : Statement (.resetBall a0) := fun _ h => nomatch (show false = true from h)

end Sys2Proof.Laws.RoundTrip
end

