-- ==== Sys2Proof/Laws/Requests.lean ====
section
/-! SUPPORT. Requests that are answered (R190, R193). -/

namespace Sys2Proof.Machine
open Sys2Proof.Safe

theorem poisoned_nil {s : State} (h : s.poison = []) (a b : Nat) : s.poisoned a b = false := by
  unfold State.poisoned; rw [h]; rfl

theorem late_nil (s : State) (c : Cause) : s.late [] c = s := rfl

theorem clearPoison_nil (t : State) : t.clearPoison [] = t := by
  unfold State.clearPoison
  split
  · rfl
  · have hu : (upto 64).all (fun _ => false) = false := by decide
    have hf : t.poison.filter (fun _ => true) = t.poison := List.filter_eq_self.2 (fun _ _ => rfl)
    simp only [List.any_nil, hu, Bool.not_false, hf]

/-- The answer of the package to a request of one access. -/
theorem respondLocal_one {s : State} {r : Req} {a : Machine.Acc} (h3 : r.accs = [a]) (h4 : s.readable (r.core / 64) (a.pa / 64) = true)
    (h5 : s.poison = []) (h6 : a.op.owning = false) (h7 : r.copy = false → s.copyOwned (a.pa / 64) = false ∨ a.reads = false) (h8 : r.copy = true → s.copyBehind r = false)
    (h9 : ∀ sz off, a.op ≠ .copyOut sz off) : s.respondLocal r = ((State.answer r s a).freeReq r).flushAll := by
  have hm : s.missing r = [] := by
    unfold State.missing
    simp only [h3, Req.owning, List.any_cons, List.any_nil, Bool.or_false, h6]
    rw [List.filter_eq_nil_iff]
    intro c hc
    have : c = a.pa / 64 := by
      simp only [List.filter_cons, List.filter_nil] at hc
      split at hc
      · have hc : c ∈ nub [a.pa / 64] := hc
        simpa [nub] using hc
      · have hc : c ∈ nub [] := hc
        simp [nub] at hc
    subst this
    have h4' : s.readable (dieOf r.core) (a.pa / 64) = true := h4
    simp [h4']
  have hr : s.recalled r = false := by
    unfold State.recalled
    rw [h3]
    cases hc : r.copy
    · rcases h7 hc with e | e <;> simp [e]
    · rfl
  have hb : (r.copy && s.copyBehind r) = false := by
    cases hc : r.copy
    · rfl
    · exact h8 hc
  have hp : ∀ a b, s.poisoned a b = false := fun a b => poisoned_nil h5 a b
  have ho : (match a.op with | .copyOut .. => true | _ => false) = false := by
    cases h : a.op <;> first | rfl | exact absurd h (h9 _ _)
  simp only [State.respondLocal, hm, hr, hb, h3, hp, List.filter_cons, List.filter_nil, Bool.and_false, Bool.not_false, if_true, if_false, Bool.false_eq_true, late_nil, List.isEmpty_nil, Bool.not_true, Bool.or_self, List.foldl_cons, List.foldl_nil, clearPoison_nil]

/-- No cause that was met late waits: nothing is raised (R395). -/
theorem flushAll_none {s : State} (h : ∀ o ∈ s.ops, o.late = []) : s.flushAll = s := by
  unfold State.flushAll
  rw [List.filter_eq_nil_iff.2 (fun o ho => by simp [h o ho])]
  rfl

/-- What a victim's eviction leaves of the part. -/
theorem dropped_ok (s : State) (c : Nat) (v : Option Nat) : let t := evicted c v s
    (∀ d x, t.readable d x = s.readable d x) ∧ t.poison = s.poison ∧ (∀ x, t.copyOwned x = s.copyOwned x) ∧ (∀ r, t.copyBehind r = s.copyBehind r) ∧
    (∀ k, t.heat? k = s.heat? k) ∧ (∀ k l, t.laneRun k l = s.laneRun k l) ∧ ∀ d x, t.dieSector d x = s.dieSector d x := by
  cases v <;> exact ⟨fun _ _ => rfl, rfl, fun _ => rfl, fun _ => rfl, fun _ => rfl, fun _ _ => rfl, fun _ _ => rfl⟩

theorem respond_eq {s : State} {n : Nat} {v : Option Nat} {p : Reply} {r : Req}
    (h1 : s.reqs.find? (fun q => q.id = n) = some r) (h2 : r.remote = none) :
    exec (.memoryResponse n v p) s = .next ((evicted r.core v s).respondLocal r) := by
  show Host.Outcome.next (s.respond n v p) = _
  simp only [State.respond, h1, h2]
  cases v <;> rfl

end Sys2Proof.Machine
end

