-- ==== Sys2Proof/Laws/Step.lean ====
section
/-! SUPPORT. The step of a heat at its word (R88, R112, R462). -/

namespace Sys2Proof.Machine
open Sys2Proof.Safe

theorem updHeat_same {s : State} {k : HeatKey} {h : Heat} {f : Heat → Heat} (hh : s.heat? k = some h) (hf : f h = h) : s.updHeat k f = s := by
  have : ∀ (L : List Heat), L.find? (fun h => h.key = k) = some h → modifyFirst (fun h => h.key = k) f L = L := by
    intro L
    induction L with
    | nil => intro h; cases h
    | cons a t ih =>
      intro h1
      rw [List.find?_cons] at h1
      unfold modifyFirst
      cases hk : decide (a.key = k) with
      | true =>
        rw [hk] at h1
        injection h1 with h1
        subst h1
        simp at hk
        simp [hf]
      | false =>
        rw [hk] at h1
        simp at hk
        simp
        exact ih h1
  unfold State.updHeat
  rw [this _ hh]

theorem updHeat_same' {s : State} {k : HeatKey} {h : Heat} {f : Heat → Heat} (hh : s.heat? k = some h) (hf : f h = h) : s.updHeat k f = s :=
  updHeat_same hh hf

theorem group_live {h : Heat} {live : List Nat} {p : Nat} (hl : live = h.lanesWhere (fun x => !x.exited)) (hne : live ≠ [])
    (hr : ∀ l ∈ live, (h.lane l).st = .running ∧ (h.lane l).pc = p ∧ (h.lane l).acq = none) : h.group [] = live := by
  have hc : h.lanesWhere h.candidate = live := by
    rw [hl]
    unfold Heat.lanesWhere
    apply List.filter_congr
    intro l hm
    cases he : (h.lane l).exited with
    | true =>
      have he' := he
      simp only [Lane.exited, decide_eq_true_eq] at he'
      simp [Heat.candidate, he', he]
    | false =>
      have : l ∈ live := by rw [hl]; simp [Heat.lanesWhere, hm, he]
      obtain ⟨h1, h2, h3⟩ := hr l this
      simp [Heat.candidate, h1, h3, he]
  have hf : (h.lanesWhere h.candidate).filter (fun l => !([] : List Nat).contains l) = live := by
    rw [hc]
    exact List.filter_eq_self.2 (fun _ _ => rfl)
  have hlb : ∀ (f : Nat → Nat) (L : List Nat), L ≠ [] → ∃ a ∈ L, leastBy f L = some a := by
    intro f L
    induction L with
    | nil => intro h; exact absurd rfl h
    | cons a t ih =>
      intro _
      unfold leastBy
      cases ht : t with
      | nil => exact ⟨a, by simp, rfl⟩
      | cons b t' =>
        obtain ⟨c, c1, c2⟩ := ih (by simp [ht])
        rw [ht] at c1 c2
        rw [c2]
        dsimp only
        split
        · exact ⟨c, List.mem_cons_of_mem _ c1, rfl⟩
        · exact ⟨a, by simp, rfl⟩
  unfold Heat.group
  dsimp only
  rw [hf]
  have : ∃ a ∈ live, (if (h.paced || decide (1024 ≤ h.starved)) = true then
      leastBy (fun l => (match (h.lane l).age with | none => 0 | some t => t + 1) * 2 ^ 64 + (h.lane l).pc) live
      else leastBy (fun l => (h.lane l).pc) live) = some a := by
    split
    · exact hlb _ _ hne
    · exact hlb _ _ hne
  obtain ⟨a, a1, a2⟩ := this
  erw [a2]
  dsimp only
  refine List.filter_eq_self.2 (fun l hl => ?_)
  rw [decide_eq_true_eq, (hr l hl).2.1, (hr a a1).2.1]

theorem checkJoin_live {s : State} {k : HeatKey} {h : Heat} (hh : s.heat? k = some h)
    (hne : h.lanesWhere (fun x => !x.exited) ≠ []) (hr : ∀ l ∈ h.lanesWhere (fun x => !x.exited), (h.lane l).st = .running) : checkJoin s k = s := by
  unfold checkJoin
  rw [hh]
  dsimp only
  rw [if_neg]
  rintro ⟨h1, -⟩
  obtain ⟨a, t, ha⟩ := List.exists_cons_of_ne_nil hne
  have := List.all_eq_true.1 h1 a (by rw [ha]; simp)
  rw [hr a (by rw [ha]; simp)] at this
  simp at this

theorem mem_lane {h : Heat} {x : Lane} (hx : x ∈ h.lanes) : ∃ l, l < h.lanes.length ∧ h.lane l = x := by
  obtain ⟨l, hl, he⟩ := List.getElem_of_mem hx
  exact ⟨l, hl, by simp [Heat.lane, hl, he]⟩

theorem live_of {h : Heat} {x : Lane} (hx : x ∈ h.lanes) (he : x.exited = false) : ∃ l ∈ h.lanesWhere (fun x => !x.exited), h.lane l = x := by
  obtain ⟨l, h1, h2⟩ := mem_lane hx
  refine ⟨l, ?_, h2⟩
  unfold Heat.lanesWhere
  rw [List.mem_filter]
  exact ⟨by simp [upto, h1], by dsimp only; rw [h2, he]; rfl⟩

theorem wake_live {h : Heat} (hr : ∀ l ∈ h.lanesWhere (fun x => !x.exited), (h.lane l).st = .running) : h.wake = h := by
  have hm : h.lanes.map (fun x => if x.st = .held then { x with st := .running } else x) = h.lanes := by
    conv => rhs; rw [← List.map_id h.lanes]
    apply List.map_congr_left
    intro x hx
    rw [if_neg]
    · rfl
    · intro hst
      obtain ⟨l, h1, h2⟩ := live_of hx (by simp [Lane.exited, hst])
      have := hr l h1
      rw [h2, hst] at this
      cases this
  unfold Heat.wake
  dsimp only
  split
  · rw [hm]
  · rfl

theorem mem_of_nub {α : Type} [DecidableEq α] {a : α} : ∀ {L : List α}, a ∈ nub L → a ∈ L
  | b :: t, h => by
    rcases List.mem_cons.1 h with rfl | h
    · simp
    · exact List.mem_cons_of_mem _ (mem_of_nub (List.mem_filter.1 h).1)

/-- With every lane that has not exited running, no run-on target is recorded (R118). -/
theorem runonAt_live {h : Heat} (hr : ∀ l ∈ h.lanesWhere (fun x => !x.exited), (h.lane l).st = .running) (pc : Nat) : h.runonAt pc = false := by
  unfold Heat.runonAt Heat.dropRunon
  dsimp only
  rw [List.filter_eq_nil_iff.2]
  · rfl
  · intro r _
    rw [Bool.not_eq_true, List.any_eq_false]
    intro x hx
    have hp : x.parkedB = false := by
      cases he : x.exited with
      | true =>
        have : x.st = .exited := by simpa [Lane.exited] using he
        simp [Lane.parkedB, this]
      | false =>
        obtain ⟨l, h1, h2⟩ := live_of hx he
        have := hr l h1
        rw [h2] at this
        simp [Lane.parkedB, this]
    simp [hp]

/-- Lanes that stand together at one place are not held: those in a block, and those that have all reached one header
(R117). -/
theorem gather_live {s : State} {h : Heat} {p : Nat} (hr : ∀ l ∈ h.lanesWhere (fun x => !x.exited), (h.lane l).st = .running ∧ (h.lane l).pc = p ∧ (h.lane l).acq = none)
    (hb : (∀ l ∈ h.lanesWhere (fun x => !x.exited), (h.lane l).blk.isSome = true) ∨ ∀ l ∈ h.lanesWhere (fun x => !x.exited), (h.lane l).blk = none) :
    s.gather h = h := by
  have hcand : ∀ x ∈ h.lanes, h.candidate x = true → ∃ l ∈ h.lanesWhere (fun x => !x.exited), h.lane l = x := by
    intro x hx hc
    refine live_of hx ?_
    simp only [Heat.candidate, Bool.and_eq_true, decide_eq_true_eq] at hc
    simp [Lane.exited, hc.1]
  have hj : (nub ((h.lanes.filter (fun x => x.blk.isNone && h.candidate x)).map (·.pc))).filter (fun pc => !(h.allAt pc)) = [] := by
    rw [List.filter_eq_nil_iff]
    intro pc hpc
    rcases hb with hb | hb
    · exfalso
      have hn : h.lanes.filter (fun x => x.blk.isNone && h.candidate x) = [] := by
        rw [List.filter_eq_nil_iff]
        intro x hx
        simp only [Bool.and_eq_true, not_and]
        intro h1 h2
        obtain ⟨l, l1, l2⟩ := hcand x hx h2
        have := hb l l1
        rw [l2] at this
        cases hbk : x.blk <;> simp_all
      rw [hn] at hpc
      cases hpc
    · have hpe : pc = p := by
        obtain ⟨x, hx, rfl⟩ := List.mem_map.1 (mem_of_nub hpc)
        obtain ⟨h1, h2⟩ := List.mem_filter.1 hx
        simp only [Bool.and_eq_true] at h2
        obtain ⟨l, l1, l2⟩ := hcand x h1 h2.2
        rw [← l2]
        exact (hr l l1).2.1
      subst hpe
      have : h.allAt pc = true := by
        unfold Heat.allAt
        rw [List.all_eq_true]
        intro x hx
        cases he : x.exited with
        | true => simp
        | false =>
          obtain ⟨l, l1, l2⟩ := live_of hx he
          obtain ⟨r1, r2, r3⟩ := hr l l1
          rw [l2] at r1 r2 r3
          have := hb l l1
          rw [l2] at this
          simp [r1, r2, r3, this, Heat.candidate]
      simp [this]
  unfold State.gather
  dsimp only
  rw [hj]
  show ({ h with lanes := h.lanes.map (fun x => x) } : Heat) = h
  rw [List.map_id']

theorem fold_same {h : Heat} (ls : List Nat) (f : Nat → Lane → Lane) (hf : ∀ l ∈ ls, f l (h.lane l) = h.lane l) :
    ls.foldl (fun h l => h.updLane l (f l)) h = h := by
  induction ls with
  | nil => rfl
  | cons a t ih =>
    rw [List.foldl_cons]
    have : h.updLane a (f a) = h := by
      have hl : (h.updLane a (f a)).lanes = h.lanes := by
        apply Heat.ext_lane (by simp)
        intro l
        rw [Heat.lane_updLane]
        split
        · rename_i hc
          obtain ⟨rfl, -⟩ := hc
          exact hf _ (by simp)
        · rfl
      unfold Heat.updLane at hl ⊢
      dsimp only at hl
      rw [hl]
    rw [this]
    exact ih (fun l hl => hf l (by simp [hl]))

theorem fetch_at {s : State} {h : Heat} {pc pa w : Nat} (hm : Mapped s h.key.ctx h.core pc .fetch pa) (hp : s.poisoned pa 8 = false)
    (hw : w = ofBytes (((s.overlay (h.core / 64) (pa / 64) (s.cohSector (pa / 64))).drop (pa % 64)).take 8)) : s.fetchWord h pc = (.ok w, s) := by
  unfold State.fetchWord
  rw [translate_mapped hm]
  dsimp only
  rw [hp]
  rw [if_neg (by decide), hw]
  rfl

theorem ready_plain {s : State} {h : Heat} {ls : List Nat} {x : Iss} (hh : s.halting h = false) (ha : ∀ l ∈ ls, (h.lane l).acq = none) (hx : x.lanes = ls) :
    ready s h ls x = { s with iss := some x } := by
  unfold ready
  dsimp only
  rw [if_neg (by simp [hh])]
  have : ls.foldl (fun s l => match (h.lane l).acq with
      | none => s
      | some (o, q) => (s.acquireSeq h.key.ctx h.core o q none).updLane h.key l (fun y => { y with acq := none, pend := [] })) s = s := by
    clear hx
    induction ls with
    | nil => rfl
    | cons a t ih =>
      rw [List.foldl_cons, ha a (by simp)]
      exact ih (fun l hl => ha l (by simp [hl]))
  erw [this]
  subst hx
  rfl

end Sys2Proof.Machine
end

