-- ==== Sys2Proof/Tests/Slice0.lean ====
section
/-! SUPPORT. The model's own tests: ill-formed terms that well-formedness refuses, words written out from the manual's encodings, one step
of a few instructions, and for each obligation states that meet its premises. -/

set_option Elab.async false
open Sys2Proof Sys2Proof.Machine Sys2Proof.Safe

namespace Sys2Proof.Tests

/-! Well-formedness: an ill-formed term for each check (R93 to R101, and the entries' own rules). -/

def c0 : Com := { guard := 12, neg := false, stop := false, flagB := false }

theorem test_wf_guard_13 : Instr.wf (.nop { c0 with guard := 13 }) = false := by decide
theorem test_wf_guard_12_negated : Instr.wf (.nop { c0 with neg := true }) = false := by decide
theorem test_wf_flag_on_short_word : Instr.wf (.nop { c0 with flagB := true }) = false := by decide
theorem test_wf_source_v320 : Instr.wf (.iadd c0 .s32 false (.v 0) (.v 320) (.v 1)) = false := by decide
theorem test_wf_source_k64 : Instr.wf (.iadd c0 .s32 false (.v 0) (.k 64) (.v 1)) = false := by decide
theorem test_wf_inline_64 : Instr.wf (.iadd c0 .s32 false (.v 0) (.inl 64) (.v 1)) = false := by decide
theorem test_wf_lvix_8 : Instr.wf (.iadd c0 .s32 false (.v 0) (.sp (.lvix 8)) (.v 1)) = false := by decide
theorem test_wf_odd_pair_source : Instr.wf (.iadd c0 .s64 false (.v 0) (.v 3) (.v 4)) = false := by decide
theorem test_wf_odd_pair_destination : Instr.wf (.iadd c0 .s64 false (.v 1) (.v 2) (.v 4)) = false := by decide
theorem test_wf_destination_v320 : Instr.wf (.mov c0 .s32 (.v 320) (.v 0)) = false := by decide
theorem test_wf_destination_k64 : Instr.wf (.mov c0 .s32 (.k 64) (.v 0)) = false := by decide
theorem test_wf_target_inline : Instr.wf (.brx c0 (.inl 3)) = false := by decide
theorem test_wf_offset_24_bits : Instr.wf (.bra c0 (2 ^ 23)) = false := by decide
theorem test_wf_link_odd : Instr.wf (.call c0 21 0) = false := by decide
theorem test_wf_wait_mask : Instr.wf (.waitf c0 4096) = false := by decide
theorem test_wf_trap_code : Instr.wf (.trap c0 65536 none) = false := by decide
theorem test_wf_predicate_destination : Instr.wf (.pset c0 .s32 .lt 12 (.v 0) (.v 1)) = false := by decide
theorem test_wf_unordered_integer : Instr.wf (.pset c0 .s32 .un 0 (.v 0) (.v 1)) = false := by decide
theorem test_wf_predicate_source : Instr.wf (.vote c0 (.any 0) (.p 12)) = false := by decide
theorem test_wf_plog_unread_operand : Instr.wf (.plog c0 .not 0 (.p 0) (some (.p 1)) none) = false := by decide
theorem test_wf_shfl_width : Instr.wf (.shfl c0 .n32 .idx (.v 0) (.v 1) (.v 2) 3) = false := by decide
theorem test_wf_reduction_type : Instr.wf (.hred c0 .f32 .rn .and (.v 0) (.v 1)) = false := by decide
theorem test_wf_reduction_rounding : Instr.wf (.hred c0 .f32 .rs .add (.v 0) (.v 1)) = false := by decide
theorem test_wf_integer_type : Instr.wf (.iadd c0 .f32 false (.v 0) (.v 1) (.v 2)) = false := by decide
theorem test_wf_wide_of_64 : Instr.wf (.imul c0 .s64 .wide (.v 0) (.v 2) (.v 4)) = false := by decide
theorem test_wf_iabs_unsigned : Instr.wf (.iabs c0 .n32 false (.v 0) (.v 1)) = false := by decide
theorem test_wf_movi_hi_of_32 : Instr.wf (.movi c0 .n32 true (.v 0) 0) = false := by decide
theorem test_wf_movi_33_bits : Instr.wf (.movi c0 .n32 false (.v 0) (2 ^ 32)) = false := by decide
theorem test_wf_lea_shift : Instr.wf (.lea c0 false 8 (.v 0) (.v 2) (.v 4)) = false := by decide
theorem test_wf_random_without_rs : Instr.wf (.fadd c0 .rn false (.v 0) (.v 1) (.v 2) (some (.v 3))) = false := by decide
theorem test_wf_rs_without_random : Instr.wf (.fadd c0 .rs false (.v 0) (.v 1) (.v 2) none) = false := by decide
theorem test_wf_ffma_rs : Instr.wf (.ffma c0 .rs false (.v 0) (.v 1) (.v 2) (.v 3)) = false := by decide
theorem test_wf_fsign_source : Instr.wf (.fsign c0 .abs (.v 0) (.v 1) (some (.v 2))) = false := by decide
theorem test_wf_fclass_type : Instr.wf (.fclass c0 .e4m3 (.v 0) (.v 1)) = false := by decide
theorem test_wf_cvti_of_c4 : Instr.wf (.cvti c0 .s32 .c4 .rn (.v 0) (.v 1) none) = false := by decide
theorem test_wf_cvtf_to_e8m0_nearest : Instr.wf (.cvtf c0 .e8m0 .f32 .rn false (.v 0) (.v 1) none) = false := by decide
theorem test_wf_pack8_type : Instr.wf (.pack8 c0 .e4m3 .rn false .none (.v 0) 8 none) = false := by decide
theorem test_wf_c4_without_book : Instr.wf (.unpk4 c0 .c4 .rn .none 0 (.v 8) none) = false := by decide
theorem test_wf_pack_past_v319 : Instr.wf (.pack4 c0 .e4m3 .rn false .none (.v 0) 317 none) = false := by decide
theorem test_wf_scale_byte : Instr.wf (.scalex c0 .rn false false 4 (.v 0) (.v 1) (.v 2) none) = false := by decide
theorem test_wf_record_register : Instr.wf (.bldZero c0 32) = false := by decide
theorem test_wf_bld_part : Instr.wf (.bldQ c0 0 4 (.v 0)) = false := by decide
theorem test_wf_bld_k_group : Instr.wf (.bldK c0 0 3) = false := by decide
theorem test_wf_bsub_colour : Instr.wf (.bsubColour c0 0 0 4096) = false := by decide
theorem test_wf_bsub_flags : Instr.wf (.bsubFlags c0 0 0 32) = false := by decide
theorem test_wf_load_quad_register : Instr.wf (.ld c0 false 4 2 { x := .v 0, w64 := false } 0) = false := by decide
theorem test_wf_load_sign_of_word : Instr.wf (.ld c0 true 2 0 { x := .v 0, w64 := false } 0) = false := by decide
theorem test_wf_size_5 : Instr.wf (.pref c0 false 5 { x := .v 0, w64 := false } 0) = false := by decide
theorem test_wf_gindex_selector : Instr.wf (.ldg c0 false 2 0 { x := .v 0, iw := 1, sg := false, scl := 0, sel := 2 } 0) = false := by decide
theorem test_wf_ldk_size : Instr.wf (.ldk c0 1 0 { x := .k 0, w64 := false } 0) = false := by decide
theorem test_wf_atomic_float_and : Instr.wf (.atom c0 .and .float 2 .relaxed .die none { x := .v 0, w64 := false } (.v 1) 0) = false := by decide
theorem test_wf_ordered_atomic_of_32 : Instr.wf (.acas c0 2 .both .die (.v 0) { x := .v 2, w64 := false } (.v 4) 0) = false := by decide
theorem test_wf_atoms_scope : Instr.wf (.atoms c0 .add .unsigned 2 .relaxed .die none (.v 0) (.v 1)) = false := by decide
theorem test_wf_syadd_relaxed : Instr.wf (.syadd c0 .relaxed .die none { x := .v 0, w64 := false } (.v 2) 0) = false := by decide
theorem test_wf_ldacq_size : Instr.wf (.ldacq c0 2 .die (.v 0) { x := .v 2, w64 := false } 0) = false := by decide
theorem test_wf_waita_scratch_scope : Instr.wf (.waita c0 none (.v 0) (.v 1) .eq false false true (some .die)) = false := by decide
theorem test_wf_barrier_16 : Instr.wf (.bar c0 16 none) = false := by decide
theorem test_wf_copy_size : Instr.wf (.cpyin c0 1 (.v 0) { x := .v 1, w64 := false } none 0) = false := by decide
theorem test_wf_cpyw_heat_scope : Instr.wf (.cpyw c0 3 .heat (.v 0) { x := .v 2, w64 := false } 0) = false := by decide
theorem test_wf_rinit_group : Instr.wf (.rinit c0 (.v 0) 4) = false := by decide
theorem test_wf_mark_8 : Instr.wf (.mmarkSelf c0 8) = false := by decide
theorem test_wf_dist_format : Instr.wf (.mldw c0 0 false .bf16 true (.v 0)) = false := by decide
theorem test_wf_rows_past_255 : Instr.wf (.mclr c0 0 false false 200 100) = false := by decide
theorem test_wf_mtopk_register : Instr.wf (.mtopk c0 0 false false 0 319 0) = false := by decide
theorem test_wf_claim_nine : Instr.wf (.claim c0 0 8) = false := by decide
theorem test_wf_mwait_time : Instr.wf (.mwait c0 none (.v 0) 21) = false := by decide
theorem test_wf_tframe_item : Instr.wf (.tframeRd c0 0 (.v 2) (.v 4) 389) = false := by decide
theorem test_wf_mfs_field : Instr.wf (.mfs c0 0 3) = false := by decide
theorem test_wf_watchpoint_4 : Instr.wf (.brkptWclr c0 4) = false := by decide
theorem test_wf_bist_algorithm : Instr.wf (.bist c0 0 (.v 0) (.v 2) 4) = false := by decide

/-! Decoding: words of the manual's tables, with the instruction that it writes beside each. -/

theorem test_decode_control :
    decode 0x0120_FFFF_FAFF_8000 = .ok (.bra { c0 with guard := 2 } (-6)) ∧ decode 0x03C0_0000_0C0A_0000 = .ok (.call c0 20 12) ∧
    decode 0x05C0_0000_000A_0000 = .ok (.ret c0 (.v 20)) ∧ decode 0x06C0_0000_00FF_8000 = .ok (.exit c0) ∧
    decode 0x08C0_FFFF_FFE0_0009 = .ok (.waitf c0 9) := ⟨rfl, rfl, rfl, rfl, rfl⟩

theorem test_decode_predicates :
    decode 0x10C0_0180_405F_F002 = .ok (.pset c0 .s32 .lt 3 (.v 1) (.v 2)) ∧ decode 0x13C0_0300_BFFF_F000 = .ok (.vote c0 (.ballot (.v 6)) (.p 2)) ∧
    decode 0x14C0_0381_B43F_F103 = .ok (.shfl c0 .n32 .xor (.v 7) (.v 6) (.inl 33) 32) ∧
    decode 0x15C0_0300_FFFF_F100 = .ok (.hred c0 .n32 .rn .add (.v 6) (.v 3)) ∧
    decode 0x16C0_0482_009F_F400 = .ok (.hscan c0 .f32 .rn .add false (.v 9) (.v 8) (some (.p 4))) := ⟨rfl, rfl, rfl, rfl, rfl⟩

theorem test_decode_integer :
    decode 0x20C0_01F0_33DF_F000 = .ok (.iadd c0 .s32 false (.v 3) (.sp .lane) (.inl 30)) ∧
    decode 0x22C0_0501_00BF_F102 = .ok (.imul c0 .n32 .wide (.v 10) (.v 4) (.v 5)) ∧
    decode 0x34C0_0519_3FF0_0000 = .ok (.movi c0 .n64 true (.v 10) 0x3FF0_0000) ∧
    decode 0x35C0_0070_0400_0100 = .ok (.addi c0 .n32 false (.v 0) (.sp .lane) 256) ∧
    decode 0x36C0_0700_019F_F305 = .ok (.lea c0 false 5 (.v 14) (.v 0) (.v 12)) := ⟨rfl, rfl, rfl, rfl, rfl⟩

theorem test_decode_float :
    decode 0x40C0_0281_285F_F400 = .ok (.fadd c0 .rn false (.v 5) (.v 4) (.k 2) none) ∧
    decode 0x43C0_0400_4040_3421 = .ok (.ffma c0 .rz true (.v 8) (.v 1) (.v 2) (.v 3)) ∧
    decode 0x61C0_0301_FFE0_9584 = .ok (.cvtf c0 .bf16 .f32 .rs false (.v 6) (.v 7) (some (.v 9))) ∧
    decode 0x63C0_0605_03DF_F606 = .ok (.pack4 c0 .e4m3 .rn false (.byte (.v 30) 2) (.v 12) 20 none) ∧
    decode 0x66C0_0A01_E89F_F900 = .ok (.unpk4 c0 .c4 .rn (.book 4) 20 (.v 7) none) := ⟨rfl, rfl, rfl, rfl, rfl⟩

theorem test_decode_records_and_memory :
    decode 0x70C0_01D1_3FE0_0002 = .ok (.bldMem c0 3 (.k 4) 2) ∧ decode 0x71C0_0251_4068_1000 = .ok (.bsubWin c0 4 3 (.k 5) 4096) ∧
    decode 0x72C0_0400_BFE5_4001 = .ok (.ld c0 false 2 8 { x := .v 2, w64 := true } 5) ∧
    decode 0x74C0_0300_829A_2000 = .ok (.ldg c0 false 2 6 { x := .v 2, iw := 1, sg := true, scl := 2, sel := 1 } 1) ∧
    decode 0x76C0_0480_F500_2080 = .ok (.lds c0 true 1 9 (.v 3) (some (.inl 40))) ∧ decode 0x7CC0_A450_FFE2_6000 = .ok (.ldk c0 3 8 { x := .k 3, w64 := false } 2) :=
  ⟨rfl, rfl, rfl, rfl, rfl, rfl⟩

theorem test_decode_atomics_and_ordering :
    decode 0x80C2_0600_40E3_4320 = .ok (.atom { c0 with flagB := true } .add .float 2 .relaxed .package (some (.v 12)) { x := .v 1, w64 := false } (.v 7) 3) ∧
    decode 0x81C0_0700_8206_6200 = .ok (.acas c0 3 .relaxed .die (.v 14) { x := .v 2, w64 := false } (.v 16) 6) ∧
    decode 0x83C0_FFFF_FFE0_002A = .ok (.fence c0 .acq true .die) ∧
    decode 0x85C0_0400_BFE3_7400 = .ok (.strel c0 3 .system (.v 8) { x := .v 2, w64 := false } 3) ∧
    decode 0x87C0_0101_00C0_0153 = .ok (.waita c0 (some 2) (.v 4) (.v 6) .ge false true false (some .die)) ∧
    decode 0x89C0_FFFF_E840_0005 = .ok (.bara c0 5 (some (.k 2))) := ⟨rfl, rfl, rfl, rfl, rfl, rfl⟩

theorem test_decode_copies_and_rings :
    decode 0x90C0_0400_A881_8000 = .ok (.cpyin c0 4 (.v 8) { x := .v 2, w64 := false } (some (.k 4)) 1) ∧
    decode 0x91C0_0501_A883_4000 = .ok (.cpyout c0 2 (.v 10) { x := .v 6, w64 := false } (some (.k 4)) 3) ∧
    decode 0x93C0_00D0_BFE0_0001 = .ok (.rawait c0 .operate (some 1) (.k 2)) ∧ decode 0x96C0_FFD0_A900_0000 = .ok (.rinit c0 (.k 2) 8) ∧
    decode 0x98C0_D0E8_3FE4_7100 = .ok (.cpyw c0 3 .core (.inl 33) { x := .inl 32, w64 := false } 4) := ⟨rfl, rfl, rfl, rfl, rfl⟩

theorem test_decode_matrix :
    decode 0xA0C0_4000_0180_0001 = .ok (.mmarkMask c0 2 0 (.v 3)) ∧ decode 0xA1C0_1500_A300_0001 = .ok (.mldw c0 0 true .c4 true (.k 6)) ∧
    decode 0xA3C0_3110_A27F_0001 = .ok (.mstr c0 1 true .e4m3 true 16 (.k 4) 127) ∧
    decode 0xA6C0_1008_A20F_0003 = .ok (.mrdScr c0 0 true true false 8 (.k 4) 15) ∧ decode 0xA7C0_1000_FF80_0001 = .ok (.mclr c0 0 true true 0 0) :=
  ⟨rfl, rfl, rfl, rfl, rfl⟩

theorem test_decode_monitors_and_tasks :
    decode 0xB0C0_FF81_3FE0_0002 = .ok (.claim c0 4 2) ∧ decode 0xB4C0_04E8_3FE0_0001 = .ok (.heldList c0 (.v 9) (.inl 32)) ∧
    decode 0xB8C0_FF81_3FE0_0000 = .ok (.tspawn c0 (.v 4)) ∧ decode 0xBAC0_FFE8_BFE0_0001 = .ok (.publap c0 true (.inl 34)) ∧
    decode 0xBCC0_0550_BFE0_0001 = .ok (.tlapBuf c0 10 (.k 2)) ∧ decode 0xBDC0_FFFF_FFE0_0001 = .ok (.tabortFail c0) := ⟨rfl, rfl, rfl, rfl, rfl, rfl⟩

theorem test_decode_system_and_debug :
    decode 0xC0C0_FF81_00C0_0000 = .ok (.resume c0 false (.v 4) (some (.v 6))) ∧ decode 0xC1C0_FF81_3FE0_0002 = .ok (.killKernel c0 (.v 4)) ∧
    decode 0xC3C0_00D0_BFE0_0040 = .ok (.tframeNext c0 1 (.k 2) 16) ∧ decode 0xC7C0_0182_8180_0000 = .ok (.splinter c0 3 (.v 10) (.v 12)) ∧
    decode 0xD0C0_FF81_2860_0015 = .ok (.brkptWset c0 1 .w (.v 4) (.k 3)) ∧ decode 0xD2C0_0101_3FE0_0000 = .ok (.undo c0 (some 2) (.v 4)) ∧
    decode 0xD3C0_047F_FFE0_0003 = .ok (.stamp c0 .package (.v 8)) ∧ decode 0xD4C0_00D0_80A0_0002 = .ok (.bist c0 1 (.k 2) (.v 5) 2) :=
  ⟨rfl, rfl, rfl, rfl, rfl, rfl, rfl, rfl⟩

/-- R94: a reserved guard, bit 48, an opcode of row 0xE, a header at an instruction's place and a reserved field are refused by name. -/
theorem test_decode_refuses :
    decode 0x00D0_FFFF_FFE0_0000 = .error .illegalOperand ∧ decode 0x00C1_FFFF_FFE0_0000 = .error .reservedBit ∧
    decode 0xE0C0_FFFF_FFE0_0000 = .error .unassigned ∧ decode 0xF060_0912_0600_1409 = .error .headerWord ∧
    decode 0x00C0_FFFF_FFE0_0001 = .error .reservedField := ⟨rfl, rfl, rfl, rfl, rfl⟩
/-! Steps: one issue of one word, on a small state. -/

/-- The block of the placed heat: its header and the word after it. -/
def word (i : Instr) : Iss := { key := placedKey, lanes := [0], pc := 0x10008, hdrAddr := 0x10000, hdr := placedHeader, entering := false, word := encode i }

/-- A lane that stands at the placed word. -/
def atWord : Lane := { pc := 0x10008, blk := some (0x10000, placedHeader) }

/-- The placed heat with lane 0 running at the word, lane 1 yielded there, and the other lanes exited. -/
def seatHeat (i : Instr) : Heat :=
  { key := placedKey, core := 0, part := 0, unit := 0, leg := 0, role := placedRole (Instr.opcode i), budget := 320, cls := 0, heatn := 1
    lanes := [atWord, { atWord with st := .yielded }] ++ List.replicate 30 { st := .exited }, active := true, service := true }

/-- A state in which the word is at hand, its heat as `f` makes it. -/
def seat (i : Instr) (f : Heat → Heat) : State :=
  { State.reset.place 0 with agenda := [], iss := some (word i), heats := [f (seatHeat i)] }

/-- Registers of lane 0. -/
def setV (l : List (Nat × Nat)) (h : Heat) : Heat := l.foldl (fun h e => h.updLane 0 (fun y => y.setV e.1 e.2)) h

/-- The placed heat after the word. -/
def after (i : Instr) (f : Heat → Heat) : Option Heat := match exec i (seat i f) with
  | .next t => t.heat? placedKey
  | _ => none

/-- A register of lane 0 after the word, with the heat's numerical flags. -/
def gives (i : Instr) (l : List (Nat × Nat)) (n : Nat) : Option (Nat × Nat) := (after i (setV l)).map (fun h => ((h.lane 0).v32 n, h.nflags))

/-- R169: -7 by 2, and 5 by 0. -/
theorem test_idiv_quo : gives (.idiv c0 .s32 false (.v 0) (.v 2) (.v 3)) [(2, 0xFFFF_FFF9), (3, 2)] 0 = some (0xFFFF_FFFD, 0) := by decide
theorem test_idiv_rem : gives (.idiv c0 .s32 true (.v 0) (.v 2) (.v 3)) [(2, 0xFFFF_FFF9), (3, 2)] 0 = some (0xFFFF_FFFF, 0) := by decide
theorem test_idiv_by_zero : gives (.idiv c0 .n32 false (.v 0) (.v 2) (.v 3)) [(2, 5), (3, 0)] 0 = some (0xFFFF_FFFF, 0) := by decide
/-- R173: the saturating unsigned sums of 1 and -1, and of 0 and -1. -/
theorem test_addi_sat : gives (.addi c0 .n32 true (.v 0) (.v 2) (-1)) [(2, 1)] 0 = some (0xFFFF_FFFF, 32) := by decide
theorem test_addi_sat_exact : gives (.addi c0 .n32 true (.v 0) (.v 2) (-1)) [(2, 0)] 0 = some (0xFFFF_FFFF, 0) := by decide
/-- R168: a source that is also the destination, and a wrap. -/
theorem test_iadd_wraps : gives (.iadd c0 .n32 false (.v 2) (.v 2) (.v 2)) [(2, 0x8000_0001)] 2 = some (2, 0) := by decide
/-- R168: the least value's absolute value. -/
theorem test_iabs_sat : gives (.iabs c0 .s32 true (.v 0) (.v 2)) [(2, 0x8000_0000)] 0 = some (0x7FFF_FFFF, 32) := by decide
/-- R170: a shift by the width, and a rotation by it. -/
theorem test_shr_by_width : gives (.shr c0 .s32 false (.v 0) (.v 2) (.v 3)) [(2, 0x8000_0000), (3, 32)] 0 = some (0xFFFF_FFFF, 0) := by decide
theorem test_rot_by_width : gives (.shl c0 .n32 true (.v 0) (.v 2) (.v 3)) [(2, 0x8000_0001), (3, 33)] 0 = some (3, 0) := by decide
/-- R171: a field that runs past the top of a signed word. -/
theorem test_bfx_signed : gives (.bfx c0 .s32 (.v 0) (.v 2) (.v 3)) [(2, 0x8000_0000), (3, 0x0000_081C)] 0 = some (0xFFFF_FFF8, 0) := by decide
theorem test_clz_of_zero : gives (.clz c0 .n32 (.v 0) (.v 2)) [(2, 0)] 0 = some (32, 0) := by decide
/-- R175: the manual's example. -/
theorem test_bysel_ext : gives (.bysel c0 true (.v 0) (.v 2) (.v 3) (.v 4)) [(2, 0x4433_2211), (3, 0x8877_6655), (4, 0x0000_C03C)] 0 = some (0xFFFF_8855, 0) := by decide
theorem test_bysel_plain : gives (.bysel c0 false (.v 0) (.v 2) (.v 3) (.v 4)) [(2, 0x4433_2211), (3, 0x8877_6655), (4, 0x0000_C03C)] 0 = some (0x0000_8855, 0) := by decide
/-- R176: 1.5 + 2.25, and 1 + 2^-24, which is inexact (IX is bit 4) and ties to even. -/
theorem test_fadd : gives (.fadd c0 .rn false (.v 0) (.v 2) (.v 3) none) [(2, 0x3FC0_0000), (3, 0x4010_0000)] 0 = some (0x4070_0000, 0) := by decide
theorem test_fadd_tie : gives (.fadd c0 .rn false (.v 0) (.v 2) (.v 3) none) [(2, 0x3F80_0000), (3, 0x3380_0000)] 0 = some (0x3F80_0000, 16) := by decide
/-! Witnesses: for every statement with premises, a state that meets them. `Met` and its kin take a clause of a statement and say that
its premise holds of some state; the premise is read off the clause itself. -/

def Met {i : Instr} {P : State → Prop} {U : State → State} (_ : Moves i P U) : Prop := ∃ s, P s
def MetL {i : Instr} {P : State → Prop} {Q : State → State → Prop} (_ : Leads i P Q) : Prop := ∃ s, P s
def MetA {i : Instr} {P : Seen → Prop} {U : Seen → State} {G : Seen → Heat} {F : Seen → Nat → Lane → Lane} (_ : Acts i P U G F) : Prop :=
  ∃ s x h, Issues i s x h ∧ P (seen i s x h)
def MetG {i : Instr} {P : Seen → Prop} {w : Bool} {d : Dst} {f : Seen → Nat → Nat × Nat} (_ : Gives i P w d f) : Prop :=
  ∃ s x h, Issues i s x h ∧ P (seen i s x h)
def MetE {i : Instr} {P : Iss → List Nat → Heat → Reads → Prop} {F : Iss → Heat → Reads → Nat → Lane → Lane} (_ : LanesEnd i P F) : Prop :=
  ∃ s x h, Issues i s x h ∧ P x (active i x h) h (reads i s x h)

/-- Whether the word stands ready to issue, without a check that stops it. -/
def ok (s : State) (x : Iss) (h : Heat) : Bool :=
  decide (s.iss = some x) && decide ((entered s x).heat? x.key = some h) && !x.lanes.isEmpty &&
  x.lanes.all (fun l => l < h.lanes.length && (h.lane l).st = .running) && decide (x.lanes.Pairwise (· < ·))

theorem stands_of {s : State} {x : Iss} {h : Heat} (ho : ok s x h = true) : Stands s x h := by
  simp only [ok, Bool.and_eq_true, decide_eq_true_eq, List.all_eq_true, Bool.not_eq_true'] at ho
  obtain ⟨⟨⟨⟨h1, h2⟩, h3⟩, h4⟩, h5⟩ := ho
  refine ⟨h1, h2, ?_, fun l hl => h4 l hl, h5⟩
  intro hc
  rw [hc] at h3
  cases h3

def goes (i : Instr) (s : State) (x : Iss) (h : Heat) : Bool :=
  ok s x h && !(decodeTrap i x.hdr) && roleAllows h.role (Instr.opcode i) && !(Instr.unreadable i) &&
  (!(Instr.long i) || decide (Tbl.get 0 h.fcnt (flagOf x.hdr (com i)) ≠ 63)) && (!(Instr.privileged i) || h.service) &&
  (active i x h).all (fun l => !(h.hazard l (Instr.namedV i) (Instr.namedK i)))

theorem issues_of {i : Instr} {s : State} {x : Iss} {h : Heat} (ho : goes i s x h = true) : Issues i s x h := by
  simp only [goes, Bool.and_eq_true, Bool.or_eq_true, decide_eq_true_eq, List.all_eq_true, Bool.not_eq_true'] at ho
  obtain ⟨⟨⟨⟨⟨⟨h1, h2⟩, h3⟩, h4⟩, h5⟩, h6⟩, h7⟩ := ho
  refine { stands_of h1 with legal := h2, role := h3, readable := h4, room := ?_, mode := ?_, clear := h7 }
  · intro hl
    rcases h5 with h5 | h5
    · rw [hl] at h5; cases h5
    · exact h5
  · intro hp
    rcases h6 with h6 | h6
    · rw [hp] at h6; cases h6
    · exact h6

theorem issuing (l : List Instr) (hl : l.all (fun i => goes i (seat i id) (word i) (seatHeat i)) = true) : ∀ i ∈ l, ∃ s x h, Issues i s x h :=
  fun i hi => ⟨_, _, _, issues_of (List.all_eq_true.1 hl i hi)⟩

theorem witness_IntegerInstructionsKeepTheLowBits : ∀ i ∈ [.iadd c0 .s32 false (.v 0) (.v 2) (.v 3), .isub c0 .n32 false (.k 0) (.v 2) (.inl 63),
    .addi c0 .s32 false (.v 0) (.v 2) (-1), .iabs c0 .s64 false (.v 0) (.v 2), .imul c0 .n64 .low (.v 0) (.v 2) (.v 4),
    .imul c0 .s64 .hi (.v 0) (.v 2) (.v 4), .imul c0 .s32 .wide (.v 0) (.v 2) (.v 4), .imad c0 .s32 false (.v 0) (.v 2) (.v 3) (.v 4),
    .imad c0 .n32 true (.v 0) (.v 2) (.v 3) (.v 4), .imin c0 .s32 (.v 0) (.v 2) (.v 3), .imax c0 .n64 (.v 0) (.v 2) (.v 4)],
    ∃ s x h, Issues i s x h := issuing _ (by decide)

theorem witness_SaturatingIntegersClampAndRaiseSat : ∀ i ∈ [.iadd c0 .s32 true (.v 0) (.v 2) (.v 3), .isub c0 .n32 true (.v 0) (.v 2) (.v 3),
    .iabs c0 .s32 true (.v 0) (.v 2), .addi c0 .n32 true (.v 0) (.v 2) (-1)], ∃ s x h, Issues i s x h := issuing _ (by decide)

theorem witness_IdivTruncatesTowardZero : (∀ i ∈ [.idiv c0 .s32 false (.v 0) (.v 2) (.v 3), .idiv c0 .n64 true (.v 0) (.v 2) (.v 4)],
    ∃ s x h, Issues i s x h) ∧ Instr.wf (.idiv c0 .s32 true (.v 0) (.v 2) (.v 3)) = true := ⟨issuing _ (by decide), by decide⟩

theorem witness_BitInstructionsComputeTheirPatterns : (∀ i ∈ [.and c0 .s32 (.v 0) (.v 2) (.v 3), .or c0 .n64 (.v 0) (.v 2) (.v 4),
    .xor c0 .n32 (.v 0) (.v 2) (.v 3), .shl c0 .n32 false (.v 0) (.v 2) (.v 3), .shl c0 .n32 true (.v 0) (.v 2) (.v 3),
    .shr c0 .s64 false (.v 0) (.v 2) (.v 4), .shr c0 .n32 true (.v 0) (.v 2) (.v 3), .bfx c0 .s32 (.v 0) (.v 2) (.v 3),
    .bfi c0 .n32 (.v 0) (.v 2) (.v 3) (.v 4), .popc c0 .n32 (.v 0) (.v 2), .clz c0 .n64 (.v 0) (.v 2), .brev c0 .n32 (.v 0) (.v 2),
    .lea c0 true 7 (.v 0) (.v 2) (.v 4), .bysel c0 true (.v 0) (.v 2) (.v 3) (.v 4)], ∃ s x h, Issues i s x h) ∧
    Instr.wf (.popc c0 .n32 (.v 0) (.v 2)) = true ∧ Instr.wf (.clz c0 .n64 (.v 0) (.v 2)) = true ∧ Instr.wf (.brev c0 .n32 (.v 0) (.v 2)) = true ∧
    Instr.wf (.lea c0 true 7 (.v 0) (.v 2) (.v 4)) = true := ⟨issuing _ (by decide), by decide, by decide, by decide, by decide⟩

theorem witness_MovesCopyTheirSources : ∀ i ∈ [.sel c0 .f32 (.v 0) (.v 2) (.v 3) (.p 11), .mov c0 .n64 (.k 63) (.v 2),
    .movi c0 .s64 false (.v 0) 0xFFFF_FFFF, .movi c0 .n64 true (.v 0) 1, .psetfTo c0 (.v 0)], ∃ s x h, Issues i s x h := issuing _ (by decide)

theorem witness_FloatArithmeticRoundsOnce : ∀ i ∈ [.fadd c0 .rn false (.v 0) (.v 2) (.v 3) none, .fsub c0 .rs true (.v 0) (.v 2) (.v 3) (some (.v 4)),
    .fmul c0 .rz false (.v 0) (.v 2) (.v 3) none, .fdiv c0 .ru false (.v 0) (.v 2) (.v 3) none, .ffma c0 .rd true (.v 0) (.v 2) (.v 3) (.v 4),
    .fsqrt c0 .rn false (.v 0) (.v 2) none, .frnd c0 .rz true (.v 0) (.v 2) none], ∃ s x h, Issues i s x h := issuing _ (by decide)

theorem witness_FloatFunctionsGiveTheirResults : (∀ i ∈ [.fmin c0 true (.v 0) (.v 2) (.v 3), .fmax c0 false (.v 0) (.v 2) (.v 3),
    .fsign c0 .copy (.v 0) (.v 2) (some (.v 3)), .fclass c0 .bf16 (.v 0) (.v 2), .frcp c0 (.v 0) (.v 2), .frsq c0 (.v 0) (.v 2),
    .fexp2 c0 (.v 0) (.v 2), .flog2 c0 (.v 0) (.v 2), .ftanh c0 (.v 0) (.v 2)], ∃ s x h, Issues i s x h) ∧
    Instr.wf (.fsign c0 .copy (.v 0) (.v 2) (some (.v 3))) = true ∧ Instr.wf (.fsign c0 .neg (.v 0) (.v 2) none) = true :=
  ⟨issuing _ (by decide), by decide, by decide⟩

theorem witness_PackedInstructionsWorkOnBothHalves : ∀ i ∈ [.pkadd c0 .rs false true (.v 0) (.v 2) (.v 3) (some (.v 4)),
    .pkmul c0 .rn true false (.v 0) (.v 2) (.v 3) none, .pkfma c0 .rz false false (.v 0) (.v 2) (.v 3) (.v 4), .pkmnx c0 .maxnan true (.v 0) (.v 2) (.v 3)],
    ∃ s x h, Issues i s x h := issuing _ (by decide)

theorem witness_ConversionsPackAndUnpack : ∀ i ∈ [.cvti c0 .s64 .f32 .rz (.v 0) (.v 2) none, .cvtf c0 .e8m0 .f32 .ru false (.v 0) (.v 2) none,
    .pack2 c0 .bf16 .rn true .none (.v 0) 2 none, .pack4 c0 .e4m3 .rs false (.byte (.v 9) 3) (.v 0) 4 (some (.v 8)),
    .pack8 c0 .c4 .rn false (.book 60) (.v 0) 312 none, .unpk2 c0 .e5m2 .rn (.byte (.k 1) 0) 4 (.v 2) none,
    .unpk4 c0 .c4 .rn (.book 0) 4 (.v 2) none, .unpk8 c0 .c4 .rn (.book 4) 312 (.v 2) none, .scalex c0 .rn true false 3 (.v 0) (.v 2) (.v 3) none],
    ∃ s x h, Issues i s x h := issuing _ (by decide)

theorem witness_PredicateInstructionsWritePredicates : ∀ i ∈ [.pset c0 .f32 .un 11 (.v 2) (.v 3), .plog c0 .sel 0 (.p 1) (some .tt) (some (.p 11)),
    .vote c0 (.any 0) (.p 1), .vote c0 (.all 0) .ff, .vote c0 (.uni 0) (.p 1), .psetfFrom c0 (.v 2) (.v 3)], ∃ s x h, Issues i s x h := issuing _ (by decide)

theorem witness_CollectivesCombineTheActiveLanes : ∀ i ∈ [.vote c0 (.ballot (.v 0)) (.p 1), .shfl c0 .n64 .down (.v 0) (.v 2) (.v 4) 8,
    .hred c0 .f32 .ru .add (.v 0) (.v 2), .hscan c0 .n32 .rn .xor true (.v 0) (.v 2) (some (.p 4)), .matchv c0 .s64 (.v 0) (.v 2)],
    ∃ s x h, Issues i s x h := issuing _ (by decide)

theorem witness_RecordInstructionsWriteOneRecord : ∀ i ∈ [.bldQ c0 31 3 (.v 2), .bldK c0 0 60, .bldZero c0 0, .bsubOff c0 0 1 (.v 2),
    .bsubWin c0 0 0 (.v 2) 4096, .bsubColour c0 0 1 4095, .bsubFlags c0 0 1 31], ∃ s x h, Issues i s x h := issuing _ (by decide)

theorem witness_ControlInstructionsMoveTheActiveLanes (H : Obligations.ControlInstructionsMoveTheActiveLanes) :
    MetE (H c0 (-5) (.k 0) 20).1 ∧ MetE (H c0 (-5) (.k 0) 20).2.1 ∧ MetE (H c0 (-5) (.k 0) 20).2.2.1 ∧ MetE (H c0 (-5) (.k 0) 20).2.2.2.1 ∧
    MetE (H c0 (-5) (.k 0) 20).2.2.2.2.1 ∧ MetE (H c0 (-5) (.k 0) 20).2.2.2.2.2.1 ∧ MetE (H c0 (-5) (.k 0) 20).2.2.2.2.2.2 :=
  have go (i : Instr) (f : Heat → Heat) (h : goes i (seat i f) (word i) (f (seatHeat i)) = true) := issues_of h
  ⟨⟨_, _, _, go _ id (by decide), trivial⟩, ⟨_, _, _, go _ id (by decide), trivial⟩, ⟨_, _, _, go _ id (by decide), trivial⟩,
   ⟨_, _, _, go _ id (by decide), by decide⟩, ⟨_, _, _, go _ id (by decide), by decide⟩, ⟨_, _, _, go _ id (by decide), by decide⟩,
   ⟨_, _, _, go _ (fun h => h.updLane 0 (fun y => { y with depth := 1 })) (by decide), by decide⟩⟩

theorem met {i : Instr} {P : Seen → Prop} {U : Seen → State} {G : Seen → Heat} {F : Seen → Nat → Lane → Lane} {H : Acts i P U G F}
    (f : Heat → Heat) (g : State → State) (h1 : goes i (g (seat i f)) (word i) (f (seatHeat i)) = true)
    (h2 : P (seen i (g (seat i f)) (word i) (f (seatHeat i)))) : MetA H := ⟨_, _, _, issues_of h1, h2⟩

theorem metG {i : Instr} {P : Seen → Prop} {w : Bool} {d : Dst} {v : Seen → Nat → Nat × Nat} {H : Gives i P w d v}
    (f : Heat → Heat) (g : State → State) (h1 : goes i (g (seat i f)) (word i) (f (seatHeat i)) = true)
    (h2 : P (seen i (g (seat i f)) (word i) (f (seatHeat i)))) : MetG H := ⟨_, _, _, issues_of h1, h2⟩

/-- The placed heat with lane 0 alone. -/
def lone (h : Heat) : Heat := { h with lanes := h.lanes.take 1 }

theorem witness_ExitEndsItsLanes (H : Obligations.ExitEndsItsLanes) : MetA (H c0).1 ∧
    ∃ s x h, Issues (.exit c0) s x h ∧ (∀ l ∈ active (.exit c0) x h, (h.lane l).task = none ∧ ∀ y ∈ (h.lane l).held, y.pending = true) ∧
      ∀ l, l < h.lanes.length → l ∈ active (.exit c0) x h ∨ (h.lane l).st = .exited :=
  ⟨met id id (by decide) ⟨by decide, 1, by decide, by decide, by decide⟩,
   _, _, _, issues_of (h := lone (seatHeat (.exit c0))) (s := seat (.exit c0) lone) (x := word (.exit c0)) (by decide), by decide, by decide⟩

theorem witness_WaitfWaitsAndClearsMarks (H : Obligations.WaitfWaitsAndClearsMarks) : MetA (H c0 3).1 ∧
    ∃ s x h, Issues (.waitf c0 3) s x h ∧ ∃ f, f < 12 ∧ bit 3 f = true ∧ Tbl.get 0 h.fcnt f ≠ 0 :=
  ⟨met id id (by decide) (by decide),
   _, _, _, issues_of (s := seat (.waitf c0 3) (fun h => { h with fcnt := [(1, 2)] })) (x := word (.waitf c0 3))
     (h := { seatHeat (.waitf c0 3) with fcnt := [(1, 2)] }) (by decide), 1, by decide, by decide, by decide⟩

theorem witness_SystemWordsReadAndWriteTheirFields (H : Obligations.SystemWordsReadAndWriteTheirFields) :
    (∃ s x h, Issues (.heldTest c0 2 (.v 1)) s x h) ∧ MetG (H c0 2 (.v 0) .die (.v 1)).2.1 ∧ MetG (H c0 2 (.v 0) .die (.v 1)).2.2.1 ∧
    MetG (H c0 2 (.v 0) .die (.v 1)).2.2.2.1 ∧ MetG (H c0 2 (.v 0) .die (.v 1)).2.2.2.2.1 ∧ MetA (H c0 2 (.v 0) .die (.v 1)).2.2.2.2.2.1 ∧
    MetA (H c0 2 (.v 0) .die (.v 1)).2.2.2.2.2.2.1 ∧ MetA (H c0 2 (.v 0) .die (.v 1)).2.2.2.2.2.2.2.1 ∧
    MetG (H c0 2 (.v 0) .die (.v 1)).2.2.2.2.2.2.2.2.1 ∧ MetG (H c0 2 (.v 0) .die (.v 1)).2.2.2.2.2.2.2.2.2 :=
  ⟨⟨_, _, _, issues_of (s := seat (.heldTest c0 2 (.v 1)) id) (x := word (.heldTest c0 2 (.v 1))) (h := seatHeat (.heldTest c0 2 (.v 1))) (by decide)⟩,
   metG id id (by decide) trivial, metG id id (by decide) trivial, metG id id (by decide) trivial, metG id id (by decide) trivial,
   met id id (by decide) (by decide), met id id (by decide) (by decide), met id id (by decide) (by decide),
   metG id id (by decide) ⟨by decide, by decide, by decide⟩, metG id id (by decide) trivial⟩

theorem stands (i : Instr) (f : Heat → Heat) (h : ok (seat i f) (word i) (f (seatHeat i)) = true) : Stands (seat i f) (word i) (f (seatHeat i)) :=
  stands_of h

theorem witness_ExceptionsParkTheirLanes :
    (∃ i s x h, i.isWord = true ∧ Stands s x h ∧ (∀ l ∈ x.lanes, (h.lane l).task = none) ∧ decodeTrap i x.hdr = true) ∧
    (∃ i s x h, i.isWord = true ∧ Stands s x h ∧ (∀ l ∈ x.lanes, (h.lane l).task = none) ∧ decodeTrap i x.hdr = false ∧
      roleAllows h.role (Instr.opcode i) = false ∧ Instr.unreadable i = false) ∧
    (∃ i s x h, i.isWord = true ∧ Stands s x h ∧ (∀ l ∈ x.lanes, (h.lane l).task = none) ∧ decodeTrap i x.hdr = false ∧
      roleAllows h.role (Instr.opcode i) = true ∧ Instr.unreadable i = true ∧ active i x h ≠ []) ∧
    (∃ i s x h, i.isWord = true ∧ Stands s x h ∧ decodeTrap i x.hdr = false ∧ roleAllows h.role (Instr.opcode i) = true ∧
      Instr.unreadable i = false ∧ Instr.long i = true ∧ Tbl.get 0 h.fcnt (flagOf x.hdr (com i)) = 63) ∧
    (∃ i s x h, i.isWord = true ∧ Stands s x h ∧ (∀ l ∈ x.lanes, (h.lane l).task = none) ∧ decodeTrap i x.hdr = false ∧
      roleAllows h.role (Instr.opcode i) = true ∧ Instr.unreadable i = false ∧ Instr.long i = false ∧ Instr.privileged i = true ∧
      h.service = false ∧ active i x h ≠ []) ∧
    (∃ c ty d a s x h, Stands s x h ∧ (∀ l ∈ x.lanes, (h.lane l).task = none) ∧ decodeTrap (.mov c ty d a) x.hdr = false ∧
      roleAllows h.role (Instr.opcode (.mov c ty d a)) = true ∧ Instr.unreadable (.mov c ty d a) = false ∧ active (.mov c ty d a) x h ≠ [] ∧
      ∀ l ∈ active (.mov c ty d a) x h, h.hazard l (Instr.namedV (.mov c ty d a)) (Instr.namedK (.mov c ty d a)) = true) ∧
    (∃ c code a s x h, Issues (.trap c code a) s x h ∧ (∀ l ∈ x.lanes, (h.lane l).task = none) ∧ active (.trap c code a) x h ≠ []) :=
  ⟨⟨.lds c0 false 4 6 (.v 1) none, _, _, _, by decide, stands (.lds c0 false 4 6 (.v 1) none) id (by decide), by decide, by decide⟩,
   ⟨.frcp c0 (.v 0) (.v 1), _, _, _, by decide, stands (.frcp c0 (.v 0) (.v 1)) (fun h => { h with role := 0 }) (by decide), by decide, by decide, by decide, by decide⟩,
   ⟨.mov c0 .n32 (.v 0) .none, _, _, _, by decide, stands (.mov c0 .n32 (.v 0) .none) id (by decide),
    by decide, by decide, by decide, by decide, by decide⟩,
   ⟨.lds c0 false 2 6 (.v 1) none, _, _, _, by decide,
    stands (.lds c0 false 2 6 (.v 1) none) (fun h => { h with fcnt := [(0, 63)] }) (by decide), by decide, by decide, by decide, by decide, by decide⟩,
   ⟨.tlbinvCtx c0, _, _, _, by decide, stands (.tlbinvCtx c0) (fun h => { h with service := false }) (by decide),
    by decide, by decide, by decide, by decide, by decide, by decide, by decide, by decide⟩,
   ⟨c0, .n32, .v 0, .v 1, _, _, _, stands (.mov c0 .n32 (.v 0) (.v 1)) (fun h => h.updLane 0 (fun y => { y with pend := [(1, 0)] })) (by decide),
    by decide, by decide, by decide, by decide, by decide, by decide⟩,
   ⟨c0, 5, none, _, _, _, issues_of (s := seat (.trap c0 5 none) id) (x := word (.trap c0 5 none)) (h := seatHeat (.trap c0 5 none)) (by decide),
    by decide, by decide⟩⟩

/-- The placed unit as `f` makes it. -/
def unitBy (f : RUnit → RUnit) (s : State) : State := { s with units := s.units.map f }

/-- A team of two heats, both live. -/
def pair (s : State) : State :=
  { unitBy (fun u => { u with teams := u.teams.map (fun t => { t with heats := 2 }) }) s with
    heats := s.heats ++ [{ seatHeat (.nop c0) with key := { placedKey with heat := 1 } }] }

/-- A team of two heats whose barrier `n` the placed heat has reached. -/
def atBar (s : State) : State :=
  unitBy (fun u => { u with teams := u.teams.map (fun t => { t with heats := 2, bars := [(3, { arrived := 1, expect := 2 })] }) }) s

theorem settled_of {e : Seen} (h : e.s.owed e.h (e.h.fence.getD e.s.nid) = false) : e.settled := h
theorem owing_of {e : Seen} (h : e.s.owed e.h (e.h.fence.getD e.s.nid) = true) : ¬ e.settled := fun q => Bool.noConfusion (h.symm.trans q)
theorem may_of {e : Seen} {sc : Scope} (hs : 2 ≤ sc.code) (h : e.h.cpyw = []) : e.mayRelease sc := (if_pos hs).mpr h
theorem keeps_order {o : Order} (h : o = .relaxed ∨ o = .acquire) : ¬ frees o := by
  rcases h with rfl | rfl <;> (intro h; rcases h with h | h <;> cases h)

/-- A request of the placed heat under way. -/
def req0 : Req := { id := 0, key := placedKey, ctx := 0, core := 0, line := 1024, accs := [], write := true, born := 0 }

/-- A load of it under way. -/
def req1 : Req := { req0 with write := false, accs := [{ lane := 1, va := 0x40000, pa := 0x80000, op := .load false 2 6, opId := 0, nopre := false }] }

theorem witness_BarriersJoinTheirTeam (H : Obligations.BarriersJoinTheirTeam) : MetA (H c0 3 none).1 ∧ MetA (H c0 3 none).2.1 ∧ MetA (H c0 3 none).2.2.1 ∧
    (∃ s x h u t, Issues (.bara c0 3 none) s x h ∧ active (.bara c0 3 none) x h ≠ [] ∧ (seen (.bara c0 3 none) s x h).Team u t ∧
      bit (Tbl.get {} t.bars 3).arrived x.key.heat = true) ∧
    ∀ i b, (i = .bara c0 3 b ∨ i = .bar c0 3 b) → (b = none ∨ b = some (.v 1)) → ∃ s x h u t, Issues i s x h ∧ active i x h ≠ [] ∧
      (seen i s x h).Team u t ∧ bit (Tbl.get {} t.bars 3).arrived x.key.heat = false ∧ t.heats = 1 ∧ (∀ l ∈ x.lanes, (h.lane l).task = none) ∧
      reads i s x h .n32 (.v 1) 0 = 0 ∧ (seen i s x h).settled :=
  ⟨met id pair (by decide) ⟨_, _, ⟨by decide, ⟨rfl, rfl⟩, by decide⟩, by decide, settled_of (by decide), by decide⟩,
   met id pair (by decide) ⟨_, _, ⟨by decide, ⟨rfl, rfl⟩, by decide⟩, by decide, settled_of (by decide), by decide⟩,
   met id atBar (by decide) ⟨_, _, by decide, ⟨rfl, rfl⟩, by decide⟩,
   ⟨_, _, _, _, _, issues_of (s := atBar (seat (.bara c0 3 none) id)) (x := word (.bara c0 3 none)) (h := seatHeat (.bara c0 3 none)) (by decide),
    by decide, ⟨rfl, rfl⟩, by decide⟩,
   fun i b hi hb => by
    rcases hi with rfl | rfl <;> rcases hb with rfl | rfl
    · exact ⟨_, _, _, _, _, issues_of (s := seat (.bara c0 3 none) id) (x := word (.bara c0 3 none)) (h := seatHeat (.bara c0 3 none)) (by decide),
        by decide, ⟨rfl, rfl⟩, by decide, by decide, by decide, by decide, settled_of (by decide)⟩
    · exact ⟨_, _, _, _, _, issues_of (s := seat (.bara c0 3 (some (.v 1))) id) (x := word (.bara c0 3 (some (.v 1))))
        (h := seatHeat (.bara c0 3 (some (.v 1)))) (by decide), by decide, ⟨rfl, rfl⟩, by decide, by decide, by decide, by decide, settled_of (by decide)⟩
    · exact ⟨_, _, _, _, _, issues_of (s := seat (.bar c0 3 none) id) (x := word (.bar c0 3 none)) (h := seatHeat (.bar c0 3 none)) (by decide),
        by decide, ⟨rfl, rfl⟩, by decide, by decide, by decide, by decide, settled_of (by decide)⟩
    · exact ⟨_, _, _, _, _, issues_of (s := seat (.bar c0 3 (some (.v 1))) id) (x := word (.bar c0 3 (some (.v 1))))
        (h := seatHeat (.bar c0 3 (some (.v 1)))) (by decide), by decide, ⟨rfl, rfl⟩, by decide, by decide, by decide, by decide, settled_of (by decide)⟩⟩

theorem witness_BarriersJoinTheirTeam_owes : ∀ i, i = .bara c0 3 none ∨ i = .bar c0 3 none → ∃ s x h u t, Issues i s x h ∧ active i x h ≠ [] ∧
    (seen i s x h).Team u t ∧ bit (Tbl.get {} t.bars 3).arrived x.key.heat = false ∧ t.heats = 1 ∧ ¬ (seen i s x h).settled := fun i hi => by
  rcases hi with rfl | rfl
  · exact ⟨_, _, _, _, _, issues_of (s := { seat (.bara c0 3 none) id with reqs := [req1], nid := 1 }) (x := word (.bara c0 3 none))
      (h := seatHeat (.bara c0 3 none)) (by decide), by decide, ⟨rfl, rfl⟩, by decide, by decide, owing_of (by decide)⟩
  · exact ⟨_, _, _, _, _, issues_of (s := { seat (.bar c0 3 none) id with reqs := [req1], nid := 1 }) (x := word (.bar c0 3 none))
      (h := seatHeat (.bar c0 3 none)) (by decide), by decide, ⟨rfl, rfl⟩, by decide, by decide, owing_of (by decide)⟩

theorem witness_FenceWaitsForItsParts (H : Obligations.FenceWaitsForItsParts) : MetA (H c0 .full true .system).1 ∧
    ∃ s x h, Issues (.fence c0 .rel false .core) s x h ∧ active (.fence c0 .rel false .core) x h ≠ [] ∧
      ∃ r ∈ s.reqs, r.key = x.key ∧ r.id < h.fence.getD s.nid ∧ r.copy = false :=
  ⟨met id id (by decide) ⟨by decide, fun _ => ⟨fun r hr => (List.not_mem_nil hr.1).elim, fun r hr => (List.not_mem_nil hr.1).elim, by decide⟩,
     ⟨fun r hr => (List.not_mem_nil hr.1).elim, fun r hr => (List.not_mem_nil hr.1).elim⟩, by decide, by decide, by decide,
     fun hs => Scope.noConfusion hs⟩,
   _, _, _, issues_of (s := { seat (.fence c0 .rel false .core) id with reqs := [req0], nid := 1 }) (x := word (.fence c0 .rel false .core))
     (h := seatHeat (.fence c0 .rel false .core)) (by decide), by decide, req0, by decide, by decide, by decide, by decide⟩

/-- A translation of the page at 0x40000. -/
def page : TlbE := { die := 0, cores := [0], ctx := 0, va := 0x40000, size := 0x10000, pa := 0x80000, w := true, x := false, pte := 0x5020, dirty := true }

def withPage (s : State) : State := { s with tlb := s.tlb ++ [page] }

theorem witness_WaitaBlocksItsLanes (H : Obligations.WaitaBlocksItsLanes) :
    MetA (H c0 (some 2) (.v 2) (.v 4) .eq false true none).1 ∧ MetA (H c0 (some 2) (.v 2) (.v 4) .eq false true (some .die)).2 :=
  ⟨met id id (by decide) (fun l hl => ⟨_, rfl, by revert l; decide, by revert l; decide⟩),
   met (setV [(2, 0x40000)]) withPage (by decide) (fun l hl => ⟨by revert l; decide, fun _ => by revert l; decide, by revert l; unfold Canonical; decide,
     0x80000, page, by revert l; decide, by revert l; decide, by revert l; decide, by decide, by decide⟩)⟩

/-- A ring of two slots at offset 0 of the placed unit's region, each slot's state byte `st` (R55). -/
def ringWith (st : Nat) (s : State) : State := unitBy (fun u =>
  { u with scr := writeBytes u.scr 0 ([0, 0, 0, 0, 0, 1, 0, 0, 2, 3] ++ List.replicate 14 0 ++ List.replicate 2 (BitVec.ofNat 8 st) ++
      List.replicate 30 0 ++ [1] ++ List.replicate 7 0) }) s

/-- The same object as a template in k0 to k7. -/
def templ (h : Heat) : Heat := ((h.setK 0 (2 ^ 40)).setK 1 (2 + 3 * 256)).setK 7 1

theorem witness_RingInstructionsHandSlotsOn (H : Obligations.RingInstructionsHandSlotsOn) :
    MetA (H c0 (.v 1) (some 2) 0 true).1 ∧ MetA (H c0 (.v 1) (some 2) 0 true).2.1 ∧ MetA (H c0 (.v 1) (some 2) 0 true).2.2.1 ∧
    MetA ((H c0 (.v 1) (some 2) 0 true).2.2.2.1 .fill) ∧ MetA ((H c0 (.v 1) (some 2) 0 true).2.2.2.2.1 .operate) ∧
    MetA (H c0 (.v 1) (some 2) 0 true).2.2.2.2.2.1 ∧ MetA (H c0 (.v 1) (some 2) 0 true).2.2.2.2.2.2 :=
  ⟨met id (ringWith 4) (by decide) ⟨⟨⟨_, by decide, by decide, rfl, by decide, by decide, by decide, by decide, by decide⟩, by decide⟩, by decide⟩,
   met id (ringWith 1) (by decide) ⟨⟨⟨_, by decide, by decide, rfl, by decide, by decide, by decide, by decide, by decide⟩, by decide⟩, by decide⟩,
   met id (ringWith 2) (by decide) ⟨⟨⟨_, by decide, by decide, rfl, by decide, by decide, by decide, by decide, by decide⟩, by decide⟩, by decide⟩,
   met id (ringWith 4) (by decide) ⟨⟨⟨_, by decide, by decide, rfl, by decide, by decide, by decide, by decide, by decide⟩, by decide⟩, by decide⟩,
   met id (ringWith 4) (by decide) ⟨⟨⟨_, by decide, by decide, rfl, by decide, by decide, by decide, by decide, by decide⟩, by decide⟩, by decide⟩,
   met id (ringWith 1) (by decide) ⟨⟨⟨_, by decide, by decide, rfl, by decide, by decide, by decide, by decide, by decide⟩, by decide⟩, by decide⟩,
   met templ id (by decide) ⟨by decide, by decide, ⟨_, rfl, by decide, by decide, by decide⟩, by decide, by decide, by decide, by decide, by decide, by decide⟩⟩

/-- The placed unit as member 0 of a QUAD. -/
def inQuad (s : State) : State := unitBy (fun u => { u with quad := some (0, 0) }) s

theorem scratch_of {e : Seen} {unit off sz : Nat} (h : (match e.s.unit? unit with
    | none => false
    | some u => decide (off % 2 ^ sz = 0) && decide (off + 2 ^ sz ≤ u.size) && !(e.s.scrOwned unit (off / 64))) = true) : e.Scratch unit off sz := by
  cases hu : e.s.unit? unit with
  | none => rw [hu] at h; cases h
  | some u =>
    rw [hu] at h
    simp only [Bool.and_eq_true, decide_eq_true_eq, Bool.not_eq_true'] at h
    exact ⟨u, hu, h.1.1, h.1.2, h.2⟩

theorem witness_ScratchpadLoadsFillTheirRegisters (H : Obligations.ScratchpadLoadsFillTheirRegisters) :
    MetA (H c0 true 1 6 (.v 1) (.inl 1) (some (.v 2))).1 ∧ MetA ((H c0 true 1 6 (.v 1) (.v 5) none).2 (fun _ _ => 0)) :=
  ⟨met (setV [(1, 6)]) id (by decide) (fun l hl => scratch_of (by revert l; decide)),
   met (setV [(1, 6)]) inQuad (by decide) (fun l hl => ⟨by revert l; decide, scratch_of (by revert l; decide)⟩)⟩

theorem witness_ScratchpadStoresWriteTheirBytes (H : Obligations.ScratchpadStoresWriteTheirBytes) :
    MetA (H c0 false 1 6 (.v 1) (.inl 1) (some (.v 2))).1 ∧ MetA ((H c0 false 1 6 (.v 1) (.v 5) none).2 (fun _ _ => 0)) :=
  ⟨met (setV [(1, 6)]) id (by decide) (fun l hl => scratch_of (by revert l; decide)),
   met (setV [(1, 6)]) inQuad (by decide) (fun l hl => ⟨by revert l; decide, scratch_of (by revert l; decide)⟩)⟩

def mappedB (s : State) (ctx core va : Nat) (use : Use) (pa : Nat) : Bool :=
  match s.tlb.find? (fun e => e.die = core / 64 ∧ e.ctx = ctx ∧ e.va ≤ va % 2 ^ 57 ∧ va % 2 ^ 57 < e.va + e.size) with
  | none => false
  | some e => e.cores.contains core && decide (pa = e.pa + (va % 2 ^ 57 - e.va)) && !(s.fencedDies.contains (homeOf pa)) &&
    (decide (use ≠ .write) || (e.w && e.dirty)) && (decide (use ≠ .fetch) || e.x)

theorem mapped_of {s : State} {ctx core va : Nat} {use : Use} {pa : Nat} (h : mappedB s ctx core va use pa = true) : Mapped s ctx core va use pa := by
  unfold mappedB at h
  cases ht : s.tlb.find? (fun e => e.die = core / 64 ∧ e.ctx = ctx ∧ e.va ≤ va % 2 ^ 57 ∧ va % 2 ^ 57 < e.va + e.size) with
  | none => rw [ht] at h; cases h
  | some e =>
    rw [ht] at h
    simp only [Bool.and_eq_true, Bool.or_eq_true, decide_eq_true_eq, Bool.not_eq_true'] at h
    exact ⟨e, ht, h.1.1.1.1, h.1.1.1.2, h.1.1.2, fun hu => h.1.2.resolve_left (fun hn => hn hu), fun hu => h.2.resolve_left (fun hn => hn hu)⟩

def placeB (e : Seen) (l : Nat) (use : Use) (va pa : Nat) : Bool :=
  decide (e.act = [l]) && mappedB e.s e.x.key.ctx e.h.core (va / 256 * 256) use (pa - va % 256) && decide (va % 256 ≤ pa) &&
  decide ((e.h.lane l).task = none) && !e.h.debug && !e.h.journal && decide (e.h.busy = none) && decide (e.s.freeSlots e.h.core ≠ 0) &&
  !(e.s.ownPending e.x.key (pa / 64)) && !(e.s.copyOwned (pa / 64)) && e.s.ops.all (fun o => o.id ≠ e.s.nid) &&
  e.h.lanes.all (fun y => match y.st with | .blocked (.colour _ a) => a.opId ≠ e.s.nid | _ => true)

theorem place_of {e : Seen} {l : Nat} {use : Use} {va pa : Nat} (h : placeB e l use va pa = true) : e.Place l use va pa := by
  simp only [placeB, Bool.and_eq_true, decide_eq_true_eq, Bool.not_eq_true', List.all_eq_true] at h
  obtain ⟨⟨⟨⟨⟨⟨⟨⟨⟨⟨⟨h1, h2⟩, h3⟩, h4⟩, h5⟩, h6⟩, h7⟩, h8⟩, h9⟩, h10⟩, h11⟩, h12⟩ := h
  exact ⟨h1, ⟨_, mapped_of h2, (Nat.sub_add_cancel h3).symm⟩, h4, h5, h6, h7, h8, h9, h10, h11,
    fun y hy c a hc => by simpa [hc] using h12 y hy⟩

theorem at_of {e : Seen} {use : Use} {va pa : Nat}
    (h : (mappedB e.s e.x.key.ctx e.h.core (va / 256 * 256) use (pa - va % 256) && decide (va % 256 ≤ pa)) = true) : e.At use va pa := by
  simp only [Bool.and_eq_true, decide_eq_true_eq] at h
  exact ⟨_, mapped_of h.1, (Nat.sub_add_cancel h.2).symm⟩

/-- A record of 100 elements of 2^sz bytes from 0x40000, writable (R45). -/
def recOf (sz : Nat) : Nat := setFld (setFld (setFld (setFld 0 0 57 0x40000) 64 40 100) 128 4 sz) 159 1 1

/-- v2 the index `n`, v4 = 77, b0 a record of words and b1 one of doublewords. -/
def regs (n : Nat) (h : Heat) : Heat := ((h.updLane 0 (fun y => (y.setV 2 n).setV 4 77)).setB 0 (recOf 2)).setB 1 (recOf 3)

/-- The page in place, its first sector in the L1. -/
def inL1 (s : State) : State := { withPage s with l1 := [(skey 0 (0x80000 / 64), List.replicate 64 5)] }

def ix : Index := { x := .v 2, w64 := false }
def gx : GIndex := { x := .v 2, sg := false, iw := 2, sel := 0, scl := 0 }

theorem checked_of {e : Seen} {b sz : Nat} {i : Int} {k : AKind} {va : Nat}
    (h : (decide (check (e.rcd b) sz i k = .va va) && decide (recColour (e.rcd b) = 0) && !(recRemote (e.rcd b))) = true) : e.Checked b sz i k va := by
  simp only [Bool.and_eq_true, decide_eq_true_eq, Bool.not_eq_true'] at h
  exact ⟨h.1.1, h.1.2, h.2⟩

theorem witness_LoadsBringTheirElement (H : Obligations.LoadsBringTheirElement) :
    MetA (H c0 false 2 6 0 ix gx _ _ 0 0x4000C 0x8000C (List.replicate 64 5) (.inl ⟨rfl, rfl⟩)).1 ∧
    MetA (H c0 false 2 6 0 ix gx _ _ 0 0x4000C 0x8000C [] (.inl ⟨rfl, rfl⟩)).2 ∧
    MetA (H c0 false 2 6 0 ix gx _ _ 0 0x4000C 0x8000C (List.replicate 64 5) (.inr ⟨rfl, rfl⟩)).1 ∧
    MetA (H c0 false 2 6 0 ix gx _ _ 0 0x4000C 0x8000C [] (.inr ⟨rfl, rfl⟩)).2 :=
  ⟨met (regs 3) inL1 (by decide) ⟨⟨place_of (by decide), checked_of (by decide)⟩, by decide⟩,
   met (regs 3) withPage (by decide) ⟨⟨place_of (by decide), checked_of (by decide)⟩, by decide⟩,
   met (regs 3) inL1 (by decide) ⟨⟨place_of (by decide), checked_of (by decide)⟩, by decide⟩,
   met (regs 3) withPage (by decide) ⟨⟨place_of (by decide), checked_of (by decide)⟩, by decide⟩⟩

theorem witness_StoresWriteTheirElementThrough (H : Obligations.StoresWriteTheirElementThrough) :
    MetA (H c0 false 2 6 0 ix gx .core (.v 4) _ _ _ 0 0x4000C 0x8000C (.inl ⟨rfl, rfl, rfl⟩)) ∧
    MetA (H c0 false 2 6 0 ix gx .core (.v 4) _ _ _ 0 0x4000C 0x8000C (.inr (.inl ⟨rfl, rfl, rfl⟩))) ∧
    MetA (H c0 false 2 6 0 ix gx .core (.v 4) _ _ _ 0 0x4000C 0x8000C (.inr (.inr ⟨rfl, by decide, rfl, rfl⟩))) :=
  ⟨met (regs 3) withPage (by decide) ⟨place_of (by decide), checked_of (by decide), fun h => Instr.noConfusion h⟩,
   met (regs 3) withPage (by decide) ⟨place_of (by decide), checked_of (by decide), fun h => Instr.noConfusion h⟩,
   met (regs 3) withPage (by decide) ⟨place_of (by decide), checked_of (by decide), fun _ => settled_of (by decide)⟩⟩

theorem witness_StoresGoThroughToTheDie :
    (¬ ((withPage State.reset).owns 0 0x2000 = false ∨ ∃ q ∈ (withPage State.reset).rwq, q.die = 0 ∧ q.pa / 64 = 0x2000)) ∧
    ((State.reset).owns 1 0x2000 = false ∨ ∃ q ∈ State.reset.rwq, q.die = 1 ∧ q.pa / 64 = 0x2000) := by decide

theorem witness_UniformAndAcquiringLoads (H : Obligations.UniformAndAcquiringLoads) :
    MetA ((H c0 2 0 0 (.v 6) _ ix .core _ 0 0x4000C 0x8000C (List.replicate 64 5)).1 (.inl ⟨rfl, rfl⟩)) ∧
    MetA ((H c0 2 0 0 (.v 6) _ ix .core _ 0 0x4000C 0x8000C (List.replicate 64 5)).1 (.inr ⟨rfl, rfl, by decide⟩)) ∧
    MetA ((H c0 2 0 0 (.v 6) _ ix .core _ 0 0x4000C 0x8000C []).2.1 _ (.inl ⟨rfl, rfl, rfl⟩)) ∧
    MetA ((H c0 2 0 0 (.v 6) _ ix .core _ 0 0x4000C 0x8000C []).2.1 _ (.inr ⟨rfl, rfl, by decide, rfl⟩)) ∧
    MetA ((H c0 3 1 0 (.v 6) (.v 6) ix .die _ 0 0x40000 0x80000 []).2.2 ⟨rfl, by decide⟩) :=
  ⟨met (regs 3) inL1 (by decide) ⟨⟨place_of (by decide), checked_of (by decide)⟩, by decide⟩,
   met (regs 3) inL1 (by decide) ⟨⟨place_of (by decide), checked_of (by decide)⟩, by decide⟩,
   met (regs 3) withPage (by decide) ⟨⟨place_of (by decide), checked_of (by decide)⟩, by decide⟩,
   met (regs 3) withPage (by decide) ⟨⟨place_of (by decide), checked_of (by decide)⟩, by decide⟩,
   met (regs 0) withPage (by decide) ⟨⟨place_of (by decide), checked_of (by decide)⟩, by decide⟩⟩

theorem witness_AtomicsReplaceTheirWord (H : Obligations.AtomicsReplaceTheirWord) :
    MetA ((H c0 .add .unsigned 2 0 .relaxed .core (some (.v 6)) (.v 6) ix (.v 4) _ _ 0 0x4000C 0x8000C (List.replicate 64 5) (.inl ⟨rfl, rfl⟩)).1
      (by decide)).1 ∧
    MetA ((H c0 .add .unsigned 2 0 .relaxed .core (some (.v 6)) (.v 6) ix (.v 4) _ _ 0 0x4000C 0x8000C [] (.inl ⟨rfl, rfl⟩)).1 (by decide)).2 ∧
    MetA ((H c0 .cas .unsigned 2 0 .relaxed .core _ (.v 6) ix (.v 4) _ _ 0 0x4000C 0x8000C (List.replicate 64 5) (.inr ⟨rfl, rfl, rfl, rfl, rfl⟩)).1
      (by decide)).1 ∧
    MetA ((H c0 .cas .unsigned 3 1 .acquire .die _ (.v 6) ix (.v 4) _ _ 0 0x40000 0x80000 [] (.inr ⟨rfl, rfl, rfl, rfl, rfl⟩)).2.1
      (by decide) (keeps_order (.inr rfl))) ∧
    MetA ((H c0 .add .unsigned 3 1 .both .die (some (.v 6)) (.v 6) ix (.v 4) _ _ 0 0x40000 0x80000 [] (.inl ⟨rfl, rfl⟩)).2.2
      (by decide) (.inr rfl)) :=
  ⟨met (regs 3) inL1 (by decide) ⟨⟨place_of (by decide), checked_of (by decide), fun h => (keeps_order (.inl rfl) h).elim⟩, by decide⟩,
   met (regs 3) withPage (by decide) ⟨⟨place_of (by decide), checked_of (by decide), fun h => (keeps_order (.inl rfl) h).elim⟩, by decide⟩,
   met (regs 3) inL1 (by decide) ⟨⟨place_of (by decide), checked_of (by decide), fun h => (keeps_order (.inl rfl) h).elim⟩, by decide⟩,
   met (regs 0) withPage (by decide) ⟨⟨place_of (by decide), checked_of (by decide), fun h => (keeps_order (.inr rfl) h).elim⟩, by decide⟩,
   met (regs 0) withPage (by decide) ⟨⟨place_of (by decide), checked_of (by decide), fun _ => may_of (by decide) (by decide)⟩, by decide⟩⟩

/-- An access of the placed heat whose completion word is pending. -/
def cpywDue (h : Heat) : Heat := { regs 0 h with cpyw := [{ before := 5, ctx := 0, accs := [] }] }

theorem witness_SyncWordsReachTheirObject (H : Obligations.SyncWordsReachTheirObject) :
    MetA ((H c0 .acquire 3 1 .die (some (.v 6)) (.v 4) ix (.v 4) 0 0x40000 0x80000).1 rfl) ∧
    MetA ((H c0 .both 3 1 .die (some (.v 6)) (.v 4) ix (.v 4) 0 0x40000 0x80000).2.1 (by decide) (.inr rfl)) ∧
    MetA ((H c0 .both 3 1 .die (some (.v 6)) (.v 4) ix (.v 4) 0 0x40000 0x80000).2.2.1 (by decide)) ∧
    ∀ i, i = .syadd c0 .release .die none ix (.v 4) 1 ∨ i = .strel c0 3 .die (.v 4) ix 1 → ∃ s x h, Issues i s x h ∧ h.cpyw ≠ [] ∧
      (seen i s x h).Place 0 .write 0x40000 0x80000 ∧ recColour (h.b256 1) = 0 ∧ recRemote (h.b256 1) = false :=
  ⟨met (regs 0) withPage (by decide) ⟨place_of (by decide), checked_of (by decide), by decide⟩,
   met (regs 0) withPage (by decide) ⟨⟨place_of (by decide), checked_of (by decide), by decide⟩, may_of (by decide) (by decide)⟩,
   met (regs 0) withPage (by decide) ⟨⟨place_of (by decide), checked_of (by decide), by decide⟩, may_of (by decide) (by decide)⟩,
   fun i hi => by
    rcases hi with rfl | rfl
    · exact ⟨_, _, _, issues_of (s := withPage (seat (.syadd c0 .release .die none ix (.v 4) 1) cpywDue)) (x := word (.syadd c0 .release .die none ix (.v 4) 1))
        (h := cpywDue (seatHeat (.syadd c0 .release .die none ix (.v 4) 1))) (by decide), by decide, place_of (by decide), by decide, by decide⟩
    · exact ⟨_, _, _, issues_of (s := withPage (seat (.strel c0 3 .die (.v 4) ix 1) cpywDue)) (x := word (.strel c0 3 .die (.v 4) ix 1))
        (h := cpywDue (seatHeat (.strel c0 3 .die (.v 4) ix 1))) (by decide), by decide, place_of (by decide), by decide, by decide⟩⟩

theorem witness_ScratchpadAtomicsReplaceTheirWord (H : Obligations.ScratchpadAtomicsReplaceTheirWord) :
    MetA (H c0 .add .signed 2 .relaxed .heat (some (.v 6)) (.v 1) (.v 2) 0) :=
  met id id (by decide) ⟨by decide, scratch_of (by decide), by decide, fun h => (keeps_order (.inl rfl) h).elim⟩

theorem canonical_of {va : Nat} (h : (decide (fld va 56 8 = 0) || decide (fld va 56 8 = 255)) = true) : Canonical va := by
  simpa [Canonical] using h

theorem witness_BldMemReadsARecord (H : Obligations.BldMemReadsARecord) : MetA (H c0 1 1 (.v 2) 0x80020 (List.replicate 64 5)) :=
  met (setV [(2, 0x40000)]) inL1 (by decide) ⟨by decide, by decide, canonical_of (by decide), mapped_of (by decide), by decide, by decide, by decide, by decide⟩

/-- 16 completion words of the heat are to be written. -/
def crowded (h : Heat) : Heat := { regs 3 h with cpyw := (upto 16).map (fun i => { before := i, ctx := 0, accs := [] }) }

theorem witness_CopiesBeginAndTheHeatGoesOn (H : Obligations.CopiesBeginAndTheHeatGoesOn) :
    MetA (H c0 2 0 .core (.v 1) (.v 4) ix 0 0x4000C 0x8000C).1 ∧ MetA (H c0 2 0 .core (.v 1) (.v 4) ix 0 0x4000C 0x8000C).2.1 ∧
    MetA (H c0 2 0 .core (.v 1) (.v 4) ix 0 0x4000C 0x8000C).2.2.1 ∧
    ∃ s x h, Issues (.cpyw c0 2 .core (.v 4) ix 0) s x h ∧ recRemote (h.b256 0) = false ∧ 16 ≤ s.cpywPending h :=
  ⟨met (regs 3) withPage (by decide) ⟨by decide, at_of (by decide), checked_of (by decide), by decide, by decide, by decide, by decide,
     ⟨_, rfl, by decide, by decide⟩, by decide⟩,
   met (regs 3) withPage (by decide) ⟨by decide, at_of (by decide), checked_of (by decide), by decide, by decide, by decide, by decide,
     ⟨_, rfl, by decide, by decide⟩, by decide⟩,
   met (regs 3) withPage (by decide) ⟨place_of (by decide), checked_of (by decide), by decide, by decide, by decide⟩,
   _, _, _, issues_of (s := withPage (seat (.cpyw c0 2 .core (.v 4) ix 0) crowded)) (x := word (.cpyw c0 2 .core (.v 4) ix 0))
     (h := crowded (seatHeat (.cpyw c0 2 .core (.v 4) ix 0))) (by decide), by decide, by decide⟩

theorem witness_MarksNameTheSigners (H : Obligations.MarksNameTheSigners) :
    MetA (H c0 3 0 (.v 2) _ _ (.inl ⟨rfl, rfl⟩)).1 ∧ MetA (H c0 3 0 (.v 2) _ _ (.inr (.inl ⟨rfl, rfl⟩))).1 ∧
    MetA (H c0 3 0 (.v 2) _ _ (.inr (.inr ⟨rfl, rfl⟩))).1 ∧
    ∃ s h q, Issues (.mmarkMask c0 3 0 (.v 2)) s q h ∧ active (.mmarkMask c0 3 0 (.v 2)) q h ≠ [] ∧ (∀ l ∈ q.lanes, (h.lane l).task = none) ∧
      ∃ u t, (seen (.mmarkMask c0 3 0 (.v 2)) s q h).Team u t ∧
        ¬ (∀ n ∈ ({ heats := reads (.mmarkMask c0 3 0 (.v 2)) s q h .n32 (.v 2) 0, group := 0 } : Mark).names, n < t.heats) :=
  ⟨met id id (by decide) ⟨by decide, _, _, ⟨rfl, rfl⟩, by decide, by decide⟩, met id id (by decide) ⟨by decide, _, _, ⟨rfl, rfl⟩, by decide, by decide⟩,
   met id id (by decide) ⟨by decide, _, _, ⟨rfl, rfl⟩, by decide, by decide⟩,
   _, _, _, issues_of (s := seat (.mmarkMask c0 3 0 (.v 2)) (setV [(2, 2)])) (x := word (.mmarkMask c0 3 0 (.v 2)))
     (h := setV [(2, 2)] (seatHeat (.mmarkMask c0 3 0 (.v 2)))) (by decide), by decide, by decide, _, _, ⟨rfl, rfl⟩, by decide⟩

/-- Mark 3 names the placed heat alone. -/
def signer (s : State) : State := unitBy (fun u => { u with teams := u.teams.map (fun t => { t with marks := [(3, { heats := 1, group := 0 })] }) }) s

/-- Mark 3 names both heats of the pair. -/
def signers (s : State) : State :=
  unitBy (fun u => { u with teams := u.teams.map (fun t => { t with marks := [(3, { heats := 3, group := 0 })] }) }) (pair s)

theorem witness_SignedOperationsEnterTheirArray (H : Obligations.SignedOperationsEnterTheirArray) :
    MetA (H _ 3 _ _ ⟨c0, false, false, false, .bf16, 0, 0, 0, .v 0, .inr (.inl ⟨rfl, rfl, rfl⟩)⟩).1 ∧
    MetA (H _ 3 _ _ ⟨c0, false, false, false, .bf16, 0, 3, 16, .v 0, .inr (.inr (.inr (.inr (.inl ⟨rfl, rfl, rfl⟩))))⟩).1 ∧
    MetA (H _ 3 _ _ ⟨c0, false, false, false, .bf16, 0, 0, 0, .v 1, .inl ⟨rfl, rfl, rfl⟩⟩).2.1 ∧
    ∃ s q h, Issues (.mswap c0 3 false) s q h ∧ active (.mswap c0 3 false) q h ≠ [] ∧ (∀ l ∈ q.lanes, (h.lane l).task = none) ∧
      ∃ u t, (seen (.mswap c0 3 false) s q h).Team u t ∧ q.key.heat ∉ (Tbl.get {} t.marks 3).names :=
  ⟨met id signer (by decide) ⟨_, _, ⟨by decide, ⟨rfl, rfl⟩, by decide, by decide⟩, by decide, by decide, by decide, by decide⟩,
   met id signer (by decide) ⟨_, _, ⟨by decide, ⟨rfl, rfl⟩, by decide, by decide⟩, by decide, by decide, by decide, by decide⟩,
   met id signers (by decide) ⟨_, _, 1, ⟨by decide, ⟨rfl, rfl⟩, by decide, by decide⟩, by decide, by decide, by decide⟩,
   _, _, _, issues_of (s := seat (.mswap c0 3 false) id) (x := word (.mswap c0 3 false)) (h := seatHeat (.mswap c0 3 false)) (by decide),
   by decide, by decide, _, _, ⟨rfl, rfl⟩, by decide⟩

theorem witness_MatrixOperationsCompleteInOrder : (State.reset.array 0 false).q = [] ∧
    let o : MOp := { id := 0, ctx := 0, serial := 1, team := 0, unit := 0, fields := { op := 0xA2, arr := false, fmt := none, row := 0, cnt := 0, d := 0 }
                     off := 0, signers := [], operandHeat := 0 }
    let a := (State.updArray State.reset 0 false (fun x => { x with q := [o] })).array 0 false
    a.q = [o] ∧ a.finds o.fields = false := by decide

/-- Memory with tables: the pages at 0x10000, 0x40000 and 0x50000, and a colour table at 0x50000 whose entry 3 is free (R45). -/
def cells (low mid : List Host.Cell) : List Host.Cell :=
  [(0x1000, 0x01), (0x1001, 0x20), (0x2000, 0x01), (0x2001, 0x30), (0x3000, 0x01), (0x3001, 0x40), (0x4000, 0x01), (0x4001, 0x50)] ++ low ++
  [(0x5000, 0x3F), (0x5002, 0x01), (0x5020, 0x3F), (0x5022, 0x08), (0x5028, 0x3F), (0x502A, 0x09)] ++ mid ++ (upto 24).map (fun i => (0x901C0 + i, 0xFF))

def world (s : State) : State :=
  { withPage s with mem := cells [] [], tlb := (withPage s).tlb ++ [{ page with va := 0x50000, pa := 0x90000, pte := 0x5028 }]
                    ctxs := s.ctxs.map (fun e => (e.1, { e.2 with colourBase := 0x50000 })) }

def mon (h : Heat) : Heat := { setV [(2, 3)] h with colours := true }

/-- Lane 0 holds colour 3. -/
def holding (h : Heat) : Heat := (mon h).updLane 0 (fun y => { y with held := [{ colour := 3, depth := 1 }] })

/-- Colour 3 is owned by lane 1. -/
def taken (s : State) : State := (world s).setOwner 0 3 (threadId placedKey 1)

/-- Lane 0 holds colours 3 and 4. -/
def greater (h : Heat) : Heat := (mon h).updLane 0 (fun y => { y with held := [{ colour := 3, depth := 1 }, { colour := 4, depth := 1 }] })

/-- A completion word of the holder's heat is to be written. -/
def copying (h : Heat) : Heat := { holding h with cpyw := [{ before := 0, ctx := 0, accs := [] }] }

/-- A sleeper on colour 3. -/
def sleeper : Waiter := { key := placedKey, lane := 5, sleeper := true }

def sleeps (s : State) : State := (taken s).setMonQ 0 3 [sleeper, { sleeper with lane := 6 }]

def isOk (r : Except Trap Nat × State) (pa : Nat) (s : State) : Bool := match r with
  | (.ok p, t) => decide (p = pa) && decide (t = s)
  | (.error _, _) => false

theorem isOk_of {r : Except Trap Nat × State} {pa : Nat} {s : State} (h : isOk r pa s = true) : r = (.ok pa, s) := by
  obtain ⟨e, t⟩ := r
  cases e with
  | error => cases h
  | ok p =>
    simp only [isOk, Bool.and_eq_true, decide_eq_true_eq] at h
    rw [h.1, h.2]

def leads {ε α : Type} [DecidableEq α] (r : Except ε α) (pa : α) : Bool := match r with
  | .ok p => decide (p = pa)
  | .error _ => false

theorem leads_of {ε α : Type} [DecidableEq α] {r : Except ε α} {pa : α} (h : leads r pa = true) : r = .ok pa := by
  cases r with
  | error => cases h
  | ok p => rw [of_decide_eq_true h]

theorem witness_ClaimTakesOrWaits (H : Obligations.ClaimTakesOrWaits) :
    MetA (H c0 2 0 0 3 0x90180).1 ∧ MetA (H c0 2 0 0 3 0x90180).2.1 ∧ MetA (H c0 2 0 0 3 0x90180).2.2 :=
  ⟨met holding world (by decide +kernel) (fun l hl => leads_of (by revert l; decide +kernel)),
   met mon world (by decide +kernel) ⟨⟨by decide +kernel, leads_of (by decide +kernel), isOk_of (by decide +kernel)⟩, by decide +kernel, by decide +kernel⟩,
   met mon taken (by decide +kernel) ⟨⟨by decide +kernel, leads_of (by decide +kernel), isOk_of (by decide +kernel)⟩, by decide +kernel⟩⟩

theorem witness_MaintenanceWordsActOnTheirLine (H : Obligations.MaintenanceWordsActOnTheirLine) :
    MetA (H c0 true 2 0 ix 0 0x4000C 0x8000C).1 ∧ MetA (H c0 true 2 0 ix 0 0x4000C 0x8000C).2.1 ∧
    MetA (H c0 true 2 0 ix 0 0x4000C 0x8000C).2.2.1 ∧ MetA (H c0 true 2 0 ix 0 0x4000C 0x8000C).2.2.2.1 ∧
    MetA (H c0 true 1 0 ix 0 0x4000C 0x8000C).2.2.2.2 :=
  ⟨met id id (by decide +kernel) (by decide +kernel),
   met (regs 3) withPage (by decide +kernel) ⟨⟨by decide +kernel, by decide +kernel, by decide +kernel⟩, at_of (by decide +kernel)⟩,
   met (regs 3) withPage (by decide +kernel) ⟨⟨by decide +kernel, by decide +kernel, by decide +kernel⟩, at_of (by decide +kernel)⟩,
   met (regs 3) world (by decide +kernel) ⟨⟨by decide +kernel, by decide +kernel, by decide +kernel⟩, leads_of (by decide +kernel)⟩,
   met (regs 3) withPage (by decide +kernel) (by decide +kernel)⟩

theorem witness_MonitorWordsWorkOnHeldColours (H : Obligations.MonitorWordsWorkOnHeldColours) :
    MetA (H c0 (some 1) (.v 2) 5 0 0x90180).1 ∧ MetA (H c0 (some 1) (.v 2) 5 0 0x90180).2.1 ∧ MetA (H c0 (some 1) (.v 2) 5 0 0x90180).2.2.1 ∧
    MetA ((H c0 (some 1) (.v 2) 5 0 0x90180).2.2.2.1 _ false (.inl ⟨rfl, rfl⟩)).1 ∧
    MetA ((H c0 (some 1) (.v 2) 5 0 0x90180).2.2.2.1 _ true (.inr ⟨rfl, rfl⟩)).1 :=
  ⟨met holding taken (by decide +kernel) ⟨⟨by decide +kernel, by decide +kernel, by decide +kernel⟩, by decide +kernel, by decide +kernel, by decide +kernel, by decide +kernel⟩,
   met copying taken (by decide +kernel) ⟨⟨by decide +kernel, by decide +kernel, by decide +kernel⟩, by decide +kernel, by decide +kernel, by decide +kernel⟩,
   met holding taken (by decide +kernel) ⟨⟨by decide +kernel, by decide +kernel, by decide +kernel⟩, by decide +kernel⟩,
   met holding taken (by decide +kernel) ⟨⟨by decide +kernel, by decide +kernel, by decide +kernel⟩, by decide +kernel⟩,
   met holding taken (by decide +kernel) ⟨⟨by decide +kernel, by decide +kernel, by decide +kernel⟩, by decide +kernel⟩⟩

/-- MNOTE with one sleeper, MNOTEALL with two. -/
theorem witness_MonitorWordsWorkOnHeldColours_woken : ∀ i ∈ [.mnote c0 (.v 2), .mnoteall c0 (.v 2)],
    goes i (sleeps (seat i holding)) (word i) (holding (seatHeat i)) = true ∧ active i (word i) (holding (seatHeat i)) = [0] ∧
    reads i (sleeps (seat i holding)) (word i) (holding (seatHeat i)) .n32 (.v 2) 0 = 3 ∧ ((holding (seatHeat i)).lane 0).holds 3 = true ∧
    ((sleeps (seat i holding)).monQ 0 3).filter (·.sleeper) = [sleeper, { sleeper with lane := 6 }] ∧
    let wake (s : State) (v : Waiter) : State := s.setMonQ 0 3 (removeFirst (fun y => y = v) (s.monQ 0 3) ++ [{ v with sleeper := false }])
    let one := wake (sleeps (seat i holding)) sleeper
    let two := wake one { sleeper with lane := 6 }
    (one.entryPa 0 3).map one.ownerOf ≠ some noThread ∧ (two.entryPa 0 3).map two.ownerOf ≠ some noThread := by decide +kernel

theorem witness_MonitorWordsWorkOnHeldColours_state : (∀ i ∈ [.mwait c0 (some 1) (.v 2) 5, .mnote c0 (.v 2), .mnoteall c0 (.v 2), .mrepair c0 (.v 2)],
    goes i (seat i id) (word i) (seatHeat i) = true ∧ (seen i (seat i id) (word i) (seatHeat i)).act = [0] ∧
      (∀ l ∈ (word i).lanes, ((seatHeat i).lane l).task = none) ∧ reads i (seat i id) (word i) (seatHeat i) .n32 (.v 2) 0 < 4096 ∧
      ((seatHeat i).lane 0).holds (reads i (seat i id) (word i) (seatHeat i) .n32 (.v 2) 0) = false ∧
      goes i (seat i (setV [(2, 4096)])) (word i) (setV [(2, 4096)] (seatHeat i)) = true ∧
      reads i (seat i (setV [(2, 4096)])) (word i) (setV [(2, 4096)] (seatHeat i)) .n32 (.v 2) 0 = 4096) ∧
    let i : Instr := .mwait c0 (some 1) (.v 2) 5
    goes i (seat i greater) (word i) (greater (seatHeat i)) = true ∧ ((greater (seatHeat i)).lane 0).holds 3 = true ∧
      ∃ y ∈ ((greater (seatHeat i)).lane 0).held, 3 < y.colour := by decide +kernel

/-- A group at 0x40000 that is live. -/
def live (s : State) : State := { withPage s with groups := [{ ctx := 0, obj := 0x40000 }] }

theorem witness_TaskWordsReachTheirHandles (H : Obligations.TaskWordsReachTheirHandles) :
    MetA (H c0 6 (.v 2) 0x80000).1 ∧ MetA (H c0 6 (.v 2) 0x80000).2.1 ∧ MetA (H c0 6 (.v 2) 0x80000).2.2.1 ∧ MetA (H c0 6 (.v 2) 0x80000).2.2.2.1 ∧
    MetA (H c0 6 (.v 2) 0x80000).2.2.2.2 :=
  ⟨met (setV [(2, 0x40000)]) withPage (by decide +kernel) ⟨⟨by decide +kernel, by decide +kernel, canonical_of (by decide +kernel), mapped_of (by decide +kernel), by decide +kernel⟩, by decide +kernel⟩,
   met (setV [(2, 0x40000)]) withPage (by decide +kernel) ⟨⟨by decide +kernel, by decide +kernel, canonical_of (by decide +kernel), mapped_of (by decide +kernel), by decide +kernel⟩, by decide +kernel, by decide +kernel, by decide +kernel⟩,
   met (setV [(2, 0x40000)]) withPage (by decide +kernel) ⟨⟨by decide +kernel, by decide +kernel, canonical_of (by decide +kernel), mapped_of (by decide +kernel), by decide +kernel⟩, by decide +kernel, by decide +kernel, by decide +kernel⟩,
   met (setV [(2, 0x40000)]) withPage (by decide +kernel) ⟨⟨⟨by decide +kernel, by decide +kernel, canonical_of (by decide +kernel), mapped_of (by decide +kernel), by decide +kernel⟩, by decide +kernel⟩,
     fun ⟨g, hg, _⟩ => (List.not_mem_nil hg).elim⟩,
   met (setV [(2, 0x40000)]) live (by decide +kernel) ⟨⟨⟨by decide +kernel, by decide +kernel, canonical_of (by decide +kernel), mapped_of (by decide +kernel), by decide +kernel⟩, by decide +kernel⟩, _, List.mem_singleton.2 rfl, by decide +kernel, by decide +kernel⟩⟩

/-- Task 1 of card 40 runs in lane 0 of the placed heat; its tile's handle stands at 0x40000 with two laps published. -/
def run0 : Run :=
  { id := 50, card := 40, task := 1, ctx := 0, arec := 0x40200, tile := 0x40000, core := 0, serial := 1, team := 0, lane := some 0, base := 2 }
def card0 : Card :=
  { id := 40, ctx := 0, serial := 1, entry := 0, args := 0x60000, recSize := 16, count := 2, width := 0, teamHeats := 1, dies := [0], cls := 0, budget := 8
    completion := 0x40040, scratch := 0, entries := [(0, 0)], pair := none, tasks := [(1, { st := .running 50, die := 0, entry := 7, args := List.replicate 16 0 })], ready := [0] }
def tasked (h : Heat) : Heat := (setV [(5, 1)] h).updLane 0 (fun y => { y with task := some 50 })
def atTask (s : State) : State :=
  let s := world s
  { s with runs := [run0], cards := [card0], mem := cells [] [(0x80000, 0x11), (0x80001, 0x11), (0x80008, 0x22), (0x80009, 0x22), (0x80010, 2)] }

theorem witness_TaskWordsEndOrPublish (H : Obligations.TaskWordsEndOrPublish) :
    MetA (H c0 true (.v 5) 0 3 { run0 with tile := 0 }).1 ∧ MetA (H c0 true (.v 5) 0 3 run0).2.1 :=
  ⟨met tasked (fun s => { atTask s with runs := [{ run0 with tile := 0 }] }) (by decide +kernel)
     ⟨⟨by decide +kernel, by decide +kernel, by decide +kernel, by decide +kernel, by decide +kernel⟩, by decide +kernel⟩,
   met tasked atTask (by decide +kernel) ⟨⟨by decide +kernel, by decide +kernel, by decide +kernel, by decide +kernel, by decide +kernel⟩, by decide +kernel,
     by decide +kernel⟩⟩

theorem witness_TaskWordsEndOrPublish_aborts : ∀ i ∈ [.tabortRequeue c0, .tabortFail c0],
    goes i (atTask (seat i tasked)) (word i) (tasked (seatHeat i)) = true ∧ active i (word i) (tasked (seatHeat i)) = [0] ∧
    ((tasked (seatHeat i)).lane 0).task = some run0.id ∧ (atTask (seat i tasked)).run? run0.id = some run0 ∧
    (atTask (seat i tasked)).lanesOf run0 = [(placedKey, 0)] ∧ (∀ q ∈ (atTask (seat i tasked)).arb, q.run ≠ run0.id) ∧ run0.irrevocable = false ∧
    run0.rest = [] ∧ (atTask (seat i tasked)).card? run0.card = some card0 ∧ (atTask (seat i tasked)).fencedDies.contains (card0.task run0.task).die = false ∧
    card0.failed = false := by decide +kernel

theorem witness_TaskWordsEndOrPublish_outside : ∀ i ∈ [.tdone c0, .publap c0 true (.v 5), .tabortRequeue c0, .tabortFail c0],
    ∃ s x h, Issues i s x h := issuing _ (by decide)

/-- A card record at 0x40000: two tasks of 16 bytes at 0x40100, its object at 0x40040 (R47). -/
def withCard (s : State) : State :=
  let s := world s
  { s with mem := cells [] [(0x80000, 0x10), (0x80009, 0x01), (0x8000A, 0x04), (0x80010, 16), (0x80014, 2), (0x8001A, 1), (0x8001C, 8), (0x80020, 0x40),
                            (0x80022, 0x04)] }
def spawns (h : Heat) : Heat := { setV [(2, 0x40000)] h with usesTasks := true }

theorem witness_TspawnEntersItsCard (H : Obligations.TspawnEntersItsCard) : MetA (H c0 (.v 2) 0 0x80000 0x80040).1 ∧
    ∃ s x h, Issues (.tspawn c0 (.v 2)) s x h ∧ active (.tspawn c0 (.v 2)) x h ≠ [] ∧ ¬ (h.usesTasks = true ∨ h.isTask = true) ∧
      ∀ l ∈ x.lanes, (h.lane l).task = none :=
  ⟨met spawns withCard (by decide +kernel) ⟨by decide +kernel, by decide +kernel, ⟨by decide +kernel, by decide +kernel, by decide +kernel, by decide +kernel,
     by decide +kernel, canonical_of (by decide +kernel), mapped_of (by decide +kernel), by decide +kernel, by decide +kernel, mapped_of (by decide +kernel),
     by decide +kernel, by decide +kernel, by decide +kernel⟩, ⟨0, by decide +kernel, by decide +kernel⟩, fun j hj =>
       ⟨0x80100 + 16 * j, leads_of (by revert j; decide +kernel), by revert j; decide +kernel⟩⟩,
   _, _, _, issues_of (s := seat (.tspawn c0 (.v 2)) id) (x := word (.tspawn c0 (.v 2))) (h := seatHeat (.tspawn c0 (.v 2))) (by decide),
   by decide, by decide, by decide⟩

/-- A parked lane of another heat's record. -/
def parkedLane (r : Nat) (t : Trap) : Lane := { st := .parked, park := r, trap := some t, pc := 0x10008, blk := some (0x10000, placedHeader) }
def otherKey : HeatKey := { placedKey with serial := 2 }
def rec1 : FRec :=
  { id := 77, die := 0, ctx := 0, key := some otherKey, addr := 0, pc := 0x10008, lanes := 3, causeByte := 17, code := 0, laneCodes := [(0, 17)], core := 1
    flags := 0, serial := some 2, seq := 5 }
def other : Heat :=
  { key := otherKey, core := 1, part := 0, unit := 0, leg := 0, role := 2, budget := 320, cls := 0, heatn := 1, debug := true
    lanes := [parkedLane 77 { cause := .trap, val := 9 }, parkedLane 78 { cause := .brk }]
    undo := [{ lanes := [], k := [(3, 4)], kpend := [], fcnt := [], nflags := 6, reversible := true }] }
def posted (s : State) : State :=
  let s := world s
  { s with heats := s.heats ++ [other], records := [rec1], kernels := s.kernels ++ s.kernels.map (fun k => { k with serial := 2 }) }
/-- k0 is the record's handle, k1 = 0x40000, k2 = 0x50000, k3 = 200. -/
def serves (h : Heat) : Heat := { h with k := [(0, 5 * 2 ^ 32), (1, 0x40000), (2, 0x50000), (3, 200)] }

/-- The word's premise of issue, with the record named. -/
def namesRec (i : Instr) : Bool :=
  goes i (posted (seat i serves)) (word i) (serves (seatHeat i)) && decide (active i (word i) (serves (seatHeat i)) = [0]) &&
  decide ((posted (seat i serves)).byHandle (reads i (posted (seat i serves)) (word i) (serves (seatHeat i)) .n64 (.k 0) 0) = some rec1) &&
  decide ((posted (seat i serves)).heat? otherKey = some other) && decide ((posted (seat i serves)).pagedBy rec1.id = none) &&
  decide (rec1.dealer = none ∧ rec1.isCard = false ∧ otherKey ≠ (word i).key) && (posted (seat i serves)).canRelease (serves (seatHeat i))

theorem witness_RecordsResumeKillAndReturn : ([.resume c0 false (.k 0) none, .killLanes c0 (.k 0) (some (.k 3)), .killHeat c0 (.k 0), .killKernel c0 (.k 0),
    .eret c0 (.k 0)].all namesRec) = true := by decide +kernel

theorem witness_RecordsResumeKillAndReturn_none (H : Obligations.RecordsResumeKillAndReturn) (q : Heat) :
    MetA (H c0 true (.k 9) none 0 rec1 otherKey q _ (.inl rfl)).1 :=
  met id id (by decide +kernel) (by decide +kernel)

theorem witness_TrapFramesAreTakenReadAndWritten (H : Obligations.TrapFramesAreTakenReadAndWritten) :
    MetA (H c0 2 5 384 0x80000 (.k 1) (.k 9) (.k 3) 0 rec1).1 ∧ MetA (H c0 2 5 384 0x80000 (.k 1) (.k 9) (.k 3) 0 rec1).2.1 ∧
    MetA (H c0 2 5 384 0x80000 (.k 0) (.k 9) (.k 3) 0 rec1).2.2.1 ∧ namesRec (.tframeWr c0 (.k 0) (.k 9) 2 (.k 3)) = true ∧
    ∃ f g, (posted (seat (.tframeWr c0 (.k 0) (.k 9) 2 (.k 3)) serves)).frame rec1 0 2 = some f ∧ f.setItem 0 2 200 = some g :=
  ⟨met serves world (by decide +kernel) ⟨⟨by decide +kernel, by decide +kernel, canonical_of (by decide +kernel), mapped_of (by decide +kernel),
     by decide +kernel, by decide +kernel⟩, by decide +kernel⟩,
   met serves posted (by decide +kernel) ⟨⟨by decide +kernel, by decide +kernel, canonical_of (by decide +kernel), mapped_of (by decide +kernel),
     by decide +kernel, by decide +kernel⟩, by decide +kernel, by decide +kernel⟩,
   met serves posted (by decide +kernel) ⟨⟨otherKey, by decide +kernel, by decide +kernel, by decide +kernel, by decide +kernel, by decide +kernel⟩,
     by decide +kernel⟩,
   by decide +kernel, other, (other.setItem 0 2 200).get (by decide +kernel), by decide +kernel, (Option.some_get _).symm⟩

/-- Page 0x200000 in the tables, of 2 MiB. -/
def wide (s : State) : State := let s := world s; { s with mem := cells [(0x4008, 0x3F), (0x400A, 0x20)] [] }
/-- k1 in the wide page, k2 = 0x60000 the place of its table. -/
def splits (h : Heat) : Heat := { h with k := [(1, 0x210000), (2, 0x60000)] }

def walks (s : State) (va size : Nat) : Bool := match s.walk 0 0 va with
  | .ok f => decide (f.size = size)
  | .error _ => false

theorem walks_of {s : State} {va size : Nat} (h : walks s va size = true) : ∃ f, s.walk 0 0 va = .ok f ∧ f.size = size := by
  unfold walks at h
  cases hw : s.walk 0 0 va with
  | ok f => rw [hw] at h; exact ⟨f, rfl, of_decide_eq_true h⟩
  | error c => rw [hw] at h; cases h

theorem witness_TranslationWordsDiscardTheirRange (H : Obligations.TranslationWordsDiscardTheirRange) :
    MetA (H c0 1 (.k 1) (.k 2)).1 ∧ MetA (H c0 1 (.k 1) (.k 9)).2.1 ∧ MetA (H c0 1 (.k 1) (.k 2)).2.2.1 ∧
    (∃ f, MetA ((H c0 1 (.k 1) (.k 2)).2.2.2.1 f)) ∧ (∃ f, MetA ((H c0 1 (.k 1) (.k 2)).2.2.2.2.1 f)) ∧
    ∃ s x h, Issues (.tlbinvCtx c0) s x h ∧ active (.tlbinvCtx c0) x h ≠ [] ∧ s.fenceDone h .rel false .package (h.fence.getD s.nid) = false :=
  ⟨met serves world (by decide +kernel) ⟨⟨by decide +kernel, by decide +kernel⟩, by decide +kernel⟩,
   met serves world (by decide +kernel) ⟨⟨by decide +kernel, by decide +kernel⟩, by decide +kernel⟩,
   met serves world (by decide +kernel) ⟨by decide +kernel, by decide +kernel⟩,
   (walks_of (s := world (seat (.splinter c0 1 (.k 1) (.k 2)) serves)) (va := 0x40000) (size := 65536) (by decide +kernel)).imp fun f hf =>
     met serves world (by decide +kernel) ⟨⟨by decide +kernel, by decide +kernel⟩, hf.1, hf.2⟩,
   (walks_of (s := wide (seat (.splinter c0 1 (.k 1) (.k 2)) splits)) (va := 0x210000) (size := 2 ^ 21) (by decide +kernel)).imp fun f hf =>
     met splits wide (by decide +kernel) ⟨⟨by decide +kernel, by decide +kernel⟩, hf.1, by rw [hf.2]; decide, by dsimp only; rw [hf.2]; decide +kernel, by decide +kernel⟩,
   _, _, _, issues_of (s := { seat (.tlbinvCtx c0) id with reqs := [req0], nid := 1 }) (x := word (.tlbinvCtx c0))
     (h := seatHeat (.tlbinvCtx c0)) (by decide +kernel), by decide +kernel, by decide +kernel⟩

/-- The heat's lane has just been resumed from its BREAK. -/
def resumedHeat (h : Heat) : Heat := h.updLane 0 (fun y => { y with noBreak := true })

theorem witness_DebugAndTestWords (H : Obligations.DebugAndTestWords) :
    MetA (H c0 3 1 2 0x80000 .rw (.k 1) (.k 3)).1 ∧
    (∃ s x h, Issues (.brkpt c0) s x h ∧ active (.brkpt c0) x h ≠ [] ∧ (∀ l ∈ active (.brkpt c0) x h, (h.lane l).noBreak = false) ∧ h.debug = false ∧
      ∀ l ∈ x.lanes, (h.lane l).task = none) ∧
    MetA (H c0 3 1 2 0x80000 .rw (.k 1) (.k 3)).2.2.1 ∧ MetA (H c0 3 1 2 0x80000 .rw (.k 1) (.k 3)).2.2.2.1 ∧
    MetA (H c0 3 1 2 0x80000 .rw (.k 1) (.k 3)).2.2.2.2.1 ∧
    (∃ s x h, Issues (.haltallGo c0) s x h ∧ active (.haltallGo c0) x h ≠ [] ∧ s.canRelease h = true ∧ (s.heats.map (·.key)).Nodup) ∧
    MetA (H c0 3 1 2 0x80000 .rw (.k 1) (.k 3)).2.2.2.2.2.2.2 :=
  ⟨met resumedHeat id (by decide +kernel) (by decide +kernel),
   ⟨_, _, _, issues_of (s := seat (.brkpt c0) id) (x := word (.brkpt c0)) (h := seatHeat (.brkpt c0)) (by decide +kernel),
    by decide +kernel, by decide +kernel, by decide +kernel, by decide +kernel⟩,
   met serves world (by decide +kernel) ⟨by decide +kernel, canonical_of (by decide +kernel), by decide +kernel, by decide +kernel⟩,
   met serves world (by decide +kernel) (by decide +kernel), met serves world (by decide +kernel) (by decide +kernel),
   ⟨_, _, _, issues_of (s := posted (seat (.haltallGo c0) serves)) (x := word (.haltallGo c0)) (h := serves (seatHeat (.haltallGo c0))) (by decide +kernel),
    by decide +kernel, by decide +kernel, by decide +kernel⟩,
   met serves world (by decide +kernel) ⟨by decide +kernel, by decide +kernel, canonical_of (by decide +kernel), mapped_of (by decide +kernel)⟩⟩

theorem witness_DebugAndTestWords_undo : namesRec (.undo c0 (some 3) (.k 0)) = true ∧
    (posted (seat (.undo c0 (some 3) (.k 0)) serves)).undoHeat rec1 = some other ∧
    ∀ o ∈ (posted (seat (.undo c0 (some 3) (.k 0)) serves)).ops, o.key = otherKey → o.flag = none := by decide +kernel

/-! Events. -/

def acc0 (op : AccOp) : Acc := { lane := 0, va := 0x4000C, pa := 0x8000C, op := op, opId := 3, nopre := false }
def reqOf (op : AccOp) : Req := { id := 7, key := placedKey, ctx := 0, core := 0, line := 1024, accs := [acc0 op], write := op.writes, born := 0 }
/-- The placed state with one request. -/
def asks (r : Req) : State := { State.reset.place 0 with reqs := [r], nid := 8 }
def copyOp : Op := { id := 3, key := placedKey, pc := 0x10008, left := [], blk := none, isCopy := true }
def cpywOf : PendCpyw := { before := 5, ctx := 0, accs := [acc0 (.cpyw 7 2 .die)] }
def cpywHeat : Heat := { seatHeat (.nop c0) with cpyw := [cpywOf] }

theorem witness_RequestsAreAnswered (H : Obligations.RequestsAreAnswered) :
    Met ((H 7 none .ack (reqOf (.load false 2 6)) (acc0 (.load false 2 6)) copyOp placedKey).1 _ _ _ rfl) ∧
    Met ((H 7 none .ack (reqOf (.store [1])) (acc0 (.store [1])) copyOp placedKey).2.1 _ rfl) ∧
    Met ((H 7 none .ack { reqOf (.copyIn 2 16) with copy := true } (acc0 (.copyIn 2 16)) copyOp placedKey).2.2.1 _ _ (seatHeat (.nop c0)) rfl) ∧
    Met (H 7 none .ack (reqOf (.store [1])) (acc0 (.store [1])) copyOp placedKey).2.2.2.1 ∧
    Met (H 7 none .ack { reqOf (.store [1]) with remote := some (1, 0) } (acc0 (.store [1])) copyOp placedKey).2.2.2.2.1 ∧
    Met (H 7 none .ack (reqOf (.store [1])) (acc0 (.store [1])) copyOp placedKey).2.2.2.2.2.1 ∧
    Met (H 3 none .ack (reqOf (.store [1])) (acc0 (.store [1])) copyOp placedKey).2.2.2.2.2.2.1 ∧
    Met (H 3 none .ack (reqOf (.store [1])) (acc0 (.store [1])) { copyOp with left := [0] } placedKey).2.2.2.2.2.2.2.1 ∧
    Met ((H 3 none .ack (reqOf (.store [1])) (acc0 (.cpyw 7 2 .die)) copyOp placedKey).2.2.2.2.2.2.2.2 cpywHeat cpywOf [] 7 2 .die rfl rfl rfl (by decide)).1 ∧
    Met ((H 3 none .ack (reqOf (.store [1])) (acc0 (.cpyw 7 2 .die)) copyOp placedKey).2.2.2.2.2.2.2.2 cpywHeat cpywOf [] 7 2 .die rfl rfl rfl (by decide)).2 :=
  ⟨⟨asks (reqOf (.load false 2 6)), by decide +kernel⟩, ⟨asks (reqOf (.store [1])), by decide +kernel⟩,
   ⟨{ asks { reqOf (.copyIn 2 16) with copy := true } with heats := [seatHeat (.nop c0)] }, by decide +kernel⟩,
   ⟨State.reset, by decide +kernel⟩, ⟨{ asks { reqOf (.store [1]) with remote := some (1, 0) } with now := 2 ^ 20 }, by decide +kernel⟩,
   ⟨asks (reqOf (.store [1])), by decide +kernel⟩, ⟨{ State.reset with ops := [copyOp] }, by decide +kernel⟩,
   ⟨{ State.reset with ops := [{ copyOp with left := [0] }] }, by decide +kernel⟩,
   ⟨{ State.reset with heats := [cpywHeat], ops := [{ copyOp with id := 9 }] }, by decide +kernel⟩,
   ⟨{ State.reset with heats := [cpywHeat], ops := [copyOp] }, by decide +kernel⟩⟩

/-- The placed heat, its lane 0 blocked. -/
def waiter (q : Wait) : Heat := (seatHeat (.nop c0)).updLane 0 (blocked q)
/-- The placed state at a clock, with that heat. -/
def waits (q : Wait) (now : Nat) : State := { State.reset.place 0 with heats := [waiter q], now := now }
def hand0 : HandOff := { ring := 0, slot := 0, stage := .fill, phase := false, heat := 0, team := 0, before := 0 }
def ringUnit : RUnit := { id := 0, key := { ctx := 0, serial := 1, relay := 0 }, core := 0, cls := 0, size := 65536, handoffs := [hand0], scr := [(8, 2), (9, 3), (24, 2)] }
def waiter0 : Waiter := { key := placedKey, lane := 0, sleeper := true }
def rel0 : PendRel := { origin := 0, ctx := 0, scope := .die, obj := some 0x90180, val := .set 7, cap := some ({}, 9) }
def busyHeat : Heat := { seatHeat (.nop c0) with busy := some (.tlbinv 0x40000 0x50000 9) }

theorem witness_WaitsEndWhenTheirEventsCome (H : Obligations.WaitsEndWhenTheirEventsCome) :
    let A (h : Heat) (y : Nat) (u : RUnit) := H placedKey 0 h 8 y 0 100 0x90180 3 5 1 0 0 7 0x40000 0x50000 9 (some 1) .eq false false true false false u hand0 waiter0 rel0 {}
    Met (A (waiter (.waita true 8 .eq false false 0 (some 1) 100 none)) 0 ringUnit).1 ∧
    Met (A (waiter (.waita true 8 .eq false false 5 (some 1) 100 none)) 5 ringUnit).2.1 ∧
    Met (A (waiter (.waita true 8 .eq false false 0 (some 1) 100 none)) 0 ringUnit).2.2.1 ∧
    Met (A (waiter (.waita true 8 .eq false false 5 (some 1) 100 none)) 5 ringUnit).2.2.2.1 ∧
    Met (A (waiter (.waita true 8 .eq false false 0 (some 1) 100 none)) 0 ringUnit).2.2.2.2.1 ∧
    Met (A (waiter (.waita true 8 .eq false false 0 (some 1) 100 none)) 0 ringUnit).2.2.2.2.2.1 ∧
    Met (A (waiter (.waita true 8 .eq false false 0 (some 1) 100 none)) 0 { ringUnit with handoffs := [] }).2.2.2.2.2.2.1 ∧
    Met (A (waiter (.mwait 3 1 (some 1) 100 5 true true false)) 0 ringUnit).2.2.2.2.2.2.2.1 ∧
    Met (A (waiter (.mwait 3 1 (some 1) 100 5 true true false)) 0 ringUnit).2.2.2.2.2.2.2.2.1 ∧
    Met (A (waiter (.claim [3])) 0 ringUnit).2.2.2.2.2.2.2.2.2.1 ∧
    Met (A (waiter (.waita true 8 .eq false false 0 (some 1) 100 none)) 0 ringUnit).2.2.2.2.2.2.2.2.2.2.1 ∧
    Met (A (waiter (.waita true 8 .eq false false 0 (some 1) 100 none)) 0 ringUnit).2.2.2.2.2.2.2.2.2.2.2.1 ∧
    Met (A (waiter (.waita true 8 .eq false false 0 (some 1) 100 none)) 0 ringUnit).2.2.2.2.2.2.2.2.2.2.2.2.1 ∧
    Met (A busyHeat 0 ringUnit).2.2.2.2.2.2.2.2.2.2.2.2.2.1 ∧
    Met (A busyHeat 0 ringUnit).2.2.2.2.2.2.2.2.2.2.2.2.2.2.1 ∧
    Met (A (waiter (.waita true 8 .eq false false 0 (some 1) 100 none)) 0 ringUnit).2.2.2.2.2.2.2.2.2.2.2.2.2.2.2.1 ∧
    Met (A (waiter (.waita true 8 .eq false false 0 (some 1) 100 none)) 0 ringUnit).2.2.2.2.2.2.2.2.2.2.2.2.2.2.2.2 := by
  intro A
  exact ⟨⟨waits (.waita true 8 .eq false false 0 (some 1) 100 none) 0, by unfold Holds; decide +kernel⟩,
   ⟨waits (.waita true 8 .eq false false 5 (some 1) 100 none) 0, by unfold Holds; decide +kernel⟩,
   ⟨waits (.waita true 8 .eq false false 0 (some 1) 100 none) 100, by unfold Holds; decide +kernel⟩,
   ⟨waits (.waita true 8 .eq false false 5 (some 1) 100 none) 100, by unfold Holds; decide +kernel⟩,
   ⟨waits (.waita true 8 .eq false false 0 (some 1) 100 none) 99, by unfold Holds; decide +kernel⟩,
   ⟨{ State.reset with units := [ringUnit] }, by decide +kernel⟩,
   ⟨{ State.reset with units := [{ ringUnit with handoffs := [] }] }, by decide +kernel⟩,
   ⟨(waits (.mwait 3 1 (some 1) 100 5 true true false) 101).setMonQ 0 3 [waiter0], by unfold Holds; decide +kernel⟩,
   ⟨waits (.mwait 3 1 (some 1) 100 5 true true false) 100, by unfold Holds; decide +kernel⟩,
   ⟨(world (waits (.claim [3]) 0)).setOwner 0 3 (threadId placedKey 0), by unfold Holds; decide +kernel⟩,
   ⟨State.reset, by decide +kernel⟩,
   ⟨{ State.reset with rels := [rel0] }, by decide +kernel⟩,
   ⟨{ State.reset with rels := [rel0], reqs := [req0] }, by decide +kernel⟩,
   ⟨{ State.reset with heats := [busyHeat] }, by decide +kernel⟩,
   ⟨{ State.reset with heats := [busyHeat], reqs := [reqOf (.store [1])] }, by decide +kernel⟩,
   ⟨(State.reset.place 0).beginHalt 0, by decide +kernel⟩,
   ⟨State.reset, by decide +kernel⟩⟩

theorem arrives_of {kind : Nat} {m : Sys2Proof.Msg} {s : State} (h : (s.carries m.port m.half && decide (m.magic = 0x5458) && decide (m.version = 1) &&
    decide (m.length ≤ 224 ∧ m.length ≤ m.body.length) && s.secured m && kindAllowed kind m.endpoint && decide (badField kind m = none)) = true) :
    Arrives kind m s := by
  simp only [Bool.and_eq_true, decide_eq_true_eq] at h
  obtain ⟨⟨⟨⟨⟨⟨h1, h2⟩, h3⟩, h4⟩, h5⟩, h6⟩, h7⟩ := h
  exact ⟨h1, h2, h3, h4, h5, h6, h7⟩

theorem open_of {m : Sys2Proof.Msg} {s : State} (h : ((s.ctx (m.endpoint - 1)).opened && !(s.ctx (m.endpoint - 1)).closing) = true) : Open m s := by
  simpa [Open] using h

def both {ε α : Type} [DecidableEq α] (r : Except ε α × State) (x : α) (s : State) : Bool := match r with
  | (.ok p, t) => decide (p = x) && decide (t = s)
  | (.error _, _) => false

theorem both_of {ε α : Type} [DecidableEq α] {r : Except ε α × State} {x : α} {s : State} (h : both r x s = true) : r = (.ok x, s) := by
  obtain ⟨e, t⟩ := r
  cases e with
  | error => cases h
  | ok p =>
    simp only [both, Bool.and_eq_true, decide_eq_true_eq] at h
    rw [h.1, h.2]

def fails {ε α : Type} [DecidableEq ε] (r : Except ε α × State) (x : ε) (s : State) : Bool := match r with
  | (.error p, t) => decide (p = x) && decide (t = s)
  | (.ok _, _) => false

theorem fails_of {ε α : Type} [DecidableEq ε] {r : Except ε α × State} {x : ε} {s : State} (h : fails r x s = true) : r = (.error x, s) := by
  obtain ⟨e, t⟩ := r
  cases e with
  | ok => cases h
  | error p =>
    simp only [fails, Bool.and_eq_true, decide_eq_true_eq] at h
    rw [h.1, h.2]

/-- A launch record at 0x40000 (R27): one leg of one heat, one relay; its image at 0x40200, its object at 0x40140. -/
def launchBytes : List Byte :=
  toBytes 8 0x40200 ++ toBytes 8 0x40140 ++ List.replicate 14 0 ++ [2, 1] ++ [32, 0, 0, 0, 0, 0, 0, 0] ++ [1, 0, 0, 0, 2, 1, 0, 0] ++ List.replicate 48 0 ++
  toBytes 8 0x10000 ++ toBytes 2 320 ++ toBytes 2 1 ++ [2] ++ List.replicate 147 0
def headerBytes : List Byte := [0x54, 0x53, 1, 1, 0, 0, 0, 0]
def message (ep : Nat) (body : List Byte) : Sys2Proof.Msg :=
  { port := 0, sender := 9, travel := .plain, magic := 0x5458, version := 1, endpoint := ep, rsv5 := 0, queue := 0, tag := 5, length := body.length, rsv18 := 0
    body := body }
/-- Port 0 carries traffic. -/
def up (s : State) : State := s.updPort 0 (fun p => { p with trained := true })
/-- The record in memory, and no kernel under way. -/
def launches (s : State) : State :=
  { up (world s) with kernels := [], heats := [], units := []
                      mem := cells [] (((upto 256).zip launchBytes).filterMap (fun e => if e.2 = 0 then none else some (0x80000 + e.1, e.2)) ++
                        [(0x80200, 0x54), (0x80201, 0x53), (0x80202, 1), (0x80203, 1)]) }
def queuedKernel : Kernel :=
  { ctx := 0, serial := 1, queue := 0, lrec := parseLaunch launchBytes, cls := 0, port := 0, endpoint := 1, sender := 9, tag := 5, travel := .plain }
def runningKernel : Kernel := { queuedKernel with st := .running, placed := 1 }

def freshUnit : RUnit := { id := 0, key := { ctx := 0, serial := 1, relay := 0 }, core := 0, cls := 0, size := 65536, teams := [{ team := 0, leg := 0, heats := 1 }] }
/-- Context 0 open, with no kernel. -/
def idle : State := { State.reset.place 0 with kernels := [], heats := [], units := [] }
def exitedHeat : Heat := { seatHeat (.nop c0) with lanes := List.replicate 32 { st := .exited } }
def starvedHeat : Heat := { seatHeat (.nop c0) with active := false }

/-- Two heats that are ready, of two classes. -/
def rivals : State := { State.reset.place 0 with heats := [{ starvedHeat with cls := 1 }, { starvedHeat with key := { placedKey with heat := 1 } }] }

theorem witness_KernelsRunFromLaunchToCompletion (H : Obligations.KernelsRunFromLaunchToCompletion) :
    let A (k : Kernel) (u : RUnit) (h : Heat) := H (message 1 (toBytes 8 0x40000 ++ toBytes 8 0)) 0 2 0x80140 0 1 0 launchBytes headerBytes k u placedKey h
    MetL (A queuedKernel freshUnit (seatHeat (.nop c0))).1 ∧
    Met (A queuedKernel freshUnit (seatHeat (.nop c0))).2.1 ∧
    Met (A queuedKernel freshUnit (seatHeat (.nop c0))).2.2.1 ∧
    Met (A queuedKernel freshUnit (seatHeat (.nop c0))).2.2.2.1 ∧
    Met (A queuedKernel freshUnit (seatHeat (.nop c0))).2.2.2.2.1 ∧
    Met (A queuedKernel freshUnit (seatHeat (.nop c0))).2.2.2.2.2.1 ∧
    Met (A queuedKernel freshUnit (seatHeat (.nop c0))).2.2.2.2.2.2.1 ∧
    Met (A queuedKernel freshUnit (seatHeat (.nop c0))).2.2.2.2.2.2.2.1 ∧
    Met (A runningKernel freshUnit (seatHeat (.nop c0))).2.2.2.2.2.2.2.2.1 ∧
    Met (A queuedKernel { freshUnit with started := true } (seatHeat (.nop c0))).2.2.2.2.2.2.2.2.2.1 ∧
    Met (A queuedKernel freshUnit (seatHeat (.nop c0))).2.2.2.2.2.2.2.2.2.2.1 ∧
    Met (A queuedKernel freshUnit starvedHeat).2.2.2.2.2.2.2.2.2.2.2.1 ∧
    Met (A queuedKernel freshUnit { starvedHeat with cls := 1 }).2.2.2.2.2.2.2.2.2.2.2.2.1 ∧
    Met (A queuedKernel freshUnit (seatHeat (.nop c0))).2.2.2.2.2.2.2.2.2.2.2.2.2.2.1 ∧
    Met (A queuedKernel freshUnit exitedHeat).2.2.2.2.2.2.2.2.2.2.2.2.2.2.2.1 ∧
    Met (A queuedKernel freshUnit (seatHeat (.nop c0))).2.2.2.2.2.2.2.2.2.2.2.2.2.2.2.2.1 ∧
    Met (A runningKernel freshUnit (seatHeat (.nop c0))).2.2.2.2.2.2.2.2.2.2.2.2.2.2.2.2.2.1 ∧
    Met (A { runningKernel with killed := true } freshUnit (seatHeat (.nop c0))).2.2.2.2.2.2.2.2.2.2.2.2.2.2.2.2.2.2.1 ∧
    Met (A runningKernel freshUnit (seatHeat (.nop c0))).2.2.2.2.2.2.2.2.2.2.2.2.2.2.2.2.2.2.2 := by
  intro A
  exact ⟨⟨launches (State.reset.place 0), ⟨⟨⟨arrives_of (by decide +kernel), open_of (by decide +kernel)⟩, both_of (by decide +kernel), by decide +kernel, by decide +kernel, both_of (by decide +kernel), by decide +kernel, both_of (by decide +kernel), by decide +kernel, by decide +kernel⟩, by decide +kernel, by decide +kernel⟩⟩,
   ⟨up State.reset, ⟨arrives_of (by decide +kernel), by decide +kernel⟩⟩,
   ⟨{ launches (State.reset.place 0) with tlb := [], mem := [] }, ⟨⟨arrives_of (by decide +kernel), open_of (by decide +kernel)⟩, fails_of (by decide +kernel)⟩⟩,
   ⟨{ launches (State.reset.place 0) with kernels := List.replicate 32 queuedKernel }, ⟨⟨⟨arrives_of (by decide +kernel), open_of (by decide +kernel)⟩, both_of (by decide +kernel), by decide +kernel, by decide +kernel, both_of (by decide +kernel), by decide +kernel, both_of (by decide +kernel), by decide +kernel, by decide +kernel⟩, by decide +kernel⟩⟩,
   ⟨{ idle with kernels := [queuedKernel] }, by decide +kernel⟩,
   ⟨{ idle with kernels := [queuedKernel], fencedDies := [1, 2, 3], units := (upto 64).map (fun c => { freshUnit with id := c, core := c, cls := 1, evicted := true }) }, by decide +kernel⟩,
   ⟨{ idle with kernels := [queuedKernel], fencedDies := [0, 1, 2, 3] }, by decide +kernel⟩,
   ⟨idle, by decide +kernel⟩,
   ⟨{ idle with kernels := [runningKernel], units := [freshUnit] }, by decide +kernel⟩,
   ⟨{ idle with units := [{ freshUnit with started := true }] }, by decide +kernel⟩,
   ⟨State.reset, trivial⟩,
   ⟨{ State.reset.place 0 with heats := [starvedHeat] }, by decide +kernel⟩,
   ⟨rivals, by decide +kernel⟩,
   ⟨State.reset, by decide +kernel⟩,
   ⟨{ State.reset.place 0 with heats := [exitedHeat] }, ⟨by decide +kernel, by decide +kernel, by decide +kernel, by decide +kernel, by decide +kernel, _, rfl, fun t ht => by cases ht; rfl⟩⟩,
   ⟨{ State.reset.place 0 with heats := [seatHeat (.nop c0)] }, by decide +kernel⟩,
   ⟨{ world idle with kernels := [runningKernel] }, ⟨⟨by decide +kernel, by decide +kernel⟩, by decide +kernel, by decide +kernel, by decide +kernel, by decide +kernel, leads_of (by decide +kernel), by decide +kernel⟩⟩,
   ⟨{ idle with kernels := [{ runningKernel with killed := true }] }, by decide +kernel⟩,
   ⟨{ idle with kernels := [runningKernel], units := [freshUnit] }, by decide +kernel⟩⟩

theorem witness_KernelsRunFromLaunchToCompletion_next : ∃ x y, rivals.nextPending 0 0 = some x ∧ y ∈ rivals.heats ∧ y.on 0 0 = true ∧
    rivals.readyPending y = true ∧ x.cls < y.cls ∧ ∀ z ∈ rivals.heats, z.readyAt.getD rivals.now < 2 ^ 80 ∧ z.since < 2 ^ 80 :=
  ⟨{ starvedHeat with key := { placedKey with heat := 1 } }, { starvedHeat with cls := 1 }, by decide +kernel, by decide +kernel, by decide +kernel,
   by decide +kernel, by decide +kernel, by decide +kernel⟩

def breaks {ε α : Type} [DecidableEq ε] (r : Except ε α) (c : ε) : Bool := match r with
  | .error e => decide (e = c)
  | .ok _ => false

theorem breaks_of {ε α : Type} [DecidableEq ε] {r : Except ε α} {c : ε} (h : breaks r c = true) : r = .error c := by
  cases r with
  | ok => cases h
  | error e => rw [of_decide_eq_true h]

def unitIn (q : Susp) : RUnit := { freshUnit with started := true, susp := q }
/-- The placed heat's unit as it stands, its lanes exited, at a clock. -/
def resting (u : RUnit) (now trail : Nat) : State :=
  let s := world (State.reset.place 0)
  { s with units := [u], heats := [exitedHeat], now := now, ctxs := s.ctxs.map (fun e => (e.1, { e.2 with trail := trail })) }
def savedUnit : RUnit := { freshUnit with started := true, saved := true }

theorem witness_UnitsAreSavedAndRestored (H : Obligations.UnitsAreSavedAndRestored) :
    MetL (H (unitIn (.window 0)) 0 0 0 0x80000 .page [0]).1 ∧
    Met (H (unitIn (.window 0)) 0 0 0 0x80000 .page [0]).2.1 ∧
    Met (H (unitIn (.window 0)) 0 0 0 0x80000 .page [0]).2.2.1 ∧
    Met (H (unitIn (.window 0)) 0 0 0 0x80000 .page [0]).2.2.2.1 ∧
    Met (H (unitIn (.window 0)) 0 0 0 0x80000 .page [0]).2.2.2.2.1 ∧
    Met (H (unitIn (.drain 0)) 0 0 0 0x80000 .page [0]).2.2.2.2.2.1 ∧
    Met (H (unitIn (.drain 0)) 0 0 0 0x80000 .page [0]).2.2.2.2.2.2.1 ∧
    Met (H savedUnit 0 0 0 0x80000 .page [0]).2.2.2.2.2.2.2.1 ∧
    Met (H (unitIn (.window 0)) 0 0 0 0x80000 .page [0]).2.2.2.2.2.2.2.2 :=
  ⟨⟨resting (unitIn (.window 0)) 0 0xE000, ⟨⟨⟨by decide +kernel, by decide +kernel, by decide +kernel⟩, by decide +kernel, by decide +kernel⟩, leads_of (by decide +kernel), by decide +kernel⟩⟩,
   ⟨resting (unitIn (.window 0)) 0 0, ⟨⟨⟨by decide +kernel, by decide +kernel, by decide +kernel⟩, by decide +kernel, by decide +kernel⟩, breaks_of (by decide +kernel)⟩⟩,
   ⟨resting (unitIn (.window 0)) 16384 0, by decide +kernel⟩,
   ⟨resting (unitIn (.window 0)) 16384 0, by decide +kernel⟩,
   ⟨resting (unitIn (.window 0)) 16383 0, by decide +kernel⟩,
   ⟨resting (unitIn (.drain 0)) 131072 0, by decide +kernel⟩,
   ⟨resting (unitIn (.drain 0)) 131071 0, by decide +kernel⟩,
   ⟨{ State.reset with units := [savedUnit], heats := [{ exitedHeat with saved := true }] }, by decide +kernel⟩,
   ⟨State.reset, by decide +kernel⟩⟩

/-- The context command endpoint's state, with port 0 up. -/
def served : State := up (State.reset.place 0)
/-- A management message, secured, from the address set. -/
def managed (body : List Byte) : Sys2Proof.Msg := { message 0 body with travel := .management }
def secured : State := { served with sb := { served.sb with assoc := some { peer := 9, spi := 1, keyLen := 16, key := [] }, mgmt0 := 9 } }
def quiet : State := { secured with kernels := [], units := [], heats := [] }
def post1 : FRec := { rec1 with key := none, die := 0, id := 3, flags := 0 }
def closing (s : State) : State := s.updCtx 0 (fun x => { x with closing := true, closer := 9, closeTag := 1, closePort := 0 })

theorem witness_HostMessagesAreAnswered (H : Obligations.HostMessagesAreAnswered) :
    let A (m : Sys2Proof.Msg) (kind : Nat) := H m kind 0 0 0x40000 100 0 1 post1 placedKey (waiter (.tframe 1 0x40000 100))
    Met (A (message 1 [0]) 0x0B).1 ∧
    Met (A (message 1 [0, 0, 0]) 1).2.1 ∧
    Met (A (message 1 [1, 0, 0]) 1).2.2.1 ∧
    Met (A (message 1 [2, 0, 0]) 1).2.2.2.1 ∧
    Met (A (message 1 [3, 0, 0]) 1).2.2.2.2.1 ∧
    Met (A (message 1 [0, 0, 0]) 1).2.2.2.2.2.1 ∧
    Met (A (managed ([1] ++ List.replicate 28 0)) 1).2.2.2.2.2.2.1 ∧
    Met (A (managed ([0] ++ List.replicate 28 0)) 1).2.2.2.2.2.2.2.1 ∧
    Met (A (managed [0]) 1).2.2.2.2.2.2.2.2.1 ∧
    Met (A (managed [1]) 1).2.2.2.2.2.2.2.2.2.1 ∧
    MetL (A (managed [0]) 1).2.2.2.2.2.2.2.2.2.2.1 ∧
    Met (A (managed [0]) 1).2.2.2.2.2.2.2.2.2.2.2.1 ∧
    Met (A (managed ([0, 0, 1, 0] ++ List.replicate 92 0 ++ [16])) 1).2.2.2.2.2.2.2.2.2.2.2.2.1 ∧
    Met (A (managed ([0, 1, 1, 0] ++ List.replicate 92 0 ++ [16])) 1).2.2.2.2.2.2.2.2.2.2.2.2.2.1 ∧
    Met (A (message 1 (toBytes 8 0x40000 ++ toBytes 8 4096 ++ [0])) 1).2.2.2.2.2.2.2.2.2.2.2.2.2.2.2.1 ∧
    Met (A (message 1 (toBytes 8 0x40000 ++ toBytes 8 4096 ++ [0])) 1).2.2.2.2.2.2.2.2.2.2.2.2.2.2.2.2.1 ∧
    Met (A (message 1 (toBytes 8 0x40000 ++ toBytes 8 4096 ++ [1])) 1).2.2.2.2.2.2.2.2.2.2.2.2.2.2.2.2.2.1 ∧
    Met (A (managed [0]) 1).2.2.2.2.2.2.2.2.2.2.2.2.2.2.2.2.2.2.2.1 ∧
    Met (H (managed [0]) 1 0 0 0x40000 100 0 1 { post1 with retry := true } placedKey (waiter (.tframe 1 0x40000 100))).2.2.2.2.2.2.2.2.2.2.2.2.2.2.2.2.2.2.2.2.2.1 ∧
    Met (A (managed [0]) 1).2.2.2.2.2.2.2.2.2.2.2.2.2.2.2.2.2.2.2.2.2.2.1 ∧
    Met (A (managed [0]) 1).2.2.2.2.2.2.2.2.2.2.2.2.2.2.2.2.2.2.2.2.2.2.2.1 ∧
    Met (A (managed [0]) 1).2.2.2.2.2.2.2.2.2.2.2.2.2.2.2.2.2.2.2.2.2.2.2.2 := by
  intro A
  exact ⟨⟨served, by decide +kernel⟩,
   ⟨served, ⟨arrives_of (by decide +kernel), open_of (by decide +kernel), by decide +kernel⟩⟩,
   ⟨served, ⟨arrives_of (by decide +kernel), open_of (by decide +kernel), by decide +kernel⟩⟩,
   ⟨served, ⟨arrives_of (by decide +kernel), open_of (by decide +kernel), by decide +kernel⟩⟩,
   ⟨served, ⟨arrives_of (by decide +kernel), open_of (by decide +kernel), by decide +kernel⟩⟩,
   ⟨up State.reset, ⟨arrives_of (by decide +kernel), by decide +kernel, by decide +kernel⟩⟩,
   ⟨secured, ⟨arrives_of (by decide +kernel), by decide +kernel⟩⟩,
   ⟨secured, ⟨arrives_of (by decide +kernel), by decide +kernel⟩⟩,
   ⟨quiet, ⟨arrives_of (by decide +kernel), by decide +kernel, by decide +kernel, by decide +kernel⟩⟩,
   ⟨secured, ⟨arrives_of (by decide +kernel), by decide +kernel⟩⟩,
   ⟨closing quiet, by decide +kernel⟩,
   ⟨State.reset.place 0, by decide +kernel⟩,
   ⟨secured, ⟨arrives_of (by decide +kernel), by decide +kernel, by decide +kernel⟩⟩,
   ⟨secured, ⟨arrives_of (by decide +kernel), by decide +kernel, by decide +kernel⟩⟩,
   ⟨served, ⟨arrives_of (by decide +kernel), by decide +kernel, by decide +kernel, by decide +kernel, by decide +kernel⟩⟩,
   ⟨{ served with reqs := [{ req1 with id := 0 }], nid := 1 }, ⟨arrives_of (by decide +kernel), by decide +kernel, by decide +kernel, by decide +kernel⟩⟩,
   ⟨served, ⟨arrives_of (by decide +kernel), by decide +kernel, by decide +kernel⟩⟩,
   ⟨State.reset, by decide +kernel⟩,
   ⟨{ State.reset with postings := [{ post1 with retry := true }] }, ⟨by decide +kernel, [], by decide +kernel⟩⟩,
   ⟨State.reset, by decide +kernel⟩,
   ⟨waits (.tframe 1 0x40000 100) 100, by unfold Holds; decide +kernel⟩,
   ⟨waits (.tframe 1 0x40000 100) 99, by unfold Holds; decide +kernel⟩⟩

/-- A key length out of range, for either operation (R62). -/
theorem witness_HostMessagesAreAnswered_sa (H : Obligations.HostMessagesAreAnswered) :
    let A (m : Sys2Proof.Msg) := H m 1 0 0 0x40000 100 0 1 post1 placedKey (waiter (.tframe 1 0x40000 100))
    Met ((A (managed ([0, 0, 1, 0] ++ List.replicate 92 0 ++ [15]))).2.2.2.2.2.2.2.2.2.2.2.2.2.2.1 _ (.inl ⟨rfl, by decide +kernel⟩)) ∧
    Met ((A (managed ([0, 1, 1, 0] ++ List.replicate 92 0 ++ [15]))).2.2.2.2.2.2.2.2.2.2.2.2.2.2.1 _ (.inr ⟨rfl, by decide +kernel⟩)) := by
  intro A
  exact ⟨⟨secured, arrives_of (by decide +kernel), by decide +kernel⟩, ⟨secured, arrives_of (by decide +kernel), by decide +kernel⟩⟩

theorem witness_HostMessagesAreAnswered_postings : let old : FRec := { post1 with retry := true }
    ({ State.reset with postings := [post1] } : State).postings.find? (fun p => p.die = 0 ∧ p.retry = false) = some post1 ∧
    ({ State.reset with postings := [old, post1] } : State).postings.find? (fun p => p.die = 0 ∧ p.retry = false) = some post1 ∧
    ({ State.reset with postings := [old], now := 256 } : State).postings.filter (fun p => p.die = 0 ∧ p.retry) = [old] ∧
    old.born + 256 ≤ 256 ∧ State.reset.records = [] := by decide +kernel

def uet (hdr va : Nat) : Uet := { port := 0, sender := 9, job := 3, travel := .plain, header := hdr, va := va }
/-- An endpoint entry that admits sender 9 of job 3 (R48). -/
def entry : List Byte := [3, 0, 1, 0, 0, 0, 0, 0, 9] ++ List.replicate 15 0 ++ [3] ++ List.replicate 39 0
/-- Port 0 up, and the entry in context 0's buffer. -/
def window : State := let s := up (world (State.reset.place 0)); { s with ctxs := s.ctxs.map (fun e => (e.1, { e.2 with endpoints := [(1, entry)] })) }
def secureCtx : State := { up State.reset with ctxs := [(0, { opened := true, secure := true })] }

theorem witness_PeersReachTheRemoteWindow (H : Obligations.PeersReachTheRemoteWindow) :
    Met (H (uet (0) 0x40000) [1, 2] 8 0x80000 0 7).1 ∧
    Met (H (uet (0) 0x40000) [1, 2] 8 0x80000 0 7).2.1 ∧
    Met (H (uet (16 + 4 * 2 ^ 22) 0x40000) [1, 2] 8 0x80000 0 7).2.2.1 :=
  ⟨⟨window, ⟨⟨⟨by decide +kernel, .inl (by decide +kernel)⟩, by decide +kernel⟩, ⟨by decide +kernel, by decide +kernel, by decide +kernel⟩⟩⟩,
   ⟨window, ⟨⟨⟨by decide +kernel, .inl (by decide +kernel)⟩, by decide +kernel⟩, ⟨by decide +kernel, by decide +kernel, by decide +kernel⟩⟩⟩,
   ⟨window, ⟨⟨by decide +kernel, .inl (by decide +kernel)⟩, by decide +kernel, by decide +kernel, by decide +kernel, by decide +kernel, ⟨by decide +kernel, by decide +kernel, by decide +kernel⟩⟩⟩⟩

theorem witness_PeersReachTheRemoteWindow_rest (H : Obligations.PeersReachTheRemoteWindow) : ∀ i, i = .uetWrite (uet 0 0x40000) [1, 2] ∨
    i = .uetRead (uet 0 0x40000) 8 ∨ i = .uetReleaseWrite (uet 0 0x40000) 7 → (∃ hi,
    Met ((H (uet 0 0x40000) [1, 2] 8 0x80000 0 7).2.2.2.1 i hi).1 ∧ Met ((H (uet 0 0x40000) [1, 2] 8 0x80000 0 7).2.2.2.1 i hi).2.1 ∧ Met ((H (uet 0 0x40000) [1, 2] 8 0x80000 0 7).2.2.2.1 i hi).2.2) ∧ Met (H (uet 0 0x40000) [1, 2] 8 0x80000 0 7).2.2.2.2.1 ∧
    Met (H (uet 0 0x40000) [1, 2] 8 0x80000 0 7).2.2.2.2.2.1 ∧ Met (H (uet 0 0x40000) [1, 2] 8 0x80000 0 7).2.2.2.2.2.2.1 ∧
    Met (H (uet 0 0x40000) [1, 2] 8 0x80000 0 7).2.2.2.2.2.2.2 :=
  fun i hi => ⟨⟨hi, ⟨up State.reset, ⟨by decide +kernel, .inl (by decide +kernel)⟩, .inl (by decide +kernel)⟩, ⟨secureCtx, by decide +kernel, by decide +kernel, by decide +kernel, fun i hi => by cases hi⟩, ⟨State.reset, by decide +kernel⟩⟩,
    ⟨up (State.reset.place 0), ⟨by decide +kernel, .inl (by decide +kernel)⟩, by decide +kernel⟩, ⟨up (State.reset.place 0), ⟨by decide +kernel, .inl (by decide +kernel)⟩, by decide +kernel⟩,
    ⟨up State.reset, by decide +kernel⟩, ⟨State.reset, by decide +kernel⟩⟩

def cmsg (k : MsgKind) (src dst : Nat) : CMsg := { kind := k, src := src, dst := dst, sector := 0x2000, requester := 1 }
def line0 (st : L2St) : L2Line := { st := st, data := List.replicate 64 5 }
def txn0 : Txn := { sector := 0x2000, kind := .readOwn, requester := 1, acks := 1 }
/-- A message at the head of its channel. -/
def sends (m : CMsg) : State := { State.reset with msgs := [m] }
/-- Holders of the sector as its home has them. -/
def held (m : CMsg) (l : List (Nat × DirSt)) : State := (sends m).putHolders 0x2000 l

theorem witness_CoherenceMessagesMoveTheirSectors (H : Obligations.CoherenceMessagesMoveTheirSectors) :
    let A (m : CMsg) (x : L2Line) (d : Nat) := H m x txn0 d 0 0x2000 .e (List.replicate 64 5)
    Met (A (cmsg .readShared 1 0) (line0 .dirty) 2).1 ∧
    Met (A { cmsg .readShared 0 0 with requester := 0 } (line0 .dirty) 2).2.1 ∧
    Met (A (cmsg .readShared 1 0) (line0 .dirty) 2).2.2.1 ∧
    Met (A (cmsg .readOwn 1 0) (line0 .dirty) 2).2.2.2.1 ∧
    Met (A (cmsg .readOwn 1 0) (line0 .dirty) 2).2.2.2.2.1 ∧
    Met (A (cmsg .upgrade 1 0) (line0 .dirty) 2).2.2.2.2.2.1 ∧
    Met (A (cmsg .fwdShared 0 2) (line0 .m) 2).2.2.2.2.2.2.2.1 ∧
    Met (A (cmsg .fwdOwn 0 2) (line0 .m) 2).2.2.2.2.2.2.2.2.1 ∧
    Met (A (cmsg .inval 0 2) (line0 .dirty) 2).2.2.2.2.2.2.2.2.2.1 ∧
    Met (A (cmsg .backInval 0 2) (line0 .m) 2).2.2.2.2.2.2.2.2.2.2.1 ∧
    MetL (A { cmsg .invalAck 2 0 with retain := true } (line0 .dirty) 2).2.2.2.2.2.2.2.2.2.2.2.1 ∧
    Met (A { cmsg .writeBack 1 0 with data := some (List.replicate 64 5) } (line0 .dirty) 2).2.2.2.2.2.2.2.2.2.2.2.2.2.1 ∧
    Met (A (cmsg .cleanEvict 1 0) (line0 .dirty) 2).2.2.2.2.2.2.2.2.2.2.2.2.2.2.1 ∧
    Met (A (cmsg .backInvalAck 2 0) (line0 .dirty) 2).2.2.2.2.2.2.2.2.2.2.2.2.2.2.2.1 ∧
    Met (A (cmsg .readShared 1 0) (line0 .dirty) 0).2.2.2.2.2.2.2.2.2.2.2.2.2.2.2.2.1 ∧
    Met (A (cmsg .readShared 1 0) (line0 .m) 1).2.2.2.2.2.2.2.2.2.2.2.2.2.2.2.2.2.1 ∧
    Met (A (cmsg .readShared 1 0) (line0 .m) 1).2.2.2.2.2.2.2.2.2.2.2.2.2.2.2.2.2.2.1 := by
  intro A
  exact ⟨⟨sends (cmsg .readShared 1 0), ⟨⟨⟨by decide +kernel, by decide +kernel⟩, by decide +kernel, by decide +kernel, by decide +kernel, ⟨by decide +kernel, by decide +kernel, by decide +kernel, by decide +kernel, by decide +kernel⟩⟩, by decide +kernel, by decide +kernel⟩⟩,
   ⟨sends { cmsg .readShared 0 0 with requester := 0 }, ⟨⟨by decide +kernel, by decide +kernel⟩, by decide +kernel, by decide +kernel, ⟨by decide +kernel, by decide +kernel, by decide +kernel, by decide +kernel, by decide +kernel⟩, by decide +kernel, by decide +kernel⟩⟩,
   ⟨held (cmsg .readShared 1 0) [(2, .e)], ⟨⟨⟨by decide +kernel, by decide +kernel⟩, by decide +kernel, by decide +kernel, by decide +kernel, ⟨by decide +kernel, by decide +kernel, by decide +kernel, by decide +kernel, by decide +kernel⟩⟩, by decide +kernel, by decide +kernel⟩⟩,
   ⟨(sends (cmsg .readOwn 1 0)).setL2 0 0x2000 (line0 .dirty), ⟨⟨⟨by decide +kernel, by decide +kernel⟩, by decide +kernel, by decide +kernel, by decide +kernel, ⟨by decide +kernel, by decide +kernel, by decide +kernel, by decide +kernel, by decide +kernel⟩⟩, by decide +kernel, by decide +kernel, by decide +kernel⟩⟩,
   ⟨held (cmsg .readOwn 1 0) [(2, .e)], ⟨⟨⟨by decide +kernel, by decide +kernel⟩, by decide +kernel, by decide +kernel, by decide +kernel, ⟨by decide +kernel, by decide +kernel, by decide +kernel, by decide +kernel, by decide +kernel⟩⟩, by decide +kernel, by decide +kernel, by decide +kernel⟩⟩,
   ⟨held (cmsg .upgrade 1 0) [(1, .s)], ⟨⟨⟨by decide +kernel, by decide +kernel⟩, by decide +kernel, by decide +kernel, by decide +kernel, ⟨by decide +kernel, by decide +kernel, by decide +kernel, by decide +kernel, by decide +kernel⟩⟩, by decide +kernel⟩⟩,
   ⟨(sends (cmsg .fwdShared 0 2)).setL2 2 0x2000 (line0 .m), ⟨⟨by decide +kernel, by decide +kernel⟩, by decide +kernel⟩⟩,
   ⟨(sends (cmsg .fwdOwn 0 2)).setL2 2 0x2000 (line0 .m), ⟨⟨by decide +kernel, by decide +kernel⟩, by decide +kernel⟩⟩,
   ⟨sends (cmsg .inval 0 2), ⟨by decide +kernel, by decide +kernel⟩⟩,
   ⟨(sends (cmsg .backInval 0 2)).setL2 2 0x2000 (line0 .m), ⟨⟨by decide +kernel, by decide +kernel⟩, by decide +kernel, by decide +kernel, fun j h1 hj => by revert h1; revert j; decide +kernel⟩⟩,
   ⟨{ sends { cmsg .invalAck 2 0 with retain := true } with txns := [txn0] }, ⟨⟨by decide +kernel, by decide +kernel⟩, by decide +kernel⟩⟩,
   ⟨sends { cmsg .writeBack 1 0 with data := some (List.replicate 64 5) }, ⟨⟨by decide +kernel, by decide +kernel⟩, by decide +kernel⟩⟩,
   ⟨sends (cmsg .cleanEvict 1 0), ⟨⟨by decide +kernel, by decide +kernel⟩, by decide +kernel⟩⟩,
   ⟨{ sends (cmsg .backInvalAck 2 0) with backInv := [{ line := 0x800, left := [2] }] }, ⟨⟨by decide +kernel, by decide +kernel⟩, by decide +kernel, ⟨_, rfl, by decide +kernel, by decide +kernel⟩, by decide +kernel⟩⟩,
   ⟨{ State.reset.setL2 0 0x2000 (line0 .dirty) with now := 4096 }, by decide +kernel⟩,
   ⟨{ State.reset.setL2 1 0x2000 (line0 .m) with now := 4096 }, by decide +kernel⟩,
   ⟨{ State.reset.setL2 1 0x2000 (line0 .m) with now := 4095 }, by decide +kernel⟩⟩

theorem witness_CoherenceMessagesMoveTheirSectors_rest (H : Obligations.CoherenceMessagesMoveTheirSectors) :
    let A (m : CMsg) (x : L2Line) (d : Nat) := H m x txn0 d 0 0x2000 .e (List.replicate 64 5)
    let data : CMsg := { cmsg .dataDirty 0 1 with grant := some .m, data := some (List.replicate 64 5) }
    Met ((A (cmsg .readShared 1 0) (line0 .dirty) 2).2.2.2.2.2.2.1 _ _ (.inl ⟨rfl, rfl⟩)) ∧ Met ((A (cmsg .readOwn 1 0) (line0 .dirty) 2).2.2.2.2.2.2.1 _ _ (.inr (.inl ⟨rfl, rfl⟩))) ∧
    Met ((A (cmsg .upgrade 1 0) (line0 .dirty) 2).2.2.2.2.2.2.1 _ _ (.inr (.inr ⟨rfl, rfl⟩))) ∧
    Met ((A { data with kind := .dataClean } (line0 .dirty) 2).2.2.2.2.2.2.2.2.2.2.2.2.1 _ _ (.inl ⟨rfl, rfl⟩) .m) ∧ Met ((A data (line0 .dirty) 2).2.2.2.2.2.2.2.2.2.2.2.2.1 _ _ (.inr ⟨rfl, rfl⟩) .m) ∧
    Met ((A (cmsg .readShared 1 0) (line0 .dirty) 2).2.2.2.2.2.2.2.2.2.2.2.2.2.2.2.2.2.2.2 _ (.inl rfl)) := by
  intro A data
  exact ⟨⟨{ sends (cmsg .readShared 1 0) with txns := [txn0] }, ⟨by decide +kernel, by decide +kernel⟩, txn0, by decide +kernel, by decide +kernel⟩, ⟨{ sends (cmsg .readOwn 1 0) with txns := [txn0] }, ⟨by decide +kernel, by decide +kernel⟩, txn0, by decide +kernel, by decide +kernel⟩,
    ⟨{ sends (cmsg .upgrade 1 0) with txns := [txn0] }, ⟨by decide +kernel, by decide +kernel⟩, txn0, by decide +kernel, by decide +kernel⟩,
    ⟨sends { data with kind := .dataClean }, ⟨by decide +kernel, by decide +kernel⟩, by decide +kernel, by decide +kernel, by decide +kernel, by decide +kernel, by decide +kernel⟩, ⟨sends data, ⟨by decide +kernel, by decide +kernel⟩, by decide +kernel, by decide +kernel, by decide +kernel, by decide +kernel, by decide +kernel⟩, ⟨State.reset, by decide +kernel⟩⟩

/-- Task 1 of the card stands ready on die 0. -/
def readyCard : Card := { card0 with args := 0x40200, tasks := [(1, { st := .ready 0 7, die := 0, entry := 7 })], ready := [1] }
def dealing : State := { world State.reset with cards := [readyCard] }
/-- The same with arguments that cannot be read. -/
def lostCard : Card := { readyCard with args := 0x60000 }
def losing : State := { dealing with cards := [lostCard] }
/-- The run at its die's arbiter. -/
def arbiter (q : CommitQ) (s : State) : State := { s with runs := [run0], cards := [card0], arb := [q] }
def commitQ : CommitQ := { die := 0, run := 50 }
def lapQ : CommitQ := { die := 0, run := 50, publish := some (3, true) }
/-- An irrevocable run that holds die 0's token and has written and read everything. -/
def firm : Run := { run0 with id := 60, irrevocable := true, rs := { bits := 2 ^ 256 - 1, fill := 200 }, ws := { bits := 2 ^ 256 - 1, fill := 200 } }
def reads1 : Run := { run0 with rs := { bits := 2 ^ 256 - 1, fill := 200 } }
def writes1 : Run := { run0 with ws := { bits := 2 ^ 256 - 1, fill := 200 } }
def against (r : Run) (q : CommitQ) : State := { arbiter q State.reset with runs := [r, firm], token := [(0, 60)] }
def group0 : Group := { ctx := 0, obj := 0x40040 }
def doneCard : Card := { card0 with tasks := [(0, { st := .retired }), (1, { st := .retired })] }
def saves : State := { State.reset with ctxs := [(0, { opened := true, saves := [(1, 8)] })], fencedDies := [0, 1, 2, 3] }

/-- What the dealing of a card's chunk of one task starts with. -/
def dealt (s : State) (c : Card) : State := { s with lastDeal := Tbl.set s.lastDeal (4 * 0 + c.cls) c.id }

/-- Where every die is out of service nothing is translated, so nothing is saved. -/
theorem dark_save {s : State} (h : ∀ q, q < 4 → s.fencedDies.contains q = true) (ctx serial chunk : Nat) : s.saveChunk ctx serial chunk = none := by
  have hp (die va : Nat) (use : Use) : s.peek ctx die va use = .error .page := by
    have hw : s.walk ctx die (va % 2 ^ 57) = .error .page := by
      unfold State.walk levels State.walkFrom
      exact if_pos (h _ (Nat.mod_lt _ (by decide)))
    unfold State.peek
    rw [hw]
  have hf (die : Nat) : s.freeSlot ctx die = none := List.find?_eq_none.2 (fun i _ => by
    simp only [hp]
    decide)
  unfold State.saveChunk
  simp only [hf]

theorem no_save : saves.saveChunk 0 1 8 = none := dark_save (by decide) 0 1 8

theorem witness_TasksAreDealtCommittedAndSettled (H : Obligations.TasksAreDealtCommittedAndSettled) :
    Met (H 0 0 0 0x40040 3 0 0x80040 1 8 16 true readyCard run0 group0 [0] [1] placedKey ((State.readArgs 0 readyCard [1] (dealt dealing readyCard)).2)).1 ∧
    Met (H 0 0 0 0x40040 3 0 0x80040 1 8 16 true lostCard run0 group0 [0] [] placedKey ((State.readArgs 0 lostCard [1] (dealt losing lostCard)).2)).2.1 ∧
    Met (H 0 0 0 0x40040 3 0 0x80040 1 8 16 true card0 run0 group0 [0] [1] placedKey (State.reset)).2.2.1 ∧
    Met (H 0 0 0 0x40040 3 0 0x80040 1 8 16 true card0 run0 group0 [0] [1] placedKey (State.reset)).2.2.2.1 ∧
    Met (H 0 0 0 0x40040 3 0 0x80040 1 8 16 true card0 reads1 group0 [0] [1] placedKey (State.reset)).2.2.2.2.1 ∧
    Met (H 0 0 0 0x40040 3 0 0x80040 1 8 16 true card0 writes1 group0 [0] [1] placedKey (State.reset)).2.2.2.2.2.1 ∧
    Met (H 0 0 0 0x40040 3 0 0x80040 1 8 16 true card0 run0 group0 [0] [1] placedKey (State.reset)).2.2.2.2.2.2.1 ∧
    Met (H 0 0 0 0x40040 3 0 0x80040 1 8 16 true card0 run0 group0 [0] [1] placedKey (State.reset)).2.2.2.2.2.2.2.1 ∧
    Met (H 0 0 0 0x40040 3 0 0x80040 1 8 16 true card0 run0 group0 [0] [1] placedKey (State.reset)).2.2.2.2.2.2.2.2.1 ∧
    Met (H 0 0 0 0x40040 3 0 0x80040 1 8 16 true card0 run0 group0 [0] [1] placedKey (State.reset)).2.2.2.2.2.2.2.2.2.1 ∧
    Met (H 0 0 0 0x40040 3 0 0x80040 1 8 16 true card0 reads1 group0 [0] [1] placedKey (State.reset)).2.2.2.2.2.2.2.2.2.2.1 ∧
    Met (H 0 0 0 0x40040 3 0 0x80040 1 8 16 true card0 run0 group0 [0] [1] placedKey (State.reset)).2.2.2.2.2.2.2.2.2.2.2.1 ∧
    Met (H 0 0 0 0x40040 3 0 0x80040 1 8 16 true card0 run0 group0 [0] [1] placedKey (State.reset)).2.2.2.2.2.2.2.2.2.2.2.2.1 ∧
    Met (H 0 0 0 0x40040 3 0 0x80040 1 8 16 true card0 run0 group0 [0] [1] placedKey (State.reset)).2.2.2.2.2.2.2.2.2.2.2.2.2.1 ∧
    Met (H 0 0 0 0x40040 3 0 0x80040 1 8 16 true card0 run0 group0 [0] [1] placedKey (State.reset)).2.2.2.2.2.2.2.2.2.2.2.2.2.2.2.1 ∧
    Met (H 0 0 0 0x40040 3 0 0x80040 1 8 16 true card0 run0 group0 [0] [1] placedKey (State.reset)).2.2.2.2.2.2.2.2.2.2.2.2.2.2.2.2 :=
  ⟨⟨dealing, ⟨⟨by decide +kernel, by decide +kernel, by decide +kernel⟩, by decide +kernel⟩⟩,
   ⟨losing, ⟨⟨by decide +kernel, by decide +kernel, by decide +kernel⟩, by decide +kernel⟩⟩,
   ⟨State.reset, by decide +kernel⟩,
   ⟨arbiter commitQ State.reset, ⟨⟨⟨by decide +kernel, by decide +kernel, by decide +kernel⟩, by decide +kernel⟩, by decide +kernel, by decide +kernel⟩⟩,
   ⟨against reads1 commitQ, ⟨⟨⟨by decide +kernel, by decide +kernel, by decide +kernel⟩, by decide +kernel⟩, by decide +kernel⟩⟩,
   ⟨against writes1 commitQ, ⟨⟨⟨by decide +kernel, by decide +kernel, by decide +kernel⟩, by decide +kernel⟩, by decide +kernel⟩⟩,
   ⟨State.reset, by decide +kernel⟩,
   ⟨{ State.reset with cards := [card0], runs := [run0], tokenQ := [50], heats := [tasked (seatHeat (.nop c0))] }, by decide +kernel⟩,
   ⟨State.reset, by decide +kernel⟩,
   ⟨arbiter lapQ (world State.reset), ⟨⟨⟨by decide +kernel, by decide +kernel, by decide +kernel⟩, by decide +kernel⟩, by decide +kernel, by decide +kernel⟩⟩,
   ⟨{ against reads1 lapQ with mem := (world State.reset).mem }, ⟨⟨⟨by decide +kernel, by decide +kernel, by decide +kernel⟩, by decide +kernel⟩, by decide +kernel⟩⟩,
   ⟨State.reset, .inl (by decide +kernel)⟩,
   ⟨{ world (State.reset.place 0) with groups := [group0], cards := [doneCard], heats := [] }, ⟨by decide +kernel, by decide +kernel, by decide +kernel, fun x hx => by rw [List.mem_singleton.1 hx]; exact ⟨by decide +kernel, fun i hi => by revert i; decide +kernel⟩, by decide +kernel, by decide +kernel, leads_of (by decide +kernel), by decide +kernel⟩⟩,
   ⟨{ world (State.reset.place 0) with groups := [group0], cards := [card0], heats := [] }, ⟨by decide +kernel, by decide +kernel, by decide +kernel, card0, by decide +kernel, by decide +kernel, by decide +kernel⟩⟩,
   ⟨saves, ⟨by decide +kernel, no_save⟩⟩,
   ⟨State.reset, by decide +kernel⟩⟩

theorem isOk1_of {r : Except Cause Nat × State} {pa : Nat} {s : State} (h : both r pa s = true) : r = (.ok pa, s) := both_of h

def bist0 : Bist := { die := 1, ctx := 0, va := 0x40000, sel := 5, alg := 2 }
/-- Die 1 suspects die 2, and has probed it at clock 0. -/
def susp0 : Suspicion := { target := 2, by_ := 1, agree := [], probes := [(1, 0)] }
def susp1 : Suspicion := { susp0 with agree := [0, 3] }
def unprobed : Suspicion := { susp0 with probes := [] }
def missing : State := { State.reset with asked := [(1, 2 ^ 33, 0)], now := 65536 }
def suspects (x : Suspicion) (now : Nat) : State := { State.reset with suspicions := [x], now := now }

theorem witness_FailingPartsAreContained (H : Obligations.FailingPartsAreContained) :
    let A (d : Nat) (x : Suspicion) := H 1 2 d 3 5 0 0 0x80000 0 7 9 true [] bist0 x
    Met (A 2 susp0).1 ∧
    Met (A 2 unprobed).2.1 ∧
    Met (A 2 susp0).2.2.1 ∧
    Met (A 2 unprobed).2.2.2.1 ∧
    Met (A 2 susp0).2.2.2.2.1 ∧
    MetL (A 2 susp1).2.2.2.2.2.1 ∧
    Met (A 2 susp0).2.2.2.2.2.2.1 ∧
    Met (A 2 susp0).2.2.2.2.2.2.2.1 ∧
    MetL (A 2 susp0).2.2.2.2.2.2.2.2.1 ∧
    Met (A 2 unprobed).2.2.2.2.2.2.2.2.2.1 ∧
    Met (A 2 susp0).2.2.2.2.2.2.2.2.2.2.1 ∧
    MetL (A 2 susp0).2.2.2.2.2.2.2.2.2.2.2.1 ∧
    Met (A 0 susp0).2.2.2.2.2.2.2.2.2.2.2.2.1 ∧
    Met (A 2 susp0).2.2.2.2.2.2.2.2.2.2.2.2.2.1 ∧
    MetL (A 2 susp0).2.2.2.2.2.2.2.2.2.2.2.2.2.2.1 ∧
    Met (A 2 susp0).2.2.2.2.2.2.2.2.2.2.2.2.2.2.2.1 ∧
    Met (A 2 susp0).2.2.2.2.2.2.2.2.2.2.2.2.2.2.2.2.1 ∧
    Met (A 2 susp0).2.2.2.2.2.2.2.2.2.2.2.2.2.2.2.2.2.1 ∧
    Met (A 2 susp0).2.2.2.2.2.2.2.2.2.2.2.2.2.2.2.2.2.2.1 ∧
    Met (A 2 susp0).2.2.2.2.2.2.2.2.2.2.2.2.2.2.2.2.2.2.2.1 ∧
    Met (A 2 susp0).2.2.2.2.2.2.2.2.2.2.2.2.2.2.2.2.2.2.2.2.1 ∧
    MetL ((A 2 susp0).2.2.2.2.2.2.2.2.2.2.2.2.2.2.2.2.2.2.2.2.2 3 1) := by
  intro A
  exact ⟨⟨missing, ⟨by decide +kernel, .inl (by decide +kernel), by decide +kernel⟩⟩,
   ⟨{ missing with suspicions := [unprobed] }, ⟨by decide +kernel, .inl (by decide +kernel), by decide +kernel⟩⟩,
   ⟨State.reset, fun h => by revert h; decide +kernel⟩,
   ⟨suspects unprobed 5, by decide +kernel⟩,
   ⟨{ State.reset with fencedDies := [1] }, by decide +kernel⟩,
   ⟨suspects susp1 4096, ⟨⟨⟨by decide +kernel, by decide +kernel⟩, by decide +kernel⟩, by decide +kernel, ⟨by decide +kernel, by decide +kernel, by decide +kernel, by decide +kernel, by decide +kernel⟩, by decide +kernel, by decide +kernel, fun q hq hn => by revert hn; revert q; decide +kernel⟩⟩,
   ⟨suspects susp0 4096, by decide +kernel⟩,
   ⟨suspects susp0 4095, by decide +kernel⟩,
   ⟨suspects susp0 9, by decide +kernel⟩,
   ⟨suspects unprobed 9, by decide +kernel⟩,
   ⟨{ State.reset with fencedDies := [2] }, by decide +kernel⟩,
   ⟨State.reset, by decide +kernel⟩,
   ⟨State.reset, by decide +kernel⟩,
   ⟨{ State.reset with resetting := [2] }, by decide +kernel⟩,
   ⟨{ State.reset with resetting := [2] }, by decide +kernel⟩,
   ⟨State.reset, by decide +kernel⟩,
   ⟨State.reset, by decide +kernel⟩,
   ⟨State.reset, by decide +kernel⟩,
   ⟨State.reset, by decide +kernel⟩,
   ⟨{ world (State.reset.place 0) with bist := [bist0], tlb := [{ page with die := 1, cores := [] }] }, ⟨⟨by decide +kernel, by decide +kernel⟩, by decide +kernel, isOk1_of (by decide +kernel)⟩⟩,
   ⟨State.reset, by decide +kernel⟩,
   ⟨State.reset, by decide +kernel⟩⟩

/-- The part started. -/
def started : State := { State.reset with sb := { State.reset.sb with state := 2 } }
def assocBytes : List Byte := [0, 0, 0, 0, 0, 0, 0, 0, 0, 0, 0, 0, 0, 0, 0, 0] ++ List.replicate 111 16 ++ [1]
def captures (b : Bool) : State := { State.reset with tap := { State.reset.tap with reset := b } }
/-- A margin run under way. -/
def marginal : State := { started with sb := { started.sb with margctl := 1 } }

theorem witness_BringUpAndServiceActOnTheirRegisters (H : Obligations.BringUpAndServiceActOnTheirRegisters) :
    MetL (H [] 0xFFF 1 2 0 2000 0 3 4 5 0x20 assocBytes true [] [] [] []).1 ∧
    Met (H [] 0xFFF 1 2 0 2000 0 3 4 5 0x20 assocBytes true [] [] [] []).2.1 ∧
    Met (H [] 0xFFF 1 2 0 2000 0 3 4 5 0x20 assocBytes true [] [] [] []).2.2.1 ∧
    Met (H [] 0xFFF 1 2 0 2000 0 3 4 5 0x20 assocBytes true [] [] [] []).2.2.2.1 ∧
    Met (H [] 0xFFF 1 2 0 2000 0 3 4 5 0x20 assocBytes true [] [] [] []).2.2.2.2.1 ∧
    Met (H [] 0xFFF 1 2 0 2000 0 3 4 5 0x20 assocBytes true [] [] [] []).2.2.2.2.2.1 ∧
    Met (H [] 0xFFF 1 2 0 2000 0 3 4 5 0x20 assocBytes true [] [] [] []).2.2.2.2.2.2.1 ∧
    Met (H [] 0xFFF 1 2 0 2000 0 3 4 5 0x20 assocBytes true [] [] [] []).2.2.2.2.2.2.2.1 ∧
    Met (H [] 0xFFF 1 2 0 999 0 3 4 5 0x20 assocBytes true [] [] [] []).2.2.2.2.2.2.2.2.1 ∧
    Met (H [] 0xFFF 1 2 0 2000 0 3 4 5 0x20 assocBytes true [] [] [] []).2.2.2.2.2.2.2.2.2.1 ∧
    Met (H [] 0xFFF 1 2 0 2000 0 3 4 5 0x20 assocBytes true [] [] [] []).2.2.2.2.2.2.2.2.2.2.1 ∧
    Met (H [] 0xFFF 1 2 0 2000 4 3 4 5 0x20 assocBytes true [] [] [] []).2.2.2.2.2.2.2.2.2.2.2.1 ∧
    Met (H [] 0xFFF 1 2 0 2000 0 3 4 5 0x20 assocBytes true [] [] [] []).2.2.2.2.2.2.2.2.2.2.2.2.1 ∧
    Met (H [] 0xFFF 1 2 0 2000 0 3 4 5 0x20 assocBytes true [] [] [] []).2.2.2.2.2.2.2.2.2.2.2.2.2.1 ∧
    Met (H [] 0xFFF 1 2 0 2000 0 3 4 5 0x20 assocBytes true [] [] [] []).2.2.2.2.2.2.2.2.2.2.2.2.2.2.1 ∧
    Met (H [] 0xFFF 1 2 0 4095 0 3 4 5 0x20 assocBytes true [] [] [] []).2.2.2.2.2.2.2.2.2.2.2.2.2.2.2.1 ∧
    Met (H [] 0xFFF 1 2 0 2000 0 3 4 5 0x20 assocBytes true [] [] [] []).2.2.2.2.2.2.2.2.2.2.2.2.2.2.2.2.1 ∧
    Met (H [] 0xFFF 1 2 0 2000 0 3 4 5 0x20 [1, 2, 3, 4] true [] [] [] []).2.2.2.2.2.2.2.2.2.2.2.2.2.2.2.2.2.1 ∧
    Met (H [] 0xFFF 1 2 0 2000 0 3 4 5 0x20 assocBytes true [] [] [] []).2.2.2.2.2.2.2.2.2.2.2.2.2.2.2.2.2.2.1 ∧
    Met (H [] 0xFFF 1 2 0 2000 0 3 4 5 0x20 assocBytes true [] [] [] []).2.2.2.2.2.2.2.2.2.2.2.2.2.2.2.2.2.2.2.2.1 ∧
    Met (H [] 0xFFF 1 2 0 2000 0 3 4 5 0x20 assocBytes true [] [] [] []).2.2.2.2.2.2.2.2.2.2.2.2.2.2.2.2.2.2.2.2.2.1 ∧
    Met (H [] 0xFFF 1 2 0 2000 0 3 4 5 0x20 assocBytes true [] [] [] []).2.2.2.2.2.2.2.2.2.2.2.2.2.2.2.2.2.2.2.2.2.2.1 ∧
    Met (H [] 0xFFF 1 2 0 2000 0 3 4 5 0x20 assocBytes true [] [] [] []).2.2.2.2.2.2.2.2.2.2.2.2.2.2.2.2.2.2.2.2.2.2.2.1 ∧
    Met (H [] 0xFFF 1 2 0 2000 0 3 4 5 0x20 assocBytes true [] [] [] []).2.2.2.2.2.2.2.2.2.2.2.2.2.2.2.2.2.2.2.2.2.2.2.2.1 ∧
    Met (H [] 0xFFF 1 2 0 2000 0 3 4 5 0x20 assocBytes true [] [] [] []).2.2.2.2.2.2.2.2.2.2.2.2.2.2.2.2.2.2.2.2.2.2.2.2.2.1 ∧
    Met (H [] 0xFFF 1 2 0 2000 0 3 4 5 0x20 assocBytes true [] [] [] []).2.2.2.2.2.2.2.2.2.2.2.2.2.2.2.2.2.2.2.2.2.2.2.2.2.2.1 ∧
    Met (H [] 0xFFF 1 2 0 2000 0 3 4 5 0x20 assocBytes true [] [] [] []).2.2.2.2.2.2.2.2.2.2.2.2.2.2.2.2.2.2.2.2.2.2.2.2.2.2.2.1 ∧
    Met (H [] 0xFFF 1 2 0 2000 0 3 4 5 0x20 assocBytes true [] [] [] []).2.2.2.2.2.2.2.2.2.2.2.2.2.2.2.2.2.2.2.2.2.2.2.2.2.2.2.2.1 ∧
    Met (H [] 0xFFF 1 2 0 2000 0 3 4 5 0x20 assocBytes true [] [] [] []).2.2.2.2.2.2.2.2.2.2.2.2.2.2.2.2.2.2.2.2.2.2.2.2.2.2.2.2.2.1 ∧
    Met (H [] 0xFFF 1 2 0 2000 0 3 4 5 0x20 assocBytes true [] [] [] []).2.2.2.2.2.2.2.2.2.2.2.2.2.2.2.2.2.2.2.2.2.2.2.2.2.2.2.2.2.2 :=
  ⟨⟨State.reset, trivial⟩,
   ⟨started, by decide +kernel⟩,
   ⟨started.updPort 1 (fun p => { p with training := true }), by decide +kernel⟩,
   ⟨State.reset, by decide +kernel⟩,
   ⟨started, by decide +kernel⟩,
   ⟨started, by decide +kernel⟩,
   ⟨started, by decide +kernel⟩,
   ⟨started, by decide +kernel⟩,
   ⟨started, .inl (by decide +kernel)⟩,
   ⟨State.reset, trivial⟩,
   ⟨{ started with sb := { started.sb with margsel := 4 } }, by decide +kernel⟩,
   ⟨started, by decide +kernel⟩,
   ⟨marginal, by decide +kernel⟩,
   ⟨marginal, by decide +kernel⟩,
   ⟨State.reset, by decide +kernel⟩,
   ⟨started, by decide +kernel⟩,
   ⟨started, by decide +kernel⟩,
   ⟨started, by decide +kernel⟩,
   ⟨started, by decide +kernel⟩,
   ⟨State.reset, by decide +kernel⟩,
   ⟨captures true, by decide +kernel⟩,
   ⟨captures false, by decide +kernel⟩,
   ⟨State.reset, trivial⟩,
   ⟨State.reset, trivial⟩,
   ⟨captures true, by decide +kernel⟩,
   ⟨captures false, by decide +kernel⟩,
   ⟨captures true, by decide +kernel⟩,
   ⟨captures false, by decide +kernel⟩,
   ⟨State.reset, trivial⟩,
   ⟨State.reset, trivial⟩⟩

theorem witness_BringUpAndServiceActOnTheirRegisters_down (H : Obligations.BringUpAndServiceActOnTheirRegisters) :
    Met ((H [] 0xFFF 1 2 0 2000 0 3 4 5 0x20 assocBytes true [] [] [] []).2.2.2.2.2.2.2.2.2.2.2.2.2.2.2.2.2.2.2.1 _ (.inl rfl)) := ⟨State.reset, .inr (by decide +kernel)⟩

/-- The page of the placed block in die 0's buffers. -/
def codePage : TlbE := { die := 0, cores := [0], ctx := 0, va := 0x10000, size := 0x10000, pa := 0x10000, w := false, x := true, pte := 0x5000, dirty := false }
def nopWord : Nat := encode (.nop c0)
/-- The placed heat's lane 0 alone, at the header or in the block. -/
def stood (y : Lane) : State :=
  { State.reset.place nopWord with tlb := [codePage], heats := [{ seatHeat (.nop c0) with lanes := [y] }], agenda := [.issue placedKey] }
def atHead : Lane := { pc := 0x10000 }

def readyB (s : State) (h : Heat) (p : Nat) : Bool :=
  let u : State := { s with agenda := [] }
  decide (s.agenda = [.issue placedKey]) && decide (u.heat? placedKey = some h) && h.active && decide (firstIssue u (u.ahead h) = none) && u.heatReady h && decide (h.busy = none) && !(u.halting h) && !(u.holding h) &&
  !(h.lanesWhere (fun x => !x.exited)).isEmpty &&
  (h.lanesWhere (fun x => !x.exited)).all (fun l => (h.lane l).st = .running && (h.lane l).pc = p && (h.lane l).acq = none)

def fetchB (s : State) (va w pa : Nat) : Bool :=
  mappedB { s with agenda := [] } 0 0 va .fetch pa && !(({ s with agenda := [] } : State).poisoned pa 8) &&
  decide (w = ofBytes (((s.overlay 0 (pa / 64) (s.cohSector (pa / 64))).drop (pa % 64)).take 8))

theorem witness_StepRunsTheWordAtHand :
    (readyB (stood atWord) { seatHeat (.nop c0) with lanes := [atWord] } 0x10008 && fetchB (stood atWord) 0x10008 nopWord 0x10008 &&
      decide (atWord.blk = some (0x10000, placedHeader)) && decide (atWord.task = none)) = true ∧
    (readyB (stood atHead) { seatHeat (.nop c0) with lanes := [atHead] } 0x10000 && decide (atHead.blk = none) &&
      fetchB (stood atHead) 0x10000 placedHeader 0x10000 && !(badHeader placedHeader 320) &&
      (seatHeat (.nop c0)).flagsClear (fld placedHeader 40 12) && fetchB (stood atHead) 0x10008 nopWord 0x10008) = true ∧
    nopWord < 2 ^ 64 ∧ leads (decode nopWord) (.nop c0) = true ∧ (match decode 0xFF00_0000_0000_0000 with | .ok _ => false | .error _ => true) = true := by
  decide +kernel

theorem witness_DecodingAnEncodingGivesItBack : Instr.wf (.nop c0) = true := by decide

theorem witness_EveryStepKeepsMemoryCanonical : Memory.wf State.reset.mem = true ∧ ∃ t, step State.reset = .next t := ⟨by decide, _, rfl⟩

/-! Steps of the control, memory and service words. -/

/-- The placed heat after the word, in a state made ready by `g`. -/
def afterIn (i : Instr) (f : Heat → Heat) (g : State → State) : Option Heat := match exec i (g (seat i f)) with
  | .next t => t.heat? placedKey
  | _ => none

/-- R135, R136: CALL at 0x10008 by 7 words; the link is the word after it. -/
theorem test_call : (after (.call c0 20 7) id).map (fun h => ((h.lane 0).pc, (h.lane 0).v64 20)) = some (0x10040, 0x10010) := by decide
/-- R134: TRAP parks the lane; lane 1, which had yielded, runs again (R114). -/
theorem test_trap : (after (.trap c0 7 none) id).map (fun h => ((h.lane 0).st, (h.lane 1).st)) = some (.parked, .running) := by decide
/-- R142: the ballot of the one active lane. -/
theorem test_vote_ballot : gives (.vote c0 (.ballot (.v 0)) .tt) [] 0 = some (1, 0) := by decide
/-- R208: a signed halfword from scratchpad. -/
theorem test_lds_signed : (afterIn (.lds c0 true 1 6 (.v 1) none) (setV [(1, 8)])
    (unitBy (fun u => { u with scr := [(8, 0x34), (9, 0x82)] }))).map (fun h => (h.lane 0).v32 6) = some 0xFFFF_8234 := by decide
/-- R215: ATOMS adds in scratchpad and gives the old word. -/
theorem test_atoms_add : (match exec (.atoms c0 .add .unsigned 2 .relaxed .heat (some (.v 6)) (.v 1) (.v 2))
    (unitBy (fun u => { u with scr := [(8, 0xFF)] }) (seat (.atoms c0 .add .unsigned 2 .relaxed .heat (some (.v 6)) (.v 1) (.v 2)) (setV [(1, 8), (2, 3)]))) with
  | .next t => some ((t.heat? placedKey).map (fun h => (h.lane 0).v32 6), t.scrRead 0 8 4)
  | _ => none) = some (some 0xFF, [0x02, 0x01, 0x00, 0x00]) := by decide
/-- R460: the identification word, least significant bit first. -/
theorem test_idcode : (match exec .idcode State.reset with
  | .next t => t.tap.shifted.take 4
  | _ => []) = [true, true, false, true] := by decide

end Sys2Proof.Tests
end

section
/-! SUPPORT. Bring-up and service (R16, R17, R64, R449, R450, R457, R459, R460): what fencing and the replace requests leave
alone, what each sideband register's write does, and the statement O55. -/

namespace Sys2Proof.Machine

open Sys2Proof Sys2Proof.Safe

/-! What fencing and a replace request leave alone. -/

/-- The state beside what the fencing of a unit may write: the field section and its copy, the units to park, the retired
chunks, the poison and the ports that stop (R445). -/
def State.besideFences (s : State) : State :=
  { s with field := [], nvField := [], units := [], retiredChunks := [], poison := [], ports := [] }

/-- The state beside what a replace request writes: the messages sent, the replace bit and the count of requests (R448). -/
def State.besideReplace (s : State) : State :=
  { s with out := [], sb := { s.sb with replace := false, replaceCount := 0 } }

@[simp] theorem fieldUpdate_besideFences (s : State) (die : Nat) (es : List (Nat × Nat)) :
    (s.fieldUpdate die es).besideFences = s.besideFences := rfl

@[simp] theorem fieldBit_besideFences (s : State) (die off i : Nat) : (s.fieldBit die off i).besideFences = s.besideFences := rfl

@[simp] theorem poisonSectors_besideFences (s : State) (secs : List Nat) : (s.poisonSectors secs).besideFences = s.besideFences := rfl

@[simp] theorem retire_besideFences (s : State) (cs : List Nat) : ({ s with retiredChunks := cs } : State).besideFences = s.besideFences := rfl

@[simp] theorem fenceCore_besideFences (s : State) (die phys : Nat) : (s.fenceCore die phys).besideFences = s.besideFences := by
  unfold State.fenceCore
  extract_lets p s1 carried free spare s2
  have h2 : s2.besideFences = s.besideFences := fieldUpdate_besideFences s1 die _
  clear_value carried spare s2
  split
  · rfl
  · cases carried with
    | none => exact h2
    | some q =>
      dsimp -zeta only
      extract_lets s3
      have h3 : s3.besideFences = s.besideFences := by
        cases spare with
        | none => exact h2
        | some r =>
          dsimp only [s3]
          split
          · exact (fieldUpdate_besideFences s2 die _).trans h2
          · exact h2
      exact h3

@[simp] theorem fenceRow_besideFences (s : State) (die stack chunk : Nat) :
    (s.fenceRow die stack chunk).besideFences = s.besideFences := by
  unfold State.fenceRow
  extract_lets o used left r n t
  split
  · exact fieldUpdate_besideFences ..
  · split
    · rfl
    · exact (poisonSectors_besideFences ..).trans ((retire_besideFences ..).trans (fieldUpdate_besideFences s die _))

@[simp] theorem fenceLane_besideFences (s : State) (port lane : Nat) : (s.fenceLane port lane).besideFences = s.besideFences := by
  unfold State.fenceLane
  dsimp only
  split <;> rfl

@[simp] theorem fence_besideFences (s : State) (u : FenceUnit) : (s.fence u).besideFences = s.besideFences := by
  cases u <;> simp [State.fence]

theorem foldl_fence_besideFences (us : List FenceUnit) (s : State) :
    (us.foldl (fun s u => s.fence u) s).besideFences = s.besideFences := by
  induction us generalizing s with
  | nil => rfl
  | cons u us ih => rw [List.foldl_cons, ih, fence_besideFences]

/-- Messages sent one after another write nothing but the messages. -/
theorem foldl_send_besideReplace (as : List Nat) (port kind : Nat) (body : List Byte) (s : State) :
    (as.foldl (fun s a => s.send port 0 a 0 kind 0 body) s).besideReplace = s.besideReplace := by
  induction as generalizing s with
  | nil => rfl
  | cons a as ih => rw [List.foldl_cons, ih]; rfl

@[simp] theorem replace_besideReplace (s : State) (reason : Nat) : (s.replace reason).besideReplace = s.besideReplace := by
  unfold State.replace
  dsimp only
  rw [foldl_send_besideReplace]
  rfl

theorem judgeCapacity_besideReplace (t s : State) : (t.judgeCapacity s).besideReplace = t.besideReplace := by
  unfold State.judgeCapacity
  dsimp only
  split <;> split <;> simp only [replace_besideReplace]

/-- What a state shows beside the fences. -/
theorem fields_of_besideFences {s t : State} (h : s.besideFences = t.besideFences) :
    s.sb = t.sb ∧ s.ctxs = t.ctxs ∧ s.heats = t.heats ∧ s.kernels = t.kernels ∧ s.fencedDies = t.fencedDies ∧ s.fused = t.fused :=
  ⟨(congrArg State.sb h :), (congrArg State.ctxs h :), (congrArg State.heats h :), (congrArg State.kernels h :),
    (congrArg State.fencedDies h :), (congrArg State.fused h :)⟩

/-- What a state shows beside the replace requests. -/
theorem fields_of_besideReplace {s t : State} (h : s.besideReplace = t.besideReplace) :
    s.sb.state = t.sb.state ∧ s.sb.cap = t.sb.cap ∧ s.sb.shape = t.sb.shape ∧ s.ctxs = t.ctxs ∧ s.heats = t.heats ∧
      s.kernels = t.kernels ∧ s.fencedDies = t.fencedDies ∧ s.fused = t.fused ∧ s.ports = t.ports :=
  ⟨(congrArg (fun u : State => u.sb.state) h :), (congrArg (fun u : State => u.sb.cap) h :),
    (congrArg (fun u : State => u.sb.shape) h :), (congrArg State.ctxs h :), (congrArg State.heats h :),
    (congrArg State.kernels h :), (congrArg State.fencedDies h :), (congrArg State.fused h :), (congrArg State.ports h :)⟩

/-! POWER_GOOD (R449). -/

/-- The ports of a list trained, one after another. -/
def trainPorts (ps : List Nat) (t : Tbl Port) : Tbl Port :=
  ps.foldl (fun (t : Tbl Port) p => Tbl.set t p { (Tbl.get ({} : Port) t p) with trained := true }) t

theorem trainPorts_cons (p : Nat) (ps : List Nat) (t : Tbl Port) :
    trainPorts (p :: ps) t = trainPorts ps (Tbl.set t p { (Tbl.get ({} : Port) t p) with trained := true }) := rfl

/-- A port is trained when the list names it or it was so before. -/
theorem get_trainPorts_trained (ps : List Nat) (t : Tbl Port) (p : Nat) :
    (Tbl.get {} (trainPorts ps t) p).trained = (decide (p ∈ ps) || (Tbl.get ({} : Port) t p).trained) := by
  induction ps generalizing t with
  | nil => simp [trainPorts]
  | cons q ps ih =>
    rw [trainPorts_cons, ih]
    by_cases hq : p = q
    · subst hq
      simp
    · simp [Tbl.get_set_ne t q p _ hq, hq]

theorem mem_bitsOf {w n i : Nat} : i ∈ bitsOf w n ↔ i < n ∧ bit w i = true := by
  simp [bitsOf, upto]

/-- The state that POWER_GOOD judges: the cold part with what fails fenced, before its ports train. -/
def State.selfTested (s : State) (failing : List FenceUnit) : State := failing.foldl (fun s u => s.fence u) s.cold

theorem selfTested_besideFences (s : State) (failing : List FenceUnit) :
    (s.selfTested failing).besideFences = s.cold.besideFences := foldl_fence_besideFences failing s.cold

/-- The part trained and Ready, before its capacity is judged. -/
def State.readied (s : State) (partners : Nat) : State :=
  { s with ports := trainPorts (bitsOf partners 12) s.ports, sb := { s.sb with state := 2 } }

theorem powerGood_besideReplace (s : State) (failing : List FenceUnit) (partners : Nat) :
    (s.powerGood failing partners).besideReplace = ((s.selfTested failing).readied partners).besideReplace :=
  judgeCapacity_besideReplace _ _

theorem readied_trained (s : State) {partners p : Nat} (hp : p < 12) (hb : bit partners p = true) :
    ((s.readied partners).port p).trained = true := by
  have h := get_trainPorts_trained (bitsOf partners 12) s.ports p
  rw [decide_eq_true (mem_bitsOf.2 ⟨hp, hb⟩), Bool.true_or] at h
  exact h

/-- POWER_GOOD leaves the part Ready: of the fields of the cold part, fencing and the replace requests write none of these. -/
theorem powerGood_ready (failing : List FenceUnit) (partners : Nat) :
    Leads (.powerGood failing partners) (fun _ => True)
      (fun s t => t.sb.state = 2 ∧ t.sb.cap = 3200 ∧ t.sb.shape = 0 ∧ t.ctxs = [] ∧ t.heats = [] ∧ t.kernels = [] ∧ t.fencedDies = [] ∧
        t.fused = s.fused ∧ ∀ p, p < 12 → bit partners p = true → (t.port p).trained = true) := by
  intro s _
  refine ⟨s.powerGood failing partners, exec_powerGood s failing partners, ?_⟩
  obtain ⟨hstate, hcap, hshape, hctxs, hheats, hkernels, hdies, hfused, hports⟩ :=
    fields_of_besideReplace (powerGood_besideReplace s failing partners)
  obtain ⟨fsb, fctxs, fheats, fkernels, fdies, ffused⟩ := fields_of_besideFences (selfTested_besideFences s failing)
  refine ⟨hstate, hcap.trans ?_, hshape.trans ?_, hctxs.trans fctxs, hheats.trans fheats, hkernels.trans fkernels, hdies.trans fdies,
    hfused.trans ffused, fun p hp hb => ?_⟩
  · exact congrArg Sideband.cap fsb
  · exact congrArg Sideband.shape fsb
  · rw [State.port, hports]
    exact readied_trained (s.selfTested failing) hp hb

/-! When the sideband answers (R449, R450). -/

/-- Die 0 is in service and the part has started. -/
def State.Answers (s : State) : Prop := 0 ∉ s.fencedDies ∧ s.sb.state ≠ 0

theorem sbUp_iff (s : State) : s.sbUp = true ↔ s.Answers := by
  simp [State.sbUp, State.Answers]

theorem sbUp_false_iff (s : State) : s.sbUp = false ↔ 0 ∈ s.fencedDies ∨ s.sb.state = 0 := by
  simp [State.sbUp, imp_iff_not_or]

/-- While the sideband answers nothing, none of its writes does anything. -/
theorem sideband_waits {mask port w ctl off a : Nat} {bytes : List Byte} {i : Instr}
    (hi : i = .portRetrain mask ∨ i = .mgmtAssocInstall bytes ∨ i = .mapDataRead ∨ i = .portErrorClear port ∨ i = .powerCapWrite w ∨
      i = .marginRun ctl ∨ i = .sidebandWrite off bytes ∨ i = .dynamicAddress a) :
    Waits i (fun s => 0 ∈ s.fencedDies ∨ s.sb.state = 0) := by
  intro s hd
  have hs := (sbUp_false_iff s).2 hd
  rcases hi with rfl | rfl | rfl | rfl | rfl | rfl | rfl | rfl
  · simp [exec_portRetrain, execPortRetrain, hs]
  · simp [exec_mgmtAssocInstall, execMgmtAssocInstall, hs]
  · simp [exec_mapDataRead, execMapDataRead, hs]
  · simp [exec_portErrorClear, execPortErrorClear, hs]
  · simp [exec_powerCapWrite, execPowerCapWrite, hs]
  · simp [exec_marginRun, execMarginRun, hs]
  · simp [exec_sidebandWrite, execSidebandWrite, hs]
  · simp [exec_dynamicAddress, execDynamicAddress, hs]

/-! Ports (R16, R17). -/

theorem bit_two_pow (p i : Nat) : bit (2 ^ p) i = decide (i = p) := by
  have h : bit (2 ^ p) i = (2 ^ p).testBit i := by simp [bit, Nat.testBit_eq_decide_div_mod_eq, beq_eq_decide]
  rw [h, Nat.testBit_two_pow]
  exact decide_eq_decide.2 eq_comm

theorem bitsOf_two_pow {p n : Nat} (hp : p < n) : bitsOf (2 ^ p) n = [p] := by
  have h : bitsOf (2 ^ p) n = (List.range n).filter (fun i => i == p) := by
    exact List.filter_congr (fun i _ => by rw [bit_two_pow, beq_eq_decide])
  rw [h, List.filter_beq, List.count_eq_one_of_mem List.nodup_range (List.mem_range.2 hp), List.replicate_one]

theorem retrain_one (s : State) {port : Nat} (hp : port < 12) :
    s.retrain (2 ^ port) = (s.updPort port (fun x => { x with training := true })).updSb (fun b => { b with retrain := b.retrain ||| 2 ^ port }) := by
  have hm : 2 ^ port % 4096 = 2 ^ port := Nat.mod_eq_of_lt (Nat.pow_lt_pow_right (by decide) hp)
  unfold State.retrain
  rw [bitsOf_two_pow hp, hm]
  rfl

/-- Nothing retrains where the mask names no port. -/
theorem retrain_none (s : State) : s.retrain 0 = s := by
  have h : bitsOf 0 12 = [] := by decide
  simp [State.retrain, h]

theorem portRetrain_moves (mask port : Nat) :
    Moves (.portRetrain mask) (fun s => s.Answers ∧ mask = 2 ^ port ∧ port < 12)
      (fun s => (s.updPort port (fun x => { x with training := true })).updSb (fun b => { b with retrain := b.retrain ||| mask })) := by
  rintro s ⟨hu, rfl, hp⟩
  rw [exec_portRetrain, execPortRetrain, if_pos ((sbUp_iff s).2 hu), retrain_one s hp]

theorem portTrainingDone_moves (port : Nat) :
    Moves (.portTrainingDone port) (fun s => port < 12 ∧ (s.port port).training = true)
      (fun s => (s.updPort port (fun p => { p with
          trained := true, training := false, split := bit s.sb.shape port && (!(s.halfFenced port 0) && !(s.halfFenced port 1)) })).updSb
        (fun b => { b with retrain := b.retrain &&& (4095 - 2 ^ port) })) := by
  rintro s ⟨hp, ht⟩
  have hc : ¬ (12 ≤ port ∨ (s.port port).training = false) := by simp [hp, ht]
  rw [exec_portTrainingDone, execPortTrainingDone, State.trainingDone, if_neg hc]
  simp only [Bool.and_assoc]
  rfl

theorem portTrainingDone_waits (port : Nat) : Waits (.portTrainingDone port) (fun s => (s.port port).training = false) := by
  intro s ht
  rw [exec_portTrainingDone, execPortTrainingDone, State.trainingDone, if_pos (.inr ht), id]

theorem portErrorClear_moves (port : Nat) :
    Moves (.portErrorClear port) (fun s => s.Answers ∧ port < 12)
      (fun s => s.updSb (fun b => { b with portErr := Tbl.put 0 b.portErr port 0 })) := by
  rintro s ⟨hu, hp⟩
  simp [exec_portErrorClear, execPortErrorClear, (sbUp_iff s).2 hu, hp]

/-! The management association (R64, R459). -/

/-- A whole window whose last byte is 1, with a key length that is taken, installs what it holds. -/
theorem mgmtAssocInstall_moves (bytes : List Byte) (a : Assoc)
    (ha : a = assocOf (readBytes (writeBytes ([] : Tbl Byte) 0 (bytes.take 128)) 0 128)) :
    Moves (.mgmtAssocInstall bytes)
      (fun s => s.Answers ∧ s.sb.assocBuf = [] ∧ bytes[127]? = some 1 ∧ 16 ≤ a.keyLen ∧ a.keyLen ≤ 64)
      (fun s => s.updSb (fun b => { b with assocBuf := writeBytes [] 0 (bytes.take 128), assoc := some a })) := by
  rintro s ⟨hu, hb, h1, hlo, hhi⟩
  subst ha
  rw [exec_mgmtAssocInstall, execMgmtAssocInstall, if_pos ((sbUp_iff s).2 hu)]
  simp [State.assocWrite, hb, h1, hlo, hhi]

/-! Power (R459). -/

theorem powerCapWrite_moves (w : Nat) :
    Moves (.powerCapWrite w) (fun s => s.Answers ∧ 1000 ≤ w ∧ w ≤ 3200)
      (fun s => s.updSb (fun b => { b with cap := w })) := by
  rintro s ⟨hu, hw⟩
  rw [exec_powerCapWrite, execPowerCapWrite, if_pos ((sbUp_iff s).2 hu), State.setCap, if_pos hw]

theorem powerCapWrite_waits (w : Nat) : Waits (.powerCapWrite w) (fun _ => w < 1000 ∨ 3200 < w) := by
  intro s hw
  have hc : ¬ (1000 ≤ w ∧ w ≤ 3200) := by omega
  rw [exec_powerCapWrite, execPowerCapWrite, State.setCap, if_neg hc, ite_self, id]

/-! Margining (R457). -/

/-- The axis bit of a MARGCTL write stands in the fields that are stored. -/
theorem bit_margctl_axis (ctl : Nat) : bit (fld ctl 0 11 + fld ctl 16 16 * 2 ^ 16) 2 = bit ctl 2 := by
  have h : (ctl % 2048 + ctl / 65536 % 65536 * 65536) / 4 % 2 = ctl / 4 % 2 := by omega
  simpa [bit, fld] using congrArg (· == 1) h

/-- A run on an idle target along an axis that the part has. -/
theorem marginRun_starts (ctl : Nat) :
    Moves (.marginRun ctl)
      (fun s => s.Answers ∧ bit s.sb.margctl 0 = false ∧ s.marginIdle s.sb.margsel = true ∧ bit ctl 2 = false)
      (fun s => s.updSb (fun b => { b with margctl := setFld (fld ctl 0 11 + fld ctl 16 16 * 2 ^ 16) 0 1 1 })) := by
  rintro s ⟨hu, hi, ht, ha⟩
  have h2 := bit_margctl_axis ctl
  simp only [exec_marginRun, execMarginRun, (sbUp_iff s).2 hu, State.marginRun, hi, ht, h2, ha]
  rfl

theorem marginRun_refused (ctl : Nat) :
    Moves (.marginRun ctl)
      (fun s => s.Answers ∧ bit s.sb.margctl 0 = false ∧ (s.marginIdle s.sb.margsel = false ∨ bit ctl 2 = true))
      (fun s => s.updSb (fun b => { b with
        margctl := setFld (fld ctl 0 11 + fld ctl 16 16 * 2 ^ 16) 0 1 0, margres := b.margres ||| 256 })) := by
  rintro s ⟨hu, hi, ht⟩
  have h2 := bit_margctl_axis ctl
  have hc : ¬ ((s.marginIdle s.sb.margsel && !(bit (fld ctl 0 11 + fld ctl 16 16 * 2 ^ 16) 2)) = true) := by
    rw [h2]
    rcases ht with ht | ht <;> simp [ht]
  rw [exec_marginRun, execMarginRun, if_pos ((sbUp_iff s).2 hu), State.marginRun, hi, if_neg (by decide), if_neg hc]

theorem marginRun_waits (ctl : Nat) : Waits (.marginRun ctl) (fun s => ¬ bit s.sb.margctl 0 = false) := by
  intro s hb
  rw [Bool.not_eq_false] at hb
  rw [exec_marginRun, execMarginRun, State.marginRun, if_pos hb, ite_self, id]

theorem marginDone_moves (n m : Nat) :
    Moves (.marginDone n m) (fun s => ¬ bit s.sb.margctl 0 = false)
      (fun s => s.updSb (fun b => { b with
        margctl := setFld b.margctl 0 1 0, margres := n % 128 + 128 + fld b.margres 8 1 * 256 + min m 65535 * 2 ^ 16 })) := by
  intro s hb
  rw [exec_marginDone, execMarginDone, if_pos (Bool.not_eq_false _ ▸ hb)]

theorem marginDone_waits (n m : Nat) : Waits (.marginDone n m) (fun s => bit s.sb.margctl 0 = false) := by
  intro s hb
  rw [exec_marginDone, execMarginDone, hb, if_neg (by decide), id]

/-! The sideband's writes of words (R459). -/

theorem ofBytes_toBytes (n x : Nat) : ofBytes (toBytes n x) = x % 256 ^ n := by
  induction n generalizing x with
  | zero => simp [toBytes, ofBytes, Nat.mod_one]
  | succ n ih =>
    have h : x % 256 ^ (n + 1) = x % 256 + 256 * (x / 256 % 256 ^ n) := by rw [Nat.pow_succ', Nat.mod_mul]
    rw [h, toBytes, ofBytes, ih, BitVec.toNat_ofNat]

/-- A write of one word outside the association's window writes its register; the offset then stands, and the
register's word is ready. -/
theorem sidebandWrite_word {off : Nat} {bytes : List Byte} (hb : bytes.length = 4) (ho : off < 0x300) (s : State) :
    s.sidebandWrite off bytes =
      let t := (s.sbWrite off (ofBytes bytes)).updSb (fun b => { b with offset := off })
      { t with sbOut := toBytes 4 (t.sbReg off) } := by
  obtain ⟨b0, b1, b2, b3, rfl⟩ : ∃ b0 b1 b2 b3, bytes = [b0, b1, b2, b3] := by
    match bytes, hb with
    | [b0, b1, b2, b3], _ => exact ⟨b0, b1, b2, b3, rfl⟩
  have hw : ¬ (0x300 ≤ off ∧ off < 0x380) := by omega
  rw [State.sidebandWrite, if_neg hw]
  rfl

/-- A step of the sideband that answers: a write of one word. -/
theorem exec_sidebandWrite_word {off : Nat} {bytes : List Byte} (hb : bytes.length = 4) (ho : off < 0x300) {s : State}
    (hu : s.Answers) :
    exec (.sidebandWrite off bytes) s =
      let t := (s.sbWrite off (ofBytes bytes)).updSb (fun b => { b with offset := off })
      .next { t with sbOut := toBytes 4 (t.sbReg off) } := by
  rw [exec_sidebandWrite, execSidebandWrite, if_pos ((sbUp_iff s).2 hu), sidebandWrite_word hb ho]

/-- Port shapes written where the upper half names no port to retrain. -/
theorem sidebandWrite_shape (w : Nat) :
    Moves (.sidebandWrite 0x00C (toBytes 4 w)) (fun s => s.Answers ∧ w < 4096)
      (fun s => { s.updSb (fun b => { b with shape := w, offset := 0x00C }) with sbOut := toBytes 4 (w + s.sb.retrain * 2 ^ 16) }) := by
  rintro s ⟨hu, hw⟩
  have h32 : ofBytes (toBytes 4 w) = w := by rw [ofBytes_toBytes, Nat.mod_eq_of_lt (by omega)]
  have hreg : s.sbWrite 0x00C w = s.updSb (fun b => { b with shape := w }) := by
    have hm : fld w 16 12 = 0 := by simp [fld]; omega
    show (s.updSb (fun b => { b with shape := w % 4096 })).retrain (fld w 16 12) = _
    rw [hm, retrain_none, Nat.mod_eq_of_lt hw]
  rw [exec_sidebandWrite_word (toBytes_length 4 w) (by decide) hu, h32, hreg]
  rfl

/-- The replace bit is cleared by a 1 written to it. -/
theorem sidebandWrite_replace :
    Moves (.sidebandWrite 0x004 (toBytes 4 8)) State.Answers
      (fun s => { s.updSb (fun b => { b with replace := false, offset := 0x004 }) with
        sbOut := toBytes 4 (s.sb.state + 16 * maskOf s.aliveDies) }) := by
  intro s hu
  have h32 : ofBytes (toBytes 4 8) = 8 := ofBytes_toBytes 4 8
  rw [exec_sidebandWrite_word (toBytes_length 4 8) (by decide) hu, h32]
  rfl

/-- The identification register is not written. -/
theorem sidebandWrite_id (bytes : List Byte) :
    Moves (.sidebandWrite 0x000 bytes) (fun s => s.Answers ∧ bytes.length = 4)
      (fun s => { s.updSb (fun b => { b with offset := 0 }) with sbOut := toBytes 4 0x15A1056B }) := by
  rintro s ⟨hu, hb⟩
  rw [exec_sidebandWrite_word hb (by decide) hu]
  rfl

theorem mapDataRead_moves :
    Moves .mapDataRead State.Answers
      (fun s => { s.updSb (fun b => { b with mapIndex := (b.mapIndex + 1) % 512, offset := 0x104 }) with
        sbOut := toBytes 8 (s.mapQuad s.sb.mapIndex) }) := by
  intro s hu
  rw [exec_mapDataRead, execMapDataRead, if_pos ((sbUp_iff s).2 hu)]

theorem dynamicAddress_moves (a : Nat) :
    Moves (.dynamicAddress a) State.Answers (fun s => s.updSb (fun b => { b with dynamic := some (a % 128) })) := by
  intro s hu
  rw [exec_dynamicAddress, execDynamicAddress, if_pos ((sbUp_iff s).2 hu)]

/-! The test access port (R460). -/

/-- Every code that names no instruction is BYPASS. -/
theorem bypass_moves (code : Nat) (tdi : List Bool) :
    Moves (.bypass code tdi) (fun _ => code < 256 ∧ 0x04 < code ∧ code ≠ 0x10)
      (fun s => s.updTap (fun t => { t with ir := code, shifted := bypassOut tdi })) := by
  rintro s ⟨h8, h4, h16⟩
  have hm : code % 256 = code := Nat.mod_eq_of_lt h8
  have hc : ¬ ([0x00, 0x01, 0x02, 0x03, 0x04, 0x10].contains code = true) := by
    simp only [List.contains_iff_mem, List.mem_cons, List.not_mem_nil, or_false]
    omega
  rw [exec_bypass, execBypass, hm, if_neg hc]

section
variable {s : State}

/-- EXTEST while the reset ball is asserted. -/
theorem extest_acts (drive : List Bool) (h : s.tap.reset = true) :
    exec (.extest drive) s = .next (s.updTap (fun t => { t with
      ir := 0, chain := drive, update := drive, shifted := Config.sampled t.captures, captures := t.captures + 1 })) := by
  rw [exec_extest, execExtest, State.updTap, if_pos h]
  rfl

theorem extest_bypasses (drive : List Bool) (h : ¬ s.tap.reset = true) :
    exec (.extest drive) s = .next (s.updTap (fun t => { t with ir := 0, shifted := bypassOut drive })) := by
  rw [exec_extest, execExtest, State.updTap, if_neg h]
  rfl

theorem clamp_acts (h : s.tap.reset = true) :
    exec .clamp s = .next (s.updTap (fun t => { t with ir := 3, update := t.chain, shifted := [false] })) := by
  rw [exec_clamp, execClamp, State.updTap, if_pos h]
  rfl

theorem clamp_bypasses (h : ¬ s.tap.reset = true) :
    exec .clamp s = .next (s.updTap (fun t => { t with ir := 3, shifted := [false] })) := by
  rw [exec_clamp, execClamp, State.updTap, if_neg h]
  rfl

theorem highz_acts (h : s.tap.reset = true) :
    exec .highz s = .next (s.updTap (fun t => { t with ir := 4, update := [], shifted := [false] })) := by
  rw [exec_highz, execHighz, State.updTap, if_pos h]
  rfl

theorem highz_bypasses (h : ¬ s.tap.reset = true) :
    exec .highz s = .next (s.updTap (fun t => { t with ir := 4, shifted := [false] })) := by
  rw [exec_highz, execHighz, State.updTap, if_neg h]
  rfl

end

/-- Settles O55: POWER_GOOD by what fencing and the replace requests leave alone, the sideband's writes one register at a
time, and the test access port by whether the reset ball is asserted. -/
theorem bringUpAndServiceActOnTheirRegisters : Obligations.BringUpAndServiceActOnTheirRegisters := by
  unfold Obligations.BringUpAndServiceActOnTheirRegisters
  intro bad partners port mask off w ctl n m a code bytes ok tdi drive pins load
  exact ⟨powerGood_ready bad partners, portRetrain_moves mask port, portTrainingDone_moves port, portTrainingDone_waits port,
    mgmtAssocInstall_moves bytes _ rfl, mapDataRead_moves, portErrorClear_moves port, powerCapWrite_moves w, powerCapWrite_waits w,
    fun s _ => exec_powerExceedsCap s w, marginRun_starts ctl, marginRun_refused ctl, marginRun_waits ctl, marginDone_moves n m,
    marginDone_waits n m, sidebandWrite_shape w, sidebandWrite_replace, sidebandWrite_id bytes, dynamicAddress_moves a,
    fun _ hi => sideband_waits hi, bypass_moves code tdi, fun _ h => extest_acts drive h, fun _ h => extest_bypasses drive h,
    fun s _ => exec_samplePreload s pins load, fun s _ => exec_idcode s, fun _ h => clamp_acts h, fun _ h => clamp_bypasses h,
    fun _ h => highz_acts h, fun _ h => highz_bypasses h, fun s _ => exec_defread s n, fun s _ => exec_resetBall s ok⟩

end Sys2Proof.Machine
end

section
/-! SUPPORT. Memory stays canonical (R26) through reads, arrivals, writes through the caches, translation, releases and acquires.
A lemma f_wf says of the operation f that it keeps MemWf. An operation that writes no memory keeps it by definition; one that goes
through other operations keeps it by their lemmas; where it branches, grind splits its branches and each ends in the lemma of the
operation that the branch runs (!g_wf brings in the lemma of an operation g that gives a pair). -/

namespace Sys2Proof.Machine

/-- The memory of a state has the canonical form. -/
abbrev MemWf (s : State) : Prop := Memory.wf s.mem = true

variable {s : State}

theorem foldl_wf {α : Type} {f : State → α → State} {l : List α} (hf : ∀ t a, MemWf t → MemWf (f t a)) (hs : MemWf s) :
    MemWf (l.foldl f s) := foldl_keeps hf l s hs

theorem foldl_snd_wf {α β : Type} {f : β × State → α → β × State} {l : List α} {b : β × State}
    (hf : ∀ b a, MemWf b.2 → MemWf (f b a).2) (hb : MemWf b.2) : MemWf (l.foldl f b).2 :=
  foldl_keeps (P := fun b => MemWf b.2) hf l b hb

theorem foldl_work_wf {α : Type} {f : Work → α → Work} {l : List α} {w : Work} (hf : ∀ v a, MemWf v.s → MemWf (f v a).s)
    (hw : MemWf w.s) : MemWf (l.foldl f w).s := foldl_keeps (P := fun v => MemWf v.s) hf l w hw

theorem foldl_fst_wf {α β : Type} {f : Work × β → α → Work × β} {l : List α} {b : Work × β}
    (hf : ∀ b a, MemWf b.1.s → MemWf (f b a).1.s) (hb : MemWf b.1.s) : MemWf (l.foldl f b).1.s :=
  foldl_keeps (P := fun b => MemWf b.1.s) hf l b hb

theorem ite_wf {c : Prop} [Decidable c] {t u : State} (ht : MemWf t) (hu : MemWf u) : MemWf (if c then t else u) := by
  split
  · exact ht
  · exact hu

theorem Work.ite_wf {c : Prop} [Decidable c] {v w : Work} (hv : MemWf v.s) (hw : MemWf w.s) : MemWf (if c then v else w : Work).s := by
  split
  · exact hv
  · exact hw

/-- The state of a pair that an operation gave. -/
theorem snd_wf {α : Type} {p : α × State} {a : α} {t : State} (he : p = (a, t)) (h : MemWf p.2) : MemWf t := by
  subst he
  exact h

/-- A statement about one value, from the statement about every value. A proof goes through it where the kernel must not compute
with the value: inside the proof the value is a variable. -/
theorem of_every {α : Type} {motive : α → Prop} (every : ∀ a, motive a) (a : α) : motive a := every a

theorem updTask_wf {c i f} (hs : MemWf s) : MemWf (State.updTask s c i f) := hs

theorem parkGroup_wf {key pc ts run} (hs : MemWf s) : MemWf (parkGroup s key pc ts run) := by
  grind [parkGroup, State.updHeat_mem]

theorem raise_wf {key pc ts} (hs : MemWf s) : MemWf (raise s key pc ts) := by
  grind [raise, parkGroup_wf, foldl_wf]

theorem settleBar_wf {unit team n} (hs : MemWf s) : MemWf (State.settleBar s unit team n) := by
  grind [State.settleBar, State.updTeam_mem]

theorem settleBars_wf {key} (hs : MemWf s) : MemWf (State.settleBars s key) := by
  grind [State.settleBars, settleBar_wf, foldl_wf]

theorem arrive_wf {h n count} (hs : MemWf s) : MemWf (State.arrive s h n count) := settleBar_wf hs

theorem l1Drop_wf {core p} (hs : MemWf s) : MemWf (State.l1Drop s core p) := hs

theorem roomL1_wf {core line} (hs : MemWf s) : MemWf (State.roomL1 s core line) := by
  grind [State.roomL1, l1Drop_wf]

theorem ask_wf {die sec own} (hs : MemWf s) : MemWf (State.ask s die sec own) := by
  grind [State.ask]

theorem dieWrite_wf {die pa bs copy} (hs : MemWf s) : MemWf (State.dieWrite s die pa bs copy) := by
  grind [State.dieWrite, ask_wf, l2Write_wf]

theorem dropHolder_wf {sec die} (hs : MemWf s) : MemWf (State.dropHolder s sec die) := by
  grind [State.dropHolder, putHolders_mem]

theorem orPte_wf {pte i} (hs : MemWf s) : MemWf (State.orPte s pte i) := by
  grind [State.orPte, cohPut_wf]

theorem enterCore_wf {core e} (hs : MemWf s) : MemWf (s.enterCore core e) := by
  cases core <;> grind [State.enterCore]

theorem enterDie_wf {e} (hs : MemWf s) : MemWf (State.enterDie s e) := by
  grind [State.enterDie]

theorem translate_wf {ctx die core va use} (hs : MemWf s) : MemWf (State.translate s ctx die core va use).2 := by
  grind [State.translate, enterCore_wf, orPte_wf, enterDie_wf]

theorem tlbDrop_wf {ctx lo hi} (hs : MemWf s) : MemWf (State.tlbDrop s ctx lo hi) := hs

theorem vread_wf {ctx die va n} (hs : MemWf s) : MemWf (State.vread s ctx die va n).2 := by
  grind [State.vread, !translate_wf]

theorem bankIn_wf {ctx origin pa} (hs : MemWf s) : MemWf (State.bankIn s ctx origin pa) := hs

theorem bankOr_wf {ctx origin g} (hs : MemWf s) : MemWf (State.bankOr s ctx origin g) := hs

theorem invalidateAll_wf {ctx core} (hs : MemWf s) : MemWf (State.invalidateAll s ctx core) := hs

theorem applySig_wf {ctx core g} (hs : MemWf s) : MemWf (State.applySig s ctx core g) := by
  grind [State.applySig, invalidateAll_wf, bankOr_wf, l1Drop_wf]

theorem applySlots_wf {ctx core o last qs} (hs : MemWf s) : MemWf (s.applySlots ctx core o last qs) := by
  induction qs generalizing s with
  | nil => exact hs
  | cons q qs ih => grind [State.applySlots, applySig_wf, invalidateAll_wf]

theorem acquireSeq_wf {ctx core o q delta} (hs : MemWf s) : MemWf (State.acquireSeq s ctx core o q delta) := by
  grind [State.acquireSeq, invalidateAll_wf, State.updCtx_mem, applySlots_wf]

theorem acquireSync_wf {ctx core x} (hs : MemWf s) : MemWf (State.acquireSync s ctx core x) := acquireSeq_wf hs

theorem acquireObj_wf {ctx core pa} (hs : MemWf s) : MemWf (State.acquireObj s ctx core pa) := acquireSync_wf hs

theorem deposit_wf {ctx origin sc d obj flags} (hs : MemWf s) : MemWf (s.deposit ctx origin sc d obj flags) := by
  unfold State.deposit
  grind [ownWrite_wf, l1Drop_wf, State.updCtx_mem]

theorem releaseNow_wf {ctx origin sc obj flags} (hs : MemWf s) : MemWf (s.releaseNow ctx origin sc obj flags) := by
  unfold State.releaseNow
  grind [deposit_wf, State.updCtx_mem]

theorem capture_wf {ctx origin} (hs : MemWf s) : MemWf (State.capture s ctx origin) := by
  grind [State.capture, State.updCtx_mem]

theorem enqueueRel_wf {r} (hs : MemWf s) : MemWf (State.enqueueRel s r) := capture_wf hs

theorem mergeFlags_wf {key l fl} (hs : MemWf s) : MemWf (State.mergeFlags s key l fl) := by
  grind [State.mergeFlags, State.updHeat_mem, State.updRun_mem]

end Sys2Proof.Machine
end

section
/-! SUPPORT. Memory stays canonical (R26) through colours, tasks and the issue of an instruction. -/

namespace Sys2Proof.Machine

variable {s : State}

theorem setMonQ_wf {ctx colour q} (hs : MemWf s) : MemWf (State.setMonQ s ctx colour q) := by
  grind [State.setMonQ, cohWrite_wf, State.updCtx_mem]

theorem setOwner_wf {ctx colour tid} (hs : MemWf s) : MemWf (State.setOwner s ctx colour tid) := by
  grind [State.setOwner, cohPut_wf]

theorem setAbandoned_wf {pa b} (hs : MemWf s) : MemWf (State.setAbandoned s pa b) := by
  grind [State.setAbandoned, cohPut_wf]

theorem findEntry_wf {h colour} (hs : MemWf s) : MemWf (State.findEntry s h colour).2 := by
  grind [State.findEntry, !translate_wf]

theorem finishAcquire_wf {h l colour depth pa} (hs : MemWf s) : MemWf (State.finishAcquire s h l colour depth pa).2 := by
  grind [State.finishAcquire, State.updLane_mem, acquireObj_wf]

theorem acquireColour_wf {key l colour} (hs : MemWf s) : MemWf (State.acquireColour s key l colour).2 := by
  grind [State.acquireColour, !finishAcquire_wf, setMonQ_wf, setOwner_wf, !findEntry_wf]

theorem handOver_wf {ctx colour} (hs : MemWf s) : MemWf (State.handOver s ctx colour) := by
  grind [State.handOver, setMonQ_wf, setOwner_wf]

theorem leaveQueues_wf {key l} (hs : MemWf s) : MemWf (State.leaveQueues s key l) := by
  grind [State.leaveQueues, setMonQ_wf, handOver_wf, foldl_wf]

theorem handOnAll_wf {key l} (hs : MemWf s) : MemWf (State.handOnAll s key l) := foldl_wf (fun _ _ h => handOver_wf h) (leaveQueues_wf hs)

theorem queueRelease_wf {h l colour pa} (hs : MemWf s) : MemWf (State.queueRelease s h l colour pa) := enqueueRel_wf hs

theorem releaseColours_wf {key l target cs} (hs : MemWf s) : MemWf (State.releaseColours key l target cs s) := by
  induction cs generalizing s with
  | nil => exact settleBars_wf hs
  | cons c cs ih => grind [State.releaseColours, State.updLane_mem, handOver_wf, queueRelease_wf]

theorem fallAsleep_wf {key l c} (hs : MemWf s) : MemWf (State.fallAsleep s key l c) := setMonQ_wf hs

theorem afterRelease_wf {key l c} (hs : MemWf s) : MemWf (State.afterRelease s key l c) := by
  grind [State.afterRelease, State.updLane_mem, handOver_wf, fallAsleep_wf, releaseColours_wf]

theorem beginMwait_wf {key l c} (hs : MemWf s) : MemWf (State.beginMwait s key l c) := by
  grind [State.beginMwait, queueRelease_wf, afterRelease_wf]

theorem retryRelease_wf {key l} (hs : MemWf s) : MemWf (State.retryRelease s key l) := by
  grind [State.retryRelease, beginMwait_wf, releaseColours_wf]

theorem opDone_wf {id l} (hs : MemWf s) : MemWf (State.opDone s id l) := by
  grind [State.opDone, State.updHeat_mem]

theorem dropAccesses_wf {key l} (hs : MemWf s) : MemWf (State.dropAccesses s key l) := foldl_wf (fun _ _ h => opDone_wf h) hs

theorem seat_wf {card task} (hs : MemWf s) : MemWf (State.seat s card task) := by
  grind [State.seat, updTask_wf]

theorem makeReady_wf {card task} (hs : MemWf s) : MemWf (State.makeReady s card task) := seat_wf hs

theorem entriesFreed_wf (hs : MemWf s) : MemWf (State.entriesFreed s) := foldl_wf (fun _ _ h => seat_wf h) hs

theorem requeue_wf {card task} (hs : MemWf s) : MemWf (State.requeue s card task) := by
  grind [State.requeue, State.updCard_mem, makeReady_wf, updTask_wf]

theorem setEdge_wf {ctx va lap running done} (hs : MemWf s) : MemWf (State.setEdge s ctx va lap running done) := by
  grind [State.setEdge, cohPut_wf]

theorem markRunning_wf {ctx die arec} (hs : MemWf s) : MemWf (State.markRunning s ctx die arec) := foldl_wf (fun _ _ h => setEdge_wf h) hs

theorem startRun_wf {run first} (hs : MemWf s) : MemWf (State.startRun s run first) := by
  grind [State.startRun, acquireSeq_wf, invalidateAll_wf, State.updUnit_mem, State.updRun_mem, foldl_wf]

theorem freeTokens_wf {run} (hs : MemWf s) : MemWf (State.freeTokens s run) := hs

theorem withdraw_wf {run keep} (hs : MemWf s) : MemWf (State.withdraw s run keep) := hs

theorem abortCommon_wf {run keep} (hs : MemWf s) : MemWf (State.abortCommon s run keep) := by
  grind [State.abortCommon, dropAccesses_wf, withdraw_wf, State.updRun_mem, handOnAll_wf, foldl_wf]

theorem exitLanes_wf {r} (hs : MemWf s) : MemWf (State.exitLanes s r) := by
  grind [State.exitLanes, State.updLane_mem, settleBars_wf, State.updHeat_mem, foldl_wf]

theorem nextOfChunk_wf {run} (hs : MemWf s) : MemWf (State.nextOfChunk s run) := by
  grind [State.nextOfChunk, startRun_wf, exitLanes_wf, updTask_wf]

theorem awaitTokens_wf {run} (hs : MemWf s) : MemWf (State.awaitTokens s run) := by
  grind [State.awaitTokens, State.updLane_mem, foldl_wf]

theorem rerun_wf {run irrevocable} (hs : MemWf s) : MemWf (State.rerun s run irrevocable) := by
  grind [State.rerun, startRun_wf, State.updRun_mem, awaitTokens_wf]

theorem abort_wf {run kind} (hs : MemWf s) : MemWf (State.abort s run kind) := by
  grind [State.abort, nextOfChunk_wf, abortCommon_wf, rerun_wf, requeue_wf, updTask_wf]

theorem decrement_wf {ctx die arec} (hs : MemWf s) : MemWf (State.decrement s ctx die arec).2 := by
  grind [State.decrement, !translate_wf, cohPut_wf]

theorem fireEdge_wf {ctx die va e lap pair} (hs : MemWf s) : MemWf (State.fireEdge s ctx die va e lap pair).2 := by
  grind [State.fireEdge, cohPut_wf, makeReady_wf, !decrement_wf, updTask_wf]

theorem postDealer_wf {die d x addr} (hs : MemWf s) : MemWf (State.postDealer s die d x addr) := by
  grind [State.postDealer]

theorem failOne_wf {card die} (hs : MemWf s) : MemWf (State.failOne s card die).2 := by
  grind [State.failOne, State.updCard_mem, postDealer_wf, cohPut_wf, abortCommon_wf, !fireEdge_wf, freeTokens_wf, exitLanes_wf, foldl_wf,
    foldl_snd_wf]

theorem failCards_wf {n l} (hs : MemWf s) : MemWf (State.failCards n l s) := by
  induction n generalizing l s with
  | zero => exact hs
  | succ n ih => grind [State.failCards, !failOne_wf]

theorem failCard_wf {card die} (hs : MemWf s) : MemWf (State.failCard s card die) := entriesFreed_wf (failCards_wf hs)

theorem fetchWord_wf {h pc} (hs : MemWf s) : MemWf (State.fetchWord s h pc).2 := by
  grind [State.fetchWord, !translate_wf]

theorem beginHalt_wf {ctx} (hs : MemWf s) : MemWf (State.beginHalt s ctx) := hs

theorem raiseAll_wf {key pc ts} (hs : MemWf s) : MemWf (raiseAll s key pc ts) := by
  grind [raiseAll, beginHalt_wf, abort_wf, raise_wf, foldl_wf]

theorem checkJoin_wf {key} (hs : MemWf s) : MemWf (checkJoin s key) := by
  grind [checkJoin, raise_wf, foldl_wf]

theorem ready_wf {h ls x} (hs : MemWf s) : MemWf (ready s h ls x) := by
  grind [ready, State.updLane_mem, acquireSeq_wf, raise_wf, foldl_wf]

theorem prepare_wf {n key aside} (hs : MemWf s) : MemWf (prepare n key aside s) := by
  induction n generalizing aside s with
  | zero => exact hs
  | succ n ih =>
    have hj : MemWf (checkJoin (s.updHeat key (fun h => (s.gather h).wake)) key) := checkJoin_wf hs
    unfold prepare
    dsimp only
    split
    · exact hj
    · split
      · split
        · exact ih hj
        · exact hj
      · split <;> grind [raiseAll_wf, !fetchWord_wf, ready_wf, State.updHeat_mem, raise_wf]

theorem Work.trap_wf {w l t} (hw : MemWf w.s) : MemWf (Work.trap w l t).s := hw

theorem Work.trapAll_wf {w ls t} (hw : MemWf w.s) : MemWf (Work.trapAll w ls t).s := hw

theorem Work.hold_wf {w l} (hw : MemWf w.s) : MemWf (Work.hold w l).s := hw

theorem Work.stallWith_wf {e f} (he : MemWf e.base) (hf : ∀ t, MemWf t → MemWf (f t)) : MemWf (Work.stallWith e f).s := by
  grind [Work.stallWith]

theorem Work.block_wf {w e l x} (hw : MemWf w.s) : MemWf (Work.block w e l x).s := hw

theorem enterBlock_wf {x} (hs : MemWf s) : MemWf (enterBlock s x) := by
  grind [enterBlock, State.updHeat_mem]

theorem finish_wf {e h0 w} (hw : MemWf w.s) : MemWf (finish e h0 w) := by
  grind [finish, raiseAll_wf, settleBars_wf, State.updHeat_mem]

theorem issue_wf {i body t} (hs : MemWf s) (hbody : ∀ e v, MemWf e.base → MemWf v.s → MemWf (body e v).s) :
    issue i s body = .next t → MemWf t := by
  grind [issue, Work.trapAll_wf, finish_wf, Work.stallWith_wf, enterBlock_wf]

theorem issueIllegal_wf (hs : MemWf s) : MemWf (issueIllegal s) := by
  grind [issueIllegal, Work.trapAll_wf, finish_wf, enterBlock_wf]

theorem Env.compute_wf {e wide d f w} (hw : MemWf w.s) : MemWf (Env.compute e wide d f w).s := foldl_wf (fun _ _ h => mergeFlags_wf h) hw

end Sys2Proof.Machine
end

section
/-! SUPPORT. Memory stays canonical (R26) through control, loads, stores, atomics, synchronisation, rings and copies. -/

namespace Sys2Proof.Machine

variable {s : State}

theorem Env.each_wf {e f w} (hf : ∀ v a, MemWf v.s → MemWf (f v a).s) (hw : MemWf w.s) : MemWf (Env.each e f w).s := by
  grind [Env.each, foldl_work_wf]

theorem Work.goto_wf {w e l t f} (hw : MemWf w.s) : MemWf (Work.goto w e l t f).s := hw

theorem Work.call_wf {w e l link t} (hw : MemWf w.s) : MemWf (Work.call w e l link t).s := by
  grind [Work.call, Work.trap_wf, Work.goto_wf]

theorem joinRec_wf {key pc ts run p} (hs : MemWf s) : MemWf (joinRec s key pc ts run p) := by
  grind [joinRec, State.updHeat_mem]

theorem parkLate_wf {o ts} (hs : MemWf s) : MemWf (State.parkLate s o ts) := by
  grind [State.parkLate, parkGroup_wf, joinRec_wf, foldl_wf]

theorem flushLate_wf {id} (hs : MemWf s) : MemWf (State.flushLate s id) := by
  grind [State.flushLate, parkLate_wf, State.updLane_mem, opDone_wf, leaveQueues_wf, foldl_wf]

theorem lateTraps_wf {id ts} (hs : MemWf s) : MemWf (State.lateTraps s id ts) := flushLate_wf hs

theorem flushAll_wf (hs : MemWf s) : MemWf (State.flushAll s) := foldl_wf (fun _ _ h => flushLate_wf h) hs

theorem readSig_wf {key l pa} (hs : MemWf s) : MemWf (State.readSig s key l pa) := by
  grind [State.readSig, State.updRun_mem]

theorem writeSig_wf {key l pa} (hs : MemWf s) : MemWf (State.writeSig s key l pa) := by
  grind [State.writeSig, State.updRun_mem]

theorem finishLoad_wf {key a bs} (hs : MemWf s) : MemWf (State.finishLoad s key a bs) := by
  grind [State.finishLoad, opDone_wf, State.updHeat_mem]

theorem l1Patch_wf {core pa bs} (hs : MemWf s) : MemWf (State.l1Patch s core pa bs) := by
  grind [State.l1Patch]

theorem writeThrough_wf {core pa bs} (hs : MemWf s) : MemWf (State.writeThrough s core pa bs) := dieWrite_wf (l1Patch_wf hs)

theorem storeThrough_wf {ctx core pa bs} (hs : MemWf s) : MemWf (State.storeThrough s ctx core pa bs) := writeThrough_wf hs

theorem storeTask_wf {r pa bs nopre} (hs : MemWf s) : MemWf (State.storeTask s r pa bs nopre) := hs

theorem doStore_wf {key core a bs} (hs : MemWf s) : MemWf (State.doStore s key core a bs) := by
  grind [State.doStore, storeTask_wf, writeSig_wf, storeThrough_wf]

theorem clearPoison_wf {accs} (hs : MemWf s) : MemWf (State.clearPoison s accs) := by
  grind [State.clearPoison]

theorem rmwNear_wf {key core a bs} (hs : MemWf s) : MemWf (State.rmwNear s key core a bs) := by
  grind [State.rmwNear, mergeFlags_wf, writeThrough_wf, readSig_wf, writeSig_wf, finishLoad_wf]

theorem translateAccs_wf {ctx core use accs cache} (hs : MemWf s) : MemWf (State.translateAccs ctx core use accs cache s).2 := by
  induction accs generalizing cache s with
  | nil => exact hs
  | cons a as ih => grind [State.translateAccs, !translate_wf]

theorem beginSaves_wf {ctx serial chunks} (hs : MemWf s) : MemWf (State.beginSaves s ctx serial chunks) := hs

theorem sendReleases_wf {h accs} (hs : MemWf s) : MemWf (s.sendReleases h accs) := by
  unfold State.sendReleases
  refine foldl_wf (fun b pa hb => ?_) (foldl_wf (fun _ _ hb => enqueueRel_wf hb) hs)
  grind [opDone_wf, enqueueRel_wf, foldl_wf]

theorem pendCpyw_wf {h accs} (hs : MemWf s) : MemWf (State.pendCpyw s h accs) := by
  grind [State.pendCpyw, opDone_wf, State.updHeat_mem, foldl_wf]

theorem sendReqs_wf {h strm accs} (hs : MemWf s) : MemWf (State.sendReqs s h strm accs) := by
  grind [State.sendReqs, sendReleases_wf, ask_wf, pendCpyw_wf, bankIn_wf, foldl_wf]

theorem nearAccess_wf {h acc a} (hacc : MemWf acc.2) : MemWf (State.nearAccess h acc a).2 := by
  grind [State.nearAccess, opDone_wf, readSig_wf, writeSig_wf, finishLoad_wf, rmwNear_wf, doStore_wf, bankIn_wf]

theorem access_wf {s0 h noBreak nopre strm accs} (hs0 : MemWf s0) : MemWf (State.access s0 h noBreak nopre strm accs).s := by
  grind [State.access, !translateAccs_wf, !nearAccess_wf, clearPoison_wf, sendReqs_wf, foldl_snd_wf]

theorem Env.setRec_wf {e d x w} (hw : MemWf w.s) : MemWf (Env.setRec e d x w).s := by
  grind [Env.setRec, State.updHeat_mem]

theorem fillL1_wf {core sec strm} (hs : MemWf s) : MemWf (State.fillL1 s core sec strm) := roomL1_wf hs

theorem loadNow_wf {key core l pa n t} (ht : State.loadNow s key core l pa n = some t) (hs : MemWf s) : MemWf t.2 := by
  grind [State.loadNow, fillL1_wf]

theorem endpoint_wf {ctx die h} (hs : MemWf s) : MemWf (State.endpoint s ctx die h).2 := by
  grind [State.endpoint, State.updCtx_mem]

theorem updPort_wf {p f} (hs : MemWf s) : MemWf (State.updPort s p f) := hs

theorem sendRemote_wf {h handle entry copy accs} (hs : MemWf s) : MemWf (State.sendRemote s h handle entry copy accs) := hs

theorem remoteAccess_wf {h rcd accs} (hs : MemWf s) : MemWf (State.remoteAccess s h rcd accs).s := by
  grind [State.remoteAccess, !endpoint_wf, sendRemote_wf, foldl_wf]

theorem skipLanes_wf {key accs} (hs : MemWf s) : MemWf (State.skipLanes s key accs) := foldl_wf (fun _ _ h => finishLoad_wf h) hs

theorem perform_wf {h noBreak rcd accs} (hs : MemWf s) : MemWf (State.perform s h noBreak rcd accs).s := by
  grind [State.perform, remoteAccess_wf, skipLanes_wf, access_wf]

theorem Work.irrevocably_wf {w e runs} (hw : MemWf w.s) : MemWf (Work.irrevocably w e runs).s := foldl_work_wf (fun _ _ h => abort_wf h) hw

theorem Work.fail_wf {w id ts} (hw : MemWf w.s) : MemWf (Work.fail w id ts).s := foldl_wf (fun _ _ h => opDone_wf h) hw

theorem Env.mark_wf {e} (hs : MemWf s) : MemWf (Env.mark e s) := hs

theorem Env.begin_wf {e w} (hw : MemWf w.s) : MemWf (Env.begin e w).2.s := by
  grind [Env.begin, Env.mark_wf, State.updHeat_mem]

theorem Env.accessBy_wf {e rcd chk op w} (he : MemWf e.base) (hw : MemWf w.s) : MemWf (Env.accessBy e rcd chk op w).s := by
  have hb : MemWf (e.begin w).2.s := Env.begin_wf hw
  unfold Env.accessBy
  lift_lets
  extract_lets chks lines colour
  split
  · exact Work.stallWith_wf he (fun _ h => h)
  · generalize e.begin w = b at hb ⊢
    obtain ⟨id, w⟩ := b
    dsimp only
    split
    · split
      · exact Work.stallWith_wf he (fun _ h => beginSaves_wf h)
      · exact Work.irrevocably_wf (Work.fail_wf (perform_wf (Work.fail_wf hb)))
    · grind [foldl_fst_wf, foldl_work_wf, !acquireColour_wf, Work.block_wf, Work.fail_wf, perform_wf, beginSaves_wf, Work.irrevocably_wf]

theorem Env.memory_wf {e rcd sz idx op k w} (he : MemWf e.base) (hw : MemWf w.s) : MemWf (Env.memory e rcd sz idx op k w).s := by
  grind [Env.memory, Env.accessBy_wf]

theorem Env.irrevocable_wf {e w body} (he : MemWf e.base) (hw : MemWf w.s) (hbody : ∀ e v, MemWf e.base → MemWf v.s → MemWf (body e v).s) :
    MemWf (Env.irrevocable e w body).s := by
  grind [Env.irrevocable, Work.irrevocably_wf]

theorem Env.store_wf {e rcd sz d idx w} (he : MemWf e.base) (hw : MemWf w.s) : MemWf (Env.store e rcd sz d idx w).s := by
  grind [Env.store, Env.memory_wf, Env.irrevocable_wf]

theorem Env.scratch_wf {e sz place op w} (he : MemWf e.base) (hop : ∀ t a b c, MemWf t → MemWf (op t a b c)) (hw : MemWf w.s) :
    MemWf (Env.scratch e sz place op w).s := by
  grind [Env.scratch, Env.mark_wf, Work.stallWith_wf, Work.trap_wf, foldl_work_wf]

theorem scrWrite_wf {u off bs} (hs : MemWf s) : MemWf (State.scrWrite s u off bs) := hs

theorem Env.quad_wf {e sz x pos op w} (he : MemWf e.base) (hop : ∀ t a b c, MemWf t → MemWf (op t a b c)) (hw : MemWf w.s) :
    MemWf (Env.quad e sz x pos op w).s := by
  grind [Env.quad, Work.stallWith_wf, Env.scratch_wf]

theorem prefetch_wf {core l2 strm line} (hs : MemWf s) : MemWf (State.prefetch s core l2 strm line) := by
  grind [State.prefetch, fillL1_wf, ask_wf, foldl_wf]

theorem Env.maintain_wf {e sz x b f w} (hf : ∀ t a, MemWf t → MemWf (f t a)) (hw : MemWf w.s) : MemWf (Env.maintain e sz x b f w).s := by
  grind [Env.maintain, !translateAccs_wf, Work.trap_wf, foldl_wf, foldl_work_wf]

theorem Work.awaitOp_wf {w e id} (hw : MemWf w.s) : MemWf (Work.awaitOp w e id).s := by
  grind [Work.awaitOp, State.updHeat_mem]

theorem Work.waitOn_wf {e mark} (he : MemWf e.base) : MemWf (Work.waitOn e mark).s := he

theorem Env.afterOwed_wf {e w f} (he : MemWf e.base) (hw : MemWf w.s) (hf : ∀ v, MemWf v.s → MemWf (f v).s) :
    MemWf (Env.afterOwed e w f).s := by
  grind [Env.afterOwed, Work.waitOn_wf]

theorem Env.afterCpyw_wf {e w f} (he : MemWf e.base) (hw : MemWf w.s) (hf : ∀ v, MemWf v.s → MemWf (f v).s) :
    MemWf (Env.afterCpyw e w f).s := by
  grind [Env.afterCpyw, Work.stallWith_wf]

theorem Env.releaseAt_wf {e sc rel w f} (he : MemWf e.base) (hw : MemWf w.s) (hf : ∀ v, MemWf v.s → MemWf (f v).s) :
    MemWf (Env.releaseAt e sc rel w f).s := by
  grind [Env.releaseAt, Env.afterCpyw_wf, Env.afterOwed_wf]

theorem Env.atomic_wf {e rcd sz idx op kind o sc y cmp d w} (he : MemWf e.base) (hw : MemWf w.s) :
    MemWf (Env.atomic e rcd sz idx op kind o sc y cmp d w).s := by
  grind [Env.atomic, Work.trapAll_wf, Env.releaseAt_wf, Env.irrevocable_wf, Work.awaitOp_wf, Env.accessBy_wf]

theorem updHid_wf {unit ring slot f} (hs : MemWf s) : MemWf (State.updHid s unit ring slot f) := hs

theorem ringFault_wf {unit ring slot} (hs : MemWf s) : MemWf (State.ringFault s unit ring slot) := hs

theorem Env.ringOp_wf {e a f w} (he : MemWf e.base) (hf : ∀ v a b, MemWf v.s → MemWf (f v a b).s) (hw : MemWf w.s) :
    MemWf (Env.ringOp e a f w).s := by
  grind [Env.ringOp, Work.trapAll_wf, Work.stallWith_wf]

theorem Env.handOn_wf {e st a w} (he : MemWf e.base) (hw : MemWf w.s) : MemWf (Env.handOn e st a w).s := by
  grind [Env.handOn, Work.trapAll_wf, scrWrite_wf, Env.ringOp_wf, State.updUnit_mem]

theorem wakeStage_wf {unit ring st} (hs : MemWf s) : MemWf (State.wakeStage s unit ring st) := by
  grind [State.wakeStage, State.updLane_mem, raiseAll_wf, updHid_wf, foldl_wf]

theorem wakeRing_wf {unit ring} (hs : MemWf s) : MemWf (State.wakeRing s unit ring) := by
  grind [State.wakeRing, wakeStage_wf]

theorem addCopy_wf {e colour slot unbound left parked} (hs : MemWf s) : MemWf (State.addCopy s e colour slot unbound left parked) := hs

theorem stampStart_wf {e out slot} (hs : MemWf s) : MemWf (s.stampStart e out slot) := by
  unfold State.stampStart
  grind [updHid_wf]

theorem copyElem_wf {a place write} (hs : MemWf s) (hwrite : ∀ t, MemWf t → MemWf (write t)) : MemWf (State.copyElem s a place write) := by
  grind [State.copyElem]

theorem sendCopies_wf {h out accs} (hs : MemWf s) : MemWf (State.sendCopies s h out accs) := by
  grind [State.sendCopies, foldl_wf]

theorem sendRemoteCopies_wf {h handle entry accs} (hs : MemWf s) : MemWf (State.sendRemoteCopies s h handle entry accs) :=
  foldl_wf (fun _ _ h => sendRemote_wf h) hs

theorem replay_wf {old pass replaying slot bound} (hs : MemWf s) : MemWf (State.replay s old pass replaying slot bound) := hs

theorem Env.copy_wf {e out sz o x ring b w} (he : MemWf e.base) (hw : MemWf w.s) : MemWf (Env.copy e out sz o x ring b w).s := by
  unfold Env.copy
  extract_lets rcd kind off chk old fresh binds bound causes good newId opOf acc accs skips lines unbound slot
  have hs : MemWf (if recRemote rcd then (accs.map (fun a => (a, Except.ok 0)), w.s)
      else State.translateAccs e.ctx e.core (if out then .write else .read) accs [] w.s).2 := by
    split
    · exact hw
    · exact translateAccs_wf hw
  generalize (if recRemote rcd then _ else _ : List (Acc × Except Cause Nat) × State) = p at hs ⊢
  obtain ⟨res, s⟩ := p
  have hs : MemWf (if recRemote rcd && !accs.isEmpty then s.endpoint e.ctx e.die (recEndpoint rcd) else (some [], s)).2 := by
    split
    · exact endpoint_wf hs
    · exact hs
  dsimp -zeta only
  generalize (if recRemote rcd && !accs.isEmpty then _ else _ : Option (List Byte) × State) = p at hs ⊢
  obtain ⟨en, s⟩ := p
  dsimp -zeta only
  extract_lets noEnd trapOf traps go pas chunks trapped s1 s2 s3 faults s4 s5 s6 s7 s8
  have h1 : MemWf s1 := ite_wf hs (addCopy_wf hs)
  have h2 : MemWf s2 := ite_wf (stampStart_wf h1) h1
  have h3 : MemWf s3 := replay_wf h2
  have h4 : MemWf s4 := foldl_wf (fun _ _ h => ringFault_wf h) h3
  have h5 : MemWf s5 := foldl_wf (fun _ _ h => opDone_wf (ite_wf h (copyElem_wf h (fun _ h => scrWrite_wf h)))) h4
  have h6 : MemWf s6 := ite_wf (foldl_wf (fun _ _ h => bankIn_wf (l1Drop_wf h)) h5) h5
  have h7 : MemWf s7 := sendCopies_wf h6
  have h8 : MemWf s8 := foldl_wf (fun _ _ h => ite_wf h (ask_wf h)) h7
  split
  · exact Work.stallWith_wf he (fun _ h => h)
  · split
    · exact Work.stallWith_wf he (fun _ h => beginSaves_wf h)
    · split
      · exact sendRemoteCopies_wf h5
      · exact h8

end Sys2Proof.Machine
end

section
/-! SUPPORT. Memory stays canonical (R26) through the arrays, the monitors, the tasks, the kills and the service forms. -/

namespace Sys2Proof.Machine

variable {s : State}

theorem results_wf {o f} (hs : MemWf s) : MemWf (State.results s o f) := by
  grind [State.results, State.updLane_mem, opDone_wf, foldl_wf]

theorem signed_wf {o} (hs : MemWf s) : MemWf (State.signed s o) := by
  grind [State.signed, opDone_wf, foldl_wf]

theorem perform1_wf {core arr o} (hs : MemWf s) : MemWf (State.perform1 s core arr o) := by
  grind [State.perform1, signed_wf, scrWrite_wf, State.updArray_mem, State.updHeat_mem, results_wf]

theorem matrixStep_wf {core arr} (hs : MemWf s) : MemWf (State.matrixStep s core arr) := by
  grind [State.matrixStep, perform1_wf, State.updArray_mem, lateTraps_wf, foldl_wf]

theorem fullySigned_wf {u t ctx serial m p mine} (hs : MemWf s) : MemWf (State.fullySigned s u t ctx serial m p mine).2 := by
  grind [State.fullySigned, State.updLane_mem, opDone_wf, raiseAll_wf, State.updTeam_mem, State.updArray_mem, foldl_wf]

theorem settleMarks_wf {unit team ctx serial} (hs : MemWf s) : MemWf (s.settleMarks unit team ctx serial) := by
  unfold State.settleMarks
  refine foldl_wf (fun b pa hb => ?_) hs
  grind [!fullySigned_wf]

theorem Env.sign_wf {e m f a w} (he : MemWf e.base) (hw : MemWf w.s) : MemWf (Env.sign e m f a w).s := by
  grind [Env.sign, Work.trapAll_wf, Env.each_wf, Work.stallWith_wf, State.updTeam_mem, !fullySigned_wf, Work.block_wf, !Env.begin_wf]

theorem Env.setMark_wf {e m x w} (hw : MemWf w.s) : MemWf (Env.setMark e m x w).s := by
  grind [Env.setMark, Work.trapAll_wf, State.updTeam_mem]

theorem trapBlocked_wf {key l t} (hs : MemWf s) : MemWf (State.trapBlocked s key l t) := raiseAll_wf hs

theorem retryAccess_wf {key l a} (hs : MemWf s) : MemWf (State.retryAccess s key l a) := by
  grind [State.retryAccess, State.updLane_mem, beginSaves_wf, opDone_wf, abort_wf, skipLanes_wf, trapBlocked_wf, access_wf]

theorem retrySlots_wf (hs : MemWf s) : MemWf (State.retrySlots s) := foldl_wf (fun _ _ h => retryAccess_wf h) hs

theorem claim_wf {key l cs} (hs : MemWf s) : MemWf (State.claim key l cs s).2 := by
  induction cs generalizing s with
  | nil => exact hs
  | cons c cs ih => grind [State.claim, State.updLane_mem, !acquireColour_wf]

theorem wakeSleeper_wf {ctx c v notified} (hs : MemWf s) : MemWf (State.wakeSleeper s ctx c v notified) := by
  grind [State.wakeSleeper, State.updLane_mem, setMonQ_wf, handOver_wf]

theorem Env.note_wf {e a all w} (hw : MemWf w.s) : MemWf (Env.note e a all w).s := by
  grind [Env.note, Env.each_wf, Work.trap_wf, wakeSleeper_wf, foldl_wf]

theorem grant_wf {ctx c} (hs : MemWf s) : MemWf (s.grant ctx c) := by
  unfold State.grant
  split
  · exact hs
  split
  · split
    · split <;> grind [!finishAcquire_wf, retryAccess_wf, opDone_wf, trapBlocked_wf]
    · split
      · grind [!finishAcquire_wf, trapBlocked_wf]
      · split <;> grind [!finishAcquire_wf, !claim_wf, State.updLane_mem, trapBlocked_wf]
    · dsimp only
      split <;> grind [!finishAcquire_wf, State.updLane_mem, trapBlocked_wf]
    · exact hs
  · exact hs

theorem mwaitExpire_wf {key l} (hs : MemWf s) : MemWf (State.mwaitExpire s key l) := by
  grind [State.mwaitExpire, wakeSleeper_wf]

theorem abandonAll_wf {h l} (hs : MemWf s) : MemWf (State.abandonAll s h l) := by
  grind [State.abandonAll, State.updLane_mem, queueRelease_wf, leaveQueues_wf, setAbandoned_wf, foldl_wf]

theorem killColours_wf {key l} (hs : MemWf s) : MemWf (State.killColours s key l) := by
  grind [State.killColours, abandonAll_wf, handOnAll_wf]

theorem trapLanes_wf {ls t} (hs : MemWf s) : MemWf (State.trapLanes s ls t) := foldl_wf (fun _ _ h => raiseAll_wf h) hs

theorem Env.at_wf {e va n wr} (hs : MemWf s) : MemWf (Env.at e s va n wr).2 := by
  grind [Env.at, !translate_wf]

theorem enterCard_wf {c die} (hs : MemWf s) : MemWf (State.enterCard s c die) := by
  grind [State.enterCard, failCard_wf, makeReady_wf, foldl_wf]

theorem Env.spawn_wf {e a w l} (hw : MemWf w.s) : MemWf (Env.spawn e a w l).s := by
  unfold Env.spawn
  extract_lets va
  split
  · exact Work.trap_wf hw
  · split <;> rename_i h
    · exact Work.trap_wf (snd_wf h (Env.at_wf hw))
    · have h1 := snd_wf h (Env.at_wf hw)
      refine Work.ite_wf (Work.trap_wf h1) ?_
      extract_lets c
      split <;> rename_i h2
      · exact Work.trap_wf (snd_wf h2 (Env.at_wf h1))
      · have h3 := snd_wf h2 (Env.at_wf h1)
        split
        · exact Work.trap_wf h3
        · exact Work.ite_wf (Work.block_wf h3) (enterCard_wf (s := { State.releaseNow _ _ _ _ _ _ with nid := _ }) (releaseNow_wf h3))

theorem tryCommit_wf {run} (hs : MemWf s) : MemWf (State.tryCommit s run) := by
  grind [State.tryCommit, State.updRun_mem]

theorem judgeLap_wf {r j fin} (hs : MemWf s) : MemWf (State.judgeLap s r j fin).2 := by
  grind [State.judgeLap, !translate_wf]

theorem tryPublish_wf {run} (hs : MemWf s) : MemWf (s.tryPublish run) := by
  unfold State.tryPublish
  grind [State.updLane_mem, trapLanes_wf, State.updRun_mem, !judgeLap_wf, foldl_wf]

theorem Env.once_wf {e a al n wr w f} (hw : MemWf w.s) (hf : ∀ v a b, MemWf v.s → MemWf (f v a b).s) :
    MemWf (Env.once e a al n wr w f).s := by
  grind [Env.once, Work.trapAll_wf, !Env.at_wf]

theorem Env.lap_wf {e a w f} (hw : MemWf w.s) (hf : ∀ a t, MemWf t → MemWf (f a t)) : MemWf (Env.lap e a w f).s := by
  grind [Env.lap, Work.trapAll_wf, acquireObj_wf, Env.once_wf, readSig_wf, foldl_wf]

theorem Env.abortTasks_wf {e f w} (hf : ∀ t a, MemWf t → MemWf (f t a)) (hw : MemWf w.s) : MemWf (Env.abortTasks e f w).s := by
  grind [Env.abortTasks, Env.each_wf, Work.trap_wf, Work.hold_wf]

theorem grantToken_wf {die} (hs : MemWf s) : MemWf (State.grantToken s die) := by
  grind [State.grantToken, State.updLane_mem, State.updRun_mem, foldl_wf]

theorem broadcast_wf {r consumers} (hs : MemWf s) : MemWf (State.broadcast s r consumers) := foldl_wf (fun _ _ h => abort_wf h) hs

theorem drainTask_wf {r die} (hs : MemWf s) : MemWf (State.drainTask s r die) := by
  grind [State.drainTask, ownWrite_wf, bankIn_wf, foldl_wf]

theorem fire_wf {die card task va e lap pair} (hs : MemWf s) : MemWf (State.fire s die card task va e lap pair) := by
  grind [State.fire, postDealer_wf, failCard_wf, !fireEdge_wf]

theorem reopen_wf {c} (hs : MemWf s) : MemWf (State.reopen s c) := by
  grind [State.reopen, State.updCard_mem]

theorem refire_wf {card task a pair} (hs : MemWf s) : MemWf (State.refire s card task a pair) := by
  grind [State.refire, abort_wf, makeReady_wf, requeue_wf, reopen_wf, updTask_wf]

theorem retireTask_wf {card task} (hs : MemWf s) : MemWf (State.retireTask s card task) := by
  grind [State.retireTask, entriesFreed_wf, updTask_wf]

theorem edgeAt_wf {die card task a final pair edge} (hs : MemWf s) : MemWf (s.edgeAt die card task a final pair edge) := by
  unfold State.edgeAt
  grind [fire_wf, setEdge_wf, refire_wf]

theorem committed_wf {r lapIn} (hs : MemWf s) : MemWf (State.committed s r lapIn).2 := by
  grind [State.committed, setEdge_wf, foldl_snd_wf]

theorem releaseColourNow_wf {key core l c} (hs : MemWf s) : MemWf (State.releaseColourNow s key core l c) := by
  grind [State.releaseColourNow, State.updLane_mem, handOver_wf, releaseNow_wf]

theorem reenter_wf (hs : MemWf s) : MemWf (State.reenter s) := hs

theorem groupFlags_wf {r} (hs : MemWf s) : MemWf (State.groupFlags s r) := by
  grind [State.groupFlags]

theorem finishCommit_wf {r c die} (hs : MemWf s) : MemWf (State.finishCommit s r c die) := by
  grind [State.finishCommit, fire_wf, !committed_wf, releaseColourNow_wf, drainTask_wf, nextOfChunk_wf, groupFlags_wf, releaseNow_wf,
    retireTask_wf, freeTokens_wf, reenter_wf, refire_wf, updTask_wf, foldl_wf]

theorem commitStep_wf {die} (hs : MemWf s) : MemWf (State.commitStep s die) := by
  grind [State.commitStep, finishCommit_wf, beginSaves_wf, broadcast_wf, abort_wf]

theorem publishLap_wf {r c die a fin} (hs : MemWf s) : MemWf (State.publishLap s r c die a fin) := by
  grind [State.publishLap, State.updLane_mem, drainTask_wf, trapLanes_wf, groupFlags_wf, cohPut_wf, releaseNow_wf, State.updRun_mem, edgeAt_wf,
    foldl_wf]

theorem lapStep_wf {die} (hs : MemWf s) : MemWf (State.lapStep s die) := by
  grind [State.lapStep, publishLap_wf, beginSaves_wf, broadcast_wf, abort_wf, setEdge_wf, refire_wf, foldl_wf]

theorem endSettle_wf {kl} (hs : MemWf s) : MemWf (State.endSettle s kl) := by
  grind [State.endSettle, State.updLane_mem, !translate_wf, acquireObj_wf, trapBlocked_wf]

theorem settle_wf {ctx obj} (hs : MemWf s) : MemWf (State.settle s ctx obj) := by
  grind [State.settle, endSettle_wf, deposit_wf, entriesFreed_wf, foldl_wf]

theorem sweep_wf (hs : MemWf s) : MemWf (State.sweep s) := hs

theorem dropRec_wf {id} (hs : MemWf s) : MemWf (State.dropRec s id) := hs

theorem dropCopies_wf {key l} (hs : MemWf s) : MemWf (State.dropCopies s key l) := hs

theorem retryDealer_wf {r d} (hs : MemWf s) : MemWf (State.retryDealer s r d) := by
  grind [State.retryDealer, fire_wf, retireTask_wf, dropRec_wf]

theorem resumeLane_wf {key l skip acq} (hs : MemWf s) : MemWf (State.resumeLane s key l skip acq) := hs

theorem resumeRec_wf {r mask skip acq} (hs : MemWf s) : MemWf (State.resumeRec s r mask skip acq) := by
  grind [State.resumeRec, requeue_wf, resumeLane_wf, sweep_wf, dropRec_wf, retryDealer_wf, foldl_wf]

theorem dropBlocked_wf {key l} (hs : MemWf s) : MemWf (State.dropBlocked s key l) := by
  grind [State.dropBlocked, opDone_wf, foldl_wf]

theorem killHandoffs_wf {key} (hs : MemWf s) : MemWf (State.killHandoffs s key) := by
  grind [State.killHandoffs, State.updUnit_mem]

theorem killLane_wf {key l} (hs : MemWf s) : MemWf (State.killLane s key l) := by
  grind [State.killLane, dropBlocked_wf, State.updLane_mem, failCard_wf, dropCopies_wf, settleBars_wf, State.updHeat_mem, killHandoffs_wf,
    killColours_wf]

theorem killHeat_wf {key} (hs : MemWf s) : MemWf (State.killHeat s key) := by
  grind [State.killHeat, killLane_wf, foldl_wf]

theorem killKernel_wf {ctx serial} (hs : MemWf s) : MemWf (State.killKernel s ctx serial) := by
  grind [State.killKernel, failCard_wf, sweep_wf, State.updKernel_mem, killHeat_wf, foldl_wf]

theorem killRec_wf {r f} (hs : MemWf s) (hf : ∀ t a, MemWf t → MemWf (f t a)) : MemWf (State.killRec s r f) := by
  grind [State.killRec, failCard_wf, retireTask_wf, sweep_wf, dropRec_wf]

theorem Env.onRecords_wf {e h f w} (hf : ∀ v a b, MemWf v.s → MemWf (f v a b).s) (hw : MemWf w.s) : MemWf (Env.onRecords e h f w).s := by
  grind [Env.onRecords, Env.each_wf, Work.trap_wf]

theorem takeRecord_wf {key l} (hs : MemWf s) : MemWf (s.takeRecord key l) := by
  unfold State.takeRecord
  split
  · exact hs
  · split
    · grind [State.updLane_mem, beginSaves_wf, !translate_wf, trapBlocked_wf, storeThrough_wf]
    · exact hs

theorem serveFrames_wf (hs : MemWf s) : MemWf (State.serveFrames s) := foldl_wf (fun _ _ h => takeRecord_wf h) hs

theorem setSysField_wf {h field x} (hs : MemWf s) : MemWf (s.setSysField h field x) := by
  unfold State.setSysField
  grind [State.updHeat_mem, State.updCtx_mem]

theorem Env.afterFence_wf {e w f} (he : MemWf e.base) (hw : MemWf w.s) (hf : ∀ v, MemWf v.s → MemWf (f v).s) :
    MemWf (Env.afterFence e w f).s := by
  grind [Env.afterFence, Work.waitOn_wf]

theorem Env.discard_wf {e lo hi w} (hw : MemWf w.s) : MemWf (Env.discard e lo hi w).s := hw

theorem tlbinvDone_wf {key} (hs : MemWf s) : MemWf (State.tlbinvDone s key) := by
  grind [State.tlbinvDone, State.updHeat_mem]

theorem fieldUpdate_wf {die es} (hs : MemWf s) : MemWf (State.fieldUpdate s die es) := hs

theorem fieldBit_wf {die off i} (hs : MemWf s) : MemWf (State.fieldBit s die off i) := hs

end Sys2Proof.Machine
end

section
/-! SUPPORT. Memory stays canonical (R26) through the responses, the transport, launches, saves, faults and host messages. -/

namespace Sys2Proof.Machine

variable {s : State}

theorem late_wf {accs c} (hs : MemWf s) : MemWf (State.late s accs c) := by
  grind [State.late, ringFault_wf, lateTraps_wf, foldl_wf]

theorem rmwFar_wf {ctx key core a} (hs : MemWf s) : MemWf (State.rmwFar s ctx key core a) := by
  grind [State.rmwFar, mergeFlags_wf, finishLoad_wf, acquireSync_wf, l1Drop_wf, l2Write_wf]

theorem answer_wf {r a} (hs : MemWf s) : MemWf (State.answer r s a) := by
  grind [State.answer, rmwFar_wf, fillL1_wf, scrWrite_wf, opDone_wf, finishLoad_wf, rmwNear_wf, copyElem_wf, acquireSync_wf, l1Drop_wf, dieWrite_wf]

theorem retryReleases_wf {key} (hs : MemWf s) : MemWf (State.retryReleases s key) := by
  grind [State.retryReleases, retryRelease_wf, foldl_wf]

theorem freeReq_wf {r} (hs : MemWf s) : MemWf (State.freeReq s r) := retrySlots_wf hs

theorem respondLocal_wf {r} (hs : MemWf s) : MemWf (State.respondLocal s r) := by
  grind [State.respondLocal, answer_wf, freeReq_wf, ask_wf, late_wf, flushAll_wf, clearPoison_wf, foldl_wf]

theorem departs_wf {r handle} (hs : MemWf s) : MemWf (State.departs s r handle) := by
  grind [State.departs, !endpoint_wf]

theorem respondRemote_wf {r handle reply} (hs : MemWf s) : MemWf (s.respondRemote r handle reply) := by
  unfold State.respondRemote
  split
  · exact departs_wf hs
  · split
    · exact hs
    · refine flushAll_wf (freeReq_wf ?_)
      split
      · exact late_wf hs
      · exact foldl_wf (fun _ _ h => opDone_wf h) hs
      · refine foldl_wf (fun b a hb => ?_) hs
        grind [opDone_wf, copyElem_wf, scrWrite_wf, finishLoad_wf]

theorem respond_wf {id victim reply} (hs : MemWf s) : MemWf (State.respond s id victim reply) := by
  grind [State.respond, respondRemote_wf, respondLocal_wf, l1Drop_wf]

theorem applyLanes_wf {key v accs} (hs : MemWf s) : MemWf (s.applyLanes key v accs).1 := by
  induction accs generalizing s v with
  | nil => exact hs
  | cons a as ih => grind [State.applyLanes, mergeFlags_wf, finishLoad_wf]

theorem acquireInto_wf {ctx core pa d} (hs : MemWf s) : MemWf (State.acquireInto s ctx core pa d).1 := acquireObj_wf hs

theorem relValue_wf {r pa d} (hs : MemWf s) : MemWf (State.relValue s r pa d).1 := by
  grind [State.relValue, !applyLanes_wf, !acquireInto_wf]

theorem depositRel_wf {r d} (hs : MemWf s) : MemWf (State.depositRel s r d) := by
  grind [State.depositRel, late_wf, deposit_wf, !relValue_wf]

theorem releaseStep_wf {origin ctx} (hs : MemWf s) : MemWf (State.releaseStep s origin ctx) := by
  grind [State.releaseStep, ask_wf, depositRel_wf, flushAll_wf, afterRelease_wf, capture_wf]

theorem copyDone_wf {id} (hs : MemWf s) : MemWf (State.copyDone s id) := by
  grind [State.copyDone, retryReleases_wf]

theorem cpywAdd_wf {h a} (hs : MemWf s) : MemWf (State.cpywAdd h s a) := by
  grind [State.cpywAdd, fillL1_wf, enqueueRel_wf, rmwNear_wf, bankIn_wf]

theorem cpywStep_wf {key} (hs : MemWf s) : MemWf (State.cpywStep s key) := by
  grind [State.cpywStep, cpywAdd_wf, retryReleases_wf, ask_wf, State.updHeat_mem, foldl_wf]

theorem reread_wf {key l last} (hs : MemWf s) : MemWf (State.reread s key l last) := by
  grind [State.reread, State.updLane_mem, !translate_wf, ask_wf, trapBlocked_wf, acquireSync_wf, l1Drop_wf]

theorem poll_wf {key l} (hs : MemWf s) : MemWf (State.poll s key l) := reread_wf hs

theorem storeSplit_wf {u journal va bs} (hs : MemWf s) :
    (∀ t, (s.storeSplit u journal va bs).1 = some t → MemWf t) ∧ MemWf (s.storeSplit u journal va bs).2 := by
  unfold State.storeSplit
  grind [!translate_wf, beginSaves_wf, storeThrough_wf, clearPoison_wf]

theorem handOffNow_wf {u x} (hs : MemWf s) : MemWf (s.handOffNow u x) := by
  unfold State.handOffNow
  extract_lets o fault drain clock hid journal put two va hid'
  have hput {t : State} (ht : MemWf t) : MemWf (put t) := wakeRing_wf (ite_wf ht (updHid_wf ht))
  split
  · obtain ⟨hsome, hs⟩ := storeSplit_wf (u := u) (journal := journal) (va := va) (bs := splitRecord o x.slot fault hid' clock) hs
    split <;> rename_i h <;> rw [h] at hsome hs
    · exact hput (hsome _ rfl)
    · exact hs
  · exact hput hs

theorem handOffStep_wf {key ring} (hs : MemWf s) : MemWf (State.handOffStep s key ring) := by
  grind [State.handOffStep, wakeRing_wf, handOffNow_wf]

theorem countError_wf {p} (hs : MemWf s) : MemWf (State.countError s p) := hs

theorem send_wf {port half peer endpoint kind tag body} (hs : MemWf s) : MemWf (State.send s port half peer endpoint kind tag body) := hs

theorem reject_wf {m reason off} (hs : MemWf s) : MemWf (State.reject s m reason off) := hs

theorem ctxAck_wf {port half peer tag ctx status} (hs : MemWf s) : MemWf (State.ctxAck s port half peer tag ctx status) := hs

theorem receive_wf {kind m take} (hs : MemWf s) (htake : ∀ t, MemWf t → MemWf (take t)) : MemWf (State.receive s kind m take) := by
  grind [State.receive, reject_wf, countError_wf]

theorem saSet_wf {m} (hs : MemWf s) : MemWf (State.saSet s m) := by
  grind [State.saSet, ctxAck_wf, State.updCtx_mem]

theorem build_wf {k relay core parts} (hs : MemWf s) : MemWf (State.build s k relay core parts) := hs

theorem placeUnit_wf {k relay t} (ht : s.placeUnit k relay = some t) (hs : MemWf s) : MemWf t := by
  obtain ⟨xs, -, rfl⟩ := Option.map_eq_some_iff.1 ht
  exact foldl_wf (fun _ _ h => build_wf h) hs

theorem placeMore_wf {ctx serial} (hs : MemWf s) : MemWf (s.placeMore ctx serial) := by
  unfold State.placeMore
  split
  · exact hs
  · refine ite_wf (foldl_wf (fun b i hb => ite_wf hb ?_) hs) hs
    cases h : b.placeUnit _ _ with
    | none => exact hb
    | some t => exact placeUnit_wf h hb

theorem agentAt_wf {ctx die va use} (hs : MemWf s) : MemWf (State.agentAt s ctx die va use).2 := by
  grind [State.agentAt, !translate_wf]

theorem readRecord_wf {ctx die va n} (hs : MemWf s) : MemWf (State.readRecord s ctx die va n).2 := by
  grind [State.readRecord, !agentAt_wf]

theorem acceptLaunch_wf {m ctx n r} (hs : MemWf s) : MemWf (State.acceptLaunch s m ctx n r) := hs

theorem judgeLaunch_wf {m} (hs : MemWf s) : MemWf (s.judgeLaunch m) := by
  unfold State.judgeLaunch
  extract_lets ctx c die
  split
  · exact reject_wf hs
  · split <;> rename_i h
    · exact reject_wf (snd_wf h (readRecord_wf hs))
    · have hr := snd_wf h (readRecord_wf hs)
      extract_lets image
      split
      rename_i hdr s2 hh
      have h2 : MemWf s2 := by
        clear h
        grind [!readRecord_wf]
      split
      · exact reject_wf h2
      · extract_lets
        split
        · exact reject_wf h2
        · split <;> rename_i h
          · exact reject_wf (snd_wf h (agentAt_wf h2))
          · have ha := snd_wf h (agentAt_wf h2)
            refine ite_wf (reject_wf ha) (ite_wf (reject_wf ha) ?_)
            split
            · exact reject_wf ha
            · exact acceptLaunch_wf ha

theorem freeJournal_wf {ctx serial} (hs : MemWf s) : MemWf (State.freeJournal s ctx serial) := by
  grind [State.freeJournal, ownWrite_wf, State.updCtx_mem, foldl_wf]

theorem tidyQueue_wf {ctx q} (hs : MemWf s) : MemWf (State.tidyQueue s ctx q) := by
  grind [State.tidyQueue, State.updCtx_mem]

theorem endKernel_wf {ctx serial status} (hs : MemWf s) : MemWf (State.endKernel s ctx serial status) := by
  grind [State.endKernel, freeJournal_wf, tidyQueue_wf, sweep_wf, State.updKernel_mem, State.updCtx_mem, send_wf]

theorem flushQueue_wf {ctx q} (hs : MemWf s) : MemWf (State.flushQueue s ctx q) := foldl_wf (fun _ _ h => endKernel_wf h) hs

theorem complete_wf {ctx serial} (hs : MemWf s) : MemWf (State.complete s ctx serial) := by
  grind [State.complete, deposit_wf, endKernel_wf]

theorem retireUnit_wf {id} (hs : MemWf s) : MemWf (State.retireUnit s id) := by
  grind [State.retireUnit, State.updUnit_mem, State.updKernel_mem]

theorem retireHeat_wf {key} (hs : MemWf s) : MemWf (State.retireHeat s key) := by
  grind [State.retireHeat, settleMarks_wf, State.updHeat_mem, sweep_wf, State.updKernel_mem, retireUnit_wf]

theorem settleSets_wf {core part} (hs : MemWf s) : MemWf (State.settleSets s core part) := hs

theorem promote_wf {key} (hs : MemWf s) : MemWf (State.promote s key) := by
  grind [State.promote, State.updHeat_mem, settleSets_wf]

theorem beginSuspend_wf {cls id} (hs : MemWf s) : MemWf (State.beginSuspend s cls id) := by
  grind [State.beginSuspend, abort_wf, requeue_wf, State.updUnit_mem, State.updRun_mem, foldl_wf]

theorem makeRoom_wf {cls spot} (hs : MemWf s) : MemWf (State.makeRoom s cls spot) := foldl_wf (fun _ _ h => beginSuspend_wf h) hs

theorem pushAside_wf {k} (hs : MemWf s) : MemWf (State.pushAside s k) := makeRoom_wf hs

theorem placeRest_wf {die cls} (hs : MemWf s) : MemWf (State.placeRest s die cls) := foldl_wf (fun _ _ h => placeMore_wf h) hs

theorem startKernel_wf {die k} (hs : MemWf s) : MemWf (State.startKernel s die k) := placeMore_wf (tidyQueue_wf hs)

theorem startFirst_wf {die ks} (hs : MemWf s) : MemWf (State.startFirst die ks s) := by
  induction ks generalizing s with
  | nil => exact foldl_wf (fun _ _ h => pushAside_wf h) (placeRest_wf hs)
  | cons k ks ih => grind [State.startFirst, placeRest_wf, startKernel_wf]

theorem launchStart_wf {die} (hs : MemWf s) : MemWf (State.launchStart s die) := by
  grind [State.launchStart, startFirst_wf, endKernel_wf, State.updCtx_mem]

theorem clearArrays_wf {core} (hs : MemWf s) : MemWf (State.clearArrays s core) := hs

theorem relayStart_wf {key} (hs : MemWf s) : MemWf (State.relayStart s key) := by
  grind [State.relayStart, clearArrays_wf, acquireObj_wf, invalidateAll_wf, State.updUnit_mem]

theorem dropTasks_wf {p} (hs : MemWf s) : MemWf (State.dropTasks s p) := hs

theorem resetKernels_wf {ctx wait serials} (hs : MemWf s) : MemWf (State.resetKernels s ctx wait serials) := by
  grind [State.resetKernels, State.updKernel_mem, endKernel_wf, foldl_wf]

theorem forceReset_wf {ctx} (hs : MemWf s) : MemWf (State.forceReset s ctx) := by
  grind [State.forceReset, resetKernels_wf, dropTasks_wf, entriesFreed_wf, killHeat_wf, foldl_wf]

theorem saveUnit_wf {id} (hs : MemWf s) : MemWf (State.saveUnit s id) := by
  grind [State.saveUnit, State.updHeat_mem, State.updUnit_mem, foldl_wf]

theorem unitSave_wf {key} (hs : MemWf s) : MemWf (State.unitSave s key) := by
  grind [State.unitSave, saveUnit_wf, forceReset_wf, foldl_wf]

theorem windowExpiry_wf {key} (hs : MemWf s) : MemWf (State.windowExpiry s key) := by
  grind [State.windowExpiry]

theorem deadline_wf {key} (hs : MemWf s) : MemWf (State.deadline s key) := by
  grind [State.deadline, forceReset_wf]

theorem lateSettles_wf {id} (hs : MemWf s) : MemWf (State.lateSettles s id) := foldl_wf (fun _ _ h => endSettle_wf h) hs

theorem restoreUnit_wf {id core parts} (hs : MemWf s) : MemWf (State.restoreUnit s id core parts) := by
  grind [State.restoreUnit, retrySlots_wf, State.updArray_mem, State.updHeat_mem, bankOr_wf, State.updUnit_mem, lateSettles_wf, l1Drop_wf, foldl_wf]

theorem unitRestore_wf {die} (hs : MemWf s) : MemWf (State.unitRestore s die) := by
  grind [State.unitRestore, makeRoom_wf, restoreUnit_wf, foldl_wf]

theorem portRelease_wf {ctx port sc obj flags} (hs : MemWf s) : MemWf (s.portRelease ctx port sc obj flags) := by
  unfold State.portRelease
  exact deposit_wf hs

theorem sendRec_wf {r kind body} (hs : MemWf s) : MemWf (State.sendRec s r kind body) := by
  grind [State.sendRec, send_wf]

theorem notify_wf {r} (hs : MemWf s) : MemWf (State.notify s r) := by
  grind [State.notify, sendRec_wf]

theorem postRec_wf {r} (hs : MemWf s) : MemWf (State.postRec s r) := serveFrames_wf (notify_wf hs)

theorem serviceInterrupt_wf {ctx die} (hs : MemWf s) : MemWf (State.serviceInterrupt s ctx die) := hs

theorem overflow_wf {r} (hs : MemWf s) : MemWf (State.overflow s r) := by
  grind [State.overflow, State.updCtx_mem, serviceInterrupt_wf]

theorem faultPost_wf {die} (hs : MemWf s) : MemWf (State.faultPost s die) := by
  grind [State.faultPost, overflow_wf, postRec_wf]

theorem retryPosts_wf {rs} (hs : MemWf s) : MemWf (State.retryPosts rs s) := by
  induction rs generalizing s with
  | nil => exact hs
  | cons r rs ih => exact ih (ite_wf (postRec_wf hs) hs)

theorem faultRetry_wf {die} (hs : MemWf s) : MemWf (State.faultRetry s die) := retryPosts_wf hs

theorem onCtx_wf {m closing f} (hs : MemWf s) (hf : ∀ t, MemWf t → MemWf (f t)) : MemWf (State.onCtx s m closing f) := by
  grind [State.onCtx, reject_wf]

theorem pageMapped_wf {ctx port va len} (hs : MemWf s) : MemWf (State.pageMapped s ctx port va len) :=
  foldl_wf (fun _ _ h => resumeRec_wf h) (portRelease_wf hs)

theorem mapsDone_wf {ps} (hs : MemWf s) : MemWf (State.mapsDone ps s) := by
  induction ps generalizing s with
  | nil => exact hs
  | cons p ps ih => grind [State.mapsDone, pageMapped_wf]

theorem settleMaps_wf (hs : MemWf s) : MemWf (State.settleMaps s) := mapsDone_wf hs

theorem pageDone_wf {m} (hs : MemWf s) : MemWf (State.pageDone s m) := by
  grind [State.pageDone, tlbDrop_wf, onCtx_wf, mapsDone_wf]

theorem qctl_wf {m mine f} (hs : MemWf s) (hf : ∀ t, MemWf t → MemWf (f t)) : MemWf (State.qctl s m mine f) := by
  grind [State.qctl, receive_wf, onCtx_wf]

theorem openCtx_wf {m c} (hs : MemWf s) : MemWf (State.openCtx s m c) := hs

theorem ctxOpen_wf {m} (hs : MemWf s) : MemWf (State.ctxOpen s m) := by
  grind [State.ctxOpen, openCtx_wf, ctxAck_wf]

theorem ctxClose_wf {m} (hs : MemWf s) : MemWf (State.ctxClose s m) := by
  grind [State.ctxClose, flushQueue_wf, killKernel_wf, ctxAck_wf, State.updCtx_mem, foldl_wf]

theorem closeDone_wf {c} (hs : MemWf s) : MemWf (State.closeDone s c) := by
  grind [State.closeDone, ctxAck_wf]

theorem uetPages_wf {ctx die use ps} (hs : MemWf s) : MemWf (State.uetPages ctx die use ps s).2 := by
  induction ps generalizing s with
  | nil => exact hs
  | cons p ps ih => grind [State.uetPages, !translate_wf]

theorem uetAt_wf {u n use okHeader} (hs : MemWf s) : MemWf (State.uetAt s u n use okHeader).2 := by
  grind [State.uetAt, !uetPages_wf]

theorem uetAnswer_wf {u ok data} (hs : MemWf s) : MemWf (State.uetAnswer s u ok data) := by
  grind [State.uetAnswer, countError_wf]

theorem uetTake_wf {u f} (hs : MemWf s) (hf : ∀ t, MemWf t → MemWf (f t)) : MemWf (State.uetTake s u f) := by
  grind [State.uetTake, countError_wf]

theorem portWrite_wf {ctx port pa bs} (hs : MemWf s) : MemWf (State.portWrite s ctx port pa bs) := by
  grind [State.portWrite, ownWrite_wf, bankIn_wf, foldl_wf]

theorem uetWrite_wf {u data} (hs : MemWf s) : MemWf (s.uetWrite u data) := by
  unfold State.uetWrite
  split <;> rename_i h
  · exact uetAnswer_wf (snd_wf h (uetAt_wf hs))
  · exact uetAnswer_wf (foldl_keeps (P := fun b : State × List Byte => MemWf b.1) (fun _ _ h => portWrite_wf h) _ _ (snd_wf h (uetAt_wf hs)))

theorem uetRead_wf {u n} (hs : MemWf s) : MemWf (State.uetRead s u n) := by
  grind [State.uetRead, uetAnswer_wf, !uetAt_wf]

theorem uetRelease_wf {u value} (hs : MemWf s) : MemWf (State.uetRelease s u value) := by
  grind [State.uetRelease, uetAnswer_wf, portRelease_wf, !uetAt_wf]

end Sys2Proof.Machine
end

section
/-! SUPPORT. Memory stays canonical (R26) through coherence, containment, the journal, the loss of a die, dealing, bring-up and the sideband. -/

namespace Sys2Proof.Machine

variable {s : State}

theorem evictWay_wf {line} (hs : MemWf s) : MemWf (State.evictWay s line) := by
  grind [State.evictWay, post_mem, foldl_wf]

theorem answered_wf {die sec} (hs : MemWf s) : MemWf (State.answered s die sec) := hs

theorem settleWrites_wf {die sec} (hs : MemWf s) : MemWf (State.settleWrites s die sec) := by
  grind [State.settleWrites, ask_wf, drain_wf]

theorem sendGrant_wf {sec r g dirty data} (hs : MemWf s) : MemWf (State.sendGrant s sec r g dirty data) := hs

theorem grantShared_wf {sec r} (hs : MemWf s) : MemWf (State.grantShared s sec r) := by
  grind [State.grantShared, putHolders_mem, sendGrant_wf]

theorem grantOwn_wf {sec r} (hs : MemWf s) : MemWf (State.grantOwn s sec r) := by
  grind [State.grantOwn, putHolders_mem, sendGrant_wf, dropL2_mem]

theorem dropHome_wf {sec r} (hs : MemWf s) : MemWf (State.dropHome s sec r) := by
  grind [State.dropHome, dropL2_mem]

theorem grantUpgrade_wf {sec r} (hs : MemWf s) : MemWf (State.grantUpgrade s sec r) := by
  grind [State.grantUpgrade, putHolders_mem, dropHome_wf, sendGrant_wf]

theorem snoop_wf {k sec r ds} (hs : MemWf s) : MemWf (State.snoop s k sec r ds) := by
  grind [State.snoop, post_mem, foldl_wf]

theorem beginTxn_wf {t} (hs : MemWf s) : MemWf (State.beginTxn s t) := hs

theorem readOwnAt_wf {sec r} (hs : MemWf s) : MemWf (State.readOwnAt s sec r) := by
  grind [State.readOwnAt, snoop_wf, grantOwn_wf, dropHome_wf, beginTxn_wf]

theorem transact_wf {m} (hs : MemWf s) : MemWf (State.transact s m) := by
  grind [State.transact, snoop_wf, readOwnAt_wf, dropHome_wf, grantShared_wf, beginTxn_wf, grantUpgrade_wf]

theorem serve_wf {m} (hs : MemWf s) : MemWf (State.serve s m) := by
  grind [State.serve, transact_wf, evictWay_wf]

theorem kick_wf (hs : MemWf s) : MemWf (State.kick s) := foldl_wf (fun _ _ h => serve_wf h) hs

theorem request_wf {src home k} (hs : MemWf s) : MemWf (State.request s src home k) := by
  grind [State.request, serve_wf, takeMsg_mem]

theorem ack_wf {m sent keep dirty} (hs : MemWf s) : MemWf (State.ack s m sent keep dirty) := hs

theorem fwdShared_wf {home die} (hs : MemWf s) : MemWf (State.fwdShared s home die) := by
  grind [State.fwdShared, post_mem, ack_wf, setL2_mem, takeMsg_mem]

theorem fwdOwn_wf {home die} (hs : MemWf s) : MemWf (State.fwdOwn s home die) := by
  grind [State.fwdOwn, post_mem, ack_wf, dropL2_mem, takeMsg_mem]

theorem inval_wf {home die} (hs : MemWf s) : MemWf (State.inval s home die) := by
  grind [State.inval, ack_wf, dropL2_mem, takeMsg_mem]

theorem backInval_wf {home die} (hs : MemWf s) : MemWf (State.backInval s home die) := by
  grind [State.backInval, post_mem, dropL2_mem, takeMsg_mem, foldl_wf]

theorem endTxn_wf {t} (hs : MemWf s) : MemWf (State.endTxn s t) := by
  grind [State.endTxn, kick_wf, grantOwn_wf, putHolders_mem, settleWrites_wf, grantShared_wf, grantUpgrade_wf]

theorem invalAck_wf {die home} (hs : MemWf s) : MemWf (State.invalAck s die home) := by
  grind [State.invalAck, putHolders_mem, dropHolder_wf, takeMsg_mem, endTxn_wf]

theorem data_wf {src die k victim} (hs : MemWf s) : MemWf (State.data s src die k victim) := by
  grind [State.data, kick_wf, settleWrites_wf, setL2_mem, answered_wf, takeMsg_mem, fillL2_wf, evictLine_wf]

theorem writeBack_wf {die home} (hs : MemWf s) : MemWf (State.writeBack s die home) := by
  grind [State.writeBack, kick_wf, putHolders_mem, comeHome_wf, dropHolder_wf, takeMsg_mem]

theorem cleanEvict_wf {die home} (hs : MemWf s) : MemWf (State.cleanEvict s die home) := by
  grind [State.cleanEvict, kick_wf, dropHolder_wf, takeMsg_mem]

theorem backInvalAck_wf {die home} (hs : MemWf s) : MemWf (State.backInvalAck s die home) := by
  grind [State.backInvalAck, backDirty_wf, kick_wf, dropHolder_wf, takeMsg_mem, foldl_wf]

theorem replace_wf {reason} (hs : MemWf s) : MemWf (State.replace s reason) := foldl_wf (fun _ _ h => send_wf h) hs

theorem judgeCapacity_wf {t} (ht : MemWf t) : MemWf (State.judgeCapacity t s) := by
  grind [State.judgeCapacity, replace_wf]

theorem fenceCore_wf {die phys} (hs : MemWf s) : MemWf (State.fenceCore s die phys) := by
  grind [State.fenceCore, fieldUpdate_wf, fieldBit_wf]

theorem poisonSectors_wf {secs} (hs : MemWf s) : MemWf (State.poisonSectors s secs) := hs

theorem fenceRow_wf {die stack chunk} (hs : MemWf s) : MemWf (State.fenceRow s die stack chunk) := by
  grind [State.fenceRow, fieldUpdate_wf, poisonSectors_wf]

theorem fenceLane_wf {port lane} (hs : MemWf s) : MemWf (State.fenceLane s port lane) := by
  grind [State.fenceLane, fieldBit_wf, updPort_wf]

theorem fence_wf {u} (hs : MemWf s) : MemWf (s.fence u) := by
  cases u with
  | core die phys => exact fenceCore_wf hs
  | array die phys a => exact fieldBit_wf hs
  | l2way die slice way => exact fieldBit_wf hs
  | module die partner m => exact fieldBit_wf hs
  | portHalf port half => exact fenceLane_wf hs
  | row die stack chunk => exact fenceRow_wf hs

theorem laneFails_wf {l} (hs : MemWf s) : MemWf (s.laneFails l) := by
  cases l <;> grind [State.laneFails, fenceLane_wf, fieldUpdate_wf, fence_wf]

theorem lanesFail_wf {key lanes regs} (hs : MemWf s) : MemWf (State.lanesFail s key lanes regs) := by
  grind [State.lanesFail, State.updLane_mem, trapLanes_wf, leaveQueues_wf, foldl_wf]

theorem entryFails_wf {line} (hs : MemWf s) : MemWf (State.entryFails s line) := by
  grind [State.entryFails, post_mem, poisonSectors_wf, foldl_wf]

theorem errorAt_wf {e} (hs : MemWf s) : MemWf (s.errorAt e) := by
  cases e <;> grind [State.errorAt, lanesFail_wf, fenceCore_wf, fenceRow_wf, poisonSectors_wf, failCard_wf, entryFails_wf, State.updArray_mem,
    fence_wf]

theorem vwrite_wf {ctx die va bs t} (ht : s.vwrite ctx die va bs = some t) (hs : MemWf s) : MemWf t := by
  unfold State.vwrite at ht
  split at ht <;> rename_i h <;> cases ht
  exact foldl_keeps (P := fun b : State × List Byte => MemWf b.1) (fun _ _ h => ownWrite_wf _ _ _ h) _ _ (snd_wf h (uetPages_wf hs))

theorem saveChunk_wf {ctx serial chunk t} (ht : s.saveChunk ctx serial chunk = some t) (hs : MemWf s) : MemWf t.2 := by
  unfold State.saveChunk at ht
  have hv : ∀ s ctx die va bs t, State.vwrite s ctx die va bs = some t → MemWf s → MemWf t := fun _ _ _ _ _ _ h hs => vwrite_wf h hs
  revert hv ht
  induction State.vwrite using of_every with | _ write =>
  induction State.freeSlot using of_every with | _ slot =>
  intro ht hv
  extract_lets die at ht
  split at ht
  · cases ht
  · extract_lets at_ at ht
    split at ht
    · cases ht
    · rename_i h1
      split at ht
      · cases ht
      · rename_i h2
        obtain ⟨s3, h3, rfl⟩ := Option.map_eq_some_iff.1 ht
        exact hv _ _ _ _ _ _ h3 (hv _ _ _ _ _ _ h2 (hv _ _ _ _ _ _ h1 hs))

theorem unjournal_wf {ctx serial} (hs : MemWf s) : MemWf (State.unjournal s ctx serial) := freeJournal_wf hs

theorem journalSave_wf {ctx chunk} (hs : MemWf s) : MemWf (State.journalSave s ctx chunk) := by
  grind [State.journalSave, retrySlots_wf, serveFrames_wf, → saveChunk_wf, unjournal_wf, State.updCtx_mem]

theorem stopTeams_wf {k f} (hs : MemWf s) (hf : ∀ t a b, MemWf t → MemWf (f t a b)) : MemWf (State.stopTeams s k f) := by
  grind [State.stopTeams, dropTasks_wf, foldl_wf]

theorem stopKernel_wf {k} (hs : MemWf s) : MemWf (State.stopKernel s k) := by
  grind [State.stopKernel, killLane_wf, stopTeams_wf, endKernel_wf]

theorem restoreChunks_wf {ctx es} (hs : MemWf s) : MemWf (s.restoreChunks ctx es).1 := by
  unfold State.restoreChunks
  refine foldl_keeps (P := fun b : State × Nat × Nat => MemWf b.1) (fun b e hb => ?_) es _ hs
  grind [!vread_wf, ownWrite_wf]

theorem levelApplied_wf {ctx p} (hs : MemWf s) : MemWf (State.levelApplied s ctx p) := hs

theorem rollback_wf {k} (hs : MemWf s) : MemWf (State.rollback s k) := by
  grind [State.rollback, freeJournal_wf, levelApplied_wf, stopTeams_wf, sweep_wf, State.updKernel_mem, State.updCtx_mem, !restoreChunks_wf,
    send_wf, handOnAll_wf]

theorem ackFor_wf {die} (hs : MemWf s) : MemWf (State.ackFor s die) := by
  grind [State.ackFor, dropHolder_wf, endTxn_wf, foldl_wf]

theorem askAgain_wf (hs : MemWf s) : MemWf (State.askAgain s) := by
  grind [State.askAgain, dropHolder_wf, settleWrites_wf, answered_wf, foldl_wf]

theorem isolate_wf {die} (hs : MemWf s) : MemWf (State.isolate s die) := by
  grind [State.isolate, kick_wf, dropHolder_wf, askAgain_wf, ackFor_wf, poisonSectors_wf, foldl_wf]

theorem endRequests_wf {die} (hs : MemWf s) : MemWf (State.endRequests s die) := foldl_wf (fun _ _ h => late_wf h) hs

theorem declare_wf {die} (hs : MemWf s) : MemWf (State.declare s die) := by
  grind [State.declare, rollback_wf, endRequests_wf, stopKernel_wf, isolate_wf, replace_wf, foldl_wf]

theorem twoDown_wf {targets} (hs : MemWf s) : MemWf (State.twoDown s targets) := by
  grind [State.twoDown, stopKernel_wf, endKernel_wf, replace_wf, foldl_wf]

theorem updSuspicion_wf {target f} (hs : MemWf s) : MemWf (State.updSuspicion s target f) := hs

theorem judgeSuspicion_wf {target} (hs : MemWf s) : MemWf (State.judgeSuspicion s target) := by
  grind [State.judgeSuspicion, declare_wf, twoDown_wf]

theorem suspect_wf {die target} (hs : MemWf s) : MemWf (State.suspect s die target) := by
  grind [State.suspect, judgeSuspicion_wf, updSuspicion_wf]

theorem probe_wf {die target} (hs : MemWf s) : MemWf (State.probe s die target) := by
  grind [State.probe, updSuspicion_wf]

theorem probeTimeout_wf {die target} (hs : MemWf s) : MemWf (State.probeTimeout s die target) := by
  grind [State.probeTimeout, judgeSuspicion_wf, updSuspicion_wf]

theorem probeAnswer_wf {die target} (hs : MemWf s) : MemWf (State.probeAnswer s die target) := by
  grind [State.probeAnswer, declare_wf]

theorem dieReset_wf {die} (hs : MemWf s) : MemWf (State.dieReset s die) := by
  grind [State.dieReset, declare_wf]

theorem refence_wf {die failing} (hs : MemWf s) : MemWf (State.refence s die failing) := by
  grind [State.refence, fieldUpdate_wf, fence_wf, updPort_wf, foldl_wf]

theorem rejoin_wf {die failing} (hs : MemWf s) : MemWf (s.rejoin die failing) := by
  unfold State.rejoin
  exact foldl_wf (fun _ _ h => levelApplied_wf h) (refence_wf (Memory.filter_wf _ hs))

theorem dieRejoin_wf {die ok failing} (hs : MemWf s) : MemWf (State.dieRejoin s die ok failing) := by
  grind [State.dieRejoin, rejoin_wf, replace_wf]

theorem readArgs_wf {die c is} (hs : MemWf s) : MemWf (State.readArgs die c is s).2 := by
  induction is generalizing s with
  | nil => exact hs
  | cons i is ih => grind [State.readArgs, !vread_wf, updTask_wf, failCard_wf, postDealer_wf]

theorem dealRun_wf {c core team i lane rest} (hs : MemWf s) : MemWf (State.dealRun s c core team i lane rest) := by
  grind [State.dealRun, startRun_wf, awaitTokens_wf, updTask_wf]

theorem dealChunk_wf {c core parts tasks} (hs : MemWf s) : MemWf (s.dealChunk c core parts tasks) := by
  unfold State.dealChunk
  extract_lets team unit u heats s1 s2 s3
  have h3 : MemWf s3 := foldl_wf (fun _ _ h => markRunning_wf (updTask_wf h)) hs
  split
  · exact foldl_wf (fun _ _ h => dealRun_wf h) h3
  · exact h3
  · exact dealRun_wf h3

theorem deal_wf {die} (hs : MemWf s) : MemWf (State.deal s die) := by
  grind [State.deal, !readArgs_wf, dealChunk_wf]

theorem cold_wf : MemWf s.cold := reset_mem_wf

theorem powerGood_wf {failing partners} : MemWf (State.powerGood s failing partners) := by
  grind [State.powerGood, judgeCapacity_wf, fence_wf, cold_wf, foldl_wf]

theorem retrain_wf {mask} (hs : MemWf s) : MemWf (State.retrain s mask) := foldl_wf (fun _ _ h => updPort_wf h) hs

theorem trainingDone_wf {port} (hs : MemWf s) : MemWf (State.trainingDone s port) := by
  grind [State.trainingDone, updPort_wf]

theorem bistDone_wf {die pass failing duration first} (hs : MemWf s) : MemWf (State.bistDone s die pass failing duration first) := by
  grind [State.bistDone, judgeCapacity_wf, fence_wf, ownWrite_wf, !agentAt_wf]

theorem packBody_wf {n t r sat sc d a rb e w} (hw : MemWf w.s) : MemWf (packBody n t r sat sc d a rb e w).s := Env.compute_wf hw

theorem unpackBody_wf {n t r sc d a rb e w} (hw : MemWf w.s) : MemWf (unpackBody n t r sc d a rb e w).s :=
  foldl_work_wf (fun _ _ h => Env.compute_wf h) hw

theorem Env.setPred_wf {e d f w} (hw : MemWf w.s) : MemWf (Env.setPred e d f w).s := by
  grind [Env.setPred, State.updLane_mem, Env.each_wf]

theorem updSb_wf {f} (hs : MemWf s) : MemWf (State.updSb s f) := hs

theorem marginRun_wf {ctl} (hs : MemWf s) : MemWf (State.marginRun s ctl) := by
  grind [State.marginRun, updSb_wf]

theorem assocWrite_wf {off bs} (hs : MemWf s) : MemWf (State.assocWrite s off bs) := hs

theorem setCap_wf {w} (hs : MemWf s) : MemWf (State.setCap s w) := by
  grind [State.setCap, updSb_wf]

theorem sbWrite_wf {off w} (hs : MemWf s) : MemWf (s.sbWrite off w) := by
  unfold State.sbWrite
  split
  · exact ite_wf hs hs
  · exact foldl_wf (fun _ _ h => dieReset_wf h) hs
  · exact retrain_wf hs
  · exact ite_wf hs hs
  · exact ite_wf (marginRun_wf hs) (ite_wf hs hs)
  · exact hs
  · exact hs
  · exact setCap_wf hs
  · exact ite_wf hs (ite_wf hs (ite_wf hs hs))

theorem sbWords_wf {off bs} (hs : MemWf s) : MemWf (State.sbWords off bs s) := by
  fun_induction State.sbWords off bs s with
  | case1 off b0 b1 b2 b3 rest s ih => exact ih (sbWrite_wf hs)
  | case2 => exact hs

theorem sidebandWrite_wf {off bs} (hs : MemWf s) : MemWf (State.sidebandWrite s off bs) := by
  grind [State.sidebandWrite, assocWrite_wf, updSb_wf, sbWords_wf]

theorem updTap_wf {f} (hs : MemWf s) : MemWf (State.updTap s f) := hs

end Sys2Proof.Machine
end

section
/-! SUPPORT. Memory stays canonical (R26) through each instruction, each event and each step. -/

namespace Sys2Proof.Machine

variable {s : State}

/-- An outcome that goes on leaves memory canonical. -/
def NextWf (r : Host.Outcome State Fault Refusal) : Prop := ∀ t, r = .next t → MemWf t

theorem next_nextWf (hs : MemWf s) : NextWf (.next s) := by
  rintro t ⟨⟩
  exact hs

theorem issue_nextWf {i : Instr} {body : Env → Work → Work} (hs : MemWf s)
    (hbody : ∀ e w, MemWf e.base → MemWf w.s → MemWf (body e w).s) : NextWf (issue i s body) := fun _ => issue_wf hs hbody

theorem execWaitf_nextWf {c mask} (hs : MemWf s) : NextWf (execWaitf c mask s) := by
  grind [execWaitf, Work.stallWith_wf, issue_nextWf, State.updHeat_mem]

theorem execBrx_nextWf {c a} (hs : MemWf s) : NextWf (execBrx c a s) := by
  grind [execBrx, Env.each_wf, Work.trap_wf, issue_nextWf, Work.goto_wf]

theorem execCallx_nextWf {c link} (hs : MemWf s) : NextWf (execCallx c link s) := by
  refine issue_nextWf hs fun e w _ hw => Env.each_wf (fun v l hv => ?_) hw
  induction targetTrap using of_every with | _ trapOf =>
  extract_lets t
  split
  · exact Work.trap_wf hv
  · exact Work.call_wf hv

theorem execRet_nextWf {c a} (hs : MemWf s) : NextWf (execRet c a s) := by
  grind [execRet, Env.each_wf, Work.trap_wf, issue_nextWf, Work.hold_wf, Work.goto_wf, releaseColours_wf]

theorem execExit_nextWf {c} (hs : MemWf s) : NextWf (execExit c s) := by
  grind [execExit, failCard_wf, Env.each_wf, Work.trap_wf, issue_nextWf, Work.hold_wf, releaseColours_wf]

theorem execBldMem_nextWf {c d a n} (hs : MemWf s) : NextWf (execBldMem c d a n s) := by
  refine issue_nextWf hs fun e w he hw => ?_
  extract_lets va
  refine Work.ite_wf hw (Work.ite_wf (Work.trapAll_wf hw) (Work.ite_wf (Work.trapAll_wf hw) ?_))
  split <;> rename_i h
  · exact Work.trapAll_wf (snd_wf h (translate_wf hw))
  · have ht := snd_wf h (translate_wf hw)
    refine Work.ite_wf (Work.trapAll_wf ht) (Work.ite_wf (Work.trapAll_wf ht) (Work.ite_wf (Work.stallWith_wf he fun _ h => h) ?_))
    split <;> rename_i hl
    · exact Work.stallWith_wf he fun _ h => ask_wf h
    · exact Env.setRec_wf (foldl_wf (fun _ _ h => readSig_wf h) (loadNow_wf hl ht))

theorem execLdk_nextWf {c sz d x b} (hs : MemWf s) : NextWf (execLdk c sz d x b s) := by
  grind [execLdk, Work.trapAll_wf, issue_nextWf, Env.memory_wf]

theorem execPref_nextWf {c l2 sz x b} (hs : MemWf s) : NextWf (execPref c l2 sz x b s) := by
  grind [execPref, issue_nextWf, prefetch_wf, foldl_wf]

theorem execCmaintWb_nextWf {c sz x b} (hs : MemWf s) : NextWf (execCmaintWb c sz x b s) := by
  grind [execCmaintWb, Env.maintain_wf, issue_nextWf, cleanSector_wf, foldl_wf]

theorem execCmaintInvall_nextWf {c} (hs : MemWf s) : NextWf (execCmaintInvall c s) := by
  grind [execCmaintInvall, issue_nextWf, l1Drop_wf]

theorem execAtoms_nextWf {c op kind sz o sc d x y} (hs : MemWf s) : NextWf (execAtoms c op kind sz o sc d x y s) := by
  grind [execAtoms, mergeFlags_wf, scrWrite_wf, issue_nextWf, State.updHeat_mem, Env.releaseAt_wf, Env.scratch_wf]

theorem execLdacq_nextWf {c sz sc d x b} (hs : MemWf s) : NextWf (execLdacq c sz sc d x b s) := by
  grind [execLdacq, Work.trapAll_wf, issue_nextWf, Work.awaitOp_wf, Env.accessBy_wf]

theorem execStrel_nextWf {c sz sc d x b} (hs : MemWf s) : NextWf (execStrel c sz sc d x b s) := by
  grind [execStrel, Work.trapAll_wf, issue_nextWf, Env.releaseAt_wf, Env.irrevocable_wf, Env.accessBy_wf]

theorem execSyadd_nextWf {c o sc d x y b} (hs : MemWf s) : NextWf (execSyadd c o sc d x y b s) := by
  grind [execSyadd, Work.trapAll_wf, issue_nextWf, Env.releaseAt_wf, Env.irrevocable_wf, Work.awaitOp_wf, Env.accessBy_wf]

theorem execFence_nextWf {c kind eng sc} (hs : MemWf s) : NextWf (execFence c kind eng sc s) := by
  grind [execFence, issue_nextWf, invalidateAll_wf, Work.waitOn_wf]

theorem execBar_nextWf {c n b} (hs : MemWf s) : NextWf (execBar c n b s) := by
  grind [execBar, Work.trapAll_wf, Env.each_wf, issue_nextWf, arrive_wf, Env.afterOwed_wf, Work.block_wf]

theorem execBara_nextWf {c n b} (hs : MemWf s) : NextWf (execBara c n b s) := by
  grind [execBara, Work.trapAll_wf, Work.stallWith_wf, issue_nextWf, arrive_wf, Env.afterOwed_wf]

theorem execWaita_nextWf {c d a b cmp sg w64 scr acq} (hs : MemWf s) : NextWf (execWaita c d a b cmp sg w64 scr acq s) := by
  refine issue_nextWf hs fun e w _ hw => ?_
  extract_lets sz y wait
  refine Env.each_wf (fun v l hv => Work.ite_wf ?_ ?_) hw
  · extract_lets off
    split
    · exact Work.trap_wf hv
    · exact Work.block_wf hv
  · extract_lets
    refine Work.ite_wf (Work.trap_wf hv) (Work.ite_wf (Work.trap_wf hv) ?_)
    split <;> rename_i h
    · exact Work.trap_wf (snd_wf h (translate_wf hv))
    · exact Work.block_wf (snd_wf h (translate_wf hv))

theorem execRawait_nextWf {c st d a} (hs : MemWf s) : NextWf (execRawait c st d a s) := by
  grind [execRawait, State.updLane_mem, Work.trapAll_wf, Env.each_wf, issue_nextWf, Env.ringOp_wf, Work.block_wf, updHid_wf]

theorem execRinit_nextWf {c a k} (hs : MemWf s) : NextWf (execRinit c a k s) := by
  refine issue_nextWf hs fun e w he hw => Work.ite_wf hw ?_
  extract_lets off t
  split
  split
  · exact Work.trapAll_wf hw
  · exact Work.ite_wf (Work.trapAll_wf hw) (Work.ite_wf (Work.stallWith_wf he fun _ h => h) hw)

theorem execSplit_nextWf {c fin a} (hs : MemWf s) : NextWf (execSplit c fin a s) := by
  grind [execSplit, Work.trapAll_wf, issue_nextWf, Env.ringOp_wf, updHid_wf]

theorem execCpyw_nextWf {c sz sc a x b} (hs : MemWf s) : NextWf (execCpyw c sz sc a x b s) := by
  grind [execCpyw, Work.trapAll_wf, Work.stallWith_wf, issue_nextWf, Env.accessBy_wf]

theorem execClaim_nextWf {c a n} (hs : MemWf s) : NextWf (execClaim c a n s) := by
  grind [execClaim, Env.each_wf, Work.trap_wf, issue_nextWf, Work.hold_wf, !claim_wf]

theorem execMwait_nextWf {c d a t} (hs : MemWf s) : NextWf (execMwait c d a t s) := by
  grind [execMwait, Env.each_wf, Work.trap_wf, issue_nextWf, beginMwait_wf, Work.block_wf]

theorem execMrepair_nextWf {c a} (hs : MemWf s) : NextWf (execMrepair c a s) := by
  grind [execMrepair, Env.each_wf, Work.trap_wf, issue_nextWf, setAbandoned_wf]

theorem execTspawn_nextWf {c a} (hs : MemWf s) : NextWf (execTspawn c a s) := by
  grind [execTspawn, Env.each_wf, Work.stallWith_wf, Work.trap_wf, issue_nextWf, Env.spawn_wf, Env.irrevocable_wf, foldl_work_wf]

theorem execTdone_nextWf {c} (hs : MemWf s) : NextWf (execTdone c s) := by
  grind [execTdone, State.updLane_mem, Work.trap_wf, issue_nextWf, State.updRun_mem, tryCommit_wf, Work.block_wf, foldl_wf, foldl_fst_wf]

theorem execPublap_nextWf {c fin a} (hs : MemWf s) : NextWf (execPublap c fin a s) := by
  grind [execPublap, Work.trap_wf, issue_nextWf, tryPublish_wf, Work.block_wf, foldl_wf, foldl_fst_wf]

theorem execTstop_nextWf {c a} (hs : MemWf s) : NextWf (execTstop c a s) := by
  grind [execTstop, Work.trapAll_wf, cohPut_wf, Env.once_wf, issue_nextWf]

theorem execTsettle_nextWf {c a} (hs : MemWf s) : NextWf (execTsettle c a s) := by
  grind [execTsettle, Work.trapAll_wf, Env.each_wf, acquireObj_wf, Env.once_wf, issue_nextWf, Work.block_wf]

theorem execResume_nextWf {c skip h m} (hs : MemWf s) : NextWf (execResume c skip h m s) := by
  grind [execResume, Work.stallWith_wf, releaseNow_wf, resumeRec_wf, issue_nextWf, Env.onRecords_wf]

theorem execKillLanes_nextWf {c h m} (hs : MemWf s) : NextWf (execKillLanes c h m s) := by
  grind [execKillLanes, killLane_wf, killRec_wf, issue_nextWf, Env.onRecords_wf, foldl_wf]

theorem execKillHeat_nextWf {c h} (hs : MemWf s) : NextWf (execKillHeat c h s) := by
  grind [execKillHeat, killRec_wf, issue_nextWf, Env.onRecords_wf, killHeat_wf]

theorem execKillKernel_nextWf {c h} (hs : MemWf s) : NextWf (execKillKernel c h s) := by
  grind [execKillKernel, killRec_wf, killKernel_wf, issue_nextWf, Env.onRecords_wf]

theorem execTframeNext_nextWf {c d a t} (hs : MemWf s) : NextWf (execTframeNext c d a t s) := by
  grind [execTframeNext, Env.each_wf, Work.trap_wf, issue_nextWf, takeRecord_wf, Work.block_wf, !Env.at_wf]

theorem execTframeTimeout_nextWf {key lane} (hs : MemWf s) : NextWf (execTframeTimeout key lane s) := by
  grind [execTframeTimeout, State.updLane_mem, next_nextWf]

theorem execTframeRd_nextWf {c d h lane item} (hs : MemWf s) : NextWf (execTframeRd c d h lane item s) := by
  grind [execTframeRd, Work.trap_wf, issue_nextWf, Env.onRecords_wf, State.updHeat_mem]

theorem execTframeWr_nextWf {c h lane item a} (hs : MemWf s) : NextWf (execTframeWr c h lane item a s) := by
  grind [execTframeWr, Work.trap_wf, issue_nextWf, Env.onRecords_wf, State.updHeat_mem]

theorem execMts_nextWf {c field a} (hs : MemWf s) : NextWf (execMts c field a s) := by
  grind [execMts, issue_nextWf, setSysField_wf]

theorem execTlbinvRange_nextWf {c a n} (hs : MemWf s) : NextWf (execTlbinvRange c a n s) := by
  grind [execTlbinvRange, issue_nextWf, Env.afterFence_wf, Env.discard_wf]

theorem execTlbinvCtx_nextWf {c} (hs : MemWf s) : NextWf (execTlbinvCtx c s) := by
  grind [execTlbinvCtx, issue_nextWf, Env.afterFence_wf, Env.discard_wf]

theorem execSplinter_nextWf {c d a t} (hs : MemWf s) : NextWf (execSplinter c d a t s) := by
  grind [execSplinter, State.updLane_mem, Work.trapAll_wf, cohPut_wf, issue_nextWf, Env.afterFence_wf, Env.discard_wf, ownWrite_wf, bankIn_wf,
    foldl_wf]

theorem execBrkpt_nextWf {c} (hs : MemWf s) : NextWf (execBrkpt c s) := by
  grind [execBrkpt, Env.each_wf, Work.trap_wf, issue_nextWf]

theorem execBrkptWset_nextWf {c n kind a len} (hs : MemWf s) : NextWf (execBrkptWset c n kind a len s) := by
  grind [execBrkptWset, Work.trapAll_wf, issue_nextWf, State.updCtx_mem]

theorem execBrkptWclr_nextWf {c n} (hs : MemWf s) : NextWf (execBrkptWclr c n s) := by
  grind [execBrkptWclr, issue_nextWf, State.updCtx_mem]

theorem execHaltallStop_nextWf {c} (hs : MemWf s) : NextWf (execHaltallStop c s) := by
  grind [execHaltallStop, beginHalt_wf, issue_nextWf, State.updHeat_mem]

theorem execHaltallGo_nextWf {c} (hs : MemWf s) : NextWf (execHaltallGo c s) := by
  grind [execHaltallGo, Work.stallWith_wf, releaseNow_wf, issue_nextWf, resumeLane_wf, sweep_wf, State.updCtx_mem, foldl_wf]

theorem execUndo_nextWf {c d h} (hs : MemWf s) : NextWf (execUndo c d h s) := by
  refine issue_nextWf hs fun e w he hw => Work.ite_wf (Work.stallWith_wf he fun _ h => h) (Env.onRecords_wf (fun v l r hv => ?_) hw)
  split
  · exact Work.trap_wf hv
  · cases d with
    | none =>
      dsimp only
      split <;> exact hv
    | some n =>
      dsimp only [State.updLane_mem]
      split <;> exact hv

theorem execStamp_nextWf {c sc d} (hs : MemWf s) : NextWf (execStamp c sc d s) := by
  grind [execStamp, issue_nextWf, Work.waitOn_wf, Env.compute_wf]

theorem execBist_nextWf {c d a b alg} (hs : MemWf s) : NextWf (execBist c d a b alg s) := by
  grind [execBist, State.updLane_mem, Env.once_wf, issue_nextWf, foldl_wf]

theorem execRemoteTimeout_nextWf {id} (hs : MemWf s) : NextWf (execRemoteTimeout id s) := by
  grind [execRemoteTimeout, freeReq_wf, late_wf, flushAll_wf, next_nextWf]

theorem execWaitaTimeout_nextWf {key lane} (hs : MemWf s) : NextWf (execWaitaTimeout key lane s) := by
  grind [execWaitaTimeout, reread_wf, next_nextWf]

theorem execEarlyClean_nextWf {die sector} (hs : MemWf s) : NextWf (execEarlyClean die sector s) := by
  grind [execEarlyClean, earlyClean_wf, next_nextWf]

theorem execVote_nextWf {c op a} (hs : MemWf s) : NextWf (execVote c op a s) := by
  grind [execVote, issue_nextWf, Env.compute_wf, Env.setPred_wf]

/-- Every instruction and every event. -/
theorem exec_nextWf (hs : MemWf s) (i : Instr) : NextWf (exec i s) := by
  unfold exec
  cases i with
  | nop => exact issue_nextWf hs fun _ _ _ hw => hw
  | yield | trap | bra | heldTest | psetfFrom => exact issue_nextWf hs fun _ _ _ hw => Env.each_wf (fun _ _ h => h) hw
  | waitf => exact execWaitf_nextWf hs
  | brx => exact execBrx_nextWf hs
  | call => exact issue_nextWf hs fun _ _ _ hw => Env.each_wf (fun _ _ h => Work.call_wf h) hw
  | callx => exact execCallx_nextWf hs
  | ret => exact execRet_nextWf hs
  | exit => exact execExit_nextWf hs
  | bldMem => exact execBldMem_nextWf hs
  | bldQ | bldK | bldZero | bsubOff | bsubWin | bsubColour | bsubFlags => exact issue_nextWf hs fun _ _ _ hw => Env.setRec_wf hw
  | ld | ldg => exact issue_nextWf hs fun _ _ he hw => Env.memory_wf he hw
  | st | stg => exact issue_nextWf hs fun _ _ he hw => Env.store_wf he hw
  | ldk => exact execLdk_nextWf hs
  | lds | sts => exact issue_nextWf hs fun _ _ he hw => Env.scratch_wf he (fun _ _ _ _ h => h) hw
  | ldsr | stsr => exact issue_nextWf hs fun _ _ he hw => Env.quad_wf he (fun _ _ _ _ h => h) hw
  | pref => exact execPref_nextWf hs
  | cmaintInv => exact issue_nextWf hs fun _ _ _ hw => Env.maintain_wf (fun _ _ h => h) hw
  | cmaintWb => exact execCmaintWb_nextWf hs
  | cmaintInvall => exact execCmaintInvall_nextWf hs
  | atom | acas => exact issue_nextWf hs fun _ _ he hw => Env.atomic_wf he hw
  | atoms => exact execAtoms_nextWf hs
  | ldacq => exact execLdacq_nextWf hs
  | strel => exact execStrel_nextWf hs
  | syadd => exact execSyadd_nextWf hs
  | fence => exact execFence_nextWf hs
  | bar => exact execBar_nextWf hs
  | bara => exact execBara_nextWf hs
  | waita => exact execWaita_nextWf hs
  | rfill | rpush | rrelease => exact issue_nextWf hs fun _ _ he hw => Env.handOn_wf he hw
  | rawait => exact execRawait_nextWf hs
  | rinit => exact execRinit_nextWf hs
  | split => exact execSplit_nextWf hs
  | cpyin | cpyout => exact issue_nextWf hs fun _ _ he hw => Env.copy_wf he hw
  | cpyw => exact execCpyw_nextWf hs
  | matrixOpComplete => exact next_nextWf (matrixStep_wf hs)
  | mmarkSelf | mmarkMask | mmarkClear => exact issue_nextWf hs fun _ _ _ hw => Env.setMark_wf hw
  | mldw | mswap | mstr | mdist | mtopk | mrd | mrdScr | mclr => exact issue_nextWf hs fun _ _ he hw => Env.sign_wf he hw
  | claim => exact execClaim_nextWf hs
  | mwait => exact execMwait_nextWf hs
  | mnote | mnoteall => exact issue_nextWf hs fun _ _ _ hw => Env.note_wf hw
  | heldList | mfs | defmap | fadd | fsub | fmul | ffma | fdiv | fsqrt | fmin | fmax | fsign | frcp | frsq | fexp2 | flog2 | ftanh |
    fclass | frnd | pkadd | pkmul | pkfma | pkmnx | iadd | isub | imul | imad | idiv | imin | imax | iabs | and | or | xor | shl | shr |
    bfx | bfi | popc | clz | brev | sel | mov | movi | addi | lea | bysel | cvti | cvtf | scalex | psetfTo | shfl | hred | hscan | matchv =>
    exact issue_nextWf hs fun _ _ _ hw => Env.compute_wf hw
  | mrepair => exact execMrepair_nextWf hs
  | monitorGrant => exact next_nextWf (grant_wf hs)
  | mwaitTimeout => exact next_nextWf (mwaitExpire_wf hs)
  | tspawn => exact execTspawn_nextWf hs
  | tdone => exact execTdone_nextWf hs
  | publap => exact execPublap_nextWf hs
  | tstop => exact execTstop_nextWf hs
  | tlapState | tlapBuf => exact issue_nextWf hs fun _ _ _ hw => Env.lap_wf hw fun _ _ h => h
  | tabortRequeue => exact issue_nextWf hs fun _ _ _ hw => Env.abortTasks_wf (fun _ _ h => abort_wf h) hw
  | tabortFail => exact issue_nextWf hs fun _ _ _ hw => Env.abortTasks_wf (fun _ _ h => failCard_wf h) hw
  | tsettle => exact execTsettle_nextWf hs
  | dieTokenGrant => exact next_nextWf (grantToken_wf hs)
  | commit => exact next_nextWf (commitStep_wf hs)
  | lapPublish => exact next_nextWf (lapStep_wf hs)
  | groupSettle => exact next_nextWf (settle_wf hs)
  | resume => exact execResume_nextWf hs
  | killLanes => exact execKillLanes_nextWf hs
  | killHeat => exact execKillHeat_nextWf hs
  | killKernel => exact execKillKernel_nextWf hs
  | tframeNext => exact execTframeNext_nextWf hs
  | tframeTimeout => exact execTframeTimeout_nextWf hs
  | eret => exact issue_nextWf hs fun _ _ _ hw => Env.onRecords_wf (fun _ _ _ h => serveFrames_wf h) hw
  | tframeRd => exact execTframeRd_nextWf hs
  | tframeWr => exact execTframeWr_nextWf hs
  | mts => exact execMts_nextWf hs
  | tlbinvRange => exact execTlbinvRange_nextWf hs
  | tlbinvCtx => exact execTlbinvCtx_nextWf hs
  | splinter => exact execSplinter_nextWf hs
  | brkpt => exact execBrkpt_nextWf hs
  | brkptWset => exact execBrkptWset_nextWf hs
  | brkptWclr => exact execBrkptWclr_nextWf hs
  | haltallStop => exact execHaltallStop_nextWf hs
  | haltallGo => exact execHaltallGo_nextWf hs
  | halt | patrolScrub | mapDataRead => exact next_nextWf (ite_wf hs hs)
  | undo => exact execUndo_nextWf hs
  | stamp => exact execStamp_nextWf hs
  | bist => exact execBist_nextWf hs
  | memoryResponse => exact next_nextWf (respond_wf hs)
  | remoteTimeout => exact execRemoteTimeout_nextWf hs
  | releaseDeposit => exact next_nextWf (releaseStep_wf hs)
  | copyComplete => exact next_nextWf (copyDone_wf hs)
  | cpywPerform => exact next_nextWf (cpywStep_wf hs)
  | waitaPoll => exact next_nextWf (poll_wf hs)
  | waitaTimeout => exact execWaitaTimeout_nextWf hs
  | handOff => exact next_nextWf (handOffStep_wf hs)
  | kindNotAllowed => exact next_nextWf (ite_wf hs (receive_wf hs fun _ h => h))
  | uudPacket => exact next_nextWf (ite_wf (countError_wf hs) hs)
  | saInstall => exact next_nextWf (ite_wf hs (receive_wf hs fun _ h => saSet_wf h))
  | saRemove => exact next_nextWf (ite_wf (receive_wf hs fun _ h => saSet_wf h) hs)
  | launch => exact next_nextWf (receive_wf hs fun _ h => judgeLaunch_wf h)
  | completionRelease => exact next_nextWf (complete_wf hs)
  | heatRetire => exact next_nextWf (retireHeat_wf hs)
  | pacedIssue | powerExceedsCap | extest | samplePreload | idcode | clamp | highz | defread | resetBall => exact next_nextWf hs
  | promote => exact next_nextWf (promote_wf hs)
  | launchStart => exact next_nextWf (launchStart_wf hs)
  | relayStart => exact next_nextWf (relayStart_wf hs)
  | unitSave => exact next_nextWf (unitSave_wf hs)
  | suspendWindowExpiry => exact next_nextWf (windowExpiry_wf hs)
  | suspendDeadline => exact next_nextWf (deadline_wf hs)
  | unitRestore => exact next_nextWf (unitRestore_wf hs)
  | faultPost => exact next_nextWf (faultPost_wf hs)
  | faultPostRetry => exact next_nextWf (faultRetry_wf hs)
  | tlbinvComplete => exact next_nextWf (settleMaps_wf (tlbinvDone_wf hs))
  | pageDone => exact next_nextWf (receive_wf hs fun _ h => pageDone_wf h)
  | qctlSet | qctlPause | qctlUnpause => exact next_nextWf (qctl_wf hs fun _ h => h)
  | qctlFlush => exact next_nextWf (qctl_wf hs fun _ h => flushQueue_wf h)
  | ctxOpen => exact next_nextWf (receive_wf hs fun _ h => ctxOpen_wf h)
  | ctxClose => exact next_nextWf (receive_wf hs fun _ h => ctxClose_wf h)
  | ctxCloseDone => exact next_nextWf (closeDone_wf hs)
  | uetWrite => exact next_nextWf (uetTake_wf hs fun _ h => uetWrite_wf h)
  | uetRead => exact next_nextWf (uetTake_wf hs fun _ h => uetRead_wf h)
  | uetReleaseWrite => exact next_nextWf (uetTake_wf hs fun _ h => uetRelease_wf h)
  | readShared | readOwn | upgrade => exact next_nextWf (request_wf hs)
  | fwdShared => exact next_nextWf (fwdShared_wf hs)
  | fwdOwn => exact next_nextWf (fwdOwn_wf hs)
  | inval => exact next_nextWf (inval_wf hs)
  | backInval => exact next_nextWf (backInval_wf hs)
  | invalAck => exact next_nextWf (invalAck_wf hs)
  | dataClean | dataDirty => exact next_nextWf (data_wf hs)
  | writeBack => exact next_nextWf (writeBack_wf hs)
  | cleanEvict => exact next_nextWf (cleanEvict_wf hs)
  | backInvalAck => exact next_nextWf (backInvalAck_wf hs)
  | earlyClean => exact execEarlyClean_nextWf hs
  | linkLaneFailure => exact next_nextWf (judgeCapacity_wf (laneFails_wf hs))
  | uncorrectableError => exact next_nextWf (judgeCapacity_wf (errorAt_wf hs))
  | journalSave => exact next_nextWf (journalSave_wf hs)
  | requestBoundMiss => exact next_nextWf (suspect_wf hs)
  | suspicion => exact next_nextWf (probe_wf hs)
  | probeTimeout => exact next_nextWf (probeTimeout_wf hs)
  | probeAnswer => exact next_nextWf (probeAnswer_wf hs)
  | dieReset => exact next_nextWf (dieReset_wf hs)
  | dieRejoin => exact next_nextWf (dieRejoin_wf hs)
  | deal => exact next_nextWf (deal_wf hs)
  | powerGood => exact next_nextWf powerGood_wf
  | portRetrain => exact next_nextWf (ite_wf (retrain_wf hs) hs)
  | portTrainingDone => exact next_nextWf (trainingDone_wf hs)
  | bistDone => exact next_nextWf (bistDone_wf hs)
  | pack2 | pack4 | pack8 => exact issue_nextWf hs fun _ _ _ hw => packBody_wf hw
  | unpk2 | unpk4 | unpk8 => exact issue_nextWf hs fun _ _ _ hw => unpackBody_wf hw
  | pset | plog => exact issue_nextWf hs fun _ _ _ hw => Env.setPred_wf hw
  | vote => exact execVote_nextWf hs
  | marginRun => exact next_nextWf (ite_wf (marginRun_wf hs) hs)
  | marginDone | portErrorClear | dynamicAddress => exact next_nextWf (ite_wf (updSb_wf hs) hs)
  | mgmtAssocInstall => exact next_nextWf (ite_wf (assocWrite_wf hs) hs)
  | sidebandWrite => exact next_nextWf (ite_wf (sidebandWrite_wf hs) hs)
  | powerCapWrite => exact next_nextWf (ite_wf (setCap_wf hs) hs)
  | bypass => exact next_nextWf (ite_wf hs (updTap_wf hs))

theorem tryIssue_nextWf {key} (hs : MemWf s) : NextWf (tryIssue key s) := by
  unfold tryIssue
  split
  · exact next_nextWf hs
  · split
    · extract_lets t
      have ht : MemWf t := prepare_wf hs
      split
      · exact next_nextWf ht
      · split
        · exact exec_nextWf ht _
        · exact next_nextWf (issueIllegal_wf ht)
    · exact next_nextWf hs

theorem firstIssue_wf {keys t} (ht : firstIssue s keys = some t) (hs : MemWf s) : MemWf t := by
  induction keys with
  | nil => cases ht
  | cons key keys ih =>
    unfold firstIssue at ht
    split at ht
    next u hu =>
      split at ht
      · exact ih ht
      · cases ht
        exact tryIssue_nextWf hs _ hu
    next => exact ih ht

theorem issueHeat_nextWf {key} (hs : MemWf s) : NextWf (issueHeat key s) := by
  unfold issueHeat
  split
  · exact tryIssue_nextWf hs
  · split
    next h => exact next_nextWf (firstIssue_wf h hs)
    next => exact tryIssue_nextWf hs

theorem move_nextWf {m} (hs : MemWf s) : NextWf (move m s) := by
  unfold move
  cases m with
  | event i =>
    dsimp only
    split
    · exact next_nextWf hs
    · exact exec_nextWf hs i
  | issue key => exact issueHeat_nextWf hs
  | pass n => exact next_nextWf hs

theorem firstChange_wf {is t} (ht : firstChange s is = some t) (hs : MemWf s) : MemWf t := by
  induction is with
  | nil => cases ht
  | cons i is ih =>
    unfold firstChange at ht
    split at ht
    next u hu =>
      split at ht
      · exact ih ht
      · cases ht
        exact exec_nextWf hs i _ hu
    next => exact ih ht

theorem autoMove_nextWf (hs : MemWf s) : NextWf (autoMove s) := by
  unfold autoMove
  split
  next h => exact next_nextWf (firstChange_wf h hs)
  next =>
    split
    next h => exact next_nextWf (firstIssue_wf h hs)
    next => exact next_nextWf hs

theorem step_nextWf (hs : MemWf s) : NextWf (step s) := by
  unfold step
  split
  · exact move_nextWf (s := { s with agenda := _ }) hs
  · exact autoMove_nextWf hs

/-- Settles O59: memory is written by the bytes of a list and by a filter alone, and both keep its one form. -/
theorem everyStepKeepsMemoryCanonical : Obligations.EveryStepKeepsMemoryCanonical :=
  fun _ t hs ht => step_nextWf hs t ht

end Sys2Proof.Machine
end

section
/-! SUPPORT. The word TSPAWN in a heat whose kernel declared no tasks (R356, R382): a card's address that is not a multiple of 64 raises
ALIGN there and not PERM, so the statement O41 fails. -/

namespace Sys2Proof.Machine

open Sys2Proof Sys2Proof.Safe

/-- TSPAWN of the card whose address stands in v2 and v3, in every lane. -/
def spawnWord : Instr := .tspawn { guard := 12, neg := false, stop := false, flagB := false } (.v 2)

/-- Lane 0 stands at the word `spawnWord`. -/
def spawnIssue : Iss :=
  { key := placedKey, lanes := [0], pc := 0x10008, hdrAddr := 0x10000, hdr := placedHeader, entering := false, word := encode spawnWord }

/-- A heat of one lane, of a kernel without tasks, whose v2 and v3 give the address 1. -/
def strayHeat : Heat :=
  { key := placedKey, core := 0, part := 0, unit := 0, leg := 0, role := placedRole (Instr.opcode spawnWord), budget := 320, cls := 0, heatn := 1
    lanes := [({ pc := 0x10008, blk := some (0x10000, placedHeader) } : Lane).setV 2 1], active := true, service := true }

/-- The part with the word at hand in `strayHeat`. -/
def strayState : State := { State.reset with iss := some spawnIssue, heats := [strayHeat] }

theorem stray_issues : Issues spawnWord strayState spawnIssue strayHeat where
  iss := rfl
  heat := by decide +kernel
  some_lane := by decide
  lanes := by decide +kernel
  order := by decide
  legal := by decide +kernel
  role := by decide +kernel
  readable := by decide +kernel
  room := by decide +kernel
  mode := by decide +kernel
  clear := by decide +kernel

/-- What lane 0 of the heat raises by the word: ALIGN, with the address 1. -/
theorem stray_raises_align : ∀ t g, exec spawnWord strayState = .next t → t.heat? placedKey = some g →
    (g.lane 0).trap = some { cause := .align, addr := some 1 } := by
  have key : (match exec spawnWord strayState with
    | .next t => (t.heat? placedKey).all (fun g => (g.lane 0).trap == some { cause := .align, addr := some 1 })
    | _ => true) = true := by decide +kernel
  intro t g ht hg
  simpa [ht, hg] using key

/-- Refutes O41: in a heat whose kernel declared no tasks, a card's address that is not a multiple of 64 raises ALIGN (R382), not PERM. -/
theorem not_tspawnEntersItsCard : ¬ Obligations.TspawnEntersItsCard := by
  unfold Obligations.TspawnEntersItsCard
  intro H
  obtain ⟨t, ht, r, g, -, -, -, hg, -, hl⟩ := (H { guard := 12, neg := false, stop := false, flagB := false } (.v 2) 0 0 0).2
    strayState spawnIssue strayHeat stray_issues (by decide +kernel) (by decide +kernel) (by decide +kernel)
  have hperm : g.lane 0 = _ := (hl 0 (by decide +kernel)).trans (if_pos (by decide +kernel))
  have halign := stray_raises_align t g ht hg
  rw [hperm] at halign
  cases halign

end Sys2Proof.Machine
end

section
/-! SUPPORT. Translation, the reading of a successor list (R51) and the judgement of a publication (R374) do not see the heats: what they
read is the same with other heats, and what they change is changed beside them. -/

namespace Sys2Proof.Machine

open Sys2Proof Sys2Proof.Safe

/-- The state with other heats and another issue under way. -/
def State.onHeats (s : State) (H : List Heat) (I : Option Iss) : State := { s with heats := H, iss := I }

theorem entered_onHeats (s : State) (x : Iss) : entered s x = s.onHeats (entered s x).heats none := entered_eq s x

theorem ite_onHeats {H : List Heat} {I : Option Iss} {c d : Prop} [Decidable c] [Decidable d] {a b t u : State} (hcd : c ↔ d) (ha : a = t.onHeats H I)
    (hb : b = u.onHeats H I) : (if c then a else b) = (if d then t else u).onHeats H I := by
  subst ha hb
  by_cases hc : c
  · rw [if_pos hc, if_pos (hcd.1 hc)]
  · rw [if_neg hc, if_neg (mt hcd.2 hc)]

theorem pair_ite_onHeats {α : Type} {H : List Heat} {I : Option Iss} {c d : Prop} [Decidable c] [Decidable d] {p q r u : α × State} (hcd : c ↔ d)
    (hp : p = (r.1, r.2.onHeats H I)) (hq : q = (u.1, u.2.onHeats H I)) :
    (if c then p else q) = ((if d then r else u).1, (if d then r else u).2.onHeats H I) := by
  subst hp hq
  by_cases hc : c
  · rw [if_pos hc, if_pos (hcd.1 hc)]
  · rw [if_neg hc, if_neg (mt hcd.2 hc)]

section
variable (s : State) (H : List Heat) (I : Option Iss)

theorem walkFrom_onHeats (die va : Nat) (ls : List (Nat × Nat × Option Nat × Nat)) (table : Nat) :
    (s.onHeats H I).walkFrom die va ls table = s.walkFrom die va ls table := by
  induction ls generalizing table with
  | nil => rfl
  | cons a ls ih =>
    obtain ⟨shift, bits, leaf, align⟩ := a
    simp only [State.walkFrom, ih]
    rfl

theorem walk_onHeats (ctx die va : Nat) : (s.onHeats H I).walk ctx die va = s.walk ctx die va := walkFrom_onHeats s H I _ _ _ _

theorem cohPatch_onHeats (sec off : Nat) (bs : List Byte) : (s.onHeats H I).cohPatch sec off bs = (s.cohPatch sec off bs).onHeats H I := by
  simp only [State.cohPatch]
  split <;> rfl

theorem cohWrite_onHeats (pa : Nat) (bs : List Byte) : (s.onHeats H I).cohWrite pa bs = (s.cohWrite pa bs).onHeats H I :=
  List.foldl_hom (State.onHeats · H I) fun t c => cohPatch_onHeats t H I c.1 c.2.1 c.2.2

theorem cohPut_onHeats (pa n v : Nat) : (s.onHeats H I).cohPut pa n v = (s.cohPut pa n v).onHeats H I := cohWrite_onHeats _ _ _ _ _

theorem orPte_onHeats (pte i : Nat) : (s.onHeats H I).orPte pte i = (s.orPte pte i).onHeats H I := by
  simp only [State.orPte, cohPut_onHeats]
  split
  · rw [if_pos ‹_›]
  · rw [if_neg ‹_›]
    rfl

@[simp] theorem onHeats_tlb : (s.onHeats H I).tlb = s.tlb := rfl
@[simp] theorem onHeats_fencedDies : (s.onHeats H I).fencedDies = s.fencedDies := rfl

theorem enterCore_onHeats (core : Option Nat) (e : TlbE) : (s.onHeats H I).enterCore core e = (s.enterCore core e).onHeats H I := by
  cases core with
  | none => rfl
  | some c =>
    unfold State.enterCore
    refine ite_onHeats Iff.rfl rfl ?_
    extract_lets mine t mine' u
    have h : t = u.onHeats H I := by
      refine ite_onHeats Iff.rfl rfl ?_
      rw [show (s.onHeats H I).anyOf mine = s.anyOf mine' from rfl]
      cases s.anyOf mine' <;> rfl
    rw [h]
    rfl

theorem enterDie_onHeats (e : TlbE) : (s.onHeats H I).enterDie e = (s.enterDie e).onHeats H I := by
  unfold State.enterDie
  extract_lets mine t mine' u
  have h : t = u.onHeats H I := by
    refine ite_onHeats Iff.rfl rfl ?_
    rw [show (s.onHeats H I).anyOf mine = s.anyOf mine' from rfl]
    cases s.anyOf mine' <;> rfl
  rw [h]
  rfl

theorem translate_onHeats (ctx die : Nat) (core : Option Nat) (va : Nat) (use : Use) :
    (s.onHeats H I).translate ctx die core va use = ((s.translate ctx die core va use).1, (s.translate ctx die core va use).2.onHeats H I) := by
  simp only [State.translate, onHeats_tlb, onHeats_fencedDies, walk_onHeats, enterCore_onHeats, orPte_onHeats]
  cases List.find? _ s.tlb with
  | none =>
    cases s.walk _ _ _ with
    | error c => rfl
    | ok f =>
      dsimp only
      split_ifs
      · rfl
      · rfl
      · rw [enterDie_onHeats, enterCore_onHeats]
      · rw [enterDie_onHeats, enterCore_onHeats]
  | some e =>
    dsimp only
    split_ifs <;> rfl

theorem vread_onHeats (ctx die va n : Nat) :
    (s.onHeats H I).vread ctx die va n = ((s.vread ctx die va n).1, (s.vread ctx die va n).2.onHeats H I) := by
  unfold State.vread
  rw [translate_onHeats]
  generalize s.translate ctx die none va .read = p
  obtain ⟨r, t⟩ := p
  cases r with
  | error c => rfl
  | ok pa =>
    refine pair_ite_onHeats Iff.rfl (pair_ite_onHeats Iff.rfl rfl rfl) ?_
    dsimp only
    rw [translate_onHeats]
    generalize t.translate ctx die none _ .read = p
    obtain ⟨r, u⟩ := p
    cases r with
    | error c => rfl
    | ok pb => exact pair_ite_onHeats Iff.rfl rfl rfl

theorem argHead_onHeats (c : Card) (die i : Nat) : (s.onHeats H I).argHead c die i = s.argHead c die i := by
  simp only [State.argHead, vread_onHeats]

theorem readSuccessors_onHeats (c : Card) (die i : Nat) : (s.onHeats H I).readSuccessors c die i = s.readSuccessors c die i := by
  simp only [State.readSuccessors, vread_onHeats, argHead_onHeats]

theorem runSuccessors_onHeats (r : Run) : (s.onHeats H I).runSuccessors r = s.runSuccessors r := by
  simp only [State.runSuccessors, readSuccessors_onHeats]
  rfl

theorem tdoneTrap_onHeats (r : Run) : (s.onHeats H I).tdoneTrap r = s.tdoneTrap r := by
  simp only [State.tdoneTrap, runSuccessors_onHeats]

theorem judgeLap_onHeats (r : Run) (j : Nat) (fin : Bool) :
    (s.onHeats H I).judgeLap r j fin = ((s.judgeLap r j fin).1, (s.judgeLap r j fin).2.onHeats H I) := by
  unfold State.judgeLap
  refine pair_ite_onHeats Iff.rfl rfl (pair_ite_onHeats Iff.rfl rfl ?_)
  rw [translate_onHeats]
  generalize s.translate _ _ _ _ _ = p
  obtain ⟨r, t⟩ := p
  cases r with
  | error c => rfl
  | ok pa =>
    refine pair_ite_onHeats Iff.rfl rfl ?_
    exact pair_ite_onHeats Iff.rfl rfl (pair_ite_onHeats Iff.rfl rfl (pair_ite_onHeats Iff.rfl rfl (pair_ite_onHeats Iff.rfl rfl rfl)))

end

end Sys2Proof.Machine
end

section
/-! SUPPORT. TDONE and PUBLAP by the one lane of a task (R367, R384, R385): the lanes of a run through the entry into a block and through an
update of a lane, and the entry into the arbiter's queue. -/

namespace Sys2Proof.Machine

open Sys2Proof Sys2Proof.Safe

theorem lanesWhere_congr {h g : Heat} (p : Lane → Bool) (hl : g.lanes.length = h.lanes.length) (hp : ∀ l, l < h.lanes.length → p (g.lane l) = p (h.lane l)) :
    g.lanesWhere p = h.lanesWhere p := by
  unfold Heat.lanesWhere
  rw [hl]
  exact List.filter_congr fun l hm => hp l (by simpa [upto] using hm)

/-- A lane runs the task of a run and has not exited. -/
def Lane.runs (id : Nat) (y : Lane) : Bool := y.task = some id && !y.exited

theorem lanesOf_eq (s : State) (r : Run) :
    s.lanesOf r = (s.heats.filter r.ofHeat).flatMap (fun h => (h.lanesWhere (Lane.runs r.id)).map (fun l => (h.key, l))) := rfl

theorem lanesOf_updHeat (s : State) (k : HeatKey) (f : Heat → Heat) (r : Run) (hk : ∀ h, (f h).key = h.key)
    (hl : ∀ h, s.heat? k = some h → (f h).lanesWhere (Lane.runs r.id) = h.lanesWhere (Lane.runs r.id)) : (s.updHeat k f).lanesOf r = s.lanesOf r := by
  rw [lanesOf_eq, lanesOf_eq]
  unfold State.updHeat
  unfold State.heat? at hl
  generalize s.heats = hs at hl
  induction hs with
  | nil => rfl
  | cons a t ih =>
    rw [modifyFirst, List.filter_cons]
    rw [List.find?_cons] at hl
    have hf : r.ofHeat (f a) = r.ofHeat a := by unfold Run.ofHeat; rw [hk]
    by_cases ha : a.key = k
    · simp only [ha, decide_true, if_true, Option.some.injEq, forall_eq'] at hl ⊢
      rw [List.filter_cons, hf]
      split
      · rw [List.flatMap_cons, List.flatMap_cons, hl, hk]
      · rfl
    · simp only [ha, decide_false, Bool.false_eq_true, if_false] at hl ⊢
      rw [List.filter_cons]
      split
      · rw [List.flatMap_cons, List.flatMap_cons, ih hl]
      · exact ih hl

theorem lanesWhere_updLane (p : Lane → Bool) (h : Heat) (l : Nat) (f : Lane → Lane) (hf : p (f (h.lane l)) = p (h.lane l)) :
    (h.updLane l f).lanesWhere p = h.lanesWhere p := by
  refine lanesWhere_congr _ (Heat.length_updLane _ _ _) fun m _ => ?_
  rw [Heat.lane_updLane]
  split
  next hm => rw [hm.1, hf]
  next => rfl

theorem lanesWhere_unmark (p : Lane → Bool) (h : Heat) (ls : List Nat) (mask : Nat) (hp : ∀ y : Lane, p (y.unmark mask) = p y) :
    (h.unmark ls mask).lanesWhere p = h.lanesWhere p := by
  have hf := foldl_keeps (P := fun g : Heat => g.lanesWhere p = h.lanesWhere p) (f := fun g l => g.updLane l (fun x => x.unmark mask))
    (fun g l hg => (lanesWhere_updLane p g l _ (hp _)).trans hg) ls h rfl
  unfold Heat.unmark
  split <;> exact hf

/-- The entry into a block leaves the lanes of a run as they were. -/
theorem entered_lanesOf (s : State) (x : Iss) (r : Run) : (entered s x).lanesOf r = s.lanesOf r := by
  unfold entered enterBlock
  split
  · refine lanesOf_updHeat _ _ _ _ (fun h => by rw [Heat.unmark_key]; exact Heat.foldl_updLane_key _ _ h) fun h _ => ?_
    rw [lanesWhere_unmark _ _ _ _ fun _ => rfl]
    exact foldl_keeps (P := fun g : Heat => g.lanesWhere (Lane.runs r.id) = h.lanesWhere (Lane.runs r.id))
      (fun g l hg => (lanesWhere_updLane _ g l _ rfl).trans hg) x.lanes h rfl
  · rfl

theorem lanesOf_updLane {s : State} {k : HeatKey} {l : Nat} {f : Lane → Lane} {r : Run} {h : Heat} (hh : s.heat? k = some h)
    (hf : (f (h.lane l)).runs r.id = (h.lane l).runs r.id) : (s.updLane k l f).lanesOf r = s.lanesOf r := by
  refine lanesOf_updHeat _ _ _ _ (fun _ => rfl) fun g hg => ?_
  obtain rfl : h = g := Option.some.inj (hh.symm.trans hg)
  exact lanesWhere_updLane _ _ _ _ hf

theorem lane?_some {s : State} {k : HeatKey} {h : Heat} {l : Nat} (hh : s.heat? k = some h) (hl : l < h.lanes.length) : s.lane? k l = some (h.lane l) := by
  simp [State.lane?, hh, Heat.lane, hl]

theorem laneRun_some {s : State} {k : HeatKey} {h : Heat} {l : Nat} {r : Run} (hh : s.heat? k = some h) (hl : l < h.lanes.length)
    (ht : (h.lane l).task = some r.id) (hr : s.run? r.id = some r) : s.laneRun k l = some r := by
  simp [State.laneRun, lane?_some hh hl, ht, hr]

/-- A word with one active lane, which blocks, and that changes the rest of the part. -/
theorem oneBlocks_of {i : Instr} {P : Seen → Prop} {U : Seen → State} {F : Seen → Lane → Lane} (l : Nat) (body : Env → Work → Work)
    (hi : ∀ s, exec i s = issue i s body)
    (hb : ∀ s x h, Issues i s x h → P (seen i s x h) → ∃ (w : Work), active i x h = [l] ∧
      body (envOf i s x h) { s := entered s x } = w ∧ w.traps = [] ∧ w.stall = false ∧ w.stay = [l] ∧
      w.s = { U (seen i s x h) with heats := ((entered s x).updLane x.key l (F (seen i s x h))).heats, iss := none, now := s.now } ∧
      (F (seen i s x h) (h.lane l)).st ≠ .exited) :
    Acts i P U Seen.h (fun e _ y => F e y) := by
  refine acts_upd body hi fun s x h hI hP => ?_
  obtain ⟨w, ha, hw, htr, hst, hstay, hs, hlive⟩ := hb s x h hI hP
  have hlane (m : Nat) := Heat.lane_updLane h l m (F (seen i s x h))
  refine ⟨w, fun g => g.updLane l (F (seen i s x h)), hw, htr, hst, fun _ => rfl, hs, rfl, Heat.length_updLane _ _ _, fun m hm => ?_, fun m hm => ?_⟩
  · rw [hlane m]
    split
    next hc => rw [hc.1]; exact hlive
    next => exact Issues_live hI m hm
  · have hx : l ∈ x.lanes := (List.mem_filter.1 (ha ▸ List.mem_singleton_self l : l ∈ active i x h)).1
    rw [hlane m, hstay, ha]
    by_cases hml : m = l
    · subst hml
      simp [hm]
    · simp [hml]

theorem modifyAt_modifyAt {α : Type} (ls : List α) (l : Nat) (f g : α → α) : modifyAt (modifyAt ls l f) l g = modifyAt ls l (fun a => g (f a)) := by
  apply List.ext_getElem?
  intro j
  simp only [getElem?_modifyAt]
  split <;> simp [Function.comp_def]

theorem updLane_updLane (s : State) (k : HeatKey) (l : Nat) (f g : Lane → Lane) :
    (s.updLane k l f).updLane k l g = s.updLane k l (fun y => g (f y)) := by
  unfold State.updLane
  rw [State.updHeat_updHeat s k (fun h => h.updLane l f) _ fun _ => rfl]
  simp only [Heat.updLane, modifyAt_modifyAt]

theorem updRun_updRun (s : State) (i : Nat) (f g : Run → Run) (hf : ∀ q, (f q).id = q.id) : (s.updRun i f).updRun i g = s.updRun i (fun q => g (f q)) := by
  unfold State.updRun
  rw [modifyFirst_modifyFirst _ _ _ _ fun q hq => by rw [hf]; exact hq]

theorem run?_updRun {s : State} {i : Nat} {r : Run} (f : Run → Run) (hr : s.run? i = some r) (hf : ∀ q, (f q).id = q.id) :
    (s.updRun i f).run? i = some (f r) := by
  unfold State.run? State.updRun
  rw [find?_modifyFirst_self _ _ _ fun q hq => by rw [hf]; exact hq]
  exact congrArg (Option.map f) hr

theorem updRun_congr {s : State} {i : Nat} {r : Run} {f g : Run → Run} (hr : s.run? i = some r) (hf : f r = g r) : s.updRun i f = s.updRun i g := by
  unfold State.updRun
  rw [modifyFirst_congr _ f g _ fun q hq => by
    obtain rfl : r = q := Option.some.inj (hr.symm.trans hq)
    exact hf]

/-- The one lane that runs a task stands in a heat of the part. -/
structure OnlyLane (s : State) (k : HeatKey) (l : Nat) (h : Heat) (r : Run) : Prop where
  heat : s.heat? k = some h
  lane : l < h.lanes.length
  live : (h.lane l).exited = false
  task : (h.lane l).task = some r.id
  run : s.run? r.id = some r
  lanes : s.lanesOf r = [(k, l)]
  arb : ∀ q ∈ s.arb, q.run ≠ r.id

namespace OnlyLane

variable {s : State} {k : HeatKey} {l : Nat} {h : Heat} {r : Run}

theorem laneRun (ho : OnlyLane s k l h r) : s.laneRun k l = some r := laneRun_some ho.heat ho.lane ho.task ho.run

theorem notInArb (ho : OnlyLane s k l h r) : s.arb.any (fun q => q.run == r.id) = false :=
  List.any_eq_false.2 fun q hq => by simpa using ho.arb q hq

theorem updLane (ho : OnlyLane s k l h r) {f : Lane → Lane} (ht : (f (h.lane l)).task = (h.lane l).task)
    (he : (f (h.lane l)).exited = false) : OnlyLane (s.updLane k l f) k l (h.updLane l f) r where
  heat := by
    unfold State.updLane
    rw [State.heat?_updHeat_self s k (fun h => h.updLane l f) fun _ => rfl, ho.heat]
    rfl
  lane := by rw [Heat.length_updLane]; exact ho.lane
  live := by rw [Heat.lane_updLane, if_pos ⟨rfl, ho.lane⟩]; exact he
  task := by rw [Heat.lane_updLane, if_pos ⟨rfl, ho.lane⟩, ht]; exact ho.task
  run := ho.run
  lanes := (lanesOf_updLane ho.heat (by rw [Lane.runs, Lane.runs, ht, he, ho.live])).trans ho.lanes
  arb := ho.arb

theorem updRun (ho : OnlyLane s k l h r) (f : Run → Run) (hi : ∀ q, (f q).id = q.id) (hh : (f r).ofHeat = r.ofHeat) :
    OnlyLane (s.updRun r.id f) k l h (f r) where
  heat := ho.heat
  lane := ho.lane
  live := ho.live
  task := by rw [hi]; exact ho.task
  run := by rw [hi]; exact run?_updRun f ho.run hi
  lanes := by
    refine Eq.trans ?_ ho.lanes
    rw [lanesOf_eq, lanesOf_eq, hi, hh]
    rfl
  arb := fun q hq => by rw [hi]; exact ho.arb q hq

/-- The lane's stand, as the arbiter asks for it. -/
theorem st (ho : OnlyLane s k l h r) : (s.lane? k l).map Lane.st = some (h.lane l).st := by
  rw [lane?_some ho.heat ho.lane]; rfl

theorem allBlocked (ho : OnlyLane s k l h r) {q : Wait} {p : Wait → Bool} (hq : (h.lane l).st = .blocked q) (hp : p q = true) : s.allBlocked r p = true := by
  unfold State.allBlocked
  rw [ho.lanes]
  simp only [List.all_cons, List.all_nil, Bool.and_true, ho.st, hq, hp]

/-- A task whose one lane waits at its TDONE enters the arbiter's queue (R367). -/
theorem tryCommit (ho : OnlyLane s k l h r) (hq : (h.lane l).st = .blocked .tdone) :
    s.tryCommit r.id = { s.updRun r.id (fun q => { q with committing := true }) with arb := s.arb ++ [{ die := dieOf r.core, run := r.id }] } := by
  unfold State.tryCommit
  rw [ho.run]
  simp only [ho.allBlocked (p := (· = .tdone)) hq (by simp), ho.notInArb, Bool.not_false, Bool.and_self, if_true]

/-- A task whose one lane waits at a publication that the judgement allows enters the arbiter's queue (R385). -/
theorem tryPublish (ho : OnlyLane s k l h r) {j n : Nat} {fin : Bool} (hq : (h.lane l).st = .blocked (.publap j fin))
    (hj : s.judgeLap r j fin = (.publish n, s)) :
    s.tryPublish r.id = { s with arb := s.arb ++ [{ die := dieOf r.core, run := r.id, publish := some (n, fin) }] } := by
  unfold State.tryPublish
  rw [ho.run]
  simp only [ho.allBlocked (q := .publap j fin) hq, ho.notInArb, ho.lanes, ho.st, hq, hj, List.findSome?_cons, Bool.not_false, Bool.and_self, if_true]

end OnlyLane

/-- The premise of the words of a task with one active lane. -/
def OnlyRun (e : Seen) (l : Nat) (r : Run) : Prop :=
  e.act = [l] ∧ (e.h.lane l).task = some r.id ∧ e.s.run? r.id = some r ∧ e.s.lanesOf r = [(e.x.key, l)] ∧ ∀ q ∈ e.s.arb, q.run ≠ r.id

theorem OnlyRun.onlyLane {i : Instr} {s : State} {x : Iss} {h : Heat} {l : Nat} {r : Run} (hr : OnlyRun (seen i s x h) l r) (hI : Issues i s x h) :
    OnlyLane (entered s x) x.key l h r := by
  obtain ⟨ha, ht, hr, hls, harb⟩ := hr
  have hx : l ∈ x.lanes := (List.mem_filter.1 ((show active i x h = [l] from ha) ▸ List.mem_singleton_self l)).1
  refine ⟨hI.heat, (hI.lanes l hx).1, ?_, ht, ?_, (entered_lanesOf s x r).trans hls, ?_⟩
  · simp [Lane.exited, (hI.lanes l hx).2]
  · rw [entered_onHeats]; exact hr
  · rw [entered_onHeats]; exact harb

/-- The colours that a lane holds are marked release pending (R344). -/
def Lane.pendColours (y : Lane) : Lane := { y with held := y.held.map (fun q => { q with pending := true }) }

/-- A run with the successor list that its card gives (R51). -/
def State.withSucc (t : State) (q : Run) : Run := { q with succ := match t.runSuccessors q with | .ok l => l | .error _ => [] }

/-- What the reading of the successor list, the marks and the block of TDONE leave of the state (R344, R384). -/
def State.tdoneLane (s : State) (k : HeatKey) (l i : Nat) : State :=
  ((s.updLane k l Lane.pendColours).updRun i (s.updLane k l Lane.pendColours).withSucc).updLane k l (blocked .tdone)

/-- The run as TDONE hands it to the arbiter (R367, R384). -/
def State.tdoneRun (s : State) (r q : Run) : Run := { q with succ := (s.runSuccessors r).toOption.getD [], committing := true }

theorem tdoneLane_eq (s : State) (k : HeatKey) (l i : Nat) : s.tdoneLane k l i =
    (s.updLane k l (fun y => blocked .tdone y.pendColours)).updRun i (s.updLane k l Lane.pendColours).withSucc := by
  rw [← updLane_updLane s k l Lane.pendColours (blocked .tdone)]
  rfl

theorem tdoneRun_eq (s : State) (k : HeatKey) (l : Nat) (f : Lane → Lane) (r : Run) :
    { (s.updLane k l f).withSucc r with committing := true } = s.tdoneRun r r := by
  have hs : (s.updLane k l f).runSuccessors r = s.runSuccessors r := runSuccessors_onHeats s _ s.iss r
  unfold State.withSucc State.tdoneRun
  rw [hs]
  cases s.runSuccessors r <;> rfl

theorem OnlyLane.tdoneLane {s : State} {k : HeatKey} {l : Nat} {h : Heat} {r : Run} (ho : OnlyLane s k l h r) :
    (s.tdoneLane k l r.id).tryCommit r.id =
      { (s.updLane k l (fun y => blocked .tdone y.pendColours)).updRun r.id (s.tdoneRun r) with
        arb := s.arb ++ [{ die := dieOf r.core, run := r.id }] } := by
  have h1 := ho.updLane (f := fun y => blocked .tdone y.pendColours) rfl rfl
  have h2 := h1.updRun (s.updLane k l Lane.pendColours).withSucc (fun _ => rfl) rfl
  have hm : ((s.updLane k l (fun y => blocked .tdone y.pendColours)).updRun r.id (s.updLane k l Lane.pendColours).withSucc).updRun r.id
      (fun q => { q with committing := true }) = (s.updLane k l (fun y => blocked .tdone y.pendColours)).updRun r.id (s.tdoneRun r) :=
    (updRun_updRun _ _ (s.updLane k l Lane.pendColours).withSucc _ fun _ => rfl).trans (updRun_congr h1.run (tdoneRun_eq s k l _ r))
  rw [tdoneLane_eq]
  refine (h2.tryCommit (by rw [Heat.lane_updLane, if_pos ⟨rfl, ho.lane⟩]; rfl)).trans ?_
  exact congrArg (fun t : State => { t with arb := s.arb ++ [({ die := dieOf r.core, run := r.id } : CommitQ)] }) hm

theorem tdone_acts (c : Com) (l : Nat) (r : Run) :
    Acts (.tdone c) (fun e => OnlyRun e l r ∧ e.s.tdoneTrap r = none)
      (fun e => { e.s.updRun r.id (e.s.tdoneRun r) with arb := e.s.arb ++ [{ die := r.core / 64, run := r.id }] }) Seen.h
      (fun _ _ y => blocked .tdone y.pendColours) := by
  refine oneBlocks_of l _ (fun s => exec_tdone s c) fun s x h hI ⟨hruns, htr⟩ => ?_
  have ho := hruns.onlyLane hI
  have hread : (entered s x).tdoneRun r = s.tdoneRun r := by
    unfold State.tdoneRun; rw [entered_onHeats, runSuccessors_onHeats]
  have htr0 : (entered s x).tdoneTrap r = none := by rw [entered_onHeats, tdoneTrap_onHeats]; exact htr
  have hact : (envOf (.tdone c) s x h).act = [l] := hruns.1
  refine ⟨{ s := ((entered s x).tdoneLane x.key l r.id).tryCommit r.id, stay := [l], irrev := true }, hruns.1, ?_, rfl, rfl, rfl, ?_,
    by simp [blocked]⟩
  · rw [hact]
    simp only [List.foldl_cons, List.foldl_nil]
    rw [show (envOf (.tdone c) s x h).key = x.key from rfl]
    simp only [ho.laneRun, htr0]
    rfl
  · refine ho.tdoneLane.trans ?_
    rw [hread, entered_onHeats s x]
    rfl

/-- The judgement of a publication does not see the lanes, nor the entry into a block. -/
theorem judgeLap_entered {s : State} {r : Run} {j n : Nat} {fin : Bool} (hj : s.judgeLap r j fin = (.publish n, s)) (x : Iss) (k : HeatKey) (l : Nat)
    (f : Lane → Lane) : ((entered s x).updLane k l f).judgeLap r j fin = (.publish n, (entered s x).updLane k l f) := by
  rw [entered_onHeats s x]
  refine (judgeLap_onHeats s _ none r j fin).trans ?_
  rw [hj]
  rfl

theorem publap_acts (c : Com) (fin : Bool) (a : Src) (l n : Nat) (r : Run) :
    Acts (.publap c fin a) (fun e => OnlyRun e l r ∧ r.tile ≠ 0 ∧ e.s.judgeLap r (e.rd .n32 a l) fin = (.publish n, e.s))
      (fun e => { e.s with arb := e.s.arb ++ [{ die := r.core / 64, run := r.id, publish := some (n, fin) }] }) Seen.h
      (fun e _ y => blocked (.publap (e.rd .n32 a l) fin) y) := by
  refine oneBlocks_of l _ (fun s => exec_publap s c fin a) fun s x h hI ⟨hruns, htile, hjudge⟩ => ?_
  have ho := hruns.onlyLane hI
  have hb := ho.updLane (f := blocked (.publap (reads (.publap c fin a) s x h .n32 a l) fin)) rfl rfl
  have hact : (envOf (.publap c fin a) s x h).act = [l] := hruns.1
  refine ⟨{ s := State.tryPublish ((entered s x).updLane x.key l (blocked (.publap (reads (.publap c fin a) s x h .n32 a l) fin))) r.id, stay := [l]
            irrev := true }, hruns.1, ?_, rfl, rfl, rfl, ?_, by simp [blocked]⟩
  · rw [hact]
    simp only [List.foldl_cons, List.foldl_nil]
    rw [show (envOf (.publap c fin a) s x h).key = x.key from rfl]
    simp only [ho.laneRun, htile, if_false, envOf_src32]
    rfl
  · refine (hb.tryPublish (by rw [Heat.lane_updLane, if_pos ⟨rfl, ho.lane⟩]; rfl) (judgeLap_entered hjudge x _ _ _)).trans ?_
    rw [entered_onHeats s x]
    rfl

end Sys2Proof.Machine
end

section
/-! SUPPORT. The words of a task outside a task: PERM in every active lane (R384, R385, R388). -/

namespace Sys2Proof.Machine

open Sys2Proof Sys2Proof.Safe

/-- A fold whose every step raises the same trap in its lane. -/
theorem foldl_trapAll {step : Work → Nat → Work} {s : State} {t : Trap} {ls : List Nat}
    (hstep : ∀ w : Work, w.s = s → ∀ l ∈ ls, step w l = w.trap l t) {w : Work} (hw : w.s = s) : ls.foldl step w = w.trapAll ls t := by
  induction ls generalizing w with
  | nil => simp [Work.trapAll]
  | cons l ls ih =>
    rw [List.foldl_cons, hstep w hw l List.mem_cons_self, ih (fun w hw m hm => hstep w hw m (List.mem_cons_of_mem l hm)) (w := w.trap l t) hw]
    simp [Work.trapAll, Work.trap]

/-- The same beside a list that the traps leave alone. -/
theorem foldl_trapAll_fst {α : Type} {step : Work × α → Nat → Work × α} {s : State} {t : Trap} {ls : List Nat} {a : α}
    (hstep : ∀ w : Work, w.s = s → ∀ l ∈ ls, step (w, a) l = (w.trap l t, a)) {w : Work} (hw : w.s = s) :
    ls.foldl step (w, a) = (w.trapAll ls t, a) := by
  induction ls generalizing w with
  | nil => simp [Work.trapAll]
  | cons l ls ih =>
    rw [List.foldl_cons, hstep w hw l List.mem_cons_self, ih (fun w hw m hm => hstep w hw m (List.mem_cons_of_mem l hm)) (w := w.trap l t) hw]
    simp [Work.trapAll, Work.trap]

/-- A word that raises PERM in every lane of active(). -/
theorem perm_parked {i : Instr} {s : State} {x : Iss} {h : Heat} (hI : Issues i s x h) (hne : active i x h ≠ [])
    (ht : ∀ l ∈ x.lanes, (h.lane l).task = none) (body : Env → Work → Work) (hi : exec i s = issue i s body) (irr : Bool)
    (hb : body (envOf i s x h) { s := entered s x } = { s := entered s x, traps := (active i x h).map (fun l => (l, { cause := .perm })), irrev := irr }) :
    ∃ t, exec i s = .next t ∧ Parked s t x h (active i x h) (fun _ => { cause := .perm }) 11 := by
  obtain ⟨h0, -, he⟩ := issue_eq hI body
  refine ⟨_, hi.trans he, ?_⟩
  rw [hb]
  exact finish_parked hI.toStands rfl rfl rfl (active i x h) (fun _ => { cause := .perm }) 11 irr hne (self_filter _ _ _ rfl) ht
    (fun _ _ => rfl) (fun _ _ => by simp) (by omega)

section
variable {s : State} {x : Iss} {h : Heat} (ht : ∀ l ∈ x.lanes, (h.lane l).task = none)
include ht

theorem laneRun_active_none {i : Instr} (hI : Issues i s x h) : ∀ l ∈ active i x h, (entered s x).laneRun x.key l = none :=
  fun l hl => laneRun_none hI.heat (ht l (List.mem_filter.1 hl).1)

theorem tdone_perm {c : Com} (hI : Issues (.tdone c) s x h) (hne : active (.tdone c) x h ≠ []) :
    ∃ t, exec (.tdone c) s = .next t ∧ Parked s t x h (active (.tdone c) x h) (fun _ => { cause := .perm }) 11 := by
  refine perm_parked hI hne ht _ (exec_tdone s c) true ?_
  dsimp only
  rw [foldl_trapAll_fst (s := entered s x) (t := { cause := .perm }) (fun w hw l hl => ?_) rfl]
  · rfl
  · dsimp only
    rw [hw, show (envOf (.tdone c) s x h).key = x.key from rfl, laneRun_active_none ht hI l hl]

theorem publap_perm {c : Com} {fin : Bool} {a : Src} (hI : Issues (.publap c fin a) s x h) (hne : active (.publap c fin a) x h ≠ []) :
    ∃ t, exec (.publap c fin a) s = .next t ∧ Parked s t x h (active (.publap c fin a) x h) (fun _ => { cause := .perm }) 11 := by
  refine perm_parked hI hne ht _ (exec_publap s c fin a) true ?_
  dsimp only
  rw [foldl_trapAll_fst (s := entered s x) (t := { cause := .perm }) (fun w hw l hl => ?_) rfl]
  · rfl
  · dsimp only
    rw [hw, show (envOf (.publap c fin a) s x h).key = x.key from rfl, laneRun_active_none ht hI l hl]

theorem abortTasks_perm (i : Instr) (f : State → Run → State) :
    (envOf i s x h).abortTasks f { s := entered s x } = { s := entered s x, traps := (active i x h).map (fun l => (l, { cause := .perm })) } := by
  unfold Env.abortTasks Env.each
  refine foldl_trapAll (s := entered s x) (fun w _ l hl => ?_) rfl
  rw [show (envOf i s x h).h = h from rfl, ht l (List.mem_filter.1 hl).1]
  rfl

end

end Sys2Proof.Machine
end

section
/-! SUPPORT. Aborts (R369): what leaves the cards and the runs alone, and the requeue of a task. -/

namespace Sys2Proof.Machine

open Sys2Proof Sys2Proof.Safe

/-- The cards, the runs and the fenced dies. -/
def State.work (s : State) : List Card × List Run × List Nat := (s.cards, s.runs, s.fencedDies)

theorem foldl_work {α : Type} {f : State → α → State} (hf : ∀ t a, (f t a).work = t.work) (l : List α) (s : State) : (l.foldl f s).work = s.work :=
  foldl_keeps (P := fun t => t.work = s.work) (fun t a ht => (hf t a).trans ht) l s rfl

section
variable (s : State)

theorem cohPatch_work (sec off : Nat) (bs : List Byte) : (s.cohPatch sec off bs).work = s.work := by
  unfold State.cohPatch
  split <;> rfl
theorem cohWrite_work (pa : Nat) (bs : List Byte) : (s.cohWrite pa bs).work = s.work := foldl_work (fun t _ => cohPatch_work t _ _ _) _ s
theorem cohPut_work (pa n v : Nat) : (s.cohPut pa n v).work = s.work := cohWrite_work s _ _

theorem setMonQ_work (ctx colour : Nat) (q : List Waiter) : (s.setMonQ ctx colour q).work = s.work := by
  unfold State.setMonQ
  dsimp only
  split
  · rfl
  · exact cohWrite_work _ _ _

theorem setOwner_work (ctx colour tid : Nat) : (s.setOwner ctx colour tid).work = s.work := by
  unfold State.setOwner
  split
  · rfl
  · exact cohPut_work s _ _ _

theorem handOver_work (ctx colour : Nat) : (s.handOver ctx colour).work = s.work := by
  unfold State.handOver
  dsimp only
  split
  · exact setOwner_work s _ _ _
  · exact (setOwner_work _ _ _ _).trans (setMonQ_work s _ _ _)

theorem leaveQueues_work (k : HeatKey) (l : Nat) : (s.leaveQueues k l).work = s.work := by
  unfold State.leaveQueues
  refine (foldl_work (fun t c => ?_) _ _).trans (foldl_work (fun t e => ?_) _ s)
  · split
    · exact handOver_work t _ _
    · rfl
  · split
    · exact setMonQ_work t _ _ _
    · rfl

theorem handOnAll_work (k : HeatKey) (l : Nat) : (s.handOnAll k l).work = s.work :=
  (foldl_work (fun t _ => handOver_work (t.updLane k l _) _ _) _ _).trans (leaveQueues_work s k l)

theorem opDone_work (id l : Nat) : (s.opDone id l).work = s.work := by
  unfold State.opDone
  split
  · rfl
  · dsimp only
    split <;> rfl

theorem dropAccesses_work (k : HeatKey) (l : Nat) : (s.dropAccesses k l).work = s.work := by
  unfold State.dropAccesses
  refine Eq.trans (foldl_work (fun t i => ?_) _ _) ?_
  · exact opDone_work _ i l
  · rfl

theorem settleBar_work (unit team n : Nat) : (s.settleBar unit team n).work = s.work := by
  unfold State.settleBar
  split
  · rfl
  · dsimp only
    split <;> rfl

theorem settleBars_work (k : HeatKey) : (s.settleBars k).work = s.work := by
  unfold State.settleBars
  split
  · rfl
  · split
    · exact foldl_work (fun t n => settleBar_work t _ _ n) _ s
    · rfl

theorem exitLanes_work (r : Run) : (s.exitLanes r).work = s.work := by
  unfold State.exitLanes
  refine (foldl_work (fun t k => ?_) _ _).trans (foldl_work (fun t kl => ?_) _ s)
  · exact settleBars_work (t.updHeat k Heat.dropRunon) k
  · rfl

/-- An issue that raises nothing ends without a change to the cards and the runs. -/
theorem finish_work (e : Env) (h0 : Heat) (w : Work) (hts : w.traps = []) : (finish e h0 w).work = w.s.work := by
  unfold finish
  split
  · rfl
  · have hts' : (e.issuing.filterMap (fun l => w.traps.find? (fun t => t.1 = l))).isEmpty = true := by simp [hts]
    dsimp only
    rw [hts', if_pos rfl]
    exact settleBars_work _ e.key

end

/-- What an abort leaves of a run (R369). -/
def Run.aborted (r : Run) : Run := { r with rs := {}, ws := {}, buf := [], chunks := [], succ := [], flags := 0, committing := false }

theorem abortCommon_frame (s : State) (i : Nat) (keep : Option Nat) : (s.abortCommon i keep).cards = s.cards ∧
    (s.abortCommon i keep).fencedDies = s.fencedDies ∧ (s.abortCommon i keep).runs = modifyFirst (fun r => r.id = i) Run.aborted s.runs := by
  unfold State.abortCommon
  cases hr : s.run? i with
  | none => exact ⟨rfl, rfl, ((modifyFirst_congr _ Run.aborted (fun r => r) _ fun q hq => by rw [State.run?] at hr; simp [hr] at hq).trans (modifyFirst_id _ _)).symm⟩
  | some r =>
    have hw : ((s.lanesOf r).foldl (fun s kl => (s.handOnAll kl.1 kl.2).dropAccesses kl.1 kl.2) s).work = s.work :=
      foldl_work (fun t kl => (dropAccesses_work _ _ _).trans (handOnAll_work t _ _)) _ s
    obtain ⟨hc, hrs, hf⟩ : _ ∧ _ ∧ _ := by simpa [State.work] using hw
    exact ⟨hc, hf, congrArg (modifyFirst _ Run.aborted) hrs⟩

theorem abortCommon_run? {s : State} {i : Nat} {r : Run} (hr : s.run? i = some r) (keep : Option Nat) :
    (s.abortCommon i keep).run? i = some r.aborted := by
  unfold State.run?
  rw [(abortCommon_frame s i keep).2.2, find?_modifyFirst_self (fun (r : Run) => r.id = i) Run.aborted s.runs fun q hq => hq]
  exact congrArg (Option.map Run.aborted) hr

theorem card?_updCard {s : State} {i : Nat} {k : Card} {f : Card → Card} (hk : s.card? i = some k) (hf : ∀ q, (f q).id = q.id) :
    (s.updCard i f).card? i = some (f k) := by
  unfold State.card? State.updCard
  rw [find?_modifyFirst_self _ f _ fun q hq => by simpa [hf] using hq]
  exact congrArg (Option.map f) hk

/-- A card with a task changed. -/
def Card.updTask (k : Card) (i : Nat) (f : Task → Task) : Card := { k with tasks := Tbl.set k.tasks i (f (k.task i)) }

theorem Card.task_updTask (k : Card) (i : Nat) (f : Task → Task) : (k.updTask i f).task i = f (k.task i) := Tbl.get_set_self _ _ _

theorem card?_updTask {s : State} {i : Nat} {k : Card} (hk : s.card? i = some k) (j : Nat) (f : Task → Task) :
    (s.updTask i j f).card? i = some (k.updTask j f) := card?_updCard hk fun _ => rfl

/-- A card whose ready list ends in a task. -/
def Card.readyLast (j : Nat) (c : Card) : Card := { c with ready := c.ready.filter (· ≠ j) ++ [j] }

/-- A task whose die is in service goes back to the end of its card's ready list with the entry that it has (R369). -/
theorem requeue_card {s : State} {i j : Nat} {k : Card} (hk : s.card? i = some k) (hd : s.fencedDies.contains (k.task j).die = false) :
    (s.requeue i j).runs = s.runs ∧ ∃ q, (s.requeue i j).card? i = some q ∧ q.ready.getLast? = some j ∧
      (q.task j).st = .ready (k.task j).die (k.task j).entry := by
  have he : s.requeue i j = (s.updCard i (Card.readyLast j)).updTask i j (fun t => { t with st := .ready t.die t.entry }) := by
    unfold State.requeue
    rw [hk]
    dsimp only
    rw [hd]
    rfl
  rw [he]
  refine ⟨rfl, _, card?_updTask (card?_updCard (f := Card.readyLast j) hk fun _ => rfl) j _, by simp [Card.updTask, Card.readyLast], ?_⟩
  rw [Card.task_updTask]
  rfl

/-- The last task of a chunk leaves no run (R363). -/
theorem nextOfChunk_last {s : State} {i : Nat} {r : Run} (hr : s.run? i = some r) (hrest : r.rest = []) :
    (s.nextOfChunk i).cards = s.cards ∧ (s.nextOfChunk i).run? i = none := by
  unfold State.nextOfChunk
  rw [hr]
  dsimp only
  rw [hrest]
  refine ⟨congrArg Prod.fst (exitLanes_work s r), ?_⟩
  simp [State.run?, List.find?_filter]

/-- TABORT.requeue's abort of a task that is the last of its chunk (R369). -/
theorem abort_requeue {s : State} {r : Run} {k : Card} (hr : s.run? r.id = some r) (hrest : r.rest = []) (hk : s.card? r.card = some k)
    (hd : s.fencedDies.contains (k.task r.task).die = false) :
    (s.abort r.id (.requeue none)).run? r.id = none ∧ ∃ q, (s.abort r.id (.requeue none)).card? r.card = some q ∧ q.ready.getLast? = some r.task ∧
      (q.task r.task).st = .ready (k.task r.task).die (k.task r.task).entry := by
  obtain ⟨hc, hf, -⟩ := abortCommon_frame s r.id none
  have hk1 : (s.abortCommon r.id none).card? r.card = some k := by unfold State.card?; rw [hc]; exact hk
  unfold State.abort
  rw [hr]
  dsimp only
  have hk2 := card?_updTask hk1 r.task (fun t => { t with lapIn := (none : Option Nat).getD t.lapIn, base := none })
  have ht := Card.task_updTask k r.task (fun t => { t with lapIn := (none : Option Nat).getD t.lapIn, base := none })
  obtain ⟨hruns, q, hq, hlast, hst⟩ := requeue_card (j := r.task) hk2 (by rw [ht]; exact hf ▸ hd)
  have hr3 : State.run? _ r.id = some r.aborted := (congrArg (List.find? _) hruns).trans (abortCommon_run? hr none)
  obtain ⟨hcards, hnone⟩ := nextOfChunk_last hr3 hrest
  refine ⟨hnone, q, ?_, hlast, ?_⟩
  · unfold State.card?; rw [hcards]; exact hq
  · rw [hst, ht]

end Sys2Proof.Machine
end

section
/-! SUPPORT. The failure of a card (R380): the mark that it leaves, and what keeps that mark. -/

namespace Sys2Proof.Machine

open Sys2Proof Sys2Proof.Safe

/-- Whether a card has failed. -/
def State.failed? (s : State) (i : Nat) : Option Bool := (s.card? i).map Card.failed

theorem failed?_of_work {s t : State} (h : t.work = s.work) (i : Nat) : t.failed? i = s.failed? i := by
  unfold State.failed? State.card?
  rw [show t.cards = s.cards from congrArg Prod.fst h]

theorem card?_updCard_ne (s : State) {i j : Nat} (hj : j ≠ i) (f : Card → Card) (hf : ∀ q, (f q).id = q.id) : (s.updCard i f).card? j = s.card? j :=
  find?_modifyFirst_ne _ _ f s.cards fun a ha => by
    have ha : a.id = i := by simpa using ha
    simp [hf, ha, Ne.symm hj]

theorem failed?_updCard (s : State) (i j : Nat) (f : Card → Card) (hi : ∀ q, (f q).id = q.id) (hf : ∀ q, (f q).failed = q.failed) :
    (s.updCard i f).failed? j = s.failed? j := by
  unfold State.failed?
  by_cases hj : j = i
  · subst hj
    cases hk : s.card? j with
    | none =>
      have hid : s.updCard j f = s := by
        unfold State.updCard
        rw [modifyFirst_congr _ f (fun q => q) _ fun q hq => by rw [State.card?] at hk; simp [hk] at hq, modifyFirst_id]
      rw [hid, hk]
    | some k => rw [card?_updCard hk hi]; simp [hf]
  · rw [card?_updCard_ne s hj f hi]

theorem foldl_failed? {α : Type} {f : State → α → State} (i : Nat) (hf : ∀ t a, (f t a).failed? i = t.failed? i) (l : List α) (s : State) :
    (l.foldl f s).failed? i = s.failed? i :=
  foldl_keeps (P := fun t => t.failed? i = s.failed? i) (fun t a ht => (hf t a).trans ht) l s rfl

section
variable (s : State)

theorem enterCore_work (core : Option Nat) (e : TlbE) : (s.enterCore core e).work = s.work := by
  unfold State.enterCore
  split
  · rfl
  · split
    · rfl
    · dsimp only
      split
      · rfl
      · split <;> rfl

theorem enterDie_work (e : TlbE) : (s.enterDie e).work = s.work := by
  unfold State.enterDie
  dsimp only
  split
  · rfl
  · split <;> rfl

theorem orPte_work (pte i : Nat) : (s.orPte pte i).work = s.work := by
  unfold State.orPte
  dsimp only
  split
  · rfl
  · exact cohPut_work s _ _ _

theorem translate_work (ctx die : Nat) (core : Option Nat) (va : Nat) (use : Use) : (s.translate ctx die core va use).2.work = s.work := by
  unfold State.translate
  dsimp only
  split
  next e _ =>
    split
    · rfl
    · split
      · rfl
      · dsimp only
        split
        · exact (orPte_work (s.enterCore core e) e.pte 5).trans (enterCore_work s core e)
        · exact enterCore_work s core e
  next =>
    split
    · rfl
    next f _ =>
      split
      · rfl
      · split
        · rfl
        · dsimp only
          rw [enterCore_work, enterDie_work]
          split
          · rw [orPte_work, orPte_work]
          · rw [orPte_work]

theorem decrement_work (ctx die arec : Nat) : (s.decrement ctx die arec).2.work = s.work := by
  have ht := translate_work s ctx die none arec .write
  unfold State.decrement
  revert ht
  generalize s.translate ctx die none arec .write = p
  intro ht
  rcases p with ⟨c | pa, u⟩
  · exact ht
  · dsimp only
    split
    · exact ht
    · split
      · exact ht
      · exact (cohPut_work u _ _ _).trans ht

theorem updTask_failed? (i j : Nat) (f : Task → Task) (id : Nat) : (s.updTask i j f).failed? id = s.failed? id :=
  failed?_updCard s _ _ _ (fun _ => rfl) (fun _ => rfl)

theorem seat_failed? (i j id : Nat) : (s.seat i j).failed? id = s.failed? id := by
  unfold State.seat
  split
  · rfl
  · dsimp only
    split
    · exact updTask_failed? s _ _ _ _
    · exact updTask_failed? s _ _ _ _

theorem makeReady_failed? (i j id : Nat) : (s.makeReady i j).failed? id = s.failed? id := by
  unfold State.makeReady
  refine (seat_failed? _ _ _ _).trans ?_
  exact (updTask_failed? (s.updCard i (Card.readyLast j)) i j (fun t => { t with rank := s.nid }) id).trans
    (failed?_updCard s i id (Card.readyLast j) (fun _ => rfl) (fun _ => rfl))

theorem entriesFreed_failed? (id : Nat) : s.entriesFreed.failed? id = s.failed? id := by
  unfold State.entriesFreed
  exact foldl_failed? id (fun t x => seat_failed? t _ _ id) _ s

theorem postDealer_failed? (die : Nat) (d : Dealer) (x : Cause) (addr id : Nat) : (s.postDealer die d x addr).failed? id = s.failed? id := by
  unfold State.postDealer
  split <;> rfl

theorem fireEdge_failed? (ctx die va e lap : Nat) (pair : Option (Nat × Nat)) (id : Nat) :
    (s.fireEdge ctx die va e lap pair).2.failed? id = s.failed? id := by
  have hd := failed?_of_work (decrement_work s ctx die (fld e 0 56)) id
  unfold State.fireEdge
  extract_lets arec
  split
  next heq => rw [heq] at hd; exact hd
  next t c hc heq => rw [heq] at hd; exact hd
  next res t _ _ heq =>
    rw [heq] at hd
    extract_lets u
    have hu : u.failed? id = s.failed? id := by
      refine Eq.trans ?_ hd
      unfold u
      split
      · exact failed?_of_work (cohPut_work t _ _ _) id
      · rfl
    clear_value u
    split
    · exact hu
    · split
      · exact hu
      · dsimp only
        split
        · exact (makeReady_failed? _ _ _ _).trans ((updTask_failed? u _ _ _ _).trans hu)
        · exact (updTask_failed? u _ _ _ _).trans hu

theorem abortCommon_failed? (i : Nat) (keep : Option Nat) (id : Nat) : (s.abortCommon i keep).failed? id = s.failed? id := by
  unfold State.failed? State.card?
  rw [(abortCommon_frame s i keep).1]

theorem discard_failed? (r : Run) (id : Nat) : (((s.abortCommon r.id none).exitLanes r).freeTokens r.id).failed? id = s.failed? id :=
  (failed?_of_work (exitLanes_work (s.abortCommon r.id none) r) id).trans (abortCommon_failed? s r.id none id)

end

theorem failOne_marks {s : State} {i : Nat} {k : Card} (hk : s.card? i = some k) (hf : k.failed = false) (die : Nat) :
    ∃ (u : State) (f : Card → Card), (s.failOne i die).2 = u.updCard i f ∧ (∀ j, u.failed? j = s.failed? j) ∧ (∀ q, (f q).id = q.id) ∧
      ∀ q, (f q).failed = true := by
  unfold State.failOne
  rw [hk]
  dsimp only
  rw [hf, if_neg (by simp)]
  refine ⟨_, _, rfl, fun j => ?_, fun _ => rfl, fun _ => rfl⟩
  refine (foldl_keeps (P := fun acc : List (Nat × Nat) × State => acc.2.failed? j = s.failed? j) (fun acc i hacc => ?_) _ _ ?_)
  · refine (foldl_keeps (P := fun acc : List (Nat × Nat) × State => acc.2.failed? j = s.failed? j) (fun acc e hacc => ?_) _ _ ?_)
    · dsimp only
      have hfire := (fireEdge_failed? acc.2 k.ctx die e.1 e.2 15 none j).trans hacc
      split
      · exact (postDealer_failed? _ _ _ _ _ _).trans hfire
      · exact hfire
    · refine Eq.trans ?_ hacc
      dsimp only
      split
      · rfl
      · split
        · exact failed?_of_work (cohPut_work _ _ _ _) j
        · rfl
  · exact foldl_failed? j (fun t r => discard_failed? t r j) _ s

theorem failed?_updCard_true {u : State} {i j : Nat} {f : Card → Card} (hi : ∀ q, (f q).id = q.id) (hf : ∀ q, (f q).failed = true)
    (hu : u.failed? j = some true) : (u.updCard i f).failed? j = some true := by
  unfold State.failed? at *
  by_cases hj : j = i
  · subst hj
    cases hk : u.card? j with
    | none => rw [hk] at hu; cases hu
    | some k => rw [card?_updCard hk hi]; simp [hf]
  · rw [card?_updCard_ne u hj f hi]
    exact hu

/-- A card's failure marks it failed (R380). -/
theorem failOne_self {s : State} {i : Nat} {k : Card} (hk : s.card? i = some k) (hf : k.failed = false) (die : Nat) :
    (s.failOne i die).2.failed? i = some true := by
  obtain ⟨u, f, he, hu, hi, hft⟩ := failOne_marks hk hf die
  rw [he]
  cases huk : u.card? i with
  | none => have := hu i; simp [State.failed?, huk, hk] at this
  | some q => unfold State.failed?; rw [card?_updCard huk hi]; simp [hft]

/-- A card that has failed stays so through the failure of any card. -/
theorem failOne_keeps {s : State} {j : Nat} (hj : s.failed? j = some true) (i die : Nat) : (s.failOne i die).2.failed? j = some true := by
  cases hk : s.card? i with
  | none => unfold State.failOne; rw [hk]; exact hj
  | some k =>
    cases hf : k.failed with
    | true => unfold State.failOne; rw [hk]; dsimp only; rw [hf, if_pos rfl]; exact hj
    | false =>
      obtain ⟨u, f, he, hu, hi, hft⟩ := failOne_marks hk hf die
      rw [he]
      exact failed?_updCard_true hi hft ((hu j).trans hj)

theorem failCards_keeps {j : Nat} (n : Nat) : ∀ (l : List (Nat × Nat)) (s : State), s.failed? j = some true → (State.failCards n l s).failed? j = some true := by
  induction n with
  | zero => exact fun _ _ h => h
  | succ n ih =>
    intro l s hs
    rw [State.failCards]
    split
    · exact hs
    · exact ih _ _ (failOne_keeps hs _ _)

/-- A live card that fails is marked so (R380). -/
theorem failCard_failed {s : State} {i : Nat} {k : Card} (hk : s.card? i = some k) (hf : k.failed = false) (die : Nat) :
    (s.failCard i die).failed? i = some true := by
  unfold State.failCard
  rw [entriesFreed_failed?, State.failCards]
  have hl : [(i, die)].filter (fun x => ((s.card? x.1).map (fun c => !c.failed)).getD false) = [(i, die)] := by simp [hk, hf]
  rw [hl]
  exact failCards_keeps _ _ _ (failOne_self hk hf die)

end Sys2Proof.Machine
end

section
/-! SUPPORT. TABORT (R388), and the statement O40. -/

namespace Sys2Proof.Machine

open Sys2Proof Sys2Proof.Safe

/-- TABORT by the one lane of a task that may be aborted: the abort, and nothing raised (R388). -/
theorem abortTasks_one {i : Instr} {s : State} {x : Iss} {h : Heat} {l : Nat} {r : Run} (hr : OnlyRun (seen i s x h) l r) (hirr : r.irrevocable = false)
    (f : State → Run → State) :
    (envOf i s x h).abortTasks f { s := entered s x } = { s := f (entered s x) r, stay := [l], irrev := true } := by
  obtain ⟨ha, ht, hrun, -, -⟩ := hr
  have hrun' : (entered s x).run? r.id = some r := by rw [entered_onHeats]; exact hrun
  unfold Env.abortTasks Env.each
  rw [show (envOf i s x h).act = [l] from ha, List.foldl_cons, List.foldl_nil, show (envOf i s x h).h = h from rfl]
  dsimp only
  rw [show (h.lane l).task = some r.id from ht, Option.bind_some, show (envOf i s x h).base.run? r.id = some r from hrun]
  dsimp only
  rw [hirr, hrun']
  rfl

/-- How a word ends that one lane of a task gives: the rest of its end leaves the cards and the runs as the body left them. -/
theorem abort_exec {i : Instr} {s : State} {x : Iss} {h : Heat} {l : Nat} {r : Run} (hI : Issues i s x h) (hr : OnlyRun (seen i s x h) l r)
    (hirr : r.irrevocable = false) (f : Env → State → Run → State) (hi : exec i s = issue i s (fun e w => e.abortTasks (f e) w)) :
    ∃ t, exec i s = .next t ∧ t.work = (f (envOf i s x h) (entered s x) r).work := by
  obtain ⟨h0, -, he⟩ := issue_eq hI (fun e w => e.abortTasks (f e) w)
  refine ⟨_, hi.trans he, ?_⟩
  rw [abortTasks_one hr hirr, finish_work]
  rfl

theorem entered_work (s : State) (x : Iss) : (entered s x).work = s.work := by rw [entered_onHeats]; rfl

/-- The lookups that see only what `State.work` gives. -/
theorem card?_of_work {s t : State} (h : t.work = s.work) (i : Nat) : t.card? i = s.card? i := by
  unfold State.card?
  rw [show t.cards = s.cards from congrArg Prod.fst h]

theorem run?_of_work {s t : State} (h : t.work = s.work) (i : Nat) : t.run? i = s.run? i := by
  unfold State.run?
  rw [show t.runs = s.runs from congrArg (fun w => w.2.1) h]

theorem tabortRequeue_requeues {c : Com} {s : State} {x : Iss} {h : Heat} {l : Nat} {r : Run} {k : Card} (hI : Issues (.tabortRequeue c) s x h)
    (hr : OnlyRun (seen (.tabortRequeue c) s x h) l r) (hirr : r.irrevocable = false) (hrest : r.rest = []) (hk : s.card? r.card = some k)
    (hd : s.fencedDies.contains (k.task r.task).die = false) :
    ∃ t q, exec (.tabortRequeue c) s = .next t ∧ t.run? r.id = none ∧ t.card? r.card = some q ∧ q.ready.getLast? = some r.task ∧
      (q.task r.task).st = .ready (k.task r.task).die (k.task r.task).entry := by
  obtain ⟨t, ht, hw⟩ := abort_exec hI hr hirr (fun _ s r => s.abort r.id (.requeue none)) (exec_tabortRequeue s c)
  have he := entered_work s x
  obtain ⟨hrun, q, hq, hlast, hst⟩ := abort_requeue (s := entered s x) ((run?_of_work he _).trans hr.2.2.1) hrest ((card?_of_work he _).trans hk)
    (by rw [show (entered s x).fencedDies = s.fencedDies from congrArg (fun w => w.2.2) he]; exact hd)
  exact ⟨t, q, ht, (run?_of_work hw _).trans hrun, (card?_of_work hw _).trans hq, hlast, hst⟩

theorem tabortFail_fails {c : Com} {s : State} {x : Iss} {h : Heat} {l : Nat} {r : Run} {k : Card} (hI : Issues (.tabortFail c) s x h)
    (hr : OnlyRun (seen (.tabortFail c) s x h) l r) (hirr : r.irrevocable = false) (hk : s.card? r.card = some k) (hf : k.failed = false) :
    ∃ t q, exec (.tabortFail c) s = .next t ∧ t.card? r.card = some q ∧ q.failed = true := by
  obtain ⟨t, ht, hw⟩ := abort_exec hI hr hirr (fun e s r => s.failCard r.card e.die) (exec_tabortFail s c)
  have hfail := failCard_failed ((card?_of_work (entered_work s x) r.card).trans hk) hf (envOf (.tabortFail c) s x h).die
  rw [← failed?_of_work hw] at hfail
  obtain ⟨q, hq, hqf⟩ := Option.map_eq_some_iff.1 hfail
  exact ⟨t, q, ht, hq, hqf⟩

theorem tabort_perm {i : Instr} {c : Com} (hi : i = .tabortRequeue c ∨ i = .tabortFail c) {s : State} {x : Iss} {h : Heat} (hI : Issues i s x h)
    (hne : active i x h ≠ []) (ht : ∀ l ∈ x.lanes, (h.lane l).task = none) :
    ∃ t, exec i s = .next t ∧ Parked s t x h (active i x h) (fun _ => { cause := .perm }) 11 := by
  rcases hi with rfl | rfl
  · exact perm_parked hI hne ht _ (exec_tabortRequeue s c) false (abortTasks_perm ht _ _)
  · exact perm_parked hI hne ht _ (exec_tabortFail s c) false (abortTasks_perm ht _ _)

/-- Settles O40: TDONE and PUBLAP by the state that the arbiter's entry finds once the task's one lane is blocked, the two aborts by
what each operation of an abort leaves of the cards and the runs, and the PERM outside a task by the fold that raises it lane by lane. -/
theorem taskWordsEndOrPublish : Obligations.TaskWordsEndOrPublish := by
  unfold Obligations.TaskWordsEndOrPublish
  intro c fin a l n r runs
  refine ⟨tdone_acts c l r, publap_acts c fin a l n r, fun s x h k hI hr hirr hrest hk hd => tabortRequeue_requeues hI hr hirr hrest hk hd,
    fun s x h k hI hr hirr hk hf => tabortFail_fails hI hr hirr hk hf, fun i hi s x h hI hne ht => ?_⟩
  rcases hi with rfl | rfl | hi
  · exact tdone_perm ht hI hne
  · exact publap_perm ht hI hne
  · exact tabort_perm hi hI hne ht

end Sys2Proof.Machine
end

section
/-! SUPPORT. Accesses of a peer to the remote window (R64, R315 to R317): when one is taken, what the port agent admits in one page, and
the statement O51. -/

namespace Sys2Proof.Machine

open Sys2Proof Sys2Proof.Safe

/-! Whether a port carries traffic is a matter of the ports, of the dies in service and of the fenced lanes (R16, R17). -/

theorem carries_congr {s t : State} (hp : t.ports = s.ports) (hd : t.fencedDies = s.fencedDies) (hf : t.field = s.field)
    (hu : t.fused = s.fused) (p half : Nat) :
    t.carries p half = s.carries p half := by
  unfold State.carries State.halves State.portUp State.halfFenced State.mapByte State.port
  rw [hp, hd, hf, hu]

theorem countError_carries (s : State) (q p half : Nat) : (s.countError q).carries p half = s.carries p half := rfl

theorem bankIn_carries (s : State) (ctx origin pa p half : Nat) : (s.bankIn ctx origin pa).carries p half = s.carries p half := rfl

theorem l1Drop_carries (s : State) (core : Nat) (q : Nat → Bool) (p half : Nat) : (s.l1Drop core q).carries p half = s.carries p half := rfl

theorem ownWrite_carries (s : State) (die pa : Nat) (bs : List Byte) (p half : Nat) : (s.ownWrite die pa bs).carries p half = s.carries p half := by
  have hc := ownWrite_cached s die pa bs
  exact carries_congr (by rw [hc]) (by rw [hc]) (by rw [hc]) (by rw [hc]) p half

theorem portWrite_carries (s : State) (ctx port pa : Nat) (bs : List Byte) (p half : Nat) :
    (s.portWrite ctx port pa bs).carries p half = s.carries p half := by
  unfold State.portWrite
  exact foldl_keeps (P := fun t : State => t.carries p half = s.carries p half) (fun t a h => (bankIn_carries t _ _ _ p half).trans h) _ _ (ownWrite_carries s _ _ _ p half)

theorem deposit_carries (s : State) (ctx origin : Nat) (sc : Scope) (d : Sig) (obj : Option (Nat × Nat)) (flags p half : Nat) :
    (s.deposit ctx origin sc d obj flags).carries p half = s.carries p half := by
  unfold State.deposit
  dsimp only
  cases obj with
  | none =>
    dsimp only
    split
    · rfl
    · exact ownWrite_carries _ _ _ _ p half
  | some o =>
    refine (ownWrite_carries _ _ _ _ p half).trans ((l1Drop_carries _ _ _ p half).trans ?_)
    split
    · rfl
    · exact ownWrite_carries _ _ _ _ p half

theorem portRelease_carries (s : State) (ctx port : Nat) (sc : Scope) (obj : Option (Nat × Nat)) (flags p half : Nat) :
    (s.portRelease ctx port sc obj flags).carries p half = s.carries p half := deposit_carries _ _ _ _ _ _ _ p half

/-! An access that the port takes, and its answer. -/

/-- The answer that leaves by the port on which the access came. -/
def answered (u : Uet) (ok : Bool) (bs : List Byte) (s : State) : State :=
  { s with uet := s.uet ++ [{ port := u.port, half := u.half, peer := u.sender, ok := ok, data := bs }] }

theorem uetAnswer_true {s : State} {u : Uet} (h : s.carries u.port u.half = true) (bs : List Byte) :
    s.uetAnswer u true bs = answered u true bs s := by
  unfold State.uetAnswer
  rw [if_pos rfl]
  dsimp only
  rw [wayOut_up h]
  rfl

theorem uetAnswer_false {s : State} {u : Uet} (h : s.carries u.port u.half = true) :
    s.uetAnswer u false [] = answered u false [] (s.countError u.port) := by
  unfold State.uetAnswer
  rw [if_neg (by decide)]
  dsimp only
  rw [wayOut_up ((countError_carries s _ _ _).trans h)]
  rfl

section
variable {s : State} {u : Uet}

/-- An access on a port that carries traffic, by a context that takes unsecured ones or under an association (R64). -/
def State.takes (s : State) (u : Uet) : Prop :=
  s.carries u.port u.half = true ∧ ((s.ctx (uetCtx u.header)).secure = false ∨ ∃ i, u.travel = .association i)

theorem uetTake_taken (h : s.takes u) (f : State → State) : s.uetTake u f = f s := by
  obtain ⟨hup, hsec⟩ := h
  unfold State.uetTake
  dsimp only
  rw [hup, if_neg (by decide), if_neg]
  rcases hsec with hsec | ⟨i, ht⟩
  · rw [hsec]; cases u.travel <;> simp
  · rw [ht]; simp

theorem uetTake_unsecured (hup : s.carries u.port u.half = true) (ho : (s.ctx (uetCtx u.header)).opened = true)
    (hsec : (s.ctx (uetCtx u.header)).secure = true) (ht : ∀ i, u.travel ≠ .association i) (f : State → State) :
    s.uetTake u f = s.countError u.port := by
  unfold State.uetTake
  dsimp only
  rw [hup, if_neg (by decide), ho, hsec, if_pos]
  cases he : u.travel with
  | association i => exact absurd he (ht i)
  | _ => rfl

theorem uetTake_down (hup : s.carries u.port u.half = false) (f : State → State) : s.uetTake u f = s := by
  unfold State.uetTake
  dsimp only
  rw [hup, if_pos (by decide)]

/-- A context that is not open, or an access that no endpoint entry admits (R316). -/
theorem uetAt_unadmitted (h : (s.ctx (uetCtx u.header)).opened = false ∨ s.admits u = false) (n : Nat) (use : Use) (ok : Bool) :
    s.uetAt u n use ok = (none, s) := by
  unfold State.uetAt
  dsimp only
  rw [if_pos]
  rcases h with h | h <;> simp [h]

/-- An access of which some page is refused (R315, R316). -/
theorem uetAt_unmapped {n : Nat} {use : Use} (h : (State.uetPages (uetCtx u.header) (u.port / 3) use (cutPages u.va n) s).1 = none) (ok : Bool) :
    s.uetAt u n use ok = (none, s) := by
  unfold State.uetAt
  dsimp only
  split
  · rfl
  · obtain ⟨t, ht⟩ : ∃ t, State.uetPages (uetCtx u.header) (u.port / 3) use (cutPages u.va n) s = (none, t) := ⟨_, Prod.ext h rfl⟩
    rw [ht]

/-- The pages of an access that the port agent admits. -/
theorem uetAt_admitted {n : Nat} {use : Use} {ps : List (Nat × Nat)} (ho : (s.ctx (uetCtx u.header)).opened = true) (ha : s.admits u = true)
    (hp : State.uetPages (uetCtx u.header) (u.port / 3) use (cutPages u.va n) s = (some ps, s)) : s.uetAt u n use true = (some ps, s) := by
  unfold State.uetAt
  dsimp only
  rw [ho, ha, if_neg (by decide), hp]

end

section
variable {s : State} {u : Uet} {data : List Byte} {n : Nat} {v : W64}

/-- A write whose pages are refused is refused. -/
theorem uetWrite_refused (hup : s.carries u.port u.half = true) (h : ∀ ok, s.uetAt u data.length .write ok = (none, s)) :
    s.uetWrite u data = answered u false [] (s.countError u.port) := by
  unfold State.uetWrite
  rw [h]
  exact uetAnswer_false hup

theorem uetRead_refused (hup : s.carries u.port u.half = true) (h : ∀ ok, s.uetAt u n .read ok = (none, s)) :
    s.uetRead u n = answered u false [] (s.countError u.port) := by
  unfold State.uetRead
  rw [h]
  exact uetAnswer_false hup

theorem uetRelease_refused (hup : s.carries u.port u.half = true) (h : ∀ ok, s.uetAt u 8 .write ok = (none, s)) (x : Nat) :
    s.uetRelease u x = answered u false [] (s.countError u.port) := by
  unfold State.uetRelease
  dsimp only
  rw [h]
  exact uetAnswer_false hup

theorem uetWrite_onePage {pa : Nat} (hup : s.carries u.port u.half = true) (hh : plainHeader u.header = true)
    (h : s.uetAt u data.length .write true = (some [(pa, data.length)], s)) :
    s.uetWrite u data = answered u true [] (s.portWrite (uetCtx u.header) u.port pa data) := by
  unfold State.uetWrite
  rw [hh, h]
  dsimp only [List.foldl_cons, List.foldl_nil]
  rw [List.take_length]
  exact uetAnswer_true ((portWrite_carries _ _ _ _ _ _ _).trans hup) []

theorem uetRead_onePage {pa : Nat} (hup : s.carries u.port u.half = true) (hh : plainHeader u.header = true)
    (h : s.uetAt u n .read true = (some [(pa, n)], s)) :
    s.uetRead u n = answered u true (s.viewRead (u.port / 3) pa n) s := by
  unfold State.uetRead
  rw [hh, h]
  dsimp only
  rw [List.flatMap_singleton]
  exact uetAnswer_true hup _

theorem uetRelease_onePage {pa : Nat} (hup : s.carries u.port u.half = true) (hh : relHeader u.header = true) (hva : u.va % 64 = 0)
    (h : s.uetAt u 8 .write true = (some [(pa, 8)], s)) (x : Nat) :
    s.uetRelease u x = answered u true [] (s.portRelease (uetCtx u.header) u.port .system (some (pa, x)) (fld u.header 6 16)) := by
  unfold State.uetRelease
  rw [hh, hva]
  dsimp only
  rw [show (true && (0 == 0)) = true from rfl, h]
  exact uetAnswer_true ((portRelease_carries _ _ _ _ _ _ _ _).trans hup) []

/-- The three kinds of access, whatever they carry: each is an `uetTake`, whose rest refuses where no page is given. -/
theorem access_take {i : Instr} (hi : i = .uetWrite u data ∨ i = .uetRead u n ∨ i = .uetReleaseWrite u v) :
    ∃ f : State → State, (∀ s, exec i s = .next (s.uetTake u f)) ∧
      ∀ s, s.carries u.port u.half = true → (∀ n use ok, s.uetAt u n use ok = (none, s)) → f s = answered u false [] (s.countError u.port) := by
  rcases hi with rfl | rfl | rfl
  · exact ⟨fun s => s.uetWrite u data, fun s => exec_uetWrite s u data, fun s hup h => uetWrite_refused hup (h _ _)⟩
  · exact ⟨fun s => s.uetRead u n, fun s => exec_uetRead s u n, fun s hup h => uetRead_refused hup (h _ _)⟩
  · exact ⟨fun s => s.uetRelease u v.toNat, fun s => exec_uetReleaseWrite s u v, fun s hup h => uetRelease_refused hup (h _ _) _⟩

/-- An access of any kind that the port agent does not take, and one that it refuses. -/
theorem access_refused {i : Instr} (hi : i = .uetWrite u data ∨ i = .uetRead u n ∨ i = .uetReleaseWrite u v) :
    Moves i (fun s => s.takes u ∧ ((s.ctx (uetCtx u.header)).opened = false ∨ s.admits u = false))
      (fun s => answered u false [] (s.countError u.port)) ∧
    Moves i (fun s => s.carries u.port u.half = true ∧ (s.ctx (uetCtx u.header)).opened = true ∧ (s.ctx (uetCtx u.header)).secure = true ∧
      ∀ i, u.travel ≠ .association i) (fun s => s.countError u.port) ∧
    Waits i (fun s => s.carries u.port u.half = false) := by
  obtain ⟨f, hf, hrefuse⟩ := access_take hi
  refine ⟨fun s ⟨ht, h⟩ => ?_, fun s ⟨hup, ho, hsec, htr⟩ => ?_, fun s hup => ?_⟩
  · rw [hf, uetTake_taken ht, hrefuse s ht.1 (uetAt_unadmitted h)]
  · rw [hf, uetTake_unsecured hup ho hsec htr]
  · rw [hf, uetTake_down hup]
    rfl

end

/-- Settles O51, by what the port agent's judging gives each access: the pages of the one that it admits, or none. -/
theorem peersReachTheRemoteWindow : Obligations.PeersReachTheRemoteWindow := by
  unfold Obligations.PeersReachTheRemoteWindow
  intro u data n pa p v
  refine ⟨?_, ?_, ?_, fun i hi => access_refused hi, ?_, ?_, ?_, ?_⟩
  · rintro s ⟨⟨ht, hh⟩, ho, ha, hp⟩
    rw [exec_uetWrite, execUetWrite, uetTake_taken ht, uetWrite_onePage ht.1 (by simpa [plainHeader] using hh) (uetAt_admitted ho ha hp)]
    rfl
  · rintro s ⟨⟨ht, hh⟩, ho, ha, hp⟩
    rw [exec_uetRead, execUetRead, uetTake_taken ht, uetRead_onePage ht.1 (by simpa [plainHeader] using hh) (uetAt_admitted ho ha hp)]
    rfl
  · rintro s ⟨ht, hk, hsc, hz, hva, ho, ha, hp⟩
    rw [exec_uetReleaseWrite, execUetReleaseWrite, uetTake_taken ht,
      uetRelease_onePage ht.1 (by simp [relHeader, hk, hsc, hz]) hva (uetAt_admitted ho ha hp)]
    rfl
  · rintro s ⟨ht, hp⟩
    rw [exec_uetWrite, execUetWrite, uetTake_taken ht, uetWrite_refused ht.1 (uetAt_unmapped hp)]
    rfl
  · rintro s ⟨ht, hp⟩
    rw [exec_uetRead, execUetRead, uetTake_taken ht, uetRead_refused ht.1 (uetAt_unmapped hp)]
    rfl
  · intro s hup
    rw [exec_uudPacket, execUudPacket, if_pos hup]
  · intro s hup
    rw [exec_uudPacket, execUudPacket, if_neg (by rw [hup]; decide)]
    rfl

end Sys2Proof.Machine
end

section
/-! SUPPORT. The host's messages and the fault buffers (R61 to R64, R66, R68, R399, R400, R408): what each message does once it is
taken, what a posting finds in its die's buffer, and the statement O50. -/

namespace Sys2Proof.Machine

open Sys2Proof Sys2Proof.Safe

section
variable {m : Sys2Proof.Msg} {s : State}

/-- A message of a kind that no host may send on its endpoint (R61). -/
theorem receive_notAllowed {kind : Nat} (hup : s.carries m.port m.half = true) (hmagic : m.magic = 0x5458) (hver : m.version = 1)
    (hlen : m.length ≤ 224) (hbody : m.length ≤ m.body.length) (hsec : s.secured m = true) (hkind : kindAllowed kind m.endpoint = false)
    (f : State → State) : s.receive kind m f = rejects m 4 0 s := by
  unfold State.receive
  rw [hup, if_neg (by decide), if_neg, if_pos hkind, reject_eq hup]
  rintro (h | h | h | h | h)
  · exact h hmagic
  · exact h hver
  · omega
  · omega
  · rw [hsec] at h; cases h

/-! QCTL (R68). -/

theorem onCtx_open {closing : Bool} (ho : (s.ctx (m.endpoint - 1)).opened = true) (hc : closing = true → (s.ctx (m.endpoint - 1)).closing = false)
    (f : State → State) : s.onCtx m closing f = f s := by
  unfold State.onCtx
  dsimp only
  rw [ho, if_neg]
  cases closing with
  | false => exact Bool.false_ne_true
  | true => rw [hc rfl]; exact Bool.false_ne_true

theorem onCtx_closed (hup : s.carries m.port m.half = true) (ho : (s.ctx (m.endpoint - 1)).opened = false) (closing : Bool) (f : State → State) :
    s.onCtx m closing f = rejects m 3 0 s := by
  unfold State.onCtx
  dsimp only
  rw [ho, if_pos (by simp), reject_eq hup]

/-- A QCTL of an event's own operation, on an open context. -/
theorem qctl_taken (hA : Arrives 0x09 m s) (hO : Open m s) {op : Nat} (hop : Msg.fld m 0 1 = op)
    {mine : Nat → Bool} (hm : mine op = true) (f : State → State) : s.qctl m mine f = f s := by
  unfold State.qctl
  rw [hop, if_pos hm, receive_arrives hA, onCtx_open hO.1 (fun _ => hO.2)]

theorem qctl_closed (hA : Arrives 0x09 m s) (ho : (s.ctx (m.endpoint - 1)).opened = false) {op : Nat}
    (hop : Msg.fld m 0 1 = op) {mine : Nat → Bool} (hm : mine op = true) (f : State → State) : s.qctl m mine f = rejects m 3 0 s := by
  unfold State.qctl
  rw [hop, if_pos hm, receive_arrives hA, onCtx_closed hA.up ho]

/-! Contexts (R63). -/

/-- A CTX_ACK of a message in a state that carries traffic as another does. -/
theorem ctxAck_of {t : State} (hup : s.carries m.port m.half = true) (ht : t.carries m.port m.half = s.carries m.port m.half) (x st : Nat) :
    t.ctxAck m.port m.half m.sender m.tag x st = replies m 0 0x0D (toBytes 1 x ++ toBytes 1 st) t := ctxAck_eq (ht.trans hup) x st

theorem openCtx_carries (s : State) (m : Sys2Proof.Msg) (c p half : Nat) : (s.openCtx m c).carries p half = s.carries p half := rfl

theorem updCtx_carries (s : State) (c : Nat) (f : Ctx → Ctx) (p half : Nat) : (s.updCtx c f).carries p half = s.carries p half := rfl

theorem exec_ctxOpen_fresh (hA : Arrives 0x0B m s) (ho : (s.ctx (Msg.fld m 0 1)).opened = false) :
    exec (.ctxOpen m) s = .next (replies m 0 0x0D (toBytes 1 (Msg.fld m 0 1) ++ toBytes 1 0) (s.openCtx m (Msg.fld m 0 1))) := by
  rw [exec_ctxOpen, execCtxOpen, receive_arrives hA, State.ctxOpen, ho, if_neg (by decide), ctxAck_of hA.up (openCtx_carries s m _ _ _)]

theorem exec_ctxOpen_opened (hA : Arrives 0x0B m s) (ho : (s.ctx (Msg.fld m 0 1)).opened = true) :
    exec (.ctxOpen m) s = .next (replies m 0 0x0D (toBytes 1 (Msg.fld m 0 1) ++ toBytes 1 1) s) := by
  rw [exec_ctxOpen, execCtxOpen, receive_arrives hA, State.ctxOpen, if_pos ho, ctxAck_eq hA.up]

/-- With no kernel of a context queued, a flush of its queues does nothing. -/
theorem flushQueue_idle {c : Nat} (h : ∀ k ∈ s.kernels, k.ctx = c → k.st ≠ .queued) : s.flushQueue c none = s := by
  unfold State.flushQueue
  dsimp only
  rw [List.filter_eq_nil_iff.2]
  · rfl
  · intro k hk
    by_cases hc : k.ctx = c
    · simp [h k hk hc]
    · simp [hc]

theorem exec_ctxClose_idle (hA : Arrives 0x0C m s) (ho : (s.ctx (Msg.fld m 0 1)).opened = true) (hc : (s.ctx (Msg.fld m 0 1)).closing = false)
    (hk : ∀ k ∈ s.kernels, k.ctx = Msg.fld m 0 1 → k.st ≠ .queued ∧ k.st ≠ .running) :
    exec (.ctxClose m) s = .next (s.updCtx (Msg.fld m 0 1) (fun x =>
      { x with closing := true, closer := m.sender, closeTag := m.tag, closePort := m.port, closeHalf := m.half })) := by
  have hflush (f : Ctx → Ctx) : (s.updCtx (Msg.fld m 0 1) f).flushQueue (Msg.fld m 0 1) none = s.updCtx (Msg.fld m 0 1) f :=
    flushQueue_idle (fun k hmem he => (hk k hmem he).1)
  rw [exec_ctxClose, execCtxClose, receive_arrives hA, State.ctxClose]
  dsimp only
  rw [ho, hc, if_neg (by decide), hflush, List.filter_eq_nil_iff.2]
  · rfl
  · intro k hmem hd
    obtain ⟨he, hr⟩ := of_decide_eq_true hd
    exact (hk k hmem he).2 hr

theorem exec_ctxClose_notOpen (hA : Arrives 0x0C m s) (ho : (s.ctx (Msg.fld m 0 1)).opened = false) :
    exec (.ctxClose m) s = .next (replies m 0 0x0D (toBytes 1 (Msg.fld m 0 1) ++ toBytes 1 1) s) := by
  rw [exec_ctxClose, execCtxClose, receive_arrives hA, State.ctxClose]
  dsimp only
  rw [ho, if_pos (by simp), ctxAck_eq hA.up]

/-- The state of a context that is freed, before the answer goes out. -/
def State.freed (s : State) (c : Nat) : State :=
  { s with ctxs := Tbl.erase s.ctxs c, kernels := s.kernels.filter (fun (k : Kernel) => k.ctx ≠ c), units := s.units.filter (fun (u : RUnit) => u.key.ctx ≠ c)
           cards := s.cards.filter (fun (k : Card) => k.ctx ≠ c), groups := s.groups.filter (fun (g : Group) => g.ctx ≠ c)
           postings := s.postings.filter (fun (r : FRec) => r.ctx ≠ c), records := s.records.filter (fun (r : FRec) => r.ctx ≠ c)
           tlb := s.tlb.filter (fun (e : TlbE) => e.ctx ≠ c), maps := s.maps.filter (fun (p : PageMap) => p.ctx ≠ c) }

theorem freed_ctx (s : State) (c : Nat) : (s.freed c).ctx c = {} := by
  show Tbl.get {} (Tbl.erase s.ctxs c) c = _
  unfold Tbl.get
  rw [Tbl.find?_erase_self]
  rfl

/-- The CTX_ACK of a context that has closed goes to whoever closed it. -/
def State.closeAck (s : State) (c : Nat) : OutMsg :=
  { port := (s.ctx c).closePort, half := (s.ctx c).closeHalf, peer := (s.ctx c).closer, endpoint := 0, kind := 0x0D, tag := (s.ctx c).closeTag
    body := toBytes 1 c ++ toBytes 1 0 }

/-- A context that closes is freed once its teams have retired and none of its kernels is queued or runs. -/
theorem exec_ctxCloseDone_idle {c : Nat} (ho : (s.ctx c).opened = true) (hc : (s.ctx c).closing = true) (hu : ∀ u ∈ s.units, u.key.ctx = c → u.retired = true)
    (hk : ∀ k ∈ s.kernels, k.ctx = c → k.st ≠ .queued ∧ k.st ≠ .running) (hup : s.carries (s.ctx c).closePort (s.ctx c).closeHalf = true) :
    exec (.ctxCloseDone c) s = .next { s.freed c with out := s.out ++ [s.closeAck c] } := by
  have hunits : s.units.any (fun u => u.key.ctx == c && !u.retired) = false := by
    rw [List.any_eq_false]
    intro u hmem
    by_cases he : u.key.ctx = c
    · simp [hu u hmem he]
    · simp [he]
  have hkernels : s.kernels.any (fun k => k.ctx == c && (k.st == .queued || k.st == .running)) = false := by
    rw [List.any_eq_false]
    intro k hmem
    by_cases he : k.ctx = c
    · simp [hk k hmem he]
    · simp [he]
  rw [exec_ctxCloseDone, execCtxCloseDone, State.closeDone]
  dsimp only
  rw [ho, hc, hunits, hkernels, if_neg (by decide)]
  exact congrArg _ (send_up (s := s.freed c) hup _ _ _ _ _)

theorem exec_ctxCloseDone_busy {c : Nat} (h : ∃ u ∈ s.units, u.key.ctx = c ∧ u.retired = false) :
    exec (.ctxCloseDone c) s = .next s := by
  obtain ⟨u, hmem, he, hr⟩ := h
  have hunits : s.units.any (fun u => u.key.ctx == c && !u.retired) = true := List.any_eq_true.2 ⟨u, hmem, by simp [he, hr]⟩
  rw [exec_ctxCloseDone, execCtxCloseDone, State.closeDone]
  dsimp only
  rw [hunits, if_pos (by simp)]

/-! Associations (R64). -/

/-- An association's context, index and key length are ones that SA_SET may name. -/
def State.saFits (s : State) (m : Sys2Proof.Msg) : Prop :=
  (s.ctx (Msg.fld m 0 1)).opened = true ∧ 1 ≤ Msg.fld m 2 2 ∧ Msg.fld m 2 2 ≤ 1023 ∧ 16 ≤ Msg.fld m 96 1 ∧ Msg.fld m 96 1 ≤ 64

theorem saFits_iff : s.saFits m ↔ (!((s.ctx (Msg.fld m 0 1)).opened) || Msg.fld m 2 2 == 0 || decide (1023 < Msg.fld m 2 2) ||
    decide (Msg.fld m 96 1 < 16) || decide (64 < Msg.fld m 96 1)) = false := by
  simp only [State.saFits, Bool.or_eq_false_iff, Bool.not_eq_false', beq_eq_false_iff_ne, decide_eq_false_iff_not, and_assoc]
  refine and_congr_right fun _ => ?_
  constructor
  · rintro ⟨h1, h2, h3, h4⟩
    exact ⟨by omega, by omega, by omega, by omega⟩
  · rintro ⟨h1, h2, h3, h4⟩
    exact ⟨by omega, by omega, by omega, by omega⟩

theorem saSet_refused (hup : s.carries m.port m.half = true) (h : ¬ s.saFits m) :
    s.saSet m = replies m 0 0x0D (toBytes 1 (Msg.fld m 0 1) ++ toBytes 1 1) s := by
  rw [saFits_iff, Bool.not_eq_false] at h
  unfold State.saSet
  dsimp only
  rw [h, Bool.true_or, if_pos rfl, ctxAck_eq hup]
  rfl

theorem saSet_installs (hup : s.carries m.port m.half = true) (h : s.saFits m) (hop : Msg.fld m 1 1 = 0) :
    s.saSet m = (let a := assocOf (m.body.take m.length)
      if Config.sublayerTakes a.peer a.spi a.key then
        replies m 0 0x0D (toBytes 1 (Msg.fld m 0 1) ++ toBytes 1 0)
          (s.updCtx (Msg.fld m 0 1) (fun x => { x with assocs := Tbl.set x.assocs (Msg.fld m 2 2) a }))
      else replies m 0 0x0D (toBytes 1 (Msg.fld m 0 1) ++ toBytes 1 1) s) := by
  rw [saFits_iff] at h
  unfold State.saSet
  dsimp only
  rw [h, hop, Bool.false_or]
  cases Config.sublayerTakes (assocOf (m.body.take m.length)).peer (assocOf (m.body.take m.length)).spi (assocOf (m.body.take m.length)).key with
  | true =>
    rw [if_neg (by decide), if_pos rfl]
    exact ctxAck_of hup (updCtx_carries s _ _ _ _) _ 0
  | false =>
    rw [if_pos (by decide)]
    exact ctxAck_eq hup _ 1

theorem saSet_removes (hup : s.carries m.port m.half = true) (h : s.saFits m) (hop : Msg.fld m 1 1 = 1) :
    s.saSet m = replies m 0 0x0D (toBytes 1 (Msg.fld m 0 1) ++ toBytes 1 0)
      (s.updCtx (Msg.fld m 0 1) (fun x => { x with assocs := Tbl.erase x.assocs (Msg.fld m 2 2) })) := by
  rw [saFits_iff] at h
  unfold State.saSet
  dsimp only
  rw [h, hop, show ((1 : Nat) == 0) = false from rfl, Bool.false_and, Bool.or_false, if_neg (by decide), if_neg (by decide)]
  exact ctxAck_of hup (updCtx_carries s _ _ _ _) _ 0

theorem exec_saInstall_taken (hA : Arrives 0x0E m s) (hop : Msg.fld m 1 1 = 0) : exec (.saInstall m) s = .next (s.saSet m) := by
  rw [exec_saInstall, execSaInstall, hop, if_neg (by decide), receive_arrives hA]

theorem exec_saRemove_taken (hA : Arrives 0x0E m s) (hop : Msg.fld m 1 1 = 1) : exec (.saRemove m) s = .next (s.saSet m) := by
  rw [exec_saRemove, execSaRemove, if_pos hop, receive_arrives hA]

/-- SA_SET of either operation with a context, an index or a key length out of range. -/
theorem exec_sa_refused {i : Instr} (hi : i = .saInstall m ∧ Msg.fld m 1 1 = 0 ∨ i = .saRemove m ∧ Msg.fld m 1 1 = 1) (hA : Arrives 0x0E m s)
    (h : ¬ s.saFits m) : exec i s = .next (replies m 0 0x0D (toBytes 1 (Msg.fld m 0 1) ++ toBytes 1 1) s) := by
  rcases hi with ⟨rfl, hop⟩ | ⟨rfl, hop⟩
  · rw [exec_saInstall_taken hA hop, saSet_refused hA.up h]
  · rw [exec_saRemove_taken hA hop, saSet_refused hA.up h]

/-! PAGE_DONE (R66). -/

/-- The state once the translations of a PAGE_DONE's range are gone. -/
def State.rangeDropped (s : State) (m : Sys2Proof.Msg) : State :=
  if Msg.fld m 8 8 = 0 then s else s.tlbDrop (m.endpoint - 1) (Msg.fld m 0 8 % 2 ^ 57) (rangeEnd (Msg.fld m 0 8) (Msg.fld m 8 8))

theorem rangeDropped_frame (s : State) (m : Sys2Proof.Msg) :
    (s.rangeDropped m).records = s.records ∧ (s.rangeDropped m).nid = s.nid ∧ (s.rangeDropped m).maps = s.maps := by
  unfold State.rangeDropped
  split <;> exact ⟨rfl, rfl, rfl⟩

/-- What a PAGE_DONE with status 0 leaves to be done. -/
def State.pageMapOf (s : State) (m : Sys2Proof.Msg) : PageMap :=
  { ctx := m.endpoint - 1, port := m.port, va := Msg.fld m 0 8, len := Msg.fld m 8 8, mark := s.nid }

theorem exec_pageDone_mapped (hA : Arrives 0x08 m s) (ho : (s.ctx (m.endpoint - 1)).opened = true) (hst : Msg.fld m 16 1 = 0) :
    exec (.pageDone m) s = .next (State.mapsDone [s.pageMapOf m] (s.rangeDropped m)) := by
  rw [exec_pageDone, execPageDone, receive_arrives hA, State.pageDone, onCtx_open ho (fun hc => absurd hc Bool.false_ne_true), if_pos hst]
  have hmark : (s.rangeDropped m).nid = s.nid := (rangeDropped_frame s m).2.1
  unfold State.pageMapOf
  rw [← hmark]
  rfl

theorem exec_pageDone_refused (hA : Arrives 0x08 m s) (ho : (s.ctx (m.endpoint - 1)).opened = true) (hst : Msg.fld m 16 1 = 1) :
    exec (.pageDone m) s = .next s := by
  rw [exec_pageDone, execPageDone, receive_arrives hA, State.pageDone, onCtx_open ho (fun hc => absurd hc Bool.false_ne_true), if_neg (by rw [hst]; decide)]

theorem stillMapped_iff (t : State) (p : PageMap) :
    t.stillMapped p = true ↔ p.len ≠ 0 ∧ t.oldUse p.ctx (p.va % 2 ^ 57) (rangeEnd p.va p.len) p.mark = true := by
  simp [State.stillMapped]

theorem mapsDone_waits {p : PageMap} (h : s.stillMapped p = true) : State.mapsDone [p] s = { s with maps := s.maps ++ [p] } := by
  rw [State.mapsDone, if_pos h, State.mapsDone]

theorem mapsDone_goes {p : PageMap} (h : ¬ s.stillMapped p = true) : State.mapsDone [p] s = s.pageMapped p.ctx p.port p.va p.len := by
  rw [State.mapsDone, if_neg h, State.mapsDone]

/-- With no PAGE record in the range, the rest of a PAGE_DONE is the port agent's release. -/
theorem pageMapped_alone {ctx port va len : Nat} (h : ∀ x ∈ s.records, ¬ (x.ctx = ctx ∧ x.causeByte % 32 = 12 ∧ va ≤ x.addr ∧ x.addr < va + len)) :
    s.pageMapped ctx port va len = s.portRelease ctx port .package none 0 := by
  have hnone : (s.portRelease ctx port .package none 0).records.filter (fun r =>
      decide (r.ctx = ctx ∧ r.causeByte % 32 = Cause.page.code ∧ va ≤ r.addr ∧ r.addr < va + len)) = [] := by
    rw [show (s.portRelease ctx port .package none 0).records = s.records from deposit_records _ _ _ _ _ 0, List.filter_eq_nil_iff]
    exact fun x hx hd => h x hx (of_decide_eq_true hd)
  unfold State.pageMapped
  dsimp only
  rw [hnone]
  rfl

end

/-! The fault buffers (R399, R400). -/

section
variable {s : State} {die : Nat} {r : FRec}

theorem bufferRoom_iff (s : State) (die : Nat) : s.bufferRoom die = true ↔ (s.records.filter (fun x => x.die = die)).length < 4096 := by
  unfold State.bufferRoom
  rw [decide_eq_true_eq]

theorem bufferRoom_false_iff (s : State) (die : Nat) : s.bufferRoom die = false ↔ 4096 ≤ (s.records.filter (fun x => x.die = die)).length := by
  rw [← Bool.not_eq_true, bufferRoom_iff, Nat.not_lt]

theorem waitingPosts_nil (h : ∀ p ∈ s.postings, p.die = die → p.retry = false) : s.waitingPosts die = [] := by
  unfold State.waitingPosts
  rw [List.filter_eq_nil_iff]
  intro p hp hd
  obtain ⟨he, hr⟩ := of_decide_eq_true hd
  rw [h p hp he] at hr
  cases hr

theorem waitingPosts_some (h : ∃ p ∈ s.postings, p.die = die ∧ p.retry = true) : (s.waitingPosts die).isEmpty = false := by
  obtain ⟨p, hp, hd⟩ := h
  rw [List.isEmpty_eq_false_iff_exists_mem]
  exact ⟨p, List.mem_filter.2 ⟨hp, decide_eq_true hd⟩⟩

/-- What FAULT_POST does with the die's oldest untried posting. -/
theorem exec_faultPost_some (hr : s.postings.find? (fun p => p.die = die ∧ p.retry = false) = some r) :
    exec (.faultPost die) s = .next (if !(s.bufferRoom die) then s.overflow r else if (s.waitingPosts die).isEmpty then s.postRec r else s) := by
  rw [exec_faultPost, execFaultPost, State.faultPost, hr]

theorem exec_faultPost_none (h : ∀ p ∈ s.postings, p.die = die → p.retry = true) : exec (.faultPost die) s = .next s := by
  rw [exec_faultPost, execFaultPost, State.faultPost, List.find?_eq_none.2]
  intro p hp hd
  obtain ⟨he, hf⟩ := of_decide_eq_true hd
  rw [h p hp he] at hf
  cases hf

/-- FAULT_POST_RETRY of a die with one posting that waits, 256 clocks after its last attempt. -/
theorem exec_faultPostRetry_one (hw : s.waitingPosts die = [r]) (ht : r.born + 256 ≤ s.now) :
    exec (.faultPostRetry die) s = .next (if s.bufferRoom r.die then s.postRec { r with flags := r.flags ||| 32 }
      else { s with postings := s.postings.map (fun p => if p.id = r.id then { p with born := s.now } else p) }) := by
  rw [exec_faultPostRetry, execFaultPostRetry, State.faultRetry, hw, List.takeWhile_cons_of_pos (by simpa using ht)]
  rfl

theorem exec_faultPostRetry_early {rs : List FRec} (hw : s.waitingPosts die = r :: rs) (ht : s.now < r.born + 256) :
    exec (.faultPostRetry die) s = .next s := by
  rw [exec_faultPostRetry, execFaultPostRetry, State.faultRetry, hw, List.takeWhile_cons_of_neg (by simpa using ht)]
  rfl

theorem exec_faultPostRetry_none (hw : s.waitingPosts die = []) : exec (.faultPostRetry die) s = .next s := by
  rw [exec_faultPostRetry, execFaultPostRetry, State.faultRetry, hw]
  rfl

/-- A posting that waits is one of its die's. -/
theorem waitingPosts_die (hw : s.waitingPosts die = [r]) : r.die = die := by
  have hmem : r ∈ s.waitingPosts die := by rw [hw]; exact List.mem_singleton_self r
  exact (of_decide_eq_true (List.mem_filter.1 hmem).2).1

end

/-- TFRAME_TIMEOUT of a lane that waits for a record (R408). -/
theorem exec_tframeTimeout_holds {s : State} {key : HeatKey} {l d va dl : Nat} {h : Heat} (hh : Holds s key l h (.tframe d va dl)) :
    exec (.tframeTimeout key l) s = .next (if dl ≤ s.now then released key l (some d) false s else s) := by
  obtain ⟨hheat, hsaved, -, hst⟩ := hh
  rw [exec_tframeTimeout, execTframeTimeout, hheat]
  dsimp only
  rw [hst]
  dsimp only
  by_cases ht : dl ≤ s.now
  · rw [if_pos ⟨ht, hsaved⟩, if_pos ht]
    refine congrArg _ (updLane_congr hheat ?_)
    unfold Lane.frameEnds
    rw [hst]
    rfl
  · rw [if_neg (fun h => ht h.1), if_neg ht]

/-- Settles O50, message by message. -/
theorem hostMessagesAreAnswered : Obligations.HostMessagesAreAnswered := by
  unfold Obligations.HostMessagesAreAnswered
  intro m kind die ctx va dl l d r key h
  refine ⟨?_, ?_, ?_, ?_, ?_, ?_, ?_, ?_, ?_, ?_, ?_, ?_, ?_, ?_, ?_, ?_, ?_, ?_, ?_, ?_, ?_, ?_, ?_, ?_, ?_⟩
  case refine_1 =>
    rintro s ⟨hup, hmagic, hver, hlen, hbody, hsec, hkind⟩
    rw [exec_kindNotAllowed, execKindNotAllowed, hkind, if_neg (by decide), receive_notAllowed hup hmagic hver hlen hbody hsec hkind]
  case refine_2 =>
    rintro s ⟨hA, hO, hop⟩
    rw [exec_qctlSet, execQctlSet, qctl_taken hA hO hop rfl]
  case refine_3 =>
    rintro s ⟨hA, hO, hop⟩
    rw [exec_qctlPause, execQctlPause, qctl_taken hA hO hop rfl]
  case refine_4 =>
    rintro s ⟨hA, hO, hop⟩
    rw [exec_qctlUnpause, execQctlUnpause, qctl_taken hA hO hop rfl]
  case refine_5 =>
    rintro s ⟨hA, hO, hop⟩
    rw [exec_qctlFlush, execQctlFlush, qctl_taken hA hO hop rfl]
    rfl
  case refine_6 =>
    rintro s ⟨hA, hop, ho⟩
    rw [exec_qctlSet, execQctlSet, qctl_closed hA ho hop rfl]
  case refine_7 =>
    rintro s ⟨hA, ho⟩
    exact exec_ctxOpen_fresh hA ho
  case refine_8 =>
    rintro s ⟨hA, ho⟩
    exact exec_ctxOpen_opened hA ho
  case refine_9 =>
    rintro s ⟨hA, ho, hc, hk⟩
    exact exec_ctxClose_idle hA ho hc hk
  case refine_10 =>
    rintro s ⟨hA, ho⟩
    exact exec_ctxClose_notOpen hA ho
  case refine_11 =>
    rintro s ⟨⟨ho, hc, hu, hk⟩, hup⟩
    refine ⟨_, exec_ctxCloseDone_idle ho hc hu hk hup, freed_ctx s ctx, ?_, ?_, ?_, rfl⟩
    · exact fun k hmem => of_decide_eq_true (List.mem_filter.1 hmem).2
    · exact fun x hmem => of_decide_eq_true (List.mem_filter.1 hmem).2
    · exact fun e hmem => of_decide_eq_true (List.mem_filter.1 hmem).2
  case refine_12 =>
    intro s hu
    exact exec_ctxCloseDone_busy hu
  case refine_13 =>
    rintro s ⟨hA, hok, hop⟩
    rw [exec_saInstall_taken hA hop, saSet_installs hA.up hok hop]
  case refine_14 =>
    rintro s ⟨hA, hok, hop⟩
    rw [exec_saRemove_taken hA hop, saSet_removes hA.up hok hop]
  case refine_15 =>
    rintro i hi s ⟨hA, hbad⟩
    exact exec_sa_refused hi hA hbad
  case refine_16 =>
    rintro s ⟨hA, ho, hst, hfree, hrec⟩
    have hgo : ¬ (s.rangeDropped m).stillMapped (s.pageMapOf m) = true := fun h => hfree ((stillMapped_iff _ _).1 h)
    rw [exec_pageDone_mapped hA ho hst, mapsDone_goes hgo, pageMapped_alone]
    · rfl
    · rw [(rangeDropped_frame s m).1]
      exact hrec
  case refine_17 =>
    rintro s ⟨hA, ho, hst, huse⟩
    have hwait : (s.rangeDropped m).stillMapped (s.pageMapOf m) = true := (stillMapped_iff _ _).2 huse
    rw [exec_pageDone_mapped hA ho hst, mapsDone_waits hwait, (rangeDropped_frame s m).2.2]
    rfl
  case refine_18 =>
    rintro s ⟨hA, ho, hst⟩
    exact exec_pageDone_refused hA ho hst
  case refine_19 =>
    intro s hr
    rw [exec_faultPost_some hr, ← bufferRoom_iff, ← bufferRoom_false_iff]
    refine ⟨fun hroom hw => ?_, fun hroom hw => ?_, fun hfull => ?_⟩
    · rw [hroom, waitingPosts_nil hw]
      rfl
    · rw [hroom, waitingPosts_some hw]
      rfl
    · rw [hfull]
      rfl
  case refine_20 => exact fun s hw => exec_faultPost_none hw
  case refine_21 =>
    intro s hw ht
    rw [exec_faultPostRetry_one hw ht, waitingPosts_die hw, ← bufferRoom_iff, ← bufferRoom_false_iff]
    exact ⟨fun hroom => by rw [if_pos hroom], fun hfull => by rw [hfull]; rfl⟩
  case refine_22 =>
    rintro s ⟨ht, rs, hw⟩
    exact exec_faultPostRetry_early hw ht
  case refine_23 => exact fun s hw => exec_faultPostRetry_none (waitingPosts_nil hw)
  case refine_24 =>
    rintro s ⟨hh, ht⟩
    rw [exec_tframeTimeout_holds hh, if_pos ht]
  case refine_25 =>
    rintro s ⟨hh, ht⟩
    rw [exec_tframeTimeout_holds hh, if_neg (Nat.not_le.2 ht)]
    rfl

end Sys2Proof.Machine
end

section
/-! SUPPORT. Kernels from LAUNCH to completion (R67 to R69, R80, R83 to R85, R87, R115, R127): the judging of a launch, the launch
controller's look at a single head, what a partition promotes next, and the statement O48. -/

namespace Sys2Proof.Machine

open Sys2Proof Sys2Proof.Safe

/-! The least element of a list. -/

theorem leastBy_none_iff {α : Type} (f : α → Nat) (l : List α) : leastBy f l = none ↔ l = [] := by
  cases l with
  | nil => exact ⟨fun _ => rfl, fun _ => rfl⟩
  | cons a t =>
    refine ⟨fun h => ?_, fun h => absurd h (List.cons_ne_nil _ _)⟩
    rw [leastBy] at h
    split at h
    · cases h
    · split at h <;> cases h

/-- What `leastBy` gives is in the list, and no element has a smaller key. -/
theorem leastBy_spec {α : Type} {f : α → Nat} {l : List α} {a : α} (h : leastBy f l = some a) : a ∈ l ∧ ∀ b ∈ l, f a ≤ f b := by
  induction l generalizing a with
  | nil => cases h
  | cons x t ih =>
    rw [leastBy] at h
    split at h
    · next ht =>
      rw [(leastBy_none_iff f t).1 ht]
      cases h
      exact ⟨List.mem_singleton_self x, fun b hb => by rw [List.mem_singleton.1 hb]⟩
    · next y hy =>
      obtain ⟨hmem, hle⟩ := ih hy
      split at h
      · next hlt =>
        cases h
        refine ⟨List.mem_cons_of_mem _ hmem, fun b hb => ?_⟩
        rcases List.mem_cons.1 hb with rfl | hb
        · exact Nat.le_of_lt hlt
        · exact hle b hb
      · next hnlt =>
        cases h
        refine ⟨List.mem_cons_self, fun b hb => ?_⟩
        rcases List.mem_cons.1 hb with rfl | hb
        · exact Nat.le_refl _
        · exact (Nat.not_lt.1 hnlt).trans (hle b hb)

/-! LAUNCH (R67). -/

section
variable {m : Sys2Proof.Msg} {s : State}

theorem exec_launch_taken (hA : Arrives 0x01 m s) : exec (.launch m) s = .next (s.judgeLaunch m) := by
  rw [exec_launch, execLaunch, receive_arrives hA]

theorem judgeLaunch_closed (hup : s.carries m.port m.half = true) (ho : (s.ctx (m.endpoint - 1)).opened = false) :
    s.judgeLaunch m = rejects m 3 0 s := by
  unfold State.judgeLaunch
  dsimp only
  rw [ho, if_pos (by simp), reject_eq hup]

theorem judgeLaunch_unread {off : Nat} (hup : s.carries m.port m.half = true) (hO : Open m s)
    (h : s.readRecord (m.endpoint - 1) (s.queueDie (m.endpoint - 1) m.queue) (Msg.fld m 0 8) 256 = (.error off, s)) :
    s.judgeLaunch m = rejects m 7 off s := by
  unfold State.judgeLaunch
  dsimp only
  rw [hO.1, hO.2, if_neg (by decide), h]
  dsimp only
  rw [reject_eq hup]

/-- The kernel that an accepted launch enters into its queue (R67, R68). -/
def State.launched (s : State) (m : Sys2Proof.Msg) (ctx n : Nat) (r : LaunchRec) : Kernel :=
  { ctx := ctx, serial := n, queue := m.queue, lrec := r, cls := if r.qclass then (Tbl.get {} (s.ctx ctx).queues m.queue).cls else r.cls
    port := m.port, half := m.half, endpoint := m.endpoint, sender := m.sender, tag := m.tag, travel := m.travel, recDie := m.port / 3 }

/-- The state once an accepted launch stands in its queue, before it is acknowledged. -/
def State.launchEntered (s : State) (m : Sys2Proof.Msg) (ctx n : Nat) (r : LaunchRec) : State :=
  ({ s with kernels := s.kernels.filter (fun (x : Kernel) => !(x.ctx = ctx ∧ x.serial = n)) ++ [s.launched m ctx n r]
            units := s.units.filter (fun (u : RUnit) => !(u.key.ctx = ctx ∧ u.key.serial = n)) } : State).updCtx ctx (fun c =>
    { c with nextSerial := (n + 1) % 2 ^ 16, colourBase := if r.colourBase = 0 then c.colourBase else r.colourBase
             saved := c.saved.filter (fun e => e.1 ≠ n) })

theorem acceptLaunch_eq (hup : s.carries m.port m.half = true) (ctx n : Nat) (r : LaunchRec) :
    s.acceptLaunch m ctx n r = replies m m.endpoint 0x02 (toBytes 2 n) (s.launchEntered m ctx n r) :=
  send_up (s := s.launchEntered m ctx n r) hup _ _ _ _ _

theorem launchEntered_kernel? (s : State) (m : Sys2Proof.Msg) (ctx n : Nat) (r : LaunchRec) :
    (s.launchEntered m ctx n r).kernel? ctx n = some (s.launched m ctx n r) :=
  find?_append_filter (fun k : Kernel => decide (k.ctx = ctx ∧ k.serial = n)) s.kernels (s.launched m ctx n r) (decide_eq_true ⟨rfl, rfl⟩)

theorem launchEntered_nextSerial (s : State) (m : Sys2Proof.Msg) (ctx n : Nat) (r : LaunchRec) :
    ((s.launchEntered m ctx n r).ctx ctx).nextSerial = (n + 1) % 2 ^ 16 := by
  rw [State.launchEntered, State.updCtx, State.ctx, Tbl.get_set_self]

end

/-! LAUNCH_START with one head and no kernel that runs (R69, R71, R78). -/

section
variable {s : State} {die : Nat} {k : Kernel}

theorem launchStart_placeable (hh : s.headOrder die = [k]) (hidle : ∀ q ∈ s.kernels, q.st ≠ .running) (hp : s.placeable k = true) :
    s.launchStart die = if (s.spot [] k 0).isSome then s.startKernel die k else s.pushAside k := by
  unfold State.launchStart
  dsimp only
  rw [hh, List.find?_cons_of_neg (by rw [hp]; decide), List.find?_nil]
  dsimp only
  rw [State.startFirst]
  rw [placeRest_idle die hidle, State.startFirst, placeRest_idle die hidle, hh]
  rfl

theorem launchStart_unplaceable (hh : s.headOrder die = [k]) (hp : s.placeable k = false) :
    s.launchStart die = (s.updQueue k.ctx k.queue (fun q => { q with last := some k.serial })).endKernel k.ctx k.serial 4 := by
  unfold State.launchStart
  dsimp only
  rw [hh, List.find?_cons_of_pos (by rw [hp]; rfl)]
  rfl

theorem launchStart_empty (hh : s.headOrder die = []) (hidle : ∀ q ∈ s.kernels, q.st ≠ .running) : s.launchStart die = s := by
  unfold State.launchStart
  dsimp only
  rw [hh, List.find?_nil]
  dsimp only
  rw [State.startFirst, placeRest_idle die hidle, hh]
  rfl

end

/-! RELAY_START (R70, R80). -/

section
variable {s : State} {u : RUnit}

/-- A relay whose kernel follows no completion, and that has no matrix team. -/
theorem relayStart_first (hu : s.unitOf u.key = some u) (hst : u.started = false) (hr : u.retired = false) (ht : u.isTask = false)
    (hp : (s.kernel? u.key.ctx u.key.serial).map (·.prev) = some .none) (hm : ∀ q ∈ s.heats, q.unit = u.id → q.role ≠ 1) :
    s.relayStart u.key = { s.updUnit u.id (fun q => { q with started := true, placed := s.now }) with
      heats := s.heats.map (fun q => if q.unit = u.id then { q with since := s.now } else q) } := by
  have hrole : s.heats.any (fun h => h.unit == u.id && h.role == 1) = false := by
    rw [List.any_eq_false]
    intro q hq
    by_cases he : q.unit = u.id
    · simp [hm q hq he]
    · simp [he]
  unfold State.relayStart
  rw [hu]
  dsimp only
  rw [hst, hr, ht, if_neg (by decide), hp]
  dsimp only
  rw [hrole, if_neg (by decide)]

theorem relayStart_started (hu : s.unitOf u.key = some u) (hst : u.started = true) : s.relayStart u.key = s := by
  unfold State.relayStart
  rw [hu]
  dsimp only
  rw [hst, if_pos (by simp)]

end

/-! PROMOTE (R83, R84). -/

/-- What the heat's promotion does once its partition's sets are up to date. -/
theorem promote_some {s : State} {key : HeatKey} {h : Heat} (hh : s.heat? key = some h) : s.promote key =
    (let t := s.settleSets h.core h.part
      if 8 ≤ (t.heats.filter (fun x => x.active && x.on h.core h.part)).length then t
      else if (t.nextPending h.core h.part).map (·.key) = some key then t.updHeat key (fun h => { h with active := true, lastIssue := none, readyAt := none })
      else t) := by
  unfold State.promote
  rw [hh]

/-- The pending heat that is promoted next is of the highest class, and of those the one ready longest: the key that picks it
orders by class first, since the clocks stay below 2^80. -/
theorem nextPending_first {s : State} {core part : Nat} {x y : Heat} (hx : s.nextPending core part = some x) (hy : y ∈ s.heats)
    (hon : y.on core part = true) (hr : s.readyPending y = true) (hb : ∀ z ∈ s.heats, z.readyAt.getD s.now < 2 ^ 80 ∧ z.since < 2 ^ 80) :
    x.cls < y.cls ∨ (x.cls = y.cls ∧ x.readyAt.getD s.now ≤ y.readyAt.getD s.now) := by
  obtain ⟨hmem, hle⟩ := leastBy_spec hx
  have hkey := hle y (List.mem_filter.2 ⟨hy, by rw [hon, hr]; rfl⟩)
  obtain ⟨hxr, hxs⟩ := hb x (List.mem_filter.1 hmem).1
  obtain ⟨hyr, hys⟩ := hb y hy
  omega

/-! HEAT_RETIRE (R127). -/

/-- A team with no operation that lacks a signature has none to settle (R242). -/
theorem settleMarks_none {s : State} {unit team : Nat} {q : RUnit} (hq : s.unit? unit = some q) (hp : ∀ t, q.team? team = some t → t.partials = [])
    (ctx serial : Nat) : s.settleMarks unit team ctx serial = s := by
  unfold State.settleMarks
  refine foldl_keeps (P := fun t => t = s) (fun t i ht => ?_) _ s rfl
  subst ht
  rw [hq]
  dsimp only
  cases hteam : q.team? team with
  | none => rfl
  | some x =>
    dsimp only
    rw [hp x hteam]
    rfl

theorem retireHeat_exited {s : State} {key : HeatKey} {h : Heat} {q : RUnit} (hh : s.heat? key = some h) (hs : h.saved = false)
    (he : h.allExited = true) (hf : h.fcnt = []) (hr : h.retired = false) (hq : s.unit? h.unit = some q)
    (hp : ∀ t, q.team? key.team = some t → t.partials = []) :
    s.retireHeat key = (((s.updHeat key (fun q => { q with retired := true, active := false, undo := [] })).updKernel key.ctx key.serial
      (fun q => { q with nflags := q.nflags ||| h.nflags })).sweep).retireUnit h.unit := by
  unfold State.retireHeat
  rw [hh]
  dsimp only
  rw [hs, he, hf, if_neg (by decide), settleMarks_none hq hp, hr, if_neg (by decide)]

theorem retireHeat_live {s : State} {key : HeatKey} {h : Heat} (hh : s.heat? key = some h) (he : h.allExited = false) : s.retireHeat key = s := by
  unfold State.retireHeat
  rw [hh]
  dsimp only
  rw [he, if_pos (by simp)]

/-! COMPLETION_RELEASE (R87). -/

section
variable {s : State} {ctx serial : Nat} {k : Kernel}

/-- A kernel that may end: it runs, is idle with its writes performed, and none of its context goes first. -/
def State.mayEnd (s : State) (ctx serial : Nat) (k : Kernel) : Prop :=
  (s.kernel? ctx serial = some k ∧ k.st = .running) ∧ s.kernelIdle k = true ∧ s.kernelWritten k = true ∧ s.completesFirst k = false

theorem complete_killed (h : s.mayEnd ctx serial k) (hk : k.killed = true) :
    s.complete ctx serial = s.endKernel ctx serial (if k.reset then 2 else 1) := by
  obtain ⟨⟨hkernel, hst⟩, hi, hw, hf⟩ := h
  unfold State.complete
  rw [hkernel]
  dsimp only
  rw [if_neg (by simp [hst, hi, hw, hf]), if_pos hk]

theorem complete_releases {pa : Nat} (h : s.mayEnd ctx serial k) (hk : k.killed = false)
    (hpa : s.peek ctx s.agentDie k.lrec.completion .write = .ok pa) (hpo : s.poisoned pa 64 = false) :
    s.complete ctx serial = (s.deposit ctx (arbOrigin (homeOf pa)) .system (s.fullSig pa) (some (pa, (s.cohNat pa 8 + 1) % 2 ^ 64)) k.nflags).endKernel
      ctx serial 0 := by
  obtain ⟨⟨hkernel, hst⟩, hi, hw, hf⟩ := h
  unfold State.complete
  rw [hkernel]
  dsimp only
  rw [if_neg (by simp [hst, hi, hw, hf]), if_neg (by rw [hk]; decide), hpa]
  dsimp only
  rw [if_neg (by rw [hpo]; decide)]

theorem complete_waits (hkernel : s.kernel? ctx serial = some k) (h : s.kernelIdle k = false ∨ s.kernelWritten k = false ∨ s.completesFirst k = true) :
    s.complete ctx serial = s := by
  unfold State.complete
  rw [hkernel]
  dsimp only
  rw [if_pos (.inr h)]

end

/-- Settles O48, event by event; of the launch, the judging of a record that keeps the rules leaves only the queue's length and the
serial to decide. -/
theorem kernelsRunFromLaunchToCompletion : Obligations.KernelsRunFromLaunchToCompletion := by
  unfold Obligations.KernelsRunFromLaunchToCompletion
  intro m die n pa off serial ctx b w k u key h
  refine ⟨?_, ?_, ?_, ?_, ?_, ?_, ?_, ?_, ?_, ?_, ?_, ?_, ?_, ?_, ?_, ?_, ?_, ?_, ?_, ?_⟩
  case refine_1 =>
    rintro s ⟨⟨⟨hA, hO⟩, hrec, halign, hbase, hhdr, hgood, hobj, hgeo, hfit⟩, hlen, hserial⟩
    refine ⟨replies m m.endpoint 0x02 (toBytes 2 n) (s.launchEntered m (m.endpoint - 1) n (parseLaunch b)), ?_, rfl,
      launchEntered_kernel? s m _ n _, launchEntered_nextSerial s m _ n _⟩
    rw [judge_read hA hO hrec halign hbase hhdr hgood hobj hgeo hfit, if_neg (Nat.not_le.2 hlen), hserial]
    exact congrArg _ (acceptLaunch_eq hA.up _ n _)
  case refine_2 =>
    rintro s ⟨hA, ho⟩
    rw [exec_launch_taken hA, judgeLaunch_closed hA.up ho]
  case refine_3 =>
    rintro s ⟨⟨hA, hO⟩, hrec⟩
    rw [exec_launch_taken hA, judgeLaunch_unread hA.up hO hrec]
  case refine_4 =>
    rintro s ⟨⟨⟨hA, hO⟩, hrec, halign, hbase, hhdr, hgood, hobj, hgeo, hfit⟩, hlen⟩
    rw [judge_read hA hO hrec halign hbase hhdr hgood hobj hgeo hfit, if_pos hlen, reject_eq hA.up]
  case refine_5 =>
    rintro s ⟨hh, hidle, hp, hspot⟩
    rw [exec_launchStart, execLaunchStart, launchStart_placeable hh hidle hp, if_pos hspot]
  case refine_6 =>
    rintro s ⟨hh, hidle, hp, hspot⟩
    rw [exec_launchStart, execLaunchStart, launchStart_placeable hh hidle hp, hspot, if_neg (by decide)]
  case refine_7 =>
    rintro s ⟨hh, -, hp⟩
    rw [exec_launchStart, execLaunchStart, launchStart_unplaceable hh hp]
  case refine_8 =>
    rintro s ⟨hh, hidle⟩
    rw [exec_launchStart, execLaunchStart, launchStart_empty hh hidle]
    rfl
  case refine_9 =>
    rintro s ⟨hu, hst, hr, ht, hp, hm⟩
    rw [exec_relayStart, execRelayStart, relayStart_first hu hst hr ht hp hm]
  case refine_10 =>
    rintro s ⟨hu, hst⟩
    rw [exec_relayStart, execRelayStart, relayStart_started hu hst]
    rfl
  case refine_11 => exact fun s _ => exec_pacedIssue s key
  case refine_12 =>
    rintro s ⟨hh, hroom, hnext⟩
    rw [exec_promote, execPromote, promote_some hh]
    dsimp only
    rw [if_neg (Nat.not_le.2 hroom), if_pos hnext]
  case refine_13 =>
    rintro s ⟨hh, hno⟩
    rw [exec_promote, execPromote, promote_some hh]
    dsimp only
    rcases hno with hfull | hother
    · rw [if_pos hfull]
    · rw [if_neg hother, ite_self]
  case refine_14 => exact fun s x y hx hy hon hr hb => nextPending_first hx hy hon hr hb
  case refine_15 =>
    intro s hh
    rw [exec_promote, execPromote, State.promote, hh]
    rfl
  case refine_16 =>
    rintro s ⟨hh, hs, he, hf, hr, q, hq, hp⟩
    rw [exec_heatRetire, execHeatRetire, retireHeat_exited hh hs he hf hr hq hp]
  case refine_17 =>
    rintro s ⟨hh, he⟩
    rw [exec_heatRetire, execHeatRetire, retireHeat_live hh he]
    rfl
  case refine_18 =>
    rintro s ⟨hrun, hk, hi, hw, hf, hpa, hpo⟩
    rw [exec_completionRelease, execCompletionRelease, complete_releases ⟨hrun, hi, hw, hf⟩ hk hpa hpo]
  case refine_19 =>
    rintro s ⟨hrun, hk, hi, hw, hf⟩
    rw [exec_completionRelease, execCompletionRelease, complete_killed ⟨hrun, hi, hw, hf⟩ hk]
  case refine_20 =>
    rintro s ⟨hrun, hno⟩
    rw [exec_completionRelease, execCompletionRelease, complete_waits hrun.1 hno]
    rfl

end Sys2Proof.Machine
end

section
/-! SUPPORT. What the decoder yields: instruction words, and no step of another agent (R93). -/

namespace Sys2Proof.Machine

open Sys2Proof Sys2Proof.Safe

/-- A parse that yields instruction words alone. -/
def ParsesWords (o : Option Instr) : Prop := ∀ i, o = some i → i.isWord = true

theorem parsesWords_none : ParsesWords none := fun _ h => by cases h

theorem parsesWords_bind {α : Type} {o : Option α} {f : α → Option Instr} (hf : ∀ a, ParsesWords (f a)) : ParsesWords (o >>= f) := by
  intro i hi
  obtain ⟨a, -, ha⟩ := Option.bind_eq_some_iff.1 hi
  exact hf a i ha

theorem parsesWords_pure {i : Instr} (h : encode i ≠ 0) : ParsesWords (pure i) := by
  rintro _ ⟨⟩
  exact decide_eq_true h

/-! The rows of the opcode map: every path through a row ends in none or in a word, which the encoder gives an opcode above 0 or a field. -/

theorem control_parsesWords (op w : Nat) : ParsesWords (Dec.control op w) := by
  unfold Dec.control
  dsimp only
  repeat' with_reducible first | exact parsesWords_none | refine parsesWords_bind fun _ => ?_ | split
  all_goals
    refine parsesWords_pure ?_
    unfold encode
    dsimp only
    simp [Enc.fmtS, Enc.fmtB, Enc.com]

theorem predicate_parsesWords (op w : Nat) : ParsesWords (Dec.predicate op w) := by
  unfold Dec.predicate
  dsimp only
  repeat' with_reducible first | exact parsesWords_none | refine parsesWords_bind fun _ => ?_ | split
  all_goals
    refine parsesWords_pure ?_
    unfold encode
    dsimp only
    simp [Enc.fmtV, Enc.com]

theorem integer_parsesWords (op w : Nat) : ParsesWords (Dec.integer op w) := by
  unfold Dec.integer
  dsimp only
  repeat' with_reducible first | exact parsesWords_none | refine parsesWords_bind fun _ => ?_ | split
  all_goals
    refine parsesWords_pure ?_
    unfold encode
    dsimp only
    simp [Enc.fmtV, Enc.com]

theorem float_parsesWords (op w : Nat) : ParsesWords (Dec.float op w) := by
  unfold Dec.float
  dsimp only
  repeat' with_reducible first | exact parsesWords_none | refine parsesWords_bind fun _ => ?_ | split
  all_goals
    refine parsesWords_pure ?_
    unfold encode
    dsimp only
    simp [Enc.fmtV, Enc.com]

theorem convert_parsesWords (op w : Nat) : ParsesWords (Dec.convert op w) := by
  unfold Dec.convert
  dsimp only
  repeat' with_reducible first | exact parsesWords_none | refine parsesWords_bind fun _ => ?_ | split
  all_goals
    refine parsesWords_pure ?_
    unfold encode
    dsimp only
    simp [Enc.fmtV, Enc.com]

theorem access_parsesWords (op w : Nat) : ParsesWords (Dec.access op w) := by
  unfold Dec.access
  dsimp only
  repeat' with_reducible first | exact parsesWords_none | refine parsesWords_bind fun _ => ?_ | split
  all_goals
    refine parsesWords_pure ?_
    unfold encode
    dsimp only
    simp [Enc.fmtS, Enc.fmtM, Enc.fmtG, Enc.fmtScr, Enc.com]

theorem sync_parsesWords (op w : Nat) : ParsesWords (Dec.sync op w) := by
  unfold Dec.sync
  dsimp only
  repeat' with_reducible first | exact parsesWords_none | refine parsesWords_bind fun _ => ?_ | split
  all_goals
    refine parsesWords_pure ?_
    unfold encode
    dsimp only
    simp [Enc.fmtS, Enc.fmtM, Enc.com]

theorem copy_parsesWords (op w : Nat) : ParsesWords (Dec.copy op w) := by
  unfold Dec.copy
  dsimp only
  repeat' with_reducible first | exact parsesWords_none | refine parsesWords_bind fun _ => ?_ | split
  all_goals
    refine parsesWords_pure ?_
    unfold encode
    dsimp only
    simp [Enc.fmtS, Enc.fmtM, Enc.com]

theorem matrix_parsesWords (op w : Nat) : ParsesWords (Dec.matrix op w) := by
  unfold Dec.matrix
  dsimp only
  repeat' with_reducible first | exact parsesWords_none | refine parsesWords_bind fun _ => ?_ | split
  all_goals
    refine parsesWords_pure ?_
    unfold encode
    dsimp only
    simp [Enc.fmtX, Enc.com]

theorem monitor_parsesWords (op w : Nat) : ParsesWords (Dec.monitor op w) := by
  unfold Dec.monitor
  dsimp only
  repeat' with_reducible first | exact parsesWords_none | refine parsesWords_bind fun _ => ?_ | split
  all_goals
    refine parsesWords_pure ?_
    unfold encode
    dsimp only
    simp [Enc.fmtS, Enc.com]

theorem system_parsesWords (op w : Nat) : ParsesWords (Dec.system op w) := by
  unfold Dec.system
  dsimp only
  repeat' with_reducible first | exact parsesWords_none | refine parsesWords_bind fun _ => ?_ | split
  all_goals
    refine parsesWords_pure ?_
    unfold encode
    dsimp only
    simp [Enc.fmtS, Enc.com]

theorem parse_parsesWords (w : Nat) : ParsesWords (Dec.parse w) := by
  unfold Dec.parse
  dsimp only
  split_ifs
  · exact control_parsesWords _ w
  · exact predicate_parsesWords _ w
  · exact integer_parsesWords _ w
  · exact float_parsesWords _ w
  · exact convert_parsesWords _ w
  · exact access_parsesWords _ w
  · exact sync_parsesWords _ w
  · exact copy_parsesWords _ w
  · exact matrix_parsesWords _ w
  · exact monitor_parsesWords _ w
  · exact system_parsesWords _ w

/-- What a word decodes to is an instruction word, and no step of another agent (R93). -/
theorem decode_isWord {w : Nat} {i : Instr} (h : decode w = .ok i) : i.isWord = true := by
  have hp : Dec.parse w = some i := by
    unfold decode at h
    grind
  exact parse_parsesWords w i hp

end Sys2Proof.Machine
end

section
/-! SUPPORT. The dies in service through reads, arrivals, writes through the caches, translation, releases and acquires. A die leaves service
when it is declared unresponsive (R320 to R327) and comes back when it rejoins, and no instruction word does either.
A lemma f_up says of the operation f that it fences no die: one that leaves the field alone does so by definition, one that goes through
other operations by their lemmas; where it branches, grind splits its branches (!g_up brings in the lemma of an operation g that gives a pair). -/

namespace Sys2Proof.Machine

/-- Every die is in service. -/
abbrev DiesUp (s : State) : Prop := s.fencedDies = []

variable {s : State}

theorem Cached.up {s b : State} (h : Cached s b) (hs : DiesUp s) : DiesUp b :=
  (congrArg State.fencedDies h).trans hs

theorem cohWrite_up {pa bs} (hs : DiesUp s) : DiesUp (s.cohWrite pa bs) :=
  (congrArg (fun w => w.2.2) (cohWrite_work s pa bs)).trans hs

theorem cohPut_up {pa n x} (hs : DiesUp s) : DiesUp (s.cohPut pa n x) := cohWrite_up hs

theorem l2Write_up {die pa bs} (hs : DiesUp s) : DiesUp (s.l2Write die pa bs) := (l2Write_cached s die pa bs).up hs

theorem ownWrite_up {die pa bs} (hs : DiesUp s) : DiesUp (s.ownWrite die pa bs) := (ownWrite_cached s die pa bs).up hs

theorem foldl_up {α : Type} {f : State → α → State} {l : List α} (hf : ∀ t a, DiesUp t → DiesUp (f t a)) (hs : DiesUp s) :
    DiesUp (l.foldl f s) := foldl_keeps hf l s hs

theorem foldl_snd_up {α β : Type} {f : β × State → α → β × State} {l : List α} {b : β × State}
    (hf : ∀ b a, DiesUp b.2 → DiesUp (f b a).2) (hb : DiesUp b.2) : DiesUp (l.foldl f b).2 :=
  foldl_keeps (P := fun b => DiesUp b.2) hf l b hb

theorem foldl_work_up {α : Type} {f : Work → α → Work} {l : List α} {w : Work} (hf : ∀ v a, DiesUp v.s → DiesUp (f v a).s)
    (hw : DiesUp w.s) : DiesUp (l.foldl f w).s := foldl_keeps (P := fun v => DiesUp v.s) hf l w hw

theorem foldl_fst_up {α β : Type} {f : Work × β → α → Work × β} {l : List α} {b : Work × β}
    (hf : ∀ b a, DiesUp b.1.s → DiesUp (f b a).1.s) (hb : DiesUp b.1.s) : DiesUp (l.foldl f b).1.s :=
  foldl_keeps (P := fun b => DiesUp b.1.s) hf l b hb

theorem ite_up {c : Prop} [Decidable c] {t u : State} (ht : DiesUp t) (hu : DiesUp u) : DiesUp (if c then t else u) := by
  split
  · exact ht
  · exact hu

theorem cleanSector_up {sec} (hs : DiesUp s) : DiesUp (s.cleanSector sec) := by
  unfold State.cleanSector
  dsimp only
  refine foldl_up (fun t d ht => ?_) (ite_up hs hs)
  repeat' split
  all_goals exact ht

theorem Work.ite_up {c : Prop} [Decidable c] {v w : Work} (hv : DiesUp v.s) (hw : DiesUp w.s) : DiesUp (if c then v else w : Work).s := by
  split
  · exact hv
  · exact hw

theorem snd_up {α : Type} {p : α × State} {a : α} {t : State} (he : p = (a, t)) (h : DiesUp p.2) : DiesUp t := by
  subst he
  exact h

theorem updTask_up {c i f} (hs : DiesUp s) : DiesUp (State.updTask s c i f) := hs

theorem parkGroup_up {key pc ts run} (hs : DiesUp s) : DiesUp (parkGroup s key pc ts run) := by
  grind [parkGroup, State.updHeat_fencedDies]

theorem raise_up {key pc ts} (hs : DiesUp s) : DiesUp (raise s key pc ts) := by
  grind [raise, parkGroup_up, foldl_up]

theorem settleBar_up {unit team n} (hs : DiesUp s) : DiesUp (State.settleBar s unit team n) := by
  grind [State.settleBar, State.updTeam_fencedDies]

theorem settleBars_up {key} (hs : DiesUp s) : DiesUp (State.settleBars s key) := by
  grind [State.settleBars, settleBar_up, foldl_up]

theorem arrive_up {h n count} (hs : DiesUp s) : DiesUp (State.arrive s h n count) := settleBar_up hs

theorem l1Drop_up {core p} (hs : DiesUp s) : DiesUp (State.l1Drop s core p) := hs

theorem roomL1_up {core line} (hs : DiesUp s) : DiesUp (State.roomL1 s core line) := by
  grind [State.roomL1, l1Drop_up]

theorem ask_up {die sec own} (hs : DiesUp s) : DiesUp (State.ask s die sec own) := by
  grind [State.ask]

theorem dieWrite_up {die pa bs copy} (hs : DiesUp s) : DiesUp (State.dieWrite s die pa bs copy) := by
  grind [State.dieWrite, ask_up, l2Write_up]

theorem orPte_up {pte i} (hs : DiesUp s) : DiesUp (State.orPte s pte i) := by
  grind [State.orPte, cohPut_up]

theorem enterCore_up {core e} (hs : DiesUp s) : DiesUp (s.enterCore core e) := by
  cases core <;> grind [State.enterCore]

theorem enterDie_up {e} (hs : DiesUp s) : DiesUp (State.enterDie s e) := by
  grind [State.enterDie]

theorem translate_up {ctx die core va use} (hs : DiesUp s) : DiesUp (State.translate s ctx die core va use).2 := by
  grind [State.translate, enterCore_up, orPte_up, enterDie_up]

theorem bankIn_up {ctx origin pa} (hs : DiesUp s) : DiesUp (State.bankIn s ctx origin pa) := hs

theorem bankOr_up {ctx origin g} (hs : DiesUp s) : DiesUp (State.bankOr s ctx origin g) := hs

theorem invalidateAll_up {ctx core} (hs : DiesUp s) : DiesUp (State.invalidateAll s ctx core) := hs

theorem applySig_up {ctx core g} (hs : DiesUp s) : DiesUp (State.applySig s ctx core g) := by
  grind [State.applySig, invalidateAll_up, bankOr_up, l1Drop_up]

theorem applySlots_up {ctx core o last qs} (hs : DiesUp s) : DiesUp (s.applySlots ctx core o last qs) := by
  induction qs generalizing s with
  | nil => exact hs
  | cons q qs ih => grind [State.applySlots, applySig_up, invalidateAll_up]

theorem acquireSeq_up {ctx core o q delta} (hs : DiesUp s) : DiesUp (State.acquireSeq s ctx core o q delta) := by
  grind [State.acquireSeq, invalidateAll_up, State.updCtx_fencedDies, applySlots_up]

theorem acquireSync_up {ctx core x} (hs : DiesUp s) : DiesUp (State.acquireSync s ctx core x) := acquireSeq_up hs

theorem acquireObj_up {ctx core pa} (hs : DiesUp s) : DiesUp (State.acquireObj s ctx core pa) := acquireSync_up hs

theorem deposit_up {ctx origin sc d obj flags} (hs : DiesUp s) : DiesUp (s.deposit ctx origin sc d obj flags) := by
  unfold State.deposit
  grind [ownWrite_up, l1Drop_up, State.updCtx_fencedDies]

theorem releaseNow_up {ctx origin sc obj flags} (hs : DiesUp s) : DiesUp (s.releaseNow ctx origin sc obj flags) := by
  unfold State.releaseNow
  grind [deposit_up, State.updCtx_fencedDies]

theorem capture_up {ctx origin} (hs : DiesUp s) : DiesUp (State.capture s ctx origin) := by
  grind [State.capture, State.updCtx_fencedDies]

theorem enqueueRel_up {r} (hs : DiesUp s) : DiesUp (State.enqueueRel s r) := capture_up hs

theorem mergeFlags_up {key l fl} (hs : DiesUp s) : DiesUp (State.mergeFlags s key l fl) := by
  grind [State.mergeFlags, State.updHeat_fencedDies, State.updRun_fencedDies]

end Sys2Proof.Machine
end

section
/-! SUPPORT. The dies in service through colours, tasks and the issue of an instruction. -/

namespace Sys2Proof.Machine

variable {s : State}

theorem setMonQ_up {ctx colour q} (hs : DiesUp s) : DiesUp (State.setMonQ s ctx colour q) := by
  grind [State.setMonQ, cohWrite_up, State.updCtx_fencedDies]

theorem setOwner_up {ctx colour tid} (hs : DiesUp s) : DiesUp (State.setOwner s ctx colour tid) := by
  grind [State.setOwner, cohPut_up]

theorem setAbandoned_up {pa b} (hs : DiesUp s) : DiesUp (State.setAbandoned s pa b) := by
  grind [State.setAbandoned, cohPut_up]

theorem findEntry_up {h colour} (hs : DiesUp s) : DiesUp (State.findEntry s h colour).2 := by
  grind [State.findEntry, !translate_up]

theorem finishAcquire_up {h l colour depth pa} (hs : DiesUp s) : DiesUp (State.finishAcquire s h l colour depth pa).2 := by
  grind [State.finishAcquire, State.updLane_fencedDies, acquireObj_up]

theorem acquireColour_up {key l colour} (hs : DiesUp s) : DiesUp (State.acquireColour s key l colour).2 := by
  grind [State.acquireColour, !finishAcquire_up, setMonQ_up, setOwner_up, !findEntry_up]

theorem handOver_up {ctx colour} (hs : DiesUp s) : DiesUp (State.handOver s ctx colour) := by
  grind [State.handOver, setMonQ_up, setOwner_up]

theorem leaveQueues_up {key l} (hs : DiesUp s) : DiesUp (State.leaveQueues s key l) := by
  grind [State.leaveQueues, setMonQ_up, handOver_up, foldl_up]

theorem handOnAll_up {key l} (hs : DiesUp s) : DiesUp (State.handOnAll s key l) := foldl_up (fun _ _ h => handOver_up h) (leaveQueues_up hs)

theorem queueRelease_up {h l colour pa} (hs : DiesUp s) : DiesUp (State.queueRelease s h l colour pa) := enqueueRel_up hs

theorem releaseColours_up {key l target cs} (hs : DiesUp s) : DiesUp (State.releaseColours key l target cs s) := by
  induction cs generalizing s with
  | nil => exact settleBars_up hs
  | cons c cs ih => grind [State.releaseColours, State.updLane_fencedDies, handOver_up, queueRelease_up]

theorem fallAsleep_up {key l c} (hs : DiesUp s) : DiesUp (State.fallAsleep s key l c) := setMonQ_up hs

theorem afterRelease_up {key l c} (hs : DiesUp s) : DiesUp (State.afterRelease s key l c) := by
  grind [State.afterRelease, State.updLane_fencedDies, handOver_up, fallAsleep_up, releaseColours_up]

theorem beginMwait_up {key l c} (hs : DiesUp s) : DiesUp (State.beginMwait s key l c) := by
  grind [State.beginMwait, queueRelease_up, afterRelease_up]

theorem opDone_up {id l} (hs : DiesUp s) : DiesUp (State.opDone s id l) := by
  grind [State.opDone, State.updHeat_fencedDies]

theorem dropAccesses_up {key l} (hs : DiesUp s) : DiesUp (State.dropAccesses s key l) := foldl_up (fun _ _ h => opDone_up h) hs

theorem seat_up {card task} (hs : DiesUp s) : DiesUp (State.seat s card task) := by
  grind [State.seat, updTask_up]

theorem makeReady_up {card task} (hs : DiesUp s) : DiesUp (State.makeReady s card task) := seat_up hs

theorem entriesFreed_up (hs : DiesUp s) : DiesUp (State.entriesFreed s) := foldl_up (fun _ _ h => seat_up h) hs

theorem requeue_up {card task} (hs : DiesUp s) : DiesUp (State.requeue s card task) := by
  grind [State.requeue, State.updCard_fencedDies, makeReady_up, updTask_up]

theorem startRun_up {run first} (hs : DiesUp s) : DiesUp (State.startRun s run first) := by
  grind [State.startRun, acquireSeq_up, invalidateAll_up, State.updUnit_fencedDies, State.updRun_fencedDies, foldl_up]

theorem freeTokens_up {run} (hs : DiesUp s) : DiesUp (State.freeTokens s run) := hs

theorem withdraw_up {run keep} (hs : DiesUp s) : DiesUp (State.withdraw s run keep) := hs

theorem abortCommon_up {run keep} (hs : DiesUp s) : DiesUp (State.abortCommon s run keep) := by
  grind [State.abortCommon, dropAccesses_up, withdraw_up, State.updRun_fencedDies, handOnAll_up, foldl_up]

theorem exitLanes_up {r} (hs : DiesUp s) : DiesUp (State.exitLanes s r) := by
  grind [State.exitLanes, State.updLane_fencedDies, settleBars_up, State.updHeat_fencedDies, foldl_up]

theorem nextOfChunk_up {run} (hs : DiesUp s) : DiesUp (State.nextOfChunk s run) := by
  grind [State.nextOfChunk, startRun_up, exitLanes_up, updTask_up]

theorem awaitTokens_up {run} (hs : DiesUp s) : DiesUp (State.awaitTokens s run) := by
  grind [State.awaitTokens, State.updLane_fencedDies, foldl_up]

theorem rerun_up {run irrevocable} (hs : DiesUp s) : DiesUp (State.rerun s run irrevocable) := by
  grind [State.rerun, startRun_up, State.updRun_fencedDies, awaitTokens_up]

theorem abort_up {run kind} (hs : DiesUp s) : DiesUp (State.abort s run kind) := by
  grind [State.abort, nextOfChunk_up, abortCommon_up, rerun_up, requeue_up, updTask_up]

theorem decrement_up {ctx die arec} (hs : DiesUp s) : DiesUp (State.decrement s ctx die arec).2 := by
  grind [State.decrement, !translate_up, cohPut_up]

theorem fireEdge_up {ctx die va e lap pair} (hs : DiesUp s) : DiesUp (State.fireEdge s ctx die va e lap pair).2 := by
  grind [State.fireEdge, cohPut_up, makeReady_up, !decrement_up, updTask_up]

theorem postDealer_up {die d x addr} (hs : DiesUp s) : DiesUp (State.postDealer s die d x addr) := by
  grind [State.postDealer]

theorem failOne_up {card die} (hs : DiesUp s) : DiesUp (State.failOne s card die).2 := by
  grind [State.failOne, State.updCard_fencedDies, postDealer_up, cohPut_up, abortCommon_up, !fireEdge_up, freeTokens_up, exitLanes_up, foldl_up,
    foldl_snd_up]

theorem failCards_up {n l} (hs : DiesUp s) : DiesUp (State.failCards n l s) := by
  induction n generalizing l s with
  | zero => exact hs
  | succ n ih => grind [State.failCards, !failOne_up]

theorem failCard_up {card die} (hs : DiesUp s) : DiesUp (State.failCard s card die) := entriesFreed_up (failCards_up hs)

theorem beginHalt_up {ctx} (hs : DiesUp s) : DiesUp (State.beginHalt s ctx) := hs

theorem raiseAll_up {key pc ts} (hs : DiesUp s) : DiesUp (raiseAll s key pc ts) := by
  grind [raiseAll, beginHalt_up, abort_up, raise_up, foldl_up]

theorem Work.trap_up {w l t} (hw : DiesUp w.s) : DiesUp (Work.trap w l t).s := hw

theorem Work.trapAll_up {w ls t} (hw : DiesUp w.s) : DiesUp (Work.trapAll w ls t).s := hw

theorem Work.hold_up {w l} (hw : DiesUp w.s) : DiesUp (Work.hold w l).s := hw

theorem Work.stallWith_up {e f} (he : DiesUp e.base) (hf : ∀ t, DiesUp t → DiesUp (f t)) : DiesUp (Work.stallWith e f).s := by
  grind [Work.stallWith]

theorem Work.block_up {w e l x} (hw : DiesUp w.s) : DiesUp (Work.block w e l x).s := hw

theorem enterBlock_up {x} (hs : DiesUp s) : DiesUp (enterBlock s x) := by
  grind [enterBlock, State.updHeat_fencedDies]

theorem finish_up {e h0 w} (hw : DiesUp w.s) : DiesUp (finish e h0 w) := by
  grind [finish, raiseAll_up, settleBars_up, State.updHeat_fencedDies]

theorem issue_up {i body t} (hs : DiesUp s) (hbody : ∀ e v, DiesUp e.base → DiesUp v.s → DiesUp (body e v).s) :
    issue i s body = .next t → DiesUp t := by
  grind [issue, Work.trapAll_up, finish_up, Work.stallWith_up, enterBlock_up]

theorem Env.compute_up {e wide d f w} (hw : DiesUp w.s) : DiesUp (Env.compute e wide d f w).s := foldl_up (fun _ _ h => mergeFlags_up h) hw

end Sys2Proof.Machine
end

section
/-! SUPPORT. The dies in service through control, loads, stores, atomics, synchronisation, rings and copies. -/

namespace Sys2Proof.Machine

variable {s : State}

theorem Env.each_up {e f w} (hf : ∀ v a, DiesUp v.s → DiesUp (f v a).s) (hw : DiesUp w.s) : DiesUp (Env.each e f w).s := by
  grind [Env.each, foldl_work_up]

theorem Work.goto_up {w e l t f} (hw : DiesUp w.s) : DiesUp (Work.goto w e l t f).s := hw

theorem Work.call_up {w e l link t} (hw : DiesUp w.s) : DiesUp (Work.call w e l link t).s := by
  grind [Work.call, Work.trap_up, Work.goto_up]

theorem readSig_up {key l pa} (hs : DiesUp s) : DiesUp (State.readSig s key l pa) := by
  grind [State.readSig, State.updRun_fencedDies]

theorem writeSig_up {key l pa} (hs : DiesUp s) : DiesUp (State.writeSig s key l pa) := by
  grind [State.writeSig, State.updRun_fencedDies]

theorem finishLoad_up {key a bs} (hs : DiesUp s) : DiesUp (State.finishLoad s key a bs) := by
  grind [State.finishLoad, opDone_up, State.updHeat_fencedDies]

theorem l1Patch_up {core pa bs} (hs : DiesUp s) : DiesUp (State.l1Patch s core pa bs) := by
  grind [State.l1Patch]

theorem writeThrough_up {core pa bs} (hs : DiesUp s) : DiesUp (State.writeThrough s core pa bs) := dieWrite_up (l1Patch_up hs)

theorem storeThrough_up {ctx core pa bs} (hs : DiesUp s) : DiesUp (State.storeThrough s ctx core pa bs) := writeThrough_up hs

theorem storeTask_up {r pa bs nopre} (hs : DiesUp s) : DiesUp (State.storeTask s r pa bs nopre) := hs

theorem doStore_up {key core a bs} (hs : DiesUp s) : DiesUp (State.doStore s key core a bs) := by
  grind [State.doStore, storeTask_up, writeSig_up, storeThrough_up]

theorem clearPoison_up {accs} (hs : DiesUp s) : DiesUp (State.clearPoison s accs) := by
  grind [State.clearPoison]

theorem rmwNear_up {key core a bs} (hs : DiesUp s) : DiesUp (State.rmwNear s key core a bs) := by
  grind [State.rmwNear, mergeFlags_up, writeThrough_up, readSig_up, writeSig_up, finishLoad_up]

theorem translateAccs_up {ctx core use accs cache} (hs : DiesUp s) : DiesUp (State.translateAccs ctx core use accs cache s).2 := by
  induction accs generalizing cache s with
  | nil => exact hs
  | cons a as ih => grind [State.translateAccs, !translate_up]

theorem beginSaves_up {ctx serial chunks} (hs : DiesUp s) : DiesUp (State.beginSaves s ctx serial chunks) := hs

theorem sendReleases_up {h accs} (hs : DiesUp s) : DiesUp (s.sendReleases h accs) := by
  unfold State.sendReleases
  refine foldl_up (fun b pa hb => ?_) (foldl_up (fun _ _ hb => enqueueRel_up hb) hs)
  grind [opDone_up, enqueueRel_up, foldl_up]

theorem pendCpyw_up {h accs} (hs : DiesUp s) : DiesUp (State.pendCpyw s h accs) := by
  grind [State.pendCpyw, opDone_up, State.updHeat_fencedDies, foldl_up]

theorem sendReqs_up {h strm accs} (hs : DiesUp s) : DiesUp (State.sendReqs s h strm accs) := by
  grind [State.sendReqs, sendReleases_up, ask_up, pendCpyw_up, bankIn_up, foldl_up]

theorem nearAccess_up {h acc a} (hacc : DiesUp acc.2) : DiesUp (State.nearAccess h acc a).2 := by
  grind [State.nearAccess, opDone_up, readSig_up, writeSig_up, finishLoad_up, rmwNear_up, doStore_up, bankIn_up]

theorem access_up {s0 h noBreak nopre strm accs} (hs0 : DiesUp s0) : DiesUp (State.access s0 h noBreak nopre strm accs).s := by
  grind [State.access, !translateAccs_up, !nearAccess_up, clearPoison_up, sendReqs_up, foldl_snd_up]

theorem Env.setRec_up {e d x w} (hw : DiesUp w.s) : DiesUp (Env.setRec e d x w).s := by
  grind [Env.setRec, State.updHeat_fencedDies]

theorem fillL1_up {core sec strm} (hs : DiesUp s) : DiesUp (State.fillL1 s core sec strm) := roomL1_up hs

theorem loadNow_up {key core l pa n t} (ht : State.loadNow s key core l pa n = some t) (hs : DiesUp s) : DiesUp t.2 := by
  grind [State.loadNow, fillL1_up]

theorem endpoint_up {ctx die h} (hs : DiesUp s) : DiesUp (State.endpoint s ctx die h).2 := by
  grind [State.endpoint, State.updCtx_fencedDies]

theorem sendRemote_up {h handle entry copy accs} (hs : DiesUp s) : DiesUp (State.sendRemote s h handle entry copy accs) := hs

theorem remoteAccess_up {h rcd accs} (hs : DiesUp s) : DiesUp (State.remoteAccess s h rcd accs).s := by
  grind [State.remoteAccess, !endpoint_up, sendRemote_up, foldl_up]

theorem skipLanes_up {key accs} (hs : DiesUp s) : DiesUp (State.skipLanes s key accs) := foldl_up (fun _ _ h => finishLoad_up h) hs

theorem perform_up {h noBreak rcd accs} (hs : DiesUp s) : DiesUp (State.perform s h noBreak rcd accs).s := by
  grind [State.perform, remoteAccess_up, skipLanes_up, access_up]

theorem Work.irrevocably_up {w e runs} (hw : DiesUp w.s) : DiesUp (Work.irrevocably w e runs).s := foldl_work_up (fun _ _ h => abort_up h) hw

theorem Work.fail_up {w id ts} (hw : DiesUp w.s) : DiesUp (Work.fail w id ts).s := foldl_up (fun _ _ h => opDone_up h) hw

theorem Env.mark_up {e} (hs : DiesUp s) : DiesUp (Env.mark e s) := hs

theorem Env.begin_up {e w} (hw : DiesUp w.s) : DiesUp (Env.begin e w).2.s := by
  grind [Env.begin, Env.mark_up, State.updHeat_fencedDies]

theorem Env.accessBy_up {e rcd chk op w} (he : DiesUp e.base) (hw : DiesUp w.s) : DiesUp (Env.accessBy e rcd chk op w).s := by
  have hb : DiesUp (e.begin w).2.s := Env.begin_up hw
  unfold Env.accessBy
  lift_lets
  extract_lets chks lines colour
  split
  · exact Work.stallWith_up he (fun _ h => h)
  · generalize e.begin w = b at hb ⊢
    obtain ⟨id, w⟩ := b
    dsimp only
    split
    · split
      · exact Work.stallWith_up he (fun _ h => beginSaves_up h)
      · exact Work.irrevocably_up (Work.fail_up (perform_up (Work.fail_up hb)))
    · grind [foldl_fst_up, foldl_work_up, !acquireColour_up, Work.block_up, Work.fail_up, perform_up, beginSaves_up, Work.irrevocably_up]

theorem Env.memory_up {e rcd sz idx op k w} (he : DiesUp e.base) (hw : DiesUp w.s) : DiesUp (Env.memory e rcd sz idx op k w).s := by
  grind [Env.memory, Env.accessBy_up]

theorem Env.irrevocable_up {e w body} (he : DiesUp e.base) (hw : DiesUp w.s) (hbody : ∀ e v, DiesUp e.base → DiesUp v.s → DiesUp (body e v).s) :
    DiesUp (Env.irrevocable e w body).s := by
  grind [Env.irrevocable, Work.irrevocably_up]

theorem Env.store_up {e rcd sz d idx w} (he : DiesUp e.base) (hw : DiesUp w.s) : DiesUp (Env.store e rcd sz d idx w).s := by
  grind [Env.store, Env.memory_up, Env.irrevocable_up]

theorem Env.scratch_up {e sz place op w} (he : DiesUp e.base) (hop : ∀ t a b c, DiesUp t → DiesUp (op t a b c)) (hw : DiesUp w.s) :
    DiesUp (Env.scratch e sz place op w).s := by
  grind [Env.scratch, Env.mark_up, Work.stallWith_up, Work.trap_up, foldl_work_up]

theorem scrWrite_up {u off bs} (hs : DiesUp s) : DiesUp (State.scrWrite s u off bs) := hs

theorem Env.quad_up {e sz x pos op w} (he : DiesUp e.base) (hop : ∀ t a b c, DiesUp t → DiesUp (op t a b c)) (hw : DiesUp w.s) :
    DiesUp (Env.quad e sz x pos op w).s := by
  grind [Env.quad, Work.stallWith_up, Env.scratch_up]

theorem prefetch_up {core l2 strm line} (hs : DiesUp s) : DiesUp (State.prefetch s core l2 strm line) := by
  grind [State.prefetch, fillL1_up, ask_up, foldl_up]

theorem Env.maintain_up {e sz x b f w} (hf : ∀ t a, DiesUp t → DiesUp (f t a)) (hw : DiesUp w.s) : DiesUp (Env.maintain e sz x b f w).s := by
  grind [Env.maintain, !translateAccs_up, Work.trap_up, foldl_up, foldl_work_up]

theorem Work.awaitOp_up {w e id} (hw : DiesUp w.s) : DiesUp (Work.awaitOp w e id).s := by
  grind [Work.awaitOp, State.updHeat_fencedDies]

theorem Work.waitOn_up {e mark} (he : DiesUp e.base) : DiesUp (Work.waitOn e mark).s := he

theorem Env.afterOwed_up {e w f} (he : DiesUp e.base) (hw : DiesUp w.s) (hf : ∀ v, DiesUp v.s → DiesUp (f v).s) :
    DiesUp (Env.afterOwed e w f).s := by
  grind [Env.afterOwed, Work.waitOn_up]

theorem Env.afterCpyw_up {e w f} (he : DiesUp e.base) (hw : DiesUp w.s) (hf : ∀ v, DiesUp v.s → DiesUp (f v).s) :
    DiesUp (Env.afterCpyw e w f).s := by
  grind [Env.afterCpyw, Work.stallWith_up]

theorem Env.releaseAt_up {e sc rel w f} (he : DiesUp e.base) (hw : DiesUp w.s) (hf : ∀ v, DiesUp v.s → DiesUp (f v).s) :
    DiesUp (Env.releaseAt e sc rel w f).s := by
  grind [Env.releaseAt, Env.afterCpyw_up, Env.afterOwed_up]

theorem Env.atomic_up {e rcd sz idx op kind o sc y cmp d w} (he : DiesUp e.base) (hw : DiesUp w.s) :
    DiesUp (Env.atomic e rcd sz idx op kind o sc y cmp d w).s := by
  grind [Env.atomic, Work.trapAll_up, Env.releaseAt_up, Env.irrevocable_up, Work.awaitOp_up, Env.accessBy_up]

theorem updHid_up {unit ring slot f} (hs : DiesUp s) : DiesUp (State.updHid s unit ring slot f) := hs

theorem ringFault_up {unit ring slot} (hs : DiesUp s) : DiesUp (State.ringFault s unit ring slot) := hs

theorem Env.ringOp_up {e a f w} (he : DiesUp e.base) (hf : ∀ v a b, DiesUp v.s → DiesUp (f v a b).s) (hw : DiesUp w.s) :
    DiesUp (Env.ringOp e a f w).s := by
  grind [Env.ringOp, Work.trapAll_up, Work.stallWith_up]

theorem Env.handOn_up {e st a w} (he : DiesUp e.base) (hw : DiesUp w.s) : DiesUp (Env.handOn e st a w).s := by
  grind [Env.handOn, Work.trapAll_up, scrWrite_up, Env.ringOp_up, State.updUnit_fencedDies]

theorem addCopy_up {e colour slot unbound left parked} (hs : DiesUp s) : DiesUp (State.addCopy s e colour slot unbound left parked) := hs

theorem stampStart_up {e out slot} (hs : DiesUp s) : DiesUp (s.stampStart e out slot) := by
  unfold State.stampStart
  grind [updHid_up]

theorem copyElem_up {a place write} (hs : DiesUp s) (hwrite : ∀ t, DiesUp t → DiesUp (write t)) : DiesUp (State.copyElem s a place write) := by
  grind [State.copyElem]

theorem sendCopies_up {h out accs} (hs : DiesUp s) : DiesUp (State.sendCopies s h out accs) := by
  grind [State.sendCopies, foldl_up]

theorem sendRemoteCopies_up {h handle entry accs} (hs : DiesUp s) : DiesUp (State.sendRemoteCopies s h handle entry accs) :=
  foldl_up (fun _ _ h => sendRemote_up h) hs

theorem replay_up {old pass replaying slot bound} (hs : DiesUp s) : DiesUp (State.replay s old pass replaying slot bound) := hs

theorem Env.copy_up {e out sz o x ring b w} (he : DiesUp e.base) (hw : DiesUp w.s) : DiesUp (Env.copy e out sz o x ring b w).s := by
  unfold Env.copy
  extract_lets rcd kind off chk old fresh binds bound causes good newId opOf acc accs skips lines unbound slot
  have hs : DiesUp (if recRemote rcd then (accs.map (fun a => (a, Except.ok 0)), w.s)
      else State.translateAccs e.ctx e.core (if out then .write else .read) accs [] w.s).2 := by
    split
    · exact hw
    · exact translateAccs_up hw
  generalize (if recRemote rcd then _ else _ : List (Acc × Except Cause Nat) × State) = p at hs ⊢
  obtain ⟨res, s⟩ := p
  have hs : DiesUp (if recRemote rcd && !accs.isEmpty then s.endpoint e.ctx e.die (recEndpoint rcd) else (some [], s)).2 := by
    split
    · exact endpoint_up hs
    · exact hs
  dsimp -zeta only
  generalize (if recRemote rcd && !accs.isEmpty then _ else _ : Option (List Byte) × State) = p at hs ⊢
  obtain ⟨en, s⟩ := p
  dsimp -zeta only
  extract_lets noEnd trapOf traps go pas chunks trapped s1 s2 s3 faults s4 s5 s6 s7 s8
  have h1 : DiesUp s1 := ite_up hs (addCopy_up hs)
  have h2 : DiesUp s2 := ite_up (stampStart_up h1) h1
  have h3 : DiesUp s3 := replay_up h2
  have h4 : DiesUp s4 := foldl_up (fun _ _ h => ringFault_up h) h3
  have h5 : DiesUp s5 := foldl_up (fun _ _ h => opDone_up (ite_up h (copyElem_up h (fun _ h => scrWrite_up h)))) h4
  have h6 : DiesUp s6 := ite_up (foldl_up (fun _ _ h => bankIn_up (l1Drop_up h)) h5) h5
  have h7 : DiesUp s7 := sendCopies_up h6
  have h8 : DiesUp s8 := foldl_up (fun _ _ h => ite_up h (ask_up h)) h7
  split
  · exact Work.stallWith_up he (fun _ h => h)
  · split
    · exact Work.stallWith_up he (fun _ h => beginSaves_up h)
    · split
      · exact sendRemoteCopies_up h5
      · exact h8

end Sys2Proof.Machine
end

section
/-! SUPPORT. The dies in service through the arrays, the monitors, the tasks, the kills and the service forms. -/

namespace Sys2Proof.Machine

variable {s : State}

theorem fullySigned_up {u t ctx serial m p mine} (hs : DiesUp s) : DiesUp (State.fullySigned s u t ctx serial m p mine).2 := by
  grind [State.fullySigned, State.updLane_fencedDies, opDone_up, raiseAll_up, State.updTeam_fencedDies, State.updArray_fencedDies, foldl_up]

theorem Env.sign_up {e m f a w} (he : DiesUp e.base) (hw : DiesUp w.s) : DiesUp (Env.sign e m f a w).s := by
  grind [Env.sign, Work.trapAll_up, Env.each_up, Work.stallWith_up, State.updTeam_fencedDies, !fullySigned_up, Work.block_up, !Env.begin_up]

theorem Env.setMark_up {e m x w} (hw : DiesUp w.s) : DiesUp (Env.setMark e m x w).s := by
  grind [Env.setMark, Work.trapAll_up, State.updTeam_fencedDies]

theorem trapBlocked_up {key l t} (hs : DiesUp s) : DiesUp (State.trapBlocked s key l t) := raiseAll_up hs

theorem claim_up {key l cs} (hs : DiesUp s) : DiesUp (State.claim key l cs s).2 := by
  induction cs generalizing s with
  | nil => exact hs
  | cons c cs ih => grind [State.claim, State.updLane_fencedDies, !acquireColour_up]

theorem wakeSleeper_up {ctx c v notified} (hs : DiesUp s) : DiesUp (State.wakeSleeper s ctx c v notified) := by
  grind [State.wakeSleeper, State.updLane_fencedDies, setMonQ_up, handOver_up]

theorem Env.note_up {e a all w} (hw : DiesUp w.s) : DiesUp (Env.note e a all w).s := by
  grind [Env.note, Env.each_up, Work.trap_up, wakeSleeper_up, foldl_up]

theorem abandonAll_up {h l} (hs : DiesUp s) : DiesUp (State.abandonAll s h l) := by
  grind [State.abandonAll, State.updLane_fencedDies, queueRelease_up, leaveQueues_up, setAbandoned_up, foldl_up]

theorem killColours_up {key l} (hs : DiesUp s) : DiesUp (State.killColours s key l) := by
  grind [State.killColours, abandonAll_up, handOnAll_up]

theorem trapLanes_up {ls t} (hs : DiesUp s) : DiesUp (State.trapLanes s ls t) := foldl_up (fun _ _ h => raiseAll_up h) hs

theorem Env.at_up {e va n wr} (hs : DiesUp s) : DiesUp (Env.at e s va n wr).2 := by
  grind [Env.at, !translate_up]

theorem enterCard_up {c die} (hs : DiesUp s) : DiesUp (State.enterCard s c die) := by
  grind [State.enterCard, failCard_up, makeReady_up, foldl_up]

theorem Env.spawn_up {e a w l} (hw : DiesUp w.s) : DiesUp (Env.spawn e a w l).s := by
  unfold Env.spawn
  extract_lets va
  split
  · exact Work.trap_up hw
  · split <;> rename_i h
    · exact Work.trap_up (snd_up h (Env.at_up hw))
    · have h1 := snd_up h (Env.at_up hw)
      refine Work.ite_up (Work.trap_up h1) ?_
      extract_lets c
      split <;> rename_i h2
      · exact Work.trap_up (snd_up h2 (Env.at_up h1))
      · have h3 := snd_up h2 (Env.at_up h1)
        split
        · exact Work.trap_up h3
        · exact Work.ite_up (Work.block_up h3) (enterCard_up (s := { State.releaseNow _ _ _ _ _ _ with nid := _ }) (releaseNow_up h3))

theorem tryCommit_up {run} (hs : DiesUp s) : DiesUp (State.tryCommit s run) := by
  grind [State.tryCommit, State.updRun_fencedDies]

theorem judgeLap_up {r j fin} (hs : DiesUp s) : DiesUp (State.judgeLap s r j fin).2 := by
  grind [State.judgeLap, !translate_up]

theorem tryPublish_up {run} (hs : DiesUp s) : DiesUp (s.tryPublish run) := by
  unfold State.tryPublish
  grind [State.updLane_fencedDies, trapLanes_up, State.updRun_fencedDies, !judgeLap_up, foldl_up]

theorem Env.once_up {e a al n wr w f} (hw : DiesUp w.s) (hf : ∀ v a b, DiesUp v.s → DiesUp (f v a b).s) :
    DiesUp (Env.once e a al n wr w f).s := by
  grind [Env.once, Work.trapAll_up, !Env.at_up]

theorem Env.lap_up {e a w f} (hw : DiesUp w.s) (hf : ∀ a t, DiesUp t → DiesUp (f a t)) : DiesUp (Env.lap e a w f).s := by
  grind [Env.lap, Work.trapAll_up, acquireObj_up, Env.once_up, readSig_up, foldl_up]

theorem Env.abortTasks_up {e f w} (hf : ∀ t a, DiesUp t → DiesUp (f t a)) (hw : DiesUp w.s) : DiesUp (Env.abortTasks e f w).s := by
  grind [Env.abortTasks, Env.each_up, Work.trap_up, Work.hold_up]

theorem fire_up {die card task va e lap pair} (hs : DiesUp s) : DiesUp (State.fire s die card task va e lap pair) := by
  grind [State.fire, postDealer_up, failCard_up, !fireEdge_up]

theorem retireTask_up {card task} (hs : DiesUp s) : DiesUp (State.retireTask s card task) := by
  grind [State.retireTask, entriesFreed_up, updTask_up]

theorem sweep_up (hs : DiesUp s) : DiesUp (State.sweep s) := hs

theorem dropRec_up {id} (hs : DiesUp s) : DiesUp (State.dropRec s id) := hs

theorem dropCopies_up {key l} (hs : DiesUp s) : DiesUp (State.dropCopies s key l) := hs

theorem retryDealer_up {r d} (hs : DiesUp s) : DiesUp (State.retryDealer s r d) := by
  grind [State.retryDealer, fire_up, retireTask_up, dropRec_up]

theorem resumeLane_up {key l skip acq} (hs : DiesUp s) : DiesUp (State.resumeLane s key l skip acq) := hs

theorem resumeRec_up {r mask skip acq} (hs : DiesUp s) : DiesUp (State.resumeRec s r mask skip acq) := by
  grind [State.resumeRec, requeue_up, resumeLane_up, sweep_up, dropRec_up, retryDealer_up, foldl_up]

theorem dropBlocked_up {key l} (hs : DiesUp s) : DiesUp (State.dropBlocked s key l) := by
  grind [State.dropBlocked, opDone_up, foldl_up]

theorem killHandoffs_up {key} (hs : DiesUp s) : DiesUp (State.killHandoffs s key) := by
  grind [State.killHandoffs, State.updUnit_fencedDies]

theorem killLane_up {key l} (hs : DiesUp s) : DiesUp (State.killLane s key l) := by
  grind [State.killLane, dropBlocked_up, State.updLane_fencedDies, failCard_up, dropCopies_up, settleBars_up, State.updHeat_fencedDies,
    killHandoffs_up, killColours_up]

theorem killHeat_up {key} (hs : DiesUp s) : DiesUp (State.killHeat s key) := by
  grind [State.killHeat, killLane_up, foldl_up]

theorem killKernel_up {ctx serial} (hs : DiesUp s) : DiesUp (State.killKernel s ctx serial) := by
  grind [State.killKernel, failCard_up, sweep_up, State.updKernel_fencedDies, killHeat_up, foldl_up]

theorem killRec_up {r f} (hs : DiesUp s) (hf : ∀ t a, DiesUp t → DiesUp (f t a)) : DiesUp (State.killRec s r f) := by
  grind [State.killRec, failCard_up, retireTask_up, sweep_up, dropRec_up]

theorem Env.onRecords_up {e h f w} (hf : ∀ v a b, DiesUp v.s → DiesUp (f v a b).s) (hw : DiesUp w.s) : DiesUp (Env.onRecords e h f w).s := by
  grind [Env.onRecords, Env.each_up, Work.trap_up]

theorem takeRecord_up {key l} (hs : DiesUp s) : DiesUp (s.takeRecord key l) := by
  unfold State.takeRecord
  split
  · exact hs
  · split
    · grind [State.updLane_fencedDies, beginSaves_up, !translate_up, trapBlocked_up, storeThrough_up]
    · exact hs

theorem serveFrames_up (hs : DiesUp s) : DiesUp (State.serveFrames s) := foldl_up (fun _ _ h => takeRecord_up h) hs

theorem setSysField_up {h field x} (hs : DiesUp s) : DiesUp (s.setSysField h field x) := by
  unfold State.setSysField
  grind [State.updHeat_fencedDies, State.updCtx_fencedDies]

theorem Env.afterFence_up {e w f} (he : DiesUp e.base) (hw : DiesUp w.s) (hf : ∀ v, DiesUp v.s → DiesUp (f v).s) :
    DiesUp (Env.afterFence e w f).s := by
  grind [Env.afterFence, Work.waitOn_up]

theorem Env.discard_up {e lo hi w} (hw : DiesUp w.s) : DiesUp (Env.discard e lo hi w).s := hw

end Sys2Proof.Machine
end

section
/-! SUPPORT. The dies in service through each instruction word. -/

namespace Sys2Proof.Machine

variable {s : State}

/-- An outcome that goes on leaves every die in service. -/
def NextUp (r : Host.Outcome State Fault Refusal) : Prop := ∀ t, r = .next t → DiesUp t

theorem packBody_up {n t r sat sc d a rb e w} (hw : DiesUp w.s) : DiesUp (packBody n t r sat sc d a rb e w).s := Env.compute_up hw

theorem unpackBody_up {n t r sc d a rb e w} (hw : DiesUp w.s) : DiesUp (unpackBody n t r sc d a rb e w).s :=
  foldl_work_up (fun _ _ h => Env.compute_up h) hw

theorem Env.setPred_up {e d f w} (hw : DiesUp w.s) : DiesUp (Env.setPred e d f w).s := by
  grind [Env.setPred, State.updLane_fencedDies, Env.each_up]

theorem issue_nextUp {i : Instr} {body : Env → Work → Work} (hs : DiesUp s)
    (hbody : ∀ e w, DiesUp e.base → DiesUp w.s → DiesUp (body e w).s) : NextUp (issue i s body) := fun _ => issue_up hs hbody

theorem execWaitf_nextUp {c mask} (hs : DiesUp s) : NextUp (execWaitf c mask s) := by
  grind [execWaitf, Work.stallWith_up, issue_nextUp, State.updHeat_fencedDies]

theorem execBrx_nextUp {c a} (hs : DiesUp s) : NextUp (execBrx c a s) := by
  grind [execBrx, Env.each_up, Work.trap_up, issue_nextUp, Work.goto_up]

theorem execCallx_nextUp {c link} (hs : DiesUp s) : NextUp (execCallx c link s) := by
  refine issue_nextUp hs fun e w _ hw => Env.each_up (fun v l hv => ?_) hw
  induction targetTrap using of_every with | _ trapOf =>
  extract_lets t
  split
  · exact Work.trap_up hv
  · exact Work.call_up hv

theorem execRet_nextUp {c a} (hs : DiesUp s) : NextUp (execRet c a s) := by
  grind [execRet, Env.each_up, Work.trap_up, issue_nextUp, Work.hold_up, Work.goto_up, releaseColours_up]

theorem execExit_nextUp {c} (hs : DiesUp s) : NextUp (execExit c s) := by
  grind [execExit, failCard_up, Env.each_up, Work.trap_up, issue_nextUp, Work.hold_up, releaseColours_up]

theorem execBldMem_nextUp {c d a n} (hs : DiesUp s) : NextUp (execBldMem c d a n s) := by
  refine issue_nextUp hs fun e w he hw => ?_
  extract_lets va
  refine Work.ite_up hw (Work.ite_up (Work.trapAll_up hw) (Work.ite_up (Work.trapAll_up hw) ?_))
  split <;> rename_i h
  · exact Work.trapAll_up (snd_up h (translate_up hw))
  · have ht := snd_up h (translate_up hw)
    refine Work.ite_up (Work.trapAll_up ht) (Work.ite_up (Work.trapAll_up ht) (Work.ite_up (Work.stallWith_up he fun _ h => h) ?_))
    split <;> rename_i hl
    · exact Work.stallWith_up he fun _ h => ask_up h
    · exact Env.setRec_up (foldl_up (fun _ _ h => readSig_up h) (loadNow_up hl ht))

theorem execLdk_nextUp {c sz d x b} (hs : DiesUp s) : NextUp (execLdk c sz d x b s) := by
  grind [execLdk, Work.trapAll_up, issue_nextUp, Env.memory_up]

theorem execPref_nextUp {c l2 sz x b} (hs : DiesUp s) : NextUp (execPref c l2 sz x b s) := by
  grind [execPref, issue_nextUp, prefetch_up, foldl_up]

theorem execCmaintWb_nextUp {c sz x b} (hs : DiesUp s) : NextUp (execCmaintWb c sz x b s) := by
  grind [execCmaintWb, Env.maintain_up, issue_nextUp, cleanSector_up, foldl_up]

theorem execCmaintInvall_nextUp {c} (hs : DiesUp s) : NextUp (execCmaintInvall c s) := by
  grind [execCmaintInvall, issue_nextUp, l1Drop_up]

theorem execAtoms_nextUp {c op kind sz o sc d x y} (hs : DiesUp s) : NextUp (execAtoms c op kind sz o sc d x y s) := by
  grind [execAtoms, mergeFlags_up, scrWrite_up, issue_nextUp, State.updHeat_fencedDies, Env.releaseAt_up, Env.scratch_up]

theorem execLdacq_nextUp {c sz sc d x b} (hs : DiesUp s) : NextUp (execLdacq c sz sc d x b s) := by
  grind [execLdacq, Work.trapAll_up, issue_nextUp, Work.awaitOp_up, Env.accessBy_up]

theorem execStrel_nextUp {c sz sc d x b} (hs : DiesUp s) : NextUp (execStrel c sz sc d x b s) := by
  grind [execStrel, Work.trapAll_up, issue_nextUp, Env.releaseAt_up, Env.irrevocable_up, Env.accessBy_up]

theorem execSyadd_nextUp {c o sc d x y b} (hs : DiesUp s) : NextUp (execSyadd c o sc d x y b s) := by
  grind [execSyadd, Work.trapAll_up, issue_nextUp, Env.releaseAt_up, Env.irrevocable_up, Work.awaitOp_up, Env.accessBy_up]

theorem execFence_nextUp {c kind eng sc} (hs : DiesUp s) : NextUp (execFence c kind eng sc s) := by
  grind [execFence, issue_nextUp, invalidateAll_up, Work.waitOn_up]

theorem execBar_nextUp {c n b} (hs : DiesUp s) : NextUp (execBar c n b s) := by
  grind [execBar, Work.trapAll_up, Env.each_up, issue_nextUp, arrive_up, Env.afterOwed_up, Work.block_up]

theorem execBara_nextUp {c n b} (hs : DiesUp s) : NextUp (execBara c n b s) := by
  grind [execBara, Work.trapAll_up, Work.stallWith_up, issue_nextUp, arrive_up, Env.afterOwed_up]

theorem execWaita_nextUp {c d a b cmp sg w64 scr acq} (hs : DiesUp s) : NextUp (execWaita c d a b cmp sg w64 scr acq s) := by
  refine issue_nextUp hs fun e w _ hw => ?_
  extract_lets sz y wait
  refine Env.each_up (fun v l hv => Work.ite_up ?_ ?_) hw
  · extract_lets off
    split
    · exact Work.trap_up hv
    · exact Work.block_up hv
  · extract_lets
    refine Work.ite_up (Work.trap_up hv) (Work.ite_up (Work.trap_up hv) ?_)
    split <;> rename_i h
    · exact Work.trap_up (snd_up h (translate_up hv))
    · exact Work.block_up (snd_up h (translate_up hv))

theorem execRawait_nextUp {c st d a} (hs : DiesUp s) : NextUp (execRawait c st d a s) := by
  grind [execRawait, State.updLane_fencedDies, Work.trapAll_up, Env.each_up, issue_nextUp, Env.ringOp_up, Work.block_up, updHid_up]

theorem execRinit_nextUp {c a k} (hs : DiesUp s) : NextUp (execRinit c a k s) := by
  refine issue_nextUp hs fun e w he hw => Work.ite_up hw ?_
  extract_lets off t
  split
  split
  · exact Work.trapAll_up hw
  · exact Work.ite_up (Work.trapAll_up hw) (Work.ite_up (Work.stallWith_up he fun _ h => h) hw)

theorem execSplit_nextUp {c fin a} (hs : DiesUp s) : NextUp (execSplit c fin a s) := by
  grind [execSplit, Work.trapAll_up, issue_nextUp, Env.ringOp_up, updHid_up]

theorem execCpyw_nextUp {c sz sc a x b} (hs : DiesUp s) : NextUp (execCpyw c sz sc a x b s) := by
  grind [execCpyw, Work.trapAll_up, Work.stallWith_up, issue_nextUp, Env.accessBy_up]

theorem execClaim_nextUp {c a n} (hs : DiesUp s) : NextUp (execClaim c a n s) := by
  grind [execClaim, Env.each_up, Work.trap_up, issue_nextUp, Work.hold_up, !claim_up]

theorem execMwait_nextUp {c d a t} (hs : DiesUp s) : NextUp (execMwait c d a t s) := by
  grind [execMwait, Env.each_up, Work.trap_up, issue_nextUp, beginMwait_up, Work.block_up]

theorem execMrepair_nextUp {c a} (hs : DiesUp s) : NextUp (execMrepair c a s) := by
  grind [execMrepair, Env.each_up, Work.trap_up, issue_nextUp, setAbandoned_up]

theorem execTspawn_nextUp {c a} (hs : DiesUp s) : NextUp (execTspawn c a s) := by
  grind [execTspawn, Env.each_up, Work.stallWith_up, Work.trap_up, issue_nextUp, Env.spawn_up, Env.irrevocable_up, foldl_work_up]

theorem execTdone_nextUp {c} (hs : DiesUp s) : NextUp (execTdone c s) := by
  grind [execTdone, State.updLane_fencedDies, Work.trap_up, issue_nextUp, State.updRun_fencedDies, tryCommit_up, Work.block_up, foldl_up,
    foldl_fst_up]

theorem execPublap_nextUp {c fin a} (hs : DiesUp s) : NextUp (execPublap c fin a s) := by
  grind [execPublap, Work.trap_up, issue_nextUp, tryPublish_up, Work.block_up, foldl_up, foldl_fst_up]

theorem execTstop_nextUp {c a} (hs : DiesUp s) : NextUp (execTstop c a s) := by
  grind [execTstop, Work.trapAll_up, cohPut_up, Env.once_up, issue_nextUp]

theorem execTsettle_nextUp {c a} (hs : DiesUp s) : NextUp (execTsettle c a s) := by
  grind [execTsettle, Work.trapAll_up, Env.each_up, acquireObj_up, Env.once_up, issue_nextUp, Work.block_up]

theorem execResume_nextUp {c skip h m} (hs : DiesUp s) : NextUp (execResume c skip h m s) := by
  grind [execResume, Work.stallWith_up, releaseNow_up, resumeRec_up, issue_nextUp, Env.onRecords_up]

theorem execKillLanes_nextUp {c h m} (hs : DiesUp s) : NextUp (execKillLanes c h m s) := by
  grind [execKillLanes, killLane_up, killRec_up, issue_nextUp, Env.onRecords_up, foldl_up]

theorem execKillHeat_nextUp {c h} (hs : DiesUp s) : NextUp (execKillHeat c h s) := by
  grind [execKillHeat, killRec_up, issue_nextUp, Env.onRecords_up, killHeat_up]

theorem execKillKernel_nextUp {c h} (hs : DiesUp s) : NextUp (execKillKernel c h s) := by
  grind [execKillKernel, killRec_up, killKernel_up, issue_nextUp, Env.onRecords_up]

theorem execTframeNext_nextUp {c d a t} (hs : DiesUp s) : NextUp (execTframeNext c d a t s) := by
  grind [execTframeNext, Env.each_up, Work.trap_up, issue_nextUp, takeRecord_up, Work.block_up, !Env.at_up]

theorem execTframeRd_nextUp {c d h lane item} (hs : DiesUp s) : NextUp (execTframeRd c d h lane item s) := by
  grind [execTframeRd, Work.trap_up, issue_nextUp, Env.onRecords_up, State.updHeat_fencedDies]

theorem execTframeWr_nextUp {c h lane item a} (hs : DiesUp s) : NextUp (execTframeWr c h lane item a s) := by
  grind [execTframeWr, Work.trap_up, issue_nextUp, Env.onRecords_up, State.updHeat_fencedDies]

theorem execMts_nextUp {c field a} (hs : DiesUp s) : NextUp (execMts c field a s) := by
  grind [execMts, issue_nextUp, setSysField_up]

theorem execTlbinvRange_nextUp {c a n} (hs : DiesUp s) : NextUp (execTlbinvRange c a n s) := by
  grind [execTlbinvRange, issue_nextUp, Env.afterFence_up, Env.discard_up]

theorem execTlbinvCtx_nextUp {c} (hs : DiesUp s) : NextUp (execTlbinvCtx c s) := by
  grind [execTlbinvCtx, issue_nextUp, Env.afterFence_up, Env.discard_up]

theorem execSplinter_nextUp {c d a t} (hs : DiesUp s) : NextUp (execSplinter c d a t s) := by
  grind [execSplinter, State.updLane_fencedDies, Work.trapAll_up, cohPut_up, issue_nextUp, Env.afterFence_up, Env.discard_up, ownWrite_up,
    bankIn_up, foldl_up]

theorem execBrkpt_nextUp {c} (hs : DiesUp s) : NextUp (execBrkpt c s) := by
  grind [execBrkpt, Env.each_up, Work.trap_up, issue_nextUp]

theorem execBrkptWset_nextUp {c n kind a len} (hs : DiesUp s) : NextUp (execBrkptWset c n kind a len s) := by
  grind [execBrkptWset, Work.trapAll_up, issue_nextUp, State.updCtx_fencedDies]

theorem execBrkptWclr_nextUp {c n} (hs : DiesUp s) : NextUp (execBrkptWclr c n s) := by
  grind [execBrkptWclr, issue_nextUp, State.updCtx_fencedDies]

theorem execHaltallStop_nextUp {c} (hs : DiesUp s) : NextUp (execHaltallStop c s) := by
  grind [execHaltallStop, beginHalt_up, issue_nextUp, State.updHeat_fencedDies]

theorem execHaltallGo_nextUp {c} (hs : DiesUp s) : NextUp (execHaltallGo c s) := by
  grind [execHaltallGo, Work.stallWith_up, releaseNow_up, issue_nextUp, resumeLane_up, sweep_up, State.updCtx_fencedDies, foldl_up]

theorem execUndo_nextUp {c d h} (hs : DiesUp s) : NextUp (execUndo c d h s) := by
  refine issue_nextUp hs fun e w he hw => Work.ite_up (Work.stallWith_up he fun _ h => h) (Env.onRecords_up (fun v l r hv => ?_) hw)
  split
  · exact Work.trap_up hv
  · cases d with
    | none =>
      dsimp only
      split <;> exact hv
    | some n =>
      dsimp only [State.updLane_fencedDies]
      split <;> exact hv

theorem execStamp_nextUp {c sc d} (hs : DiesUp s) : NextUp (execStamp c sc d s) := by
  grind [execStamp, issue_nextUp, Work.waitOn_up, Env.compute_up]

theorem execBist_nextUp {c d a b alg} (hs : DiesUp s) : NextUp (execBist c d a b alg s) := by
  grind [execBist, State.updLane_fencedDies, Env.once_up, issue_nextUp, foldl_up]

theorem execVote_nextUp {c op a} (hs : DiesUp s) : NextUp (execVote c op a s) := by
  grind [execVote, issue_nextUp, Env.compute_up, Env.setPred_up]

/-- No instruction word fences a die. -/
theorem exec_nextUp {i : Instr} (hs : DiesUp s) (hi : i.isWord = true) : NextUp (exec i s) := by
  unfold exec
  cases i with
  | nop => exact issue_nextUp hs fun _ _ _ hw => hw
  | yield | trap | bra | heldTest | psetfFrom => exact issue_nextUp hs fun _ _ _ hw => Env.each_up (fun _ _ h => h) hw
  | waitf => exact execWaitf_nextUp hs
  | brx => exact execBrx_nextUp hs
  | call => exact issue_nextUp hs fun _ _ _ hw => Env.each_up (fun _ _ h => Work.call_up h) hw
  | callx => exact execCallx_nextUp hs
  | ret => exact execRet_nextUp hs
  | exit => exact execExit_nextUp hs
  | bldMem => exact execBldMem_nextUp hs
  | bldQ | bldK | bldZero | bsubOff | bsubWin | bsubColour | bsubFlags => exact issue_nextUp hs fun _ _ _ hw => Env.setRec_up hw
  | ld | ldg => exact issue_nextUp hs fun _ _ he hw => Env.memory_up he hw
  | st | stg => exact issue_nextUp hs fun _ _ he hw => Env.store_up he hw
  | ldk => exact execLdk_nextUp hs
  | lds | sts => exact issue_nextUp hs fun _ _ he hw => Env.scratch_up he (fun _ _ _ _ h => h) hw
  | ldsr | stsr => exact issue_nextUp hs fun _ _ he hw => Env.quad_up he (fun _ _ _ _ h => h) hw
  | pref => exact execPref_nextUp hs
  | cmaintInv => exact issue_nextUp hs fun _ _ _ hw => Env.maintain_up (fun _ _ h => h) hw
  | cmaintWb => exact execCmaintWb_nextUp hs
  | cmaintInvall => exact execCmaintInvall_nextUp hs
  | atom | acas => exact issue_nextUp hs fun _ _ he hw => Env.atomic_up he hw
  | atoms => exact execAtoms_nextUp hs
  | ldacq => exact execLdacq_nextUp hs
  | strel => exact execStrel_nextUp hs
  | syadd => exact execSyadd_nextUp hs
  | fence => exact execFence_nextUp hs
  | bar => exact execBar_nextUp hs
  | bara => exact execBara_nextUp hs
  | waita => exact execWaita_nextUp hs
  | rfill | rpush | rrelease => exact issue_nextUp hs fun _ _ he hw => Env.handOn_up he hw
  | rawait => exact execRawait_nextUp hs
  | rinit => exact execRinit_nextUp hs
  | split => exact execSplit_nextUp hs
  | cpyin | cpyout => exact issue_nextUp hs fun _ _ he hw => Env.copy_up he hw
  | cpyw => exact execCpyw_nextUp hs
  | mmarkSelf | mmarkMask | mmarkClear => exact issue_nextUp hs fun _ _ _ hw => Env.setMark_up hw
  | mldw | mswap | mstr | mdist | mtopk | mrd | mrdScr | mclr => exact issue_nextUp hs fun _ _ he hw => Env.sign_up he hw
  | claim => exact execClaim_nextUp hs
  | mwait => exact execMwait_nextUp hs
  | mnote | mnoteall => exact issue_nextUp hs fun _ _ _ hw => Env.note_up hw
  | heldList | mfs | defmap | fadd | fsub | fmul | ffma | fdiv | fsqrt | fmin | fmax | fsign | frcp | frsq | fexp2 | flog2 | ftanh |
    fclass | frnd | pkadd | pkmul | pkfma | pkmnx | iadd | isub | imul | imad | idiv | imin | imax | iabs | and | or | xor | shl | shr |
    bfx | bfi | popc | clz | brev | sel | mov | movi | addi | lea | bysel | cvti | cvtf | scalex | psetfTo | shfl | hred | hscan | matchv =>
    exact issue_nextUp hs fun _ _ _ hw => Env.compute_up hw
  | mrepair => exact execMrepair_nextUp hs
  | tspawn => exact execTspawn_nextUp hs
  | tdone => exact execTdone_nextUp hs
  | publap => exact execPublap_nextUp hs
  | tstop => exact execTstop_nextUp hs
  | tlapState | tlapBuf => exact issue_nextUp hs fun _ _ _ hw => Env.lap_up hw fun _ _ h => h
  | tabortRequeue => exact issue_nextUp hs fun _ _ _ hw => Env.abortTasks_up (fun _ _ h => abort_up h) hw
  | tabortFail => exact issue_nextUp hs fun _ _ _ hw => Env.abortTasks_up (fun _ _ h => failCard_up h) hw
  | tsettle => exact execTsettle_nextUp hs
  | resume => exact execResume_nextUp hs
  | killLanes => exact execKillLanes_nextUp hs
  | killHeat => exact execKillHeat_nextUp hs
  | killKernel => exact execKillKernel_nextUp hs
  | tframeNext => exact execTframeNext_nextUp hs
  | eret => exact issue_nextUp hs fun _ _ _ hw => Env.onRecords_up (fun _ _ _ h => serveFrames_up h) hw
  | tframeRd => exact execTframeRd_nextUp hs
  | tframeWr => exact execTframeWr_nextUp hs
  | mts => exact execMts_nextUp hs
  | tlbinvRange => exact execTlbinvRange_nextUp hs
  | tlbinvCtx => exact execTlbinvCtx_nextUp hs
  | splinter => exact execSplinter_nextUp hs
  | brkpt => exact execBrkpt_nextUp hs
  | brkptWset => exact execBrkptWset_nextUp hs
  | brkptWclr => exact execBrkptWclr_nextUp hs
  | haltallStop => exact execHaltallStop_nextUp hs
  | haltallGo => exact execHaltallGo_nextUp hs
  | undo => exact execUndo_nextUp hs
  | stamp => exact execStamp_nextUp hs
  | bist => exact execBist_nextUp hs
  | pack2 | pack4 | pack8 => exact issue_nextUp hs fun _ _ _ hw => packBody_up hw
  | unpk2 | unpk4 | unpk8 => exact issue_nextUp hs fun _ _ _ hw => unpackBody_up hw
  | pset | plog => exact issue_nextUp hs fun _ _ _ hw => Env.setPred_up hw
  | vote => exact execVote_nextUp hs
  | matrixOpComplete | monitorGrant | mwaitTimeout | dieTokenGrant | commit | lapPublish | groupSettle | tframeTimeout | halt |
    patrolScrub | mapDataRead | memoryResponse | remoteTimeout | releaseDeposit | copyComplete | cpywPerform | waitaPoll |
    waitaTimeout | handOff | kindNotAllowed | uudPacket | saInstall | saRemove | launch | completionRelease | heatRetire | pacedIssue
    | powerExceedsCap | extest | samplePreload | idcode | clamp | highz | defread | resetBall | promote | launchStart | relayStart |
    unitSave | suspendWindowExpiry | suspendDeadline | unitRestore | faultPost | faultPostRetry | tlbinvComplete | pageDone | qctlSet
    | qctlPause | qctlUnpause | qctlFlush | ctxOpen | ctxClose | ctxCloseDone | uetWrite | uetRead | uetReleaseWrite | readShared |
    readOwn | upgrade | fwdShared | fwdOwn | inval | backInval | invalAck | dataClean | dataDirty | writeBack | cleanEvict |
    backInvalAck | earlyClean | linkLaneFailure | uncorrectableError | journalSave | requestBoundMiss | suspicion | probeTimeout |
    probeAnswer | dieReset | dieRejoin | deal | powerGood | portRetrain | portTrainingDone | bistDone | marginRun | marginDone |
    portErrorClear | dynamicAddress | mgmtAssocInstall | sidebandWrite | powerCapWrite | bypass => cases hi

end Sys2Proof.Machine
end

section
/-! SUPPORT. The step of a heat at its word (R85, R88, R94, R112, R113): the selection of its group in a block and at a header, and the
illegal word that parks it. -/

namespace Sys2Proof.Machine

open Sys2Proof Sys2Proof.Safe

/-- The lanes of a heat that live stand together at one place, and owe no acquire (R112). -/
structure Together (s : State) (key : HeatKey) (h : Heat) (p : Nat) (live : List Nat) : Prop where
  heat : s.heat? key = some h
  eq : live = h.lanesWhere (fun x => !x.exited)
  some_lane : live ≠ []
  lanes : ∀ l ∈ live, (h.lane l).st = .running ∧ (h.lane l).pc = p ∧ (h.lane l).acq = none

section
variable {s s1 s2 : State} {key : HeatKey} {h : Heat} {p w b0 b1 : Nat} {live : List Nat}

/-- The lanes of a heat that have not exited, in order. -/
theorem lanesWhere_order (h : Heat) (q : Lane → Bool) : (∀ l ∈ h.lanesWhere q, l < h.lanes.length) ∧ (h.lanesWhere q).Pairwise (· < ·) :=
  ⟨fun _ hl => List.mem_range.1 (List.mem_filter.1 hl).1, (List.pairwise_lt_range (n := h.lanes.length)).filter _⟩

/-- Selection leaves a heat whose lanes stand together as it is, and takes all of them. -/
theorem Together.selects (hT : Together s key h p live)
    (hb : (∀ l ∈ live, (h.lane l).blk.isSome = true) ∨ ∀ l ∈ live, (h.lane l).blk = none) :
    checkJoin (s.updHeat key (fun h => (s.gather h).wake)) key = s ∧ h.group [] = live := by
  obtain ⟨hheat, rfl, hne, hl⟩ := hT
  have hwake : (s.gather h).wake = h := by
    rw [gather_live hl hb, wake_live (fun l hm => (hl l hm).1)]
  refine ⟨?_, group_live rfl hne hl⟩
  rw [updHeat_same hheat hwake, checkJoin_live hheat hne (fun l hm => (hl l hm).1)]

/-- Every lane that has not exited has reached the header at which all stand. -/
theorem Together.allAt (hT : Together s key h p live) (hb : ∀ l ∈ live, (h.lane l).blk = none) : h.allAt p = true := by
  obtain ⟨-, rfl, -, hl⟩ := hT
  unfold Heat.allAt
  rw [List.all_eq_true]
  intro x hx
  cases he : x.exited with
  | true => rfl
  | false =>
    obtain ⟨l, hm, rfl⟩ := live_of hx he
    obtain ⟨hst, hpc, hacq⟩ := hl l hm
    simp [hst, hpc, hb l hm, Heat.candidate, hacq]

/-- The group of a heat whose lanes stand in one block, at the word that is fetched (R112). -/
theorem Together.prepare_block (hT : Together s key h p live) (hb : ∀ l ∈ live, (h.lane l).blk = some (b0, b1))
    (hf : s.fetchWord h p = (.ok w, s1)) (hhold : s1.holding h = false) (n : Nat) :
    prepare (n + 1) key [] s = ready s1 h live { key := key, lanes := live, pc := p, hdrAddr := b0, hdr := b1, entering := false, word := w } := by
  obtain ⟨hsame, hgroup⟩ := hT.selects (.inl fun l hm => by rw [hb l hm]; rfl)
  obtain ⟨hheat, hlive, hne, hl⟩ := hT
  obtain ⟨a, t, rfl⟩ := List.exists_cons_of_ne_nil hne
  have ha : a ∈ a :: t := List.mem_cons_self
  have hheader : (a :: t).filter (fun l => (h.lane l).blk.isNone) = [] :=
    List.filter_eq_nil_iff.2 (fun l hm => by rw [hb l hm]; exact Bool.false_ne_true)
  have hall : (a :: t).filter (fun l => (h.lane l).blk = (h.lane a).blk) = a :: t :=
    List.filter_eq_self.2 (fun l hm => by rw [hb l hm, hb a ha]; exact decide_eq_true rfl)
  rw [prepare]
  dsimp only
  rw [hsame, hheat]
  dsimp only
  rw [hgroup]
  dsimp only
  rw [hheader, hall, (hl a ha).2.1, hb a ha, runonAt_live (fun l hm => (hl l (hlive ▸ hm)).1), hf]
  dsimp only
  rw [hhold]
  simp

/-- The group of a heat whose lanes stand at a header that keeps the rules, with the flags that it waits for clear: the block's first
word (R88, R90, R112). -/
theorem Together.prepare_header (hT : Together s key h p live) (hb : ∀ l ∈ live, (h.lane l).blk = none)
    (hf : s.fetchWord h p = (.ok b1, s1)) (hgood : badHeader b1 h.budget = false) (hflags : h.flagsClear (fld b1 40 12) = true)
    (hw : s1.fetchWord h (p + 8) = (.ok w, s2)) (hhold : s2.holding h = false) (n : Nat) :
    prepare (n + 1) key [] s = ready s2 h live { key := key, lanes := live, pc := p + 8, hdrAddr := p, hdr := b1, entering := true, word := w } := by
  obtain ⟨hsame, hgroup⟩ := hT.selects (.inr hb)
  have hallAt := hT.allAt hb
  obtain ⟨hheat, hlive, hne, hl⟩ := hT
  obtain ⟨a, t, rfl⟩ := List.exists_cons_of_ne_nil hne
  have hheader : (a :: t).filter (fun l => (h.lane l).blk.isNone) = a :: t :=
    List.filter_eq_self.2 (fun l hm => by rw [hb l hm]; rfl)
  rw [prepare]
  dsimp only
  rw [hsame, hheat]
  dsimp only
  rw [hgroup]
  dsimp only
  rw [hheader, (hl a List.mem_cons_self).2.1, hf]
  dsimp only
  rw [hgood, runonAt_live (fun l hm => (hl l (hlive ▸ hm)).1), hallAt, hflags, hw]
  dsimp only
  rw [hhold]
  simp

/-- An issue clock of a heat that no other goes before, whose group's word is at hand. -/
theorem issueHeat_at (hheat : s.heat? key = some h) (ha : h.active = true) (hr : s.heatReady h = true) (hbusy : h.busy = none)
    (hahead : firstIssue s (s.ahead h) = none) {x : Iss} (hp : prepare 40 key [] s = { s1 with iss := some x }) :
    issueHeat key s = match decode x.word with
      | .ok i => exec i { s1 with iss := some x }
      | .error _ => .next (issueIllegal { s1 with iss := some x }) := by
  have hsame : s.updHeat key (fun h => if h.busy = some .halt then { h with busy := none } else h) = s :=
    updHeat_same hheat (by rw [hbusy]; rfl)
  unfold issueHeat
  rw [hheat]
  dsimp only
  rw [hahead]
  dsimp only
  unfold tryIssue
  rw [hheat]
  dsimp only
  rw [ha, hr, hsame, hp]
  rfl

/-- A word that is no instruction parks the lanes that issue it, with ILLEGAL (R94, R103). -/
theorem issueIllegal_parked {x : Iss} (hS : Stands s x h) (ht : ∀ l ∈ x.lanes, (h.lane l).task = none) :
    Parked s (issueIllegal s) x h x.lanes (fun _ => { cause := .illegal }) 1 := by
  obtain ⟨h0, hh0⟩ := entered_heat hS.heat
  unfold issueIllegal
  rw [hS.iss]
  dsimp only
  rw [hh0]
  exact finish_parked hS rfl rfl rfl x.lanes (fun _ => { cause := .illegal }) 1 false hS.some_lane
    (List.filter_eq_self.2 (fun l hl => by simpa using hl)).symm ht (fun _ _ => rfl) (fun _ _ => by decide) (by decide)

theorem step_event {i : Instr} {rest : List Move} (ha : s.agenda = .event i :: rest) (hi : i.isWord = false) :
    step s = exec i { s with agenda := rest } := by
  unfold step
  rw [ha]
  show move (.event i) _ = _
  unfold move
  dsimp only
  rw [hi]
  rfl

theorem step_issue {rest : List Move} (ha : s.agenda = .issue key :: rest) : step s = issueHeat key { s with agenda := rest } := by
  unfold step
  rw [ha]
  rfl

end

end Sys2Proof.Machine
end

section
/-! SUPPORT. A word placed where the next step fetches (log entry 4): what the placed state's memory holds, the walk of its one page, and
the fetch of the header and of the word. -/

namespace Sys2Proof.Machine

open Sys2Proof Sys2Proof.Safe

/-! Bytes of memory that no cache, message or queue holds. -/

theorem readBytes_writeBytes_ne (t : Tbl Byte) (bs : List Byte) (a x n : Nat) (h : x + n ≤ a ∨ a + bs.length ≤ x) :
    readBytes (writeBytes t a bs) x n = readBytes t x n := by
  induction n generalizing x with
  | zero => rfl
  | succ n ih =>
    rw [readBytes, readBytes, get_writeBytes_ne t bs a x (by omega), ih (x + 1) (by omega)]

/-- An aligned part of a sector's bytes. -/
theorem readBytes_part (t : Tbl Byte) (a off n k : Nat) (h : off + n ≤ k) : ((readBytes t a k).drop off).take n = readBytes t (a + off) n := by
  refine List.ext_getElem (by rw [List.length_take, List.length_drop, readBytes_length, readBytes_length]; omega) (fun i h1 h2 => ?_)
  rw [List.getElem_take, List.getElem_drop, getElem_readBytes, getElem_readBytes, Nat.add_assoc]

/-- No L2, message, write queue or poison stands between an agent and memory, and every die is in service. -/
structure Bare (s : State) : Prop where
  l2 : s.l2 = []
  msgs : s.msgs = []
  rwq : s.rwq = []
  poison : s.poison = []
  dies : s.fencedDies = []

namespace Bare
variable {s : State}

theorem cohSector (hs : Bare s) (sec : Nat) : s.cohSector sec = readBytes s.mem (64 * sec) 64 := by
  unfold State.cohSector State.l2?
  rw [hs.l2, hs.msgs]
  have hnone : (upto 4).findSome? (fun d => if d = homeOf (64 * sec) then none else
      (Tbl.find? ([] : Tbl L2Line) (skey d sec)).bind (fun x => if x.st = .m ∨ x.st = .o then some x.data else none)) = none := by
    rw [List.findSome?_eq_none_iff]
    intro d _
    split <;> rfl
  dsimp only
  rw [hnone]
  rfl

theorem viewBytes (hs : Bare s) (die pa n : Nat) (h : pa % 64 + n ≤ 64) :
    ((s.overlay die (pa / 64) (s.cohSector (pa / 64))).drop (pa % 64)).take n = readBytes s.mem pa n := by
  unfold State.overlay
  rw [hs.rwq, List.foldl_nil, hs.cohSector, readBytes_part _ _ _ _ _ h, Nat.div_add_mod]

theorem cohNat (hs : Bare s) {pa n : Nat} (ha : pa % 64 = 0) (h : 0 < n ∧ n ≤ 64) : s.cohNat pa n = ofBytes (readBytes s.mem pa n) := by
  unfold State.cohNat State.cohRead
  dsimp only
  have hone : (pa % 64 + n + 63) / 64 = 1 := by omega
  rw [hone]
  show ofBytes (((s.cohSector (pa / 64 + 0) ++ []).drop (pa % 64)).take n) = _
  rw [List.append_nil, Nat.add_zero, hs.cohSector, readBytes_part _ _ _ _ _ (by omega), Nat.div_add_mod]

theorem poisoned (hs : Bare s) (pa n : Nat) : s.poisoned pa n = false := poisoned_nil hs.poison pa n

/-- One level of a walk over an entry that points to a table (R196, R198). -/
theorem walk_table (hs : Bare s) (die va shift bits align table e : Nat) (leaf : Option Nat) (rest : List (Nat × Nat × Option Nat × Nat))
    (hpte : (table + 8 * fld va shift bits) % 64 + 8 ≤ 64) (he : ofBytes (readBytes s.mem (table + 8 * fld va shift bits) 8) = e)
    (hok : (bit e 0 && !(bit e 1) && fld e 6 2 == 0 && fld e 52 4 == 0 && decide (fld e 8 44 * 256 < 2 ^ 40) && !(rest.isEmpty) &&
      fld e 8 44 * 256 % align == 0) = true) :
    s.walkFrom die va ((shift, bits, leaf, align) :: rest) table = s.walkFrom die va rest (fld e 8 44 * 256) := by
  simp only [Bool.and_eq_true, Bool.not_eq_true', beq_iff_eq, decide_eq_true_eq] at hok
  obtain ⟨⟨⟨⟨⟨⟨h0, h1⟩, h6⟩, h52⟩, haddr⟩, hrest⟩, halign⟩ := hok
  rw [State.walkFrom]
  dsimp only
  have hview : s.viewNat die (table + 8 * fld va shift bits) 8 = e := by rw [State.viewNat, hs.viewBytes _ _ _ hpte, he]
  rw [hs.dies, hs.poisoned, hview, decide_eq_false (Nat.not_le.2 haddr), h0, h1, h6, h52, hrest, halign]
  simp

/-- The last level of a walk (R196, R198). -/
theorem walk_leaf (hs : Bare s) (die va shift bits align table e size : Nat) (rest : List (Nat × Nat × Option Nat × Nat))
    (hpte : (table + 8 * fld va shift bits) % 64 + 8 ≤ 64) (he : ofBytes (readBytes s.mem (table + 8 * fld va shift bits) 8) = e)
    (hok : (bit e 0 && bit e 1 && fld e 6 2 == 0 && fld e 52 4 == 0 && decide (fld e 8 44 * 256 < 2 ^ 40) && fld e 8 44 * 256 % size == 0) = true) :
    s.walkFrom die va ((shift, bits, some size, align) :: rest) table =
      .ok { pte := table + 8 * fld va shift bits, entry := e, pa := fld e 8 44 * 256, size := size } := by
  simp only [Bool.and_eq_true, beq_iff_eq, decide_eq_true_eq] at hok
  obtain ⟨⟨⟨⟨⟨h0, h1⟩, h6⟩, h52⟩, haddr⟩, halign⟩ := hok
  rw [State.walkFrom]
  dsimp only
  have hview : s.viewNat die (table + 8 * fld va shift bits) 8 = e := by rw [State.viewNat, hs.viewBytes _ _ _ hpte, he]
  rw [hs.dies, hs.poisoned, hview, decide_eq_false (Nat.not_le.2 haddr), h0, h1, h6, h52, halign]
  simp

end Bare

/-! The placed state. -/

/-- The state of a placed word when the step that issues it begins. -/
def placed (w : Nat) : State := { State.reset.withFetchWord 64 w with agenda := [] }

/-- The placed heat. -/
def placedHeat (w : Nat) : Heat :=
  { key := placedKey, core := 0, part := 0, unit := 0, leg := 0, role := placedRole (fld w 56 8), budget := 320, cls := 0
    heatn := 1, lanes := {} :: List.replicate 31 { st := .exited }, active := true, service := true }

/-- The memory of the placed state before the word: the tables and the header. -/
def placedMem : Tbl Byte :=
  writeBytes (placedTables.foldl (fun m e => writeBytes m e.1 (toBytes 8 e.2)) []) 0x10000 (toBytes 8 placedHeader)

/-- The translation of the placed block's page, at address 0 of its context. -/
def placedPage : TlbE :=
  { die := 0, ctx := 0, va := 0, size := 0x10000, pa := 0x10000, w := true, x := true, pte := 0x5000, dirty := true, cores := [0] }

/-- The issue of the placed word. -/
def placedIss (w : Nat) : Iss :=
  { key := placedKey, lanes := [0], pc := 8, hdrAddr := 0, hdr := placedHeader, entering := true, word := w }

section
variable (w : Nat)

theorem placed_bare : Bare (placed w) := ⟨rfl, rfl, rfl, rfl, rfl⟩

theorem placed_mem : (placed w).mem = writeBytes placedMem 0x10008 (toBytes 8 (w % 2 ^ 64)) := rfl

theorem placed_heats : (placed w).heats = [placedHeat (w % 2 ^ 64)] := rfl

/-- What stands below the word. -/
theorem placed_below {pa : Nat} (h : pa + 8 ≤ 0x10008) : readBytes (placed w).mem pa 8 = readBytes placedMem pa 8 := by
  rw [placed_mem]
  exact readBytes_writeBytes_ne _ _ _ _ _ (.inl h)

theorem placed_word : ofBytes (readBytes (placed w).mem 0x10008 8) = w % 2 ^ 64 := by
  have hread := readBytes_writeBytes placedMem (toBytes 8 (w % 2 ^ 64)) 0x10008
  rw [toBytes_length] at hread
  rw [placed_mem, hread, ofBytes_toBytes, show 256 ^ 8 = 2 ^ 64 from rfl, Nat.mod_mod]

/-- The placed state once its page has been walked to: the page stands in the buffers of die 0 and of core 0. -/
def placedWalked : State := { placed w with tlb := [placedPage] }

theorem placedWalked_bare : Bare (placedWalked w) := ⟨rfl, rfl, rfl, rfl, rfl⟩

theorem placed_walk : (placed w).walk 0 0 (0 % 2 ^ 57) = .ok { pte := 0x5000, entry := 0x1003F, pa := 0x10000, size := 0x10000 } := by
  have hs := placed_bare w
  have hread (pa e : Nat) (hpa : pa + 8 ≤ 0x10008) (he : ofBytes (readBytes placedMem pa 8) = e) : ofBytes (readBytes (placed w).mem pa 8) = e := by
    rw [placed_below w hpa, he]
  unfold State.walk levels
  show (placed w).walkFrom 0 _ _ 0x1000 = _
  rw [hs.walk_table 0 _ 48 9 4096 0x1000 0x2001 none _ (by decide) (hread _ _ (by decide) (by decide)) (by decide),
    hs.walk_table 0 _ 39 9 4096 _ 0x3001 none _ (by decide) (hread _ _ (by decide) (by decide)) (by decide),
    hs.walk_table 0 _ 30 9 4096 _ 0x4001 (some (2 ^ 30)) _ (by decide) (hread _ _ (by decide) (by decide)) (by decide),
    hs.walk_table 0 _ 21 9 256 _ 0x5001 (some (2 ^ 21)) _ (by decide) (hread _ _ (by decide) (by decide)) (by decide),
    hs.walk_leaf 0 _ 16 5 256 _ 0x1003F (2 ^ 16) _ (by decide) (hread _ _ (by decide) (by decide)) (by decide)]
  rfl

/-- The first fetch walks to the page; its leaf has A set, so that memory stays as it is (R198, R199). -/
theorem placed_translate : (placed w).translate 0 0 (some 0) 0 .fetch = (.ok 0x10000, placedWalked w) := by
  have hor : (placed w).orPte 0x5000 4 = placed w := by
    have hbit : bit ((placed w).cohNat 0x5000 8) 4 = true := by
      rw [(placed_bare w).cohNat (by decide) (by decide), placed_below w (by decide)]
      decide
    unfold State.orPte
    dsimp only
    rw [if_pos hbit]
  unfold State.translate
  dsimp only
  rw [show (placed w).tlb = [] from rfl, List.find?_nil]
  dsimp only
  rw [placed_walk w]
  dsimp only
  rw [hor]
  rfl

theorem placed_fetchHeader (x : Nat) : (placed w).fetchWord (placedHeat x) 0 = (.ok placedHeader, placedWalked w) := by
  have hs := placedWalked_bare w
  have hheader : ofBytes (readBytes (placedWalked w).mem 0x10000 8) = placedHeader := by
    show ofBytes (readBytes (placed w).mem 0x10000 8) = _
    rw [placed_below w (by decide)]
    decide
  have htr : (placed w).translate (placedHeat x).key.ctx (dieOf (placedHeat x).core) (some (placedHeat x).core) 0 .fetch = (.ok 0x10000, placedWalked w) := by
    rw [show dieOf (placedHeat x).core = 0 by simp [dieOf, placedHeat]]
    exact placed_translate w
  unfold State.fetchWord
  rw [htr]
  dsimp only
  rw [hs.poisoned, hs.viewBytes _ _ _ (by decide), hheader]
  rfl

/-- The second fetch finds the page in the buffers. -/
theorem placedWalked_fetchWord (x : Nat) : (placedWalked w).fetchWord (placedHeat x) 8 = (.ok (w % 2 ^ 64), placedWalked w) := by
  have hs := placedWalked_bare w
  have hmapped : Mapped (placedWalked w) 0 0 8 .fetch 0x10008 :=
    ⟨placedPage, rfl, by decide, by decide, rfl, fun h => absurd h (by decide), fun _ => rfl⟩
  refine fetch_at (h := placedHeat x) hmapped (hs.poisoned _ _) ?_
  rw [hs.viewBytes _ _ _ (by decide)]
  exact (placed_word w).symm

theorem placed_together (x : Nat) (hx : (placed w).heats = [placedHeat x]) : Together (placed w) placedKey (placedHeat x) 0 [0] :=
  ⟨by unfold State.heat?; rw [hx]; rfl, rfl, List.cons_ne_nil _ _, fun l hl => by rw [List.mem_singleton.1 hl]; exact ⟨rfl, rfl, rfl⟩⟩

/-- No heat goes before the only one of the part (R85). -/
theorem ahead_only {s : State} {h : Heat} (hs : s.heats = [h]) : s.ahead h = [] := by
  unfold State.ahead State.candidates
  dsimp only
  rw [hs, List.filter_singleton]
  cases h.active && s.heatReady h && s.movable h with
  | false => rfl
  | true =>
    show ([h.key].takeWhile (· ≠ h.key)).filter _ = []
    rw [List.takeWhile_cons_of_neg (by simp)]
    rfl

/-- The state in which the step of a placed word issues it. -/
def placedIssuing : State := { placedWalked w with iss := some (placedIss w) }

/-- The next step of a placed word is its own (log entry 4). -/
theorem step_placed {i : Instr} (hw : w < 2 ^ 64) (hi : decode w = .ok i) : step (State.reset.withFetchWord 64 w) = exec i (placedIssuing w) := by
  have hheats : (placed w).heats = [placedHeat w] := by rw [placed_heats, Nat.mod_eq_of_lt hw]
  have hT := placed_together w w hheats
  have hfetch := placedWalked_fetchWord w w
  rw [Nat.mod_eq_of_lt hw] at hfetch
  have hlane {l : Nat} (hl : l ∈ [0]) : ((placedHeat w).lane l).acq = none ∧ ((placedHeat w).lane l).blk = none := by
    rw [List.mem_singleton.1 hl]
    exact ⟨rfl, rfl⟩
  have hprep : prepare 40 placedKey [] (placed w) = placedIssuing w :=
    (hT.prepare_header (fun l hl => (hlane hl).2) (placed_fetchHeader w w) (show badHeader placedHeader 320 = false by decide) rfl hfetch rfl 39).trans
      (ready_plain rfl (fun l hl => (hlane hl).1) rfl)
  have hfirst : firstIssue (placed w) ((placed w).ahead (placedHeat w)) = none := by
    rw [ahead_only hheats]
    rfl
  rw [step_issue (key := placedKey) (rest := []) rfl]
  refine (issueHeat_at (s := placed w) hT.heat rfl rfl rfl hfirst hprep).trans ?_
  rw [show (placedIss w).word = w from rfl, hi]
  rfl

end

/-! The outcome of a word, and a state that gives it with no heat to issue. -/

theorem finish_iss (e : Env) (h0 : Heat) (v : Work) : (finish e h0 v).iss = none := by
  unfold finish
  split <;> rfl

/-- A word goes on, and leaves no issue at hand. -/
theorem exec_word_next {s : State} {i : Instr} (hi : i.isWord = true) : ∃ t, exec i s = .next t ∧ t.iss = none := by
  obtain ⟨body, hbody⟩ := exec_word i hi
  rw [hbody]
  unfold issue
  split
  · exact ⟨s, rfl, ‹_›⟩
  · split
    · exact ⟨_, rfl, rfl⟩
    · exact ⟨_, rfl, finish_iss _ _ _⟩

/-- A word whose heat is gone changes nothing. -/
theorem exec_word_gone {s : State} {i : Instr} {z : Iss} (hi : i.isWord = true) (hs : s.iss = none) (hz : s.heat? z.key = none) :
    exec i { s with iss := some z } = .next s := by
  obtain ⟨body, hbody⟩ := exec_word i hi
  have hs' : { s with iss := none } = s := by rw [← hs]
  rw [hbody, issue]
  show (match s.heat? z.key with
    | none => _
    | some _ => _) = _
  rw [hz]
  exact congrArg _ hs'

/-- No heat has a key of a context that none of the heats has. -/
theorem exists_heat?_none (s : State) : ∃ key, s.heat? key = none := by
  obtain ⟨c, hc⟩ := Infinite.exists_notMem_finset (s.heats.map (fun h => h.key.ctx)).toFinset
  refine ⟨{ placedKey with ctx := c }, List.find?_eq_none.2 fun h hh he => hc ?_⟩
  rw [List.mem_toFinset]
  exact List.mem_map.2 ⟨h, hh, by rw [of_decide_eq_true he]⟩

end Sys2Proof.Machine
end

section
/-! SUPPORT. The step of the word at hand. -/

namespace Sys2Proof.Machine

open Sys2Proof Sys2Proof.Safe

/-- The outcome of a word is that of the same word at any place, in a state in which every die is in service: one that holds what the
word leaves, with the issue of a heat that is gone. -/
theorem exec_word_anywhere {s : State} {i : Instr} (hs : DiesUp s) (hi : i.isWord = true) (z : Iss) :
    ∃ t key, exec i s = exec i t ∧ t.iss = some { z with key := key } ∧ DiesUp t := by
  obtain ⟨p, hp, hnone⟩ := exec_word_next hi (s := s)
  obtain ⟨key, hkey⟩ := exists_heat?_none p
  exact ⟨{ p with iss := some { z with key := key } }, key, hp.trans (exec_word_gone hi hnone hkey).symm, rfl, exec_nextUp hs hi p hp⟩

/-- Settles O56: in a block and at a header by what selection makes of lanes that stand together, the illegal word by the end of its
issue, and the placed word by its walk and its two fetches.

The last clause says less than its words. The placed lane stands at address 0 of its context, whose page lies at 0x10000 of memory, so the
state in which the next step issues the word (placedIssuing, step_placed) has it at 8 and not at 0x10008. The clause asks only for some
state that gives the step's outcome with the word at 0x10008, and what it gets is one whose heat is gone (exec_word_anywhere). -/
theorem stepRunsTheWordAtHand : Obligations.StepRunsTheWordAtHand := by
  unfold Obligations.StepRunsTheWordAtHand
  intro s rest key h i p w b0 b1 n u live fetches ready inBlock atHeader x y
  have hT (hr : ready) : Together u key h p live := by
    obtain ⟨-, hheat, -, -, -, -, -, -, hne, hl⟩ := hr
    exact ⟨hheat, rfl, hne, hl⟩
  have hfetch (hr : ready) {va w : Nat} (hf : fetches va w) : u.fetchWord h va = (.ok w, u) := by
    obtain ⟨pa, hm, hpo, hw⟩ := hf
    have hkey : h.key = key := State.heat?_key (hT hr).heat
    exact fetch_at (hkey ▸ hm) hpo hw
  have hstep (hr : ready) {z : Iss} (hp : prepare 40 key [] u = Machine.ready u h live z) (hz : z.lanes = live) :
      step s = match decode z.word with
        | .ok i => exec i { u with iss := some z }
        | .error _ => .next (issueIllegal { u with iss := some z }) := by
    obtain ⟨hag, hheat, ha, hready, hbusy, hfirst, hhalt, -, -, hl⟩ := hr
    rw [step_issue hag]
    exact issueHeat_at hheat ha hready hbusy hfirst (hp.trans (ready_plain hhalt (fun l hm => (hl l hm).2.2) hz))
  have hblock (hb : inBlock) : step s = match decode w with
        | .ok i => exec i { u with iss := some x }
        | .error _ => .next (issueIllegal { u with iss := some x }) := by
    obtain ⟨hr, hblk, hf⟩ := hb
    have hhold : u.holding h = false := hr.2.2.2.2.2.2.2.1
    exact hstep hr ((hT hr).prepare_block hblk (hfetch hr hf) hhold 39) rfl
  refine ⟨fun hb hi => ?_, fun ha hi => ?_, fun hb hi ht => ?_, fun ha hi => step_event ha hi, fun ha => ?_, fun hw hi => ?_⟩
  · rw [hblock hb, hi]
  · obtain ⟨hr, hblk, hf, hgood, hflags, hf2⟩ := ha
    have hhold : u.holding h = false := hr.2.2.2.2.2.2.2.1
    rw [hstep hr (z := y) ((hT hr).prepare_header hblk (hfetch hr hf) hgood hflags (hfetch hr hf2) hhold 39) rfl, hi]
  · have hr := hb.1
    obtain ⟨hlen, horder⟩ := lanesWhere_order h (fun x => !x.exited)
    have hS : Stands { u with iss := some x } x h :=
      ⟨rfl, (hT hr).heat, (hT hr).some_lane, fun l hl => ⟨hlen l hl, ((hT hr).lanes l hl).1⟩, horder⟩
    refine ⟨_, ?_, issueIllegal_parked hS ht⟩
    rw [hblock hb]
    cases hd : decode w with
    | ok j => exact absurd hd (hi j)
    | error e => rfl
  · unfold step
    rw [ha]
    rfl
  · obtain ⟨t, k, hexec, hiss, hdies⟩ :=
      exec_word_anywhere (s := placedIssuing w) rfl (decode_isWord hi) { placedIss w with pc := 0x10008, hdrAddr := 0x10000 }
    exact ⟨t, _, (step_placed w hw hi).trans hexec, hiss, rfl, rfl, rfl, hdies⟩

end Sys2Proof.Machine
end

section
/-! SUPPORT. The decoder against the encoder and against the manual's words (R93 to R103), and the statements O58 and O57. -/

namespace Sys2Proof

open Machine

/-- The decoder undoes the encoder: each instruction word by the fields of its format (Laws.RoundTrip); the steps of the other agents have
no word (R93 to R102). -/
theorem decode_encode (i : Instr) : Laws.RoundTrip.Statement i := by
  cases i with
  | nop => apply Laws.RoundTrip.nop
  | bra => apply Laws.RoundTrip.bra
  | brx => apply Laws.RoundTrip.brx
  | call => apply Laws.RoundTrip.call
  | callx => apply Laws.RoundTrip.callx
  | ret => apply Laws.RoundTrip.ret
  | exit => apply Laws.RoundTrip.exit
  | yield => apply Laws.RoundTrip.yield
  | waitf => apply Laws.RoundTrip.waitf
  | trap => apply Laws.RoundTrip.trap
  | pset => apply Laws.RoundTrip.pset
  | psetfFrom => apply Laws.RoundTrip.psetfFrom
  | psetfTo => apply Laws.RoundTrip.psetfTo
  | plog => apply Laws.RoundTrip.plog
  | vote => apply Laws.RoundTrip.vote
  | shfl => apply Laws.RoundTrip.shfl
  | hred => apply Laws.RoundTrip.hred
  | hscan => apply Laws.RoundTrip.hscan
  | matchv => apply Laws.RoundTrip.matchv
  | iadd => apply Laws.RoundTrip.iadd
  | isub => apply Laws.RoundTrip.isub
  | imul => apply Laws.RoundTrip.imul
  | imad => apply Laws.RoundTrip.imad
  | idiv => apply Laws.RoundTrip.idiv
  | imin => apply Laws.RoundTrip.imin
  | imax => apply Laws.RoundTrip.imax
  | iabs => apply Laws.RoundTrip.iabs
  | and => apply Laws.RoundTrip.and
  | or => apply Laws.RoundTrip.or
  | xor => apply Laws.RoundTrip.xor
  | shl => apply Laws.RoundTrip.shl
  | shr => apply Laws.RoundTrip.shr
  | bfx => apply Laws.RoundTrip.bfx
  | bfi => apply Laws.RoundTrip.bfi
  | popc => apply Laws.RoundTrip.popc
  | clz => apply Laws.RoundTrip.clz
  | brev => apply Laws.RoundTrip.brev
  | sel => apply Laws.RoundTrip.sel
  | mov => apply Laws.RoundTrip.mov
  | movi => apply Laws.RoundTrip.movi
  | addi => apply Laws.RoundTrip.addi
  | lea => apply Laws.RoundTrip.lea
  | bysel => apply Laws.RoundTrip.bysel
  | fadd => apply Laws.RoundTrip.fadd
  | fsub => apply Laws.RoundTrip.fsub
  | fmul => apply Laws.RoundTrip.fmul
  | ffma => apply Laws.RoundTrip.ffma
  | fmin => apply Laws.RoundTrip.fmin
  | fmax => apply Laws.RoundTrip.fmax
  | fsign => apply Laws.RoundTrip.fsign
  | frcp => apply Laws.RoundTrip.frcp
  | frsq => apply Laws.RoundTrip.frsq
  | fsqrt => apply Laws.RoundTrip.fsqrt
  | fdiv => apply Laws.RoundTrip.fdiv
  | fexp2 => apply Laws.RoundTrip.fexp2
  | flog2 => apply Laws.RoundTrip.flog2
  | ftanh => apply Laws.RoundTrip.ftanh
  | fclass => apply Laws.RoundTrip.fclass
  | frnd => apply Laws.RoundTrip.frnd
  | pkadd => apply Laws.RoundTrip.pkadd
  | pkmul => apply Laws.RoundTrip.pkmul
  | pkfma => apply Laws.RoundTrip.pkfma
  | pkmnx => apply Laws.RoundTrip.pkmnx
  | cvti => apply Laws.RoundTrip.cvti
  | cvtf => apply Laws.RoundTrip.cvtf
  | pack2 => apply Laws.RoundTrip.pack2
  | pack4 => apply Laws.RoundTrip.pack4
  | pack8 => apply Laws.RoundTrip.pack8
  | unpk2 => apply Laws.RoundTrip.unpk2
  | unpk4 => apply Laws.RoundTrip.unpk4
  | unpk8 => apply Laws.RoundTrip.unpk8
  | scalex => apply Laws.RoundTrip.scalex
  | bldMem => apply Laws.RoundTrip.bldMem
  | bldQ => apply Laws.RoundTrip.bldQ
  | bldK => apply Laws.RoundTrip.bldK
  | bldZero => apply Laws.RoundTrip.bldZero
  | bsubOff => apply Laws.RoundTrip.bsubOff
  | bsubWin => apply Laws.RoundTrip.bsubWin
  | bsubColour => apply Laws.RoundTrip.bsubColour
  | bsubFlags => apply Laws.RoundTrip.bsubFlags
  | ld => apply Laws.RoundTrip.ld
  | st => apply Laws.RoundTrip.st
  | ldg => apply Laws.RoundTrip.ldg
  | stg => apply Laws.RoundTrip.stg
  | lds => apply Laws.RoundTrip.lds
  | sts => apply Laws.RoundTrip.sts
  | ldsr => apply Laws.RoundTrip.ldsr
  | stsr => apply Laws.RoundTrip.stsr
  | pref => apply Laws.RoundTrip.pref
  | cmaintInv => apply Laws.RoundTrip.cmaintInv
  | cmaintWb => apply Laws.RoundTrip.cmaintWb
  | cmaintInvall => apply Laws.RoundTrip.cmaintInvall
  | ldk => apply Laws.RoundTrip.ldk
  | atom => apply Laws.RoundTrip.atom
  | acas => apply Laws.RoundTrip.acas
  | atoms => apply Laws.RoundTrip.atoms
  | waita => apply Laws.RoundTrip.waita
  | fence => apply Laws.RoundTrip.fence
  | ldacq => apply Laws.RoundTrip.ldacq
  | strel => apply Laws.RoundTrip.strel
  | syadd => apply Laws.RoundTrip.syadd
  | bar => apply Laws.RoundTrip.bar
  | bara => apply Laws.RoundTrip.bara
  | cpyin => apply Laws.RoundTrip.cpyin
  | cpyout => apply Laws.RoundTrip.cpyout
  | cpyw => apply Laws.RoundTrip.cpyw
  | rfill => apply Laws.RoundTrip.rfill
  | rawait => apply Laws.RoundTrip.rawait
  | rrelease => apply Laws.RoundTrip.rrelease
  | rpush => apply Laws.RoundTrip.rpush
  | rinit => apply Laws.RoundTrip.rinit
  | split => apply Laws.RoundTrip.split
  | mmarkSelf => apply Laws.RoundTrip.mmarkSelf
  | mmarkMask => apply Laws.RoundTrip.mmarkMask
  | mmarkClear => apply Laws.RoundTrip.mmarkClear
  | mldw => apply Laws.RoundTrip.mldw
  | mswap => apply Laws.RoundTrip.mswap
  | mstr => apply Laws.RoundTrip.mstr
  | mdist => apply Laws.RoundTrip.mdist
  | mtopk => apply Laws.RoundTrip.mtopk
  | mrd => apply Laws.RoundTrip.mrd
  | mrdScr => apply Laws.RoundTrip.mrdScr
  | mclr => apply Laws.RoundTrip.mclr
  | claim => apply Laws.RoundTrip.claim
  | mwait => apply Laws.RoundTrip.mwait
  | mnote => apply Laws.RoundTrip.mnote
  | mnoteall => apply Laws.RoundTrip.mnoteall
  | heldTest => apply Laws.RoundTrip.heldTest
  | heldList => apply Laws.RoundTrip.heldList
  | mrepair => apply Laws.RoundTrip.mrepair
  | tspawn => apply Laws.RoundTrip.tspawn
  | tdone => apply Laws.RoundTrip.tdone
  | publap => apply Laws.RoundTrip.publap
  | tstop => apply Laws.RoundTrip.tstop
  | tlapState => apply Laws.RoundTrip.tlapState
  | tlapBuf => apply Laws.RoundTrip.tlapBuf
  | tabortRequeue => apply Laws.RoundTrip.tabortRequeue
  | tabortFail => apply Laws.RoundTrip.tabortFail
  | tsettle => apply Laws.RoundTrip.tsettle
  | resume => apply Laws.RoundTrip.resume
  | killLanes => apply Laws.RoundTrip.killLanes
  | killHeat => apply Laws.RoundTrip.killHeat
  | killKernel => apply Laws.RoundTrip.killKernel
  | eret => apply Laws.RoundTrip.eret
  | tframeNext => apply Laws.RoundTrip.tframeNext
  | tframeRd => apply Laws.RoundTrip.tframeRd
  | tframeWr => apply Laws.RoundTrip.tframeWr
  | mfs => apply Laws.RoundTrip.mfs
  | mts => apply Laws.RoundTrip.mts
  | tlbinvRange => apply Laws.RoundTrip.tlbinvRange
  | tlbinvCtx => apply Laws.RoundTrip.tlbinvCtx
  | splinter => apply Laws.RoundTrip.splinter
  | brkpt => apply Laws.RoundTrip.brkpt
  | brkptWset => apply Laws.RoundTrip.brkptWset
  | brkptWclr => apply Laws.RoundTrip.brkptWclr
  | haltallStop => apply Laws.RoundTrip.haltallStop
  | haltallGo => apply Laws.RoundTrip.haltallGo
  | undo => apply Laws.RoundTrip.undo
  | stamp => apply Laws.RoundTrip.stamp
  | bist => apply Laws.RoundTrip.bist
  | defmap => apply Laws.RoundTrip.defmap
  | _ => exact fun _ hw => Bool.noConfusion (show false = true from hw)

/-- Settles O58, by the round trip of each instruction. -/
theorem decodingAnEncodingGivesItBack : Obligations.DecodingAnEncodingGivesItBack := decode_encode

/-- The tag of a header word is no opcode, whatever the rest of the word holds (R103). -/
theorem decode_headerTag {w : Nat} (h : fld w 60 4 = 15) : decode w = .error .headerWord := if_pos h

/-- Settles O57: the decoder run on the manual's words, and the tag of a header for the opcode 0xFF. -/
theorem decodingReadsTheManualsWords : Obligations.DecodingReadsTheManualsWords := by
  unfold Obligations.DecodingReadsTheManualsWords
  intro c
  refine ⟨rfl, rfl, rfl, rfl, rfl, rfl, rfl, rfl, fun i h => ?_⟩
  rw [decode_headerTag rfl] at h
  cases h

end Sys2Proof
end

section
/-! SUPPORT. The checks that stand before a word's effect (R94, R82, R98, R122, R402, R124): what each makes of the issue, and the
statement O17. -/

namespace Sys2Proof.Machine

open Sys2Proof Sys2Proof.Safe

/-- What the body of a word at hand sees: the lanes of active() that raise HAZARD are out (R124). -/
def frameEnv (i : Instr) (s : State) (x : Iss) (h : Heat) : Env :=
  { envOf i s x h with
    act := (active i x h).filter fun l => !((active i x h).filter fun l => h.hazard l (Instr.namedV i) (Instr.namedK i)).contains l }

/-- What the checks leave for the end of the issue; where none of them stops the word, its body (R94, R82, R98, R122, R402, R124). -/
def checked (i : Instr) (s : State) (x : Iss) (h : Heat) (body : Env → Work → Work) : Work :=
  let w : Work := { s := entered s x }
  if decodeTrap i x.hdr then w.trapAll x.lanes { cause := .illegal }
  else if roleAllows h.role (Instr.opcode i) = false then
    (if Instr.unreadable i then w.trapAll (active i x h) { cause := .illegal } else w).trapAll x.lanes { cause := .role }
  else if Instr.unreadable i && !(active i x h).isEmpty then w.trapAll (active i x h) { cause := .illegal }
  else if Instr.long i && Tbl.get 0 h.fcnt (flagOf x.hdr (com i)) == 63 then Work.stallWith (frameEnv i s x h) id
  else if Instr.privileged i && !h.service then w.trapAll (active i x h) { cause := .priv }
  else body (frameEnv i s x h)
    (w.trapAll ((active i x h).filter fun l => h.hazard l (Instr.namedV i) (Instr.namedK i)) { cause := .hazard })

section
variable {i : Instr} {s : State} {x : Iss} {h : Heat}

/-- The issue of a word at hand is its checks, and the end of the issue. -/
theorem issue_checked (hS : Stands s x h) (body : Env → Work → Work) :
    ∃ h0, issue i s body = .next (finish (frameEnv i s x h) h0 (checked i s x h body)) := by
  obtain ⟨h0, hh0⟩ := entered_heat hS.heat
  refine ⟨h0, ?_⟩
  have hh : (enterBlock { s with iss := none } x).heat? x.key = some h := hS.heat
  unfold issue
  simp only [hS.iss, hh0, hh]
  rfl

/-- Where the checks leave a cause other than BREAK to some of the issuing lanes, outside tasks, those lanes park (R395 to R397). -/
theorem checked_parked {body : Env → Work → Work} {ls : List Nat} {f : Nat → Trap} (c : Cause) (hS : Stands s x h)
    (ht : ∀ l ∈ x.lanes, (h.lane l).task = none) (hi : exec i s = issue i s body) (hne : ls ≠ [])
    (hls : ls = x.lanes.filter (fun l => ls.contains l)) (hc : ∀ l, (f l).cause = c) (hb : c ≠ .brk)
    (hw : checked i s x h body = { s := entered s x, traps := ls.map (fun l => (l, f l)) }) :
    ∃ t, exec i s = .next t ∧ Parked s t x h ls f c.code := by
  obtain ⟨h0, he⟩ := issue_checked (i := i) hS body
  refine ⟨_, hi.trans he, ?_⟩
  rw [hw]
  exact finish_parked hS rfl rfl rfl ls f c.code false hne hls ht (fun l _ => congrArg Cause.code (hc l)) (fun l _ => hc l ▸ hb)
    (by cases c <;> decide)

/-- The same for any word that a check stops, whatever its body. -/
theorem word_parked {ls : List Nat} (c : Cause) (hi : i.isWord = true) (hS : Stands s x h) (ht : ∀ l ∈ x.lanes, (h.lane l).task = none)
    (hne : ls ≠ []) (hls : ls = x.lanes.filter (fun l => ls.contains l)) (hb : c ≠ .brk)
    (hw : ∀ body, checked i s x h body = { s := entered s x, traps := ls.map (fun l => (l, { cause := c })) }) :
    ∃ t, exec i s = .next t ∧ Parked s t x h ls (fun _ => { cause := c }) c.code := by
  obtain ⟨body, hbody⟩ := exec_word i hi
  exact checked_parked c hS ht (hbody s) hne hls (fun _ => rfl) hb (hw body)

/-! What each check makes of a word that the checks before it let pass. -/

section
variable (body : Env → Work → Work)

theorem checked_illegal (hd : decodeTrap i x.hdr = true) :
    checked i s x h body = { s := entered s x, traps := x.lanes.map (fun l => (l, { cause := .illegal })) } := if_pos hd

variable (hd : decodeTrap i x.hdr = false)
include hd

theorem checked_role (hr : roleAllows h.role (Instr.opcode i) = false) (hu : Instr.unreadable i = false) :
    checked i s x h body = { s := entered s x, traps := x.lanes.map (fun l => (l, { cause := .role })) } := by
  simp [checked, hd, hr, hu, Work.trapAll]

variable (hr : roleAllows h.role (Instr.opcode i) = true)
include hr

theorem checked_unreadable (hu : Instr.unreadable i = true) (hne : active i x h ≠ []) :
    checked i s x h body = { s := entered s x, traps := (active i x h).map (fun l => (l, { cause := .illegal })) } := by
  simp [checked, hd, hr, hu, hne, Work.trapAll]

variable (hu : Instr.unreadable i = false)
include hu

theorem checked_full (hl : Instr.long i = true) (hf : Tbl.get 0 h.fcnt (flagOf x.hdr (com i)) = 63) :
    checked i s x h body = Work.stallWith (frameEnv i s x h) id := by
  simp [checked, hd, hr, hu, hl, hf]

variable (hl : Instr.long i = false)
include hl

theorem checked_priv (hp : Instr.privileged i = true) (hs : h.service = false) :
    checked i s x h body = { s := entered s x, traps := (active i x h).map (fun l => (l, { cause := .priv })) } := by
  simp [checked, hd, hr, hu, hl, hp, hs, Work.trapAll]

theorem checked_hazard (hp : Instr.privileged i = false)
    (hz : ∀ l ∈ active i x h, h.hazard l (Instr.namedV i) (Instr.namedK i) = true) :
    checked i s x h body = body { envOf i s x h with act := [] }
      { s := entered s x, traps := (active i x h).map (fun l => (l, { cause := .hazard })) } := by
  have hall : (active i x h).filter (fun l => h.hazard l (Instr.namedV i) (Instr.namedK i)) = active i x h := List.filter_eq_self.2 hz
  have henv : frameEnv i s x h = { envOf i s x h with act := [] } := by
    rw [frameEnv, hall, List.filter_eq_nil_iff.2 fun l hl => by simpa using hl]
  simp [checked, hall, henv, hd, hr, hu, hl, hp, Work.trapAll]

end

/-- A word that issues comes through the checks to its body. -/
theorem checked_issues (hI : Issues i s x h) (body : Env → Work → Work) :
    checked i s x h body = body (envOf i s x h) { s := entered s x } := by
  have hnone : (active i x h).filter (fun l => h.hazard l (Instr.namedV i) (Instr.namedK i)) = [] :=
    List.filter_eq_nil_iff.2 fun l hl => by simp [hI.clear l hl]
  have henv : frameEnv i s x h = envOf i s x h := by
    simp [frameEnv, hnone, envOf]
  have hroom : (Instr.long i && Tbl.get 0 h.fcnt (flagOf x.hdr (com i)) == 63) = false := by simpa using hI.room
  have hpriv : (Instr.privileged i && !h.service) = false := by simpa using hI.mode
  simp [checked, hnone, henv, hI.legal, hI.role, hI.readable, hroom, hpriv, Work.trapAll]

/-- A word that breaks no decode rule is well formed (R94). -/
theorem wf_of_decodeTrap {hdr : Nat} (hd : decodeTrap i hdr = false) : i.wf = true := by
  simp only [decodeTrap, Bool.or_eq_false_iff, Bool.not_eq_false'] at hd
  exact hd.1.1

theorem long_mov {c : Com} {ty : Ty} {d : Dst} {a : Src} (hw : Instr.wf (.mov c ty d a) = true) : Instr.long (.mov c ty d a) = false :=
  (long_of (Words.mov c ty d a hw).1).trans rfl

/-- All issuing lanes are a choice among them. -/
theorem lanes_filter (x : Iss) : x.lanes = x.lanes.filter (fun l => x.lanes.contains l) :=
  (List.filter_eq_self.2 (fun l hl => by simpa using hl)).symm

/-- `compute` without active lanes changes nothing (R101, R165). -/
theorem compute_none (e : Env) (wide : Bool) (d : Dst) (f : Nat → Nat × Nat) (w : Work) (he : e.act = []) : e.compute wide d f w = w := by
  have hset : (fun h : Heat => h.setAll wide d []) = fun h => h := by
    funext h
    cases d <;> rfl
  simp only [Env.compute, he, List.map_nil, List.foldl_nil, hset, State.updHeat_id]

/-- Each active lane raises a trap of its own. -/
theorem each_trap (e : Env) (f : Nat → Trap) (w : Work) :
    e.each (fun w l => w.trap l (f l)) w = { w with traps := w.traps ++ e.act.map (fun l => (l, f l)) } := by
  unfold Env.each
  generalize e.act = ls
  induction ls generalizing w with
  | nil => simp
  | cons l ls ih =>
    rw [List.foldl_cons, ih]
    simp [Work.trap]

end

/-- Settles O17: each clause by what the checks make of the word (checked), and the end of the issue by what the lanes that trap leave
(checked_parked). A MOV whose active lanes all raise HAZARD writes nothing, since none is left for its result. -/
theorem exceptionsParkTheirLanes : Obligations.ExceptionsParkTheirLanes := by
  unfold Obligations.ExceptionsParkTheirLanes
  refine ⟨?_, ?_, ?_, ?_, ?_, ?_, ?_⟩
  · intro i s x h hi hS ht hd
    exact word_parked .illegal hi hS ht hS.some_lane (lanes_filter x) (by decide) fun body => checked_illegal body hd
  · intro i s x h hi hS ht hd hr hu
    exact word_parked .role hi hS ht hS.some_lane (lanes_filter x) (by decide) fun body => checked_role body hd hr hu
  · intro i s x h hi hS ht hd hr hu hne
    exact word_parked .illegal hi hS ht hne (self_filter _ _ _ rfl) (by decide) fun body => checked_unreadable body hd hr hu hne
  · intro i s x h hi hS hd hr hu hl hf
    obtain ⟨body, hbody⟩ := exec_word i hi
    obtain ⟨h0, he⟩ := issue_checked (i := i) hS body
    rw [Stalls, hbody, he, checked_full body hd hr hu hl hf]
    rfl
  · intro i s x h hi hS ht hd hr hu hl hp hs hne
    exact word_parked .priv hi hS ht hne (self_filter _ _ _ rfl) (by decide) fun body => checked_priv body hd hr hu hl hp hs
  · intro c ty d a s x h hS ht hd hr hu hne hz
    refine checked_parked .hazard hS ht (exec_mov s c ty d a) hne (self_filter _ _ _ rfl) (fun _ => rfl) (by decide) ?_
    exact (checked_hazard _ hd hr hu (long_mov (wf_of_decodeTrap hd)) rfl hz).trans (compute_none _ _ _ _ _ rfl)
  · intro c code a s x h hI ht hne
    refine checked_parked .trap hI.toStands ht (exec_trap s c code a) hne (self_filter _ _ _ rfl) (fun _ => rfl) (by decide) ?_
    refine (checked_issues hI _).trans ((each_trap _ _ _).trans ?_)
    simp only [envOf_rb]
    rfl

end Sys2Proof.Machine
end

section
/-! SUPPORT. Moves, predicates and the collectives of a heat (R138 to R146, R173), and the statements O5, O10 and O11. -/

namespace Sys2Proof.Machine

open Sys2Proof Sys2Proof.Safe

/-- Settles O5: each move is `compute` of a value that raises no flag, and the lanes read what the statement says they read. -/
theorem movesCopyTheirSources : Obligations.MovesCopyTheirSources := by
  unfold Obligations.MovesCopyTheirSources
  intro c t d a b p imm
  refine ⟨?_, ?_, ?_, ?_, ?_⟩
  · refine computes_of _ (exec_sel · c t d a b p) fun s x h _ l => ?_
    rw [envOf_srcT, envOf_srcT]
    rfl
  · exact computes_of _ (exec_mov · c t d a) fun s x h _ l => congrArg (·, 0) (envOf_srcT _ s x h t a l)
  · exact computes_of _ (exec_movi · c t false d imm) fun _ _ _ _ _ => rfl
  · refine computes_of _ (exec_movi · c t true d imm) fun s x h _ l => ?_
    cases d <;> rfl
  · exact computes_of _ (exec_psetfTo · c d) fun _ _ _ _ _ => rfl

/-! Predicates. -/

/-- A word that writes predicate `d` of every active lane. -/
theorem setsPred_of {i : Instr} {d : Nat} {f : List Nat → Heat → Reads → Nat → Bool} (F : Env → Nat → Bool)
    (hi : ∀ s, exec i s = issue i s (fun e w => e.setPred d (F e) w))
    (hf : ∀ s x h l, F (envOf i s x h) l = f (active i x h) h (reads i s x h) l) :
    SetsPreds i (fun act h rd l n => if n = d then some (f act h rd l) else none) := by
  refine setsPreds_of (fun e l y => y.setP d (F e l)) hi (fun _ _ _ => rfl) fun s x h _ l _ n hn => ?_
  rw [Lane.getLsbD_setP _ _ _ _ hn, hf]
  split <;> rfl

/-- The bits of a mask taken from a value, the others kept (R139). -/
theorem getLsbD_masked (p : BitVec 12) (v m n : Nat) (hn : n < 12) :
    ((p &&& ~~~(BitVec.ofNat 12 m)) ||| (BitVec.ofNat 12 v &&& BitVec.ofNat 12 m)).getLsbD n =
      if bit m n then bit v n else p.getLsbD n := by
  simp only [bit_eq_testBit, BitVec.getLsbD_or, BitVec.getLsbD_and, BitVec.getLsbD_not, BitVec.getLsbD_ofNat, hn]
  cases m.testBit n <;> simp

/-- Settles O10: all but PSETF.from write one predicate of every active lane; PSETF.from writes those that its mask names. -/
theorem predicateInstructionsWritePredicates : Obligations.PredicateInstructionsWritePredicates := by
  unfold Obligations.PredicateInstructionsWritePredicates
  intro c t cmp lop d a b x y z
  refine ⟨?_, ?_, ?_, ?_, ?_, ?_⟩
  · refine setsPred_of _ (exec_pset · c t cmp d a b) fun s x h l => ?_
    rw [envOf_srcT, envOf_srcT]
  · refine setsPred_of _ (exec_plog · c lop d x y z) fun s x h l => ?_
    cases y <;> cases z <;> rfl
  · exact setsPred_of _ (exec_vote · c (.any d) x) fun _ _ _ _ => rfl
  · exact setsPred_of _ (exec_vote · c (.all d) x) fun _ _ _ _ => rfl
  · refine setsPred_of _ (exec_vote · c (.uni d) x) fun s x' h l => ?_
    rw [List.not_any_eq_all_not]
    rfl
  · refine setsPreds_of _ (exec_psetfFrom · c a b) (fun _ _ _ => rfl) fun s x h _ l _ n hn => ?_
    rw [getLsbD_masked _ _ _ _ hn, envOf_src32, envOf_src32]
    split <;> rfl

/-! Collectives. -/

/-- Settles O11: each collective is `compute` over active() of the function that the statement names, of what the lanes read. -/
theorem collectivesCombineTheActiveLanes : Obligations.CollectivesCombineTheActiveLanes := by
  unfold Obligations.CollectivesCombineTheActiveLanes
  intro c t r op m x d a b w p hd
  have hread : ∀ i s x h, (envOf i s x h).srcT t a = reads i s x h t a := fun i s x h => funext (envOf_srcT i s x h t a)
  refine ⟨?_, ?_, ?_, ?_, ?_⟩
  · exact collects_of _ (exec_vote · c (.ballot d) p) fun _ _ _ _ _ => rfl
  · refine collects_of _ (exec_shfl · c t m d a b w) fun s x h _ l => ?_
    rw [hread, envOf_src32]
    rfl
  · refine collects_of _ (exec_hred · c t r op d a) fun s x h _ l => ?_
    rw [hread]
    rfl
  · refine collects_of _ (exec_hscan · c t r op x d a hd) fun s x h _ l => ?_
    rw [hread]
    cases hd <;> rfl
  · refine collects_of _ (exec_matchv · c t d a) fun s x h _ l => ?_
    rw [hread]
    rfl

end Sys2Proof.Machine
end

section
/-! SUPPORT. The words that move lanes (R125, R126, R131, R132, R136, R137), and the statement O12. -/

namespace Sys2Proof.Machine

open Sys2Proof Sys2Proof.Safe

/-- Two folds whose steps do the same wherever an invariant holds that the second keeps. -/
theorem foldl_congr_of_inv {α β : Type} {f g : β → α → β} (I : β → Prop) (ls : List α)
    (h : ∀ b, I b → ∀ a ∈ ls, f b a = g b a ∧ I (g b a)) (b : β) (hb : I b) : ls.foldl f b = ls.foldl g b := by
  induction ls generalizing b with
  | nil => rfl
  | cons a ls ih =>
    obtain ⟨he, hg⟩ := h b hb a (by simp)
    rw [List.foldl_cons, List.foldl_cons, he]
    exact ih (fun b hb a ha => h b hb a (by simp [ha])) _ hg

theorem heat?_updLane {s : State} {k : HeatKey} {g : Heat} (hg : s.heat? k = some g) (l : Nat) (f : Lane → Lane) :
    (s.updLane k l f).heat? k = some (g.updLane l f) := by
  rw [State.updLane, State.heat?_updHeat_self s k (·.updLane l f) (fun _ => rfl), hg]
  rfl

/-- Of a lane whose held colours that `p` picks are all pending, nothing is to be released (R337). -/
theorem toRelease_nil {y : Lane} {p : HeldC → Bool} (h : ∀ q ∈ y.held, p q = true → q.pending = true) : y.toRelease p = [] := by
  have hnone : y.held.filter (fun q => p q && !q.pending) = [] :=
    List.filter_eq_nil_iff.2 fun q hq => by
      cases hp : p q
      · simp
      · simp [h q hq hp]
  rw [Lane.toRelease, hnone]
  rfl

/-- NOP changes nothing but its lanes' place (R131). -/
theorem nop_advances (c : Com) : LanesEnd (.nop c) (fun _ _ _ _ => True) (fun _ _ _ _ y => y.advance) := by
  have hacts : ActsOn (.nop c) (fun _ => True) Seen.s :=
    actsOn_of (fun _ w => w) (exec_nop · c) fun s x _ _ _ => ⟨_, rfl, rfl, rfl, rfl, entered_eq s x⟩
  exact hacts

/-- YIELD moves its lanes on and sets them aside (R132). -/
theorem yield_yields (c : Com) :
    LanesEnd (.yield c) (fun _ _ _ _ => True) (fun _ _ _ _ y => { y.advance with st := .yielded }) :=
  held_of _ (exec_yield · c) fun _ _ _ _ _ => ⟨fun _ _ => rfl, fun _ _ => by simp⟩

/-- A word that sends each active lane to its target, after a change that leaves the lane in its state (R136, R137). -/
theorem goes_of {i : Instr} {P : Iss → List Nat → Heat → Reads → Prop} {tgt : Iss → Heat → Reads → Nat → Nat}
    {F : Iss → Lane → Lane} (step : Env → Work → Nat → Work)
    (hi : ∀ s, exec i s = issue i s (fun e w => e.each (step e) w)) (hF : ∀ x y, (F x y).st = y.st)
    (hs : ∀ s x h, P x (active i x h) h (reads i s x h) → ∀ l ∈ active i x h, ∀ w,
      step (envOf i s x h) w l = w.goto (envOf i s x h) l (tgt x h (reads i s x h) l) (F x)) :
    LanesEnd i P (fun x h rd l y => (F x y).goto (tgt x h rd l)) := by
  refine held_of _ hi fun s x h hI hP => ⟨fun w _ => ?_, fun l hl => ?_⟩
  · exact foldl_congr _ _ _ w fun w l hl => hs s x h hP l hl w
  · rw [Lane.goto_st, hF]
    exact Issues_live hI l (List.mem_filter.1 hl).1

/-- A call's change of a lane: the return point in the link pair, one level deeper (R125). -/
def Lane.called (link back : Nat) (y : Lane) : Lane := { y.setV64 link back with depth := y.depth + 1 }

theorem call_shallow {e : Env} {l : Nat} (hd : (e.h.lane l).depth ≠ 255) (w : Work) (link t : Nat) :
    w.call e l link t = w.goto e l t (Lane.called link e.returnPoint) := if_neg hd

/-- A lane that returns runs, so that no barrier is judged again (R127). -/
theorem return_noColours {s : State} {k : HeatKey} {g : Heat} (hg : s.heat? k = some g) {l : Nat} (hl : l < g.lanes.length) (t : Nat) :
    s.releaseColours k l (some t) [] = s.updLane k l (fun y => y.leave (some t)) := by
  refine State.settleBars_live (heat?_updLane hg l _) (Heat.allExited_false (l := l) (by rwa [Heat.length_updLane]) ?_)
  rw [Heat.lane_updLane, if_pos ⟨rfl, hl⟩]
  simp [Lane.leave]

/-- RET of lanes that have no colour to release and run no task (R136, R337). -/
theorem ret_returns (c : Com) (a : Src) :
    LanesEnd (.ret c a) (fun _ act h rd => ∀ l ∈ act, targetTrap (rd .n64 a l) = none ∧ (h.lane l).depth ≠ 0 ∧ (h.lane l).task = none ∧
        (h.lane l).toRelease (fun q => q.depth == (h.lane l).depth) = [])
      (fun _ _ rd l y => y.leave (some (rd .n64 a l))) := by
  refine held_of _ (exec_ret · c a) fun s x h hI hP => ⟨fun w hw => ?_, fun l _ => by simp [Lane.leave]⟩
  refine foldl_congr_of_inv (fun w => ∃ g, w.s.heat? x.key = some g ∧ g.lanes.length = h.lanes.length) _ ?_ w ⟨h, hw, rfl⟩
  rintro w ⟨g, hg, hlen⟩ l hl
  obtain ⟨ht, hd, hk, hc⟩ := hP l hl
  have hin : l < g.lanes.length := hlen ▸ (hI.lanes l (List.mem_filter.1 hl).1).1
  refine ⟨?_, g.updLane l _, heat?_updLane hg l _, by rw [Heat.length_updLane, hlen]⟩
  have he : (envOf (.ret c a) s x h).h = h := rfl
  simp only [envOf_src64, ht, he, hd, hk, hc, if_false, Option.isSome_none, Bool.false_eq_true]
  have hr : w.s.releaseColours (envOf (.ret c a) s x h).key l (some (reads (.ret c a) s x h .n64 a l)) [] = _ := return_noColours hg hin _
  rw [hr, List.isEmpty_nil, Bool.not_true, Bool.or_false]

/-- Settles O12: NOP and YIELD move on, the transfers send each lane to a target that R126 allows, and a RET without a colour leaves. -/
theorem controlInstructionsMoveTheActiveLanes : Obligations.ControlInstructionsMoveTheActiveLanes := by
  unfold Obligations.ControlInstructionsMoveTheActiveLanes
  intro c off a link
  refine ⟨nop_advances c, yield_yields c, ?_, ?_, ?_, ?_, ?_⟩
  · exact goes_of (F := fun _ y => y) (fun e w l => w.goto e l (e.branchTarget off) id) (exec_bra · c off) (fun _ _ => rfl)
      fun _ _ _ _ _ _ _ => rfl
  · refine goes_of (F := fun _ y => y) _ (exec_brx · c a) (fun _ _ => rfl) fun s x h hP l hl w => ?_
    simp only [envOf_src64, targetTrap_good (hP l hl)]
    rfl
  · exact goes_of (F := fun x => Lane.called link _) _ (exec_call · c link off) (fun _ _ => rfl)
      fun s x h hP l hl w => call_shallow (hP l hl) w link _
  · refine goes_of (F := fun x => Lane.called link _) _ (exec_callx · c link) (fun _ _ => rfl) fun s x h hP l hl w => ?_
    obtain ⟨hd, ht⟩ := hP l hl
    simp only [envOf_src64]
    have hr : reads (.callx c link) s x h .n64 (.v link) l = (h.lane l).v64 link := rfl
    rw [hr, targetTrap_good ht]
    exact call_shallow hd w link _
  · intro s x h hI hP
    refine ret_returns c a s x h hI fun l hl => ?_
    obtain ⟨ht, hd, hk, hc⟩ := hP l hl
    exact ⟨targetTrap_good ht, hd, hk, toRelease_nil fun q hq hp => hc q hq (by simpa using hp)⟩

end Sys2Proof.Machine
end

section
/-! SUPPORT. WAITF (R123, R133) and EXIT (R127, R136), and the statements O15 and O14. -/

namespace Sys2Proof.Machine

open Sys2Proof Sys2Proof.Safe

theorem Lane.advance_unmark (y : Lane) (mask : Nat) :
    (y.unmark mask).advance = { y.advance with pend := y.pend.filter (fun m => !(bit mask m.2)) } := by
  unfold Lane.advance
  simp only [Lane.unmark_blk]
  split <;> rfl

theorem unmark_marks (h : Heat) (ls : List Nat) (mask : Nat) : h.unmark ls mask =
    { (if ls = [] then h else { h with kpend := h.kpend.filter (fun m => !(bit mask m.2)) }) with lanes := (h.unmark ls mask).lanes } := by
  refine (unmark_eq h ls mask).trans ?_
  split <;> rfl

/-- WAITF whose flags are clear clears marks (R123, R133). -/
theorem waitf_unmarks (c : Com) (mask : Nat) :
    Acts (.waitf c mask) (fun e => e.h.flagsClear mask = true) Seen.s
      (fun e => if e.act = [] then e.h else { e.h with kpend := e.h.kpend.filter (fun m => !(bit mask m.2)) })
      (fun _ _ y => { y.advance with pend := y.pend.filter (fun m => !(bit mask m.2)) }) := by
  refine acts_upd _ (exec_waitf · c mask) fun s x h hI hP => ?_
  have hlane := fun l => unmark_lane h (active (.waitf c mask) x h) mask l (Issues_active_nodup hI)
  refine ⟨_, fun g => g.unmark (active (.waitf c mask) x h) mask, if_pos hP, rfl, rfl, fun _ => Heat.unmark_key _ _ _, ?_, ?_,
    unmark_length _ _ _, fun l hl => ?_, fun l hl => ?_⟩
  · rw [entered_eq s x]
    rfl
  · exact unmark_marks h _ mask
  · rw [hlane]
    split
    · exact Issues_live hI l hl
    · exact Issues_live hI l hl
  · rw [hlane]
    by_cases ha : l ∈ active (.waitf c mask) x h
    · simp [ha, hl, (List.mem_filter.1 ha).1, Lane.advance_unmark]
    · simp [ha]

/-- Settles O15: the flags of the mask are clear or they are not (flagsClear_iff); the word clears marks or stalls. -/
theorem waitfWaitsAndClearsMarks : Obligations.WaitfWaitsAndClearsMarks := by
  unfold Obligations.WaitfWaitsAndClearsMarks
  intro c mask
  refine ⟨fun s x h hI hP => waitf_unmarks c mask s x h hI ((flagsClear_iff _ _).2 hP), ?_⟩
  rintro s x h hI ⟨f, hf, hb, hne⟩
  refine stalls_of hI _ (exec_waitf · c mask) (if_neg fun hclear => ?_)
  exact hne ((flagsClear_iff _ _).1 hclear f hf hb)

/-! EXIT. -/

/-- EXIT's step on a lane that neither runs a task nor holds a colour to release: the lane leaves, and its heat's barriers are judged
again (R127, R136). -/
def exitLane (k : HeatKey) (w : Work) (l : Nat) : Work :=
  ({ w with s := (w.s.updLane k l (fun y => y.leave none)).settleBars k } : Work).hold l

/-- None of the active lanes runs a task or holds a colour to release. -/
def NoneKept (act : List Nat) (h : Heat) : Prop := ∀ l ∈ act, (h.lane l).task = none ∧ ∀ q ∈ (h.lane l).held, q.pending = true

/-- A heat whose lanes of a list have left. -/
def Heat.left (h : Heat) (ls : List Nat) : Heat := ls.foldl (fun h l => h.updLane l (fun y => y.leave none)) h

theorem Heat.left_key (h : Heat) (ls : List Nat) : (h.left ls).key = h.key := Heat.foldl_updLane_key ls (fun _ y => y.leave none) h

theorem Heat.left_length (h : Heat) (ls : List Nat) : (h.left ls).lanes.length = h.lanes.length :=
  Heat.length_foldl_updLane ls (fun _ y => y.leave none) h

theorem Heat.left_lane (h : Heat) {ls : List Nat} (hn : ls.Nodup) (m : Nat) :
    (h.left ls).lane m = if m ∈ ls ∧ m < h.lanes.length then (h.lane m).leave none else h.lane m :=
  Heat.lane_foldl_updLane ls (fun _ y => y.leave none) h m hn

/-- EXIT works lane after lane, and on each lane as `exitLane` says while the lane is as it was at issue. -/
theorem exit_steps (c : Com) : ∃ step : Env → Work → Nat → Work,
    (∀ s, exec (.exit c) s = issue (.exit c) s (fun e w => e.each (step e) w)) ∧
    ∀ s x h, Issues (.exit c) s x h → NoneKept (active (.exit c) x h) h → ∀ (w : Work) (g : Heat) (l : Nat), l ∈ active (.exit c) x h →
      w.s.heat? x.key = some g → g.lanes.length = h.lanes.length → g.lane l = h.lane l →
      step (envOf (.exit c) s x h) w l = exitLane x.key w l := by
  refine ⟨_, (exec_exit · c), fun s x h hI hfree w g l hl hg hlen he => ?_⟩
  obtain ⟨ht, hc⟩ := hfree l hl
  obtain ⟨hin, hrun⟩ := hI.lanes l (List.mem_filter.1 hl).1
  exact exit_one x.key h (dieOf h.core) w g l hg (hlen ▸ hin) he ht (toRelease_nil fun q hq _ => hc q hq) hrun

/-- The work of an EXIT once the lanes of a list have left, where the barriers need no judging. -/
def leftWork (s : State) (x : Iss) (ls : List Nat) : Work := { s := (entered s x).updHeat x.key (·.left ls), stay := ls }

theorem leftWork_part (s : State) (x : Iss) (ls : List Nat) :
    (leftWork s x ls).s = { s with heats := (leftWork s x ls).s.heats, iss := none } := by
  rw [leftWork, entered_eq]
  rfl

theorem leftWork_heat {s : State} {x : Iss} {h : Heat} (hh : (entered s x).heat? x.key = some h) (ls : List Nat) :
    (leftWork s x ls).s.heat? x.key = some (h.left ls) := by
  rw [leftWork, State.heat?_updHeat_self _ _ (·.left ls) (·.left_key ls), hh]
  rfl

theorem leftWork_heat_ne (s : State) (x : Iss) (ls : List Nat) {k : HeatKey} (hk : k ≠ x.key) : (leftWork s x ls).s.heat? k = s.heat? k :=
  (State.heat?_updHeat_ne _ _ _ (·.left ls) (·.left_key ls) hk).trans (entered_heat_ne s x k hk)

/-- The lanes of a list that leave while another lane of the heat lives. -/
theorem foldl_exit_live {s : State} {x : Iss} {h : Heat} {step : Work → Nat → Work} {ls : List Nat} (hn : ls.Nodup)
    (hh : (entered s x).heat? x.key = some h)
    (hstep : ∀ (w : Work) (g : Heat) (l : Nat), l ∈ ls → w.s.heat? x.key = some g → g.lanes.length = h.lanes.length →
      g.lane l = h.lane l → step w l = exitLane x.key w l)
    {m : Nat} (hm : m < h.lanes.length) (hnm : m ∉ ls) (hlive : (h.lane m).st ≠ .exited) :
    ls.foldl step { s := entered s x } = leftWork s x ls :=
  (exit_fold x.key h step ls hn _ h hstep hh rfl (fun _ _ => rfl) m hm hnm hlive).trans (each_hold _ _ _ _)

/-- The last of the lanes that leave is the one after which the barriers are judged again (R127). -/
theorem foldl_exit_last {s : State} {x : Iss} {h : Heat} {step : Work → Nat → Work} {ls : List Nat} {m : Nat} (hn : (ls ++ [m]).Nodup)
    (hh : (entered s x).heat? x.key = some h)
    (hstep : ∀ (w : Work) (g : Heat) (l : Nat), l ∈ ls ++ [m] → w.s.heat? x.key = some g → g.lanes.length = h.lanes.length →
      g.lane l = h.lane l → step w l = exitLane x.key w l)
    (hm : m < h.lanes.length) (hlive : (h.lane m).st ≠ .exited) :
    (ls ++ [m]).foldl step { s := entered s x } = exitLane x.key (leftWork s x ls) m := by
  obtain ⟨hls, -, hdis⟩ := List.nodup_append.1 hn
  have hnm : m ∉ ls := fun hc => hdis m hc m (by simp) rfl
  rw [List.foldl_append, foldl_exit_live hls hh (fun w g l hl => hstep w g l (by simp [hl])) hm hnm hlive]
  refine hstep _ (h.left ls) m (by simp) (leftWork_heat hh ls) (h.left_length ls) ?_
  rw [h.left_lane hls, if_neg fun hc => hnm hc.1]

/-- EXIT while a lane of the heat lives on (R136). -/
theorem exit_ends_lanes (c : Com) :
    Acts (.exit c) (fun e => NoneKept e.act e.h ∧ ∃ l, l < e.h.lanes.length ∧ l ∉ e.act ∧ (e.h.lane l).st ≠ .exited)
      Seen.s Seen.h (fun _ _ y => { y with st := .exited, depth := 0 }) := by
  obtain ⟨step, hexec, hstep⟩ := exit_steps c
  refine acts_of _ hexec ?_
  rintro s x h hI ⟨hfree, m, hm, hnm, hlive⟩
  have hn := Issues_active_nodup hI
  have hlane := h.left_lane hn
  refine ⟨_, h.left (active (.exit c) x h), foldl_exit_live hn hI.heat (hstep s x h hI hfree) hm hnm hlive, rfl, rfl, by rw [leftWork_part],
    leftWork_part s x _, fun k hk => leftWork_heat_ne s x _ hk, leftWork_heat hI.heat _, Heat.foldl_updLane_eq _ (fun _ y => y.leave none) h,
    h.left_length _, ?_, fun l hl => ?_⟩
  · refine Heat.allExited_false (l := m) (by rwa [h.left_length]) ?_
    rwa [hlane, if_neg fun hc => hnm hc.1]
  · show (if l ∈ x.lanes ∧ l ∉ active (.exit c) x h then _ else _) = _
    rw [hlane]
    by_cases ha : l ∈ active (.exit c) x h
    · simp [ha, hl, Lane.leave]
    · simp [ha]

/-- A heat whose last lanes leave has exited. -/
theorem Heat.left_allExited {h : Heat} {ls : List Nat} (hn : ls.Nodup) (hall : ∀ l, l < h.lanes.length → l ∈ ls ∨ (h.lane l).st = .exited) :
    (h.left ls).allExited = true := by
  rw [Heat.allExited, List.all_eq_true]
  intro y hy
  obtain ⟨l, hl, rfl⟩ := List.mem_iff_getElem.1 hy
  have hlt : l < h.lanes.length := by rwa [h.left_length] at hl
  have hat : (h.left ls).lanes[l] = (h.left ls).lane l := by simp [Heat.lane, hl]
  rw [hat, h.left_lane hn]
  rcases hall l hlt with hm | he
  · simp [hm, hlt, Lane.leave, Lane.exited]
  · by_cases hm : l ∈ ls
    · simp [hm, hlt, Lane.leave, Lane.exited]
    · simp [hm, he, Lane.exited]

/-- EXIT of the heat's last lanes (R127, R136). -/
theorem exit_ends_heat {c : Com} {s : State} {x : Iss} {h : Heat} (hI : Issues (.exit c) s x h) (hfree : NoneKept (active (.exit c) x h) h)
    (hall : ∀ l, l < h.lanes.length → l ∈ active (.exit c) x h ∨ (h.lane l).st = .exited) :
    ∃ t g, exec (.exit c) s = .next t ∧ t.heat? x.key = some g ∧ g.allExited = true ∧ t.kernels = s.kernels := by
  obtain ⟨step, hexec, hstep⟩ := exit_steps c
  have hstep := hstep s x h hI hfree
  have hn := Issues_active_nodup hI
  have hlive : ∀ l ∈ active (.exit c) x h, l < h.lanes.length ∧ (h.lane l).st ≠ .exited := fun l hl =>
    ⟨(hI.lanes l (List.mem_filter.1 hl).1).1, Issues_live hI l (List.mem_filter.1 hl).1⟩
  obtain ⟨l, hl⟩ := List.exists_mem_of_ne_nil _ hI.some_lane
  have hne : active (.exit c) x h ≠ [] := List.ne_nil_of_mem ((hall l (hI.lanes l hl).1).resolve_right (Issues_live hI l hl))
  obtain ⟨ls, m, hlm⟩ : ∃ ls m, active (.exit c) x h = ls ++ [m] := ⟨_, _, (List.dropLast_append_getLast hne).symm⟩
  obtain ⟨hm, hml⟩ := hlive m (by simp [hlm])
  have hbody : (envOf (.exit c) s x h).each (step (envOf (.exit c) s x h)) { s := entered s x } =
      exitLane x.key (leftWork s x ls) m := by
    rw [Env.each, show (envOf (.exit c) s x h).act = ls ++ [m] from hlm]
    exact foldl_exit_last (hlm ▸ hn) hI.heat (hlm ▸ hstep) hm hml
  have hleft : (h.left ls).updLane m (fun y => y.leave none) = h.left (active (.exit c) x h) := by
    rw [hlm, Heat.left, Heat.left, List.foldl_append]
    rfl
  obtain ⟨g, hg, hgx, hk, hlen⟩ := settleBars_heat _ x.key _ (heat?_updLane (leftWork_heat hI.heat ls) m (fun y => y.leave none))
    (hleft ▸ h.left_allExited hn hall)
  obtain ⟨t, ht, ⟨q, hq, hqx⟩, htk⟩ := exited_outcome hI (fun e w => e.each (step e) w) hbody rfl rfl hg hgx
    (by rw [hlen, Heat.length_updLane, h.left_length])
  refine ⟨t, q, (hexec s).trans ht, hq, hqx, htk.trans (hk.trans ?_)⟩
  rw [State.updLane, State.updHeat_kernels, leftWork_part]

/-- Settles O14: lanes that leave while another lives (exit_ends_lanes), and the heat's last lanes (exit_ends_heat). -/
theorem exitEndsItsLanes : Obligations.ExitEndsItsLanes := by
  unfold Obligations.ExitEndsItsLanes
  exact fun c => ⟨exit_ends_lanes c, fun s x h hI hfree hall => exit_ends_heat hI hfree hall⟩

end Sys2Proof.Machine
end

section
/-! SUPPORT. The packed BF16 instructions (R182, R183), and the statement O8. -/

namespace Sys2Proof.Machine

open Sys2Proof Sys2Proof.Safe

/-- A word whose meaning is the `packed` operation `f` on two sources computes `g`, where `g` is `packed` of the same on what
the lanes read (R182). -/
theorem computes_packed_of {i : Instr} {cross : Bool} {d : Dst} {a b : Src} {g : Heat → Reads → Nat → Nat × Nat}
    (f : Env → Nat → Nat → Nat → Nat → Nat × Nat)
    (hi : ∀ s, exec i s = issue i s (fun e w =>
      e.compute false d (fun l => packed cross (f e l) (e.srcT .bf16 a l) (e.srcT .bf16 b l)) w))
    (hf : ∀ s x h l, packed cross (f (envOf i s x h) l) (reads i s x h .bf16 a l) (reads i s x h .bf16 b l) =
      g h (reads i s x h) l) :
    Computes i false d g := by
  refine computes_of _ hi fun s x h _ l => ?_
  rw [envOf_srcT, envOf_srcT]
  exact hf s x h l

/-- Settles O8: each packed word is `packed` of its element operation, whose random bits (PKADD, PKMUL) or third operand (PKFMA)
are what the lanes read. -/
theorem packedInstructionsWorkOnBothHalves : Obligations.PackedInstructionsWorkOnBothHalves := by
  unfold Obligations.PackedInstructionsWorkOnBothHalves
  intro c r sat cross op d a b z rb
  refine ⟨?_, ?_, ?_, ?_⟩
  · refine computes_packed_of _ (exec_pkadd · c r sat cross d a b rb) fun s x h l => ?_
    rw [envOf_rb]
    rfl
  · refine computes_packed_of _ (exec_pkmul · c r sat cross d a b rb) fun s x h l => ?_
    rw [envOf_rb]
    rfl
  · refine computes_packed_of _ (exec_pkfma · c r sat cross d a b z) fun s x h l => ?_
    rw [envOf_srcT]
    rfl
  · exact computes_packed_of _ (exec_pkmnx · c op cross d a b) fun _ _ _ _ => rfl

end Sys2Proof.Machine
end

section
/-! SUPPORT. Words that compute what their lanes read: the one rule from which the arithmetic statements follow (R165), and the fields
of a word of format V (R95, R96). -/

namespace Sys2Proof.Machine

open Sys2Proof Sys2Proof.Safe

/-- What the body of an issuing word reads is what the statements call `reads`. -/
theorem envOf_srcT_eq_reads (i : Instr) (s : State) (x : Iss) (h : Heat) : (envOf i s x h).srcT = reads i s x h := by
  funext t a l
  exact envOf_srcT i s x h t a l

/-- A word whose meaning is `compute` of a function of its heat and of what its lanes read computes that function. -/
theorem computes_of_reads {i : Instr} {w : Bool} {d : Dst} {f : Heat → Reads → Nat → Nat × Nat}
    (hi : ∀ s, exec i s = issue i s (fun e k => e.compute w d (f e.h e.srcT) k)) : Computes i w d f :=
  computes_of (fun e => f e.h e.srcT) hi fun s x h _ l => by
    rw [envOf_srcT_eq_reads]
    rfl

/-- The same for a word that writes `n` vector registers in a row. -/
theorem computesRun_of_reads {i : Instr} {n d : Nat} {f : Heat → Reads → Nat → Nat → Nat × Nat}
    (hi : ∀ s, exec i s = issue i s (fun e k => (List.range n).foldl (fun k j => e.compute false (.v (d + j)) (f e.h e.srcT j) k) k)) :
    ComputesRun i n d f :=
  computesRun_of (fun e => f e.h e.srcT) hi fun s x h _ j l => by
    rw [envOf_srcT_eq_reads]
    rfl

/-- A computed function may be replaced by one that agrees with it where the word is well formed. -/
theorem computes_congr {i : Instr} {w : Bool} {d : Dst} {f g : Heat → Reads → Nat → Nat × Nat} (hf : Computes i w d f)
    (hfg : i.wf = true → ∀ h rd l, f h rd l = g h rd l) : Computes i w d g := by
  intro s x h hI
  have hg : f = g := funext fun h => funext fun rd => funext (hfg (Issues_wf hI) h rd)
  exact hg ▸ hf s x h hI

/-- The width of a destination may be written in another way. -/
theorem computes_width {i : Instr} {w w' : Bool} {d : Dst} {f : Heat → Reads → Nat → Nat × Nat} (hw : w' = w)
    (hf : Computes i w' d f) : Computes i w d f := hw ▸ hf

/-- The integer types (R168). -/
theorem isInt_iff (t : Ty) : t.isInt = true ↔ t = .s32 ∨ t = .n32 ∨ t = .s64 ∨ t = .n64 := by
  cases t <;> simp [Ty.isInt]

/-- The fields of a word of format V with a destination and a first source that are well formed. -/
theorem operandWord_fields {c : Com} {w w' : Bool} {d : Dst} {a : Src} {op b z t v : Nat} (hc : Wf.com false c = true)
    (hd : Wf.dst w d = true) (ha : Wf.read w' a = true) (hop : op < 256) (hb : b < 512) (hz : z < 512) (ht : t < 16) (hv : v < 32) :
    let i := Enc.fmtV op c (Enc.dst d) (Enc.src a) b z t 0 v
    fld i 56 8 = op ∧ fld i 21 9 = b ∧ fld i 12 9 = z ∧ fld i 8 4 = t ∧ fld i 0 5 = v := by
  have hd' := (Enc.dst_ok hd).1
  obtain ⟨h1, -, -, -, -, h2, h3, h4, -, h5⟩ := Enc.fmtV_fields op c (Enc.dst d) (Enc.src a) b z t 0 v hop (Enc.com_ok hc)
    (by omega) (Enc.src_ok ha).1 hb hz ht (by decide) hv
  exact ⟨h1, h2, h3, h4, h5⟩

end Sys2Proof.Machine
end

section
/-! SUPPORT. The integer instructions (R168, R169, R173), and the statements O1, O2 and O3. -/

namespace Sys2Proof.Machine

open Sys2Proof Sys2Proof.Safe

/-- The 64-bit type of a 32-bit integer type (R168). -/
theorem widened_eq (t : Ty) (hi : t.isInt = true) (hw : t.wide = false) : widened t = if t = .s32 then .s64 else .n64 := by
  cases t <;> simp_all [widened, Ty.isInt, Ty.wide, Ty.signed]

/-- Settles O1: each word computes its exact value and keeps the low bits; ADDI reads its immediate as its type, which keeps the
low bits too, and IMAD.wide reads its addend as the 64-bit type of its signedness. -/
theorem integerInstructionsKeepTheLowBits : Obligations.IntegerInstructionsKeepTheLowBits := by
  unfold Obligations.IntegerInstructionsKeepTheLowBits
  intro c t d a b z imm
  refine ⟨?_, ?_, ?_, ?_, ?_, ?_, ?_, ?_, ?_, ?_, ?_⟩
  · exact computes_of_reads (exec_iadd · c t false d a b)
  · exact computes_of_reads (exec_isub · c t false d a b)
  · refine computes_congr (f := fun _ rd l => intResult t false (asInt t (rd t a l) + asInt t (low (tyW t) imm)))
      (computes_of_reads (exec_addi · c t false d a imm)) fun _ _ rd l => ?_
    exact congrArg (·, 0) (low_add_asInt t _ imm)
  · exact computes_of_reads (exec_iabs · c t false d a)
  · exact computes_width (Bool.or_false t.wide) (computes_of_reads (exec_imul · c t .low d a b))
  · exact computes_width (Bool.or_false t.wide) (computes_of_reads (exec_imul · c t .hi d a b))
  · exact computes_width (Bool.or_true t.wide) (computes_of_reads (exec_imul · c t .wide d a b))
  · exact computes_width (Bool.or_false t.wide) (computes_of_reads (exec_imad · c t false d a b z))
  · refine computes_width (Bool.or_true t.wide) (computes_congr (f := fun _ rd l =>
      (low 64 (asInt t (rd t a l) * asInt t (rd t b l) + asInt (widened t) (rd (widened t) z l)), 0))
      (computes_of_reads (exec_imad · c t true d a b z)) fun hw _ rd l => ?_)
    have hw : (Wf.com false c && t.isInt && (!true || !t.wide) && Wf.dst (t.wide || true) d && Wf.read t.wide a && Wf.read t.wide b &&
      Wf.read (t.wide || true) z) = true := hw
    simp only [Bool.and_eq_true, Bool.not_true, Bool.false_or, Bool.not_eq_true'] at hw
    obtain ⟨⟨⟨⟨⟨⟨-, hint⟩, hnarrow⟩, -⟩, -⟩, -⟩, -⟩ := hw
    rw [widened_eq t hint hnarrow]
  · exact computes_of_reads (exec_imin · c t d a b)
  · exact computes_of_reads (exec_imax · c t d a b)

/-- A word that saturates the exact value `v` of what its lanes read gives the clamp of R168. -/
theorem computes_clamp {i : Instr} {t : Ty} {d : Dst} {v : Reads → Nat → Int}
    (hi : ∀ s, exec i s = issue i s (fun e k => e.compute t.wide d (fun l => intResult t true (v e.srcT l)) k)) :
    Computes i t.wide d (fun _ rd l => clamp t (v rd l)) :=
  computes_congr (f := fun _ rd l => intResult t true (v rd l)) (computes_of_reads hi) fun _ _ rd l => intResult_sat t (v rd l)

/-- Settles O2: the saturating result is the clamp of R168, and the immediate of ADDI, of 24 bits, is read as its type. -/
theorem saturatingIntegersClampAndRaiseSat : Obligations.SaturatingIntegersClampAndRaiseSat := by
  unfold Obligations.SaturatingIntegersClampAndRaiseSat
  intro c t d a b imm
  refine ⟨?_, ?_, ?_, ?_⟩
  · exact computes_clamp (exec_iadd · c t true d a b)
  · exact computes_clamp (exec_isub · c t true d a b)
  · exact computes_clamp (exec_iabs · c t true d a)
  · refine computes_congr (f := fun _ rd l => clamp t (asInt t (rd t a l) + asInt t (low (tyW t) imm)))
      (computes_clamp (exec_addi · c t true d a imm)) fun hw _ rd l => ?_
    have hw : (Wf.com false c && t.isInt && Wf.dst t.wide d && Wf.read t.wide a && Wf.int 24 imm) = true := hw
    simp only [Bool.and_eq_true, Wf.int, decide_eq_true_eq] at hw
    obtain ⟨⟨⟨⟨-, ht⟩, -⟩, -⟩, hlo, hhi⟩ := hw
    rw [asInt_low_imm t imm ht hlo hhi]

/-- Settles O3: the quotient and the remainder by the laws of `divide`, the word's fields by those of format V. -/
theorem idivTruncatesTowardZero : Obligations.IdivTruncatesTowardZero := by
  unfold Obligations.IdivTruncatesTowardZero
  intro c t d a b
  refine ⟨?_, ?_, fun rem hw => ?_⟩
  · refine computes_congr (f := fun _ rd l => (low (tyW t) (divide false (asInt t (rd t a l)) (asInt t (rd t b l))), 0))
      (computes_of_reads (exec_idiv · c t false d a b)) fun _ _ _ _ => congrArg (·, 0) (divide_quo t _ _)
  · refine computes_congr (f := fun _ rd l => (low (tyW t) (divide true (asInt t (rd t a l)) (asInt t (rd t b l))), 0))
      (computes_of_reads (exec_idiv · c t true d a b)) fun _ _ rd l => ?_
    rw [divide_rem]
  · have hw : (Wf.com false c && t.isInt && Wf.dst t.wide d && Wf.read t.wide a && Wf.read t.wide b) = true := hw
    simp only [Bool.and_eq_true] at hw
    obtain ⟨⟨⟨⟨hc, ht⟩, hd⟩, ha⟩, hb⟩ := hw
    have hty := (Enc.ty_ok t).1
    obtain ⟨hop, -, -, -, hvar⟩ := operandWord_fields (op := 0x24) (z := 511) (v := b2n rem) hc hd ha (by decide) (Enc.src_ok hb).1
      (by decide) (show Enc.ty t < 16 by omega) (by cases rem <;> decide)
    exact ⟨hop, hvar, (isInt_iff t).1 ht⟩

end Sys2Proof.Machine
end

section
/-! SUPPORT. The bitwise, shift, field, count, address and byte-select instructions (R168, R170 to R172, R174, R175), and the
statement O4. -/

namespace Sys2Proof.Machine

open Sys2Proof Sys2Proof.Safe

/-- The signed types (R168). -/
theorem signed_iff (t : Ty) : t.signed = true ↔ t = .s32 ∨ t = .s64 := by
  cases t <;> simp [Ty.signed]

/-- The plain right shift by the type's names (R170). -/
theorem shrOf_shift (t : Ty) (x k : Nat) : shrOf t false x k =
    if t = .s32 ∨ t = .s64 then low (tyW t) (sext x (tyW t) / (2 ^ min k (tyW t) : Nat))
    else if tyW t ≤ k then 0 else x / 2 ^ k := by
  simp only [shrOf, signed_iff, Bool.false_eq_true, if_false]

/-- The words of POPC, CLZ and BREV: one source, variant 0 (R172). -/
theorem countWord_fields {c : Com} {t : Ty} {d : Dst} {a : Src} {op : Nat} (hop : op < 256)
    (hw : (Wf.com false c && t.isInt && Wf.dst t.wide d && Wf.read t.wide a) = true) :
    let i := Enc.fmtV op c (Enc.dst d) (Enc.src a) 511 511 (Enc.ty t) 0 0
    fld i 56 8 = op ∧ fld i 21 9 = 511 ∧ fld i 12 9 = 511 ∧ fld i 0 5 = 0 ∧ (t = .s32 ∨ t = .n32 ∨ t = .s64 ∨ t = .n64) := by
  simp only [Bool.and_eq_true] at hw
  obtain ⟨⟨⟨hc, ht⟩, hd⟩, ha⟩ := hw
  have hty := (Enc.ty_ok t).1
  obtain ⟨h1, h2, h3, -, h4⟩ := operandWord_fields (b := 511) (z := 511) (t := Enc.ty t) (v := 0) hc hd ha hop (by decide)
    (by decide) (by omega) (by decide)
  exact ⟨h1, h2, h3, h4, (isInt_iff t).1 ht⟩

/-- The word of LEA: its type tells whether the index is signed, its variant is the shift (R174). -/
theorem leaWord_fields {c : Com} {sg : Bool} {sh : Nat} {d : Dst} {a b : Src} (hw : Instr.wf (.lea c sg sh d a b) = true) :
    fld (encode (.lea c sg sh d a b)) 56 8 = 0x36 ∧ fld (encode (.lea c sg sh d a b)) 12 9 = 511 ∧
      fld (encode (.lea c sg sh d a b)) 8 4 = (if sg then 2 else 3) ∧ fld (encode (.lea c sg sh d a b)) 0 5 = sh ∧ sh < 8 := by
  have hw : (Wf.com false c && sh < 8 && Wf.dst true d && Wf.read true a && Wf.read false b) = true := hw
  simp only [Bool.and_eq_true, decide_eq_true_eq] at hw
  obtain ⟨⟨⟨⟨hc, hsh⟩, hd⟩, ha⟩, hb⟩ := hw
  obtain ⟨h1, -, h2, h3, h4⟩ := operandWord_fields (op := 0x36) (z := 511) (t := if sg then 2 else 3) (v := sh) hc hd ha (by decide)
    (Enc.src_ok hb).1 (by decide) (by split <;> decide) (by omega)
  exact ⟨h1, h2, h3, h4, hsh⟩

/-- Settles O4: each word computes a pattern of what its lanes read; POPC and BREV by their laws, the plain SHR by the type's sign;
the words by the fields of format V. -/
theorem bitInstructionsComputeTheirPatterns : Obligations.BitInstructionsComputeTheirPatterns := by
  unfold Obligations.BitInstructionsComputeTheirPatterns
  intro c t d a b z
  refine ⟨?_, ?_, ?_, ?_, ?_, ?_, ?_, ?_, ?_, ?_, ?_, ?_, fun sg sh => ?_, fun x => ?_, ?_, fun sg sh => leaWord_fields⟩
  · exact computes_of_reads (exec_and · c t d a b)
  · exact computes_of_reads (exec_or · c t d a b)
  · exact computes_of_reads (exec_xor · c t d a b)
  · exact computes_of_reads (exec_shl · c t false d a b)
  · exact computes_of_reads (exec_shl · c t true d a b)
  · exact computes_congr (f := fun _ rd l => (shrOf t false (rd t a l) (rd .n32 b l), 0)) (computes_of_reads (exec_shr · c t false d a b))
      fun _ _ _ _ => congrArg (·, 0) (shrOf_shift t _ _)
  · exact computes_of_reads (exec_shr · c t true d a b)
  · exact computes_of_reads (exec_bfx · c t d a b)
  · exact computes_of_reads (exec_bfi · c t d a b z)
  · exact computes_congr (f := fun _ rd l => (popcOf (tyW t) (rd t a l), 0)) (computes_of_reads (exec_popc · c t d a))
      fun _ _ _ _ => congrArg (·, 0) (popcOf_eq _ _)
  · exact computes_of_reads (exec_clz · c t d a)
  · exact computes_congr (f := fun _ rd l => (brevOf (tyW t) (rd t a l), 0)) (computes_of_reads (exec_brev · c t d a))
      fun _ _ _ _ => congrArg (·, 0) (brevOf_eq _ _)
  · exact computes_of_reads (exec_lea · c sg sh d a b)
  · exact computes_of_reads (exec_bysel · c x d a b z)
  · intro i o hio hw
    rcases hio with h | h | h <;> obtain ⟨rfl, rfl⟩ := Prod.mk.inj h <;> exact countWord_fields (by decide) hw

end Sys2Proof.Machine
end

section
/-! SUPPORT. The FP32 instructions (R176 to R181), and the statements O6 and O7. -/

namespace Sys2Proof.Machine

open Sys2Proof Sys2Proof.Safe

/-- Settles O6: each word rounds the exact result of what its lanes read, the random bits among it. -/
theorem floatArithmeticRoundsOnce : Obligations.FloatArithmeticRoundsOnce := by
  unfold Obligations.FloatArithmeticRoundsOnce
  intro c r sat d a b z rb
  refine ⟨?_, ?_, ?_, ?_, ?_, ?_, ?_⟩
  · exact computes_of_reads (exec_fadd · c r sat d a b rb)
  · exact computes_of_reads (exec_fsub · c r sat d a b rb)
  · exact computes_of_reads (exec_fmul · c r sat d a b rb)
  · exact computes_of_reads (exec_fdiv · c r sat d a b rb)
  · exact computes_of_reads (exec_ffma · c r sat d a b z)
  · exact computes_of_reads (exec_fsqrt · c r sat d a rb)
  · exact computes_of_reads (exec_frnd · c r sat d a rb)

/-- The sign that an operation of FSIGN gives (R178). -/
def newSign (op : SignOp) (x y : Nat) : Bool := match op with
  | .abs => false
  | .neg => !(bit x 31)
  | .copy => bit y 31
  | .xor => Bool.xor (bit x 31) (bit y 31)

theorem two_pow_mul_b2n (n : Nat) (b : Bool) : 2 ^ n * b2n b = if b then 2 ^ n else 0 := by
  cases b <;> simp [b2n]

/-- The sign operations change bit 31 alone (R178). -/
theorem signOf_eq (op : SignOp) (x y : Nat) : signOf op x y = x % 2 ^ 31 + (if newSign op x y then 2 ^ 31 else 0) := by
  cases op <;> exact congrArg (x % 2 ^ 31 + ·) (two_pow_mul_b2n 31 _)

/-- The word of FSIGN: its variant is the operation, and b is absent exactly where the operation reads none (R178). -/
theorem fsignWord_fields {c : Com} {op : SignOp} {d : Dst} {a : Src} {y : Option Src} (hw : Instr.wf (.fsign c op d a y) = true) :
    fld (encode (.fsign c op d a y)) 56 8 = 0x46 ∧ fld (encode (.fsign c op d a y)) 8 4 = 4 ∧
      fld (encode (.fsign c op d a y)) 0 5 = Enc.signOp op ∧ (y = none ↔ op = .abs ∨ op = .neg) ∧
      (y = none → fld (encode (.fsign c op d a y)) 21 9 = 511) := by
  have hw : (Wf.com false c && Wf.dst false d && Wf.read false a && Wf.opt (Wf.read false) y &&
    (y.isSome == (op == .copy || op == .xor))) = true := hw
  simp only [Bool.and_eq_true, beq_iff_eq] at hw
  obtain ⟨⟨⟨⟨hc, hd⟩, ha⟩, hy⟩, hop⟩ := hw
  have hb : Enc.srcOpt y < 512 := by
    cases y with
    | none => decide
    | some q => exact (Enc.src_ok hy).1
  have hsign := (Enc.signOp_ok op).1
  obtain ⟨h1, h2, -, h3, h4⟩ := operandWord_fields (op := 0x46) (z := 511) (t := 4) (v := Enc.signOp op) hc hd ha (by decide) hb
    (by decide) (by decide) (by omega)
  refine ⟨h1, h3, h4, ?_, fun hnone => h2.trans (by rw [hnone]; rfl)⟩
  cases y <;> cases op <;> simp_all

/-- Settles O7: each word computes its function of what its lanes read; FSIGN by the law of its bit 31, and its word by the fields of
format V. -/
theorem floatFunctionsGiveTheirResults : Obligations.FloatFunctionsGiveTheirResults := by
  unfold Obligations.FloatFunctionsGiveTheirResults
  intro c x t op d a b y
  refine ⟨?_, ?_, ?_, ?_, ?_, ?_, ?_, ?_, ?_, fsignWord_fields⟩
  · exact computes_of_reads (exec_fmin · c x d a b)
  · exact computes_of_reads (exec_fmax · c x d a b)
  · exact computes_congr (f := fun _ rd l => (signOf op (rd .f32 a l) (match y with | none => 0 | some q => rd .f32 q l), 0))
      (computes_of_reads (exec_fsign · c op d a y)) fun _ _ _ _ => congrArg (·, 0) (signOf_eq op _ _)
  · exact computes_of_reads (exec_fclass · c t d a)
  · exact computes_of_reads (exec_frcp · c d a)
  · exact computes_of_reads (exec_frsq · c d a)
  · exact computes_of_reads (exec_fexp2 · c d a)
  · exact computes_of_reads (exec_flog2 · c d a)
  · exact computes_of_reads (exec_ftanh · c d a)

end Sys2Proof.Machine
end

section
/-! SUPPORT. Conversions, packing, unpacking and scaling (R184 to R187), and the statement O9. -/

namespace Sys2Proof.Machine

open Sys2Proof Sys2Proof.Safe

/-- The scale byte that a word's lanes read: 127 where it names none (R158, R186). -/
def scaleRead (sc : Scale) (rd : Reads) (l : Nat) : Nat := match sc with
  | .byte (.v k) s => fld (rd .n32 (.v k) l) (8 * s) 8
  | .byte (.k k) s => fld (rd .n32 (.k k) l) (8 * s) 8
  | _ => 127

/-- The scale byte of the model is what the lanes read. -/
theorem scaleByte_eq_scaleRead (e : Env) (sc : Scale) (l : Nat) : e.scaleByte sc l = scaleRead sc e.srcT l := by
  cases sc with
  | byte r s => cases r <;> rfl
  | none => rfl
  | book k => rfl

/-- The random bits that a word's lanes read: 0 where it names none (R155). -/
def bitsRead (rb : Option Src) (rd : Reads) (l : Nat) : Nat := match rb with
  | none => 0
  | some q => rd .n32 q l

/-- The codebook that a word names in its heat (R150). -/
def bookRead (sc : Scale) (h : Heat) : List Nat := match sc with
  | .book k => h.book k
  | _ => []

/-- The elements of `m` registers from `a`, packed (R186). -/
def packRead (m : Nat) (t : Ty) (r : Rnd) (sat : Bool) (sc : Scale) (a : Nat) (rb : Option Src) (h : Heat) (rd : Reads) (l : Nat) : Nat × Nat :=
  (List.range m).foldl (fun acc j =>
    let e := packElem t r (rbits (bitsRead rb rd l) j) sat (scaleRead sc rd l) (bookRead sc h) ((h.lane l).v32 (a + j))
    (acc.1 + e.1 * 2 ^ (elemW t * j), acc.2 ||| e.2)) (0, 0)

/-- Element `j` of a source, unpacked (R186). -/
def unpackRead (t : Ty) (r : Rnd) (sc : Scale) (a : Src) (rb : Option Src) (h : Heat) (rd : Reads) (j l : Nat) : Nat × Nat :=
  unpackElem t r (rbits (bitsRead rb rd l) j) (scaleRead sc rd l) (bookRead sc h) (fld (rd .n32 a l) (elemW t * j) (elemW t))

/-- The body of PACK computes the packed elements. -/
theorem packBody_eq (m : Nat) (t : Ty) (r : Rnd) (sat : Bool) (sc : Scale) (d : Dst) (a : Nat) (rb : Option Src) (e : Env) (k : Work) :
    packBody m t r sat sc d a rb e k = e.compute false d (packRead m t r sat sc a rb e.h e.srcT) k := by
  simp only [packBody, scaleByte_eq_scaleRead]
  rfl

/-- The body of UNPK computes each element in turn. -/
theorem unpackBody_eq (m : Nat) (t : Ty) (r : Rnd) (sc : Scale) (d : Nat) (a : Src) (rb : Option Src) (e : Env) (k : Work) :
    unpackBody m t r sc d a rb e k =
      (List.range m).foldl (fun k j => e.compute false (.v (d + j)) (unpackRead t r sc a rb e.h e.srcT j) k) k := by
  simp only [unpackBody, scaleByte_eq_scaleRead]
  rfl

/-- A word whose body is that of PACK computes the packed elements. -/
theorem computes_pack {i : Instr} {m : Nat} {t : Ty} {r : Rnd} {sat : Bool} {sc : Scale} {d : Dst} {a : Nat} {rb : Option Src}
    (hi : ∀ s, exec i s = issue i s (packBody m t r sat sc d a rb)) : Computes i false d (packRead m t r sat sc a rb) :=
  computes_of_reads fun s => (hi s).trans (congrArg (issue i s) (funext fun e => funext (packBody_eq m t r sat sc d a rb e)))

/-- A word whose body is that of UNPK computes each element in turn. -/
theorem computesRun_unpack {i : Instr} {m : Nat} {t : Ty} {r : Rnd} {sc : Scale} {d : Nat} {a : Src} {rb : Option Src}
    (hi : ∀ s, exec i s = issue i s (unpackBody m t r sc d a rb)) : ComputesRun i m d (unpackRead t r sc a rb) :=
  computesRun_of_reads fun s => (hi s).trans (congrArg (issue i s) (funext fun e => funext (unpackBody_eq m t r sc d a rb e)))

/-- Settles O9: the conversions and SCALEX are functions of what their lanes read, PACK and UNPK by their bodies. -/
theorem conversionsPackAndUnpack : Obligations.ConversionsPackAndUnpack := by
  unfold Obligations.ConversionsPackAndUnpack
  intro c t y r sat inv sc sb d a b n rb
  refine ⟨?_, ?_, ?_, ?_, ?_, ?_, ?_, ?_, ?_⟩
  · exact computes_of_reads (exec_cvti · c t y r d a rb)
  · exact computes_of_reads (exec_cvtf · c t y r sat d a rb)
  · exact computes_pack (exec_pack2 · c t r sat sc d n rb)
  · exact computes_pack (exec_pack4 · c t r sat sc d n rb)
  · exact computes_pack (exec_pack8 · c t r sat sc d n rb)
  · exact computesRun_unpack (exec_unpk2 · c t r sc n a rb)
  · exact computesRun_unpack (exec_unpk4 · c t r sc n a rb)
  · exact computesRun_unpack (exec_unpk8 · c t r sc n a rb)
  · exact computes_of_reads (exec_scalex · c r inv sat sb d a b rb)

end Sys2Proof.Machine
end

section
/-! SUPPORT. Record instructions (R203, R204): the record that each form writes, by its fields, and the statement O13. -/

namespace Sys2Proof.Machine

open Sys2Proof Sys2Proof.Safe

/-- A field below the width of a truncation reads as before it. -/
theorem fld_mod_two_pow (q m lo n : Nat) (h : lo + n ≤ m) : fld (q % 2 ^ m) lo n = fld q lo n := by
  apply Nat.eq_of_testBit_eq
  intro j
  rw [testBit_fld, testBit_fld, Nat.testBit_mod_two_pow]
  by_cases hj : j < n
  · simp [show lo + j < m by omega]
  · simp [hj]

/-- A record register takes the low 256 bits. -/
theorem setB_mod (h : Heat) (d q : Nat) : h.setB d (q % 2 ^ 256) = h.setB d q :=
  congrArg (fun y => { h with b := Tbl.put 0 h.b d y }) (BitVec.eq_of_toNat_eq (by simp))

/-- Without active lanes no record is written (R203). -/
theorem setRec_eq (i : Instr) (s : State) (x : Iss) (h : Heat) (d q : Nat) :
    (envOf i s x h).setRec d q { s := entered s x } =
      { s := (entered s x).updHeat x.key (fun g => if active i x h = [] then g else g.setB d q) } := by
  by_cases ha : active i x h = []
  · simp only [if_pos ha]
    rw [State.updHeat_id]
    exact if_pos (List.isEmpty_iff.2 ha)
  · simp only [if_neg ha]
    exact if_neg fun he => ha (List.isEmpty_iff.1 he)

/-- A word whose body writes `q` into record register `d` builds a record of which `R` holds, where `R` holds of the low 256
bits of `q`, whose fields are those of `q`. -/
theorem builds_of {i : Instr} {d : Nat} {R : Seen → Nat → Prop} (qe : Env → Nat) (q : Seen → Nat)
    (hi : ∀ s, exec i s = issue i s (fun e w => e.setRec d (qe e) w)) (hq : ∀ s x h, qe (envOf i s x h) = q (seen i s x h))
    (hR : ∀ e r, r = q e % 2 ^ 256 → (∀ lo n, lo + n ≤ 256 → fld r lo n = fld (q e) lo n) → R e r) : Builds i d R := by
  refine ⟨fun e => q e % 2 ^ 256, fun e => ⟨Nat.mod_lt _ (by decide), hR e _ rfl fun lo n h => fld_mod_two_pow _ 256 lo n h⟩, ?_⟩
  refine short_acts _ hi (fun e g => if e.act = [] then g else g.setB d (q e)) (fun e g => by split <;> rfl) (fun e g => by split <;> rfl)
    (fun s x h _ _ => by simp only [setB_mod]; rfl) (fun _ => rfl) fun s x h _ _ => ⟨false, ?_⟩
  rw [hq]
  exact (setRec_eq i s x h d _).trans (by rw [entered_eq s x]; rfl)

/-- The fields of a record moved by an element offset (R204). -/
theorem recOffset_fields (r a : Nat) :
    recBase (recOffset r a) = (recBase r + a * recSt r) % 2 ^ 57 ∧ recExtent (recOffset r a) = recExtent r - a ∧
      sameFld (recOffset r a) r 57 7 ∧ sameFld (recOffset r a) r 104 152 := by
  have hext : recExtent r - a < 2 ^ 40 := Nat.lt_of_le_of_lt (Nat.sub_le _ _) (fld_lt r 64 40)
  unfold sameFld recOffset
  refine ⟨?_, ?_, ?_, ?_⟩
  · exact (fld_setFld_ne _ 64 40 _ 0 57 (by decide)).trans (fld_setFld_self _ _ _ _)
  · exact (fld_setFld_self _ _ _ _).trans (Nat.mod_eq_of_lt hext)
  · exact (fld_setFld_ne _ 64 40 _ 57 7 (by decide)).trans (fld_setFld_ne _ 0 57 _ 57 7 (by decide))
  · exact (fld_setFld_ne _ 64 40 _ 104 152 (by decide)).trans (fld_setFld_ne _ 0 57 _ 104 152 (by decide))

/-- The fields of a record whose extent is cut to a window (R204). -/
theorem window_fields (r n : Nat) :
    recBase (setFld r 64 40 (min (recExtent r) n)) = recBase r ∧ recExtent (setFld r 64 40 (min (recExtent r) n)) = min (recExtent r) n ∧
      sameFld (setFld r 64 40 (min (recExtent r) n)) r 57 7 ∧ sameFld (setFld r 64 40 (min (recExtent r) n)) r 104 152 := by
  have hext : min (recExtent r) n < 2 ^ 40 := Nat.lt_of_le_of_lt (Nat.min_le_left _ _) (fld_lt r 64 40)
  exact ⟨fld_setFld_ne _ 64 40 _ 0 57 (by decide), (fld_setFld_self _ _ _ _).trans (Nat.mod_eq_of_lt hext),
    fld_setFld_ne _ 64 40 _ 57 7 (by decide), fld_setFld_ne _ 64 40 _ 104 152 (by decide)⟩

/-- Four doublewords side by side, by their fields (R203). -/
theorem quad_fields (q : Nat → Nat) (hq : ∀ j, q j < 2 ^ 64) (k j : Nat) (hj : j < 4) :
    fld (q k + q (k + 1) * 2 ^ 64 + q (k + 2) * 2 ^ 128 + q (k + 3) * 2 ^ 192) (64 * j) 64 = q (k + j) := by
  have h0 := hq k
  have h1 := hq (k + 1)
  have h2 := hq (k + 2)
  have h3 := hq (k + 3)
  unfold fld
  obtain rfl | rfl | rfl | rfl : j = 0 ∨ j = 1 ∨ j = 2 ∨ j = 3 := by omega
  · simp only [Nat.mul_zero, pow_zero, Nat.div_one, Nat.add_zero]
    omega
  · omega
  · omega
  · omega

/-- A bit of a field placed above a record's own bits. -/
theorem testBit_placed (fl lo n m j : Nat) : (fld fl lo n * 2 ^ m).testBit j = (decide (m ≤ j ∧ j < m + n) && fl.testBit (lo + (j - m))) := by
  rw [Nat.testBit_mul_two_pow, testBit_fld]
  by_cases h : m ≤ j
  · simp [h, show (j - m < n) ↔ j < m + n by omega]
  · simp [h]

/-- A bit of a record under the flags that BSUB.flags sets (R204). -/
theorem testBit_flagged (r fl j : Nat) :
    (r ||| fld fl 0 4 * 2 ^ 154 ||| fld fl 4 1 * 2 ^ 168).testBit j =
      (r.testBit j || (decide (154 ≤ j ∧ j < 158) && fl.testBit (j - 154)) || (decide (j = 168) && fl.testBit 4)) := by
  rw [Nat.testBit_or, Nat.testBit_or, testBit_placed, testBit_placed, Nat.zero_add]
  by_cases h : j = 168
  · simp [h]
  · simp [h, show ¬ (168 ≤ j ∧ j < 169) by omega]

/-- A field of a record that holds none of its flags is copied by BSUB.flags (R204). -/
theorem fld_flagged (r fl lo n : Nat) (h : lo + n ≤ 154 ∨ 158 ≤ lo ∧ lo + n ≤ 168 ∨ 169 ≤ lo) :
    fld (r ||| fld fl 0 4 * 2 ^ 154 ||| fld fl 4 1 * 2 ^ 168) lo n = fld r lo n := by
  apply Nat.eq_of_testBit_eq
  intro j
  rw [testBit_fld, testBit_fld, testBit_flagged]
  by_cases hj : j < n
  · simp [hj, show ¬ (154 ≤ lo + j ∧ lo + j < 158) by omega, show ¬ lo + j = 168 by omega]
  · simp [hj]

/-- The colour of a record whose colour is replaced (R204). -/
theorem recColour_setFld (r col : Nat) (h : col < 4096) : recColour (setFld r 136 12 col) = col := by
  unfold recColour
  rw [fld_setFld_self]
  exact Nat.mod_eq_of_lt h

theorem bit_eq_of_fld {q r j : Nat} (h : fld q j 1 = fld r j 1) : bit q j = bit r j := by
  unfold fld at h
  unfold bit
  rw [pow_one] at h
  rw [h]

/-- Settles O13: each form writes one record (`builds_of`), whose fields are read off the replaced ones. -/
theorem recordInstructionsWriteOneRecord : Obligations.RecordInstructionsWriteOneRecord := by
  unfold Obligations.RecordInstructionsWriteOneRecord
  intro c d b n k col fl a
  refine ⟨?_, ?_, ?_, ?_, ?_, ?_, ?_⟩
  · refine builds_of _ (fun e => setFld (e.h.b256 d) (64 * n) 64 (e.rd .n64 a e.low)) (exec_bldQ · c d n a)
      (fun s x h => by rw [envOf_src64]; rfl) fun e r _ hr j hj => ?_
    rw [hr _ _ (by omega)]
    split
    · next hjn => rw [hjn, fld_setFld_self]
    · next hjn => exact fld_setFld_ne _ _ _ _ _ _ (by omega)
  · refine builds_of _ (fun e => e.h.k64 k + e.h.k64 (k + 1) * 2 ^ 64 + e.h.k64 (k + 2) * 2 ^ 128 + e.h.k64 (k + 3) * 2 ^ 192)
      (exec_bldK · c d k) (fun _ _ _ => rfl) fun e r _ hr j hj => ?_
    rw [hr _ _ (by omega)]
    exact quad_fields e.h.k64 e.h.k64_lt k j hj
  · refine builds_of _ (fun _ => 0) (exec_bldZero · c d) (fun _ _ _ => rfl) fun e r hzero _ => ?_
    exact hzero
  · refine builds_of _ (fun e => recOffset (e.h.b256 b) (e.rd .n64 a e.low)) (exec_bsubOff · c d b a)
      (fun s x h => by rw [envOf_src64]; rfl) fun e r _ hr => ?_
    obtain ⟨hbase, hext, hlow, hhigh⟩ := recOffset_fields (e.h.b256 b) (e.rd .n64 a e.low)
    exact ⟨(hr 0 57 (by decide)).trans hbase, (hr 64 40 (by decide)).trans hext, (hr 57 7 (by decide)).trans hlow,
      (hr 104 152 (by decide)).trans hhigh⟩
  · refine builds_of _ (fun e => let r := recOffset (e.h.b256 b) (e.rd .n64 a e.low); setFld r 64 40 (min (recExtent r) n))
      (exec_bsubWin · c d b a n) (fun s x h => by rw [envOf_src64]; rfl) fun e r _ hr => ?_
    obtain ⟨hbase, hext, hlow, hhigh⟩ := recOffset_fields (e.h.b256 b) (e.rd .n64 a e.low)
    obtain ⟨wbase, wext, wlow, whigh⟩ := window_fields (recOffset (e.h.b256 b) (e.rd .n64 a e.low)) n
    exact ⟨(hr 0 57 (by decide)).trans (wbase.trans hbase), (hr 64 40 (by decide)).trans (wext.trans (congrArg (min · n) hext)), (hr 57 7 (by decide)).trans (wlow.trans hlow),
      (hr 104 152 (by decide)).trans (whigh.trans hhigh)⟩
  · refine builds_of _ (fun e => setFld (e.h.b256 b) 136 12 col) (exec_bsubColour · c d b col) (fun _ _ _ => rfl) fun e r _ hr => ?_
    exact ⟨fun hc => (hr 136 12 (by decide)).trans (recColour_setFld _ col hc),
      (hr 0 136 (by decide)).trans (fld_setFld_ne _ 136 12 _ 0 136 (by decide)),
      (hr 148 108 (by decide)).trans (fld_setFld_ne _ 136 12 _ 148 108 (by decide))⟩
  · refine builds_of _ (fun e => e.h.b256 b ||| fld fl 0 4 * 2 ^ 154 ||| fld fl 4 1 * 2 ^ 168) (exec_bsubFlags · c d b fl)
      (fun _ _ _ => rfl) fun e r _ hr => ⟨fun j hj => ?_, ?_, ?_, ?_, ?_⟩
    · rw [bit_eq_of_fld (hr (154 + j) 1 (by omega)), bit_eq_testBit, bit_eq_testBit, bit_eq_testBit, testBit_flagged]
      rw [Nat.add_sub_cancel_left]
      simp [show ¬ 154 + j = 168 by omega, show 154 + j < 158 by omega]
    · rw [bit_eq_of_fld (hr 168 1 (by decide)), bit_eq_testBit, bit_eq_testBit, bit_eq_testBit, testBit_flagged]
      simp
    · exact (hr 0 154 (by decide)).trans (fld_flagged _ fl 0 154 (by decide))
    · exact (hr 158 10 (by decide)).trans (fld_flagged _ fl 158 10 (by decide))
    · exact (hr 169 87 (by decide)).trans (fld_flagged _ fl 169 87 (by decide))

end Sys2Proof.Machine
end

section
/-! SUPPORT. Scratchpad accesses (R201, R202, R208, R212, R215), and the statements O22, O23 and O30. -/

namespace Sys2Proof.Machine

open Sys2Proof Sys2Proof.Safe

/-- Settles O22: where every lane is in place the body of LDS, and that of LDSR with its quad positions, is `scratch`. -/
theorem scratchpadLoadsFillTheirRegisters : Obligations.ScratchpadLoadsFillTheirRegisters := by
  unfold Obligations.ScratchpadLoadsFillTheirRegisters
  intro c sg sz d x pos a off value
  refine ⟨?_, fun unit => ?_⟩
  · refine loads_of (fun hw => (long_of (lds_op hw)).trans rfl) (destK_scr c sg sz d x pos a).1 sg sz d (fun e _ => e.h.unit) off rfl
      _ (exec_lds · c sg sz d x a) fun s y h hI hP => ⟨_, rfl, fun l _ => ?_, hP⟩
    exact congrArg (fun o => Except.ok (h.unit, o)) (scrOff_eq x a l)
  · refine loads_of (fun hw => (long_of (ldsr_op hw)).trans rfl) (destK_scr c sg sz d x pos a).2 sg sz d unit (fun e l => e.rd .n32 x l) rfl _
      (exec_ldsr · c sg sz d x pos) fun s y h hI hP => ?_
    obtain ⟨place, hbody, hplace⟩ := quad_eq sz x pos _ (unit (seen _ s y h)) fun l hl => (hP l hl).1
    exact ⟨place, hbody, hplace, fun l hl => (hP l hl).2⟩

/-- Settles O23: as O22, with the bytes of each lane's registers written in turn. -/
theorem scratchpadStoresWriteTheirBytes : Obligations.ScratchpadStoresWriteTheirBytes := by
  unfold Obligations.ScratchpadStoresWriteTheirBytes
  intro c sg sz d x pos a off store
  refine ⟨?_, fun unit => ?_⟩
  · refine stores_of (fun hw => (long_of (sts_op hw)).trans rfl) sz d (fun e _ => e.h.unit) off rfl _ (exec_sts · c sg sz d x a)
      fun s y h hI hP => ⟨_, rfl, fun l _ => ?_, hP⟩
    exact congrArg (fun o => Except.ok (h.unit, o)) (scrOff_eq x a l)
  · refine stores_of (fun hw => (long_of (stsr_op hw)).trans rfl) sz d unit (fun e l => e.rd .n32 x l) rfl _
      (exec_stsr · c sg sz d x pos) fun s y h hI hP => ?_
    obtain ⟨place, hbody, hplace⟩ := quad_eq sz x pos _ (unit (seen _ s y h)) fun l hl => (hP l hl).1
    exact ⟨place, hbody, hplace, fun l hl => (hP l hl).2⟩

theorem frees_of_ordReleases {o : Order} (h : ordReleases o = true) : frees o := by
  cases o
  case release => exact .inl rfl
  case both => exact .inr rfl
  case relaxed => cases h
  case acquire => cases h

theorem long_atoms {c : Com} {op : AtomOp} {kind : AtomKind} {sz : Nat} {o : Order} {sc : Scope} {d : Option Dst} {x y : Src}
    (hw : Instr.wf (.atoms c op kind sz o sc d x y) = true) : Instr.long (.atoms c op kind sz o sc d x y) = true :=
  (long_of (Words.atoms c op kind sz o sc d x y hw).1).trans rfl

/-- The destination of ATOMS read back is the value that ACAS's kin compare with (R215). -/
theorem envOf_srcDst {i : Instr} {s : State} {x : Iss} {h : Heat} (t : Ty) (d : Option Dst) (l : Nat) :
    (match d with | some d => (envOf i s x h).srcT t (Dst.src d) l | none => 0) =
      match d with | some (.v n) => reads i s x h t (.v n) l | some (.k n) => reads i s x h t (.k n) l | none => 0 := by
  cases d with
  | none => rfl
  | some d => cases d <;> exact envOf_srcT i s x h t _ l

theorem scrRead_entered (s : State) (x : Iss) (h : Heat) (i : Instr) (k : HeatKey) (f : Heat → Heat) (u off n : Nat) :
    ((entered s x).updHeat k f).scrRead u off n = (seen i s x h).scr u off n := by
  rw [entered_eq s x]
  rfl

/-- What ATOMS does at a lane's word (R215), with the value `cmp` that it compares with. -/
def Env.atomsAt (e : Env) (op : AtomOp) (kind : AtomKind) (sz : Nat) (d : Option Dst) (y : Src) (cmp : Nat → Nat) (s : State) (l u off : Nat) :
    State :=
  let old := ofBytes (s.scrRead u off (2 ^ sz))
  let r := rmwOf op kind sz old (e.srcT (atomTy kind sz) y l) (cmp l)
  let s := (s.scrWrite u off (toBytes (2 ^ sz) r.1)).mergeFlags e.key l r.2
  match e.laneDst d l with
  | some d => s.updHeat e.key (fun h => h.setDst (sz == 3) l d old)
  | none => s

theorem exec_atoms_eq (c : Com) (op : AtomOp) (kind : AtomKind) (sz : Nat) (o : Order) (sc : Scope) (d : Option Dst) (x y : Src) (s : State) :
    exec (.atoms c op kind sz o sc d x y) s = issue (.atoms c op kind sz o sc d x y) s (fun e w =>
      e.releaseAt sc (ordReleases o) w (e.scratch sz (e.own (e.src32 x))
        (e.atomsAt op kind sz d y fun l => match d with | some d => e.srcT (atomTy kind sz) (Dst.src d) l | none => 0))) := rfl

/-- ATOMS of one lane outside a task: the word of the region, and the lane's destination and flags (R215). -/
theorem atomsAt_one {i : Instr} {s : State} {x : Iss} {h : Heat} (hI : Issues i s x h) {l : Nat} (ha : active i x h = [l])
    (ht : (h.lane l).task = none) (op : AtomOp) (kind : AtomKind) (sz : Nat) (y : Src) (cmp : Nat → Nat) (d : Option Dst) (off old : Nat) (r : Nat × Nat)
    (hold : ofBytes ((seen i s x h).scr h.unit off (2 ^ sz)) = old)
    (hr : rmwOf op kind sz old (reads i s x h (atomTy kind sz) y l) (cmp l) = r) :
    let e := seen i s x h
    (envOf i s x h).atomsAt op kind sz d y cmp ((entered s x).updHeat x.key (markOne i e l)) l h.unit off =
      withH (s.scrWrite h.unit off (toBytes (2 ^ sz) r.1)) ((entered s x).updHeat x.key
        (fun g => rmwSet (sz == 3) d l old r.2 (markOne i e l g))).heats := by
  intro e
  have hwrite : ((entered s x).updHeat x.key (markOne i e l)).scrWrite h.unit off (toBytes (2 ^ sz) r.1) =
      withH (s.scrWrite h.unit off (toBytes (2 ^ sz) r.1)) ((entered s x).updHeat x.key (markOne i e l)).heats := by
    simp only [e]
    rw [entered_eq s x]
    rfl
  have hheat : (withH (s.scrWrite h.unit off (toBytes (2 ^ sz) r.1)) ((entered s x).updHeat x.key (markOne i e l)).heats).heat? x.key =
      some (markOne i e l h) := by
    rw [withH_heat?, State.heat?_updHeat_self (entered s x) x.key (markOne i e l) (fun _ => rfl), hI.heat]
    rfl
  have htask : ((markOne i e l h).lane l).task = none := by
    show ((h.updLane l (marked i e)).lane l).task = none
    rw [Heat.lane_updLane]
    split <;> exact ht
  unfold Env.atomsAt
  rw [scrRead_entered s x h i, envOf_srcT, show (envOf i s x h).key = x.key from rfl, hold]
  dsimp only
  rw [hr, hwrite, mergeFlags_none hheat htask,
    withH_updHeat _ _ _ (markOne i e l) _ (fun _ => rfl), laneDst_one ha]
  cases d with
  | none => rfl
  | some d => exact withH_updHeat _ _ _ (fun g => addFlags r.2 (markOne i e l g)) _ (fun _ => rfl)

/-- Settles O30: the one lane's word of the region is replaced, and its destination takes the old value (`atomsAt_one`). -/
theorem scratchpadAtomicsReplaceTheirWord : Obligations.ScratchpadAtomicsReplaceTheirWord := by
  unfold Obligations.ScratchpadAtomicsReplaceTheirWord
  intro c op kind sz o sc d x y l i off old cmp new
  refine scr_acts _ (exec_atoms_eq c op kind sz o sc d x y) l (fun e g => rmwSet (sz == 3) d l (old e) (new e).2 g)
    (fun e g => heatTakes (sz == 3) d (old e) (addFlags (new e).2 g)) (fun e => laneTakes (sz == 3) d (old e))
    (fun e => Sets.rmw (sz == 3) d (old e) l (new e).2) rfl rfl fun s z h hI hP => ?_
  obtain ⟨hact, hscr, htask, hrel⟩ := hP
  have ha : active i z h = [l] := hact
  refine ⟨ha, rfl, false, ?_⟩
  rw [releaseAt_go fun ho => hrel (frees_of_ordReleases ho),
    scratch_eq sz _ (fun _ => h.unit) (fun _ => off (seen i s z h)) _ (fun m hm => ?_) (fun m hm => ?_)]
  · have hcmp := envOf_srcDst (i := i) (s := s) (x := z) (h := h) (atomTy kind sz) d l
    rw [ha, long_atoms (Issues_wf hI), if_pos rfl, mark_one ha, List.foldl_cons, List.foldl_nil]
    exact congrArg (fun t => ({ s := t } : Work)) (atomsAt_one hI ha htask op kind sz y _ d _ _ _ rfl (congrArg _ hcmp))
  · obtain rfl : m = l := List.mem_singleton.1 (ha ▸ hm)
    exact congrArg (fun o => Except.ok (h.unit, o)) (envOf_src32 i s z h x m)
  · exact hscr

end Sys2Proof.Machine
end

section
/-! SUPPORT. Loads and stores of one lane in place (R190, R193, R206, R207, R264, R273, R282), and the statements O24, O25 and O26. -/

namespace Sys2Proof.Machine

open Sys2Proof Sys2Proof.Safe

/-- A lane's element that check() passes lies in a record without a colour, and a local one (R191). -/
theorem checked_colour {e : Seen} {b sz va : Nat} {n : Int} {k : AKind} (h : e.Checked b sz n k va) : recColour (e.rcd b) = 0 := h.2.1

theorem checked_local {e : Seen} {b sz va : Nat} {n : Int} {k : AKind} (h : e.Checked b sz n k va) : recRemote (e.rcd b) = false := h.2.2

theorem size_of_sign {sg : Bool} {sz : Nat} (h : Wf.sign sg sz = true) : 2 ^ sz < 64 :=
  Nat.lt_of_le_of_lt (Nat.pow_le_pow_right (by decide) (Enc.sign_ok h)) (by decide : 2 ^ 4 < 64)

/-- A load of one lane into vector registers, through the L1 or left for a request (R193, R206). -/
theorem load_acts {i : Instr} (sg : Bool) (sz d b l va pa : Nat) (line : List Byte) (P : Seen → Prop) (idx : Env → Nat → Int)
    (hi : ∀ s, exec i s = issue i s (fun e w => e.memory (e.record b) sz (idx e) (fun _ => .load sg sz d) .load w))
    (hwf : i.wf = true → Instr.long i = true ∧ 2 ^ sz < 64) (hk : Instr.destK i = [])
    (hP : ∀ s x h, P (seen i s x h) → (seen i s x h).Place l .read va pa ∧ (seen i s x h).Checked b sz (idx (envOf i s x h) l) .load va) :
    Acts i (fun e => P e ∧ e.s.l1? e.h.core (pa / 64) = some line) Seen.over1
      (fun e => (e.h.flagUp (Seen.flag i e)).flagDown (Seen.flag i e))
      (fun e _ y => (setElem sg sz d (ofBytes ((line.drop (pa % 64)).take (2 ^ sz))) (marked i e y)).advance) ∧
    Acts i (fun e => P e ∧ e.s.l1? e.h.core (pa / 64) = none)
      (fun e => sent e l va pa (e.rcd b) (.load sg sz d) false (opened i e l))
      (fun e => e.h.flagUp (Seen.flag i e)) (fun e _ y => (marked i e y).advance) := by
  have hraised : raised i = fun e => e.h.flagUp (Seen.flag i e) := by
    funext e
    unfold raised
    rw [hk, List.map_nil, List.append_nil]
    rfl
  have hload := fun s x h (hI : Issues i s x h) (hp : P (seen i s x h)) => have ⟨hplace, hC⟩ := hP s x h hp
    load_one hI hplace (h.b256 b) (fun l => check (h.b256 b) sz (idx (envOf i s x h) l) .load) (fun _ => .load sg sz d)
      (fun v g => g.setElem l sg sz d v) hC.1 (checked_colour hC) (checked_local hC) (hwf (Issues_wf hI)).2
      (.inl ⟨sg, sz, d, rfl, rfl⟩) false
  constructor
  · refine served_acts _ hi (fun hw => (hwf hw).1) l (fun _ g => g.setElem l sg sz d (ofBytes ((line.drop (pa % 64)).take (2 ^ sz))))
      (fun _ g => g) (fun _ => setElem sg sz d (ofBytes ((line.drop (pa % 64)).take (2 ^ sz)))) (fun _ => Sets.elem _ _ _ _ _)
      (by rw [hraised]) rfl fun s x h hI hp => ?_
    have hplace := (hP s x h hp.1).1
    exact ⟨hplace.one, hplace.idle, hplace.fresh, false, (hload s x h hI hp.1).1 line hp.2⟩
  · refine sent_acts _ hi (fun hw => (hwf hw).1) l (fun _ g => g) (fun _ _ => rfl) (fun _ _ _ => rfl) (by rw [hraised]) rfl
      (fun e => sentopened_now _ _ _ _ _ _ _ _) fun s x h hI hp => ?_
    exact ⟨(hP s x h hp.1).1.one, false, (hload s x h hI hp.1).2 hp.2⟩

/-- Settles O24: LD and LDG are loads of one lane that differ in their index (`load_acts`). -/
theorem loadsBringTheirElement : Obligations.LoadsBringTheirElement := by
  unfold Obligations.LoadsBringTheirElement
  intro c sg sz d b m g i idx l va pa line hform here
  rcases hform with ⟨rfl, rfl⟩ | ⟨rfl, rfl⟩
  · refine load_acts sg sz d b l va pa line here (fun e => e.index m) (exec_ld · c sg sz d m b) (fun hw => ⟨long_ld hw, ?_⟩) rfl
      fun s x h hp => ⟨hp.1, by rw [envOf_index]; exact hp.2⟩
    have hw : (Wf.com true c && Wf.sign sg sz && Wf.data sz d && Wf.index m && Wf.recReg b) = true := hw
    simp only [Bool.and_eq_true] at hw
    obtain ⟨⟨⟨⟨-, hsign⟩, -⟩, -⟩, -⟩ := hw
    exact size_of_sign hsign
  · refine load_acts sg sz d b l va pa line here (fun e l => gindexOf e.base e.h e.mask l g) (exec_ldg · c sg sz d g b)
      (fun hw => ⟨long_ldg hw, ?_⟩) rfl fun s x h hp => ⟨hp.1, by rw [envOf_gindex]; exact hp.2⟩
    have hw : (Wf.com true c && Wf.sign sg sz && Wf.data sz d && Wf.gindex g && Wf.recReg b) = true := hw
    simp only [Bool.and_eq_true] at hw
    obtain ⟨⟨⟨⟨-, hsign⟩, -⟩, -⟩, -⟩ := hw
    exact size_of_sign hsign

/-- A store through a local record is an access that check() judges (R206). -/
theorem store_local {e : Env} {rcd sz d : Nat} {idx : Nat → Int} {w : Work} (hrem : recRemote rcd = false) :
    e.store rcd sz d idx w = e.memory rcd sz idx (fun l => .store ((e.h.lane l).elemBytes sz d)) .store w := by
  unfold Env.store
  rw [hrem]
  rfl

/-- A store of one lane's registers through a local record (R190, R206). -/
theorem store_acts {i : Instr} {P : Seen → Prop} (sz d b l va pa : Nat) (idx : Env → Nat → Int)
    (hi : ∀ s, exec i s = issue i s (fun e w => e.store (e.record b) sz d (idx e) w)) (hlong : i.wf = true → Instr.long i = false)
    (hsz : i.wf = true → sz ≤ 4)
    (hP : ∀ s x h, P (seen i s x h) → (seen i s x h).Place l .write va pa ∧ (seen i s x h).Checked b sz (idx (envOf i s x h) l) .store va) :
    ActsOn i P (fun e => sent e l va pa (e.rcd b) (.store ((e.h.lane l).elemBytes sz d)) false
      ((opened i e l).storeThrough e.x.key.ctx e.h.core pa ((e.h.lane l).elemBytes sz d))) := by
  refine stores_one _ hi hlong l va pa b (fun e => (e.h.lane l).elemBytes sz d) rfl fun s x h hI hp => ?_
  obtain ⟨hplace, hchk, hcol, hrem⟩ := hP s x h hp
  exact ⟨hplace, elemBytes_length _ _ _ (hsz (Issues_wf hI)), hcol, hrem, _, _, store_local hrem, hchk, rfl⟩

/-- Settles O25: ST and STG store a lane's registers (`store_acts`), and a STREL at heat or core scope comes to one store. -/
theorem storesWriteTheirElementThrough : Obligations.StoresWriteTheirElementThrough := by
  unfold Obligations.StoresWriteTheirElementThrough
  intro c sg sz d b m g sc v i idx bytes l va pa hform
  rcases hform with ⟨rfl, rfl, rfl⟩ | ⟨rfl, rfl, rfl⟩ | ⟨rfl, hsc, rfl, rfl⟩
  · refine store_acts sz d b l va pa (fun e => e.index m) (exec_st · c sg sz d m b) long_st (fun hw => ?_)
      fun s x h ⟨hplace, hchecked, _⟩ => ⟨hplace, by rw [envOf_index]; exact hchecked⟩
    have hw : (Wf.com false c && Wf.sign sg sz && Wf.data sz d && Wf.index m && Wf.recReg b) = true := hw
    simp only [Bool.and_eq_true] at hw
    obtain ⟨⟨⟨⟨-, hsign⟩, -⟩, -⟩, -⟩ := hw
    exact Enc.sign_ok hsign
  · refine store_acts sz d b l va pa (fun e l => gindexOf e.base e.h e.mask l g) (exec_stg · c sg sz d g b) long_stg (fun hw => ?_)
      fun s x h ⟨hplace, hchecked, _⟩ => ⟨hplace, by rw [envOf_gindex]; exact hchecked⟩
    have hw : (Wf.com false c && Wf.sign sg sz && Wf.data sz d && Wf.gindex g && Wf.recReg b) = true := hw
    simp only [Bool.and_eq_true] at hw
    obtain ⟨⟨⟨⟨-, hsign⟩, -⟩, -⟩, -⟩ := hw
    exact Enc.sign_ok hsign
  · refine stores_one _ (exec_strel · c sz sc v m b) long_strel l va pa b
      (fun e => toBytes (2 ^ sz) (if sz = 3 then e.rd .n64 v l else e.rd .n32 v l)) rfl fun s x h hI hP => ?_
    obtain ⟨hplace, ⟨hchk, hcol, hrem⟩, hset⟩ := hP
    have hw : (Wf.com false c && Wf.syncSz sz sc && Wf.read (Wf.szT sz) v && Wf.index m && Wf.recReg b) = true := Issues_wf hI
    simp only [Bool.and_eq_true] at hw
    obtain ⟨⟨⟨⟨-, hsize⟩, -⟩, -⟩, -⟩ := hw
    have hnear : (decide (2 ≤ sc.code)) = false := by simpa using Nat.lt_succ_of_le hsc
    let e := envOf (.strel c sz sc v m b) s x h
    refine ⟨hplace, by rw [toBytes_length]; exact sz_len (Enc.syncSz_ok hsize), hcol, hrem,
      fun l => check (h.b256 b) sz (e.index m l) .store,
      fun l => .store (toBytes (2 ^ sz) (if sz = 3 then e.src64 v l else e.src32 v l)), ?_,
      by dsimp only; rw [envOf_index]; exact hchk, by dsimp only; rw [envOf_src64, envOf_src32]; rfl⟩
    dsimp only
    rw [unrefused (h := h) hcol hrem, if_neg (by decide), irrevocable_none hI hplace _ rfl,
      releaseAt_go (fun _ => by unfold Seen.mayRelease; rw [if_neg (by omega)]; exact hset rfl)]
    simp only [hnear, syncChk_false, Bool.false_eq_true, if_false]
    rfl

/-- Settles O26: a store written through is the L1's patch, then the die's write, then the bank's line; the die's write goes to
the L2 or to the queue. -/
theorem storesGoThroughToTheDie : Obligations.StoresGoThroughToTheDie := by
  unfold Obligations.StoresGoThroughToTheDie
  intro s ctx core pa bs die s1 waits
  have hs1 : s.l1Patch core pa bs = s1 := rfl
  have hown : s1.owns die (pa / 64) = s.owns die (pa / 64) := by rw [← hs1]; unfold State.l1Patch; split <;> rfl
  have hrwq : s1.rwq = s.rwq := by rw [← hs1]; unfold State.l1Patch; split <;> rfl
  have hwaits : (s1.owns die (pa / 64) && !(s1.rwq.any (fun e => e.die == die && e.pa / 64 == pa / 64))) = true ↔ ¬ waits := by
    rw [hown, hrwq]
    simp [waits]
  constructor
  · intro hw
    exact congrArg (fun t : State => t.bankIn ctx core pa) (if_pos (hwaits.2 hw))
  · intro hw
    exact congrArg (fun t : State => t.bankIn ctx core pa) (if_neg fun hc => hwaits.1 hc hw)

end Sys2Proof.Machine
end

section
/-! SUPPORT. Acquiring and uniform loads of one lane in place (R209, R266, R282): when the heat waits for the answer, and the
statement O27. -/

namespace Sys2Proof.Machine

open Sys2Proof Sys2Proof.Safe

/-! Waiting for an answer (R266). -/

/-- A heat that waits for the operation under a number. -/
def Heat.waitingFor (n : Nat) (g : Heat) : Heat := { g with busy := some (.result n) }

/-- An operation that is over keeps no heat waiting. -/
theorem awaitOp_over {w : Work} {id : Nat} (e : Env) (hops : ∀ o ∈ w.s.ops, o.id ≠ id) : w.awaitOp e id = w := by
  have hany : w.s.ops.any (fun o => o.id = id) = false := by
    rw [List.any_eq_false]
    exact fun o ho => by simpa using hops o ho
  unfold Work.awaitOp
  simp only [hany, Bool.and_false, Bool.false_and]
  rfl

/-- An operation under way, of which no lane stands in a colour's queue, keeps its heat waiting. -/
theorem awaitOp_under {w : Work} {e : Env} {id : Nat} {h : Heat} (hstall : w.stall = false) (hops : w.s.ops.any (fun o => o.id = id) = true)
    (hheat : w.s.heat? e.key = some h) (hq : ∀ y ∈ h.lanes, ∀ c a, y.st = .blocked (.colour c a) → a.opId ≠ id) :
    w.awaitOp e id = { w with s := w.s.updHeat e.key (Heat.waitingFor id) } := by
  unfold Work.awaitOp
  dsimp only
  rw [hstall, hops, hheat, if_pos]
  · rfl
  · simp only [Option.map_some, Option.getD_some, Bool.not_false, Bool.true_and, Bool.not_eq_true', List.any_eq_false]
    intro y hy
    split
    · next hst => simpa using hq y hy _ _ hst
    · simp

/-- The heat waits for the operation that it has begun for one lane, whatever became of the rest of the part. -/
theorem awaitOp_begun {i : Instr} {s : State} {x : Iss} {h : Heat} (hI : Issues i s x h) {l va pa : Nat} {use : Use}
    (hP : (seen i s x h).Place l use va pa) (b : State) (hb : b.ops = (opened i (seen i s x h) l).ops) (r : Bool) :
    Work.awaitOp { s := withH b ((entered s x).updHeat x.key (lifted i (seen i s x h) l)).heats, irrev := r } (envOf i s x h) s.nid =
      { s := withH b ((entered s x).updHeat x.key (fun g => (lifted i (seen i s x h) l g).waitingFor s.nid)).heats, irrev := r } := by
  have hops : b.ops.any (fun o => o.id = s.nid) = true := by
    rw [hb]
    simp [opened, seen]
  refine (awaitOp_under rfl hops (begun_heat hI l) fun y hy c a hst => ?_).trans ?_
  · obtain ⟨z, hz, hzst⟩ := lifted_lanes hy
    exact hP.unqueued z hz c a (hzst ▸ hst)
  · exact congrArg (fun t : State => ({ s := t, irrev := r } : Work))
      (withH_updHeat b (entered s x) x.key (lifted i (seen i s x h) l) (Heat.waitingFor s.nid) (fun g => lifted_key _ _ _ g))

theorem wanted_ops (die sec : Nat) (own : Bool) (b : State) : (wanted die sec own b).ops = b.ops := by
  unfold wanted State.ask
  generalize (if own = true then b.owns die sec else b.readable die sec) = q
  cases q
  · dsimp only
    rw [if_neg (by decide)]
    split <;> rfl
  · rfl

theorem sent_ops (e : Seen) (l va pa r : Nat) (op : AccOp) (own : Bool) (b : State) : (sent e l va pa r op own b).ops = b.ops := by
  refine (wanted_ops _ _ _ _).trans ?_
  split <;> rfl

/-! Loads with a destination. -/

/-- A load that acquires its object is left for its request, whatever the L1 holds (R282). -/
theorem acquiring_left {i : Instr} {s : State} {x : Iss} {h : Heat} (hI : Issues i s x h) {l va pa : Nat}
    (hP : (seen i s x h).Place l .read va pa) (rcd : Nat) (chk : Nat → Chk) (op : Nat → AccOp) (hchk : chk l = .va va)
    (hcol : recColour rcd = 0) (hrem : recRemote rcd = false) (hlen : (op l).len < 64) {sz : Nat} {d : Option Dst}
    (hop : op l = .loadDst sz d true) (r : Bool) :
    (envOf i s x h).accessBy rcd chk op { s := entered s x, irrev := r } =
      { s := withH (sent (seen i s x h) l va pa rcd (.loadDst sz d true) false (opened i (seen i s x h) l))
          ((entered s x).updHeat x.key (lifted i (seen i s x h) l)).heats, irrev := r } := by
  have hkey := State.heat?_key hI.heat
  have hrun : (begun i s x h l).laneRun h.key l = none :=
    laneRun_none (by rw [hkey]; exact begun_heat hI l) (by rw [lifted_task]; exact hP.task)
  have hnear : ∀ n q, State.nearAccess h ([], begun i s x h l)
      { lane := l, va := va, pa := pa, op := .loadDst sz d true, opId := s.nid, nopre := n, strm := q } =
      ([{ lane := l, va := va, pa := pa, op := .loadDst sz d true, opId := s.nid, nopre := n, strm := q }], begun i s x h l) := by
    intro n q
    unfold State.nearAccess State.readSig
    dsimp only
    rw [hrun]
    rfl
  rw [accessBy_one hI hP rcd chk op hchk hcol hrem (by rw [hop]; rfl) hlen, hop]
  dsimp only
  rw [hnear]
  dsimp only
  rw [sendReqs_one hkey _ _ _ _ _ _ rfl rfl, begun_withH, sent_withH]
  rfl

/-- LDACQ of one lane is an access for which the heat waits (R282). -/
theorem ldacq_body (c : Com) (sz b : Nat) (sc : Scope) (dst : Dst) (m : Index) : ∃ body : Env → Work → Work,
    (∀ s, exec (.ldacq c sz sc dst m b) s = issue (.ldacq c sz sc dst m b) s body) ∧
    ∀ s x h l va pa, (seen (.ldacq c sz sc dst m b) s x h).Place l .read va pa →
      (seen (.ldacq c sz sc dst m b) s x h).Checked b sz ((seen (.ldacq c sz sc dst m b) s x h).index m l) .load va →
      sc.code ≤ 1 ∨ va % 64 = 0 → ∃ (chk : Nat → Chk) (op : Nat → AccOp),
        body (envOf (.ldacq c sz sc dst m b) s x h) { s := entered s x } =
          ((envOf (.ldacq c sz sc dst m b) s x h).accessBy (h.b256 b) chk op { s := entered s x, irrev := true }).awaitOp
            (envOf (.ldacq c sz sc dst m b) s x h) s.nid ∧
        chk l = .va va ∧ op l = .loadDst sz (some dst) (2 ≤ sc.code) := by
  refine ⟨_, (exec_ldacq · c sz sc dst m b), fun s x h l va pa hplace hC hal => ?_⟩
  obtain ⟨hchk, hcol, hrem⟩ := hC
  let e := envOf (.ldacq c sz sc dst m b) s x h
  refine ⟨fun l => syncChk (2 ≤ sc.code) false (check (h.b256 b) sz (e.index m l) .load),
    fun l => .loadDst sz (e.laneDst (some dst) l) (2 ≤ sc.code), ?_, ?_, ?_⟩
  · dsimp only
    rw [unrefused (h := h) hcol hrem, if_neg (by decide), show (entered s x).nid = s.nid by rw [entered_eq]]
    rfl
  · dsimp only
    rw [envOf_index, show check (h.b256 b) sz ((seen _ s x h).index m l) .load = .va va from hchk]
    rcases hal with hsc | hva
    · rw [show decide (2 ≤ sc.code) = false from decide_eq_false (by omega)]
      exact syncChk_false _ _
    · exact syncChk_va hva
  · dsimp only
    rw [laneDst_one hplace.one]

theorem ldacq_wf {c : Com} {sz b : Nat} {sc : Scope} {dst : Dst} {m : Index} (hw : Instr.wf (.ldacq c sz sc dst m b) = true) :
    Instr.long (.ldacq c sz sc dst m b) = true ∧ (sz = 2 ∨ sz = 3) :=
  ⟨(long_of (Words.ldacq c sz sc dst m b hw).1).trans rfl, ldacq_sz hw⟩

/-- LDACQ at heat or core scope that the L1 serves is over at issue, and no heat waits for it (R282). -/
theorem ldacq_served (c : Com) (sz b : Nat) (sc : Scope) (dst : Dst) (m : Index) (l va pa : Nat) (line : List Byte) (hsc : sc.code ≤ 1) :
    let i : Instr := .ldacq c sz sc dst m b
    let value := ofBytes ((line.drop (pa % 64)).take (2 ^ sz))
    Acts i (fun e => (e.Place l .read va pa ∧ e.Checked b sz (e.index m l) .load va) ∧ e.s.l1? e.h.core (pa / 64) = some line) Seen.over1
      (fun e => (heatTakes (sz == 3) (some dst) value (raised i e)).flagDown (Seen.flag i e))
      (fun e _ y => (laneTakes (sz == 3) (some dst) value (marked i e y)).advance) := by
  intro i value
  obtain ⟨body, hexec, hbody⟩ := ldacq_body c sz b sc dst m
  refine served_acts body hexec (fun hw => (ldacq_wf hw).1) l (fun _ g => g.setDst (sz == 3) l dst value)
    (fun _ => heatTakes (sz == 3) (some dst) value) (fun _ => laneTakes (sz == 3) (some dst) value) (fun _ => Sets.dst _ _ _ _) rfl rfl
    fun s x h hI hP => ?_
  obtain ⟨⟨hplace, hC⟩, hline⟩ := hP
  obtain ⟨chk, op, hb, hchk, hop⟩ := hbody s x h l va pa hplace hC (.inl hsc)
  rw [show decide (2 ≤ sc.code) = false from decide_eq_false (by omega)] at hop
  have hload := (load_one hI hplace (h.b256 b) chk op (fun v g => g.setDst (sz == 3) l dst v) hchk (checked_colour hC) (checked_local hC)
    (by rw [hop]; exact sz_len (ldacq_wf (Issues_wf hI)).2) (.inr (.inl ⟨sz, dst, hop, rfl⟩)) true).1 line hline
  rw [hop] at hload
  refine ⟨hplace.one, hplace.idle, hplace.fresh, true, hb.trans ?_⟩
  have hdone := done_one (i := i) (s := s) (x := x) (h := h) (l := l) hplace.fresh (fun g => g.setDst (sz == 3) l dst value)
    (fun g => by cases dst <;> rfl)
  have hops : ∀ o ∈ (((begun i s x h l).updHeat x.key (fun g => g.setDst (sz == 3) l dst value)).opDone s.nid l).ops, o.id ≠ s.nid := by
    rw [hdone]
    exact hplace.fresh
  rw [hload]
  exact awaitOp_over _ hops

/-- An LDACQ that is left for a request (R282). -/
theorem ldacq_sent (c : Com) (sz b : Nat) (sc : Scope) (dst : Dst) (m : Index) (l va pa : Nat) (P : Seen → Prop)
    (hP : ∀ e, P e → (e.Place l .read va pa ∧ e.Checked b sz (e.index m l) .load va) ∧ (sc.code ≤ 1 ∨ va % 64 = 0))
    (hfar : ∀ e, P e → sc.code ≤ 1 → e.s.l1? e.h.core (pa / 64) = none) :
    let i : Instr := .ldacq c sz sc dst m b
    Acts i P (fun e => sent e l va pa (e.rcd b) (.loadDst sz (some dst) (2 ≤ sc.code)) false (opened i e l))
      (fun e => { raised i e with busy := some (.result e.s.nid) }) (fun e _ y => (marked i e y).advance) := by
  intro i
  obtain ⟨body, hexec, hbody⟩ := ldacq_body c sz b sc dst m
  refine sent_acts body hexec (fun hw => (ldacq_wf hw).1) l (fun e => Heat.waitingFor e.s.nid) (fun _ _ => rfl) (fun _ _ _ => rfl) rfl rfl
    (fun e => sentopened_now _ _ _ _ _ _ _ _) fun s x h hI hp => ?_
  obtain ⟨⟨hplace, hC⟩, hal⟩ := hP _ hp
  obtain ⟨chk, op, hb, hchk, hop⟩ := hbody s x h l va pa hplace hC hal
  refine ⟨hplace.one, true, hb.trans ?_⟩
  have hacc : (envOf i s x h).accessBy (h.b256 b) chk op { s := entered s x, irrev := true } =
      { s := withH (sent (seen i s x h) l va pa (h.b256 b) (.loadDst sz (some dst) (2 ≤ sc.code)) false (opened i (seen i s x h) l))
          ((entered s x).updHeat x.key (lifted i (seen i s x h) l)).heats, irrev := true } := by
    have hlen : (op l).len < 64 := by rw [hop]; exact sz_len (ldacq_wf (Issues_wf hI)).2
    by_cases hsc : sc.code ≤ 1
    · have hnear : decide (2 ≤ sc.code) = false := decide_eq_false (by omega)
      have hload := (load_one hI hplace (h.b256 b) chk op (fun v g => g.setDst (sz == 3) l dst v) hchk (checked_colour hC) (checked_local hC) hlen
        (.inr (.inl ⟨sz, dst, by rw [hop, hnear], rfl⟩)) true).2 (hfar _ hp hsc)
      rw [hop] at hload
      exact hload
    · have hd : decide (2 ≤ sc.code) = true := decide_eq_true (by omega)
      rw [hd] at hop ⊢
      exact acquiring_left hI hplace (h.b256 b) chk op hchk (checked_colour hC) (checked_local hC) hlen hop true
  rw [hacc]
  exact awaitOp_begun hI hplace _ (sent_ops _ _ _ _ _ _ _ _) true

/-- The access of LDK: the index of the lowest active lane, and the word's destination for that lane alone (R209). -/
theorem ldk_body (c : Com) (sz b k : Nat) (m : Index) : ∃ body : Env → Work → Work,
    (∀ s, exec (.ldk c sz k m b) s = issue (.ldk c sz k m b) s body) ∧
    ∀ s x h l va pa, (seen (.ldk c sz k m b) s x h).Place l .read va pa →
      (seen (.ldk c sz k m b) s x h).Checked b sz ((seen (.ldk c sz k m b) s x h).index m l) .load va →
      ∃ (chk : Nat → Chk) (op : Nat → AccOp) (r : Bool), body (envOf (.ldk c sz k m b) s x h) { s := entered s x } =
          (envOf (.ldk c sz k m b) s x h).accessBy (h.b256 b) chk op { s := entered s x, irrev := r } ∧
        chk l = .va va ∧ op l = .loadDst sz (some (.k k)) false := by
  refine ⟨_, (exec_ldk · c sz k m b), fun s x h l va pa hplace hC => ?_⟩
  obtain ⟨hchk, hcol, hrem⟩ := hC
  have hlow := lowest_one (i := .ldk c sz k m b) (s := s) (h := h) hplace.one
  let e := envOf (.ldk c sz k m b) s x h
  refine ⟨fun _ => check (h.b256 b) sz (e.index m e.lowest) .load,
    fun l => .loadDst sz (if l = e.lowest then some (.k k) else none) false, false, ?_, ?_, ?_⟩
  · dsimp only
    rw [show recRemote ((envOf (.ldk c sz k m b) s x h).record b) = false from hrem,
      show recColour ((envOf (.ldk c sz k m b) s x h).record b) = 0 from hcol]
    rfl
  · dsimp only
    rw [hlow, envOf_index]
    exact hchk
  · dsimp only
    rw [hlow, if_pos rfl]

theorem ldk_wf {c : Com} {sz b k : Nat} {m : Index} (hw : Instr.wf (.ldk c sz k m b) = true) :
    Instr.long (.ldk c sz k m b) = true ∧ (sz = 2 ∨ sz = 3) := by
  refine ⟨(long_of (Words.ldk c sz k m b hw).1).trans rfl, ?_⟩
  have hw : (Wf.com true c && (sz == 2 || sz == 3) && decide (k < 64) && Wf.index m && Wf.recReg b) = true := hw
  simp only [Bool.and_eq_true, Bool.or_eq_true, beq_iff_eq] at hw
  obtain ⟨⟨⟨⟨-, hsize⟩, -⟩, -⟩, -⟩ := hw
  exact hsize

/-- LDK, served by the L1 or left for a request (R209). -/
theorem ldk_acts (c : Com) (sz b k : Nat) (m : Index) (l va pa : Nat) (line : List Byte) :
    let i : Instr := .ldk c sz k m b
    let here (e : Seen) : Prop := e.Place l .read va pa ∧ e.Checked b sz (e.index m l) .load va
    let value := ofBytes ((line.drop (pa % 64)).take (2 ^ sz))
    Acts i (fun e => here e ∧ e.s.l1? e.h.core (pa / 64) = some line) Seen.over1
      (fun e => (heatTakes (sz == 3) (some (.k k)) value (raised i e)).flagDown (Seen.flag i e))
      (fun e _ y => (laneTakes (sz == 3) (some (.k k)) value (marked i e y)).advance) ∧
    Acts i (fun e => here e ∧ e.s.l1? e.h.core (pa / 64) = none)
      (fun e => sent e l va pa (e.rcd b) (.loadDst sz (some (.k k)) false) false (opened i e l)) (raised i)
      (fun e _ y => (marked i e y).advance) := by
  intro i here value
  obtain ⟨body, hexec, hbody⟩ := ldk_body c sz b k m
  exact loadDst_acts body hexec ldk_wf b l va pa (.k k) line fun s x h _ ⟨hplace, hC⟩ =>
    ⟨hplace, checked_colour hC, checked_local hC, hbody s x h l va pa hplace hC⟩

/-- Settles O27: LDK is a load with a uniform destination; LDACQ keeps the heat waiting unless the L1 serves it. -/
theorem uniformAndAcquiringLoads : Obligations.UniformAndAcquiringLoads := by
  unfold Obligations.UniformAndAcquiringLoads
  intro c sz b k dst d m sc i l va pa line here value held
  refine ⟨?_, ?_, ?_⟩
  · rintro (⟨rfl, rfl⟩ | ⟨rfl, rfl, hsc⟩)
    · exact (ldk_acts c sz b k m l va pa line).1
    · exact ldacq_served c sz b sc d m l va pa line hsc
  · rintro after (⟨rfl, rfl, rfl⟩ | ⟨rfl, rfl, hsc, rfl⟩)
    · exact (ldk_acts c sz b k m l va pa line).2
    · have hsent := ldacq_sent c sz b sc d m l va pa (fun e => here e ∧ e.s.l1? e.h.core (pa / 64) = none)
        (fun e hp => ⟨hp.1, .inl hsc⟩) (fun e hp _ => hp.2)
      rw [show decide (2 ≤ sc.code) = false from decide_eq_false (by omega)] at hsent
      exact hsent
  · rintro ⟨rfl, hsc⟩
    have hsent := ldacq_sent c sz b sc dst m l va pa (fun e => here e ∧ va % 64 = 0)
      (fun e hp => ⟨hp.1, .inr hp.2⟩) (fun e _ hsc' => absurd hsc (by omega))
    rw [show decide (2 ≤ sc.code) = true by simpa using hsc] at hsent
    exact hsent

end Sys2Proof.Machine
end

section
/-! SUPPORT. Atomics of one lane in place (R212 to R214, R266): the four ways of an atomic, and the statement O28. -/

namespace Sys2Proof.Machine

open Sys2Proof Sys2Proof.Safe

theorem AccOp.rmw_releases (op : AtomOp) (kind : AtomKind) (sz : Nat) (sc : Scope) (o : Order) (y cmp : Nat) (d : Option Dst) :
    (AccOp.rmw op kind sz sc o y cmp d).releases = true ↔ 2 ≤ sc.code ∧ frees o := by
  show (decide (2 ≤ sc.code) && (decide (o = .release) || decide (o = .both))) = true ↔ _
  simp [frees]

/-- A word that performs an atomic of its lane `l` on the word at the index `m` of record register `b`, with operand `y` and
comparand `cmp` (R213). -/
structure IsAtomic (i : Instr) (op : AtomOp) (kind : AtomKind) (sz b : Nat) (o : Order) (sc : Scope) (d : Option Dst) (m : Index) (l : Nat)
    (y cmp : Seen → Nat) (yf cf : Env → Nat → Nat) : Prop where
  exec : ∀ s, exec i s = issue i s (fun e w => e.atomic (e.record b) sz (e.index m) op kind o sc (yf e) (cf e) d w)
  operand : ∀ s x h, yf (envOf i s x h) l = y (seen i s x h)
  comparand : ∀ s x h, cf (envOf i s x h) l = cmp (seen i s x h)
  long : i.wf = true → Instr.long i = true
  size : i.wf = true → sz = 2 ∨ sz = 3

/-- An atomic's lane `l` in place (R191, R214). -/
structure Ready (e : Seen) (sz b : Nat) (o : Order) (sc : Scope) (m : Index) (l va pa : Nat) : Prop where
  place : e.Place l .write va pa
  checked : e.Checked b sz (e.index m l) .rmw va
  may : frees o → e.mayRelease sc
  aligned : o = .relaxed ∨ sc.code ≤ 1 ∨ va % 64 = 0

section
variable {i : Instr} {op : AtomOp} {kind : AtomKind} {sz b : Nat} {o : Order} {sc : Scope} {d : Option Dst} {m : Index} {l va pa : Nat}
  {y cmp : Seen → Nat} {yf cf : Env → Nat → Nat}

/-- The body of an atomic in place: one access, for whose answer the heat waits where it acquires. -/
theorem IsAtomic.body (hA : IsAtomic i op kind sz b o sc d m l y cmp yf cf) {s : State} {x : Iss} {h : Heat} (hI : Issues i s x h)
    (hR : Ready (seen i s x h) sz b o sc m l va pa) : ∃ chk opf,
    (envOf i s x h).atomic ((envOf i s x h).record b) sz ((envOf i s x h).index m) op kind o sc (yf (envOf i s x h)) (cf (envOf i s x h)) d
        { s := entered s x } =
      (let r := (envOf i s x h).accessBy (h.b256 b) chk opf { s := entered s x }
       if ordHolds o then r.awaitOp (envOf i s x h) s.nid else r) ∧
    chk l = .va va ∧ opf l = .rmw op kind sz sc o (y (seen i s x h)) (cmp (seen i s x h)) d := by
  obtain ⟨chk, opf, hb, hchk, hop⟩ := atomic_body hI hR.place b sz m op kind o sc (yf (envOf i s x h)) (cf (envOf i s x h)) d hR.checked
    hR.aligned hR.may
  exact ⟨chk, opf, hb, hchk, by rw [hop, hA.operand, hA.comparand]⟩

/-- An atomic that the L1 serves is over at issue (R213). -/
theorem IsAtomic.served (hA : IsAtomic i op kind sz b o sc d m l y cmp yf cf) (hsc : sc.code ≤ 1) (line : List Byte) (P : Seen → Prop)
    (hP : ∀ e, P e → Ready e sz b o sc m l va pa ∧ e.s.l1? e.h.core (pa / 64) = some line) :
    let old := ofBytes ((line.drop (pa % 64)).take (2 ^ sz))
    let new (e : Seen) : Nat × Nat := rmwOf op kind sz old (y e) (cmp e)
    Acts i P
      (fun e => e.closed (((opened i e l).bankIn e.x.key.ctx e.h.core pa).writeThrough e.h.core pa (toBytes (2 ^ sz) (new e).1)))
      (fun e => (heatTakes (sz == 3) d old { raised i e with nflags := e.h.nflags ||| (new e).2 }).flagDown (Seen.flag i e))
      (fun e _ q => (laneTakes (sz == 3) d old (marked i e q)).advance) := by
  intro old new
  refine closed_acts _ hA.exec hA.long l (fun e g => rmwSet (sz == 3) d l old (new e).2 g)
    (fun e g => heatTakes (sz == 3) d old (addFlags (new e).2 g)) (fun _ => laneTakes (sz == 3) d old)
    (fun e => Sets.rmw (sz == 3) d old l (new e).2) rfl rfl fun s x h hI hp => ?_
  obtain ⟨hR, hline⟩ := hP _ hp
  obtain ⟨chk, opf, hb, hchk, hop⟩ := hA.body hI hR
  refine ⟨hR.place.one, hR.place.idle, (writeThrough_keeps _ _ _ _).2, false, hb.trans ?_⟩
  have hacc := accessBy_one hI hR.place (h.b256 b) chk opf hchk (checked_colour hR.checked) (checked_local hR.checked) (by rw [hop]; rfl)
    (by rw [hop]; exact sz_len (hA.size (Issues_wf hI))) false
  dsimp only at hacc
  rw [hop, rmw_near hI hR.place op kind sz sc o _ _ d _ _ hsc line hline] at hacc
  dsimp only at hacc
  rw [sendReqs_nil] at hacc
  dsimp only
  rw [hacc]
  split
  · exact awaitOp_over _ hR.place.fresh
  · rfl

/-- An atomic whose access is left to the part beyond the L1, which becomes `b`. -/
theorem IsAtomic.left (hA : IsAtomic i op kind sz b o sc d m l y cmp yf cf) (U : Seen → State) (hops : ∀ e, (U e).ops = (opened i e l).ops)
    (hnow : ∀ e, (U e).now = e.s.now) (P : Seen → Prop) (hP : ∀ e, P e → Ready e sz b o sc m l va pa)
    (hacc : ∀ s x h, Issues i s x h → P (seen i s x h) → ∀ chk opf, chk l = .va va →
      opf l = .rmw op kind sz sc o (y (seen i s x h)) (cmp (seen i s x h)) d →
      (envOf i s x h).accessBy (h.b256 b) chk opf { s := entered s x } =
        { s := withH (U (seen i s x h)) ((entered s x).updHeat x.key (lifted i (seen i s x h) l)).heats }) :
    Acts i P U (fun e => e.awaits o (raised i e)) (fun e _ q => (marked i e q).advance) := by
  refine sent_acts _ hA.exec hA.long l (fun e g => e.awaits o g) (fun e g => ?_) (fun e g ls => ?_) rfl rfl hnow fun s x h hI hp => ?_
  · unfold Seen.awaits
    split <;> rfl
  · unfold Seen.awaits
    split <;> rfl
  obtain ⟨chk, opf, hb, hchk, hop⟩ := hA.body hI (hP _ hp)
  refine ⟨(hP _ hp).place.one, false, hb.trans ?_⟩
  rw [hacc s x h hI hp chk opf hchk hop]
  have hwait := awaitOp_begun hI (hP _ hp).place (U (seen i s x h)) (hops _) false
  cases o
  case relaxed => rfl
  case release => rfl
  case acquire => exact hwait
  case both => exact hwait

/-- An atomic at heat or core scope whose sector the L1 does not hold is left for its request (R193). -/
theorem nearAccess_missed {s : State} {x : Iss} {h : Heat} (hI : Issues i s x h) (ht : (h.lane l).task = none) (q : Acc)
    {y cmp : Nat} (hq : { q with lane := l, va := va, pa := pa, op := .rmw op kind sz sc o y cmp d } = q) (hsc : sc.code ≤ 1)
    (hline : s.l1? h.core (pa / 64) = none) : State.nearAccess h ([], begun i s x h l) q = ([q], begun i s x h l) := by
  have hrun : (begun i s x h l).laneRun h.key l = none :=
    laneRun_none (by rw [State.heat?_key hI.heat]; exact begun_heat hI l) (by rw [lifted_task]; exact ht)
  rw [← hq]
  unfold State.nearAccess
  dsimp only
  rw [if_neg (by omega), nearRead_none hrun, show (begun i s x h l).l1? h.core (pa / 64) = none from hline]
  rfl

/-- An atomic at heat or core scope that the L1 does not serve asks for its line (R193). -/
theorem IsAtomic.missed (hA : IsAtomic i op kind sz b o sc d m l y cmp yf cf) (hsc : sc.code ≤ 1) (P : Seen → Prop)
    (hP : ∀ e, P e → Ready e sz b o sc m l va pa ∧ e.s.l1? e.h.core (pa / 64) = none) :
    Acts i P (fun e => sent e l va pa (e.rcd b) (.rmw op kind sz sc o (y e) (cmp e) d) false (opened i e l))
      (fun e => e.awaits o (raised i e)) (fun e _ q => (marked i e q).advance) := by
  refine hA.left _ (fun e => sent_ops _ _ _ _ _ _ _ _) (fun e => sentopened_now _ _ _ _ _ _ _ _) P (fun e hp => (hP e hp).1)
    fun s x h hI hp chk opf hchk hop => ?_
  obtain ⟨hR, hline⟩ := hP _ hp
  have hkey := State.heat?_key hI.heat
  have hacc := accessBy_one hI hR.place (h.b256 b) chk opf hchk (checked_colour hR.checked) (checked_local hR.checked) (by rw [hop]; rfl)
    (by rw [hop]; exact sz_len (hA.size (Issues_wf hI))) false
  have hnr : (AccOp.rmw op kind sz sc o (y (seen i s x h)) (cmp (seen i s x h)) d).releases = false :=
    Bool.eq_false_iff.2 fun hr => absurd ((AccOp.rmw_releases _ _ _ _ _ _ _ _).1 hr).1 (by omega)
  have hno : (AccOp.rmw op kind sz sc o (y (seen i s x h)) (cmp (seen i s x h)) d).owning = false := by
    show decide (2 ≤ sc.code) = false
    simpa using Nat.lt_succ_of_le hsc
  dsimp only at hacc
  rw [hop, nearAccess_missed hI hR.place.task _ rfl hsc hline] at hacc
  dsimp only at hacc
  rw [sendReqs_one hkey _ _ _ _ _ _ hnr rfl, hno, begun_withH, sent_withH] at hacc
  exact hacc

/-- An atomic at die scope or wider that does not release is left for the die's L2, under ownership (R213). -/
theorem IsAtomic.owned (hA : IsAtomic i op kind sz b o sc d m l y cmp yf cf) (hsc : 2 ≤ sc.code) (ho : ¬ frees o) (P : Seen → Prop)
    (hP : ∀ e, P e → Ready e sz b o sc m l va pa) :
    Acts i P (fun e => sent e l va pa (e.rcd b) (.rmw op kind sz sc o (y e) (cmp e) d) true (opened i e l))
      (fun e => e.awaits o (raised i e)) (fun e _ q => (marked i e q).advance) := by
  refine hA.left _ (fun e => sent_ops _ _ _ _ _ _ _ _) (fun e => sentopened_now _ _ _ _ _ _ _ _) P hP
    fun s x h hI hp chk opf hchk hop => ?_
  have hR := hP _ hp
  have hacc := far_one hI hR.place (h.b256 b) chk opf hchk (checked_colour hR.checked) (checked_local hR.checked)
    (by rw [hop]; exact sz_len (hA.size (Issues_wf hI))) (.inl ⟨_, _, _, _, _, _, _, _, hop, hsc⟩) false
  have hnr : (AccOp.rmw op kind sz sc o (y (seen i s x h)) (cmp (seen i s x h)) d).releases = false :=
    Bool.eq_false_iff.2 fun hr => ho ((AccOp.rmw_releases _ _ _ _ _ _ _ _).1 hr).2
  have hown : (AccOp.rmw op kind sz sc o (y (seen i s x h)) (cmp (seen i s x h)) d).owning = true := decide_eq_true hsc
  dsimp only at hacc
  rw [hop, sendReqs_one (State.heat?_key hI.heat) _ _ _ _ _ _ hnr rfl, hown, begun_withH, sent_withH] at hacc
  exact hacc

/-- A releasing atomic at die scope or wider enters the core's queue of releases (R214). -/
theorem IsAtomic.released (hA : IsAtomic i op kind sz b o sc d m l y cmp yf cf) (hsc : 2 ≤ sc.code) (ho : frees o) (P : Seen → Prop)
    (hP : ∀ e, P e → Ready e sz b o sc m l va pa) :
    Acts i P (fun e => (opened i e l).enqueueRel
        { origin := e.h.core, ctx := e.x.key.ctx, scope := sc, obj := some pa
          val := .rmw e.x.key [{ lane := l, va := va, pa := pa, op := .rmw op kind sz sc o (y e) (cmp e) d, opId := e.s.nid
                                 nopre := recNopre (e.rcd b), strm := recStream (e.rcd b) }] })
      (fun e => e.awaits o (raised i e)) (fun e _ q => (marked i e q).advance) := by
  refine hA.left _ (fun e => enqueueRel_ops _ _) (fun e => enqueueRel_now _ _) P hP fun s x h hI hp chk opf hchk hop => ?_
  have hR := hP _ hp
  have hacc := far_one hI hR.place (h.b256 b) chk opf hchk (checked_colour hR.checked) (checked_local hR.checked)
    (by rw [hop]; exact sz_len (hA.size (Issues_wf hI))) (.inl ⟨_, _, _, _, _, _, _, _, hop, hsc⟩) false
  dsimp only at hacc
  rw [sendReqs_rel (State.heat?_key hI.heat) _ _ _ (.inl ⟨_, _, _, _, _, _, _, _, hop, hsc, ho⟩), hop, begun_withH, enqueueRel_withH] at hacc
  exact hacc

end

theorem atom_isAtomic (c : Com) (op : AtomOp) (kind : AtomKind) (sz b : Nat) (o : Order) (sc : Scope) (d : Option Dst) (m : Index) (a : Src)
    (l : Nat) : IsAtomic (.atom c op kind sz o sc d m a b) op kind sz b o sc d m l (fun e => e.rd (atomTy kind sz) a l) (fun _ => 0)
      (fun e => e.srcT (atomTy kind sz) a) (fun _ _ => 0) where
  exec := (exec_atom · c op kind sz o sc d m a b)
  operand s x h := envOf_srcT _ s x h _ a l
  comparand _ _ _ := rfl
  long hw := (long_of (Words.atom c op kind sz o sc d m a b hw).1).trans rfl
  size hw := by
    have hw : (Wf.com true c && decide (op ≠ .cas) && Wf.atomKind op kind sz && Wf.syncShape o sc kind sz && Wf.opt (Wf.dst (Wf.szT sz)) d &&
      Wf.index m && Wf.read (Wf.szT sz) a && Wf.recReg b) = true := hw
    simp only [Bool.and_eq_true] at hw
    obtain ⟨⟨⟨⟨⟨⟨-, hkind⟩, -⟩, -⟩, -⟩, -⟩, -⟩ := hw
    exact Enc.atomSz_ok hkind

theorem acas_isAtomic (c : Com) (sz b : Nat) (o : Order) (sc : Scope) (t : Dst) (m : Index) (a : Src) (l : Nat) :
    IsAtomic (.acas c sz o sc t m a b) .cas .unsigned sz b o sc (some t) m l (fun e => e.rd (atomTy .unsigned sz) a l)
      (fun e => e.rd (atomTy .unsigned sz) (match t with | .v n => .v n | .k n => .k n) l)
      (fun e => e.srcT (atomTy .unsigned sz) a) (fun e => e.srcT (atomTy .unsigned sz) (Dst.src t)) where
  exec := (exec_acas · c sz o sc t m a b)
  operand s x h := envOf_srcT _ s x h _ a l
  comparand s x h := envOf_srcT _ s x h _ (Dst.src t) l
  long hw := (long_of (Words.acas c sz o sc t m a b hw).1).trans rfl
  size hw := by
    have hw : (Wf.com true c && (sz == 2 || sz == 3) && Wf.syncShape o sc .unsigned sz && Wf.dst (Wf.szT sz) t && Wf.index m &&
      Wf.read (Wf.szT sz) a && Wf.recReg b) = true := hw
    simp only [Bool.and_eq_true, Bool.or_eq_true, beq_iff_eq] at hw
    obtain ⟨⟨⟨⟨⟨⟨-, hsz⟩, -⟩, -⟩, -⟩, -⟩, -⟩ := hw
    exact hsz

/-- Settles O28: ATOM and ACAS are atomics (`IsAtomic`) that differ in their comparand, and each way of an atomic is one lemma. -/
theorem atomicsReplaceTheirWord : Obligations.AtomicsReplaceTheirWord := by
  unfold Obligations.AtomicsReplaceTheirWord
  intro c op kind sz b o sc d t m a i cmp l va pa line hform y acc here old new leaves
  obtain ⟨yf, cf, hA⟩ : ∃ yf cf, IsAtomic i op kind sz b o sc d m l y cmp yf cf := by
    rcases hform with ⟨rfl, rfl⟩ | ⟨rfl, rfl, rfl, rfl, rfl⟩
    · exact ⟨_, _, atom_isAtomic c op kind sz b o sc d m a l⟩
    · exact ⟨_, _, acas_isAtomic c sz b o sc t m a l⟩
  have hready : ∀ e, here e → (o = .relaxed ∨ sc.code ≤ 1 ∨ va % 64 = 0) → Ready e sz b o sc m l va pa := by
    rintro e ⟨hplace, hchecked, hmay⟩ haligned
    exact ⟨hplace, hchecked, hmay, haligned⟩
  refine ⟨fun hsc => ⟨?_, ?_⟩, fun hsc ho => ?_, fun hsc ho => ?_⟩
  · exact hA.served hsc line _ fun e hp => ⟨hready e hp.1 (.inr (.inl hsc)), hp.2⟩
  · exact hA.missed hsc _ fun e hp => ⟨hready e hp.1 (.inr (.inl hsc)), hp.2⟩
  · exact hA.owned hsc ho _ fun e hp => hready e hp.1 (hp.2.imp_right .inr)
  · exact hA.released hsc ho _ fun e hp => hready e hp.1 (.inr (.inr hp.2))

end Sys2Proof.Machine
end

section
/-! SUPPORT. Maintenance and hints (R210, R211) and BLD.mem (R203), and the statements O31 and O32. -/

namespace Sys2Proof.Machine

open Sys2Proof Sys2Proof.Safe

/-! What the caches do neither sees the heats nor moves the clock. -/

/-- A change of the state that neither sees the heats nor moves the clock. -/
structure Heatless (f : State → State) : Prop where
  heats : ∀ b H, f (withH b H) = withH (f b) H
  now : ∀ b, (f b).now = b.now

theorem Heatless.foldl {α : Type} {f : State → α → State} (h : ∀ a, Heatless (f · a)) (l : List α) : Heatless (fun s => l.foldl f s) where
  heats b H := foldl_withH f H (fun b a => (h a).heats b H) l b
  now b := by
    induction l generalizing b with
    | nil => rfl
    | cons a l ih => exact (ih (f b a)).trans ((h a).now b)

/-- A word that changes the part as `f` does, and no heat. -/
theorem actsOn_heatless {i : Instr} {P : Seen → Prop} (body : Env → Work → Work) (hi : ∀ s, exec i s = issue i s body) (f : Seen → State → State)
    (hf : ∀ e, Heatless (f e))
    (hb : ∀ s x h, Issues i s x h → P (seen i s x h) → body (envOf i s x h) { s := entered s x } = { s := f (seen i s x h) (entered s x) }) :
    ActsOn i P (fun e => f e e.s) := by
  refine actsOn_of body hi fun s x h hI hP => ⟨_, hb s x h hI hP, rfl, rfl, rfl, ?_⟩
  have hentered : entered s x = withH s (entered s x).heats := entered_eq s x
  have hnow := (hf (seen i s x h)).now s
  dsimp only
  rw [hentered, (hf _).heats, ← hnow]
  rfl

theorem l1Drop_heatless (core : Nat) (p : Nat → Bool) : Heatless (State.l1Drop · core p) := ⟨fun _ _ => rfl, fun _ => rfl⟩

theorem ask_heatless (die sec : Nat) (own : Bool) : Heatless (State.ask · die sec own) :=
  ⟨fun b H => ask_withH b H die sec own, fun b => ask_now b die sec own⟩

theorem roomL1_heatless (core line : Nat) : Heatless (State.roomL1 · core line) where
  heats b H := by
    unfold State.roomL1
    dsimp only
    rw [show (withH b H).l1Lines core = b.l1Lines core from rfl, show (withH b H).l1Stream = b.l1Stream from rfl,
      show ∀ l : List Nat, (withH b H).anyOf l = b.anyOf l from fun _ => rfl]
    split
    · rfl
    · split <;> rfl
  now b := by
    unfold State.roomL1
    dsimp only
    split
    · rfl
    · split <;> rfl

theorem fillL1_heatless (core sec : Nat) (strm : Bool) : Heatless (State.fillL1 · core sec strm) where
  heats b H := by
    unfold State.fillL1
    dsimp only
    rw [(roomL1_heatless core (sec / 4)).heats]
    rfl
  now b := (roomL1_heatless core (sec / 4)).now b

theorem prefetch_heatless (core : Nat) (l2 strm : Bool) (line : Nat) : Heatless (State.prefetch · core l2 strm line) := by
  refine Heatless.foldl (fun j => ⟨fun b H => ?_, fun b => ?_⟩) (upto 4)
  · dsimp only
    rw [show (withH b H).poisoned (64 * (4 * line + j)) 64 = b.poisoned (64 * (4 * line + j)) 64 from rfl,
      show (withH b H).copyOwned (4 * line + j) = b.copyOwned (4 * line + j) from rfl,
      show (withH b H).readable (dieOf core) (4 * line + j) = b.readable (dieOf core) (4 * line + j) from rfl,
      show (withH b H).l1? core (4 * line + j) = b.l1? core (4 * line + j) from rfl, (fillL1_heatless _ _ _).heats, (ask_heatless _ _ _).heats]
    split
    · rfl
    · split
      · split <;> rfl
      · rfl
  · dsimp only
    split
    · rfl
    · split
      · split
        · rfl
        · exact (fillL1_heatless _ _ _).now b
      · exact (ask_heatless _ _ _).now b

theorem setL2_heatless (die sec : Nat) (y : L2Line) : Heatless (State.setL2 · die sec y) := ⟨fun _ _ => rfl, fun _ => rfl⟩

theorem Heatless.comp {f g : State → State} (hg : Heatless g) (hf : Heatless f) : Heatless (fun s => g (f s)) :=
  ⟨fun b H => (congrArg g (hf.heats b H)).trans (hg.heats _ H), fun b => (hg.now _).trans (hf.now b)⟩

/-- The states of a dirty copy that is written back and of its entry in the directory (R211). -/
def cleanedStates (st : L2St) : L2St × DirSt := match st with | .m => (.e, .e) | .o => (.s, .s) | _ => (.clean, .s)

/-- The home's copy of a sector that is written back from another die (R211). -/
def State.cleanHome (s : State) (sec : Nat) (data : List Byte) : State := match s.l2? (homeOf (64 * sec)) sec with
  | some y => s.setL2 (homeOf (64 * sec)) sec { y with st := .clean, data := data }
  | none => s

/-- A die's dirty copy of a sector marked clean (R211). -/
def State.cleanCopy (s : State) (sec d : Nat) (x : L2Line) : State :=
  let t := s.setL2 d sec { x with st := (cleanedStates x.st).1 }
  if d = homeOf (64 * sec) then t
  else
    let t := t.cleanHome sec x.data
    { t with dir := Tbl.set t.dir sec ({ holders := Tbl.set (t.holders sec) d (cleanedStates x.st).2 } : DirEntry) }

/-- The dies whose L2 holds a sector dirty. -/
def State.dirtyDies (s : State) (sec : Nat) : List Nat := (upto 4).filter (fun d => match s.l2? d sec with
  | some x => x.st = .m ∨ x.st = .o ∨ x.st = .dirty
  | none => false)

/-- A sector's bytes written to its home memory where a die holds it dirty (R211). -/
def State.writeHome (s : State) (sec : Nat) : State :=
  if (s.dirtyDies sec).isEmpty then s else { s with mem := writeBytes s.mem (64 * sec) (s.cohSector sec) }

/-- Each dirty copy that stands is marked clean. -/
def State.cleanDie (sec : Nat) (s : State) (d : Nat) : State := match s.l2? d sec with
  | none => s
  | some x => s.cleanCopy sec d x

theorem cleanSector_eq (s : State) (sec : Nat) : s.cleanSector sec = (s.dirtyDies sec).foldl (State.cleanDie sec) (s.writeHome sec) := rfl

theorem cleanHome_heatless (sec : Nat) (data : List Byte) : Heatless (State.cleanHome · sec data) where
  heats b H := by
    unfold State.cleanHome
    rw [show (withH b H).l2? (homeOf (64 * sec)) sec = b.l2? (homeOf (64 * sec)) sec from rfl]
    split <;> rfl
  now b := by
    unfold State.cleanHome
    split <;> rfl

theorem cleanCopy_heatless (sec d : Nat) (x : L2Line) : Heatless (State.cleanCopy · sec d x) := by
  have hcopy := (cleanHome_heatless sec x.data).comp (setL2_heatless d sec { x with st := (cleanedStates x.st).1 })
  constructor
  · intro b H
    unfold State.cleanCopy
    dsimp only
    rw [hcopy.heats b H]
    split <;> rfl
  · intro b
    unfold State.cleanCopy
    dsimp only
    split
    · rfl
    · exact hcopy.now b

theorem cleanDie_heatless (sec d : Nat) : Heatless (State.cleanDie sec · d) where
  heats b H := by
    unfold State.cleanDie
    rw [show (withH b H).l2? d sec = b.l2? d sec from rfl]
    split
    · rfl
    · exact (cleanCopy_heatless sec d _).heats b H
  now b := by
    unfold State.cleanDie
    split
    · rfl
    · exact (cleanCopy_heatless sec d _).now b

theorem writeHome_heatless (sec : Nat) : Heatless (State.writeHome · sec) where
  heats b H := by
    unfold State.writeHome
    rw [show (withH b H).dirtyDies sec = b.dirtyDies sec from rfl]
    split <;> rfl
  now b := by
    unfold State.writeHome
    split <;> rfl

theorem cleanSector_heatless (sec : Nat) : Heatless (State.cleanSector · sec) where
  heats b H := by
    rw [cleanSector_eq, (writeHome_heatless sec).heats]
    exact (Heatless.foldl (cleanDie_heatless sec) (b.dirtyDies sec)).heats _ H
  now b := by
    rw [cleanSector_eq]
    exact ((Heatless.foldl (cleanDie_heatless sec) (b.dirtyDies sec)).now _).trans ((writeHome_heatless sec).now b)

/-! One lane's line. -/

/-- CMAINT of one lane in place acts on the line of its element (R211). -/
theorem maintain_one {i : Instr} {s : State} {x : Iss} {h : Heat} {l va pa : Nat} (ha : active i x h = [l]) (sz : Nat) (m : Index) (b : Nat)
    (hrem : recRemote (h.b256 b) = false) (hchk : check (h.b256 b) sz ((seen i s x h).index m l) .load = .va va)
    (hat : (seen i s x h).At .read va pa) (f : State → Nat → State) :
    (envOf i s x h).maintain sz m b f { s := entered s x } = { s := f (entered s x) (pa / 256) } := by
  obtain ⟨p, hm, hpa⟩ := hat
  have htr : State.translateAccs x.key.ctx h.core .read [{ lane := l, va := va, op := .load false sz 0 }] [] (entered s x) =
      ([({ lane := l, va := va, pa := pa, op := .load false sz 0 }, .ok pa)], entered s x) := by
    have hm' : Mapped (entered s x) x.key.ctx h.core (va / 256 * 256) .read p := by rw [entered_eq]; exact Mapped.congr rfl rfl hm
    unfold State.translateAccs
    dsimp only [Tbl.find?]
    rw [translate_mapped hm', hpa]
    rfl
  have hlist : (envOf i s x h).act.map (fun l => (l, check (h.b256 b) sz ((envOf i s x h).index m l) .load)) = [(l, Chk.va va)] := by
    rw [show (envOf i s x h).act = [l] from ha, List.map_cons, List.map_nil, envOf_index]
    exact congrArg (fun c => [(l, c)]) hchk
  unfold Env.maintain
  dsimp only
  rw [show (envOf i s x h).record b = h.b256 b from rfl, hrem, hlist, Bool.false_and, if_neg (by decide)]
  dsimp only [List.foldl_cons, List.foldl_nil, List.filterMap_cons, List.filterMap_nil]
  rw [show (envOf i s x h).ctx = x.key.ctx from rfl, show (envOf i s x h).core = h.core from rfl, htr]
  rfl


/-- An element that check() passes has a well-formed record of its size (R191). -/
theorem fits_of_check {r sz va : Nat} {n : Int} {k : AKind} (h : check r sz n k = .va va) : (recBad r || decide (sz ≠ recSize r)) = false := by
  by_contra hbad
  rw [Bool.not_eq_false] at hbad
  unfold check at h
  dsimp only at h
  rw [if_pos hbad] at h
  cases h

/-- Settles O31: each word's change of the caches is one of the heatless ones, at the line of the lane's element. -/
theorem maintenanceWordsActOnTheirLine : Obligations.MaintenanceWordsActOnTheirLine := by
  unfold Obligations.MaintenanceWordsActOnTheirLine
  intro c l2 sz b m l va pa here
  refine ⟨?_, ?_, ?_, ?_, ?_⟩
  · refine actsOn_heatless _ (exec_cmaintInvall · c) (fun e s => s.l1Drop e.h.core (fun _ => true)) (fun e => l1Drop_heatless _ _)
      fun s x h hI hact => ?_
    exact if_neg fun hnil => hact (List.isEmpty_iff.1 hnil)
  · refine actsOn_heatless _ (exec_cmaintInv · c sz m b) (fun e s => s.l1Drop e.h.core (fun q => q / 4 == pa / 256)) (fun e => l1Drop_heatless _ _)
      fun s x h hI ⟨⟨ha, hrem, hchk⟩, hat⟩ => ?_
    exact maintain_one ha sz m b hrem hchk hat _
  · refine actsOn_heatless _ (exec_cmaintWb · c sz m b) (fun e s => (upto 4).foldl (fun s j => s.cleanSector (4 * (pa / 256) + j)) s)
      (fun e => Heatless.foldl (fun j => cleanSector_heatless _) (upto 4)) fun s x h hI ⟨⟨ha, hrem, hchk⟩, hat⟩ => ?_
    exact maintain_one ha sz m b hrem hchk hat _
  · refine actsOn_heatless _ (exec_pref · c l2 sz m b) (fun e s => s.prefetch e.h.core l2 (recStream (e.rcd b)) (pa / 256))
      (fun e => prefetch_heatless _ _ _ _) fun s x h hI ⟨⟨ha, hrem, hchk⟩, hpeek⟩ => ?_
    have hgo : ¬ (recBad (h.b256 b) || decide (sz ≠ recSize (h.b256 b)) || recRemote (h.b256 b)) = true := by
      rw [show (recBad (h.b256 b) || decide (sz ≠ recSize (h.b256 b))) = false from fits_of_check hchk, show recRemote (h.b256 b) = false from hrem]
      decide
    have hc : check (h.b256 b) sz ((envOf (.pref c l2 sz m b) s x h).index m l) .load = .va va := by rw [envOf_index]; exact hchk
    have hp : (entered s x).peek x.key.ctx (h.core / 64) va .read = .ok pa := by rw [entered_eq]; exact hpeek
    refine (if_neg hgo).trans ?_
    rw [show (envOf (.pref c l2 sz m b) s x h).record b = h.b256 b from rfl, show (envOf (.pref c l2 sz m b) s x h).act = [l] from ha,
      List.filterMap_cons, List.filterMap_nil, hc]
    dsimp only
    rw [show (entered s x).peek (envOf (.pref c l2 sz m b) s x h).ctx (envOf (.pref c l2 sz m b) s x h).die va .read = _ from hp]
    rfl
  · refine actsOn_heatless _ (exec_pref · c l2 sz m b) (fun _ s => s) (fun e => ⟨fun _ _ => rfl, fun _ => rfl⟩) fun s x h hI hbad => ?_
    refine if_pos ?_
    show (recBad (h.b256 b) || decide (sz ≠ recSize (h.b256 b)) || recRemote (h.b256 b)) = true
    simp only [Bool.or_eq_true, decide_eq_true_eq]
    exact or_assoc.2 hbad

/-! BLD.mem. -/

/-- The lanes of no task leave no mark in a read signature (R365). -/
theorem readSig_none {s : State} {k : HeatKey} {h : Heat} (hh : s.heat? k = some h) (pa : Nat) (ls : List Nat)
    (ht : ∀ l ∈ ls, (h.lane l).task = none) : ls.foldl (fun s l => s.readSig k l pa) s = s := by
  induction ls with
  | nil => rfl
  | cons l ls ih =>
    have hrun : s.readSig k l pa = s := by
      unfold State.readSig
      rw [laneRun_none hh (ht l (List.mem_cons_self ..))]
    rw [List.foldl_cons, hrun]
    exact ih fun m hm => ht m (List.mem_cons_of_mem _ hm)

/-- A load that the L1 serves reads the sector's bytes, outside a task (R190). -/
theorem loadNow_hit {s : State} {k : HeatKey} {core l pa : Nat} {line : List Byte} (hrun : s.laneRun k l = none)
    (hline : s.l1? core (pa / 64) = some line) (n : Nat) : s.loadNow k core l pa n = some ((line.drop (pa % 64)).take n, s) := by
  unfold State.loadNow
  dsimp only
  rw [hline, hrun]
  rfl

/-- The lane that the bodies take as lowest is active. -/
theorem lowest_mem {i : Instr} {s : State} {x : Iss} {h : Heat} (ha : (seen i s x h).act ≠ []) :
    (envOf i s x h).lowest ∈ (seen i s x h).act := by
  show (active i x h).headD 0 ∈ active i x h
  rw [List.headD_eq_head?_getD, List.head?_eq_some_head (show active i x h ≠ [] from ha)]
  exact List.head_mem ha

/-- Settles O32: the record's sector stands in the L1, so its bytes are read at once and written to the record register. -/
theorem bldMemReadsARecord : Obligations.BldMemReadsARecord := by
  unfold Obligations.BldMemReadsARecord
  intro c d n a pa line va
  let i : Instr := .bldMem c d a n
  refine short_acts _ (exec_bldMem · c d a n) (fun _ g => g.setB d (ofBytes ((line.drop (pa % 64)).take 32))) (fun _ _ => rfl) (fun _ _ => rfl)
    (fun _ _ _ _ _ => rfl) (fun _ => rfl) fun s x h hI hP => ⟨false, ?_⟩
  obtain ⟨hact, halign, hcan, hmap, hdebug, hown, hline, htask⟩ := hP
  have hva : ((envOf i s x h).src64 a (envOf i s x h).lowest + 32 * n) % 2 ^ 64 = va (seen i s x h) := by rw [envOf_src64]; rfl
  have hmap' : Mapped (entered s x) x.key.ctx h.core (va (seen i s x h)) .read pa := by
    rw [entered_eq]
    exact Mapped.congr rfl rfl hmap
  have hl1 : (entered s x).l1? h.core (pa / 64) = some line := by rw [entered_eq]; exact hline
  have hclear : (entered s x).ownPending x.key (pa / 64) = false := by
    refine (ownPending_congr (s := s) (by rw [entered_eq]) (by rw [entered_eq]) _ _ ?_).trans hown
    rw [hI.heat, entered_core hI.heat]
    rfl
  have hload := loadNow_hit (laneRun_none hI.heat (htask _ (lowest_mem hact))) hl1 32
  have hdebug' : h.debug = false := hdebug
  dsimp only
  rw [if_neg (act_ne hact), hva, if_neg (by rw [halign]; decide), targetCanonical hcan, Bool.not_true, if_neg (by decide)]
  rw [show (envOf i s x h).ctx = x.key.ctx from rfl, show (envOf i s x h).die = dieOf h.core from rfl, show (envOf i s x h).core = h.core from rfl,
    show (envOf i s x h).key = x.key from rfl, show (envOf i s x h).h = h from rfl, translate_mapped hmap']
  dsimp only
  rw [hl1, hdebug', hclear, hload]
  simp only [Option.isNone_some, Bool.and_false, Bool.false_and, Bool.or_false, Bool.false_eq_true, if_false]
  rw [show (envOf i s x h).act = (seen i s x h).act from rfl, readSig_none hI.heat pa _ htask]
  refine (if_neg (act_ne hact)).trans ?_
  rw [entered_eq s x]
  rfl

end Sys2Proof.Machine
end

section
/-! SUPPORT. The answers to requests (R190, R193, R200, R206, R224, R225), and the statement O46. -/

namespace Sys2Proof.Machine

open Sys2Proof Sys2Proof.Safe

/-- A load's line that has come back stands in the L1 with the bytes of the die's L2 (R190). -/
theorem fillL1_line (s : State) (core sec : Nat) (strm : Bool) : (s.fillL1 core sec strm).l1? core sec = some (s.dieSector (dieOf core) sec) := by
  have hroom : (s.roomL1 core (sec / 4)).dieSector (dieOf core) sec = s.dieSector (dieOf core) sec := by
    unfold State.roomL1
    dsimp only
    split
    · rfl
    · split <;> rfl
  rw [← hroom]
  exact Tbl.find?_set_self _ _ _

theorem fillL1_laneRun (s : State) (core sec : Nat) (strm : Bool) (k : HeatKey) (l : Nat) :
    (s.fillL1 core sec strm).laneRun k l = s.laneRun k l := by
  unfold State.fillL1 State.roomL1
  dsimp only
  split
  · rfl
  · split <;> rfl

/-- A load that misses the L1 takes its element from the line that has come back (R193, R206). -/
theorem answer_load {s : State} {r : Req} {a : Acc} {sg : Bool} {sz d : Nat} (hop : a.op = .load sg sz d)
    (hline : s.l1? r.core (a.pa / 64) = none) (hrun : s.laneRun r.key a.lane = none) :
    State.answer r s a = ((s.fillL1 r.core (a.pa / 64) r.stream).updHeat r.key (fun h => h.updLane a.lane (setElem sg sz d
      (ofBytes (((s.dieSector (r.core / 64) (a.pa / 64)).drop (a.pa % 64)).take a.op.len))))).opDone a.opId a.lane := by
  have hread : (s.fillL1 r.core (a.pa / 64) r.stream).nearRead r.key r.core a =
      some (((s.dieSector (r.core / 64) (a.pa / 64)).drop (a.pa % 64)).take a.op.len) := by
    rw [nearRead_none ((fillL1_laneRun _ _ _ _ _ _).trans hrun), fillL1_line]
    rfl
  unfold State.answer
  dsimp only
  rw [hline, hop]
  dsimp only [Option.isSome_none]
  rw [if_neg (by decide), hread]
  unfold State.finishLoad
  rw [hop]
  rfl

/-- A store's lane is done (R190). -/
theorem answer_store {s : State} {r : Req} {a : Acc} {b : List Byte} (hop : a.op = .store b) : State.answer r s a = s.opDone a.opId a.lane := by
  unfold State.answer
  rw [hop]

/-- A copy's element is written to scratchpad (R220). -/
theorem answer_copyIn {s : State} {r : Req} {a : Acc} {sz off : Nat} {h : Heat} (hop : a.op = .copyIn sz off) (hh : s.heat? r.key = some h) :
    State.answer r s a = (s.copyElem a off (fun t => t.scrWrite h.unit off (t.dieRead (dieOf r.core) a.pa (2 ^ sz)))).opDone a.opId a.lane := by
  unfold State.answer
  rw [hop, hh]

/-- The write of a copied element depends on the state in which it happens. -/
theorem copyElem_congr {s : State} {f g : State → State} (h : f s = g s) (a : Acc) (place : Nat) : s.copyElem a place f = s.copyElem a place g := by
  unfold State.copyElem
  split
  · exact h
  · rw [h]

/-- The answer to a request of one access that reads no poisoned sector, the line's victim evicted first (R190, R193). -/
theorem respond_one {s : State} {n : Nat} {v : Option Nat} {p : Reply} {r : Req} {a : Acc} (hreq : s.reqs.find? (fun q => q.id = n) = some r)
    (hlocal : r.remote = none) (haccs : r.accs = [a]) (hread : s.readable (r.core / 64) (a.pa / 64) = true) (hpoison : s.poison = [])
    (hown : a.op.owning = false) (hwhole : r.copy = false → s.copyOwned (a.pa / 64) = false ∨ a.reads = false)
    (hturn : r.copy = true → s.copyBehind r = false) (hout : ∀ sz off, a.op ≠ .copyOut sz off) :
    exec (.memoryResponse n v p) s = .next (((State.answer r (evicted r.core v s) a).freeReq r).flushAll) := by
  obtain ⟨tread, tpoison, towned, tbehind, -, -, -⟩ := dropped_ok s r.core v
  rw [respond_eq hreq hlocal, respondLocal_one haccs ((tread _ _).trans hread) (tpoison.trans hpoison) hown
    (fun hc => (hwhole hc).imp_left (towned _).trans) (fun hc => (tbehind r).trans (hturn hc)) hout]

/-- A CPYW's add at die scope or wider needs no line of the L1, and is a release (R225). -/
theorem cpywStep_far {s : State} {key : HeatKey} {h : Heat} {w : PendCpyw} {rest : List PendCpyw} {a : Acc} {y sz : Nat} {sc : Scope}
    (hh : s.heat? key = some h) (hq : h.cpyw = w :: rest) (haccs : w.accs = [a]) (hop : a.op = .cpyw y sz sc) (hsc : 2 ≤ sc.code)
    (hdone : ∀ q ∈ s.ops, q.isCopy = true → q.key = key → w.before ≤ q.id) :
    s.cpywStep key = ((s.updHeat key (fun x => { x with cpyw := rest })).enqueueRel
      { origin := h.core, ctx := h.key.ctx, scope := sc, obj := some a.pa, cpyw := some (h.key, a.opId)
        val := .rmw h.key [{ a with op := .rmw .add .unsigned sz sc .release y 0 none }] }).retryReleases key := by
  have hgo : ¬ s.ops.any (fun o => o.isCopy && decide (o.key = key) && decide (o.id < w.before)) = true := by
    simp only [List.any_eq_true, Bool.and_eq_true, decide_eq_true_eq, not_exists, not_and, Nat.not_lt]
    exact fun q hmem hq => hdone q hmem hq.1 hq.2
  have hadd : ∀ t : State, State.cpywAdd h t a = t.enqueueRel { origin := h.core, ctx := h.key.ctx, scope := sc, obj := some a.pa
                                                                cpyw := some (h.key, a.opId), val := .rmw h.key [a.asRmw] } := by
    intro t
    unfold State.cpywAdd
    rw [hop]
    exact if_pos hsc
  have hrmw : a.asRmw = { a with op := .rmw .add .unsigned sz sc .release y 0 none } := by
    unfold Acc.asRmw
    rw [hop]
  have hfar : ¬ decide (sc.code < 2) = true := fun hnear => absurd (of_decide_eq_true hnear) (Nat.not_lt.2 hsc)
  unfold State.cpywStep
  rw [hh]
  dsimp only
  rw [hq]
  dsimp only
  rw [if_neg hgo, haccs, List.filter_cons, hop]
  dsimp only
  rw [if_neg hfar, List.foldl_cons, List.foldl_nil, hadd, hrmw]
  rfl

/-- A CPYW's add waits while a copy before it is under way (R225). -/
theorem cpywStep_waits {s : State} {key : HeatKey} {h : Heat} {w : PendCpyw} {rest : List PendCpyw} (hh : s.heat? key = some h)
    (hq : h.cpyw = w :: rest) {q : Op} (hmem : q ∈ s.ops) (hcopy : q.isCopy = true) (hkey : q.key = key) (hbefore : q.id < w.before) :
    s.cpywStep key = s := by
  have hwait : s.ops.any (fun o => o.isCopy && decide (o.key = key) && decide (o.id < w.before)) = true :=
    List.any_eq_true.2 ⟨q, hmem, by simp [hcopy, hkey, hbefore]⟩
  unfold State.cpywStep
  rw [hh]
  dsimp only
  rw [hq]
  exact if_pos hwait

/-- A remote request's end, as soon as it has waited its time (R200). -/
theorem remoteTimeout_eq {s : State} {n : Nat} {r : Req} (hreq : s.reqs.find? (fun q => q.id = n) = some r) :
    exec (.remoteTimeout n) s =
      .next (if r.remote.isSome ∧ r.born + 2 ^ 20 ≤ s.now then ((s.late r.accs .remoteGone).freeReq r).flushAll else s) := by
  show execRemoteTimeout n s = _
  unfold execRemoteTimeout
  rw [hreq]

/-- A copy's end, once no lane of it is left or parked (R224). -/
theorem copyDone_eq {s : State} {n : Nat} {o : Op} (hop : s.ops.find? (fun q => q.id = n) = some o) :
    s.copyDone n = if o.isCopy && o.left.isEmpty && o.parked.isEmpty then
      ({ s with ops := s.ops.filter (fun q => q.id ≠ n) } : State).retryReleases o.key else s := by
  unfold State.copyDone
  rw [hop]

/-- Settles O46: each clause is one branch of the step that the event names. -/
theorem requestsAreAnswered : Obligations.RequestsAreAnswered := by
  unfold Obligations.RequestsAreAnswered
  intro n v p r a o key asked sec bytes here
  refine ⟨?_, ?_, ?_, ?_, ?_, ?_, ?_, ?_, ?_⟩
  · rintro sg sz d hop s ⟨⟨hreq, hlocal, haccs, hread, hpoison⟩, hcopy, hwhole, hrun, hline⟩
    obtain ⟨-, -, -, -, -, trun, tsector⟩ := dropped_ok s r.core v
    rw [respond_one hreq hlocal haccs hread hpoison (by rw [hop]; rfl) (fun _ => .inl hwhole) (fun hc => by rw [hcopy] at hc; cases hc)
      (fun _ _ hc => by rw [hop] at hc; cases hc), answer_load hop hline ((trun _ _).trans hrun), tsector]
  · rintro b hop s ⟨⟨hreq, hlocal, haccs, hread, hpoison⟩, hcopy⟩
    rw [respond_one hreq hlocal haccs hread hpoison (by rw [hop]; rfl) (fun _ => .inr (by unfold Acc.reads; rw [hop])) (fun hc => by rw [hcopy] at hc; cases hc)
      (fun _ _ hc => by rw [hop] at hc; cases hc), answer_store hop]
  · rintro sz off h hop s ⟨⟨hreq, hlocal, haccs, hread, hpoison⟩, hcopy, hturn, hh⟩
    obtain ⟨-, -, -, -, theat, -, tsector⟩ := dropped_ok s r.core v
    rw [respond_one hreq hlocal haccs hread hpoison (by rw [hop]; rfl) (fun hc => by rw [hcopy] at hc; cases hc) (fun _ => hturn)
      (fun _ _ hc => by rw [hop] at hc; cases hc), answer_copyIn hop ((theat _).trans hh)]
    have hbytes : (evicted r.core v s).dieRead (dieOf r.core) a.pa (2 ^ sz) = bytes s := by
      simp only [bytes, sec, hop]
      unfold State.dieRead
      rw [tsector]
      rfl
    rw [copyElem_congr (g := fun t => t.scrWrite h.unit off (bytes s)) (congrArg ((evicted r.core v s).scrWrite h.unit off) hbytes)]
  · intro s hnone
    have hreq : s.reqs.find? (fun q => q.id = n) = none := List.find?_eq_none.2 fun q hq => by simpa using hnone q hq
    show Host.Outcome.next (s.respond n v p) = _
    unfold State.respond
    rw [hreq]
    rfl
  · rintro s ⟨hreq, hremote, hlate⟩
    rw [remoteTimeout_eq hreq, if_pos ⟨hremote, hlate⟩]
  · rintro s ⟨hreq, hearly⟩
    rw [remoteTimeout_eq hreq, if_neg fun h => absurd h.2 (Nat.not_le.2 hearly)]
    rfl
  · rintro s ⟨hop, hcopy, hleft, hparked⟩
    exact congrArg Host.Outcome.next ((copyDone_eq hop).trans (if_pos (by rw [hcopy, hleft, hparked]; rfl)))
  · rintro s ⟨hop, hleft⟩
    exact congrArg Host.Outcome.next ((copyDone_eq hop).trans (if_neg (by simp [hleft])))
  · intro h w rest y sz sc hq haccs hop hsc
    refine ⟨?_, ?_⟩
    · rintro s ⟨hh, hdone⟩
      exact congrArg Host.Outcome.next (cpywStep_far hh hq haccs hop hsc hdone)
    · rintro s ⟨hh, q, hmem, hcopy, hkey, hbefore⟩
      exact congrArg Host.Outcome.next (cpywStep_waits hh hq hmem hcopy hkey hbefore)

end Sys2Proof.Machine
end

section
/-! SUPPORT. WAITA (R227): the judging of a lane's address, and the statement O20. -/

namespace Sys2Proof.Machine

open Sys2Proof Sys2Proof.Safe

/-- A word that treats its active lanes in turn, where each of them blocks and nothing else changes. -/
theorem acts_blocked_of_each {i : Instr} {P : Seen → Prop} {q : Seen → Nat → Wait} (step : Env → Work → Nat → Work)
    (hexec : ∀ s, exec i s = issue i s (fun e w => e.each (step e) w))
    (hstep : ∀ s x h, Issues i s x h → P (seen i s x h) → ∀ w : Work, w.s = { entered s x with heats := w.s.heats } →
      ∀ l ∈ active i x h, step (envOf i s x h) w l = w.block (envOf i s x h) l (q (seen i s x h) l)) :
    Acts i P Seen.s Seen.h (fun e l y => blocked (q e l) y) := by
  refine blocks_of _ hexec fun s x h hI hP => ⟨{ s := (entered s x).updHeat x.key (fun g =>
    (active i x h).foldl (fun g l => g.updLane l (blocked (q (seen i s x h) l))) g) }, rfl, rfl, rfl, ?_, ?_⟩
  · exact each_blocks (envOf i s x h) (q (seen i s x h)) _ (active i x h) { s := entered s x } (hstep s x h hI hP)
  · rw [entered_eq]
    rfl

/-! The issuing heat as the body of a word sees it. -/

@[simp] theorem envOf_ctx (i : Instr) (s : State) (x : Iss) (h : Heat) : (envOf i s x h).ctx = x.key.ctx := rfl
@[simp] theorem envOf_core (i : Instr) (s : State) (x : Iss) (h : Heat) : (envOf i s x h).core = h.core := rfl
@[simp] theorem envOf_die (i : Instr) (s : State) (x : Iss) (h : Heat) : (envOf i s x h).die = dieOf h.core := rfl

theorem scrCheck_inPlace {size off sz : Nat} (halign : off % 2 ^ sz = 0) (hfit : off + 2 ^ sz ≤ size) : scrCheck size off sz = none := by
  unfold scrCheck
  rw [if_neg (not_not_intro halign), if_neg (Nat.not_lt.2 hfit)]

/-- Settles O20: a lane whose scratchpad offset or whose address passes what R227 judges blocks, and the others with it. -/
theorem waitaBlocksItsLanes : Obligations.WaitaBlocksItsLanes := by
  unfold Obligations.WaitaBlocksItsLanes
  intro c d a b cmp sg wide acq sz other sync
  refine ⟨?_, ?_⟩
  · refine acts_blocked_of_each (q := fun e l => .waita true (e.rd .n32 a l) cmp sg wide (other e l) d (e.s.now + 2 ^ 20) acq) _
      (exec_waita · c d a b cmp sg wide true acq) fun s x h _ hP w hw l hl => ?_
    obtain ⟨u, hu, halign, hfit⟩ := hP l hl
    have hunit : w.s.unit? h.unit = some u := by rw [hw, entered_eq]; exact hu
    have hcheck : scrCheck u.size (reads (.waita c d a b cmp sg wide true acq) s x h .n32 a l) sz = none := scrCheck_inPlace halign hfit
    dsimp only
    rw [if_pos rfl, envOf_src32, envOf_src32, envOf_src64, show w.s.unit? (envOf _ s x h).h.unit = some u from hunit,
      show (Option.map RUnit.size (some u)).getD 0 = u.size from rfl, hcheck, hw, entered_eq]
    rfl
  · refine acts_blocked_of_each (q := fun e l => .waita false (e.rd .n64 a l) cmp sg wide (other e l) d (e.s.now + 2 ^ 20) acq) _
      (exec_waita · c d a b cmp sg wide false acq) fun s x h _ hP w hw l hl => ?_
    obtain ⟨halign, hsync, hcanon, pa, hmap⟩ := hP l hl
    have hcanon : canonical (reads (.waita c d a b cmp sg wide false acq) s x h .n64 a l) = true := targetCanonical hcanon
    have hnow : w.s.now = s.now := by rw [hw, entered_eq]
    have htr : w.s.translate x.key.ctx (dieOf h.core) (some h.core) (reads _ s x h .n64 a l) .read = (.ok pa, w.s) :=
      translate_mapped (Mapped.congr (by rw [hw, entered_eq]; rfl) (by rw [hw, entered_eq]; rfl) hmap)
    dsimp only
    rw [if_neg (by decide), envOf_src32, envOf_src64, envOf_src64, if_neg, hcanon, if_neg (by decide)]
    · rw [envOf_ctx, envOf_die, envOf_core, htr]
      dsimp only
      rw [hnow]
      rfl
    · simp only [Bool.or_eq_true, Bool.and_eq_true, decide_eq_true_eq, Bool.not_eq_true', not_or, not_and]
      refine ⟨not_not_intro halign, fun hacq => ?_⟩
      obtain ⟨h64, hwide⟩ := hsync (by
        cases acq with
        | none => cases hacq
        | some sc => exact ⟨sc, rfl, of_decide_eq_true hacq⟩)
      exact ⟨not_not_intro h64, by rw [hwide]; decide⟩

end Sys2Proof.Machine
end

section
/-! SUPPORT. Sync words of one lane in place (R225, R282, R283): SYADD and STREL, and the statement O29. -/

namespace Sys2Proof.Machine

open Sys2Proof Sys2Proof.Safe

theorem syadd_wf {c : Com} {o : Order} {sc : Scope} {d : Option Dst} {m : Index} {a : Src} {b : Nat}
    (hw : Instr.wf (.syadd c o sc d m a b) = true) : Instr.long (.syadd c o sc d m a b) = false ∧ 2 ≤ sc.code := by
  refine ⟨(long_of (Words.syadd c o sc d m a b hw).1).trans rfl, ?_⟩
  have hw' : (Wf.com false c && decide (o ≠ .relaxed) && decide (2 ≤ sc.code) && Wf.opt (Wf.dst true) d && Wf.index m && Wf.read true a &&
    Wf.recReg b) = true := hw
  simp only [Bool.and_eq_true, decide_eq_true_eq] at hw'
  obtain ⟨⟨⟨⟨⟨-, hsc⟩, -⟩, -⟩, -⟩, -⟩ := hw'
  exact hsc

/-- What the heat of an SYADD waits for: the answer, where it takes one or acquires (R266, R283). -/
def awaitsAdd (e : Seen) (o : Order) (d : Option Dst) (g : Heat) : Heat :=
  if d.isSome then g.waitingFor e.s.nid else e.awaits o g

theorem awaitsAdd_key (e : Seen) (o : Order) (d : Option Dst) (g : Heat) : (awaitsAdd e o d g).key = g.key := by
  unfold awaitsAdd Seen.awaits
  split
  · rfl
  · split <;> rfl

theorem awaitsAdd_lanes (e : Seen) (o : Order) (d : Option Dst) (g : Heat) : (awaitsAdd e o d g).lanes = g.lanes := by
  unfold awaitsAdd Seen.awaits
  split
  · rfl
  · split <;> rfl

/-- An SYADD of one lane in place is one access, for whose answer the heat waits where it takes one or acquires (R283). -/
theorem syadd_body (c : Com) (o : Order) (sc : Scope) (d : Option Dst) (m : Index) (a : Src) (b : Nat) : ∃ body : Env → Work → Work,
    (∀ s, exec (.syadd c o sc d m a b) s = issue (.syadd c o sc d m a b) s body) ∧
    ∀ s x h l va pa, Issues (.syadd c o sc d m a b) s x h → (seen (.syadd c o sc d m a b) s x h).Place l .write va pa →
      (seen (.syadd c o sc d m a b) s x h).Checked b 3 ((seen (.syadd c o sc d m a b) s x h).index m l) .rmw va → va % 64 = 0 →
      (frees o → (seen (.syadd c o sc d m a b) s x h).mayRelease sc) → ∃ (chk : Nat → Chk) (op : Nat → AccOp),
        body (envOf (.syadd c o sc d m a b) s x h) { s := entered s x } =
          (let r := (envOf (.syadd c o sc d m a b) s x h).accessBy (h.b256 b) chk op { s := entered s x }
           if d.isSome || ordHolds o then r.awaitOp (envOf (.syadd c o sc d m a b) s x h) s.nid else r) ∧
        chk l = .va va ∧ op l = .syadd ((seen (.syadd c o sc d m a b) s x h).rd .n64 a l) sc o d := by
  refine ⟨_, (exec_syadd · c o sc d m a b), fun s x h l va pa hI hplace hC hva hmay => ?_⟩
  obtain ⟨hchk, hcol, hrem⟩ := hC
  let e := envOf (.syadd c o sc d m a b) s x h
  refine ⟨fun l => syncChk true true (check (h.b256 b) 3 (e.index m l) .rmw), fun l => .syadd (e.src64 a l) sc o (e.laneDst d l), ?_, ?_, ?_⟩
  · dsimp only
    rw [unrefused (h := h) hcol hrem, if_neg (by decide), irrevocable_none hI hplace _ rfl,
      releaseAt_go (fun ho => hmay (frees_of_ordReleases ho)), show (entered s x).nid = s.nid by rw [entered_eq]]
    rfl
  · dsimp only
    rw [envOf_index, show check (h.b256 b) 3 ((seen _ s x h).index m l) .rmw = .va va from hchk]
    exact syncChk_va hva
  · dsimp only
    rw [envOf_src64, laneDst_one hplace.one]
    rfl

/-- An SYADD whose add is left to the part, which becomes `U`: the heat moves on, and waits where it takes a value or acquires. -/
theorem syadd_left (c : Com) (o : Order) (sc : Scope) (d : Option Dst) (m : Index) (a : Src) (b l va pa : Nat) (P : Seen → Prop)
    (U : Seen → State) (hops : ∀ e, (U e).ops = (opened (.syadd c o sc d m a b) e l).ops) (hnow : ∀ e, (U e).now = e.s.now)
    (hP : ∀ e, P e → e.Place l .write va pa ∧ e.Checked b 3 (e.index m l) .rmw va ∧ va % 64 = 0 ∧ (frees o → e.mayRelease sc))
    (hsent : ∀ (e : Seen) (H : List Heat), e.h.key = e.x.key → (withH (opened (.syadd c o sc d m a b) e l) H).sendReqs e.h (recStream (e.rcd b))
      [{ lane := l, va := va, pa := pa, op := .syadd (e.rd .n64 a l) sc o d, opId := e.s.nid, nopre := recNopre (e.rcd b),
         strm := recStream (e.rcd b) }] = withH (U e) H) :
    Acts (.syadd c o sc d m a b) P U (fun e => awaitsAdd e o d e.h) (fun _ _ q => q.advance) := by
  obtain ⟨body, hexec, hbody⟩ := syadd_body c o sc d m a b
  refine short_acts body hexec (fun e g => awaitsAdd e o d g) (fun e g => awaitsAdd_key e o d g) (fun e g => awaitsAdd_lanes e o d g)
    (fun _ _ _ _ _ => rfl) hnow fun s x h hI hp => ⟨false, ?_⟩
  obtain ⟨hplace, hC, hva, hmay⟩ := hP _ hp
  obtain ⟨hlong, hsc⟩ := syadd_wf (Issues_wf hI)
  obtain ⟨chk, op, hb, hchk, hop⟩ := hbody s x h l va pa hI hplace hC hva hmay
  have hacc := far_one hI hplace (h.b256 b) chk op hchk (checked_colour hC) (checked_local hC) (by rw [hop]; exact (by decide : (8 : Nat) < 64))
    (.inr (.inl ⟨_, _, _, _, hop, hsc⟩)) false
  dsimp only at hacc
  rw [hop, begun_withH] at hacc
  replace hacc := hacc.trans (congrArg (fun t : State => ({ s := t } : Work)) (hsent (seen _ s x h) _ (State.heat?_key hI.heat)))
  have hwait := awaitOp_begun hI hplace (U (seen _ s x h)) (hops _) false
  rw [lifted_short hlong] at hacc hwait
  rw [hb, hacc]
  dsimp only
  unfold awaitsAdd
  cases d with
  | some d => exact hwait
  | none =>
    cases o
    case relaxed => rfl
    case release => rfl
    case acquire => exact hwait
    case both => exact hwait

theorem ordReleases_of_frees {o : Order} (ho : frees o) : ordReleases o = true := by
  rcases ho with rfl | rfl <;> rfl

/-- A release at die scope or wider stays in its place while a completion word of the heat waits (R225). -/
theorem releaseAt_stalls {e : Env} {sc : Scope} (hsc : 2 ≤ sc.code) (hact : e.act ≠ []) (hcpyw : e.h.cpyw ≠ []) (w : Work) (f : Work → Work) :
    e.releaseAt sc true w f = Work.stallWith e id := by
  have hidle : (e.act.isEmpty || e.h.cpyw.isEmpty) = false := by simp [hact, hcpyw]
  unfold Env.releaseAt Env.afterCpyw
  simp only [Bool.not_true, Bool.false_eq_true, if_false, hsc, if_true, hidle]

/-- Settles O29: an SYADD is left for the sector's owner or for the queue of releases (`syadd_left`), a STREL enters that queue
(`strel_acts`), and a release behind a completion word stalls (`releaseAt_stalls`). -/
theorem syncWordsReachTheirObject : Obligations.SyncWordsReachTheirObject := by
  unfold Obligations.SyncWordsReachTheirObject
  intro c o sz b sc d v m a l va pa here add acc waits rel
  refine ⟨fun ho => ?_, fun hsc ho => ?_, fun hsc => ?_, fun i hi s x h hI hsc hcpyw hplace hcol hrem => ?_⟩
  · have hnr : ¬ frees o := by rw [ho]; rintro (h | h) <;> cases h
    refine syadd_left c o sc d m a b l va pa _ _ (fun e => sent_ops _ _ _ _ _ _ _ _) (fun e => sentopened_now _ _ _ _ _ _ _ _)
      (fun e hp => ⟨hp.1, hp.2.1, hp.2.2, fun hf => absurd hf hnr⟩) fun e H hk => ?_
    rw [← sent_withH]
    exact sendReqs_one (i := add) (s := e.s) (x := e.x) (h := e.h) hk _ _ _ _ _ _ (by rw [ho]; simp [AccOp.releases]) rfl
  · refine syadd_left c o sc d m a b l va pa _ _ (fun e => enqueueRel_ops _ _) (fun e => enqueueRel_now _ _)
      (fun e hp => ⟨hp.1.1, hp.1.2.1, hp.1.2.2, fun _ => hp.2⟩) fun e H hk => ?_
    rw [← enqueueRel_withH]
    exact sendReqs_rel hk _ _ _ (.inr ⟨_, _, _, _, rfl, hsc, ho⟩)
  · have hst := strel_acts c sz b sc v m l va pa hsc
    exact fun s x h hI hP => hst s x h hI ⟨hP.1.1, hP.1.2.1, hP.1.2.2, hP.2⟩
  · have hne : (envOf i s x h).act ≠ [] := by
      rw [show (envOf i s x h).act = [l] from hplace.one]
      simp
    rcases hi with ⟨rfl, ho⟩ | rfl
    · refine stalls_of hI _ (exec_syadd · c o sc d m a b) ?_
      dsimp only
      rw [unrefused (h := h) hcol hrem, if_neg (by decide), irrevocable_none hI hplace _ rfl, ordReleases_of_frees ho]
      exact releaseAt_stalls hsc hne hcpyw _ _
    · refine stalls_of hI _ (exec_strel · c sz sc v m b) ?_
      dsimp only
      rw [unrefused (h := h) hcol hrem, if_neg (by decide), irrevocable_none hI hplace _ rfl]
      exact releaseAt_stalls hsc hne hcpyw _ _

end Sys2Proof.Machine
end

section
/-! SUPPORT. The ring instructions (R228 to R235): a stage's hand-off, its waits and its stamps, and the statement O21. -/

namespace Sys2Proof.Machine

open Sys2Proof Sys2Proof.Safe

/-! The ring object that a word names (R229). -/

/-- The offset that a ring instruction names. -/
def ringOff (a : Src) (e : Seen) : Nat := e.rd .n32 a e.low

/-- The 64 bytes of the ring object there. -/
def ringObj (a : Src) (e : Seen) : List Byte := ((e.s.unit? e.h.unit).map (fun u => readBytes u.scr (ringOff a e) 64)).getD []

/-- The object is found, and has the stage. -/
def HasStage (a : Src) (st : Stage) (e : Seen) : Prop :=
  (∃ u, e.Ring a u (ringOff a e) (ringObj a e)) ∧ (st = .operate → ringStages (ringObj a e) ≠ 2)

/-- The slot that the stage's pointer names stands ready for it. -/
def StageReady (a : Src) (st : Stage) (e : Seen) : Prop := HasStage a st e ∧ ringReady (ringObj a e) (stageCode st) = true

/-- The slot that the stage's pointer names. -/
def stageSlot (a : Src) (st : Stage) (e : Seen) : Nat := ringPtr (ringObj a e) (stageCode st) % 16

/-- A pointer moved on: to the next slot, after the last one to the first with the other phase (R233). -/
def nextPtr (slots p : Nat) : Nat :=
  if decide (p % 16 + 1 = slots) then (if bit p 4 then 0 else 16) else p % 16 + 1 + (if bit p 4 then 16 else 0)

theorem nextPtr_eq (slots p : Nat) :
    let j := if p % 16 + 1 = slots then 0 else p % 16 + 1
    j + 16 * b2n (if j = 0 then !(bit p 4) else bit p 4) = nextPtr slots p := by
  unfold nextPtr
  by_cases hlast : p % 16 + 1 = slots
  · simp only [hlast, if_true, decide_true]
    cases bit p 4 <;> rfl
  · simp only [hlast, if_false, decide_false, Bool.false_eq_true]
    cases bit p 4 <;> rfl

/-- The part once a stage has handed on its slot: its pointer moved on, and the hand-off pending (R233). -/
def handedOn (a : Src) (st : Stage) (e : Seen) : State :=
  let p := ringPtr (ringObj a e) (stageCode st)
  let x : HandOff := { ring := ringOff a e, slot := p % 16, stage := st, phase := bit p 4, heat := e.x.key.heat, team := e.x.key.team, before := e.s.nid }
  { e.s with nid := e.s.nid + 1, units := modifyFirst (fun u => u.id = e.h.unit) (fun u =>
      { u with scr := writeBytes u.scr (ringOff a e + 16 + 2 * stageCode st) (toBytes 2 (nextPtr (ringSlots (ringObj a e)) p))
               handoffs := u.handoffs ++ [x] }) e.s.units }

theorem scrWrite_updUnit (s : State) (i off : Nat) (bs : List Byte) (g : RUnit → RUnit) :
    (s.scrWrite i off bs).updUnit i g = s.updUnit i (fun u => g { u with scr := writeBytes u.scr off bs }) :=
  updUnit_updUnit s i _ g (fun _ => rfl)

/-- A stage that stands ready hands on its slot. -/
theorem handOn_acts {i : Instr} (a : Src) (st : Stage) (hexec : ∀ s, exec i s = issue i s (fun e w => e.handOn st a w)) :
    ActsOn i (StageReady a st) (handedOn a st) := by
  refine actsOn_of _ hexec fun s x h hI hP => ?_
  obtain ⟨⟨⟨u, hR⟩, hstages⟩, hready⟩ := hP
  let o := ringObj a (seen i s x h)
  have hgo : ¬ ((st = .operate ∧ ringStages o = 2) ∨ (!(ringReady o (stageCode st))) = true) := by
    rintro (⟨hst, htwo⟩ | hnot)
    · exact hstages hst htwo
    · rw [show ringReady o (stageCode st) = true from hready] at hnot
      cases hnot
  refine ⟨_, ringOp_eq hI hR _, ?_⟩
  dsimp only [ringAt]
  rw [if_neg hgo]
  refine ⟨rfl, rfl, rfl, ?_⟩
  rw [nextPtr_eq, scrWrite_updUnit, entered_eq]
  rfl

/-! Waits and stamps (R232, R234, R235). -/

/-- The part once the stage's slot is stamped: its round runs on the heat's core, and `f` notes the clock. -/
def stamped (a : Src) (st : Stage) (f : SlotHid → Nat → SlotHid) (e : Seen) : State :=
  e.s.updHid e.h.unit (ringOff a e) (stageSlot a st e) (fun h => f (h.touch e.h.core) (e.s.clock e.h.core).toNat)

/-- A word whose active lanes each change and move on, while the part changes elsewhere. -/
theorem acts_lanes {i : Instr} {P : Seen → Prop} {U : Seen → State} (F : Seen → Nat → Lane → Lane) (body : Env → Work → Work)
    (hexec : ∀ s, exec i s = issue i s body) (hst : ∀ e l y, (F e l y).st = y.st)
    (hb : ∀ s x h, Issues i s x h → P (seen i s x h) → ∃ w : Work, body (envOf i s x h) { s := entered s x } = w ∧
      w.traps = [] ∧ w.stall = false ∧ w.stay = [] ∧
      w.s = { U (seen i s x h) with
        heats := ((entered s x).updHeat x.key (fun g => (active i x h).foldl (fun g l => g.updLane l (F (seen i s x h) l)) g)).heats
        iss := none, now := s.now }) :
    Acts i P U Seen.h (fun e l y => (F e l y).advance) := by
  refine acts_upd body hexec fun s x h hI hP => ?_
  obtain ⟨w, hw, htraps, hstall, hstay, hs⟩ := hb s x h hI hP
  have hlane := fun m => Heat.lane_foldl_updLane (active i x h) (F (seen i s x h)) h m (Issues_active_nodup hI)
  refine ⟨w, _, hw, htraps, hstall, fun g => Heat.foldl_updLane_key _ (F (seen i s x h)) g, hs,
    Heat.foldl_updLane_eq _ (F (seen i s x h)) h, Heat.length_foldl_updLane _ (F (seen i s x h)) h, fun l hl => ?_, fun l hl => ?_⟩
  · rw [hlane]
    split
    · rw [hst]
      exact Issues_live hI l hl
    · exact Issues_live hI l hl
  · rw [hlane, hstay]
    by_cases ha : l ∈ active i x h
    · simp [ha, hl, (List.mem_filter.1 ha).1]
    · simp [ha]

theorem ringDone_st (y : Lane) (d : Option Nat) (b : Bool) : (y.ringDone d b).st = y.st := by
  cases d <;> rfl

/-- A word's active lanes updated in turn. -/
theorem each_updLane_env (e : Env) (F : Nat → Lane → Lane) (w : Work) :
    e.each (fun w l => { w with s := w.s.updLane e.key l (F l) }) w =
      { w with s := w.s.updHeat e.key (fun h => e.act.foldl (fun h l => h.updLane l (F l)) h) } :=
  each_updLane e.key F e.act w

/-- A lane that finds its slot ready goes on with the slot's fault bit, and the slot's wait is stamped (R232, R234). -/
theorem rawait_passes (c : Com) (st : Stage) (d : Option Nat) (a : Src) :
    Acts (.rawait c st d a) (StageReady a st) (stamped a st (fun h t => if st = .operate then { h with wait := t } else h)) Seen.h
      (fun e _ y => (y.ringDone d (bit (ringState (ringObj a e) (stageSlot a st e)) 3)).advance) := by
  refine acts_lanes (fun e _ y => y.ringDone d (bit (ringState (ringObj a e) (stageSlot a st e)) 3)) _ (exec_rawait · c st d a)
    (fun _ _ _ => ringDone_st _ _ _) fun s x h hI hP => ?_
  obtain ⟨⟨⟨u, hR⟩, hstages⟩, hready⟩ := hP
  let e := seen (.rawait c st d a) s x h
  let done (y : Lane) : Lane := y.ringDone d (bit (ringState (ringObj a e) (stageSlot a st e)) 3)
  let t : State := ((entered s x).updHeat x.key (fun g => e.act.foldl (fun g l => g.updLane l done) g)).updHid h.unit (ringOff a e)
    (stageSlot a st e) (fun z => z.waited st h.core ((entered s x).clock h.core).toNat)
  refine ⟨{ s := t }, (ringOp_eq hI hR _).trans ((if_neg ?_).trans ((if_pos hready).trans ?_)), rfl, rfl, rfl, ?_⟩
  · rintro (⟨hst, htwo⟩ | ⟨-, hnot⟩)
    · exact hstages hst htwo
    · rw [hready] at hnot
      cases hnot
  · rw [each_updLane_env]
    rfl
  · dsimp only [t]
    rw [entered_eq]
    rfl

theorem ringReady_owned {o : List Byte} {n : Nat} (h : ringOwned o n (ringPtr o n % 16) = false) : ringReady o n = false := by
  unfold ringReady ringAt
  simp only [h, Bool.false_and]

/-- A lane that finds its slot with another stage blocks (R232). -/
theorem rawait_blocks (c : Com) (st : Stage) (d : Option Nat) (a : Src) :
    Acts (.rawait c st d a) (fun e => HasStage a st e ∧ ringOwned (ringObj a e) (stageCode st) (stageSlot a st e) = false)
      Seen.s Seen.h (fun e _ y => blocked (.rawait (ringOff a e) st d) y) := by
  refine blocks_of (q := fun e _ => .rawait (ringOff a e) st d) _ (exec_rawait · c st d a) fun s x h hI hP => ?_
  obtain ⟨⟨⟨u, hR⟩, hstages⟩, howned⟩ := hP
  let off := ringOff a (seen (.rawait c st d a) s x h)
  refine ⟨{ s := (entered s x).updHeat x.key (fun g => (active (.rawait c st d a) x h).foldl (fun g l => g.updLane l (blocked (.rawait off st d))) g) },
    rfl, rfl, rfl, (ringOp_eq hI hR _).trans ((if_neg ?_).trans ((if_neg ?_).trans ?_)), by rw [entered_eq]; rfl⟩
  · rintro (⟨hst, htwo⟩ | ⟨hown, -⟩)
    · exact hstages hst htwo
    · exact Bool.false_ne_true (howned.symm.trans hown)
  · exact fun hready => Bool.false_ne_true ((ringReady_owned howned).symm.trans hready)
  · exact each_block (envOf _ s x h) (fun _ => .rawait off st d) (active _ x h) { s := entered s x }

/-- SPLIT stamps the start or the end of the slot's work (R235). -/
theorem split_acts (c : Com) (fin : Bool) (a : Src) :
    ActsOn (.split c fin a) (fun e => StageReady a (if ringStages (ringObj a e) = 2 then .drain else .operate) e)
      (fun e => stamped a (if ringStages (ringObj a e) = 2 then .drain else .operate)
        (fun h t => if fin then { h with cend := t } else { h with cstart := t }) e) := by
  refine actsOn_of _ (exec_split · c fin a) fun s x h hI hP => ?_
  obtain ⟨⟨⟨u, hR⟩, -⟩, hready⟩ := hP
  refine ⟨_, ringOp_eq hI hR _, ?_⟩
  have hcode : stageCode (if ringStages (ringObj a (seen (.split c fin a) s x h)) = 2 then .drain else .operate) =
      if ringStages (ringObj a (seen (.split c fin a) s x h)) = 2 then 2 else 1 := by split <;> rfl
  dsimp only [ringAt]
  rw [← hcode, hready, if_neg (by decide)]
  refine ⟨rfl, rfl, rfl, ?_⟩
  rw [entered_eq]
  cases fin <;> rfl

/-! RINIT (R230). -/

/-- The object that RINIT makes of a template: its slots with the first stage, and no round begun. -/
def freshRing (t : List Byte) : List Byte :=
  t.take 24 ++ (List.range 16).flatMap (fun j => toBytes 1 (if j < ringSlots t then 4 else 0)) ++ t.drop 40

/-- The part once a ring is made at an offset of a unit's region: its bytes written, and no slot's hidden state left. -/
def ringMade (unit off : Nat) (t : List Byte) (s : State) : State :=
  { s with units := modifyFirst (fun u => u.id = unit) (fun u =>
      { u with scr := writeBytes u.scr off (freshRing t), hid := u.hid.filter (fun y => y.1 / 16 ≠ off) }) s.units }

/-- RINIT finds room for the template, which follows R55, and nothing of an older ring there is under way. -/
structure RingRoom (a : Src) (k : Nat) (e : Seen) : Prop where
  some_lane : e.act ≠ []
  aligned : ringOff a e % 64 = 0
  room : ∃ u, e.s.unit? e.h.unit = some u ∧ ringOff a e + 64 ≤ u.size ∧ ringFits (e.h.template k) u.size = true ∧
    ∀ q ∈ u.handoffs, q.ring ≠ ringOff a e
  template : ringTemplateOk (e.h.template k) = true
  reserved : rg (e.h.template k) 11 29 = 0 ∧ rg (e.h.template k) 48 8 = 0 ∧ rg (e.h.template k) 60 4 = 0
  free : e.s.scrOwned e.h.unit (ringOff a e / 64) = false
  idle : ∀ j, j < 16 → e.s.slotBusy e.h.unit (ringOff a e) j = false

theorem rinit_acts (c : Com) (a : Src) (k : Nat) :
    ActsOn (.rinit c a k) (RingRoom a k) (fun e => ringMade e.h.unit (ringOff a e) (e.h.template k) e.s) := by
  refine actsOn_of _ (exec_rinit · c a k) fun s x h hI hP => ?_
  obtain ⟨hact, halign, ⟨u, hu, hsize, hfits, hnone⟩, htemplate, ⟨hr1, hr2, hr3⟩, hfree, hidle⟩ := hP
  let off := ringOff a (seen (.rinit c a k) s x h)
  have hunit : (entered s x).unit? h.unit = some u := by rw [entered_eq]; exact hu
  have hoffset : ringOffset u.size off = none := by
    unfold ringOffset
    rw [if_neg (not_not_intro halign), if_neg (Nat.not_lt.2 hsize)]
  have hfit : ¬ ((!(ringTemplateOk (h.template k) && rg (h.template k) 11 29 == 0 && rg (h.template k) 48 8 == 0 &&
      rg (h.template k) 60 4 == 0) || !(ringFits (h.template k) u.size)) = true) := by
    rw [show ringTemplateOk (h.template k) = true from htemplate, show rg (h.template k) 11 29 = 0 from hr1,
      show rg (h.template k) 48 8 = 0 from hr2, show rg (h.template k) 60 4 = 0 from hr3, show ringFits (h.template k) u.size = true from hfits]
    decide
  have hquiet : ((entered s x).scrOwned h.unit (off / 64) || (upto 16).any ((entered s x).slotBusy h.unit off) ||
      u.handoffs.any (fun x => x.ring == off)) = false := by
    have hbusy : (upto 16).any ((entered s x).slotBusy h.unit off) = false := by
      rw [List.any_eq_false]
      intro j hj
      rw [slotBusy_entered, show s.slotBusy h.unit off j = false from hidle j (List.mem_range.1 hj)]
      decide
    have hpending : u.handoffs.any (fun x => x.ring == off) = false := by
      rw [List.any_eq_false]
      exact fun q hq => by simpa using hnone q hq
    rw [scrOwned_entered, show s.scrOwned h.unit (off / 64) = false from hfree, hbusy, hpending]
    rfl
  refine ⟨{ s := ringMade h.unit off (h.template k) (entered s x) }, (if_neg (act_ne hact)).trans ?_, rfl, rfl, rfl, by rw [entered_eq]; rfl⟩
  dsimp only
  rw [envOf_src32, show reads _ s x h .n32 a (envOf _ s x h).lowest = off from rfl]
  unfold Env.ring
  rw [show (entered s x).unit? (envOf _ s x h).h.unit = some u from hunit]
  dsimp only [Option.map_some, Option.getD_some]
  rw [hoffset]
  dsimp only
  refine (if_neg hfit).trans ((if_neg (Bool.eq_false_iff.1 hquiet)).trans ?_)
  rw [scrWrite_updUnit]
  rfl

/-- Settles O21: the three stages hand on their slots by one lemma, RAWAIT by its ready and its blocking form, SPLIT and RINIT by
theirs. -/
theorem ringInstructionsHandSlotsOn : Obligations.RingInstructionsHandSlotsOn := by
  unfold Obligations.RingInstructionsHandSlotsOn
  intro c a d k fin here ring found passes passed slot stamp
  refine ⟨handOn_acts a .fill (exec_rfill · c a), handOn_acts a .operate (exec_rpush · c a), handOn_acts a .drain (exec_rrelease · c a),
    fun st => rawait_passes c st d a, fun st => rawait_blocks c st d a, split_acts c fin a, fun s x h hI hP => ?_⟩
  obtain ⟨hact, halign, hroom, htemplate, hr1, hr2, hr3, hfree, hidle⟩ := hP
  exact rinit_acts c a k s x h hI ⟨hact, halign, hroom, htemplate, ⟨hr1, hr2, hr3⟩, hfree, hidle⟩

end Sys2Proof.Machine
end

section
/-! SUPPORT. Copies of one lane in place and completion words (R219 to R222, R225), and the statement O33. -/

namespace Sys2Proof.Machine

open Sys2Proof Sys2Proof.Safe

/-- A copy of one lane in place, without a ring (R219 to R221). -/
structure CopyPlace (e : Seen) (out : Bool) (b sz : Nat) (n : Int) (off l va pa : Nat) : Prop where
  one : e.act = [l]
  mapped : e.At (if out then .write else .read) va pa
  checked : e.Checked b sz n (if out then .store else .load) va
  debug : e.h.debug = false
  journal : e.h.journal = false
  free : e.s.freeSlots e.h.core ≠ 0
  clear : e.s.ownPending e.x.key (pa / 64) = false
  region : ∃ u, e.s.unit? e.h.unit = some u ∧ off % 2 ^ sz = 0 ∧ off + 2 ^ sz ≤ u.size
  fresh : ∀ q ∈ e.s.ops, q.isCopy = true → q.key = e.x.key → q.pc = e.x.pc → l ∉ q.parked

/-- Where no lane of an issue replays a parked one, the operations stay as they are (R224). -/
theorem State.replay_new {s : State} {old : Nat → Option Op} {pass replaying : List Nat} {slot : Option (Nat × Nat)} {bound : Bool}
    (hold : ∀ l ∈ pass ++ replaying, old l = none) : s.replay old pass replaying slot bound = s := by
  have hmine : ∀ (p : Op), ∀ l ∈ pass ++ replaying, (p.isCopy && (old l).map Op.id == some p.id) = false := fun p l hl => by
    rw [hold l hl]
    exact Bool.and_false _
  have hpass : ∀ p : Op, pass.filter (fun l => p.isCopy && (old l).map Op.id == some p.id) = [] := fun p =>
    List.filter_eq_nil_iff.2 fun l hl => Bool.eq_false_iff.1 (hmine p l (List.mem_append_left _ hl))
  have hany : ∀ p : Op, replaying.any (fun l => p.isCopy && (old l).map Op.id == some p.id) = false := fun p =>
    List.any_eq_false.2 fun l hl => Bool.eq_false_iff.1 (hmine p l (List.mem_append_right _ hl))
  unfold State.replay
  simp only [hpass, hany, Bool.and_false, Bool.false_eq_true, if_false, List.contains_nil, Bool.not_false, List.filter_true, List.append_nil, List.map_id']

/-- A copy of one element sends one request (R221). -/
theorem State.sendCopies_one (t : State) (h : Heat) (out : Bool) (a : Acc) :
    t.sendCopies h out [a] =
      let r : Req := { id := t.nid, key := h.key, ctx := h.key.ctx, core := h.core, line := a.va / 256, accs := [a], write := out, copy := true, born := t.now }
      { t with nid := t.nid + 1, reqs := t.reqs ++ [r] } := by
  unfold State.sendCopies
  simp only [List.map_cons, List.map_nil, show nub [a.va / 256] = [a.va / 256] from rfl, List.foldl_cons, List.foldl_nil, List.filter_cons,
    List.filter_nil, decide_true, if_true]

/-- The part once a copy of one element has begun (R220 to R222). -/
def copyBegun (e : Env) (out : Bool) (a : Acc) (s : State) : State :=
  let s := s.addCopy e 0 none false [a.lane] []
  let s := if out then (s.l1Drop e.core (fun c => c / 4 == a.pa / 256)).bankIn e.ctx e.core a.pa else s
  wanted e.die (a.pa / 64) out (s.sendCopies e.h out [a])

/-- A copy of one lane without a ring that nothing holds up: no trap, no replay, no save of the journal, a free slot (R219 to R224). -/
theorem copy_lane {e : Env} {w : Work} {out : Bool} {sz b l va pa : Nat} {o : Src} {m : Index} (hact : e.act = [l])
    (hcol : recColour (e.record b) = 0) (hrem : recRemote (e.record b) = false) (hnew : w.s.replays e.key e.pc l = none)
    (hcheck : check (e.record b) sz (e.index m l) (if out then .store else .load) = .va va)
    (htraps : e.copyTraps w.s (e.record b) sz (e.src32 o l) (.va va) l = []) (hdebug : e.h.debug = false)
    (hsaves : ∀ pas, w.s.unsavedChunks e.h pas = []) (hslots : ¬ w.s.freeSlots e.core < 1) (hclear : w.s.ownPending e.key (pa / 64) = false)
    (htr : ∀ a : Acc, a.va = va → State.translateAccs e.ctx e.core (if out then .write else .read) [a] [] w.s = ([({ a with pa := pa }, .ok pa)], w.s)) :
    e.copy out sz o m none b w =
      { w with s := copyBegun e out { lane := l, va := va, pa := pa, op := if out then .copyOut sz (e.src32 o l) else .copyIn sz (e.src32 o l)
                                      opId := w.s.nid, nopre := recNopre (e.record b) } w.s } := by
  unfold Env.copy
  extract_lets rcd kind off chk old fresh binds bound causes good newId opOf acc accs skips lines unbound slot
  have hold : old l = none := hnew
  have hchk : chk l = .va va := hcheck
  have hbinds : binds l = true := by
    dsimp only [binds]
    rw [hold]
  have hbound : bound = .ok none := if_pos (by rw [hact, List.any_cons, hbinds, Bool.true_or])
  have hcauses : causes l = [] := by
    dsimp only [causes]
    rw [hchk, hbound]
    exact List.append_eq_nil_iff.2 ⟨htraps, rfl⟩
  have hgood : good = [l] := by
    show e.act.filter _ = _
    rw [hact]
    simp [hcauses]
  obtain ⟨a, ha⟩ : ∃ a : Acc, a = acc l va := ⟨_, rfl⟩
  have haeq : a = { lane := l, va := va, op := if out then .copyOut sz (e.src32 o l) else .copyIn sz (e.src32 o l), opId := w.s.nid
                    nopre := recNopre (e.record b) } := by
    rw [ha]
    dsimp only [acc, opOf]
    rw [hold]
  have haccs : accs = [a] := by
    show good.filterMap _ = _
    rw [hgood]
    simp [hchk, ha]
  have hskips : skips = [] := by
    show good.filterMap _ = _
    rw [hgood]
    simp [hchk]
  have hlines : lines.length = 1 := by
    show (nub (accs.map _)).length = 1
    rw [haccs]
    rfl
  have hfresh : fresh = [l] := by
    show e.act.filter _ = _
    rw [hact]
    simp [hold]
  have hreplay : ∀ t : State, t.replay old [l] [l] none true = t := fun t => State.replay_new (by simpa using hold)
  have htra := htr a (by rw [haeq])
  have hleast : leastTrap [] = none := rfl
  have hrem : recRemote rcd = false := hrem
  have hcol : recColour rcd = 0 := hcol
  clear_value rcd kind off chk old binds bound causes good newId opOf acc accs skips lines fresh
  subst hbound
  dsimp only [slot, unbound]
  clear slot unbound
  simp only [haccs, hskips, hlines, hfresh, hbinds, hrem, hcol, htra, hact, hdebug, hcauses, hsaves, hleast, hclear, hslots, hreplay, Bool.false_and, Bool.and_false,
    Bool.false_eq_true, if_false, if_true, ite_self, decide_false, Bool.not_true, Bool.not_false, Bool.or_false, Option.isNone_none, Option.map_none,
    List.filter_cons, List.filter_nil, List.map_cons, List.map_nil, List.filterMap_cons, List.filterMap_nil, List.append_nil, List.any_cons, List.any_nil,
    List.isEmpty_cons, List.isEmpty_nil, List.contains_nil, List.foldl_cons, List.foldl_nil, show nub ([] : List (Nat × Nat)) = [] from rfl,
    show ∀ n : Nat, nub [n] = [n] from fun _ => rfl]
  rw [haeq]
  rfl

/-- The body of a copy of one lane in place comes to `copied`. -/
theorem copy_one {i : Instr} {s : State} {x : Iss} {h : Heat} (hI : Issues i s x h) (out : Bool) (sz : Nat) (o : Src) (m : Index) (b : Nat)
    {l va pa : Nat} (hP : CopyPlace (seen i s x h) out b sz ((seen i s x h).index m l) (reads i s x h .n32 o l) l va pa) :
    (envOf i s x h).copy out sz o m none b { s := entered s x } =
      { s := withH (copied out (seen i s x h) l va pa (h.b256 b) sz (reads i s x h .n32 o l)) (entered s x).heats } := by
  obtain ⟨hone, ⟨p, hmap, hpa⟩, ⟨hcheck, hcol, hrem⟩, hdebug, hjournal, hfree, hclear, ⟨u, hu, halign, hfit⟩, hfresh⟩ := hP
  have e0 := entered_eq s x
  have hbegun := copy_lane (e := envOf i s x h) (w := { s := entered s x }) (out := out) (sz := sz) (b := b) (va := va) (pa := pa) (o := o) (m := m) hone hcol hrem
    ?_ (by rw [envOf_index]; exact hcheck) ?_ hdebug ?_ ?_ ?_ ?_
  · rw [hbegun, envOf_src32, copied, ← wanted_withH, copyBegun, State.sendCopies_one, show (envOf i s x h).h.key = x.key from State.heat?_key hI.heat]
    generalize (entered s x).heats = H at e0 ⊢
    rw [e0]
    refine congrArg (fun t => ({ s := wanted (dieOf h.core) (pa / 64) out t } : Work)) ?_
    cases out
    · rfl
    · rfl
  · refine List.find?_eq_none.2 fun q hq => ?_
    have hq : q ∈ s.ops := by rw [e0] at hq; exact hq
    simp only [Bool.and_eq_true, decide_eq_true_eq, beq_iff_eq, List.contains_iff_mem, not_and]
    exact fun ⟨⟨hcopy, hkey⟩, hpc⟩ => hfresh q hq hcopy hkey hpc
  · have hunit : (entered s x).unit? h.unit = some u := by rw [e0]; exact hu
    unfold Env.copyTraps
    rw [show (entered s x).unit? (envOf i s x h).h.unit = some u from hunit, envOf_src32, show recColour ((envOf i s x h).record b) = 0 from hcol]
    dsimp only [Option.map_some, Option.getD_some]
    rw [scrCheck_inPlace halign hfit]
    simp
  · intro pas
    unfold State.unsavedChunks
    rw [show (envOf i s x h).h.journal = false from hjournal]
    rfl
  · rw [e0]
    exact fun hlt => hfree (Nat.lt_one_iff.1 hlt)
  · refine (ownPending_congr (by rw [e0]; rfl) (by rw [e0]; rfl) _ _ ?_).trans hclear
    exact (congrArg (Option.map Heat.core) hI.heat).trans (entered_core hI.heat).symm
  · intro a ha
    have hm : Mapped (entered s x) x.key.ctx h.core (a.va / 256 * 256) (if out then .write else .read) p :=
      Mapped.congr (by rw [e0]) (by rw [e0]) (by rw [ha]; exact hmap)
    unfold State.translateAccs
    dsimp only [Tbl.find?]
    rw [envOf_ctx, envOf_core, translate_mapped hm, ha, hpa]
    rfl

/-- The two copies of one lane: a copy's body begins the copy, and nothing of the heat changes. -/
theorem copy_acts {i : Instr} (out : Bool) (sz : Nat) (o : Src) (m : Index) (b l va pa : Nat)
    (hexec : ∀ s, exec i s = issue i s (fun e w => e.copy out sz o m none b w)) :
    ActsOn i (fun e => CopyPlace e out b sz (e.index m l) (e.rd .n32 o l) l va pa)
      (fun e => copied out e l va pa (e.rcd b) sz (e.rd .n32 o l)) := by
  refine actsOn_of _ hexec fun s x h hI hP => ⟨_, copy_one hI out sz o m b hP, rfl, rfl, rfl, ?_⟩
  have hnow : (copied out (seen i s x h) l va pa (h.b256 b) sz (reads i s x h .n32 o l)).now = s.now := by
    rw [copied, wanted_now]
    cases out <;> rfl
  unfold withH
  rw [← hnow]
  rfl

/-- A heat with a completion's add among those that wait (R225). -/
def joined (p : PendCpyw) (g : Heat) : Heat :=
  { g with cpyw := if g.cpyw.any (fun q => q.before == p.before) then
      modifyFirst (fun q => q.before == p.before) (fun q => { q with accs := q.accs ++ p.accs }) g.cpyw else g.cpyw ++ [p] }

theorem joined_key (p : PendCpyw) (g : Heat) : (joined p g).key = g.key := rfl

theorem joined_lanes (p : PendCpyw) (g : Heat) : (joined p g).lanes = g.lanes := rfl

theorem joined_fresh {p : PendCpyw} {g : Heat} (hfresh : ∀ q ∈ g.cpyw, q.before ≠ p.before) : joined p g = { g with cpyw := g.cpyw ++ [p] } := by
  unfold joined
  rw [if_neg]
  rw [List.any_eq_true]
  exact fun ⟨q, hq, heq⟩ => hfresh q hq (eq_of_beq heq)

/-- A heat once a CPYW has left its add, and its operation is over (R121, R225). -/
def addLeft (i : Instr) (e : Seen) (p : PendCpyw) (g : Heat) : Heat := lowered i e (joined p g)

theorem addLeft_key (i : Instr) (e : Seen) (p : PendCpyw) (g : Heat) : (addLeft i e p g).key = g.key :=
  (lowered_key i e (joined p g)).trans (joined_key p g)

theorem addLeft_lanes (i : Instr) (e : Seen) (p : PendCpyw) (g : Heat) : (addLeft i e p g).lanes = g.lanes :=
  (lowered_lanes i e (joined p g)).trans (joined_lanes p g)

theorem addLeft_fresh {i : Instr} {e : Seen} {p : PendCpyw} {g : Heat} (hlong : Instr.long i = false) (hidle : g.busy = none)
    (hfresh : ∀ q ∈ g.cpyw, q.before ≠ p.before) : addLeft i e p g = { g with cpyw := g.cpyw ++ [p] } :=
  (lowered_short hlong e (joined p g) hidle).trans (joined_fresh hfresh)

/-- A CPYW of one lane leaves its add pending, and is over. -/
theorem sendReqs_cpyw (t : State) (h : Heat) (st : Bool) (a : Acc) (v sz : Nat) (sc : Scope) (hop : a.op = .cpyw v sz sc) :
    t.sendReqs h st [a] =
      (t.updHeat h.key (joined { before := a.opId, accs := [a], ctx := h.key.ctx, colour := a.colour })).opDone a.opId a.lane := by
  have hr : a.op.releases = false := by rw [hop]; rfl
  have hc : a.op.isCpyw = true := by rw [hop]; rfl
  unfold State.sendReqs
  simp only [List.filter_cons, List.filter_nil, hr, hc, Bool.false_eq_true, if_false, if_true, Bool.not_true, Bool.and_false]
  rfl

theorem cpyw_wf {c : Com} {sz b : Nat} {sc : Scope} {a : Src} {m : Index} (hw : Instr.wf (.cpyw c sz sc a m b) = true) :
    Instr.long (.cpyw c sz sc a m b) = false ∧ sz < 6 := by
  refine ⟨(long_of (Words.cpyw c sz sc a m b hw).1).trans rfl, ?_⟩
  have hw' : (Wf.com false c && decide (1 ≤ sc.code) && (sz == 3 || (sz == 2 && sc.code == 1)) && Wf.read (Wf.szT sz) a && Wf.index m &&
    Wf.recReg b) = true := hw
  simp only [Bool.and_eq_true, Bool.or_eq_true, beq_iff_eq] at hw'
  obtain ⟨⟨⟨⟨-, hsz⟩, -⟩, -⟩, -⟩ := hw'
  omega

/-- The completion words that a heat owes do not depend on the heats' own lists. -/
theorem cpywPending_entered (s : State) (x : Iss) (h : Heat) : (entered s x).cpywPending h = s.cpywPending h := by
  rw [entered_eq]
  rfl

/-- A CPYW through a local record stalls while 16 completion words of the heat are not performed, and is an access otherwise (R225). -/
theorem cpyw_body (c : Com) (sz b : Nat) (sc : Scope) (a : Src) (m : Index) : ∃ body : Env → Work → Work,
    (∀ s, exec (.cpyw c sz sc a m b) s = issue (.cpyw c sz sc a m b) s body) ∧
    ∀ s x h, recRemote (h.b256 b) = false → body (envOf (.cpyw c sz sc a m b) s x h) { s := entered s x } =
      if 16 ≤ s.cpywPending h then Work.stallWith (envOf (.cpyw c sz sc a m b) s x h) id
      else (envOf (.cpyw c sz sc a m b) s x h).accessBy (h.b256 b)
        (fun l => syncChk (2 ≤ sc.code) true (check (h.b256 b) sz ((envOf (.cpyw c sz sc a m b) s x h).index m l) .rmw))
        (fun l => .cpyw (if sz = 3 then (envOf (.cpyw c sz sc a m b) s x h).src64 a l else (envOf (.cpyw c sz sc a m b) s x h).src32 a l) sz sc)
        { s := entered s x } := by
  refine ⟨_, (exec_cpyw · c sz sc a m b), fun s x h hrem => ?_⟩
  dsimp only
  rw [show recRemote ((envOf (.cpyw c sz sc a m b) s x h).record b) = false from hrem, if_neg (by decide), cpywPending_entered]
  rfl

/-- The add that a CPYW of one lane leaves pending (R225). -/
def cpywAdd (e : Seen) (l va pa b sz : Nat) (sc : Scope) (a : Src) : PendCpyw where
  before := e.s.nid
  ctx := e.x.key.ctx
  accs := [{ lane := l, va := va, pa := pa, op := .cpyw (if sz = 3 then e.rd .n64 a l else e.rd .n32 a l) sz sc, opId := e.s.nid
             nopre := recNopre (e.rcd b), strm := recStream (e.rcd b) }]

theorem cpyw_acts (c : Com) (sz b : Nat) (sc : Scope) (a : Src) (m : Index) (l va pa : Nat) :
    Acts (.cpyw c sz sc a m b)
      (fun e => e.Place l .write va pa ∧ e.Checked b sz (e.index m l) .rmw va ∧ (sc.code ≤ 1 ∨ va % 64 = 0) ∧ e.s.cpywPending e.h < 16 ∧
        ∀ p ∈ e.h.cpyw, p.before ≠ e.s.nid)
      Seen.over1 (fun e => { e.h with cpyw := e.h.cpyw ++ [cpywAdd e l va pa b sz sc a] }) (fun _ _ y => y.advance) := by
  obtain ⟨body, hexec, hbody⟩ := cpyw_body c sz b sc a m
  -- `extra` stays a variable: the kernel would unfold the word's class to compare the heat it makes
  obtain ⟨extra, hextra⟩ : ∃ f : Seen → Heat → Heat, ∀ e, f e = addLeft (.cpyw c sz sc a m b) e (cpywAdd e l va pa b sz sc a) := ⟨_, fun _ => rfl⟩
  refine short_acts body hexec extra (fun e g => ?_) (fun e g => ?_) (fun s x h hI hP => ?_) (fun _ => rfl) (fun s x h hI hP => ⟨false, ?_⟩)
  · rw [hextra]
    exact addLeft_key _ e _ g
  · rw [hextra]
    exact addLeft_lanes _ e _ g
  · obtain ⟨hplace, -, -, -, hfresh⟩ := hP
    rw [hextra]
    exact addLeft_fresh (cpyw_wf (Issues_wf hI)).1 hplace.idle hfresh
  · obtain ⟨hplace, hC, hva, hpend, -⟩ := hP
    obtain ⟨hlong, hsz⟩ := cpyw_wf (Issues_wf hI)
    have hsync : syncChk (2 ≤ sc.code) true (.va va) = .va va := by
      rcases hva with hsc | hva
      · rw [decide_eq_false (by omega), syncChk_false]
      · exact syncChk_va hva
    have hchk : syncChk (2 ≤ sc.code) true (check (h.b256 b) sz ((envOf (.cpyw c sz sc a m b) s x h).index m l) .rmw) = .va va := by
      rw [envOf_index, show check (h.b256 b) sz ((seen _ s x h).index m l) .rmw = .va va from hC.1, hsync]
    have hacc := accessBy_one hI hplace (h.b256 b)
      (fun l => syncChk (2 ≤ sc.code) true (check (h.b256 b) sz ((envOf (.cpyw c sz sc a m b) s x h).index m l) .rmw))
      (fun l => .cpyw (if sz = 3 then (envOf (.cpyw c sz sc a m b) s x h).src64 a l else (envOf (.cpyw c sz sc a m b) s x h).src32 a l) sz sc)
      hchk (checked_colour hC) (checked_local hC) rfl (Nat.pow_lt_pow_right (by decide) hsz) false
    dsimp only [State.nearAccess, List.nil_append] at hacc
    rw [hbody s x h (checked_local hC), if_neg (show ¬ 16 ≤ s.cpywPending h from Nat.not_le.2 hpend)]
    refine hacc.trans (congrArg (fun t : State => ({ s := t } : Work)) ?_)
    rw [sendReqs_cpyw _ _ _ _ _ _ _ rfl, begun_withH, lifted_short hlong, updHeat_ident, State.heat?_key hI.heat]
    have hlow := opDone_low (s := s) (x := x) (h := h) hplace.fresh (opened (.cpyw c sz sc a m b) (seen _ s x h) l) rfl
      ((entered s x).updHeat x.key (joined (cpywAdd (seen (.cpyw c sz sc a m b) s x h) l va pa b sz sc a))).heats
    rw [withH_updHeat _ _ _ _ _ (joined_key _)] at hlow
    rw [hextra]
    exact hlow

/-- Settles O33: a copy's body comes to its operation and one request (`copy_one`), and a CPYW's to an add that waits (`cpyw_acts`). -/
theorem copiesBeginAndTheHeatGoesOn : Obligations.CopiesBeginAndTheHeatGoesOn := by
  unfold Obligations.CopiesBeginAndTheHeatGoesOn
  intro c sz b sc o a m l va pa here
  have hcopy : ∀ (i : Instr) (out : Bool), (∀ s, exec i s = issue i s (fun e w => e.copy out sz o m none b w)) →
      ActsOn i (fun e => here e (if out then .store else .load) (if out then .write else .read)) (fun e => copied out e l va pa (e.rcd b) sz (e.rd .n32 o l)) :=
    fun i out hexec s x h hI ⟨hone, hmapped, hchecked, hdebug, hjournal, hfree, hclear, hregion, hfresh⟩ =>
      copy_acts out sz o m b l va pa hexec s x h hI ⟨hone, hmapped, hchecked, hdebug, hjournal, hfree, hclear, hregion, hfresh⟩
  obtain ⟨body, hexec, hbody⟩ := cpyw_body c sz b sc a m
  refine ⟨hcopy _ false (exec_cpyin · c sz o m none b), hcopy _ true (exec_cpyout · c sz o m none b), cpyw_acts c sz b sc a m l va pa,
    fun s x h hI hrem hpend => stalls_of hI body hexec ?_⟩
  rw [hbody s x h hrem, if_pos hpend]

end Sys2Proof.Machine
end

section
/-! SUPPORT. The ends of what a heat waits for: the branches of the events' steps (R227, R232, R233, R274, R335, R348, R410, R429), and the
statement O47. -/

namespace Sys2Proof.Machine

open Sys2Proof Sys2Proof.Safe

/-! WAITA (R227). -/

/-- A lane that waits on a word of its region reads it again. -/
theorem reread_scr {s : State} {key : HeatKey} {l : Nat} {h : Heat} {addr y dl : Nat} {cmp : WaitCmp} {sg w64 : Bool} {d : Option Nat} {acq : Option Scope}
    (hw : Holds s key l h (.waita true addr cmp sg w64 y d dl acq)) (last : Bool) :
    s.reread key l last =
      if s.scrOwned h.unit (addr / 64) then s
      else if waitHolds cmp sg w64 (ofBytes (s.scrRead h.unit addr (if w64 then 8 else 4))) y then released key l d true s
      else if last then released key l d false s else s := by
  obtain ⟨hheat, hsaved, -, hst⟩ := hw
  unfold State.reread
  rw [hheat]
  dsimp only
  rw [hst]
  dsimp only
  rw [hsaved, if_neg (by decide), if_pos rfl]
  rfl

theorem waitaPoll_scr {s : State} {key : HeatKey} {l : Nat} {h : Heat} {addr y dl : Nat} {cmp : WaitCmp} {sg w64 : Bool} {d : Option Nat} {acq : Option Scope}
    (hw : Holds s key l h (.waita true addr cmp sg w64 y d dl acq)) :
    exec (.waitaPoll key l) s = .next (
      if s.scrOwned h.unit (addr / 64) then s
      else if waitHolds cmp sg w64 (ofBytes (s.scrRead h.unit addr (if w64 then 8 else 4))) y then released key l d true s else s) :=
  congrArg Host.Outcome.next (reread_scr hw false)

theorem waitaTimeout_eq {s : State} {key : HeatKey} {l : Nat} {h : Heat} {scr : Bool} {addr y dl : Nat} {cmp : WaitCmp} {sg w64 : Bool} {d : Option Nat}
    {acq : Option Scope} (hw : Holds s key l h (.waita scr addr cmp sg w64 y d dl acq)) :
    exec (.waitaTimeout key l) s = .next (if dl ≤ s.now then s.reread key l true else s) := by
  obtain ⟨hheat, -, hl, hst⟩ := hw
  rw [exec_waitaTimeout]
  unfold execWaitaTimeout
  rw [lane?_some hheat hl, Option.map_some, hst]

/-! HAND_OFF (R232, R233). -/

theorem handOffStep_none {s : State} {key : UnitKey} {u : RUnit} {n : Nat} (hu : s.unitOf key = some u) (hsaved : u.saved = false)
    (hnone : ∀ q ∈ u.handoffs, q.ring = n → s.handOffReady u q = false) : s.handOffStep key n = s.wakeRing u.id n := by
  have hfind : u.handoffs.find? (fun q => q.ring == n && s.handOffReady u q) = none :=
    List.find?_eq_none.2 fun q hq hready => by
      obtain ⟨hring, hready⟩ := Bool.and_eq_true_iff.1 hready
      rw [hnone q hq (eq_of_beq hring)] at hready
      cases hready
  unfold State.handOffStep
  rw [hu]
  dsimp only
  rw [hsaved, if_neg (by decide), hfind]

theorem handOffStep_ready {s : State} {key : UnitKey} {u : RUnit} {n : Nat} {x : HandOff} (hu : s.unitOf key = some u) (hsaved : u.saved = false)
    (hfind : u.handoffs.find? (fun q => q.ring == n && s.handOffReady u q) = some x) : s.handOffStep key n = s.handOffNow u x := by
  unfold State.handOffStep
  rw [hu]
  dsimp only
  rw [hsaved, if_neg (by decide), hfind]

/-- The filled slot of a ring of three stages goes to the operating stage, without a fault. -/
theorem handOffNow_fill {s : State} {u : RUnit} {x : HandOff} (hstage : x.stage = .fill) (hkilled : x.killed = false)
    (hthree : ringStages (s.scrRead u.id x.ring 64) = 3) (hfault : bit (ringState (s.scrRead u.id x.ring 64) x.slot) 3 = false) :
    s.handOffNow u x =
      ((((s.scrWrite u.id (x.ring + 24 + x.slot) (toBytes 1 (1 + 4 * b2n x.phase))).updUnit u.id
        (fun q => { q with handoffs := removeFirst (fun z => z = x) q.handoffs })).updHid u.id x.ring x.slot
          (fun _ => stampStage .fill u.core (s.clock u.core).toNat (Tbl.get {} u.hid (hidKey x.ring x.slot)))).wakeRing u.id x.ring) := by
  have hnext : nextStage (s.scrRead u.id x.ring 64) .fill = 1 := if_neg (by rw [hthree]; decide)
  unfold State.handOffNow
  dsimp only
  rw [hstage, hkilled, hfault, hnext, show decide (Stage.fill = .drain) = false from rfl, Bool.false_and, if_neg (by decide)]
  rfl

/-! MWAIT and the monitors (R335, R343, R347, R348). -/

theorem mwaitExpire_early {s : State} {key : HeatKey} {l : Nat} {h : Heat} {col depth dl span : Nat} {d : Option Nat} {note rel : Bool}
    (hw : Holds s key l h (.mwait col depth d dl span true note rel)) (hearly : s.now ≤ dl) : s.mwaitExpire key l = s := by
  obtain ⟨hheat, -, -, hst⟩ := hw
  unfold State.mwaitExpire
  rw [hheat]
  dsimp only
  rw [hst]
  exact if_neg fun hover => absurd hover.1 (Nat.not_lt.2 hearly)

theorem mwaitExpire_late {s : State} {key : HeatKey} {l : Nat} {h : Heat} {col depth dl span : Nat} {d : Option Nat} {note rel : Bool} {f : Waiter}
    (hw : Holds s key l h (.mwait col depth d dl span true note rel)) (hover : dl < s.now)
    (hfind : (s.monQ key.ctx col).find? (fun q => q.key = key ∧ q.lane = l) = some f) :
    s.mwaitExpire key l = s.wakeSleeper key.ctx col f false := by
  obtain ⟨hheat, hsaved, -, hst⟩ := hw
  unfold State.mwaitExpire
  rw [hheat]
  dsimp only
  rw [hst]
  dsimp only
  rw [if_pos ⟨hover, hsaved⟩, hfind]

theorem grant_none {s : State} {ctx col : Nat} (hnone : s.grantee ctx col = none) : s.grant ctx col = s := by
  unfold State.grant
  rw [hnone]

/-- The end of an acquisition of an entry that is not abandoned. -/
theorem finishAcquire_granted {s : State} {h : Heat} {l col depth pa : Nat} (hwhole : (s.acquireObj h.key.ctx h.core pa).abandoned pa = false) :
    s.finishAcquire h l col depth pa =
      (.granted, (s.acquireObj h.key.ctx h.core pa).updLane h.key l (fun z => { z with held := addHeld z.held { colour := col, depth := depth } })) :=
  if_neg (by rw [Bool.not_eq_true]; exact hwhole)

/-- A lane that claims one colour takes its grant, and its word is over. -/
theorem grant_claim {s : State} {ctx l col pa : Nat} {key : HeatKey} {h : Heat} (hw : Holds s key l h (.claim [col])) (hkey : h.key = key)
    (hgrantee : s.grantee ctx col = some (key, l, pa)) (hwhole : (s.acquireObj key.ctx h.core pa).abandoned pa = false) :
    s.grant ctx col = released key l none true ((s.acquireObj key.ctx h.core pa).updLane key l
      (fun z => { z with held := addHeld z.held { colour := col, depth := (h.lane l).depth } })) := by
  obtain ⟨hheat, -, hl, hst⟩ := hw
  subst hkey
  unfold State.grant
  rw [hgrantee]
  dsimp only
  rw [hheat, lane?_some hheat hl]
  dsimp only
  rw [hst]
  dsimp only
  rw [finishAcquire_granted hwhole, List.filter_cons, if_neg (by simp)]
  rfl

/-! RELEASE_DEPOSIT (R274, R306). -/

theorem releaseStep_eq {s : State} {origin ctx mark : Nat} {r : PendRel} {g : Sig}
    (hhead : s.rels.find? (fun q => q.ctx = ctx ∧ q.origin = origin) = some r) (hcap : r.cap = some (g, mark)) (hcolour : r.colour = none) {pa : Nat}
    (hobj : r.obj = some pa) :
    s.releaseStep origin ctx =
      if !(s.performed origin mark r.scope) then s
      else if !(s.objectFree (originDie origin) pa) then s.ask (originDie origin) (pa / 64) true
      else (({ s.depositRel r g with rels := removeFirst (fun q => q = r) s.rels } : State).capture ctx origin).flushAll := by
  unfold State.releaseStep
  rw [hhead]
  dsimp only
  rw [hcap]
  dsimp only
  rw [hobj, hcolour]

theorem releaseStep_waits {s : State} {origin ctx mark : Nat} {r : PendRel} {g : Sig}
    (hhead : s.rels.find? (fun q => q.ctx = ctx ∧ q.origin = origin) = some r) (hcap : r.cap = some (g, mark))
    (hpending : s.performed origin mark r.scope = false) : s.releaseStep origin ctx = s := by
  unfold State.releaseStep
  rw [hhead]
  dsimp only
  rw [hcap]
  dsimp only
  exact if_pos (by rw [hpending]; rfl)

theorem depositRel_set {s : State} {r : PendRel} {pa v : Nat} (hobj : r.obj = some pa) (hval : r.val = .set v) (g : Sig) :
    s.depositRel r g = s.deposit r.ctx r.origin r.scope g (some (pa, v)) r.flags := by
  unfold State.depositRel State.relValue
  rw [hobj]
  dsimp only
  rw [hval]

/-! TLBINV_COMPLETE (R410). -/

theorem tlbinvDone_eq {s : State} {key : HeatKey} {h : Heat} {lo hi mark : Nat} (hheat : s.heat? key = some h) (hbusy : h.busy = some (.tlbinv lo hi mark)) :
    s.tlbinvDone key = if s.oldUse key.ctx lo hi mark then s else s.updHeat key (fun z => { z with busy := none }) := by
  unfold State.tlbinvDone
  rw [hheat]
  dsimp only
  rw [hbusy]

theorem settleMaps_none {s : State} (hnone : s.maps = []) : s.settleMaps = s := by
  cases s
  subst hnone
  rfl

/-- Settles O47: each clause is one branch of the step that the event names. -/
theorem waitsEndWhenTheirEventsCome : Obligations.WaitsEndWhenTheirEventsCome := by
  unfold Obligations.WaitsEndWhenTheirEventsCome
  intro key l h addr y n dl pa col span depth origin ctx v lo hi mark d cmp sg w64 note rel phase u x f r g polls word holds head
  refine ⟨?_, ?_, ?_, ?_, ?_, ?_, ?_, ?_, ?_, ?_, ?_, ?_, ?_, ?_, ?_, ?_, ?_⟩
  · rintro s ⟨hpolls, howned, hholds⟩
    rw [waitaPoll_scr hpolls, howned, if_neg (by decide), if_pos hholds]
  · rintro s ⟨hpolls, hfails⟩
    rw [waitaPoll_scr hpolls, if_neg hfails, ite_self]
    rfl
  · rintro s ⟨hpolls, hover, howned, hholds⟩
    rw [waitaTimeout_eq hpolls, if_pos hover, reread_scr hpolls, howned, if_neg (by decide), if_pos hholds]
  · rintro s ⟨hpolls, hover, howned, hfails⟩
    rw [waitaTimeout_eq hpolls, if_pos hover, reread_scr hpolls, howned, if_neg (by decide), if_neg hfails, if_pos rfl]
  · rintro s ⟨hpolls, hearly⟩
    rw [waitaTimeout_eq hpolls, if_neg (Nat.not_le.2 hearly)]
    rfl
  · rintro s ⟨hu, hsaved, hfind, hx, hthree, hfault⟩
    have hring : x.ring = n := congrArg HandOff.ring hx
    have hphase : x.phase = phase := congrArg HandOff.phase hx
    refine congrArg Host.Outcome.next ((handOffStep_ready hu hsaved hfind).trans ?_)
    rw [handOffNow_fill (congrArg HandOff.stage hx) (congrArg HandOff.killed hx) (by rw [hring]; exact hthree) (by rw [hring]; exact hfault), hring, hphase]
  · rintro s ⟨hu, hsaved, hnone⟩
    exact congrArg Host.Outcome.next (handOffStep_none hu hsaved hnone)
  · rintro s ⟨hw, hover, hfind⟩
    exact congrArg Host.Outcome.next (mwaitExpire_late hw hover hfind)
  · rintro s ⟨hw, hearly⟩
    exact congrArg Host.Outcome.next (mwaitExpire_early hw hearly)
  · rintro s ⟨hw, hkey, hgrantee, hwhole⟩
    exact congrArg Host.Outcome.next (grant_claim hw hkey hgrantee hwhole)
  · exact fun s hnone => congrArg Host.Outcome.next (grant_none hnone)
  · rintro s ⟨⟨hhead, hcap⟩, hobj, hval, hcolour, hperformed, hfree⟩
    refine congrArg Host.Outcome.next ((releaseStep_eq hhead hcap hcolour hobj).trans ?_)
    rw [hperformed, hfree, if_neg (by decide), if_neg (by decide), depositRel_set hobj hval]
  · rintro s ⟨⟨hhead, hcap⟩, hpending⟩
    exact congrArg Host.Outcome.next (releaseStep_waits hhead hcap hpending)
  · rintro s ⟨hheat, hbusy, hclear⟩
    refine congrArg (fun t => Host.Outcome.next (State.settleMaps t)) ((tlbinvDone_eq hheat hbusy).trans ?_)
    rw [hclear, if_neg (by decide)]
  · rintro s ⟨hheat, hbusy, hused, hmaps⟩
    have hdone : s.tlbinvDone key = s := (tlbinvDone_eq hheat hbusy).trans (if_pos hused)
    exact congrArg Host.Outcome.next ((congrArg State.settleMaps hdone).trans (settleMaps_none hmaps))
  · exact fun s hbegun => congrArg Host.Outcome.next (if_pos hbegun)
  · exact fun s hnot => congrArg Host.Outcome.next (if_neg (by rw [hnot]; decide))

end Sys2Proof.Machine
end

section
/-! SUPPORT. Marks (R241, R251): what MMARK makes of its team's mark register, and the statement O34. -/

namespace Sys2Proof.Machine

open Sys2Proof Sys2Proof.Safe

/-- A mark may be written: it names heats of the team alone, and no operation of its register waits for signatures (R251). -/
def Team.takesMark (t : Team) (m : Nat) (x : Mark) : Prop := (∀ n ∈ x.names, n < t.heats) ∧ Tbl.find? t.partials m = none

theorem takesMark_iff {t : Team} {m : Nat} {x : Mark} :
    (x.names.any (fun h => t.heats ≤ h) || (Tbl.find? t.partials m).isSome) = false ↔ t.takesMark m x := by
  simp [Team.takesMark]

section
variable {i : Instr} {s : State} {q : Iss} {h : Heat} {u : RUnit} {t : Team} {m : Nat} {x : Mark}

/-- The write of a mark where the issuing heat's team is found. -/
theorem setMark_team (hne : active i q h ≠ []) (hT : (seen i s q h).Team u t) :
    (envOf i s q h).setMark m x { s := entered s q } =
      if x.names.any (fun h => t.heats ≤ h) || (Tbl.find? t.partials m).isSome then
        { s := entered s q, traps := (active i q h).map (fun l => (l, { cause := .perm })) }
      else { s := (entered s q).updTeam h.unit q.key.team (fun t => { t with marks := Tbl.put {} t.marks m x }) } := by
  obtain ⟨hu, ht⟩ := Seen.team_entered hT
  have hteam : ((entered s q).unit? (envOf i s q h).h.unit).bind (fun u => u.team? (envOf i s q h).key.team) = some t :=
    (congrArg (Option.bind · _) hu).trans ht
  unfold Env.setMark
  rw [if_neg (act_ne hne), hteam]
  rfl

theorem setMark_writes (hne : active i q h ≠ []) (hT : (seen i s q h).Team u t) (hok : t.takesMark m x) :
    (envOf i s q h).setMark m x { s := entered s q } =
      { s := (entered s q).updTeam h.unit q.key.team (fun t => { t with marks := Tbl.put {} t.marks m x }) } := by
  rw [setMark_team hne hT, takesMark_iff.2 hok, if_neg (by decide)]

theorem setMark_traps (hne : active i q h ≠ []) (hT : (seen i s q h).Team u t) (hbad : ¬ t.takesMark m x) :
    (envOf i s q h).setMark m x { s := entered s q } =
      { s := entered s q, traps := (active i q h).map (fun l => (l, { cause := .perm })) } := by
  rw [setMark_team hne hT, if_pos (by rwa [← takesMark_iff, Bool.not_eq_false] at hbad)]

end

/-- What a form of MMARK does, from the mark that it writes. -/
theorem mmark_spec {i : Instr} {m : Nat} (x : Seen → Mark) (y : Env → Mark)
    (hbody : ∀ s, exec i s = issue i s (fun e w => e.setMark m (y e) w)) (hy : ∀ s q h, y (envOf i s q h) = x (seen i s q h)) :
    ActsOn i (fun e => e.act ≠ [] ∧ ∃ u t, e.Team u t ∧ t.takesMark m (x e))
      (fun e => e.s.updTeam e.h.unit e.x.key.team (fun t => { t with marks := Tbl.put {} t.marks m (x e) })) ∧
    ∀ s h q, Issues i s q h → active i q h ≠ [] → (∃ u t, (seen i s q h).Team u t ∧ ¬ t.takesMark m (x (seen i s q h))) →
      (∀ l ∈ q.lanes, (h.lane l).task = none) → ∃ t, exec i s = .next t ∧ Parked s t q h (active i q h) (fun _ => { cause := .perm }) 11 := by
  constructor
  · refine actsOn_of _ hbody fun s q h hI hP => ?_
    obtain ⟨hne, u, t, hT, hok⟩ := hP
    refine ⟨_, (congrArg (fun z => (envOf i s q h).setMark m z { s := entered s q }) (hy s q h)).trans (setMark_writes hne hT hok),
      rfl, rfl, rfl, ?_⟩
    rw [entered_eq]
    rfl
  · rintro s h q hI hne ⟨u, t, hT, hbad⟩ ht
    exact perm_parked hI hne ht _ (hbody s) false
      ((congrArg (fun z => (envOf i s q h).setMark m z { s := entered s q }) (hy s q h)).trans (setMark_traps hne hT hbad))

/-- Settles O34: the three forms of MMARK write the marks that they name by one rule (`mmark_spec`). -/
theorem marksNameTheSigners : Obligations.MarksNameTheSigners := by
  unfold Obligations.MarksNameTheSigners
  rintro c m g a i x (⟨rfl, rfl⟩ | ⟨rfl, rfl⟩ | ⟨rfl, rfl⟩)
  · exact mmark_spec _ _ (exec_mmarkSelf · c m) fun _ _ _ => rfl
  · exact mmark_spec _ _ (exec_mmarkMask · c m g a) fun s q h => congrArg (fun n => (⟨n, g⟩ : Mark)) (envOf_src32 _ s q h a _)
  · exact mmark_spec _ _ (exec_mmarkClear · c m) fun _ _ _ => rfl

end Sys2Proof.Machine
end

section
/-! SUPPORT. Signed matrix instructions (R121, R123, R242 to R244, R250): the beginning of an operation for several lanes, the first
signature of an operation, and the statement O35. -/

namespace Sys2Proof.Machine

open Sys2Proof Sys2Proof.Safe

/-! An operation begun for every active lane (R121, R123). -/

/-- The heat's part of the beginning: the flag's count raised and the uniform destinations marked. -/
def begunHeat (i : Instr) (e : Seen) : Heat := if Instr.long i then raised i e else e.h

/-- A lane's part of the beginning: its destinations marked. -/
def begunLane (i : Instr) (e : Seen) (y : Lane) : Lane := if Instr.long i then marked i e y else y

/-- What the beginning does to a heat. -/
def beginHeat (i : Instr) (e : Seen) (g : Heat) : Heat :=
  if Instr.long i then
    let g := e.act.foldl (fun g l => g.updLane l (marked i e)) (g.flagUp (Seen.flag i e))
    { g with kpend := g.kpend ++ (Instr.destK i).map (fun k => (k, Seen.flag i e)) }
  else g

section
variable {i : Instr} {e : Seen}

theorem beginHeat_key (g : Heat) : (beginHeat i e g).key = g.key := by
  unfold beginHeat
  split
  · exact Heat.foldl_updLane_key e.act (fun _ => marked i e) _
  · rfl

theorem beginHeat_eq : beginHeat i e e.h = { begunHeat i e with lanes := (beginHeat i e e.h).lanes } := by
  unfold beginHeat begunHeat
  split
  · rw [Heat.foldl_updLane_eq e.act (fun _ => marked i e)]
    rfl
  · rfl

theorem beginHeat_length (g : Heat) : (beginHeat i e g).lanes.length = g.lanes.length := by
  unfold beginHeat
  split
  · exact Heat.length_foldl_updLane e.act (fun _ => marked i e) _
  · rfl

theorem beginHeat_lane (hn : e.act.Nodup) (g : Heat) (l : Nat) :
    (beginHeat i e g).lane l = if l ∈ e.act ∧ l < g.lanes.length then begunLane i e (g.lane l) else g.lane l := by
  unfold beginHeat begunLane
  by_cases hlong : Instr.long i = true
  · rw [if_pos hlong, if_pos hlong]
    exact Heat.lane_foldl_updLane e.act (fun _ => marked i e) (g.flagUp (Seen.flag i e)) l hn
  · rw [if_neg hlong, if_neg hlong, ite_self]

theorem begunLane_st (y : Lane) : (begunLane i e y).st = y.st := by
  unfold begunLane
  split <;> rfl

end

section
variable {i : Instr} {s : State} {x : Iss} {h : Heat}

/-- The part once the word's operation has begun for its active lanes. -/
def begunAll (i : Instr) (s : State) (x : Iss) (h : Heat) : State :=
  withH (opens i (seen i s x h)) ((entered s x).updHeat x.key (beginHeat i (seen i s x h))).heats

theorem begin_all (hne : active i x h ≠ []) : (envOf i s x h).begin { s := entered s x } = (s.nid, { s := begunAll i s x h }) := by
  have hact : (envOf i s x h).act.isEmpty = false := Bool.eq_false_iff.2 (act_ne (s := s) hne)
  have e0 := entered_eq s x
  unfold Env.begin begunAll opens beginHeat
  rw [if_neg (act_ne (s := s) hne)]
  generalize (entered s x).heats = H at e0
  rw [e0]
  cases hlong : Instr.long i
  · have hlong' : Instr.long (envOf i s x h).i = false := hlong
    simp only [hlong', Bool.false_eq_true, if_false, State.updHeat_id]
    rfl
  · have hlong' : Instr.long (envOf i s x h).i = true := hlong
    simp only [hlong', if_true]
    unfold Env.mark
    show (_, ({ s := (State.updHeat _ _ _).updHeat _ _ } : Work)) = _
    rw [State.updHeat_updHeat]
    · simp only [hact, Bool.false_eq_true, if_false]
      rfl
    · exact fun _ => rfl

/-! The first signature of an operation (R242, R243). -/

/-- The operand of a lane. -/
def signOperand (a : Option Src) (e : Seen) (l : Nat) : Nat := match a with | none => 0 | some q => e.rd .n32 q l

/-- The signatures of the issue's active lanes. -/
def signing (i : Instr) (s : State) (x : Iss) (h : Heat) (a : Option Src) : Signer where
  heat := x.key.heat
  lanes := (active i x h).map (fun l =>
    { lane := l, operand := signOperand a (seen i s x h) l, op := s.nid })
  born := s.nid

/-- The operation with these signatures alone. -/
def firstSigned (i : Instr) (s : State) (x : Iss) (h : Heat) (f : MFields) (a : Option Src) : Partial where
  word := fld (encode i) 0 48 + fld (encode i) 56 8 * 2 ^ 56
  fields := f
  signers := [signing i s x h a]

/-- The operand that the array takes is the lowest active lane's (R243). -/
theorem signing_operand (hne : active i x h ≠ []) (a : Option Src) :
    ((signing i s x h a).lanes.head?.map (·.operand)).getD 0 =
      signOperand a (seen i s x h) (seen i s x h).low := by
  unfold signing Seen.low seen
  dsimp only
  cases hact : active i x h with
  | nil => exact absurd hact hne
  | cons l ls => rfl

theorem signing_ordered (hI : Issues i s x h) (a : Option Src) : (signing i s x h a).lanes.Pairwise (fun y z => y.lane ≤ z.lane) :=
  List.pairwise_map.2 ((hI.order.filter _).imp Nat.le_of_lt)

theorem signing_waits (a : Option Src) : ∀ y ∈ (signing i s x h a).lanes, (begunAll i s x h).signs y = true := by
  intro y hy
  obtain ⟨l, hl, rfl⟩ := List.mem_map.1 hy
  refine List.any_eq_true.2 ⟨_, List.mem_append_right s.ops (List.mem_singleton_self _), ?_⟩
  simp [seen, hl]

/-- A signed instruction that its mark does not name (R242). -/
theorem sign_unnamed {u : RUnit} {t : Team} {m : Nat} (f : MFields) (a : Option Src) (hT : (seen i s x h).Team u t)
    (hun : x.key.heat ∉ (Tbl.get {} t.marks m).names) : (envOf i s x h).sign m f a { s := entered s x } =
      { s := entered s x, traps := (active i x h).map (fun l => (l, { cause := .perm })) } := by
  obtain ⟨hu, ht⟩ := Seen.team_entered hT
  unfold Env.sign
  rw [show (entered s x).unit? (envOf i s x h).h.unit = some u from hu]
  dsimp only
  rw [show u.team? (envOf i s x h).key.team = some t from ht]
  dsimp only
  rw [if_pos]
  · rfl
  · rw [show (Tbl.get {} t.marks m).names.contains (envOf i s x h).key.heat = false from by
      rw [← Bool.not_eq_true, List.contains_iff_mem]; exact hun]
    rfl

/-- A signed instruction that nobody has signed before: fully signed, or waiting for the others that its mark names (R242). -/
theorem sign_first {u : RUnit} {t : Team} {m : Nat} (f : MFields) (a : Option Src) (hT : (seen i s x h).Team u t) (hne : active i x h ≠ [])
    (hnamed : x.key.heat ∈ (Tbl.get {} t.marks m).names) (hfresh : Tbl.find? t.partials m = none)
    (hroom : s.allSigned h.unit x.key.team (Tbl.get {} t.marks m) [x.key.heat] = true → (s.array u.core f.arr).q.length < 16) :
    (envOf i s x h).sign m f a { s := entered s x } =
      if s.allSigned h.unit x.key.team (Tbl.get {} t.marks m) [x.key.heat] then
        let r := (begunAll i s x h).fullySigned u t x.key.ctx x.key.serial m (firstSigned i s x h f a)
          (fun k l => k == x.key.heat && (active i x h).contains l)
        match r.1 with
        | some y => ({ s := r.2 } : Work).trapAll (active i x h) y
        | none => { s := r.2 }
      else (envOf i s x h).each (fun w l => w.block (envOf i s x h) l (.sign m))
        { s := (begunAll i s x h).updTeam h.unit x.key.team (fun t => { t with partials := Tbl.set t.partials m (firstSigned i s x h f a) }) } := by
  obtain ⟨hu, ht⟩ := Seen.team_entered hT
  have hid : u.id = h.unit := by simpa using List.find?_some hu
  have htid : t.team = x.key.team := by simpa using List.find?_some ht
  have hsigned : (entered s x).allSigned h.unit x.key.team (Tbl.get {} t.marks m) [x.key.heat] =
      s.allSigned h.unit x.key.team (Tbl.get {} t.marks m) [x.key.heat] := by
    unfold State.allSigned
    rw [liveHeats_entered]
  have harray : (entered s x).array u.core f.arr = s.array u.core f.arr := by rw [entered_eq]; rfl
  have hnid : (entered s x).nid = s.nid := by rw [entered_eq]
  have hlanes : (envOf i s x h).act.map (fun l => ({ lane := l, operand := (envOf i s x h).rb a l, op := s.nid } : SignLane)) =
      (signing i s x h a).lanes := by
    simp only [envOf_rb]
    rfl
  unfold Env.sign
  rw [show (entered s x).unit? (envOf i s x h).h.unit = some u from hu]
  dsimp only
  rw [show u.team? (envOf i s x h).key.team = some t from ht]
  dsimp only
  rw [hfresh, show (Tbl.get {} t.marks m).names.contains (envOf i s x h).key.heat = true from List.contains_iff_mem.2 hnamed]
  dsimp only [Option.getD_none]
  refine (if_neg (by simp)).trans ?_
  rw [begin_all hne]
  dsimp only
  rw [hlanes, hnid, hid, htid]
  rw [← hsigned, ← harray] at hroom
  rw [← hsigned]
  by_cases hfull : (entered s x).allSigned h.unit x.key.team (Tbl.get {} t.marks m) [x.key.heat] = true
  · have hgoes : ¬ ((entered s x).allSigned h.unit x.key.team (Tbl.get {} t.marks m) [x.key.heat] &&
        decide (16 ≤ ((entered s x).array u.core f.arr).q.length)) = true := by
      simpa [hfull] using hroom hfull
    exact (if_neg hgoes).trans ((if_pos hfull).trans (if_pos hfull).symm)
  · have hgoes : ¬ ((entered s x).allSigned h.unit x.key.team (Tbl.get {} t.marks m) [x.key.heat] &&
        decide (16 ≤ ((entered s x).array u.core f.arr).q.length)) = true := by
      simp [hfull]
    exact (if_neg hgoes).trans ((if_neg hfull).trans (if_neg hfull).symm)

end

/-! An operation that one heat signs, and that is then in the queue (R242 to R244). -/

section
variable {s : State} {p : Partial} {g : Signer}

/-- The lanes of the one signature wait in their order. -/
theorem waiting_one (hp : p.signers = [g]) (hwait : ∀ y ∈ g.lanes, s.signs y = true) (horder : g.lanes.Pairwise (fun y z => y.lane ≤ z.lane))
    (hne : g.lanes ≠ []) : s.waiting p = [(g.heat, g.lanes)] := by
  have hlanes : (g.lanes.filter s.signs).mergeSort (fun y z => y.lane ≤ z.lane) = g.lanes := by
    rw [List.filter_eq_self.2 hwait]
    exact List.mergeSort_of_pairwise (horder.imp decide_eq_true)
  unfold State.waiting
  rw [hp, List.map_singleton, hlanes, List.filter_singleton, List.isEmpty_eq_false_iff.2 hne]
  exact List.mergeSort_singleton _

/-- The operation that enters the queue with one signature. -/
def queuedOp (p : Partial) (g : Signer) (off id ctx serial team unit : Nat) : MOp where
  id := id
  ctx := ctx
  serial := serial
  team := team
  unit := unit
  fields := p.fields
  off := off
  signers := [g]
  operandHeat := g.heat

theorem fullySigned_one {u : RUnit} {t : Team} {ctx serial m : Nat} {mine : Nat → Nat → Bool} (hp : p.signers = [g])
    (hwait : ∀ y ∈ g.lanes, s.signs y = true) (horder : g.lanes.Pairwise (fun y z => y.lane ≤ z.lane)) (hne : g.lanes ≠ [])
    (hmine : ∀ y ∈ g.lanes, mine g.heat y.lane = true)
    (htraps : matrixTraps (s.array u.core p.fields.arr) u.size p.fields ((g.lanes.head?.map (·.operand)).getD 0) = []) :
    s.fullySigned u t ctx serial m p mine =
      (none, State.updArray { s.updTeam u.id t.team (fun t => { t with partials := Tbl.erase t.partials m }) with nid := s.nid + 1 } u.core p.fields.arr
        (fun a => { a with q := a.q ++ [queuedOp p g ((g.lanes.head?.map (·.operand)).getD 0) s.nid ctx serial t.team u.id] })) := by
  obtain ⟨s1, hs1⟩ : ∃ s1, s1 = s.updTeam u.id t.team (fun t => { t with partials := Tbl.erase t.partials m }) := ⟨_, rfl⟩
  have hwait1 : ∀ y ∈ g.lanes, s1.signs y = true := by rw [hs1]; exact hwait
  have hothers : [(g.heat, g.lanes)].flatMap (fun g => (g.2.filter (fun x => !(mine g.1 x.lane))).map (fun x => (g.1, x))) = [] := by
    rw [List.flatMap_singleton, List.filter_eq_nil_iff.2 (fun y hy => by simp [hmine y hy]), List.map_nil]
  have hsigners : p.signers.map (fun g => { g with lanes := g.lanes.filter s1.signs }) = [g] := by
    rw [hp, List.map_singleton, List.filter_eq_self.2 hwait1]
  have htraps1 : matrixTraps (s1.array u.core p.fields.arr) u.size p.fields ((g.lanes.head?.map (·.operand)).getD 0) = [] := by
    rw [hs1]; exact htraps
  have hnid : s1.nid = s.nid := by rw [hs1]; rfl
  unfold State.fullySigned
  dsimp only
  rw [← hs1, waiting_one hp hwait1 horder hne]
  dsimp only
  rw [hothers, htraps1, hsigners, hnid, hs1]
  rfl

end

/-! What a signed instruction comes to (R242 to R244, R249). -/

/-- Every instruction of row 0xA that is made through a mark signs it with its fields and its operand. -/
theorem exec_signed {i : Instr} {m : Nat} {f : MFields} {a : Option Src} (hi : Signed i m f a) :
    ∀ s, exec i s = issue i s (fun e w => e.sign m f a w) := by
  obtain ⟨c, arr, x, y, t, row, cnt, d, q, hi⟩ := hi
  rcases hi with ⟨rfl, rfl, rfl⟩ | ⟨rfl, rfl, rfl⟩ | ⟨rfl, rfl, rfl⟩ | ⟨rfl, rfl, rfl⟩ | ⟨rfl, rfl, rfl⟩ | ⟨rfl, rfl, rfl⟩ | ⟨rfl, rfl, rfl⟩ |
    ⟨rfl, rfl, rfl⟩
  · exact (exec_mldw · c m arr t x q)
  · exact (exec_mswap · c m arr)
  · exact (exec_mstr · c m arr t x row q cnt)
  · exact (exec_mdist · c m arr t x row q cnt)
  · exact (exec_mtopk · c m arr x row d cnt)
  · exact (exec_mrd · c m arr x row d)
  · exact (exec_mrdScr · c m arr x y row q cnt)
  · exact (exec_mclr · c m arr x row cnt)

/-- The issuing heat is named, and nobody has signed before. -/
structure Opens (m : Nat) (e : Seen) (u : RUnit) (t : Team) : Prop where
  some_lane : e.act ≠ []
  team : e.Team u t
  named : e.x.key.heat ∈ (Tbl.get {} t.marks m).names
  unsigned : Tbl.find? t.partials m = none

/-- The issuing heat signs alone, and the checks of R250 pass. -/
def SignsAlone (m : Nat) (f : MFields) (a : Option Src) (e : Seen) : Prop := ∃ u t, Opens m e u t ∧
  (∀ n ∈ (Tbl.get {} t.marks m).names, n = e.x.key.heat) ∧ u.core = e.h.core ∧ (e.s.array e.h.core f.arr).q.length < 16 ∧
  matrixTraps (e.s.array e.h.core f.arr) u.size f (signOperand a e e.low) = []

/-- Another live heat of the team has to sign. -/
def SignsFirst (m : Nat) (e : Seen) : Prop := ∃ u t n, Opens m e u t ∧ n ∈ (Tbl.get {} t.marks m).names ∧ n ≠ e.x.key.heat ∧
  n ∈ e.s.liveHeats e.h.unit e.x.key.team

/-- The part with the operation in its array's queue. -/
def queuedFor (i : Instr) (m : Nat) (f : MFields) (a : Option Src) (e : Seen) : State :=
  let s : State := (opens i e).updTeam e.h.unit e.x.key.team (fun t => { t with partials := Tbl.erase t.partials m })
  State.updArray { s with nid := e.s.nid + 2 } e.h.core f.arr (fun x => { x with q := x.q ++
    [queuedOp (firstSigned i e.s e.x e.h f a) (signing i e.s e.x e.h a) (signOperand a e e.low) (e.s.nid + 1) e.x.key.ctx e.x.key.serial e.x.key.team e.h.unit] })

/-- The part with the operation partly signed. -/
def partlyFor (i : Instr) (m : Nat) (f : MFields) (a : Option Src) (e : Seen) : State :=
  (opens i e).updTeam e.h.unit e.x.key.team (fun t => { t with partials := Tbl.set t.partials m (firstSigned i e.s e.x e.h f a) })

section
variable {i : Instr} {s : State} {x : Iss} {h : Heat} {m : Nat} {f : MFields} {a : Option Src}

theorem team_ids {e : Seen} {u : RUnit} {t : Team} (hT : e.Team u t) : u.id = e.h.unit ∧ t.team = e.x.key.team :=
  ⟨of_decide_eq_true (List.find?_some hT.1 :), of_decide_eq_true (List.find?_some hT.2 :)⟩

theorem allSigned_alone {u t : Nat} {mk : Mark} {k : Nat} (honly : ∀ n ∈ mk.names, n = k) : s.allSigned u t mk [k] = true := by
  unfold State.allSigned
  exact List.all_eq_true.2 fun n hn => by simp [honly n hn]

theorem allSigned_open {u t : Nat} {mk : Mark} {k n : Nat} (hn : n ∈ mk.names) (hother : n ≠ k) (hlive : n ∈ s.liveHeats u t) :
    s.allSigned u t mk [k] = false := by
  unfold State.allSigned
  exact List.all_eq_false.2 ⟨n, hn, by simp [hother, hlive]⟩

theorem sign_alone (hI : Issues i s x h) (hP : SignsAlone m f a (seen i s x h)) :
    (envOf i s x h).sign m f a { s := entered s x } =
      { s := withH (queuedFor i m f a (seen i s x h)) ((entered s x).updHeat x.key (beginHeat i (seen i s x h))).heats } := by
  obtain ⟨u, t, ⟨hne, hT, hnamed, hfresh⟩, honly, hcore, hroom, htraps⟩ := hP
  obtain ⟨hid, htid⟩ := team_ids hT
  have hne' : (signing i s x h a).lanes ≠ [] := fun hnil => hne (List.map_eq_nil_iff.1 hnil)
  have hsigned := fullySigned_one (s := begunAll i s x h) (p := firstSigned i s x h f a) (g := signing i s x h a) (u := u) (t := t)
    (ctx := x.key.ctx) (serial := x.key.serial) (m := m) (mine := fun k l => k == x.key.heat && (active i x h).contains l)
    rfl (signing_waits a) (signing_ordered hI a) hne' ?_ ?_
  · rw [sign_first f a hT hne hnamed hfresh (fun _ => hcore ▸ hroom), show s.allSigned h.unit x.key.team _ [x.key.heat] = true from allSigned_alone honly,
      if_pos rfl, hsigned]
    dsimp only
    rw [signing_operand hne, hid, htid, hcore]
    rfl
  · intro y hy
    obtain ⟨l, hl, rfl⟩ := List.mem_map.1 hy
    simp [signing, hl]
  · rw [signing_operand hne, hcore]
    exact htraps

/-- What the beginning and the wait for the others do to a heat. -/
def blockHeat (i : Instr) (m : Nat) (e : Seen) (g : Heat) : Heat := e.act.foldl (fun g l => g.updLane l (blocked (.sign m))) (beginHeat i e g)

theorem blockHeat_key {e : Seen} (g : Heat) : (blockHeat i m e g).key = g.key :=
  (Heat.foldl_updLane_key e.act (fun _ => blocked (.sign m)) _).trans (beginHeat_key g)

theorem blockHeat_eq {e : Seen} : blockHeat i m e e.h = { begunHeat i e with lanes := (blockHeat i m e e.h).lanes } :=
  (Heat.foldl_updLane_eq e.act (fun _ => blocked (.sign m)) _).trans
    (congrArg (fun g : Heat => { g with lanes := (blockHeat i m e e.h).lanes }) beginHeat_eq)

theorem blockHeat_length {e : Seen} (g : Heat) : (blockHeat i m e g).lanes.length = g.lanes.length :=
  (Heat.length_foldl_updLane e.act (fun _ => blocked (.sign m)) _).trans (beginHeat_length g)

theorem sign_partly (hP : SignsFirst m (seen i s x h)) :
    (envOf i s x h).sign m f a { s := entered s x } =
      { s := withH (partlyFor i m f a (seen i s x h)) ((entered s x).updHeat x.key (blockHeat i m (seen i s x h))).heats
        stay := active i x h } := by
  obtain ⟨u, t, n, ⟨hne, hT, hnamed, hfresh⟩, hn, hother, hlive⟩ := hP
  have hopen : s.allSigned h.unit x.key.team (Tbl.get {} t.marks m) [x.key.heat] = false := allSigned_open hn hother hlive
  rw [sign_first f a hT hne hnamed hfresh (fun hfull => absurd (hopen.symm.trans hfull) (by decide)), hopen, if_neg (by decide)]
  refine (each_block (envOf i s x h) (fun _ => .sign m) (active i x h) _).trans ?_
  refine congrArg (fun t => ({ s := t, stay := active i x h } : Work)) ?_
  exact withH_updHeat (partlyFor i m f a (seen i s x h)) (entered s x) x.key _ _ beginHeat_key

/-- A lane of the issuing heat once its operation has begun. -/
theorem begun_lane (hI : Issues i s x h) (l : Nat) : (beginHeat i (seen i s x h) h).lane l =
    if l ∈ active i x h ∧ l < h.lanes.length then begunLane i (seen i s x h) (h.lane l) else h.lane l :=
  beginHeat_lane (e := seen i s x h) (Issues_active_nodup hI) h l

theorem blocked_lane (hI : Issues i s x h) {l : Nat} (hl : l < h.lanes.length) : (blockHeat i m (seen i s x h) h).lane l =
    if l ∈ active i x h then blocked (.sign m) (begunLane i (seen i s x h) (h.lane l)) else h.lane l := by
  refine (Heat.lane_foldl_updLane (active i x h) (fun _ => blocked (.sign m)) _ l (Issues_active_nodup hI)).trans ?_
  rw [begun_lane hI, beginHeat_length]
  by_cases hact : l ∈ active i x h
  · simp [hact, hl]
  · simp [hact]

theorem begun_live (hI : Issues i s x h) : ∀ l ∈ x.lanes, ((beginHeat i (seen i s x h) h).lane l).st ≠ .exited := by
  intro l hl
  rw [begun_lane hI]
  split
  · rw [begunLane_st]
    exact Issues_live hI l hl
  · exact Issues_live hI l hl

end

section
variable {i : Instr} {m : Nat} {f : MFields} {a : Option Src} (hi : Signed i m f a)
include hi

/-- A heat that signs alone queues its operation, and its lanes go on. -/
theorem signsAlone_acts : Acts i (SignsAlone m f a) (queuedFor i m f a) (begunHeat i) (fun e _ y => (begunLane i e y).advance) := by
  refine acts_upd _ (exec_signed hi) fun s x h hI hP => ⟨_, beginHeat i (seen i s x h), sign_alone hI hP, rfl, rfl, beginHeat_key, rfl,
    beginHeat_eq, beginHeat_length h, begun_live hI, fun l hl => ?_⟩
  rw [begun_lane hI]
  by_cases hact : l ∈ active i x h
  · simp [hact, hl, (List.mem_filter.1 hact).1]
  · simp [hact]

/-- A heat that another one has to join leaves a partly signed operation, and its lanes block. -/
theorem signsFirst_acts : Acts i (SignsFirst m) (partlyFor i m f a) (begunHeat i) (fun e _ y => blocked (.sign m) (begunLane i e y)) := by
  refine acts_upd _ (exec_signed hi) fun s x h hI hP => ⟨_, blockHeat i m (seen i s x h), sign_partly hP, rfl, rfl, blockHeat_key, rfl,
    blockHeat_eq, blockHeat_length h, fun l hl => ?_, fun l hl => ?_⟩
  · rw [blocked_lane hI (hI.lanes l hl).1]
    split
    · simp [blocked]
    · exact Issues_live hI l hl
  · rw [blocked_lane hI hl]
    by_cases hact : l ∈ active i x h
    · simp [hact]
    · simp [hact]

/-- A mark that does not name the issuing heat. -/
theorem signsUnnamed_parked {s : State} {q : Iss} {h : Heat} (hI : Issues i s q h) (hne : active i q h ≠ [])
    (hun : ∃ u t, (seen i s q h).Team u t ∧ q.key.heat ∉ (Tbl.get {} t.marks m).names) (htask : ∀ l ∈ q.lanes, (h.lane l).task = none) :
    ∃ t, exec i s = .next t ∧ Parked s t q h (active i q h) (fun _ => { cause := .perm }) 11 := by
  obtain ⟨u, t, hT, hnot⟩ := hun
  exact perm_parked hI hne htask _ (exec_signed hi s) false (sign_unnamed f a hT hnot)

end

/-- Settles O35: a signed instruction by its first signature (`sign_first`), alone, with another heat to join, or not named. -/
theorem signedOperationsEnterTheirArray : Obligations.SignedOperationsEnterTheirArray := by
  unfold Obligations.SignedOperationsEnterTheirArray
  intro i m f a hi operand mark signs named alone more queued partly heat lane
  refine ⟨fun s x h hI hP => ?_, fun s x h hI hP => ?_, fun s q h hI hne hun htask => signsUnnamed_parked hi hI hne hun htask⟩
  · obtain ⟨u, t, ⟨hne, hT, hnamed, hfresh⟩, hrest⟩ := hP
    exact signsAlone_acts hi s x h hI ⟨u, t, ⟨hne, hT, hnamed, hfresh⟩, hrest⟩
  · obtain ⟨u, t, n, ⟨hne, hT, hnamed, hfresh⟩, hrest⟩ := hP
    exact signsFirst_acts (a := a) hi s x h hI ⟨u, t, n, ⟨hne, hT, hnamed, hfresh⟩, hrest⟩

end Sys2Proof.Machine
end

section
/-! SUPPORT. The performing of an array's queued operations (R251 to R258, R261): what each makes of its array, what none of them
touches, and the statement O36. -/

namespace Sys2Proof.Machine

open Sys2Proof Sys2Proof.Safe

/-! Memory and the arrays, which the results and the ends of operations leave alone. -/

def State.memArrays (s : State) : List Host.Cell × Tbl MArray := (s.mem, s.arrays)

theorem foldl_memArrays {α : Type} {f : State → α → State} (hf : ∀ t a, (f t a).memArrays = t.memArrays) (l : List α) (s : State) :
    (l.foldl f s).memArrays = s.memArrays :=
  foldl_keeps (P := fun t => t.memArrays = s.memArrays) (fun t a ht => (hf t a).trans ht) l s rfl

theorem opDone_memArrays (s : State) (id l : Nat) : (s.opDone id l).memArrays = s.memArrays := by
  unfold State.opDone
  split
  · rfl
  · dsimp only
    split <;> rfl

theorem signed_memArrays (s : State) (o : MOp) : (s.signed o).memArrays = s.memArrays := by
  refine foldl_memArrays (fun t g => foldl_memArrays (fun t x => ?_) _ _) _ _
  split
  · exact opDone_memArrays ..
  · rfl

theorem results_memArrays (s : State) (o : MOp) (f : Nat → Nat × Nat) : (s.results o f).memArrays = s.memArrays := by
  refine foldl_memArrays (fun t g => foldl_memArrays (fun t x => ?_) _ _) _ _
  split
  · exact opDone_memArrays ..
  · rfl

/-! What an operation makes of its array (R252 to R257). -/

/-- The array as the operation leaves it, but for its queue. -/
def State.worked (s : State) (a : MArray) (o : MOp) : MArray :=
  match o.fields.op with
  | 0xA1 => { a with shadow := (mfLoad (o.fields.fmt.getD .bf16) o.fields.v0 (s.scrRead o.unit o.off (mfPlane (o.fields.fmt.getD .bf16)))).1 }
  | 0xA2 => { a with stat := a.shadow, shadow := a.stat }
  | 0xA3 | 0xA4 => (a.stream o.fields (a.stat.mode.getD .bf16)
      (s.scrRead o.unit o.off ((o.fields.cnt + 1) * mfVec (a.stat.mode.getD .bf16)))).1
  | 0xA5 => a
  | 0xA6 => if o.fields.v2 then a.clear o.fields.row (if o.fields.v0 then o.fields.cnt + 1 else 1) else a
  | _ => if o.fields.v0 then { a with acc := [] } else a.clear o.fields.row (o.fields.cnt + 1)

section
variable {s : State} {a : MArray} {o : MOp}

theorem worked_mldw (hop : o.fields.op = 0xA1) : s.worked a o =
    { a with shadow := (mfLoad (o.fields.fmt.getD .bf16) o.fields.v0 (s.scrRead o.unit o.off (mfPlane (o.fields.fmt.getD .bf16)))).1 } := by
  simp only [State.worked, hop]

theorem worked_mswap (hop : o.fields.op = 0xA2) : s.worked a o = { a with stat := a.shadow, shadow := a.stat } := by
  simp only [State.worked, hop]

theorem worked_stream (hop : o.fields.op = 0xA3 ∨ o.fields.op = 0xA4) : s.worked a o =
    (a.stream o.fields (a.stat.mode.getD .bf16) (s.scrRead o.unit o.off ((o.fields.cnt + 1) * mfVec (a.stat.mode.getD .bf16)))).1 := by
  rcases hop with hop | hop
  · simp only [State.worked, hop]
  · simp only [State.worked, hop]

theorem worked_mtopk (hop : o.fields.op = 0xA5) : s.worked a o = a := by
  simp only [State.worked, hop]

theorem worked_mrd (hop : o.fields.op = 0xA6) : s.worked a o =
    if o.fields.v2 then a.clear o.fields.row (if o.fields.v0 then o.fields.cnt + 1 else 1) else a := by
  simp only [State.worked, hop]

theorem worked_mclr (hop : o.fields.op = 0xA7) : s.worked a o =
    if o.fields.v0 then { a with acc := [] } else a.clear o.fields.row (o.fields.cnt + 1) := by
  simp only [State.worked, hop]

end

theorem perform1_memArrays (s : State) (core : Nat) (arr : Bool) (o : MOp) :
    (s.perform1 core arr o).memArrays =
      (s.updArray core arr (fun x => { s.worked (s.array core arr) o with q := x.q })).memArrays := by
  have hleft : ∀ {t u : State} {y : MArray}, t.memArrays = u.memArrays → s.worked (s.array core arr) o = y →
      u.memArrays = (s.updArray core arr (fun x => { y with q := x.q })).memArrays →
      t.memArrays = (s.updArray core arr (fun x => { s.worked (s.array core arr) o with q := x.q })).memArrays :=
    fun htu hy hu => by rw [htu, hu, hy]
  unfold State.perform1
  dsimp only
  split
  · next hop => exact hleft (signed_memArrays ..) (worked_mldw hop) rfl
  · next hop => exact hleft (signed_memArrays ..) (worked_mswap hop) rfl
  · next hop => exact hleft (signed_memArrays ..) (worked_stream (.inl hop)) rfl
  · next hop => exact hleft (signed_memArrays ..) (worked_stream (.inr hop)) rfl
  · next hop => exact hleft (results_memArrays ..) (worked_mtopk hop) rfl
  · next hop =>
    have hwork := worked_mrd (s := s) (a := s.array core arr) hop
    split
    · next hv0 =>
      rw [if_pos hv0] at hwork
      split
      · exact hleft (signed_memArrays ..) hwork rfl
      · exact hleft (signed_memArrays ..) hwork rfl
    · next hv0 =>
      rw [if_neg hv0] at hwork
      exact hleft (results_memArrays ..) hwork rfl
  · exact hleft (signed_memArrays ..) (by simp only [State.worked]) rfl

theorem arrays_of_memArrays {s t : State} (h : s.memArrays = t.memArrays) : s.arrays = t.arrays := congrArg Prod.snd h

theorem array_of_memArrays {s t : State} (h : s.memArrays = t.memArrays) (core : Nat) (arr : Bool) : s.array core arr = t.array core arr := by
  unfold State.array
  rw [arrays_of_memArrays h]

theorem array_updArray (s : State) (core : Nat) (arr : Bool) (f : MArray → MArray) :
    (s.updArray core arr f).array core arr = f (s.array core arr) := Tbl.get_set_self ..

theorem arrays_updArray_ne (s : State) {core k : Nat} {arr : Bool} (f : MArray → MArray) (hk : k ≠ 2 * core + b2n arr) :
    Tbl.get {} (s.updArray core arr f).arrays k = Tbl.get {} s.arrays k := Tbl.get_set_ne _ _ _ _ hk

/-! The head of a queue performed (R251, R258). -/

section
variable {s : State} {core : Nat} {arr : Bool} {o : MOp} {rest : List MOp}

/-- The step on a queue whose head finds no error. -/
theorem matrixStep_head (hq : (s.array core arr).q = o :: rest) (hgood : (s.array core arr).finds o.fields = false) :
    s.matrixStep core arr = State.updArray ((s.updArray core arr (fun x => { x with q := rest })).perform1 core arr o) core arr
      (fun x => x.renew o.fields) := by
  unfold State.matrixStep
  rw [hq]
  dsimp only
  rw [hgood, if_neg (by decide)]

/-- The state with the head taken, and the array as the head leaves it. -/
def performed (s : State) (core : Nat) (arr : Bool) (o : MOp) (rest : List MOp) : MArray :=
  ({ s.worked { s.array core arr with q := rest } o with q := rest } : MArray).renew o.fields

theorem matrixStep_memArrays (hq : (s.array core arr).q = o :: rest) (hgood : (s.array core arr).finds o.fields = false) :
    (s.matrixStep core arr).mem = s.mem ∧
    (∀ k, k ≠ 2 * core + b2n arr → Tbl.get {} (s.matrixStep core arr).arrays k = Tbl.get {} s.arrays k) ∧
    (s.matrixStep core arr).array core arr = performed s core arr o rest := by
  let s1 := s.updArray core arr (fun x => { x with q := rest })
  have hkept := perform1_memArrays s1 core arr o
  rw [matrixStep_head hq hgood]
  refine ⟨congrArg Prod.fst hkept, fun k hk => ?_, ?_⟩
  · rw [arrays_updArray_ne _ _ hk, arrays_of_memArrays hkept, arrays_updArray_ne _ _ hk, arrays_updArray_ne _ _ hk]
  · rw [array_updArray, array_of_memArrays hkept, array_updArray, array_updArray]
    rfl

/-- Steps that do not look at the queue carry it along. -/
theorem foldl_queue {α : Type} {F : MArray × Nat → α → MArray × Nat} {q : List MOp}
    (hF : ∀ a n v, F ({ a with q := q }, n) v = ({ (F (a, n) v).1 with q := q }, (F (a, n) v).2)) (vs : List α) (a : MArray) (n : Nat) :
    vs.foldl F ({ a with q := q }, n) = ({ (vs.foldl F (a, n)).1 with q := q }, (vs.foldl F (a, n)).2) := by
  induction vs generalizing a n with
  | nil => rfl
  | cons v vs ih =>
    rw [List.foldl_cons, hF]
    exact ih _ _

theorem row_queue (a : MArray) (q : List MOp) (r : Nat) : ({ a with q := q } : MArray).row r = a.row r := rfl

theorem setRow_queue (a : MArray) (q : List MOp) (r : Nat) (xs : List Nat) :
    ({ a with q := q } : MArray).setRow r xs = { a.setRow r xs with q := q } := rfl

theorem stream_queue (a : MArray) (f : MFields) (m : MFmt) (b : List Byte) (q : List MOp) :
    ({ a with q := q } : MArray).stream f m b = ({ (a.stream f m b).1 with q := q }, (a.stream f m b).2) := by
  unfold MArray.stream
  refine foldl_queue (fun a n v => ?_) _ a 0
  dsimp only
  rw [row_queue, setRow_queue]

end

/-- Settles O36: the step performs the head of the queue (`matrixStep_memArrays`), and each operation makes of its array what its rule
says (`State.worked`). -/
theorem matrixOperationsCompleteInOrder : Obligations.MatrixOperationsCompleteInOrder := by
  unfold Obligations.MatrixOperationsCompleteInOrder
  intro core arr s a leaves
  refine ⟨fun hnil => ?_, fun o rest hq hgood => ?_⟩
  · rw [exec_matrixOpComplete]
    unfold execMatrixOpComplete State.matrixStep
    rw [show (s.array core arr).q = [] from hnil]
  · obtain ⟨hmem, hothers, harray⟩ := matrixStep_memArrays hq hgood
    have hleaves : ∀ x : MArray, { s.worked { a with q := rest } o with q := rest } = { x with q := rest } →
        leaves (s.matrixStep core arr) rest x := fun x hx =>
      ⟨o, hq, harray.trans (congrArg (fun y : MArray => y.renew o.fields) hx)⟩
    refine ⟨s.matrixStep core arr, exec_matrixOpComplete s core arr, hmem, hothers, fun hop => hleaves _ ?_, fun hop => hleaves _ ?_,
      fun hop => hleaves _ ?_, fun hop => hleaves _ ?_, fun hop => hleaves _ ?_, fun hop => hleaves _ ?_⟩
    · rw [worked_mldw hop]
    · rw [worked_mswap hop]
    · rw [worked_stream hop, stream_queue]
    · rw [worked_mtopk hop]
    · rw [worked_mrd hop]
      split <;> rfl
    · rw [worked_mclr hop]
      split <;> rfl

end Sys2Proof.Machine
end

section
/-! SUPPORT. Failing parts (R261, R311, R320 to R323, R445, R446, R448, R451 to R455): the judging of suspicions, what the loss of a die
leaves of a quiet part, its return, errors and spares, and the statement O54. -/

namespace Sys2Proof.Machine

open Sys2Proof Sys2Proof.Safe

theorem mem_nub {α : Type} [DecidableEq α] {a : α} {l : List α} : a ∈ nub l ↔ a ∈ l := by
  induction l with
  | nil => rfl
  | cons b l ih =>
    by_cases hab : a = b
    · simp [nub, hab]
    · simp [nub, hab, ih]

/-! Suspicions (R311, R320, R321). -/

/-- A suspicion with which a die agrees. -/
def agreed (die : Nat) (x : Suspicion) : Suspicion := { x with agree := nub (x.agree ++ [die]), probes := Tbl.erase x.probes die }

theorem mem_agreed {q die : Nat} {x : Suspicion} : q ∈ (agreed die x).agree ↔ q ∈ x.agree ∨ q = die := by
  simp [agreed, mem_nub]

section
variable {s : State} {die target p : Nat} {x : Suspicion}

theorem missed_iff : s.missed die target = true ↔
    (∃ e ∈ s.asked, e.1 = die ∧ homeOf (64 * e.2.1) = target ∧ e.2.2 + 2 ^ 16 ≤ s.now) ∨
    (∃ e ∈ s.txns, homeOf (64 * e.sector) = die ∧ s.awaits e target = true ∧ e.sent + 2 ^ 16 ≤ s.now) ∨
    ∃ e ∈ s.backInv, homeOf (256 * e.line) = die ∧ target ∈ e.left ∧ e.sent + 2 ^ 16 ≤ s.now := by
  simp only [State.missed, Bool.or_eq_true, List.any_eq_true, Bool.and_eq_true, beq_iff_eq, decide_eq_true_eq, List.contains_iff_mem, and_assoc,
    or_assoc]

section
variable (hs : s.suspicions = [x]) (hx : x.target = target)
include hs hx

theorem find_suspicion : s.suspicions.find? (fun y => y.target = target) = some x := by
  rw [hs, List.find?_cons_of_pos (by simpa using hx)]

theorem updSuspicion_one (f : Suspicion → Suspicion) : s.updSuspicion target f = { s with suspicions := [f x] } := by
  unfold State.updSuspicion
  rw [hs, modifyFirst, if_pos (by simpa using hx)]

/-- While a die that can answer has not agreed, the suspicion stands (R320). -/
theorem judge_waits (hnone : s.fencedDies = []) (hp : p < 4) (hpt : p ≠ target) (hpa : p ∉ x.agree) : s.judgeSuspicion target = s := by
  have hmissing : p ∈ (others target).filter (fun d => !(x.agree.contains d)) := by simp [others, upto, hp, hpt, hpa]
  have hup : (s.fencedDies.contains p || s.suspicions.any (fun y => y.target == p &&
      ((others p).filter (fun e => e != target)).all (fun e => y.agree.contains e || s.fencedDies.contains e))) = false := by
    simp [hs, hnone, hx, Ne.symm hpt]
  unfold State.judgeSuspicion
  rw [find_suspicion hs hx]
  dsimp only
  rw [if_neg (fun hempty => List.ne_nil_of_mem hmissing (List.isEmpty_iff.1 hempty)),
    if_neg (fun hdown => Bool.false_ne_true (hup.symm.trans (List.all_eq_true.1 hdown p hmissing)))]

/-- A die with which every other one agrees is declared (R320). -/
theorem judge_declares (hall : ∀ q, q < 4 → q ≠ target → q ∈ x.agree) : s.judgeSuspicion target = s.declare target := by
  have hmissing : (others target).filter (fun d => !(x.agree.contains d)) = [] := by
    refine List.filter_eq_nil_iff.2 fun q hq => ?_
    obtain ⟨hq4, hqt⟩ : q < 4 ∧ q ≠ target := by simpa [others, upto] using hq
    simp [hall q hq4 hqt]
  unfold State.judgeSuspicion
  rw [find_suspicion hs hx]
  dsimp only
  rw [hmissing]
  rfl

end

/-- Beside two dies there is a third. -/
theorem third_die (a b : Nat) : ∃ p, p < 4 ∧ p ≠ a ∧ p ≠ b := by
  by_cases h0 : 0 ≠ a ∧ 0 ≠ b
  · exact ⟨0, by omega, h0⟩
  · by_cases h1 : 1 ≠ a ∧ 1 ≠ b
    · exact ⟨1, by omega, h1⟩
    · exact ⟨2, by omega, by omega, by omega⟩

/-- The two dies of a suspicion are other dies in service. -/
def Apart (die target : Nat) (s : State) : Prop := die < 4 ∧ target < 4 ∧ die ≠ target ∧ die ∉ s.fencedDies ∧ target ∉ s.fencedDies

theorem suspect_missed (hpair : Apart die target s) (hmissed : s.missed die target = true) : s.suspect die target =
    if s.suspicions.any (fun x => x.target == target) then (s.updSuspicion target (agreed die)).judgeSuspicion target
    else ({ s with suspicions := s.suspicions ++ [{ target := target, by_ := die, agree := [die] }] } : State).judgeSuspicion target := by
  obtain ⟨hdie, htarget, hne, hin, hin'⟩ := hpair
  unfold State.suspect
  refine (if_neg ?_).trans rfl
  simp [hne, hin, hin', hmissed]
  omega

theorem suspect_new (hpair : Apart die target s) (hmissed : s.missed die target = true) (hs : s.suspicions = []) (hnone : s.fencedDies = []) :
    s.suspect die target = { s with suspicions := [{ target := target, by_ := die, agree := [die] }] } := by
  obtain ⟨p, hp, hpt, hpd⟩ := third_die target die
  rw [suspect_missed hpair hmissed, hs, if_neg (by simp)]
  exact judge_waits (x := { target := target, by_ := die, agree := [die] }) rfl rfl hnone hp hpt (by simpa using hpd)

theorem suspect_joins (hpair : Apart die target s) (hmissed : s.missed die target = true) (hs : s.suspicions = [x]) (hx : x.target = target) :
    s.suspect die target = ({ s with suspicions := [agreed die x] } : State).judgeSuspicion target := by
  rw [suspect_missed hpair hmissed, if_pos (by simp [hs, hx]), updSuspicion_one hs hx]

theorem suspect_early (hmissed : ¬ s.missed die target = true) : s.suspect die target = s := by
  unfold State.suspect
  exact if_pos (by simp [hmissed])

theorem probe_sent (hdie : die < 4) (hne : die ≠ target) (hin : die ∉ s.fencedDies) (hs : s.suspicions = [x]) (hx : x.target = target)
    (hagree : die ∉ x.agree) (hfresh : Tbl.find? x.probes die = none) :
    s.probe die target = { s with suspicions := [{ x with probes := Tbl.set x.probes die s.now }] } := by
  unfold State.probe
  rw [if_neg (by simp [hne, hin]; omega), updSuspicion_one hs hx]
  simp [hagree, hfresh]

theorem probe_fenced (hin : die ∈ s.fencedDies) : s.probe die target = s := by
  unfold State.probe
  exact if_pos (by simp [hin])

section
variable {t : Nat} (hs : s.suspicions = [x]) (hx : x.target = target) (hprobe : Tbl.find? x.probes die = some t)
include hs hx hprobe

theorem probeTimeout_eq : s.probeTimeout die target =
    if s.now < t + 4096 then s else ({ s with suspicions := [agreed die x] } : State).judgeSuspicion target := by
  unfold State.probeTimeout
  rw [find_suspicion hs hx]
  dsimp only
  rw [hprobe]
  dsimp only
  exact congrArg (fun u : State => if s.now < t + 4096 then s else u.judgeSuspicion target) (updSuspicion_one hs hx (agreed die))

theorem probeAnswer_eq : s.probeAnswer die target = ({ s with suspicions := [] } : State).declare (max x.by_ target) := by
  unfold State.probeAnswer
  rw [find_suspicion hs hx]
  dsimp only
  rw [hprobe, hs]
  simp [hx]

end

theorem probeAnswer_none (hs : s.suspicions = [x]) (hx : x.target = target) (hprobe : Tbl.find? x.probes die = none) :
    s.probeAnswer die target = s := by
  unfold State.probeAnswer
  rw [find_suspicion hs hx]
  dsimp only
  rw [hprobe]
  rfl

end

/-! The loss of a die from a part in which no request, transaction or kernel is under way (R322, R323). -/

/-- Nothing is under way but requests of the die and to it. -/
def Quiet (v : Nat) (s : State) : Prop := s.reqs = [] ∧ s.txns = [] ∧ s.queued = [] ∧ (∀ k ∈ s.kernels, k.st ≠ .running) ∧
  ∀ e ∈ s.asked, e.1 = v ∨ homeOf (64 * e.2.1) = v

/-- What the loss of the die leaves. -/
def Gone (v : Nat) (s u : State) : Prop := u.fencedDies = s.fencedDies ++ [v] ∧ u.sb.replace = true ∧ u.rwq = [] ∧ u.rels = [] ∧
  (∀ e ∈ u.suspicions, e.target ≠ v) ∧ (∀ e ∈ u.records, e.die ≠ v) ∧ (∀ e ∈ u.l2, e.1 / 2 ^ 34 ≠ v) ∧ (∀ e ∈ u.tlb, homeOf e.pa ≠ v) ∧
  ∀ c ∈ s.heldDirty v, c ∈ u.poison

/-- The state beside the directory. -/
def State.besideDir (s : State) : State := { s with dir := [], dirOrder := [] }

theorem putHolders_besideDir (s : State) (sec : Nat) (t : Tbl DirSt) : (s.putHolders sec t).besideDir = s.besideDir := by
  unfold State.putHolders
  extract_lets line s1
  split
  · split <;> rfl
  · rfl

theorem foldl_dropHolder_besideDir (l : List (Nat × DirEntry)) (die : Nat) (s : State) :
    (l.foldl (fun s e => s.dropHolder e.1 die) s).besideDir = s.besideDir :=
  foldl_keeps (P := fun t => t.besideDir = s.besideDir) (fun t _ ht => (putHolders_besideDir t _ _).trans ht) l s rfl

theorem ackFor_none {s : State} (htxns : s.txns = []) (die : Nat) : s.ackFor die = s := by
  cases s
  subst htxns
  rfl

theorem askAgain_none {s : State} (hasked : s.asked = []) : s.askAgain = s := by
  unfold State.askAgain
  rw [hasked]
  rfl

theorem kick_none {s : State} (hqueued : s.queued = []) : s.kick = s := by
  cases s
  subst hqueued
  rfl

/-- The state beside the caches, the directory, their messages and the poison. -/
def State.besideCaches (s : State) : State :=
  { s with l1 := [], l1Stream := [], l2 := [], dir := [], dirOrder := [], backInv := [], msgs := [], txns := [], queued := [], asked := []
           rwq := [], tlb := [], poison := [] }

theorem isolate_quiet {s : State} {v : Nat} (htxns : s.txns = []) (hqueued : s.queued = [])
    (hasked : ∀ e ∈ s.asked, e.1 = v ∨ homeOf (64 * e.2.1) = v) :
    (s.isolate v).besideCaches = s.besideCaches ∧
    (s.isolate v).l2 = s.l2.filter (fun e => e.1 / 2 ^ 34 ≠ v ∧ (homeOf (64 * (e.1 % 2 ^ 34)) == v) = false) ∧
    (s.isolate v).tlb = s.tlb.filter (fun e => e.die ≠ v ∧ homeOf e.pa ≠ v) ∧
    (s.isolate v).poison = (s.poisonSectors (s.heldDirty v)).poison := by
  unfold State.isolate
  extract_lets lost home dropMsgs s1 s2 s3 s4 s5
  have hasked2 : s2.asked = [] := by
    refine List.filter_eq_nil_iff.2 fun e he => ?_
    rcases hasked e he with h | h <;> simp [home, h]
  have htxns3 : s3.txns = [] := (congrArg (List.filter _) htxns).trans rfl
  have hqueued3 : s3.queued = [] := (congrArg (List.filter _) hqueued).trans rfl
  have h4 : s4 = dropMsgs s3 := congrArg dropMsgs (ackFor_none htxns3 v)
  have h5 : s5.besideDir = (dropMsgs s3).besideDir := (foldl_dropHolder_besideDir s4.dir v s4).trans (congrArg State.besideDir h4)
  have hasked6 : (s5.poisonSectors lost).asked = [] := (congrArg State.asked h5).trans hasked2
  have hqueued6 : (s5.poisonSectors lost).queued = [] := (congrArg State.queued h5).trans hqueued3
  rw [askAgain_none hasked6, kick_none hqueued6]
  have hpoison : s5.poison = s.poison := (congrArg State.poison h5 :)
  exact ⟨(congrArg State.besideCaches h5 :), (congrArg State.l2 h5 :), (congrArg State.tlb h5 :),
    congrArg (fun q : List Nat => q ++ lost.filter (fun c => !(q.contains c))) hpoison⟩

theorem mem_poisonSectors {s : State} {secs : List Nat} {c : Nat} (hc : c ∈ secs) : c ∈ (s.poisonSectors secs).poison := by
  by_cases hold : c ∈ s.poison
  · exact List.mem_append_left _ hold
  · exact List.mem_append_right _ (List.mem_filter.2 ⟨hc, by simpa using hold⟩)

theorem foldl_send_sb (as : List Nat) (port kind : Nat) (body : List Byte) (s : State) :
    (as.foldl (fun s a => s.send port 0 a 0 kind 0 body) s).sb = s.sb :=
  foldl_keeps (P := fun t : State => t.sb = s.sb) (f := fun s a => s.send port 0 a 0 kind 0 body) (fun _ _ ht => ht) as s rfl

theorem replace_sb (s : State) (reason : Nat) :
    (s.replace reason).sb = { s.sb with replace := true, replaceCount := s.sb.replaceCount + 1 } := by
  unfold State.replace
  dsimp only
  rw [foldl_send_sb]

/-- A replace request writes nothing that the loss or the return of a die is judged by. -/
theorem replace_keeps (s : State) (reason : Nat) : ∃ out, s.replace reason =
    { s with out := out, sb := { s.sb with replace := true, replaceCount := s.sb.replaceCount + 1 } } := by
  refine ⟨(s.replace reason).out, ?_⟩
  have hbeside := replace_besideReplace s reason
  have hsb := replace_sb s reason
  generalize s.replace reason = t at hbeside hsb ⊢
  have h' : ({ t with out := [], sb := { t.sb with replace := false, replaceCount := 0 } } : State) =
    { s with out := [], sb := { s.sb with replace := false, replaceCount := 0 } } := hbeside
  have := congrArg (fun u : State => { u with out := t.out, sb := t.sb }) h'
  rw [← hsb]
  exact this

/-- The part without the die, before a replacement is asked for. -/
def lostDie (s : State) (v : Nat) : State :=
  let t : State := { s with fencedDies := s.fencedDies ++ [v], suspicions := s.suspicions.filter (fun (x : Suspicion) => x.target ≠ v ∧ x.by_ ≠ v)
                            bist := s.bist.filter (fun (t : Bist) => t.die ≠ v)
                            postings := s.postings.filter (fun (r : FRec) => r.die ≠ v), records := s.records.filter (fun (r : FRec) => r.die ≠ v) }
  { t.isolate v with rwq := [], rels := [] }

theorem declare_eq {s : State} {v : Nat} (hq : Quiet v s) (hv : v < 4) (hin : v ∉ s.fencedDies) :
    s.declare v = (lostDie s v).replace 2 := by
  obtain ⟨hreqs, htxns, hqueued, hstopped, hasked⟩ := hq
  have hnone : s.endRequests v = s := by
    unfold State.endRequests
    rw [hreqs]
    rfl
  unfold State.declare
  rw [if_neg (by simp [hin]; omega), hnone]
  extract_lets t u w x y
  have hkernels : x.kernels = s.kernels := (congrArg State.kernels (isolate_quiet (s := u) htxns hqueued hasked).1 :)
  have hrunning : x.kernels.filter (fun k => k.st = .running) = [] := by
    rw [hkernels]
    exact List.filter_eq_nil_iff.2 fun k hk => by simpa using hstopped k hk
  have hy : y = x := by
    show List.foldl _ x (x.kernels.filter _) = x
    rw [hrunning]
    rfl
  exact congrArg (fun z : State => z.replace 2) hy

/-- What a quiet part holds after the loss of a die (R322, R323). -/
theorem lostDie_fields {s : State} {v : Nat} (hq : Quiet v s) :
    (lostDie s v).fencedDies = s.fencedDies ++ [v] ∧ (lostDie s v).suspicions = s.suspicions.filter (fun x => x.target ≠ v ∧ x.by_ ≠ v) ∧
    (lostDie s v).records = s.records.filter (fun r => r.die ≠ v) ∧ (lostDie s v).resetting = s.resetting ∧ (lostDie s v).sb = s.sb ∧
    (lostDie s v).l2 = s.l2.filter (fun e => e.1 / 2 ^ 34 ≠ v ∧ (homeOf (64 * (e.1 % 2 ^ 34)) == v) = false) ∧
    (lostDie s v).tlb = s.tlb.filter (fun e => e.die ≠ v ∧ homeOf e.pa ≠ v) ∧ ∀ c ∈ s.heldDirty v, c ∈ (lostDie s v).poison := by
  obtain ⟨-, htxns, hqueued, -, hasked⟩ := hq
  unfold lostDie
  extract_lets t
  obtain ⟨hbeside, hl2, htlb, hpoison⟩ := isolate_quiet (s := t) (v := v) htxns hqueued hasked
  exact ⟨(congrArg State.fencedDies hbeside :), (congrArg State.suspicions hbeside :), (congrArg State.records hbeside :),
    (congrArg State.resetting hbeside :), (congrArg State.sb hbeside :), hl2, htlb, fun c hc => hpoison.symm ▸ mem_poisonSectors hc⟩

theorem declare_gone {s : State} {v : Nat} (hq : Quiet v s) (hv : v < 4) (hin : v ∉ s.fencedDies) :
    Gone v s (s.declare v) ∧ (s.declare v).resetting = s.resetting ∧ (s.declare v).sb.dieReset = s.sb.dieReset := by
  obtain ⟨hfenced, hsusp, hrecords, hresetting, hsb, hl2, htlb, hpoison⟩ := lostDie_fields hq
  have hqueues : (lostDie s v).rwq = [] ∧ (lostDie s v).rels = [] := ⟨rfl, rfl⟩
  obtain ⟨out, hout⟩ := replace_keeps (lostDie s v) 2
  rw [declare_eq hq hv hin, hout]
  generalize lostDie s v = t at *
  refine ⟨⟨hfenced, rfl, hqueues.1, hqueues.2, fun e he => ?_, fun e he => ?_, fun e he => ?_, fun e he => ?_, hpoison⟩, hresetting,
    (congrArg Sideband.dieReset hsb :)⟩
  · exact (of_decide_eq_true (List.mem_filter.1 (hsusp ▸ he)).2).1
  · have hkept : e ∈ s.records.filter (fun r => r.die ≠ v) := hrecords ▸ he
    exact of_decide_eq_true (List.mem_filter.1 hkept).2
  · exact (of_decide_eq_true (List.mem_filter.1 (hl2 ▸ he)).2).1
  · exact (of_decide_eq_true (List.mem_filter.1 (htlb ▸ he)).2).2

/-! Warm reset (R451 to R453). -/

section
variable {s : State} {d : Nat}

theorem declare_fenced (hin : d ∈ s.fencedDies) : s.declare d = s := by
  unfold State.declare
  exact if_pos (by simp [hin])

theorem dieReset_eq (hd : 0 < d) (hd4 : d < 4) (h0 : 0 ∉ s.fencedDies) (hnew : d ∉ s.resetting) : s.dieReset d =
    { s.declare d with resetting := (s.declare d).resetting ++ [d]
                       sb := { (s.declare d).sb with dieReset := (s.declare d).sb.dieReset ||| 2 ^ d } } := by
  unfold State.dieReset
  refine (if_neg ?_).trans rfl
  simp [h0, hnew]
  omega

theorem dieReset_none (h : d = 0 ∨ 0 ∈ s.fencedDies) : s.dieReset d = s := by
  unfold State.dieReset
  exact if_pos (by rcases h with h | h <;> simp [h])

/-- The die out of reset. -/
def broughtUp (d : Nat) (s : State) : State :=
  { s with resetting := s.resetting.filter (fun q => q ≠ d), sb := { s.sb with dieReset := s.sb.dieReset &&& (15 - 2 ^ d) } }

theorem dieRejoin_none {ok : Bool} {bad : List FenceUnit} (h : d ∉ s.resetting ∨ 0 ∈ s.fencedDies) : s.dieRejoin d ok bad = s := by
  unfold State.dieRejoin
  exact if_pos (by rcases h with h | h <;> simp [h])

section
variable (hd : d ∈ s.resetting) (h0 : 0 ∉ s.fencedDies) (bad : List FenceUnit)
include hd h0

theorem dieRejoin_fails : s.dieRejoin d false bad = broughtUp d s := by
  unfold State.dieRejoin
  exact (if_neg (by simp [hd, h0])).trans rfl

theorem dieRejoin_returns : s.dieRejoin d true bad =
    if (((broughtUp d s).rejoin d bad).sparesLeft d).any (· == 0) then (((broughtUp d s).rejoin d bad).replace 3).replace 4
    else ((broughtUp d s).rejoin d bad).replace 3 := by
  unfold State.dieRejoin
  exact (if_neg (by simp [hd, h0])).trans rfl

end

/-- The state that the return of a die is judged by: memory, poison, fences of dies and resets. -/
def State.returns (s : State) : List Host.Cell × List Nat × List Nat × List Nat × Nat :=
  (s.mem, s.poison, s.fencedDies, s.resetting, s.sb.dieReset)

theorem foldl_returns {α : Type} {f : State → α → State} (hf : ∀ t a, (f t a).returns = t.returns) (l : List α) (s : State) :
    (l.foldl f s).returns = s.returns :=
  foldl_keeps (P := fun t => t.returns = s.returns) (fun t a ht => (hf t a).trans ht) l s rfl

theorem refence_returns (s : State) (d : Nat) : (s.refence d []).returns = s.returns := by
  unfold State.refence
  extract_lets s1 s2 s3 w s4 s5
  have h3 : s3.returns = s2.returns := by apply foldl_returns; exact fun _ _ => rfl
  have h5 : s5.returns = s4.returns := by apply foldl_returns; exact fun _ _ => rfl
  exact h5.trans h3

theorem rejoin_returns (s : State) (d : Nat) : (s.rejoin d []).returns =
    (s.mem.filter (fun e => homeOf e.1 ≠ d), s.poison.filter (fun c => homeOf (64 * c) ≠ d), s.fencedDies.filter (fun q => q ≠ d), s.resetting,
      s.sb.dieReset) := by
  unfold State.rejoin
  extract_lets s1 s2 s3 s4
  have h4 : s4.returns = s3.returns := by apply foldl_returns; exact fun _ _ => rfl
  exact h4.trans (refence_returns s2 d)

theorem replace_returns (s : State) (reason : Nat) : (s.replace reason).returns = s.returns := by
  obtain ⟨out, hout⟩ := replace_keeps s reason
  rw [hout]
  rfl

theorem dieRejoin_fields (hd : d ∈ s.resetting) (h0 : 0 ∉ s.fencedDies) : (s.dieRejoin d true []).sb.replace = true ∧
    (s.dieRejoin d true []).returns =
      (s.mem.filter (fun e => homeOf e.1 ≠ d), s.poison.filter (fun c => homeOf (64 * c) ≠ d), s.fencedDies.filter (fun q => q ≠ d),
        s.resetting.filter (fun q => q ≠ d), s.sb.dieReset &&& (15 - 2 ^ d)) := by
  rw [dieRejoin_returns hd h0]
  split
  · exact ⟨congrArg Sideband.replace (replace_sb _ 4), (replace_returns _ 4).trans ((replace_returns _ 3).trans (rejoin_returns _ d))⟩
  · exact ⟨congrArg Sideband.replace (replace_sb _ 3), (replace_returns _ 3).trans (rejoin_returns _ d)⟩

end

/-! Errors, self-tests and spares (R445, R446, R448, R455). -/

/-- No capacity is lost where the cores, the chunks and the spares stay (R448). -/
theorem judgeCapacity_same {s t : State} (hcores : t.coresUp = s.coresUp) (hchunks : t.chunksUp = s.chunksUp)
    (hspares : t.sparesLeft = s.sparesLeft) : t.judgeCapacity s = t := by
  have hzip (l : List Nat) : (l.zip l).any (fun e => e.1 != 0 && e.2 == 0) = false := by
    induction l with
    | nil => rfl
    | cons a l ih => simp [ih]
  have hlast : s.lastSpare t = false := by simp [State.lastSpare, hspares, hzip]
  have hfall : ¬ ((256 ≤ s.coresUp ∧ t.coresUp < 256) ∨ (2 ^ 24 ≤ s.chunksUp ∧ t.chunksUp < 2 ^ 24)) := by omega
  unfold State.judgeCapacity
  rw [hlast, if_neg hfall]
  rfl

theorem poisonSectors_new {s : State} {sec : Nat} (hnew : sec ∉ s.poison) :
    s.poisonSectors [sec] = { s with poison := s.poison ++ [sec] } := by
  unfold State.poisonSectors
  simp [hnew]

theorem patrol_corrects {s : State} {sec : Nat} (hsec : sec < 2 ^ 34) : execPatrolScrub sec true s =
    .next { s with sb := { s.sb with corrected := min (s.sb.corrected + 1) (2 ^ 32 - 1) } } :=
  congrArg Host.Outcome.next (if_pos (by simpa using hsec))

section
variable {s : State} {b : Bist} {die pa failing took first : Nat}

theorem bistDone_passes (hs : s.bist = [b]) (hb : b.die = die) (hopen : (s.ctx b.ctx).opened = true)
    (hpa : ({ s with bist := [] } : State).agentAt b.ctx die b.va .write = (.ok pa, { s with bist := [] })) :
    s.bistDone die true failing took first = ({ s with bist := [] } : State).ownWrite die pa (bistRecord b true failing took first) := by
  have hfind : s.bist.find? (fun t => t.die = die) = some b := by rw [hs, List.find?_cons_of_pos (by simpa using hb)]
  have hrest : s.bist.filter (fun x => x.die ≠ die) = [] := by simp [hs, hb]
  unfold State.bistDone
  rw [hfind]
  dsimp only
  rw [hrest, hpa]
  exact (if_pos rfl).trans (if_pos hopen)

theorem bistDone_none {ok : Bool} (hs : s.bist = []) : s.bistDone die ok failing took first = s := by
  unfold State.bistDone
  rw [hs]
  rfl

end

theorem laneFails_spare {s : State} {die partner m lane n : Nat} (hdie : die < 4) (hpartner : partner < 4) (hne : die ≠ partner) (hm : m < 16)
    (hlane : lane < 68) (hused : Tbl.get 0 s.lanesUsed (256 * die + 16 * partner + m) = n) (hn : n < 4) :
    (s.laneFails (.ucie die partner m lane)).lanesUsed = Tbl.set s.lanesUsed (256 * die + 16 * partner + m) (n + 1) ∧
    (s.laneFails (.ucie die partner m lane)).fencedDies = s.fencedDies ∧ (s.laneFails (.ucie die partner m lane)).ports = s.ports := by
  unfold State.laneFails
  dsimp only
  rw [if_neg (by omega), hused, if_pos hn]
  exact ⟨rfl, rfl, rfl⟩

theorem judged_lanes (t s : State) : (t.judgeCapacity s).lanesUsed = t.lanesUsed ∧ (t.judgeCapacity s).fencedDies = t.fencedDies ∧
    (t.judgeCapacity s).ports = t.ports := by
  have h := judgeCapacity_besideReplace t s
  exact ⟨(congrArg State.lanesUsed h :), (congrArg State.fencedDies h :), (congrArg State.ports h :)⟩

/-- Settles O54: a suspicion is declared once every other die agrees, and the loss of a die of a quiet part, its return, errors, self-tests and
failing lanes write what their rules say. -/
theorem failingPartsAreContained : Obligations.FailingPartsAreContained := by
  unfold Obligations.FailingPartsAreContained
  intro die target d p sec n t pa failing took first ok bad b x missed pair suspected quiet gone noAnswer bring counted tested noted
  refine ⟨?missNew, ?missJoins, ?missEarly, ?probe, ?probeFenced, ?timeoutDeclares, ?timeoutWaits, ?timeoutEarly, ?answer, ?answerNone,
    ?reset, ?resetUp, ?resetNone, ?rejoinFails, ?rejoins, ?rejoinNone, ?error, ?patrol, ?patrolNone, ?bist, ?bistNone, ?lane⟩
  case missNew =>
    rintro s ⟨hpair, hmissed, hs, hnone⟩
    exact congrArg Host.Outcome.next (suspect_new hpair (missed_iff.2 hmissed) hs hnone)
  case missJoins =>
    rintro s ⟨hpair, hmissed, hs, hx⟩
    exact congrArg Host.Outcome.next (suspect_joins hpair (missed_iff.2 hmissed) hs hx)
  case missEarly =>
    intro s hmissed
    exact congrArg Host.Outcome.next (suspect_early (fun h => hmissed (missed_iff.1 h)))
  case probe =>
    rintro s ⟨hdie, hne, hin, ⟨hs, hx⟩, hagree, hfresh⟩
    exact congrArg Host.Outcome.next (probe_sent hdie hne hin hs hx hagree hfresh)
  case probeFenced =>
    intro s hin
    exact congrArg Host.Outcome.next (probe_fenced hin)
  case timeoutDeclares =>
    rintro s ⟨⟨⟨hs, hx⟩, hprobe⟩, hlate, hquiet, htarget, hin, hall⟩
    have hstep : s.probeTimeout die target = ({ s with suspicions := [agreed die x] } : State).declare target := by
      rw [probeTimeout_eq hs hx hprobe, if_neg (by omega)]
      exact judge_declares rfl hx fun q hq hne => mem_agreed.2 (hall q hq hne).symm
    exact ⟨_, congrArg Host.Outcome.next hstep, (declare_gone (s := { s with suspicions := [agreed die x] }) hquiet htarget hin).1⟩
  case timeoutWaits =>
    rintro s ⟨⟨⟨hs, hx⟩, hprobe⟩, hlate, hp, hpt, hpd, hpa, hnone⟩
    refine congrArg Host.Outcome.next ?_
    rw [probeTimeout_eq hs hx hprobe, if_neg (by omega)]
    exact judge_waits rfl hx hnone hp hpt (fun h => (mem_agreed.1 h).elim hpa hpd)
  case timeoutEarly =>
    rintro s ⟨⟨⟨hs, hx⟩, hprobe⟩, hearly⟩
    exact congrArg Host.Outcome.next ((probeTimeout_eq hs hx hprobe).trans (if_pos hearly))
  case answer =>
    rintro s ⟨⟨⟨hs, hx⟩, hprobe⟩, hquiet, hv, hin⟩
    exact ⟨_, congrArg Host.Outcome.next (probeAnswer_eq hs hx hprobe), (declare_gone (s := { s with suspicions := [] }) hquiet hv hin).1⟩
  case answerNone =>
    rintro s ⟨⟨hs, hx⟩, hprobe⟩
    exact congrArg Host.Outcome.next (probeAnswer_none hs hx hprobe)
  case reset =>
    rintro s ⟨hd, hd4, hin, h0, hnew⟩
    refine congrArg Host.Outcome.next ?_
    rw [dieReset_eq hd hd4 h0 hnew, declare_fenced hin]
  case resetUp =>
    rintro s ⟨hd, hd4, hin, h0, hnew, hquiet⟩
    obtain ⟨hgone, hresetting, hreset⟩ := declare_gone hquiet hd4 hin
    exact ⟨_, congrArg Host.Outcome.next (dieReset_eq hd hd4 h0 hnew), hgone, congrArg (· ++ [d]) hresetting, congrArg (· ||| 2 ^ d) hreset⟩
  case resetNone =>
    intro s h
    exact congrArg Host.Outcome.next (dieReset_none h)
  case rejoinFails =>
    rintro s ⟨hd, h0⟩
    exact congrArg Host.Outcome.next (dieRejoin_fails hd h0 bad)
  case rejoins =>
    rintro s ⟨hd, h0, rfl⟩
    obtain ⟨hreplace, hreturns⟩ := dieRejoin_fields hd h0
    refine ⟨_, rfl, ?_⟩
    simp only [State.returns, Prod.mk.injEq] at hreturns
    obtain ⟨hmem, hpoison, hfenced, hresetting, hreset⟩ := hreturns
    refine ⟨hfenced, hresetting, hreplace, fun adr v h => ?_, fun c h => ?_, hreset⟩
    · have hkept : (adr, v) ∈ s.mem.filter (fun e => homeOf e.1 ≠ d) := hmem ▸ h
      exact of_decide_eq_true (List.mem_filter.1 hkept).2
    · have hkept : c ∈ s.poison.filter (fun c => homeOf (64 * c) ≠ d) := hpoison ▸ h
      exact of_decide_eq_true (List.mem_filter.1 hkept).2
  case rejoinNone =>
    intro s h
    exact congrArg Host.Outcome.next (dieRejoin_none h)
  case error =>
    intro s hnew
    have hpoisoned : (counted s).poisonSectors [sec] = { counted s with poison := s.poison ++ [sec] } := poisonSectors_new hnew
    refine congrArg Host.Outcome.next ?_
    show ((counted s).poisonSectors [sec]).judgeCapacity s = _
    rw [hpoisoned]
    exact judgeCapacity_same rfl rfl rfl
  case patrol =>
    intro s hsec
    exact patrol_corrects hsec
  case patrolNone =>
    intro s _
    rfl
  case bist =>
    rintro s ⟨⟨hs, hb⟩, hopen, hpa⟩
    exact congrArg Host.Outcome.next (bistDone_passes hs hb hopen hpa)
  case bistNone =>
    intro s hs
    exact congrArg Host.Outcome.next (bistDone_none hs)
  case lane =>
    rintro lane m s ⟨hdie, hd, hne, hm, hlane, hused, hn⟩
    obtain ⟨hlanes, hfenced, hports⟩ := judged_lanes (s.laneFails (.ucie die d m lane)) s
    obtain ⟨hlanes', hfenced', hports'⟩ := laneFails_spare hdie hd hne hm hlane hused hn
    exact ⟨_, rfl, hlanes.trans hlanes', hfenced.trans hfenced', hports.trans hports'⟩

end Sys2Proof.Machine
end

section
/-! SUPPORT. Fences (R266, R281) and the barriers of a team (R284): a word that waits for what the heat did before it, and the
statements O19 and O18. -/

namespace Sys2Proof.Machine

open Sys2Proof Sys2Proof.Safe

/-! Waiting at issue (R113, R281). -/

theorem envOf_waitMark (i : Instr) (s : State) (x : Iss) (h : Heat) : (envOf i s x h).waitMark (entered s x) = h.fence.getD s.nid := by
  unfold Env.waitMark
  rw [entered_eq]
  rfl

/-- A word whose body waits does not issue in this clock, and its heat keeps the mark (R113, R281). -/
theorem waitOn_outcome {i : Instr} {s : State} {x : Iss} {h : Heat} (hI : Issues i s x h) (body : Env → Work → Work)
    (hi : ∀ s, exec i s = issue i s body) (mark : Nat)
    (hb : body (envOf i s x h) { s := entered s x } = Work.waitOn (envOf i s x h) mark) :
    exec i s = .next { s.updHeat x.key (fun q => { q with fence := some mark }) with iss := none, now := s.now + 1 } :=
  stallWith_of hI body _ hi hb

/-! Fences (R281). -/

/-- The fence of an issuing word finds its parts as they stand in the state of issue (R281). -/
theorem fenceDone_entered {i : Instr} {s : State} {x : Iss} {h : Heat} (hI : Issues i s x h) (kind : FenceKind) (eng : Bool) (sc : Scope)
    (m : Nat) : (entered s x).fenceDone h kind eng sc m = true ↔ (seen i s x h).Fenced kind eng sc m := by
  have hsame : (entered s x).fenceDone h kind eng sc m = s.fenceDone h kind eng sc m := by
    rw [entered_eq]
    exact fence_congr rfl rfl rfl rfl rfl rfl h kind eng sc m
  rw [hsame]
  exact fenceDone_iff (seen i s x h) (State.heat?_key hI.heat) kind eng sc m

/-- What a fence that completes makes of the part: one that acquires at die scope or wider empties its core's L1 (R281). -/
def fencePassed (kind : FenceKind) (sc : Scope) (e : Seen) (s : State) : State :=
  if (kind = .acq ∨ kind = .full) ∧ 2 ≤ sc.code then s.invalidateAll e.x.key.ctx e.h.core else s

theorem fencePassed_heatless (kind : FenceKind) (sc : Scope) (e : Seen) : Heatless (fencePassed kind sc e) := by
  unfold fencePassed
  split
  · exact ⟨fun _ _ => rfl, fun _ => rfl⟩
  · exact ⟨fun _ _ => rfl, fun _ => rfl⟩

/-- Settles O19: the body finds its parts done just where the statement does (`fenceDone_entered`), and then passes or waits. -/
theorem fenceWaitsForItsParts : Obligations.FenceWaitsForItsParts := by
  unfold Obligations.FenceWaitsForItsParts
  intro c kind eng sc mark done
  refine ⟨?_, fun s x h hI hact hnot => ?_⟩
  · refine actsOn_heatless _ (exec_fence · c kind eng sc) (fencePassed kind sc) (fencePassed_heatless kind sc)
      fun s x h hI ⟨hact, hdone⟩ => (if_neg (act_ne hact)).trans ?_
    rw [envOf_waitMark]
    exact if_pos ((fenceDone_entered hI kind eng sc _).2 hdone)
  · refine waitOn_outcome hI _ (exec_fence · c kind eng sc) _ ((if_neg (act_ne hact)).trans ?_)
    rw [envOf_waitMark]
    exact if_neg (mt (fenceDone_entered hI kind eng sc _).1 hnot)

/-! An arrival at a barrier (R284). -/

/-- A barrier of a team. -/
def barAt (n : Nat) (t : Team) : Bar := Tbl.get {} t.bars n

/-- The count that an arrival brings: the one its word names, else the team's heats. -/
def arrivalCount (b : Option Src) (e : Seen) (t : Team) : Nat := match b with | none => t.heats | some q => e.rd .n32 q e.low

/-- A heat comes to a barrier of its team, for the first time in the phase or again. -/
def ComesTo (n : Nat) (e : Seen) (u : RUnit) (t : Team) (first : Bool) : Prop :=
  e.act ≠ [] ∧ e.Team u t ∧ bit (barAt n t).arrived e.x.key.heat = !first

/-- The count is in place: within the team, and the one of the phase's first arrival. -/
def CountFits (n : Nat) (b : Option Src) (e : Seen) (t : Team) : Prop :=
  1 ≤ arrivalCount b e t ∧ arrivalCount b e t ≤ t.heats ∧ ((barAt n t).arrived = 0 ∨ arrivalCount b e t = (barAt n t).expect)

/-- The barrier once the heat has arrived. -/
def arrivedBar (n : Nat) (b : Option Src) (e : Seen) (t : Team) : Bar :=
  { phase := (barAt n t).phase, arrived := (barAt n t).arrived ||| 2 ^ e.x.key.heat
    expect := if (barAt n t).arrived = 0 then arrivalCount b e t else (barAt n t).expect }

theorem badCount_iff {n : Nat} {b : Option Src} {e : Seen} {t : Team} :
    badCount (barAt n t) t.heats (arrivalCount b e t) = true ↔ ¬ CountFits n b e t := by
  unfold badCount CountFits
  simp only [Bool.or_eq_true, Bool.and_eq_true, beq_iff_eq, decide_eq_true_eq, bne_iff_ne]
  omega

/-- The count as the body of the word reads it. -/
def Env.arrivals (e : Env) (b : Option Src) (heats : Nat) : Nat := match b with | none => heats | some b => e.src32 b e.lowest

theorem envOf_arrivals (i : Instr) (s : State) (x : Iss) (h : Heat) (b : Option Src) (t : Team) :
    (envOf i s x h).arrivals b t.heats = arrivalCount b (seen i s x h) t := by
  cases b with
  | none => rfl
  | some q => exact envOf_src32 i s x h q _

/-- The lanes that wait at the barrier: those of BAR, and none of BARA. -/
def waiting (stays : Bool) (act : List Nat) : List Nat := bif stays then act else []

theorem waiting_mem {stays : Bool} {act : List Nat} {l : Nat} (hl : l ∈ waiting stays act) : l ∈ act := by
  cases stays
  · cases hl
  · exact hl

theorem waiting_nodup {act : List Nat} (stays : Bool) (hn : act.Nodup) : (waiting stays act).Nodup := by
  cases stays
  · exact List.nodup_nil
  · exact hn

/-- A heat with lanes of it blocked at the barrier. -/
def Heat.blockedAt (h : Heat) (n : Nat) (ls : List Nat) : Heat := ls.foldl (fun g l => g.updLane l (blocked (.bar n))) h

theorem blockedAt_none (n : Nat) : (fun g : Heat => g.blockedAt n []) = fun g => g := rfl

/-- The work of an arrival, with lanes of the heat blocked at the barrier. -/
def arrivalWork (s : State) (x : Iss) (h : Heat) (n count : Nat) (ls : List Nat) : Work :=
  { s := ((entered s x).updHeat x.key (·.blockedAt n ls)).arrive h n count, stay := ls, irrev := true }

section
variable {i : Instr} {s : State} {x : Iss} {h : Heat}

/-- A word that releases at core scope goes on where its heat owes nothing (R266). -/
theorem afterOwed_settled (hs : (seen i s x h).settled) (r : Bool) (f : Work → Work) :
    (envOf i s x h).afterOwed { s := entered s x, irrev := r } f = f { s := entered s x, irrev := r } :=
  releaseAt_go (sc := .core) (rel := true) (fun _ => hs) r f

/-- It waits where the heat owes (R266). -/
theorem afterOwed_owing (hact : active i x h ≠ []) (hs : ¬ (seen i s x h).settled) (r : Bool) (f : Work → Work) :
    (envOf i s x h).afterOwed { s := entered s x, irrev := r } f = Work.waitOn (envOf i s x h) (h.fence.getD s.nid) := by
  unfold Env.afterOwed
  rw [envOf_waitMark, if_neg]
  have howed : (entered s x).owed h (h.fence.getD s.nid) = true := by
    rw [entered_eq]
    exact Bool.eq_true_of_not_eq_false hs
  simp [envOf, hact, howed]

end

/-- A word by which a heat arrives at a barrier, and whose lanes wait there or move on: a count out of place traps, and the arrival is
a release at core scope (R266, R284). -/
structure ArrivalBody (i : Instr) (n : Nat) (b : Option Src) (stays : Bool) (body : Env → Work → Work) : Prop where
  exec : ∀ s, exec i s = issue i s body
  comes : ∀ s x h u t, ComesTo n (seen i s x h) u t true → ∃ f : Work → Work,
    body (envOf i s x h) { s := entered s x } =
      (let w : Work := { s := entered s x, irrev := stays }
       if badCount (barAt n t) t.heats (arrivalCount b (seen i s x h) t) then w.trapAll (active i x h) { cause := .perm }
       else (envOf i s x h).afterOwed w f) ∧
    f { s := entered s x, irrev := stays } =
      arrivalWork s x h n (arrivalCount b (seen i s x h) t) (waiting stays (active i x h))

/-- BARA arrives, and its lanes move on. -/
theorem bara_body (c : Com) (n : Nat) (b : Option Src) : ∃ body, ArrivalBody (.bara c n b) n b false body := by
  refine ⟨_, (exec_bara · c n b), fun s x h u t ⟨hact, hT, hbit⟩ =>
    ⟨fun w => { w with s := w.s.arrive h n (arrivalCount b (seen (.bara c n b) s x h) t), irrev := true }, (if_neg (act_ne hact)).trans ?_, ?_⟩⟩
  · rw [barrier_env hT, ← envOf_arrivals]
    exact if_neg (Bool.eq_false_iff.1 hbit)
  · unfold arrivalWork waiting
    simp only [cond_false, blockedAt_none, State.updHeat_id]

/-- BAR blocks its lanes and arrives. -/
theorem bar_body (c : Com) (n : Nat) (b : Option Src) : ∃ body, ArrivalBody (.bar c n b) n b true body := by
  refine ⟨_, (exec_bar · c n b), fun s x h u t ⟨hact, hT, hbit⟩ =>
    ⟨fun w => let v := (envOf (.bar c n b) s x h).each (fun w l => w.block (envOf (.bar c n b) s x h) l (.bar n)) w
      { v with s := v.s.arrive h n (arrivalCount b (seen (.bar c n b) s x h) t) }, (if_neg (act_ne hact)).trans ?_, ?_⟩⟩
  · rw [barrier_env hT, ← envOf_arrivals]
    exact if_neg (Bool.eq_false_iff.1 hbit)
  · dsimp only [Env.each]
    rw [each_block (envOf (.bar c n b) s x h) (fun _ => .bar n)]
    rfl

section
variable {i : Instr} {n : Nat} {b : Option Src} {stays : Bool} {body : Env → Work → Work} (hB : ArrivalBody i n b stays body)
include hB

section
variable {s : State} {x : Iss} {h : Heat} {u : RUnit} {t : Team} (hC : ComesTo n (seen i s x h) u t true)
include hC

/-- A count out of place raises PERM (R284). -/
theorem ArrivalBody.misfit (hbad : ¬ CountFits n b (seen i s x h) t) : body (envOf i s x h) { s := entered s x } =
    { s := entered s x, traps := (active i x h).map (fun l => (l, { cause := .perm })), irrev := stays } := by
  obtain ⟨f, hf, -⟩ := hB.comes s x h u t hC
  exact hf.trans (if_pos (badCount_iff.2 hbad))

variable (hfits : CountFits n b (seen i s x h) t)
include hfits

/-- Where the heat owes nothing, it arrives. -/
theorem ArrivalBody.settled (hs : (seen i s x h).settled) : body (envOf i s x h) { s := entered s x } =
    arrivalWork s x h n (arrivalCount b (seen i s x h) t) (waiting stays (active i x h)) := by
  obtain ⟨f, hf, harr⟩ := hB.comes s x h u t hC
  exact (hf.trans (if_neg fun hbad => badCount_iff.1 hbad hfits)).trans ((afterOwed_settled hs stays f).trans harr)

/-- Where it owes, the word waits at issue (R113, R266). -/
theorem ArrivalBody.owing (hs : ¬ (seen i s x h).settled) : body (envOf i s x h) { s := entered s x } =
    Work.waitOn (envOf i s x h) (h.fence.getD s.nid) := by
  obtain ⟨f, hf, -⟩ := hB.comes s x h u t hC
  obtain ⟨hact, -⟩ := hC
  exact (hf.trans (if_neg fun hbad => badCount_iff.1 hbad hfits)).trans (afterOwed_owing hact hs stays f)

end

end

/-- The part once the heat has arrived and the phase is open still. -/
def arrivedAt (n : Nat) (b : Option Src) (e : Seen) : State :=
  e.s.updTeam e.h.unit e.x.key.team (fun t => { t with bars := Tbl.set t.bars n (arrivedBar n b e t) })

/-- The heat comes first in the phase, with a count in place and nothing owed, and the phase stays open. -/
def ArrivesEarly (n : Nat) (b : Option Src) (e : Seen) : Prop := ∃ u t, ComesTo n e u t true ∧ CountFits n b e t ∧ e.settled ∧
  e.s.barCount e.h.unit t (arrivedBar n b e t) < (arrivedBar n b e t).expect

/-- An arrival that leaves its phase open enters the heat, and the count if it is the first (R284). -/
theorem arrivalWork_open {i : Instr} {s : State} {x : Iss} {h : Heat} {u : RUnit} {t : Team} {n : Nat} {b : Option Src} (hI : Issues i s x h)
    {ls : List Nat} (hn : ls.Nodup) (hC : ComesTo n (seen i s x h) u t true)
    (hopen : s.barCount h.unit t (arrivedBar n b (seen i s x h) t) < (arrivedBar n b (seen i s x h) t).expect) :
    (arrivalWork s x h n (arrivalCount b (seen i s x h) t) ls).s = { arrivedAt n b (seen i s x h) with
      heats := ((entered s x).updHeat x.key (·.blockedAt n ls)).heats, iss := none, now := s.now } := by
  obtain ⟨-, hT, -⟩ := hC
  obtain ⟨hu, ht⟩ := Seen.team_entered hT
  obtain ⟨hunit, hteam⟩ := hT
  have hk : h.key = x.key := State.heat?_key hI.heat
  have hcount : ((entered s x).updHeat x.key (·.blockedAt n ls)).barCount h.unit t (arrivedBar n b (seen i s x h) t) =
      s.barCount h.unit t (arrivedBar n b (seen i s x h) t) := barCount_block hI n ls hn h.unit t _
  have harr := arrive_eq (s := (entered s x).updHeat x.key (·.blockedAt n ls)) (h := h) (n := n)
    (count := arrivalCount b (seen i s x h) t) hu (hk ▸ ht) (arrivedBar n b (seen i s x h) t) (by rw [hk]; rfl)
  rw [hcount, if_neg (Nat.not_le.2 hopen), hk] at harr
  have hput : arrivedAt n b (seen i s x h) =
      s.updTeam h.unit x.key.team (fun q => { q with bars := Tbl.set q.bars n (arrivedBar n b (seen i s x h) t) }) :=
    updTeam_congr s h.unit x.key.team _ _ hunit hteam rfl
  rw [hput]
  refine harr.trans ?_
  rw [entered_eq]
  rfl

/-- BARA's lanes move on from an arrival that leaves the phase open. -/
theorem bara_arrives (c : Com) (n : Nat) (b : Option Src) : ActsOn (.bara c n b) (ArrivesEarly n b) (arrivedAt n b) := by
  obtain ⟨body, hB⟩ := bara_body c n b
  refine actsOn_of body hB.exec fun s x h hI ⟨u, t, hC, hfits, hs, hopen⟩ =>
    ⟨_, hB.settled hC hfits hs, rfl, rfl, rfl, (arrivalWork_open hI List.nodup_nil hC hopen).trans ?_⟩
  simp only [blockedAt_none, State.updHeat_id]

/-- BAR's lanes wait. -/
theorem bar_arrives (c : Com) (n : Nat) (b : Option Src) :
    Acts (.bar c n b) (ArrivesEarly n b) (arrivedAt n b) Seen.h (fun _ _ y => blocked (.bar n) y) := by
  obtain ⟨body, hB⟩ := bar_body c n b
  refine blocks_of body hB.exec fun s x h hI ⟨u, t, hC, hfits, hs, hopen⟩ =>
    ⟨{ arrivalWork s x h n (arrivalCount b (seen _ s x h) t) (active (.bar c n b) x h) with stay := [] }, rfl, rfl, rfl,
      hB.settled hC hfits hs, arrivalWork_open hI (Issues_active_nodup hI) hC hopen⟩

/-- A BAR of a heat that has arrived blocks its lanes. -/
theorem bar_waits (c : Com) (n : Nat) (b : Option Src) : Acts (.bar c n b) (fun e => ∃ u t, ComesTo n e u t false) Seen.s Seen.h
    (fun _ _ y => blocked (.bar n) y) := by
  refine blocks_of _ (exec_bar · c n b) fun s x h hI ⟨u, t, hact, hT, hbit⟩ =>
    ⟨{ s := (entered s x).updHeat x.key (·.blockedAt n (active (.bar c n b) x h)), irrev := true },
      rfl, rfl, rfl, (if_neg (act_ne hact)).trans ?_, by rw [entered_eq]; rfl⟩
  rw [barrier_env hT]
  exact (if_pos hbit).trans (each_block (envOf (.bar c n b) s x h) (fun _ => .bar n) _ _)

/-- A BARA of a heat that has arrived stalls. -/
theorem bara_stalls {c : Com} {n : Nat} {b : Option Src} {s : State} {x : Iss} {h : Heat} (hI : Issues (.bara c n b) s x h)
    (hC : ∃ u t, ComesTo n (seen (.bara c n b) s x h) u t false) : Stalls (.bara c n b) s := by
  obtain ⟨u, t, hact, hT, hbit⟩ := hC
  refine stalls_of hI _ (exec_bara · c n b) ((if_neg (act_ne hact)).trans ?_)
  rw [barrier_env hT]
  exact if_pos hbit

/-- Both words arrive by the one rule. -/
theorem arrival_body {c : Com} {n : Nat} {b : Option Src} {i : Instr} (hi : i = .bara c n b ∨ i = .bar c n b) :
    ∃ stays body, ArrivalBody i n b stays body := by
  rcases hi with rfl | rfl
  · exact ⟨false, bara_body c n b⟩
  · exact ⟨true, bar_body c n b⟩

/-- Settles O18: the two words arrive by one rule (`ArrivalBody`), which waits where the heat owes, traps at a count out of place, and
else leaves the phase open (`arrivalWork_open`) or fills it (`fills_outcome`); after the arrival BAR blocks and BARA stalls. -/
theorem barriersJoinTheirTeam : Obligations.BarriersJoinTheirTeam := by
  unfold Obligations.BarriersJoinTheirTeam
  intro c n b bar count good comes after fills early again owes put flip
  refine ⟨bara_arrives c n b, bar_arrives c n b, bar_waits c n b, fun s x h hI hC => bara_stalls hI hC, fun i hi s x h hI howes => ?_,
    fun i hi s x h hI u t hC => ?_⟩
  · obtain ⟨stays, body, hB⟩ := arrival_body hi
    obtain ⟨u, t, hC, hfits, hs⟩ := howes
    exact waitOn_outcome hI body hB.exec _ (hB.owing hC hfits hs)
  · obtain ⟨stays, body, hB⟩ := arrival_body hi
    have ⟨hact, hT, _⟩ := hC
    have ⟨hunit, hteam⟩ := hT
    refine ⟨fun ⟨_, hfits, hs, hfull⟩ => ?_, fun hbad ht => perm_parked hI hact ht body (hB.exec s) stays (hB.misfit hC hbad)⟩
    have hflip : flip (seen i s x h) = s.updTeam h.unit x.key.team (fun q => { q with bars := Tbl.set q.bars n { phase := !(bar t).phase } }) :=
      updTeam_congr s h.unit x.key.team _ _ hunit hteam rfl
    rw [hflip]
    exact fills_outcome hI hT body hB.exec (waiting stays (active i x h)) (fun l hl => (List.mem_filter.1 (waiting_mem hl)).1)
      (waiting_nodup stays (Issues_active_nodup hI)) (arrivedBar n b (seen i s x h) t) rfl hfull (hB.settled hC hfits hs)

end Sys2Proof.Machine
end

section
/-! SUPPORT. The reset (R449, R457, R459), and the statement O60. -/

namespace Sys2Proof.Machine

open Sys2Proof Sys2Proof.Safe

/-- Settles O60: each field of the reset state stands at the value that its structure gives it. -/
theorem resetLeavesWhatTheManualStates : Obligations.ResetLeavesWhatTheManualStates :=
  ⟨rfl, fun _ => rfl, rfl, rfl, rfl, rfl, rfl, rfl, rfl, rfl, rfl, fun _ => rfl, rfl, rfl⟩

end Sys2Proof.Machine
end

section
/-! SUPPORT. The system words on fields (R350, R409, R443, R456), and the statement O16. -/

namespace Sys2Proof.Machine

open Sys2Proof Sys2Proof.Safe

/-! What the body of a word sees of its issue. -/

theorem envOf_h (i : Instr) (s : State) (x : Iss) (h : Heat) : (envOf i s x h).h = h := rfl
theorem envOf_key (i : Instr) (s : State) (x : Iss) (h : Heat) : (envOf i s x h).key = x.key := rfl
theorem envOf_act (i : Instr) (s : State) (x : Iss) (h : Heat) : (envOf i s x h).act = active i x h := rfl
theorem envOf_lowest (i : Instr) (s : State) (x : Iss) (h : Heat) : (envOf i s x h).lowest = (seen i s x h).low := rfl
theorem envOf_base (i : Instr) (s : State) (x : Iss) (h : Heat) : (envOf i s x h).base = { s with iss := none } := rfl

theorem updCtx_heatless (c : Nat) (f : Ctx → Ctx) : Heatless (State.updCtx · c f) := ⟨fun _ _ => rfl, fun _ => rfl⟩

/-! MFS and MTS (R409). -/

theorem sysField_overflow (s : State) (h : Heat) : s.sysField h 1 =
    (s.records.filter (fun r => r.ctx = h.key.ctx ∧ r.die = h.core / 64)).length +
      if Tbl.get false (s.ctx h.key.ctx).ovf (h.core / 64) then 8192 else 0 := by
  show _ + 8192 * b2n (Tbl.get false (s.ctx h.key.ctx).ovf (h.core / 64)) = _
  cases Tbl.get false (s.ctx h.key.ctx).ovf (h.core / 64) <;> rfl

/-- What MTS makes of its context's fault buffer registers. -/
def fieldWritten (n : Nat) (a : Src) (e : Seen) (s : State) : State :=
  if n = 1 then
    if bit (e.rd .n32 a e.low) 13 then s.updCtx e.x.key.ctx (fun q => { q with ovf := Tbl.erase q.ovf (e.h.core / 64) }) else s
  else s.updCtx e.x.key.ctx (fun q => { q with ovfCount := Tbl.put 0 q.ovfCount (e.h.core / 64) (e.rd .n32 a e.low) })

theorem fieldWritten_heatless (n : Nat) (a : Src) (e : Seen) : Heatless (fieldWritten n a e) := by
  unfold fieldWritten
  split
  · split
    · exact updCtx_heatless _ _
    · exact ⟨fun _ _ => rfl, fun _ => rfl⟩
  · exact updCtx_heatless _ _

theorem mts_writes (c : Com) (a : Src) {n : Nat} (hn : n = 1 ∨ n = 2) :
    ActsOn (.mts c n a) (fun e => e.act ≠ []) (fun e => fieldWritten n a e e.s) := by
  refine actsOn_heatless _ (exec_mts · c n a) (fieldWritten n a) (fieldWritten_heatless n a) fun s x h hI hact => (if_neg (act_ne hact)).trans ?_
  rw [envOf_src32, envOf_lowest, envOf_h]
  unfold State.setSysField fieldWritten
  rw [State.heat?_key hI.heat]
  rcases hn with rfl | rfl <;> rfl

/-- A word that changes the part as `u` does, which sees no heat, its heat beside the lanes as `g` does, and each active lane as `F` does;
with `stays` its lanes have their place settled. -/
theorem acts_part {i : Instr} {P : Seen → Prop} (stays : Bool) (u : Seen → State → State) (g : Seen → Heat → Heat) (F : Seen → Nat → Lane → Lane)
    (body : Env → Work → Work) (hi : ∀ s, exec i s = issue i s body) (hu : ∀ e, Heatless (u e)) (hkey : ∀ e q, (g e q).key = q.key)
    (hlanes : ∀ e q, (g e q).lanes = q.lanes) (hF : ∀ e l y, y.st ≠ .exited → (F e l y).st ≠ .exited)
    (hb : ∀ s x h, Issues i s x h → P (seen i s x h) → ∃ w : Work, body (envOf i s x h) { s := entered s x } = w ∧
      w.traps = [] ∧ w.stall = false ∧ w.stay = waiting stays (active i x h) ∧
      w.s = (u (seen i s x h) (entered s x)).updHeat x.key (fun q =>
        (active i x h).foldl (fun q l => q.updLane l (F (seen i s x h) l)) (g (seen i s x h) q))) :
    Acts i P (fun e => u e e.s) (fun e => g e e.h) (fun e l y => bif stays then F e l y else (F e l y).advance) := by
  refine acts_upd body hi fun s x h hI hP => ?_
  obtain ⟨w, hw, htraps, hstall, hstay, hs⟩ := hb s x h hI hP
  let e := seen i s x h
  have hlane (m : Nat) : (((active i x h).foldl (fun q l => q.updLane l (F e l)) (g e h))).lane m =
      if m ∈ active i x h ∧ m < h.lanes.length then F e m (h.lane m) else h.lane m := by
    rw [Heat.lane_foldl_updLane _ (F e) _ _ (Issues_active_nodup hI), Heat.lane, Heat.lane, hlanes]
  refine ⟨w, fun q => (active i x h).foldl (fun q l => q.updLane l (F e l)) (g e q), hw, htraps, hstall, fun q => (Heat.foldl_updLane_key _ (F e) _).trans (hkey e q), ?_, Heat.foldl_updLane_eq _ (F e) (g e h),
    (Heat.length_foldl_updLane _ (F e) _).trans (congrArg List.length (hlanes e h)), fun m hm => ?_, fun m hm => ?_⟩
  · have hentered : entered s x = withH s (entered s x).heats := entered_eq s x
    have hnow := (hu e).now s
    rw [hs]
    rw [hentered, (hu e).heats, ← hnow]
    rfl
  · rw [hlane]
    split
    · exact hF _ _ _ (Issues_live hI m hm)
    · exact Issues_live hI m hm
  · rw [hlane, hstay]
    by_cases ha : m ∈ active i x h
    · cases stays <;> simp [waiting, ha, hm, (List.mem_filter.1 ha).1, e]
    · cases stays <;> simp [waiting, ha]

theorem id_heatless : Heatless (fun s => s) := ⟨fun _ _ => rfl, fun _ => rfl⟩

/-- An update of no lane. -/
theorem foldl_updLane_id (ls : List Nat) (q : Heat) : ls.foldl (fun q l => q.updLane l (fun y => y)) q = q := by
  have hid (l : Nat) (q : Heat) : q.updLane l (fun y => y) = q := by
    unfold Heat.updLane
    rw [show modifyAt q.lanes l (fun y => y) = q.lanes from List.ext_getElem? fun j => by rw [getElem?_modifyAt]; split <;> simp]
  induction ls with
  | nil => rfl
  | cons l ls ih => rw [List.foldl_cons, hid, ih]

theorem mts_flags (c : Com) (a : Src) : Acts (.mts c 0 a) (fun e => e.act ≠ []) Seen.s
    (fun e => { e.h with nflags := e.rd .n32 a e.low % 256 }) (fun _ _ y => y.advance) := by
  refine acts_part false (fun _ s => s) (fun e q => { q with nflags := e.rd .n32 a e.low % 256 }) (fun _ _ y => y) _ (exec_mts · c 0 a)
    (fun _ => id_heatless) (fun _ _ => rfl) (fun _ _ => rfl) (fun _ _ _ hy => hy) fun s x h hI hact => ⟨_, if_neg (act_ne hact), rfl, rfl, rfl, ?_⟩
  rw [envOf_src32, envOf_h]
  unfold State.setSysField
  rw [State.heat?_key hI.heat]
  simp only [foldl_updLane_id]
  rfl

/-- Settles O16: HELD.test writes a predicate; HELD.list, MFS, STAMP (once its fence is done) and DEFMAP compute; MTS writes its field
once for its lanes. -/
theorem systemWordsReadAndWriteTheirFields : Obligations.SystemWordsReadAndWriteTheirFields := by
  unfold Obligations.SystemWordsReadAndWriteTheirFields
  intro c n d sc a posted none write
  refine ⟨?_, ?_, ?_, ?_, ?_, mts_flags c a, mts_writes c a (.inl rfl), mts_writes c a (.inr rfl), ?_, ?_⟩
  · refine setsPreds_of _ (exec_heldTest · c n a) (fun _ _ _ => rfl) fun s x h _ l _ m hm => ?_
    rw [Lane.getLsbD_setP _ _ _ _ hm, envOf_src32]
    split <;> rfl
  · refine gives_of _ (exec_heldList · c d a) fun s x h _ _ => congrArg (fun f => (envOf _ s x h).compute false d f _) (funext fun l => ?_)
    rw [envOf_src32]
    unfold heldWord
    simp only [b2n, ite_mul, one_mul, zero_mul]
    rfl
  · exact gives_of _ (exec_mfs · c n 0) fun s x h _ _ => rfl
  · refine gives_of _ (exec_mfs · c n 1) fun s x h hI _ => ?_
    rw [sysField_overflow, envOf_h, State.heat?_key hI.heat]
    rfl
  · refine gives_of _ (exec_mfs · c n 2) fun s x h hI _ => ?_
    unfold State.sysField
    rw [envOf_h, State.heat?_key hI.heat]
    rfl
  · refine gives_of _ (exec_stamp · c sc d) fun s x h hI hq => ?_
    by_cases hact : (envOf (.stamp c sc d) s x h).act = []
    · exact (if_pos (List.isEmpty_iff.2 hact)).trans (compute_none _ _ _ _ _ hact).symm
    · refine (if_neg (mt List.isEmpty_iff.1 hact)).trans ((if_pos (quiet_fence hI hq sc _)).trans ?_)
      rw [entered_eq]
      rfl
  · refine gives_of _ (exec_defmap · c d a) fun s x h _ _ => congrArg (fun f => (envOf _ s x h).compute true d f _) (funext fun l => ?_)
    rw [envOf_src32]
    rfl

end Sys2Proof.Machine
end

section
/-! SUPPORT. Acquisitions (R276), the colour table and its queues (R44, R343) see no heat: a change of theirs is the same beside other
heats. -/

namespace Sys2Proof.Machine

open Sys2Proof Sys2Proof.Safe

theorem peek_withH (s : State) (H : List Heat) (ctx die va : Nat) (use : Use) : (withH s H).peek ctx die va use = s.peek ctx die va use := by
  unfold State.peek
  rw [show withH s H = s.onHeats H none from rfl, walk_onHeats]
  rfl

theorem entryPa_withH (s : State) (H : List Heat) (ctx c : Nat) : (withH s H).entryPa ctx c = s.entryPa ctx c := by
  unfold State.entryPa
  rw [peek_withH]
  rfl

theorem cohWrite_now (s : State) (pa : Nat) (bs : List Byte) : (s.cohWrite pa bs).now = s.now := by
  refine foldl_keeps (P := fun t => t.now = s.now) (fun t c ht => ?_) _ s rfl
  unfold State.cohPatch
  split <;> exact ht

theorem cohWrite_heatless (pa : Nat) (bs : List Byte) : Heatless (State.cohWrite · pa bs) :=
  ⟨fun b H => cohWrite_onHeats b H none pa bs, fun b => cohWrite_now b pa bs⟩

theorem cohPut_heatless (pa n v : Nat) : Heatless (State.cohPut · pa n v) := cohWrite_heatless pa _

/-! Acquisitions (R276). -/

/-- What an acquisition leaves of the part: all but the sectors of the L1s and the tables of its context. -/
def Acquires (s t : State) : Prop := t = { s with l1 := t.l1, ctxs := t.ctxs }

theorem Acquires.refl (s : State) : Acquires s s := rfl

theorem Acquires.trans {s t u : State} (h1 : Acquires s t) (h2 : Acquires t u) : Acquires s u := by
  unfold Acquires at *
  rw [h2, h1]

theorem applySig_acquires (s : State) (ctx core : Nat) (g : Sig) : Acquires s (s.applySig ctx core g) := by
  unfold State.applySig
  split <;> rfl

theorem applySlots_acquires (ctx core o : Nat) (last : Nat × Sig) (qs : List Nat) (s : State) : Acquires s (s.applySlots ctx core o last qs) := by
  induction qs generalizing s with
  | nil => rfl
  | cons q qs ih =>
    unfold State.applySlots
    split
    · rfl
    · exact (applySig_acquires s ctx core _).trans (ih _)

theorem acquireSeq_acquires (s : State) (ctx core o q : Nat) (delta : Option Sig) : Acquires s (s.acquireSeq ctx core o q delta) := by
  unfold State.acquireSeq
  split
  · rfl
  split
  · rfl
  dsimp only
  split
  · rfl
  refine Acquires.trans ?_ rfl
  split
  · rfl
  · cases delta <;> exact applySlots_acquires ..

theorem acquireObj_acquires (s : State) (ctx core pa : Nat) : Acquires s (s.acquireObj ctx core pa) :=
  acquireSeq_acquires s ctx core (s.syncAt pa).origin (s.syncAt pa).seq (some (s.syncAt pa).delta)

/-- An acquisition leaves what stands in memory and its copies. -/
theorem Acquires.cohNat {s t : State} (h : Acquires s t) (pa n : Nat) : t.cohNat pa n = s.cohNat pa n := by
  rw [show t = { s with l1 := t.l1, ctxs := t.ctxs } from h]
  rfl

theorem trailSig_withH (s : State) (H : List Heat) (ctx core o q : Nat) : (withH s H).trailSig ctx core o q = s.trailSig ctx core o q := by
  unfold State.trailSig
  rw [peek_withH]
  rfl

theorem applySig_withH (s : State) (H : List Heat) (ctx core : Nat) (g : Sig) :
    (withH s H).applySig ctx core g = withH (s.applySig ctx core g) H := by
  unfold State.applySig
  split <;> rfl

theorem applySlots_withH (H : List Heat) (ctx core o : Nat) (last : Nat × Sig) (qs : List Nat) (s : State) :
    (withH s H).applySlots ctx core o last qs = withH (s.applySlots ctx core o last qs) H := by
  induction qs generalizing s with
  | nil => rfl
  | cons q qs ih =>
    simp only [State.applySlots, trailSig_withH]
    split
    · rfl
    · rw [applySig_withH, ih]

theorem acquireSeq_withH (s : State) (H : List Heat) (ctx core o q : Nat) (delta : Option Sig) :
    (withH s H).acquireSeq ctx core o q delta = withH (s.acquireSeq ctx core o q delta) H := by
  have hctx : (withH s H).ctx ctx = s.ctx ctx := rfl
  simp only [State.acquireSeq, hctx]
  cases delta <;> dsimp only <;> simp only [applySlots_withH] <;> repeat' split
  all_goals rfl

theorem acquireObj_heatless (ctx core pa : Nat) : Heatless (State.acquireObj · ctx core pa) where
  heats b H := acquireSeq_withH b H ctx core (b.syncAt pa).origin (b.syncAt pa).seq (some (b.syncAt pa).delta)
  now b := by rw [acquireObj_acquires b ctx core pa]

/-! The colour table (R44, R343). -/

theorem setMonQ_heatless (ctx c : Nat) (q : List Waiter) : Heatless (State.setMonQ · ctx c q) where
  heats b H := by
    unfold State.setMonQ
    dsimp only
    rw [show (withH b H).updCtx ctx (fun x => { x with mon := Tbl.put [] x.mon c q }) =
      withH (b.updCtx ctx (fun x => { x with mon := Tbl.put [] x.mon c q })) H from rfl, entryPa_withH]
    split
    · rfl
    · exact (cohWrite_heatless _ _).heats _ H
  now b := by
    unfold State.setMonQ
    dsimp only
    split
    · rfl
    · exact cohWrite_now _ _ _

theorem setOwner_heatless (ctx c tid : Nat) : Heatless (State.setOwner · ctx c tid) where
  heats b H := by
    simp only [State.setOwner, entryPa_withH]
    split
    · rfl
    · exact (cohPut_heatless _ _ _).heats b H
  now b := by
    simp only [State.setOwner]
    split
    · rfl
    · exact cohWrite_now _ _ _

theorem setAbandoned_heatless (pa : Nat) (v : Bool) : Heatless (State.setAbandoned · pa v) where
  heats b H := (cohPut_heatless _ _ _).heats b H
  now _ := cohWrite_now _ _ _

theorem findEntry_withH (s : State) (H : List Heat) (h : Heat) (c : Nat) :
    (withH s H).findEntry h c = ((s.findEntry h c).1, withH (s.findEntry h c).2 H) := by
  have hctx : (withH s H).ctx h.key.ctx = s.ctx h.key.ctx := rfl
  have htr (va : Nat) := translate_onHeats s H none h.key.ctx (dieOf h.core) (some h.core) va .write
  simp only [State.findEntry, hctx]
  split
  · rfl
  rw [show withH s H = s.onHeats H none from rfl, htr]
  generalize s.translate h.key.ctx (dieOf h.core) (some h.core) (entryVa (s.ctx h.key.ctx) c) .write = r
  obtain ⟨_ | pa, t⟩ := r
  · rfl
  · exact pair_ite_onHeats Iff.rfl rfl (pair_ite_onHeats Iff.rfl rfl rfl)

theorem queueRelease_heatless (h : Heat) (l c pa : Nat) : Heatless (State.queueRelease · h l c pa) where
  heats b H := enqueueRel_withH b H _
  now b := by
    unfold State.queueRelease State.enqueueRel State.capture
    split
    · rfl
    · dsimp only
      split <;> rfl

end Sys2Proof.Machine
end

section
/-! SUPPORT. CLAIM (R333 to R335, R347): the attempt at one colour, and the statement O37. -/

namespace Sys2Proof.Machine

open Sys2Proof Sys2Proof.Safe

/-- `acts_part` for a word whose lanes move on. -/
theorem acts_moves {i : Instr} {P : Seen → Prop} (u : Seen → State → State) (F : Seen → Nat → Lane → Lane)
    (body : Env → Work → Work) (hi : ∀ s, exec i s = issue i s body) (hu : ∀ e, Heatless (u e))
    (hF : ∀ e l y, y.st ≠ .exited → (F e l y).st ≠ .exited)
    (hb : ∀ s x h, Issues i s x h → P (seen i s x h) → ∃ w : Work, body (envOf i s x h) { s := entered s x } = w ∧
      w.traps = [] ∧ w.stall = false ∧ w.stay = [] ∧
      w.s = (u (seen i s x h) (entered s x)).updHeat x.key (fun q => (active i x h).foldl (fun q l => q.updLane l (F (seen i s x h) l)) q)) :
    Acts i P (fun e => u e e.s) Seen.h (fun e l y => (F e l y).advance) :=
  acts_part false u (fun _ q => q) F body hi hu (fun _ _ => rfl) (fun _ _ => rfl) hF hb

/-- `acts_part` for a word that settles where its lanes go on. -/
theorem acts_stays {i : Instr} {P : Seen → Prop} (u : Seen → State → State) (F : Seen → Nat → Lane → Lane)
    (body : Env → Work → Work) (hi : ∀ s, exec i s = issue i s body) (hu : ∀ e, Heatless (u e))
    (hF : ∀ e l y, y.st ≠ .exited → (F e l y).st ≠ .exited)
    (hb : ∀ s x h, Issues i s x h → P (seen i s x h) → ∃ w : Work, body (envOf i s x h) { s := entered s x } = w ∧
      w.traps = [] ∧ w.stall = false ∧ w.stay = active i x h ∧
      w.s = (u (seen i s x h) (entered s x)).updHeat x.key (fun q => (active i x h).foldl (fun q l => q.updLane l (F (seen i s x h) l)) q)) :
    Acts i P (fun e => u e e.s) Seen.h F :=
  acts_part true u (fun _ q => q) F body hi hu (fun _ _ => rfl) (fun _ _ => rfl) hF hb

/-- How a word changes its lanes matters at the lanes it sees only. -/
theorem Acts.of_lane {i : Instr} {P : Seen → Prop} {U : Seen → State} {G : Seen → Heat} {F F' : Seen → Nat → Lane → Lane} (h : Acts i P U G F)
    (hF : ∀ e l, F' e l (e.h.lane l) = F e l (e.h.lane l)) : Acts i P U G F' := by
  intro s x q hI hP
  obtain ⟨t, g, hexec, ht, hne, hself, hg, hlanes⟩ := h s x q hI hP
  refine ⟨t, g, hexec, ht, hne, hself, hg, fun l hl => ?_⟩
  rw [hlanes l hl, show F (seen i s x q) l (q.lane l) = F' (seen i s x q) l (q.lane l) from (hF (seen i s x q) l).symm]

/-- What CLAIM's checks leave of a lane that lacks one colour: room for it above all that the lane holds. -/
theorem claimCheck_one {y : Lane} {raw : List Nat} {c : Nat} (h : claimCheck y raw = .ok [c]) :
    y.holds c = false ∧ y.held.any (fun q => c < q.colour) = false ∧ y.held.length ≤ 7 := by
  unfold claimCheck at h
  dsimp only at h
  split at h
  · cases h
  split at h
  · cases h
  split at h
  · cases h
  next hord =>
  split at h
  · cases h
  next hroom =>
  injection h with hn
  rw [hn] at hord hroom
  have hc : c ∈ (raw.filter (· ≠ 0)).filter (fun c => !(y.holds c)) := by rw [hn]; exact List.mem_singleton_self c
  refine ⟨by simpa using (List.mem_filter.1 hc).2, by simpa using hord, ?_⟩
  simp only [List.length_singleton] at hroom
  omega

/-- An attempt at a colour that the lane may take, whose entry is found without a change (R335). -/
theorem acquireColour_found {s : State} {key : HeatKey} {h : Heat} {l c pa : Nat} {raw : List Nat} (hh : s.heat? key = some h)
    (hcheck : claimCheck (h.lane l) raw = .ok [c]) (hfind : s.findEntry h c = (.ok pa, s)) :
    s.acquireColour key l c =
      if s.ownerOf pa = noThread then (s.setOwner key.ctx c (threadId key l)).finishAcquire h l c (h.lane l).depth pa
      else (.queued, s.setMonQ key.ctx c (s.monQ key.ctx c ++ [{ key := key, lane := l }])) := by
  obtain ⟨hheld, hord, hroom⟩ := claimCheck_one hcheck
  unfold State.acquireColour
  rw [hh]
  dsimp only
  rw [hheld, if_neg (by decide), hord, if_neg (by decide), if_neg (by omega), hfind]

theorem claim_free {s : State} {key : HeatKey} {h : Heat} {l c pa : Nat} {raw : List Nat} (hh : s.heat? key = some h)
    (hcheck : claimCheck (h.lane l) raw = .ok [c]) (hfind : s.findEntry h c = (.ok pa, s)) (hfree : s.ownerOf pa = noThread)
    (hwhole : (s.setOwner key.ctx c (threadId key l)).abandoned pa = false) :
    State.claim key l [c] s = (none, ((s.setOwner key.ctx c (threadId key l)).acquireObj key.ctx h.core pa).updLane key l
      (fun y => { y with held := addHeld y.held { colour := c, depth := (h.lane l).depth } })) := by
  have hkey := State.heat?_key hh
  subst hkey
  have hwhole : ((s.setOwner h.key.ctx c (threadId h.key l)).acquireObj h.key.ctx h.core pa).abandoned pa = false := by
    unfold State.abandoned
    rw [(acquireObj_acquires ..).cohNat]
    exact hwhole
  unfold State.claim
  rw [acquireColour_found hh hcheck hfind, if_pos hfree, finishAcquire_granted hwhole]
  rfl

theorem claim_owned {s : State} {key : HeatKey} {h : Heat} {l c pa : Nat} {raw : List Nat} (hh : s.heat? key = some h)
    (hcheck : claimCheck (h.lane l) raw = .ok [c]) (hfind : s.findEntry h c = (.ok pa, s)) (howned : s.ownerOf pa ≠ noThread) :
    State.claim key l [c] s = (some .queued, (s.setMonQ key.ctx c (s.monQ key.ctx c ++ [{ key := key, lane := l }])).updLane key l
      (blocked (.claim [c]))) := by
  unfold State.claim
  rw [acquireColour_found hh hcheck hfind, if_neg howned]
  rfl

/-- A fold whose steps all leave its state. -/
theorem foldl_stays {α β : Type} {f : β → α → β} {b : β} {ls : List α} (h : ∀ a ∈ ls, f b a = b) : ls.foldl f b = b := by
  induction ls with
  | nil => rfl
  | cons a ls ih => rw [List.foldl_cons, h a List.mem_cons_self, ih fun c hc => h c (List.mem_cons_of_mem a hc)]

/-- The colours that a lane names from register `a` on (R347). -/
def claimed (a n : Nat) (y : Lane) : List Nat := (upto (n + 1)).map (fun j => y.v32 (a + j))

/-- A CLAIM of one active lane that lacks one colour, whose entry is found without a change. -/
def Lacks (a n l c pa : Nat) (e : Seen) : Prop :=
  e.act = [l] ∧ claimCheck (e.h.lane l) (claimed a n (e.h.lane l)) = .ok [c] ∧ e.s.findEntry e.h c = (.ok pa, e.s)

/-- What a lane's CLAIM that comes to `r` makes of the word. -/
def Work.claimed (w : Work) (l : Nat) : Option Acquired × State → Work
  | (some (.trapped t), s) => ({ w with s := s, irrev := true } : Work).trap l t
  | (some _, s) => ({ w with s := s, irrev := true } : Work).hold l
  | (none, s) => { w with s := s, irrev := true }

/-- The one lane's CLAIM. -/
theorem claim_body (c : Com) (a n : Nat) : ∃ body : Env → Work → Work, (∀ s, exec (.claim c a n) s = issue (.claim c a n) s body) ∧
    (∀ s x h, (∀ l ∈ active (.claim c a n) x h, claimCheck (h.lane l) (claimed a n (h.lane l)) = .ok []) →
      body (envOf (.claim c a n) s x h) { s := entered s x } = { s := entered s x }) ∧
    ∀ s x h l col pa, Issues (.claim c a n) s x h → Lacks a n l col pa (seen (.claim c a n) s x h) →
      body (envOf (.claim c a n) s x h) { s := entered s x } =
        Work.claimed { s := entered s x } l (State.claim x.key l [col] (entered s x)) := by
  refine ⟨_, (exec_claim · c a n), fun s x h hnone => foldl_stays fun l hl => ?_, fun s x h l col pa hI ⟨hact, hcheck, hfind⟩ => ?_⟩
  · dsimp only
    rw [envOf_h, show (upto (n + 1)).map _ = claimed a n (h.lane l) from rfl, hnone l hl]
    rfl
  · unfold Env.each
    rw [show (envOf (.claim c a n) s x h).act = [l] from hact, List.foldl_cons, List.foldl_nil, envOf_h]
    dsimp only
    rw [show List.map _ (upto (n + 1)) = claimed a n (h.lane l) from rfl,
      show claimCheck (h.lane l) (claimed a n (h.lane l)) = .ok [col] from hcheck]
    dsimp only
    rw [envOf_key]
    rcases State.claim x.key l [col] (entered s x) with ⟨_ | ⟨_ | _ | _ | t⟩, t⟩ <;> rfl

theorem findEntry_entered {s : State} {h : Heat} {c pa : Nat} (hfind : s.findEntry h c = (.ok pa, s)) (x : Iss) :
    (entered s x).findEntry h c = (.ok pa, entered s x) := by
  rw [show entered s x = withH s (entered s x).heats from entered_eq s x, findEntry_withH, hfind]

/-- A free entry is taken with its object acquired (R334, R335). -/
theorem claim_takes (c : Com) (a n l col pa : Nat) :
    Acts (.claim c a n) (fun e => Lacks a n l col pa e ∧ e.s.ownerOf pa = noThread ∧
        (e.s.setOwner e.x.key.ctx col (threadId e.x.key l)).abandoned pa = false)
      (fun e => (e.s.setOwner e.x.key.ctx col (threadId e.x.key l)).acquireObj e.x.key.ctx e.h.core pa) Seen.h
      (fun _ _ y => { y with held := addHeld y.held { colour := col, depth := y.depth } }.advance) := by
  obtain ⟨body, hexec, -, hone⟩ := claim_body c a n
  refine Acts.of_lane (acts_moves (P := fun e => Lacks a n l col pa e ∧ e.s.ownerOf pa = noThread ∧
        (e.s.setOwner e.x.key.ctx col (threadId e.x.key l)).abandoned pa = false) (fun e s => (s.setOwner e.x.key.ctx col (threadId e.x.key l)).acquireObj e.x.key.ctx e.h.core pa)
    (fun e m y => { y with held := addHeld y.held { colour := col, depth := (e.h.lane m).depth } }) body hexec
    (fun e => (acquireObj_heatless _ _ _).comp (setOwner_heatless _ _ _)) (fun _ _ _ hy => hy) fun s x h hI hP => ?_) fun _ _ => rfl
  obtain ⟨hlacks, hfree, hwhole⟩ := hP
  have hact : active (.claim c a n) x h = [l] := hlacks.1
  have hent : entered s x = withH s (entered s x).heats := entered_eq s x
  refine ⟨_, (hone s x h l col pa hI hlacks).trans (congrArg _ (claim_free hI.heat hlacks.2.1 (findEntry_entered hlacks.2.2 x) ?_ ?_)),
    rfl, rfl, rfl, ?_⟩
  · rw [hent]
    exact hfree
  · rw [hent, (setOwner_heatless _ _ _).heats]
    exact hwhole
  · rw [hact]
    rfl

/-- Lane `l` joins the queue of colour `c` as an acquirer (R335). -/
def queueClaim (c l : Nat) (e : Seen) (s : State) : State :=
  s.setMonQ e.x.key.ctx c (e.s.monQ e.x.key.ctx c ++ [{ key := e.x.key, lane := l }])

theorem queueClaim_heatless (c l : Nat) (e : Seen) : Heatless (queueClaim c l e) := setMonQ_heatless _ _ _

/-- An owned colour is waited for (R335). -/
theorem claim_waits (c : Com) (a n l col pa : Nat) :
    Acts (.claim c a n) (fun e => Lacks a n l col pa e ∧ e.s.ownerOf pa ≠ noThread)
      (fun e => e.s.setMonQ e.x.key.ctx col (e.s.monQ e.x.key.ctx col ++ [{ key := e.x.key, lane := l }])) Seen.h
      (fun _ _ y => blocked (.claim [col]) y) := by
  obtain ⟨body, hexec, -, hone⟩ := claim_body c a n
  refine acts_stays (P := fun e => Lacks a n l col pa e ∧ e.s.ownerOf pa ≠ noThread) (fun e s => queueClaim col l e s)
    (fun _ _ y => blocked (.claim [col]) y) body hexec (queueClaim_heatless col l)
    (fun _ _ _ _ => by simp [blocked]) fun s x h hI hP => ?_
  obtain ⟨hlacks, howned⟩ := hP
  have hact : active (.claim c a n) x h = [l] := hlacks.1
  have hent : entered s x = withH s (entered s x).heats := entered_eq s x
  refine ⟨_, (hone s x h l col pa hI hlacks).trans (congrArg _ (claim_owned hI.heat hlacks.2.1 (findEntry_entered hlacks.2.2 x) ?_)),
    rfl, rfl, hact.symm, ?_⟩
  · rw [hent]
    exact howned
  · rw [hact, show (entered s x).monQ x.key.ctx col = s.monQ x.key.ctx col from by rw [hent]; rfl]
    rfl

/-- Settles O37: the one colour's attempt takes the free entry or joins its queue. -/
theorem claimTakesOrWaits : Obligations.ClaimTakesOrWaits := by
  unfold Obligations.ClaimTakesOrWaits
  intro c a n l col pa
  obtain ⟨body, hexec, hnone, -⟩ := claim_body c a n
  exact ⟨actsOn_heatless body hexec (fun _ s => s) (fun _ => id_heatless) fun s x h hI hP => hnone s x h hP,
    claim_takes c a n l col pa, claim_waits c a n l col pa⟩

end Sys2Proof.Machine
end

section
/-! SUPPORT. MWAIT, MNOTE, MNOTEALL and MREPAIR (R346, R348, R349, R351), and the statement O38. -/

namespace Sys2Proof.Machine

open Sys2Proof Sys2Proof.Safe

/-- A change that sees no heat goes past a change of one heat. -/
theorem Heatless.updHeat {f : State → State} (hf : Heatless f) (s : State) (x : Iss) (k : HeatKey) (g : Heat → Heat) :
    f ((entered s x).updHeat k g) = (f (entered s x)).updHeat k g := by
  have hentered : entered s x = withH s (entered s x).heats := entered_eq s x
  rw [hentered, hf.heats, show (withH s (entered s x).heats).updHeat k g = withH s ((withH s (entered s x).heats).updHeat k g).heats from rfl, hf.heats]
  rfl

/-- One lane's trap parks it (R396). -/
theorem one_parked {i : Instr} {s : State} {x : Iss} {h : Heat} {l n : Nat} {y : Trap} (hI : Issues i s x h) (hact : active i x h = [l])
    (ht : ∀ l ∈ x.lanes, (h.lane l).task = none) (body : Env → Work → Work) (hi : exec i s = issue i s body)
    (hb : body (envOf i s x h) { s := entered s x } = ({ s := entered s x } : Work).trap l y) (hcode : y.cause.code = n)
    (hbrk : y.cause ≠ .brk) (hn : n < 32) : ∃ u, exec i s = .next u ∧ Parked s u x h [l] (fun _ => y) n := by
  obtain ⟨h0, -, he⟩ := issue_eq hI body
  have hls : [l] = x.lanes.filter (fun m => [l].contains m) := self_filter _ _ _ hact.symm
  refine ⟨_, hi.trans he, ?_⟩
  rw [hb]
  exact finish_parked hI.toStands rfl rfl rfl [l] (fun _ => y) n false (by simp) hls ht (fun _ _ => hcode) (fun _ _ => hbrk) hn

/-! Colour operands (R346). -/

theorem colourTrap_held {y : Lane} {c : Nat} (hc : c < 4096) (hh : y.holds c = true) : colourTrap y c = none := by
  unfold colourTrap
  rw [if_neg (by omega), hh]
  rfl

/-- A word whose one lane traps on its colour operand. -/
def TrapsOnColour (i : Instr) (a : Src) : Prop :=
  ∃ body : Env → Work → Work, (∀ s, exec i s = issue i s body) ∧ ∀ s x h l y, active i x h = [l] →
    colourTrap (h.lane l) (reads i s x h .n32 a l) = some y →
    body (envOf i s x h) { s := entered s x } = ({ s := entered s x } : Work).trap l y

theorem each_one {i : Instr} {s : State} {x : Iss} {h : Heat} {l : Nat} (hact : active i x h = [l]) (f : Work → Nat → Work) (w : Work) :
    (envOf i s x h).each f w = f w l := by
  unfold Env.each
  rw [envOf_act, hact]
  rfl

theorem mwait_trapsOnColour (c : Com) (d : Option Nat) (a : Src) (t : Nat) : TrapsOnColour (.mwait c d a t) a := by
  refine ⟨_, (exec_mwait · c d a t), fun s x h l y hact hy => ?_⟩
  dsimp only
  rw [each_one hact, envOf_src32, envOf_h, hy]

theorem note_traps {i : Instr} {s : State} {x : Iss} {h : Heat} {l : Nat} {a : Src} {y : Trap} (all : Bool) (hact : active i x h = [l])
    (hy : colourTrap (h.lane l) (reads i s x h .n32 a l) = some y) (w : Work) : (envOf i s x h).note a all w = w.trap l y := by
  unfold Env.note
  rw [each_one hact, envOf_src32, envOf_h]
  dsimp only
  rw [hy]

theorem mrepair_trapsOnColour (c : Com) (a : Src) : TrapsOnColour (.mrepair c a) a := by
  refine ⟨_, (exec_mrepair · c a), fun s x h l y hact hy => ?_⟩
  dsimp only
  rw [each_one hact, envOf_src32, envOf_h, hy]

theorem colourWord_trapsOnColour {c : Com} {d : Option Nat} {a : Src} {t : Nat} {i : Instr}
    (hi : i = .mwait c d a t ∨ i = .mnote c a ∨ i = .mnoteall c a ∨ i = .mrepair c a) : TrapsOnColour i a := by
  rcases hi with rfl | rfl | rfl | rfl
  · exact mwait_trapsOnColour c d a t
  · exact ⟨_, (exec_mnote · c a), fun s x h l y hact hy => note_traps false hact hy _⟩
  · exact ⟨_, (exec_mnoteall · c a), fun s x h l y hact hy => note_traps true hact hy _⟩
  · exact mrepair_trapsOnColour c a

/-- A colour operand above 4095 raises PERM, and one that the lane does not hold MONITOR_STATE (R346). -/
theorem colourTrap_parked {i : Instr} {a : Src} (hi : TrapsOnColour i a) {s : State} {x : Iss} {h : Heat} {l : Nat} (hI : Issues i s x h)
    (hact : active i x h = [l]) (ht : ∀ l ∈ x.lanes, (h.lane l).task = none) :
    (4096 ≤ reads i s x h .n32 a l → ∃ u, exec i s = .next u ∧ Parked s u x h [l] (fun _ => { cause := .perm }) 11) ∧
    (reads i s x h .n32 a l < 4096 → (h.lane l).holds (reads i s x h .n32 a l) = false →
      ∃ u, exec i s = .next u ∧ Parked s u x h [l] (fun _ => { cause := .monitorState }) 9) := by
  obtain ⟨body, hexec, htrap⟩ := hi
  refine ⟨fun hc => ?_, fun hc hh => ?_⟩
  · refine one_parked hI hact ht body (hexec s) (htrap s x h l _ hact ?_) rfl (by simp) (by omega)
    unfold colourTrap
    rw [if_pos hc]
  · refine one_parked hI hact ht body (hexec s) (htrap s x h l _ hact ?_) rfl (by simp) (by omega)
    unfold colourTrap
    rw [if_neg (by omega), hh]
    rfl

/-! MWAIT (R348). -/

/-- The depth at which a lane holds a colour. -/
def heldDepth (y : Lane) (c : Nat) : Nat := ((y.held.find? (fun q => q.colour = c)).map (·.depth)).getD 0

/-- How a lane waits at its MWAIT, its release not yet performed. -/
def mwaiting (d : Option Nat) (t l c : Nat) (e : Seen) : Wait := .mwait c (heldDepth (e.h.lane l) c) d 0 (2 ^ t) false false false

theorem mwait_body (c : Com) (d : Option Nat) (a : Src) (t : Nat) : ∃ body : Env → Work → Work,
    (∀ s, exec (.mwait c d a t) s = issue (.mwait c d a t) s body) ∧ ∀ s x h l, active (.mwait c d a t) x h = [l] →
      ∀ col, reads (.mwait c d a t) s x h .n32 a l = col → col < 4096 → (h.lane l).holds col = true → (h.lane l).task = none →
      ((h.lane l).held.any (fun y => col < y.colour) = true →
        body (envOf (.mwait c d a t) s x h) { s := entered s x } = ({ s := entered s x } : Work).trap l { cause := .monitorOrder }) ∧
      ((h.lane l).held.any (fun y => col < y.colour) = false →
        body (envOf (.mwait c d a t) s x h) { s := entered s x } =
          { s := ((entered s x).updLane x.key l (blocked (mwaiting d t l col (seen (.mwait c d a t) s x h)))).beginMwait x.key l col
            stay := [l], irrev := true }) := by
  refine ⟨_, (exec_mwait · c d a t), fun s x h l hact col hrd hcol hholds htask => ?_⟩
  dsimp only
  rw [each_one hact, envOf_src32, envOf_h, hrd]
  rw [colourTrap_held hcol hholds, htask]
  exact ⟨fun horder => by rw [horder]; rfl, fun horder => by rw [horder]; rfl⟩

/-- A lane that holds its MWAIT's colour complete, runs no task and holds no greater colour. -/
def Rests (a : Src) (l : Nat) (e : Seen) : Prop :=
  (e.act = [l] ∧ e.rd .n32 a l < 4096 ∧ (e.h.lane l).holds (e.rd .n32 a l) = true) ∧ (e.h.lane l).task = none ∧
    ∀ y ∈ (e.h.lane l).held, y.colour ≤ e.rd .n32 a l

theorem mwait_rests {c : Com} {d : Option Nat} {a : Src} {t l : Nat} : ∃ body : Env → Work → Work,
    (∀ s, exec (.mwait c d a t) s = issue (.mwait c d a t) s body) ∧ ∀ s x h, Rests a l (seen (.mwait c d a t) s x h) →
      body (envOf (.mwait c d a t) s x h) { s := entered s x } =
        { s := ((entered s x).updLane x.key l (blocked (mwaiting d t l (reads (.mwait c d a t) s x h .n32 a l)
            (seen (.mwait c d a t) s x h)))).beginMwait x.key l (reads (.mwait c d a t) s x h .n32 a l)
          stay := [l], irrev := true } := by
  obtain ⟨body, hexec, hbody⟩ := mwait_body c d a t
  refine ⟨body, hexec, fun s x h ⟨⟨hact, hcol, hholds⟩, htask, horder⟩ => (hbody s x h l hact _ rfl hcol hholds htask).2 ?_⟩
  rw [List.any_eq_false]
  intro y hy
  simp only [decide_eq_true_eq, not_lt]
  exact horder y hy

/-- Whether a copy holds a release back is the same once its lane waits. -/
theorem copyBusy_waits {i : Instr} {s : State} {x : Iss} {h : Heat} (hI : Issues i s x h) (l c : Nat) (f : Lane → Lane) :
    ((entered s x).updLane x.key l f).copyBusy x.key l c = s.copyBusy x.key l c := by
  unfold State.copyBusy
  have hcpyw : (((entered s x).updLane x.key l f).heat? x.key).map (fun h => !h.cpyw.isEmpty) = (s.heat? x.key).map (fun h => !h.cpyw.isEmpty) := by
    rw [heat?_updLane hI.heat, ← entered_field (fun h => !h.cpyw.isEmpty) (fun _ _ _ => rfl) s x x.key, hI.heat]
    rfl
  rw [hcpyw, show ((entered s x).updLane x.key l f).ops = s.ops from by rw [entered_eq]; rfl]

/-- What another change of a heat's lane leaves of the colour table. -/
theorem entryPa_updLane (s : State) (x : Iss) (k : HeatKey) (l : Nat) (f : Lane → Lane) (ctx c : Nat) :
    ((entered s x).updLane k l f).entryPa ctx c = s.entryPa ctx c := by
  rw [show (entered s x).updLane k l f = withH s ((entered s x).updLane k l f).heats from by rw [entered_eq]; rfl, entryPa_withH]

theorem beginMwait_queues {s : State} {key : HeatKey} {l c pa : Nat} {h : Heat} (hbusy : s.copyBusy key l c = false) (hh : s.heat? key = some h)
    (hpa : s.entryPa key.ctx c = some pa) : s.beginMwait key l c = s.queueRelease h l c pa := by
  unfold State.beginMwait
  rw [hbusy, if_neg (by decide), hh, hpa]

/-- The release of the colour that an MWAIT names. -/
def colourReleased (a : Src) (l pa : Nat) (e : Seen) (s : State) : State := s.queueRelease e.h l (e.rd .n32 a l) pa

theorem colourReleased_heatless (a : Src) (l pa : Nat) (e : Seen) : Heatless (colourReleased a l pa e) := queueRelease_heatless _ _ _ _

theorem mwait_releases (c : Com) (d : Option Nat) (a : Src) (t l pa : Nat) :
    Acts (.mwait c d a t) (fun e => Rests a l e ∧ e.s.entryPa e.x.key.ctx (e.rd .n32 a l) = some pa ∧
        e.s.copyBusy e.x.key l (e.rd .n32 a l) = false)
      (fun e => colourReleased a l pa e e.s) Seen.h (fun e _ y => blocked (mwaiting d t l (e.rd .n32 a l) e) y) := by
  obtain ⟨body, hexec, hbody⟩ := mwait_rests (c := c) (d := d) (a := a) (t := t) (l := l)
  refine acts_stays (colourReleased a l pa) (fun e _ y => blocked (mwaiting d t l (e.rd .n32 a l) e) y) body hexec
    (colourReleased_heatless a l pa) (fun _ _ _ _ => by simp [blocked]) fun s x h hI ⟨hrests, hpa, hbusy⟩ => ?_
  have hact : active (.mwait c d a t) x h = [l] := hrests.1.1
  refine ⟨_, hbody s x h hrests, rfl, rfl, hact.symm, ?_⟩
  have hbusy : ((entered s x).updLane x.key l (blocked (mwaiting d t l (reads (.mwait c d a t) s x h .n32 a l) (seen (.mwait c d a t) s x h)))).copyBusy
      x.key l (reads (.mwait c d a t) s x h .n32 a l) = false := (copyBusy_waits hI _ _ _).trans hbusy
  rw [beginMwait_queues hbusy (heat?_updLane hI.heat _ _) ((entryPa_updLane s x _ _ _ _ _).trans hpa), hact]
  exact (colourReleased_heatless a l pa (seen (.mwait c d a t) s x h)).updHeat s x x.key _

theorem mwait_waits (c : Com) (d : Option Nat) (a : Src) (t l : Nat) :
    Acts (.mwait c d a t) (fun e => Rests a l e ∧ e.s.copyBusy e.x.key l (e.rd .n32 a l) = true)
      Seen.s Seen.h (fun e _ y => blocked (mwaiting d t l (e.rd .n32 a l) e) y) := by
  obtain ⟨body, hexec, hbody⟩ := mwait_rests (c := c) (d := d) (a := a) (t := t) (l := l)
  refine acts_stays (fun _ s => s) (fun e _ y => blocked (mwaiting d t l (e.rd .n32 a l) e) y) body hexec
    (fun _ => id_heatless) (fun _ _ _ _ => by simp [blocked]) fun s x h hI ⟨hrests, hbusy⟩ => ?_
  have hact : active (.mwait c d a t) x h = [l] := hrests.1.1
  refine ⟨_, hbody s x h hrests, rfl, rfl, hact.symm, ?_⟩
  unfold State.beginMwait
  rw [copyBusy_waits hI, show s.copyBusy x.key l (reads _ s x h .n32 a l) = true from hbusy, if_pos rfl, hact]
  rfl

/-- A greater colour that the lane holds raises MONITOR_ORDER (R348). -/
theorem mwait_order_parked {c : Com} {d : Option Nat} {a : Src} {t l : Nat} {s : State} {x : Iss} {h : Heat} (hI : Issues (.mwait c d a t) s x h)
    (hact : active (.mwait c d a t) x h = [l]) (hcol : reads (.mwait c d a t) s x h .n32 a l < 4096)
    (hholds : (h.lane l).holds (reads (.mwait c d a t) s x h .n32 a l) = true) (ht : ∀ l ∈ x.lanes, (h.lane l).task = none)
    (horder : ∃ y ∈ (h.lane l).held, reads (.mwait c d a t) s x h .n32 a l < y.colour) :
    ∃ u, exec (.mwait c d a t) s = .next u ∧ Parked s u x h [l] (fun _ => { cause := .monitorOrder }) 7 := by
  obtain ⟨body, hexec, hbody⟩ := mwait_body c d a t
  have hl : l ∈ x.lanes := (List.mem_filter.1 (hact ▸ List.mem_singleton_self l : l ∈ active (.mwait c d a t) x h)).1
  refine one_parked hI hact ht body (hexec s) ((hbody s x h l hact _ rfl hcol hholds (ht l hl)).1 ?_) rfl (by simp) (by omega)
  rw [List.any_eq_true]
  obtain ⟨y, hy, hgreater⟩ := horder
  exact ⟨y, hy, by simpa using hgreater⟩

/-! MREPAIR (R351). -/

theorem mrepair_clears (c : Com) (a : Src) (l pa : Nat) :
    ActsOn (.mrepair c a) (fun e => (e.act = [l] ∧ e.rd .n32 a l < 4096 ∧ (e.h.lane l).holds (e.rd .n32 a l) = true) ∧
      e.s.entryPa e.x.key.ctx (e.rd .n32 a l) = some pa) (fun e => e.s.setAbandoned pa false) := by
  refine actsOn_heatless _ (exec_mrepair · c a) (fun _ s => s.setAbandoned pa false) (fun _ => setAbandoned_heatless pa false)
    fun s x h hI ⟨⟨hact, hcol, hholds⟩, hpa⟩ => ?_
  rw [each_one hact, envOf_src32, envOf_h]
  dsimp only
  rw [show colourTrap (h.lane l) (reads (.mrepair c a) s x h .n32 a l) = none from colourTrap_held hcol hholds,
    show (entered s x).entryPa _ (reads (.mrepair c a) s x h .n32 a l) = some pa from by rw [entered_eq]; exact (entryPa_withH _ _ _ _).trans hpa]

/-! Notifications (R349). -/

/-- A sleeper of a queue becomes an acquirer at its tail. -/
def requeued (ctx c : Nat) (s : State) (v : Waiter) : State :=
  s.setMonQ ctx c (removeFirst (fun y => y = v) (s.monQ ctx c) ++ [{ v with sleeper := false }])

/-- A lane that sleeps at an MWAIT notified. -/
def wokenLane (y : Lane) : Lane :=
  match y.st with
  | .blocked (.mwait c depth d dl span _ _ r) => { y with st := .blocked (.mwait c depth d dl span false true r) }
  | _ => y

/-- The lanes of a queue's waiters notified. -/
def notified (vs : List Waiter) (s : State) : State := vs.foldl (fun s v => s.updLane v.key v.lane wokenLane) s

theorem notified_heats (vs : List Waiter) {s t : State} (h : s.heats = t.heats) : (notified vs s).heats = (notified vs t).heats := by
  induction vs generalizing s t with
  | nil => exact h
  | cons v vs ih =>
    refine ih ?_
    show modifyFirst _ _ s.heats = modifyFirst _ _ t.heats
    rw [h]

/-- Whether a colour has an owner, or no entry at hand. -/
def Owned (ctx c : Nat) (s : State) : Prop := (s.entryPa ctx c).map s.ownerOf ≠ some noThread

theorem Owned.withH {ctx c : Nat} {s : State} (h : Owned ctx c s) (H : List Heat) : Owned ctx c (withH s H) := by
  unfold Owned at *
  rw [entryPa_withH]
  exact h

theorem requeued_withH (ctx c : Nat) (s : State) (H : List Heat) (v : Waiter) : requeued ctx c (withH s H) v = withH (requeued ctx c s v) H :=
  (setMonQ_heatless ctx c _).heats s H

theorem wakeSleeper_owned {ctx c : Nat} {s : State} {v : Waiter} {H : List Heat} (h : Owned ctx c (requeued ctx c s v)) :
    (withH s H).wakeSleeper ctx c v true = withH (requeued ctx c s v) (notified [v] (withH s H)).heats := by
  have hstate : (withH (requeued ctx c s v) H).updLane v.key v.lane wokenLane = withH (requeued ctx c s v) (notified [v] (withH s H)).heats := rfl
  have howned := h.withH (notified [v] (withH s H)).heats
  rw [← hstate, ← requeued_withH] at howned ⊢
  exact if_neg howned

/-- Sleepers notified in their order, where the colour stays owned. -/
theorem wakeSleepers_owned {ctx c : Nat} (vs : List Waiter) (s : State) (H : List Heat)
    (howned : ∀ n, 1 ≤ n → n ≤ vs.length → Owned ctx c ((vs.take n).foldl (requeued ctx c) s)) :
    vs.foldl (fun s v => s.wakeSleeper ctx c v true) (withH s H) = withH (vs.foldl (requeued ctx c) s) (notified vs (withH s H)).heats := by
  induction vs generalizing s H with
  | nil => rfl
  | cons v vs ih =>
    rw [List.foldl_cons, wakeSleeper_owned (howned 1 (by omega) (by simp)), ih _ _ fun n h1 hn => ?_]
    · exact congrArg (withH _) (notified_heats vs rfl)
    · exact howned (n + 1) (by omega) (by simpa using hn)

/-! What becomes of a lane while others are notified. -/

/-- A lane of a heat stands as `z` says. -/
def StandsAt (s : State) (k : HeatKey) (m : Nat) (z : LaneSt → Prop) : Prop :=
  ∃ g, s.heat? k = some g ∧ m < g.lanes.length ∧ z (g.lane m).st

theorem heat?_updLane_any (s : State) (k j : HeatKey) (l : Nat) (f : Lane → Lane) :
    (s.updLane j l f).heat? k = (s.heat? k).map (fun g => if k = j then g.updLane l f else g) := by
  by_cases hk : k = j
  · subst hk
    simp only [if_pos]
    exact State.heat?_updHeat_self s k (·.updLane l f) (fun _ => rfl)
  · simp only [if_neg hk, Option.map_id']
    exact State.heat?_updHeat_ne s j k (·.updLane l f) (fun _ => rfl) hk

theorem StandsAt.updLane {s : State} {k : HeatKey} {m : Nat} {z z' : LaneSt → Prop} (h : StandsAt s k m z) {j : HeatKey} {l : Nat} {f : Lane → Lane}
    (hsame : k = j → m = l → ∀ y : Lane, z y.st → z' (f y).st) (hother : ¬ (k = j ∧ m = l) → ∀ y, z y → z' y) : StandsAt (s.updLane j l f) k m z' := by
  obtain ⟨g, hg, hm, hst⟩ := h
  by_cases hk : k = j
  · refine ⟨g.updLane l f, by rw [heat?_updLane_any, hg, Option.map_some, if_pos hk], by rwa [Heat.length_updLane], ?_⟩
    rw [Heat.lane_updLane]
    by_cases hl : m = l
    · rw [if_pos ⟨hl, hm⟩]
      exact hsame hk hl _ hst
    · rw [if_neg fun h => hl h.1]
      exact hother (fun h => hl h.2) _ hst
  · refine ⟨g, by rw [heat?_updLane_any, hg, Option.map_some, if_neg hk], hm, hother (fun h => hk h.1) _ hst⟩

/-- A lane sleeps at its MWAIT, or did before it was notified. -/
def Slept (c dp : Nat) (p : Option Nat) (dl sp : Nat) (r : Bool) (z : LaneSt) : Prop := ∃ a n, z = .blocked (.mwait c dp p dl sp a n r)

/-- A lane has been notified at its MWAIT. -/
def Woken (c dp : Nat) (p : Option Nat) (dl sp : Nat) (r : Bool) (z : LaneSt) : Prop := z = .blocked (.mwait c dp p dl sp false true r)

section
variable {c dp dl sp : Nat} {p : Option Nat} {r : Bool}

theorem wokenLane_slept {y : Lane} (h : Slept c dp p dl sp r y.st) : Woken c dp p dl sp r (wokenLane y).st := by
  obtain ⟨a, n, hst⟩ := h
  unfold wokenLane Woken
  rw [hst]

theorem Woken.slept {z : LaneSt} (h : Woken c dp p dl sp r z) : Slept c dp p dl sp r z := ⟨false, true, h⟩

theorem notified_slept {k : HeatKey} {m : Nat} (vs : List Waiter) {s : State} (h : StandsAt s k m (Slept c dp p dl sp r)) :
    StandsAt (notified vs s) k m (Slept c dp p dl sp r) :=
  foldl_keeps (P := fun t => StandsAt t k m (Slept c dp p dl sp r))
    (fun _ _ ht => ht.updLane (fun _ _ _ hy => (wokenLane_slept hy).slept) fun _ _ hy => hy) vs s h

theorem notified_woken {k : HeatKey} {m : Nat} (vs : List Waiter) {s : State} (h : StandsAt s k m (Woken c dp p dl sp r)) :
    StandsAt (notified vs s) k m (Woken c dp p dl sp r) :=
  foldl_keeps (P := fun t => StandsAt t k m (Woken c dp p dl sp r))
    (fun _ _ ht => ht.updLane (fun _ _ _ hy => wokenLane_slept hy.slept) fun _ _ hy => hy) vs s h

/-- Each of the waiters that slept has been notified. -/
theorem notified_wakes {vs : List Waiter} {v : Waiter} (hv : v ∈ vs) {s : State} (h : StandsAt s v.key v.lane (Slept c dp p dl sp r)) :
    StandsAt (notified vs s) v.key v.lane (Woken c dp p dl sp r) := by
  obtain ⟨before, after, rfl⟩ := List.append_of_mem hv
  unfold notified
  rw [List.foldl_append, List.foldl_cons]
  refine notified_woken after ((notified_slept before h).updLane (fun _ _ _ hy => wokenLane_slept hy) fun hne => absurd ⟨rfl, rfl⟩ hne)

end

theorem wokenLane_live {y : Lane} (h : y.st ≠ .exited) : (wokenLane y).st ≠ .exited := by
  unfold wokenLane
  split
  · simp
  · exact h

theorem notified_length (vs : List Waiter) (s : State) (k : HeatKey) :
    ((notified vs s).heat? k).map (·.lanes.length) = (s.heat? k).map (·.lanes.length) := by
  refine foldl_keeps (P := fun t => (t.heat? k).map (·.lanes.length) = (s.heat? k).map (·.lanes.length)) (fun t v ht => ?_) vs s rfl
  rw [heat?_updLane_any, Option.map_map, ← ht]
  congr 1
  funext g
  show (if k = v.key then _ else g).lanes.length = _
  split
  · exact Heat.length_updLane g _ _
  · rfl

/-- A lane that has not exited is not ended by a notification. -/
theorem notified_live {k : HeatKey} {m : Nat} (vs : List Waiter) {s : State} (h : StandsAt s k m (· ≠ .exited)) :
    StandsAt (notified vs s) k m (· ≠ .exited) :=
  foldl_keeps (P := fun t => StandsAt t k m (· ≠ .exited)) (fun _ _ ht => ht.updLane (fun _ _ _ hy => wokenLane_live hy) fun _ _ hy => hy) vs s h

theorem st_foldl_updLane (ls : List Nat) (f : Lane → Lane) (hf : ∀ y, (f y).st = y.st) (g : Heat) (m : Nat) :
    ((ls.foldl (fun h l => h.updLane l f) g).lane m).st = (g.lane m).st := by
  refine foldl_keeps (P := fun h => (h.lane m).st = (g.lane m).st) (fun h l hst => ?_) ls g rfl
  rw [Heat.lane_updLane]
  split
  · exact (hf _).trans hst
  · exact hst

theorem unmark_st (h : Heat) (ls : List Nat) (mask m : Nat) : ((h.unmark ls mask).lane m).st = (h.lane m).st := by
  have hfold := st_foldl_updLane ls (Lane.unmark · mask) (fun _ => rfl) h m
  unfold Heat.unmark
  split
  · exact hfold
  · exact hfold

/-- How a lane stands as its heat enters a block. -/
theorem StandsAt.entered {s : State} {k : HeatKey} {m : Nat} {z : LaneSt → Prop} (h : StandsAt s k m z) (x : Iss) : StandsAt (entered s x) k m z := by
  obtain ⟨g, hg, hm, hst⟩ := h
  by_cases hk : k = x.key
  · subst hk
    unfold Safe.entered enterBlock
    split
    · refine ⟨_, by rw [State.heat?_updHeat_self _ _ _ (fun h => by rw [Heat.unmark_key]; exact Heat.foldl_updLane_key _ _ h)]; exact congrArg _ hg, ?_, ?_⟩
      · unfold Heat.unmark
        split <;> simpa only [Heat.length_foldl_updLane _ (fun _ y => _)] using hm
      · rw [unmark_st, st_foldl_updLane x.lanes (fun y => { y with pc := x.pc, blk := some (x.hdrAddr, x.hdr) }) (fun _ => rfl)]
        exact hst
    · exact ⟨g, hg, hm, hst⟩
  · exact ⟨g, (entered_heat_ne s x k hk).trans hg, hm, hst⟩

/-- The sleepers that a notification wakes (R349). -/
def awoken (all : Bool) (a : Src) (l : Nat) (e : Seen) : List Waiter :=
  let q := (e.s.monQ e.x.key.ctx (e.rd .n32 a l)).filter (·.sleeper)
  if all then q else q.take 1

/-- A lane that holds complete the colour that it names. -/
def Holds (a : Src) (l : Nat) (e : Seen) : Prop := e.act = [l] ∧ e.rd .n32 a l < 4096 ∧ (e.h.lane l).holds (e.rd .n32 a l) = true

theorem note_held {i : Instr} {s : State} {x : Iss} {h : Heat} {a : Src} {l : Nat} (all : Bool) (hholds : Holds a l (seen i s x h)) :
    (envOf i s x h).note a all { s := entered s x } =
      { s := (awoken all a l (seen i s x h)).foldl (fun b v => b.wakeSleeper x.key.ctx (reads i s x h .n32 a l) v true) (entered s x) } := by
  obtain ⟨hact, hcol, hheld⟩ := hholds
  unfold Env.note
  rw [each_one hact, envOf_src32, envOf_h]
  dsimp only
  rw [show colourTrap (h.lane l) (reads i s x h .n32 a l) = none from colourTrap_held hcol hheld]
  dsimp only
  rw [show (entered s x).monQ (envOf i s x h).ctx (reads i s x h .n32 a l) = s.monQ x.key.ctx (reads i s x h .n32 a l) from by rw [entered_eq]; rfl]
  rfl

section
variable {i : Instr} {a : Src} {l : Nat} {all : Bool} (hi : ∀ s, exec i s = issue i s (fun e w => e.note a all w))
include hi

/-- Without a sleeper a notification has no effect (R349). -/
theorem note_nobody : ActsOn i (fun e => Holds a l e ∧ awoken all a l e = []) Seen.s :=
  actsOn_heatless _ hi (fun _ s => s) (fun _ => id_heatless) fun s x h _ ⟨hholds, hnone⟩ => by
    rw [note_held all hholds, hnone]
    rfl

theorem note_wakes {s : State} {x : Iss} {h : Heat} (hI : Issues i s x h) (hholds : Holds a l (seen i s x h))
    (howned : ∀ n, 1 ≤ n → n ≤ (awoken all a l (seen i s x h)).length →
      Owned x.key.ctx (reads i s x h .n32 a l) (((awoken all a l (seen i s x h)).take n).foldl (requeued x.key.ctx (reads i s x h .n32 a l)) s)) :
    ∃ t, exec i s = .next t ∧
      t = { ((awoken all a l (seen i s x h)).take (awoken all a l (seen i s x h)).length).foldl (requeued x.key.ctx (reads i s x h .n32 a l)) s with heats := t.heats, iss := none, now := s.now + 1 } ∧
      ∀ v ∈ awoken all a l (seen i s x h), ∀ c dp p dl sp r, StandsAt s v.key v.lane (Slept c dp p dl sp r) →
        StandsAt t v.key v.lane (Woken c dp p dl sp r) := by
  have hbody := note_held all hholds
  have hentered : entered s x = withH s (entered s x).heats := entered_eq s x
  rw [hentered, wakeSleepers_owned _ s _ howned, ← hentered] at hbody
  obtain ⟨m, hm⟩ := List.exists_mem_of_ne_nil _ hI.some_lane
  obtain ⟨h1, hh1, hlt, hlive⟩ := notified_live (awoken all a l (seen i s x h)) (m := m) ⟨h, hI.heat, (hI.lanes m hm).1, Issues_live hI m hm⟩
  have hlen : h1.lanes.length = h.lanes.length := by
    have hlen := notified_length (awoken all a l (seen i s x h)) (entered s x) x.key
    rw [hh1, hI.heat] at hlen
    exact Option.some.inj hlen
  obtain ⟨t, g, hissue, ht, hne, hself, -, hglen, hlanes⟩ := quiet_outcome hI (fun e w => e.note a all w) hbody rfl rfl
    (foldl_keeps (P := fun b => b.now = s.now) (fun b v hb => ((setMonQ_heatless _ _ _).now b).trans hb) _ s rfl)
    (show (withH _ (notified (awoken all a l (seen i s x h)) (entered s x)).heats).heat? x.key = some h1 from hh1) hlen (Heat.allExited_false hlt hlive)
  refine ⟨t, (hi s).trans hissue, by rw [List.take_length]; exact ht, fun v hv c dp p dl sp r hslept => ?_⟩
  obtain ⟨q, hq, hqm, hwoken⟩ := notified_wakes hv (hslept.entered x)
  by_cases hk : v.key = x.key
  · rw [hk] at hq hslept ⊢
    obtain rfl : q = h1 := Option.some.inj (hq.symm.trans hh1)
    refine ⟨g, hself, by omega, ?_⟩
    have hout : v.lane ∉ x.lanes := fun hin => by
      obtain ⟨q, hq, -, b, n, hst⟩ := hslept.entered x
      rw [hI.heat] at hq
      rw [← Option.some.inj hq, (hI.lanes _ hin).2] at hst
      cases hst
    rw [hlanes, if_neg fun h => hout h.1]
    unfold closeLane Woken at *
    rw [if_neg (by simpa using hout), if_neg (by rw [hwoken]; simp)]
    exact hwoken
  · exact ⟨q, (hne _ hk).trans hq, hqm, hwoken⟩

end

/-- Settles O38: MWAIT by what becomes of its release, the notifications by the sleepers that they wake in turn, and each word's
checks of its colour. -/
theorem monitorWordsWorkOnHeldColours : Obligations.MonitorWordsWorkOnHeldColours := by
  unfold Obligations.MonitorWordsWorkOnHeldColours
  intro c d a t l pa
  refine ⟨?_, ?_, mrepair_clears c a l pa, ?_, ?_, ?_⟩
  · intro s x h hI ⟨hholds, htask, horder, hpa, hbusy⟩
    exact mwait_releases c d a t l pa s x h hI ⟨⟨hholds, htask, horder⟩, hpa, hbusy⟩
  · intro s x h hI ⟨hholds, htask, horder, hbusy⟩
    exact mwait_waits c d a t l s x h hI ⟨⟨hholds, htask, horder⟩, hbusy⟩
  · intro i all hi
    have hexec : ∀ s, exec i s = issue i s (fun e w => e.note a all w) := by
      rcases hi with ⟨rfl, rfl⟩ | ⟨rfl, rfl⟩
      · exact fun s => exec_mnote s c a
      · exact fun s => exec_mnoteall s c a
    refine ⟨note_nobody hexec, fun s x h hI hholds howned => ?_⟩
    obtain ⟨u, hnext, hu, hwoken⟩ := note_wakes hexec hI hholds howned
    refine ⟨u, hnext, hu, fun v hv q dp p dl sp n r hq hlt hst => ?_⟩
    obtain ⟨g, hg, -, hst⟩ := hwoken v hv _ dp p dl sp r ⟨q, hq, hlt, true, n, hst⟩
    exact ⟨g, hg, hst⟩
  · intro s x h hI ⟨hact, hcol, hholds⟩ ht horder
    exact mwait_order_parked hI hact hcol hholds ht horder
  · intro i hi s x h hI hact ht
    exact colourTrap_parked (colourWord_trapsOnColour hi) hI hact ht

end Sys2Proof.Machine
end

section
/-! SUPPORT. TSTOP, TLAP and TSETTLE (R378, R386, R387, R389), and the statement O39. -/

namespace Sys2Proof.Machine

open Sys2Proof Sys2Proof.Safe

theorem mapped_entered {s : State} {x : Iss} {ctx core va : Nat} {use : Use} {pa : Nat} (h : Mapped s ctx core va use pa) :
    Mapped (entered s x) ctx core va use pa :=
  Mapped.congr (by rw [entered_eq]) (by rw [entered_eq]) h

/-- The lowest lane's address is judged well: `n` bytes stand there in place. -/
def ObjectAt (a : Src) (al n : Nat) (wr : Bool) (pa : Nat) (e : Seen) : Prop :=
  e.act ≠ [] ∧ e.rd .n64 a e.low % al = 0 ∧ Canonical (e.rd .n64 a e.low) ∧
    Mapped e.s e.x.key.ctx e.h.core (e.rd .n64 a e.low) (if wr then .write else .read) pa ∧ e.s.poisoned pa n = false

theorem taskAddr_fits {va al : Nat} {wr : Bool} (hal : va % al = 0) (hcan : Canonical va) : taskAddr va al wr = none := by
  unfold taskAddr
  rw [if_neg (by simp [hal]), targetCanonical hcan]
  rfl

theorem at_mapped {i : Instr} {s : State} {x : Iss} {h : Heat} {va n pa : Nat} {wr : Bool}
    (hmap : Mapped s x.key.ctx h.core va (if wr then .write else .read) pa) (hpoison : s.poisoned pa n = false) :
    (envOf i s x h).at (entered s x) va n wr = (.ok pa, entered s x) := by
  unfold Env.at
  rw [envOf_ctx, envOf_die, envOf_core, translate_mapped (mapped_entered hmap)]
  dsimp only
  rw [show (entered s x).poisoned pa n = s.poisoned pa n from by rw [entered_eq]; rfl, hpoison]
  rfl

theorem once_inPlace {i : Instr} {s : State} {x : Iss} {h : Heat} {a : Src} {al n pa : Nat} {wr : Bool}
    (hat : ObjectAt a al n wr pa (seen i s x h)) (irrev : Bool) (f : Work → Nat → Nat → Work) :
    (envOf i s x h).once a al n wr { s := entered s x, irrev := irrev } f =
      f { s := entered s x, irrev := irrev } (reads i s x h .n64 a (seen i s x h).low) pa := by
  obtain ⟨hact, hal, hcan, hmap, hpoison⟩ := hat
  unfold Env.once
  rw [if_neg (act_ne hact), envOf_src64, envOf_lowest]
  dsimp only
  rw [show taskAddr (reads i s x h .n64 a (seen i s x h).low) al wr = none from taskAddr_fits hal hcan]
  dsimp only
  rw [show (envOf i s x h).at (entered s x) (reads i s x h .n64 a (seen i s x h).low) n wr = (.ok pa, entered s x) from at_mapped hmap hpoison]

theorem cohNat_entered (s : State) (x : Iss) (pa n : Nat) : (entered s x).cohNat pa n = s.cohNat pa n := by
  rw [entered_eq]
  rfl

/-! TSTOP (R378, R386). -/

/-- STOP set in a tile's lap state, unless it is final or stopped. -/
def lapStopped (pa : Nat) (e : Seen) (s : State) : State :=
  if bit (e.s.cohNat (pa + 16) 1) 4 = true ∨ bit (e.s.cohNat (pa + 16) 1) 5 = true then s else s.cohPut (pa + 16) 1 (e.s.cohNat (pa + 16) 1 + 32)

theorem lapStopped_heatless (pa : Nat) (e : Seen) : Heatless (lapStopped pa e) := by
  unfold lapStopped
  split
  · exact id_heatless
  · exact cohPut_heatless _ _ _

theorem tstop_stops (c : Com) (a : Src) (pa : Nat) :
    ActsOn (.tstop c a) (fun e => ObjectAt a 128 128 true pa e ∧ badHandle (e.s.cohRead pa 128) = false) (fun e => lapStopped pa e e.s) := by
  refine actsOn_heatless _ (exec_tstop · c a) (lapStopped pa) (lapStopped_heatless pa) fun s x h hI ⟨hat, hgood⟩ => ?_
  rw [once_inPlace hat false]
  dsimp only
  rw [show (entered s x).cohRead pa 128 = s.cohRead pa 128 from by rw [entered_eq]; rfl, show badHandle (s.cohRead pa 128) = false from hgood,
    if_neg (by decide), cohNat_entered]
  simp only [Bool.or_eq_true]
  exact (apply_ite (fun b : State => ({ s := b } : Work)) _ _ _).symm

/-! TLAP (R387). -/

/-- The handle as the reading die sees it. -/
def handleOf (pa : Nat) (e : Seen) : List Byte := e.s.viewRead (e.h.core / 64) pa 128

/-- A TLAP of lanes outside a task at a handle that is in place and well formed. -/
def ReadsLap (a : Src) (pa : Nat) (e : Seen) : Prop :=
  ObjectAt a 128 128 false pa e ∧ fld (rg (handleOf pa e) 16 1) 0 4 ≠ 15 ∧ badHandle (handleOf pa e) = false ∧ ∀ l ∈ e.act, (e.h.lane l).task = none

/-- The publication acquired (R387). -/
def publicationAcquired (pa : Nat) (e : Seen) (s : State) : State := s.acquireObj e.x.key.ctx e.h.core (pa + 64)

theorem publicationAcquired_heatless (pa : Nat) (e : Seen) : Heatless (publicationAcquired pa e) := acquireObj_heatless _ _ _

theorem low_mem {e : Seen} (h : e.act ≠ []) : e.low ∈ e.act := by
  unfold Seen.low
  cases hact : e.act with
  | nil => exact absurd hact h
  | cons l ls => exact List.mem_cons_self

theorem lap_inPlace {i : Instr} {s : State} {x : Iss} {h : Heat} {a : Src} {pa : Nat} (hI : Issues i s x h) (hreads : ReadsLap a pa (seen i s x h))
    (f : List Byte → State → State) :
    (envOf i s x h).lap a { s := entered s x } f =
      { s := f (handleOf pa (seen i s x h)) (publicationAcquired pa (seen i s x h) (entered s x)) } := by
  obtain ⟨hat, hnum, hgood, hfree⟩ := hreads
  have hrun (l : Nat) (hl : l ∈ active i x h) : (entered s x).laneRun x.key l = none := laneRun_none hI.heat (hfree l hl)
  unfold Env.lap
  rw [once_inPlace hat false]
  dsimp only
  rw [envOf_lowest, envOf_key, envOf_act, hrun _ (low_mem hat.1), envOf_die,
    show overTask none pa ((entered s x).viewRead (dieOf h.core) pa 128) = handleOf pa (seen i s x h) from by rw [entered_eq]; rfl,
    if_neg (by rw [hgood]; simpa using hnum), foldl_stays fun l hl => ?_]
  · rfl
  · unfold State.readSig
    rw [hrun l hl]

theorem tlap_acts {i : Instr} {a : Src} {pa d : Nat} {wide : Bool} (v : List Byte → Nat)
    (hexec : ∀ s, exec i s = issue i s (fun e w => e.lap a w (fun b s => s.updHeat e.key (fun h => h.setAll wide (.v d) (e.act.map (fun l => (l, v b))))))) :
    Acts i (ReadsLap a pa) (fun e => publicationAcquired pa e e.s) Seen.h (fun e _ y => (y.setDstV wide d (v (handleOf pa e))).advance) := by
  refine acts_moves (publicationAcquired pa) (fun e _ y => y.setDstV wide d (v (handleOf pa e))) _ hexec (publicationAcquired_heatless pa)
    (fun _ _ y hy => by cases wide <;> exact hy) fun s x h hI hreads => ⟨_, lap_inPlace hI hreads _, rfl, rfl, rfl, ?_⟩
  simp only [Heat.setAll_v, envOf_key, envOf_act]

/-! TSETTLE (R389). -/

/-- A TSETTLE of lanes outside a task at an object in place. -/
def Settles (a : Src) (pa : Nat) (e : Seen) : Prop := ObjectAt a 64 64 false pa e ∧ ∀ l ∈ e.act, (e.h.lane l).task = none

/-- Whether a group of the context has the object. -/
def GroupOpen (a : Src) (e : Seen) : Prop := ∃ g ∈ e.s.groups, g.ctx = e.x.key.ctx ∧ g.obj = e.rd .n64 a e.low

/-- A settled group's object acquired (R389). -/
def settledAcquired (pa : Nat) (e : Seen) (s : State) : State := s.acquireObj e.x.key.ctx e.h.core pa

theorem settledAcquired_heatless (pa : Nat) (e : Seen) : Heatless (settledAcquired pa e) := acquireObj_heatless _ _ _

theorem tsettle_body (c : Com) (a : Src) (pa : Nat) : ∃ body : Env → Work → Work,
    (∀ s, exec (.tsettle c a) s = issue (.tsettle c a) s body) ∧ ∀ s x h, Settles a pa (seen (.tsettle c a) s x h) →
      (¬ GroupOpen a (seen (.tsettle c a) s x h) → body (envOf (.tsettle c a) s x h) { s := entered s x } =
        { s := settledAcquired pa (seen (.tsettle c a) s x h) (entered s x), irrev := true }) ∧
      (GroupOpen a (seen (.tsettle c a) s x h) → body (envOf (.tsettle c a) s x h) { s := entered s x } =
        (envOf (.tsettle c a) s x h).each (fun w l => w.block (envOf (.tsettle c a) s x h) l
          (.tsettle (reads (.tsettle c a) s x h .n64 a (seen (.tsettle c a) s x h).low))) { s := entered s x, irrev := true }) := by
  refine ⟨_, (exec_tsettle · c a), fun s x h ⟨hat, hfree⟩ => ?_⟩
  have hopen : ((entered s x).groups.any (fun g => g.ctx = x.key.ctx ∧ g.obj = reads (.tsettle c a) s x h .n64 a (seen (.tsettle c a) s x h).low)) = true ↔
      GroupOpen a (seen (.tsettle c a) s x h) := by
    rw [entered_eq]
    simp only [List.any_eq_true, decide_eq_true_eq]
    rfl
  have hout : (envOf (.tsettle c a) s x h).act.any (fun l => ((envOf (.tsettle c a) s x h).h.lane l).task.isSome) = false := by
    rw [List.any_eq_false]
    intro l hl
    rw [envOf_h, show (h.lane l).task = none from hfree l hl]
    decide
  dsimp only
  rw [hout, Bool.false_and, if_neg (by decide), once_inPlace hat true]
  dsimp only
  rw [envOf_ctx]
  exact ⟨fun hnone => by rw [if_neg (mt hopen.1 hnone)]; rfl, fun hsome => by rw [if_pos (hopen.2 hsome)]⟩

theorem updHeat_id (s : State) (k : HeatKey) : s.updHeat k (fun q => q) = s := by
  unfold State.updHeat
  rw [modifyFirst_id]

theorem tsettle_settled (c : Com) (a : Src) (pa : Nat) :
    ActsOn (.tsettle c a) (fun e => Settles a pa e ∧ ¬ GroupOpen a e) (fun e => settledAcquired pa e e.s) := by
  obtain ⟨body, hexec, hbody⟩ := tsettle_body c a pa
  refine Acts.of_lane (acts_moves (settledAcquired pa) (fun _ _ y => y) body hexec (settledAcquired_heatless pa) (fun _ _ _ hy => hy)
    fun s x h hI ⟨hsettles, hnone⟩ => ⟨_, (hbody s x h hsettles).1 hnone, rfl, rfl, rfl, ?_⟩) fun _ _ => rfl
  simp only [foldl_updLane_id]
  exact (updHeat_id _ _).symm

theorem tsettle_waits (c : Com) (a : Src) (pa : Nat) :
    Acts (.tsettle c a) (fun e => Settles a pa e ∧ GroupOpen a e) Seen.s Seen.h (fun e _ y => blocked (.tsettle (e.rd .n64 a e.low)) y) := by
  obtain ⟨body, hexec, hbody⟩ := tsettle_body c a pa
  exact acts_stays (fun _ s => s) (fun e _ y => blocked (.tsettle (e.rd .n64 a e.low)) y) body hexec (fun _ => id_heatless)
    (fun _ _ _ _ => by simp [blocked]) fun s x h hI ⟨hsettles, hsome⟩ =>
      ⟨_, ((hbody s x h hsettles).2 hsome).trans (each_block _ _ _ _), rfl, rfl, rfl, rfl⟩

/-- Settles O39: each word acts once at its object in place. -/
theorem taskWordsReachTheirHandles : Obligations.TaskWordsReachTheirHandles := by
  unfold Obligations.TaskWordsReachTheirHandles
  intro c d a pa
  exact ⟨tstop_stops c a pa, tlap_acts (fun b => rg b 16 1) (exec_tlapState · c d a),
    tlap_acts (fun b => if fld (rg b 16 1) 0 4 = 0 then 0 else rg b (8 * (fld (rg b 16 1) 0 4 % 2)) 8) (exec_tlapBuf · c d a),
    tsettle_settled c a pa, tsettle_waits c a pa⟩

end Sys2Proof.Machine
end

section
/-! SUPPORT. TFRAME.next and BIST judge no byte of their block, yet `State.poisoned 0 0` answers for sector 0: at physical address 0, where an
uncorrectable error is held, each of them raises UNCORRECTABLE (R198), so the statements O43 and O45 fail. -/

namespace Sys2Proof.Machine

open Sys2Proof Sys2Proof.Safe

/-- Lane 0 stands at a word. -/
def zeroIssue (i : Instr) : Iss :=
  { key := placedKey, lanes := [0], pc := 0x10008, hdrAddr := 0x10000, hdr := placedHeader, entering := false, word := encode i }

/-- A service heat of one lane whose v2 and v3 give the address 0. -/
def zeroHeat (i : Instr) : Heat :=
  { key := placedKey, core := 0, part := 0, unit := 0, leg := 0, role := placedRole (Instr.opcode i), budget := 320, cls := 0, heatn := 1
    lanes := [{ pc := 0x10008, blk := some (0x10000, placedHeader) }], active := true, service := true }

/-- Address 0 translated to physical address 0. -/
def zeroLeaf : TlbE := { die := 0, cores := [0], ctx := 0, va := 0, size := 65536, pa := 0, w := true, x := false, pte := 0x8000, dirty := true }

/-- The part with the word at hand in `zeroHeat`, and an uncorrectable error in sector 0. -/
def zeroState (i : Instr) : State :=
  { State.reset with iss := some (zeroIssue i), heats := [zeroHeat i], tlb := [zeroLeaf], poison := [0] }

theorem zero_mapped (i : Instr) : Mapped (zeroState i) 0 0 0 .write 0 :=
  ⟨zeroLeaf, by simp [zeroState, zeroLeaf], by simp [zeroLeaf], by simp [zeroLeaf], rfl, by simp [zeroLeaf], by simp⟩

/-- Whether lane 0 of the heat is parked after the word. -/
def zeroParks (i : Instr) : Bool := match exec i (zeroState i) with
  | .next t => (t.heat? placedKey).all (fun g => decide ((g.lane 0).st = .parked))
  | _ => true

theorem zeroParks_lane {i : Instr} (h : zeroParks i = true) {t : State} {g : Heat} (ht : exec i (zeroState i) = .next t) (hg : t.heat? placedKey = some g) :
    (g.lane 0).st = .parked := by
  unfold zeroParks at h
  simpa [ht, hg] using h

/-- What of an issue of a word in `zeroState` is to be computed. -/
def zeroIssues (i : Instr) : Bool :=
  decide ((entered (zeroState i) (zeroIssue i)).heat? placedKey = some (zeroHeat i)) && !(decodeTrap i placedHeader) &&
    roleAllows (zeroHeat i).role (Instr.opcode i) && !(Instr.unreadable i) &&
    (active i (zeroIssue i) (zeroHeat i)).all (fun l => !((zeroHeat i).hazard l (Instr.namedV i) (Instr.namedK i)))

theorem zero_issues {i : Instr} (h : zeroIssues i = true) : Issues i (zeroState i) (zeroIssue i) (zeroHeat i) := by
  simp only [zeroIssues, Bool.and_eq_true, decide_eq_true_eq, Bool.not_eq_true', List.all_eq_true] at h
  obtain ⟨⟨⟨⟨hheat, hlegal⟩, hrole⟩, hreadable⟩, hclear⟩ := h
  refine { iss := rfl, heat := hheat, some_lane := by simp [zeroIssue], lanes := fun l hl => ?_, order := by simp [zeroIssue], legal := hlegal,
           role := hrole, readable := hreadable, room := fun _ => by simp [zeroHeat, Tbl.get], mode := fun _ => rfl, clear := hclear }
  obtain rfl : l = 0 := by simpa [zeroIssue] using hl
  exact ⟨by simp [zeroHeat], rfl⟩

/-- A word of every lane. -/
def everyLane : Com := { guard := 12, neg := false, stop := false, flagB := false }

def frameWord : Instr := .tframeNext everyLane 0 (.v 2) 0
def bistWord : Instr := .bist everyLane 0 (.v 2) (.v 2) 0

/-- The record that the statement speaks of and its first clause does not. -/
def anyRecord : FRec :=
  { id := 0, die := 0, ctx := 0, key := none, addr := 0, pc := 0, lanes := 0, causeByte := 0, code := 0, laneCodes := [], core := 0, flags := 0 }

/-- Refutes O43: TFRAME.next at physical address 0 in a part that holds an uncorrectable error in sector 0 raises UNCORRECTABLE and does not
block, though no record waits. -/
theorem not_trapFramesAreTakenReadAndWritten : ¬ Obligations.TrapFramesAreTakenReadAndWritten := by
  unfold Obligations.TrapFramesAreTakenReadAndWritten
  intro H
  obtain ⟨t, g, ht, -, -, hg, -, hl⟩ := (H everyLane 0 0 0 0 (.v 2) (.v 2) (.v 2) 0 anyRecord).1 _ _ _ (zero_issues (i := frameWord) (by decide +kernel))
    ⟨⟨by decide +kernel, by decide +kernel, .inl (by decide +kernel), zero_mapped _, rfl, rfl⟩, by decide +kernel⟩
  have hblocked := congrArg Lane.st (hl 0 (by decide +kernel))
  rw [zeroParks_lane (by decide +kernel) ht hg] at hblocked
  revert hblocked
  decide +kernel

/-- Refutes O45: BIST with a result block at physical address 0, where the part holds an uncorrectable error in sector 0, raises UNCORRECTABLE and
writes no predicate. -/
theorem not_debugAndTestWords : ¬ Obligations.DebugAndTestWords := by
  unfold Obligations.DebugAndTestWords
  intro H
  obtain ⟨-, -, -, -, -, -, -, hbist⟩ := H everyLane 0 0 0 0 .r (.v 2) (.v 2)
  obtain ⟨t, g, ht, -, -, hg, -, hl⟩ := hbist _ _ _ (zero_issues (i := bistWord) (by decide +kernel))
    ⟨by decide +kernel, by decide +kernel, .inl (by decide +kernel), zero_mapped _⟩
  have hruns := congrArg Lane.st (hl 0 (by decide +kernel))
  rw [zeroParks_lane (by decide +kernel) ht hg] at hruns
  revert hruns
  decide +kernel

end Sys2Proof.Machine
end

section
/-! SUPPORT. TLBINV and SPLINTER (R274, R410, R411), and the statement O44. -/

namespace Sys2Proof.Machine

open Sys2Proof Sys2Proof.Safe

/-! An agent's write of its own (R299) sees no heat. -/

theorem fillL2_withH (b : State) (H : List Heat) (die sec : Nat) (x : L2Line) : (withH b H).fillL2 die sec x = withH (b.fillL2 die sec x) H := by
  have hroom : (withH b H).roomL2 die (sec / 4) = withH (b.roomL2 die (sec / 4)) H := by
    unfold State.roomL2
    dsimp only
    rw [show (withH b H).l2Lines die = b.l2Lines die from rfl, show (withH b H).asked = b.asked from rfl,
      show ∀ l : List Nat, (withH b H).anyOf l = b.anyOf l from fun _ => rfl]
    split
    · rfl
    · split
      · exact evictLine_withH b H die _
      · rfl
  unfold State.fillL2
  rw [hroom]
  rfl

theorem drain_withH (b : State) (H : List Heat) (die sec : Nat) : (withH b H).drain die sec = withH (b.drain die sec) H := by
  unfold State.drain
  dsimp only
  rw [show (withH b H).owns die sec = b.owns die sec from rfl]
  split
  · exact foldl_withH _ H (fun b e => l2Write_withH b H die e.pa e.bytes) _ { b with rwq := b.rwq.filter (fun e => !(e.die = die ∧ e.pa / 64 = sec)) }
  · rfl

theorem putHolders_withH (b : State) (H : List Heat) (sec : Nat) (t : Tbl DirSt) : (withH b H).putHolders sec t = withH (b.putHolders sec t) H := by
  exact ite_onHeats Iff.rfl (ite_onHeats Iff.rfl rfl rfl) rfl

theorem gainOwn_withH (b : State) (H : List Heat) (die sec : Nat) : (withH b H).gainOwn die sec = withH (b.gainOwn die sec) H := by
  have hdrop (c : State) (d : Nat) : (if d = die then withH c H else (withH c H).dropL2 d sec) = withH (if d = die then c else c.dropL2 d sec) H := by
    split <;> rfl
  unfold State.gainOwn
  dsimp only
  rw [show (withH b H).owns die sec = b.owns die sec from rfl, show (withH b H).cohSector sec = b.cohSector sec from rfl,
    foldl_withH _ H hdrop, putHolders_withH]
  split
  · exact drain_withH b H die sec
  · rw [← drain_withH, ← fillL2_withH]
    rfl

theorem ownWrite_heatless (die pa : Nat) (bs : List Byte) : Heatless (State.ownWrite · die pa bs) where
  heats b H := by
    refine foldl_withH _ H (fun b c => ?_) (cutSectors pa bs) b
    rw [show (withH b H).quietFor die c.1 = b.quietFor die c.1 from rfl, gainOwn_withH, l2Write_withH,
      show (withH b H).cohPatch c.1 c.2.1 c.2.2 = withH (b.cohPatch c.1 c.2.1 c.2.2) H from cohPatch_onHeats b H none c.1 c.2.1 c.2.2]
    split <;> rfl
  now b := by rw [ownWrite_cached b die pa bs]

/-! The fence that comes first (R410). -/

/-- The heat's earlier writes and its core's releases are performed. -/
def FencePassed (e : Seen) : Prop := e.act ≠ [] ∧ e.s.fenceDone e.h .rel false .package (e.h.fence.getD e.s.nid) = true

theorem fenceDone_same (s : State) (x : Iss) (h : Heat) (m : Nat) :
    (entered s x).fenceDone h .rel false .package m = s.fenceDone h .rel false .package m := by
  rw [entered_eq]
  exact fence_congr rfl rfl rfl rfl rfl rfl h .rel false .package m

theorem afterFence_passed {i : Instr} {s : State} {x : Iss} {h : Heat} (hfence : FencePassed (seen i s x h)) (f : Work → Work) :
    (envOf i s x h).afterFence { s := entered s x } f = f { s := entered s x } := by
  unfold Env.afterFence
  dsimp only
  rw [envOf_waitMark, envOf_h, fenceDone_same]
  exact if_pos hfence.2

/-- A word that waits for its fence where some lane is active. -/
def WaitsForFence (i : Instr) : Prop := ∃ body : Env → Work → Work, (∀ s, exec i s = issue i s body) ∧
  ∀ e w, e.act ≠ [] → ∃ f, body e w = e.afterFence w f

theorem fence_waited {i : Instr} (hi : WaitsForFence i) {s : State} {x : Iss} {h : Heat} (hI : Issues i s x h) (hact : active i x h ≠ [])
    (hwait : s.fenceDone h .rel false .package (h.fence.getD s.nid) = false) :
    exec i s = .next { s.updHeat x.key (fun q => { q with fence := some (h.fence.getD s.nid) }) with iss := none, now := s.now + 1 } := by
  obtain ⟨body, hexec, hfence⟩ := hi
  obtain ⟨f, hbody⟩ := hfence (envOf i s x h) { s := entered s x } hact
  refine waitOn_outcome hI body hexec _ (hbody.trans ?_)
  unfold Env.afterFence
  dsimp only
  rw [envOf_waitMark, envOf_h, fenceDone_same, hwait, if_neg (by decide)]

theorem translationWord_waits {c : Com} {d : Nat} {a n : Src} {i : Instr} (hi : i = .tlbinvRange c a n ∨ i = .tlbinvCtx c ∨ i = .splinter c d a n) :
    WaitsForFence i := by
  rcases hi with rfl | rfl | rfl
  · exact ⟨_, (exec_tlbinvRange · c a n), fun e w hact => ⟨_, if_neg (by simpa using hact)⟩⟩
  · exact ⟨_, (exec_tlbinvCtx · c), fun e w hact => ⟨_, if_neg (by simpa using hact)⟩⟩
  · exact ⟨_, (exec_splinter · c d a n), fun e w hact => ⟨_, if_neg (by simpa using hact)⟩⟩

/-! The discarding (R410). -/

/-- A heat that waits until no agent can use an old mapping. -/
def awaiting (lo hi : Nat) (e : Seen) (q : Heat) : Heat := { q with busy := some (.tlbinv lo hi e.s.nid) }

/-- The translations of the context dropped over a range. -/
def dropped (lo hi : Nat) (e : Seen) (s : State) : State := s.tlbDrop e.x.key.ctx lo hi

theorem dropped_heatless (lo hi : Nat) (e : Seen) : Heatless (dropped lo hi e) := ⟨fun _ _ => rfl, fun _ => rfl⟩

theorem discard_entered (i : Instr) (s : State) (x : Iss) (h : Heat) (lo hi : Nat) :
    (envOf i s x h).discard lo hi { s := entered s x } =
      { s := (dropped lo hi (seen i s x h) (entered s x)).updHeat x.key (awaiting lo hi (seen i s x h)), irrev := true } := by
  unfold Env.discard
  dsimp only
  rw [envOf_ctx, envOf_key, show ((entered s x).tlbDrop x.key.ctx lo hi).nid = s.nid from by rw [entered_eq]; rfl]
  rfl

/-- A word that discards a range and changes nothing else. -/
theorem discards_acts {i : Instr} {P : Seen → Prop} (lo hi : Seen → Nat) (body : Env → Work → Work) (hexec : ∀ s, exec i s = issue i s body)
    (hb : ∀ s x h, P (seen i s x h) → body (envOf i s x h) { s := entered s x } =
      (envOf i s x h).discard (lo (seen i s x h)) (hi (seen i s x h)) { s := entered s x }) :
    Acts i P (fun e => dropped (lo e) (hi e) e e.s) (fun e => awaiting (lo e) (hi e) e e.h) (fun _ _ y => y.advance) := by
  refine acts_part false (fun e => dropped (lo e) (hi e) e) (fun e => awaiting (lo e) (hi e) e) (fun _ _ y => y) body hexec
    (fun e => dropped_heatless _ _ e) (fun _ _ => rfl) (fun _ _ => rfl) (fun _ _ _ hy => hy)
    fun s x h hI hP => ⟨_, (hb s x h hP).trans (discard_entered i s x h _ _), rfl, rfl, rfl, ?_⟩
  simp only [foldl_updLane_id]

theorem tlbinvRange_discards (c : Com) (a n : Src) :
    Acts (.tlbinvRange c a n) (fun e => FencePassed e ∧ e.rd .n64 n e.low ≠ 0)
      (fun e => dropped (e.rd .n64 a e.low % 2 ^ 57) (min (e.rd .n64 a e.low % 2 ^ 57 + e.rd .n64 n e.low) (2 ^ 57)) e e.s)
      (fun e => awaiting (e.rd .n64 a e.low % 2 ^ 57) (min (e.rd .n64 a e.low % 2 ^ 57 + e.rd .n64 n e.low) (2 ^ 57)) e e.h)
      (fun _ _ y => y.advance) := by
  refine discards_acts (fun e => e.rd .n64 a e.low % 2 ^ 57) (fun e => min (e.rd .n64 a e.low % 2 ^ 57 + e.rd .n64 n e.low) (2 ^ 57))
    _ (exec_tlbinvRange · c a n) fun s x h ⟨hfence, hlen⟩ => ?_
  rw [if_neg (act_ne hfence.1), afterFence_passed hfence, envOf_src64, envOf_src64, envOf_lowest]
  exact if_neg hlen

theorem tlbinvRange_empty (c : Com) (a n : Src) : ActsOn (.tlbinvRange c a n) (fun e => FencePassed e ∧ e.rd .n64 n e.low = 0) Seen.s := by
  refine actsOn_of _ (exec_tlbinvRange · c a n) fun s x h hI ⟨hfence, hlen⟩ => ⟨{ s := entered s x, irrev := true }, ?_, rfl, rfl, rfl, entered_eq s x⟩
  rw [if_neg (act_ne hfence.1), afterFence_passed hfence, envOf_src64, envOf_src64, envOf_lowest]
  exact if_pos hlen

theorem tlbinvCtx_discards (c : Com) :
    Acts (.tlbinvCtx c) FencePassed (fun e => dropped 0 (2 ^ 57) e e.s) (fun e => awaiting 0 (2 ^ 57) e e.h) (fun _ _ y => y.advance) := by
  refine discards_acts (fun _ => 0) (fun _ => 2 ^ 57) _ (exec_tlbinvCtx · c) fun s x h hfence => ?_
  rw [if_neg (act_ne hfence.1), afterFence_passed hfence]

/-! SPLINTER (R411). -/

/-- The leaf that the lowest lane's address reaches. -/
def LeafAt (a : Src) (f : Leaf) (e : Seen) : Prop := e.s.walk e.x.key.ctx (e.h.core / 64) (e.rd .n64 a e.low % 2 ^ 57) = .ok f

/-- The entries of a leaf's new table, their size, and the table's alignment. -/
def splinterShape (f : Leaf) : Nat × Nat × Nat := if f.size = 2 ^ 30 then (512, 2 ^ 21, 4096) else (32, 65536, 256)

/-- The leaf replaced by a table of smaller ones at `t`. -/
def splintered (f : Leaf) (t : Nat) (e : Seen) (s : State) : State :=
  let s := s.ownWrite (e.h.core / 64) t (splinterTable f.entry f.pa (splinterShape f).2.1 (splinterShape f).1)
  let s := (upto (8 * (splinterShape f).1 / 256)).foldl (fun s j => s.bankIn e.x.key.ctx e.h.core (t + 256 * j)) s
  s.cohPut f.pte 8 (splinterEntry f.entry t)

theorem splintered_heatless (f : Leaf) (t : Nat) (e : Seen) : Heatless (splintered f t e) := by
  have hbanks : Heatless (fun s => (upto (8 * (splinterShape f).1 / 256)).foldl (fun s j => s.bankIn e.x.key.ctx e.h.core (t + 256 * j)) s) :=
    Heatless.foldl (f := fun s j => State.bankIn s e.x.key.ctx e.h.core (t + 256 * j)) (fun _ => ⟨fun _ _ => rfl, fun _ => rfl⟩) _
  exact (cohPut_heatless f.pte 8 _).comp (hbanks.comp (ownWrite_heatless _ t _))

theorem splintered_nid (f : Leaf) (t : Nat) (e : Seen) (s : State) : (splintered f t e s).nid = s.nid := by
  have hput (b : State) (pa : Nat) (bs : List Byte) : (b.cohWrite pa bs).nid = b.nid := by
    refine foldl_keeps (P := fun t => t.nid = b.nid) (fun t c ht => ?_) _ b rfl
    unfold State.cohPatch
    split <;> exact ht
  have hbanks (b : State) (js : List Nat) : (js.foldl (fun s j => State.bankIn s e.x.key.ctx e.h.core (t + 256 * j)) b).nid = b.nid :=
    foldl_keeps (P := fun t => t.nid = b.nid) (f := fun s j => State.bankIn s e.x.key.ctx e.h.core (t + 256 * j)) (fun _ _ ht => ht) js b rfl
  exact (hput _ _ _).trans ((hbanks _ _).trans (by rw [ownWrite_cached s _ t _]))

/-- A SPLINTER whose fence is done, at a leaf. -/
def Splinters (a : Src) (f : Leaf) (e : Seen) : Prop := FencePassed e ∧ LeafAt a f e

/-- SPLINTER's body once its fence is done and it has its leaf. -/
def Env.splinterAt (e : Env) (d : Nat) (f : Leaf) (va tab : Nat) (w : Work) : Work :=
  let setP (s : State) (b : Bool) : State := e.act.foldl (fun s l => s.updLane e.key l (fun x => x.setP d b)) s
  if f.size = 65536 then { w with s := setP w.s false, irrev := true }
  else if tab % (splinterShape f).2.2 ≠ 0 then w.trapAll e.act { cause := .align }
  else if 2 ^ 40 ≤ tab then w.trapAll e.act { cause := .perm }
  else
    let s := w.s.ownWrite e.die tab (splinterTable f.entry f.pa (splinterShape f).2.1 (splinterShape f).1)
    let s := (upto (8 * (splinterShape f).1 / 256)).foldl (fun s i => s.bankIn e.ctx e.core (tab + 256 * i)) s
    let s := s.cohPut f.pte 8 (splinterEntry f.entry tab)
    e.discard (floorTo f.size (va % 2 ^ 57)) (floorTo f.size (va % 2 ^ 57) + f.size) { w with s := setP s true }

theorem splinter_body (c : Com) (d : Nat) (a n : Src) (f : Leaf) : ∃ body : Env → Work → Work,
    (∀ s, exec (.splinter c d a n) s = issue (.splinter c d a n) s body) ∧ ∀ s x h, Splinters a f (seen (.splinter c d a n) s x h) →
      body (envOf (.splinter c d a n) s x h) { s := entered s x } =
        (envOf (.splinter c d a n) s x h).splinterAt d f (reads (.splinter c d a n) s x h .n64 a (seen (.splinter c d a n) s x h).low)
          (reads (.splinter c d a n) s x h .n64 n (seen (.splinter c d a n) s x h).low) { s := entered s x } := by
  refine ⟨_, (exec_splinter · c d a n), fun s x h ⟨hfence, hleaf⟩ => ?_⟩
  have hwalk : (entered s x).walk x.key.ctx (dieOf h.core) (reads (.splinter c d a n) s x h .n64 a (seen (.splinter c d a n) s x h).low % 2 ^ 57) = .ok f := by
    rw [entered_onHeats, walk_onHeats]
    exact hleaf
  rw [if_neg (act_ne hfence.1), afterFence_passed hfence, envOf_src64, envOf_src64, envOf_lowest]
  dsimp only
  rw [envOf_ctx, envOf_die, hwalk]
  rfl

/-- Each lane of a list updated in turn is one update of the heat. -/
theorem updLanes_eq (k : HeatKey) (F : Nat → Lane → Lane) (ls : List Nat) (s : State) :
    ls.foldl (fun s l => s.updLane k l (F l)) s = s.updHeat k (fun h => ls.foldl (fun h l => h.updLane l (F l)) h) := by
  induction ls generalizing s with
  | nil => exact (State.updHeat_id s k).symm
  | cons l ls ih =>
    rw [List.foldl_cons, ih]
    exact State.updHeat_updHeat _ _ _ _ (fun _ => rfl)

theorem awaiting_foldl (lo hi : Nat) (e : Seen) (F : Nat → Lane → Lane) (ls : List Nat) (q : Heat) :
    awaiting lo hi e (ls.foldl (fun h l => h.updLane l (F l)) q) = ls.foldl (fun h l => h.updLane l (F l)) (awaiting lo hi e q) := by
  induction ls generalizing q with
  | nil => rfl
  | cons l ls ih => exact ih (q.updLane l (F l))

/-- A range discarded after an update of the active lanes. -/
theorem discard_lanes {i : Instr} {s b : State} {x : Iss} {h : Heat} (hnid : b.nid = (entered s x).nid) (lo hi : Nat) (F : Nat → Lane → Lane) :
    ((envOf i s x h).discard lo hi { s := (active i x h).foldl (fun s l => s.updLane x.key l (F l)) b }).s =
      (dropped lo hi (seen i s x h) b).updHeat x.key (fun q =>
        (active i x h).foldl (fun q l => q.updLane l (F l)) (awaiting lo hi (seen i s x h) q)) := by
  rw [updLanes_eq]
  unfold Env.discard
  dsimp only
  rw [envOf_ctx, envOf_key]
  rw [show ((b.updHeat x.key _).tlbDrop x.key.ctx lo hi).nid = s.nid from hnid.trans (by rw [entered_eq])]
  refine (State.updHeat_updHeat (dropped lo hi (seen i s x h) b) x.key _ _ fun q => Heat.foldl_updLane_key _ F q).trans ?_
  exact congrArg _ (funext fun q => awaiting_foldl lo hi (seen i s x h) F (active i x h) q)

theorem splinter_smallest (c : Com) (d : Nat) (a n : Src) (f : Leaf) :
    Acts (.splinter c d a n) (fun e => Splinters a f e ∧ f.size = 65536) Seen.s Seen.h (fun _ _ y => (y.setP d false).advance) := by
  obtain ⟨body, hexec, hbody⟩ := splinter_body c d a n f
  refine acts_moves (fun _ s => s) (fun _ _ y => y.setP d false) body hexec (fun _ => id_heatless) (fun _ _ _ hy => hy)
    fun s x h hI ⟨hsplit, hsize⟩ => ⟨_, (hbody s x h hsplit).trans (if_pos hsize), rfl, rfl, rfl, ?_⟩
  exact updLanes_eq _ _ _ _

theorem splinter_splits (c : Com) (d : Nat) (a n : Src) (f : Leaf) :
    Acts (.splinter c d a n) (fun e => Splinters a f e ∧ f.size ≠ 65536 ∧ e.rd .n64 n e.low % (splinterShape f).2.2 = 0 ∧ e.rd .n64 n e.low < 2 ^ 40)
      (fun e => dropped (e.rd .n64 a e.low % 2 ^ 57 / f.size * f.size) (e.rd .n64 a e.low % 2 ^ 57 / f.size * f.size + f.size) e
        (splintered f (e.rd .n64 n e.low) e e.s))
      (fun e => awaiting (e.rd .n64 a e.low % 2 ^ 57 / f.size * f.size) (e.rd .n64 a e.low % 2 ^ 57 / f.size * f.size + f.size) e e.h)
      (fun _ _ y => (y.setP d true).advance) := by
  obtain ⟨body, hexec, hbody⟩ := splinter_body c d a n f
  let lo (e : Seen) : Nat := e.rd .n64 a e.low % 2 ^ 57 / f.size * f.size
  refine acts_part false (fun e s => dropped (lo e) (lo e + f.size) e (splintered f (e.rd .n64 n e.low) e s)) (fun e => awaiting (lo e) (lo e + f.size) e)
    (fun _ _ y => y.setP d true) body hexec (fun e => (dropped_heatless _ _ e).comp (splintered_heatless f _ e)) (fun _ _ => rfl) (fun _ _ => rfl)
    (fun _ _ _ hy => hy) fun s x h hI ⟨hsplit, hsize, halign, hlow⟩ => ⟨_, (hbody s x h hsplit).trans ((if_neg hsize).trans
      ((if_neg (not_not_intro halign)).trans (if_neg (Nat.not_le.2 hlow)))), rfl, rfl, rfl, ?_⟩
  let e := seen (.splinter c d a n) s x h
  exact discard_lanes (i := .splinter c d a n) (h := h) (splintered_nid f (e.rd .n64 n e.low) e (entered s x)) (lo e) (lo e + f.size)
    (fun _ y => y.setP d true)

/-- Settles O44: each word either waits for its fence or, past it, discards its range once for its lanes. -/
theorem translationWordsDiscardTheirRange : Obligations.TranslationWordsDiscardTheirRange := by
  unfold Obligations.TranslationWordsDiscardTheirRange
  intro c d a n
  refine ⟨tlbinvRange_discards c a n, tlbinvRange_empty c a n, tlbinvCtx_discards c, fun f => ?_, fun f => ?_, fun i hi s x h hI hact hwait => ?_⟩
  · exact fun s x h hI ⟨hfence, hleaf, hsize⟩ => splinter_smallest c d a n f s x h hI ⟨⟨hfence, hleaf⟩, hsize⟩
  · exact fun s x h hI ⟨hfence, hleaf, hsplit⟩ => splinter_splits c d a n f s x h hI ⟨⟨hfence, hleaf⟩, hsplit⟩
  · exact fence_waited (translationWord_waits hi) hI hact hwait

end Sys2Proof.Machine
end

section
/-! SUPPORT. What a kill leaves (R341, R380, R406): a lane that has exited stays so, and the kernels stay as they are, through every operation that a
kill goes through. A lemma f_fallen says so of the operation f: one that leaves heats and kernels alone does so by definition, one that changes
lanes by what it makes of an exited one; where it branches, grind splits its branches (!g_fallen brings in the lemma of an operation g that gives a
pair). -/

namespace Sys2Proof.Machine

open Sys2Proof Sys2Proof.Safe

/-- Heat `k` stands in the list with `sz` lanes, lane `m` of it exited where `C` says so, beside the kernels `K`. -/
def FallenIn (C : Prop) (k : HeatKey) (m sz : Nat) (K : List Kernel) (hs : List Heat) (ks : List Kernel) : Prop :=
  ks = K ∧ ∃ g, hs.find? (fun h => h.key = k) = some g ∧ g.lanes.length = sz ∧ (C → (g.lane m).st = .exited)

/-- Heat `k` stands in the part with `sz` lanes, lane `m` of it exited where `C` says so, beside the kernels `K`. -/
abbrev Fallen (C : Prop) (k : HeatKey) (m sz : Nat) (K : List Kernel) (s : State) : Prop := FallenIn C k m sz K s.heats s.kernels

section
variable {s : State} {C : Prop} {k : HeatKey} {m sz : Nat} {K : List Kernel}

/-! Changes of heats. -/

theorem Fallen.updHeat {j : HeatKey} {f : Heat → Heat} (hs : Fallen C k m sz K s) (hkey : ∀ g, (f g).key = g.key)
    (hlen : ∀ g, (f g).lanes.length = g.lanes.length) (hf : ∀ g, (g.lane m).st = .exited → ((f g).lane m).st = .exited) :
    Fallen C k m sz K (s.updHeat j f) := by
  obtain ⟨hK, g, hg, hm, hst⟩ := hs
  by_cases hk : k = j
  · subst hk
    exact ⟨hK, f g, (State.heat?_updHeat_self s k f hkey).trans (by rw [show s.heat? k = some g from hg]; rfl), by rwa [hlen], fun hc => hf g (hst hc)⟩
  · exact ⟨hK, g, (State.heat?_updHeat_ne s j k f hkey hk).trans hg, hm, hst⟩

theorem updLane_fallen {j : HeatKey} {l : Nat} {f : Lane → Lane} (hs : Fallen C k m sz K s) (hf : ∀ y, y.st = .exited → (f y).st = .exited) :
    Fallen C k m sz K (s.updLane j l f) := by
  refine Fallen.updHeat hs (fun _ => rfl) (fun g => Heat.length_updLane g l f) fun g hst => ?_
  rw [Heat.lane_updLane]
  split
  · exact hf _ hst
  · exact hst

/-- A lane that falls. -/
theorem Fallen.falls {f : Lane → Lane} (hs : Fallen False k m sz K s) (hmn : m < sz) (hf : ∀ y, (f y).st = .exited) : Fallen C k m sz K (s.updLane k m f) := by
  obtain ⟨hK, g, hg, hm, -⟩ := hs
  refine ⟨hK, g.updLane m f, heat?_updLane hg m f, by rwa [Heat.length_updLane], fun _ => ?_⟩
  rw [Heat.lane_updLane, if_pos ⟨rfl, hm ▸ hmn⟩]
  exact hf _

/-- Every heat changed by a map that keeps exited lanes. -/
theorem mapHeats_fallen {hs : List Heat} {ks : List Kernel} {f : Heat → Heat} (h : FallenIn C k m sz K hs ks) (hkey : ∀ g, (f g).key = g.key)
    (hlen : ∀ g, (f g).lanes.length = g.lanes.length) (hf : ∀ g, (g.lane m).st = .exited → ((f g).lane m).st = .exited) :
    FallenIn C k m sz K (hs.map f) ks := by
  obtain ⟨hK, g, hg, hm, hst⟩ := h
  refine ⟨hK, f g, ?_, by rwa [hlen], fun hc => hf g (hst hc)⟩
  rw [List.find?_map, show (fun h : Heat => decide (h.key = k)) ∘ f = fun h => decide (h.key = k) from funext fun h => by simp [hkey], hg]
  rfl

theorem lane_mapLanes_exited {g : Heat} {f : Lane → Lane} (hf : ∀ y, y.st = .exited → (f y).st = .exited) (hm : (g.lane m).st = .exited) :
    (({ g with lanes := g.lanes.map f } : Heat).lane m).st = .exited := by
  unfold Heat.lane at *
  cases hl : g.lanes[m]? with
  | none => rw [hl] at hm; simp at hm
  | some y => rw [hl] at hm; simpa [hl] using hf y hm

theorem foldl_fallen {α : Type} {f : State → α → State} {l : List α} (hf : ∀ t a, Fallen C k m sz K t → Fallen C k m sz K (f t a)) (hs : Fallen C k m sz K s) :
    Fallen C k m sz K (l.foldl f s) := foldl_keeps (P := Fallen C k m sz K) hf l s hs

theorem foldl_snd_fallen {α β : Type} {f : β × State → α → β × State} {l : List α} {b : β × State}
    (hf : ∀ b a, Fallen C k m sz K b.2 → Fallen C k m sz K (f b a).2) (hb : Fallen C k m sz K b.2) : Fallen C k m sz K (l.foldl f b).2 :=
  foldl_keeps (P := fun b => Fallen C k m sz K b.2) hf l b hb

theorem cohWrite_fallen {pa bs} (hs : Fallen C k m sz K s) : Fallen C k m sz K (s.cohWrite pa bs) := by
  refine foldl_fallen (fun t c ht => ?_) hs
  unfold State.cohPatch
  split <;> exact ht

theorem cohPut_fallen {pa n x} (hs : Fallen C k m sz K s) : Fallen C k m sz K (s.cohPut pa n x) := cohWrite_fallen hs

theorem setMonQ_fallen {ctx c q} (hs : Fallen C k m sz K s) : Fallen C k m sz K (s.setMonQ ctx c q) := by
  grind [State.setMonQ, cohWrite_fallen, State.updCtx_heats, State.updCtx_kernels]

theorem setOwner_fallen {ctx c tid} (hs : Fallen C k m sz K s) : Fallen C k m sz K (s.setOwner ctx c tid) := by
  grind [State.setOwner, cohPut_fallen]

theorem setAbandoned_fallen {pa b} (hs : Fallen C k m sz K s) : Fallen C k m sz K (s.setAbandoned pa b) := cohPut_fallen hs

theorem handOver_fallen {ctx c} (hs : Fallen C k m sz K s) : Fallen C k m sz K (s.handOver ctx c) := by
  grind [State.handOver, setMonQ_fallen, setOwner_fallen]

theorem leaveQueues_fallen {key l} (hs : Fallen C k m sz K s) : Fallen C k m sz K (s.leaveQueues key l) := by
  grind [State.leaveQueues, setMonQ_fallen, handOver_fallen, foldl_fallen]

theorem dropHeld_fallen {key l c} (hs : Fallen C k m sz K s) : Fallen C k m sz K (s.updLane key l (·.dropHeld c)) := updLane_fallen hs fun _ h => h

theorem handOnAll_fallen {key l} (hs : Fallen C k m sz K s) : Fallen C k m sz K (s.handOnAll key l) :=
  foldl_fallen (fun _ _ h => handOver_fallen (dropHeld_fallen h)) (leaveQueues_fallen hs)

theorem capture_fallen {ctx origin} (hs : Fallen C k m sz K s) : Fallen C k m sz K (s.capture ctx origin) := by
  grind [State.capture, State.updCtx_heats, State.updCtx_kernels]

theorem queueRelease_fallen {h l c pa} (hs : Fallen C k m sz K s) : Fallen C k m sz K (s.queueRelease h l c pa) := capture_fallen hs

theorem abandonAll_fallen {h l} (hs : Fallen C k m sz K s) : Fallen C k m sz K (s.abandonAll h l) := by
  refine foldl_fallen (fun t c ht => ?_) (leaveQueues_fallen hs)
  have hdrop := dropHeld_fallen (key := h.key) (l := l) (c := c) ht
  dsimp only
  split
  · exact hdrop
  · split
    · exact setAbandoned_fallen hdrop
    · exact queueRelease_fallen (setAbandoned_fallen hdrop)

theorem killColours_fallen {key l} (hs : Fallen C k m sz K s) : Fallen C k m sz K (s.killColours key l) := by
  grind [State.killColours, abandonAll_fallen, handOnAll_fallen]

/-! Operations, tasks and cards. -/

/-- What the end of an operation does to its heat (R121). -/
def opEnded (id : Nat) (flag : Option Nat) (h : Heat) : Heat :=
  let h := if h.busy = some (Busy.result id) then { h with busy := none } else h
  match flag with | none => h | some f => h.flagDown f

theorem opEnded_rest (id : Nat) (flag : Option Nat) (h : Heat) : opEnded id flag h = { h with busy := (opEnded id flag h).busy, fcnt := (opEnded id flag h).fcnt } := by
  unfold opEnded
  cases flag <;> by_cases hb : h.busy = some (Busy.result id) <;> simp [hb, Heat.flagDown]

theorem opDone_fallen {id l} (hs : Fallen C k m sz K s) : Fallen C k m sz K (s.opDone id l) := by
  unfold State.opDone
  split
  · exact hs
  next o ho =>
    dsimp only
    split
    · exact hs
    · refine Fallen.updHeat (f := opEnded id o.flag) hs (fun g => ?_) (fun g => ?_) (fun g hst => ?_)
      · rw [opEnded_rest]
      · rw [opEnded_rest]
      · rw [opEnded_rest]
        exact hst

theorem dropAccesses_fallen {key l} (hs : Fallen C k m sz K s) : Fallen C k m sz K (s.dropAccesses key l) :=
  foldl_fallen (fun _ _ h => opDone_fallen h) hs

theorem dropRunon_fallen {j} (hs : Fallen C k m sz K s) : Fallen C k m sz K (s.updHeat j Heat.dropRunon) :=
  Fallen.updHeat hs (fun _ => rfl) (fun _ => rfl) (fun _ h => h)

theorem pass_exited {b : Nat} {y : Lane} (h : y.st = .exited) : (y.pass b).st = .exited := by
  unfold Lane.pass
  rw [h]
  exact h

theorem settleBar_fallen {unit team b} (hs : Fallen C k m sz K s) : Fallen C k m sz K (s.settleBar unit team b) := by
  unfold State.settleBar
  split
  · exact hs
  · dsimp only
    split
    · refine mapHeats_fallen hs (fun g => ?_) (fun g => ?_) (fun g hst => ?_)
      · split <;> rfl
      · split <;> simp
      · split
        · exact lane_mapLanes_exited (fun _ => pass_exited) hst
        · exact hst
    · exact hs

theorem settleBars_fallen {key} (hs : Fallen C k m sz K s) : Fallen C k m sz K (s.settleBars key) := by
  grind [State.settleBars, settleBar_fallen, foldl_fallen]

theorem seat_fallen {card task} (hs : Fallen C k m sz K s) : Fallen C k m sz K (s.seat card task) := by
  unfold State.seat
  split
  · exact hs
  · dsimp only
    split <;> exact hs

theorem makeReady_fallen {card task} (hs : Fallen C k m sz K s) : Fallen C k m sz K (s.makeReady card task) := seat_fallen hs

theorem entriesFreed_fallen (hs : Fallen C k m sz K s) : Fallen C k m sz K s.entriesFreed := by
  refine mapHeats_fallen (foldl_fallen (fun _ _ h => seat_fallen h) hs) (fun _ => rfl) (fun g => by simp) fun g hst => ?_
  exact lane_mapLanes_exited (fun y hy => by rw [hy]; simpa using hy) hst

theorem abortCommon_fallen {run keep} (hs : Fallen C k m sz K s) : Fallen C k m sz K (s.abortCommon run keep) := by
  unfold State.abortCommon
  split
  · exact hs
  · exact foldl_fallen (f := fun s (kl : HeatKey × Nat) => (s.handOnAll kl.1 kl.2).dropAccesses kl.1 kl.2)
      (fun _ _ h => dropAccesses_fallen (handOnAll_fallen h)) hs

theorem exitLanes_fallen {r} (hs : Fallen C k m sz K s) : Fallen C k m sz K (s.exitLanes r) :=
  foldl_fallen (f := fun s j => (s.updHeat j Heat.dropRunon).settleBars j) (fun _ _ h => settleBars_fallen (dropRunon_fallen h))
    (foldl_fallen (fun _ _ h => updLane_fallen h fun _ _ => rfl) hs)

theorem orPte_fallen {pte i} (hs : Fallen C k m sz K s) : Fallen C k m sz K (s.orPte pte i) := by
  grind [State.orPte, cohPut_fallen]

theorem enterCore_fallen {core e} (hs : Fallen C k m sz K s) : Fallen C k m sz K (s.enterCore core e) := by
  cases core <;> grind [State.enterCore]

theorem enterDie_fallen {e} (hs : Fallen C k m sz K s) : Fallen C k m sz K (s.enterDie e) := by
  grind [State.enterDie]

theorem translate_fallen {ctx die core va use} (hs : Fallen C k m sz K s) : Fallen C k m sz K (s.translate ctx die core va use).2 := by
  grind [State.translate, enterCore_fallen, orPte_fallen, enterDie_fallen]

theorem decrement_fallen {ctx die arec} (hs : Fallen C k m sz K s) : Fallen C k m sz K (s.decrement ctx die arec).2 := by
  grind [State.decrement, !translate_fallen, cohPut_fallen]

theorem updTask_fallen {c i f} (hs : Fallen C k m sz K s) : Fallen C k m sz K (s.updTask c i f) := hs

theorem fireEdge_fallen {ctx die va e lap pair} (hs : Fallen C k m sz K s) : Fallen C k m sz K (s.fireEdge ctx die va e lap pair).2 := by
  grind [State.fireEdge, cohPut_fallen, makeReady_fallen, !decrement_fallen, updTask_fallen]

theorem postDealer_fallen {die d x addr} (hs : Fallen C k m sz K s) : Fallen C k m sz K (s.postDealer die d x addr) := by
  grind [State.postDealer]

theorem freeTokens_fallen {run} (hs : Fallen C k m sz K s) : Fallen C k m sz K (s.freeTokens run) := hs

theorem failOne_fallen {card die} (hs : Fallen C k m sz K s) : Fallen C k m sz K (s.failOne card die).2 := by
  unfold State.failOne
  split
  · exact hs
  · split
    · exact hs
    · refine foldl_snd_fallen (fun b i hb => ?_) (foldl_fallen (f := fun s (r : Run) => ((s.abortCommon r.id none).exitLanes r).freeTokens r.id)
        (fun _ _ h => exitLanes_fallen (abortCommon_fallen h)) hs)
      refine foldl_snd_fallen (fun b e hb => ?_) ?_
      · dsimp only
        split
        · exact postDealer_fallen (fireEdge_fallen hb)
        · exact fireEdge_fallen hb
      · dsimp only
        split
        · exact hb
        · split
          · exact cohPut_fallen hb
          · exact hb

theorem failCards_fallen {t l} (hs : Fallen C k m sz K s) : Fallen C k m sz K (State.failCards t l s) := by
  induction t generalizing l s with
  | zero => exact hs
  | succ t ih => grind [State.failCards, !failOne_fallen]

theorem failCard_fallen {card die} (hs : Fallen C k m sz K s) : Fallen C k m sz K (s.failCard card die) := entriesFreed_fallen (failCards_fallen hs)

/-! Kills. -/

theorem dropBlocked_fallen {key l} (hs : Fallen C k m sz K s) : Fallen C k m sz K (s.dropBlocked key l) := by
  grind [State.dropBlocked, opDone_fallen, foldl_fallen]

theorem killHandoffs_fallen {key} (hs : Fallen C k m sz K s) : Fallen C k m sz K (s.killHandoffs key) := by
  grind [State.killHandoffs, State.updUnit_heats, State.updUnit_kernels]

/-- A lane's end by a kill. -/
def killedLane (x : Lane) : Lane := { x with st := .exited, task := none, depth := 0, held := [], trap := none, acq := none }

/-- What a kill does once its lane has exited. -/
def State.afterKill (s : State) (key : HeatKey) (card : Option Nat) (die : Nat) : State :=
  let s := s.updHeat key Heat.dropRunon
  let s := match card with | some c => s.failCard c die | none => s
  (s.settleBars key).killHandoffs key

theorem afterKill_fallen {key card die} (hs : Fallen C k m sz K s) : Fallen C k m sz K (s.afterKill key card die) := by
  unfold State.afterKill
  cases card with
  | none => exact killHandoffs_fallen (settleBars_fallen (dropRunon_fallen hs))
  | some c => exact killHandoffs_fallen (settleBars_fallen (failCard_fallen (dropRunon_fallen hs)))

theorem killLane_eq (s : State) (key : HeatKey) (l : Nat) : s.killLane key l = match s.heat? key with
    | none => s
    | some h => if (h.lane l).exited || h.lanes.length ≤ l then s
      else ((((s.killColours key l).dropBlocked key l).dropCopies key l).updLane key l killedLane).afterKill key ((s.runOf (h.lane l)).map (·.card)) (dieOf h.core) := rfl

theorem beforeKill_fallen {key l} (hs : Fallen C k m sz K s) : Fallen C k m sz K (((s.killColours key l).dropBlocked key l).dropCopies key l) :=
  dropBlocked_fallen (killColours_fallen hs)

theorem killLane_fallen {key l} (hs : Fallen C k m sz K s) : Fallen C k m sz K (s.killLane key l) := by
  rw [killLane_eq]
  split
  · exact hs
  · split
    · exact hs
    · exact afterKill_fallen (updLane_fallen (beforeKill_fallen hs) fun _ _ => rfl)

/-- A kill of the lane makes it fall. -/
theorem killLane_falls (hs : Fallen False k m sz K s) (hmn : m < sz) : Fallen True k m sz K (s.killLane k m) := by
  obtain ⟨hK, g, hg, hm, hst⟩ := hs
  rw [killLane_eq, show s.heat? k = some g from hg]
  dsimp only
  split
  next hdone =>
    refine ⟨hK, g, hg, hm, fun _ => ?_⟩
    simpa [Lane.exited, hm, Nat.not_le.2 hmn] using hdone
  next => exact afterKill_fallen (Fallen.falls (beforeKill_fallen ⟨hK, g, hg, hm, hst⟩) hmn fun _ => rfl)

theorem killLanes_fallen {ls : List (HeatKey × Nat)} (hs : Fallen C k m sz K s) : Fallen C k m sz K (ls.foldl (fun s kl => s.killLane kl.1 kl.2) s) :=
  foldl_fallen (fun _ _ h => killLane_fallen h) hs

theorem killHeat_fallen {key} (hs : Fallen C k m sz K s) : Fallen C k m sz K (s.killHeat key) := by
  unfold State.killHeat
  split
  · exact hs
  · exact foldl_fallen (fun _ _ h => killLane_fallen h) hs

/-- Each lane of a list of kills has fallen at its end. -/
theorem killLanes_fall {ls : List (HeatKey × Nat)} (hs : Fallen False k m sz K s) (hmn : m < sz) (hmem : (k, m) ∈ ls) :
    Fallen True k m sz K (ls.foldl (fun s kl => s.killLane kl.1 kl.2) s) := by
  obtain ⟨before, after, rfl⟩ := List.append_of_mem hmem
  rw [List.foldl_append, List.foldl_cons]
  exact killLanes_fallen (killLane_falls (killLanes_fallen hs) hmn)

theorem sweep_fallen (hs : Fallen C k m sz K s) : Fallen C k m sz K s.sweep := hs

theorem Fallen.updHeat_ne {j : HeatKey} {f : Heat → Heat} (hs : Fallen C k m sz K s) (hkey : ∀ g, (f g).key = g.key) (hk : k ≠ j) :
    Fallen C k m sz K (s.updHeat j f) := by
  obtain ⟨hK, g, hg, hrest⟩ := hs
  exact ⟨hK, g, (State.heat?_updHeat_ne s j k f hkey hk).trans hg, hrest⟩

/-- The end of an issue without a trap or a stall. -/
theorem finish_untrapped (e : Env) (h0 : Heat) {w : Work} (ht : w.traps = []) (hst : w.stall = false) :
    finish e h0 w =
      { (w.s.updHeat e.key (closing e h0 w)).settleBars e.key with iss := none, now := ((w.s.updHeat e.key (closing e h0 w)).settleBars e.key).now + 1 } := by
  have hf : (e.issuing).filterMap (fun l => ([] : List (Nat × Trap)).find? (fun t => t.1 = l)) = [] := by simp
  unfold finish
  rw [if_neg (by simp [hst])]
  simp only [ht, hf, List.isEmpty_nil, if_true, List.any_nil, Bool.not_false, Bool.and_true]
  rfl

theorem finish_fallen {e : Env} {h0 : Heat} {w : Work} (ht : w.traps = []) (hst : w.stall = false) (hs : Fallen C k m sz K w.s) (hk : C → k ≠ e.key) :
    Fallen C k m sz K (finish e h0 w) := by
  rw [finish_untrapped e h0 ht hst]
  refine settleBars_fallen (s := w.s.updHeat e.key (closing e h0 w)) ?_
  by_cases hke : k = e.key
  · obtain ⟨hK, g, hg, hm, -⟩ := hs
    subst hke
    exact ⟨hK, closing e h0 w g, (State.heat?_updHeat_self _ _ _ (closing_key e h0 w)).trans (by rw [show w.s.heat? e.key = some g from hg]; rfl),
      by rwa [closing_length], fun hc => absurd rfl (hk hc)⟩
  · exact hs.updHeat_ne (closing_key e h0 w) hke

end

end Sys2Proof.Machine
end

section
/-! SUPPORT. RESUME, KILL and ERET (R398, R404 to R407), and the statement O42. -/

namespace Sys2Proof.Machine

open Sys2Proof Sys2Proof.Safe

/-! What a handle names (R398, R404). -/

theorem byHandle_entered (s : State) (x : Iss) (n : Nat) : (entered s x).byHandle n = s.byHandle n := by
  rw [entered_eq]
  rfl

/-- A word that acts on the record that each active lane's handle names: `f` acts on one, where the part and the heat meet `Q`. -/
def ActsOnRecords (i : Instr) (a : Src) (Q : State → Heat → Prop) (f : Env → Work → Nat → FRec → Work) : Prop :=
  ∃ body : Env → Work → Work, (∀ s, exec i s = issue i s body) ∧ ∀ s x h,
    (∀ l ∈ active i x h, ∀ r, s.byHandle (reads i s x h .n64 a l) = some r → r.ctx = x.key.ctx → Q s h) →
      body (envOf i s x h) { s := entered s x } = (envOf i s x h).onRecords a (f (envOf i s x h)) { s := entered s x }

section
variable {i : Instr} {a : Src} {Q : State → Heat → Prop} {f : Env → Work → Nat → FRec → Work} (hi : ActsOnRecords i a Q f)
include hi

/-- Handles that name no record have no effect (R404). -/
theorem records_none : ActsOn i (fun e => ∀ n ∈ e.act, e.s.byHandle (e.rd .n64 a n) = none) Seen.s := by
  obtain ⟨body, hexec, hbody⟩ := hi
  refine actsOn_of body hexec fun s x h hI hnone => ⟨{ s := entered s x, irrev := true }, (hbody s x h fun l hl r hr => ?_).trans (foldl_stays fun l hl => ?_),
    rfl, rfl, rfl, entered_eq s x⟩
  · rw [show s.byHandle (reads i s x h .n64 a l) = none from hnone l hl] at hr
    cases hr
  · unfold Env.named
    dsimp only
    rw [envOf_src64, byHandle_entered, show s.byHandle (reads i s x h .n64 a l) = none from hnone l hl]

section
variable {s : State} {x : Iss} {h : Heat} {l : Nat} {r : FRec} (hI : Issues i s x h) (hact : active i x h = [l])
  (hr : s.byHandle (reads i s x h .n64 a l) = some r)
include hI hact hr

/-- A handle that names a record of another context raises PERM (R404). -/
theorem records_foreign (hctx : r.ctx ≠ x.key.ctx) (ht : ∀ n ∈ x.lanes, (h.lane n).task = none) :
    ∃ t, exec i s = .next t ∧ Parked s t x h [l] (fun _ => { cause := .perm }) 11 := by
  obtain ⟨body, hexec, hbody⟩ := hi
  rw [← hact]
  refine perm_parked hI (by rw [hact]; exact List.cons_ne_nil l []) ht body (hexec s) true ((hbody s x h fun m hm q hq hqc => ?_).trans ?_)
  · rw [hact, List.mem_singleton] at hm
    subst hm
    rw [hr] at hq
    exact absurd ((Option.some.inj hq) ▸ hqc) hctx
  · unfold Env.onRecords
    rw [each_one hact, hact]
    unfold Env.named
    dsimp only
    rw [envOf_src64, byHandle_entered, hr]
    dsimp only
    rw [envOf_ctx, if_neg hctx]
    rfl

omit hI in
/-- What the word does to the record that its one active lane names. -/
theorem records_one (hctx : r.ctx = x.key.ctx) (hQ : Q s h) : ∃ body : Env → Work → Work, (∀ s, exec i s = issue i s body) ∧
    body (envOf i s x h) { s := entered s x } = f (envOf i s x h) { s := entered s x, irrev := true } l r := by
  obtain ⟨body, hexec, hbody⟩ := hi
  refine ⟨body, hexec, (hbody s x h fun _ _ _ _ _ => hQ).trans ?_⟩
  unfold Env.onRecords
  rw [each_one hact]
  unfold Env.named
  dsimp only
  rw [envOf_src64, byHandle_entered, hr]
  dsimp only
  rw [envOf_ctx, if_pos hctx]

theorem records_finish (hctx : r.ctx = x.key.ctx) (hQ : Q s h) :
    ∃ h0, exec i s = .next (finish (envOf i s x h) h0 (f (envOf i s x h) { s := entered s x, irrev := true } l r)) := by
  obtain ⟨body, hexec, hbody⟩ := records_one hi hact hr hctx hQ
  obtain ⟨h0, -, he⟩ := issue_eq hI body
  exact ⟨h0, by rw [hexec, he, hbody]⟩

end

end

/-! The kills (R406). -/

/-- A KILL of a record: `f` kills what the record's lane and the word's operands name. -/
def killWork (f : Env → Nat → State → FRec → State) (e : Env) (w : Work) (l : Nat) (r : FRec) : Work := { w with s := w.s.killRec r (f e l) }

/-- What KILL.lanes kills. -/
def killLanesOf (m : Option Src) (e : Env) (l : Nat) (s : State) (r : FRec) : State :=
  (s.parkedLanes r (e.maskOp m l)).foldl (fun s kl => s.killLane kl.1 kl.2) s

/-- What KILL.heat kills. -/
def killHeatOf (_ : Env) (_ : Nat) (s : State) (r : FRec) : State := match r.key with | none => s | some k => s.killHeat k

/-- What KILL.kernel kills. -/
def killKernelOf (_ : Env) (_ : Nat) (s : State) (r : FRec) : State := match r.serial with | none => s | some n => s.killKernel r.ctx n

theorem killLanes_records (c : Com) (a : Src) (m : Option Src) : ActsOnRecords (.killLanes c a m) a (fun _ _ => True) (killWork (killLanesOf m)) :=
  ⟨_, (exec_killLanes · c a m), fun _ _ _ _ => rfl⟩

theorem killHeat_records (c : Com) (a : Src) : ActsOnRecords (.killHeat c a) a (fun _ _ => True) (killWork killHeatOf) :=
  ⟨_, (exec_killHeat · c a), fun _ _ _ _ => rfl⟩

theorem killKernel_records (c : Com) (a : Src) : ActsOnRecords (.killKernel c a) a (fun _ _ => True) (killWork killKernelOf) :=
  ⟨_, (exec_killKernel · c a), fun _ _ _ _ => rfl⟩

/-- What ERET does with a record. -/
def eretWork (_ : Env) (w : Work) (_ : Nat) (r : FRec) : Work :=
  { w with s := ({ w.s with records := w.s.records.map (fun (y : FRec) => if y.id = r.id then { y with claimed := none } else y) }).serveFrames }

theorem eret_records (c : Com) (a : Src) : ActsOnRecords (.eret c a) a (fun _ _ => True) eretWork :=
  ⟨_, (exec_eret · c a), fun _ _ _ _ => rfl⟩

/-- What RESUME does with a record. -/
def resumeWork (skip : Bool) (m : Option Src) (e : Env) (w : Work) (l : Nat) (r : FRec) : Work :=
  let s := w.s.releaseNow e.ctx e.core .package none 0
  { w with s := s.resumeRec r (e.maskOp m l) skip (e.core, s.lastSeq e.ctx e.core) }

theorem canRelease_entered (s : State) (x : Iss) (h : Heat) : (entered s x).canRelease h = s.canRelease h := by
  rw [entered_eq]
  rfl

theorem resume_records (c : Com) (skip : Bool) (a : Src) (m : Option Src) :
    ActsOnRecords (.resume c skip a m) a (fun s h => s.canRelease h = true) (resumeWork skip m) := by
  refine ⟨_, (exec_resume · c skip a m), fun s x h hQ => if_neg ?_⟩
  rw [envOf_h, canRelease_entered, Bool.and_eq_true, List.any_eq_true]
  rintro ⟨⟨l, hl, hnamed⟩, hrel⟩
  unfold Env.named at hnamed
  dsimp only at hnamed
  rw [envOf_src64, byHandle_entered, envOf_ctx] at hnamed
  cases hr : s.byHandle (reads (.resume c skip a m) s x h .n64 a l) with
  | none => rw [hr] at hnamed; cases hnamed
  | some r =>
    rw [hr] at hnamed
    by_cases hctx : r.ctx = x.key.ctx
    · rw [hQ l hl r hr hctx] at hrel
      cases hrel
    · simp [hctx] at hnamed

/-- The record of a heat other than the issuing one. -/
structure PlainRecord (s : State) (r : FRec) : Prop where
  dealer : r.dealer = none
  card : r.isCard = false
  unpaged : s.pagedBy r.id = none

theorem PlainRecord.kill {s : State} {r : FRec} (h : PlainRecord s r) (f : State → FRec → State) : s.killRec r f = (f s r).sweep := by
  unfold State.killRec
  rw [h.dealer, h.card, h.unpaged]
  rfl

theorem PlainRecord.entered {s : State} {r : FRec} (h : PlainRecord s r) (x : Iss) : PlainRecord (entered s x) r :=
  ⟨h.dealer, h.card, by rw [entered_eq]; exact h.unpaged⟩

/-- The mask operand of a lane (R403). -/
def laneMask (m : Option Src) (l : Nat) (e : Seen) : Nat := match m with | none => 2 ^ 32 - 1 | some b => e.rd .n32 b l

theorem maskOp_eq (i : Instr) (s : State) (x : Iss) (h : Heat) (m : Option Src) (l : Nat) : (envOf i s x h).maskOp m l = laneMask m l (seen i s x h) := by
  cases m with
  | none => rfl
  | some b => exact envOf_src32 i s x h b l

section
variable {i : Instr} {s : State} {x : Iss} {h : Heat} {a : Src} {l : Nat} {r : FRec} (hI : Issues i s x h) (hact : active i x h = [l])
  (hr : s.byHandle (reads i s x h .n64 a l) = some r) (hctx : r.ctx = x.key.ctx) (hplain : PlainRecord s r)
include hI hact hr hctx hplain

/-- What stands after the kills of a KILL stands after the word. -/
theorem kill_outcome {f : Env → Nat → State → FRec → State} (hi : ActsOnRecords i a (fun _ _ => True) (killWork f)) :
    ∃ t, exec i s = .next t ∧ ∀ C k m sz K, Fallen C k m sz K (f (envOf i s x h) l (entered s x) r) → (C → k ≠ x.key) → Fallen C k m sz K t := by
  obtain ⟨h0, he⟩ := records_finish hi hI hact hr hctx trivial
  refine ⟨_, he, fun C k m sz K hfallen hk => finish_fallen rfl rfl ?_ hk⟩
  unfold killWork
  rw [(hplain.entered x).kill]
  exact sweep_fallen hfallen

variable {k : HeatKey} {q : Heat} (hkey : r.key = some k) (hk : k ≠ x.key) (hq : s.heat? k = some q)
include hkey hk hq

omit hI hact hr hctx hplain hkey in
theorem entered_stands (m : Nat) : Fallen False k m q.lanes.length s.kernels (entered s x) :=
  ⟨by rw [entered_eq], q, (entered_heat_ne s x k hk).trans hq, rfl, False.elim⟩

/-- KILL.lanes ends the parked lanes of its mask (R406). -/
theorem killLanes_ends {m : Option Src} (hi : ActsOnRecords i a (fun _ _ => True) (killWork (killLanesOf m))) :
    ∃ t g, exec i s = .next t ∧ t.heat? k = some g ∧ ∀ n, n < q.lanes.length ∧ (q.lane n).parkedOn r.id = true ∧
      bit (laneMask m l (seen i s x h)) n = true ∧ bit r.lanes n = true → (g.lane n).st = .exited := by
  obtain ⟨t, ht, hkept⟩ := kill_outcome hI hact hr hctx hplain hi
  obtain ⟨-, g, hg, -, -⟩ := hkept False k 0 q.lanes.length s.kernels (killLanes_fallen (entered_stands hk hq 0)) False.elim
  refine ⟨t, g, ht, hg, fun n ⟨hn, hparked, hmask, hlanes⟩ => ?_⟩
  have hmem : (k, n) ∈ (entered s x).parkedLanes r ((envOf i s x h).maskOp m l) := by
    unfold State.parkedLanes
    rw [hkey]
    dsimp only
    rw [entered_heat_ne s x k hk, hq, maskOp_eq]
    exact List.mem_map.2 ⟨n, List.mem_filter.2 ⟨List.mem_filter.2 ⟨List.mem_range.2 hn, hparked⟩, by simp [hmask, hlanes]⟩, rfl⟩
  obtain ⟨-, g', hg', -, hst⟩ := hkept True k n q.lanes.length s.kernels (killLanes_fall (entered_stands hk hq n) hn hmem) fun _ => hk
  obtain rfl : g' = g := Option.some.inj (hg'.symm.trans hg)
  exact hst trivial

/-- KILL.heat ends every lane of the heat (R406). -/
theorem killHeat_ends (hi : ActsOnRecords i a (fun _ _ => True) (killWork killHeatOf)) :
    ∃ t g, exec i s = .next t ∧ t.heat? k = some g ∧ ∀ n, n < q.lanes.length → (g.lane n).st = .exited := by
  obtain ⟨t, ht, hkept⟩ := kill_outcome hI hact hr hctx hplain hi
  have hkills : killHeatOf (envOf i s x h) l (entered s x) r =
      ((upto q.lanes.length).map (fun n => (k, n))).foldl (fun s kl => s.killLane kl.1 kl.2) (entered s x) := by
    unfold killHeatOf State.killHeat
    rw [hkey]
    dsimp only
    rw [entered_heat_ne s x k hk, hq, List.foldl_map]
  rw [hkills] at hkept
  obtain ⟨-, g, hg, -, -⟩ := hkept False k 0 q.lanes.length s.kernels (killLanes_fallen (entered_stands hk hq 0)) False.elim
  refine ⟨t, g, ht, hg, fun n hn => ?_⟩
  obtain ⟨-, g', hg', -, hst⟩ := hkept True k n q.lanes.length s.kernels
    (killLanes_fall (entered_stands hk hq n) hn (List.mem_map_of_mem (List.mem_range.2 hn))) fun _ => hk
  obtain rfl : g' = g := Option.some.inj (hg'.symm.trans hg)
  exact hst trivial

end

/-- KILL.kernel marks the kernel (R406). -/
theorem killKernel_marks {i : Instr} {s : State} {x : Iss} {h : Heat} {a : Src} {l n : Nat} {r : FRec} {y : Kernel} (hI : Issues i s x h)
    (hact : active i x h = [l]) (hr : s.byHandle (reads i s x h .n64 a l) = some r) (hctx : r.ctx = x.key.ctx) (hplain : PlainRecord s r)
    (hi : ActsOnRecords i a (fun _ _ => True) (killWork killKernelOf)) (hserial : r.serial = some n) (hy : s.kernel? r.ctx n = some y) :
    ∃ t z, exec i s = .next t ∧ t.kernel? r.ctx n = some z ∧ z.killed = true := by
  obtain ⟨t, ht, hkept⟩ := kill_outcome hI hact hr hctx hplain hi
  have hstart : Fallen False x.key 0 h.lanes.length (s.updKernel r.ctx n (fun k => { k with killed := true })).kernels
      ((entered s x).updKernel r.ctx n (fun k => { k with killed := true })) :=
    ⟨by rw [entered_eq]; rfl, h, hI.heat, rfl, False.elim⟩
  obtain ⟨hkernels, -⟩ := hkept False x.key 0 h.lanes.length (s.updKernel r.ctx n (fun k => { k with killed := true })).kernels (by
    unfold killKernelOf State.killKernel
    rw [hserial]
    exact sweep_fallen (foldl_fallen (f := fun s (c : Nat × Nat) => s.failCard c.1 c.2) (fun _ _ h => failCard_fallen h)
      (foldl_fallen (f := fun s k => s.killHeat k) (fun _ _ h => killHeat_fallen h) hstart))) False.elim
  refine ⟨t, { y with killed := true }, ht, ?_, rfl⟩
  unfold State.kernel?
  rw [hkernels]
  exact (find?_modifyFirst_self (fun k : Kernel => decide (k.ctx = r.ctx ∧ k.serial = n)) (fun k : Kernel => { k with killed := true }) s.kernels fun _ h => h).trans (congrArg (Option.map _) hy)

/-! ERET (R407). -/

theorem mem_modifyFirst {α : Type} {p : α → Bool} {f : α → α} {l : List α} {b : α} (hb : b ∈ modifyFirst p f l) : ∃ a ∈ l, b = a ∨ b = f a := by
  induction l with
  | nil => cases hb
  | cons a l ih =>
    unfold modifyFirst at hb
    split at hb
    · rcases List.mem_cons.1 hb with rfl | hb
      · exact ⟨a, List.mem_cons_self, .inr rfl⟩
      · exact ⟨b, List.mem_cons_of_mem a hb, .inl rfl⟩
    · rcases List.mem_cons.1 hb with rfl | hb
      · exact ⟨b, List.mem_cons_self, .inl rfl⟩
      · obtain ⟨c, hc, he⟩ := ih hb
        exact ⟨c, List.mem_cons_of_mem a hc, he⟩

/-- Each heat's lanes stand as before when a heat enters a block. -/
theorem mem_entered {s : State} {x : Iss} {g : Heat} (hg : g ∈ (entered s x).heats) : ∃ q ∈ s.heats, ∀ m, (g.lane m).st = (q.lane m).st := by
  unfold Safe.entered enterBlock at hg
  split at hg
  · obtain ⟨q, hq, rfl | rfl⟩ := mem_modifyFirst hg
    · exact ⟨_, hq, fun _ => rfl⟩
    · exact ⟨q, hq, fun m => (unmark_st _ _ _ m).trans
        (st_foldl_updLane x.lanes (fun y => { y with pc := x.pc, blk := some (x.hdrAddr, x.hdr) }) (fun _ => rfl) q m)⟩
  · exact ⟨g, hg, fun _ => rfl⟩

/-- No lane is blocked in TFRAME.next. -/
def NoFrameWaits (s : State) : Prop := ∀ g ∈ s.heats, ∀ m d va dl, (g.lane m).st ≠ .blocked (.tframe d va dl)

theorem noFrameWaits_of {s : State} (h : ∀ g ∈ s.heats, ∀ y ∈ g.lanes, ∀ d va dl, y.st ≠ .blocked (.tframe d va dl)) : NoFrameWaits s := by
  intro g hg m d va dl
  unfold Heat.lane
  cases hm : g.lanes[m]? with
  | none => simp
  | some y => exact h g hg y (List.mem_of_getElem? hm) d va dl

theorem NoFrameWaits.entered {s : State} (h : NoFrameWaits s) (x : Iss) : NoFrameWaits (entered s x) := by
  intro g hg m d va dl
  obtain ⟨q, hq, hst⟩ := mem_entered hg
  rw [hst]
  exact h q hq m d va dl

theorem NoFrameWaits.serve {s : State} (h : NoFrameWaits s) : s.serveFrames = s := by
  refine (congrArg (List.foldl _ s) (List.flatMap_eq_nil_iff.2 fun g hg => List.filterMap_eq_nil_iff.2 fun m _ => ?_)).trans (List.foldl_nil)
  split
  next d va dl hst => exact absurd hst (h g hg m d va dl)
  next => rfl

/-- A record given back. -/
def unclaimed (r : FRec) (s : State) : State := { s with records := s.records.map (fun (y : FRec) => if y.id = r.id then { y with claimed := none } else y) }

theorem eret_unclaims {i : Instr} {s : State} {x : Iss} {h : Heat} {a : Src} {l : Nat} {r : FRec} (hI : Issues i s x h) (hact : active i x h = [l])
    (hr : s.byHandle (reads i s x h .n64 a l) = some r) (hctx : r.ctx = x.key.ctx) (hi : ActsOnRecords i a (fun _ _ => True) eretWork)
    (hwaits : NoFrameWaits s) : ∃ t, exec i s = .next t ∧ t = { unclaimed r s with heats := t.heats, iss := none, now := s.now + 1 } := by
  obtain ⟨body, hexec, hbody⟩ := records_one hi hact hr hctx trivial
  have hserve : eretWork (envOf i s x h) { s := entered s x, irrev := true } l r = { s := unclaimed r (entered s x), irrev := true } :=
    congrArg (fun b : State => ({ s := b, irrev := true } : Work)) (NoFrameWaits.serve (s := unclaimed r (entered s x)) (hwaits.entered x))
  obtain ⟨m, hm⟩ := List.exists_mem_of_ne_nil _ hI.some_lane
  obtain ⟨t, g, hissue, ht, -⟩ := quiet_outcome hI body (hbody.trans hserve) rfl rfl (by unfold unclaimed; rw [entered_eq]) hI.heat rfl
    (Heat.allExited_false (hI.lanes m hm).1 (Issues_live hI m hm))
  refine ⟨t, (hexec s).trans hissue, ht.trans ?_⟩
  unfold unclaimed
  rw [entered_eq]

/-! RESUME (R405). -/

/-- A release of its own that an agent performs in one step leaves heats, clock, records and cards, and counts the origin's releases on (R274). -/
structure Released (s t : State) (ctx origin : Nat) : Prop where
  heats : t.heats = s.heats
  now : t.now = s.now
  cards : t.cards = s.cards
  seq : t.lastSeq ctx origin = (Tbl.get 0 (s.ctx ctx).seqs origin + 1) % 2 ^ 64

theorem releaseNow_released (s : State) (ctx origin : Nat) (sc : Scope) : Released s (s.releaseNow ctx origin sc none 0) ctx origin := by
  have hseq (b : State) (d : Sig) : Released b (b.deposit ctx origin sc d none 0) ctx origin := by
    have hcounts (f : Ctx → Ctx) (hf : ∀ c, Tbl.get 0 (f c).seqs origin = (Tbl.get 0 (b.ctx ctx).seqs origin + 1) % 2 ^ 64) :
        Released b (b.updCtx ctx f) ctx origin :=
      ⟨rfl, rfl, rfl, by unfold State.lastSeq State.ctx State.updCtx; rw [Tbl.get_set_self]; exact hf _⟩
    have hown {t : State} (ht : Released b t ctx origin) (die pa : Nat) (bs : List Byte) : Released b (t.ownWrite die pa bs) ctx origin := by
      rw [ownWrite_cached t die pa bs]
      exact ⟨ht.heats, ht.now, ht.cards, ht.seq⟩
    unfold State.deposit
    dsimp only
    split
    · exact hcounts _ fun c => Tbl.get_set_self _ _ _
    · exact hown (hcounts _ fun c => Tbl.get_set_self _ _ _) _ _ _
  obtain ⟨hheats, hnow, hcards, hlast⟩ := hseq (s.updCtx ctx (fun c => { c with banks := Tbl.set c.banks origin {} })) (Tbl.get {} (s.ctx ctx).banks origin)
  refine ⟨hheats, hnow, hcards, hlast.trans ?_⟩
  rw [show (s.updCtx ctx (fun c => { c with banks := Tbl.set c.banks origin {} })).ctx ctx = { s.ctx ctx with banks := Tbl.set (s.ctx ctx).banks origin {} } from
    Tbl.get_set_self _ _ _]

/-- A heat with one lane resumed. -/
def resumedOne (skip : Bool) (acq : Nat × Nat) (l : Nat) (q : Heat) : Heat := (q.updLane l (·.resumed skip (some acq))).dropRunon

theorem resumeLane_heat (s : State) (k : HeatKey) (l : Nat) (skip : Bool) (acq : Nat × Nat) :
    (s.resumeLane k l skip acq).heat? k = (s.heat? k).map (resumedOne skip acq l) := by
  unfold State.resumeLane State.dropParked
  dsimp only
  rw [State.heat?_updHeat_self _ k Heat.dropRunon fun _ => rfl]
  refine (congrArg (Option.map Heat.dropRunon) (State.heat?_updHeat_self s k (·.updLane l (·.resumed skip (some acq))) fun _ => rfl)).trans ?_
  rw [Option.map_map]
  rfl

theorem resumeLane_heat_ne (s : State) {k j : HeatKey} (hj : j ≠ k) (l : Nat) (skip : Bool) (acq : Nat × Nat) :
    (s.resumeLane k l skip acq).heat? j = s.heat? j :=
  (State.heat?_updHeat_ne _ k j Heat.dropRunon (fun _ => rfl) hj).trans (State.heat?_updHeat_ne s k j (·.updLane l (·.resumed skip (some acq))) (fun _ => rfl) hj)

/-- The lanes of a heat resumed in turn. -/
theorem resumeLanes_lane (skip : Bool) (acq : Nat × Nat) (ls : List Nat) (q : Heat) (hn : ls.Nodup) (m : Nat) :
    (ls.foldl (fun q l => resumedOne skip acq l q) q).lane m =
      if m ∈ ls ∧ m < q.lanes.length then (q.lane m).resumed skip (some acq) else q.lane m := by
  have hlanes (q : Heat) : (ls.foldl (fun q l => resumedOne skip acq l q) q).lanes =
      (ls.foldl (fun q l => q.updLane l (·.resumed skip (some acq))) q).lanes := by
    have hcongr (ls : List Nat) : ∀ q p : Heat, q.lanes = p.lanes → (ls.foldl (fun q l => resumedOne skip acq l q) q).lanes =
        (ls.foldl (fun q l => q.updLane l (·.resumed skip (some acq))) p).lanes := by
      induction ls with
      | nil => exact fun _ _ h => h
      | cons l ls ih => exact fun q p h => ih _ _ (show modifyAt q.lanes l _ = modifyAt p.lanes l _ from by rw [h])
    exact hcongr ls q q rfl
  rw [Heat.lane, hlanes]
  exact Heat.lane_foldl_updLane ls (fun _ y => y.resumed skip (some acq)) q m hn

/-- What resuming lanes of a heat leaves: the clock, and the other heats. -/
structure Resumes (s t : State) (k : HeatKey) (skip : Bool) (acq : Nat × Nat) (ls : List Nat) : Prop where
  now : t.now = s.now
  others : ∀ j, j ≠ k → t.heat? j = s.heat? j
  heat : t.heat? k = (s.heat? k).map (fun q => ls.foldl (fun q l => resumedOne skip acq l q) q)

theorem resumeLanes_resumes (s : State) (k : HeatKey) (skip : Bool) (acq : Nat × Nat) (ls : List Nat) :
    Resumes s (ls.foldl (fun s l => s.resumeLane k l skip acq) s) k skip acq ls := by
  induction ls generalizing s with
  | nil => exact ⟨rfl, fun _ _ => rfl, by simp⟩
  | cons l ls ih =>
    obtain ⟨hnow, hothers, hheat⟩ := ih (s.resumeLane k l skip acq)
    refine ⟨hnow, fun j hj => (hothers j hj).trans (resumeLane_heat_ne s hj l skip acq), hheat.trans ?_⟩
    rw [resumeLane_heat, Option.map_map]
    rfl

/-- The lanes of a record's heat that a RESUME of a mask names. -/
def parkedOf (r : FRec) (mask : Nat) (q : Heat) : List Nat := (q.lanesWhere (fun y => y.parkedOn r.id)).filter (fun l => bit mask l && bit r.lanes l)

theorem mem_parkedOf {r : FRec} {mask : Nat} {q : Heat} {n : Nat} :
    n ∈ parkedOf r mask q ↔ n < q.lanes.length ∧ (q.lane n).parkedOn r.id = true ∧ bit mask n = true ∧ bit r.lanes n = true := by
  rw [parkedOf, List.mem_filter, Heat.lanesWhere, List.mem_filter, Bool.and_eq_true, and_assoc, upto, List.mem_range]

theorem parkedOf_nodup (r : FRec) (mask : Nat) (q : Heat) : (parkedOf r mask q).Nodup := (List.nodup_range.filter _).filter _

theorem PlainRecord.resume {s : State} {r : FRec} {k : HeatKey} {q : Heat} (h : PlainRecord s r) (hkey : r.key = some k) (hq : s.heat? k = some q)
    (mask : Nat) (skip : Bool) (acq : Nat × Nat) :
    s.resumeRec r mask skip acq = ((parkedOf r mask q).foldl (fun s l => s.resumeLane k l skip acq) s).sweep := by
  unfold State.resumeRec
  rw [h.dealer, h.card, h.unpaged]
  unfold State.parkedLanes
  rw [hkey]
  dsimp only
  rw [hq]
  dsimp only
  rw [List.foldl_map]
  rfl

section
variable {i : Instr} {s : State} {x : Iss} {h : Heat} {a : Src} {l : Nat} {r : FRec} {k : HeatKey} {q : Heat}

theorem resume_returns {skip : Bool} {m : Option Src} (hI : Issues i s x h) (hact : active i x h = [l])
    (hr : s.byHandle (reads i s x h .n64 a l) = some r) (hctx : r.ctx = x.key.ctx) (hplain : PlainRecord s r)
    (hi : ActsOnRecords i a (fun s h => s.canRelease h = true) (resumeWork skip m)) (hrel : s.canRelease h = true)
    (hkey : r.key = some k) (hk : k ≠ x.key) (hq : s.heat? k = some q) :
    ∃ t g, exec i s = .next t ∧ t.heat? k = some g ∧ ∀ n, g.lane n =
      if n ∈ parkedOf r (laneMask m l (seen i s x h)) q then
        (q.lane n).resumed skip (some (h.core, (Tbl.get 0 (s.ctx x.key.ctx).seqs h.core + 1) % 2 ^ 64)) else q.lane n := by
  obtain ⟨body, hexec, hbody⟩ := records_one hi hact hr hctx hrel
  obtain ⟨hheats, hnow, hcards, hseq⟩ := releaseNow_released (entered s x) x.key.ctx h.core .package
  have hplain' : PlainRecord ((entered s x).releaseNow x.key.ctx h.core .package none 0) r :=
    ⟨hplain.dealer, hplain.card, by unfold State.pagedBy; rw [hcards, entered_eq]; exact hplain.unpaged⟩
  have hq' : ((entered s x).releaseNow x.key.ctx h.core .package none 0).heat? k = some q :=
    (State.heat?_congr hheats k).trans ((entered_heat_ne s x k hk).trans hq)
  have hseqs : (Tbl.get 0 ((entered s x).ctx x.key.ctx).seqs h.core + 1) % 2 ^ 64 = (Tbl.get 0 (s.ctx x.key.ctx).seqs h.core + 1) % 2 ^ 64 := by
    rw [entered_eq]
    rfl
  obtain ⟨hnow2, hothers, hheat⟩ := resumeLanes_resumes ((entered s x).releaseNow x.key.ctx h.core .package none 0) k skip
    (h.core, (Tbl.get 0 (s.ctx x.key.ctx).seqs h.core + 1) % 2 ^ 64) (parkedOf r (laneMask m l (seen i s x h)) q)
  have hwork : resumeWork skip m (envOf i s x h) { s := entered s x, irrev := true } l r =
      { s := ((parkedOf r (laneMask m l (seen i s x h)) q).foldl (fun b n => b.resumeLane k n skip (h.core, (Tbl.get 0 (s.ctx x.key.ctx).seqs h.core + 1) % 2 ^ 64))
          ((entered s x).releaseNow x.key.ctx h.core .package none 0)).sweep, irrev := true } := by
    unfold resumeWork
    dsimp only
    rw [envOf_ctx, envOf_core, maskOp_eq, hseq, hplain'.resume hkey hq', hseqs]
  have hself : (((parkedOf r (laneMask m l (seen i s x h)) q).foldl (fun b n => b.resumeLane k n skip
      (h.core, (Tbl.get 0 (s.ctx x.key.ctx).seqs h.core + 1) % 2 ^ 64)) ((entered s x).releaseNow x.key.ctx h.core .package none 0)).sweep).heat? x.key =
      some h := (hothers x.key hk.symm).trans ((State.heat?_congr hheats x.key).trans hI.heat)
  obtain ⟨n, hn⟩ := List.exists_mem_of_ne_nil _ hI.some_lane
  obtain ⟨t, g, hissue, -, hne, -⟩ := quiet_outcome hI body (hbody.trans hwork) rfl rfl (hnow2.trans (hnow.trans (by rw [entered_eq]))) hself rfl
    (Heat.allExited_false (hI.lanes n hn).1 (Issues_live hI n hn))
  refine ⟨t, _, (hexec s).trans hissue, (hne k hk).trans (hheat.trans (congrArg _ hq')), fun n => ?_⟩
  rw [resumeLanes_lane _ _ _ _ (parkedOf_nodup _ _ _)]
  have hlt : n ∈ parkedOf r (laneMask m l (seen i s x h)) q → n < q.lanes.length := fun hn => (mem_parkedOf.1 hn).1
  by_cases hn : n ∈ parkedOf r (laneMask m l (seen i s x h)) q
  · rw [if_pos ⟨hn, hlt hn⟩, if_pos hn]
  · rw [if_neg fun hc => hn hc.1, if_neg hn]

end

/-- Settles O42: what each word does to the record its handle names, RESUME lane by lane, KILL by what its kills leave, ERET by the claim. -/
theorem recordsResumeKillAndReturn : Obligations.RecordsResumeKillAndReturn := by
  unfold Obligations.RecordsResumeKillAndReturn
  intro c skip a m l r k q i hword
  have hrecords : ∃ Q f, ActsOnRecords i a Q f := by
    rcases hword with rfl | rfl | rfl | rfl | rfl
    · exact ⟨_, _, resume_records c skip a m⟩
    · exact ⟨_, _, killLanes_records c a m⟩
    · exact ⟨_, _, killHeat_records c a⟩
    · exact ⟨_, _, killKernel_records c a⟩
    · exact ⟨_, _, eret_records c a⟩
  obtain ⟨Q, f, hrecords⟩ := hrecords
  refine ⟨records_none hrecords, fun s x h hI hact hr => ⟨fun hctx ht => records_foreign hrecords hI hact hr hctx ht,
    fun hctx hdealer hcard hpaged hkey hk hq => ?_⟩⟩
  have hplain : PlainRecord s r := ⟨hdealer, hcard, hpaged⟩
  refine ⟨?_, ?_, ?_, ?_, ?_⟩
  · rintro rfl hrel
    obtain ⟨t, g, ht, hg, hlanes⟩ := resume_returns hI hact hr hctx hplain (resume_records c skip a m) hrel hkey hk hq
    exact ⟨t, g, ht, hg, fun n hn => ⟨fun hhit => (hlanes n).trans (if_pos (mem_parkedOf.2 hhit)),
      fun hmiss => (hlanes n).trans (if_neg (mt mem_parkedOf.1 hmiss))⟩⟩
  · rintro rfl
    exact killLanes_ends hI hact hr hctx hplain hkey hk hq (killLanes_records c a m)
  · rintro rfl
    exact killHeat_ends hI hact hr hctx hplain hkey hk hq (killHeat_records c a)
  · rintro rfl n y hserial hy -
    exact killKernel_marks hI hact hr hctx hplain (killKernel_records c a) hserial hy
  · rintro rfl hwaits
    exact eret_unclaims hI hact hr hctx (eret_records c a) (noFrameWaits_of hwaits)

end Sys2Proof.Machine
end

section
/-! SUPPORT. Suspension and restoring of one unit (R415 to R421), and the statement O49. -/

namespace Sys2Proof.Machine

open Sys2Proof Sys2Proof.Safe

/-- A unit outside any QUAD unit, the only one of its id. -/
structure Alone (s : State) (u : RUnit) : Prop where
  named : s.unitOf u.key = some u
  single : u.quad = none
  only : s.units.filter (fun v => v.id = u.id) = [u]

section
variable {s : State} {u : RUnit}

theorem Alone.gang (h : Alone s u) : s.gang u = [u.id] := by
  unfold State.gang
  rw [h.single]

theorem Alone.members (h : Alone s u) : s.units.filter (fun v => [u.id].contains v.id) = [u] :=
  (List.filter_congr fun v _ => by simp).trans h.only

theorem Alone.unit (h : Alone s u) : s.unit? u.id = some u := by
  unfold State.unit?
  rw [← List.head?_filter, h.only]
  rfl

theorem Alone.unique (h : Alone s u) {v : RUnit} (hv : v ∈ s.units) (hid : v.id = u.id) : v = u := by
  have hmem : v ∈ s.units.filter (fun v => v.id = u.id) := List.mem_filter.2 ⟨hv, by simpa using hid⟩
  rw [h.only] at hmem
  exact List.mem_singleton.1 hmem

/-! Saving (R415 to R418). -/

/-- A unit that was given its window at clock `t`, and is neither saved nor retired. -/
structure Windowed (s : State) (u : RUnit) (t : Nat) : Prop extends Alone s u where
  unsaved : u.saved = false
  live : u.retired = false
  susp : u.susp = .window t

/-- Where a unit's save area stands (R418). -/
def State.saveArea (s : State) (u : RUnit) : Except Cause Nat := s.peek u.key.ctx (u.core / 64) (((s.ctx u.key.ctx).trail + 204800) % 2 ^ 64) .write

/-- UNIT_SAVE of a windowed unit: it waits where the unit does not rest within the window, and else saves it or resets its context. -/
theorem unitSave_windowed {t : Nat} (h : Windowed s u t) : s.unitSave u.key =
    if s.now < t + 2 ^ 14 ∧ s.unitRests u = true then (match s.saveArea u with | .error _ => s.forceReset u.key.ctx | .ok _ => s.saveUnit u.id) else s := by
  unfold State.unitSave
  rw [h.named]
  dsimp only
  rw [h.gang, h.members]
  simp only [List.all_cons, List.all_nil, h.unsaved, h.live, h.susp, Bool.false_or, Bool.and_true]
  by_cases hrests : s.now < t + 2 ^ 14 ∧ s.unitRests u = true
  · rw [if_pos hrests, if_neg (by rw [decide_eq_true hrests.1, hrests.2]; decide)]
    unfold State.saveArea
    rw [show u.core / 64 = dieOf u.core from rfl]
    generalize s.peek u.key.ctx (dieOf u.core) (((s.ctx u.key.ctx).trail + 204800) % 2 ^ 64) .write = r
    rw [List.filter_cons_of_pos (by rw [h.live]; rfl)]
    cases r <;> rfl
  · rw [if_neg hrests, if_pos]
    rwa [Bool.not_eq_true', Bool.and_eq_false_iff, decide_eq_false_iff_not, ← Bool.not_eq_true, ← not_and_or]

/-! What a save leaves (R240, R278, R417). -/

/-- A heat saved in its place. -/
def State.saveHeat (s : State) (k : HeatKey) : State := match s.heat? k with
  | none => s
  | some _ => s.updHeat k (fun h => h.save (s.highWater h))

/-- The keys of a unit's heats. -/
def State.unitKeys (s : State) (id : Nat) : List HeatKey := (s.heats.filter (fun h => h.unit = id)).map (·.key)

/-- A heat as its save leaves it, but for its lanes. -/
def SavedAs (h g : Heat) : Prop := g = { h with saved := true, active := false, fence := none, lanes := g.lanes }

theorem saveHeat_self {k : HeatKey} {h : Heat} (hh : s.heat? k = some h) : ∃ g, (s.saveHeat k).heat? k = some g ∧ SavedAs h g := by
  unfold State.saveHeat
  rw [hh]
  exact ⟨h.save (s.highWater h), by rw [State.heat?_updHeat_self s k (fun h => h.save (s.highWater h)) fun _ => rfl, hh]; rfl, rfl⟩

theorem saveHeat_ne {k j : HeatKey} (hk : k ≠ j) : (s.saveHeat j).heat? k = s.heat? k := by
  unfold State.saveHeat
  split
  · rfl
  · exact State.heat?_updHeat_ne s j k (fun h => h.save (s.highWater h)) (fun _ => rfl) hk

/-- Heats saved in the order of a list of keys: each heat whose key it holds once is saved, and the others are as before. -/
theorem saveHeats_heat (keys : List HeatKey) (hn : keys.Nodup) (s : State) (k : HeatKey) (h : Heat) (hh : s.heat? k = some h) :
    ∃ g, (keys.foldl State.saveHeat s).heat? k = some g ∧ (k ∉ keys → g = h) ∧ (k ∈ keys → SavedAs h g) := by
  induction keys generalizing s h with
  | nil => exact ⟨h, hh, fun _ => rfl, fun hk => absurd hk List.not_mem_nil⟩
  | cons j keys ih =>
    obtain ⟨hj, hrest⟩ := List.nodup_cons.1 hn
    rw [List.foldl_cons]
    by_cases hk : k = j
    · subst hk
      obtain ⟨q, hq, hsaved⟩ := saveHeat_self hh
      obtain ⟨g, hg, hsame, -⟩ := ih hrest (s.saveHeat k) q hq
      exact ⟨g, hg, fun hc => absurd List.mem_cons_self hc, fun _ => hsame hj ▸ hsaved⟩
    · obtain ⟨g, hg, hsame, hsaved⟩ := ih hrest (s.saveHeat j) h ((saveHeat_ne hk).trans hh)
      exact ⟨g, hg, fun hc => hsame fun hm => hc (List.mem_cons_of_mem j hm), fun hm => hsaved ((List.mem_cons.1 hm).resolve_left hk)⟩

/-- Saving heats changes heats alone. -/
theorem saveHeats_frame (keys : List HeatKey) (s : State) : keys.foldl State.saveHeat s = { s with heats := (keys.foldl State.saveHeat s).heats } := by
  refine foldl_keeps (P := fun b : State => b = { s with heats := b.heats }) (fun b k hb => ?_) keys s rfl
  unfold State.saveHeat
  split
  · exact hb
  · rw [hb]
    rfl

/-- A unit as its save leaves it, its arrays beside. -/
def savedUnit (s : State) (arr : Option (MArray × MArray)) (v : RUnit) : RUnit :=
  { v with saved := true, susp := .no, evicted := false, savedSig := Tbl.get {} (s.ctx v.key.ctx).banks v.core, savedAt := s.now, savedArr := arr }

theorem saveUnit_of_unit {id : Nat} (hu : s.unit? id = some u) :
    ∃ arr, s.saveUnit id = ((s.unitKeys id).foldl State.saveHeat s).updUnit id (savedUnit s arr) := by
  obtain ⟨arr, hsave⟩ : ∃ arr, s.saveUnit id = ((s.unitKeys id).foldl State.saveHeat s).updUnit id (savedUnit ((s.unitKeys id).foldl State.saveHeat s) arr) := by
    unfold State.saveUnit
    rw [hu]
    exact ⟨_, rfl⟩
  have hsame : savedUnit ((s.unitKeys id).foldl State.saveHeat s) arr = savedUnit s arr := by
    rw [saveHeats_frame]
    rfl
  exact ⟨arr, by rw [hsave, hsame]⟩

theorem mem_unitKeys {id : Nat} {k : HeatKey} {h : Heat} (hn : (s.heats.map (·.key)).Nodup) (hh : s.heat? k = some h) : k ∈ s.unitKeys id ↔ h.unit = id := by
  have hmem := List.mem_of_find?_eq_some hh
  have hkey := State.heat?_key hh
  constructor
  · intro hk
    obtain ⟨g, hg, hgk⟩ := List.mem_map.1 hk
    obtain ⟨hg, hunit⟩ := List.mem_filter.1 hg
    rw [List.inj_on_of_nodup_map hn hmem hg (hkey.trans hgk.symm)]
    simpa using hunit
  · exact fun hunit => List.mem_map.2 ⟨h, List.mem_filter.2 ⟨hmem, by simpa using hunit⟩, hkey⟩

theorem saveUnit_saves (hu : s.unit? u.id = some u) (hn : (s.heats.map (·.key)).Nodup) :
    s.saveUnit u.id = { s with heats := (s.saveUnit u.id).heats, units := (s.saveUnit u.id).units } ∧
    (∃ v, (s.saveUnit u.id).unit? u.id = some v ∧ v = { u with
      saved := true, susp := .no, evicted := false, savedAt := s.now, savedArr := v.savedArr, savedSig := Tbl.get {} (s.ctx u.key.ctx).banks u.core }) ∧
    ∀ k h, s.heat? k = some h → ∃ g, (s.saveUnit u.id).heat? k = some g ∧ (h.unit ≠ u.id → g = h) ∧ (h.unit = u.id → SavedAs h g) := by
  obtain ⟨arr, hsave⟩ := saveUnit_of_unit hu
  have hframe := saveHeats_frame (s.unitKeys u.id) s
  have hunits : ((s.unitKeys u.id).foldl State.saveHeat s).unit? u.id = some u := by
    rw [hframe]
    exact hu
  rw [hsave]
  refine ⟨?_, ⟨savedUnit s arr u, (unit?_updUnit_self _ u.id (savedUnit s arr) fun _ => rfl).trans (congrArg _ hunits), rfl⟩, fun k h hh => ?_⟩
  · rw [hframe]
    rfl
  · have hnk : (s.unitKeys u.id).Nodup := hn.sublist (List.filter_sublist.map _)
    obtain ⟨g, hg, hsame, hsaved⟩ := saveHeats_heat (s.unitKeys u.id) hnk s k h hh
    exact ⟨g, hg, fun hc => hsame (mt (mem_unitKeys hn hh).1 hc), fun hc => hsaved ((mem_unitKeys hn hh).2 hc)⟩

/-! The window's end and the deadline (R416, R421). -/

theorem windowExpiry_windowed {t : Nat} (h : Windowed s u t) : s.windowExpiry u.key =
    if t + 2 ^ 14 ≤ s.now then { s with units := s.units.map (fun v => if v.id = u.id then { v with susp := .drain t } else v) } else s := by
  unfold State.windowExpiry
  rw [h.named]
  simp only [h.susp]
  split
  · rw [h.gang]
    refine congrArg (fun us => { s with units := us }) (List.map_congr_left fun v hv => ?_)
    by_cases hid : v.id = u.id
    · obtain rfl := h.toAlone.unique hv hid
      simp [h.susp]
    · simp [hid]
  · rfl

theorem deadline_of {t : Nat} (hnamed : s.unitOf u.key = some u) (hsusp : u.susp = .window t ∨ u.susp = .drain t) : s.deadline u.key =
    if t + 2 ^ 17 ≤ s.now ∧ u.saved = false ∧ u.retired = false then s.forceReset u.key.ctx else s := by
  unfold State.deadline
  rw [hnamed]
  rcases hsusp with hsusp | hsusp <;> simp only [hsusp, Bool.and_eq_true, decide_eq_true_eq, Bool.not_eq_true', and_assoc]

/-! Restoring (R419, R420). -/

theorem unitRestore_fits {die core : Nat} {ps : List Nat} (h : Alone s u) (hsaved : u.saved = true) (hnext : s.nextSaved die = some u)
    (hcore : s.bestCore [] u.cls die (s.unitNeed u) = some (core, ps)) : s.unitRestore die = s.restoreUnit u.id core ps := by
  have hmembers : s.units.filter (fun v => [u.id].contains v.id && v.saved) = [u] := by
    rw [show (fun v : RUnit => [u.id].contains v.id && v.saved) = fun v => v.saved && [u.id].contains v.id from funext fun v => Bool.and_comm _ _,
      ← List.filter_filter, h.members, List.filter_cons_of_pos hsaved]
    rfl
  have hspot : s.gangSpot [] die [u] = some [(core, ps)] := by
    unfold State.gangSpot
    dsimp only
    rw [h.single, hcore]
    rfl
  unfold State.unitRestore
  rw [hnext]
  dsimp only
  rw [h.gang, hmembers, hspot]
  rfl

end

/-- Settles O49: each event by what the model does to a unit that stands alone. -/
theorem unitsAreSavedAndRestored : Obligations.UnitsAreSavedAndRestored := by
  unfold Obligations.UnitsAreSavedAndRestored
  intro u t die core pa c ps
  have hw (s : State) (h : ((s.unitOf u.key = some u ∧ u.quad = none ∧ s.units.filter (fun v => v.id = u.id) = [u]) ∧ u.saved = false ∧ u.retired = false ∧
      u.susp = .window t)) : Windowed s u t := ⟨⟨h.1.1, h.1.2.1, h.1.2.2⟩, h.2.1, h.2.2.1, h.2.2.2⟩
  have hnext {a b : State} (h : a = b) : Host.Outcome.next a = (.next b : Result) := congrArg _ h
  refine ⟨?_, ?_, ?_, ?_, ?_, ?_, ?_, ?_, ?_⟩
  · intro s ⟨⟨hwin, hnow, hrests⟩, harea, hn⟩
    have h := hw s hwin
    exact ⟨_, hnext ((unitSave_windowed h).trans ((if_pos ⟨hnow, hrests⟩).trans (by rw [show s.saveArea u = .ok pa from harea]))), saveUnit_saves h.unit hn⟩
  · intro s ⟨⟨hwin, hnow, hrests⟩, harea⟩
    exact hnext ((unitSave_windowed (hw s hwin)).trans ((if_pos ⟨hnow, hrests⟩).trans (by rw [show s.saveArea u = .error c from harea])))
  · intro s ⟨hwin, hlate⟩
    refine hnext ((unitSave_windowed (hw s hwin)).trans (if_neg fun ⟨hnow, hrests⟩ => ?_))
    rcases hlate with hlate | hlate
    · omega
    · rw [hrests] at hlate
      cases hlate
  · exact fun s ⟨hwin, hnow⟩ => hnext ((windowExpiry_windowed (hw s hwin)).trans (if_pos hnow))
  · exact fun s ⟨hwin, hnow⟩ => hnext ((windowExpiry_windowed (hw s hwin)).trans (if_neg (by omega)))
  · exact fun s ⟨hnamed, hsusp, hsaved, hretired, hnow⟩ => hnext ((deadline_of hnamed hsusp).trans (if_pos ⟨hnow, hsaved, hretired⟩))
  · exact fun s ⟨hnamed, hsusp, hnow⟩ => hnext ((deadline_of hnamed (.inr hsusp)).trans (if_neg fun h => absurd h.1 (by omega)))
  · exact fun s ⟨⟨h1, h2, h3⟩, hsaved, hnextSaved, hcore⟩ => hnext (unitRestore_fits ⟨h1, h2, h3⟩ hsaved hnextSaved hcore)
  · intro s hnone
    refine hnext ?_
    unfold State.unitRestore
    rw [hnone]
    rfl

end Sys2Proof.Machine
end

section
/-! SUPPORT. Requests at a home, snoops, answers and evictions (R300 to R309), and the statement O52. -/

namespace Sys2Proof.Machine

open Sys2Proof Sys2Proof.Safe

/-- A message at the head of its channel (R302). -/
def Heads (m : CMsg) (k : MsgKind) (s : State) : Prop := m.kind = k ∧
  s.msgs.find? (fun q => q.src = m.src ∧ q.dst = m.dst ∧ q.kind.channel = m.kind.channel) = some m

theorem headMsg_empty {s : State} (h : s.msgs = []) (d d2 : Nat) (k : MsgKind) : s.headMsg d d2 k = none := by
  unfold State.headMsg
  rw [h]
  rfl

theorem mem_of_removeFirst {α : Type} (p : α → Bool) (a : α) (l : List α) (h : a ∈ removeFirst p l) : a ∈ l := by
  induction l with
  | nil => exact h
  | cons b t ih =>
    unfold removeFirst at h
    split at h
    · exact List.mem_cons_of_mem _ h
    · rcases List.mem_cons.1 h with rfl | ht
      · exact List.mem_cons_self
      · exact List.mem_cons_of_mem _ (ih ht)

section
variable {m : CMsg} {s : State} {k : MsgKind}

theorem Heads.headMsg (h : Heads m k s) : s.headMsg m.src m.dst k = some m := headMsg_of h.1 h.2

/-! Requests (R304, R305). -/

theorem Heads.request (h : Heads m k s) : s.request m.src m.dst k = (s.takeMsg m).serve m := by
  unfold State.request
  rw [h.headMsg]

/-- Nothing stands before a request for the message's sector (R305, R309). -/
def Idle (m : CMsg) (s : State) : Prop := s.inTxn m.sector = false ∧ (∀ q ∈ s.backInv, q.line ≠ m.sector / 4) ∧
  (∀ q ∈ s.queued, q.sector ≠ m.sector) ∧
  (∀ e ∈ s.msgs, e.kind.isEvict = true → e.src = m.requester → e.sector ≠ m.sector) ∧ s.wayFree (m.sector / 4) = true

theorem inTxn_takeMsg (h : s.inTxn m.sector = false) : (s.takeMsg m).inTxn m.sector = false := by
  obtain ⟨htxns, hmsgs⟩ := Bool.or_eq_false_iff.1 h
  refine Bool.or_eq_false_iff.2 ⟨htxns, List.any_eq_false.2 fun e he => List.any_eq_false.1 hmsgs e (mem_of_removeFirst _ e _ he)⟩

theorem serve_idle (h : Idle m s) : (s.takeMsg m).serve m = (s.takeMsg m).transact m := by
  obtain ⟨htxn, hback, hqueued, hevict, hway⟩ := h
  have hback : (s.takeMsg m).backInv.any (fun b => b.line == m.sector / 4) = false :=
    List.any_eq_false.2 fun q hq => by simpa using hback q hq
  have hqueued : (s.takeMsg m).queued.any (fun q => q.sector == m.sector) = false :=
    List.any_eq_false.2 fun q hq => by simpa using hqueued q hq
  have hevict : (s.takeMsg m).msgs.any (fun e => e.kind.isEvict && e.src == m.requester && e.sector == m.sector) = false :=
    List.any_eq_false.2 fun e he => by
      simpa only [Bool.and_eq_true, beq_iff_eq, not_and, and_imp] using hevict e (mem_of_removeFirst _ e _ he)
  have hway : (s.takeMsg m).wayFree (m.sector / 4) = true := hway
  unfold State.serve
  dsimp only
  rw [inTxn_takeMsg htxn, hback, hqueued, hevict, hway, if_neg (by decide), if_neg (by simp)]

theorem request_idle (h : Heads m k s) (hidle : Idle m s) : s.request m.src m.dst k = (s.takeMsg m).transact m :=
  h.request.trans (serve_idle hidle)

theorem request_busy (h : Heads m k s) (hbusy : ∃ q ∈ s.txns, q.sector = m.sector) :
    s.request m.src m.dst k = { s.takeMsg m with queued := s.queued ++ [m] } := by
  obtain ⟨q, hq, hsec⟩ := hbusy
  have htxn : (s.takeMsg m).inTxn m.sector = true := Bool.or_eq_true_iff.2 (.inl (List.any_eq_true.2 ⟨q, hq, beq_iff_eq.2 hsec⟩))
  rw [h.request]
  unfold State.serve
  dsimp only
  rw [htxn]
  rfl

/-! What the home does with a request, by the holders it has on record (R304). -/

theorem transact_shared_free (hk : m.kind = .readShared) (hnone : s.holders m.sector = []) : s.transact m = s.grantShared m.sector m.requester := by
  unfold State.transact
  simp only [hk, hnone]
  rfl

theorem transact_shared_held {d : Nat} {v : DirSt} (hk : m.kind = .readShared) (hheld : s.holders m.sector = [(d, v)]) (hv : v ≠ .s) :
    s.transact m = (s.snoop .fwdShared m.sector m.requester [d]).beginTxn { sector := m.sector, kind := .readShared, requester := m.requester, acks := 1 } := by
  have hfilter : [(d, v)].filter (fun e => decide (e.2 ≠ .s)) = [(d, v)] := List.filter_cons_of_pos (decide_eq_true hv)
  unfold State.transact
  simp only [hk, hheld, hfilter]
  rfl

theorem transact_own (hk : m.kind = .readOwn) : s.transact m = s.readOwnAt m.sector m.requester := by
  unfold State.transact
  simp only [hk]

theorem readOwnAt_free {sec r : Nat} (hnone : s.holders sec = []) : s.readOwnAt sec r = s.grantOwn sec r := by
  unfold State.readOwnAt
  rw [hnone]
  rfl

theorem readOwnAt_held {sec r d : Nat} {v : DirSt} (hheld : s.holders sec = [(d, v)]) (hv : v ≠ .s) (hd : d ≠ r) :
    s.readOwnAt sec r = ((s.dropHome sec r).snoop .fwdOwn sec r [d]).beginTxn { sector := sec, kind := .readOwn, requester := r, acks := 1 } := by
  unfold State.readOwnAt
  simp only [hheld]
  simp [hd, hv, State.snoop]

theorem transact_upgrade (hk : m.kind = .upgrade) (hr : m.requester ≠ homeOf (64 * m.sector)) (hheld : s.holders m.sector = [(m.requester, .s)]) :
    s.transact m = s.grantUpgrade m.sector m.requester := by
  have hup : s.upgradable m.sector m.requester = true := by
    unfold State.upgradable
    rw [if_neg hr, hheld]
    simp [Tbl.find?]
  unfold State.transact
  simp only [hk, hup, hheld]
  simp

/-! Grants (R302 to R304). -/

theorem grantShared_first {sec r : Nat} (hr : r ≠ homeOf (64 * sec)) (hnone : s.holders sec = []) (hhome : s.l2? (homeOf (64 * sec)) sec = none) :
    s.grantShared sec r = (s.putHolders sec [(r, .e)]).sendGrant sec r .e false (some (s.memSector sec)) := by
  unfold State.grantShared State.homeData
  simp only [hhome, if_neg hr, hnone]
  rfl

theorem grantShared_home {sec : Nat} (hhome : s.l2? (homeOf (64 * sec)) sec = none) :
    s.grantShared sec (homeOf (64 * sec)) = s.sendGrant sec (homeOf (64 * sec)) .s false (some (s.memSector sec)) := by
  unfold State.grantShared State.homeData
  simp only [hhome]
  rfl

theorem grantOwn_dirty {sec r : Nat} {x : L2Line} (hr : r ≠ homeOf (64 * sec)) (hhome : s.l2? (homeOf (64 * sec)) sec = some x) (hx : x.st = .dirty) :
    s.grantOwn sec r = ((s.dropL2 (homeOf (64 * sec)) sec).putHolders sec [(r, .m)]).sendGrant sec r .m true (some x.data) := by
  unfold State.grantOwn State.homeData ownRecord
  simp only [hhome, hx, if_neg hr]
  rfl

theorem dropHome_remote {sec r : Nat} (hr : r ≠ homeOf (64 * sec)) : s.dropHome sec r = s.dropL2 (homeOf (64 * sec)) sec := if_neg hr

theorem grantUpgrade_remote {sec r : Nat} (hr : r ≠ homeOf (64 * sec)) :
    s.grantUpgrade sec r = ((s.dropL2 (homeOf (64 * sec)) sec).putHolders sec [(r, .m)]).sendGrant sec r .m false none := by
  unfold State.grantUpgrade ownRecord
  rw [dropHome_remote hr, if_neg hr]

/-! Snoops (R304, R305). -/

theorem fwdShared_held {x : L2Line} (h : Heads m .fwdShared s) (hx : s.l2? m.dst m.sector = some x) :
    s.fwdShared m.src m.dst = ((((s.takeMsg m).setL2 m.dst m.sector { x with st := if decide (x.st = .m ∨ x.st = .o) then .o else .s }).post
      { kind := if decide (x.st = .m ∨ x.st = .o) then .dataDirty else .dataClean, src := m.dst, dst := m.requester, sector := m.sector
        requester := m.requester, grant := some .s, data := some x.data }).ack m true
        (some (if decide (x.st = .m ∨ x.st = .o) then .o else .s)) (decide (x.st = .m ∨ x.st = .o))) := by
  have hx : (s.takeMsg m).l2? m.dst m.sector = some x := hx
  unfold State.fwdShared
  rw [h.headMsg]
  dsimp only
  rw [hx]

theorem fwdOwn_held {x : L2Line} (h : Heads m .fwdOwn s) (hx : s.l2? m.dst m.sector = some x) :
    s.fwdOwn m.src m.dst = ((((s.takeMsg m).dropL2 m.dst m.sector).post
      { kind := if decide (x.st = .m ∨ x.st = .o) then .dataDirty else .dataClean, src := m.dst, dst := m.requester, sector := m.sector
        requester := m.requester, grant := some (if decide (x.st = .m ∨ x.st = .o) then .m else .e), data := some x.data }).ack m true none
        (decide (x.st = .m ∨ x.st = .o))) := by
  have hx : (s.takeMsg m).l2? m.dst m.sector = some x := hx
  unfold State.fwdOwn
  rw [h.headMsg]
  dsimp only
  rw [hx]

theorem inval_head (h : Heads m .inval s) : s.inval m.src m.dst = ((s.takeMsg m).dropL2 m.dst m.sector).ack m false none false := by
  unfold State.inval
  rw [h.headMsg]

/-- The dirty sectors of a line at a die, as a BackInvalAck carries them. -/
def dirtyParts (s : State) (die sec : Nat) : List (Nat × List Byte) :=
  (upto 4).filterMap (fun i => (s.l2? die (sec + i)).bind (fun x => if x.st = .m ∨ x.st = .o then some (i, x.data) else none))

theorem dirtyParts_one {x : L2Line} {die sec : Nat} (hx : s.l2? die sec = some x) (hm : x.st = .m)
    (hrest : ∀ j, 1 ≤ j → j < 4 → s.l2? die (sec + j) = none) : dirtyParts s die sec = [(0, x.data)] := by
  have h1 := hrest 1 (by omega) (by omega)
  have h2 := hrest 2 (by omega) (by omega)
  have h3 := hrest 3 (by omega) (by omega)
  unfold dirtyParts
  rw [show upto 4 = [0, 1, 2, 3] from rfl]
  simp [hx, hm, h1, h2, h3]

theorem backInval_head (h : Heads m .backInval s) :
    s.backInval m.src m.dst = ((upto 4).foldl (fun q j => q.dropL2 m.dst (m.sector + j)) (s.takeMsg m)).post
      { kind := .backInvalAck, src := m.dst, dst := m.src, sector := m.sector, dirty := !(dirtyParts s m.dst m.sector).isEmpty
        parts := dirtyParts s m.dst m.sector } := by
  unfold State.backInval
  rw [h.headMsg]
  rfl

/-! Answers and acknowledgements. -/

theorem settleWrites_none {die sec : Nat} (h : ∀ e ∈ s.rwq, ¬ (e.die = die ∧ e.pa / 64 = sec)) : s.settleWrites die sec = s := by
  have hany : s.rwq.any (fun e => e.die == die && e.pa / 64 == sec) = false :=
    List.any_eq_false.2 fun e he => by simpa using h e he
  unfold State.settleWrites
  rw [hany]
  rfl

theorem eq_of_besideDir {s u : State} (h : u.besideDir = s.besideDir) : u = { s with dir := u.dir, dirOrder := u.dirOrder } :=
  congrArg (fun b : State => { b with dir := u.dir, dirOrder := u.dirOrder }) h

/-- A change of the directory alone is what a new record of holders makes (R330). -/
theorem putHolders_dir (s : State) (sec : Nat) (t : Tbl DirSt) :
    s.putHolders sec t = { s with dir := (s.putHolders sec t).dir, dirOrder := (s.putHolders sec t).dirOrder } :=
  eq_of_besideDir (putHolders_besideDir s sec t)

theorem holders_putHolders (s : State) (sec : Nat) (t : Tbl DirSt) : (s.putHolders sec t).holders sec = t := by
  have hdir : (s.putHolders sec t).dir = if t.isEmpty then Tbl.erase s.dir sec else Tbl.set s.dir sec ({ holders := t } : DirEntry) := by
    unfold State.putHolders
    extract_lets line s1
    split
    · split <;> rfl
    · rfl
  unfold State.holders
  rw [hdir]
  split
  next hempty => simp [Tbl.get, List.isEmpty_iff.1 hempty]
  next => simp

theorem filter_modifyFirst {α : Type} (p q : α → Bool) (b : α) (hp : ∀ a, p a = true → q a = false) (hb : q b = false) (l : List α) :
    (modifyFirst p (fun _ => b) l).filter q = l.filter q := by
  induction l with
  | nil => rfl
  | cons a t ih =>
    unfold modifyFirst
    split
    next ha => rw [List.filter_cons_of_neg (by simp [hb]), List.filter_cons_of_neg (by simp [hp a ha])]
    next => rw [List.filter_cons, List.filter_cons, ih]

/-- The state after the last acknowledgement of a ReadOwn whose requester has its answer from the holder (R304). -/
theorem endTxn_forwarded (t : Txn) (hkind : t.kind = .readOwn) (hfor : t.forwarded = true) (hr : t.requester ≠ homeOf (64 * t.sector))
    (hqueued : s.queued = []) (hrwq : ∀ e ∈ s.rwq, ¬ (e.die = t.requester ∧ e.pa / 64 = t.sector)) :
    s.endTxn t = ({ s with txns := s.txns.filter (fun q => q.sector ≠ t.sector) } : State).putHolders t.sector [(t.requester, if t.dirty then .m else .e)] := by
  have hout : s.endTxn t = ((({ s with txns := s.txns.filter (fun q => q.sector ≠ t.sector) } : State).putHolders t.sector
      [(t.requester, if t.dirty then .m else .e)]).settleWrites t.requester t.sector).kick := by
    unfold State.endTxn ownRecord
    simp only [hkind, hfor, if_neg hr]
    rfl
  rw [hout, settleWrites_none (by rw [putHolders_dir]; exact hrwq), kick_nil (by rw [putHolders_dir]; exact hqueued)]

/-- The transaction after an acknowledgement from a die that has sent the data or not. -/
def acked (x : Txn) (m : CMsg) : Txn := { x with acks := x.acks - 1, forwarded := x.forwarded || m.retain, dirty := x.dirty || m.dirty }

theorem invalAck_last {x : Txn} (h : Heads m .invalAck s) (hfind : s.txns.find? (fun q => q.sector = m.sector) = some x) (hacks : x.acks = 1)
    (hgrant : m.grant = none) :
    s.invalAck m.src m.dst = ({ (s.takeMsg m).dropHolder m.sector m.src with
      txns := modifyFirst (fun (q : Txn) => q.sector = x.sector) (fun _ => acked x m) ((s.takeMsg m).dropHolder m.sector m.src).txns } : State).endTxn (acked x m) := by
  have hfind : (s.takeMsg m).txns.find? (fun q => q.sector = m.sector) = some x := hfind
  unfold State.invalAck
  rw [h.headMsg]
  dsimp only
  rw [hfind, hgrant]
  exact if_pos (by rw [hacks])

theorem invalAck_closes {x : Txn} (h : Heads m .invalAck s) (hfind : s.txns.find? (fun q => q.sector = m.sector) = some x) (hacks : x.acks = 1)
    (hkind : x.kind = .readOwn) (hgrant : m.grant = none) (hsent : m.retain = true) (hr : x.requester ≠ homeOf (64 * m.sector))
    (hqueued : s.queued = []) (hrwq : ∀ e ∈ s.rwq, ¬ (e.die = x.requester ∧ e.pa / 64 = m.sector)) :
    ∃ b : State, b = { s.takeMsg m with txns := s.txns.filter (fun q => q.sector ≠ m.sector), dir := b.dir, dirOrder := b.dirOrder } ∧
      s.invalAck m.src m.dst = b.putHolders m.sector [(x.requester, if x.dirty || m.dirty then .m else .e)] := by
  have hsec : x.sector = m.sector := by simpa using List.find?_some hfind
  set d : State := (s.takeMsg m).dropHolder m.sector m.src
  have hdrop : d = { s.takeMsg m with dir := d.dir, dirOrder := d.dirOrder } := putHolders_dir _ _ _
  have hend : ({ d with txns := modifyFirst (fun (q : Txn) => q.sector = x.sector) (fun _ => acked x m) d.txns } : State).endTxn (acked x m) =
      ({ d with txns := d.txns.filter (fun q => q.sector ≠ x.sector) } : State).putHolders x.sector [(x.requester, if x.dirty || m.dirty then .m else .e)] := by
    refine (endTxn_forwarded (acked x m) hkind ?_ (hsec ▸ hr) ?_ ?_).trans
      (congrArg (fun l : List Txn => ({ d with txns := l } : State).putHolders x.sector [(x.requester, if x.dirty || m.dirty then .m else .e)])
        (filter_modifyFirst _ _ _ (fun a ha => ?_) ?_ d.txns))
    · simp [acked, hsent]
    · exact (congrArg State.queued hdrop).trans hqueued
    · exact (congrArg State.rwq hdrop).symm ▸ hsec.symm ▸ hrwq
    · exact decide_eq_false (not_not.2 (of_decide_eq_true ha))
    · exact decide_eq_false (not_not.2 rfl)
  rw [invalAck_last h hfind hacks hgrant, hend, hsec]
  exact ⟨_, congrArg (fun b : State => { b with txns := b.txns.filter (fun q => q.sector ≠ m.sector) }) hdrop, rfl⟩

/-- An answer with its data and no victim, at a die other than the home (R304, R306). -/
theorem data_installed {g : L2St} {b : List Byte} (h : Heads m k s) (hremote : m.dst ≠ homeOf (64 * m.sector)) (hgrant : m.grant = some g)
    (hdata : m.data = some b) (hrwq : ∀ e ∈ s.rwq, ¬ (e.die = m.dst ∧ e.pa / 64 = m.sector)) (hqueued : s.queued = []) :
    s.data m.src m.dst k none = ((s.takeMsg m).answered m.dst m.sector).fillL2 m.dst m.sector { st := g, data := b, wrote := s.now } := by
  have hhome : (homeOf (64 * m.sector) == m.dst) = false := beq_eq_false_iff_ne.2 hremote.symm
  have hout : s.data m.src m.dst k none =
      ((((s.takeMsg m).answered m.dst m.sector).fillL2 m.dst m.sector { st := g, data := b, wrote := s.now }).settleWrites m.dst m.sector).kick := by
    unfold State.data
    rw [h.headMsg]
    simp only [hgrant, hdata, hhome]
    rfl
  rw [hout, settleWrites_none (by rw [fillL2_eq]; exact hrwq), kick_nil (by rw [fillL2_eq]; exact hqueued)]

/-! What comes home (R307, R308, R309). -/

theorem dropHolder_queued (s : State) (sec die : Nat) : (s.dropHolder sec die).queued = s.queued :=
  (congrArg State.queued (putHolders_dir s sec _) :)

theorem dropHolder_backInv (s : State) (sec die : Nat) : (s.dropHolder sec die).backInv = s.backInv :=
  (congrArg State.backInv (putHolders_dir s sec _) :)

theorem writeBack_memory {b : List Byte} (h : Heads m .writeBack s) (hdst : m.dst = homeOf (64 * m.sector)) (hleaves : m.retain = false)
    (hdata : m.data = some b) (hhere : s.l2? m.dst m.sector = none) (hqueued : s.queued = []) :
    s.writeBack m.src m.dst = ({ s.takeMsg m with mem := writeBytes s.mem (64 * m.sector) b } : State).dropHolder m.sector m.src := by
  have hhome : (s.takeMsg m).l2? (homeOf (64 * m.sector)) m.sector = none := hdst ▸ hhere
  have hcome : (s.takeMsg m).comeHome m.sector b = { s.takeMsg m with mem := writeBytes s.mem (64 * m.sector) b } := by
    unfold State.comeHome
    simp only [hhome]
    rfl
  unfold State.writeBack
  rw [h.headMsg]
  simp only [hleaves, hdata, Option.getD_some, hcome]
  exact kick_nil ((dropHolder_queued _ _ _).trans hqueued)

theorem cleanEvict_head (h : Heads m .cleanEvict s) (hqueued : s.queued = []) : s.cleanEvict m.src m.dst = (s.takeMsg m).dropHolder m.sector m.src := by
  unfold State.cleanEvict
  rw [h.headMsg]
  exact kick_nil ((dropHolder_queued _ _ _).trans hqueued)

/-- A die leaves the record of a line. -/
def lineLeft (m : CMsg) (s : State) : State := (upto 4).foldl (fun q j => q.dropHolder (m.sector + j) m.src) s

theorem lineLeft_queued (m : CMsg) (s : State) : (lineLeft m s).queued = s.queued :=
  foldl_keeps (P := fun t => t.queued = s.queued) (fun t _ ht => (dropHolder_queued t _ _).trans ht) _ s rfl

theorem lineLeft_backInv (m : CMsg) (s : State) : (lineLeft m s).backInv = s.backInv :=
  foldl_keeps (P := fun t => t.backInv = s.backInv) (fun t _ ht => (dropHolder_backInv t _ _).trans ht) _ s rfl

theorem backInvalAck_last {q : BackInv} (h : Heads m .backInvalAck s) (hclean : m.parts = []) (hone : s.backInv = [q]) (hline : q.line = m.sector / 4)
    (hleft : q.left = [m.src]) (hqueued : s.queued = []) : s.backInvalAck m.src m.dst = { lineLeft m (s.takeMsg m) with backInv := [] } := by
  have hback : (lineLeft m (s.takeMsg m)).backInv = [q] := (lineLeft_backInv m _).trans hone
  have hfree : (((lineLeft m (s.takeMsg m)).backInv.map (fun (b : BackInv) => if b.line = m.line then { b with left := b.left.filter (· ≠ m.src) } else b)).filter
      (fun b => !b.left.isEmpty)) = [] := by
    rw [hback]
    simp [CMsg.line, hline, hleft]
  have hwait : (lineLeft m (s.takeMsg m)).queued = [] := (lineLeft_queued m _).trans hqueued
  unfold State.backInvalAck
  rw [h.headMsg]
  simp only [hclean, List.foldl_nil]
  rw [← lineLeft]
  generalize lineLeft m (s.takeMsg m) = b at hfree hwait ⊢
  rw [hfree]
  exact kick_nil hwait

end

/-! The cleaning of a sector that has rested (R308). -/

section
variable {s : State} {x : L2Line} {d sec : Nat}

theorem earlyClean_young (hx : s.l2? d sec = some x) (hyoung : s.now < x.wrote + 4096) : s.earlyClean d sec = s := by
  unfold State.earlyClean
  rw [hx]
  exact if_pos (.inl hyoung)

/-- Nothing keeps the sector from being cleaned. -/
theorem rested (hold : x.wrote + 4096 ≤ s.now) (hasked : ∀ a ∈ s.asked, ¬ (a.1 = d ∧ a.2.1 = sec)) :
    ¬ (s.now < x.wrote + 4096 ∨ s.asked.any (fun a => a.1 = d ∧ a.2.1 = sec)) := by
  rintro (hyoung | hany)
  · omega
  · obtain ⟨a, ha, hp⟩ := List.any_eq_true.1 hany
    exact hasked a ha (of_decide_eq_true hp)

theorem earlyClean_home (hx : s.l2? d sec = some x) (hst : x.st = .dirty) (hold : x.wrote + 4096 ≤ s.now)
    (hasked : ∀ a ∈ s.asked, ¬ (a.1 = d ∧ a.2.1 = sec)) :
    s.earlyClean d sec = { s.setL2 d sec { x with st := .clean } with mem := writeBytes s.mem (64 * sec) x.data } := by
  unfold State.earlyClean
  rw [hx]
  dsimp only
  rw [if_neg (rested hold hasked), hst]

theorem earlyClean_remote (hx : s.l2? d sec = some x) (hst : x.st = .m) (hold : x.wrote + 4096 ≤ s.now)
    (hasked : ∀ a ∈ s.asked, ¬ (a.1 = d ∧ a.2.1 = sec)) :
    s.earlyClean d sec = (s.setL2 d sec { x with st := .e }).post
      { kind := .writeBack, src := d, dst := homeOf (64 * sec), sector := sec, data := some x.data, retain := true, grant := some .e } := by
  unfold State.earlyClean
  rw [hx]
  dsimp only
  rw [if_neg (rested hold hasked), hst]

end

/-! Where no message is under way. -/

section
variable {s : State} (h : s.msgs = []) (d d2 : Nat)
include h

theorem request_silent (k : MsgKind) : s.request d d2 k = s := by
  unfold State.request
  rw [headMsg_empty h]

theorem fwdShared_silent : s.fwdShared d d2 = s := by
  unfold State.fwdShared
  rw [headMsg_empty h]

theorem fwdOwn_silent : s.fwdOwn d d2 = s := by
  unfold State.fwdOwn
  rw [headMsg_empty h]

theorem inval_silent : s.inval d d2 = s := by
  unfold State.inval
  rw [headMsg_empty h]

theorem backInval_silent : s.backInval d d2 = s := by
  unfold State.backInval
  rw [headMsg_empty h]

theorem invalAck_silent : s.invalAck d d2 = s := by
  unfold State.invalAck
  rw [headMsg_empty h]

theorem data_silent (k : MsgKind) : s.data d d2 k none = s := by
  unfold State.data
  rw [headMsg_empty h]

theorem writeBack_silent : s.writeBack d d2 = s := by
  unfold State.writeBack
  rw [headMsg_empty h]

theorem cleanEvict_silent : s.cleanEvict d d2 = s := by
  unfold State.cleanEvict
  rw [headMsg_empty h]

theorem backInvalAck_silent : s.backInvalAck d d2 = s := by
  unfold State.backInvalAck
  rw [headMsg_empty h]

end

theorem next_of_eq {a b : State} (h : a = b) : (Host.Outcome.next a : Result) = .next b := congrArg _ h

/-- The messages of coherence (R302). -/
def isMessage (i : Instr) (d d2 : Nat) : Prop := i = .readShared d d2 ∨ i = .readOwn d d2 ∨ i = .upgrade d d2 ∨ i = .fwdShared d d2 ∨
  i = .fwdOwn d d2 ∨ i = .inval d d2 ∨ i = .backInval d d2 ∨ i = .invalAck d d2 ∨ i = .dataClean d d2 none ∨ i = .dataDirty d d2 none ∨
  i = .writeBack d d2 ∨ i = .cleanEvict d d2 ∨ i = .backInvalAck d d2

theorem message_silent {i : Instr} {d d2 : Nat} (hi : isMessage i d d2) : Waits i (fun s => s.msgs = []) := by
  intro s h
  rcases hi with rfl | rfl | rfl | rfl | rfl | rfl | rfl | rfl | rfl | rfl | rfl | rfl | rfl
  · exact next_of_eq (request_silent h d d2 .readShared)
  · exact next_of_eq (request_silent h d d2 .readOwn)
  · exact next_of_eq (request_silent h d d2 .upgrade)
  · exact next_of_eq (fwdShared_silent h d d2)
  · exact next_of_eq (fwdOwn_silent h d d2)
  · exact next_of_eq (inval_silent h d d2)
  · exact next_of_eq (backInval_silent h d d2)
  · exact next_of_eq (invalAck_silent h d d2)
  · exact next_of_eq (data_silent h d d2 .dataClean)
  · exact next_of_eq (data_silent h d d2 .dataDirty)
  · exact next_of_eq (writeBack_silent h d d2)
  · exact next_of_eq (cleanEvict_silent h d d2)
  · exact next_of_eq (backInvalAck_silent h d d2)

/-- Settles O52: each message by what its step does with it at the head of its channel. -/
theorem coherenceMessagesMoveTheirSectors : Obligations.CoherenceMessagesMoveTheirSectors := by
  unfold Obligations.CoherenceMessagesMoveTheirSectors
  intro m x x1 d d2 sec v b
  refine ⟨?shared, ?sharedHome, ?sharedHeld, ?own, ?ownHeld, ?upgrade, ?busy, ?fwdShared, ?fwdOwn, ?inval, ?backInval, ?invalAck, ?data, ?writeBack,
    ?cleanEvict, ?backInvalAck, ?cleanHome, ?cleanRemote, ?young, fun i hi => message_silent hi⟩
  case shared =>
    rintro s ⟨⟨hhead, hdst, -, hremote, hidle⟩, hnone, hhere⟩
    refine next_of_eq ((request_idle hhead hidle).trans ((transact_shared_free (s := s.takeMsg m) hhead.1 hnone).trans (grantShared_first (s := s.takeMsg m) hremote hnone ?_)))
    exact hdst ▸ hhere
  case sharedHome =>
    rintro s ⟨hhead, hdst, hhome, hidle, hnone, hhere⟩
    refine next_of_eq ((request_idle hhead hidle).trans ((transact_shared_free (s := s.takeMsg m) hhead.1 hnone).trans ?_))
    rw [hhome]
    exact grantShared_home (s := s.takeMsg m) (hdst ▸ hhere)
  case sharedHeld =>
    rintro s ⟨⟨hhead, -, -, -, hidle⟩, hheld, hv⟩
    exact next_of_eq ((request_idle hhead hidle).trans (transact_shared_held (s := s.takeMsg m) hhead.1 hheld hv))
  case own =>
    rintro s ⟨⟨hhead, hdst, -, hremote, hidle⟩, hnone, hhere, hst⟩
    refine next_of_eq ((request_idle hhead hidle).trans ((transact_own (s := s.takeMsg m) hhead.1).trans ((readOwnAt_free (s := s.takeMsg m) hnone).trans (grantOwn_dirty (s := s.takeMsg m) hremote ?_ hst))))
    exact hdst ▸ hhere
  case ownHeld =>
    rintro s ⟨⟨hhead, -, -, hremote, hidle⟩, hheld, hv, hd⟩
    refine next_of_eq ((request_idle hhead hidle).trans ((transact_own (s := s.takeMsg m) hhead.1).trans ((readOwnAt_held (s := s.takeMsg m) hheld hv hd).trans ?_)))
    rw [dropHome_remote hremote]
    rfl
  case upgrade =>
    rintro s ⟨⟨hhead, -, -, hremote, hidle⟩, hheld⟩
    exact next_of_eq ((request_idle hhead hidle).trans ((transact_upgrade (s := s.takeMsg m) hhead.1 hremote hheld).trans (grantUpgrade_remote hremote)))
  case busy =>
    rintro i k hi s ⟨hhead, hbusy⟩
    obtain ⟨rfl, rfl⟩ | ⟨rfl, rfl⟩ | ⟨rfl, rfl⟩ := hi
    · exact next_of_eq (request_busy hhead hbusy)
    · exact next_of_eq (request_busy hhead hbusy)
    · exact next_of_eq (request_busy hhead hbusy)
  case fwdShared =>
    rintro s ⟨hhead, hhere⟩
    exact next_of_eq (fwdShared_held hhead hhere)
  case fwdOwn =>
    rintro s ⟨hhead, hhere⟩
    exact next_of_eq (fwdOwn_held hhead hhere)
  case inval =>
    rintro s hhead
    exact next_of_eq (inval_head hhead)
  case backInval =>
    rintro s ⟨hhead, hhere, hst, hrest⟩
    refine next_of_eq ((backInval_head hhead).trans ?_)
    rw [dirtyParts_one hhere hst hrest]
    rfl
  case invalAck =>
    rintro s ⟨hhead, hfind, hacks, hkind, hgrant, hsent, hremote, hqueued, hrwq⟩
    obtain ⟨b, hb, hout⟩ := invalAck_closes hhead hfind hacks hkind hgrant hsent hremote hqueued hrwq
    refine ⟨_, next_of_eq hout, ?_, ?_, holders_putHolders b _ _⟩
    · rw [putHolders_dir, hb]
      rfl
    · rw [putHolders_dir, hb]
  case data =>
    rintro i k hi g s ⟨hhead, hremote, hgrant, hdata, hrwq, hqueued⟩
    obtain ⟨rfl, rfl⟩ | ⟨rfl, rfl⟩ := hi
    · exact next_of_eq (data_installed hhead hremote hgrant hdata hrwq hqueued)
    · exact next_of_eq (data_installed hhead hremote hgrant hdata hrwq hqueued)
  case writeBack =>
    rintro s ⟨hhead, hdst, hleaves, hdata, hhere, hqueued⟩
    exact next_of_eq (writeBack_memory hhead hdst hleaves hdata hhere hqueued)
  case cleanEvict =>
    rintro s ⟨hhead, hqueued⟩
    exact next_of_eq (cleanEvict_head hhead hqueued)
  case backInvalAck =>
    rintro s ⟨hhead, hclean, ⟨q, hone, hline, hleft⟩, hqueued⟩
    exact next_of_eq (backInvalAck_last hhead hclean hone hline hleft hqueued)
  case cleanHome =>
    rintro s ⟨hx, hst, hold, hasked⟩
    exact next_of_eq (earlyClean_home hx hst hold hasked)
  case cleanRemote =>
    rintro s ⟨hx, hst, hold, hasked⟩
    exact next_of_eq (earlyClean_remote hx hst hold hasked)
  case young =>
    rintro s ⟨hx, hyoung⟩
    exact next_of_eq (earlyClean_young hx hyoung)

end Sys2Proof.Machine
end

section
/-! SUPPORT. The dealer, the commit arbiter, tokens, settling and the journal's saves (R359 to R379, R437), and the statement O53. -/

namespace Sys2Proof.Machine

open Sys2Proof Sys2Proof.Safe

section
variable {s s1 : State} {die core : Nat} {c : Card} {parts tasks : List Nat}

/-! DEAL (R359 to R362). -/

/-- The dealer remembers the card that it deals from (R362). -/
def dealing (die : Nat) (c : Card) (s : State) : State := { s with lastDeal := Tbl.set s.lastDeal (4 * die + c.cls) c.id }

/-- The chunk that a die takes of a card's ready tasks (R361). -/
def chunkHead (die : Nat) (c : Card) (s : State) : List Nat :=
  ((dealing die c s).dealable c die).take
    (chunkSize (c.ready.filter (fun i => match (c.task i).st with | .ready .. => true | _ => false)).length ((dealing die c s).roomFor c) c.width)

theorem chunkSize_eq (n i width : Nat) :
    chunkSize n i width = min (max 1 (ceilDiv n (2 * max 1 i))) (if width = 0 then 32 else if width = 1 then 8 else 1) := by
  unfold chunkSize
  match width with
  | 0 => rfl
  | 1 => rfl
  | n + 2 => rw [if_neg (by omega), if_neg (by omega)]; rfl

theorem deal_idle (h : s.fencedDies.contains die = true ∨ s.nextCard die = none) : s.deal die = s := by
  unfold State.deal
  split
  · rfl
  next hup =>
    rw [h.resolve_left hup]

theorem deal_picks (hup : s.fencedDies.contains die = false) (hnext : s.nextCard die = some (c, core, parts))
    (hread : State.readArgs die c (chunkHead die c s) (dealing die c s) = (tasks, s1)) :
    s.deal die = if tasks.isEmpty then s1 else s1.dealChunk c core parts tasks := by
  have hout : s.deal die = match State.readArgs die c (chunkHead die c s) (dealing die c s) with
      | (tasks, s) => if tasks.isEmpty then s else s.dealChunk c core parts tasks := by
    unfold State.deal
    rw [hup, if_neg Bool.false_ne_true, hnext]
    rfl
  rw [hout, hread]

end

/-! The arbiter's queue of one (R367, R372). -/

section
variable {s : State} {die a : Nat} {fin : Bool} {r : Run} {c : Card} {q : CommitQ}

/-- A run's one entry of the arbiter's queue. -/
def Queued (q : CommitQ) (r : Run) (c : Card) (s : State) : Prop := s.arb = [q] ∧ s.run? r.id = some r ∧ s.card? r.card = some c

/-- The queue without its entry. -/
def popped (s : State) : State := { s with arb := [] }

/-- Nothing holds back the drain of the run's stores (R222, R437). -/
def Drains (r : Run) (s : State) : Prop := (popped s).judge r = .go ∧ (popped s).drainChunks r = [] ∧ ∀ c ∈ r.sectors, s.copyOwned c = false

theorem Drains.free (h : Drains r s) : r.sectors.any (popped s).copyOwned = false :=
  List.any_eq_false.2 fun x hx => by
    have hfree : (popped s).copyOwned x = false := h.2.2 x hx
    simp [hfree]

theorem others_none (harb : s.arb = [q]) (hq : q.run = r.id) : s.arb.filter (fun p => p.run ≠ r.id) = [] := by
  rw [harb, List.filter_cons_of_neg (by simp [hq])]
  rfl

theorem commitStep_none (h : (s.arb = [{ die := die, run := r.id }] ∧ s.run? r.id = some r ∧ s.commitReady r = false) ∨ s.arb = []) :
    s.commitStep die = s := by
  unfold State.commitStep
  rcases h with ⟨harb, hrun, hready⟩ | harb
  · rw [harb]
    simp [hrun, hready]
  · rw [harb]
    rfl

/-- COMMIT at a queue whose entry is ready, by the judgement of the run (R372). -/
theorem commitStep_ready (h : Queued { die := die, run := r.id } r c s) (hready : s.commitReady r = true) :
    s.commitStep die = match (popped s).judge r with
      | .abort => (popped s).abort r.id (.rerun true)
      | .wait => { s with arb := [{ die := die, run := r.id, waits := true }] }
      | .go => if r.sectors.any (popped s).copyOwned then { popped s with arb := [{ die := die, run := r.id }] }
        else if ((popped s).drainChunks r).isEmpty then ((popped s).broadcast r []).finishCommit r c die
        else { (popped s).beginSaves r.ctx r.serial ((popped s).drainChunks r) with arb := [{ die := die, run := r.id }] } := by
  obtain ⟨harb, hrun, hcard⟩ := h
  have hfind : s.arb.findSome? (fun q => if q.die = die ∧ q.publish = none ∧ q.waits = false then
      (s.run? q.run).bind (fun r => if s.commitReady r then some r else none) else none) = some r := by
    rw [harb]
    simp [hrun, hready]
  have hcard : (popped s).card? r.card = some c := hcard
  unfold State.commitStep
  rw [hfind]
  dsimp only
  rw [others_none harb rfl, ← popped, hcard]
  cases (popped s).judge r <;> rfl

theorem commitStep_go (h : Queued { die := die, run := r.id } r c s) (hready : s.commitReady r = true) (hdrains : Drains r s) :
    s.commitStep die = ((popped s).broadcast r []).finishCommit r c die := by
  rw [commitStep_ready h hready, hdrains.1, hdrains.2.1, hdrains.free]
  exact (if_neg Bool.false_ne_true).trans (if_pos rfl)

theorem commitStep_abort (h : Queued { die := die, run := r.id } r c s) (hready : s.commitReady r = true) (habort : (popped s).judge r = .abort) :
    s.commitStep die = (popped s).abort r.id (.rerun true) := by
  rw [commitStep_ready h hready, habort]

theorem commitStep_wait (h : Queued { die := die, run := r.id } r c s) (hready : s.commitReady r = true) (hwait : (popped s).judge r = .wait) :
    s.commitStep die = { s with arb := [{ die := die, run := r.id, waits := true }] } := by
  rw [commitStep_ready h hready, hwait]

theorem lapStep_none (h : s.arb = [] ∨ (s.arb = [{ die := die, run := r.id, publish := some (a, fin) }] ∧ s.run? r.id = some r ∧
    s.lateConsumers r a ≠ [] ∧ ∀ x ∈ s.lateConsumers r a, x.2.2 = false)) : s.lapStep die = s := by
  unfold State.lapStep
  rcases h with harb | ⟨harb, hrun, hlate, hspared⟩
  · rw [harb]
    rfl
  · have hspared : (s.lateConsumers r a).any (fun x => x.2.2) = false := List.any_eq_false.2 fun x hx => by simp [hspared x hx]
    rw [harb]
    simp [hrun, hlate, hspared]

/-- LAP_PUBLISH at a queue whose entry no consumer is late for, by the judgement of the run (R372, R375). -/
theorem lapStep_ready (h : Queued { die := die, run := r.id, publish := some (a, fin) } r c s) (hlate : s.lateConsumers r a = []) :
    s.lapStep die = match (popped s).judge r with
      | .abort => (popped s).abort r.id (.rerun true)
      | .wait => { s with arb := [{ die := die, run := r.id, publish := some (a, fin), waits := true }] }
      | .go => if r.sectors.any (popped s).copyOwned then { popped s with arb := [{ die := die, run := r.id, publish := some (a, fin) }] }
        else if ((popped s).drainChunks r).isEmpty then
          ((popped s).broadcast r (((popped s).tileEdges r).map (fun e => fld e.2 0 56))).publishLap r c die a fin
        else { (popped s).beginSaves r.ctx r.serial ((popped s).drainChunks r) with arb := [{ die := die, run := r.id, publish := some (a, fin) }] } := by
  obtain ⟨harb, hrun, hcard⟩ := h
  have hfind : s.arb.findSome? (fun q => if q.die = die ∧ q.waits = false then
      q.publish.bind (fun p => (s.run? q.run).bind (fun r =>
        let late := s.lateConsumers r p.1
        if late.isEmpty || late.any (fun x => x.2.2) then some (r, p) else none)) else none) = some (r, a, fin) := by
    rw [harb]
    simp [hrun, hlate]
  have hcard : (popped s).card? r.card = some c := hcard
  unfold State.lapStep
  rw [hfind]
  dsimp only
  rw [hlate, List.filter_nil, List.foldl_nil]
  refine (if_neg Bool.false_ne_true).trans ?_
  rw [others_none harb rfl, ← popped, hcard]
  cases (popped s).judge r <;> rfl

theorem lapStep_go (h : Queued { die := die, run := r.id, publish := some (a, fin) } r c s) (hlate : s.lateConsumers r a = []) (hdrains : Drains r s) :
    s.lapStep die = ((popped s).broadcast r (((popped s).tileEdges r).map (fun e => fld e.2 0 56))).publishLap r c die a fin := by
  rw [lapStep_ready h hlate, hdrains.1, hdrains.2.1, hdrains.free]
  exact (if_neg Bool.false_ne_true).trans (if_pos rfl)

theorem lapStep_abort (h : Queued { die := die, run := r.id, publish := some (a, fin) } r c s) (hlate : s.lateConsumers r a = [])
    (habort : (popped s).judge r = .abort) : s.lapStep die = (popped s).abort r.id (.rerun true) := by
  rw [lapStep_ready h hlate, habort]

end

/-! DIE_TOKEN_GRANT (R371). -/

section
variable {s : State} {die l : Nat} {r : Run} {k : HeatKey}

/-- A lane that waited for its run's tokens goes on. -/
def Lane.tokened (x : Lane) : Lane := if x.st = .blocked .token then { x with st := .running } else x

/-- The die's token is the run's. -/
def tokenGiven (die : Nat) (r : Run) (s : State) : State :=
  { s.updRun r.id (fun q => { q with tokens := [die] }) with token := Tbl.set s.token die r.id }

theorem tokenGiven_eq (hrun : s.run? r.id = some r) (hnone : r.tokens = []) :
    ({ s.updRun r.id (fun q => { q with tokens := q.tokens ++ [die] }) with token := Tbl.set s.token die r.id } : State) = tokenGiven die r s := by
  have hupd : s.updRun r.id (fun q => { q with tokens := q.tokens ++ [die] }) = s.updRun r.id (fun q => { q with tokens := [die] }) :=
    updRun_congr hrun (by rw [hnone]; rfl)
  rw [hupd]
  rfl

/-- The lanes of a run go on, where it holds its domain's tokens. -/
def tokensHeld (i : Nat) (s : State) : State := match s.run? i with
  | none => s
  | some r =>
    if (s.domain r).all r.tokens.contains then
      (s.lanesOf r).foldl (fun s kl => s.updLane kl.1 kl.2 Lane.tokened) { s with tokenQ := s.tokenQ.filter (· ≠ i) }
    else s

theorem grantToken_none (h : (Tbl.find? s.token die).isSome = true ∨ s.tokenQ = []) : s.grantToken die = s := by
  unfold State.grantToken
  split
  · rfl
  next hfree =>
    rw [h.resolve_left hfree]
    rfl

theorem grantToken_last (hfree : Tbl.find? s.token die = none) (hqueue : s.tokenQ = [r.id]) (hrun : s.run? r.id = some r) (hnone : r.tokens = [])
    (hdomain : s.domain r = [die]) :
    s.grantToken die = (s.lanesOf r).foldl (fun s kl => s.updLane kl.1 kl.2 Lane.tokened) { tokenGiven die r s with tokenQ := [] } := by
  have hheld : (tokenGiven die r s).run? r.id = some { r with tokens := [die] } := run?_updRun _ hrun fun _ => rfl
  have hdom : (tokenGiven die r s).domain { r with tokens := [die] } = [die] := hdomain
  have hout : s.grantToken die =
      tokensHeld r.id { s.updRun r.id (fun q => { q with tokens := q.tokens ++ [die] }) with token := Tbl.set s.token die r.id } := by
    unfold State.grantToken
    simp only [hfree, hqueue, List.find?_cons, hrun, hdomain, hnone, List.filter_cons, List.contains_nil, Bool.not_false, if_true, List.head?_cons,
      BEq.rfl, Option.isSome_none, Bool.false_eq_true, if_false]
    rfl
  have hqueue : (tokenGiven die r s).tokenQ.filter (· ≠ r.id) = [] := by
    rw [show (tokenGiven die r s).tokenQ = [r.id] from hqueue, List.filter_cons_of_neg (by simp)]
    rfl
  rw [hout, tokenGiven_eq hrun hnone]
  unfold tokensHeld
  rw [hheld]
  dsimp only
  rw [hdom, hqueue]
  exact if_pos (by simp)

end

/-! GROUP_SETTLE (R379). -/

section
variable {s : State} {ctx obj pa : Nat} {g : Group}

theorem ownWrite_heats (s : State) (die pa : Nat) (bs : List Byte) : (s.ownWrite die pa bs).heats = s.heats := by
  rw [ownWrite_cached s die pa bs]

theorem deposit_heats (s : State) (ctx origin : Nat) (sc : Scope) (d : Sig) (o : Nat × Nat) (flags : Nat) :
    (s.deposit ctx origin sc d (some o) flags).heats = s.heats := by
  unfold State.deposit
  dsimp only
  refine (ownWrite_heats _ _ _ _).trans ?_
  split
  · rfl
  · exact ownWrite_heats _ _ _ _

/-- A card of the group that has not settled. -/
def inGroup (ctx obj : Nat) (x : Card) : Bool := x.ctx == ctx && x.completion == obj && !x.settled

/-- Every task of a card has retired (R357, R461). -/
def Retired (s : State) (x : Card) : Prop := ∀ i, i < x.count → (x.task i).st = .retired ∧ s.dealerBusy x.id i = false

/-- Whether a task of a card has not retired. -/
def unretired (s : State) (x : Card) : Bool := !((upto x.count).all (fun i => (x.task i).st = .retired && !(s.dealerBusy x.id i)))

theorem unretired_eq_false (x : Card) : unretired s x = false ↔ Retired s x := by
  unfold unretired Retired
  simp [upto]

/-- The group and its cards are settled. -/
def cardsSettled (s : State) : State := { s with groups := [], cards := s.cards.map (fun x => { x with settled := true, entries := [] }) }

theorem cards_settled (hmine : ∀ x ∈ s.cards, inGroup ctx obj x = true) :
    s.cards.map (fun x => if inGroup ctx obj x then { x with settled := true, entries := [] } else x) =
      s.cards.map (fun x => { x with settled := true, entries := [] }) :=
  List.map_congr_left fun x hx => if_pos (hmine x hx)

theorem find_group (hone : s.groups = [g]) (hctx : g.ctx = ctx) (hobj : g.obj = obj) :
    s.groups.find? (fun g => g.ctx = ctx ∧ g.obj = obj) = some g := by
  rw [hone]
  simp [hctx, hobj]

theorem settle_waits (hone : s.groups = [g]) (hctx : g.ctx = ctx) (hobj : g.obj = obj)
    (hopen : ∃ x ∈ s.cards, inGroup ctx obj x = true ∧ ¬ Retired s x) : s.settle ctx obj = s := by
  obtain ⟨x, hx, hmine, hnot⟩ := hopen
  have hunretired : unretired s x = true := Bool.eq_true_of_not_eq_false fun h => hnot ((unretired_eq_false x).1 h)
  have hany : s.cards.any (fun c => inGroup ctx obj c && unretired s c) = true :=
    List.any_eq_true.2 ⟨x, hx, Bool.and_eq_true_iff.2 ⟨hmine, hunretired⟩⟩
  unfold State.settle
  rw [find_group hone hctx hobj]
  exact if_pos (Bool.or_eq_true_iff.2 (.inl hany))

/-- The release by the arbiter of the object's home (R379). -/
def settling (ctx pa flags : Nat) (s : State) : State :=
  s.deposit ctx (arbOrigin (homeOf pa)) .system (s.fullSig pa) (some (pa, (s.cohNat pa 8 + 1) % 2 ^ 64)) flags

/-- The lanes that wait for a settling. -/
def settleWaiters (ctx obj : Nat) (s : State) : List (HeatKey × Nat × Nat) :=
  s.heats.flatMap (fun h => if h.key.ctx ≠ ctx ∨ h.saved then [] else (upto h.lanes.length).filterMap (fun l =>
    if (h.lane l).st = .blocked (.tsettle obj) then some (h.key, l, obj) else none))

theorem settleWaiters_none (h : ∀ x ∈ s.heats, x.key.ctx ≠ ctx) : settleWaiters ctx obj s = [] :=
  List.flatMap_eq_nil_iff.2 fun x hx => if_pos (.inl (h x hx))

/-- A settling once its group and cards are marked: the release where the object is in place, then the entries and the waiting lanes (R379). -/
def afterMarked (ctx obj flags : Nat) (s : State) : State :=
  let t := match s.peek ctx s.agentDie obj .write with
    | .error _ => s
    | .ok pa => if s.poisoned pa 64 then s else settling ctx pa flags s
  (settleWaiters ctx obj t).foldl State.endSettle t.entriesFreed

theorem settle_marked (hone : s.groups = [g]) (hctx : g.ctx = ctx) (hobj : g.obj = obj)
    (hcards : ∀ x ∈ s.cards, inGroup ctx obj x = true ∧ Retired s x) (hruns : s.runs = []) :
    s.settle ctx obj = afterMarked ctx obj g.flags (cardsSettled s) := by
  have hopen : s.cards.any (fun c => inGroup ctx obj c && unretired s c) = false :=
    List.any_eq_false.2 fun x hx => by simp [(unretired_eq_false x).2 (hcards x hx).2]
  have hgroups : s.groups.filter (fun x => x ≠ g) = [] := by
    rw [hone, List.filter_cons_of_neg (by simp)]
    rfl
  have hmarked : ({ s with groups := s.groups.filter (fun x => x ≠ g)
                           cards := s.cards.map (fun x => if inGroup ctx obj x then { x with settled := true, entries := [] } else x) } : State) =
      cardsSettled s := by
    rw [hgroups, cards_settled fun x hx => (hcards x hx).1]
    rfl
  have hclosed : (s.cards.any (fun c => inGroup ctx obj c && unretired s c) ||
      s.runs.any (fun r => s.cards.any (fun c => inGroup ctx obj c && c.id == r.card))) = false :=
    Bool.or_eq_false_iff.2 ⟨hopen, by rw [hruns]; rfl⟩
  unfold State.settle
  rw [find_group hone hctx hobj]
  exact (if_neg (Bool.eq_false_iff.1 hclosed)).trans (congrArg (afterMarked ctx obj g.flags) hmarked)

theorem settle_released (hone : s.groups = [g]) (hctx : g.ctx = ctx) (hobj : g.obj = obj)
    (hcards : ∀ x ∈ s.cards, inGroup ctx obj x = true ∧ Retired s x) (hruns : s.runs = []) (hheats : ∀ h ∈ s.heats, h.key.ctx ≠ ctx)
    (hpeek : s.peek ctx s.agentDie obj .write = .ok pa) (hclean : s.poisoned pa 64 = false) :
    s.settle ctx obj = (settling ctx pa g.flags (cardsSettled s)).entriesFreed := by
  have hwait : settleWaiters ctx obj (settling ctx pa g.flags (cardsSettled s)) = [] :=
    settleWaiters_none (by unfold settling; rw [deposit_heats]; exact hheats)
  have hpeek : (cardsSettled s).peek ctx (cardsSettled s).agentDie obj .write = .ok pa := hpeek
  have hclean : (cardsSettled s).poisoned pa 64 = false := hclean
  rw [settle_marked hone hctx hobj hcards hruns]
  unfold afterMarked
  rw [hpeek]
  dsimp only
  rw [if_neg (Bool.eq_false_iff.1 hclean), hwait]
  rfl

end

/-! JOURNAL_SAVE (R437). -/

section
variable {s s1 : State} {ctx serial chunk n : Nat}

theorem journalSave_none (h : ∀ e ∈ (s.ctx ctx).saves, e.2 ≠ chunk) : s.journalSave ctx chunk = s := by
  have hfind : (s.ctx ctx).saves.find? (fun e => e.2 = chunk) = none := List.find?_eq_none.2 fun e he => by simp [h e he]
  unfold State.journalSave
  rw [hfind]

/-- What the end of a save leaves (R437). -/
def saveEnded (ctx serial chunk : Nat) (s : State) : Option (Nat × State) → State
  | none => s.unjournal ctx serial
  | some (n, s1) => s1.updCtx ctx (fun x => { x with saves := removeFirst (fun e => e = (serial, chunk)) x.saves, saved := x.saved ++ [(serial, chunk, n)] })

theorem journalSave_one (h : (s.ctx ctx).saves = [(serial, chunk)]) :
    s.journalSave ctx chunk = (saveEnded ctx serial chunk s (s.saveChunk ctx serial chunk)).retrySlots.serveFrames := by
  have hfind : (s.ctx ctx).saves.find? (fun e => e.2 = chunk) = some (serial, chunk) := by
    rw [h]
    simp
  unfold State.journalSave
  rw [hfind]
  dsimp only
  cases s.saveChunk ctx serial chunk <;> rfl

end

/-- Settles O53: each step of the dealer, the arbiter and the journal by its lemma. -/
theorem tasksAreDealtCommittedAndSettled : Obligations.TasksAreDealtCommittedAndSettled := by
  unfold Obligations.TasksAreDealtCommittedAndSettled
  intro die core ctx obj a l pa serial chunk n fin c r g parts tasks k s1
  extract_lets deals ready head picks q queued pops commits drains lap publishes mine retired saving
  have hhead (s : State) : head s = chunkHead die c s := congrArg (fun m => ((deals s).dealable c die).take m) (chunkSize_eq _ _ _).symm
  refine ⟨?dealt, ?lost, ?idle, ?commit, ?abort, ?wait, ?notReady, ?token, ?noToken, ?publish, ?lapAbort, ?late, ?settled, ?unsettled, ?saved, ?unsaved,
    fun s h => next_of_eq (journalSave_none h)⟩
  case dealt =>
    rintro s ⟨⟨hup, hnext, hread⟩, htasks⟩
    exact next_of_eq ((deal_picks hup hnext (hhead s ▸ hread)).trans (if_neg (by simpa using htasks)))
  case lost =>
    rintro s ⟨⟨hup, hnext, hread⟩, htasks⟩
    exact next_of_eq ((deal_picks hup hnext (hhead s ▸ hread)).trans (if_pos (by simpa using htasks)))
  case idle => exact fun s h => next_of_eq (deal_idle h)
  case commit => exact fun s ⟨⟨hqueued, hready⟩, hdrains⟩ => next_of_eq (commitStep_go hqueued hready hdrains)
  case abort => exact fun s ⟨⟨hqueued, hready⟩, habort⟩ => next_of_eq (commitStep_abort hqueued hready habort)
  case wait => exact fun s ⟨⟨hqueued, hready⟩, hwait⟩ => next_of_eq (commitStep_wait hqueued hready hwait)
  case notReady =>
    rintro s (⟨⟨harb, hrun, -⟩, hready⟩ | harb)
    · exact next_of_eq (commitStep_none (.inl ⟨harb, hrun, hready⟩))
    · exact next_of_eq (commitStep_none (r := r) (.inr harb))
  case token =>
    rintro s ⟨hfree, hqueue, hrun, hnone, hdomain, hlanes⟩
    refine next_of_eq ((grantToken_last hfree hqueue hrun hnone hdomain).trans ?_)
    rw [hlanes]
    rfl
  case noToken => exact fun s h => next_of_eq (grantToken_none h)
  case publish => exact fun s ⟨⟨hqueued, hlate⟩, hdrains⟩ => next_of_eq (lapStep_go hqueued hlate hdrains)
  case lapAbort => exact fun s ⟨⟨hqueued, hlate⟩, habort⟩ => next_of_eq (lapStep_abort hqueued hlate habort)
  case late =>
    rintro s (harb | ⟨⟨harb, hrun, -⟩, hlate, hspared⟩)
    · exact next_of_eq (lapStep_none (r := r) (a := a) (fin := fin) (.inl harb))
    · exact next_of_eq (lapStep_none (.inr ⟨harb, hrun, hlate, hspared⟩))
  case settled =>
    rintro s ⟨hone, hctx, hobj, hcards, hruns, hheats, hpeek, hclean⟩
    exact next_of_eq (settle_released hone hctx hobj hcards hruns hheats hpeek hclean)
  case unsettled =>
    rintro s ⟨hone, hctx, hobj, hopen⟩
    exact next_of_eq (settle_waits hone hctx hobj hopen)
  case saved =>
    rintro s ⟨hsaving, hsave⟩
    exact next_of_eq ((journalSave_one hsaving).trans (by rw [hsave]; rfl))
  case unsaved =>
    rintro s ⟨hsaving, hsave⟩
    exact next_of_eq ((journalSave_one hsaving).trans (by rw [hsave]; rfl))

end Sys2Proof.Machine
end
